-- ==== Sys2Proof/Word.lean ====
section
/-! DEFINITION. The word types of the machine and the plainest arithmetic on them. -/

namespace Sys2Proof

/-- An 8-bit byte; memory is byte-addressed (R7). -/
abbrev Byte := BitVec 8
/-- A 32-bit register or memory word. -/
abbrev Word := BitVec 32
/-- A 64-bit pair: the lower register holds bits [31:0] (R61). -/
abbrev Dword := BitVec 64
/-- A 128-bit quad (R61). -/
abbrev Qword := BitVec 128

/-- The low and high halves of a 64-bit value, as a register pair holds them (R61). -/
def Dword.lo (x : Dword) : Word := x.extractLsb' 0 32
def Dword.hi (x : Dword) : Word := x.extractLsb' 32 32
/-- A pair read as one 64-bit value. -/
def pairOf (lo hi : Word) : Dword := hi ++ lo

/-- One bit of a word as a number. -/
def bit (b : Bool) : Nat := if b then 1 else 0

end Sys2Proof
end

