-- ==== Sys2Proof/Syntax.lean ====
section
/-! DEFINITION. The syntax of the machine: one constructor of `Instr` per row of the opcode table, an instruction
word of Table 3.7 (with the operand fields of its format, Table 3.3) or a step of one of the machine's agents. -/

namespace Sys2Proof

/-- A 7-bit operand code, Table 3.2 (R60): a main-file register, an operand-file register, a last-result register,
zr, the literal of the next word, or one of the codes 0x7E and 0x7F that make the instruction trap with ILLEGAL. -/
inductive Opnd where
  | g (n : Fin 112)
  | o (n : Fin 8)
  | l (n : Fin 4)
  | zr
  | lit
  | bad (hi : Bool)
  deriving DecidableEq, Repr

/-- The fields every instruction word carries (Table 3.1, R54): the chain bit C, the stall count S, and the literal
word that follows it in its packet when an operand position holds 0x7D (R58); `lit` is 0 when there is none. -/
structure Hdr where
  c   : Bool
  s   : BitVec 2
  lit : Word
  deriving DecidableEq, Repr

/-- The MMA and MMAJ extension word, Table 8.1 (R171). -/
structure MmaCtl where
  na : Bool
  z  : Bool
  sb : Opnd
  sa : Opnd
  cv : BitVec 4
  fb : BitVec 4
  fa : BitVec 4
  deriving DecidableEq, Repr

/-- The MDRAIN extension word, Table 8.3 (R183). -/
structure DrainCtl where
  col : Bool
  div : BitVec 9
  bar : BitVec 8
  rel : Bool
  add : Bool
  glb : Bool
  fmt : BitVec 4
  deriving DecidableEq, Repr

/-- The CPYL extension word, Table 8.8 (R191). -/
structure CpylCtl where
  bar : BitVec 8
  rel : Bool
  ch  : BitVec 4
  dir : BitVec 2
  deriving DecidableEq, Repr

/-- The CPYG extension word, Table 8.9 (R192). -/
structure CpygCtl where
  rowb : BitVec 8
  cnt  : BitVec 10
  bar  : BitVec 8
  rel  : Bool
  ch   : BitVec 4
  deriving DecidableEq, Repr

/-- A thread of the machine: host core 8 x slice + n (0-95), or thread `idx` = 32 x group + lane of a resident team
(R228; teams carry a number of the model's own, given at placement). -/
inductive ThreadId where
  | host (n : Nat)
  | simt (team idx : Nat)
  deriving DecidableEq, Repr

/-- The owner of a set of 16 logical copy channels (R193): a host thread or a team. -/
inductive Owner where
  | host (n : Nat)
  | team (n : Nat)
  deriving DecidableEq, Repr

/-- An address space (R305): the guest, the enclave (0 outside one) and, for enclave 0, the root set. -/
structure Space where
  guest : BitVec 8
  eid   : BitVec 16
  root  : Dword
  deriving DecidableEq, Repr

/-- The access kinds of Table 14.8 (R319). -/
inductive AccessKind where
  | read | write | atomic | execute | ldc | copyRead | copyWrite | drainWrite | signal | dma
  deriving DecidableEq, Repr

/-- The triplets of the module that TRSEL can name (R415): their KIND, slice and index. -/
structure Triplet where
  kind  : BitVec 4
  slice : BitVec 4
  index : BitVec 4
  deriving DecidableEq, Repr

/-- A frame that a sweep works on, and the frame that a firmware move takes its contents to (R372). -/
structure Swept where
  frame : Nat
  dst   : Option Nat := none
  deriving DecidableEq, Repr

/-- Where an array error strikes (Table 24.3, R420, R421). `clean` is an error that is corrected, or that strikes a clean copy, and so counts as
a correction: its class, its slice and, of an array in a quad, the quad's number within the slice. Others strike a barrier object, a B buffer
by its operation, a line of a constant cache or instruction L1, a TLB entry, a counter-cache entry, a copy of a command processor's queue
arrays, of the enclave controller's journal or of a triplet's state, and a line of an HBM4 stack. -/
inductive ErrorSite where
  | register (t : ThreadId) (code : Nat)
  | operandLog (entry : Nat)
  | scratch (o : Owner) (word : Nat)
  | tile (team key : Nat)
  | l1 (core line : Nat)
  | clean (cls slice : Nat) (quad : Option Nat)
  | barrier (o : Owner) (h : Nat)
  | bBuffer (op : Nat)
  | roLine (instr : Bool) (core line : Nat)
  | tlb (sp : Space) (page : Nat)
  | counterCache (slice : Nat)
  | queueEntry (slice copy : Nat)
  | journal (copy : Nat)
  | tripletState (t : Triplet) (copy : Nat)
  | hbm (pa : Nat)
  | l2 (pa : Nat)
  | rootStore (slice m : Nat)
  | tandem (complexB : Bool)
  deriving DecidableEq, Repr

/-- An SPDM request as it reaches the root of trust (R446, R447): the transport it came on, the session it is
bound to, its code and two parameters, and the bytes after them. -/
structure SpdmReq where
  relay   : Bool
  session : Option Nat
  code    : Byte
  param1  : Byte
  param2  : Byte
  payload : List Byte
  deriving DecidableEq, Repr

/-- One constructor per row of the opcode table: the instruction words of Table 3.7 with their operand fields, and the
steps of the machine's agents (the rows without an encoding) with the choice each step makes. -/
inductive Instr where
  /-- NOP: No operation; issues and waits out its stall count (R81) -/
  | nop (h : Hdr)
  /-- ADD: d := a + b modulo 2^32 (R98) -/
  | add (h : Hdr) (d a b : Opnd)
  /-- SUB: d := a - b modulo 2^32 (R98) -/
  | sub (h : Hdr) (d a b : Opnd)
  /-- MUL: d := low 32 bits of a × b (R98) -/
  | mul (h : Hdr) (d a b : Opnd)
  /-- MULHI: d := high 32 bits of the signed 64-bit product (R98) -/
  | mulhi (h : Hdr) (d a b : Opnd)
  /-- MULHU: d := high 32 bits of the unsigned 64-bit product (R98) -/
  | mulhu (h : Hdr) (d a b : Opnd)
  /-- MAD: d := low 32 bits of a × b + d (R98) -/
  | mad (h : Hdr) (d a b : Opnd)
  /-- AND: d := a AND b (R98) -/
  | and (h : Hdr) (d a b : Opnd)
  /-- OR: d := a OR b (R98) -/
  | or (h : Hdr) (d a b : Opnd)
  /-- XOR: d := a XOR b (R98) -/
  | xor (h : Hdr) (d a b : Opnd)
  /-- ANDN: d := a AND NOT b (R98) -/
  | andn (h : Hdr) (d a b : Opnd)
  /-- SHL: Shift a left by b[4:0] (R98) -/
  | shl (h : Hdr) (d a b : Opnd)
  /-- SHR: Logical right shift of a by b[4:0] (R98) -/
  | shr (h : Hdr) (d a b : Opnd)
  /-- SRA: Arithmetic right shift of a by b[4:0] (R98) -/
  | sra (h : Hdr) (d a b : Opnd)
  /-- MIN: Signed minimum of a and b (R98) -/
  | min (h : Hdr) (d a b : Opnd)
  /-- MAX: Signed maximum of a and b (R98) -/
  | max (h : Hdr) (d a b : Opnd)
  /-- MINU: Unsigned minimum of a and b (R98) -/
  | minu (h : Hdr) (d a b : Opnd)
  /-- MAXU: Unsigned maximum of a and b (R98) -/
  | maxu (h : Hdr) (d a b : Opnd)
  /-- ADDS: Saturating signed add (R98) -/
  | adds (h : Hdr) (d a b : Opnd)
  /-- SUBS: Saturating signed subtract (R98) -/
  | subs (h : Hdr) (d a b : Opnd)
  /-- LEA: d := a + (b << k), k from the opcode (R98) -/
  | lea (h : Hdr) (k : BitVec 2) (d a b : Opnd)
  /-- ADD64: 64-bit add of register pairs (R98) -/
  | add64 (h : Hdr) (d a b : Opnd)
  /-- SUB64: 64-bit subtract of register pairs (R98) -/
  | sub64 (h : Hdr) (d a b : Opnd)
  /-- MULW: Unsigned 32×32 to 64-bit product into a pair (R98) -/
  | mulw (h : Hdr) (d a b : Opnd)
  /-- MULWS: Signed 32×32 to 64-bit product into a pair (R98) -/
  | mulws (h : Hdr) (d a b : Opnd)
  /-- BFE: Bit-field extract with optional sign extension (R99) -/
  | bfe (h : Hdr) (d a b : Opnd)
  /-- BFI: Bit-field insert into d (R99) -/
  | bfi (h : Hdr) (d a b : Opnd)
  /-- PRMB: Byte permute under 4-bit selectors (R99) -/
  | prmb (h : Hdr) (d a b : Opnd)
  /-- ADDI: d := a + sign-extended I7 (R100) -/
  | addi (h : Hdr) (d a : Opnd) (imm : BitVec 7)
  /-- ANDI: d := a AND sign-extended I7 (R100) -/
  | andi (h : Hdr) (d a : Opnd) (imm : BitVec 7)
  /-- ORI: d := a OR sign-extended I7 (R100) -/
  | ori (h : Hdr) (d a : Opnd) (imm : BitVec 7)
  /-- XORI: d := a XOR sign-extended I7 (R100) -/
  | xori (h : Hdr) (d a : Opnd) (imm : BitVec 7)
  /-- SHLI: Shift left by I7[4:0] (R100) -/
  | shli (h : Hdr) (d a : Opnd) (imm : BitVec 5)
  /-- SHRI: Logical right shift by I7[4:0] (R100) -/
  | shri (h : Hdr) (d a : Opnd) (imm : BitVec 5)
  /-- SRAI: Arithmetic right shift by I7[4:0] (R100) -/
  | srai (h : Hdr) (d a : Opnd) (imm : BitVec 5)
  /-- MULI: d := low 32 bits of a × sign-extended I7 (R100) -/
  | muli (h : Hdr) (d a : Opnd) (imm : BitVec 7)
  /-- MOVI: d := sign-extended I14 (R100) -/
  | movi (h : Hdr) (d : Opnd) (imm : BitVec 14)
  /-- MOV: d := a (R100) -/
  | mov (h : Hdr) (d a : Opnd)
  /-- CLZ: Count leading zero bits (R101) -/
  | clz (h : Hdr) (d a : Opnd)
  /-- POPC: Count one bits (R101) -/
  | popc (h : Hdr) (d a : Opnd)
  /-- BREV: Reverse bit order (R101) -/
  | brev (h : Hdr) (d a : Opnd)
  /-- ABS: Absolute value modulo 2^32 (R101) -/
  | abs (h : Hdr) (d a : Opnd)
  /-- NEG: Two's-complement negate (R101) -/
  | neg (h : Hdr) (d a : Opnd)
  /-- NOT: Bitwise complement (R101) -/
  | not (h : Hdr) (d a : Opnd)
  /-- SEXT8: Sign-extend the low byte (R101) -/
  | sext8 (h : Hdr) (d a : Opnd)
  /-- SEXT16: Sign-extend the low halfword (R101) -/
  | sext16 (h : Hdr) (d a : Opnd)
  /-- ZEXT8: Zero-extend the low byte (R101) -/
  | zext8 (h : Hdr) (d a : Opnd)
  /-- ZEXT16: Zero-extend the low halfword (R101) -/
  | zext16 (h : Hdr) (d a : Opnd)
  /-- CTZ: Count trailing zero bits (R101) -/
  | ctz (h : Hdr) (d a : Opnd)
  /-- CMP: Set predicate p by integer condition cc on a and b (R102) -/
  | cmp (h : Hdr) (k : BitVec 4) (p : BitVec 3) (a b : Opnd)
  /-- CMPI: Set predicate p by integer condition cc on a and sign-extended I7 (R102) -/
  | cmpi (h : Hdr) (k : BitVec 4) (p : BitVec 3) (a : Opnd) (imm : BitVec 7)
  /-- PAND: p := pa AND pb (R103) -/
  | pand (h : Hdr) (p q r : BitVec 3)
  /-- POR: p := pa OR pb (R103) -/
  | por (h : Hdr) (p q r : BitVec 3)
  /-- PXOR: p := pa XOR pb (R103) -/
  | pxor (h : Hdr) (p q r : BitVec 3)
  /-- PANDN: p := pa AND NOT pb (R103) -/
  | pandn (h : Hdr) (p q r : BitVec 3)
  /-- PNOT: p := NOT pa (R103) -/
  | pnot (h : Hdr) (p q : BitVec 3)
  /-- PGET: Copy p7..p0 into d[7:0] (R104) -/
  | pget (h : Hdr) (d : Opnd)
  /-- PPUT: Set p1-p7 from a[7:1] (R104) -/
  | pput (h : Hdr) (a : Opnd)
  /-- SEL: d := a if pN else b, N from the opcode (R105) -/
  | sel (h : Hdr) (n : BitVec 3) (d a b : Opnd)
  /-- FADD: F32 add rounded by FPC.RM (R106) -/
  | fadd (h : Hdr) (d a b : Opnd)
  /-- FSUB: F32 subtract (R106) -/
  | fsub (h : Hdr) (d a b : Opnd)
  /-- FMUL: F32 multiply (R106) -/
  | fmul (h : Hdr) (d a b : Opnd)
  /-- FFMA: F32 fused a × b + d (R106) -/
  | ffma (h : Hdr) (d a b : Opnd)
  /-- FFNMA: F32 fused d − a × b (R106) -/
  | ffnma (h : Hdr) (d a b : Opnd)
  /-- FMIN: F32 minimum with NaN handling (R107) -/
  | fmin (h : Hdr) (d a b : Opnd)
  /-- FMAX: F32 maximum with NaN handling (R107) -/
  | fmax (h : Hdr) (d a b : Opnd)
  /-- FCMP: Set predicate by F32 comparison (R108) -/
  | fcmp (h : Hdr) (k : BitVec 4) (p : BitVec 3) (a b : Opnd)
  /-- HADD2: Add F16 pairs (R109) -/
  | hadd2 (h : Hdr) (d a b : Opnd)
  /-- HMUL2: Multiply F16 pairs (R109) -/
  | hmul2 (h : Hdr) (d a b : Opnd)
  /-- HFMA2: Fused multiply-add of F16 pairs (R109) -/
  | hfma2 (h : Hdr) (d a b : Opnd)
  /-- BADD2: Add BF16 pairs (R109) -/
  | badd2 (h : Hdr) (d a b : Opnd)
  /-- BMUL2: Multiply BF16 pairs (R109) -/
  | bmul2 (h : Hdr) (d a b : Opnd)
  /-- BFMA2: Fused multiply-add of BF16 pairs (R109) -/
  | bfma2 (h : Hdr) (d a b : Opnd)
  /-- DADD: F64 add of pairs (R110) -/
  | dadd (h : Hdr) (d a b : Opnd)
  /-- DMUL: F64 multiply of pairs (R110) -/
  | dmul (h : Hdr) (d a b : Opnd)
  /-- DFMA: F64 fused multiply-add of pairs (R110) -/
  | dfma (h : Hdr) (d a b : Opnd)
  /-- DCMP: Set predicate by F64 comparison (R111) -/
  | dcmp (h : Hdr) (k : BitVec 4) (p : BitVec 3) (a b : Opnd)
  /-- FRCP: Faithful F32 reciprocal (R112) -/
  | frcp (h : Hdr) (d a : Opnd)
  /-- FRSQ: Faithful F32 reciprocal square root (R112) -/
  | frsq (h : Hdr) (d a : Opnd)
  /-- FSQRT: F32 square root (R112) -/
  | fsqrt (h : Hdr) (d a : Opnd)
  /-- FEX2: F32 2^a (R112) -/
  | fex2 (h : Hdr) (d a : Opnd)
  /-- FLG2: F32 log2 a (R112) -/
  | flg2 (h : Hdr) (d a : Opnd)
  /-- FSINP: F32 sin(πa) (R112) -/
  | fsinp (h : Hdr) (d a : Opnd)
  /-- FCOSP: F32 cos(πa) (R112) -/
  | fcosp (h : Hdr) (d a : Opnd)
  /-- FTANH: F32 tanh a (R112) -/
  | ftanh (h : Hdr) (d a : Opnd)
  /-- FSIGM: F32 logistic sigmoid (R112) -/
  | fsigm (h : Hdr) (d a : Opnd)
  /-- FABS: Clear the F32 sign bit (R113) -/
  | fabs (h : Hdr) (d a : Opnd)
  /-- FNEG: Invert the F32 sign bit (R113) -/
  | fneg (h : Hdr) (d a : Opnd)
  /-- FFLOOR: F32 floor (R113) -/
  | ffloor (h : Hdr) (d a : Opnd)
  /-- FCEIL: F32 ceiling (R113) -/
  | fceil (h : Hdr) (d a : Opnd)
  /-- FTRUNC: F32 truncate toward zero (R113) -/
  | ftrunc (h : Hdr) (d a : Opnd)
  /-- FRINT: F32 round to integral by FPC.RM (R113) -/
  | frint (h : Hdr) (d a : Opnd)
  /-- FCLASS: One-hot class mask of an F32 value (R114) -/
  | fclass (h : Hdr) (d a : Opnd)
  /-- FCVT_F16_F32: Convert F32 to F16, dynamic rounding (R115) -/
  | fcvtF16F32 (h : Hdr) (d a : Opnd)
  /-- FCVT_BF16_F32: Convert F32 to BF16, dynamic rounding (R115) -/
  | fcvtBf16F32 (h : Hdr) (d a : Opnd)
  /-- FCVT_F32_F16: Convert F16 to F32 exactly (R115) -/
  | fcvtF32F16 (h : Hdr) (d a : Opnd)
  /-- FCVT_F32_BF16: Convert BF16 to F32 exactly (R115) -/
  | fcvtF32Bf16 (h : Hdr) (d a : Opnd)
  /-- FCVT_F64_F32: Convert F32 to an F64 pair (R115) -/
  | fcvtF64F32 (h : Hdr) (d a : Opnd)
  /-- FCVT_F32_F64: Convert an F64 pair to F32, dynamic rounding (R115) -/
  | fcvtF32F64 (h : Hdr) (d a : Opnd)
  /-- FCVT_F32_S32: Convert S32 to F32 (R115) -/
  | fcvtF32S32 (h : Hdr) (d a : Opnd)
  /-- FCVT_F32_N32: Convert unsigned 32-bit to F32 (R115) -/
  | fcvtF32N32 (h : Hdr) (d a : Opnd)
  /-- FCVT_F64_S32: Convert S32 to an F64 pair (R115) -/
  | fcvtF64S32 (h : Hdr) (d a : Opnd)
  /-- FCVT_F64_N32: Convert unsigned 32-bit to an F64 pair (R115) -/
  | fcvtF64N32 (h : Hdr) (d a : Opnd)
  /-- FCVT_S32_F32_FIXED: Convert F32 to S32 with a named rounding (R115) -/
  | fcvtS32F32Fixed (h : Hdr) (d a : Opnd) (m : BitVec 2)
  /-- FCVT_S32_F32: Convert F32 to S32, dynamic rounding (R115) -/
  | fcvtS32F32 (h : Hdr) (d a : Opnd)
  /-- FCVT_N32_F32_FIXED: Convert F32 to unsigned 32-bit with a named rounding (R115) -/
  | fcvtN32F32Fixed (h : Hdr) (d a : Opnd) (m : BitVec 2)
  /-- FCVT_N32_F32: Convert F32 to unsigned 32-bit, dynamic rounding (R115) -/
  | fcvtN32F32 (h : Hdr) (d a : Opnd)
  /-- FCVT_S32_F64_FIXED: Convert an F64 pair to S32 with a named rounding (R115) -/
  | fcvtS32F64Fixed (h : Hdr) (d a : Opnd) (m : BitVec 2)
  /-- FCVT_S32_F64: Convert an F64 pair to S32, dynamic rounding (R115) -/
  | fcvtS32F64 (h : Hdr) (d a : Opnd)
  /-- FCVT_N32_F64_FIXED: Convert an F64 pair to unsigned 32-bit with a named rounding (R115) -/
  | fcvtN32F64Fixed (h : Hdr) (d a : Opnd) (m : BitVec 2)
  /-- FCVT_N32_F64: Convert an F64 pair to unsigned 32-bit, dynamic rounding (R115) -/
  | fcvtN32F64 (h : Hdr) (d a : Opnd)
  /-- PK_F16: Pack two F32 values as F16 by RNE (R116) -/
  | pkF16 (h : Hdr) (d a b : Opnd)
  /-- PK_B16: Pack two F32 values as BF16 by RNE (R116) -/
  | pkB16 (h : Hdr) (d a b : Opnd)
  /-- PKN: Narrow an F32 value into one slot of d (R117) -/
  | pkn (h : Hdr) (d a b : Opnd)
  /-- UPKN: Widen one narrow element, scale and round to F32 (R118) -/
  | upkn (h : Hdr) (d a b : Opnd)
  /-- DOT4_E43: Four-element E4M3 dot product accumulated into F32 d (R120) -/
  | dot4E43 (h : Hdr) (d a b : Opnd)
  /-- DOT4_E52: Four-element E5M2 dot product into F32 d (R120) -/
  | dot4E52 (h : Hdr) (d a b : Opnd)
  /-- DOT4_S8: Four-element S8 dot product into wrapping S32 d (R120) -/
  | dot4S8 (h : Hdr) (d a b : Opnd)
  /-- DOT4_N8: Four-element N8 dot product into wrapping S32 d (R120) -/
  | dot4N8 (h : Hdr) (d a b : Opnd)
  /-- DOT8_E21: Eight-element E2M1 dot product into F32 d (R120) -/
  | dot8E21 (h : Hdr) (d a b : Opnd)
  /-- DOT8_S4: Eight-element S4 dot product into wrapping S32 d (R120) -/
  | dot8S4 (h : Hdr) (d a b : Opnd)
  /-- DOT2_B16: Two-element BF16 dot product into F32 d (R120) -/
  | dot2B16 (h : Hdr) (d a b : Opnd)
  /-- DOT2_F16: Two-element F16 dot product into F32 d (R120) -/
  | dot2F16 (h : Hdr) (d a b : Opnd)
  /-- FSCL: d := a × S9 scale of b, rounded by RM (R119) -/
  | fscl (h : Hdr) (d a b : Opnd)
  /-- LD_B: Load a byte, zero-extended (R126) -/
  | ldB (h : Hdr) (d a : Opnd) (imm : BitVec 7)
  /-- LD_BS: Load a byte, sign-extended (R126) -/
  | ldBs (h : Hdr) (d a : Opnd) (imm : BitVec 7)
  /-- LD_H: Load a halfword, zero-extended (R126) -/
  | ldH (h : Hdr) (d a : Opnd) (imm : BitVec 7)
  /-- LD_HS: Load a halfword, sign-extended (R126) -/
  | ldHs (h : Hdr) (d a : Opnd) (imm : BitVec 7)
  /-- LD_W: Load a 32-bit word (R126) -/
  | ldW (h : Hdr) (d a : Opnd) (imm : BitVec 7)
  /-- LD_D: Load 64 bits into a pair (R126) -/
  | ldD (h : Hdr) (d a : Opnd) (imm : BitVec 7)
  /-- LD_Q: Load 128 bits into a quad (R126) -/
  | ldQ (h : Hdr) (d a : Opnd) (imm : BitVec 7)
  /-- LDC_W: Load a word through the constant path (R131) -/
  | ldcW (h : Hdr) (d a : Opnd) (imm : BitVec 7)
  /-- LDC_Q: Load 16 bytes through the constant path (R131) -/
  | ldcQ (h : Hdr) (d a : Opnd) (imm : BitVec 7)
  /-- ST_B: Store a byte (R126) -/
  | stB (h : Hdr) (v a : Opnd) (imm : BitVec 7)
  /-- ST_H: Store a halfword (R126) -/
  | stH (h : Hdr) (v a : Opnd) (imm : BitVec 7)
  /-- ST_W: Store a word (R126) -/
  | stW (h : Hdr) (v a : Opnd) (imm : BitVec 7)
  /-- ST_D: Store 64 bits from a pair; at offset 0 of a kick page it is a kick (R126) -/
  | stD (h : Hdr) (v a : Opnd) (imm : BitVec 7)
  /-- ST_Q: Store 128 bits from a quad (R126) -/
  | stQ (h : Hdr) (v a : Opnd) (imm : BitVec 7)
  /-- LDX_W: Load a word at a register-indexed address (R126) -/
  | ldxW (h : Hdr) (d a b : Opnd)
  /-- STX_W: Store a word at a register-indexed address (R126) -/
  | stxW (h : Hdr) (v a b : Opnd)
  /-- LDS_W: Scratchpad word load (R133) -/
  | ldsW (h : Hdr) (d a : Opnd) (imm : BitVec 7)
  /-- LDS_D: Scratchpad 8-byte load (R133) -/
  | ldsD (h : Hdr) (d a : Opnd) (imm : BitVec 7)
  /-- LDS_Q: Scratchpad 16-byte load (R133) -/
  | ldsQ (h : Hdr) (d a : Opnd) (imm : BitVec 7)
  /-- LDS_H: Scratchpad halfword load (R133) -/
  | ldsH (h : Hdr) (d a : Opnd) (imm : BitVec 7)
  /-- LDS_B: Scratchpad byte load (R133) -/
  | ldsB (h : Hdr) (d a : Opnd) (imm : BitVec 7)
  /-- STS_W: Scratchpad word store (R133) -/
  | stsW (h : Hdr) (v a : Opnd) (imm : BitVec 7)
  /-- STS_D: Scratchpad 8-byte store (R133) -/
  | stsD (h : Hdr) (v a : Opnd) (imm : BitVec 7)
  /-- STS_Q: Scratchpad 16-byte store (R133) -/
  | stsQ (h : Hdr) (v a : Opnd) (imm : BitVec 7)
  /-- STS_H: Scratchpad halfword store (R133) -/
  | stsH (h : Hdr) (v a : Opnd) (imm : BitVec 7)
  /-- STS_B: Scratchpad byte store (R133) -/
  | stsB (h : Hdr) (v a : Opnd) (imm : BitVec 7)
  /-- LD_ACQ_W: Word load followed by an acquire at the scope (R134) -/
  | ldAcqW (h : Hdr) (d a : Opnd) (e : BitVec 3)
  /-- LD_ACQ_D: 64-bit load followed by an acquire at the scope (R134) -/
  | ldAcqD (h : Hdr) (d a : Opnd) (e : BitVec 3)
  /-- ST_REL_W: Release at the scope, then a word store as its carrier (R134) -/
  | stRelW (h : Hdr) (v a : Opnd) (e : BitVec 3)
  /-- ST_REL_D: Release at the scope, then a 64-bit store as its carrier (R134) -/
  | stRelD (h : Hdr) (v a : Opnd) (e : BitVec 3)
  /-- PRF: Prefetch a line into L1; never traps after decode (R135) -/
  | prf (h : Hdr) (a : Opnd) (imm : BitVec 7)
  /-- CWB: Write back a line's dirty bytes and keep it clean (R136) -/
  | cwb (h : Hdr) (a : Opnd)
  /-- CINV: Write back and invalidate a line (R136) -/
  | cinv (h : Hdr) (a : Opnd)
  /-- CWBI_ALL: Write back and invalidate every L1 line of the context (R136) -/
  | cwbiAll (h : Hdr)
  /-- ATOM_ADD: Atomic add at the home (R137) -/
  | atomAdd (h : Hdr) (d a b : Opnd)
  /-- ATOM_MIN: Atomic signed minimum (R137) -/
  | atomMin (h : Hdr) (d a b : Opnd)
  /-- ATOM_MAX: Atomic signed maximum (R137) -/
  | atomMax (h : Hdr) (d a b : Opnd)
  /-- ATOM_MINU: Atomic unsigned minimum (R137) -/
  | atomMinu (h : Hdr) (d a b : Opnd)
  /-- ATOM_MAXU: Atomic unsigned maximum (R137) -/
  | atomMaxu (h : Hdr) (d a b : Opnd)
  /-- ATOM_AND: Atomic AND (R137) -/
  | atomAnd (h : Hdr) (d a b : Opnd)
  /-- ATOM_OR: Atomic OR (R137) -/
  | atomOr (h : Hdr) (d a b : Opnd)
  /-- ATOM_XOR: Atomic XOR (R137) -/
  | atomXor (h : Hdr) (d a b : Opnd)
  /-- ATOM_XCHG: Atomic exchange (R137) -/
  | atomXchg (h : Hdr) (d a b : Opnd)
  /-- ATOM_CAS: Atomic compare-and-swap with a pair operand (R137) -/
  | atomCas (h : Hdr) (d a b : Opnd)
  /-- ATOM_FADD: Atomic F32 add by RNE (R138) -/
  | atomFadd (h : Hdr) (d a b : Opnd)
  /-- ATOMS_ADD: Scratchpad atomic add (R140) -/
  | atomsAdd (h : Hdr) (d a b : Opnd)
  /-- ATOMS_MIN: Scratchpad atomic signed minimum (R140) -/
  | atomsMin (h : Hdr) (d a b : Opnd)
  /-- ATOMS_MAX: Scratchpad atomic signed maximum (R140) -/
  | atomsMax (h : Hdr) (d a b : Opnd)
  /-- ATOMS_CAS: Scratchpad atomic compare-and-swap (R140) -/
  | atomsCas (h : Hdr) (d a b : Opnd)
  /-- FENCE: Release, acquire or SC fence at a scope, optionally refreshing the constant path (R141) -/
  | fence (h : Hdr) (x : Bool) (e : BitVec 3) (k : BitVec 2)
  /-- BARINIT: Initialise a barrier object (R151) -/
  | barinit (h : Hdr) (a b : Opnd)
  /-- BARARV: Arrive at a barrier and return its phase (R151) -/
  | bararv (h : Hdr) (d a : Opnd)
  /-- BARXB: Add expected bytes to a barrier (R151) -/
  | barxb (h : Hdr) (a b : Opnd)
  /-- BARARVX: Add expected bytes and arrive as one operation (R151) -/
  | bararvx (h : Hdr) (d a b : Opnd)
  /-- BARWAIT: Block until a barrier phase is complete, then acquire (R151) -/
  | barwait (h : Hdr) (a b : Opnd)
  /-- BARTST: Test whether a barrier phase is complete without blocking (R151) -/
  | bartst (h : Hdr) (p : BitVec 3) (a b : Opnd)
  /-- BARINV: Invalidate a barrier object and fault its waiters (R151) -/
  | barinv (h : Hdr) (a : Opnd)
  /-- WPTR: Read a copy channel's write pointer (R152) -/
  | wptr (h : Hdr) (d a : Opnd)
  /-- PRIO: Set the thread's path priority (R157) -/
  | prio (h : Hdr) (a : Opnd)
  /-- YIELD: Drop effective priority to 0 until next issue; void l registers (R158) -/
  | yield (h : Hdr)
  /-- BR: Conditional or unconditional relative branch (R153) -/
  | br (h : Hdr) (n : Bool) (p : BitVec 3) (k : BitVec 17)
  /-- CALL: Relative call writing the return index to o7 (R153) -/
  | call (h : Hdr) (k : BitVec 21)
  /-- JMP: Jump to the word index in a (R153) -/
  | jmp (h : Hdr) (a : Opnd)
  /-- RET: Jump to the word index in o7 (R153) -/
  | ret (h : Hdr)
  /-- CALLR: Call the word index in a, writing o7 (R153) -/
  | callr (h : Hdr) (a : Opnd)
  /-- EXIT: Retire a SIMT thread, stop a host core at H, or enter the trap path as ECALL 0 (R154) -/
  | exit (h : Hdr)
  /-- TRAP: Raise TRAPSW with a 14-bit code (R156) -/
  | trap (h : Hdr) (imm : BitVec 14)
  /-- BKPT: Raise BKPT (R156) -/
  | bkpt (h : Hdr)
  /-- REFILL: Pop one item from the core's item queue (R160) -/
  | refill (h : Hdr) (d : Opnd)
  /-- FETCHW: Request a tile from the serving walker into a mailbox (R162) -/
  | fetchw (h : Hdr) (a b : Opnd)
  /-- ID: Read an identity value selected by F (R159) -/
  | id (h : Hdr) (d : Opnd) (f : BitVec 7)
  /-- CDECL: Declare a convergence register's group set (R166) -/
  | cdecl (h : Hdr) (w : BitVec 4) (a : Opnd)
  /-- CRST: Empty a convergence register (R167) -/
  | crst (h : Hdr) (w : BitVec 4)
  /-- SHFL: Sign a shuffle collective and wait for its result (R170) -/
  | shfl (h : Hdr) (d a b : Opnd)
  /-- VOTE: Sign a vote collective and wait for its result (R170) -/
  | vote (h : Hdr) (d a b : Opnd)
  /-- RDX: Sign a reduction or scan collective and wait for its result (R170) -/
  | rdx (h : Hdr) (d a b : Opnd)
  /-- MMA: Sign a matrix operation with register fragments (R176) -/
  | mma (h : Hdr) (t : BitVec 7) (a b : Opnd) (x : MmaCtl)
  /-- MMAJ: Sign a matrix operation with B from scratchpad (R176) -/
  | mmaj (h : Hdr) (t : BitVec 7) (a b : Opnd) (x : MmaCtl)
  /-- MZERO: Zero the thread's two tile rows (R182) -/
  | mzero (h : Hdr) (t : BitVec 7)
  /-- MLOAD: Load the thread's tile rows from scratchpad (R182) -/
  | mload (h : Hdr) (t : BitVec 7) (a : Opnd)
  /-- MDRAIN: Convert and write the thread's tile rows to scratchpad or global memory (R183) -/
  | mdrain (h : Hdr) (t : BitVec 7) (a b : Opnd) (x : DrainCtl)
  /-- MFENCE: Hold until earlier register and scratchpad writes complete (R179) -/
  | mfence (h : Hdr) (w : BitVec 4)
  /-- MWAIT: Hold until the thread's matrix operations on a tile are performed (R180) -/
  | mwait (h : Hdr) (t : BitVec 7)
  /-- CPY_GS: Queue a tensor-layout copy from global memory to scratchpad (R190) -/
  | cpyGs (h : Hdr) (a : Opnd) (e : Bool) (ch : BitVec 4)
  /-- CPY_SG: Queue a tensor-layout copy from scratchpad to global memory (R190) -/
  | cpySg (h : Hdr) (a : Opnd) (e : Bool) (ch : BitVec 4)
  /-- CPYL: Queue a linear copy (R191) -/
  | cpyl (h : Hdr) (d a b : Opnd) (x : CpylCtl)
  /-- CPYG: Queue an indexed row gather into scratchpad (R192) -/
  | cpyg (h : Hdr) (d a b : Opnd) (x : CpygCtl)
  /-- SYSRD: Read a system register (R206) -/
  | sysrd (h : Hdr) (d : Opnd) (imm : BitVec 14)
  /-- SYSWR: Write a system register (R207) -/
  | syswr (h : Hdr) (v : Opnd) (imm : BitVec 14)
  /-- TSRD: Read TSR or TSV into a pair (R208) -/
  | tsrd (h : Hdr) (d : Opnd) (f : Bool)
  /-- ECALL: Enter the trap path with a service code (R203) -/
  | ecall (h : Hdr) (imm : BitVec 14)
  /-- ERET: Return from a trap bank to the saved level and word (R202) -/
  | eret (h : Hdr)
  /-- ECREATE: Create an enclave from a descriptor as one controller request (R212) -/
  | ecreate (h : Hdr) (d a : Opnd)
  /-- EENTER: Enter an enclave thread at level E (R215) -/
  | eenter (h : Hdr) (a b : Opnd)
  /-- EEXIT: Leave an enclave to the return point (R216) -/
  | eexit (h : Hdr)
  /-- EREPORT: Write an attestation report and bump the report sequence (R218) -/
  | ereport (h : Hdr) (d a : Opnd)
  /-- KWRAP: Seal the paging or export key into a blob (R221) -/
  | kwrap (h : Hdr) (d a : Opnd)
  /-- KUNWRAP: Verify a key blob and replace the enclave key (R221) -/
  | kunwrap (h : Hdr) (d a : Opnd)
  /-- KREVOKE: Revoke a key slot in every unit (R222) -/
  | krevoke (h : Hdr) (d a : Opnd)
  /-- KLOAD: Install a guest or enclave key into a free slot (R223) -/
  | kload (h : Hdr) (d a : Opnd)
  /-- POTSET: Write a POT entry image (R225) -/
  | potset (h : Hdr) (d a : Opnd)
  /-- POTRD: Read a POT entry image (R225) -/
  | potrd (h : Hdr) (d a : Opnd)
  /-- PMAP: Add a pending page or node to an enclave (R225) -/
  | pmap (h : Hdr) (d a : Opnd)
  /-- PACCEPT: Clear the pending mark of an enclave page (R225) -/
  | paccept (h : Hdr) (d a : Opnd)
  /-- PDISCARD: Make an enclave page DISCARDED (R225) -/
  | pdiscard (h : Hdr) (d a : Opnd)
  /-- PEVICT: Seal an enclave page to a blob and free its frame (R360) -/
  | pevict (h : Hdr) (d a : Opnd)
  /-- PLOAD: Verify a blob and load it into a new frame (R361) -/
  | pload (h : Hdr) (d a : Opnd)
  /-- PUNMAP: Remove a discarded or pending enclave page (R225) -/
  | punmap (h : Hdr) (d a : Opnd)
  /-- TLBI: Invalidate translations by page, space, guest or all (R227) -/
  | tlbi (h : Hdr) (a b : Opnd)
  /-- EDESTROY: Destroy an enclave and scrub its frames (R219) -/
  | edestroy (h : Hdr) (a : Opnd)
  /-- PICKER_CHOICE: Each core clock the picker chooses a program counter and issues a bundle (R237) -/
  | pickerChoice (core : Nat) (order : List Nat)
  /-- TERMINAL_TRAP_END: A terminal SIMT trap stops and releases every team of its launch and writes its signal (R244) -/
  | terminalTrapEnd (launch : Nat)
  /-- TIMER_ASSERT: TSR reaches TCMP and the bank timer source asserts and counts on the interrupt barrier (R204) -/
  | timerAssert (host : Nat) (hyp : Bool)
  /-- INTERRUPT_ENTRY: A pending enabled interrupt is taken before the next chain (R204) -/
  | interruptEntry (host : Nat)
  /-- LINE_LEASE_EXPIRY: An L1 line's lease runs out; it writes back and is invalidated (R129) -/
  | lineLeaseExpiry (core line : Nat)
  /-- EPOCH_ROLLOVER: A core's epoch signature period ends and the oldest epoch is replaced (R143) -/
  | epochRollover (core : Nat)
  /-- L1_FILL: A line returns from the home, is checked and decrypted, and fills L1 (R32) -/
  | l1Fill (core : Nat) (sp : Space) (va : BitVec 64)
  /-- UNCORRECTABLE_ERROR: An uncorrectable SRAM error poisons data held nowhere else (R421) -/
  | uncorrectableError (site : ErrorSite)
  /-- WRITE_BACK: A dirty line's bytes are merged, encrypted under a grant and stored at the home (R128) -/
  | writeBack (core line : Nat)
  /-- COUNTER_GRANT: A counter agent serves a grant, bumping minor, tree nodes and root (R369) -/
  | counterGrant (pa : Nat)
  /-- ATOMIC_UNIT_SERVE: A memory-side atomic unit takes a waiting request and holds the line (R298) -/
  | atomicUnitServe (slice bank : Nat)
  /-- PAGE_TABLE_WALK: A TLB miss walks four levels, checks the leaf and installs a translation or faults (R309) -/
  | pageTableWalk (sp : Space) (va : BitVec 64) (kind : AccessKind)
  /-- FAULT_RECORD_WRITE: The fault unit writes a queued record into its ring and advances TAIL (R322) -/
  | faultRecordWrite (ring : Nat)
  /-- OPERAND_LOG_REPLAY: A logged faulting access replays after its record is answered (R316) -/
  | operandLogReplay (entry : Nat)
  /-- COPY_FIXUP_REPLAY: A skipped copy segment replays and lands its bytes (R296) -/
  | copyFixupReplay (owner : Owner) (ch : Nat)
  /-- DRAIN_FIXUP_REPLAY: A skipped drain line replays and lands (R317) -/
  | drainFixupReplay (entry : Nat)
  /-- CHANNEL_BIND: A logical copy channel binds to a free physical channel (R294) -/
  | channelBind (owner : Owner) (ch : Nat)
  /-- COPY_START: The next queued copy of a channel starts after the previous one landed (R193) -/
  | copyStart (owner : Owner) (ch : Nat)
  /-- COPY_ENGINE_TURN: A copy engine moves one line for a bound channel and counts landed bytes (R295) -/
  | copyEngineTurn (owner : Owner) (ch : Nat)
  /-- DRAIN_COMPLETE: A thread's drain bytes have all arrived and are counted on BAR (R186) -/
  | drainComplete (drain : Nat)
  /-- PASS_POST: A waiting pass takes a free reservation-table entry (R176) -/
  | passPost (core : Nat)
  /-- B_READ_START: An MMAJ B region read starts into a free B buffer (R286) -/
  | bReadStart (core : Nat)
  /-- B_READ_END: An MMAJ B read finishes and its entries become eligible (R286) -/
  | bReadEnd (quad : Nat)
  /-- PASS_GRANT: Each engine clock the arbiter grants an eligible pass or withholds it (R288) -/
  | passGrant (quad : Nat)
  /-- PASS_COMPLETE: A pass updates its tile and frees its entry (R288) -/
  | passComplete (quad : Nat)
  /-- GOVERNOR_WINDOW: A 64-clock governor window starts and the pending budget takes effect (R290) -/
  | governorWindow (quad : Nat)
  /-- TEAM_PLACE: The dispatcher reserves resources and releases a team (R232) -/
  | teamPlace (launch core : Nat)
  /-- CLUSTER_PLACE: All teams of a cluster are placed and released together on a rectangle (R235) -/
  | clusterPlace (launch slice row col : Nat)
  /-- TEAM_DONE: A team becomes done and its resources are released (R241) -/
  | teamDone (team : Nat)
  /-- WALKER_DISPENSE: A walker dispenses its next index to a core, item queue or mailbox (R251) -/
  | walkerDispense (slice walker : Nat)
  /-- REFILL_ITEM: A pending REFILL receives an item or the end marker (R161) -/
  | refillItem (team thread : Nat)
  /-- FETCHW_SERVE: A FETCHW request is served and its mailbox written and counted (R163) -/
  | fetchwServe (team : Nat)
  /-- SPLIT_REQUEST: The command processor serves a split request or refuses it (R254) -/
  | splitRequest (launch core : Nat)
  /-- SPLIT_RETRY: A NOWALKER-refused core repeats its request after 256 clocks (R255) -/
  | splitRetry (launch core : Nat)
  /-- LAUNCH_COMPLETE: A complete launch writes back, writes its signal and counts on CBAR (R259) -/
  | launchComplete (launch : Nat)
  /-- KICK_TAKE: A kick is placed in its queue with the next sequence number (R342) -/
  | kickTake (slice queue : Nat)
  /-- ENTRY_START: A queue entry starts when its dependences, SERIAL and walkers allow (R345) -/
  | entryStart (slice queue : Nat)
  /-- MARK_COMPLETE: A mark writes its signal and counts on MBAR after earlier entries complete (R347) -/
  | markComplete (slice queue seq : Nat)
  /-- QUIESCE_REQUEST: The command processor pauses at a quiescent command boundary (R350) -/
  | quiesceRequest (slice : Nat)
  /-- QUIESCE_RELEASE: The pause ends and held kicks are taken (R350) -/
  | quiesceRelease (slice : Nat)
  /-- SCRUB_END: A frame's scrub ends and it moves to GUEST or FREE (R359) -/
  | scrubEnd (frame : Nat)
  /-- KEY_ROTATION: A new enclave key is installed and every frame swept to it (R365) -/
  | keyRotation (eid : Nat)
  /-- SWEEP: A sweep re-encrypts or moves one frame line by line (R372) -/
  | sweep (x : Swept)
  /-- INJTAG_ARM: An INJTAG write with ARM 1 arms one tag injection (R375) -/
  | injtagArm (line : BitVec 42)
  /-- INJTAG_DISARM: An INJTAG write with ARM 0 disarms any unused injection (R375) -/
  | injtagDisarm (line : BitVec 42)
  /-- TDISP_DMA_REQUEST: A device request is translated, pinned and encrypted or refused (R376) -/
  | tdispDmaRequest (tdi : Nat) (tbit : Bool) (va : BitVec 64) (write : Bool) (data : List (BitVec 8))
  /-- LINK_FLIT_RECEIVE: A link-stream flit is checked; a failed tag ends the stream (R377) -/
  | linkFlitReceive (link stream : Nat) (good : Bool) (va : BitVec 64) (data : List (BitVec 8))
  /-- PART_WRITE: A PART write enables, disables or resizes a partition (R380) -/
  | partWrite (slice : Nat) (value : BitVec 64)
  /-- PARTITION_RESIZE: An accepted resize is carried out at a quiescent boundary (R381) -/
  | partitionResize (slice : Nat)
  /-- PREEMPT_RESUME: PREEMPT ACT 0 ends a whole-context halt and restores its work (R460) -/
  | preemptResume (eid : BitVec 16)
  /-- PREEMPT_SOFT: PREEMPT ACT 1 sends a soft request for the whole partition (R383) -/
  | preemptSoft (eid : BitVec 16)
  /-- PREEMPT_HALT: PREEMPT ACT 2 force-halts and seals the context (R384) -/
  | preemptHalt (eid : BitVec 16)
  /-- PREEMPT_KILL: PREEMPT ACT 3 kills the context's teams with EKILL (R385) -/
  | preemptKill (eid : BitVec 16)
  /-- TIME_SLICE_EXPIRY: A context's residence reaches TSLICE and a soft request may be sent (R382) -/
  | timeSliceExpiry (eid core : Nat)
  /-- SOFT_REQUEST_END: The named cores empty and dispensing resumes (R383) -/
  | softRequestEnd (eid : Nat)
  /-- G1_DEADLINE: G1 expires and the context is force-halted on the named cores (R384) -/
  | g1Deadline (eid : Nat)
  /-- G2_DEADLINE: G2 expires before the halt completes and the teams are killed (R385) -/
  | g2Deadline (eid : Nat)
  /-- CONTEXT_RESTORE: Sealed teams and walkers are placed again when room exists (R387) -/
  | contextRestore (eid core : Nat)
  /-- QUADSVC_OUT: A quad is taken out of service and its teams are moved (R388) -/
  | quadsvcOut (slice quad : Nat)
  /-- QUADSVC_IN: A quad is returned to service (R388) -/
  | quadsvcIn (slice quad : Nat)
  /-- CEOWN_WRITE: A copy engine's owner changes once its channels are unbound (R293) -/
  | ceownWrite (engine : Nat) (value : BitVec 64)
  /-- BLKMOVE: A 2 GiB block moves from one guest to another through scrubs (R389) -/
  | blkmove (value : BitVec 64)
  /-- ENERGY_TICK: Every 1,024 clocks static energy is split among resident contexts (R395) -/
  | energyTick (core : Nat)
  /-- MGOVCFG_WRITE: Sets the governor budget for the next window and clears MGOVSTAT (R290) -/
  | mgovcfgWrite (quad : Nat) (value : BitVec 32)
  /-- FRLOST_CLEAR: An ST.D of 0 clears FRLOST (R322) -/
  | frlostClear
  /-- TRSTAT_CLEAR: A write of 0 clears RESYNC and LAST of the selected triplet (R415) -/
  | trstatClear
  /-- ECCCNT_CLEAR: A write of 0 clears the selected error counts (R415) -/
  | ecccntClear
  /-- RASSTAT_CLEAR: Writing 1 to RASSTAT bits clears them (R415) -/
  | rasstatClear (value : BitVec 64)
  /-- SEVCNT_CLEAR: A write of 0 clears the selected slice counter (R450) -/
  | sevcntClear
  /-- REGISTER_WRITE: A write to a device or system register without a row of its own stores its fields or is ignored (R379) -/
  | registerWrite (offset : Nat) (value : BitVec 64)
  /-- TRIPLET_DISSENT: One copy of a triplet differs and its resync starts (R416) -/
  | tripletDissent (trip : Triplet) (copy : Nat)
  /-- RESYNC_END: A resync completes and the triplet leaves duplex (R417) -/
  | resyncEnd (trip : Triplet)
  /-- TRIPLET_STOP: A duplex disagreement stops the triplet and its work (R418) -/
  | tripletStop (trip : Triplet)
  /-- TRIPLET_RESTART: The tandem resets a stopped triplet and releases its work (R418) -/
  | tripletRestart (trip : Triplet)
  /-- QUAD_AUTO_REMOVE: The tandem takes a quad out of service after errors (R422) -/
  | quadAutoRemove (slice quad : Nat)
  /-- TANDEM_FAILOVER: Complex B takes over from A on a missed heartbeat or error (R423) -/
  | tandemFailover
  /-- TANDEM_REJOIN: A failed complex rejoins as standby or the tandem runs simplex (R423) -/
  | tandemRejoin (ok : Bool)
  /-- FWUPD: A live firmware update loads, checks and switches images (R424) -/
  | fwupd (value : BitVec 64)
  /-- NOTICE: A checkpoint notice records a deadline and counts on handle 255 (R428) -/
  | notice (eid : BitVec 16) (deadline : BitVec 64)
  /-- NOTICE_DEADLINE: A notice deadline passes without a checkpoint and the context is halted (R429) -/
  | noticeDeadline (eid : Nat)
  /-- CHECKPOINT: A checkpoint request halts the context and writes shards, manifest and result (R431) -/
  | checkpoint (eid : Nat)
  /-- RESTORE: A restore request checks and loads a checkpoint into a target enclave (R437) -/
  | restore (eid : Nat)
  /-- MIGRATE_OUT: Starts migration of an enclave to a destination module (R441) -/
  | migrateOut (eid : BitVec 16) (pkg : BitVec 15)
  /-- MIGRATE_IN: Accepts a migrating enclave's stream into a target enclave (R441) -/
  | migrateIn (eid : BitVec 16) (pkg : BitVec 15)
  /-- MIGRATION_READY: READY arrives and the source destroys its enclave and sends GO (R442) -/
  | migrationReady (eid : Nat)
  /-- MIGRATION_GO: GO arrives and the destination starts the state (R442) -/
  | migrationGo (eid : Nat)
  /-- MIGRATION_STREAM_FAIL: The migration stream fails and state is resumed or held (R442) -/
  | migrationStreamFail (eid : Nat)
  /-- GET_VERSION: SPDM GET_VERSION reports version 0x13 (R446) -/
  | getVersion (req : SpdmReq)
  /-- GET_CAPABILITIES: SPDM GET_CAPABILITIES exchange (R446) -/
  | getCapabilities (req : SpdmReq)
  /-- NEGOTIATE_ALGORITHMS: SPDM algorithm negotiation (R446) -/
  | negotiateAlgorithms (req : SpdmReq)
  /-- GET_DIGESTS: Returns the digest of certificate slot 0 (R446) -/
  | getDigests (req : SpdmReq)
  /-- GET_CERTIFICATE: Returns the slot-0 certificate chain (R446) -/
  | getCertificate (req : SpdmReq)
  /-- CHALLENGE: Signed challenge response by the per-boot key (R446) -/
  | challenge (req : SpdmReq)
  /-- GET_MEASUREMENTS: Returns measurement blocks, optionally signed (R402) -/
  | getMeasurements (req : SpdmReq)
  /-- KEY_EXCHANGE: Opens a responder session up to the limit of 8 (R448) -/
  | keyExchange (req : SpdmReq)
  /-- FINISH: Completes session establishment (R446) -/
  | finish (req : SpdmReq)
  /-- HEARTBEAT: Acknowledges a heartbeat and restarts the session idle time (R448) -/
  | heartbeat (req : SpdmReq)
  /-- END_SESSION: Ends a session and erases its keys (R448) -/
  | endSession (req : SpdmReq)
  /-- UNSUPPORTED_REQUEST: An SPDM request with an unknown code receives UnsupportedRequest (R446) -/
  | unsupportedRequest (req : SpdmReq)
  /-- SESSION_TIMEOUT: A session idle for twice its heartbeat period ends (R448) -/
  | sessionTimeout (session : Nat)
  /-- SPDMRLY: A relay write submits a request buffer and receives the response in place (R447) -/
  | spdmrly (value : BitVec 64)
  /-- POWER: Management POWER command applied as a PSTATE write (R449) -/
  | power (slice : Nat) (state point : BitVec 2)
  /-- PACKAGE: Management PACKAGE command sets the package number while links are down (R449) -/
  | package (number : BitVec 16)
  /-- PSTATE_WRITE: Changes a slice's operating point or power state (R452) -/
  | pstateWrite (slice : Nat) (value : BitVec 64)
  /-- THROTTLE_STEP: Each 1 ms THR rises or falls with die temperature (R453) -/
  | throttleStep (slice : Nat) (temp : Int)
  /-- HCSTART: Starts a stopped host core at level H (R451) -/
  | hcstart (value : BitVec 64)
  /-- MSI_WRITE: A write to a root port's MSI window asserts its interrupt source (R454) -/
  | msiWrite (port : Nat)
  /-- LINK_TRAIN: A package link trains and opens an SPDM session with its peer (R455) -/
  | linkTrain (link : Nat) (peer : BitVec 15)
  /-- LINK_DOWN: A package link goes down and ends its streams (R455) -/
  | linkDown (link : Nat)
  /-- LMS_TREE_RENEW: A spent bottom LMS tree is replaced and signed by the next top leaf (R444) -/
  | lmsTreeRenew
  /-- MODULE_RESET: Module reset verifies firmware, forms keys, initialises memory and starts host core 0 (R457) -/
  | moduleReset
  /-- INTERLOCKED_RESULT_WRITE: An interlocked result (SFU, F64, load hit, ID, SYSRD, collective, barrier) is written to its register with its FPC flags and releases the scoreboard (R73) -/
  | interlockedResultWrite (tid : ThreadId)
  /-- MLOAD_MOVEMENT_END: The scratchpad data movement of an MLOAD finishes and its tile rows are loaded, freeing the scratchpad port (R27) -/
  | mloadMovementEnd (core : Nat)
  /-- PSTATE_CHANGE_END: A change of a slice's effective point or power state completes, including the scrub and tree rebuild on return from S3, and any queued PSTATE write is then applied (R452) -/
  | pstateChangeEnd (slice : Nat)
  /-- TANDEM_SIMPLEX_FAILURE: The remaining firmware complex fails while the tandem runs simplex and every queue of the module stops until reset (R423) -/
  | tandemSimplexFailure
  /-- START_INTERFACE_REQUEST: The root of trust binds a TDISP device interface to an enclave, programs its IDE keys and moves it to RUN (R376) -/
  | startInterfaceRequest (tdi eid : Nat)
  deriving DecidableEq, Repr

end Sys2Proof
end

