-- ==== Sys2Proof/Decode.lean ====
section
/-! DEFINITION. The encoding of instruction words: `decode`, total on any words, refusing by name; `encode`, from the same
tables; and what Tables 1.3, 3.7 and 20.3 give each opcode (operand uses, pipe, latency class, availability). -/

namespace Sys2Proof

/-- Bits [lo+w-1 : lo] of a number. -/
def fld (n lo w : Nat) : Nat := n / 2 ^ lo % 2 ^ w

/-- The operand code of Table 3.2. -/
def Opnd.code : Opnd → Nat
  | .g n => n.val
  | .o n => 0x70 + n.val
  | .l n => 0x78 + n.val
  | .zr => 0x7C
  | .lit => 0x7D
  | .bad hi => 0x7E + bit hi

/-- The operand that a 7-bit code names (Table 3.2). -/
def Opnd.ofCode (n : Nat) : Opnd :=
  if n < 0x70 then .g (Fin.ofNat 112 n)
  else if n < 0x78 then .o (Fin.ofNat 8 (n - 0x70))
  else if n < 0x7C then .l (Fin.ofNat 4 (n - 0x78))
  else if n == 0x7C then .zr
  else if n == 0x7D then .lit
  else .bad (n == 0x7F)

/-- The chain bit and the stall count in place (Table 3.1). -/
def hd (h : Hdr) : Nat := bit h.c * 0x80000000 + h.s.toNat * 0x20000000

/-- A word from its opcode and its D, A and B fields (Table 3.3); a wider field stands in the place of B. -/
def word3 (h : Hdr) (op d a b : Nat) : Nat := hd h + op * 0x200000 + d * 0x4000 + a * 0x80 + b

/-- The fields every word of a program carries; none for a step of an agent. -/
def Instr.hdr? : Instr → Option Hdr
  | .nop h => some h
  | .add h _ _ _ => some h
  | .sub h _ _ _ => some h
  | .mul h _ _ _ => some h
  | .mulhi h _ _ _ => some h
  | .mulhu h _ _ _ => some h
  | .mad h _ _ _ => some h
  | .and h _ _ _ => some h
  | .or h _ _ _ => some h
  | .xor h _ _ _ => some h
  | .andn h _ _ _ => some h
  | .shl h _ _ _ => some h
  | .shr h _ _ _ => some h
  | .sra h _ _ _ => some h
  | .min h _ _ _ => some h
  | .max h _ _ _ => some h
  | .minu h _ _ _ => some h
  | .maxu h _ _ _ => some h
  | .adds h _ _ _ => some h
  | .subs h _ _ _ => some h
  | .lea h _ _ _ _ => some h
  | .add64 h _ _ _ => some h
  | .sub64 h _ _ _ => some h
  | .mulw h _ _ _ => some h
  | .mulws h _ _ _ => some h
  | .bfe h _ _ _ => some h
  | .bfi h _ _ _ => some h
  | .prmb h _ _ _ => some h
  | .addi h _ _ _ => some h
  | .andi h _ _ _ => some h
  | .ori h _ _ _ => some h
  | .xori h _ _ _ => some h
  | .shli h _ _ _ => some h
  | .shri h _ _ _ => some h
  | .srai h _ _ _ => some h
  | .muli h _ _ _ => some h
  | .movi h _ _ => some h
  | .mov h _ _ => some h
  | .clz h _ _ => some h
  | .popc h _ _ => some h
  | .brev h _ _ => some h
  | .abs h _ _ => some h
  | .neg h _ _ => some h
  | .not h _ _ => some h
  | .sext8 h _ _ => some h
  | .sext16 h _ _ => some h
  | .zext8 h _ _ => some h
  | .zext16 h _ _ => some h
  | .ctz h _ _ => some h
  | .cmp h _ _ _ _ => some h
  | .cmpi h _ _ _ _ => some h
  | .pand h _ _ _ => some h
  | .por h _ _ _ => some h
  | .pxor h _ _ _ => some h
  | .pandn h _ _ _ => some h
  | .pnot h _ _ => some h
  | .pget h _ => some h
  | .pput h _ => some h
  | .sel h _ _ _ _ => some h
  | .fadd h _ _ _ => some h
  | .fsub h _ _ _ => some h
  | .fmul h _ _ _ => some h
  | .ffma h _ _ _ => some h
  | .ffnma h _ _ _ => some h
  | .fmin h _ _ _ => some h
  | .fmax h _ _ _ => some h
  | .fcmp h _ _ _ _ => some h
  | .hadd2 h _ _ _ => some h
  | .hmul2 h _ _ _ => some h
  | .hfma2 h _ _ _ => some h
  | .badd2 h _ _ _ => some h
  | .bmul2 h _ _ _ => some h
  | .bfma2 h _ _ _ => some h
  | .dadd h _ _ _ => some h
  | .dmul h _ _ _ => some h
  | .dfma h _ _ _ => some h
  | .dcmp h _ _ _ _ => some h
  | .frcp h _ _ => some h
  | .frsq h _ _ => some h
  | .fsqrt h _ _ => some h
  | .fex2 h _ _ => some h
  | .flg2 h _ _ => some h
  | .fsinp h _ _ => some h
  | .fcosp h _ _ => some h
  | .ftanh h _ _ => some h
  | .fsigm h _ _ => some h
  | .fabs h _ _ => some h
  | .fneg h _ _ => some h
  | .ffloor h _ _ => some h
  | .fceil h _ _ => some h
  | .ftrunc h _ _ => some h
  | .frint h _ _ => some h
  | .fclass h _ _ => some h
  | .fcvtF16F32 h _ _ => some h
  | .fcvtBf16F32 h _ _ => some h
  | .fcvtF32F16 h _ _ => some h
  | .fcvtF32Bf16 h _ _ => some h
  | .fcvtF64F32 h _ _ => some h
  | .fcvtF32F64 h _ _ => some h
  | .fcvtF32S32 h _ _ => some h
  | .fcvtF32N32 h _ _ => some h
  | .fcvtF64S32 h _ _ => some h
  | .fcvtF64N32 h _ _ => some h
  | .fcvtS32F32Fixed h _ _ _ => some h
  | .fcvtS32F32 h _ _ => some h
  | .fcvtN32F32Fixed h _ _ _ => some h
  | .fcvtN32F32 h _ _ => some h
  | .fcvtS32F64Fixed h _ _ _ => some h
  | .fcvtS32F64 h _ _ => some h
  | .fcvtN32F64Fixed h _ _ _ => some h
  | .fcvtN32F64 h _ _ => some h
  | .pkF16 h _ _ _ => some h
  | .pkB16 h _ _ _ => some h
  | .pkn h _ _ _ => some h
  | .upkn h _ _ _ => some h
  | .dot4E43 h _ _ _ => some h
  | .dot4E52 h _ _ _ => some h
  | .dot4S8 h _ _ _ => some h
  | .dot4N8 h _ _ _ => some h
  | .dot8E21 h _ _ _ => some h
  | .dot8S4 h _ _ _ => some h
  | .dot2B16 h _ _ _ => some h
  | .dot2F16 h _ _ _ => some h
  | .fscl h _ _ _ => some h
  | .ldB h _ _ _ => some h
  | .ldBs h _ _ _ => some h
  | .ldH h _ _ _ => some h
  | .ldHs h _ _ _ => some h
  | .ldW h _ _ _ => some h
  | .ldD h _ _ _ => some h
  | .ldQ h _ _ _ => some h
  | .ldcW h _ _ _ => some h
  | .ldcQ h _ _ _ => some h
  | .stB h _ _ _ => some h
  | .stH h _ _ _ => some h
  | .stW h _ _ _ => some h
  | .stD h _ _ _ => some h
  | .stQ h _ _ _ => some h
  | .ldxW h _ _ _ => some h
  | .stxW h _ _ _ => some h
  | .ldsW h _ _ _ => some h
  | .ldsD h _ _ _ => some h
  | .ldsQ h _ _ _ => some h
  | .ldsH h _ _ _ => some h
  | .ldsB h _ _ _ => some h
  | .stsW h _ _ _ => some h
  | .stsD h _ _ _ => some h
  | .stsQ h _ _ _ => some h
  | .stsH h _ _ _ => some h
  | .stsB h _ _ _ => some h
  | .ldAcqW h _ _ _ => some h
  | .ldAcqD h _ _ _ => some h
  | .stRelW h _ _ _ => some h
  | .stRelD h _ _ _ => some h
  | .prf h _ _ => some h
  | .cwb h _ => some h
  | .cinv h _ => some h
  | .cwbiAll h => some h
  | .atomAdd h _ _ _ => some h
  | .atomMin h _ _ _ => some h
  | .atomMax h _ _ _ => some h
  | .atomMinu h _ _ _ => some h
  | .atomMaxu h _ _ _ => some h
  | .atomAnd h _ _ _ => some h
  | .atomOr h _ _ _ => some h
  | .atomXor h _ _ _ => some h
  | .atomXchg h _ _ _ => some h
  | .atomCas h _ _ _ => some h
  | .atomFadd h _ _ _ => some h
  | .atomsAdd h _ _ _ => some h
  | .atomsMin h _ _ _ => some h
  | .atomsMax h _ _ _ => some h
  | .atomsCas h _ _ _ => some h
  | .fence h _ _ _ => some h
  | .barinit h _ _ => some h
  | .bararv h _ _ => some h
  | .barxb h _ _ => some h
  | .bararvx h _ _ _ => some h
  | .barwait h _ _ => some h
  | .bartst h _ _ _ => some h
  | .barinv h _ => some h
  | .wptr h _ _ => some h
  | .prio h _ => some h
  | .yield h => some h
  | .br h _ _ _ => some h
  | .call h _ => some h
  | .jmp h _ => some h
  | .ret h => some h
  | .callr h _ => some h
  | .exit h => some h
  | .trap h _ => some h
  | .bkpt h => some h
  | .refill h _ => some h
  | .fetchw h _ _ => some h
  | .id h _ _ => some h
  | .cdecl h _ _ => some h
  | .crst h _ => some h
  | .shfl h _ _ _ => some h
  | .vote h _ _ _ => some h
  | .rdx h _ _ _ => some h
  | .mma h _ _ _ _ => some h
  | .mmaj h _ _ _ _ => some h
  | .mzero h _ => some h
  | .mload h _ _ => some h
  | .mdrain h _ _ _ _ => some h
  | .mfence h _ => some h
  | .mwait h _ => some h
  | .cpyGs h _ _ _ => some h
  | .cpySg h _ _ _ => some h
  | .cpyl h _ _ _ _ => some h
  | .cpyg h _ _ _ _ => some h
  | .sysrd h _ _ => some h
  | .syswr h _ _ => some h
  | .tsrd h _ _ => some h
  | .ecall h _ => some h
  | .eret h => some h
  | .ecreate h _ _ => some h
  | .eenter h _ _ => some h
  | .eexit h => some h
  | .ereport h _ _ => some h
  | .kwrap h _ _ => some h
  | .kunwrap h _ _ => some h
  | .krevoke h _ _ => some h
  | .kload h _ _ => some h
  | .potset h _ _ => some h
  | .potrd h _ _ => some h
  | .pmap h _ _ => some h
  | .paccept h _ _ => some h
  | .pdiscard h _ _ => some h
  | .pevict h _ _ => some h
  | .pload h _ _ => some h
  | .punmap h _ _ => some h
  | .tlbi h _ _ => some h
  | .edestroy h _ => some h
  | .pickerChoice _ _ => none
  | .terminalTrapEnd _ => none
  | .timerAssert _ _ => none
  | .interruptEntry _ => none
  | .lineLeaseExpiry _ _ => none
  | .epochRollover _ => none
  | .l1Fill _ _ _ => none
  | .uncorrectableError _ => none
  | .writeBack _ _ => none
  | .counterGrant _ => none
  | .atomicUnitServe _ _ => none
  | .pageTableWalk _ _ _ => none
  | .faultRecordWrite _ => none
  | .operandLogReplay _ => none
  | .copyFixupReplay _ _ => none
  | .drainFixupReplay _ => none
  | .channelBind _ _ => none
  | .copyStart _ _ => none
  | .copyEngineTurn _ _ => none
  | .drainComplete _ => none
  | .passPost _ => none
  | .bReadStart _ => none
  | .bReadEnd _ => none
  | .passGrant _ => none
  | .passComplete _ => none
  | .governorWindow _ => none
  | .teamPlace _ _ => none
  | .clusterPlace _ _ _ _ => none
  | .teamDone _ => none
  | .walkerDispense _ _ => none
  | .refillItem _ _ => none
  | .fetchwServe _ => none
  | .splitRequest _ _ => none
  | .splitRetry _ _ => none
  | .launchComplete _ => none
  | .kickTake _ _ => none
  | .entryStart _ _ => none
  | .markComplete _ _ _ => none
  | .quiesceRequest _ => none
  | .quiesceRelease _ => none
  | .scrubEnd _ => none
  | .keyRotation _ => none
  | .sweep _ => none
  | .injtagArm _ => none
  | .injtagDisarm _ => none
  | .tdispDmaRequest _ _ _ _ _ => none
  | .linkFlitReceive _ _ _ _ _ => none
  | .partWrite _ _ => none
  | .partitionResize _ => none
  | .preemptResume _ => none
  | .preemptSoft _ => none
  | .preemptHalt _ => none
  | .preemptKill _ => none
  | .timeSliceExpiry _ _ => none
  | .softRequestEnd _ => none
  | .g1Deadline _ => none
  | .g2Deadline _ => none
  | .contextRestore _ _ => none
  | .quadsvcOut _ _ => none
  | .quadsvcIn _ _ => none
  | .ceownWrite _ _ => none
  | .blkmove _ => none
  | .energyTick _ => none
  | .mgovcfgWrite _ _ => none
  | .frlostClear => none
  | .trstatClear => none
  | .ecccntClear => none
  | .rasstatClear _ => none
  | .sevcntClear => none
  | .registerWrite _ _ => none
  | .tripletDissent _ _ => none
  | .resyncEnd _ => none
  | .tripletStop _ => none
  | .tripletRestart _ => none
  | .quadAutoRemove _ _ => none
  | .tandemFailover => none
  | .tandemRejoin _ => none
  | .fwupd _ => none
  | .notice _ _ => none
  | .noticeDeadline _ => none
  | .checkpoint _ => none
  | .restore _ => none
  | .migrateOut _ _ => none
  | .migrateIn _ _ => none
  | .migrationReady _ => none
  | .migrationGo _ => none
  | .migrationStreamFail _ => none
  | .getVersion _ => none
  | .getCapabilities _ => none
  | .negotiateAlgorithms _ => none
  | .getDigests _ => none
  | .getCertificate _ => none
  | .challenge _ => none
  | .getMeasurements _ => none
  | .keyExchange _ => none
  | .finish _ => none
  | .heartbeat _ => none
  | .endSession _ => none
  | .unsupportedRequest _ => none
  | .sessionTimeout _ => none
  | .spdmrly _ => none
  | .power _ _ _ => none
  | .package _ => none
  | .pstateWrite _ _ => none
  | .throttleStep _ _ => none
  | .hcstart _ => none
  | .msiWrite _ => none
  | .linkTrain _ _ => none
  | .linkDown _ => none
  | .lmsTreeRenew => none
  | .moduleReset => none
  | .interlockedResultWrite _ => none
  | .mloadMovementEnd _ => none
  | .pstateChangeEnd _ => none
  | .tandemSimplexFailure => none
  | .startInterfaceRequest _ _ => none
/-- The extension words of Tables 8.1, 8.3, 8.8 and 8.9. -/
def mmaExt (x : MmaCtl) : Nat :=
  bit x.na * 2 ^ 27 + bit x.z * 2 ^ 26 + x.sb.code * 2 ^ 19 + x.sa.code * 2 ^ 12 + x.cv.toNat * 2 ^ 8
    + x.fb.toNat * 2 ^ 4 + x.fa.toNat
def drainExt (x : DrainCtl) : Nat :=
  bit x.col * 2 ^ 24 + x.div.toNat * 2 ^ 15 + x.bar.toNat * 2 ^ 7 + bit x.rel * 2 ^ 6 + bit x.add * 2 ^ 5
    + bit x.glb * 2 ^ 4 + x.fmt.toNat
def cpylExt (x : CpylCtl) : Nat :=
  x.bar.toNat * 2 ^ 7 + bit x.rel * 2 ^ 6 + x.ch.toNat * 2 ^ 2 + x.dir.toNat
def cpygExt (x : CpygCtl) : Nat :=
  x.rowb.toNat * 2 ^ 23 + x.cnt.toNat * 2 ^ 13 + x.bar.toNat * 2 ^ 5 + bit x.rel * 2 ^ 4 + x.ch.toNat

/-- The 32-bit instruction word, as a number, from the encoding tables (Tables 3.1, 3.3, 3.7-3.13); 0 for a step that no
word encodes. -/
def Instr.wordNat : Instr → Nat
  | .nop h => word3 h 0x00 0 0 0
  | .add h d a b => word3 h 0x01 d.code a.code b.code
  | .sub h d a b => word3 h 0x02 d.code a.code b.code
  | .mul h d a b => word3 h 0x03 d.code a.code b.code
  | .mulhi h d a b => word3 h 0x04 d.code a.code b.code
  | .mulhu h d a b => word3 h 0x05 d.code a.code b.code
  | .mad h d a b => word3 h 0x06 d.code a.code b.code
  | .and h d a b => word3 h 0x07 d.code a.code b.code
  | .or h d a b => word3 h 0x08 d.code a.code b.code
  | .xor h d a b => word3 h 0x09 d.code a.code b.code
  | .andn h d a b => word3 h 0x0A d.code a.code b.code
  | .shl h d a b => word3 h 0x0B d.code a.code b.code
  | .shr h d a b => word3 h 0x0C d.code a.code b.code
  | .sra h d a b => word3 h 0x0D d.code a.code b.code
  | .min h d a b => word3 h 0x0E d.code a.code b.code
  | .max h d a b => word3 h 0x0F d.code a.code b.code
  | .minu h d a b => word3 h 0x10 d.code a.code b.code
  | .maxu h d a b => word3 h 0x11 d.code a.code b.code
  | .adds h d a b => word3 h 0x12 d.code a.code b.code
  | .subs h d a b => word3 h 0x13 d.code a.code b.code
  | .lea h k d a b => word3 h (0x14 + k.toNat) d.code a.code b.code
  | .add64 h d a b => word3 h 0x18 d.code a.code b.code
  | .sub64 h d a b => word3 h 0x19 d.code a.code b.code
  | .mulw h d a b => word3 h 0x1A d.code a.code b.code
  | .mulws h d a b => word3 h 0x1B d.code a.code b.code
  | .bfe h d a b => word3 h 0x1C d.code a.code b.code
  | .bfi h d a b => word3 h 0x1D d.code a.code b.code
  | .prmb h d a b => word3 h 0x1E d.code a.code b.code
  | .addi h d a imm => word3 h 0x20 d.code a.code imm.toNat
  | .andi h d a imm => word3 h 0x21 d.code a.code imm.toNat
  | .ori h d a imm => word3 h 0x22 d.code a.code imm.toNat
  | .xori h d a imm => word3 h 0x23 d.code a.code imm.toNat
  | .shli h d a imm => word3 h 0x24 d.code a.code imm.toNat
  | .shri h d a imm => word3 h 0x25 d.code a.code imm.toNat
  | .srai h d a imm => word3 h 0x26 d.code a.code imm.toNat
  | .muli h d a imm => word3 h 0x27 d.code a.code imm.toNat
  | .movi h d imm => word3 h 0x28 d.code 0 imm.toNat
  | .mov h d a => word3 h 0x29 d.code a.code 0
  | .clz h d a => word3 h 0x2A d.code a.code 0
  | .popc h d a => word3 h 0x2A d.code a.code 0x1
  | .brev h d a => word3 h 0x2A d.code a.code 0x2
  | .abs h d a => word3 h 0x2A d.code a.code 0x3
  | .neg h d a => word3 h 0x2A d.code a.code 0x4
  | .not h d a => word3 h 0x2A d.code a.code 0x5
  | .sext8 h d a => word3 h 0x2A d.code a.code 0x6
  | .sext16 h d a => word3 h 0x2A d.code a.code 0x7
  | .zext8 h d a => word3 h 0x2A d.code a.code 0x8
  | .zext16 h d a => word3 h 0x2A d.code a.code 0x9
  | .ctz h d a => word3 h 0x2A d.code a.code 0xA
  | .cmp h k p a b => word3 h 0x2B (k.toNat * 8 + p.toNat) a.code b.code
  | .cmpi h k p a imm => word3 h 0x2C (k.toNat * 8 + p.toNat) a.code imm.toNat
  | .pand h p q r => word3 h 0x2D p.toNat q.toNat r.toNat
  | .por h p q r => word3 h 0x2D (p.toNat + 0x8) q.toNat r.toNat
  | .pxor h p q r => word3 h 0x2D (p.toNat + 0x10) q.toNat r.toNat
  | .pandn h p q r => word3 h 0x2D (p.toNat + 0x18) q.toNat r.toNat
  | .pnot h p q => word3 h 0x2D (p.toNat + 0x20) q.toNat 0
  | .pget h d => word3 h 0x2E d.code 0 0
  | .pput h a => word3 h 0x2E 0 a.code 0x1
  | .sel h n d a b => word3 h (0x30 + n.toNat) d.code a.code b.code
  | .fadd h d a b => word3 h 0x40 d.code a.code b.code
  | .fsub h d a b => word3 h 0x41 d.code a.code b.code
  | .fmul h d a b => word3 h 0x42 d.code a.code b.code
  | .ffma h d a b => word3 h 0x43 d.code a.code b.code
  | .ffnma h d a b => word3 h 0x44 d.code a.code b.code
  | .fmin h d a b => word3 h 0x45 d.code a.code b.code
  | .fmax h d a b => word3 h 0x46 d.code a.code b.code
  | .fcmp h k p a b => word3 h 0x47 (k.toNat * 8 + p.toNat) a.code b.code
  | .hadd2 h d a b => word3 h 0x48 d.code a.code b.code
  | .hmul2 h d a b => word3 h 0x49 d.code a.code b.code
  | .hfma2 h d a b => word3 h 0x4A d.code a.code b.code
  | .badd2 h d a b => word3 h 0x4B d.code a.code b.code
  | .bmul2 h d a b => word3 h 0x4C d.code a.code b.code
  | .bfma2 h d a b => word3 h 0x4D d.code a.code b.code
  | .dadd h d a b => word3 h 0x4E d.code a.code b.code
  | .dmul h d a b => word3 h 0x4F d.code a.code b.code
  | .dfma h d a b => word3 h 0x50 d.code a.code b.code
  | .dcmp h k p a b => word3 h 0x51 (k.toNat * 8 + p.toNat) a.code b.code
  | .frcp h d a => word3 h 0x52 d.code a.code 0
  | .frsq h d a => word3 h 0x52 d.code a.code 0x1
  | .fsqrt h d a => word3 h 0x52 d.code a.code 0x2
  | .fex2 h d a => word3 h 0x52 d.code a.code 0x3
  | .flg2 h d a => word3 h 0x52 d.code a.code 0x4
  | .fsinp h d a => word3 h 0x52 d.code a.code 0x5
  | .fcosp h d a => word3 h 0x52 d.code a.code 0x6
  | .ftanh h d a => word3 h 0x52 d.code a.code 0x7
  | .fsigm h d a => word3 h 0x52 d.code a.code 0x8
  | .fabs h d a => word3 h 0x54 d.code a.code 0
  | .fneg h d a => word3 h 0x54 d.code a.code 0x1
  | .ffloor h d a => word3 h 0x54 d.code a.code 0x2
  | .fceil h d a => word3 h 0x54 d.code a.code 0x3
  | .ftrunc h d a => word3 h 0x54 d.code a.code 0x4
  | .frint h d a => word3 h 0x54 d.code a.code 0x5
  | .fclass h d a => word3 h 0x54 d.code a.code 0x6
  | .fcvtF16F32 h d a => word3 h 0x55 d.code a.code 0
  | .fcvtBf16F32 h d a => word3 h 0x55 d.code a.code 0x1
  | .fcvtF32F16 h d a => word3 h 0x55 d.code a.code 0x2
  | .fcvtF32Bf16 h d a => word3 h 0x55 d.code a.code 0x3
  | .fcvtF64F32 h d a => word3 h 0x55 d.code a.code 0x4
  | .fcvtF32F64 h d a => word3 h 0x55 d.code a.code 0x5
  | .fcvtF32S32 h d a => word3 h 0x55 d.code a.code 0x6
  | .fcvtF32N32 h d a => word3 h 0x55 d.code a.code 0x7
  | .fcvtF64S32 h d a => word3 h 0x55 d.code a.code 0x8
  | .fcvtF64N32 h d a => word3 h 0x55 d.code a.code 0x9
  | .fcvtS32F32Fixed h d a m => word3 h 0x55 d.code a.code (m.toNat + 0x10)
  | .fcvtS32F32 h d a => word3 h 0x55 d.code a.code 0x14
  | .fcvtN32F32Fixed h d a m => word3 h 0x55 d.code a.code (m.toNat + 0x18)
  | .fcvtN32F32 h d a => word3 h 0x55 d.code a.code 0x1C
  | .fcvtS32F64Fixed h d a m => word3 h 0x55 d.code a.code (m.toNat + 0x20)
  | .fcvtS32F64 h d a => word3 h 0x55 d.code a.code 0x24
  | .fcvtN32F64Fixed h d a m => word3 h 0x55 d.code a.code (m.toNat + 0x28)
  | .fcvtN32F64 h d a => word3 h 0x55 d.code a.code 0x2C
  | .pkF16 h d a b => word3 h 0x56 d.code a.code b.code
  | .pkB16 h d a b => word3 h 0x57 d.code a.code b.code
  | .pkn h d a b => word3 h 0x5C d.code a.code b.code
  | .upkn h d a b => word3 h 0x5D d.code a.code b.code
  | .dot4E43 h d a b => word3 h 0x60 d.code a.code b.code
  | .dot4E52 h d a b => word3 h 0x61 d.code a.code b.code
  | .dot4S8 h d a b => word3 h 0x62 d.code a.code b.code
  | .dot4N8 h d a b => word3 h 0x63 d.code a.code b.code
  | .dot8E21 h d a b => word3 h 0x64 d.code a.code b.code
  | .dot8S4 h d a b => word3 h 0x65 d.code a.code b.code
  | .dot2B16 h d a b => word3 h 0x66 d.code a.code b.code
  | .dot2F16 h d a b => word3 h 0x67 d.code a.code b.code
  | .fscl h d a b => word3 h 0x68 d.code a.code b.code
  | .ldB h d a imm => word3 h 0x80 d.code a.code imm.toNat
  | .ldBs h d a imm => word3 h 0x81 d.code a.code imm.toNat
  | .ldH h d a imm => word3 h 0x82 d.code a.code imm.toNat
  | .ldHs h d a imm => word3 h 0x83 d.code a.code imm.toNat
  | .ldW h d a imm => word3 h 0x84 d.code a.code imm.toNat
  | .ldD h d a imm => word3 h 0x85 d.code a.code imm.toNat
  | .ldQ h d a imm => word3 h 0x86 d.code a.code imm.toNat
  | .ldcW h d a imm => word3 h 0x87 d.code a.code imm.toNat
  | .ldcQ h d a imm => word3 h 0x88 d.code a.code imm.toNat
  | .stB h v a imm => word3 h 0x89 v.code a.code imm.toNat
  | .stH h v a imm => word3 h 0x8A v.code a.code imm.toNat
  | .stW h v a imm => word3 h 0x8B v.code a.code imm.toNat
  | .stD h v a imm => word3 h 0x8C v.code a.code imm.toNat
  | .stQ h v a imm => word3 h 0x8D v.code a.code imm.toNat
  | .ldxW h d a b => word3 h 0x8E d.code a.code b.code
  | .stxW h v a b => word3 h 0x8F v.code a.code b.code
  | .ldsW h d a imm => word3 h 0x90 d.code a.code imm.toNat
  | .ldsD h d a imm => word3 h 0x91 d.code a.code imm.toNat
  | .ldsQ h d a imm => word3 h 0x92 d.code a.code imm.toNat
  | .ldsH h d a imm => word3 h 0x96 d.code a.code imm.toNat
  | .ldsB h d a imm => word3 h 0x98 d.code a.code imm.toNat
  | .stsW h v a imm => word3 h 0x93 v.code a.code imm.toNat
  | .stsD h v a imm => word3 h 0x94 v.code a.code imm.toNat
  | .stsQ h v a imm => word3 h 0x95 v.code a.code imm.toNat
  | .stsH h v a imm => word3 h 0x97 v.code a.code imm.toNat
  | .stsB h v a imm => word3 h 0x99 v.code a.code imm.toNat
  | .ldAcqW h d a e => word3 h 0x9A d.code a.code e.toNat
  | .ldAcqD h d a e => word3 h 0x9B d.code a.code e.toNat
  | .stRelW h v a e => word3 h 0x9C v.code a.code e.toNat
  | .stRelD h v a e => word3 h 0x9D v.code a.code e.toNat
  | .prf h a imm => word3 h 0x9E 0 a.code imm.toNat
  | .cwb h a => word3 h 0x9F 0 a.code 0
  | .cinv h a => word3 h 0x9F 0 a.code 0x1
  | .cwbiAll h => word3 h 0x9F 0 0 0x2
  | .atomAdd h d a b => word3 h 0xA0 d.code a.code b.code
  | .atomMin h d a b => word3 h 0xA1 d.code a.code b.code
  | .atomMax h d a b => word3 h 0xA2 d.code a.code b.code
  | .atomMinu h d a b => word3 h 0xA3 d.code a.code b.code
  | .atomMaxu h d a b => word3 h 0xA4 d.code a.code b.code
  | .atomAnd h d a b => word3 h 0xA5 d.code a.code b.code
  | .atomOr h d a b => word3 h 0xA6 d.code a.code b.code
  | .atomXor h d a b => word3 h 0xA7 d.code a.code b.code
  | .atomXchg h d a b => word3 h 0xA8 d.code a.code b.code
  | .atomCas h d a b => word3 h 0xA9 d.code a.code b.code
  | .atomFadd h d a b => word3 h 0xAA d.code a.code b.code
  | .atomsAdd h d a b => word3 h 0xAC d.code a.code b.code
  | .atomsMin h d a b => word3 h 0xAD d.code a.code b.code
  | .atomsMax h d a b => word3 h 0xAE d.code a.code b.code
  | .atomsCas h d a b => word3 h 0xAF d.code a.code b.code
  | .fence h x e k => word3 h 0xB0 0 0 (bit x * 32 + e.toNat * 4 + k.toNat)
  | .barinit h a b => word3 h 0xB1 0 a.code b.code
  | .bararv h d a => word3 h 0xB2 d.code a.code 0
  | .barxb h a b => word3 h 0xB3 0 a.code b.code
  | .bararvx h d a b => word3 h 0xB4 d.code a.code b.code
  | .barwait h a b => word3 h 0xB5 0 a.code b.code
  | .bartst h p a b => word3 h 0xB6 p.toNat a.code b.code
  | .barinv h a => word3 h 0xB7 0 a.code 0
  | .wptr h d a => word3 h 0xB8 d.code a.code 0
  | .prio h a => word3 h 0xB9 0 a.code 0
  | .yield h => word3 h 0xBA 0 0 0
  | .br h n p k => word3 h 0xC0 0 0 (bit n * 1048576 + p.toNat * 131072 + k.toNat)
  | .call h k => word3 h 0xC1 0 0 k.toNat
  | .jmp h a => word3 h 0xC2 0 a.code 0
  | .ret h => word3 h 0xC2 0 0x77 0
  | .callr h a => word3 h 0xC3 0 a.code 0
  | .exit h => word3 h 0xC4 0 0 0
  | .trap h imm => word3 h 0xC5 0 0 imm.toNat
  | .bkpt h => word3 h 0xC6 0 0 0
  | .refill h d => word3 h 0xC7 d.code 0 0
  | .fetchw h a b => word3 h 0xC8 0 a.code b.code
  | .id h d f => word3 h 0xC9 d.code 0 f.toNat
  | .cdecl h w a => word3 h 0xD0 w.toNat a.code 0
  | .crst h w => word3 h 0xD1 w.toNat 0 0
  | .shfl h d a b => word3 h 0xD2 d.code a.code b.code
  | .vote h d a b => word3 h 0xD3 d.code a.code b.code
  | .rdx h d a b => word3 h 0xD4 d.code a.code b.code
  | .mma h t a b _ => word3 h 0xE0 t.toNat a.code b.code
  | .mmaj h t a b _ => word3 h 0xE1 t.toNat a.code b.code
  | .mzero h t => word3 h 0xE2 t.toNat 0 0
  | .mload h t a => word3 h 0xE3 t.toNat a.code 0
  | .mdrain h t a b _ => word3 h 0xE4 t.toNat a.code b.code
  | .mfence h w => word3 h 0xE5 w.toNat 0 0
  | .mwait h t => word3 h 0xE6 t.toNat 0 0
  | .cpyGs h a e ch => word3 h 0xE7 0 a.code (bit e * 32 + ch.toNat * 2)
  | .cpySg h a e ch => word3 h 0xE7 0 a.code (bit e * 32 + ch.toNat * 2 + 0x1)
  | .cpyl h d a b _ => word3 h 0xE8 d.code a.code b.code
  | .cpyg h d a b _ => word3 h 0xE9 d.code a.code b.code
  | .sysrd h d imm => word3 h 0xF0 d.code 0 imm.toNat
  | .syswr h v imm => word3 h 0xF1 v.code 0 imm.toNat
  | .tsrd h d f => word3 h 0xF2 d.code 0 (bit f)
  | .ecall h imm => word3 h 0xF3 0 0 imm.toNat
  | .eret h => word3 h 0xF4 0 0 0
  | .ecreate h d a => word3 h 0xF5 d.code a.code 0
  | .eenter h a b => word3 h 0xF6 0 a.code b.code
  | .eexit h => word3 h 0xF7 0 0 0
  | .ereport h d a => word3 h 0xF8 d.code a.code 0
  | .kwrap h d a => word3 h 0xF9 d.code a.code 0
  | .kunwrap h d a => word3 h 0xF9 d.code a.code 0x1
  | .krevoke h d a => word3 h 0xF9 d.code a.code 0x2
  | .kload h d a => word3 h 0xF9 d.code a.code 0x3
  | .potset h d a => word3 h 0xFA d.code a.code 0
  | .potrd h d a => word3 h 0xFA d.code a.code 0x1
  | .pmap h d a => word3 h 0xFA d.code a.code 0x2
  | .paccept h d a => word3 h 0xFA d.code a.code 0x3
  | .pdiscard h d a => word3 h 0xFA d.code a.code 0x4
  | .pevict h d a => word3 h 0xFA d.code a.code 0x5
  | .pload h d a => word3 h 0xFA d.code a.code 0x6
  | .punmap h d a => word3 h 0xFA d.code a.code 0x7
  | .tlbi h a b => word3 h 0xFB 0 a.code b.code
  | .edestroy h a => word3 h 0xFC 0 a.code 0
  | .pickerChoice _ _ => 0
  | .terminalTrapEnd _ => 0
  | .timerAssert _ _ => 0
  | .interruptEntry _ => 0
  | .lineLeaseExpiry _ _ => 0
  | .epochRollover _ => 0
  | .l1Fill _ _ _ => 0
  | .uncorrectableError _ => 0
  | .writeBack _ _ => 0
  | .counterGrant _ => 0
  | .atomicUnitServe _ _ => 0
  | .pageTableWalk _ _ _ => 0
  | .faultRecordWrite _ => 0
  | .operandLogReplay _ => 0
  | .copyFixupReplay _ _ => 0
  | .drainFixupReplay _ => 0
  | .channelBind _ _ => 0
  | .copyStart _ _ => 0
  | .copyEngineTurn _ _ => 0
  | .drainComplete _ => 0
  | .passPost _ => 0
  | .bReadStart _ => 0
  | .bReadEnd _ => 0
  | .passGrant _ => 0
  | .passComplete _ => 0
  | .governorWindow _ => 0
  | .teamPlace _ _ => 0
  | .clusterPlace _ _ _ _ => 0
  | .teamDone _ => 0
  | .walkerDispense _ _ => 0
  | .refillItem _ _ => 0
  | .fetchwServe _ => 0
  | .splitRequest _ _ => 0
  | .splitRetry _ _ => 0
  | .launchComplete _ => 0
  | .kickTake _ _ => 0
  | .entryStart _ _ => 0
  | .markComplete _ _ _ => 0
  | .quiesceRequest _ => 0
  | .quiesceRelease _ => 0
  | .scrubEnd _ => 0
  | .keyRotation _ => 0
  | .sweep _ => 0
  | .injtagArm _ => 0
  | .injtagDisarm _ => 0
  | .tdispDmaRequest _ _ _ _ _ => 0
  | .linkFlitReceive _ _ _ _ _ => 0
  | .partWrite _ _ => 0
  | .partitionResize _ => 0
  | .preemptResume _ => 0
  | .preemptSoft _ => 0
  | .preemptHalt _ => 0
  | .preemptKill _ => 0
  | .timeSliceExpiry _ _ => 0
  | .softRequestEnd _ => 0
  | .g1Deadline _ => 0
  | .g2Deadline _ => 0
  | .contextRestore _ _ => 0
  | .quadsvcOut _ _ => 0
  | .quadsvcIn _ _ => 0
  | .ceownWrite _ _ => 0
  | .blkmove _ => 0
  | .energyTick _ => 0
  | .mgovcfgWrite _ _ => 0
  | .frlostClear => 0
  | .trstatClear => 0
  | .ecccntClear => 0
  | .rasstatClear _ => 0
  | .sevcntClear => 0
  | .registerWrite _ _ => 0
  | .tripletDissent _ _ => 0
  | .resyncEnd _ => 0
  | .tripletStop _ => 0
  | .tripletRestart _ => 0
  | .quadAutoRemove _ _ => 0
  | .tandemFailover => 0
  | .tandemRejoin _ => 0
  | .fwupd _ => 0
  | .notice _ _ => 0
  | .noticeDeadline _ => 0
  | .checkpoint _ => 0
  | .restore _ => 0
  | .migrateOut _ _ => 0
  | .migrateIn _ _ => 0
  | .migrationReady _ => 0
  | .migrationGo _ => 0
  | .migrationStreamFail _ => 0
  | .getVersion _ => 0
  | .getCapabilities _ => 0
  | .negotiateAlgorithms _ => 0
  | .getDigests _ => 0
  | .getCertificate _ => 0
  | .challenge _ => 0
  | .getMeasurements _ => 0
  | .keyExchange _ => 0
  | .finish _ => 0
  | .heartbeat _ => 0
  | .endSession _ => 0
  | .unsupportedRequest _ => 0
  | .sessionTimeout _ => 0
  | .spdmrly _ => 0
  | .power _ _ _ => 0
  | .package _ => 0
  | .pstateWrite _ _ => 0
  | .throttleStep _ _ => 0
  | .hcstart _ => 0
  | .msiWrite _ => 0
  | .linkTrain _ _ => 0
  | .linkDown _ => 0
  | .lmsTreeRenew => 0
  | .moduleReset => 0
  | .interlockedResultWrite _ => 0
  | .mloadMovementEnd _ => 0
  | .pstateChangeEnd _ => 0
  | .tandemSimplexFailure => 0
  | .startInterfaceRequest _ _ => 0

/-- The extension word of the five forms that take one (R64), none for the others. -/
def Instr.extNat : Instr → Option Nat
  | .mma _ _ _ _ x => some (mmaExt x)
  | .mmaj _ _ _ _ x => some (mmaExt x)
  | .mdrain _ _ _ _ x => some (drainExt x)
  | .cpyl _ _ _ _ x => some (cpylExt x)
  | .cpyg _ _ _ _ x => some (cpygExt x)
  | _ => none

/-- The formats of Table 3.3, and the RRR word with an extension word (R64). -/
inductive Format where
  | rrr | ri | i14 | br | bl | x | ext
  deriving DecidableEq, Repr

/-- The format that Table 3.7 gives an opcode, none where it is unassigned; the five opcodes with an extension word are
`ext`. -/
def formatOf : Nat → Option Format
  | 0x00 => some .rrr
  | 0x01 => some .rrr
  | 0x02 => some .rrr
  | 0x03 => some .rrr
  | 0x04 => some .rrr
  | 0x05 => some .rrr
  | 0x06 => some .rrr
  | 0x07 => some .rrr
  | 0x08 => some .rrr
  | 0x09 => some .rrr
  | 0x0A => some .rrr
  | 0x0B => some .rrr
  | 0x0C => some .rrr
  | 0x0D => some .rrr
  | 0x0E => some .rrr
  | 0x0F => some .rrr
  | 0x10 => some .rrr
  | 0x11 => some .rrr
  | 0x12 => some .rrr
  | 0x13 => some .rrr
  | 0x14 => some .rrr
  | 0x15 => some .rrr
  | 0x16 => some .rrr
  | 0x17 => some .rrr
  | 0x18 => some .rrr
  | 0x19 => some .rrr
  | 0x1A => some .rrr
  | 0x1B => some .rrr
  | 0x1C => some .rrr
  | 0x1D => some .rrr
  | 0x1E => some .rrr
  | 0x20 => some .ri
  | 0x21 => some .ri
  | 0x22 => some .ri
  | 0x23 => some .ri
  | 0x24 => some .ri
  | 0x25 => some .ri
  | 0x26 => some .ri
  | 0x27 => some .ri
  | 0x28 => some .i14
  | 0x29 => some .rrr
  | 0x2A => some .x
  | 0x2B => some .rrr
  | 0x2C => some .ri
  | 0x2D => some .rrr
  | 0x2E => some .x
  | 0x30 => some .rrr
  | 0x31 => some .rrr
  | 0x32 => some .rrr
  | 0x33 => some .rrr
  | 0x34 => some .rrr
  | 0x35 => some .rrr
  | 0x36 => some .rrr
  | 0x37 => some .rrr
  | 0x40 => some .rrr
  | 0x41 => some .rrr
  | 0x42 => some .rrr
  | 0x43 => some .rrr
  | 0x44 => some .rrr
  | 0x45 => some .rrr
  | 0x46 => some .rrr
  | 0x47 => some .rrr
  | 0x48 => some .rrr
  | 0x49 => some .rrr
  | 0x4A => some .rrr
  | 0x4B => some .rrr
  | 0x4C => some .rrr
  | 0x4D => some .rrr
  | 0x4E => some .rrr
  | 0x4F => some .rrr
  | 0x50 => some .rrr
  | 0x51 => some .rrr
  | 0x52 => some .x
  | 0x54 => some .x
  | 0x55 => some .x
  | 0x56 => some .rrr
  | 0x57 => some .rrr
  | 0x5C => some .rrr
  | 0x5D => some .rrr
  | 0x60 => some .rrr
  | 0x61 => some .rrr
  | 0x62 => some .rrr
  | 0x63 => some .rrr
  | 0x64 => some .rrr
  | 0x65 => some .rrr
  | 0x66 => some .rrr
  | 0x67 => some .rrr
  | 0x68 => some .rrr
  | 0x80 => some .ri
  | 0x81 => some .ri
  | 0x82 => some .ri
  | 0x83 => some .ri
  | 0x84 => some .ri
  | 0x85 => some .ri
  | 0x86 => some .ri
  | 0x87 => some .ri
  | 0x88 => some .ri
  | 0x89 => some .ri
  | 0x8A => some .ri
  | 0x8B => some .ri
  | 0x8C => some .ri
  | 0x8D => some .ri
  | 0x8E => some .rrr
  | 0x8F => some .rrr
  | 0x90 => some .ri
  | 0x91 => some .ri
  | 0x92 => some .ri
  | 0x93 => some .ri
  | 0x94 => some .ri
  | 0x95 => some .ri
  | 0x96 => some .ri
  | 0x97 => some .ri
  | 0x98 => some .ri
  | 0x99 => some .ri
  | 0x9A => some .ri
  | 0x9B => some .ri
  | 0x9C => some .ri
  | 0x9D => some .ri
  | 0x9E => some .ri
  | 0x9F => some .x
  | 0xA0 => some .rrr
  | 0xA1 => some .rrr
  | 0xA2 => some .rrr
  | 0xA3 => some .rrr
  | 0xA4 => some .rrr
  | 0xA5 => some .rrr
  | 0xA6 => some .rrr
  | 0xA7 => some .rrr
  | 0xA8 => some .rrr
  | 0xA9 => some .rrr
  | 0xAA => some .rrr
  | 0xAC => some .rrr
  | 0xAD => some .rrr
  | 0xAE => some .rrr
  | 0xAF => some .rrr
  | 0xB0 => some .x
  | 0xB1 => some .rrr
  | 0xB2 => some .rrr
  | 0xB3 => some .rrr
  | 0xB4 => some .rrr
  | 0xB5 => some .rrr
  | 0xB6 => some .rrr
  | 0xB7 => some .rrr
  | 0xB8 => some .rrr
  | 0xB9 => some .rrr
  | 0xBA => some .rrr
  | 0xC0 => some .br
  | 0xC1 => some .bl
  | 0xC2 => some .rrr
  | 0xC3 => some .rrr
  | 0xC4 => some .rrr
  | 0xC5 => some .i14
  | 0xC6 => some .rrr
  | 0xC7 => some .rrr
  | 0xC8 => some .rrr
  | 0xC9 => some .x
  | 0xD0 => some .rrr
  | 0xD1 => some .rrr
  | 0xD2 => some .rrr
  | 0xD3 => some .rrr
  | 0xD4 => some .rrr
  | 0xE0 => some .ext
  | 0xE1 => some .ext
  | 0xE2 => some .rrr
  | 0xE3 => some .rrr
  | 0xE4 => some .ext
  | 0xE5 => some .rrr
  | 0xE6 => some .rrr
  | 0xE7 => some .x
  | 0xE8 => some .ext
  | 0xE9 => some .ext
  | 0xF0 => some .i14
  | 0xF1 => some .i14
  | 0xF2 => some .x
  | 0xF3 => some .i14
  | 0xF4 => some .rrr
  | 0xF5 => some .rrr
  | 0xF6 => some .rrr
  | 0xF7 => some .rrr
  | 0xF8 => some .rrr
  | 0xF9 => some .x
  | 0xFA => some .x
  | 0xFB => some .rrr
  | 0xFC => some .rrr
  | _ => none

/-- A word of 32 bits, as a number, and its literal, read by Tables 3.7-3.13: none for an unassigned opcode or F code
and for a nonzero reserved field (R67, R81, R82). -/
def decodeWord (n : Nat) (h : Hdr) : Option Instr :=
  match fld n 21 8 with
  | 0x00 => if fld n 0 21 == 0x0 then some (.nop h) else none
  | 0x01 => some (.add h (.ofCode (fld n 14 7)) (.ofCode (fld n 7 7)) (.ofCode (fld n 0 7)))
  | 0x02 => some (.sub h (.ofCode (fld n 14 7)) (.ofCode (fld n 7 7)) (.ofCode (fld n 0 7)))
  | 0x03 => some (.mul h (.ofCode (fld n 14 7)) (.ofCode (fld n 7 7)) (.ofCode (fld n 0 7)))
  | 0x04 => some (.mulhi h (.ofCode (fld n 14 7)) (.ofCode (fld n 7 7)) (.ofCode (fld n 0 7)))
  | 0x05 => some (.mulhu h (.ofCode (fld n 14 7)) (.ofCode (fld n 7 7)) (.ofCode (fld n 0 7)))
  | 0x06 => some (.mad h (.ofCode (fld n 14 7)) (.ofCode (fld n 7 7)) (.ofCode (fld n 0 7)))
  | 0x07 => some (.and h (.ofCode (fld n 14 7)) (.ofCode (fld n 7 7)) (.ofCode (fld n 0 7)))
  | 0x08 => some (.or h (.ofCode (fld n 14 7)) (.ofCode (fld n 7 7)) (.ofCode (fld n 0 7)))
  | 0x09 => some (.xor h (.ofCode (fld n 14 7)) (.ofCode (fld n 7 7)) (.ofCode (fld n 0 7)))
  | 0x0A => some (.andn h (.ofCode (fld n 14 7)) (.ofCode (fld n 7 7)) (.ofCode (fld n 0 7)))
  | 0x0B => some (.shl h (.ofCode (fld n 14 7)) (.ofCode (fld n 7 7)) (.ofCode (fld n 0 7)))
  | 0x0C => some (.shr h (.ofCode (fld n 14 7)) (.ofCode (fld n 7 7)) (.ofCode (fld n 0 7)))
  | 0x0D => some (.sra h (.ofCode (fld n 14 7)) (.ofCode (fld n 7 7)) (.ofCode (fld n 0 7)))
  | 0x0E => some (.min h (.ofCode (fld n 14 7)) (.ofCode (fld n 7 7)) (.ofCode (fld n 0 7)))
  | 0x0F => some (.max h (.ofCode (fld n 14 7)) (.ofCode (fld n 7 7)) (.ofCode (fld n 0 7)))
  | 0x10 => some (.minu h (.ofCode (fld n 14 7)) (.ofCode (fld n 7 7)) (.ofCode (fld n 0 7)))
  | 0x11 => some (.maxu h (.ofCode (fld n 14 7)) (.ofCode (fld n 7 7)) (.ofCode (fld n 0 7)))
  | 0x12 => some (.adds h (.ofCode (fld n 14 7)) (.ofCode (fld n 7 7)) (.ofCode (fld n 0 7)))
  | 0x13 => some (.subs h (.ofCode (fld n 14 7)) (.ofCode (fld n 7 7)) (.ofCode (fld n 0 7)))
  | 0x14 => some (.lea h (.ofNat _ (fld n 21 2)) (.ofCode (fld n 14 7)) (.ofCode (fld n 7 7)) (.ofCode (fld n 0 7)))
  | 0x15 => some (.lea h (.ofNat _ (fld n 21 2)) (.ofCode (fld n 14 7)) (.ofCode (fld n 7 7)) (.ofCode (fld n 0 7)))
  | 0x16 => some (.lea h (.ofNat _ (fld n 21 2)) (.ofCode (fld n 14 7)) (.ofCode (fld n 7 7)) (.ofCode (fld n 0 7)))
  | 0x17 => some (.lea h (.ofNat _ (fld n 21 2)) (.ofCode (fld n 14 7)) (.ofCode (fld n 7 7)) (.ofCode (fld n 0 7)))
  | 0x18 => some (.add64 h (.ofCode (fld n 14 7)) (.ofCode (fld n 7 7)) (.ofCode (fld n 0 7)))
  | 0x19 => some (.sub64 h (.ofCode (fld n 14 7)) (.ofCode (fld n 7 7)) (.ofCode (fld n 0 7)))
  | 0x1A => some (.mulw h (.ofCode (fld n 14 7)) (.ofCode (fld n 7 7)) (.ofCode (fld n 0 7)))
  | 0x1B => some (.mulws h (.ofCode (fld n 14 7)) (.ofCode (fld n 7 7)) (.ofCode (fld n 0 7)))
  | 0x1C => some (.bfe h (.ofCode (fld n 14 7)) (.ofCode (fld n 7 7)) (.ofCode (fld n 0 7)))
  | 0x1D => some (.bfi h (.ofCode (fld n 14 7)) (.ofCode (fld n 7 7)) (.ofCode (fld n 0 7)))
  | 0x1E => some (.prmb h (.ofCode (fld n 14 7)) (.ofCode (fld n 7 7)) (.ofCode (fld n 0 7)))
  | 0x20 => some (.addi h (.ofCode (fld n 14 7)) (.ofCode (fld n 7 7)) (.ofNat _ (fld n 0 7)))
  | 0x21 => some (.andi h (.ofCode (fld n 14 7)) (.ofCode (fld n 7 7)) (.ofNat _ (fld n 0 7)))
  | 0x22 => some (.ori h (.ofCode (fld n 14 7)) (.ofCode (fld n 7 7)) (.ofNat _ (fld n 0 7)))
  | 0x23 => some (.xori h (.ofCode (fld n 14 7)) (.ofCode (fld n 7 7)) (.ofNat _ (fld n 0 7)))
  | 0x24 => if fld n 5 2 == 0x0 then some (.shli h (.ofCode (fld n 14 7)) (.ofCode (fld n 7 7)) (.ofNat _ (fld n 0 5))) else none
  | 0x25 => if fld n 5 2 == 0x0 then some (.shri h (.ofCode (fld n 14 7)) (.ofCode (fld n 7 7)) (.ofNat _ (fld n 0 5))) else none
  | 0x26 => if fld n 5 2 == 0x0 then some (.srai h (.ofCode (fld n 14 7)) (.ofCode (fld n 7 7)) (.ofNat _ (fld n 0 5))) else none
  | 0x27 => some (.muli h (.ofCode (fld n 14 7)) (.ofCode (fld n 7 7)) (.ofNat _ (fld n 0 7)))
  | 0x28 => some (.movi h (.ofCode (fld n 14 7)) (.ofNat _ (fld n 0 14)))
  | 0x29 => if fld n 0 7 == 0x0 then some (.mov h (.ofCode (fld n 14 7)) (.ofCode (fld n 7 7))) else none
  | 0x2A => if fld n 0 7 == 0x0 then some (.clz h (.ofCode (fld n 14 7)) (.ofCode (fld n 7 7))) else if fld n 0 7 == 0x1 then some (.popc h (.ofCode (fld n 14 7)) (.ofCode (fld n 7 7))) else if fld n 0 7 == 0x2 then some (.brev h (.ofCode (fld n 14 7)) (.ofCode (fld n 7 7))) else if fld n 0 7 == 0x3 then some (.abs h (.ofCode (fld n 14 7)) (.ofCode (fld n 7 7))) else if fld n 0 7 == 0x4 then some (.neg h (.ofCode (fld n 14 7)) (.ofCode (fld n 7 7))) else if fld n 0 7 == 0x5 then some (.not h (.ofCode (fld n 14 7)) (.ofCode (fld n 7 7))) else if fld n 0 7 == 0x6 then some (.sext8 h (.ofCode (fld n 14 7)) (.ofCode (fld n 7 7))) else if fld n 0 7 == 0x7 then some (.sext16 h (.ofCode (fld n 14 7)) (.ofCode (fld n 7 7))) else if fld n 0 7 == 0x8 then some (.zext8 h (.ofCode (fld n 14 7)) (.ofCode (fld n 7 7))) else if fld n 0 7 == 0x9 then some (.zext16 h (.ofCode (fld n 14 7)) (.ofCode (fld n 7 7))) else if fld n 0 7 == 0xA then some (.ctz h (.ofCode (fld n 14 7)) (.ofCode (fld n 7 7))) else none
  | 0x2B => some (.cmp h (.ofNat _ (fld n 17 4)) (.ofNat _ (fld n 14 3)) (.ofCode (fld n 7 7)) (.ofCode (fld n 0 7)))
  | 0x2C => some (.cmpi h (.ofNat _ (fld n 17 4)) (.ofNat _ (fld n 14 3)) (.ofCode (fld n 7 7)) (.ofNat _ (fld n 0 7)))
  | 0x2D => if fld n 3 4 == 0x0 && fld n 10 4 == 0x0 && fld n 17 4 == 0x0 then some (.pand h (.ofNat _ (fld n 14 3)) (.ofNat _ (fld n 7 3)) (.ofNat _ (fld n 0 3))) else if fld n 3 4 == 0x0 && fld n 10 4 == 0x0 && fld n 17 4 == 0x1 then some (.por h (.ofNat _ (fld n 14 3)) (.ofNat _ (fld n 7 3)) (.ofNat _ (fld n 0 3))) else if fld n 3 4 == 0x0 && fld n 10 4 == 0x0 && fld n 17 4 == 0x2 then some (.pxor h (.ofNat _ (fld n 14 3)) (.ofNat _ (fld n 7 3)) (.ofNat _ (fld n 0 3))) else if fld n 3 4 == 0x0 && fld n 10 4 == 0x0 && fld n 17 4 == 0x3 then some (.pandn h (.ofNat _ (fld n 14 3)) (.ofNat _ (fld n 7 3)) (.ofNat _ (fld n 0 3))) else if fld n 0 7 == 0x0 && fld n 10 4 == 0x0 && fld n 17 4 == 0x4 then some (.pnot h (.ofNat _ (fld n 14 3)) (.ofNat _ (fld n 7 3))) else none
  | 0x2E => if fld n 0 14 == 0x0 then some (.pget h (.ofCode (fld n 14 7))) else if fld n 0 7 == 0x1 && fld n 14 7 == 0x0 then some (.pput h (.ofCode (fld n 7 7))) else none
  | 0x30 => some (.sel h (.ofNat _ (fld n 21 3)) (.ofCode (fld n 14 7)) (.ofCode (fld n 7 7)) (.ofCode (fld n 0 7)))
  | 0x31 => some (.sel h (.ofNat _ (fld n 21 3)) (.ofCode (fld n 14 7)) (.ofCode (fld n 7 7)) (.ofCode (fld n 0 7)))
  | 0x32 => some (.sel h (.ofNat _ (fld n 21 3)) (.ofCode (fld n 14 7)) (.ofCode (fld n 7 7)) (.ofCode (fld n 0 7)))
  | 0x33 => some (.sel h (.ofNat _ (fld n 21 3)) (.ofCode (fld n 14 7)) (.ofCode (fld n 7 7)) (.ofCode (fld n 0 7)))
  | 0x34 => some (.sel h (.ofNat _ (fld n 21 3)) (.ofCode (fld n 14 7)) (.ofCode (fld n 7 7)) (.ofCode (fld n 0 7)))
  | 0x35 => some (.sel h (.ofNat _ (fld n 21 3)) (.ofCode (fld n 14 7)) (.ofCode (fld n 7 7)) (.ofCode (fld n 0 7)))
  | 0x36 => some (.sel h (.ofNat _ (fld n 21 3)) (.ofCode (fld n 14 7)) (.ofCode (fld n 7 7)) (.ofCode (fld n 0 7)))
  | 0x37 => some (.sel h (.ofNat _ (fld n 21 3)) (.ofCode (fld n 14 7)) (.ofCode (fld n 7 7)) (.ofCode (fld n 0 7)))
  | 0x40 => some (.fadd h (.ofCode (fld n 14 7)) (.ofCode (fld n 7 7)) (.ofCode (fld n 0 7)))
  | 0x41 => some (.fsub h (.ofCode (fld n 14 7)) (.ofCode (fld n 7 7)) (.ofCode (fld n 0 7)))
  | 0x42 => some (.fmul h (.ofCode (fld n 14 7)) (.ofCode (fld n 7 7)) (.ofCode (fld n 0 7)))
  | 0x43 => some (.ffma h (.ofCode (fld n 14 7)) (.ofCode (fld n 7 7)) (.ofCode (fld n 0 7)))
  | 0x44 => some (.ffnma h (.ofCode (fld n 14 7)) (.ofCode (fld n 7 7)) (.ofCode (fld n 0 7)))
  | 0x45 => some (.fmin h (.ofCode (fld n 14 7)) (.ofCode (fld n 7 7)) (.ofCode (fld n 0 7)))
  | 0x46 => some (.fmax h (.ofCode (fld n 14 7)) (.ofCode (fld n 7 7)) (.ofCode (fld n 0 7)))
  | 0x47 => some (.fcmp h (.ofNat _ (fld n 17 4)) (.ofNat _ (fld n 14 3)) (.ofCode (fld n 7 7)) (.ofCode (fld n 0 7)))
  | 0x48 => some (.hadd2 h (.ofCode (fld n 14 7)) (.ofCode (fld n 7 7)) (.ofCode (fld n 0 7)))
  | 0x49 => some (.hmul2 h (.ofCode (fld n 14 7)) (.ofCode (fld n 7 7)) (.ofCode (fld n 0 7)))
  | 0x4A => some (.hfma2 h (.ofCode (fld n 14 7)) (.ofCode (fld n 7 7)) (.ofCode (fld n 0 7)))
  | 0x4B => some (.badd2 h (.ofCode (fld n 14 7)) (.ofCode (fld n 7 7)) (.ofCode (fld n 0 7)))
  | 0x4C => some (.bmul2 h (.ofCode (fld n 14 7)) (.ofCode (fld n 7 7)) (.ofCode (fld n 0 7)))
  | 0x4D => some (.bfma2 h (.ofCode (fld n 14 7)) (.ofCode (fld n 7 7)) (.ofCode (fld n 0 7)))
  | 0x4E => some (.dadd h (.ofCode (fld n 14 7)) (.ofCode (fld n 7 7)) (.ofCode (fld n 0 7)))
  | 0x4F => some (.dmul h (.ofCode (fld n 14 7)) (.ofCode (fld n 7 7)) (.ofCode (fld n 0 7)))
  | 0x50 => some (.dfma h (.ofCode (fld n 14 7)) (.ofCode (fld n 7 7)) (.ofCode (fld n 0 7)))
  | 0x51 => some (.dcmp h (.ofNat _ (fld n 17 4)) (.ofNat _ (fld n 14 3)) (.ofCode (fld n 7 7)) (.ofCode (fld n 0 7)))
  | 0x52 => if fld n 0 7 == 0x0 then some (.frcp h (.ofCode (fld n 14 7)) (.ofCode (fld n 7 7))) else if fld n 0 7 == 0x1 then some (.frsq h (.ofCode (fld n 14 7)) (.ofCode (fld n 7 7))) else if fld n 0 7 == 0x2 then some (.fsqrt h (.ofCode (fld n 14 7)) (.ofCode (fld n 7 7))) else if fld n 0 7 == 0x3 then some (.fex2 h (.ofCode (fld n 14 7)) (.ofCode (fld n 7 7))) else if fld n 0 7 == 0x4 then some (.flg2 h (.ofCode (fld n 14 7)) (.ofCode (fld n 7 7))) else if fld n 0 7 == 0x5 then some (.fsinp h (.ofCode (fld n 14 7)) (.ofCode (fld n 7 7))) else if fld n 0 7 == 0x6 then some (.fcosp h (.ofCode (fld n 14 7)) (.ofCode (fld n 7 7))) else if fld n 0 7 == 0x7 then some (.ftanh h (.ofCode (fld n 14 7)) (.ofCode (fld n 7 7))) else if fld n 0 7 == 0x8 then some (.fsigm h (.ofCode (fld n 14 7)) (.ofCode (fld n 7 7))) else none
  | 0x54 => if fld n 0 7 == 0x0 then some (.fabs h (.ofCode (fld n 14 7)) (.ofCode (fld n 7 7))) else if fld n 0 7 == 0x1 then some (.fneg h (.ofCode (fld n 14 7)) (.ofCode (fld n 7 7))) else if fld n 0 7 == 0x2 then some (.ffloor h (.ofCode (fld n 14 7)) (.ofCode (fld n 7 7))) else if fld n 0 7 == 0x3 then some (.fceil h (.ofCode (fld n 14 7)) (.ofCode (fld n 7 7))) else if fld n 0 7 == 0x4 then some (.ftrunc h (.ofCode (fld n 14 7)) (.ofCode (fld n 7 7))) else if fld n 0 7 == 0x5 then some (.frint h (.ofCode (fld n 14 7)) (.ofCode (fld n 7 7))) else if fld n 0 7 == 0x6 then some (.fclass h (.ofCode (fld n 14 7)) (.ofCode (fld n 7 7))) else none
  | 0x55 => if fld n 0 7 == 0x0 then some (.fcvtF16F32 h (.ofCode (fld n 14 7)) (.ofCode (fld n 7 7))) else if fld n 0 7 == 0x1 then some (.fcvtBf16F32 h (.ofCode (fld n 14 7)) (.ofCode (fld n 7 7))) else if fld n 0 7 == 0x2 then some (.fcvtF32F16 h (.ofCode (fld n 14 7)) (.ofCode (fld n 7 7))) else if fld n 0 7 == 0x3 then some (.fcvtF32Bf16 h (.ofCode (fld n 14 7)) (.ofCode (fld n 7 7))) else if fld n 0 7 == 0x4 then some (.fcvtF64F32 h (.ofCode (fld n 14 7)) (.ofCode (fld n 7 7))) else if fld n 0 7 == 0x5 then some (.fcvtF32F64 h (.ofCode (fld n 14 7)) (.ofCode (fld n 7 7))) else if fld n 0 7 == 0x6 then some (.fcvtF32S32 h (.ofCode (fld n 14 7)) (.ofCode (fld n 7 7))) else if fld n 0 7 == 0x7 then some (.fcvtF32N32 h (.ofCode (fld n 14 7)) (.ofCode (fld n 7 7))) else if fld n 0 7 == 0x8 then some (.fcvtF64S32 h (.ofCode (fld n 14 7)) (.ofCode (fld n 7 7))) else if fld n 0 7 == 0x9 then some (.fcvtF64N32 h (.ofCode (fld n 14 7)) (.ofCode (fld n 7 7))) else if fld n 2 5 == 0x4 then some (.fcvtS32F32Fixed h (.ofCode (fld n 14 7)) (.ofCode (fld n 7 7)) (.ofNat _ (fld n 0 2))) else if fld n 0 7 == 0x14 then some (.fcvtS32F32 h (.ofCode (fld n 14 7)) (.ofCode (fld n 7 7))) else if fld n 2 5 == 0x6 then some (.fcvtN32F32Fixed h (.ofCode (fld n 14 7)) (.ofCode (fld n 7 7)) (.ofNat _ (fld n 0 2))) else if fld n 0 7 == 0x1C then some (.fcvtN32F32 h (.ofCode (fld n 14 7)) (.ofCode (fld n 7 7))) else if fld n 2 5 == 0x8 then some (.fcvtS32F64Fixed h (.ofCode (fld n 14 7)) (.ofCode (fld n 7 7)) (.ofNat _ (fld n 0 2))) else if fld n 0 7 == 0x24 then some (.fcvtS32F64 h (.ofCode (fld n 14 7)) (.ofCode (fld n 7 7))) else if fld n 2 5 == 0xA then some (.fcvtN32F64Fixed h (.ofCode (fld n 14 7)) (.ofCode (fld n 7 7)) (.ofNat _ (fld n 0 2))) else if fld n 0 7 == 0x2C then some (.fcvtN32F64 h (.ofCode (fld n 14 7)) (.ofCode (fld n 7 7))) else none
  | 0x56 => some (.pkF16 h (.ofCode (fld n 14 7)) (.ofCode (fld n 7 7)) (.ofCode (fld n 0 7)))
  | 0x57 => some (.pkB16 h (.ofCode (fld n 14 7)) (.ofCode (fld n 7 7)) (.ofCode (fld n 0 7)))
  | 0x5C => some (.pkn h (.ofCode (fld n 14 7)) (.ofCode (fld n 7 7)) (.ofCode (fld n 0 7)))
  | 0x5D => some (.upkn h (.ofCode (fld n 14 7)) (.ofCode (fld n 7 7)) (.ofCode (fld n 0 7)))
  | 0x60 => some (.dot4E43 h (.ofCode (fld n 14 7)) (.ofCode (fld n 7 7)) (.ofCode (fld n 0 7)))
  | 0x61 => some (.dot4E52 h (.ofCode (fld n 14 7)) (.ofCode (fld n 7 7)) (.ofCode (fld n 0 7)))
  | 0x62 => some (.dot4S8 h (.ofCode (fld n 14 7)) (.ofCode (fld n 7 7)) (.ofCode (fld n 0 7)))
  | 0x63 => some (.dot4N8 h (.ofCode (fld n 14 7)) (.ofCode (fld n 7 7)) (.ofCode (fld n 0 7)))
  | 0x64 => some (.dot8E21 h (.ofCode (fld n 14 7)) (.ofCode (fld n 7 7)) (.ofCode (fld n 0 7)))
  | 0x65 => some (.dot8S4 h (.ofCode (fld n 14 7)) (.ofCode (fld n 7 7)) (.ofCode (fld n 0 7)))
  | 0x66 => some (.dot2B16 h (.ofCode (fld n 14 7)) (.ofCode (fld n 7 7)) (.ofCode (fld n 0 7)))
  | 0x67 => some (.dot2F16 h (.ofCode (fld n 14 7)) (.ofCode (fld n 7 7)) (.ofCode (fld n 0 7)))
  | 0x68 => some (.fscl h (.ofCode (fld n 14 7)) (.ofCode (fld n 7 7)) (.ofCode (fld n 0 7)))
  | 0x80 => some (.ldB h (.ofCode (fld n 14 7)) (.ofCode (fld n 7 7)) (.ofNat _ (fld n 0 7)))
  | 0x81 => some (.ldBs h (.ofCode (fld n 14 7)) (.ofCode (fld n 7 7)) (.ofNat _ (fld n 0 7)))
  | 0x82 => some (.ldH h (.ofCode (fld n 14 7)) (.ofCode (fld n 7 7)) (.ofNat _ (fld n 0 7)))
  | 0x83 => some (.ldHs h (.ofCode (fld n 14 7)) (.ofCode (fld n 7 7)) (.ofNat _ (fld n 0 7)))
  | 0x84 => some (.ldW h (.ofCode (fld n 14 7)) (.ofCode (fld n 7 7)) (.ofNat _ (fld n 0 7)))
  | 0x85 => some (.ldD h (.ofCode (fld n 14 7)) (.ofCode (fld n 7 7)) (.ofNat _ (fld n 0 7)))
  | 0x86 => some (.ldQ h (.ofCode (fld n 14 7)) (.ofCode (fld n 7 7)) (.ofNat _ (fld n 0 7)))
  | 0x87 => some (.ldcW h (.ofCode (fld n 14 7)) (.ofCode (fld n 7 7)) (.ofNat _ (fld n 0 7)))
  | 0x88 => some (.ldcQ h (.ofCode (fld n 14 7)) (.ofCode (fld n 7 7)) (.ofNat _ (fld n 0 7)))
  | 0x89 => some (.stB h (.ofCode (fld n 14 7)) (.ofCode (fld n 7 7)) (.ofNat _ (fld n 0 7)))
  | 0x8A => some (.stH h (.ofCode (fld n 14 7)) (.ofCode (fld n 7 7)) (.ofNat _ (fld n 0 7)))
  | 0x8B => some (.stW h (.ofCode (fld n 14 7)) (.ofCode (fld n 7 7)) (.ofNat _ (fld n 0 7)))
  | 0x8C => some (.stD h (.ofCode (fld n 14 7)) (.ofCode (fld n 7 7)) (.ofNat _ (fld n 0 7)))
  | 0x8D => some (.stQ h (.ofCode (fld n 14 7)) (.ofCode (fld n 7 7)) (.ofNat _ (fld n 0 7)))
  | 0x8E => some (.ldxW h (.ofCode (fld n 14 7)) (.ofCode (fld n 7 7)) (.ofCode (fld n 0 7)))
  | 0x8F => some (.stxW h (.ofCode (fld n 14 7)) (.ofCode (fld n 7 7)) (.ofCode (fld n 0 7)))
  | 0x90 => some (.ldsW h (.ofCode (fld n 14 7)) (.ofCode (fld n 7 7)) (.ofNat _ (fld n 0 7)))
  | 0x91 => some (.ldsD h (.ofCode (fld n 14 7)) (.ofCode (fld n 7 7)) (.ofNat _ (fld n 0 7)))
  | 0x92 => some (.ldsQ h (.ofCode (fld n 14 7)) (.ofCode (fld n 7 7)) (.ofNat _ (fld n 0 7)))
  | 0x93 => some (.stsW h (.ofCode (fld n 14 7)) (.ofCode (fld n 7 7)) (.ofNat _ (fld n 0 7)))
  | 0x94 => some (.stsD h (.ofCode (fld n 14 7)) (.ofCode (fld n 7 7)) (.ofNat _ (fld n 0 7)))
  | 0x95 => some (.stsQ h (.ofCode (fld n 14 7)) (.ofCode (fld n 7 7)) (.ofNat _ (fld n 0 7)))
  | 0x96 => some (.ldsH h (.ofCode (fld n 14 7)) (.ofCode (fld n 7 7)) (.ofNat _ (fld n 0 7)))
  | 0x97 => some (.stsH h (.ofCode (fld n 14 7)) (.ofCode (fld n 7 7)) (.ofNat _ (fld n 0 7)))
  | 0x98 => some (.ldsB h (.ofCode (fld n 14 7)) (.ofCode (fld n 7 7)) (.ofNat _ (fld n 0 7)))
  | 0x99 => some (.stsB h (.ofCode (fld n 14 7)) (.ofCode (fld n 7 7)) (.ofNat _ (fld n 0 7)))
  | 0x9A => if fld n 3 4 == 0x0 then some (.ldAcqW h (.ofCode (fld n 14 7)) (.ofCode (fld n 7 7)) (.ofNat _ (fld n 0 3))) else none
  | 0x9B => if fld n 3 4 == 0x0 then some (.ldAcqD h (.ofCode (fld n 14 7)) (.ofCode (fld n 7 7)) (.ofNat _ (fld n 0 3))) else none
  | 0x9C => if fld n 3 4 == 0x0 then some (.stRelW h (.ofCode (fld n 14 7)) (.ofCode (fld n 7 7)) (.ofNat _ (fld n 0 3))) else none
  | 0x9D => if fld n 3 4 == 0x0 then some (.stRelD h (.ofCode (fld n 14 7)) (.ofCode (fld n 7 7)) (.ofNat _ (fld n 0 3))) else none
  | 0x9E => if fld n 14 7 == 0x0 then some (.prf h (.ofCode (fld n 7 7)) (.ofNat _ (fld n 0 7))) else none
  | 0x9F => if fld n 0 7 == 0x0 && fld n 14 7 == 0x0 then some (.cwb h (.ofCode (fld n 7 7))) else if fld n 0 7 == 0x1 && fld n 14 7 == 0x0 then some (.cinv h (.ofCode (fld n 7 7))) else if fld n 0 21 == 0x2 then some (.cwbiAll h) else none
  | 0xA0 => some (.atomAdd h (.ofCode (fld n 14 7)) (.ofCode (fld n 7 7)) (.ofCode (fld n 0 7)))
  | 0xA1 => some (.atomMin h (.ofCode (fld n 14 7)) (.ofCode (fld n 7 7)) (.ofCode (fld n 0 7)))
  | 0xA2 => some (.atomMax h (.ofCode (fld n 14 7)) (.ofCode (fld n 7 7)) (.ofCode (fld n 0 7)))
  | 0xA3 => some (.atomMinu h (.ofCode (fld n 14 7)) (.ofCode (fld n 7 7)) (.ofCode (fld n 0 7)))
  | 0xA4 => some (.atomMaxu h (.ofCode (fld n 14 7)) (.ofCode (fld n 7 7)) (.ofCode (fld n 0 7)))
  | 0xA5 => some (.atomAnd h (.ofCode (fld n 14 7)) (.ofCode (fld n 7 7)) (.ofCode (fld n 0 7)))
  | 0xA6 => some (.atomOr h (.ofCode (fld n 14 7)) (.ofCode (fld n 7 7)) (.ofCode (fld n 0 7)))
  | 0xA7 => some (.atomXor h (.ofCode (fld n 14 7)) (.ofCode (fld n 7 7)) (.ofCode (fld n 0 7)))
  | 0xA8 => some (.atomXchg h (.ofCode (fld n 14 7)) (.ofCode (fld n 7 7)) (.ofCode (fld n 0 7)))
  | 0xA9 => some (.atomCas h (.ofCode (fld n 14 7)) (.ofCode (fld n 7 7)) (.ofCode (fld n 0 7)))
  | 0xAA => some (.atomFadd h (.ofCode (fld n 14 7)) (.ofCode (fld n 7 7)) (.ofCode (fld n 0 7)))
  | 0xAC => some (.atomsAdd h (.ofCode (fld n 14 7)) (.ofCode (fld n 7 7)) (.ofCode (fld n 0 7)))
  | 0xAD => some (.atomsMin h (.ofCode (fld n 14 7)) (.ofCode (fld n 7 7)) (.ofCode (fld n 0 7)))
  | 0xAE => some (.atomsMax h (.ofCode (fld n 14 7)) (.ofCode (fld n 7 7)) (.ofCode (fld n 0 7)))
  | 0xAF => some (.atomsCas h (.ofCode (fld n 14 7)) (.ofCode (fld n 7 7)) (.ofCode (fld n 0 7)))
  | 0xB0 => if fld n 6 15 == 0x0 then some (.fence h (fld n 5 1 == 1) (.ofNat _ (fld n 2 3)) (.ofNat _ (fld n 0 2))) else none
  | 0xB1 => if fld n 14 7 == 0x0 then some (.barinit h (.ofCode (fld n 7 7)) (.ofCode (fld n 0 7))) else none
  | 0xB2 => if fld n 0 7 == 0x0 then some (.bararv h (.ofCode (fld n 14 7)) (.ofCode (fld n 7 7))) else none
  | 0xB3 => if fld n 14 7 == 0x0 then some (.barxb h (.ofCode (fld n 7 7)) (.ofCode (fld n 0 7))) else none
  | 0xB4 => some (.bararvx h (.ofCode (fld n 14 7)) (.ofCode (fld n 7 7)) (.ofCode (fld n 0 7)))
  | 0xB5 => if fld n 14 7 == 0x0 then some (.barwait h (.ofCode (fld n 7 7)) (.ofCode (fld n 0 7))) else none
  | 0xB6 => if fld n 17 4 == 0x0 then some (.bartst h (.ofNat _ (fld n 14 3)) (.ofCode (fld n 7 7)) (.ofCode (fld n 0 7))) else none
  | 0xB7 => if fld n 0 7 == 0x0 && fld n 14 7 == 0x0 then some (.barinv h (.ofCode (fld n 7 7))) else none
  | 0xB8 => if fld n 0 7 == 0x0 then some (.wptr h (.ofCode (fld n 14 7)) (.ofCode (fld n 7 7))) else none
  | 0xB9 => if fld n 0 7 == 0x0 && fld n 14 7 == 0x0 then some (.prio h (.ofCode (fld n 7 7))) else none
  | 0xBA => if fld n 0 21 == 0x0 then some (.yield h) else none
  | 0xC0 => some (.br h (fld n 20 1 == 1) (.ofNat _ (fld n 17 3)) (.ofNat _ (fld n 0 17)))
  | 0xC1 => some (.call h (.ofNat _ (fld n 0 21)))
  | 0xC2 => if fld n 0 21 == 0x3B80 then some (.ret h) else if fld n 0 7 == 0x0 && fld n 14 7 == 0x0 then some (.jmp h (.ofCode (fld n 7 7))) else none
  | 0xC3 => if fld n 0 7 == 0x0 && fld n 14 7 == 0x0 then some (.callr h (.ofCode (fld n 7 7))) else none
  | 0xC4 => if fld n 0 21 == 0x0 then some (.exit h) else none
  | 0xC5 => if fld n 14 7 == 0x0 then some (.trap h (.ofNat _ (fld n 0 14))) else none
  | 0xC6 => if fld n 0 21 == 0x0 then some (.bkpt h) else none
  | 0xC7 => if fld n 0 14 == 0x0 then some (.refill h (.ofCode (fld n 14 7))) else none
  | 0xC8 => if fld n 14 7 == 0x0 then some (.fetchw h (.ofCode (fld n 7 7)) (.ofCode (fld n 0 7))) else none
  | 0xC9 => if fld n 7 7 == 0x0 then some (.id h (.ofCode (fld n 14 7)) (.ofNat _ (fld n 0 7))) else none
  | 0xD0 => if fld n 0 7 == 0x0 && fld n 18 3 == 0x0 then some (.cdecl h (.ofNat _ (fld n 14 4)) (.ofCode (fld n 7 7))) else none
  | 0xD1 => if fld n 0 14 == 0x0 && fld n 18 3 == 0x0 then some (.crst h (.ofNat _ (fld n 14 4))) else none
  | 0xD2 => some (.shfl h (.ofCode (fld n 14 7)) (.ofCode (fld n 7 7)) (.ofCode (fld n 0 7)))
  | 0xD3 => some (.vote h (.ofCode (fld n 14 7)) (.ofCode (fld n 7 7)) (.ofCode (fld n 0 7)))
  | 0xD4 => some (.rdx h (.ofCode (fld n 14 7)) (.ofCode (fld n 7 7)) (.ofCode (fld n 0 7)))
  | 0xE2 => if fld n 0 14 == 0x0 then some (.mzero h (.ofNat _ (fld n 14 7))) else none
  | 0xE3 => if fld n 0 7 == 0x0 then some (.mload h (.ofNat _ (fld n 14 7)) (.ofCode (fld n 7 7))) else none
  | 0xE5 => if fld n 0 14 == 0x0 && fld n 18 3 == 0x0 then some (.mfence h (.ofNat _ (fld n 14 4))) else none
  | 0xE6 => if fld n 0 14 == 0x0 then some (.mwait h (.ofNat _ (fld n 14 7))) else none
  | 0xE7 => if fld n 0 1 == 0x0 && fld n 6 1 == 0x0 && fld n 14 7 == 0x0 then some (.cpyGs h (.ofCode (fld n 7 7)) (fld n 5 1 == 1) (.ofNat _ (fld n 1 4))) else if fld n 0 1 == 0x1 && fld n 6 1 == 0x0 && fld n 14 7 == 0x0 then some (.cpySg h (.ofCode (fld n 7 7)) (fld n 5 1 == 1) (.ofNat _ (fld n 1 4))) else none
  | 0xF0 => some (.sysrd h (.ofCode (fld n 14 7)) (.ofNat _ (fld n 0 14)))
  | 0xF1 => some (.syswr h (.ofCode (fld n 14 7)) (.ofNat _ (fld n 0 14)))
  | 0xF2 => if fld n 1 13 == 0x0 then some (.tsrd h (.ofCode (fld n 14 7)) (fld n 0 1 == 1)) else none
  | 0xF3 => if fld n 14 7 == 0x0 then some (.ecall h (.ofNat _ (fld n 0 14))) else none
  | 0xF4 => if fld n 0 21 == 0x0 then some (.eret h) else none
  | 0xF5 => if fld n 0 7 == 0x0 then some (.ecreate h (.ofCode (fld n 14 7)) (.ofCode (fld n 7 7))) else none
  | 0xF6 => if fld n 14 7 == 0x0 then some (.eenter h (.ofCode (fld n 7 7)) (.ofCode (fld n 0 7))) else none
  | 0xF7 => if fld n 0 21 == 0x0 then some (.eexit h) else none
  | 0xF8 => if fld n 0 7 == 0x0 then some (.ereport h (.ofCode (fld n 14 7)) (.ofCode (fld n 7 7))) else none
  | 0xF9 => if fld n 0 7 == 0x0 then some (.kwrap h (.ofCode (fld n 14 7)) (.ofCode (fld n 7 7))) else if fld n 0 7 == 0x1 then some (.kunwrap h (.ofCode (fld n 14 7)) (.ofCode (fld n 7 7))) else if fld n 0 7 == 0x2 then some (.krevoke h (.ofCode (fld n 14 7)) (.ofCode (fld n 7 7))) else if fld n 0 7 == 0x3 then some (.kload h (.ofCode (fld n 14 7)) (.ofCode (fld n 7 7))) else none
  | 0xFA => if fld n 0 7 == 0x0 then some (.potset h (.ofCode (fld n 14 7)) (.ofCode (fld n 7 7))) else if fld n 0 7 == 0x1 then some (.potrd h (.ofCode (fld n 14 7)) (.ofCode (fld n 7 7))) else if fld n 0 7 == 0x2 then some (.pmap h (.ofCode (fld n 14 7)) (.ofCode (fld n 7 7))) else if fld n 0 7 == 0x3 then some (.paccept h (.ofCode (fld n 14 7)) (.ofCode (fld n 7 7))) else if fld n 0 7 == 0x4 then some (.pdiscard h (.ofCode (fld n 14 7)) (.ofCode (fld n 7 7))) else if fld n 0 7 == 0x5 then some (.pevict h (.ofCode (fld n 14 7)) (.ofCode (fld n 7 7))) else if fld n 0 7 == 0x6 then some (.pload h (.ofCode (fld n 14 7)) (.ofCode (fld n 7 7))) else if fld n 0 7 == 0x7 then some (.punmap h (.ofCode (fld n 14 7)) (.ofCode (fld n 7 7))) else none
  | 0xFB => if fld n 14 7 == 0x0 then some (.tlbi h (.ofCode (fld n 7 7)) (.ofCode (fld n 0 7))) else none
  | 0xFC => if fld n 0 7 == 0x0 && fld n 14 7 == 0x0 then some (.edestroy h (.ofCode (fld n 7 7))) else none
  | _ => none

/-- Whether a word takes a literal: one of its format's operand positions holds 0x7D (R58). -/
def takesLit (n : Nat) : Bool :=
  match formatOf (fld n 21 8) with
  | some .rrr => fld n 14 7 == 0x7D || fld n 7 7 == 0x7D || fld n 0 7 == 0x7D
  | some .ri | some .x => fld n 14 7 == 0x7D || fld n 7 7 == 0x7D
  | some .i14 => fld n 14 7 == 0x7D
  | _ => false

/-- Whether a word takes an extension word (R58, R64). -/
def takesExt (n : Nat) : Bool := formatOf (fld n 21 8) == some .ext

/-- How many words of its packet an instruction takes (R58). -/
def Instr.length (i : Instr) : Nat := if takesExt i.wordNat || takesLit i.wordNat then 2 else 1

/-- The instruction word. -/
def Instr.word (i : Instr) : Word := .ofNat 32 i.wordNat

/-- The words of an instruction: its word, then its extension word or its literal, if it takes one. -/
def encode (i : Instr) : List Word :=
  match i.extNat, i.hdr? with
  | some x, _ => [i.word, .ofNat 32 x]
  | none, some h => if takesLit i.wordNat then [i.word, h.lit] else [i.word]
  | none, none => []

/-- Why words are no instruction. Each makes the word trap with ILLEGAL, except `truncated`, which a fetch of a whole
packet never meets. -/
inductive Reject where
  | unassigned | slot2 | reserved | truncated
  deriving DecidableEq, Repr

/-- A form with an extension word (Tables 8.1, 8.3, 8.8, 8.9); none for a nonzero reserved bit of the extension word. -/
def decodeExt (n x : Nat) (h : Hdr) : Option Instr :=
  let t : BitVec 7 := .ofNat _ (fld n 14 7)
  let d := Opnd.ofCode (fld n 14 7)
  let a := Opnd.ofCode (fld n 7 7)
  let b := Opnd.ofCode (fld n 0 7)
  let mma : MmaCtl := ⟨fld x 27 1 == 1, fld x 26 1 == 1, .ofCode (fld x 19 7), .ofCode (fld x 12 7), .ofNat _ (fld x 8 4),
    .ofNat _ (fld x 4 4), .ofNat _ (fld x 0 4)⟩
  match fld n 21 8 with
  | 0xE0 => if fld x 28 4 == 0 then some (.mma h t a b mma) else none
  | 0xE1 => if fld x 28 4 == 0 then some (.mmaj h t a b mma) else none
  | 0xE4 => if fld x 25 7 == 0 then some (.mdrain h t a b ⟨fld x 24 1 == 1, .ofNat _ (fld x 15 9), .ofNat _ (fld x 7 8),
      fld x 6 1 == 1, fld x 5 1 == 1, fld x 4 1 == 1, .ofNat _ (fld x 0 4)⟩) else none
  | 0xE8 => if fld x 15 17 == 0 then some (.cpyl h d a b ⟨.ofNat _ (fld x 7 8), fld x 6 1 == 1, .ofNat _ (fld x 2 4),
      .ofNat _ (fld x 0 2)⟩) else none
  | 0xE9 => if fld x 31 1 == 0 then some (.cpyg h d a b ⟨.ofNat _ (fld x 23 8), .ofNat _ (fld x 13 10), .ofNat _ (fld x 5 8),
      fld x 4 1 == 1, .ofNat _ (fld x 0 4)⟩) else none
  | _ => none

/-- The instruction that stands in slot `slot` of its packet with these words from there on, and how many of them it
takes (R58, R63, R64). -/
def decode (slot : Nat) : List Word → Except Reject (Instr × Nat)
  | [] => .error .truncated
  | w :: rest =>
    let n := w.toNat
    let h (x : Word) : Hdr := ⟨fld n 31 1 == 1, .ofNat _ (fld n 29 2), x⟩
    if formatOf (fld n 21 8) == none then .error .unassigned
    else if takesExt n then
      if slot == 2 then .error .slot2
      else match rest with
        | [] => .error .truncated
        | x :: _ => match decodeExt n x.toNat (h 0) with
          | some i => .ok (i, 2)
          | none => .error .reserved
    else if takesLit n then
      if slot == 2 then .error .slot2
      else match rest with
        | [] => .error .truncated
        | x :: _ => match decodeWord n (h x) with
          | some i => .ok (i, 2)
          | none => .error .reserved
    else match decodeWord n (h 0) with
      | some i => .ok (i, 1)
      | none => .error .reserved

/-- How many words the word at a slot takes of its packet, whatever its fate (R58). -/
def spanOf (slot : Nat) (w : Word) : Nat := if slot != 2 && (takesExt w.toNat || takesLit w.toNat) then 2 else 1

/-- The instruction that the decoder reads from a table row's bits: the first word in bits [31:0], the next in [63:32]
(zero above `nbits`), standing in slot 0. -/
def decodeTableWord (nbits w : Nat) : Option Instr :=
  let v := w % 2 ^ nbits
  match decode 0 [.ofNat 32 v, .ofNat 32 (v / 2 ^ 32)] with
  | .ok (i, _) => some i
  | .error _ => none

/-- How an instruction uses an operand field (Table 3.7 and the instruction chapters). The forms ending in X refuse the
literal because their instruction has an extension word (R63). -/
inductive Role where
  | dst | dst2 | dst4 | src | src2 | src4 | rmw | rmw2 | srcX | src2X
  /-- The 24 registers of a CPY record (R187). -/
  | recd
  /-- The 16 registers of a fragment (R173, R174). -/
  | frag
  /-- A scale register of MMA, of MMAJ, and the B address of MMAJ (R173). -/
  | scale | scaleJ | region
  /-- A copy side or drain destination: a pair when it is global (R183, R191). -/
  | side (glb : Bool)
  | drainDst (glb : Bool)
  deriving DecidableEq, Repr

structure Use where
  role : Role
  opnd : Opnd
  deriving DecidableEq, Repr

/-- The pipes of Table 1.3 on a SIMT core. -/
inductive Pipe where
  | alu | sfu | mem | ctl | mx
  deriving DecidableEq, Repr

/-- The latency classes of R73. -/
inductive Lat where
  | none | c2 | c4 | inter
  deriving DecidableEq, Repr

/-- The levels of R198 in the order of privilege, for Table 3.7. -/
inductive Least where
  | h | s | u | e
  deriving DecidableEq, Repr

/-- The Host column of Table 3.7: ILLEGAL, the least privileged level, or level E inside an enclave. -/
inductive HostAvail where
  | illegal | enclave
  | upTo (l : Least)
  deriving DecidableEq, Repr

/-- The SIMT column of Table 3.7. -/
inductive SimtAvail where
  | runs | priv
  deriving DecidableEq, Repr

/-- What the tables give an instruction word: operand uses, predicates read and written, pipe, latency class,
availability on a host core and in a SIMT thread, energy class (Table 20.3), and whether its field values are legal. -/
structure Info where
  uses    : List Use
  preads  : List Nat
  pwrites : List Nat
  pipe    : Pipe
  lat     : Lat
  host    : HostAvail
  simt    : SimtAvail
  eclass  : Nat
  ok      : Bool
  deriving DecidableEq, Repr

/-- A scope code of Table 3.10: 1-5 (R83, R134). -/
def scopeOk (e : BitVec 3) : Bool := 1 ≤ e.toNat && e.toNat ≤ 5

/-- The format pairs of R172. -/
def pairFmt (fa fb : BitVec 4) : Bool :=
  match fa.toNat, fb.toNat with
  | 4, 4 | 4, 5 | 5, 4 | 5, 5 | 7, 7 | 7, 8 | 8, 7 | 8, 8 | 6, 6 | 9, 9 | 3, 3 | 2, 2 => true
  | _, _ => false

/-- The drain formats of Table 8.4, and those that an add-on-store takes (R185). -/
def drainFmt (x : DrainCtl) : Bool :=
  match x.fmt.toNat with
  | 1 | 10 => true
  | 2 | 3 | 4 | 5 | 7 => !x.add
  | _ => false

/-- Table 3.7, Table 1.3 and Table 20.3 for each instruction word; a step of an agent has none of it. -/
def Instr.info : Instr → Info
  | .nop _ => ⟨[], [], [], .alu, .none, (.upTo .e), .runs, 0, true⟩
  | .add _ d a b => ⟨[⟨.dst, d⟩, ⟨.src, a⟩, ⟨.src, b⟩], [], [], .alu, .c2, (.upTo .e), .runs, 0, true⟩
  | .sub _ d a b => ⟨[⟨.dst, d⟩, ⟨.src, a⟩, ⟨.src, b⟩], [], [], .alu, .c2, (.upTo .e), .runs, 0, true⟩
  | .mul _ d a b => ⟨[⟨.dst, d⟩, ⟨.src, a⟩, ⟨.src, b⟩], [], [], .alu, .c2, (.upTo .e), .runs, 0, true⟩
  | .mulhi _ d a b => ⟨[⟨.dst, d⟩, ⟨.src, a⟩, ⟨.src, b⟩], [], [], .alu, .c2, (.upTo .e), .runs, 0, true⟩
  | .mulhu _ d a b => ⟨[⟨.dst, d⟩, ⟨.src, a⟩, ⟨.src, b⟩], [], [], .alu, .c2, (.upTo .e), .runs, 0, true⟩
  | .mad _ d a b => ⟨[⟨.rmw, d⟩, ⟨.src, a⟩, ⟨.src, b⟩], [], [], .alu, .c2, (.upTo .e), .runs, 0, true⟩
  | .and _ d a b => ⟨[⟨.dst, d⟩, ⟨.src, a⟩, ⟨.src, b⟩], [], [], .alu, .c2, (.upTo .e), .runs, 0, true⟩
  | .or _ d a b => ⟨[⟨.dst, d⟩, ⟨.src, a⟩, ⟨.src, b⟩], [], [], .alu, .c2, (.upTo .e), .runs, 0, true⟩
  | .xor _ d a b => ⟨[⟨.dst, d⟩, ⟨.src, a⟩, ⟨.src, b⟩], [], [], .alu, .c2, (.upTo .e), .runs, 0, true⟩
  | .andn _ d a b => ⟨[⟨.dst, d⟩, ⟨.src, a⟩, ⟨.src, b⟩], [], [], .alu, .c2, (.upTo .e), .runs, 0, true⟩
  | .shl _ d a b => ⟨[⟨.dst, d⟩, ⟨.src, a⟩, ⟨.src, b⟩], [], [], .alu, .c2, (.upTo .e), .runs, 0, true⟩
  | .shr _ d a b => ⟨[⟨.dst, d⟩, ⟨.src, a⟩, ⟨.src, b⟩], [], [], .alu, .c2, (.upTo .e), .runs, 0, true⟩
  | .sra _ d a b => ⟨[⟨.dst, d⟩, ⟨.src, a⟩, ⟨.src, b⟩], [], [], .alu, .c2, (.upTo .e), .runs, 0, true⟩
  | .min _ d a b => ⟨[⟨.dst, d⟩, ⟨.src, a⟩, ⟨.src, b⟩], [], [], .alu, .c2, (.upTo .e), .runs, 0, true⟩
  | .max _ d a b => ⟨[⟨.dst, d⟩, ⟨.src, a⟩, ⟨.src, b⟩], [], [], .alu, .c2, (.upTo .e), .runs, 0, true⟩
  | .minu _ d a b => ⟨[⟨.dst, d⟩, ⟨.src, a⟩, ⟨.src, b⟩], [], [], .alu, .c2, (.upTo .e), .runs, 0, true⟩
  | .maxu _ d a b => ⟨[⟨.dst, d⟩, ⟨.src, a⟩, ⟨.src, b⟩], [], [], .alu, .c2, (.upTo .e), .runs, 0, true⟩
  | .adds _ d a b => ⟨[⟨.dst, d⟩, ⟨.src, a⟩, ⟨.src, b⟩], [], [], .alu, .c2, (.upTo .e), .runs, 0, true⟩
  | .subs _ d a b => ⟨[⟨.dst, d⟩, ⟨.src, a⟩, ⟨.src, b⟩], [], [], .alu, .c2, (.upTo .e), .runs, 0, true⟩
  | .lea _ _ d a b => ⟨[⟨.dst, d⟩, ⟨.src, a⟩, ⟨.src, b⟩], [], [], .alu, .c2, (.upTo .e), .runs, 0, true⟩
  | .add64 _ d a b => ⟨[⟨.dst2, d⟩, ⟨.src2, a⟩, ⟨.src2, b⟩], [], [], .alu, .c2, (.upTo .e), .runs, 0, true⟩
  | .sub64 _ d a b => ⟨[⟨.dst2, d⟩, ⟨.src2, a⟩, ⟨.src2, b⟩], [], [], .alu, .c2, (.upTo .e), .runs, 0, true⟩
  | .mulw _ d a b => ⟨[⟨.dst2, d⟩, ⟨.src, a⟩, ⟨.src, b⟩], [], [], .alu, .c2, (.upTo .e), .runs, 0, true⟩
  | .mulws _ d a b => ⟨[⟨.dst2, d⟩, ⟨.src, a⟩, ⟨.src, b⟩], [], [], .alu, .c2, (.upTo .e), .runs, 0, true⟩
  | .bfe _ d a b => ⟨[⟨.dst, d⟩, ⟨.src, a⟩, ⟨.src, b⟩], [], [], .alu, .c2, (.upTo .e), .runs, 0, true⟩
  | .bfi _ d a b => ⟨[⟨.rmw, d⟩, ⟨.src, a⟩, ⟨.src, b⟩], [], [], .alu, .c2, (.upTo .e), .runs, 0, true⟩
  | .prmb _ d a b => ⟨[⟨.dst, d⟩, ⟨.src, a⟩, ⟨.src, b⟩], [], [], .alu, .c2, (.upTo .e), .runs, 0, true⟩
  | .addi _ d a _ => ⟨[⟨.dst, d⟩, ⟨.src, a⟩], [], [], .alu, .c2, (.upTo .e), .runs, 0, true⟩
  | .andi _ d a _ => ⟨[⟨.dst, d⟩, ⟨.src, a⟩], [], [], .alu, .c2, (.upTo .e), .runs, 0, true⟩
  | .ori _ d a _ => ⟨[⟨.dst, d⟩, ⟨.src, a⟩], [], [], .alu, .c2, (.upTo .e), .runs, 0, true⟩
  | .xori _ d a _ => ⟨[⟨.dst, d⟩, ⟨.src, a⟩], [], [], .alu, .c2, (.upTo .e), .runs, 0, true⟩
  | .shli _ d a _ => ⟨[⟨.dst, d⟩, ⟨.src, a⟩], [], [], .alu, .c2, (.upTo .e), .runs, 0, true⟩
  | .shri _ d a _ => ⟨[⟨.dst, d⟩, ⟨.src, a⟩], [], [], .alu, .c2, (.upTo .e), .runs, 0, true⟩
  | .srai _ d a _ => ⟨[⟨.dst, d⟩, ⟨.src, a⟩], [], [], .alu, .c2, (.upTo .e), .runs, 0, true⟩
  | .muli _ d a _ => ⟨[⟨.dst, d⟩, ⟨.src, a⟩], [], [], .alu, .c2, (.upTo .e), .runs, 0, true⟩
  | .movi _ d _ => ⟨[⟨.dst, d⟩], [], [], .alu, .c2, (.upTo .e), .runs, 0, true⟩
  | .mov _ d a => ⟨[⟨.dst, d⟩, ⟨.src, a⟩], [], [], .alu, .c2, (.upTo .e), .runs, 0, true⟩
  | .clz _ d a => ⟨[⟨.dst, d⟩, ⟨.src, a⟩], [], [], .alu, .c2, (.upTo .e), .runs, 0, true⟩
  | .popc _ d a => ⟨[⟨.dst, d⟩, ⟨.src, a⟩], [], [], .alu, .c2, (.upTo .e), .runs, 0, true⟩
  | .brev _ d a => ⟨[⟨.dst, d⟩, ⟨.src, a⟩], [], [], .alu, .c2, (.upTo .e), .runs, 0, true⟩
  | .abs _ d a => ⟨[⟨.dst, d⟩, ⟨.src, a⟩], [], [], .alu, .c2, (.upTo .e), .runs, 0, true⟩
  | .neg _ d a => ⟨[⟨.dst, d⟩, ⟨.src, a⟩], [], [], .alu, .c2, (.upTo .e), .runs, 0, true⟩
  | .not _ d a => ⟨[⟨.dst, d⟩, ⟨.src, a⟩], [], [], .alu, .c2, (.upTo .e), .runs, 0, true⟩
  | .sext8 _ d a => ⟨[⟨.dst, d⟩, ⟨.src, a⟩], [], [], .alu, .c2, (.upTo .e), .runs, 0, true⟩
  | .sext16 _ d a => ⟨[⟨.dst, d⟩, ⟨.src, a⟩], [], [], .alu, .c2, (.upTo .e), .runs, 0, true⟩
  | .zext8 _ d a => ⟨[⟨.dst, d⟩, ⟨.src, a⟩], [], [], .alu, .c2, (.upTo .e), .runs, 0, true⟩
  | .zext16 _ d a => ⟨[⟨.dst, d⟩, ⟨.src, a⟩], [], [], .alu, .c2, (.upTo .e), .runs, 0, true⟩
  | .ctz _ d a => ⟨[⟨.dst, d⟩, ⟨.src, a⟩], [], [], .alu, .c2, (.upTo .e), .runs, 0, true⟩
  | .cmp _ k p a b => ⟨[⟨.src, a⟩, ⟨.src, b⟩], [], [p.toNat], .alu, .c2, (.upTo .e), .runs, 0, k.toNat < 10⟩
  | .cmpi _ k p a _ => ⟨[⟨.src, a⟩], [], [p.toNat], .alu, .c2, (.upTo .e), .runs, 0, k.toNat < 10⟩
  | .pand _ p q r => ⟨[], [q.toNat, r.toNat], [p.toNat], .alu, .c2, (.upTo .e), .runs, 0, true⟩
  | .por _ p q r => ⟨[], [q.toNat, r.toNat], [p.toNat], .alu, .c2, (.upTo .e), .runs, 0, true⟩
  | .pxor _ p q r => ⟨[], [q.toNat, r.toNat], [p.toNat], .alu, .c2, (.upTo .e), .runs, 0, true⟩
  | .pandn _ p q r => ⟨[], [q.toNat, r.toNat], [p.toNat], .alu, .c2, (.upTo .e), .runs, 0, true⟩
  | .pnot _ p q => ⟨[], [q.toNat], [p.toNat], .alu, .c2, (.upTo .e), .runs, 0, true⟩
  | .pget _ d => ⟨[⟨.dst, d⟩], [1, 2, 3, 4, 5, 6, 7], [], .alu, .c2, (.upTo .e), .runs, 0, true⟩
  | .pput _ a => ⟨[⟨.src, a⟩], [], [1, 2, 3, 4, 5, 6, 7], .alu, .c2, (.upTo .e), .runs, 0, true⟩
  | .sel _ n d a b => ⟨[⟨.dst, d⟩, ⟨.src, a⟩, ⟨.src, b⟩], [n.toNat], [], .alu, .c2, (.upTo .e), .runs, 0, true⟩
  | .fadd _ d a b => ⟨[⟨.dst, d⟩, ⟨.src, a⟩, ⟨.src, b⟩], [], [], .alu, .c4, (.upTo .e), .runs, 1, true⟩
  | .fsub _ d a b => ⟨[⟨.dst, d⟩, ⟨.src, a⟩, ⟨.src, b⟩], [], [], .alu, .c4, (.upTo .e), .runs, 1, true⟩
  | .fmul _ d a b => ⟨[⟨.dst, d⟩, ⟨.src, a⟩, ⟨.src, b⟩], [], [], .alu, .c4, (.upTo .e), .runs, 1, true⟩
  | .ffma _ d a b => ⟨[⟨.rmw, d⟩, ⟨.src, a⟩, ⟨.src, b⟩], [], [], .alu, .c4, (.upTo .e), .runs, 1, true⟩
  | .ffnma _ d a b => ⟨[⟨.rmw, d⟩, ⟨.src, a⟩, ⟨.src, b⟩], [], [], .alu, .c4, (.upTo .e), .runs, 1, true⟩
  | .fmin _ d a b => ⟨[⟨.dst, d⟩, ⟨.src, a⟩, ⟨.src, b⟩], [], [], .alu, .c4, (.upTo .e), .runs, 1, true⟩
  | .fmax _ d a b => ⟨[⟨.dst, d⟩, ⟨.src, a⟩, ⟨.src, b⟩], [], [], .alu, .c4, (.upTo .e), .runs, 1, true⟩
  | .fcmp _ k p a b => ⟨[⟨.src, a⟩, ⟨.src, b⟩], [], [p.toNat], .alu, .c4, (.upTo .e), .runs, 1, k.toNat < 12⟩
  | .hadd2 _ d a b => ⟨[⟨.dst, d⟩, ⟨.src, a⟩, ⟨.src, b⟩], [], [], .alu, .c4, (.upTo .e), .runs, 1, true⟩
  | .hmul2 _ d a b => ⟨[⟨.dst, d⟩, ⟨.src, a⟩, ⟨.src, b⟩], [], [], .alu, .c4, (.upTo .e), .runs, 1, true⟩
  | .hfma2 _ d a b => ⟨[⟨.rmw, d⟩, ⟨.src, a⟩, ⟨.src, b⟩], [], [], .alu, .c4, (.upTo .e), .runs, 1, true⟩
  | .badd2 _ d a b => ⟨[⟨.dst, d⟩, ⟨.src, a⟩, ⟨.src, b⟩], [], [], .alu, .c4, (.upTo .e), .runs, 1, true⟩
  | .bmul2 _ d a b => ⟨[⟨.dst, d⟩, ⟨.src, a⟩, ⟨.src, b⟩], [], [], .alu, .c4, (.upTo .e), .runs, 1, true⟩
  | .bfma2 _ d a b => ⟨[⟨.rmw, d⟩, ⟨.src, a⟩, ⟨.src, b⟩], [], [], .alu, .c4, (.upTo .e), .runs, 1, true⟩
  | .dadd _ d a b => ⟨[⟨.dst2, d⟩, ⟨.src2, a⟩, ⟨.src2, b⟩], [], [], .sfu, .inter, (.upTo .e), .runs, 2, true⟩
  | .dmul _ d a b => ⟨[⟨.dst2, d⟩, ⟨.src2, a⟩, ⟨.src2, b⟩], [], [], .sfu, .inter, (.upTo .e), .runs, 2, true⟩
  | .dfma _ d a b => ⟨[⟨.rmw2, d⟩, ⟨.src2, a⟩, ⟨.src2, b⟩], [], [], .sfu, .inter, (.upTo .e), .runs, 2, true⟩
  | .dcmp _ k p a b => ⟨[⟨.src2, a⟩, ⟨.src2, b⟩], [], [p.toNat], .sfu, .inter, (.upTo .e), .runs, 2, k.toNat < 12⟩
  | .frcp _ d a => ⟨[⟨.dst, d⟩, ⟨.src, a⟩], [], [], .sfu, .inter, (.upTo .e), .runs, 2, true⟩
  | .frsq _ d a => ⟨[⟨.dst, d⟩, ⟨.src, a⟩], [], [], .sfu, .inter, (.upTo .e), .runs, 2, true⟩
  | .fsqrt _ d a => ⟨[⟨.dst, d⟩, ⟨.src, a⟩], [], [], .sfu, .inter, (.upTo .e), .runs, 2, true⟩
  | .fex2 _ d a => ⟨[⟨.dst, d⟩, ⟨.src, a⟩], [], [], .sfu, .inter, (.upTo .e), .runs, 2, true⟩
  | .flg2 _ d a => ⟨[⟨.dst, d⟩, ⟨.src, a⟩], [], [], .sfu, .inter, (.upTo .e), .runs, 2, true⟩
  | .fsinp _ d a => ⟨[⟨.dst, d⟩, ⟨.src, a⟩], [], [], .sfu, .inter, (.upTo .e), .runs, 2, true⟩
  | .fcosp _ d a => ⟨[⟨.dst, d⟩, ⟨.src, a⟩], [], [], .sfu, .inter, (.upTo .e), .runs, 2, true⟩
  | .ftanh _ d a => ⟨[⟨.dst, d⟩, ⟨.src, a⟩], [], [], .sfu, .inter, (.upTo .e), .runs, 2, true⟩
  | .fsigm _ d a => ⟨[⟨.dst, d⟩, ⟨.src, a⟩], [], [], .sfu, .inter, (.upTo .e), .runs, 2, true⟩
  | .fabs _ d a => ⟨[⟨.dst, d⟩, ⟨.src, a⟩], [], [], .alu, .c4, (.upTo .e), .runs, 1, true⟩
  | .fneg _ d a => ⟨[⟨.dst, d⟩, ⟨.src, a⟩], [], [], .alu, .c4, (.upTo .e), .runs, 1, true⟩
  | .ffloor _ d a => ⟨[⟨.dst, d⟩, ⟨.src, a⟩], [], [], .alu, .c4, (.upTo .e), .runs, 1, true⟩
  | .fceil _ d a => ⟨[⟨.dst, d⟩, ⟨.src, a⟩], [], [], .alu, .c4, (.upTo .e), .runs, 1, true⟩
  | .ftrunc _ d a => ⟨[⟨.dst, d⟩, ⟨.src, a⟩], [], [], .alu, .c4, (.upTo .e), .runs, 1, true⟩
  | .frint _ d a => ⟨[⟨.dst, d⟩, ⟨.src, a⟩], [], [], .alu, .c4, (.upTo .e), .runs, 1, true⟩
  | .fclass _ d a => ⟨[⟨.dst, d⟩, ⟨.src, a⟩], [], [], .alu, .c4, (.upTo .e), .runs, 1, true⟩
  | .fcvtF16F32 _ d a => ⟨[⟨.dst, d⟩, ⟨.src, a⟩], [], [], .alu, .c4, (.upTo .e), .runs, 3, true⟩
  | .fcvtBf16F32 _ d a => ⟨[⟨.dst, d⟩, ⟨.src, a⟩], [], [], .alu, .c4, (.upTo .e), .runs, 3, true⟩
  | .fcvtF32F16 _ d a => ⟨[⟨.dst, d⟩, ⟨.src, a⟩], [], [], .alu, .c4, (.upTo .e), .runs, 3, true⟩
  | .fcvtF32Bf16 _ d a => ⟨[⟨.dst, d⟩, ⟨.src, a⟩], [], [], .alu, .c4, (.upTo .e), .runs, 3, true⟩
  | .fcvtF64F32 _ d a => ⟨[⟨.dst2, d⟩, ⟨.src, a⟩], [], [], .alu, .c4, (.upTo .e), .runs, 3, true⟩
  | .fcvtF32F64 _ d a => ⟨[⟨.dst, d⟩, ⟨.src2, a⟩], [], [], .alu, .c4, (.upTo .e), .runs, 3, true⟩
  | .fcvtF32S32 _ d a => ⟨[⟨.dst, d⟩, ⟨.src, a⟩], [], [], .alu, .c4, (.upTo .e), .runs, 3, true⟩
  | .fcvtF32N32 _ d a => ⟨[⟨.dst, d⟩, ⟨.src, a⟩], [], [], .alu, .c4, (.upTo .e), .runs, 3, true⟩
  | .fcvtF64S32 _ d a => ⟨[⟨.dst2, d⟩, ⟨.src, a⟩], [], [], .alu, .c4, (.upTo .e), .runs, 3, true⟩
  | .fcvtF64N32 _ d a => ⟨[⟨.dst2, d⟩, ⟨.src, a⟩], [], [], .alu, .c4, (.upTo .e), .runs, 3, true⟩
  | .fcvtS32F32Fixed _ d a _ => ⟨[⟨.dst, d⟩, ⟨.src, a⟩], [], [], .alu, .c4, (.upTo .e), .runs, 3, true⟩
  | .fcvtS32F32 _ d a => ⟨[⟨.dst, d⟩, ⟨.src, a⟩], [], [], .alu, .c4, (.upTo .e), .runs, 3, true⟩
  | .fcvtN32F32Fixed _ d a _ => ⟨[⟨.dst, d⟩, ⟨.src, a⟩], [], [], .alu, .c4, (.upTo .e), .runs, 3, true⟩
  | .fcvtN32F32 _ d a => ⟨[⟨.dst, d⟩, ⟨.src, a⟩], [], [], .alu, .c4, (.upTo .e), .runs, 3, true⟩
  | .fcvtS32F64Fixed _ d a _ => ⟨[⟨.dst, d⟩, ⟨.src2, a⟩], [], [], .alu, .c4, (.upTo .e), .runs, 3, true⟩
  | .fcvtS32F64 _ d a => ⟨[⟨.dst, d⟩, ⟨.src2, a⟩], [], [], .alu, .c4, (.upTo .e), .runs, 3, true⟩
  | .fcvtN32F64Fixed _ d a _ => ⟨[⟨.dst, d⟩, ⟨.src2, a⟩], [], [], .alu, .c4, (.upTo .e), .runs, 3, true⟩
  | .fcvtN32F64 _ d a => ⟨[⟨.dst, d⟩, ⟨.src2, a⟩], [], [], .alu, .c4, (.upTo .e), .runs, 3, true⟩
  | .pkF16 _ d a b => ⟨[⟨.dst, d⟩, ⟨.src, a⟩, ⟨.src, b⟩], [], [], .alu, .c4, (.upTo .e), .runs, 3, true⟩
  | .pkB16 _ d a b => ⟨[⟨.dst, d⟩, ⟨.src, a⟩, ⟨.src, b⟩], [], [], .alu, .c4, (.upTo .e), .runs, 3, true⟩
  | .pkn _ d a b => ⟨[⟨.rmw, d⟩, ⟨.src, a⟩, ⟨.src, b⟩], [], [], .alu, .c4, (.upTo .e), .runs, 3, true⟩
  | .upkn _ d a b => ⟨[⟨.dst, d⟩, ⟨.src, a⟩, ⟨.src, b⟩], [], [], .alu, .c4, (.upTo .e), .runs, 3, true⟩
  | .dot4E43 _ d a b => ⟨[⟨.rmw, d⟩, ⟨.src, a⟩, ⟨.src, b⟩], [], [], .alu, .c4, (.upTo .e), .runs, 3, true⟩
  | .dot4E52 _ d a b => ⟨[⟨.rmw, d⟩, ⟨.src, a⟩, ⟨.src, b⟩], [], [], .alu, .c4, (.upTo .e), .runs, 3, true⟩
  | .dot4S8 _ d a b => ⟨[⟨.rmw, d⟩, ⟨.src, a⟩, ⟨.src, b⟩], [], [], .alu, .c4, (.upTo .e), .runs, 3, true⟩
  | .dot4N8 _ d a b => ⟨[⟨.rmw, d⟩, ⟨.src, a⟩, ⟨.src, b⟩], [], [], .alu, .c4, (.upTo .e), .runs, 3, true⟩
  | .dot8E21 _ d a b => ⟨[⟨.rmw, d⟩, ⟨.src, a⟩, ⟨.src, b⟩], [], [], .alu, .c4, (.upTo .e), .runs, 3, true⟩
  | .dot8S4 _ d a b => ⟨[⟨.rmw, d⟩, ⟨.src, a⟩, ⟨.src, b⟩], [], [], .alu, .c4, (.upTo .e), .runs, 3, true⟩
  | .dot2B16 _ d a b => ⟨[⟨.rmw, d⟩, ⟨.src, a⟩, ⟨.src, b⟩], [], [], .alu, .c4, (.upTo .e), .runs, 3, true⟩
  | .dot2F16 _ d a b => ⟨[⟨.rmw, d⟩, ⟨.src, a⟩, ⟨.src, b⟩], [], [], .alu, .c4, (.upTo .e), .runs, 3, true⟩
  | .fscl _ d a b => ⟨[⟨.dst, d⟩, ⟨.src, a⟩, ⟨.src, b⟩], [], [], .alu, .c4, (.upTo .e), .runs, 3, true⟩
  | .ldB _ d a _ => ⟨[⟨.dst, d⟩, ⟨.src2, a⟩], [], [], .mem, .inter, (.upTo .e), .runs, 4, true⟩
  | .ldBs _ d a _ => ⟨[⟨.dst, d⟩, ⟨.src2, a⟩], [], [], .mem, .inter, (.upTo .e), .runs, 4, true⟩
  | .ldH _ d a _ => ⟨[⟨.dst, d⟩, ⟨.src2, a⟩], [], [], .mem, .inter, (.upTo .e), .runs, 4, true⟩
  | .ldHs _ d a _ => ⟨[⟨.dst, d⟩, ⟨.src2, a⟩], [], [], .mem, .inter, (.upTo .e), .runs, 4, true⟩
  | .ldW _ d a _ => ⟨[⟨.dst, d⟩, ⟨.src2, a⟩], [], [], .mem, .inter, (.upTo .e), .runs, 4, true⟩
  | .ldD _ d a _ => ⟨[⟨.dst2, d⟩, ⟨.src2, a⟩], [], [], .mem, .inter, (.upTo .e), .runs, 4, true⟩
  | .ldQ _ d a _ => ⟨[⟨.dst4, d⟩, ⟨.src2, a⟩], [], [], .mem, .inter, (.upTo .e), .runs, 4, true⟩
  | .ldcW _ d a _ => ⟨[⟨.dst, d⟩, ⟨.src2, a⟩], [], [], .mem, .inter, (.upTo .e), .runs, 4, true⟩
  | .ldcQ _ d a _ => ⟨[⟨.dst4, d⟩, ⟨.src2, a⟩], [], [], .mem, .inter, (.upTo .e), .runs, 4, true⟩
  | .stB _ v a _ => ⟨[⟨.src, v⟩, ⟨.src2, a⟩], [], [], .mem, .none, (.upTo .e), .runs, 4, true⟩
  | .stH _ v a _ => ⟨[⟨.src, v⟩, ⟨.src2, a⟩], [], [], .mem, .none, (.upTo .e), .runs, 4, true⟩
  | .stW _ v a _ => ⟨[⟨.src, v⟩, ⟨.src2, a⟩], [], [], .mem, .none, (.upTo .e), .runs, 4, true⟩
  | .stD _ v a _ => ⟨[⟨.src2, v⟩, ⟨.src2, a⟩], [], [], .mem, .none, (.upTo .e), .runs, 4, true⟩
  | .stQ _ v a _ => ⟨[⟨.src4, v⟩, ⟨.src2, a⟩], [], [], .mem, .none, (.upTo .e), .runs, 4, true⟩
  | .ldxW _ d a b => ⟨[⟨.dst, d⟩, ⟨.src2, a⟩, ⟨.src, b⟩], [], [], .mem, .inter, (.upTo .e), .runs, 4, true⟩
  | .stxW _ v a b => ⟨[⟨.src, v⟩, ⟨.src2, a⟩, ⟨.src, b⟩], [], [], .mem, .none, (.upTo .e), .runs, 4, true⟩
  | .ldsW _ d a _ => ⟨[⟨.dst, d⟩, ⟨.src, a⟩], [], [], .mem, .inter, (.upTo .e), .runs, 5, true⟩
  | .ldsD _ d a _ => ⟨[⟨.dst2, d⟩, ⟨.src, a⟩], [], [], .mem, .inter, (.upTo .e), .runs, 5, true⟩
  | .ldsQ _ d a _ => ⟨[⟨.dst4, d⟩, ⟨.src, a⟩], [], [], .mem, .inter, (.upTo .e), .runs, 5, true⟩
  | .ldsH _ d a _ => ⟨[⟨.dst, d⟩, ⟨.src, a⟩], [], [], .mem, .inter, (.upTo .e), .runs, 5, true⟩
  | .ldsB _ d a _ => ⟨[⟨.dst, d⟩, ⟨.src, a⟩], [], [], .mem, .inter, (.upTo .e), .runs, 5, true⟩
  | .stsW _ v a _ => ⟨[⟨.src, v⟩, ⟨.src, a⟩], [], [], .mem, .none, (.upTo .e), .runs, 5, true⟩
  | .stsD _ v a _ => ⟨[⟨.src2, v⟩, ⟨.src, a⟩], [], [], .mem, .none, (.upTo .e), .runs, 5, true⟩
  | .stsQ _ v a _ => ⟨[⟨.src4, v⟩, ⟨.src, a⟩], [], [], .mem, .none, (.upTo .e), .runs, 5, true⟩
  | .stsH _ v a _ => ⟨[⟨.src, v⟩, ⟨.src, a⟩], [], [], .mem, .none, (.upTo .e), .runs, 5, true⟩
  | .stsB _ v a _ => ⟨[⟨.src, v⟩, ⟨.src, a⟩], [], [], .mem, .none, (.upTo .e), .runs, 5, true⟩
  | .ldAcqW _ d a e => ⟨[⟨.dst, d⟩, ⟨.src2, a⟩], [], [], .mem, .inter, (.upTo .e), .runs, 4, scopeOk e⟩
  | .ldAcqD _ d a e => ⟨[⟨.dst2, d⟩, ⟨.src2, a⟩], [], [], .mem, .inter, (.upTo .e), .runs, 4, scopeOk e⟩
  | .stRelW _ v a e => ⟨[⟨.src, v⟩, ⟨.src2, a⟩], [], [], .mem, .none, (.upTo .e), .runs, 4, scopeOk e⟩
  | .stRelD _ v a e => ⟨[⟨.src2, v⟩, ⟨.src2, a⟩], [], [], .mem, .none, (.upTo .e), .runs, 4, scopeOk e⟩
  | .prf _ a _ => ⟨[⟨.src2, a⟩], [], [], .mem, .none, (.upTo .e), .runs, 4, true⟩
  | .cwb _ a => ⟨[⟨.src2, a⟩], [], [], .mem, .none, (.upTo .e), .runs, 4, true⟩
  | .cinv _ a => ⟨[⟨.src2, a⟩], [], [], .mem, .none, (.upTo .e), .runs, 4, true⟩
  | .cwbiAll _ => ⟨[], [], [], .mem, .none, (.upTo .e), .runs, 4, true⟩
  | .atomAdd _ d a b => ⟨[⟨.dst, d⟩, ⟨.src2, a⟩, ⟨.src, b⟩], [], [], .mem, .inter, (.upTo .e), .runs, 4, true⟩
  | .atomMin _ d a b => ⟨[⟨.dst, d⟩, ⟨.src2, a⟩, ⟨.src, b⟩], [], [], .mem, .inter, (.upTo .e), .runs, 4, true⟩
  | .atomMax _ d a b => ⟨[⟨.dst, d⟩, ⟨.src2, a⟩, ⟨.src, b⟩], [], [], .mem, .inter, (.upTo .e), .runs, 4, true⟩
  | .atomMinu _ d a b => ⟨[⟨.dst, d⟩, ⟨.src2, a⟩, ⟨.src, b⟩], [], [], .mem, .inter, (.upTo .e), .runs, 4, true⟩
  | .atomMaxu _ d a b => ⟨[⟨.dst, d⟩, ⟨.src2, a⟩, ⟨.src, b⟩], [], [], .mem, .inter, (.upTo .e), .runs, 4, true⟩
  | .atomAnd _ d a b => ⟨[⟨.dst, d⟩, ⟨.src2, a⟩, ⟨.src, b⟩], [], [], .mem, .inter, (.upTo .e), .runs, 4, true⟩
  | .atomOr _ d a b => ⟨[⟨.dst, d⟩, ⟨.src2, a⟩, ⟨.src, b⟩], [], [], .mem, .inter, (.upTo .e), .runs, 4, true⟩
  | .atomXor _ d a b => ⟨[⟨.dst, d⟩, ⟨.src2, a⟩, ⟨.src, b⟩], [], [], .mem, .inter, (.upTo .e), .runs, 4, true⟩
  | .atomXchg _ d a b => ⟨[⟨.dst, d⟩, ⟨.src2, a⟩, ⟨.src, b⟩], [], [], .mem, .inter, (.upTo .e), .runs, 4, true⟩
  | .atomCas _ d a b => ⟨[⟨.dst, d⟩, ⟨.src2, a⟩, ⟨.src2, b⟩], [], [], .mem, .inter, (.upTo .e), .runs, 4, true⟩
  | .atomFadd _ d a b => ⟨[⟨.dst, d⟩, ⟨.src2, a⟩, ⟨.src, b⟩], [], [], .mem, .inter, (.upTo .e), .runs, 4, true⟩
  | .atomsAdd _ d a b => ⟨[⟨.dst, d⟩, ⟨.src, a⟩, ⟨.src, b⟩], [], [], .mem, .inter, (.upTo .e), .runs, 5, true⟩
  | .atomsMin _ d a b => ⟨[⟨.dst, d⟩, ⟨.src, a⟩, ⟨.src, b⟩], [], [], .mem, .inter, (.upTo .e), .runs, 5, true⟩
  | .atomsMax _ d a b => ⟨[⟨.dst, d⟩, ⟨.src, a⟩, ⟨.src, b⟩], [], [], .mem, .inter, (.upTo .e), .runs, 5, true⟩
  | .atomsCas _ d a b => ⟨[⟨.dst, d⟩, ⟨.src, a⟩, ⟨.src2, b⟩], [], [], .mem, .inter, (.upTo .e), .runs, 5, true⟩
  | .fence _ _ e _ => ⟨[], [], [], .mem, .none, (.upTo .e), .runs, 4, scopeOk e⟩
  | .barinit _ a b => ⟨[⟨.src, a⟩, ⟨.src, b⟩], [], [], .ctl, .none, (.upTo .e), .runs, 6, true⟩
  | .bararv _ d a => ⟨[⟨.dst, d⟩, ⟨.src, a⟩], [], [], .ctl, .inter, (.upTo .e), .runs, 6, true⟩
  | .barxb _ a b => ⟨[⟨.src, a⟩, ⟨.src, b⟩], [], [], .ctl, .none, (.upTo .e), .runs, 6, true⟩
  | .bararvx _ d a b => ⟨[⟨.dst, d⟩, ⟨.src, a⟩, ⟨.src, b⟩], [], [], .ctl, .inter, (.upTo .e), .runs, 6, true⟩
  | .barwait _ a b => ⟨[⟨.src, a⟩, ⟨.src, b⟩], [], [], .ctl, .none, (.upTo .e), .runs, 6, true⟩
  | .bartst _ p a b => ⟨[⟨.src, a⟩, ⟨.src, b⟩], [], [p.toNat], .ctl, .inter, (.upTo .e), .runs, 6, true⟩
  | .barinv _ a => ⟨[⟨.src, a⟩], [], [], .ctl, .none, (.upTo .e), .runs, 6, true⟩
  | .wptr _ d a => ⟨[⟨.dst, d⟩, ⟨.src, a⟩], [], [], .ctl, .inter, (.upTo .e), .runs, 6, true⟩
  | .prio _ a => ⟨[⟨.src, a⟩], [], [], .ctl, .none, .illegal, .runs, 6, true⟩
  | .yield _ => ⟨[], [], [], .ctl, .none, (.upTo .e), .runs, 6, true⟩
  | .br _ _ p _ => ⟨[], [p.toNat], [], .ctl, .none, (.upTo .e), .runs, 6, true⟩
  | .call _ _ => ⟨[⟨.dst, .o 7⟩], [], [], .ctl, .c2, (.upTo .e), .runs, 6, true⟩
  | .jmp _ a => ⟨[⟨.src, a⟩], [], [], .ctl, .none, (.upTo .e), .runs, 6, true⟩
  | .ret _ => ⟨[⟨.src, .o 7⟩], [], [], .ctl, .none, (.upTo .e), .runs, 6, true⟩
  | .callr _ a => ⟨[⟨.src, a⟩, ⟨.dst, .o 7⟩], [], [], .ctl, .c2, (.upTo .e), .runs, 6, true⟩
  | .exit _ => ⟨[], [], [], .ctl, .none, (.upTo .e), .runs, 6, true⟩
  | .trap _ _ => ⟨[], [], [], .ctl, .none, (.upTo .e), .runs, 6, true⟩
  | .bkpt _ => ⟨[], [], [], .ctl, .none, (.upTo .e), .runs, 6, true⟩
  | .refill _ d => ⟨[⟨.dst, d⟩], [], [], .ctl, .inter, .illegal, .runs, 6, true⟩
  | .fetchw _ a b => ⟨[⟨.src, a⟩, ⟨.src, b⟩], [], [], .ctl, .none, .illegal, .runs, 6, true⟩
  | .id _ d f => ⟨[⟨.dst, d⟩], [], [], .ctl, .inter, (.upTo .e), .runs, 6, f.toNat < 13⟩
  | .cdecl _ _ a => ⟨[⟨.src, a⟩], [], [], .ctl, .none, .illegal, .runs, 6, true⟩
  | .crst _ _ => ⟨[], [], [], .ctl, .none, .illegal, .runs, 6, true⟩
  | .shfl _ d a b => ⟨[⟨.dst, d⟩, ⟨.src, a⟩, ⟨.src, b⟩], [], [], .ctl, .inter, .illegal, .runs, 6, true⟩
  | .vote _ d a b => ⟨[⟨.dst, d⟩, ⟨.src, a⟩, ⟨.src, b⟩], [], [], .ctl, .inter, .illegal, .runs, 6, true⟩
  | .rdx _ d a b => ⟨[⟨.dst, d⟩, ⟨.src, a⟩, ⟨.src, b⟩], [], [], .ctl, .inter, .illegal, .runs, 6, true⟩
  | .mma _ t a b x => ⟨[⟨.frag, a⟩, ⟨.frag, b⟩, ⟨.scale, x.sa⟩, ⟨.scale, x.sb⟩], [], [], .mx, .none, .illegal, .runs, 7, t.toNat < 48 && pairFmt x.fa x.fb⟩
  | .mmaj _ t a b x => ⟨[⟨.frag, a⟩, ⟨.region, b⟩, ⟨.scale, x.sa⟩, ⟨.scaleJ, x.sb⟩], [], [], .mx, .none, .illegal, .runs, 7, t.toNat < 48 && pairFmt x.fa x.fb⟩
  | .mzero _ t => ⟨[], [], [], .mx, .none, .illegal, .runs, 7, t.toNat < 48⟩
  | .mload _ t a => ⟨[⟨.src, a⟩], [], [], .mx, .none, .illegal, .runs, 7, t.toNat < 48⟩
  | .mdrain _ t a b x => ⟨[⟨.drainDst x.glb, a⟩, ⟨.srcX, b⟩], [], [], .mx, .none, .illegal, .runs, 7, t.toNat < 48 && drainFmt x⟩
  | .mfence _ _ => ⟨[], [], [], .mx, .none, .illegal, .runs, 7, true⟩
  | .mwait _ t => ⟨[], [], [], .mx, .none, .illegal, .runs, 7, t.toNat < 48 || t == 127⟩
  | .cpyGs _ a _ _ => ⟨[⟨.recd, a⟩], [], [], .mx, .none, (.upTo .e), .runs, 7, true⟩
  | .cpySg _ a _ _ => ⟨[⟨.recd, a⟩], [], [], .mx, .none, (.upTo .e), .runs, 7, true⟩
  | .cpyl _ d a b x => ⟨[⟨.side (x.dir != 0), d⟩, ⟨.side (x.dir != 1), a⟩, ⟨.srcX, b⟩], [], [], .mx, .none, (.upTo .e), .runs, 7, x.dir != 3⟩
  | .cpyg _ d a b x => ⟨[⟨.srcX, d⟩, ⟨.src2X, a⟩, ⟨.srcX, b⟩], [], [], .mx, .none, (.upTo .e), .runs, 7, x.rowb != 0⟩
  | .sysrd _ d _ => ⟨[⟨.dst, d⟩], [], [], .ctl, .inter, (.upTo .e), .runs, 6, true⟩
  | .syswr _ v _ => ⟨[⟨.src, v⟩], [], [], .ctl, .none, (.upTo .e), .runs, 6, true⟩
  | .tsrd _ d _ => ⟨[⟨.dst2, d⟩], [], [], .ctl, .inter, (.upTo .e), .runs, 6, true⟩
  | .ecall _ _ => ⟨[], [], [], .ctl, .none, (.upTo .u), .priv, 6, true⟩
  | .eret _ => ⟨[], [], [], .ctl, .none, (.upTo .s), .priv, 6, true⟩
  | .ecreate _ d a => ⟨[⟨.dst, d⟩, ⟨.src2, a⟩], [], [], .ctl, .inter, (.upTo .s), .priv, 6, true⟩
  | .eenter _ a b => ⟨[⟨.src, a⟩, ⟨.src, b⟩], [], [], .ctl, .none, (.upTo .s), .priv, 6, true⟩
  | .eexit _ => ⟨[], [], [], .ctl, .none, .enclave, .priv, 6, true⟩
  | .ereport _ d a => ⟨[⟨.dst, d⟩, ⟨.src2, a⟩], [], [], .ctl, .inter, .enclave, .priv, 6, true⟩
  | .kwrap _ d a => ⟨[⟨.dst, d⟩, ⟨.src2, a⟩], [], [], .ctl, .inter, .enclave, .priv, 6, true⟩
  | .kunwrap _ d a => ⟨[⟨.dst, d⟩, ⟨.src2, a⟩], [], [], .ctl, .inter, .enclave, .priv, 6, true⟩
  | .krevoke _ d a => ⟨[⟨.dst, d⟩, ⟨.src, a⟩], [], [], .ctl, .inter, (.upTo .s), .priv, 6, true⟩
  | .kload _ d a => ⟨[⟨.dst, d⟩, ⟨.src, a⟩], [], [], .ctl, .inter, (.upTo .h), .priv, 6, true⟩
  | .potset _ d a => ⟨[⟨.dst, d⟩, ⟨.src2, a⟩], [], [], .ctl, .inter, (.upTo .h), .priv, 6, true⟩
  | .potrd _ d a => ⟨[⟨.dst, d⟩, ⟨.src2, a⟩], [], [], .ctl, .inter, (.upTo .h), .priv, 6, true⟩
  | .pmap _ d a => ⟨[⟨.dst, d⟩, ⟨.src2, a⟩], [], [], .ctl, .inter, (.upTo .s), .priv, 6, true⟩
  | .paccept _ d a => ⟨[⟨.dst, d⟩, ⟨.src2, a⟩], [], [], .ctl, .inter, .enclave, .priv, 6, true⟩
  | .pdiscard _ d a => ⟨[⟨.dst, d⟩, ⟨.src2, a⟩], [], [], .ctl, .inter, (.upTo .s), .priv, 6, true⟩
  | .pevict _ d a => ⟨[⟨.dst, d⟩, ⟨.src2, a⟩], [], [], .ctl, .inter, (.upTo .s), .priv, 6, true⟩
  | .pload _ d a => ⟨[⟨.dst, d⟩, ⟨.src2, a⟩], [], [], .ctl, .inter, (.upTo .s), .priv, 6, true⟩
  | .punmap _ d a => ⟨[⟨.dst, d⟩, ⟨.src2, a⟩], [], [], .ctl, .inter, (.upTo .s), .priv, 6, true⟩
  | .tlbi _ a b => ⟨[⟨.src2, a⟩, ⟨.src, b⟩], [], [], .ctl, .none, (.upTo .s), .priv, 6, true⟩
  | .edestroy _ a => ⟨[⟨.src, a⟩], [], [], .ctl, .none, (.upTo .s), .priv, 6, true⟩
  | _ => ⟨[], [], [], .ctl, .none, .illegal, .priv, 6, false⟩

/-- The step of an agent, with no word of a program behind it. -/
def Instr.isEvent (i : Instr) : Bool := i.hdr? == none

end Sys2Proof
end

