-- ==== Sys2Proof/Machine/Operands.lean ====
section
/-! DEFINITION. The operand forms: how many registers an operand field names in its role, which registers and predicates a
word reads and writes, and which codes a field may hold (R60-R66, R173, R187, R230). -/

namespace Sys2Proof

/-- Whether two lists of numbers share one. -/
def meets (a b : List Nat) : Bool := a.any fun x => b.contains x

def ThreadId.isHost : ThreadId → Bool
  | .host _ => true
  | .simt _ _ => false

def Least.code : Least → Nat
  | .h => 0 | .s => 1 | .u => 2 | .e => 3

def Role.width : Role → Nat
  | .dst2 | .src2 | .rmw2 | .src2X => 2
  | .dst4 | .src4 => 4
  | .recd => 24
  | .frag => 16
  | .side glb | .drainDst glb => if glb then 2 else 1
  | _ => 1

/-- Whether a field of the role reads the register it names. SB of MMAJ names none: 0x00 stands for the scratchpad (R173). -/
def Role.reads : Role → Bool
  | .dst | .dst2 | .dst4 | .scaleJ => false
  | _ => true

def Role.writes : Role → Bool
  | .dst | .dst2 | .dst4 | .rmw | .rmw2 => true
  | _ => false

def Opnd.isReg : Opnd → Bool
  | .g _ | .o _ | .l _ => true
  | _ => false

def Opnd.isL : Opnd → Bool
  | .l _ => true
  | _ => false

/-- The register codes that a use names: none for zr, the literal and the illegal codes. -/
def Use.codes (u : Use) : List Nat :=
  if u.opnd.isReg then (List.range u.role.width).map fun k => u.opnd.code + k else []

def Instr.readCodes (i : Instr) : List Nat :=
  (i.info.uses.filter fun u => u.role.reads).flatMap Use.codes ++ (i.info.preads.filter (· ≠ 0)).map (128 + ·)

def Instr.writeCodes (i : Instr) : List Nat :=
  (i.info.uses.filter fun u => u.role.writes).flatMap Use.codes ++ (i.info.pwrites.filter (· ≠ 0)).map (128 + ·)

def inAllot (allot : Nat) (o : Opnd) (w : Nat) : Bool :=
  match o with
  | .g n => n.val + w ≤ allot
  | _ => true

/-- Whether an operand field may hold a code in its role (R60-R64, R173, R187, R230). -/
def Use.ok (allot : Nat) (u : Use) : Bool :=
  let single (lit zr : Bool) := match u.opnd with
    | .g _ | .o _ | .l _ => inAllot allot u.opnd 1
    | .zr => zr
    | .lit => lit
    | .bad _ => false
  let multi (w : Nat) := match u.opnd with
    | .g n => n.val % w == 0 && inAllot allot u.opnd w
    | .o n => n.val % w == 0
    | .zr => true
    | _ => false
  let span (w : Nat) := match u.opnd with
    | .g n => n.val + w ≤ 112 && inAllot allot u.opnd w
    | _ => false
  match u.role with
  | .dst | .rmw => single false true
  | .src => single true true
  | .srcX => single false true
  | .scale => single false true && !u.opnd.isL
  | .scaleJ => u.opnd == .zr || u.opnd.code == 0
  | .region => single false false && !u.opnd.isL
  | .dst2 | .src2 | .rmw2 | .src2X => multi 2
  | .dst4 | .src4 => multi 4
  | .recd => span 24
  | .frag => u.opnd.code % 8 == 0 && span 16
  | .side glb | .drainDst glb => if glb then multi 2 else single false true

/-- The copies (R21, R26). -/
def Instr.isCopy : Instr → Bool
  | .cpyGs .. | .cpySg .. | .cpyl .. | .cpyg .. => true
  | _ => false

/-- The sources of a word that its effect stands with whatever value they hold: the data of a store, an atomic, a collective or a system
register write, a priority, a transfer's condition or target, and the operands of a matrix operation. -/
def Instr.dataCodes : Instr → List Nat
  | .stB _ v _ _ | .stH _ v _ _ | .stW _ v _ _ | .stxW _ v _ _ | .stsW _ v _ _ | .stsH _ v _ _ | .stsB _ v _ _ | .stRelW _ v _ _
  | .syswr _ v _ => Use.codes ⟨.src, v⟩
  | .stD _ v _ _ | .stsD _ v _ _ | .stRelD _ v _ _ => Use.codes ⟨.src2, v⟩
  | .stQ _ v _ _ | .stsQ _ v _ _ => Use.codes ⟨.src4, v⟩
  | .atomAdd _ _ _ b | .atomMin _ _ _ b | .atomMax _ _ _ b | .atomMinu _ _ _ b | .atomMaxu _ _ _ b | .atomAnd _ _ _ b
  | .atomOr _ _ _ b | .atomXor _ _ _ b | .atomXchg _ _ _ b | .atomFadd _ _ _ b | .atomsAdd _ _ _ b | .atomsMin _ _ _ b
  | .atomsMax _ _ _ b => Use.codes ⟨.src, b⟩
  | .atomCas _ _ _ b | .atomsCas _ _ _ b => Use.codes ⟨.src2, b⟩
  | .shfl _ _ a _ | .vote _ _ a _ | .rdx _ _ a _ | .prio _ a | .jmp _ a | .callr _ a => Use.codes ⟨.src, a⟩
  | .ret _ => [0x77]
  | .br _ _ p _ => [128 + p.toNat]
  | .mma _ _ a b x => Use.codes ⟨.frag, a⟩ ++ Use.codes ⟨.frag, b⟩ ++ Use.codes ⟨.scale, x.sa⟩ ++ Use.codes ⟨.scale, x.sb⟩
  | .mmaj _ _ a b x => Use.codes ⟨.frag, a⟩ ++ Use.codes ⟨.src, b⟩ ++ Use.codes ⟨.scale, x.sa⟩
  | _ => []

/-- Latency in clocks of a fixed-latency class (R73). -/
def Lat.clocks : Lat → Nat
  | .c2 => 2
  | .c4 => 4
  | _ => 0

/-- The event code of a pipe's words (Table 26.6); a host core's copies issue to MEM (R21). -/
def Pipe.event : Pipe → Nat
  | .alu => 4 | .sfu => 5 | .mem => 6 | .ctl => 7 | .mx => 8

def AccessKind.code : AccessKind → Nat
  | .read => 0 | .write => 1 | .atomic => 2 | .execute => 3 | .ldc => 4 | .copyRead => 5 | .copyWrite => 6 | .drainWrite => 7
  | .signal => 8 | .dma => 9

/-- The least privileged levels that may read and write a system register (Table 9.4): none for an unassigned number; a
Write column of "—" is none. -/
def sysReg (n : Nat) : Option (Least × Option Least) :=
  if n = 0x000 || n = 0x001 then some (.e, some .e)
  else if n = 0x002 || n = 0x003 || n = 0x004 || n = 0x005 then some (.e, none)
  else if 0x010 ≤ n && n ≤ 0x027 then some (.e, some .h)
  else if 0x040 ≤ n && n ≤ 0x04E then some (.s, some .s)
  else if 0x050 ≤ n && n ≤ 0x05E then some (.h, some .h)
  else if n = 0x060 || n = 0x061 || n = 0x063 then some (.s, some .s)
  else if n = 0x062 then some (.s, some .h)
  else if n = 0x070 || n = 0x071 then some (.h, some .h)
  else if n = 0x072 then some (.h, none)
  else none

/-- The system register access of a word (R206, R207): ILLEGAL when it does not exist, otherwise its least privileged
level. -/
def Instr.sysAccess : Instr → Option (Option Least)
  | .sysrd _ _ n => some ((sysReg n.toNat).map (·.1))
  | .syswr _ _ n => some (match sysReg n.toNat with
    | some (_, w) => w
    | none => none)
  | _ => none

/-- The word of an instruction in TVAL (R201). -/
def Instr.tval (i : Instr) : Dword := i.word.setWidth 64

end Sys2Proof
end

