-- ==== Sys2Proof/Config.lean ====
section
/-! DEFINITION. What the module fixes once (counts, sizes, clock periods) and the values that the spec leaves open. The
open values are opaque constants without a body: nothing can be proved about what they are. -/

namespace Sys2Proof.Config

/-- A value that the spec leaves open ("yields any value", a choice of the S12, key material, a nonce): the first
argument is the counter `State.fresh` that each step reads and advances, the second numbers the values one step
draws (assumption 1). -/
opaque free : Nat → Nat → Word

/-- The S12's own choice among the results that the bound of Table 5.5 allows an SFU function (R112): a fixed function of
the function's code and the input bits. A choice outside the bound is never used (assumption 2). -/
opaque sfuChoice : Nat → Word → Word

/-- Key material and nonces that the root of trust generates (R212, R221, R360), numbered by `State.keysMade`. -/
opaque keyMaterial : Nat → BitVec 256
opaque nonce : Nat → BitVec 96

/-- The device identity secret (R221), fused in the anchor die; no instruction reads it. -/
opaque deviceSecret : BitVec 256

/-- The body of a team, launch, save-page or context record of a checkpoint (R433), which only an S12 root of trust reads: by the
checkpoint's number and the record's. -/
opaque imageBody : Nat → Nat → List (BitVec 8)

/-- Whether a policy, by its SHA-256, lists the digest of the module with a package number (R440, R441). -/
opaque policyLists : BitVec 256 → Nat → Bool

/-- The device measurements that a policy, by its SHA-256, lists, and what a device interface reports when it is asked, by the counter of the
free values and its number (R376). -/
opaque policyDevices : BitVec 256 → List (BitVec 256)
opaque deviceMeasurement : Nat → Nat → BitVec 256

/-- Whether an HSS signature verifies over a message under Bruro's firmware key, which is fused in the anchor die (R445). -/
opaque firmwareSigned : List (BitVec 8) → List (BitVec 8) → Bool

/-- The conversion rule of a firmware image for the state table's version, when it has one: the version that results (R424). -/
opaque conversion : List (BitVec 8) → Nat → Option Nat

/-- SHA-256 of a die's identity record and ROM: the values of measurement indices 1-13 (Table 26.4), and 14 for the image of the
first boot. -/
opaque identityDigest : Nat → BitVec 256

/-- Bytes that the SPDM and TDISP standards or the signing keys fix and this manual does not (certificates, nonces,
signatures, R446), numbered by `State.fresh`. -/
opaque standardBytes : Nat → Nat → List Byte

/-- Ticks of the model's time: 1/204 GHz, so that a nanosecond, a host clock (2.4 GHz) and a core clock (850 MHz, R2)
are whole numbers of ticks. -/
def ticksPerNs : Nat := 204
def ticksPerHostClock : Nat := 85
def ticksPerCoreClock : Nat := 240

/-- Counts of R1. -/
def slices : Nat := 12
def hostsPerSlice : Nat := 8
def hosts : Nat := 96
def quadsPerSlice : Nat := 96
def coresPerSlice : Nat := 384
def walkersPerSlice : Nat := 16
def engines : Nat := 48

/-- The line lease of R129 and the epoch of R143, in nanoseconds of TSR. -/
def leaseNs : Nat := 65536
def epochNs : Nat := 32768

/-- The scratchpad of a host core (R133) and of a SIMT core (Table 1.2), in bytes. -/
def hostScratch : Nat := 32768
def coreScratch : Nat := 131072

/-- The first stack offset of the reserved region of each HBM4 stack (Table 19.8), and one past the last byte. -/
def ctreeBase : Nat := 0xFAEFC0000
def stackBytes : Nat := 0x1000000000

end Sys2Proof.Config
end

