-- ==== Sys2Proof/Machine/State.lean ====
section
/-! DEFINITION. The state of the S12 module as plain data: threads, teams, launches, queues, walkers, engines, caches,
translation, page ownership, enclaves, the anchor die's registers, and the state right after module reset. -/

namespace Sys2Proof.Machine

/-- A sparse table: number and value pairs, numbers strictly rising. What an unlisted number reads as is said where
a table is used. -/
abbrev Tab (α : Type) := List (Nat × α)

/-- A 512-bit signature (R143). -/
abbrev Sig := BitVec 512

/-- The signatures kept beside a line or a barrier object, each with the number of the epoch in which it came (R143, R148). -/
abbrev Sigs := List (Nat × Sig)

/-- The four privilege levels of a host thread, codes 0-3 (R198); a SIMT thread is always at E. -/
inductive Level where
  | h | s | u | e
  deriving DecidableEq, Repr

/-- The traps of Table 3.6 (R80). -/
inductive Trap where
  | illegal | priv | stallchk | chainhaz | brchain | mxhaz | convset | convdup | convorphan | misalign | perm
  | potviol | notpresent | tnode | tnodewait | integ | tilefault | barfault | tlrfault | keyrevoked | trapsw | bkpt
  deriving DecidableEq, Repr

/-- A barrier object (Table 6.5, R148) with the hidden signature its unit keeps; an invalid zero object when absent. -/
structure BarObj where
  cv         : Bool := false
  valid      : Bool := false
  bytesPend  : Int := 0
  arrivePend : Nat := 0
  arriveExp  : Nat := 0
  phase      : Word := 0
  sig        : Sigs := []
  /-- An uncorrectable error has struck the object (R421, assumption 101). -/
  poison     : Bool := false
  deriving DecidableEq, Repr

/-- Where a barrier handle points (R149): an object of a team or host core, or a context object of an enclave. -/
inductive BarRef where
  | own (o : Owner) (h : Nat)
  | ctx (eid h : Nat)
  deriving DecidableEq, Repr

/-- A class 2 or class 4 result that is still early (R73, R75): the register code (128 + p for a predicate), the value
it had before the producer, and the tick from which the result may be read. -/
structure Early where
  code : Nat
  old  : Word
  at_  : Nat
  deriving DecidableEq, Repr

/-- An interlocked result that has not been written yet (R73), with the FPC flags it sets (R45). -/
structure Result where
  code  : Nat
  val   : Word
  flags : BitVec 5
  deriving DecidableEq, Repr

/-- A matrix operation, MZERO, MLOAD or MDRAIN tile read that is outstanding for its thread (R180, R181). Of an operation that is
still to be performed: whether Table 8.2 has made all its elements any value, and the row pairs (32 x tile + home lane) it has made so; of an
MMAJ whose B region is not known yet (a region of size 0), the scratchpad ranges that the thread has stored to since; and what the
registers that it names held before writes that had not completed at the signature (R178). -/
structure MxOut where
  op     : Nat
  tiles  : List Nat
  codes  : List Nat
  region : Option (Nat × Nat)
  signed : Bool
  done   : Bool
  spoilt : Bool := false
  rows   : List Nat := []
  stores : List (Nat × Nat) := []
  olds   : List (Nat × Word) := []
  deriving DecidableEq, Repr

/-- A fence that has issued and is not complete (R141): its kind (0 ACQ, 1 REL, 2 AR, 3 SC), its scope, and CP. -/
structure Fencing where
  kind  : Nat
  scope : Nat
  cp    : Bool
  deriving DecidableEq, Repr

/-- The waiting states of Table 10.4 that a word leaves its thread in after it issued (R240); `stopped` is a host core
that issues nothing (R155) or a SIMT thread that a terminal trap has stopped (R80), `retired` a SIMT thread that has exited (R154). -/
inductive Wait where
  | none
  | barrier (b : BarRef) (phase : Word) (restart : Word) (tval : Dword)
  | converge (cv : Nat)
  | mwait (tile : Nat)
  | stopped
  | retired
  deriving DecidableEq, Repr

/-- A thread's own state: the registers of R21, the modes, its place in its program, and its place in time. -/
structure Thread where
  /-- g0-g111, o0-o7, l0-l3 by operand code (R60); an unlisted register holds 0. -/
  regs     : Tab Word := []
  /-- p7-p0; bit 0 reads as 1 (R62). -/
  preds    : Byte := 1
  fpc      : Word := 0
  chk      : Word := 0
  eid      : BitVec 16 := 0
  cb       : Dword := 0
  w        : Word := 0
  level    : Level := .h
  /-- The allotment of R230. -/
  allot    : Nat := 112
  prio     : BitVec 3 := 4
  yielded  : Bool := false
  /-- The l registers that R62 has voided and the thread has not written since. -/
  lvoid    : BitVec 4 := 0
  /-- The tick from which the thread's next word may issue (R72): its ready stamp (R236). -/
  readyAt  : Nat := 0
  early    : List Early := []
  results  : List Result := []
  /-- Registers whose value waits on the operand log (R130): code and log entry number. -/
  logged   : List (Nat × Nat) := []
  /-- The SYSRD latch (R206): the .HI number it answers and the half it holds. -/
  latch    : Option (Nat × Word) := none
  wait     : Wait := .none
  /-- The gathered set (R145) and the signature waiting for a carrier (R143). -/
  gathered : Sig := 0
  pending  : Option Sig := none
  /-- Fences that have issued and are not complete, oldest first (R141). -/
  fences   : List Fencing := []
  mx       : List MxOut := []
  /-- The coordinates of the current tile, when one has been taken (R159). -/
  tile     : Option (List Word) := none
  /-- A trap that an engine of the thread raised, taken at its next issued word (R150, R196). -/
  owed     : Option (Trap × Dword) := none
  /-- Registers that hold poison (R421). -/
  poison   : List Nat := []
  /-- A kick store held at the command processor: its word index, lead slice, queue and kick word (R342, R343). -/
  kick     : Option (Word × Nat × Nat × Dword) := none
  /-- The link number of the record that the thread's next fetch waits on (R57). -/
  fetch    : Option Nat := none
  /-- Scratchpad words of its team that the thread has stored since its stores there last completed, with the values before (R178). -/
  sts      : List (Nat × Word) := []
  /-- Scratchpad words that copies have landed on and that the thread has acquired since its last signature (R178). -/
  seen     : List Nat := []
  /-- The signature of the thread's last FENCE.REL at CLUS scope or wider, for its later copies (R278). -/
  relSig   : Sig := 0
  /-- Of the model: the thread's next plain access reaches memory later than it issues (R264). -/
  late     : Bool := false
  /-- Of the model: the tick at which a turn from the picker last found that the thread's next word cannot issue. -/
  stuck    : Option Nat := none
  deriving DecidableEq, Repr

/-- One of a host core's two trap banks (R199, Tables 9.2-9.4). -/
structure Bank where
  tvec   : Dword := 0
  tcause : Word := 0
  tstat  : Word := 0
  tepc   : Word := 0
  tecb   : Dword := 0
  tval   : Dword := 0
  tsave0 : Word := 0
  tsave1 : Word := 0
  ipend  : Word := 0
  imask  : Word := 0
  tcmp   : Dword := 0xFFFFFFFFFFFFFFFF
  /-- The SYSRD latch that the last entry into the bank saved (R206). -/
  latch  : Option (Nat × Word) := none
  /-- Source 0 is asserted (R204). -/
  timer  : Bool := false
  deriving DecidableEq, Repr

/-- An element range of a copy that a retryable fault skipped (R196): its first logical offset, its length, the global
address at which it faulted, the index word of its row (R192), the link number of the record it waits on; `answered` once
software answered with FAIL = 0. -/
structure Segment where
  off      : Nat
  len      : Nat
  va       : Nat
  row      : Word
  link     : Nat
  answered : Bool
  deriving DecidableEq, Repr

/-- A copy that a channel holds (R190-R193): form 0 CPY, 1 CPYL, 2 CPYG; direction as Table 8.8; the record of CPY;
addresses, length, index list and row length of the others; the barrier; the issuer's space and signature; how far
delivery has come, the index word of the row it has reached, how many bytes it has counted; the fix-up list, and the fault at which
delivery has stopped because the list is full (R296). -/
structure Copy where
  form    : Nat
  dir     : Nat
  rec_    : List Word
  src     : Nat
  dst     : Nat
  len     : Nat
  idx     : Nat
  rb      : Nat
  bar     : Nat
  rel     : Bool
  sp      : Space
  sig     : Sig
  tid     : ThreadId
  started : Bool
  cursor  : Nat
  row     : Word
  counted : Nat
  fix     : List Segment
  stop    : Option Segment := none
  deriving DecidableEq, Repr

/-- A logical copy channel (R193, R294): queued copies, oldest first, the physical channel (16 x engine + channel) it
is bound to, and its write pointer (R194). -/
structure Chan where
  queue : List Copy := []
  phys  : Option Nat := none
  wptr  : Word := 0
  deriving DecidableEq, Repr

/-- What a team or a host core holds beside its threads: scratchpad bytes (0 when unlisted), the scratchpad words that
hold poison, barrier objects by handle, the 16 copy channels, and the scratchpad words that copies have landed on, each with the barrier that
counted them, over stores that had not completed (R178). -/
structure Store where
  spad   : Tab Byte := []
  poison : List Nat := []
  bars   : Tab BarObj := []
  chans  : Tab Chan := []
  landedOn : List (BarRef × Nat) := []
  deriving DecidableEq, Repr

/-- A host core (R21, R205) less its thread: banks, address-space registers, the return point of its EENTER (R215), the
entered enclave thread, and its store. -/
structure HostCore where
  bankS   : Bank := {}
  bankH   : Bank := {}
  ptroot  : Dword := 0
  guestid : Word := 0
  fltresp : Word := 0
  mgovsel : Word := 0
  retW    : Word := 0
  retCb   : Dword := 0
  entered : Option (Nat × Nat) := none
  store   : Store := {}
  deriving DecidableEq, Repr

/-- One thread's signature at a convergence register (R168): its thread index, input value, control word and the
register that receives its result. -/
structure Sign where
  idx : Nat
  a   : Word
  ctl : Word
  dst : Nat
  deriving DecidableEq, Repr

/-- The operation that a convergence register gathers (R165): the opcode, the fixed fields of the first signature
(R170, R176), the signatures in the order they came, and for a matrix operation its number. -/
structure ConvOp where
  opcode : Nat
  fixed  : List Nat
  signs  : List Sign
  op     : Nat
  deriving DecidableEq, Repr

/-- A convergence register (R165): its set of groups and its current operation. -/
structure Conv where
  set : Word := 0
  op  : Option ConvOp := none
  deriving DecidableEq, Repr

/-- A FETCHW request (R162, R163): the thread, the mailbox offset, the handle. -/
structure FetchReq where
  idx  : Nat
  mbox : Nat
  bar  : Nat
  deriving DecidableEq, Repr

/-- A resident team (R228-R232): its launch, core, slot, cluster and member, its groups, the tile it was dispatched for,
store, tiles (key 4096 x tile + 64 x row + column, 0 when unlisted), the tile elements that hold poison,
convergence registers, FETCHW requests, serving walker, whether it received a stop or an exhausted marker (R163), whether it is done
(R241), the nanosecond of its placement (R382), and whether a forced halt has stopped it (R384). -/
structure Team where
  launch  : Nat
  core    : Nat
  slot    : Nat
  cluster : Option Nat := none
  member  : Nat := 0
  groups  : Nat
  coords  : Option (List Word) := none
  store   : Store := {}
  tiles   : Tab Word := []
  tpoison : List Nat := []
  cvs     : Tab Conv := []
  fetches : List FetchReq := []
  serving : Option (Nat × Nat) := none
  stopped : Bool := false
  spent   : Bool := false
  done    : Bool := false
  placed  : Nat := 0
  halting : Bool := false
  deriving DecidableEq, Repr

/-- A performed matrix operation (R176): its team, first tile, groups, control word, fragment codes, the B region of an
MMAJ, whether Table 8.2 has made its elements yield any value, and the row pairs (32 x tile + home lane) that it has made so. -/
structure MxOp where
  team   : Nat
  tile   : Nat
  groups : List Nat
  ctl    : MmaCtl
  aCode  : Nat
  bCode  : Nat
  bAddr  : Option Nat
  spoilt : Bool
  rows   : List Nat := []
  deriving DecidableEq, Repr

/-- A pass that waits for a table entry, or holds one (R284, R285): the posting core, team, tile, operation and group,
PRI, eligibility stamp, the restore clock of one that a forced halt had sealed (R287), the engine clock of its grant with the operands
its operand stage read, and the engine clock in which it became eligible (R291). -/
structure Pass where
  core  : Nat
  team  : Nat
  tile  : Nat
  op    : Nat
  group : Nat
  pri   : Nat
  stamp : Option Nat := none
  restored : Option Nat := none
  grant : Option Nat := none
  a     : List Word := []
  b     : List Word := []
  sa    : List Word := []
  sb    : List Word := []
  since : Option Nat := none
  deriving DecidableEq, Repr

/-- An MMAJ B buffer (R286): the operation, its core, the passes still to be granted, whether the read has finished,
the words read, and the clock in which the read began. -/
structure BBuf where
  op    : Nat
  core  : Nat
  left  : Nat
  ready : Bool
  words : List Word
  start : Nat := 0
  /-- An uncorrectable error has struck the buffer (R421). -/
  poison : Bool := false
  deriving DecidableEq, Repr

/-- A quad's engine (R284-R291): the reservation table in posting order, the passes that wait for entries, the B buffers, the restored
buffers that wait for a free one (R287), the operations whose B read waits, the governor with the clocks of its last grant and last withheld
grant and the number of its window, whether the quad is out of service or removed, and the errors that its arrays have reported: an
uncorrectable one, and the times of corrections (R422). -/
structure Quad where
  table   : List Pass := []
  waiting : List Pass := []
  bufs    : List BBuf := []
  spare   : List BBuf := []
  reads   : List (Nat × Nat × Nat) := []
  budget  : Nat := 8
  nextB   : Nat := 8
  granted : Nat := 0
  stall   : Nat := 0
  lastG   : Option Nat := none
  window  : Nat := 0
  lastW   : Option Nat := none
  out     : Bool := false
  removed : Bool := false
  uncorr  : Bool := false
  corr    : List Nat := []
  deriving DecidableEq, Repr

/-- A REFILL that waits for an item (R160, R161): its thread, its launch, and the code of its destination. -/
structure Ask where
  tid    : ThreadId
  launch : Nat
  dst    : Nat
  deriving DecidableEq, Repr

/-- The bundle that a core's picker has chosen last, as far as its threads have issued (R27): how many of them issued a function and an
F64 word to the SFU, the global bytes and the scratchpad words that their MEM words touched, and whether its chain takes items (R161). -/
structure Bundle where
  sfu   : Nat := 0
  f64   : Nat := 0
  bytes : List Nat := []
  words : List Nat := []
  refill : Bool := false
  deriving DecidableEq, Repr

/-- A SIMT or host core's own state: epoch signatures (R143, newest first) with the number of their epoch, the energy ticks it has
had (R395), EVSEL, the item queues of its launches
(R161): launch, then tile coordinates and item number of each item, the REFILLs that wait for items, oldest first, the tick of its
picker's last choice (R237), the bundle it chose, the ticks until which its SFU and MEM pipes are held, and the core clock in which the
bundle issued whose movement its scratchpad port serves, or served last (R27). -/
structure Core where
  epochs : List Sig := [0, 0, 0]
  epoch  : Nat := 0
  ticks  : Nat := 0
  evsel  : Tab Word := []
  items  : List (Nat × List Word × Nat) := []
  asks   : List Ask := []
  picked : Option Nat := none
  bundle : Bundle := {}
  sfuTo  : Nat := 0
  memTo  : Nat := 0
  moveClk : Option Nat := none
  deriving DecidableEq, Repr

/-- A line of an L1, constant cache or instruction L1 (R128, R129, R131): the core (or quad), the space and key slot, the
virtual line number VA / 128, the physical line number, the valid bytes, the dirty offsets, whether its fill granted W,
the nanosecond of its fill, the offsets that hold poison, whether its translation granted R (R124), and whether a host core's LDC has
read it (R147). -/
structure Line where
  core   : Nat
  sp     : Space
  slot   : Byte
  va     : Nat
  pa     : Nat
  bytes  : Tab Byte
  dirty  : List Nat
  wOk    : Bool
  since  : Nat
  poison : List Nat := []
  rOk    : Bool := true
  ldc    : Bool := false
  deriving DecidableEq, Repr

/-- A line that an L2 holds (R16): its number PA / 128, its way, the tick of its last use, and whether HBM4 holds an older copy. The
bytes themselves stand in `State.mem`. -/
structure L2Line where
  line  : Nat
  way   : Nat
  used  : Nat
  dirty : Bool
  deriving DecidableEq, Repr

/-- A translation in a memory-side TLB (R308, R311): the space, the first VA page (VA / 4096) and its size, the page base
PA, the leaf's permissions and type, and the key slot. -/
structure Tlb where
  sp   : Space
  page : Nat
  size : Nat
  pa   : Nat
  r    : Bool
  w    : Bool
  x    : Bool
  mt   : Nat
  slot : Byte
  deriving DecidableEq, Repr

/-- The sixteen POT states, Table 19.3. -/
inductive PotState where
  | free | hyp | guest | encl | enclPt | enclSave | enclBar | kick | shared | discarded | reclaiming | migrating
  | scrub | ctree | retired | poisoned
  deriving DecidableEq, Repr

/-- A page ownership entry, Table 19.2; `former` is the state that a POISONED frame had (R357), `busy` a move or sweep
that makes POT operations answer BUSY (R225, R389), and `key` the model's number of the key that its lines stand under (R367). -/
structure Pot where
  state  : PotState := .free
  eva    : BitVec 40 := 0
  maxp   : BitVec 3 := 0
  ehome  : BitVec 4 := 0
  guest  : Byte := 0
  owner  : BitVec 16 := 0
  slot   : Byte := 0
  pend   : Bool := false
  former : PotState := .free
  busy   : Bool := false
  key    : Nat := 0
  deriving DecidableEq, Repr

/-- A counter block or tree node (Table 19.7): MAJOR and the MINORs (0 when unlisted). -/
structure Ctr where
  major : Nat := 0
  minor : Tab Nat := []
  deriving DecidableEq, Repr

/-- A sweep of a frame (R372): its pointer, the key slot that the lines behind it stand under, the frame that a move's contents go to, and
of a move the state that its frame had. -/
structure Sweep where
  q    : Nat
  slot : Byte
  dst  : Option Nat := none
  former : PotState := .free
  deriving DecidableEq, Repr

/-- A key slot (R363): loaded or not, its guest and enclave ID or 0, and the model's number of its key: 0 for slot 0, the
guest number for a guest, above 255 for an enclave. -/
structure KeySlot where
  loaded : Bool := false
  guest  : Byte := 0
  eid    : BitVec 16 := 0
  key    : Nat := 0
  deriving DecidableEq, Repr

/-- A fault record's content (Table 14.6) less its SEQ. -/
structure FRec where
  cls    : Nat
  cause  : Nat
  guest  : Nat
  eid    : Nat
  home   : Nat
  kind   : Nat
  atype  : Nat
  va     : Nat
  agent  : Nat
  detail : Nat
  deriving DecidableEq, Repr

/-- A record that waits in a slice's queue for its ring (R322): the slice it arose on, the ring, and a number of the
model's own that links it to what waits on it. -/
structure Queued where
  slice : Nat
  ring  : Nat
  link  : Nat
  rec_  : FRec
  deriving DecidableEq, Repr

/-- An outstanding retryable record (R320): its slice, ring, SEQ (0 until written), page and link number. -/
structure Outst where
  slice : Nat
  ring  : Nat
  seq   : Nat
  link  : Nat
  sp    : Space
  page  : Nat
  deriving DecidableEq, Repr

/-- An operand-log entry (R316): the core and thread, the access, its address, size, data and operation, the codes of its
destination, the link number of the record it waits on, whether it may replay, whether its form may reach a device and whether its page
has turned out to be one (R125), poison, the signature that it carries (R143), and of an access to a scratchpad that reaches its bank later
than it issues the scratchpad, at whose offset `va` it lies (R263). -/
structure LogEntry where
  num    : Nat
  core   : Nat
  tid    : ThreadId
  sp     : Space
  kind   : AccessKind
  va     : Nat
  size   : Nat
  signed : Bool
  data   : Qword
  op     : Nat
  dst    : List Nat
  link   : Nat
  ready  : Bool
  dev    : Bool
  poison : Bool := false
  sig    : Option Sig := none
  device : Bool := false
  spad   : Option Owner := none
  deriving DecidableEq, Repr

/-- A drain on its way (R183-R186): its number, thread, destination and its layout, the tile elements it read at issue,
the engine clock of its issue, whether each line has landed, the faulting lines it waits for (R317), the tick at which its movement
on the scratchpad port began (R27), the home lines that its add-on-store operation has taken and holds (R300), or the banks (64 x team + bank, R301), and the lines that are
still to land, virtual and physical, once the drain has begun to; of a scratchpad drain, once its data has moved, the banks that are still
to be taken. Where `loose`, Table 8.2 gives its bytes any value, which stand in the elements. -/
structure Drain where
  num    : Nat
  team   : Nat
  idx    : Nat
  ctl    : DrainCtl
  dst    : Nat
  pitch  : Nat
  elems  : List Word
  sp     : Space
  sig    : Sig
  clk    : Nat
  landed : Bool
  fix    : List (Nat × Nat × Bool)
  began  : Option Nat := none
  taken  : List Nat := []
  plan   : Option (List (Nat × Nat)) := none
  loose  : Bool := false
  deriving DecidableEq, Repr

/-- An MLOAD movement (R27): the core, thread, tile and scratchpad offset, its number among the thread's outstanding
operations, whether a store to its source has made the rows any value (Table 8.2), the core clock of its issue, and the tick at which it
began. -/
structure Move where
  core : Nat
  team : Nat
  idx  : Nat
  tile : Nat
  off  : Nat
  out  : Nat
  spoilt : Bool
  clk    : Nat
  began  : Option Nat := none
  deriving DecidableEq, Repr

/-- A line that a memory-side atomic unit holds (R298): its number PA / 128, the core it serves, the tick at which it was
taken and the tick until which it is held. -/
structure Hold where
  line  : Nat
  core  : Nat
  since : Nat
  until_ : Nat
  deriving DecidableEq, Repr

/-- An atomic that waits at a memory-side atomic unit (R298): its number, the thread, space, address, operation, operands
and destination codes, the signature that it carries (R143), and the tick of its bundle (R299). The request of a host core only keeps
its place: its word issues when the line is its. -/
structure AtomReq where
  num   : Nat
  slice : Nat
  bank  : Nat
  tid   : ThreadId
  core  : Nat
  sp    : Space
  va    : Nat
  pa    : Nat
  op    : Nat
  b     : Word
  c     : Word
  dst   : List Nat
  sig   : Option Sig := none
  clk   : Nat := 0
  deriving DecidableEq, Repr

/-- A walker (R250): its slice and number, launch, range and skip count. -/
structure Walker where
  slice  : Nat
  num    : Nat
  launch : Nat
  cur    : Nat
  fin    : Nat
  skip   : Nat
  deriving DecidableEq, Repr

/-- A launch (R246-R261): the 32 record words, its context and queue, sequence number, START, progress, flags, the
error that stands (R260), the record that its constant read or signal write waits on and whether the signal is given up (R248,
R261), cores refused a split and the tick at which they repeat (R255), split requests that are neither served nor refused, oldest first
(R257), sealed walker states (R257), the quads whose constant read waits on a record, the tick at which it ended with an error
(R244), the quads that have read its constant segment (R248), and the pool frame of its sealed image with what it held then (R386). -/
structure Launch where
  words    : List Word
  eid      : Nat
  guest    : Byte
  lead     : Nat
  queue    : Nat
  seq      : Nat
  start    : Option Nat := none
  credit   : Nat := 0
  doneT    : Nat := 0
  spl      : Bool := false
  pre      : Bool := false
  fix      : Bool := false
  error    : Option Word := none
  waits    : Option Nat := none
  mute     : Bool := false
  noRange  : List Nat := []
  retry    : List (Nat × Nat) := []
  splits   : List Nat := []
  consts   : List (Nat × Nat) := []
  ended    : Option Nat := none
  sealedW  : List (Nat × Nat × Nat) := []
  quads    : List Nat := []
  image    : Option (List Nat × List Host.Cell × List Nat) := none
  deriving DecidableEq, Repr

/-- A queue entry (R342-R347): its sequence number, command, address, record (empty until it is read), dependence list (none until it
is read), the error found before it started, whether it writes no signal and counts nothing, or only writes no signal, the record
it is held on, and whether it has started. -/
structure Entry where
  seq    : Nat
  mark   : Bool
  va     : Dword
  words  : List Word
  deps   : Option (List (Nat × Word))
  error  : Option Word
  blind  : Bool
  mute   : Bool
  heldOn : Option Nat
  begun  : Bool
  deriving DecidableEq, Repr

/-- A SIMT queue of a partition (R338, R340): its owner and guest, its number within the enclave, entries, sequence
counter, stopped bit, the kicks that wait to be taken (R342), and the signatures that its signals have carried (R347). -/
structure SimtQ where
  owner   : Nat
  guest   : Byte
  index   : Nat
  entries : List Entry := []
  seq     : Nat := 0
  stopped : Bool := false
  held    : List (ThreadId × Dword) := []
  sig     : Sig := 0
  deriving DecidableEq, Repr

/-- A sealed host thread, or the EEXIT record of its save page (R215-R217). -/
inductive SavePage where
  | empty
  | exited (w : Word) (cb : Dword)
  | thread (t : Thread)
  deriving DecidableEq, Repr

/-- A sealed team with its threads, matrix work, logged accesses, drains and items (Table 20.2), and what its slice's save pool held when
it was sealed: its frames there, the bytes listed and the lines whose tags fail (R386). -/
structure TeamImage where
  num     : Nat
  team    : Team
  threads : List (Nat × Thread)
  ops     : Tab MxOp
  passes  : List Pass
  bufs    : List BBuf
  reads   : List (Nat × Nat × Nat)
  log     : List LogEntry
  drains  : List Drain
  items   : List (Nat × List Word × Nat)
  pool    : List Nat × List Host.Cell × List Nat := ([], [], [])
  deriving DecidableEq, Repr

/-- A soft request or a forced halt that is not complete (R383, R384): the cores it names and its deadlines in nanoseconds; a halt
by ACT 2 has no second one of its own. -/
structure Soft where
  cores  : List Nat
  g1     : Nat
  g2     : Option Nat
  deriving DecidableEq, Repr

/-- A page record of a shard (R433): TYPE 1-4, VA, PERM, version and body. -/
structure PageRec where
  ty      : Nat
  va      : Nat
  perm    : Nat
  version : Nat
  body    : List Byte
  deriving DecidableEq, Repr, Inhabited

/-- What a checkpoint or a migration stream carries (R433, R435): the manifest's numbers, the pages, the sealed teams and launches, the
queues, the save pages with their event counters, the copies of host threads, the energy entries by core, the count of evictions, the attestation entry, the context
objects, RVA, the paging key, and the digests of the shards. -/
structure CkImage where
  step     : Nat
  ckseq    : Nat
  tsaved   : Nat
  tsv      : Nat
  pages    : List PageRec
  teams    : List TeamImage
  launches : Tab Launch
  queues   : List SimtQ
  saves    : Tab SavePage
  chans    : Tab (Tab Chan)
  counters : Tab Nat
  energy   : Tab (Nat × Bool)
  evicts   : Nat
  seq      : Nat
  data     : List Byte
  bars     : Tab BarObj
  rva      : Nat
  paging   : BitVec 256
  digests  : List (BitVec 256)
  deriving DecidableEq, Repr, Inhabited

/-- The statuses of Table 25.3. -/
inductive CkStatus where
  | ok | badreq | badstate | notallowed | nores | authfail | stepmismatch | busy
  deriving DecidableEq, Repr

/-- A result record that is still to be written (R436): its address, step, status and KIND. -/
structure CkResult where
  rva    : Nat
  step   : Nat
  status : CkStatus
  kind   : Nat
  deriving DecidableEq, Repr

/-- A checkpoint or restore request, or a migration command that is held (R430, R432): the enclave, the host core that asked, its DATA,
whether its halt has begun, whether it is a migration outward or inward and with which package, and the result of one whose work is over. -/
structure CkJob where
  eid     : Nat
  restore : Bool
  host    : Nat
  data    : List Byte
  began   : Bool := false
  move    : Option (Bool × Nat) := none
  result  : Option CkResult := none
  deriving DecidableEq, Repr

/-- A migration of an enclave (R441, R442): outward or inward, the peer package, and how far it has come: 0 streaming,
1 READY sent or received, 2 held until the peer's fate is known. -/
structure Migr where
  out   : Bool
  pkg   : Nat
  stage : Nat
  image : Option CkImage
  deriving DecidableEq, Repr

/-- An enclave (R212, R353 and the chapters after): identity, policy with the device measurements that it lists (R376), frames and roots,
threads' save pages, context barrier objects, keys, counters, pre-emption, time and checkpoint state, the digest of its sealed images
that thread 0's save page holds beside the halt count (R386), and the permissions of its evicted pages by their VA page (R433). -/
structure Encl where
  failed   : Bool := false
  guest    : Byte := 0
  slot     : Byte := 0
  key      : Nat := 0
  newSlot  : Option Byte := none
  ctl      : Word := 0
  policy   : BitVec 256 := 0
  meas     : BitVec 256 := 0
  ecd      : List Byte := []
  threads  : Nat := 0
  entry    : Dword := 0
  stack    : Dword := 0
  roots    : Tab Nat := []
  saves    : Tab SavePage := []
  savePas  : List Nat := []
  barPage  : Option Nat := none
  bars     : Tab BarObj := []
  att      : Nat := 0
  seq      : Nat := 0
  data     : List Byte := []
  lead     : Nat := 0
  queues   : List Nat := []
  chans    : Tab (Tab Chan) := []
  paging   : BitVec 256 := 0
  export_  : BitVec 256 := 0
  save     : BitVec 256 := 0
  halts    : Nat := 0
  evicts   : Nat := 0
  weight   : Nat := 1
  soft     : Option Soft := none
  halted   : Bool := false
  ordered  : Bool := false
  stay     : Bool := false
  images   : List TeamImage := []
  offr     : Nat := 0
  tsaved   : Option Nat := none
  tsvBase  : Nat := 0
  tsvAt    : Option Nat := none
  notice   : Option Nat := none
  ckseq    : Nat := 0
  migr     : Option Migr := none
  devices  : List (BitVec 256) := []
  digest   : Option (BitVec 256) := none
  evPerms  : Tab Nat := []
  deriving DecidableEq, Repr

/-- A metering entry for one enclave on one core (R393, R396): the live counter and its SAT, the table entry and its, and the clock of
the last charge, with the sum of the two as it stood at that clock's start (R413). -/
structure Meter where
  live : Nat := 0
  sat  : Bool := false
  tab  : Nat := 0
  tsat : Bool := false
  clk  : Nat := 0
  start : Nat := 0
  deriving DecidableEq, Repr

/-- A triplet's status (R415-R418): resyncs, last dissenting copy (3 for none), DUPLEX, STOP, and the clock in which its last resync
began. -/
structure Trip where
  resync : Nat := 0
  last   : Nat := 3
  duplex : Bool := false
  stop   : Bool := false
  since  : Nat := 0
  deriving DecidableEq, Repr

/-- The firmware tandem (R423, R424, R445): the active complex, whether the standby serves, simplex, failure, the live update that runs,
its RESULT, the state table's version, the fused rollback minimum, the rollback number that the active image commits at the next boot,
the active image's digest (none for the image of the first boot, whose digest is `Config.identityDigest 14`), and the lead slices whose
quiescent boundary the update has asked for. The rest of the state table is the registers and lists of `Anchor`, `Encl.weight` and
`State.retired`, which change as the standby acknowledges. -/
structure Tandem where
  activeB : Bool := false
  standby : Bool := true
  simplex : Bool := false
  failed  : Bool := false
  update  : Option (BitVec 64) := none
  result  : Nat := 0
  version : Nat := 0
  minRoll : Nat := 0
  commit  : Option Nat := none
  digest  : Option (BitVec 256) := none
  quiet   : List Nat := []
  deriving DecidableEq, Repr

/-- An SPDM session (R448): responder, link or migration session, and the nanosecond of its last message. -/
structure Session where
  num   : Nat
  relay : Bool
  done  : Bool
  last  : Nat
  deriving DecidableEq, Repr

/-- An SPDM or management response as it leaves the root of trust (R446, R449). -/
structure SpdmOut where
  relay   : Bool
  session : Option Nat
  bytes   : List Byte
  deriving DecidableEq, Repr

/-- A TDISP device interface (R376). -/
inductive TdiState where
  | unlocked | locked | run | error
  deriving DecidableEq, Repr

/-- The interface numbered 65,536 x port + PCIe requester ID: its state, the enclave and guest that it is bound to, its measurements, and
the model's number of the keys of its IDE stream. -/
structure Tdi where
  state : TdiState := .unlocked
  eid   : Nat := 0
  guest : Byte := 0
  meas  : BitVec 256 := 0
  ide   : Option Nat := none
  deriving DecidableEq, Repr

/-- A device request or a link transfer that has been submitted (R318, R376, R377): the request, the physical pieces, with their frames
pinned, the record whose answer the submission waits for, and whether it comes over a link. -/
structure Dma where
  tdi   : Nat
  tbit  : Bool
  va    : Nat
  write : Bool
  data  : List Byte
  sp    : Space
  at_   : List (Nat × Nat)
  waits : Option Nat := none
  link  : Bool := false
  deriving DecidableEq, Repr

/-- A package link (R455) and its streams (R377): the flit counter of each stream and whether it is still open, the secret of the session with
the peer's root of trust while the link is up, and the source and destination EIDs of each stream, whose number stands for both where it
is not listed. An outgoing stream is numbered from 4,096 on. -/
structure Link where
  up      : Bool := false
  peer    : Nat := 0
  streams : Tab (Nat × Bool) := []
  pairs   : Tab (Nat × Nat) := []
  secret  : Option (BitVec 256) := none
  deriving DecidableEq, Repr

/-- A slice's power state (R452, R453): THR, STATE, POINT, the effective point, the STATE that a change under way will set, queued
writes, and the nanosecond from which the throttle may step again. -/
structure Power where
  thr    : Nat := 0
  state  : Nat := 0
  point  : Nat := 0
  eff    : Nat := 0
  change : Option Nat := none
  queue  : List Nat := []
  next   : Nat := 0
  deriving DecidableEq, Repr

/-- The anchor die's registers (Tables 14.x, 19.9, 20.1, 24.1, 25.1 and 26.5). -/
structure Anchor where
  frtab   : Dword := 0
  frwt    : Tab Nat := []
  frlost  : Nat := 0
  injtag  : Option (BitVec 42) := none
  part    : Tab Dword := []
  resize  : Tab Dword := []
  gptab   : Dword := 0
  preempt : BitVec 18 := 0
  preBusy : Bool := false
  quadsvc : BitVec 17 := 0
  ceown   : Tab Dword := []
  ceNext  : Tab Dword := []
  slsel   : Dword := 0
  waymask : Tab (BitVec 16) := []
  share   : Tab (BitVec 6) := []
  blkmove : Dword := 0
  blkBusy : Bool := false
  blkStat : Nat := 0
  blkDone : Nat := 0
  svpool  : Tab Dword := []
  enqsel  : Dword := 0
  enqval  : Dword := 0
  trsel   : Dword := 0
  eccsel  : Dword := 0
  eccCnt  : Tab (Nat × Nat) := []
  rascfg  : Dword := 0
  rasstat : BitVec 7 := 0
  cksel   : Dword := 0
  ckLast  : Tab (Nat × Nat) := []
  ckirq   : Dword := 0
  ckarea  : Tab Dword := []
  ckpool  : Tab Dword := []
  thrcfg  : Dword := 0x00690000
  sevsel  : Dword := 0
  sevsrc  : Tab Nat := []
  sevcnt  : Tab Nat := []
  pciecfg : Tab Dword := []
  pkgnum  : BitVec 15 := 0
  spdmBuf : Option Nat := none
  spdmHeld : Option SpdmReq := none
  deriving DecidableEq, Repr

/-- What the words of one chain share (R70, R79): the word index of its first word, the registers, predicates and FPC as they
stood before it, the register codes (128 + p for a predicate) that its earlier words wrote, the flags that they raised (R96), the first trap raised so
far with its order in Table 3.5, its value, the word index of the word that raised it and whether a control
transfer raised it at its target, whether a word of the chain was not ready, whether its transfer waits for the words of its target's packet (R77),
whether the word runs alone to raise its trap, and the system register writes that take effect after the chain (R207). -/
structure ChainCtx where
  first : Word
  regs  : Tab Word
  preds : Byte
  fpc   : Word
  wrote : List Nat := []
  raised : BitVec 5 := 0
  trap  : Option (Nat × Trap × Dword × Word × Bool) := none
  held  : Bool := false
  parked : Bool := false
  solo  : Bool := false
  sys   : List (Nat × Word) := []
  deriving DecidableEq, Repr

/-- Whose turn it is: a step of an agent; a thread, which issues its next chain after `delay` more clocks of its own kind
(the picker's delays, R72), or for a SIMT thread its core's picker, which makes its choice; the bundle that a picker has chosen (R237),
with the order of its accesses; a later thread of that bundle, with its lane, launch and word index; a thread whose next plain global
access reaches memory later than it issues (R264); an ST.D of the current thread to a device address, which takes effect (R125); or a SIMT
thread whose next word is not fetched yet, and its arrival (R240). -/
inductive Turn where
  | event (e : Instr)
  | thread (t : ThreadId) (delay : Nat)
  | bundle (core : Nat) (order : List Nat) (l : List ThreadId)
  | member (core lane launch : Nat) (w : Word) (t : ThreadId)
  | late (t : ThreadId)
  | store (pa : Nat) (v : Dword)
  | unfetched (t : ThreadId)
  | fetched (t : ThreadId)
  deriving DecidableEq, Repr

/-- The reasons a step can stop with a fault. -/
inductive Fault where
  /-- Raised by `step` when the turn names a SIMT thread that is not resident, or a host core above 95: no such unit
  exists (R1, R228). Safe: the machine stops where no hardware thread would run. -/
  | noSuchThread
  deriving DecidableEq, Repr

/-- The reasons a step can be refused. -/
inductive Refusal where
  /-- Raised by an arm of `exec` whose instruction has no meaning yet. Safe: nothing runs. -/
  | notModelled (mnemonic : String)
  deriving DecidableEq, Repr

/-- The state of the module. -/
structure State where
  /-- The thread that the next word of a program issues from, and its state; every other thread is in `threads`. -/
  cur     : ThreadId := .host 0
  th      : Thread := {}
  threads : List (ThreadId × Thread) := []
  /-- The turns of agents and threads to come; with none, the current thread goes on (assumption 3). -/
  agenda  : List Turn := []
  /-- Time since module reset in ticks of `Config`, the counter of the free values, and numbers given out. -/
  time    : Nat := 0
  fresh   : Nat := 0
  serial  : Nat := 1
  keysMade : Nat := 0
  chain   : Option ChainCtx := none
  hosts   : Tab HostCore := []
  teams   : Tab Team := []
  launches : Tab Launch := []
  walkers : List Walker := []
  /-- Command processors by lead slice: queues by number (256 x slice + q), paused (R350), stopped (R349). -/
  queues  : Tab SimtQ := []
  paused  : List Nat := []
  /-- The weighted cycle of the command processors (R348), by 16 x lead slice + PRI for starts and 8 more for placements: the enclave whose
  turn it is, and how many entries it has left. -/
  turns   : Tab (Nat × Nat) := []
  /-- Memory: plaintext bytes by physical address; an unlisted byte reads 0 (assumption 5). -/
  mem     : List Host.Cell := []
  lines   : List Line := []
  clines  : List Line := []
  ilines  : List Line := []
  l2      : List L2Line := []
  tlb     : List Tlb := []
  pots    : Tab Pot := []
  ctrs    : Tab Ctr := []
  nodes1  : Tab Ctr := []
  nodes2  : Tab Ctr := []
  roots   : Tab Nat := []
  /-- Crypto lines (PA / 64) whose stored tag does not verify (R367, R375). -/
  badTags : List Nat := []
  /-- Lines (PA / 64) of the reserved regions whose stored tag does not verify under the module integrity key (R354, R370). -/
  badMeta : List Nat := []
  /-- The sweeps that run, by frame (R372). -/
  sweeps  : Tab Sweep := []
  homeSig : Tab Sigs := []
  slots   : Tab KeySlot := [(0, { loaded := true })]
  gkeys   : List Nat := []
  encls   : Tab Encl := []
  meters  : Tab Meter := []
  evcnt   : Tab Nat := []
  cores   : Tab Core := []
  quads   : Tab Quad := []
  ops     : Tab MxOp := []
  drains  : List Drain := []
  moves   : List Move := []
  /-- The threads whose requests the stopped enclave controller holds, in order of arrival (R418). -/
  ctlQ    : List ThreadId := []
  log     : List LogEntry := []
  holds   : List Hold := []
  atomQ   : List AtomReq := []
  records : List Queued := []
  outst   : List Outst := []
  ringSeq : Tab Nat := []
  /-- The ring that the fault unit serves in its round, and the records it may still receive there (R322). -/
  ringNow : Option (Nat × Nat) := none
  /-- The channel that each copy engine served last (R295). -/
  ceLast  : Tab Nat := []
  /-- Frames in SCRUB, with the destroyed enclave that each belonged to, or 0 (R219). -/
  scrubs  : List (Nat × Nat) := []
  pins    : Tab Nat := []
  reg     : Anchor := {}
  trips   : Tab Trip := []
  tandem  : Tandem := {}
  retired : List Nat := []
  power   : Tab Power := []
  sessions : List Session := []
  spdmOut : List SpdmOut := []
  booted  : Bool := true
  lmsTop  : Nat := 1
  lmsLeft : Nat := 1024
  links   : Tab Link := []
  tdis    : Tab Tdi := []
  dmas    : List Dma := []
  /-- Checkpoint and restore requests in the order they came (R432), and what the checkpoints formed here hold. -/
  ckJobs  : List CkJob := []
  sealed  : List CkImage := []
  deriving DecidableEq, Repr

/-- The module right after module reset (R457): host core 0 of slice 0 runs at level H at word 0, every other host core is
stopped, one partition of all twelve slices is enabled, slot 0 is loaded; quads 88-95 of each slice are fused off. -/
def State.reset : State :=
  { threads := (List.range 95).map fun n => (.host (n + 1), { wait := .stopped })
    reg := { part := [(0, 0x4E2007D003E80C01)] }
    quads := ((List.range 12).map fun s => (List.range 8).map fun q => (96 * s + 88 + q, { out := true, removed := true })).flatten }

end Sys2Proof.Machine
end

