-- ==== Sys2Proof/Machine/Ops.lean ====
section
/-! DEFINITION. The named operations over tables, memory bytes, registers and time, taking an exception and returning
from one, and the issue of one instruction word with the checks of Table 3.5. -/

namespace Sys2Proof.Machine

/-! Sparse tables -/

def Tab.find {α : Type} : Tab α → Nat → Option α
  | [], _ => none
  | (k, v) :: t, n => if k = n then some v else Tab.find t n

def Tab.put {α : Type} : Tab α → Nat → α → Tab α
  | [], n, x => [(n, x)]
  | (k, v) :: t, n, x => if n < k then (n, x) :: (k, v) :: t else if k = n then (n, x) :: t else (k, v) :: Tab.put t n x

def Tab.del {α : Type} : Tab α → Nat → Tab α
  | [], _ => []
  | (k, v) :: t, n => if k = n then Tab.del t n else (k, v) :: Tab.del t n

/-- A table whose unlisted entries hold `z` keeps no entry equal to `z`. -/
def Tab.set {α : Type} [DecidableEq α] (t : Tab α) (z : α) (n : Nat) (x : α) : Tab α := if x = z then t.del n else t.put n x

def Tab.getD {α : Type} (t : Tab α) (n : Nat) (z : α) : α := (t.find n).getD z

/-- Numbers strictly rising. -/
def Tab.sorted {α : Type} : Tab α → Bool
  | [] => true
  | [_] => true
  | (k, _) :: (k', v) :: t => k < k' && Tab.sorted ((k', v) :: t)

/-- A table in canonical form: numbers strictly rising and no entry equal to `z`. -/
def Tab.canon {α : Type} [DecidableEq α] (t : Tab α) (z : α) : Bool := t.sorted && t.all fun e => e.2 ≠ z

/-! Memory bytes (R16, R304): plaintext by physical address -/

/-- What an unlisted address reads as (assumption 5). -/
def Memory.blank : Byte := 0

/-- The canonical form of memory: addresses strictly rising and no entry that an unlisted address reads as. -/
def Memory.wf (m : List Host.Cell) : Bool := Tab.canon m Memory.blank

def Memory.get (m : List Host.Cell) (a : Nat) : Byte := Tab.getD m a Memory.blank

def Memory.set (m : List Host.Cell) (a : Nat) (b : Byte) : List Host.Cell := Tab.set m Memory.blank a b

/-- Consecutive bytes, lowest address first. -/
def Memory.setAll (m : List Host.Cell) (a : Nat) : List Byte → List Host.Cell
  | [] => m
  | b :: bs => Memory.setAll (Memory.set m a b) (a + 1) bs

def Memory.bytes (m : List Host.Cell) (a n : Nat) : List Byte :=
  let near := m.filter fun c => a ≤ c.1 && c.1 < a + n
  (List.range n).map fun i => Memory.get near (a + i)

/-- Zero-fill. -/
def Memory.clear (m : List Host.Cell) (a n : Nat) : List Host.Cell := m.filter fun c => !(a ≤ c.1 && c.1 < a + n)

/-- Little-endian value of bytes. -/
def leNat : List Byte → Nat
  | [] => 0
  | b :: bs => b.toNat + 256 * leNat bs

/-- `n` little-endian bytes of a value. -/
def leBytes : Nat → Nat → List Byte
  | 0, _ => []
  | n + 1, v => BitVec.ofNat 8 v :: leBytes n (v / 256)

def Memory.u64 (m : List Host.Cell) (a : Nat) : Nat := leNat (Memory.bytes m a 8)
def Memory.u32 (m : List Host.Cell) (a : Nat) : Nat := leNat (Memory.bytes m a 4)

/-! Signatures beside lines and barrier objects (R143, R148) -/

/-- The signatures whose epochs have not expired: those of this epoch and the two before it. -/
def liveSigs (l : Sigs) (epoch : Nat) : Sigs := l.filter fun p => epoch < p.1 + 3

/-- Their OR. -/
def orSigs (l : Sigs) (epoch : Nat) : Sig := (liveSigs l epoch).foldl (fun g p => g ||| p.2) 0

/-- One more signature beside them. -/
def addSig (l : Sigs) (epoch : Nat) (g : Sig) : Sigs := if g = 0 then liveSigs l epoch else (epoch, g) :: liveSigs l epoch

/-! Free values -/

/-- The `k`-th open value of the current word or step. -/
def State.free (s : State) (k : Nat) : Word := Config.free s.fresh k

def State.freshen (s : State) : State := { s with fresh := s.fresh + 1 }

/-! Time -/

/-- Nanoseconds of the module's real-time count (R397). -/
def State.ns (s : State) : Nat := s.time / Config.ticksPerNs

/-- The number of the epoch of 32,768 ns (R143). -/
def State.epochNow (s : State) : Nat := s.ns / Config.epochNs

def periodOf : ThreadId → Nat
  | .host _ => Config.ticksPerHostClock
  | .simt _ _ => Config.ticksPerCoreClock

/-- One clock of the current thread's own kind (R72). -/
def State.period (s : State) : Nat := periodOf s.cur

/-! Threads, cores, launches -/

def State.onHost (s : State) : Bool := s.cur.isHost

def findThread : List (ThreadId × Thread) → ThreadId → Option Thread
  | [], _ => none
  | (k, v) :: t, i => if k = i then some v else findThread t i

def dropThread (l : List (ThreadId × Thread)) (i : ThreadId) : List (ThreadId × Thread) := l.filter fun p => p.1 ≠ i

def State.thread? (s : State) (i : ThreadId) : Option Thread := if i = s.cur then some s.th else findThread s.threads i

def State.setThread (s : State) (i : ThreadId) (t : Thread) : State :=
  if i = s.cur then { s with th := t } else { s with threads := s.threads.map fun p => if p.1 = i then (i, t) else p }

def State.modThread (s : State) (i : ThreadId) (f : Thread → Thread) : State :=
  match s.thread? i with
  | some t => s.setThread i (f t)
  | none => s

/-- Makes a thread the one whose words issue next. -/
def State.switchTo (s : State) (i : ThreadId) : Option State :=
  if i = s.cur then some s else match findThread s.threads i with
    | some t => some { s with cur := i, th := t, threads := (s.cur, s.th) :: dropThread s.threads i }
    | none => none

def State.hostCore (s : State) (n : Nat) : HostCore := Tab.getD s.hosts n {}
def State.modHost (s : State) (n : Nat) (f : HostCore → HostCore) : State :=
  { s with hosts := s.hosts.put n (f (s.hostCore n)) }
def State.modTeam (s : State) (n : Nat) (f : Team → Team) : State :=
  match s.teams.find n with
  | some t => { s with teams := s.teams.put n (f t) }
  | none => s
def State.modLaunch (s : State) (n : Nat) (f : Launch → Launch) : State :=
  match s.launches.find n with
  | some l => { s with launches := s.launches.put n (f l) }
  | none => s
def State.modEncl (s : State) (n : Nat) (f : Encl → Encl) : State :=
  match s.encls.find n with
  | some e => { s with encls := s.encls.put n (f e) }
  | none => s
def State.core (s : State) (n : Nat) : Core := Tab.getD s.cores n {}
def State.modCore (s : State) (n : Nat) (f : Core → Core) : State := { s with cores := s.cores.put n (f (s.core n)) }
def State.pot (s : State) (frame : Nat) : Pot :=
  if Config.ctreeBase ≤ frame * 4096 % 2 ^ 36 then { state := .ctree } else Tab.getD s.pots frame {}
def PotState.isEncl : PotState → Bool
  | .encl | .enclPt | .enclSave | .enclBar | .discarded | .reclaiming => true
  | _ => false

/-- Writes an ownership entry; an armed tag injection is disarmed when its frame leaves ENCL and DISCARDED (R408), and a frame that is no
longer its enclave's is swept no more (R372). -/
def State.setPot (s : State) (frame : Nat) (p : Pot) : State :=
  { s with
    pots := Tab.set s.pots {} frame p
    sweeps := if p.state.isEncl || p.state = .migrating then s.sweeps else s.sweeps.del frame
    reg := match s.reg.injtag with
      | some l => if l.toNat / 64 = frame && p.state != .encl && p.state != .discarded then { s.reg with injtag := none } else s.reg
      | none => s.reg }

/-- A SIMT core is 384 x slice + core number, a host core 4608 + its number. -/
def hostIx (n : Nat) : Nat := 4608 + n

def State.teamOf (s : State) : ThreadId → Option Team
  | .host _ => none
  | .simt t _ => s.teams.find t

def State.coreIx (s : State) (i : ThreadId) : Nat :=
  match i with
  | .host n => hostIx n
  | .simt t _ => match s.teams.find t with
    | some x => x.core
    | none => 0

/-- The slice of a core. -/
def sliceOf (core : Nat) : Nat := if core < 4608 then core / 384 else (core - 4608) / 8

/-- The launch of a thread. -/
def State.launchOf (s : State) (i : ThreadId) : Option (Nat × Launch) :=
  match s.teamOf i with
  | some t => (s.launches.find t.launch).map fun l => (t.launch, l)
  | none => none

/-- The address space of a thread (R305). -/
def State.space (s : State) (i : ThreadId) : Space :=
  match i with
  | .host n =>
    let e := match s.thread? i with
      | some t => t.eid
      | none => 0
    let c := s.hostCore n
    ⟨c.guestid.setWidth 8, e, if e = 0 then c.ptroot else 0⟩
  | .simt _ _ => match s.launchOf i with
    | some (_, l) => ⟨l.guest, .ofNat 16 l.eid, 0⟩
    | none => ⟨0, 0, 0⟩

def Level.code : Level → Nat
  | .h => 0 | .s => 1 | .u => 2 | .e => 3

def Level.ofCode : Nat → Level
  | 0 => .h | 1 => .s | 2 => .u | _ => .e

/-- The trap numbers of Table 3.6 (R80). -/
def Trap.num : Trap → Nat
  | .illegal => 1 | .priv => 2 | .stallchk => 3 | .chainhaz => 4 | .brchain => 5 | .mxhaz => 6 | .convset => 7
  | .convdup => 8 | .convorphan => 9 | .misalign => 10 | .perm => 11 | .potviol => 12 | .notpresent => 13 | .tnode => 14
  | .tnodewait => 15 | .integ => 16 | .tilefault => 17 | .barfault => 18 | .tlrfault => 19 | .keyrevoked => 20
  | .trapsw => 21 | .bkpt => 22

/-- The place in Table 3.5 of a trap that the checks before a word's own entry raise: the entry's own traps have order 7. -/
def Trap.order : Trap → Nat
  | .illegal => 2 | .priv => 3 | .chainhaz => 4 | .stallchk => 5 | _ => 7

/-! Registers and predicates -/

/-- A register file's value under a code; an unlisted register holds 0. -/
def regOf (r : Tab Word) (c : Nat) : Word := Tab.getD r c 0

def Thread.reg (t : Thread) (c : Nat) : Word := regOf t.regs c

def predOf (p : Byte) (n : Nat) : Bool := n == 0 || p.getLsbD n

def findEarly (l : List Early) (c : Nat) : Option Early := l.find? fun e => e.code == c

/-- Whether an earlier word of the chain wrote a code (R70). -/
def State.conflict (s : State) (c : Nat) : Bool :=
  match s.chain with
  | some x => x.wrote.contains c
  | none => false

/-- Whether a class 2 or class 4 result is still early (R73). -/
def State.isEarly (s : State) (c : Nat) : Bool :=
  match findEarly s.th.early c with
  | some e => s.time < e.at_
  | none => false

/-- What operand field `f` of the current word reads from a register: the value before the chain (R70); any value for a
register that the chain writes earlier (R70) or a voided l register (R62); either value of a result read too early (R75). -/
def State.readCode (s : State) (f c : Nat) : Word :=
  let base := match s.chain with
    | some x => x.regs
    | none => s.th.regs
  if s.conflict c then s.free (1024 * f + c)
  else if 0x78 ≤ c && s.th.lvoid.getLsbD (c - 0x78) then s.free (1024 * f + 256 + c)
  else match findEarly s.th.early c with
    | some e => if s.time < e.at_ && (s.free (1024 * f + 512 + c)).getLsbD 0 then e.old else regOf base c
    | none => regOf base c

/-- A predicate source, under the same rules; p0 reads as true (R62). -/
def State.readPred (s : State) (f n : Nat) : Bool :=
  let base := match s.chain with
    | some x => x.preds
    | none => s.th.preds
  if n = 0 then true
  else if s.conflict (128 + n) then (s.free (1024 * f + n)).getLsbD 0
  else match findEarly s.th.early (128 + n) with
    | some e => if s.time < e.at_ && (s.free (1024 * f + 512 + n)).getLsbD 0 then e.old.getLsbD 0 else predOf base n
    | none => predOf base n

/-- FPC as a word reads it: as it stood before its chain (R45). -/
def State.fpcIn (s : State) : Word :=
  match s.chain with
  | some x => x.fpc
  | none => s.th.fpc

/-- A 32-bit source operand. -/
def State.src (s : State) (h : Hdr) (f : Nat) : Opnd → Word
  | .zr => 0
  | .lit => h.lit
  | .bad _ => 0
  | o => s.readCode f o.code

/-- A pair source: the even register holds the low half (R61). -/
def State.src2 (s : State) (f : Nat) : Opnd → Dword
  | .zr => 0
  | o => pairOf (s.readCode f o.code) (s.readCode f (o.code + 1))

/-- A quad source (R61). -/
def State.src4 (s : State) (f : Nat) : Opnd → Qword
  | .zr => 0
  | o => pairOf (s.readCode f (o.code + 2)) (s.readCode f (o.code + 3)) ++ pairOf (s.readCode f o.code) (s.readCode f (o.code + 1))

/-- Writes a register; the l register it names is no longer void, and the poison mark goes. -/
def Thread.setReg (t : Thread) (c : Nat) (v : Word) : Thread :=
  { t with
    regs := Tab.set t.regs 0 c v
    lvoid := if 0x78 ≤ c then t.lvoid &&& ~~~(1#4 <<< (c - 0x78)) else t.lvoid
    poison := t.poison.filter (· ≠ c) }

def Thread.setPred (t : Thread) (n : Nat) (v : Bool) : Thread :=
  if n = 0 then t else { t with preds := if v then t.preds ||| (1#8 <<< n) else t.preds &&& ~~~(1#8 <<< n) }

/-- An outstanding result of some registers sets its flags only: something else now decides what the registers hold. -/
def Result.dropTo (r : Result) (codes : List Nat) : Result := if codes.contains r.code then { r with code := 0x7C, val := 0 } else r

/-- The outstanding results of some registers no longer write them. -/
def Thread.forget (t : Thread) (codes : List Nat) : Thread :=
  { t with results := t.results.map (·.dropTo codes), logged := t.logged.filter fun p => !codes.contains p.1 }

/-- The codes of the l registers. -/
def lCodes : List Nat := [0x78, 0x79, 0x7A, 0x7B]

/-- Voids the l registers (R62): a result of an earlier word that is still on its way gives them no value. -/
def Thread.voidL (t : Thread) : Thread := { t.forget lCodes with lvoid := 0xF }

/-- A result of class 2 or class 4, with what its register held before (R73, R75). -/
def State.putFixed (s : State) (l : Lat) (c : Nat) (v : Word) : State :=
  let e : Early := ⟨c, s.th.reg c, s.time + l.clocks * s.period⟩
  { s with th := { s.th.setReg c v with early := e :: s.th.early.filter (·.code != c) } }

/-- A fixed-latency result into an operand: zr discards it (R60). -/
def State.put (s : State) (l : Lat) (d : Opnd) (v : Word) : State := if d.isReg then s.putFixed l d.code v else s

def State.put2 (s : State) (l : Lat) (d : Opnd) (v : Dword) : State :=
  if d.isReg then (s.putFixed l d.code v.lo).putFixed l (d.code + 1) v.hi else s

/-- A fixed-latency predicate result; p0 ignores it (R62). -/
def State.putPred (s : State) (l : Lat) (n : Nat) (v : Bool) : State :=
  if n = 0 then s else
    let old : Word := if predOf s.th.preds n then 1 else 0
    let e : Early := ⟨128 + n, old, s.time + l.clocks * s.period⟩
    { s with th := { s.th.setPred n v with early := e :: s.th.early.filter (·.code != 128 + n) } }

/-- An interlocked result, written when the machine gets to it, with the FPC flags it sets (R45, R73). -/
def State.post (s : State) (c : Nat) (v : Word) (flags : BitVec 5 := 0) : State :=
  { s with th := { s.th with results := s.th.results ++ [⟨c, v, flags⟩] } }

/-- An interlocked result into an operand. For zr only the flags are left to write: code 0x7C. -/
def State.postTo (s : State) (d : Opnd) (v : Word) (flags : BitVec 5 := 0) : State :=
  if d.isReg then s.post d.code v flags else if flags = 0 then s else s.post 0x7C 0 flags

def State.postTo2 (s : State) (d : Opnd) (v : Dword) (flags : BitVec 5 := 0) : State :=
  if d.isReg then (s.post d.code v.lo flags).post (d.code + 1) v.hi else s.postTo d 0 flags

def State.postTo4 (s : State) (d : Opnd) (v : Qword) : State :=
  if d.isReg then
    (((s.post d.code (v.extractLsb' 0 32)).post (d.code + 1) (v.extractLsb' 32 32)).post (d.code + 2)
      (v.extractLsb' 64 32)).post (d.code + 3) (v.extractLsb' 96 32)
  else s

def State.postPred (s : State) (n : Nat) (v : Bool) (flags : BitVec 5 := 0) : State :=
  if n = 0 then (if flags = 0 then s else s.post 0x7C 0 flags) else s.post (128 + n) (if v then 1 else 0) flags

/-- The five sticky flags NV, DZ, OF, UF, NX at FPC[12:8] (Table 2.5). -/
def setFlags (fpc : Word) (f : BitVec 5) : Word := fpc ||| (f.setWidth 32 <<< 8)

/-- Writes one interlocked result (R45, R73). -/
def Thread.settleOne (t : Thread) (r : Result) : Thread :=
  let t := { t with fpc := setFlags t.fpc r.flags, early := t.early.filter (·.code != r.code) }
  if r.code < 0x7C then t.setReg r.code r.val
  else if 128 < r.code then t.setPred (r.code - 128) (r.val.getLsbD 0)
  else t

/-- Writes every outstanding interlocked result, in program order (R73). -/
def Thread.settle (t : Thread) : Thread := { t.results.foldl Thread.settleOne t with results := [] }

/-- Waits for every result of the thread (R76): nothing is outstanding and nothing is early. -/
def Thread.complete (t : Thread) : Thread := { t.settle with early := [], sts := [] }

/-- A code that a party's result is still to reach, or 0x7C, which takes none, where it is one of some codes. -/
def awayFrom (codes : List Nat) (c : Nat) : Nat := if codes.contains c then 0x7C else c

/-- Nothing that the current thread waits for writes some registers any more: no logged, late or queued access, no REFILL and no
collective. -/
def State.unbind (s : State) (codes : List Nat) : State :=
  let s : State := { s with
    log := s.log.map fun (e : LogEntry) => if e.tid = s.cur then { e with dst := e.dst.map (awayFrom codes) } else e
    atomQ := s.atomQ.map fun (e : AtomReq) => if e.tid = s.cur then { e with dst := e.dst.map (awayFrom codes) } else e }
  match s.cur with
  | .host _ => s
  | .simt team idx =>
    let s := s.modCore (s.coreIx s.cur) fun k => { k with
      asks := k.asks.map fun (a : Ask) => if a.tid = s.cur then { a with dst := awayFrom codes a.dst } else a }
    s.modTeam team fun t => { t with cvs := t.cvs.map fun p => (p.1, { p.2 with
      op := p.2.op.map fun o => { o with signs := o.signs.map fun g => if g.idx = idx then { g with dst := awayFrom codes g.dst } else g } }) }

/-- The l registers of the current thread are void (R62), whatever is still to write one. -/
def State.voidL (s : State) : State :=
  let s := s.unbind lCodes
  { s with th := s.th.voidL }

/-! Event counters and energy (R394, R396, R456) -/

def evKey (core eid n : Nat) : Nat := (core * 65536 + eid) * 8 + n

def bumpCounters (evsel : Tab Word) (code k core eid : Nat) : Nat → Tab Nat → Tab Nat
  | 0, t => t
  | n + 1, t =>
    let t := bumpCounters evsel code k core eid n t
    if (Tab.getD evsel n 0).toNat = code then
      Tab.set t 0 (evKey core eid n) ((Tab.getD t (evKey core eid n) 0 + k) % 2 ^ 48)
    else t

/-- Counts `k` events of a source code on a core for a context (R456). -/
def State.count (s : State) (core eid code k : Nat) : State :=
  match (s.core core).evsel with
  | [] => s
  | sel => { s with evcnt := bumpCounters sel code k core eid 8 s.evcnt }

/-- Counts an event of a slice source in every counter of the slice that selects it (R450, R456): counter 16 x slice + n. -/
def State.countSlice (s : State) (slice code k : Nat) : State :=
  match s.reg.sevsrc.filter fun p => p.1 / 16 = slice && p.2 = code with
  | [] => s
  | l => { s with reg := { s.reg with
      sevcnt := l.foldl (fun t p => Tab.set t 0 p.1 ((Tab.getD t p.1 0 + k) % 2 ^ 48)) s.reg.sevcnt } }

/-- The clock of a core's own kind. -/
def State.clockOf (s : State) (core : Nat) : Nat := s.time / if core < 4608 then Config.ticksPerCoreClock else Config.ticksPerHostClock

/-- A charge in clock `c`, saturating at 2^48 - 1 (R396). -/
def Meter.add (m : Meter) (c k : Nat) : Meter :=
  let m := if m.clk < c then { m with clk := c, start := m.live + m.tab } else if c < m.clk then { m with start := m.start + k } else m
  if 2 ^ 48 ≤ m.live + k then { m with live := 2 ^ 48 - 1, sat := true } else { m with live := m.live + k }

/-- The sum of the table entry and the live counter as a read in clock `c` sees it: without the charges of that clock (R413). -/
def Meter.sum (m : Meter) (c : Nat) : Nat := Nat.min (if m.clk = c then m.start else m.live + m.tab) (2 ^ 48 - 1)

/-- The counter enters the table entry, which saturates, and starts again from 0 (R393, R396). -/
def Meter.fold (m : Meter) (c : Nat) : Meter :=
  let m := m.add c 0
  let n := m.live + m.tab
  { m with live := 0, sat := false, tab := Nat.min n (2 ^ 48 - 1), tsat := m.tsat || m.sat || 2 ^ 48 ≤ n }

/-- Adds to a context's energy counter on a core in a clock of the core (R394, R395). -/
def State.chargeAt (s : State) (core eid k c : Nat) : State :=
  let m : Meter := Tab.getD s.meters (core * 65536 + eid) {}
  { s with meters := s.meters.put (core * 65536 + eid) (m.add c k) }

/-- The same in the present clock. -/
def State.charge (s : State) (core eid k : Nat) : State := s.chargeAt core eid k (s.clockOf core)

/-- The weights of Table 20.3. -/
def weight : Nat → Nat
  | 0 => 8 | 1 => 16 | 2 => 40 | 3 => 24 | 4 => 80 | 5 => 32 | 6 => 12 | _ => 64

/-- The pipe of a word (Table 1.3): a host core's copies issue to MEM. -/
def State.pipeOf (s : State) (i : Instr) : Pipe := if s.onHost && i.isCopy then .mem else i.info.pipe

/-! Fault records (R315, R319, R320) -/

/-- The agent number of a thread, Table 14.7. -/
def State.agentOf (s : State) (i : ThreadId) : Nat × Nat :=
  match i with
  | .host n => (1, n / 8 * 2 ^ 28 + (384 + n % 8) * 2 ^ 19)
  | .simt t idx => match s.teams.find t with
    | some x => (0, x.core / 384 * 2 ^ 28 + x.core % 384 * 2 ^ 19 + x.slot * 2 ^ 15 + idx / 32 * 2 ^ 10 + idx % 32 * 2 ^ 5)
    | none => (0, 0)

def homeOf (va : Nat) : Nat := va / 2 ^ 52 % 16

/-! Taking an exception and returning from one -/

/-- The requests for lines without the place that a host core has among them: the word that waits there has gone. -/
def State.atomsBut (s : State) : ThreadId → List AtomReq
  | .host n => s.atomQ.filter fun r => r.tid ≠ .host n
  | .simt _ _ => s.atomQ

/-- A held kick store is withdrawn, and is the restart point in place of `restart` (R343); so is a request that the enclave controller
holds. -/
def State.withdrawKick (s : State) (i : ThreadId) (restart : Word) : State × Word :=
  let s := { s with atomQ := s.atomsBut i, ctlQ := s.ctlQ.filter (· ≠ i) }
  match s.thread? i with
  | some t => match t.kick with
    | some (w, lead, q, _) =>
      let qs := match s.queues.find (256 * lead + q) with
        | some x => s.queues.put (256 * lead + q) { x with held := x.held.filter fun p => p.1 ≠ i }
        | none => s.queues
      ({ s.modThread i (fun t => { t with kick := none }) with queues := qs }, w)
    | none => (s, restart)
  | none => (s, restart)

def HostCore.bank (c : HostCore) (high : Bool) : Bank := if high then c.bankH else c.bankS
def HostCore.setBank (c : HostCore) (high : Bool) (b : Bank) : HostCore :=
  if high then { c with bankH := b } else { c with bankS := b }

/-- TSTAT of Table 9.2. -/
def tstat (enc pie ie : Bool) (pl : Nat) : Word := .ofNat 32 (bit enc * 16 + bit pie * 8 + bit ie * 4 + pl)

/-- TVEC with [5:0] as 0. -/
def Bank.vector (b : Bank) : Dword := b.tvec &&& ~~~(0x3F : Dword)

/-- A trap entry into a bank of host core `n` (R200, R206): results complete, the restart point, code base, cause, value,
level and IE are saved with the SYSRD latch, and the thread goes on at word 0 of TVEC at the bank's level. -/
def State.enterBank (s : State) (n : Nat) (high : Bool) (cause : Word) (value : Dword) (restart : Word) : State :=
  match s.withdrawKick (.host n) restart with
  | (s, restart) => match s.thread? (.host n) with
    | none => s
    | some t =>
      let t := t.complete
      let c := s.hostCore n
      let b := c.bank high
      let b' := { b with
        tepc := restart, tecb := t.cb, tcause := cause, tval := value, latch := t.latch
        tstat := tstat false (b.tstat.getLsbD 2) false t.level.code }
      (s.setThread (.host n) { t with level := if high then .h else .s, cb := b.vector, w := 0, latch := none }).modHost n
        fun c => c.setBank high b'

/-- Where a core's counters of an enclave thread stand while it is sealed (R456): a core number of its own. -/
def saveIx (eid idx : Nat) : Nat := 8192 + eid * 64 + idx

/-- Moves a context's eight event counters from one core number to another (R456). -/
def moveCounters (t : Tab Nat) (eid src dst : Nat) : Tab Nat :=
  (List.range 8).foldl (fun t n => Tab.set (Tab.set t 0 (evKey dst eid n) (Tab.getD t (evKey src eid n) 0)) 0 (evKey src eid n) 0) t

/-- Where a thread goes on when it is taken out of a BARWAIT: at the BARWAIT, whose wait resumes (R151). -/
def Thread.restartAt (t : Thread) (restart : Word) : Word := match t.wait with
  | .barrier _ _ w _ => w
  | _ => restart

/-- Where a sealed host thread goes on: at a held kick store, which is withdrawn (R343), or where it is taken out. -/
def Thread.sealWord (t : Thread) (restart : Word) : Word := match t.kick with
  | some (w, _) => w
  | none => t.restartAt restart

/-- The thread as the save page keeps it (R217, Table 20.2). -/
def Thread.sealAt (t : Thread) (restart : Word) : Thread :=
  { t.complete with w := t.sealWord restart, kick := none, wait := .none }

/-- A host thread whose every register, FPC and CHK are zero (R216, R217). -/
def Thread.blankHost (t : Thread) : Thread :=
  { t with
    regs := [], preds := 1, fpc := 0, chk := 0, eid := 0, lvoid := 0, early := [], results := [], latch := none
    owed := none, poison := [], gathered := 0, pending := none, fences := [], kick := none, wait := .none }

/-- An asynchronous exit of the enclave thread on host core `n` (R217): sealed into its save page (or not, at EDESTROY and a
kill), zeroed, and handed to the S bank with KIND 3. Loads of it that have not returned have no thread any more; its stores go on. -/
def State.asyncExit (s : State) (n : Nat) (num : Nat) (sealIt : Bool) (restart : Word) : State :=
  match s.thread? (.host n) with
  | none => s
  | some t => match s.withdrawKick (.host n) restart with
    | (s, _) =>
      let c := s.hostCore n
      let b := c.bankS
      let s := match c.entered with
        | some (eid, idx) => if sealIt then
            { s.modEncl eid (fun e => { e with saves := e.saves.put idx (.thread (t.sealAt restart)) }) with
              evcnt := moveCounters s.evcnt eid (hostIx n) (saveIx eid idx) }
          else s
        | none => s
      let b' := { b with
        tepc := c.retW, tecb := c.retCb, tcause := .ofNat 32 (0x300 + num), tval := 0, latch := none
        tstat := tstat true (b.tstat.getLsbD 2) false 1 }
      let s : State := { s with log := s.log.filter fun e => e.tid ≠ .host n || e.kind = .write }
      (s.setThread (.host n) { t.blankHost with level := .s, cb := b.vector, w := 0 }).modHost n
        fun c => { c with bankS := b', entered := none }

/-- A terminal trap of a SIMT thread (R80, R244, R245): its launch ends with ERROR 0x100 + the trap number, the first such
number. -/
def State.endLaunch (s : State) (launch : Nat) (error : Word) : State :=
  s.modLaunch launch fun l => match l.error with
    | some _ => l
    | none => { l with error := some error, ended := some s.time }

/-- Whether a launch that has ended with an error still lets its threads issue: for 4,096 core clocks (R244). -/
def State.lingers (s : State) (l : Launch) : Bool := match l.ended with
  | some t => s.time ≤ t + 4096 * Config.ticksPerCoreClock
  | none => false

def trapError (t : Trap) : Word := .ofNat 32 (0x100 + t.num)

/-- An enclave becomes FAILED (R353, R374): its queues stop, its launches end, its entered host threads leave. -/
def State.failEnclave (s : State) (eid : Nat) : State :=
  match s.encls.find eid with
  | none => s
  | some e =>
    if e.failed then s else
    let now := s.ns
    -- TSV stands still while the enclave is FAILED (R398).
    let s := s.modEncl eid fun e => { e with
      failed := true, tsvAt := none, tsvBase := e.tsvBase + match e.tsvAt with
        | some t => now - t
        | none => 0 }
    let s := { s with
      queues := e.queues.foldl (fun q n => match q.find n with
        | some x => q.put n { x with stopped := true, entries := [], held := [] }
        | none => q) s.queues
      launches := s.launches.map fun p =>
        if p.2.eid = eid then (p.1, { p.2 with error := some (p.2.error.getD 0x110), ended := none }) else p }
    (List.range Config.hosts).foldl (fun s n => match (s.hostCore n).entered with
      | some (x, _) => if x = eid then
          match s.thread? (.host n) with
          | some t => s.asyncExit n 16 true t.w
          | none => s
        else s
      | none => s) s

/-- Taking a trap of Table 3.6 (Table 9.1, R80): terminal in a SIMT thread, which issues nothing more; on a host core an asynchronous exit at E and an
entry into the bank of the level otherwise. -/
def State.takeTrap (s : State) (t : Trap) (value : Dword) (restart : Word) : State :=
  match s.cur with
  | .simt _ _ => match s.launchOf s.cur with
    | some (n, _) => { s with th := { s.th with wait := .stopped } }.endLaunch n (trapError t)
    | none => s
  | .host n => match s.th.level with
    | .e => s.asyncExit n t.num true restart
    | .h => s.enterBank n true (.ofNat 32 t.num) value restart
    | _ => s.enterBank n false (.ofNat 32 t.num) value restart

/-- The return from a trap bank (R202, R206): the level, IE, code base, word index and SYSRD latch that the entry saved; the
l registers are void. -/
def State.trapReturn (s : State) (n : Nat) (high : Bool) : State :=
  let b := (s.hostCore n).bank high
  let s := s.unbind lCodes
  let t := s.th.complete
  ({ s with th := { t.voidL with level := Level.ofCode (b.tstat.toNat % 4), cb := b.tecb, w := b.tepc, latch := b.latch } }).modHost n
    fun c => c.setBank high { b with
      tstat := (b.tstat &&& ~~~(4 : Word)) ||| (if b.tstat.getLsbD 3 then 4 else 0), latch := none }

/-! The issue of one word -/

/-- What the effect of a word comes to: it takes effect and the thread goes on after it; it transfers control within the
code base; it has set the program counter itself; it traps; its transfer traps at the target (R77); it is not ready and
nothing changes; it is not ready and has left a fault record behind (R57); or its transfer waits for a word of its target's packet (R77). -/
inductive Res where
  | ok (s : State)
  | goto (target : Word) (s : State)
  | moved (s : State)
  | trap (t : Trap) (value : Dword) (s : State)
  | targetTrap (t : Trap) (value : Dword) (s : State)
  | hold
  | stall (s : State)
  | targetStall (s : State)

/-- ILLEGAL from the word itself (R60-R69, R229, R230, Table 3.7). -/
def illegalWord (i : Instr) (s : State) : Bool :=
  let n := i.info
  !n.ok || n.uses.any (fun u => !u.ok s.th.allot) || 1 < (n.uses.filter (·.opnd == .lit)).length
    || (s.onHost && (n.host == .illegal || (match i with | .id _ _ f => 4 ≤ f.toNat && f.toNat ≤ 7 | _ => false)))
    || i.sysAccess == some none

/-- The level of the current thread; a SIMT thread is always at E (R198). -/
def State.level (s : State) : Level := if s.onHost then s.th.level else .e

/-- PRIV from the availability columns of Table 3.7 and Table 9.4 (R29, R30, R206, R207). -/
def privWord (i : Instr) (s : State) : Bool :=
  (if s.onHost then match i.info.host with
    | .illegal => false
    | .enclave => s.th.level != .e
    | .upTo l => l.code < s.th.level.code
  else i.info.simt == .priv)
  || match i.sysAccess with
    | some (some l) => l.code < s.level.code
    | _ => false

/-- CHK[0] (R74). -/
def State.checking (s : State) : Bool := s.th.chk.getLsbD 0

/-- The checks of order 2, 3 and 5 of Table 3.5, and the MXHAZ check on written registers (Table 8.2). -/
def gate (i : Instr) (s : State) : Option Trap :=
  if illegalWord i s then some .illegal
  else if privWord i s then some .priv
  else if s.checking && i.readCodes.any s.isEarly then some .stallchk
  else if s.checking && s.th.mx.any (fun m => meets m.codes i.writeCodes) then some .mxhaz
  else if meets s.th.poison i.readCodes then some .integ
  else none

/-- The words that read the current tile, which a pending REFILL is about to give (R159, R160). -/
def readsTile : Instr → Bool
  | .id _ _ f => 4 ≤ f.toNat && f.toNat ≤ 7
  | _ => false

/-- Arrivals at a barrier object (R141, R151). -/
def isArrival : Instr → Bool
  | .bararv .. | .bararvx .. => true
  | _ => false

/-- The REFILLs of the current thread that wait for an item (R161). -/
def State.myAsks (s : State) : List Ask := match s.cur with
  | .host _ => []
  | i => (s.core (s.coreIx i)).asks.filter fun a => a.tid = i

/-- Whether a fence of the current thread is not complete (R141): one that has issued, or that of an LD.ACQ whose load waits in the
operand log. -/
def State.fencing (s : State) : Bool := !s.th.fences.isEmpty || s.log.any fun e => e.tid = s.cur && e.kind = .read && e.op ≠ 0

/-- The words that are requests to the enclave controller (R418). -/
def asksController : Instr → Bool
  | .ecreate .. | .eenter .. | .eexit .. | .ereport .. | .edestroy .. | .kwrap .. | .kunwrap .. | .krevoke .. | .kload .. | .potset ..
  | .potrd .. | .pmap .. | .paccept .. | .pdiscard .. | .pevict .. | .pload .. | .punmap .. => true
  | _ => false

/-- The status of a triplet by its number: 256 x KIND + 16 x SLICE + INDEX (R415). A resync ends within 2,048 clocks of its start (R417). -/
def State.trip (s : State) (n : Nat) : Trip :=
  let t : Trip := Tab.getD s.trips n {}
  if t.duplex && !t.stop && t.since + 2048 ≤ s.time / Config.ticksPerCoreClock then { t with duplex := false } else t

/-- Whether a launch has ended for its threads (R244), or a forced halt has stopped the team, or the enclave thread of a host core (R384). -/
def State.haltedTeam (s : State) : Bool :=
  (match s.launchOf s.cur with
    | some (_, l) => l.error.isSome && !s.lingers l
    | none => false)
  || (match s.teamOf s.cur with
    | some t => t.halting
    | none => false)
  || (match s.cur with
    | .host n => s.th.level == .e && (s.hostCore n).entered.any fun p => (s.encls.find p.1).any (·.halted)
    | .simt _ _ => false)

/-- The accesses of the current host thread that reach memory later than they issued (R264). -/
def State.lateOut (s : State) : Bool := s.onHost && s.log.any fun e => e.tid = s.cur

/-- Reads of event counters (R142): EVCNT0-EVCNT7, low and high (Table 9.4). -/
def readsEvents : Instr → Bool
  | .sysrd _ _ imm => 0x18 ≤ imm.toNat && imm.toNat < 0x28
  | _ => false

/-- The words after which another context runs on the core, or its trap path: they wait for every result of the thread (R76). -/
def endsContext : Instr → Bool
  | .trap .. | .bkpt .. | .ecall .. | .eret .. | .exit .. | .eenter .. | .eexit .. => true
  | _ => false

/-- Whether a word is one that the enclave controller is asked for: of a thread that may make the request. -/
def asks (i : Instr) (s : State) : Bool := asksController i && s.onHost && !illegalWord i s && !privWord i s

/-- Whether the enclave controller holds a request of the current thread (R418): its triplet has stopped, or requests that it held in the
meantime come first. -/
def State.controllerHolds (s : State) : Bool := (s.trip 768).stop || s.ctlQ.head?.any (· ≠ s.cur)

/-- Whether a word is not ready (R240): its thread waits, its fetch waits on a fault record (R57), its launch has ended, a forced
halt has stopped it (R384), it names a register whose interlocked result still waits on another party, it reads the tile of a pending
REFILL, it is a MEM-pipe word behind a held kick store or another device access (R125), it is a MEM or MX word, an arrival or a read of an
event counter behind an incomplete fence (R141, R142), or it ends a context whose accesses have not returned (R76). -/
def held (i : Instr) (s : State) : Bool :=
  s.th.fetch.isSome || (asks i s && s.controllerHolds) || s.th.wait != .none || s.haltedTeam
  || s.myAsks.any (fun a => readsTile i || i.readCodes.contains a.dst || i.writeCodes.contains a.dst)
  || s.th.logged.any (fun p => i.readCodes.contains p.1 || i.writeCodes.contains p.1)
  || ((s.th.kick.isSome || s.log.any fun e => e.tid = s.cur && e.device) && s.pipeOf i == .mem)
  || ((s.pipeOf i == .mem || i.info.pipe == .mx || isArrival i || readsEvents i) && s.fencing)
  || (endsContext i && s.lateOut)

/-- The clock of issue (R72), the end of a YIELD (R158), and the results that the word waits for (R73). -/
def begin_ (i : Instr) (s : State) : State :=
  let s := { s with time := Nat.max s.time s.th.readyAt, th := { s.th with yielded := false } }
  if s.th.results.any (fun r => i.readCodes.contains r.code || i.writeCodes.contains r.code) then { s with th := s.th.settle } else s

/-- The words whose trap is their effect (R79): they add no energy, nor does their chain (R394). -/
def trapsAsEffect : Instr → Bool
  | .trap .. | .bkpt .. => true
  | _ => false

/-- What every issued word does beside its effect: its stall count (R72), its energy (R394) and events (R456), charged to
the context it issued in. -/
def account (i : Instr) (eid : Nat) (s : State) : State :=
  let stall := match i.hdr? with
    | some h => h.s.toNat
    | none => 0
  let core := s.coreIx s.cur
  let s := { s with th := { s.th with readyAt := s.time + (1 + stall) * s.period } }
  let s := if trapsAsEffect i then s else s.charge core eid (weight i.info.eclass)
  (s.count core eid 2 1).count core eid (s.pipeOf i).event 1

/-- A register that two words of a chain write holds any value (R70), whatever results of the two are still on their way. -/
def spoilDouble (i : Instr) (s : State) : State :=
  match s.chain with
  | none => s
  | some x => i.writeCodes.foldl (fun s c =>
      if x.wrote.contains c then
        let s := s.unbind [c]
        let t := s.th.forget [c]
        if c < 128 then { s with th := t.setReg c (s.free (4096 + c)) }
        else { s with th := t.setPred (c - 128) ((s.free (4096 + c)).getLsbD 0) }
      else s) s

/-- The tile element at a row and column (R182): its key in a team's tiles. -/
def tileKey (tile row col : Nat) : Nat := 4096 * tile + 64 * row + col

/-- Any value in the given elements of a team's tiles. -/
def State.freeTiles (s : State) (team : Nat) (keys : List Nat) : State :=
  s.modTeam team fun t => { t with tiles := keys.foldl (fun m k => Tab.set m 0 k (s.free (8192 + k))) t.tiles }

/-- The keys of whole tiles, those of the two rows of a thread, and those of row pairs by number (32 x tile + home lane). -/
def tileKeys (tiles : List Nat) : List Nat := tiles.flatMap fun t => (List.range 4096).map (4096 * t + ·)
def rowKeys (tile idx : Nat) : List Nat := (List.range 128).map (tileKey tile (2 * (idx % 32)) 0 + ·)
def pairKeys (rows : List Nat) : List Nat := rows.flatMap fun r => rowKeys (r / 32) r

/-- What an outstanding operation of a thread comes to when its state is touched with checking off (Table 8.2): every element that it
produces is any value, whether its passes or its movement are still to come or have been, or the operation is still to be performed. -/
def State.spoilFor (s : State) (i : ThreadId) (m : MxOut) : State :=
  match i with
  | .host _ => s
  | .simt team idx =>
    if m.done then s.freeTiles team (if m.signed then tileKeys m.tiles else m.tiles.flatMap fun t => rowKeys t idx)
    else
      let s : State := { s with
        ops := s.ops.map fun p => if p.1 = m.op then (p.1, { p.2 with spoilt := true }) else p
        moves := s.moves.map fun x => if x.out = m.op then { x with spoilt := true } else x }
      s.modThread i fun t => { t with mx := t.mx.map fun x => if x.op = m.op then { x with spoilt := true } else x }

def State.spoilOut (s : State) (m : MxOut) : State := s.spoilFor s.cur m

/-- The row pair of a tile that a thread touches while an operation of its own is outstanding yields any value (Table 8.2), now and after
the operation's passes. -/
def State.spoilRow (s : State) (pair : Nat) (m : MxOut) : State :=
  if m.done then s else { s with
    ops := s.ops.map fun p => if p.1 = m.op then (p.1, { p.2 with rows := pair :: p.2.rows }) else p
    th := { s.th with mx := s.th.mx.map fun x => if x.op = m.op then { x with rows := pair :: x.rows } else x } }

/-- An operation whose named registers a word writes yields any value (Table 8.2, checking off). -/
def spoilMx (i : Instr) (s : State) : State :=
  (s.th.mx.filter fun m => meets m.codes i.writeCodes).foldl State.spoilOut s

/-- The word has taken effect: accounting, the next word index, a fresh counter of free values; in a chain its writes are
noted. -/
def retire (i : Instr) (eid : Nat) (target : Option Word) (s : State) : State :=
  let s := (spoilMx i (spoilDouble i (account i eid s))).freshen
  match target with
  | none => s
  | some w => { s with th := { s.th with w := w }
                       chain := s.chain.map fun x => { x with wrote := x.wrote ++ i.writeCodes } }

/-- The first instruction word after this one (R58). -/
def nextIndex (i : Instr) (s : State) : Word := s.th.w + .ofNat 32 i.length

/-- Whether an access of a thread at E has made its enclave FAILED, which takes the thread out of it (R374). -/
def State.left (s₀ s : State) : Bool := s₀.onHost && s₀.th.level == .e && s.th.level != .e

/-- The end of a word that traps: the trap is taken, unless the access that raised it made the enclave FAILED, which has
already taken the thread out of it (R374). On a host core the trap waits for the thread's accesses that have not returned (R76). -/
def State.endInTrap (s₀ s : State) (t : Trap) (v : Dword) (w : Word) : State :=
  if s₀.lateOut then s₀ else if s₀.left s then s.freshen else s.freshen.takeTrap t v w

/-- The end of a word after which its thread has left: what the word would have written goes with the enclave. -/
def State.gone (s : State) : State := { s with th := { s.th.blankHost with w := 0 } }.freshen

/-- What a trap of the issue checks does first: a host thread at E that reads a poisoned register makes its enclave
FAILED (R421). -/
def State.gateEffect (s : State) (t : Trap) : State :=
  if t == .integ && s.onHost && s.th.level == .e then s.failEnclave s.th.eid.toNat else s

/-! Any value (R10, R62, R70) -/

/-- Whether a register or predicate that the current word reads yields any value: an earlier word of the chain writes it (R70), or it is
a voided l register (R62). -/
def State.looseCode (s : State) (c : Nat) : Bool := s.conflict c || (0x78 ≤ c && c < 0x7C && s.th.lvoid.getLsbD (c - 0x78))

def loose (i : Instr) (s : State) : Bool := i.readCodes.any s.looseCode

/-- Any value in each destination of the current word, with its latency. -/
def State.anyValue (s : State) (i : Instr) : State :=
  i.writeCodes.foldl (fun s c =>
    let v := s.free (2 ^ 20 + c)
    if i.info.lat == .inter then s.post c v
    else if c < 128 then s.putFixed i.info.lat c v else s.putPred i.info.lat (c - 128) (v.getLsbD 0)) s

/-- Any value in what a word writes beside registers: the rows of an MLOAD (R182). -/
def State.anyRows (s : State) : Instr → State
  | .mload _ t _ => match s.cur with
    | .simt team idx => s.freeTiles team (rowKeys t.toNat idx)
    | .host _ => s
  | _ => s

/-- The effect of a word that reads such a source: nothing traps for it, and nothing changes but the word's destinations, which hold any
value (Table 0.5), except that a word whose address is sound stores, signs or transfers with any value. -/
def looseEffect (i : Instr) (s : State) (k : State → Res) : Res :=
  if (i.readCodes.filter s.looseCode).all i.dataCodes.contains then match k s with
    | .targetTrap _ _ _ => .ok s
    | .ok s' => .ok (if i.info.pipe == .mx then match s'.th.mx.getLast? with
        | some m => s'.spoilOut m
        | none => s' else s')
    | r => r
  else .ok ((s.anyValue i).anyRows i)

/-- What a word that has passed the issue checks comes to. -/
def perform (i : Instr) (s : State) (k : State → Res) : Res := if loose i s then looseEffect i s k else k s

/-! Issue -/

/-- A word that is alone in its chain. -/
def issueAlone (i : Instr) (s₀ : State) (k : State → Res) : State :=
  match s₀.th.owed with
  | some (t, v) => { s₀ with th := { s₀.th with owed := none } }.takeTrap t v s₀.th.w
  | none =>
    if held i s₀ then s₀ else
    let s := begin_ i s₀
    let eid := (s.space s.cur).eid.toNat
    match gate i s with
    | some t => s.endInTrap (s.gateEffect t) t i.tval s.th.w
    | none => match perform i s k with
      | .ok s' => if s.left s' then s'.gone else retire i eid (some (nextIndex i s)) s'
      | .goto w s' => retire i eid (some w) s'.voidL
      | .moved s' => retire i eid none s'
      | .trap t v s' => s.endInTrap s' t v s.th.w
      | .targetTrap t v s' => s.endInTrap s' t v s.th.w
      | .hold => s₀
      | .stall s' => s'
      | .targetStall s' => s'

/-- Notes a trap of a chain's word if it comes before every trap noted so far (R79). Of two traps of order 7 the one of the lowest slot
stands (DESIGN CHOICE, assumption 81). -/
def noteTrap (c : ChainCtx) (order : Nat) (t : Trap) (v : Dword) (w : Word) (target : Bool) : ChainCtx :=
  match c.trap with
  | some (o, _, _, w', _) =>
    if o < order || (o = order && (w' - c.first).toNat ≤ (w - c.first).toNat) then c else { c with trap := some (order, t, v, w, target) }
  | none => { c with trap := some (order, t, v, w, target) }

/-- A word of a chain of several (R69-R71, R79): its effect is kept beside those of the chain's other words, and a trap is
noted for the end of the chain. A word that runs alone to raise its trap keeps the state of the trap. The results that the chain's words
wait for are written before its first word. -/
def issueChained (c : ChainCtx) (i : Instr) (s : State) (k : State → Res) : State :=
  let eid := (s.space s.cur).eid.toNat
  let note (order : Nat) (t : Trap) (v : Dword) (target : Bool) (s' : State) : State :=
    let c' := noteTrap c order t v s.th.w target
    if c.solo then { s' with chain := some c' }
    else { s with chain := some c', th := { s.th with w := nextIndex i s } }
  match gate i s with
  | some t => note t.order t i.tval false (s.gateEffect t)
  | none => match perform i s k with
    | .ok s' => if s.left s' then s'.gone else retire i eid (some (nextIndex i s)) s'
    | .goto w s' => retire i eid (some w) s'.voidL
    | .moved s' => retire i eid none s'
    | .trap t v s' => note 7 t v false s'
    | .targetTrap t v s' => note 6 t v true s'
    | .hold => { s with chain := some { c with held := true } }
    | .stall s' => { s' with chain := some { c with held := true } }
    | .targetStall s' => { s' with chain := some { c with parked := true } }

/-- The issue of a word whose effect is `k`. -/
def issue (i : Instr) (s : State) (k : State → Res) : Host.Outcome State Fault Refusal :=
  .next (match s.chain with
    | none => issueAlone i s k
    | some c => issueChained c i s k)

/-- A step of an agent with its condition: where the condition fails the step changes nothing (assumption 4). -/
def agent (s : State) (r : Option State) : Host.Outcome State Fault Refusal :=
  .next (match r with
    | some s' => s'.freshen
    | none => s)

end Sys2Proof.Machine
end

