-- ==== Sys2Proof/Machine/Rings.lean ====
section
/-! DEFINITION. The fault unit's rings (R321, R322) and the terminal records that wait for them. -/

namespace Sys2Proof.Machine

/-! Rings (R321, R322) -/

/-- A ring control block that is enabled (Table 14.9). -/
structure Rcb where
  addr  : Nat
  base  : Nat
  head  : Nat
  tail  : Nat
  log2n : Nat
  ncore : Nat
  nsrc  : Nat
  deriving DecidableEq, Repr

/-- The address of ring `i`'s control block, when FRTAB names a table with a valid entry. -/
def State.rcbAddr (s : State) (i : Nat) : Option Nat :=
  let tab := s.reg.frtab.toNat
  if tab = 0 then none else
  let e := Memory.u64 s.mem (tab + 8 * i)
  if e % 2 = 1 && e / 2 ^ 48 = 0 && e % 64 = 1 then some (e / 64 * 64) else none

/-- Whether the block and its ring lie in the frames that R321 gives: HYP, or GUEST of the ring's guest. -/
def ringFrame (s : State) (ring a : Nat) : Bool :=
  let p := s.pot (a / 4096)
  if ring ≤ 1 then p.state = .hyp else p.state = .guest && p.guest.toNat = ring - 1

/-- Ring `i`, when it is not disabled (R321). -/
def State.ring (s : State) (i : Nat) : Option Rcb :=
  match s.rcbAddr i with
  | none => none
  | some a =>
    let b := Memory.u64 s.mem a
    let ctl := Memory.u32 s.mem (a + 16)
    let zero := (Memory.bytes s.mem (a + 24) 40).all (· = 0)
    let log2n := ctl % 32
    let ncore := ctl / 2 ^ 16 % 128
    let nsrc := ctl / 2 ^ 24 % 32
    let resOk := b / 2 ^ 48 = 0 && b % 4096 = 0 && ctl / 2 ^ 29 = 0 && ctl / 2 ^ 23 % 2 = 0 && ctl / 2 ^ 9 % 128 = 0
      && ctl / 32 % 8 = 0 && zero
    if resOk && ctl / 256 % 2 = 1 && 7 ≤ log2n && log2n ≤ 16 && nsrc ≠ 0 && ncore < 96 && ringFrame s i a then
      some ⟨a, b, Memory.u32 s.mem (a + 8), Memory.u32 s.mem (a + 12), log2n, ncore, nsrc⟩
    else none

/-- Whether a slice's record queue, of 64 records, has room (R322). -/
def State.recordRoom (s : State) (slice : Nat) : Bool := (s.records.filter (·.slice == slice)).length < 64

/-- A terminal record into its slice's queue; a 65th is dropped and counted, in LOST of the terminal ring while that is enabled and in
FRLOST otherwise (R322). Its DETAIL refines its CAUSE also where a retryable fault is reported as terminal (R320). -/
def State.terminalRecord (s : State) (slice : Nat) (r : FRec) : State :=
  if s.recordRoom slice then { s with records := s.records ++ [⟨slice, 1, 0, { r with cls := 2 }⟩] }
  else match s.ring 1 with
    | some x => { s with mem := Memory.setAll s.mem (x.addr + 20) (leBytes 4 (Memory.u32 s.mem (x.addr + 20) + 1)) }
    | none => { s with reg := { s.reg with frlost := Nat.min (s.reg.frlost + 1) (2 ^ 64 - 1) } }

/-- The content of a fault record (Table 14.6), CLASS retryable. -/
def faultRec (sp : Space) (kind : AccessKind) (agent : Nat × Nat) (va cause detail : Nat) : FRec :=
  ⟨1, cause, sp.guest.toNat, sp.eid.toNat, homeOf va, kind.code, agent.1, va / 4096 * 4096, agent.2, detail⟩

/-! The round of the rings (R322) -/

/-- How many records a ring receives in a round: 8 for the retryable and the terminal ring, the guest's weight otherwise, 0 counting
as 1. -/
def State.ringWeight (s : State) (ring : Nat) : Nat := if ring ≤ 1 then 8 else Nat.max 1 (Tab.getD s.reg.frwt (ring - 1) 0)

/-- Whether a ring has a record pending that it can take: it is enabled and not full. -/
def State.ringPending (s : State) (ring : Nat) : Bool := s.records.any (·.ring == ring) && match s.ring ring with
  | some x => (x.tail + 2 ^ 32 - x.head) % 2 ^ 32 ≠ 2 ^ x.log2n
  | none => false

/-- The ring that receives the next record, and how many more it may then receive in its turn: the ring whose turn it is, until it has had
its weight or has none pending, then the next by number (DESIGN CHOICE, assumption 82). -/
def State.nextRing (s : State) : Option (Nat × Nat) :=
  let turn (after : Nat) : Option (Nat × Nat) :=
    (((List.range 257).map fun k => (after + 1 + k) % 257).find? s.ringPending).map fun r => (r, s.ringWeight r - 1)
  match s.ringNow with
  | some (r, k + 1) => if s.ringPending r then some (r, k) else turn r
  | some (r, 0) => turn r
  | none => turn 256

end Sys2Proof.Machine
end

