-- ==== Sys2Proof/Machine/Translate.lean ====
section
/-! DEFINITION. Translation: address spaces and roots, page-table entries, the walk, the ownership check, the memory-side TLB,
and the physical address map (R303-R313, R339, R340, R354-R357, R363). -/

namespace Sys2Proof.Machine

/-! Addresses (R303, R304) -/

/-- VA[63:56] is zero and VA[55:52] names a slice (R123, R303). -/
def wellFormedVa (va : Nat) : Bool := va < 12 * 2 ^ 52

/-- PA regions of Table 14.1. -/
inductive Region where
  | hbm (slice : Nat)
  /-- An anchor-die register page. -/
  | regs
  /-- The kick page of queue number 256 x lead slice + q. -/
  | kick (queue : Nat)
  | reserved
  deriving DecidableEq, Repr

/-- PART s names an enabled partition (R380). -/
def State.part (s : State) (n : Nat) : Dword := Tab.getD s.reg.part n 0
def partEn (p : Dword) : Bool := p.getLsbD 0
def partSize (p : Dword) : Nat := p.toNat / 256 % 16

/-- The lead slice of the enabled partition that holds a slice, if one does. -/
def State.leadOf (s : State) (slice : Nat) : Option Nat :=
  (List.range 12).find? fun l => partEn (s.part l) && l ≤ slice && slice < l + partSize (s.part l)

def State.region (s : State) (pa : Nat) : Region :=
  if pa / 2 ^ 40 = 0 then (if pa / 2 ^ 36 < 12 then .hbm (pa / 2 ^ 36) else .reserved)
  else if pa / 2 ^ 40 = 1 then
    let off := pa % 2 ^ 40
    if off < 0x10000 then .regs
    else if 0x10000000 ≤ off && off < 0x10000000 + 12 * 2 ^ 20 && partEn (s.part ((off - 0x10000000) / 2 ^ 20)) then
      .kick ((off - 0x10000000) / 2 ^ 12)
    else .reserved
  else .reserved

/-- The form of an access, as the device rules tell them apart (R125, R304, R341). -/
inductive Form where
  | ldW | ldD | stW | stD | other
  deriving DecidableEq, Repr

/-- The offsets at which a table of the manual lists an anchor-die register (R304). -/
def regAssigned (off : Nat) : Bool :=
  let o := off % 0x1000
  off % 8 = 0 && match off / 0x1000 with
    | 1 => o ≤ 0x10
    | 2 => o = 0
    | 3 => o < 0x60 || (0x60 ≤ o && o ≤ 0x220) || (0x240 ≤ o && o < 0x2A0) || o = 0x300 || o = 0x308
    | 4 => o ≤ 0x38
    | 5 => o ≤ 0x10 || (0x40 ≤ o && o < 0x100)
    | 6 => o < 0x60 || (0x60 ≤ o && o < 0x120) || o = 0x120 || o = 0x128
    | _ => false

/-- Whether an MMIO address accepts an access (R304, R341). -/
def mmioAccepts (r : Region) (pa : Nat) (f : Form) : Bool :=
  match r with
  | .regs => (f = .ldD || f = .stD) && regAssigned (pa % 0x10000)
  | .kick _ => (pa % 4096 = 0 && f = .stD) || (pa % 4096 = 8 && (f = .ldW || f = .ldD))
  | _ => false

/-! Keys (R356, R363) -/

/-- The recorded slot of an address space, and the new slot while a key rotation runs (R365). -/
def State.spaceSlots (s : State) (sp : Space) : List Byte :=
  if sp.eid ≠ 0 then match s.encls.find sp.eid.toNat with
    | some e => match e.newSlot with
      | some n => [e.slot, n]
      | none => [e.slot]
    | none => []
  else if sp.guest = 0 then [0]
  else
    let mine := s.slots.filter fun p => p.2.guest = sp.guest && p.2.eid = 0
    match mine.find? (fun p => p.2.loaded) with
    | some p => [.ofNat 8 p.1]
    | none => match mine with
      | p :: _ => [.ofNat 8 p.1]
      | [] => []

def State.slotLoaded (s : State) (k : Byte) : Bool := (Tab.getD s.slots k.toNat {}).loaded

/-- Whether the key slot of an address space has been revoked (R311). -/
def State.keyRevoked (s : State) (sp : Space) : Bool :=
  let ks := s.spaceSlots sp
  !ks.isEmpty && !ks.any s.slotLoaded

/-! Page-table entries (R306-R308) -/

def pteV (e : Nat) : Bool := e % 2 == 1
def pteT (e : Nat) : Bool := e / 2 % 2 == 1
def pteR (e : Nat) : Bool := e / 4 % 2 == 1
def pteW (e : Nat) : Bool := e / 8 % 2 == 1
def pteX (e : Nat) : Bool := e / 16 % 2 == 1
def pteE (e : Nat) : Bool := e / 32 % 2 == 1
def pteA (e : Nat) : Bool := e / 64 % 2 == 1
def pteD (e : Nat) : Bool := e / 128 % 2 == 1
def pteSize (e : Nat) : Nat := e / 256 % 16
def ptePfn (e : Nat) : Nat := e / 4096 % 2 ^ 36
def pteMt (e : Nat) : Nat := e / 2 ^ 56 % 16

/-- The index of a level (Table 14.3). -/
def levelIndex (va lev : Nat) : Nat :=
  match lev with
  | 0 => va / 2 ^ 39 % 8192
  | 1 => va / 2 ^ 30 % 512
  | 2 => va / 2 ^ 21 % 512
  | _ => va / 2 ^ 12 % 512

/-- A malformed entry (R307). -/
def malformed (s : State) (e lev : Nat) : Bool :=
  let reserved := e / 2 ^ 60 != 0 || e / 2 ^ 48 % 256 != 0
  let size := pteSize e
  if pteT e then reserved || lev == 3 || pteMt e != 0 || e / 4 % 1024 != 0
  else
    reserved || lev < 2
      || (lev == 2 && size < 9) || (lev == 3 && 8 < size)
      || ptePfn e % 2 ^ size != 0 || 2 < pteMt e
      || (match s.region (ptePfn e * 4096) with
        | .regs | .kick _ => pteMt e != 2
        | _ => ptePfn e / 2 ^ 28 = 1 && pteMt e != 2)

/-! The ownership check (R356, R357) -/

/-- Whether a frame in a state passes for a leaf (Table 19.4), with the leaf's permissions within MAXP. -/
def potRow (s : State) (sp : Space) (st : PotState) (p : Pot) (va e : Nat) : Bool :=
  let ks := s.spaceSlots sp
  let inside := (!pteR e || p.maxp.getLsbD 0) && (!pteW e || p.maxp.getLsbD 1) && (!pteX e || p.maxp.getLsbD 2)
  inside && match st with
  | .hyp => sp.guest = 0 && sp.eid = 0 && !pteE e && p.slot = 0
  | .guest => sp.eid = 0 && p.guest = sp.guest && !pteE e && ks.contains p.slot
  | .shared => sp.eid = 0 && !pteE e && ((p.guest = 0 && p.slot = 0) || (p.guest = sp.guest && ks.contains p.slot))
  | .encl | .discarded | .reclaiming =>
    sp.eid ≠ 0 && pteE e && p.owner = sp.eid && p.guest = sp.guest && ks.contains p.slot && p.ehome.toNat = homeOf va
      && p.eva.toNat = va / 4096 % 2 ^ 40 && !p.pend
  | _ => false

/-- The POT check of one frame: none when it passes, else POTVIOL or INTEG (R357). -/
def potCheck (s : State) (sp : Space) (frame va e : Nat) : Option Trap :=
  let p := s.pot frame
  if p.state = .poisoned then (if potRow s sp p.former p va e then some .integ else some .potviol)
  else if potRow s sp p.state p va e then none else some .potviol

/-- Whether the kick ownership table gives a queue's page to a space at a VA (R339, R340). -/
def kickOwned (s : State) (sp : Space) (queue va : Nat) : Bool :=
  match s.queues.find queue with
  | some q => sp.eid ≠ 0 && q.owner = sp.eid.toNat && q.guest = sp.guest
      && va / 4096 = (queue / 256 * 2 ^ 52 + 0xFFFFFFF000000 + 4096 * q.index) / 4096
  | none => false

/-- The check of a kick page (R340): the queue is held by the space's enclave, at the VA of R339, by a leaf with E = 0. -/
def kickCheck (s : State) (sp : Space) (queue va e : Nat) : Bool := kickOwned s sp queue va && !pteE e

/-! The walk (R309-R311) -/

/-- Why a walk or an access stops: the trap, DETAIL of Table 14.8, and the frame whose read failed its tag; `wait` when it is no
fault but waits for a page-table walker of its slice (R314) or for a held line. -/
structure TFault where
  trap   : Trap
  detail : Nat := 0
  bad    : Option Nat := none
  wait   : Bool := false
  deriving DecidableEq, Repr

/-- The frames of a node: the 8,192 entries of a node of L0 take 16, those of any other node one (Table 14.3). A root set has one. -/
def nodeFrames (node lev : Nat) : List Nat := (List.range (if lev = 0 then 16 else 1)).map (node / 4096 + ·)

/-- Whether a frame may hold a table of a space (R310, check 3): a POISONED one may not. -/
def holdsNode (sp : Space) (p : Pot) : Bool :=
  if sp.eid ≠ 0 then p.state = .enclPt && p.owner = sp.eid
  else if sp.guest = 0 then p.state = .hyp else p.state = .guest && p.guest = sp.guest

/-- CheckNode (R310) on the frames of a node: `home` is the slice the node must lie in, or none for a root set. -/
def checkNode (s : State) (sp : Space) (frames : List Nat) (home : Option Nat) : Option TFault :=
  let place (f : Nat) : Bool := match s.region (f * 4096), home with
    | .hbm x, some h => x == h
    | .hbm _, none => true
    | _, _ => false
  if !frames.all place then some { trap := .tnode }
  else if frames.any fun f => (s.pot f).state = .migrating then some { trap := .tnodewait, detail := 4 }
  else if frames.all fun f => holdsNode sp (s.pot f) then none
  else some { trap := .potviol }

/-- The number of the key in a slot. -/
def State.slotKey (s : State) (k : Byte) : Nat := (Tab.getD s.slots k.toNat {}).key

/-- Whether a frame's lines stand under another key than its slot holds, so that no tag of them verifies (R367). -/
def State.keyStale (s : State) (frame : Nat) : Bool := (s.pot frame).key ≠ s.slotKey (s.pot frame).slot

/-! The reserved region of a stack (R354, R368, Table 19.8) -/

/-- The physical addresses of a frame's counter block, of its level-1 and level-2 nodes, and of its POT entry. -/
def counterBlockAt (frame : Nat) : Nat := frame / 2 ^ 24 * 2 ^ 36 + 0xFB0000000 + 64 * (frame % 2 ^ 24)
def level1At (frame : Nat) : Nat := frame / 2 ^ 24 * 2 ^ 36 + 0xFAF000000 + 64 * (frame % 2 ^ 24 / 64)
def level2At (frame : Nat) : Nat := frame / 2 ^ 24 * 2 ^ 36 + Config.ctreeBase + 64 * (frame % 2 ^ 24 / 4096)
def potEntryAt (frame : Nat) : Nat := frame / 2 ^ 24 * 2 ^ 36 + 0xFF0000000 + 16 * (frame % 2 ^ 24)

/-- The frames that a 64-byte line of the reserved region covers: 1, 64 or 4,096 for a counter block or a node (R373), and the four whose
POT entries it holds. -/
def metaFrames (line : Nat) : List Nat :=
  let first := line / 2 ^ 30 * 2 ^ 24
  let off := line % 2 ^ 30 * 64
  if 0xFF0000000 ≤ off then (List.range 4).map (first + (off - 0xFF0000000) / 16 + ·)
  else if 0xFB0000000 ≤ off then [first + (off - 0xFB0000000) / 64]
  else if 0xFAF000000 ≤ off then (List.range 64).map (first + (off - 0xFAF000000) / 64 * 64 + ·)
  else if Config.ctreeBase ≤ off then (List.range 4096).map (first + (off - Config.ctreeBase) / 64 * 4096 + ·)
  else []

/-- The lines of the reserved region that an access to a frame is checked through (R370): its POT entry, its counter block and its two
nodes. -/
def metaLines (frame : Nat) : List Nat :=
  [potEntryAt frame / 64, counterBlockAt frame / 64, level1At frame / 64, level2At frame / 64]

/-- The one of them whose tag fails, if one does. -/
def State.metaBad (s : State) (frame : Nat) : Option Nat := if s.badMeta.isEmpty then none else (metaLines frame).find? s.badMeta.contains

/-- Whether the tag of a crypto line, or of metadata that it is checked through, fails (R367, R370, R375). -/
def State.lineBad (s : State) (line : Nat) : Bool :=
  s.badTags.contains line || s.keyStale (line / 64) || (s.metaBad (line / 64)).isSome

/-- Whether a table's frame stands under another key than the address space's slot holds (R310). -/
def State.nodeStale (s : State) (sp : Space) (frame : Nat) : Bool :=
  let ks := s.spaceSlots sp
  !ks.isEmpty && ks.all fun k => s.slotKey k ≠ (s.pot frame).key

/-- Reads 8 bytes of a table under the key slot of its address space, or finds that their crypto line fails its tag (R310). -/
def readEntry (s : State) (sp : Space) (a : Nat) : Except TFault Nat :=
  if s.badTags.contains (a / 64) || (s.metaBad (a / 4096)).isSome || s.nodeStale sp (a / 4096) then .error { trap := .integ, bad := some (a / 4096) } else .ok (Memory.u64 s.mem a)

/-- The L0 node of an address space on a slice (R305, R309). -/
def rootNode (s : State) (sp : Space) (slice : Nat) : Except TFault Nat :=
  if sp.eid ≠ 0 then match s.encls.find sp.eid.toNat with
    | some e => match e.roots.find slice with
      | some r => .ok r
      | none => .error { trap := .notpresent, detail := 1 }
    | none => .error { trap := .notpresent, detail := 1 }
  else
    let rs := sp.root.toNat / 128 * 128 % 2 ^ 48
    match checkNode s sp [rs / 4096] none with
    | some f => .error f
    | none => match readEntry s sp (rs + 8 * slice) with
      | .error f => .error f
      | .ok w =>
        if w % 2 = 0 then .error { trap := .notpresent, detail := 1 }
        else if w / 2 ^ 48 != 0 || w / 2 % 2 ^ 15 != 0 then .error { trap := .perm }
        else .ok (w / 2 ^ 16 % 2 ^ 32 * 2 ^ 16)

/-- From a node at level `4 - n` down to the leaf: its level, entry and the entry's address. -/
def walkFrom (s : State) (sp : Space) (va : Nat) : Nat → Nat → Except TFault (Nat × Nat × Nat)
  | 0, _ => .error { trap := .perm }
  | n + 1, node =>
    let lev := 3 - n
    match checkNode s sp (nodeFrames node lev) (some (homeOf va)) with
    | some f => .error f
    | none =>
      let a := node + 8 * levelIndex va lev
      match readEntry s sp a with
      | .error f => .error f
      | .ok e =>
        if !pteV e then
          if pteR e && sp.eid ≠ 0 then
            .error (if lev < 3 then { trap := .tnodewait, detail := 5 } else { trap := .notpresent, detail := 2 })
          else .error { trap := .notpresent, detail := 1 }
        else if malformed s e lev then .error { trap := .perm }
        else if pteT e then walkFrom s sp va n (ptePfn e * 4096)
        else .ok (lev, e, a)

/-- The leaf of an address, without its checks: its level, entry and entry address. -/
def walkLeaf (s : State) (sp : Space) (va : Nat) : Except TFault (Nat × Nat × Nat) :=
  match rootNode s sp (homeOf va) with
  | .error f => .error f
  | .ok node => walkFrom s sp va 4 node

def kindWrites : AccessKind → Bool
  | .write | .atomic | .copyWrite | .drainWrite => true
  | _ => false

/-- R permission, W permission or X permission, as the access needs them (Table 6.2 order 5). -/
def permits (k : AccessKind) (dma : Bool) (r w x : Bool) : Bool :=
  match k with
  | .read | .ldc | .copyRead => r
  | .write | .copyWrite | .drainWrite => w
  | .atomic => r && w
  | .execute => x
  | .signal | .dma => if dma then w else r

/-- Whether the page type allows the access (R125): device pages take the four thread forms only. -/
def typeAllows (mt : Nat) (f : Form) : Bool := mt != 2 || f != .other

/-- An access to translate: the space, the address, the access kind of its record, whether a signal or DMA access
writes, and the form that the device rules see. -/
structure Access where
  sp    : Space
  va    : Nat
  kind  : AccessKind
  wr    : Bool := false
  form  : Form := .other
  deriving DecidableEq, Repr

def Access.writes (a : Access) : Bool := a.wr || kindWrites a.kind

/-- The checks on a leaf in the order of R311, up to the key slot. -/
def leafCheck (s : State) (a : Access) (e : Nat) : Option TFault :=
  let pages := 2 ^ pteSize e
  let base := ptePfn e
  let first := a.va / 4096 / pages * pages
  let pa := base * 4096 + a.va % (pages * 4096)
  let slice := homeOf a.va
  let frames := List.range pages
  let place := frames.all fun k => match s.region ((base + k) * 4096) with
    | .hbm x => x == slice
    | .regs | .kick _ => true
    | .reserved => false
  if !place then some { trap := .tnode }
  else
    let reg := s.region pa
    let mmioOk := match reg with
      | .hbm _ => true
      | _ => mmioAccepts reg pa a.form
    if !(permits a.kind a.wr (pteR e) (pteW e) (pteX e) && typeAllows (pteMt e) a.form && mmioOk) then some { trap := .perm }
    else
      let own := frames.findSome? fun k => match s.region ((base + k) * 4096) with
        | .hbm _ => potCheck s a.sp (base + k) ((first + k) * 4096) e
        | .regs => if a.sp.guest = 0 && a.sp.eid = 0 then none else some Trap.potviol
        | .kick q => if kickCheck s a.sp q ((first + k) * 4096) e then none else some Trap.potviol
        | .reserved => some Trap.tnode
      match own with
      | some t => some { trap := t }
      | none =>
        let reclaiming : Bool := match reg with
          | .hbm _ => a.writes && (s.pot (pa / 4096)).state = .reclaiming
          | _ => false
        if s.keyRevoked a.sp then some { trap := .keyrevoked }
        else if reclaiming then some { trap := .notpresent, detail := 3 }
        else none

/-! The L2 (R16, R391) -/

/-- The L2 bank of a line PA / 128 on its slice (R16). -/
def bankOf (pa : Nat) : Nat := (pa / 128 % 32) ^^^ (pa / 4096 % 32)

/-- The set of a line within the module: its slice, bank, and the set within the bank (assumption 83). -/
def l2Set (line : Nat) : Nat × Nat × Nat := (line / 2 ^ 29, bankOf (line * 128), line / 32 % 1536)

/-- The oldest of some L2 lines. -/
def oldestLine : List L2Line → Option L2Line
  | [] => none
  | x :: l => match oldestLine l with
    | some y => some (if x.used ≤ y.used then x else y)
    | none => some x

/-- A line from HBM4 enters one of some ways of its set: an empty one, or that of the line there which was used longest ago, whose newer
copy goes to HBM4 (assumption 83). -/
def State.l2Fill (s : State) (line : Nat) (ways : List Nat) (dirty : Bool) : State :=
  let slice := line / 2 ^ 29
  let set := s.l2.filter fun x => l2Set x.line = l2Set line
  let s := s.countSlice slice 0x202 2
  match ways.find? fun w => set.all fun x => x.way ≠ w with
  | some w => { s with l2 := ⟨line, w, s.time, dirty⟩ :: s.l2 }
  | none => match oldestLine (set.filter fun x => ways.contains x.way) with
    | some v =>
      let s := if v.dirty then s.countSlice slice 0x202 2 else s
      { s with l2 := ⟨line, v.way, s.time, dirty⟩ :: s.l2.filter (·.line ≠ v.line) }
    | none => s

/-- An access to a line at its home L2: a hit, or a miss whose fill allocates into some ways (R391, Table 26.6). -/
def State.l2Touch (s : State) (line : Nat) (ways : List Nat) (write : Bool) : State :=
  let slice := line / 2 ^ 29
  if s.l2.any (·.line = line) then
    { s.countSlice slice 0x200 1 with l2 := s.l2.map fun x => if x.line = line then { x with used := s.time, dirty := x.dirty || write } else x }
  else (s.countSlice slice 0x201 1).l2Fill line ways write

/-- A read on behalf of a guest fills only the ways of its WAYMASK for the slice (R391). -/
def State.l2Read (s : State) (guest : Byte) (line : Nat) : State :=
  let mask := Tab.getD s.reg.waymask (256 * guest.toNat + line / 2 ^ 29) 0xFFFF
  s.l2Touch line ((List.range 16).filter fun w => mask.getLsbD w) false

/-- A write on behalf of a guest that is neither a write-back nor an atomic: where it misses, its line allocates as a fill does (R391). -/
def State.l2Store (s : State) (guest : Byte) (line : Nat) : State :=
  let mask := Tab.getD s.reg.waymask (256 * guest.toNat + line / 2 ^ 29) 0xFFFF
  s.l2Touch line ((List.range 16).filter fun w => mask.getLsbD w) true

/-- Write-backs and atomics use any way (R391). -/
def State.l2Write (s : State) (line : Nat) : State := s.l2Touch line (List.range 16) true

/-- The entries that a walk reads from a node at level `4 - n` down (R313). -/
def walkReads (s : State) (sp : Space) (va : Nat) : Nat → Nat → List Nat
  | 0, _ => []
  | n + 1, node =>
    let a := node + 8 * levelIndex va (3 - n)
    let e := Memory.u64 s.mem a
    a :: (if pteV e && pteT e then walkReads s sp va n (ptePfn e * 4096) else [])

/-- What a walk reads, from the home L2 (R313): the root set's word, then an entry of each level. -/
def State.walkTouch (s : State) (sp : Space) (va : Nat) : State :=
  let root := if sp.eid ≠ 0 then [] else [sp.root.toNat / 128 * 128 % 2 ^ 48 + 8 * homeOf va]
  let below := match rootNode s sp (homeOf va) with
    | .ok node => walkReads s sp va 4 node
    | .error _ => []
  (root ++ below).foldl (fun s a => s.l2Read sp.guest (a / 128)) s

/-- The counter grant of one crypto line (R369): minor, nodes and root are bumped; the overflow of a minor renews the
frame's major counter (R371). -/
def bumpCtr (t : Tab Ctr) (node slot : Nat) : Tab Ctr :=
  let c : Ctr := Tab.getD t node {}
  let m := Tab.getD c.minor slot 0
  t.put node (if m = 127 then { major := c.major + 1, minor := [] } else { c with minor := c.minor.put slot (m + 1) })

def State.bumpTree (s : State) (frame : Nat) : State :=
  { s with
    nodes1 := bumpCtr s.nodes1 (frame / 64) (frame % 64)
    nodes2 := bumpCtr s.nodes2 (frame / 4096) (frame / 64 % 64)
    roots := s.roots.put (frame / 4096) (Tab.getD s.roots (frame / 4096) 0 + 1) }

/-- Whether a write to a crypto line waits for the sweep of its frame to pass it (R372). -/
def State.sweepHolds (s : State) (line : Nat) : Bool := match s.sweeps.find (line / 64) with
  | some w => w.q ≤ line % 64
  | none => false

/-- Whether the next grant of a line overflows its minor counter. -/
def State.overflows (s : State) (line : Nat) : Bool :=
  Tab.getD (Tab.getD s.ctrs (line / 64) {}).minor (line % 64) 0 = 127

/-- Whether a grant for a crypto line meets a failed tag: its own, or in an overflow that of another line (R371, R373). -/
def State.grantFails (s : State) (line : Nat) : Bool :=
  s.lineBad line || (s.overflows line && s.badTags.any fun l => l / 64 = line / 64)

/-- An armed tag injection whose line is among those written stores a bad tag and is used up (R375, R408). -/
def State.inject (s : State) (written : Nat → Bool) : State :=
  match s.reg.injtag with
  | some l => if written l.toNat then
      { s with badTags := l.toNat :: s.badTags.filter (· ≠ l.toNat), reg := { s.reg with injtag := none } } else s
  | none => s

/-- A grant; an overflow re-encrypts the other lines of the frame without grants of their own (R371, R409). -/
def State.grant (s : State) (line : Nat) : State :=
  let frame := line / 64
  let s := if s.overflows line then s.inject fun l => l / 64 = frame && l ≠ line else s
  (({ s with ctrs := bumpCtr s.ctrs frame (line % 64) }).bumpTree frame).countSlice (line / 2 ^ 30) 0x204 1

/-- Whether a leaf has A set already, and D for a write. -/
def marksAD (e : Nat) (write : Bool) : Bool := pteA e && (!write || pteD e)

/-- Sets A, and D for a write, in a leaf's low word at the home's atomic unit (R311). -/
def State.setAD (s : State) (a e : Nat) (write : Bool) : State :=
  if marksAD e write then s
  else
    let low := e % 2 ^ 32
    let low := if pteA e then low else low + 64
    let low := if write && !pteD e then low + 128 else low
    let s := ((s.grant (a / 64)).l2Write (a / 128)).countSlice (a / 2 ^ 36) 0x203 1
    { s with mem := Memory.setAll s.mem a (leBytes 4 low) }

/-- The entries of a slice's memory-side TLB (Table 1.1). -/
def tlbEntries : Nat := 32768

/-- The slice whose TLB holds a translation: that of its pages. -/
def Tlb.slice (t : Tlb) : Nat := homeOf (t.page * 4096)

/-- A translation enters its slice's TLB; when that is full it replaces one that the S12 chooses (R311, assumption 84). -/
def State.putTlb (s : State) (t : Tlb) : State :=
  let rest := s.tlb.filter fun x => !(x.sp = t.sp && x.page = t.page && x.size = t.size)
  let mine := rest.filter fun x => x.slice = t.slice
  let rest := if mine.length < tlbEntries then rest else match mine[(s.free (2 ^ 22)).toNat % Nat.max 1 mine.length]? with
    | some v => rest.erase v
    | none => rest
  { s with tlb := t :: rest }

/-- The walk of an access with every check, A and D, and the translation that it installs (R309-R311). W is cached only when D
is set, so that a first store walks and sets D; that write needs a counter grant, which an overflow over a failed tag refuses (R371). -/
def walk (s : State) (a : Access) : Except TFault (State × Tlb) :=
  if (List.range 4).all fun k => (s.trip (512 + 16 * homeOf a.va + k)).stop then .error { trap := .notpresent, wait := true } else
  match walkLeaf s a.sp a.va with
  | .error f => .error f
  | .ok (_, e, ea) => match leafCheck s a e with
    | some f => .error f
    | none =>
      if !marksAD e a.writes && s.sweepHolds (ea / 64) then .error { trap := .notpresent, wait := true } else
      if !marksAD e a.writes && s.grantFails (ea / 64) then .error { trap := .integ, bad := some (ea / 4096) } else
      let pages := 2 ^ pteSize e
      let t : Tlb := {
        sp := a.sp, page := a.va / 4096 / pages * pages, size := pages * 4096, pa := ptePfn e * 4096
        r := pteR e, w := pteW e && (a.writes || pteD e), x := pteX e, mt := pteMt e
        slot := match s.region (ptePfn e * 4096) with
          | .hbm _ => (s.pot (ptePfn e)).slot
          | _ => 0 }
      let s := ((s.walkTouch a.sp a.va).setAD ea e a.writes).countSlice (homeOf a.va) 0x206 1
      .ok (s.putTlb t, t)

def Tlb.covers (t : Tlb) (sp : Space) (va : Nat) : Bool := t.sp = sp && t.page ≤ va / 4096 && va / 4096 < t.page + t.size / 4096

/-- The physical address under a translation. -/
def Tlb.at (t : Tlb) (va : Nat) : Nat := t.pa + (va - t.page * 4096)

/-- Translates an access: a cached translation that permits it, or a walk (R311, R312). A write to a RECLAIMING page, an access through a
revoked key slot, and one to a kick page that its space does not own go to the walk whatever is cached (R340, R362, R363). -/
def translate (s : State) (a : Access) : Except TFault (State × Tlb) :=
  match s.tlb.find? (·.covers a.sp a.va) with
  | some t =>
    let reg := s.region (t.at a.va)
    let mmioOk := match reg with
      | .hbm _ => true
      | _ => mmioAccepts reg (t.at a.va) a.form
    let reclaiming := a.writes && (s.pot (t.at a.va / 4096)).state = .reclaiming
    let mine := match reg with
      | .kick q => kickOwned s a.sp q a.va
      | _ => true
    if permits a.kind a.wr t.r t.w t.x && typeAllows t.mt a.form && mmioOk && !reclaiming && mine && !s.keyRevoked a.sp then .ok (s, t)
    else walk s a
  | none => walk (s.countSlice (homeOf a.va) 0x205 1) a

end Sys2Proof.Machine
end

