-- ==== Sys2Proof/Machine/Cache.lean ====
section
/-! DEFINITION. The L1, constant and instruction caches: leases, fills, write-backs under a counter grant, integrity failures,
frame recalls, scrubs, signatures and fences (R33, R124-R131, R141-R147, R211, R359, R362, R369-R375). -/

namespace Sys2Proof.Machine

/-! Signatures (R143, R144) -/

/-- The XOR of the 9-bit pieces of a line address. -/
def foldPieces : Nat → Nat → Nat
  | 0, _ => 0
  | n + 1, l => (l % 512) ^^^ foldPieces n (l / 512)

def sigH1 (line : Nat) : Nat := foldPieces 6 line
def sigH2 (line : Nat) : Nat := foldPieces 6 (line / 16)

/-- The signature bits of a virtual line VA / 128, whose VA[55:7] is the line address. -/
def sigOf (line : Nat) : Sig := (1#512 <<< sigH1 (line % 2 ^ 49)) ||| (1#512 <<< sigH2 (line % 2 ^ 49))

def sigHits (g : Sig) (line : Nat) : Bool := g.getLsbD (sigH1 (line % 2 ^ 49)) && g.getLsbD (sigH2 (line % 2 ^ 49))

/-- A core's epoch signatures in epoch `n`: an epoch that is over leaves the list of three (R143). -/
def Core.roll (c : Core) (n : Nat) : Core :=
  { c with epochs := (List.replicate (Nat.min 3 (n - c.epoch)) 0 ++ c.epochs).take 3, epoch := Nat.max c.epoch n }

/-- Adds to a core's current epoch signature. -/
def State.addEpoch (s : State) (core : Nat) (g : Sig) : State :=
  s.modCore core fun c =>
    let c := c.roll s.epochNow
    match c.epochs with
    | e :: r => { c with epochs := (e ||| g) :: r }
    | [] => { c with epochs := [g, 0, 0] }

/-- What a release publishes (R143): the OR of the core's three epoch signatures. -/
def State.epochSig (s : State) (core : Nat) : Sig := ((s.core core).roll s.epochNow).epochs.foldl (· ||| ·) 0

/-- A write that a core's party makes at the home enters the core's epoch signature, so that a later release names its line (R271). -/
def State.noteWrite (s : State) (core va : Nat) : State := s.addEpoch core (sigOf (va / 128))

/-- The home unit keeps a carrier's signature beside a line, with those of earlier carriers whose epochs have not expired (R143). -/
def State.keepSig (s : State) (line : Nat) (g : Sig) : State :=
  if g = 0 then s else { s with homeSig := s.homeSig.put line (addSig (Tab.getD s.homeSig line []) s.epochNow g) }

/-- The signature that a line carries now. -/
def State.lineSig (s : State) (line : Nat) : Sig := match s.homeSig.find line with
  | some l => orSigs l s.epochNow
  | none => 0

/-- Whether a memory-side atomic unit holds a line (R139), for an atomic or for an add-on-store operation that has taken it (R300). -/
def State.unitHolds (s : State) (line : Nat) : Bool :=
  (s.holds.any fun h => h.line = line && s.time < h.until_) || s.drains.any fun d => d.ctl.glb && d.taken.contains line

/-- Whether a write to a line waits: an atomic unit holds it, or the sweep of its frame has not passed it (R372). -/
def State.lineHeldAt (s : State) (line : Nat) : Bool := s.unitHolds line || s.sweepHolds (2 * line + 1)

/-- The fabric port of a core: its quad's, or its own on a host core. -/
def portOf (core : Nat) : Nat := if core < 4608 then core / 4 else core

/-- Whether the requests of a core to the bank of a line wait at its port: behind an atomic for which the bank's unit, with its 64 waiting
places full, has none (R298). -/
def State.portBlocked (s : State) (core line : Nat) : Bool :=
  ((s.atomQ.filter fun r => r.slice = line / 2 ^ 29 && r.bank = bankOf (line * 128)).drop 64).any fun r => portOf r.core = portOf core

/-- Whether a write-back of a core to a line waits. -/
def State.writeWaits (s : State) (core line : Nat) : Bool := s.lineHeldAt line || s.portBlocked core line

/-! Frames: scrubs, recalls and integrity failures -/

/-- A scrub (R359): zeros under a new major counter, minors at 0, and every tag good again. The tree counts the update of the frame's
counter block (R366). -/
def State.scrubFrame (s : State) (frame : Nat) : State :=
  let c : Ctr := Tab.getD s.ctrs frame {}
  ({ s with
    mem := Memory.clear s.mem (frame * 4096) 4096
    ctrs := s.ctrs.put frame { major := c.major + 1, minor := [] }
    badTags := s.badTags.filter fun l => l / 64 ≠ frame
    pots := Tab.set s.pots {} frame { s.pot frame with key := s.slotKey (s.pot frame).slot } }.bumpTree frame).inject fun l => l / 64 = frame

/-- Stores one byte at the home. -/
def State.poke (s : State) (a : Nat) (b : Byte) : State := { s with mem := Memory.set s.mem a b }

/-- Stores bytes at the home. -/
def State.pokeAll (s : State) (a : Nat) (bs : List Byte) : State := { s with mem := Memory.setAll s.mem a bs }

/-- What comes before a write to a frame: a DISCARDED one is scrubbed and becomes ENCL (R362). -/
def State.firstWrite (s : State) (frame : Nat) : State :=
  if (s.pot frame).state = .discarded then
    let s := s.scrubFrame frame
    s.setPot frame { s.pot frame with state := .encl }
  else s

/-- Whether a write of a crypto line meets a failed tag (R128, R371, R373). Of a DISCARDED page the old tags do not count, but that scrub is
a write of its own, which an armed injection may spoil (R362, R408). -/
def State.writeFails (s : State) (line : Nat) : Bool := (s.firstWrite (line / 64)).grantFails line

/-- The write of one crypto line under a fresh grant (R33, R369), with the first write to a DISCARDED page (R362) and an
armed tag injection (R375). -/
def State.landLine (s : State) (line : Nat) (bytes : List (Nat × Byte)) : State :=
  let s := s.firstWrite (line / 64)
  (bytes.foldl (fun s p => s.poke p.1 p.2) (s.grant line)).inject (· = line)

/-- The dirty bytes of a line within one of its two crypto lines, by physical address. -/
def Line.dirtyIn (l : Line) (j : Nat) : List (Nat × Byte) :=
  (l.bytes.filter fun p => l.dirty.contains p.1 && p.1 / 64 = j && !l.poison.contains p.1).map fun p => (l.pa * 128 + p.1, p.2)

/-- One crypto line of a write-back: merged and stored when its current contents verify, discarded otherwise. -/
def State.landHalf (s : State) (l : Line) (j : Nat) : State × Bool :=
  let line := l.pa * 2 + j
  if !(l.dirty.any fun o => o / 64 = j) then (s, true)
  else if s.writeFails line then (s, false)
  else (s.landLine line (l.dirtyIn j), true)

/-- The write-back of a line's dirty bytes (R33, R128, R366): whether both crypto lines verified. Its bits enter the core's
epoch signature (R143). -/
def State.landDirty (s : State) (l : Line) : State × Bool :=
  if l.dirty.isEmpty then (s, true) else
  let a := (s.l2Write l.pa).landHalf l 0
  let b := a.1.landHalf l 1
  (((b.1.addEpoch l.core (sigOf l.va)).count l.core l.sp.eid.toNat 0x12 1), a.2 && b.2)

/-- Writes back and drops every L1 line that meets a condition; a crypto line whose merge fails is discarded (R373). -/
def State.flushLines (s : State) (p : Line → Bool) : State :=
  let hit := s.lines.filter p
  let s := { s with lines := s.lines.filter fun l => !p l }
  hit.foldl (fun s l => (s.landDirty l).1) s

/-- The translations of a frame, and its constant and instruction lines, go (R211). -/
def State.unmapFrame (s : State) (frame : Nat) : State :=
  let covers (t : Tlb) : Bool := t.pa / 4096 ≤ frame && frame < (t.pa + t.size) / 4096
  { s with
    tlb := s.tlb.filter fun t => !covers t
    clines := s.clines.filter fun l => l.pa / 32 ≠ frame
    ilines := s.ilines.filter fun l => l.pa / 32 ≠ frame }

/-- A frame becomes POISONED and is recalled (R373), a crypto line whose merge fails being discarded; an enclave whose frame it was becomes
FAILED (R374). -/
def State.poisonOne (s : State) (frame : Nat) (record : State → State) : State :=
  let p := s.pot frame
  if p.state = .poisoned || p.state = .ctree || p.state = .retired then s else
  let s := ((s.setPot frame { p with state := .poisoned, former := p.state }).unmapFrame frame).flushLines fun l => l.pa / 32 = frame
  let s := record s
  if p.state.isEncl || p.state = .migrating then s.failEnclave p.owner.toNat else s

/-- The failure of a verification that covers many frames (R373): all are POISONED, one record with VA 0. -/
def State.poisonMany (s : State) (frames : List Nat) (slice : Nat) : State :=
  (frames.foldl (fun s f => s.poisonOne f id) s).terminalRecord slice ⟨2, 16, 0, 0, slice, 0, 4, 0, slice * 2 ^ 28, 0⟩

/-- An integrity failure of a frame (R373, R374): it is POISONED and recalled, with a terminal record. A failure of metadata that the frame
is checked through POISONS every frame that it covers. -/
def State.poisonFrame (s : State) (frame : Nat) (sp : Space) (kind : AccessKind) (va : Nat) (slice : Nat) (agent : Nat × Nat) :
    State :=
  let st := (s.pot frame).state
  match (if st = .poisoned || st = .ctree || st = .retired then none else s.metaBad frame) with
  | some m => s.poisonMany (metaFrames m) (m / 2 ^ 30)
  | none => s.poisonOne frame fun s => s.terminalRecord slice (faultRec sp kind agent va 16 0)

/-- The agent of a core's own writes: its first thread's place (R373). -/
def coreAgent (core : Nat) : Nat × Nat :=
  if core < 4608 then (0, core / 384 * 2 ^ 28 + core % 384 * 2 ^ 19)
  else (1, (core - 4608) / 8 * 2 ^ 28 + (384 + (core - 4608) % 8) * 2 ^ 19)

/-- A write-back of one line that is no longer in the cache: a failed merge, or a poisoned dirty byte (R421), poisons the
frame. -/
def State.writeBackLine (s : State) (l : Line) : State :=
  let r := s.landDirty l
  if r.2 && !(l.poison.any l.dirty.contains) then r.1
  else r.1.poisonFrame (l.pa / 32) l.sp .write (l.va * 128) (sliceOf l.core) (coreAgent l.core)

/-- Writes back and drops the L1 lines of a condition, one by one, with the integrity failures they meet. -/
def State.evictLines (s : State) (p : Line → Bool) : State :=
  let hit := s.lines.filter p
  let s := { s with lines := s.lines.filter fun l => !p l }
  hit.foldl (fun s l => s.writeBackLine l) s

/-- A frame recall (R211): translations go, L1 lines are written back and go, with the integrity failures they meet (R373, R421), and constant
and instruction lines go. -/
def State.recall (s : State) (frame : Nat) : State := (s.unmapFrame frame).evictLines fun l => l.pa / 32 = frame

/-- Whether a frame's recall has to wait: a write-back meets a held line (R139), or a drain that lands has translated a line of it. -/
def State.recallHeld (s : State) (frame : Nat) : Bool :=
  (s.lines.any fun l => l.pa / 32 = frame && !l.dirty.isEmpty && s.writeWaits l.core l.pa)
    || s.drains.any fun d => d.ctl.glb && d.plan.any fun p => p.any fun x => x.2 / 32 = frame

/-- Writes back the L1 lines of a condition and keeps them, clean. -/
def State.cleanLines (s : State) (p : Line → Bool) : State :=
  let hit := s.lines.filter p
  let s := { s with lines := s.lines.map fun l => if p l then { l with dirty := [], poison := l.poison.filter fun o => !l.dirty.contains o } else l }
  hit.foldl (fun s l => s.writeBackLine l) s

/-- Whether a line's lease of 65,536 ns has run out (R129). -/
def Line.expired (l : Line) (ns : Nat) : Bool := l.since + Config.leaseNs ≤ ns

/-- Whether a write-back of some L1 lines must wait, because the atomic unit holds one of them (R139). -/
def State.waitsForHold (s : State) (p : Line → Bool) : Bool := s.lines.any fun l => p l && !l.dirty.isEmpty && s.writeWaits l.core l.pa

/-- The lines whose leases have run out are written back and go (R129), once no atomic unit holds them (R139). -/
def State.expireLeases (s : State) : State :=
  let due (l : Line) : Bool := l.expired s.ns && (l.dirty.isEmpty || !s.writeWaits l.core l.pa)
  if s.lines.any due then s.evictLines due else s

/-- Writes back and drops one 32-byte sector of a line (R139), or, for a carrier, keeps it clean (R143). -/
def State.sectorHome (s : State) (core : Nat) (sp : Space) (va : Nat) (keep : Bool) : State :=
  let mine (l : Line) : Bool := l.core = core && l.sp = sp && l.va = va / 128
  let here (o : Nat) : Bool := o / 32 = va % 128 / 32
  let hit := s.lines.filter mine
  let s := { s with lines := s.lines.map fun l => if mine l then { l with
    bytes := if keep then l.bytes else l.bytes.filter fun p => !here p.1
    dirty := l.dirty.filter fun o => !here o
    poison := l.poison.filter fun o => !(here o && (!keep || l.dirty.contains o)) } else l }
  hit.foldl (fun s l => s.writeBackLine { l with dirty := l.dirty.filter here }) s

/-! Access to bytes at the home -/

/-- Whether a page reads as zeros (R362). -/
def PotState.zeros : PotState → Bool
  | .discarded | .reclaiming => true
  | _ => false

/-- Whether a range of physical bytes lies in crypto lines that verify, through metadata that does (R370). The lines of a page that reads as
zeros are not read (R362). -/
def State.verifies (s : State) (a n : Nat) : Bool :=
  (s.pot (a / 4096)).state.zeros
    || (!s.keyStale (a / 4096) && (s.badTags.all fun l => !(l * 64 < a + n && a < l * 64 + 64)) && (s.metaBad (a / 4096)).isNone)

/-- The bytes that a read at the home returns: zeros for a DISCARDED or RECLAIMING page (R362). -/
def State.homeBytes (s : State) (a n : Nat) : List Byte :=
  if (s.pot (a / 4096)).state.zeros then List.replicate n 0 else Memory.bytes s.mem a n

/-- The bytes of a write at the home within one crypto line's frame, under a fresh grant for each crypto line it touches. -/
def State.landBytes (s : State) (a : Nat) (bs : List Byte) : State :=
  let cells := (List.range bs.length).zipWith (fun i b => (a + i, b)) bs
  let last := a + bs.length - 1
  (List.range (last / 64 - a / 64 + 1)).foldl (fun s k =>
    s.landLine (a / 64 + k) (cells.filter fun c => c.1 / 64 = a / 64 + k)) s

/-- The cache lines of a range of physical bytes. -/
def lineRange (a n : Nat) : List Nat := (List.range ((a + n - 1) / 128 - a / 128 + 1)).map (a / 128 + ·)

/-- A write at the home by an atomic or a unit of the module, which uses any way of the L2 (R391). -/
def State.homeWrite (s : State) (a : Nat) (bs : List Byte) : State := ((lineRange a bs.length).foldl State.l2Write s).landBytes a bs

/-- Any other write at the home, on behalf of a guest (R391). -/
def State.homeStore (s : State) (guest : Byte) (a : Nat) (bs : List Byte) : State :=
  ((lineRange a bs.length).foldl (fun s l => s.l2Store guest l) s).landBytes a bs

/-! L1 lines -/

def State.findLine (s : State) (core : Nat) (sp : Space) (va : Nat) : Option Line :=
  s.lines.find? fun l => l.core = core && l.sp = sp && l.va = va / 128

def State.putLine (s : State) (l : Line) : State :=
  { s with lines := l :: s.lines.filter fun x => !(x.core = l.core && x.sp = l.sp && x.va = l.va) }

def numberFrom : Nat → List Byte → Tab Byte
  | _, [] => []
  | i, b :: bs => (i, b) :: numberFrom (i + 1) bs

/-- The bytes of a line at an offset, when all are valid. -/
def Line.read (l : Line) (off : Nat) : Nat → Option (List Byte)
  | 0 => some []
  | n + 1 => match Tab.find l.bytes off with
    | some b => (Line.read l (off + 1) n).map (b :: ·)
    | none => none

/-- Writes bytes into a line and marks them dirty. -/
def Line.write (l : Line) (off : Nat) : List Byte → Line
  | [] => l
  | b :: bs => Line.write { l with
      bytes := Tab.put l.bytes off b, dirty := if l.dirty.contains off then l.dirty else off :: l.dirty
      poison := l.poison.filter (· ≠ off) } (off + 1) bs

/-- The result of a memory access of an agent. -/
inductive MemRes (α : Type) where
  | ok (s : State) (x : α)
  | fault (s : State) (f : TFault)
  /-- The access reaches an MMIO address. -/
  | device (s : State) (pa : Nat)

/-- How many lines an L1 data cache holds: 384 KiB of a SIMT core, 64 KiB of a host core (Table 1.2, R21). -/
def l1Lines (core : Nat) : Nat := if core < 4608 then 3072 else 512

/-- The lines of 64 KiB: a quad's constant cache and an instruction L1 (R18, R21). -/
def roLines : Nat := 512

/-- Room for one more line in a full L1: a line that the S12 chooses is replaced (assumption 84), one that no atomic unit holds. -/
def State.roomFor (s : State) (core : Nat) : State :=
  let mine := s.lines.filter (·.core = core)
  if mine.length < l1Lines core then s else
    let can := mine.filter fun l => l.dirty.isEmpty || !s.writeWaits core l.pa
    match can[(s.free (2 ^ 21)).toNat % Nat.max 1 can.length]? with
    | some v => s.evictLines fun l => l.core = core && l.sp = v.sp && l.va = v.va
    | none => s

/-- A read-only cache with one more line; when it is full a line that the S12 chooses goes (assumption 84). -/
def State.addRo (s : State) (lines : List Line) (l : Line) : List Line :=
  let mine := lines.filter (·.core = l.core)
  if mine.length < roLines then l :: lines else
    match mine[(s.free (2 ^ 21)).toNat % Nat.max 1 mine.length]? with
    | some v => l :: lines.filter fun x => !(x.core = l.core && x.sp = v.sp && x.va = v.va)
    | none => l :: lines

/-- The key slot of a line that is filled or allocated (R365): its frame's, or the new one where a sweep has passed it (R372). -/
def State.lineSlot (s : State) (pa : Nat) : Byte := match s.sweeps.find (pa / 32) with
  | some w => if s.sweepHolds (2 * pa + 1) then (s.pot (pa / 32)).slot else w.slot
  | none => (s.pot (pa / 32)).slot

/-- The crypto lines of a 128-byte line that a read of some bytes returns (R370): their first offset and their size. -/
def cryptoSpan (off n : Nat) : Nat × Nat := (off / 64 * 64, ((off + n - 1) / 64 + 1) * 64 - off / 64 * 64)

/-- A fill from the home of the crypto lines that hold some bytes (R32, R370): they return, are checked and decrypted; bytes this L1 has
written stay. The line enters the core's epoch signature and takes a lease; one that keeps bytes from before keeps its lease, which bounds
them (R275). -/
def State.fillLine (s : State) (core : Nat) (a : Access) (t : Tlb) (n : Nat) : Except TFault (State × Line) :=
  let pa := t.at a.va / 128
  let span := cryptoSpan (a.va % 128) n
  if !s.verifies (pa * 128 + span.1) span.2 then .error { trap := .integ, bad := some (pa / 32) }
  else
    let home := numberFrom span.1 (s.homeBytes (pa * 128 + span.1) span.2)
    let s := s.l2Read a.sp.guest pa
    let (s, l) : State × Line := match s.findLine core a.sp a.va with
      | some old =>
        let stays (o : Nat) : Bool := old.dirty.contains o || o < span.1 || span.1 + span.2 ≤ o
        let keep := old.bytes.filter fun p => stays p.1
        (s, { old with
          bytes := keep.foldl (fun m p => Tab.put m p.1 p.2) home
          wOk := old.wOk || t.w, rOk := old.rOk || t.r, since := if keep.isEmpty then s.ns else old.since
          poison := old.poison.filter stays })
      | none => (s.roomFor core, ⟨core, a.sp, s.lineSlot pa, a.va / 128, pa, home, [], t.w, s.ns, [], t.r, false⟩)
    .ok ((s.putLine l).addEpoch core (sigOf l.va), l)

/-- A fill of a whole line (R32, R135). -/
def State.fillWhole (s : State) (core : Nat) (a : Access) (t : Tlb) : Except TFault (State × Line) :=
  s.fillLine core { a with va := a.va / 128 * 128 } t 128

/-- An access that is not ready: the atomic unit holds the line (R139). -/
def heldLine : TFault := { trap := .notpresent, wait := true }

/-- A read at the home that no cache serves: its own bytes are checked (R125). -/
def State.readHome (s : State) (a : Access) (pa n : Nat) : MemRes (List Byte) :=
  if s.verifies pa n then .ok (s.l2Read a.sp.guest (pa / 128)) (s.homeBytes pa n)
  else .fault s { trap := .integ, bad := some (pa / 4096) }

/-- A load through an L1 (R124, R127-R129): a hit on a line that a translation with R serves, a fill, an uncached read at the home, or a
device address. A line whose lease has run out serves nothing. -/
def State.l1Load (s : State) (core : Nat) (a : Access) (n : Nat) : MemRes (List Byte) :=
  let s := s.expireLeases
  let off := a.va % 128
  let line := s.findLine core a.sp a.va
  let hit := match line with
    | some l => if l.rOk && !l.expired s.ns then (l.read off n).map fun bs => (l, bs) else none
    | none => none
  match hit with
  | some (l, bs) =>
    let s := s.count core a.sp.eid.toNat 0x10 1
    if (List.range n).any fun i => l.poison.contains (off + i) then .fault s { trap := .integ } else .ok s bs
  | none => match translate (s.count core a.sp.eid.toNat 0x11 1) a with
    | .error f => .fault s f
    | .ok (s, t) =>
      if t.mt = 2 && (match s.region (t.at a.va) with | .hbm _ => false | _ => true) then .device s (t.at a.va)
      else if t.mt = 0 then
        if line.any (·.expired s.ns) || s.portBlocked core (t.at a.va / 128) then .fault s heldLine
        else match s.fillLine core a t n with
        | .error f => .fault s f
        | .ok (s, l) =>
          if (List.range n).any fun i => l.poison.contains (off + i) then .fault s { trap := .integ }
          else .ok s ((l.read off n).getD (List.replicate n 0))
      else if s.portBlocked core (t.at a.va / 128) then .fault s heldLine
      else s.readHome a (t.at a.va) n

/-- A store through an L1 (R124, R128): a hit on a line filled with W, an allocation after its translation, an uncached
write at the home, or a device address. -/
def State.l1Store (s : State) (core : Nat) (a : Access) (bs : List Byte) : MemRes Unit :=
  let s := s.expireLeases
  let off := a.va % 128
  let line := s.findLine core a.sp a.va
  let hit := match line with
    | some l => if l.wOk && !l.expired s.ns then some l else none
    | none => none
  match hit with
  | some l => .ok ((s.putLine (l.write off bs)).count core a.sp.eid.toNat 0x10 1) ()
  | none => match translate (s.count core a.sp.eid.toNat 0x11 1) a with
    | .error f => .fault s f
    | .ok (s, t) =>
      if t.mt = 2 && (match s.region (t.at a.va) with | .hbm _ => false | _ => true) then .device s (t.at a.va)
      else if t.mt = 0 then
        if line.any (·.expired s.ns) then .fault s heldLine
        else
          let (s, l) : State × Line := match s.findLine core a.sp a.va with
            | some l => (s, { l with wOk := true })
            | none => (s.roomFor core, ⟨core, a.sp, s.lineSlot (t.at a.va / 128), a.va / 128, t.at a.va / 128, [], [], true, s.ns, [], t.r, false⟩)
          .ok (s.putLine (l.write off bs)) ()
      else if s.writeWaits core (t.at a.va / 128) then .fault s heldLine
      else if !s.writeFails (t.at a.va / 64) then .ok ((s.homeStore a.sp.guest (t.at a.va) bs).noteWrite core a.va) ()
      else .fault s { trap := .integ, bad := some (t.at a.va / 4096) }

/-- The home address of a virtual address that an L1 line or a cached translation already names. -/
def State.physLine (s : State) (core : Nat) (sp : Space) (va : Nat) : Option Nat :=
  match s.findLine core sp va with
  | some l => some l.pa
  | none => (s.tlb.find? (·.covers sp va)).map fun t => t.at va / 128

/-- A load, atomic or test adds the signature kept beside its line to the thread's gathered set, and to the core's epoch signature
(R143, R145). -/
def State.gather (s : State) (line : Option Nat) : State :=
  match line with
  | some l =>
    let g := s.lineSig l
    if g = 0 then s else ({ s with th := { s.th with gathered := s.th.gathered ||| g } }).addEpoch (s.coreIx s.cur) g
  | none => s

/-- A store or atomic carries a signature to its line, whose sector it writes through (R143). -/
def State.carryWith (s : State) (g : Option Sig) (core : Nat) (sp : Space) (va : Nat) : State :=
  match g with
  | none => s
  | some g =>
    let line := s.physLine core sp va
    let s := s.sectorHome core sp va true
    match line with
    | some l => s.keepSig l g
    | none => s

/-- The thread's next carrier takes its pending signature (R143). -/
def State.carry (s : State) (core : Nat) (sp : Space) (va : Nat) : State :=
  ({ s with th := { s.th with pending := none } }).carryWith s.th.pending core sp va

/-- The physical line of an access: that of its L1 line, or that which its translation gives. -/
def State.physOf (s : State) (core : Nat) (a : Access) : Option Nat :=
  match s.findLine core a.sp a.va with
  | some l => some l.pa
  | none => match translate s a with
    | .ok (_, t) => some (t.at a.va / 128)
    | .error _ => none

/-- Whether a carrier store must wait before it writes its sector through: the atomic unit holds its line (R139, R143). -/
def State.carrierHeld (s : State) (g : Option Sig) (core : Nat) (a : Access) : Bool := g.isSome && (s.physOf core a).any s.lineHeldAt

/-! Fences (R141-R147) -/

/-- Lines that belong to a thread's context. -/
def Line.inContext (l : Line) (core : Nat) (sp : Space) : Bool := l.core = core && l.sp.guest = sp.guest && l.sp.eid = sp.eid

/-- FENCE.REL (R143): the thread's earlier scratchpad stores have reached their bank, and at CLUS or wider the context's dirty bytes go home
and the core's signature waits for a carrier. -/
def State.release (s : State) (scope : Nat) : State :=
  let s := { s with th := { s.th with sts := [] } }
  if scope ≤ 1 then s else
  let core := s.coreIx s.cur
  let sp := s.space s.cur
  let s := s.cleanLines fun l => l.inContext core sp
  let g := s.epochSig core
  { s with th := { s.th with pending := some ((s.th.pending.getD 0) ||| g), relSig := g } }

/-- FENCE.ACQ at CLUS or wider (R145) for any thread: every line that its gathered set names is written back and goes. -/
def State.acquireFor (s : State) (i : ThreadId) (scope : Nat) : State :=
  if scope ≤ 1 then s else match s.thread? i with
    | some t =>
      let core := s.coreIx i
      (s.evictLines fun l => l.core = core && sigHits t.gathered l.va).modThread i fun t => { t with gathered := 0 }
    | none => s

def State.acquire (s : State) (scope : Nat) : State := s.acquireFor s.cur scope

/-- The last steps of FENCE.SC (R146): every dirty byte of the context goes home and its lines go. -/
def State.seqCst (s : State) : State :=
  let core := s.coreIx s.cur
  let sp := s.space s.cur
  s.evictLines fun l => l.inContext core sp

/-- Where a thread's constant path lies: its quad on a slice, or the host core itself (R131). -/
def cacheQuad (core : Nat) : Nat := if core < 4608 then core / 4 else core

/-- The instruction path of a core holds no word from before a thread of a context starts there, or is restored (R59). -/
def State.freshCode (s : State) (core : Nat) : State := { s with ilines := s.ilines.filter fun l => l.core ≠ core }

/-- CP (R147): the context's lines of the quad's constant cache go, and on a host core its data L1's constant reads; so do those of the
instruction path. -/
def State.dropConstants (s : State) : State :=
  let core := s.coreIx s.cur
  let sp := s.space s.cur
  let mine (l : Line) : Bool := l.sp.guest = sp.guest && l.sp.eid = sp.eid
  let s := s.evictLines fun l => l.ldc && l.inContext core sp
  { s with
    clines := s.clines.filter fun l => !(l.core = cacheQuad core && mine l)
    ilines := s.ilines.filter fun l => !(l.core = core && mine l) }

/-- FENCE (R141-R147): kind 0 ACQ, 1 REL, 2 AR, 3 SC. -/
def State.fence (s : State) (kind scope : Nat) (cp : Bool) : State :=
  let s := if kind = 0 then s else s.release scope
  let s := if kind = 1 then s else s.acquire scope
  let s := if kind = 3 then s.seqCst else s
  if cp then
    -- Also at CORE scope: an LDC after the fence reads the party's own stores, or later ones (R277).
    let core := s.coreIx s.cur
    let sp := s.space s.cur
    (s.cleanLines fun l => l.inContext core sp).dropConstants
  else s

/-- Whether a fence's write-backs meet a held line (R139). -/
def State.fenceMeetsHold (s : State) (kind scope : Nat) (cp : Bool) : Bool :=
  let core := s.coreIx s.cur
  let sp := s.space s.cur
  s.waitsForHold fun l => l.inContext core sp && ((kind ≠ 0 && 1 < scope) || kind = 3 || cp)
    || (kind ≠ 1 && 1 < scope && l.core = core && sigHits s.th.gathered l.va)

/-! The constant path and instruction fetch (R57, R59, R131) -/

/-- Reads bytes through a read-only cache of lines (constant or instruction), filling it from the home with the crypto lines that hold them
(R370). On a host core the constant path is the data L1 (R131). -/
def readThrough (lines : List Line) (s : State) (core : Nat) (a : Access) (n : Nat) :
    Except TFault (State × List Line × List Byte) :=
  let mine (l : Line) : Bool := l.core = core && l.sp = a.sp && l.va = a.va / 128
  let old := lines.find? mine
  match old.bind fun l => l.read (a.va % 128) n with
  | some bs => .ok (s, lines, bs)
  | none => match translate s a with
    | .error f => .error f
    | .ok (s, t) =>
      let pa := t.at a.va / 128
      let span := cryptoSpan (a.va % 128) n
      if !s.verifies (pa * 128 + span.1) span.2 then .error { trap := .integ, bad := some (pa / 32) }
      else
        let home := numberFrom span.1 (s.homeBytes (pa * 128 + span.1) span.2)
        let l : Line := match old with
          | some l => { l with bytes := home.foldl (fun m p => Tab.put m p.1 p.2) l.bytes }
          | none => ⟨core, a.sp, s.lineSlot pa, a.va / 128, pa, home, [], false, s.ns, [], true, false⟩
        let s := s.l2Read a.sp.guest pa
        let kept := if t.mt ≠ 0 then lines else if old.isSome then lines.map fun x => if mine x then l else x else s.addRo lines l
        .ok (s, kept, (l.read (a.va % 128) n).getD (List.replicate n 0))

/-- The bytes of an L1 line that its core has not written go: a later load fetches them again. -/
def State.dropClean (s : State) (core : Nat) (sp : Space) (va : Nat) : State :=
  { s with lines := s.lines.filterMap fun l =>
      if !(l.core = core && l.sp = sp && l.va = va / 128) then some l
      else if l.dirty.isEmpty then none
      else some { l with bytes := l.bytes.filter fun p => l.dirty.contains p.1, poison := l.poison.filter l.dirty.contains } }

/-- The data L1's line of a constant read of a host core (R147). -/
def State.markLdc (s : State) (core : Nat) (sp : Space) (va : Nat) : State :=
  { s with lines := s.lines.map fun l => if l.core = core && l.sp = sp && l.va = va / 128 then { l with ldc := true } else l }

/-- An LDC (R131): through the quad's constant cache, on a host core through the data L1, where it reads the lines of constant reads, which a
CP fence drops, and fetches those of plain loads again; on an uncached page as the corresponding LD (R125). -/
def State.ldc (s : State) (core : Nat) (a : Access) (n : Nat) : MemRes (List Byte) :=
  if 4608 ≤ core then match (if (s.findLine core a.sp a.va).any (·.ldc) then s else s.dropClean core a.sp a.va).l1Load core a n with
    | .ok s bs => .ok (s.markLdc core a.sp a.va) bs
    | r => r
  else
    let cached := s.clines.any fun l => l.core = cacheQuad core && l.sp = a.sp && l.va = a.va / 128
    let through : MemRes (List Byte) := match readThrough s.clines s (cacheQuad core) a n with
      | .error f => .fault s f
      | .ok (s, ls, bs) => .ok { s with clines := ls } bs
    if cached then through else match translate s a with
      | .ok (s', t) =>
        if s.portBlocked core (t.at a.va / 128) then .fault s' heldLine
        else if t.mt = 1 then s'.readHome a (t.at a.va) n else through
      | .error f => .fault s f

/-- The fetch of one word of code at a virtual address (R57). -/
def State.fetchWord (s : State) (core : Nat) (sp : Space) (va : Nat) : MemRes Word :=
  if !wellFormedVa va then .fault s { trap := .perm }
  else match readThrough s.ilines s core { sp := sp, va := va, kind := .execute } 4 with
    | .error f => .fault s f
    | .ok (s, ls, bs) => .ok { s with ilines := ls } (.ofNat 32 (leNat bs))

/-! Counter grants that overflow, and atomics at the home -/

/-- A read-modify-write of one 32-bit location at its home (R139): the issuing L1's sector goes home first, the line is
checked, and the new value is stored under a fresh grant. Answers the old value. -/
def State.homeAtomic (s : State) (core : Nat) (a : Access) (f : Word → Word) : MemRes Word :=
  let s := s.sectorHome core a.sp a.va false
  match translate s a with
  | .error g => .fault s g
  | .ok (s, t) =>
    let pa := t.at a.va
    if t.mt = 2 then .device s pa
    else if s.writeFails (pa / 64) then .fault s { trap := .integ, bad := some (pa / 4096) }
    else
      let old : Word := .ofNat 32 (leNat (s.homeBytes pa 4))
      .ok (((s.homeWrite pa (leBytes 4 (f old).toNat)).noteWrite core a.va).countSlice (homeOf a.va) 0x203 1) old

end Sys2Proof.Machine
end

