-- ==== Sys2Proof/Machine/Faults.lean ====
section
/-! DEFINITION. Fault records and rings, the outstanding records, the operand log, and what a memory fault does to a thread
(R80, R130, R315-R323). -/

namespace Sys2Proof.Machine

/-- The ring of a retryable record (R320). -/
def retryRing (guest detail : Nat) : Nat := if guest = 0 || detail = 4 || detail = 6 then 0 else 1 + guest

/-- What a retryable fault comes to: it waits on a record, its agent is held for want of room, or its ring is disabled and
it is terminal (R320). -/
inductive Retry where
  | wait (s : State) (link : Nat)
  | full
  | terminal (s : State)

/-- Reports a retryable fault (R320): it attaches to the outstanding record of its page, or writes a record of its own, for which the
slice's record queue must have room (R322). -/
def State.retryFault (s : State) (sp : Space) (kind : AccessKind) (va cause detail : Nat) (agent : Nat × Nat) : Retry :=
  let ring := retryRing sp.guest.toNat detail
  let r := faultRec sp kind agent va cause detail
  match s.ring ring with
  | none => .terminal (s.terminalRecord (homeOf va) r)
  | some _ =>
    match s.outst.find? fun o => o.ring = ring && o.sp = sp && o.page = va / 4096 with
    | some o => .wait s o.link
    | none =>
      if (s.outst.filter fun o => o.slice = homeOf va).length < 256 && s.recordRoom (homeOf va) then
        .wait { s with
          serial := s.serial + 1
          outst := s.outst ++ [⟨homeOf va, ring, 0, s.serial, sp, va / 4096⟩]
          records := s.records ++ [⟨homeOf va, ring, s.serial, r⟩] } s.serial
      else .full

/-- The record of a retryable fault of a host thread at E: for information only, never outstanding (R320). None while the slice's record
queue is full: a retryable record is never dropped, its agent waits (R322). -/
def State.infoRecord (s : State) (sp : Space) (kind : AccessKind) (va cause detail : Nat) (agent : Nat × Nat) : Option State :=
  let ring := retryRing sp.guest.toNat detail
  let r := faultRec sp kind agent va cause detail
  match s.ring ring with
  | none => some (s.terminalRecord (homeOf va) r)
  | some _ => if s.recordRoom (homeOf va) then some { s with records := s.records ++ [⟨homeOf va, ring, 0, r⟩] } else none

/-- The 32 bytes of a record with its sequence number (Table 14.6). -/
def FRec.bytes (r : FRec) (seq : Nat) : List Byte :=
  leBytes 8 (r.cls + r.cause * 2 ^ 8 + r.guest * 2 ^ 16 + r.eid * 2 ^ 32 + r.home * 2 ^ 48 + r.kind * 2 ^ 52 + r.atype * 2 ^ 56)
    ++ leBytes 8 r.va ++ leBytes 4 r.agent ++ leBytes 4 seq ++ leBytes 8 r.detail

def Trap.retryable (t : Trap) : Bool := t == .notpresent || t == .tnodewait

/-- Whether a trap's fault writes a record when it arises in or after translation (R315). -/
def Trap.recorded (t : Trap) : Bool := t == .perm || t == .potviol || t == .tnode || t == .integ || t == .keyrevoked || t.retryable

/-- A terminal translation or ownership fault of an agent: the frame whose tag failed is POISONED, with its record (R373),
and any other such fault writes its terminal record (R315). -/
def State.terminalFault (s : State) (a : Access) (f : TFault) (agent : Nat × Nat) : State :=
  match f.bad with
  | some frame => s.poisonFrame frame a.sp a.kind a.va (homeOf a.va) agent
  | none => if f.trap.recorded then s.terminalRecord (homeOf a.va) (faultRec a.sp a.kind agent a.va f.trap.num 0) else s

/-! The operand log (R130, R316) -/

/-- Whether a load, store or atomic of a thread has not returned: it waits in the operand log (R130), reaches memory later than it issued
(R264), or waits at its atomic unit (R298), where the word of a host core has not issued. -/
def State.unreturned (s : State) (i : ThreadId) : Bool :=
  (s.log.any fun e => e.tid = i) || (!i.isHost && s.atomQ.any fun e => e.tid = i)

/-- Such an access of the current thread to global memory holds its line (R127, R130); one that only reaches memory late holds the words that
it touches. -/
def State.lineHeld (s : State) (va size : Nat) : Bool :=
  (s.log.any fun e => e.tid = s.cur && e.spad.isNone
    && if e.link = 0 then e.va / 4 ≤ (va + size - 1) / 4 && va / 4 ≤ (e.va + e.size - 1) / 4 else e.va / 128 = va / 128)
    || (!s.onHost && s.atomQ.any fun e => e.tid = s.cur && e.va / 128 = va / 128)

/-- A later FENCE of a thread is held behind its accesses in the operand log (R130). -/
def State.logHeld (s : State) : Bool := !s.onHost && s.log.any fun e => e.tid = s.cur && e.link ≠ 0

/-- A release of the thread waits for its earlier stores and atomics (R143). -/
def State.fenceHeld (s : State) : Bool := s.unreturned s.cur

def logsSig : AccessKind → Bool
  | .write | .atomic => true
  | _ => false

/-- Whether an access carries its thread's pending signature: a store or atomic of global memory (R143). -/
def LogEntry.carries (e : LogEntry) : Bool := logsSig e.kind && e.spad.isNone

/-- An entry of the operand log under a number of its own: a store or atomic is the carrier of its thread's pending signature (R143), and
the destinations wait on the entry (R130). -/
def State.putLog (s : State) (num : Nat) (e : LogEntry) : State :=
  let takes := e.carries && e.sig.isNone
  { s with
    log := s.log ++ [{ e with num := num, sig := if takes then s.th.pending else e.sig }]
    th := { s.th with
      pending := if takes then none else s.th.pending
      logged := s.th.logged ++ e.dst.map fun c => (c, num) } }

/-- Whether a core's operand log, of 64 entries, has room (R316). An access that only reaches memory late (R264) is in none of them. -/
def State.logRoom (s : State) (core : Nat) : Bool := (s.log.filter fun e => e.core = core && e.link ≠ 0).length < 64

/-- Puts an access of the current thread into its core's operand log (R316). -/
def State.logAccess (s : State) (e : LogEntry) : Option State :=
  if s.logRoom e.core then some ({ s with serial := s.serial + 1 }.putLog s.serial e) else none

/-! Fences that complete later (R141, R145) -/

/-- Completes the oldest of the current thread's fences while nothing that they wait for is outstanding. -/
def completeList : List Fencing → State → State
  | [], s => s
  | f :: rest, s =>
    if s.fenceHeld || s.fenceMeetsHold f.kind f.scope f.cp then s
    else completeList rest (({ s with th := { s.th with fences := rest } }).fence f.kind f.scope f.cp)

def State.completeFences (s : State) : State := completeList s.th.fences s

/-- A fence of the current thread: at once, or when its earlier accesses have returned and no line that it writes back is held (R139, R141,
R143, R145). -/
def State.orderBy (s : State) (f : Fencing) : State := ({ s with th := { s.th with fences := s.th.fences ++ [f] } }).completeFences

/-- The acquire of a BARWAIT or BARTST of any thread (R145, R151): at once, or when its earlier accesses have returned and no line that it
writes back is held (R139). -/
def State.orderFor (s : State) (i : ThreadId) (scope : Nat) : State :=
  let waits := s.unreturned i || match s.thread? i with
    | some t => !t.fences.isEmpty || (1 < scope && s.waitsForHold fun l => l.core = s.coreIx i && sigHits t.gathered l.va)
    | none => false
  if waits then s.modThread i fun t => { t with fences := t.fences ++ [⟨0, scope, false⟩] } else s.acquireFor i scope

/-- The parts of an access that reaches memory later than it issues (R264): one, or four of a 16-byte access (R127, R263). -/
def partsOf (e : LogEntry) : List LogEntry :=
  if e.size = 16 then (List.range 4).map fun k => { e with
    va := e.va + 4 * k, size := 4, data := (e.data.extractLsb' (32 * k) 32).setWidth 128, dst := (e.dst.drop k).take 1, ready := true }
  else [{ e with ready := true }]

/-- A plain load or store that reaches memory later than it issues (R264): it leaves the thread as an access that waits, with no record to
wait on. Every part of a carrier carries its signature (R268). -/
def State.goLate (s : State) (e : LogEntry) : State :=
  let g := if e.carries then s.th.pending else none
  let s := { s with th := { s.th with late := false, pending := if e.carries then none else s.th.pending } }
  (partsOf e).foldl (fun s p => { s with serial := s.serial + 1 }.putLog s.serial { p with sig := g }) s

/-- What a memory fault of the current thread's access does (Table 14.5): the operand log or a trap in a SIMT thread, the
trap path on a host core. An access that meets a held line has issued in a SIMT thread, and waits; the word of a host core waits to issue. -/
def threadFault (s : State) (a : Access) (f : TFault) (e : LogEntry) : Res :=
  let s₀ := s
  let agent := s.agentOf s.cur
  if f.wait then (if s.onHost || e.kind = .atomic then .hold else .ok (s.goLate e))
  else if f.trap.retryable then
    if s.onHost then
      if s.th.level == .e then match s.infoRecord a.sp a.kind a.va f.trap.num f.detail agent with
        | some s => .trap f.trap (.ofNat 64 a.va) s
        | none => .hold
      else .trap f.trap (.ofNat 64 a.va) s
    else match s.retryFault a.sp a.kind a.va f.trap.num f.detail agent with
      | .wait s link => match (s.count (s.coreIx s.cur) a.sp.eid.toNat 0x40 1).logAccess { e with link := link } with
        | some s => .ok s
        | none => .stall (s₀.count (s₀.coreIx s₀.cur) a.sp.eid.toNat 0x41 1)
      | .full => .hold
      | .terminal s => .trap f.trap (.ofNat 64 a.va) s
  else .trap f.trap (.ofNat 64 a.va) (s.terminalFault a f agent)

/-- A fetch fault of the current thread (R57): a retryable one leaves a SIMT thread not ready. -/
def fetchFault (s : State) (sp : Space) (va : Nat) (f : TFault) : Option State :=
  let a : Access := { sp := sp, va := va, kind := .execute }
  let agent := s.agentOf s.cur
  if f.wait then none
  else if f.trap.retryable then
    if s.onHost then (if s.th.level == .e then s.infoRecord sp .execute va f.trap.num f.detail agent else some s)
    else match s.retryFault sp .execute va f.trap.num f.detail agent with
      | .terminal s => some s
      | _ => none
  else if wellFormedVa va then some (s.terminalFault a f agent) else some s

/-- A SIMT thread whose fetch fault waits still leaves its record behind (R57, R315). -/
def fetchRecord (s : State) (sp : Space) (va : Nat) (f : TFault) : State :=
  if f.trap.retryable && !f.wait && !s.onHost then
    match s.retryFault sp .execute va f.trap.num f.detail (s.agentOf s.cur) with
    | .wait s link => { s with th := { s.th with fetch := some link } }
    | _ => s
  else s

/-- A log entry before its number and link are known. -/
def entryOf (s : State) (a : Access) (size op : Nat) (signed : Bool) (data : Qword) (dst : List Nat) : LogEntry :=
  ⟨0, s.coreIx s.cur, s.cur, a.sp, a.kind, a.va, size, signed, data, op, dst, 0, false, a.form ≠ .other, false, none, false, none⟩

/-- Whether an access reaches a device page. -/
def State.devicePage (s : State) (a : Access) : Bool := match translate s a with
  | .ok (_, t) => t.mt = 2
  | .error _ => false

/-- Whether the current access may reach memory later than it issues: a plain load, store or LDC to a page that is no device (R125, R264). -/
def State.mayGoLate (s : State) (a : Access) (e : LogEntry) : Bool :=
  s.th.late && e.op = 0 && (a.kind = .read || a.kind = .write || a.kind = .ldc) && match translate s a with
    | .ok (_, t) => t.mt ≠ 2
    | .error _ => false

/-- Whether a device access of the current thread stands behind an earlier access of it that may be one (R125, R240). -/
def State.deviceWaits (s : State) (a : Access) : Bool := (s.log.any fun x => x.tid = s.cur && x.dev) && s.devicePage a

/-- A global access of the current thread (Table 6.2): the address checks, the line hold, then the access, its device path
or its fault. A device access waits for an earlier access of its thread that may be one (R125, R240). -/
def globalAccess {α : Type} (s : State) (a : Access) (size : Nat) (e : LogEntry) (run : State → MemRes α)
    (done : State → α → Res) (dev : State → Nat → Res) : Res :=
  if a.va % size ≠ 0 then .trap .misalign (.ofNat 64 a.va) s
  else if !wellFormedVa a.va then .trap .perm (.ofNat 64 a.va) s
  else if s.lineHeld a.va size || s.deviceWaits a then .hold
  else if s.mayGoLate a e then .ok (s.goLate e)
  else match run s with
    | .ok s x => done s x
    | .device s pa => dev s pa
    | .fault s f => threadFault s a f e

end Sys2Proof.Machine
end

