-- ==== Sys2Proof/Machine/Record.lean ====
section
/-! DEFINITION. The launch record (Tables 11.1 and 11.2): its fields, its checks (R247), its iteration space (R249), and the demand
of its teams (R231). -/

namespace Sys2Proof.Machine

def Launch.w (l : Launch) (n : Nat) : Nat := (l.words.getD n 0).toNat

/-- A field of the record: word, lowest bit, width. -/
def Launch.f (l : Launch) (n lo width : Nat) : Nat := l.w n / 2 ^ lo % 2 ^ width
def Launch.w64 (l : Launch) (n : Nat) : Nat := l.w n + 2 ^ 32 * l.w (n + 1)

def Launch.serial (l : Launch) : Bool := l.f 0 23 1 = 1
def Launch.pri (l : Launch) : Nat := l.f 0 20 3
def Launch.cshape (l : Launch) : Nat := l.f 0 17 3
def Launch.rank (l : Launch) : Nat := l.f 0 14 3
def Launch.order (l : Launch) : Nat := l.f 0 12 2
def Launch.split (l : Launch) : Bool := l.f 0 11 1 = 1
def Launch.role (l : Launch) : Bool := l.f 0 10 1 = 1
def Launch.item (l : Launch) : Bool := l.f 0 9 1 = 1
def Launch.pers (l : Launch) : Bool := l.f 0 8 1 = 1
def Launch.ext (l : Launch) (d : Nat) : Nat := l.w (1 + d)
def Launch.walkers (l : Launch) : Nat := l.f 5 16 5
def Launch.minSplit (l : Launch) : Nat := Nat.max 1 (l.f 5 0 16)
def Launch.code (l : Launch) : Nat := l.w64 6
def Launch.regsP (l : Launch) : Nat := l.f 10 19 7
def Launch.regsC (l : Launch) : Nat := l.f 10 12 7
def Launch.groupsP (l : Launch) : Nat := l.f 10 6 6
def Launch.groupsC (l : Launch) : Nat := l.f 10 0 6
def Launch.groups (l : Launch) : Nat := l.groupsC + l.groupsP
def Launch.bars (l : Launch) : Nat := l.f 11 24 8
def Launch.tiles (l : Launch) : Nat := l.f 11 18 6
def Launch.scratch (l : Launch) : Nat := l.f 11 0 18
def Launch.args (l : Launch) : Nat := l.w64 12
def Launch.signal (l : Launch) : Nat := l.w64 14
def Launch.depn (l : Launch) : Nat := l.f 16 8 8
def Launch.cbar (l : Launch) : Nat := l.f 16 0 8
def Launch.refillHead (l : Launch) : Nat := l.w 17
def Launch.nitems (l : Launch) : Nat := l.f 18 0 16
def Launch.deps (l : Launch) : Nat := l.w64 19
def Launch.const (l : Launch) : Nat := l.w64 21
def Launch.cbytes (l : Launch) : Nat := l.w 23

/-- Rows and columns of a cluster rectangle (Table 11.1, R234). -/
def shapeOf : Nat → Nat × Nat
  | 1 => (2, 2) | 2 => (2, 4) | 3 => (4, 2) | 4 => (2, 6) | 5 => (6, 2) | _ => (1, 1)

/-- The entry word and allotment of a group (R229, R230). -/
def Launch.entryOf (l : Launch) (group : Nat) : Word := .ofNat 32 (if group < l.groupsC then l.w 8 else l.w 9)
def Launch.regsOf (l : Launch) (group : Nat) : Nat := if group < l.groupsC then l.regsC else l.regsP

/-- Main-file entries in each lane (R231). -/
def Launch.lanes (l : Launch) : Nat := l.groupsC * l.regsC + l.groupsP * l.regsP

/-- The smallest b with 2^b at least n. -/
def boxBits (n : Nat) : Nat := if n ≤ 1 then 0 else Nat.log2 (n - 1) + 1

def Launch.count (l : Launch) : Nat := l.ext 0 * l.ext 1 * l.ext 2 * l.ext 3

/-- T of R250: the tile count, or the box for Z-order. -/
def Launch.total (l : Launch) : Nat :=
  if l.order = 2 then 2 ^ (boxBits (l.ext 0) + boxBits (l.ext 1) + boxBits (l.ext 2) + boxBits (l.ext 3)) else l.count

/-- One level of the Z-order deal (R249): coordinates so far and the index bits left. -/
def zLevel (b : List Nat) (lev : Nat) (x : List Nat) (i : Nat) : List Nat × Nat :=
  (List.range 4).foldl (fun (p : List Nat × Nat) d =>
    if lev < b.getD d 0 then (p.1.set d (p.1.getD d 0 + p.2 % 2 * 2 ^ lev), p.2 / 2) else p) (x, i)

/-- The mapping of an index to coordinates (R249); none for a skipped index. -/
def Launch.coords (l : Launch) (i : Nat) : Option (List Word) :=
  let e := (List.range 4).map l.ext
  if l.order = 2 then
    let b := e.map boxBits
    let x := ((List.range 40).foldl (fun (p : List Nat × Nat) lev => zLevel b lev p.1 p.2) ([0, 0, 0, 0], i)).1
    if (List.range 4).all fun d => x.getD d 0 < e.getD d 0 then some (x.map (.ofNat 32 ·)) else none
  else
    let x0 := i % l.ext 0
    let r := i / l.ext 0
    let x1 := r % l.ext 1
    let r := r / l.ext 1
    let x0 := if l.order = 1 && x1 % 2 = 1 then l.ext 0 - 1 - x0 else x0
    some ([x0, x1, r % l.ext 2, r / l.ext 2 % l.ext 3].map (.ofNat 32 ·))

/-- Whether every field of a record has a value that R247 accepts; the dependence list is checked when it is read. A team has at most 32
groups (Table 10.1, assumption 76). -/
def Launch.wellFormed (l : Launch) : Bool :=
  let dims := (List.range 4).all fun d => if d < l.rank then 1 ≤ l.ext d else l.ext d = 1
  let regs (n : Nat) : Bool := 8 ≤ n && n ≤ 112 && n % 8 = 0
  let va (a align : Nat) : Bool := wellFormedVa a && a % align = 0
  l.f 0 24 8 = 0 && l.f 0 0 8 = 1 && 1 ≤ l.rank && l.rank ≤ 4 && l.order ≤ 2 && l.cshape ≤ 5
    && dims && l.ext 0 ≤ 0xFFFFFFFE
    && l.f 5 21 11 = 0 && 1 ≤ l.walkers && l.walkers ≤ 16
    && va l.code 4096
    && l.f 10 26 6 = 0 && regs l.regsC && 1 ≤ l.groupsC && l.groupsC ≤ 32
    && (if l.role then regs l.regsP && 1 ≤ l.groupsP && l.groupsP ≤ 31 else l.w 9 = 0 && l.regsP = 0 && l.groupsP = 0)
    && l.bars ≤ 64 && l.tiles ≤ 48 && l.scratch ≤ 131072 && l.scratch % 256 = 0
    && (l.signal = 0 || va l.signal 32)
    && l.f 16 16 16 = 0 && l.depn ≤ 8 && (l.cbar = 255 || (192 ≤ l.cbar && l.cbar ≤ 254))
    && (l.item || l.refillHead = 0)
    && l.f 18 16 16 = 0 && (if l.item then 1 ≤ l.nitems else l.nitems = 0)
    && (l.depn = 0 || va l.deps 8)
    && (l.cbytes = 0 || va l.const 128) && l.cbytes ≤ 65536 && l.cbytes % 128 = 0
    && ((List.range 8).all fun k => l.w (24 + k) = 0)
    && !(l.pers && l.item) && !(l.item && l.cshape ≠ 0)
    && l.groups ≤ 32 && l.lanes ≤ 2048 && l.scratch + 16 * l.bars ≤ 131072
    && l.total ≤ 2 ^ 40 && l.count ≤ 2 ^ 40

end Sys2Proof.Machine
end

