-- ==== Sys2Proof/Machine/Barrier.lean ====
section
/-! DEFINITION. Stores of teams and host cores, scratchpad accesses (R132, R133), barrier objects and their handles, phases,
waiters and engine counts (R148-R152), dependence checks (R346), and interrupt assertions (R204). -/

namespace Sys2Proof.Machine

/-! Stores -/

/-- The owner of a thread's scratchpad, barrier objects and channels (R133, R149, R193). -/
def ownerOf : ThreadId → Owner
  | .host n => .host n
  | .simt t _ => .team t

def State.store (s : State) : Owner → Store
  | .host n => (s.hostCore n).store
  | .team t => match s.teams.find t with
    | some x => x.store
    | none => {}

def State.modStore (s : State) (o : Owner) (f : Store → Store) : State :=
  match o with
  | .host n => s.modHost n fun c => { c with store := f c.store }
  | .team t => s.modTeam t fun x => { x with store := f x.store }

/-- The launch of a team. -/
def State.launchOfTeam (s : State) (team : Nat) : Option Launch :=
  match s.teams.find team with
  | some x => s.launches.find x.launch
  | none => none

/-- The scratchpad allocation of an owner (R133). -/
def State.spadSize (s : State) : Owner → Nat
  | .host _ => Config.hostScratch
  | .team t => match s.launchOfTeam t with
    | some l => l.scratch
    | none => 0

/-- The number of barrier objects of an owner (R149). -/
def State.barCount (s : State) : Owner → Nat
  | .host _ => 64
  | .team t => match s.launchOfTeam t with
    | some l => l.bars
    | none => 0

/-- The owner that a member field names for an owner's thread (R132, R133); none where it is refused. -/
def State.memberOf (s : State) (o : Owner) (m : Nat) : Option Owner :=
  if m = 15 then some o else match o with
  | .host _ => none
  | .team t => match s.teams.find t with
    | none => none
    | some x => match x.cluster with
      | none => if m = 0 then some o else none
      | some c => (s.teams.find? fun p => p.2.cluster = some c && p.2.launch = x.launch && p.2.member = m).map fun p => .team p.1

/-! Scratchpad access (R132, R133) -/

/-- The place of a scratchpad access: the owner and byte offset, or the trap of R133. A size of 0 is the empty range of R191. -/
def State.spadAt (s : State) (o : Owner) (a : Word) (size align : Nat) : Except Trap (Owner × Nat) :=
  let off := a.toNat % 2 ^ 28
  if off % align ≠ 0 then .error .misalign
  else match s.memberOf o (a.toNat / 2 ^ 28) with
    | none => .error .perm
    | some m => if s.spadSize m < off + size then .error .perm else .ok (m, off)

/-- The address of a form with an offset (R132). -/
def spadAddr (a : Word) (i : Int) : Word :=
  .ofNat 32 (a.toNat / 2 ^ 28 * 2 ^ 28 + (((a.toNat % 2 ^ 28 : Nat) : Int) + i).emod (2 ^ 28) |>.toNat)

def Store.read (x : Store) (off n : Nat) : List Byte := (List.range n).map fun k => Tab.getD x.spad (off + k) 0

/-- Stores bytes; a store to a whole word clears its poison mark (R421). -/
def Store.write (x : Store) (off : Nat) (bs : List Byte) : Store :=
  { x with
    spad := ((List.range bs.length).zip bs).foldl (fun t p => Tab.set t 0 (off + p.1) p.2) x.spad
    poison := x.poison.filter fun w => !(off ≤ 4 * w && 4 * w + 4 ≤ off + bs.length) }

/-- Whether a range of a scratchpad holds poison (R421). -/
def Store.poisoned (x : Store) (off n : Nat) : Bool := x.poison.any fun w => 4 * w < off + n && off < 4 * w + 4

def Store.word (x : Store) (off : Nat) : Word := .ofNat 32 (leNat (x.read off 4))

/-! Barrier objects (R148, R149) -/

def State.bar (s : State) : BarRef → BarObj
  | .own o h => Tab.getD (s.store o).bars h {}
  | .ctx e h => match s.encls.find e with
    | some x => Tab.getD x.bars h {}
    | none => {}

def State.setBar (s : State) (r : BarRef) (b : BarObj) : State :=
  match r with
  | .own o h => s.modStore o fun x => { x with bars := Tab.set x.bars {} h b }
  | .ctx e h => s.modEncl e fun x => { x with bars := Tab.set x.bars {} h b }

/-- The object that a handle operand names for an owner in a context (R149), and whether it is the owner's own. -/
def State.handle (s : State) (o : Owner) (eid : Nat) (a : Word) : Option (BarRef × Bool) :=
  let h := a.toNat % 256
  if h < 64 then match s.memberOf o (a.toNat / 256 % 16) with
    | some m => if h < s.barCount m then some (.own m h, m = o) else none
    | none => none
  else if h < 192 then none
  else match s.encls.find eid with
    | some e => if e.barPage.isSome && eid ≠ 0 then some (.ctx eid h, true) else none
    | none => none

/-- An 8-bit handle of an engine's control word: the issuer's own object (R149). -/
def State.engineHandle (s : State) (o : Owner) (eid h : Nat) : Option BarRef :=
  (s.handle o eid (.ofNat 32 (h % 256 + 0xF00))).map (·.1)

/-- The scope at which a barrier is acquired (R149). -/
def BarObj.scope (b : BarObj) : BarRef → Nat
  | .own _ _ => if b.cv then 2 else 1
  | .ctx _ _ => 4

/-- Whether phase `p` is complete (R150). -/
def BarObj.complete (b : BarObj) (p : Word) : Bool := 1 ≤ (b.phase - p).toNat && (b.phase - p).toNat ≤ 2 ^ 31

/-- The phase completion check after each operation (R150), and whether a phase completed. -/
def BarObj.check (b : BarObj) : BarObj × Bool :=
  if b.valid && b.arrivePend = 0 && b.bytesPend = 0 then
    ({ b with phase := b.phase + 1, arrivePend := b.arriveExp, bytesPend := 0 }, true)
  else (b, false)

/-! Waiters and the launches that depend on an object -/

/-- Every thread with its number. -/
def State.allThreads (s : State) : List (ThreadId × Thread) := (s.cur, s.th) :: s.threads

/-- The signature that a barrier object carries now (R148). -/
def State.barSig (s : State) (b : BarObj) : Sig := orSigs b.sig s.epochNow

/-- A barrier object with the signature of one more arrival or count (R148). -/
def State.signBar (s : State) (b : BarObj) (g : Sig) : BarObj := { b with sig := addSig b.sig s.epochNow g }

/-- An acquire of a barrier by a thread covers the scratchpad words that copies have landed on and that barrier has counted (R178). -/
def State.seeLanded (s : State) (i : ThreadId) (r : BarRef) : State :=
  match (s.store (ownerOf i)).landedOn.filter fun p => p.1 = r with
  | [] => s
  | l => s.modThread i fun t => { t with seen := t.seen ++ l.map (·.2) }

/-- A waiter whose phase is complete goes on, and acquires at the barrier's scope (R151). What it gathers enters its core's epoch
signature (R143). -/
def State.wake (s : State) (r : BarRef) (b : BarObj) (i : ThreadId) : State :=
  (((s.modThread i fun t => { t with
    wait := .none, readyAt := Nat.max t.readyAt s.time, gathered := t.gathered ||| s.barSig b }).addEpoch (s.coreIx i)
      (s.barSig b)).seeLanded i r).orderFor i (b.scope r)

/-- Wakes every waiter of an object whose phase is now complete (R150). -/
def State.wakeAll (s : State) (r : BarRef) (b : BarObj) : State :=
  s.allThreads.foldl (fun s p => match p.2.wait with
    | .barrier r' ph _ _ => if r' = r && b.complete ph then s.wake r b p.1 else s
    | _ => s) s

/-- The dependence check of a listed context object (R346): a launch that has not started and lists an invalid or
untranslatable one ends with ERROR 0x112. -/
def State.depCheck (s : State) (eid h : Nat) : State :=
  if (s.bar (.ctx eid h)).valid then s else
  { s with queues := s.queues.map fun p => if p.2.owner = eid then
      (p.1, { p.2 with entries := p.2.entries.map fun e =>
        if !e.begun && e.error.isNone && (e.deps.getD []).any (fun d => d.1 = h) then { e with error := some 0x112 } else e })
      else p }

/-- Stores an object after an operation, with the phase completion and what it wakes (R150). -/
def State.barDone (s : State) (r : BarRef) (b : BarObj) : State :=
  match b.check with
  | (b', done) =>
    let s := s.setBar r b'
    if done then
      let s := s.wakeAll r b'
      match r with
      | .ctx e h => s.depCheck e h
      | .own _ _ => s
    else s

/-- A count of landed bytes by an engine (R150), carrying a signature; none when it is not applied. -/
def State.engineCount (s : State) (r : BarRef) (n : Nat) (sig : Sig) : Option State :=
  let b := s.bar r
  let left := b.bytesPend - n
  if !b.poison && b.valid && -(2 ^ 31) ≤ left && left < 2 ^ 31 then some (s.barDone r { s.signBar b sig with bytesPend := left }) else none

/-- The trap of an engine whose count is not applied (R150); an object that holds poison is not read (R421, assumption 101). -/
def State.countTrap (s : State) (r : BarRef) : Trap := if (s.bar r).poison then .integ else .barfault

/-- A count that no thread issued (R150): dropped where it is not applied. -/
def State.looseCount (s : State) (r : BarRef) (n : Nat) : State := (s.engineCount r n 0).getD s

/-- BARINV's effect on the waiters (R151): each traps with BARFAULT, TVAL the handle register it named (R201). -/
def State.faultWaiters (s : State) (r : BarRef) : State :=
  s.allThreads.foldl (fun s p => match p.2.wait with
    | .barrier r' _ restart v => if r' = r then
        match p.1 with
        | .host _ => s.modThread p.1 fun t => { t with wait := .none, w := restart, owed := some (.barfault, v) }
        | .simt _ _ => match s.launchOf p.1 with
          | some (n, _) => s.endLaunch n (trapError .barfault)
          | none => s
      else s
    | _ => s) s

/-! Interrupts (R204) -/

/-- The interrupt barrier of a bank. -/
def irqBar (n : Nat) (high : Bool) : BarRef := .own (.host n) (if high then 62 else 63)

/-- One assertion of an interrupt source: IPEND is set and 16 bytes are counted on the interrupt barrier. -/
def State.assertIrq (s : State) (n : Nat) (high : Bool) (src : Nat) : State :=
  (s.modHost n fun c => c.setBank high { c.bank high with ipend := (c.bank high).ipend ||| (1#32 <<< src) }).looseCount (irqBar n high) 16

/-- RASSTAT bits, with NSRC on the H bank of NCORE (R415). -/
def State.rasEvent (s : State) (b : Nat) : State :=
  let s := { s with reg := { s.reg with rasstat := s.reg.rasstat ||| (1#7 <<< b) } }
  let nsrc := s.reg.rascfg.toNat / 256 % 32
  if nsrc = 0 then s else s.assertIrq (s.reg.rascfg.toNat % 128) true nsrc

/-! The barrier instructions (R151) -/

def barTval (a : Word) : Dword := a.setWidth 64

/-- BARINIT. -/
def execBarinit (h : Hdr) (a b : Opnd) (s : State) : Host.Outcome State Fault Refusal :=
  issue (.barinit h a b) s fun s =>
    let x := s.src h 1 a
    let y := s.src h 2 b
    match s.handle (ownerOf s.cur) (s.space s.cur).eid.toNat x with
    | none => .trap .barfault (barTval x) s
    | some (r, _) =>
      if ((s.bar r).valid && !(s.bar r).poison) || y.toNat % 2 ^ 16 = 0 then .trap .barfault (barTval x) s
      else
        let cv := match r with
          | .own _ _ => y.getLsbD 16
          | .ctx _ _ => false
        .ok (s.setBar r { s.bar r with
          cv := cv, valid := true, arriveExp := y.toNat % 2 ^ 16, arrivePend := y.toNat % 2 ^ 16, bytesPend := 0, phase := 0
          poison := false })

/-- BARXB and arrivals share their checks: the object of a handle at which the thread may arrive. -/
def State.arrivable (s : State) (x : Word) : Option BarRef :=
  match s.handle (ownerOf s.cur) (s.space s.cur).eid.toNat x with
  | some (r, own) => if own || (s.bar r).cv then some r else none
  | none => none

/-- An arrival (R151): a release carrier. -/
def State.arrive (s : State) (r : BarRef) (b : BarObj) : State :=
  { s with th := { s.th with pending := none, sts := [] } }.barDone r
    { s.signBar b (s.th.pending.getD 0) with arrivePend := b.arrivePend - 1 }

/-- An arrival waits until every earlier access of its thread has taken effect: a store in the core's L1 or its scratchpad bank (R269), and
every other one before what the barrier orders (R271, edge 1). -/
def State.storesWait (s : State) : Bool := s.unreturned s.cur

/-- BARARV. -/
def execBararv (h : Hdr) (d a : Opnd) (s : State) : Host.Outcome State Fault Refusal :=
  issue (.bararv h d a) s fun s =>
    let x := s.src h 1 a
    match s.arrivable x with
    | none => .trap .barfault (barTval x) s
    | some r =>
      let b := s.bar r
      if b.poison then .trap .integ (barTval x) s
      else if !b.valid || b.arrivePend = 0 then .trap .barfault (barTval x) s
      else if s.storesWait then .hold
      else .ok ((s.arrive r b).postTo d b.phase)

/-- BARXB. -/
def execBarxb (h : Hdr) (a b : Opnd) (s : State) : Host.Outcome State Fault Refusal :=
  issue (.barxb h a b) s fun s =>
    let x := s.src h 1 a
    let y := s.src h 2 b
    match s.handle (ownerOf s.cur) (s.space s.cur).eid.toNat x with
    | none => .trap .barfault (barTval x) s
    | some (r, _) =>
      let o := s.bar r
      if o.poison then .trap .integ (barTval x) s
      else if !o.valid || 2 ^ 31 - 1 < o.bytesPend + y.toNat then .trap .barfault (barTval x) s
      else .ok (s.barDone r { o with bytesPend := o.bytesPend + y.toNat })

/-- BARARVX: as BARXB and then BARARV, as one operation. -/
def execBararvx (h : Hdr) (d a b : Opnd) (s : State) : Host.Outcome State Fault Refusal :=
  issue (.bararvx h d a b) s fun s =>
    let x := s.src h 1 a
    let y := s.src h 2 b
    match s.arrivable x with
    | none => .trap .barfault (barTval x) s
    | some r =>
      let o := s.bar r
      if o.poison then .trap .integ (barTval x) s
      else if !o.valid || o.arrivePend = 0 || 2 ^ 31 - 1 < o.bytesPend + y.toNat then .trap .barfault (barTval x) s
      else if s.storesWait then .hold
      else .ok ((s.arrive r { o with bytesPend := o.bytesPend + y.toNat }).postTo d o.phase)

/-- The object of a handle on which the thread may wait: its own (R149). -/
def State.waitable (s : State) (x : Word) : Option BarRef :=
  match s.handle (ownerOf s.cur) (s.space s.cur).eid.toNat x with
  | some (r, own) => if own then some r else none
  | none => none

/-- A BARWAIT or BARTST that returns a value from an object adds its signature to the thread's gathered set (R145). -/
def State.barGather (s : State) (r : BarRef) : State :=
  let g := s.barSig (s.bar r)
  ({ s with th := { s.th with gathered := s.th.gathered ||| g } }).addEpoch (s.coreIx s.cur) g

/-- The acquire of a BARWAIT or BARTST that finds its phase complete (R151). -/
def State.barAcquire (s : State) (r : BarRef) : State := ((s.barGather r).seeLanded s.cur r).orderBy ⟨0, (s.bar r).scope r, false⟩

/-- BARWAIT. -/
def execBarwait (h : Hdr) (a b : Opnd) (s : State) : Host.Outcome State Fault Refusal :=
  issue (.barwait h a b) s fun s =>
    let x := s.src h 1 a
    let y := s.src h 2 b
    match s.waitable x with
    | none => .trap .barfault (barTval x) s
    | some r =>
      if (s.bar r).poison then .trap .integ (barTval x) s
      else if !(s.bar r).valid then .trap .barfault (barTval x) s
      else if (s.bar r).complete y then .ok (s.barAcquire r)
      else
        let s := s.voidL
        .ok { s with th := { s.th with wait := .barrier r y s.th.w (barTval x) } }

/-- BARTST. -/
def execBartst (h : Hdr) (p : BitVec 3) (a b : Opnd) (s : State) : Host.Outcome State Fault Refusal :=
  issue (.bartst h p a b) s fun s =>
    let x := s.src h 1 a
    let y := s.src h 2 b
    match s.waitable x with
    | none => .trap .barfault (barTval x) s
    | some r =>
      if (s.bar r).poison then .trap .integ (barTval x) s
      else if !(s.bar r).valid then .trap .barfault (barTval x) s
      else if (s.bar r).complete y then .ok ((s.barAcquire r).postPred p.toNat true)
      else .ok ((s.barGather r).postPred p.toNat false)

/-- BARINV. -/
def execBarinv (h : Hdr) (a : Opnd) (s : State) : Host.Outcome State Fault Refusal :=
  issue (.barinv h a) s fun s =>
    let x := s.src h 1 a
    match s.handle (ownerOf s.cur) (s.space s.cur).eid.toNat x with
    | none => .trap .barfault (barTval x) s
    | some (r, _) =>
      if (s.bar r).poison then .trap .integ (barTval x) s
      else if !(s.bar r).valid then .trap .barfault (barTval x) s
      else
        let s := (s.setBar r { s.bar r with valid := false }).faultWaiters r
        .ok (match r with
          | .ctx e k => s.depCheck e k
          | .own _ _ => s)

/-- WPTR (R152). -/
def execWptr (h : Hdr) (d a : Opnd) (s : State) : Host.Outcome State Fault Refusal :=
  issue (.wptr h d a) s fun s =>
    let c := (s.src h 1 a).toNat % 16
    let ch := Tab.getD (s.store (ownerOf s.cur)).chans c {}
    .ok (s.postTo d ch.wptr)

end Sys2Proof.Machine
end

