-- ==== Sys2Proof/Machine/Flags.lean ====
section
/-! DEFINITION. Value formats, exact values, rounding, narrowing and the FPC flags they set (R34-R52). -/

namespace Sys2Proof.Machine

/-- A binary floating format: fraction bits and exponent bits (Tables 2.1 and 2.2). -/
structure Fmt where
  m : Nat
  e : Nat
  deriving DecidableEq, Repr

def f64 : Fmt := ⟨52, 11⟩
def f32 : Fmt := ⟨23, 8⟩
def f16 : Fmt := ⟨10, 5⟩
def bf16 : Fmt := ⟨7, 8⟩
def e4m3 : Fmt := ⟨3, 4⟩
def e5m2 : Fmt := ⟨2, 5⟩
def e2m1 : Fmt := ⟨1, 2⟩

def Fmt.bias (f : Fmt) : Nat := 2 ^ (f.e - 1) - 1

/-- The exponent of the format's smallest subnormal. -/
def Fmt.qmin (f : Fmt) : Int := 1 - (f.bias : Int) - f.m

/-- The magnitude bits of infinity in an IEEE format. -/
def Fmt.infBits (f : Fmt) : Nat := (2 ^ f.e - 1) * 2 ^ f.m

def Fmt.signBit (f : Fmt) : Nat := 2 ^ (f.m + f.e)

/-- The canonical NaN of Table 2.1, and of E5M2 in Table 2.2. -/
def Fmt.nanBits (f : Fmt) : Nat := f.infBits + 2 ^ (f.m - 1)

/-- An exact value: a NaN, an infinity, or (-1)^neg x mag x 2^exp. -/
inductive FVal where
  | nan
  | inf (neg : Bool)
  | fin (neg : Bool) (mag : Nat) (exp : Int)
  deriving DecidableEq, Repr

def FVal.isNan : FVal → Bool
  | .nan => true
  | _ => false

def FVal.isInf : FVal → Bool
  | .inf _ => true
  | _ => false

def FVal.isZero : FVal → Bool
  | .fin _ m _ => m == 0
  | _ => false

def FVal.neg : FVal → FVal
  | .nan => .nan
  | .inf s => .inf !s
  | .fin s m e => .fin (!s) m e

def FVal.sign : FVal → Bool
  | .nan => false
  | .inf s => s
  | .fin s _ _ => s

/-- The value of an encoding of an IEEE-like format (R34, and E5M2 of R35). -/
def Fmt.value (f : Fmt) (n : Nat) : FVal :=
  let s := n / f.signBit % 2 == 1
  let e := n / 2 ^ f.m % 2 ^ f.e
  let m := n % 2 ^ f.m
  if e = 2 ^ f.e - 1 then (if m = 0 then .inf s else .nan)
  else if e = 0 then .fin s m f.qmin
  else .fin s (2 ^ f.m + m) (f.qmin + (e - 1 : Nat))

/-- The value of an E4M3 or E2M1 encoding (R35): no infinities; E4M3 has one NaN magnitude. -/
def Fmt.narrowValue (f : Fmt) (n : Nat) : FVal :=
  let s := n / f.signBit % 2 == 1
  let e := n / 2 ^ f.m % 2 ^ f.e
  let m := n % 2 ^ f.m
  if f = e4m3 && e = 15 && m = 7 then .nan
  else if e = 0 then .fin s m f.qmin
  else .fin s (2 ^ f.m + m) (f.qmin + (e - 1 : Nat))

/-! Rounding -/

inductive RMode where
  | rne | rz | rd | ru
  deriving DecidableEq, Repr

/-- FPC.RM (Table 2.5). -/
def rmOf (n : Nat) : RMode :=
  match n % 4 with
  | 0 => .rne | 1 => .rz | 2 => .rd | _ => .ru

def fpcRm (fpc : Word) : RMode := rmOf fpc.toNat
def fpcFtz (fpc : Word) : Bool := fpc.getLsbD 2

/-- The flags NV, DZ, OF, UF, NX as bits 0-4. -/
def NV : BitVec 5 := 1
def DZ : BitVec 5 := 2
def OF : BitVec 5 := 4
def UF : BitVec 5 := 8
def NX : BitVec 5 := 16

def flagIf (b : Bool) (f : BitVec 5) : BitVec 5 := if b then f else 0

/-- The integer that a rounding mode takes for n / d, of the given sign. -/
def roundQuot (rm : RMode) (neg : Bool) (n d : Nat) : Nat :=
  let q := n / d
  let r := n % d
  let up := match rm with
    | .rne => d < 2 * r || (d == 2 * r && q % 2 == 1)
    | .rz => false
    | .rd => neg && r != 0
    | .ru => !neg && r != 0
  if up then q + 1 else q

/-- num / den x 2^s as a fraction of naturals. -/
def shiftFrac (num den : Nat) (s : Int) : Nat × Nat :=
  match s with
  | .ofNat k => (num * 2 ^ k, den)
  | .negSucc k => (num, den * 2 ^ (k + 1))

/-- The floor of the base-2 logarithm of num / den, both nonzero. -/
def fracLog (num den : Nat) : Int :=
  let l : Int := (Nat.log2 num : Int) - Nat.log2 den
  let x := shiftFrac num den (-l)
  if x.1 < x.2 then l - 1 else l

/-- A rounded magnitude: its bits (sign left out), whether it differs from the exact value, whether it overflowed, and
whether it is tiny after rounding. -/
structure Rounded where
  mag      : Nat
  inexact  : Bool
  overflow : Bool
  tiny     : Bool
  deriving DecidableEq, Repr

/-- Rounds num / den x 2^e (nonzero) to a format with unbounded exponent range above; `mag` may pass the infinity code. -/
def roundMag (f : Fmt) (rm : RMode) (neg : Bool) (num den : Nat) (e : Int) : Rounded :=
  let l := fracLog num den + e
  let xu := l - f.m
  let x := max xu f.qmin
  let fr := shiftFrac num den (e - x)
  let q := roundQuot rm neg fr.1 fr.2
  let fu := shiftFrac num den (e - xu)
  let emin : Int := f.qmin + f.m
  let tiny := l < emin - 1 || (l == emin - 1 && roundQuot rm neg fu.1 fu.2 < 2 ^ (f.m + 1))
  let mag := (x - f.qmin).toNat * 2 ^ f.m + q
  ⟨mag, fr.1 % fr.2 != 0, f.infBits ≤ mag, tiny⟩

/-- A result with its flags. -/
structure FRes where
  bits  : Nat
  flags : BitVec 5
  deriving DecidableEq, Repr

/-- Rounds num / den x 2^e to an IEEE format under a rounding mode, with OF, UF and NX as IEEE 754-2019 gives them, and with
the flush of R43. OF is that of the rounded result (R46, R47): a DOT whose exact sum lies beyond the largest finite number of F32 and rounds
back to it sets NX alone, though Table 2.5 speaks of the exact result and R50 names only R41 (DESIGN CHOICE, assumption 106). -/
def roundIeee (f : Fmt) (rm : RMode) (ftz : Bool) (neg : Bool) (num den : Nat) (e : Int) : FRes :=
  let s := if neg then f.signBit else 0
  if num = 0 then ⟨s, 0⟩ else
  let r := roundMag f rm neg num den e
  if r.overflow then
    let toInf := match rm with
      | .rne => true | .rz => false | .rd => neg | .ru => !neg
    ⟨s + (if toInf then f.infBits else f.infBits - 1), OF ||| NX⟩
  else if ftz && r.tiny then ⟨s, UF ||| NX⟩
  else ⟨s + r.mag, flagIf r.inexact NX ||| flagIf (r.tiny && r.inexact) UF⟩

/-- Rounds an exact value to an IEEE format (R44, R47); `nv` says that the value is a NaN made from operands that are none. -/
def FVal.round (f : Fmt) (rm : RMode) (ftz nv : Bool) : FVal → FRes
  | .nan => ⟨f.nanBits, flagIf nv NV⟩
  | .inf s => ⟨(if s then f.signBit else 0) + f.infBits, 0⟩
  | .fin s m e => roundIeee f rm ftz s m 1 e

/-- The input flush of R43. -/
def flushIn (ftz : Bool) (n : Nat) : Nat := if ftz && n / 2 ^ 23 % 2 ^ 8 == 0 then n / 2 ^ 31 % 2 * 2 ^ 31 else n

/-- An F32 operand as a value, after FTZ. -/
def f32In (ftz : Bool) (w : Word) : FVal := f32.value (flushIn ftz w.toNat)

/-! Exact arithmetic -/

/-- A product, and whether it is infinity times zero. -/
def FVal.mul : FVal → FVal → FVal × Bool
  | .nan, _ => (.nan, false)
  | _, .nan => (.nan, false)
  | .inf s, .inf t => (.inf (s != t), false)
  | .inf s, .fin t m _ => if m = 0 then (.nan, true) else (.inf (s != t), false)
  | .fin s m _, .inf t => if m = 0 then (.nan, true) else (.inf (s != t), false)
  | .fin s m e, .fin t n f => (.fin (s != t) (m * n) (e + f), false)

/-- The least exponent of the finite values of a list. -/
def leastExp : List FVal → Int → Int
  | [], d => d
  | .fin _ _ e :: t, d => leastExp t (min e d)
  | _ :: t, d => leastExp t d

/-- The exact sum of finite values in units of 2^d. -/
def sumAt (d : Int) : List FVal → Int
  | [] => 0
  | .fin s m e :: t =>
    let v : Int := (m * 2 ^ (e - d).toNat : Nat)
    (if s then -v else v) + sumAt d t
  | _ :: t => sumAt d t

/-- The exact sum of values, and whether it is a NaN of infinities of both signs. An exact zero sum takes the sign of its
addends when all are zeros of one sign; any other is +0, and -0 under RD (R50, R106). -/
def exactSum (rd : Bool) (l : List FVal) : FVal × Bool :=
  if l.any FVal.isNan then (.nan, false)
  else
    let pos := l.any fun v => v.isInf && !v.sign
    let neg := l.any fun v => v.isInf && v.sign
    if pos && neg then (.nan, true)
    else if pos || neg then (.inf neg, false)
    else
      let d := leastExp l 0
      match sumAt d l with
      | .ofNat 0 =>
        if l.all fun v => v.isZero && !v.sign then (.fin false 0 0, false)
        else if l.all fun v => v.isZero && v.sign then (.fin true 0 0, false)
        else (.fin rd 0 0, false)
      | .ofNat (k + 1) => (.fin false (k + 1) d, false)
      | .negSucc k => (.fin true (k + 1) d, false)

/-- a + b, rounded once (R106, R110). -/
def fAdd (f : Fmt) (rm : RMode) (ftz : Bool) (a b : FVal) : FRes :=
  let s := exactSum (rm == .rd) [a, b]
  s.1.round f rm ftz s.2

def fMul (f : Fmt) (rm : RMode) (ftz : Bool) (a b : FVal) : FRes :=
  let p := a.mul b
  p.1.round f rm ftz p.2

/-- c + a x b, rounded once; infinity times zero sets NV even when c is a NaN (R106). -/
def fFma (f : Fmt) (rm : RMode) (ftz negate : Bool) (a b c : FVal) : FRes :=
  let p := a.mul b
  let s := exactSum (rm == .rd) [c, if negate then p.1.neg else p.1]
  s.1.round f rm ftz (s.2 || p.2)

/-- The sum of d and the products of corresponding elements, rounded once (R50). With a NaN operand beside another cause, an infinity times
zero still sets NV and a sum of opposite infinities does not (DESIGN CHOICE, assumption 85). -/
def fDot (rm : RMode) (ftz : Bool) (d : FVal) (a b : List FVal) : FRes :=
  let ps := List.zipWith FVal.mul a b
  let s := exactSum (rm == .rd) (d :: ps.map (·.1))
  s.1.round f32 rm ftz (s.2 || ps.any (·.2))

/-- Exact order of two values that are no NaNs: less, equal or greater; -0 equals +0. -/
def FVal.cmp (a b : FVal) : Ordering :=
  match a, b with
  | .inf s, .inf t => if s = t then .eq else if s then .lt else .gt
  | .inf s, _ => if s then .lt else .gt
  | _, .inf t => if t then .gt else .lt
  | a, b =>
    let d := leastExp [a, b] 0
    compare (sumAt d [a]) (sumAt d [b])

/-- The floating-point column of Table 3.4; codes 12-15 are refused before. -/
def fCond (k : Nat) (a b : FVal) : Bool :=
  let un := a.isNan || b.isNan
  let c := if un then Ordering.eq else a.cmp b
  match k with
  | 0 => !un && c == .eq
  | 1 => un || c != .eq
  | 2 => !un && c == .lt
  | 3 => !un && c != .gt
  | 4 => !un && c == .gt
  | 5 => !un && c != .lt
  | 6 => un || c == .lt
  | 7 => un || c != .gt
  | 8 => un || c == .gt
  | 9 => un || c != .lt
  | 10 => !un
  | _ => un

/-- Rounds a value to an integer (R48, R113): sign and magnitude, and whether it was inexact; `none` for a NaN or infinity. -/
def FVal.toInt (rm : RMode) : FVal → Option (Int × Bool)
  | .fin s m e =>
    let fr := shiftFrac m 1 e
    let q := roundQuot rm s fr.1 fr.2
    some (if s then -(q : Int) else q, fr.1 % fr.2 != 0)
  | _ => none

/-- Conversion to an integer range (R48). -/
def toRange (rm : RMode) (lo hi : Int) (v : FVal) : Int × BitVec 5 :=
  match v with
  | .nan => (0, NV)
  | .inf s => (if s then lo else hi, NV)
  | v => match v.toInt rm with
    | some (i, inex) => if i < lo then (lo, NV) else if hi < i then (hi, NV) else (i, flagIf inex NX)
    | none => (0, NV)

/-! Scales and narrowing -/

/-- S9Value(s) as 3^M x 2^e over 2^M, or none for a NaN scale (R39). -/
def s9 (s : Nat) : Option (Bool × Int) :=
  let e := s / 2 % 256
  if e = 255 then none else some (s % 2 == 1, (e : Int) - 127)

/-- v x S9Value(s), and whether the scale is a NaN (R39). -/
def scaleBy (v : FVal) (s : Nat) : FVal × Bool :=
  match s9 s, v with
  | none, _ => (.nan, true)
  | some (m, e), .fin n x ex => (.fin n (if m then 3 * x else 2 * x) (ex + e - 1), false)
  | some _, v => (v, false)

/-- The format codes 4-9 of Table 2.3 that PKN, UPKN and the narrow drains take. -/
inductive Narrowed where
  | e4m3 | e5m2 | e2m1 | s8 | n8 | s4
  deriving DecidableEq, Repr

def Narrowed.ofCode : Nat → Option Narrowed
  | 4 => some .e4m3 | 5 => some .e5m2 | 6 => some .e2m1 | 7 => some .s8 | 8 => some .n8 | 9 => some .s4 | _ => none

def Narrowed.width : Narrowed → Nat
  | .e2m1 | .s4 => 4
  | _ => 8

def clampTo (lo hi i : Int) : Int := if i < lo then lo else if hi < i then hi else i

/-- Narrow to an integer format: q = num / den x 2^e. -/
def narrowInt (lo hi : Int) (w : Nat) (neg : Bool) (num den : Nat) (e : Int) : FRes :=
  let fr := shiftFrac num den e
  let q := roundQuot .rne neg fr.1 fr.2
  let i : Int := if neg then -(q : Int) else q
  let out := i < lo || hi < i
  let c := clampTo lo hi i
  let same := !out && fr.1 % fr.2 == 0
  ⟨(BitVec.ofInt w c).toNat, flagIf out NV ||| flagIf (!same) NX⟩

/-- Narrow to a floating format with its largest finite magnitude bits (R46). -/
def narrowFloat (f : Fmt) (maxBits : Nat) (inf : Bool) (neg : Bool) (num den : Nat) (e : Int) : FRes :=
  let s := if neg then f.signBit else 0
  if num = 0 then ⟨s, 0⟩ else
  let r := roundMag f .rne neg num den e
  if maxBits < r.mag then ⟨s + (if inf then f.infBits else maxBits), OF ||| NX⟩
  else ⟨s + r.mag, flagIf r.inexact NX⟩

/-- The function Narrow of R46. `scale` is an S9 scale by which the value is divided. -/
def narrow (v : FVal) (scale : Option Nat) (fmt : Narrowed) (satE5 : Bool) : FRes :=
  let nanRes : FRes := match fmt with
    | .e4m3 => ⟨0x7F, 0⟩
    | .e5m2 => ⟨0x7E, 0⟩
    | _ => ⟨0, NV⟩
  match v with
  | .nan => nanRes
  | v =>
    match (match scale with
      | none => some (1, 1, (0 : Int))
      | some s => match s9 s with
        | none => none
        | some (m, e) => some (if m then (2, 3, -e) else (1, 1, -e))) with
    | none => nanRes
    | some (k, d, x) =>
      match v with
      | .nan => nanRes
      | .inf neg => match fmt with
        | .e4m3 => ⟨(if neg then 0x80 else 0) + 0x7E, 0⟩
        | .e5m2 => ⟨(if neg then 0x80 else 0) + 0x7C, 0⟩
        | .e2m1 => ⟨(if neg then 8 else 0) + 7, 0⟩
        | .s8 => ⟨if neg then 0x80 else 0x7F, NV ||| NX⟩
        | .n8 => ⟨if neg then 0 else 0xFF, NV ||| NX⟩
        | .s4 => ⟨if neg then 8 else 7, NV ||| NX⟩
      | .fin neg m e => match fmt with
        | .e4m3 => narrowFloat Machine.e4m3 0x7E false neg (k * m) d (e + x)
        | .e5m2 => narrowFloat Machine.e5m2 0x7B (!satE5) neg (k * m) d (e + x)
        | .e2m1 => narrowFloat Machine.e2m1 7 false neg (k * m) d (e + x)
        | .s8 => narrowInt (-128) 127 8 neg (k * m) d (e + x)
        | .n8 => narrowInt 0 255 8 neg (k * m) d (e + x)
        | .s4 => narrowInt (-8) 7 4 neg (k * m) d (e + x)

/-- The real value of a narrow element (R35, R36). -/
def Narrowed.value (fmt : Narrowed) (n : Nat) : FVal :=
  let int (w : Nat) : FVal := let i := (BitVec.ofNat w n).toInt; .fin (i < 0) i.natAbs 0
  match fmt with
  | .e4m3 => Machine.e4m3.narrowValue n
  | .e5m2 => Machine.e5m2.value n
  | .e2m1 => Machine.e2m1.narrowValue n
  | .s8 => int 8
  | .n8 => .fin false (n % 256) 0
  | .s4 => int 4

/-! Packing (R38) -/

/-- The nibble of logical 4-bit element k, and the byte of logical 8-bit element k. -/
def pi4 (k : Nat) : Nat := k / 2 % 4 + k % 2 * 4
def pi8 (k : Nat) : Nat := k / 2 % 2 + k % 2 * 2

/-- The bits of logical element k of width w in a 32-bit word. -/
def elemBits (w k : Nat) (x : Word) : Nat :=
  match w with
  | 4 => x.toNat / 2 ^ (4 * pi4 k) % 16
  | 8 => x.toNat / 2 ^ (8 * pi8 k) % 256
  | _ => x.toNat / 2 ^ (16 * (k % 2)) % 65536

/-- Sets flags in a state's FPC: the flags of a fixed-latency word (R41), noted for a SYSWR of FPC in its chain (R96). -/
def State.raise (s : State) (f : BitVec 5) : State :=
  { s with th := { s.th with fpc := setFlags s.th.fpc f }, chain := s.chain.map fun c => { c with raised := c.raised ||| f } }

end Sys2Proof.Machine
end

