-- ==== Sys2Proof/Machine/Floating.lean ====
section
/-! DEFINITION. Floating-point, conversion, packing and DOT forms (R106-R111, R113-R120). -/

namespace Sys2Proof.Machine

/-! Shared operations -/

/-- A class 4 word that writes d with the low 32 bits of a rounded result and raises its flags. -/
def State.putF (s : State) (d : Opnd) (r : FRes) : State := (s.put .c4 d (.ofNat 32 r.bits)).raise r.flags

/-- A class 4 word over two sources and the FPC it reads: operands as bit patterns. -/
def fop2 (i : Instr) (h : Hdr) (d a b : Opnd) (f : Word → Word → Word → FRes) (s : State) : Host.Outcome State Fault Refusal :=
  issue i s fun s => .ok (s.putF d (f s.fpcIn (s.src h 1 a) (s.src h 2 b)))

/-- As `fop2`, reading d as a third source. -/
def fop3 (i : Instr) (h : Hdr) (d a b : Opnd) (f : Word → Word → Word → Word → FRes) (s : State) :
    Host.Outcome State Fault Refusal :=
  issue i s fun s => .ok (s.putF d (f s.fpcIn (s.src h 0 d) (s.src h 1 a) (s.src h 2 b)))

def fop1 (i : Instr) (h : Hdr) (d a : Opnd) (f : Word → Word → FRes) (s : State) : Host.Outcome State Fault Refusal :=
  issue i s fun s => .ok (s.putF d (f s.fpcIn (s.src h 1 a)))

/-- FADD and FSUB (R106). -/
def faddOf (negate : Bool) (c a b : Word) : FRes :=
  let y := f32In (fpcFtz c) b
  fAdd f32 (fpcRm c) (fpcFtz c) (f32In (fpcFtz c) a) (if negate then y.neg else y)

def fmulOf (c a b : Word) : FRes := fMul f32 (fpcRm c) (fpcFtz c) (f32In (fpcFtz c) a) (f32In (fpcFtz c) b)

/-- FFMA and FFNMA (R106). -/
def ffmaOf (negate : Bool) (c d a b : Word) : FRes :=
  fFma f32 (fpcRm c) (fpcFtz c) negate (f32In (fpcFtz c) a) (f32In (fpcFtz c) b) (f32In (fpcFtz c) d)

/-- -0 counts as less than +0 (R107). -/
def fLess (x y : FVal) : Bool :=
  if x.isZero && y.isZero then x.sign && !y.sign else x.cmp y == .lt

/-- FMIN and FMAX on operands after FTZ (R107): no flag, no rounding. -/
def fminmax (max : Bool) (x y : Nat) : Nat :=
  let vx := f32.value x
  let vy := f32.value y
  if vx.isNan then (if vy.isNan then 0x7FC00000 else y)
  else if vy.isNan then x
  else if fLess vx vy then (if max then y else x) else (if max then x else y)

def fminmaxOf (max : Bool) (c a b : Word) : FRes :=
  ⟨fminmax max (flushIn (fpcFtz c) a.toNat) (flushIn (fpcFtz c) b.toNat), 0⟩

/-- Two halves computed on their own; flags are the union (R109, R116). -/
def halves (lo hi : FRes) : FRes := ⟨lo.bits + 65536 * hi.bits, lo.flags ||| hi.flags⟩

def half (f : Fmt) (hi : Bool) (w : Word) : FVal := f.value (if hi then w.toNat / 65536 else w.toNat % 65536)

def pairAdd (f : Fmt) (_ a b : Word) : FRes :=
  halves (fAdd f .rne false (half f false a) (half f false b)) (fAdd f .rne false (half f true a) (half f true b))

def pairMul (f : Fmt) (_ a b : Word) : FRes :=
  halves (fMul f .rne false (half f false a) (half f false b)) (fMul f .rne false (half f true a) (half f true b))

def pairFma (f : Fmt) (_ d a b : Word) : FRes :=
  halves (fFma f .rne false false (half f false a) (half f false b) (half f false d))
    (fFma f .rne false false (half f true a) (half f true b) (half f true d))

/-- An F64 word: pairs in and out, interlocked, FTZ ignored (R110). -/
def dop (i : Instr) (d : Opnd) (f : RMode → State → FRes) (s : State) : Host.Outcome State Fault Refusal :=
  issue i s fun s =>
    let r := f (fpcRm s.fpcIn) s
    .ok (s.postTo2 d (.ofNat 64 r.bits) r.flags)

def f64Of (x : Dword) : FVal := f64.value x.toNat

/-- The float unary forms that round to an integral value (R113): NaN, infinities and integral values pass, a zero
result keeps the sign, and only FRINT sets NX. -/
def integral (rm : RMode) (nx : Bool) (ftz : Bool) (a : Word) : FRes :=
  let n := flushIn ftz a.toNat
  match f32.value n with
  | .nan => ⟨0x7FC00000, 0⟩
  | .inf _ => ⟨n, 0⟩
  | .fin neg m e => match (FVal.fin neg m e).toInt rm with
    | some (i, true) => ⟨(roundIeee f32 rm false neg i.natAbs 1 0).bits, flagIf nx NX⟩
    | _ => ⟨n, 0⟩

/-- A NaN gives the canonical NaN; otherwise a change of the sign bit (R113). -/
def signOp (f : Nat → Nat) (ftz : Bool) (a : Word) : FRes :=
  let n := flushIn ftz a.toNat
  if (f32.value n).isNan then ⟨0x7FC00000, 0⟩ else ⟨f n, 0⟩

/-- The class mask of R114, from the raw bits. -/
def fclassOf (a : Word) : Nat :=
  let e := a.toNat / 2 ^ 23 % 256
  let m := a.toNat % 2 ^ 23
  if e = 255 then (if m = 0 then (if a.msb then 1 else 128) else if a.getLsbD 22 then 512 else 256)
  else if e = 0 then (if m = 0 then (if a.msb then 8 else 16) else if a.msb then 4 else 32)
  else if a.msb then 2 else 64

/-- An integer as a value. -/
def intVal (i : Int) : FVal := .fin (i < 0) i.natAbs 0

/-- A conversion to S32 or N32 (R48). -/
def toS32 (rm : RMode) (v : FVal) : FRes :=
  let r := toRange rm (-2147483648) 2147483647 v
  ⟨(BitVec.ofInt 32 r.1).toNat, r.2⟩
def toN32 (rm : RMode) (v : FVal) : FRes :=
  let r := toRange rm 0 4294967295 v
  ⟨r.1.toNat, r.2⟩

/-- b of PKN and UPKN: slot, format and scale (R117). -/
def pkSlot (b : Word) : Nat := b.toNat % 8
def pkFmt (b : Word) : Option Narrowed := Narrowed.ofCode (b.toNat / 8 % 16)
def pkScale (b : Word) : Nat := b.toNat / 2 ^ 23
def pkOk (b : Word) : Bool :=
  match pkFmt b with
  | some f => f.width == 4 || pkSlot b < 4
  | none => false

/-- Inserts a narrow element at its logical slot (R38, R117). -/
def insertElem (w k : Nat) (d : Word) (v : Nat) : Word :=
  let pos := if w = 8 then 8 * pi8 k else 4 * pi4 k
  let mask : Word := .ofNat 32 ((2 ^ w - 1) * 2 ^ pos)
  (d &&& ~~~mask) ||| .ofNat 32 (v * 2 ^ pos)

/-- UPKN (R118). -/
def upknOf (fmt : Narrowed) (a b : Word) : FRes :=
  let v := fmt.value (elemBits fmt.width (pkSlot b) a)
  let p := scaleBy v (pkScale b)
  p.1.round f32 .rne false (p.2 && !v.isNan)

/-- FSCL (R119). -/
def fsclOf (c a b : Word) : FRes :=
  let v := f32In (fpcFtz c) a
  let p := scaleBy v (b.toNat % 512)
  p.1.round f32 (fpcRm c) (fpcFtz c) (p.2 && !v.isNan)

/-- A floating DOT form of n elements of width w (R50, R120). -/
def fdotOf (w n : Nat) (val : Nat → FVal) (c d a b : Word) : FRes :=
  let el (x : Word) := (List.range n).map fun k => val (elemBits w k x)
  fDot (fpcRm c) (fpcFtz c) (f32In (fpcFtz c) d) (el a) (el b)

/-- The wrapping integer sum of products (R50). -/
def idotSum (w : Nat) (signed : Bool) (a b : Word) : Nat → Int
  | 0 => 0
  | k + 1 =>
    let v (x : Word) : Int := if signed then (BitVec.ofNat w (elemBits w k x)).toInt else elemBits w k x
    v a * v b + idotSum w signed a b k

def idotOf (w n : Nat) (signed : Bool) (d a b : Word) : Word := d + .ofInt 32 (idotSum w signed a b n)

/-! Meanings -/

/-- R106: a + b. -/
def execFadd (h : Hdr) (d a b : Opnd) (s : State) : Host.Outcome State Fault Refusal :=
  fop2 (.fadd h d a b) h d a b (faddOf false) s

/-- R106: a - b. -/
def execFsub (h : Hdr) (d a b : Opnd) (s : State) : Host.Outcome State Fault Refusal :=
  fop2 (.fsub h d a b) h d a b (faddOf true) s

/-- R106: a x b. -/
def execFmul (h : Hdr) (d a b : Opnd) (s : State) : Host.Outcome State Fault Refusal :=
  fop2 (.fmul h d a b) h d a b fmulOf s

/-- R106: a x b + d, one rounding. -/
def execFfma (h : Hdr) (d a b : Opnd) (s : State) : Host.Outcome State Fault Refusal :=
  fop3 (.ffma h d a b) h d a b (ffmaOf false) s

/-- R106: d - a x b, one rounding. -/
def execFfnma (h : Hdr) (d a b : Opnd) (s : State) : Host.Outcome State Fault Refusal :=
  fop3 (.ffnma h d a b) h d a b (ffmaOf true) s

/-- R107: the smaller operand. -/
def execFmin (h : Hdr) (d a b : Opnd) (s : State) : Host.Outcome State Fault Refusal :=
  fop2 (.fmin h d a b) h d a b (fminmaxOf false) s

/-- R107: the larger operand. -/
def execFmax (h : Hdr) (d a b : Opnd) (s : State) : Host.Outcome State Fault Refusal :=
  fop2 (.fmax h d a b) h d a b (fminmaxOf true) s

/-- R108: p := the floating condition of Table 3.4, class 4, no flag. -/
def execFcmp (h : Hdr) (k : BitVec 4) (p : BitVec 3) (a b : Opnd) (s : State) : Host.Outcome State Fault Refusal :=
  issue (.fcmp h k p a b) s fun s =>
    let ftz := fpcFtz s.fpcIn
    .ok (s.putPred .c4 p.toNat (fCond k.toNat (f32In ftz (s.src h 1 a)) (f32In ftz (s.src h 2 b))))

/-- R109: the sum of each half of an F16 pair. -/
def execHadd2 (h : Hdr) (d a b : Opnd) (s : State) : Host.Outcome State Fault Refusal :=
  fop2 (.hadd2 h d a b) h d a b (pairAdd f16) s

/-- R109: the product of each half of an F16 pair. -/
def execHmul2 (h : Hdr) (d a b : Opnd) (s : State) : Host.Outcome State Fault Refusal :=
  fop2 (.hmul2 h d a b) h d a b (pairMul f16) s

/-- R109: a x b + d of each half of an F16 pair. -/
def execHfma2 (h : Hdr) (d a b : Opnd) (s : State) : Host.Outcome State Fault Refusal :=
  fop3 (.hfma2 h d a b) h d a b (pairFma f16) s

/-- R109: the sum of each half of an BF16 pair. -/
def execBadd2 (h : Hdr) (d a b : Opnd) (s : State) : Host.Outcome State Fault Refusal :=
  fop2 (.badd2 h d a b) h d a b (pairAdd bf16) s

/-- R109: the product of each half of an BF16 pair. -/
def execBmul2 (h : Hdr) (d a b : Opnd) (s : State) : Host.Outcome State Fault Refusal :=
  fop2 (.bmul2 h d a b) h d a b (pairMul bf16) s

/-- R109: a x b + d of each half of an BF16 pair. -/
def execBfma2 (h : Hdr) (d a b : Opnd) (s : State) : Host.Outcome State Fault Refusal :=
  fop3 (.bfma2 h d a b) h d a b (pairFma bf16) s

/-- R110: a + b in F64. -/
def execDadd (h : Hdr) (d a b : Opnd) (s : State) : Host.Outcome State Fault Refusal :=
  dop (.dadd h d a b) d (fun rm s => fAdd f64 rm false (f64Of (s.src2 1 a)) (f64Of (s.src2 2 b))) s

/-- R110: a x b in F64. -/
def execDmul (h : Hdr) (d a b : Opnd) (s : State) : Host.Outcome State Fault Refusal :=
  dop (.dmul h d a b) d (fun rm s => fMul f64 rm false (f64Of (s.src2 1 a)) (f64Of (s.src2 2 b))) s

/-- R110: a x b + d in F64, one rounding. -/
def execDfma (h : Hdr) (d a b : Opnd) (s : State) : Host.Outcome State Fault Refusal :=
  dop (.dfma h d a b) d (fun rm s => fFma f64 rm false false (f64Of (s.src2 1 a)) (f64Of (s.src2 2 b)) (f64Of (s.src2 0 d))) s

/-- R111: p := the condition on F64 pairs, interlocked. -/
def execDcmp (h : Hdr) (k : BitVec 4) (p : BitVec 3) (a b : Opnd) (s : State) : Host.Outcome State Fault Refusal :=
  issue (.dcmp h k p a b) s fun s =>
    .ok (s.postPred p.toNat (fCond k.toNat (f64Of (s.src2 1 a)) (f64Of (s.src2 2 b))))

/-- R113: clears the sign bit. -/
def execFabs (h : Hdr) (d a : Opnd) (s : State) : Host.Outcome State Fault Refusal :=
  fop1 (.fabs h d a) h d a (fun c => signOp (fun n => n % 2 ^ 31) (fpcFtz c)) s

/-- R113: inverts the sign bit. -/
def execFneg (h : Hdr) (d a : Opnd) (s : State) : Host.Outcome State Fault Refusal :=
  fop1 (.fneg h d a) h d a (fun c => signOp (fun n => (n + 2 ^ 31) % 2 ^ 32) (fpcFtz c)) s

/-- R113: the largest integral value at most a. -/
def execFfloor (h : Hdr) (d a : Opnd) (s : State) : Host.Outcome State Fault Refusal :=
  fop1 (.ffloor h d a) h d a (fun c => integral .rd false (fpcFtz c)) s

/-- R113: the smallest integral value at least a. -/
def execFceil (h : Hdr) (d a : Opnd) (s : State) : Host.Outcome State Fault Refusal :=
  fop1 (.fceil h d a) h d a (fun c => integral .ru false (fpcFtz c)) s

/-- R113: the integral value toward zero. -/
def execFtrunc (h : Hdr) (d a : Opnd) (s : State) : Host.Outcome State Fault Refusal :=
  fop1 (.ftrunc h d a) h d a (fun c => integral .rz false (fpcFtz c)) s

/-- R113: a rounded to an integral value by FPC.RM. -/
def execFrint (h : Hdr) (d a : Opnd) (s : State) : Host.Outcome State Fault Refusal :=
  fop1 (.frint h d a) h d a (fun c => integral (fpcRm c) true (fpcFtz c)) s

/-- R114: the class mask. -/
def execFclass (h : Hdr) (d a : Opnd) (s : State) : Host.Outcome State Fault Refusal :=
  fop1 (.fclass h d a) h d a (fun _ a => ⟨fclassOf a, 0⟩) s

/-- R115, F 0: F32 to F16. -/
def execFcvtF16F32 (h : Hdr) (d a : Opnd) (s : State) : Host.Outcome State Fault Refusal :=
  fop1 (.fcvtF16F32 h d a) h d a (fun c a => (f32In (fpcFtz c) a).round f16 (fpcRm c) false false) s

/-- R115, F 1: F32 to BF16. -/
def execFcvtBf16F32 (h : Hdr) (d a : Opnd) (s : State) : Host.Outcome State Fault Refusal :=
  fop1 (.fcvtBf16F32 h d a) h d a (fun c a => (f32In (fpcFtz c) a).round bf16 (fpcRm c) false false) s

/-- R115, F 2: F16 to F32, exact. -/
def execFcvtF32F16 (h : Hdr) (d a : Opnd) (s : State) : Host.Outcome State Fault Refusal :=
  fop1 (.fcvtF32F16 h d a) h d a (fun c a => (half f16 false a).round f32 (fpcRm c) (fpcFtz c) false) s

/-- R115, F 3: BF16 to F32, exact but for the flush. -/
def execFcvtF32Bf16 (h : Hdr) (d a : Opnd) (s : State) : Host.Outcome State Fault Refusal :=
  fop1 (.fcvtF32Bf16 h d a) h d a (fun c a => (half bf16 false a).round f32 (fpcRm c) (fpcFtz c) false) s

/-- R115, F 4: F32 to F64, exact. -/
def execFcvtF64F32 (h : Hdr) (d a : Opnd) (s : State) : Host.Outcome State Fault Refusal :=
  issue (.fcvtF64F32 h d a) s fun s =>
    let r := FVal.round f64 .rne false false (f32In (fpcFtz s.fpcIn) (s.src h 1 a))
    .ok ((s.put2 .c4 d (.ofNat 64 r.bits)).raise r.flags)

/-- R115, F 5: F64 to F32. -/
def execFcvtF32F64 (h : Hdr) (d a : Opnd) (s : State) : Host.Outcome State Fault Refusal :=
  issue (.fcvtF32F64 h d a) s fun s =>
    .ok (s.putF d ((f64Of (s.src2 1 a)).round f32 (fpcRm s.fpcIn) (fpcFtz s.fpcIn) false))

/-- R115, F 6: S32 to F32. -/
def execFcvtF32S32 (h : Hdr) (d a : Opnd) (s : State) : Host.Outcome State Fault Refusal :=
  fop1 (.fcvtF32S32 h d a) h d a (fun c a => (intVal a.toInt).round f32 (fpcRm c) (fpcFtz c) false) s

/-- R115, F 7: N32 to F32. -/
def execFcvtF32N32 (h : Hdr) (d a : Opnd) (s : State) : Host.Outcome State Fault Refusal :=
  fop1 (.fcvtF32N32 h d a) h d a (fun c a => (intVal a.toNat).round f32 (fpcRm c) (fpcFtz c) false) s

/-- R115, F 8: S32 to F64, exact. -/
def execFcvtF64S32 (h : Hdr) (d a : Opnd) (s : State) : Host.Outcome State Fault Refusal :=
  issue (.fcvtF64S32 h d a) s fun s =>
    let r := FVal.round f64 .rne false false (intVal (s.src h 1 a).toInt)
    .ok ((s.put2 .c4 d (.ofNat 64 r.bits)).raise r.flags)

/-- R115, F 9: N32 to F64, exact. -/
def execFcvtF64N32 (h : Hdr) (d a : Opnd) (s : State) : Host.Outcome State Fault Refusal :=
  issue (.fcvtF64N32 h d a) s fun s =>
    let r := FVal.round f64 .rne false false (intVal (s.src h 1 a).toNat)
    .ok ((s.put2 .c4 d (.ofNat 64 r.bits)).raise r.flags)

/-- R115: F32 to S32 by the named rounding. -/
def execFcvtS32F32Fixed (h : Hdr) (d a : Opnd) (rm : BitVec 2) (s : State) : Host.Outcome State Fault Refusal :=
  fop1 (.fcvtS32F32Fixed h d a rm) h d a (fun c a => toS32 (rmOf rm.toNat) (f32In (fpcFtz c) a)) s

/-- R115: F32 to S32 by FPC.RM. -/
def execFcvtS32F32 (h : Hdr) (d a : Opnd) (s : State) : Host.Outcome State Fault Refusal :=
  fop1 (.fcvtS32F32 h d a) h d a (fun c a => toS32 (fpcRm c) (f32In (fpcFtz c) a)) s

/-- R115: F32 to N32 by the named rounding. -/
def execFcvtN32F32Fixed (h : Hdr) (d a : Opnd) (rm : BitVec 2) (s : State) : Host.Outcome State Fault Refusal :=
  fop1 (.fcvtN32F32Fixed h d a rm) h d a (fun c a => toN32 (rmOf rm.toNat) (f32In (fpcFtz c) a)) s

/-- R115: F32 to N32 by FPC.RM. -/
def execFcvtN32F32 (h : Hdr) (d a : Opnd) (s : State) : Host.Outcome State Fault Refusal :=
  fop1 (.fcvtN32F32 h d a) h d a (fun c a => toN32 (fpcRm c) (f32In (fpcFtz c) a)) s

/-- R115: F64 to S32 by the named rounding. -/
def execFcvtS32F64Fixed (h : Hdr) (d a : Opnd) (rm : BitVec 2) (s : State) : Host.Outcome State Fault Refusal :=
  issue (.fcvtS32F64Fixed h d a rm) s fun s => .ok (s.putF d (toS32 (rmOf rm.toNat) (f64Of (s.src2 1 a))))

/-- R115: F64 to S32 by FPC.RM. -/
def execFcvtS32F64 (h : Hdr) (d a : Opnd) (s : State) : Host.Outcome State Fault Refusal :=
  issue (.fcvtS32F64 h d a) s fun s => .ok (s.putF d (toS32 (fpcRm s.fpcIn) (f64Of (s.src2 1 a))))

/-- R115: F64 to N32 by the named rounding. -/
def execFcvtN32F64Fixed (h : Hdr) (d a : Opnd) (rm : BitVec 2) (s : State) : Host.Outcome State Fault Refusal :=
  issue (.fcvtN32F64Fixed h d a rm) s fun s => .ok (s.putF d (toN32 (rmOf rm.toNat) (f64Of (s.src2 1 a))))

/-- R115: F64 to N32 by FPC.RM. -/
def execFcvtN32F64 (h : Hdr) (d a : Opnd) (s : State) : Host.Outcome State Fault Refusal :=
  issue (.fcvtN32F64 h d a) s fun s => .ok (s.putF d (toN32 (fpcRm s.fpcIn) (f64Of (s.src2 1 a))))

/-- R116: a and b as an F16 pair. -/
def execPkF16 (h : Hdr) (d a b : Opnd) (s : State) : Host.Outcome State Fault Refusal :=
  fop2 (.pkF16 h d a b) h d a b
    (fun _ a b => halves ((f32In false a).round f16 .rne false false) ((f32In false b).round f16 .rne false false)) s

/-- R116: a and b as an BF16 pair. -/
def execPkB16 (h : Hdr) (d a b : Opnd) (s : State) : Host.Outcome State Fault Refusal :=
  fop2 (.pkB16 h d a b) h d a b
    (fun _ a b => halves ((f32In false a).round bf16 .rne false false) ((f32In false b).round bf16 .rne false false)) s

/-- R117: narrows a into one slot of d; a bad format or slot is ILLEGAL. -/
def execPkn (h : Hdr) (d a b : Opnd) (s : State) : Host.Outcome State Fault Refusal :=
  issue (.pkn h d a b) s fun s =>
    let y := s.src h 2 b
    match pkFmt y with
    | some fmt => if pkOk y then
        let r := narrow (f32In false (s.src h 1 a)) (some (pkScale y)) fmt (y.getLsbD 7)
        .ok ((s.put .c4 d (insertElem fmt.width (pkSlot y) (s.src h 0 d) r.bits)).raise r.flags)
      else .trap .illegal (Instr.tval (.pkn h d a b)) s
    | none => .trap .illegal (Instr.tval (.pkn h d a b)) s

/-- R118: the real value of one slot of a, scaled; a bad format or slot is ILLEGAL. -/
def execUpkn (h : Hdr) (d a b : Opnd) (s : State) : Host.Outcome State Fault Refusal :=
  issue (.upkn h d a b) s fun s =>
    let y := s.src h 2 b
    match pkFmt y with
    | some fmt => if pkOk y then .ok (s.putF d (upknOf fmt (s.src h 1 a) y)) else .trap .illegal (Instr.tval (.upkn h d a b)) s
    | none => .trap .illegal (Instr.tval (.upkn h d a b)) s

/-- R120: d plus the dot product of 4 E4M3 elements. -/
def execDot4E43 (h : Hdr) (d a b : Opnd) (s : State) : Host.Outcome State Fault Refusal :=
  fop3 (.dot4E43 h d a b) h d a b (fdotOf 8 4 e4m3.narrowValue) s

/-- R120: d plus the dot product of 4 E5M2 elements. -/
def execDot4E52 (h : Hdr) (d a b : Opnd) (s : State) : Host.Outcome State Fault Refusal :=
  fop3 (.dot4E52 h d a b) h d a b (fdotOf 8 4 e5m2.value) s

/-- R120: d plus the dot product of 8 E2M1 elements. -/
def execDot8E21 (h : Hdr) (d a b : Opnd) (s : State) : Host.Outcome State Fault Refusal :=
  fop3 (.dot8E21 h d a b) h d a b (fdotOf 4 8 e2m1.narrowValue) s

/-- R120: d plus the dot product of 2 BF16 elements. -/
def execDot2B16 (h : Hdr) (d a b : Opnd) (s : State) : Host.Outcome State Fault Refusal :=
  fop3 (.dot2B16 h d a b) h d a b (fdotOf 16 2 bf16.value) s

/-- R120: d plus the dot product of 2 F16 elements. -/
def execDot2F16 (h : Hdr) (d a b : Opnd) (s : State) : Host.Outcome State Fault Refusal :=
  fop3 (.dot2F16 h d a b) h d a b (fdotOf 16 2 f16.value) s

/-- R120: d plus the dot product of 4 S8 elements, wrapping. -/
def execDot4S8 (h : Hdr) (d a b : Opnd) (s : State) : Host.Outcome State Fault Refusal :=
  fop3 (.dot4S8 h d a b) h d a b (fun _ d a b => ⟨(idotOf 8 4 true d a b).toNat, 0⟩) s

/-- R120: d plus the dot product of 4 N8 elements, wrapping. -/
def execDot4N8 (h : Hdr) (d a b : Opnd) (s : State) : Host.Outcome State Fault Refusal :=
  fop3 (.dot4N8 h d a b) h d a b (fun _ d a b => ⟨(idotOf 8 4 false d a b).toNat, 0⟩) s

/-- R120: d plus the dot product of 8 S4 elements, wrapping. -/
def execDot8S4 (h : Hdr) (d a b : Opnd) (s : State) : Host.Outcome State Fault Refusal :=
  fop3 (.dot8S4 h d a b) h d a b (fun _ d a b => ⟨(idotOf 4 8 true d a b).toNat, 0⟩) s

/-- R119: a x S9Value(b[8:0]). -/
def execFscl (h : Hdr) (d a b : Opnd) (s : State) : Host.Outcome State Fault Refusal :=
  fop2 (.fscl h d a b) h d a b fsclOf s

end Sys2Proof.Machine
end

