-- ==== Sys2Proof/Machine/Device.lean ====
section
/-! DEFINITION. The anchor die's registers and kick pages as a device access meets them: what an LD.D reads, and how an
ST.D waits for its effect (R304, R321, R322, R339-R342, R375, R379, R415, R427, R450). -/

namespace Sys2Proof.Machine

/-- The core number of a core index of ENQSEL (Table 20.1). -/
def enqCore (ix : Nat) : Nat := if ix % 392 < 384 then ix / 392 * 384 + ix % 392 else 4608 + ix / 392 * 8 + (ix % 392 - 384)

/-- A context's energy on a core (R393, R413): the table entry plus the live counter as the present clock began, and SAT, the OR of the two
SAT bits. -/
def State.energy (s : State) (core eid : Nat) : Nat × Bool :=
  let m : Meter := Tab.getD s.meters (core * 65536 + eid) {}
  (m.sum (s.clockOf core), m.sat || m.tsat)

/-- The number of a triplet: 256 x KIND + 16 x SLICE + INDEX. -/
def tripKey (t : Triplet) : Nat := t.kind.toNat * 256 + t.slice.toNat * 16 + t.index.toNat

/-- The triplet status that TRSTAT reads (R415). -/
def State.trstat (s : State) : Nat :=
  let t := s.trip (s.reg.trsel.toNat % 4096)
  t.resync * 2 ^ 32 + bit t.stop * 2 ^ 31 + bit t.duplex * 2 ^ 30 + t.last * 2 ^ 28

/-- The class and slice that ECCSEL names; class 7 has no slice (Table 24.1). -/
def State.eccKey (s : State) : Nat :=
  let c := s.reg.eccsel.toNat / 256 % 16
  if c = 7 then 112 else c * 16 + s.reg.eccsel.toNat % 16

/-- CKSTAT (Table 25.1). -/
def State.ckstat (s : State) : Nat :=
  let eid := s.reg.cksel.toNat % 65536
  let last := Tab.getD s.reg.ckLast eid (0, 0)
  let e : Encl := Tab.getD s.encls eid {}
  e.ckseq % 2 ^ 32 * 2 ^ 32 + bit (s.ckJobs.any (·.eid == eid) || e.migr.isSome) * 2 ^ 31 + last.2 * 2 ^ 24 + last.1 * 2 ^ 16 + eid

/-- Whether a team stands on a core of a quad. -/
def State.quadBusy (s : State) (slice quad : Nat) : Bool := s.teams.any fun p => p.2.core / 4 = slice * 96 + quad

/-- What a quadword register reads as (R304, R379, R415, R427, R450). -/
def State.regRead (s : State) (off : Nat) : Nat :=
  let r := s.reg
  let o := off % 0x1000
  match off / 0x1000 with
  | 1 => if o = 0 then r.frtab.toNat else if o = 0x10 then r.frlost else 0
  | 2 => match r.injtag with
    | some l => l.toNat * 64 + 1
    | none => 0
  | 3 =>
    if o < 0x60 then
      -- A resize that runs reads as the value being applied (R381).
      ((r.resize.find (o / 8)).getD (s.part (o / 8))).toNat
    else if o = 0x60 then r.gptab.toNat
    else if o = 0x70 then bit r.preBusy * 2 ^ 31 + r.preempt.toNat
    else if o = 0x78 then
      bit (s.quadBusy (r.quadsvc.toNat % 16) (r.quadsvc.toNat / 256 % 128) && r.quadsvc.getLsbD 16) * 2 ^ 31 + r.quadsvc.toNat
    else if 0x80 ≤ o && o < 0x200 then
      let e := (o - 0x80) / 8
      ((r.ceNext.find e).getD (Tab.getD r.ceown e 0x100)).toNat
    else if o = 0x200 then r.slsel.toNat
    else if o = 0x208 then (Tab.getD r.waymask r.slsel.toNat 0xFFFF).toNat
    else if o = 0x210 then (Tab.getD r.share (r.slsel.toNat % 16) 0).toNat
    else if o = 0x218 then r.blkmove.toNat
    else if o = 0x220 then bit r.blkBusy * 2 ^ 31 + r.blkStat * 2 ^ 24 + r.blkDone
    else if 0x240 ≤ o && o < 0x2A0 then (Tab.getD r.svpool ((o - 0x240) / 8) 0).toNat
    else if o = 0x300 then r.enqsel.toNat
    else if o = 0x308 then r.enqval.toNat
    else 0
  | 4 =>
    if o = 0 then r.trsel.toNat
    else if o = 8 then s.trstat
    else if o = 0x10 then r.eccsel.toNat
    else if o = 0x18 then
      let c := Tab.getD r.eccCnt s.eccKey (0, 0)
      c.2 * 2 ^ 32 + c.1
    else if o = 0x20 then r.rascfg.toNat
    else if o = 0x28 then r.rasstat.toNat
    else if o = 0x38 then bit s.tandem.update.isSome * 2 ^ 31 + s.tandem.result * 2 ^ 16 + s.tandem.version
    else 0
  | 5 =>
    if o = 0 then r.cksel.toNat
    else if o = 8 then s.ckstat
    else if o = 0x10 then r.ckirq.toNat
    else if 0x40 ≤ o && o < 0xA0 then (Tab.getD r.ckarea ((o - 0x40) / 8) 0).toNat
    else (Tab.getD r.ckpool ((o - 0xA0) / 8) 0).toNat
  | _ =>
    if o < 0x60 then
      let p : Power := Tab.getD s.power (o / 8) {}
      p.thr * 256 + p.state * 16 + p.point
    else if o = 0x60 then r.thrcfg.toNat
    else if o = 0x70 then r.sevsel.toNat
    else if o = 0x78 then Tab.getD r.sevcnt (r.sevsel.toNat / 2 ^ 20 % 16 * 16 + r.sevsel.toNat / 2 ^ 16 % 16) 0
    else if 0x80 ≤ o && o < 0xA0 then (Tab.getD r.pciecfg ((o - 0x80) / 8) 0).toNat
    else if 0xA0 ≤ o && o < 0x120 then
      let l : Link := Tab.getD s.links ((o - 0xA0) / 8) {}
      bit l.up * 2 ^ 31 + l.peer
    else if o = 0x120 then r.pkgnum.toNat
    else if o = 0x128 then bit r.spdmBuf.isSome
    else 0

/-- Entries taken and not yet started (Table 18.2). -/
def SimtQ.occ (q : SimtQ) : Nat := (q.entries.filter fun e => !e.begun).length

/-- The status word of a queue (Table 18.2). -/
def State.queueStatus (s : State) (q : Nat) : Nat :=
  match s.queues.find q with
  | some x => bit x.stopped * 2 ^ 16 + x.occ
  | none => 0

/-- What a device load returns: an LD.D of a register, or the status word of a kick page. -/
def State.deviceRead (s : State) (pa : Nat) : Dword :=
  .ofNat 64 (match s.region pa with
    | .kick q => s.queueStatus q
    | _ => s.regRead (pa % 0x10000))

/-- A device store takes effect next, before any other turn: an ST.D to a register, or a kick held at the command processor
until it is taken (R125, R342). -/
def State.deviceStore (s : State) (pa : Nat) (v : Dword) : State :=
  let s := { s with agenda := .store pa v :: s.agenda }
  match s.region pa with
  | .kick q =>
    let x : SimtQ := Tab.getD s.queues q { owner := 0, guest := 0, index := 0 }
    { s with
      queues := s.queues.put q { x with held := x.held ++ [(s.cur, v)] }
      th := { s.th with kick := some (s.th.w, q / 256, q % 256, v) } }
  | _ => s

/-- A kick word that traps with PERM (Table 18.1). -/
def badKick (v : Dword) : Bool := v.toNat / 4 % 32 ≠ 0 || 2 ≤ v.toNat % 4

end Sys2Proof.Machine
end

