-- ==== Sys2Proof/Machine/Integer.lean ====
section
/-! DEFINITION. Integer, immediate, compare, predicate and select forms (R98-R105). -/

namespace Sys2Proof.Machine

/-! Shared operations -/

/-- A word that writes d with a function of two 32-bit sources, class 2. -/
def alu2 (i : Instr) (h : Hdr) (d a b : Opnd) (f : Word → Word → Word) (s : State) : Host.Outcome State Fault Refusal :=
  issue i s fun s => .ok (s.put .c2 d (f (s.src h 1 a) (s.src h 2 b)))

/-- A word that writes d with a function of its old value and two sources, class 2. -/
def alu3 (i : Instr) (h : Hdr) (d a b : Opnd) (f : Word → Word → Word → Word) (s : State) : Host.Outcome State Fault Refusal :=
  issue i s fun s => .ok (s.put .c2 d (f (s.src h 0 d) (s.src h 1 a) (s.src h 2 b)))

/-- A word that writes d with a function of one source, class 2. -/
def alu1 (i : Instr) (h : Hdr) (d a : Opnd) (f : Word → Word) (s : State) : Host.Outcome State Fault Refusal :=
  issue i s fun s => .ok (s.put .c2 d (f (s.src h 1 a)))

/-- A word that writes a predicate, class 2. -/
def setPredBy (i : Instr) (p : BitVec 3) (f : State → Bool) (s : State) : Host.Outcome State Fault Refusal :=
  issue i s fun s => .ok (s.putPred .c2 p.toNat (f s))

/-- The exact signed result, clamped to 32 bits (R49). -/
def clamp32 (x : Int) : Word := .ofInt 32 (clampTo (-2147483648) 2147483647 x)

def smin (a b : Word) : Word := if a.slt b then a else b
def smax (a b : Word) : Word := if a.slt b then b else a
def umin (a b : Word) : Word := if a.ult b then a else b
def umax (a b : Word) : Word := if a.ult b then b else a

/-- The field control of BFE and BFI: POS and the effective length (R99). -/
def fieldPos (b : Word) : Nat := b.toNat % 32
def fieldLen (b : Word) : Nat := Nat.min (b.toNat / 32 % 64) (32 - fieldPos b)

/-- R99: bit-field extract. -/
def bfeOf (a b : Word) : Word :=
  let n := fieldLen b
  let f := a.toNat / 2 ^ fieldPos b % 2 ^ n
  if n = 0 then 0
  else if b.getLsbD 11 && f / 2 ^ (n - 1) = 1 then .ofNat 32 (2 ^ 32 - 2 ^ n + f) else .ofNat 32 f

/-- R99: bit-field insert; the other bits of d stay. -/
def bfiOf (d a b : Word) : Word :=
  let mask : Word := .ofNat 32 ((2 ^ fieldLen b - 1) * 2 ^ fieldPos b)
  (d &&& ~~~mask) ||| ((a <<< fieldPos b) &&& mask)

/-- R99: one byte of PRMB under its selector. -/
def prmbByte (a : Word) (c : Nat) : Nat :=
  let y := a.toNat / 2 ^ (8 * (c % 4)) % 256
  if c / 8 % 2 = 1 then 0 else if c / 4 % 2 = 1 then (if 128 ≤ y then 255 else 0) else y

def prmbOf (a b : Word) : Word :=
  let y (i : Nat) : Nat := prmbByte a (b.toNat / 16 ^ i % 16)
  .ofNat 32 (y 0 + 256 * y 1 + 65536 * y 2 + 16777216 * y 3)

def clzNat : Nat → Word → Nat
  | 0, _ => 0
  | n + 1, x => if x.getLsbD n then 0 else 1 + clzNat n x

def ctzNat (x : Word) : Nat → Nat → Nat
  | 0, _ => 0
  | n + 1, i => if x.getLsbD i then 0 else 1 + ctzNat x n (i + 1)

def popcNat (x : Word) : Nat → Nat
  | 0 => 0
  | n + 1 => bit (x.getLsbD n) + popcNat x n

def brevNat (x : Word) : Nat → Nat
  | 0 => 0
  | n + 1 => bit (x.getLsbD n) * 2 ^ (31 - n) + brevNat x n

/-- The integer column of Table 3.4; codes 10-15 are refused before. -/
def cond (k : Nat) (a b : Word) : Bool :=
  match k with
  | 0 => a == b
  | 1 => a != b
  | 2 => a.slt b
  | 3 => a.sle b
  | 4 => b.slt a
  | 5 => b.sle a
  | 6 => a.ult b
  | 7 => a.ule b
  | 8 => b.ult a
  | _ => b.ule a

def sext7 (i : BitVec 7) : Word := i.signExtend 32

/-! Meanings -/

/-- R81: no operation; the word issues and waits out its stall count. -/
def execNop (h : Hdr) (s : State) : Host.Outcome State Fault Refusal := issue (.nop h) s .ok

/-- R98: d := a + b modulo 2^32. -/
def execAdd (h : Hdr) (d a b : Opnd) (s : State) : Host.Outcome State Fault Refusal :=
  alu2 (.add h d a b) h d a b (fun a b => a + b) s

/-- R98: d := a - b modulo 2^32. -/
def execSub (h : Hdr) (d a b : Opnd) (s : State) : Host.Outcome State Fault Refusal :=
  alu2 (.sub h d a b) h d a b (fun a b => a - b) s

/-- R98: d := (a x b)[31:0]. -/
def execMul (h : Hdr) (d a b : Opnd) (s : State) : Host.Outcome State Fault Refusal :=
  alu2 (.mul h d a b) h d a b (fun a b => a * b) s

/-- R98: the high half of the signed product. -/
def execMulhi (h : Hdr) (d a b : Opnd) (s : State) : Host.Outcome State Fault Refusal :=
  alu2 (.mulhi h d a b) h d a b (fun a b => Dword.hi (a.signExtend 64 * b.signExtend 64)) s

/-- R98: the high half of the unsigned product. -/
def execMulhu (h : Hdr) (d a b : Opnd) (s : State) : Host.Outcome State Fault Refusal :=
  alu2 (.mulhu h d a b) h d a b (fun a b => Dword.hi (a.setWidth 64 * b.setWidth 64)) s

/-- R98: d := (a x b + d)[31:0]. -/
def execMad (h : Hdr) (d a b : Opnd) (s : State) : Host.Outcome State Fault Refusal :=
  alu3 (.mad h d a b) h d a b (fun d a b => a * b + d) s

/-- R98: d := a AND b. -/
def execAnd (h : Hdr) (d a b : Opnd) (s : State) : Host.Outcome State Fault Refusal :=
  alu2 (.and h d a b) h d a b (fun a b => a &&& b) s

/-- R98: d := a OR b. -/
def execOr (h : Hdr) (d a b : Opnd) (s : State) : Host.Outcome State Fault Refusal :=
  alu2 (.or h d a b) h d a b (fun a b => a ||| b) s

/-- R98: d := a XOR b. -/
def execXor (h : Hdr) (d a b : Opnd) (s : State) : Host.Outcome State Fault Refusal :=
  alu2 (.xor h d a b) h d a b (fun a b => a ^^^ b) s

/-- R98: d := a AND NOT b. -/
def execAndn (h : Hdr) (d a b : Opnd) (s : State) : Host.Outcome State Fault Refusal :=
  alu2 (.andn h d a b) h d a b (fun a b => a &&& ~~~b) s

/-- R98: left shift by b[4:0]. -/
def execShl (h : Hdr) (d a b : Opnd) (s : State) : Host.Outcome State Fault Refusal :=
  alu2 (.shl h d a b) h d a b (fun a b => a <<< (b.toNat % 32)) s

/-- R98: right shift by b[4:0], zeros shifted in. -/
def execShr (h : Hdr) (d a b : Opnd) (s : State) : Host.Outcome State Fault Refusal :=
  alu2 (.shr h d a b) h d a b (fun a b => a >>> (b.toNat % 32)) s

/-- R98: right shift by b[4:0], copies of a[31] shifted in. -/
def execSra (h : Hdr) (d a b : Opnd) (s : State) : Host.Outcome State Fault Refusal :=
  alu2 (.sra h d a b) h d a b (fun a b => a.sshiftRight (b.toNat % 32)) s

/-- R98: the smaller as signed values. -/
def execMin (h : Hdr) (d a b : Opnd) (s : State) : Host.Outcome State Fault Refusal :=
  alu2 (.min h d a b) h d a b smin s

/-- R98: the larger as signed values. -/
def execMax (h : Hdr) (d a b : Opnd) (s : State) : Host.Outcome State Fault Refusal :=
  alu2 (.max h d a b) h d a b smax s

/-- R98: the smaller as unsigned values. -/
def execMinu (h : Hdr) (d a b : Opnd) (s : State) : Host.Outcome State Fault Refusal :=
  alu2 (.minu h d a b) h d a b umin s

/-- R98: the larger as unsigned values. -/
def execMaxu (h : Hdr) (d a b : Opnd) (s : State) : Host.Outcome State Fault Refusal :=
  alu2 (.maxu h d a b) h d a b umax s

/-- R98, R49: the exact signed sum, clamped. -/
def execAdds (h : Hdr) (d a b : Opnd) (s : State) : Host.Outcome State Fault Refusal :=
  alu2 (.adds h d a b) h d a b (fun a b => clamp32 (a.toInt + b.toInt)) s

/-- R98, R49: the exact signed difference, clamped. -/
def execSubs (h : Hdr) (d a b : Opnd) (s : State) : Host.Outcome State Fault Refusal :=
  alu2 (.subs h d a b) h d a b (fun a b => clamp32 (a.toInt - b.toInt)) s

/-- R98: d := a + (b << k). -/
def execLea (h : Hdr) (k : BitVec 2) (d a b : Opnd) (s : State) : Host.Outcome State Fault Refusal :=
  alu2 (.lea h k d a b) h d a b (fun a b => a + (b <<< k.toNat)) s

/-- R98: the 64-bit sum of pairs. -/
def execAdd64 (h : Hdr) (d a b : Opnd) (s : State) : Host.Outcome State Fault Refusal :=
  issue (.add64 h d a b) s fun s => .ok (s.put2 .c2 d (s.src2 1 a + s.src2 2 b))

/-- R98: the 64-bit difference of pairs. -/
def execSub64 (h : Hdr) (d a b : Opnd) (s : State) : Host.Outcome State Fault Refusal :=
  issue (.sub64 h d a b) s fun s => .ok (s.put2 .c2 d (s.src2 1 a - s.src2 2 b))

/-- R98: the 64-bit unsigned product into a pair. -/
def execMulw (h : Hdr) (d a b : Opnd) (s : State) : Host.Outcome State Fault Refusal :=
  issue (.mulw h d a b) s fun s => .ok (s.put2 .c2 d ((s.src h 1 a).setWidth 64 * (s.src h 2 b).setWidth 64))

/-- R98: the 64-bit signed product into a pair. -/
def execMulws (h : Hdr) (d a b : Opnd) (s : State) : Host.Outcome State Fault Refusal :=
  issue (.mulws h d a b) s fun s => .ok (s.put2 .c2 d ((s.src h 1 a).signExtend 64 * (s.src h 2 b).signExtend 64))

/-- R99: bit-field extract. -/
def execBfe (h : Hdr) (d a b : Opnd) (s : State) : Host.Outcome State Fault Refusal :=
  alu2 (.bfe h d a b) h d a b bfeOf s

/-- R99: bit-field insert; reads d. -/
def execBfi (h : Hdr) (d a b : Opnd) (s : State) : Host.Outcome State Fault Refusal :=
  alu3 (.bfi h d a b) h d a b bfiOf s

/-- R99: byte permute. -/
def execPrmb (h : Hdr) (d a b : Opnd) (s : State) : Host.Outcome State Fault Refusal :=
  alu2 (.prmb h d a b) h d a b prmbOf s

/-- R100: d := a + SignExtend(I7). -/
def execAddi (h : Hdr) (d a : Opnd) (imm : BitVec 7) (s : State) : Host.Outcome State Fault Refusal :=
  alu1 (.addi h d a imm) h d a (fun a => a + sext7 imm) s

/-- R100: d := a AND SignExtend(I7). -/
def execAndi (h : Hdr) (d a : Opnd) (imm : BitVec 7) (s : State) : Host.Outcome State Fault Refusal :=
  alu1 (.andi h d a imm) h d a (fun a => a &&& sext7 imm) s

/-- R100: d := a OR SignExtend(I7). -/
def execOri (h : Hdr) (d a : Opnd) (imm : BitVec 7) (s : State) : Host.Outcome State Fault Refusal :=
  alu1 (.ori h d a imm) h d a (fun a => a ||| sext7 imm) s

/-- R100: d := a XOR SignExtend(I7). -/
def execXori (h : Hdr) (d a : Opnd) (imm : BitVec 7) (s : State) : Host.Outcome State Fault Refusal :=
  alu1 (.xori h d a imm) h d a (fun a => a ^^^ sext7 imm) s

/-- R100: left shift by I7[4:0]. -/
def execShli (h : Hdr) (d a : Opnd) (imm : BitVec 5) (s : State) : Host.Outcome State Fault Refusal :=
  alu1 (.shli h d a imm) h d a (fun a => a <<< imm.toNat) s

/-- R100: logical right shift by I7[4:0]. -/
def execShri (h : Hdr) (d a : Opnd) (imm : BitVec 5) (s : State) : Host.Outcome State Fault Refusal :=
  alu1 (.shri h d a imm) h d a (fun a => a >>> imm.toNat) s

/-- R100: arithmetic right shift by I7[4:0]. -/
def execSrai (h : Hdr) (d a : Opnd) (imm : BitVec 5) (s : State) : Host.Outcome State Fault Refusal :=
  alu1 (.srai h d a imm) h d a (fun a => a.sshiftRight imm.toNat) s

/-- R100: d := (a x SignExtend(I7))[31:0]. -/
def execMuli (h : Hdr) (d a : Opnd) (imm : BitVec 7) (s : State) : Host.Outcome State Fault Refusal :=
  alu1 (.muli h d a imm) h d a (fun a => a * sext7 imm) s

/-- R100: d := SignExtend(I14, 32). -/
def execMovi (h : Hdr) (d : Opnd) (imm : BitVec 14) (s : State) : Host.Outcome State Fault Refusal :=
  issue (.movi h d imm) s fun s => .ok (s.put .c2 d (imm.signExtend 32))

/-- R100: d := a. -/
def execMov (h : Hdr) (d a : Opnd) (s : State) : Host.Outcome State Fault Refusal :=
  alu1 (.mov h d a) h d a (fun a => a) s

/-- R101: leading zero bits, 32 for 0. -/
def execClz (h : Hdr) (d a : Opnd) (s : State) : Host.Outcome State Fault Refusal :=
  alu1 (.clz h d a) h d a (fun a => .ofNat 32 (clzNat 32 a)) s

/-- R101: one bits. -/
def execPopc (h : Hdr) (d a : Opnd) (s : State) : Host.Outcome State Fault Refusal :=
  alu1 (.popc h d a) h d a (fun a => .ofNat 32 (popcNat a 32)) s

/-- R101: d[i] := a[31-i]. -/
def execBrev (h : Hdr) (d a : Opnd) (s : State) : Host.Outcome State Fault Refusal :=
  alu1 (.brev h d a) h d a (fun a => .ofNat 32 (brevNat a 32)) s

/-- R101: absolute value modulo 2^32. -/
def execAbs (h : Hdr) (d a : Opnd) (s : State) : Host.Outcome State Fault Refusal :=
  alu1 (.abs h d a) h d a (fun a => if a.msb then -a else a) s

/-- R101: (0 - a) mod 2^32. -/
def execNeg (h : Hdr) (d a : Opnd) (s : State) : Host.Outcome State Fault Refusal :=
  alu1 (.neg h d a) h d a (fun a => -a) s

/-- R101: NOT a. -/
def execNot (h : Hdr) (d a : Opnd) (s : State) : Host.Outcome State Fault Refusal :=
  alu1 (.not h d a) h d a (fun a => ~~~a) s

/-- R101: sign-extends the low byte. -/
def execSext8 (h : Hdr) (d a : Opnd) (s : State) : Host.Outcome State Fault Refusal :=
  alu1 (.sext8 h d a) h d a (fun a => (a.setWidth 8).signExtend 32) s

/-- R101: sign-extends the low halfword. -/
def execSext16 (h : Hdr) (d a : Opnd) (s : State) : Host.Outcome State Fault Refusal :=
  alu1 (.sext16 h d a) h d a (fun a => (a.setWidth 16).signExtend 32) s

/-- R101: zero-extends the low byte. -/
def execZext8 (h : Hdr) (d a : Opnd) (s : State) : Host.Outcome State Fault Refusal :=
  alu1 (.zext8 h d a) h d a (fun a => (a.setWidth 8).setWidth 32) s

/-- R101: zero-extends the low halfword. -/
def execZext16 (h : Hdr) (d a : Opnd) (s : State) : Host.Outcome State Fault Refusal :=
  alu1 (.zext16 h d a) h d a (fun a => (a.setWidth 16).setWidth 32) s

/-- R101: trailing zero bits, 32 for 0. -/
def execCtz (h : Hdr) (d a : Opnd) (s : State) : Host.Outcome State Fault Refusal :=
  alu1 (.ctz h d a) h d a (fun a => .ofNat 32 (ctzNat a 32 0)) s

/-- R102: p := the condition of Table 3.4 on a and b. -/
def execCmp (h : Hdr) (k : BitVec 4) (p : BitVec 3) (a b : Opnd) (s : State) : Host.Outcome State Fault Refusal :=
  setPredBy (.cmp h k p a b) p (fun s => cond k.toNat (s.src h 1 a) (s.src h 2 b)) s

/-- R102: as CMP with SignExtend(I7, 32). -/
def execCmpi (h : Hdr) (k : BitVec 4) (p : BitVec 3) (a : Opnd) (imm : BitVec 7) (s : State) : Host.Outcome State Fault Refusal :=
  setPredBy (.cmpi h k p a imm) p (fun s => cond k.toNat (s.src h 1 a) (sext7 imm)) s

/-- R103: p := pa AND pb. -/
def execPand (h : Hdr) (p q r : BitVec 3) (s : State) : Host.Outcome State Fault Refusal :=
  setPredBy (.pand h p q r) p (fun s => s.readPred 1 q.toNat && s.readPred 2 r.toNat) s

/-- R103: p := pa OR pb. -/
def execPor (h : Hdr) (p q r : BitVec 3) (s : State) : Host.Outcome State Fault Refusal :=
  setPredBy (.por h p q r) p (fun s => s.readPred 1 q.toNat || s.readPred 2 r.toNat) s

/-- R103: p := pa XOR pb. -/
def execPxor (h : Hdr) (p q r : BitVec 3) (s : State) : Host.Outcome State Fault Refusal :=
  setPredBy (.pxor h p q r) p (fun s => s.readPred 1 q.toNat != s.readPred 2 r.toNat) s

/-- R103: p := pa AND NOT pb. -/
def execPandn (h : Hdr) (p q r : BitVec 3) (s : State) : Host.Outcome State Fault Refusal :=
  setPredBy (.pandn h p q r) p (fun s => s.readPred 1 q.toNat && !s.readPred 2 r.toNat) s

/-- R103: p := NOT pa. -/
def execPnot (h : Hdr) (p q : BitVec 3) (s : State) : Host.Outcome State Fault Refusal :=
  setPredBy (.pnot h p q) p (fun s => !s.readPred 1 q.toNat) s

/-- The eight predicates as a byte; p0 is true (R104). -/
def predByte (s : State) : Nat → Nat
  | 0 => 0
  | n + 1 => bit (s.readPred 1 n) * 2 ^ n + predByte s n

/-- R104: d[7:0] := p7..p0, d[31:8] := 0. -/
def execPget (h : Hdr) (d : Opnd) (s : State) : Host.Outcome State Fault Refusal :=
  issue (.pget h d) s fun s => .ok (s.put .c2 d (.ofNat 32 (predByte s 8)))

/-- Writes p1 to pn from the bits of a value. -/
def putPreds (v : Word) : Nat → State → State
  | 0, s => s
  | n + 1, s => (putPreds v n s).putPred .c2 (n + 1) (v.getLsbD (n + 1))

/-- R104: p1-p7 := a[7:1]. -/
def execPput (h : Hdr) (a : Opnd) (s : State) : Host.Outcome State Fault Refusal :=
  issue (.pput h a) s fun s => .ok (putPreds (s.src h 1 a) 7 s)

/-- R105: d := a if pN, else b. -/
def execSel (h : Hdr) (n : BitVec 3) (d a b : Opnd) (s : State) : Host.Outcome State Fault Refusal :=
  issue (.sel h n d a b) s fun s => .ok (s.put .c2 d (if s.readPred 3 n.toNat then s.src h 1 a else s.src h 2 b))

end Sys2Proof.Machine
end

