-- ==== Sys2Proof/Machine/Memory.lean ====
section
/-! DEFINITION. Global and constant loads and stores, scratchpad accesses, ordered accesses, prefetch, cache maintenance,
atomics and fences (R123-R147). -/

namespace Sys2Proof.Machine

/-! Shared operations -/

/-- The virtual address of a global form: the pair A plus an offset, modulo 2^64 (R123). -/
def State.va (s : State) (a : Opnd) (off : Int) : Nat := (s.src2 1 a + .ofInt 64 off).toNat

/-- The destination codes of a load. -/
def dstCodes (d : Opnd) (n : Nat) : List Nat := if d.isReg then (List.range n).map (d.code + ·) else []

/-- The register values of loaded bytes: one extended word for 1, 2 or 4 bytes, 32-bit parts for 8 and 16 (Table 6.1). -/
def loadWords (size : Nat) (signed : Bool) (bs : List Byte) : List Word :=
  let v := leNat bs
  if size < 4 then
    [if signed && v / 2 ^ (8 * size - 1) % 2 = 1 then .ofNat 32 (2 ^ 32 - 2 ^ (8 * size) + v) else .ofNat 32 v]
  else (List.range (size / 4)).map fun k => .ofNat 32 (v / 2 ^ (32 * k))

/-- Interlocked results into registers. -/
def State.deliver (s : State) (dst : List Nat) (ws : List Word) : State := (dst.zip ws).foldl (fun s p => s.post p.1 p.2) s

/-- A global load of the current thread and what follows it (R124-R130). -/
def loadGlobal (s : State) (va size : Nat) (signed : Bool) (form : Form) (dst : List Nat) (scope : Nat) : Res :=
  let core := s.coreIx s.cur
  let a : Access := { sp := s.space s.cur, va := va, kind := .read, form := form }
  globalAccess s a size (entryOf s a size scope signed 0 dst) (fun s => s.l1Load core a size)
    (fun s bs =>
      let s := s.gather (s.physLine core a.sp va)
      .ok ((if scope = 0 then s else s.orderBy ⟨0, scope, false⟩).deliver dst (loadWords size signed bs)))
    (fun s pa => .ok (s.deliver dst (loadWords size signed (leBytes size (s.deviceRead pa).toNat))))


/-- A global store of the current thread (R124-R130). A carrier waits while its line is held (R139). A kick word that R341 refuses traps
with PERM, but where its registers yield any value nothing does (R10). -/
def storeGlobal (s : State) (va size : Nat) (form : Form) (v : Nat) (any : Bool := false) : Res :=
  let core := s.coreIx s.cur
  let a : Access := { sp := s.space s.cur, va := va, kind := .write, form := form }
  globalAccess s a size (entryOf s a size 0 false (.ofNat 128 v) [])
    (fun s => if s.carrierHeld s.th.pending core a then .fault s heldLine else s.l1Store core a (leBytes size v))
    (fun s _ => .ok (s.carry core a.sp va))
    (fun s pa => match s.region pa with
      | .kick _ => if !badKick (.ofNat 64 v) then .ok (s.deviceStore pa (.ofNat 64 v)) else if any then .ok s
          else .trap .perm (.ofNat 64 va) s
      | _ => .ok (s.deviceStore pa (.ofNat 64 v)))

/-- A load through the constant path (R131). -/
def loadConst (s : State) (va size : Nat) (dst : List Nat) : Res :=
  let core := s.coreIx s.cur
  let a : Access := { sp := s.space s.cur, va := va, kind := .ldc }
  globalAccess s a size (entryOf s a size 0 false 0 dst) (fun s => s.ldc core a size)
    (fun s bs => .ok ((s.gather (s.physLine core a.sp va)).deliver dst (loadWords size false bs)))
    (fun s _ => .trap .perm (.ofNat 64 va) s)

/-! Scratchpad -/

def spadTval (a : Word) : Dword := a.setWidth 64

/-- Whether a movement or a B read uses the scratchpad port that an access of the thread's own core needs (R27, R286). -/
def State.portBusy (s : State) (o : Owner) : Bool :=
  match o with
  | .host _ => false
  | .team t => o = ownerOf s.cur && match s.teams.find t with
    | none => false
    | some x => (s.moves.any fun m => m.core = x.core && m.began.any (· ≤ s.time))
        || (s.drains.any fun d => d.began.any (· ≤ s.time) && !d.landed && d.plan.isNone && (s.teams.find d.team).any fun y => y.core = x.core)
        || match s.quads.find (x.core / 4) with
          | some q => q.bufs.any fun b => b.core = x.core && !b.ready
          | none => false

/-- Whether an access of the current thread to some scratchpad words that has not reached its bank holds them (R127, R263). -/
def State.spadHeld (s : State) (o : Owner) (off size : Nat) : Bool :=
  s.log.any fun e => e.tid = s.cur && e.spad = some o && e.va / 4 ≤ (off + size - 1) / 4 && off / 4 ≤ (e.va + e.size - 1) / 4

/-- Whether the current thread has any such access. -/
def State.spadLate (s : State) : Bool := s.log.any fun e => e.tid = s.cur && e.spad.isSome

/-- An access to a scratchpad that reaches its bank later than it issues. -/
def spadEntry (s : State) (o : Owner) (kind : AccessKind) (off size : Nat) (data : Qword) (dst : List Nat) : LogEntry :=
  { entryOf s { sp := s.space s.cur, va := off, kind := kind } size 0 false data dst with spad := some o }

/-- The key of a bank of a team's scratchpad, and those of the words of a range. -/
def bankKey (team off : Nat) : Nat := 64 * team + off / 4 % 32
def bankKeys (team off size : Nat) : List Nat := (List.range ((off + size - 1) / 4 - off / 4 + 1)).map fun k => bankKey team (off + 4 * k)

/-- Whether an add-on-store operation holds a bank of some scratchpad words (R301). -/
def State.bankHeld (s : State) (o : Owner) (off size : Nat) : Bool := match o with
  | .host _ => false
  | .team t => s.drains.any fun d => !d.ctl.glb && (bankKeys t off size).any d.taken.contains

/-- A scratchpad load (R132, R133, R421). -/
def loadSpad (s : State) (a : Word) (size : Nat) (dst : List Nat) : Res :=
  match s.spadAt (ownerOf s.cur) a size size with
  | .error t => .trap t (spadTval a) s
  | .ok (o, off) =>
    if s.portBusy o || s.spadHeld o off size then .hold
    else if (s.store o).poisoned off size then .trap .integ (spadTval a) s
    else if s.th.late then .ok (s.goLate (spadEntry s o .read off size 0 dst))
    else .ok (s.deliver dst (loadWords size false ((s.store o).read off size)))

/-- Whether an operation's scratchpad region meets a range (Table 8.2). -/
def MxOut.hitBy (m : MxOut) (off size : Nat) : Bool := match m.region with
  | some (r, n) => 0 < n && off < r + n && r < off + size
  | none => false

/-- The outstanding operations of the thread whose scratchpad region a store of its own meets (Table 8.2). -/
def State.regionHits (s : State) (o : Owner) (off size : Nat) : List MxOut :=
  if o = ownerOf s.cur then s.th.mx.filter fun m => m.hitBy off size else []

/-- A write to a team's scratchpad by a thread, while it has signed an MMAJ whose B region is not known yet (R181). -/
def Thread.noteStore (t : Thread) (off n : Nat) : Thread :=
  { t with mx := t.mx.map fun (m : MxOut) => match m.region with
    | some (_, 0) => { m with stores := (off, n) :: m.stores }
    | _ => m }

/-- A scratchpad word of the team that the current thread writes, as a pass may still read it (R178). -/
def State.noteSts (s : State) (o : Owner) (off n : Nat) : State :=
  if s.onHost || o ≠ ownerOf s.cur then s else
  let words := (List.range ((off + n - 1) / 4 - off / 4 + 1)).map fun k => off / 4 * 4 + 4 * k
  let s := s.modStore o fun x => { x with landedOn := x.landedOn.filter fun p => !words.contains p.2 }
  { s with th := { s.th.noteStore off n with
      sts := s.th.sts ++ words.map fun w => (w, (s.store o).word w), seen := s.th.seen.filter fun w => !words.contains w } }

/-- The hazards of Table 8.2 of a write to a scratchpad by a word of the thread. -/
def spadHazards (s : State) (o : Owner) (off n : Nat) (k : State → Res) : Res :=
  let hit := s.regionHits o off n
  if s.checking && !hit.isEmpty then .trap .mxhaz 0 s else k ((hit.foldl State.spoilOut s).noteSts o off n)

/-- A write to a scratchpad by a word of the thread, with the hazards of Table 8.2. -/
def writeSpad (s : State) (o : Owner) (off : Nat) (bs : List Byte) (k : State → Res) : Res :=
  spadHazards s o off bs.length fun s => k (s.modStore o fun x => x.write off bs)

/-- A scratchpad store (R132, R133). The hazard of Table 8.2 comes after the address checks, where that of a write to a register comes before
every trap of the word's own (DESIGN CHOICE, assumption 92). -/
def storeSpad (i : Instr) (s : State) (a : Word) (size v : Nat) : Res :=
  match s.spadAt (ownerOf s.cur) a size size with
  | .error t => .trap t (spadTval a) s
  | .ok (o, off) => if s.portBusy o || s.spadHeld o off size || s.bankHeld o off size then .hold else
    match (if s.th.late then spadHazards s o off size fun s => .ok (s.goLate (spadEntry s o .write off size (.ofNat 128 v) []))
      else writeSpad s o off (leBytes size v) .ok) with
    | .trap t _ s => .trap t i.tval s
    | r => r

/-! Atomics (R137-R140, R298, R299) -/

/-- R138: an F32 sum by RNE, whatever FPC holds. -/
def faddAtom (x y : Word) : Word := .ofNat 32 (fAdd f32 .rne false (f32In false x) (f32In false y)).bits

/-- The new value of R137: ADD 1, MIN 2, MAX 3, MINU 4, MAXU 5, AND 6, OR 7, XOR 8, XCHG 9, CAS 10, FADD 11. -/
def atomOp (op : Nat) (b c old : Word) : Word :=
  match op with
  | 1 => old + b
  | 2 => smin old b
  | 3 => smax old b
  | 4 => umin old b
  | 5 => umax old b
  | 6 => old &&& b
  | 7 => old ||| b
  | 8 => old ^^^ b
  | 9 => b
  | 10 => if old = b then c else old
  | _ => faddAtom old b

/-- Hops between two slices (R13, R14). -/
def hops (a b : Nat) : Nat := (Nat.max (a / 4) (b / 4) - Nat.min (a / 4) (b / 4)) + (Nat.max (a % 4) (b % 4) - Nat.min (a % 4) (b % 4))

/-- Whether a line lies in a bank of a slice. -/
def inBank (line slice bank : Nat) : Bool := line / 2 ^ 29 = slice && bankOf (line * 128) = bank

/-- The lines that a bank's atomic unit holds, for atomics and for add-on-stores (R298, R300). -/
def State.unitLines (s : State) (slice bank : Nat) : List Nat :=
  (((s.holds.filter fun h => s.time < h.until_).map (·.line)) ++ (s.drains.filter (·.ctl.glb)).flatMap (·.taken)).dedup.filter fun l => inBank l slice bank

/-- Whether it holds as many as it may, 16 (R298, R302). -/
def State.unitFull (s : State) (slice bank : Nat) : Bool := 16 ≤ (s.unitLines slice bank).length

/-- The requests that a bank's unit has taken: up to 64 in order of arrival. Those behind them wait at their quads' ports (R298). -/
def State.unitTaken (s : State) (slice bank : Nat) : List AtomReq := (s.atomQ.filter fun r => r.slice = slice && r.bank = bank).take 64

/-- Whether an atomic of a core has to wait: its line is held, but for the hold of its own bundle (R299), or another request waits for it,
or the unit holds 16 lines already, or its waiting places are full (R298). For a host core that has a place among the requests, those
before its own count. -/
def State.lineBusy (s : State) (core line : Nat) : Bool :=
  let slice := line / 2 ^ 29
  let bank := bankOf (line * 128)
  let mine := s.holds.any fun h => h.line = line && h.since = s.time && h.core = core
  let before := s.atomQ.takeWhile fun r => !(s.onHost && r.tid = s.cur)
  (!mine && (s.lineHeldAt line || s.unitFull slice bank)) || (before.any fun r => r.pa / 128 = line)
    || 64 ≤ (before.filter fun r => r.slice = slice && r.bank = bank).length

/-- Takes a line for a requester (R298): at least 24 + 24h core clocks. -/
def State.holdLine (s : State) (core line : Nat) : State :=
  let t := s.time + (24 + 24 * hops (line / 2 ^ 29) (sliceOf core)) * Config.ticksPerCoreClock
  { s with holds := ⟨line, core, s.time, t⟩ :: s.holds.filter fun h => h.line ≠ line && s.time < h.until_ }

/-- Performs an atomic of a thread at its home (R139): the old value to its destination, with the signatures it gathers and
carries. -/
def atomicNow (s : State) (core : Nat) (a : Access) (op : Nat) (b c : Word) : MemRes Word :=
  match s.homeAtomic core a (atomOp op b c) with
  | .ok s old => .ok (s.holdLine core ((s.physLine core a.sp a.va).getD 0)) old
  | r => r

/-- A global atomic (R137-R139). While its line is held for another requester it waits at the unit (R298). On a host core the word
takes its place there and waits to issue, so that no trap or interrupt meets an atomic that is not done (R76). -/
def atomGlobal (s : State) (d a : Opnd) (op : Nat) (x y : Word) : Res :=
  let core := s.coreIx s.cur
  let va := s.va a 0
  let ac : Access := { sp := s.space s.cur, va := va, kind := .atomic }
  let dst := dstCodes d 1
  let queued (s : State) (pa : Nat) : State := { s with
    serial := s.serial + 1
    atomQ := s.atomQ ++ [⟨s.serial, pa / 2 ^ 36, bankOf pa, s.cur, core, ac.sp, va, pa, op, x, y, dst, s.th.pending, s.time⟩] }
  globalAccess s ac 4 (entryOf s ac 4 op false (.ofNat 128 (x.toNat + 2 ^ 32 * y.toNat)) dst)
    (fun s => match translate s ac with
      | .error f => .fault s f
      | .ok (s', t) =>
        let pa := t.at va
        if s'.lineBusy core (pa / 128) || (!s.onHost && (s.core core).bundle.refill) then
          .ok (if s.onHost then if s.atomQ.any fun r => r.tid = s.cur then s else queued s pa
            else { queued s' pa with th := { s'.th with
              pending := none, logged := s'.th.logged ++ dst.map fun c => (c, s'.serial) } }) none
        else match atomicNow s' core ac op x y with
          | .ok s old => .ok s (some old)
          | .fault s f => .fault s f
          | .device s pa => .device s pa)
    (fun s r => match r with
      | some old => .ok ((({ s with atomQ := s.atomsBut s.cur }.gather (s.physLine core ac.sp va)).carry core ac.sp va).deliver dst [old])
      | none => if s.onHost then .stall s else .ok s)
    (fun s _ => .trap .perm (.ofNat 64 va) s)

/-- A scratchpad atomic (R140): 1 ADD, 2 MIN, 3 MAX, 10 CAS. -/
def atomSpad (i : Instr) (s : State) (d : Opnd) (a : Word) (op : Nat) (x y : Word) : Res :=
  match s.spadAt (ownerOf s.cur) a 4 4 with
  | .error t => .trap t (spadTval a) s
  | .ok (o, off) =>
    if s.portBusy o || s.spadHeld o off 4 || s.bankHeld o off 4 then .hold
    else if (s.store o).poisoned off 4 then .trap .integ (spadTval a) s
    else
      let old := (s.store o).word off
      match writeSpad s o off (leBytes 4 (atomOp op x y old).toNat) fun s => .ok (s.deliver (dstCodes d 1) [old]) with
      | .trap t _ s => .trap t i.tval s
      | r => r

/-! Global loads and stores (Table 6.1) -/

/-- LD.B. -/
def execLdB (h : Hdr) (d a : Opnd) (imm : BitVec 7) (s : State) : Host.Outcome State Fault Refusal :=
  issue (.ldB h d a imm) s fun s => loadGlobal s (s.va a imm.toInt) 1 false .other (dstCodes d 1) 0

/-- LD.BS. -/
def execLdBs (h : Hdr) (d a : Opnd) (imm : BitVec 7) (s : State) : Host.Outcome State Fault Refusal :=
  issue (.ldBs h d a imm) s fun s => loadGlobal s (s.va a imm.toInt) 1 true .other (dstCodes d 1) 0

/-- LD.H. -/
def execLdH (h : Hdr) (d a : Opnd) (imm : BitVec 7) (s : State) : Host.Outcome State Fault Refusal :=
  issue (.ldH h d a imm) s fun s => loadGlobal s (s.va a (imm.toInt * 2)) 2 false .other (dstCodes d 1) 0

/-- LD.HS. -/
def execLdHs (h : Hdr) (d a : Opnd) (imm : BitVec 7) (s : State) : Host.Outcome State Fault Refusal :=
  issue (.ldHs h d a imm) s fun s => loadGlobal s (s.va a (imm.toInt * 2)) 2 true .other (dstCodes d 1) 0

/-- LD.W. -/
def execLdW (h : Hdr) (d a : Opnd) (imm : BitVec 7) (s : State) : Host.Outcome State Fault Refusal :=
  issue (.ldW h d a imm) s fun s => loadGlobal s (s.va a (imm.toInt * 4)) 4 false .ldW (dstCodes d 1) 0

/-- LD.D. -/
def execLdD (h : Hdr) (d a : Opnd) (imm : BitVec 7) (s : State) : Host.Outcome State Fault Refusal :=
  issue (.ldD h d a imm) s fun s => loadGlobal s (s.va a (imm.toInt * 8)) 8 false .ldD (dstCodes d 2) 0

/-- LD.Q. -/
def execLdQ (h : Hdr) (d a : Opnd) (imm : BitVec 7) (s : State) : Host.Outcome State Fault Refusal :=
  issue (.ldQ h d a imm) s fun s => loadGlobal s (s.va a (imm.toInt * 16)) 16 false .other (dstCodes d 4) 0

/-- LDX.W: the offset is SignExtend(b, 64) x 4. -/
def execLdxW (h : Hdr) (d a b : Opnd) (s : State) : Host.Outcome State Fault Refusal :=
  issue (.ldxW h d a b) s fun s => loadGlobal s (s.va a ((s.src h 2 b).toInt * 4)) 4 false .other (dstCodes d 1) 0

/-- ST.B. -/
def execStB (h : Hdr) (v a : Opnd) (imm : BitVec 7) (s : State) : Host.Outcome State Fault Refusal :=
  issue (.stB h v a imm) s fun s => storeGlobal s (s.va a imm.toInt) 1 .other (s.src h 0 v).toNat

/-- ST.H. -/
def execStH (h : Hdr) (v a : Opnd) (imm : BitVec 7) (s : State) : Host.Outcome State Fault Refusal :=
  issue (.stH h v a imm) s fun s => storeGlobal s (s.va a (imm.toInt * 2)) 2 .other (s.src h 0 v).toNat

/-- ST.W. -/
def execStW (h : Hdr) (v a : Opnd) (imm : BitVec 7) (s : State) : Host.Outcome State Fault Refusal :=
  issue (.stW h v a imm) s fun s => storeGlobal s (s.va a (imm.toInt * 4)) 4 .stW (s.src h 0 v).toNat

/-- ST.D: a kick at offset 0 of a kick page (R341), a register write at a device address. -/
def execStD (h : Hdr) (v a : Opnd) (imm : BitVec 7) (s : State) : Host.Outcome State Fault Refusal :=
  issue (.stD h v a imm) s fun s => storeGlobal s (s.va a (imm.toInt * 8)) 8 .stD (s.src2 0 v).toNat
    ((Use.codes ⟨.src2, v⟩).any s.looseCode)

/-- ST.Q. -/
def execStQ (h : Hdr) (v a : Opnd) (imm : BitVec 7) (s : State) : Host.Outcome State Fault Refusal :=
  issue (.stQ h v a imm) s fun s => storeGlobal s (s.va a (imm.toInt * 16)) 16 .other (s.src4 0 v).toNat

/-- STX.W. -/
def execStxW (h : Hdr) (v a b : Opnd) (s : State) : Host.Outcome State Fault Refusal :=
  issue (.stxW h v a b) s fun s => storeGlobal s (s.va a ((s.src h 2 b).toInt * 4)) 4 .other (s.src h 0 v).toNat

/-- LDC.W (R131). -/
def execLdcW (h : Hdr) (d a : Opnd) (imm : BitVec 7) (s : State) : Host.Outcome State Fault Refusal :=
  issue (.ldcW h d a imm) s fun s => loadConst s (s.va a (imm.toInt * 4)) 4 (dstCodes d 1)

/-- LDC.Q (R131). -/
def execLdcQ (h : Hdr) (d a : Opnd) (imm : BitVec 7) (s : State) : Host.Outcome State Fault Refusal :=
  issue (.ldcQ h d a imm) s fun s => loadConst s (s.va a (imm.toInt * 16)) 16 (dstCodes d 4)

/-! Scratchpad forms (Table 6.3) -/

/-- LDS.W. -/
def execLdsW (h : Hdr) (d a : Opnd) (imm : BitVec 7) (s : State) : Host.Outcome State Fault Refusal :=
  issue (.ldsW h d a imm) s fun s => loadSpad s (spadAddr (s.src h 1 a) (imm.toInt * 4)) 4 (dstCodes d 1)

/-- LDS.D. -/
def execLdsD (h : Hdr) (d a : Opnd) (imm : BitVec 7) (s : State) : Host.Outcome State Fault Refusal :=
  issue (.ldsD h d a imm) s fun s => loadSpad s (spadAddr (s.src h 1 a) (imm.toInt * 8)) 8 (dstCodes d 2)

/-- LDS.Q. -/
def execLdsQ (h : Hdr) (d a : Opnd) (imm : BitVec 7) (s : State) : Host.Outcome State Fault Refusal :=
  issue (.ldsQ h d a imm) s fun s => loadSpad s (spadAddr (s.src h 1 a) (imm.toInt * 16)) 16 (dstCodes d 4)

/-- LDS.H. -/
def execLdsH (h : Hdr) (d a : Opnd) (imm : BitVec 7) (s : State) : Host.Outcome State Fault Refusal :=
  issue (.ldsH h d a imm) s fun s => loadSpad s (spadAddr (s.src h 1 a) (imm.toInt * 2)) 2 (dstCodes d 1)

/-- LDS.B. -/
def execLdsB (h : Hdr) (d a : Opnd) (imm : BitVec 7) (s : State) : Host.Outcome State Fault Refusal :=
  issue (.ldsB h d a imm) s fun s => loadSpad s (spadAddr (s.src h 1 a) imm.toInt) 1 (dstCodes d 1)

/-- STS.W. -/
def execStsW (h : Hdr) (v a : Opnd) (imm : BitVec 7) (s : State) : Host.Outcome State Fault Refusal :=
  issue (.stsW h v a imm) s fun s =>
    storeSpad (.stsW h v a imm) s (spadAddr (s.src h 1 a) (imm.toInt * 4)) 4 (s.src h 0 v).toNat

/-- STS.D. -/
def execStsD (h : Hdr) (v a : Opnd) (imm : BitVec 7) (s : State) : Host.Outcome State Fault Refusal :=
  issue (.stsD h v a imm) s fun s =>
    storeSpad (.stsD h v a imm) s (spadAddr (s.src h 1 a) (imm.toInt * 8)) 8 (s.src2 0 v).toNat

/-- STS.Q. -/
def execStsQ (h : Hdr) (v a : Opnd) (imm : BitVec 7) (s : State) : Host.Outcome State Fault Refusal :=
  issue (.stsQ h v a imm) s fun s =>
    storeSpad (.stsQ h v a imm) s (spadAddr (s.src h 1 a) (imm.toInt * 16)) 16 (s.src4 0 v).toNat

/-- STS.H. -/
def execStsH (h : Hdr) (v a : Opnd) (imm : BitVec 7) (s : State) : Host.Outcome State Fault Refusal :=
  issue (.stsH h v a imm) s fun s =>
    storeSpad (.stsH h v a imm) s (spadAddr (s.src h 1 a) (imm.toInt * 2)) 2 (s.src h 0 v).toNat

/-- STS.B. -/
def execStsB (h : Hdr) (v a : Opnd) (imm : BitVec 7) (s : State) : Host.Outcome State Fault Refusal :=
  issue (.stsB h v a imm) s fun s =>
    storeSpad (.stsB h v a imm) s (spadAddr (s.src h 1 a) imm.toInt) 1 (s.src h 0 v).toNat

/-! Ordered accesses (R134) -/

/-- LD.ACQ.W: the load followed at once by a FENCE.ACQ at the scope. -/
def execLdAcqW (h : Hdr) (d a : Opnd) (e : BitVec 3) (s : State) : Host.Outcome State Fault Refusal :=
  issue (.ldAcqW h d a e) s fun s => loadGlobal s (s.va a 0) 4 false .other (dstCodes d 1) e.toNat

/-- LD.ACQ.D. -/
def execLdAcqD (h : Hdr) (d a : Opnd) (e : BitVec 3) (s : State) : Host.Outcome State Fault Refusal :=
  issue (.ldAcqD h d a e) s fun s => loadGlobal s (s.va a 0) 8 false .other (dstCodes d 2) e.toNat

/-- An ordered store: a FENCE.REL at the scope, then the store as its carrier. An access that traps in its address checks
releases nothing. -/
def storeRel (s : State) (va size : Nat) (scope v : Nat) : Res :=
  if s.fenceHeld || s.fenceMeetsHold 1 scope false then .hold
  else if va % size ≠ 0 || !wellFormedVa va then storeGlobal s va size .other v
  else storeGlobal (s.release scope) va size .other v

/-- ST.REL.W. -/
def execStRelW (h : Hdr) (v a : Opnd) (e : BitVec 3) (s : State) : Host.Outcome State Fault Refusal :=
  issue (.stRelW h v a e) s fun s => storeRel s (s.va a 0) 4 e.toNat (s.src h 0 v).toNat

/-- ST.REL.D. -/
def execStRelD (h : Hdr) (v a : Opnd) (e : BitVec 3) (s : State) : Host.Outcome State Fault Refusal :=
  issue (.stRelD h v a e) s fun s => storeRel s (s.va a 0) 8 e.toNat (s.src2 0 v).toNat

/-! Prefetch, cache maintenance, fences -/

/-- PRF (R135): fills the line, or is dropped. -/
def execPrf (h : Hdr) (a : Opnd) (imm : BitVec 7) (s : State) : Host.Outcome State Fault Refusal :=
  issue (.prf h a imm) s fun s =>
    let core := s.coreIx s.cur
    let ac : Access := { sp := s.space s.cur, va := s.va a (imm.toInt * 128), kind := .read }
    let s := s.expireLeases
    if !wellFormedVa ac.va || (s.findLine core ac.sp ac.va).any (·.expired s.ns) then .ok s else
    match translate s ac with
    | .error _ => .ok s
    | .ok (s', t) =>
      if t.mt ≠ 0 then .ok s else
      match s'.fillWhole core ac t with
      | .error _ => .ok s
      | .ok (s', _) => .ok s'

/-- CWB (R136). -/
def execCwb (h : Hdr) (a : Opnd) (s : State) : Host.Outcome State Fault Refusal :=
  issue (.cwb h a) s fun s =>
    let core := s.coreIx s.cur
    let sp := s.space s.cur
    let va := s.va a 0
    let p (l : Line) : Bool := l.core = core && l.sp = sp && l.va = va / 128
    if s.waitsForHold p then .hold else .ok (s.cleanLines p)

/-- CINV (R136). -/
def execCinv (h : Hdr) (a : Opnd) (s : State) : Host.Outcome State Fault Refusal :=
  issue (.cinv h a) s fun s =>
    let core := s.coreIx s.cur
    let sp := s.space s.cur
    let va := s.va a 0
    let p (l : Line) : Bool := l.core = core && l.sp = sp && l.va = va / 128
    if s.waitsForHold p then .hold else .ok (s.evictLines p)

/-- CWBI.ALL (R136). -/
def execCwbiAll (h : Hdr) (s : State) : Host.Outcome State Fault Refusal :=
  issue (.cwbiAll h) s fun s =>
    let core := s.coreIx s.cur
    let sp := s.space s.cur
    let p (l : Line) : Bool := l.inContext core sp
    if s.waitsForHold p then .hold else .ok (s.evictLines p)

/-- FENCE (R141-R147); an access that waits in the operand log holds it (R130). Until it completes, later MEM and MX words and arrivals of
the thread are held, and the others issue. -/
def execFence (h : Hdr) (x : Bool) (e : BitVec 3) (k : BitVec 2) (s : State) : Host.Outcome State Fault Refusal :=
  issue (.fence h x e k) s fun s =>
    if s.logHeld then .hold else .ok (s.orderBy ⟨k.toNat, e.toNat, x⟩)

/-! Global atomics (R137, R138) -/

/-- ATOM.ADD. -/
def execAtomAdd (h : Hdr) (d a b : Opnd) (s : State) : Host.Outcome State Fault Refusal :=
  issue (.atomAdd h d a b) s fun s => atomGlobal s d a 1 (s.src h 2 b) 0

/-- ATOM.MIN. -/
def execAtomMin (h : Hdr) (d a b : Opnd) (s : State) : Host.Outcome State Fault Refusal :=
  issue (.atomMin h d a b) s fun s => atomGlobal s d a 2 (s.src h 2 b) 0

/-- ATOM.MAX. -/
def execAtomMax (h : Hdr) (d a b : Opnd) (s : State) : Host.Outcome State Fault Refusal :=
  issue (.atomMax h d a b) s fun s => atomGlobal s d a 3 (s.src h 2 b) 0

/-- ATOM.MINU. -/
def execAtomMinu (h : Hdr) (d a b : Opnd) (s : State) : Host.Outcome State Fault Refusal :=
  issue (.atomMinu h d a b) s fun s => atomGlobal s d a 4 (s.src h 2 b) 0

/-- ATOM.MAXU. -/
def execAtomMaxu (h : Hdr) (d a b : Opnd) (s : State) : Host.Outcome State Fault Refusal :=
  issue (.atomMaxu h d a b) s fun s => atomGlobal s d a 5 (s.src h 2 b) 0

/-- ATOM.AND. -/
def execAtomAnd (h : Hdr) (d a b : Opnd) (s : State) : Host.Outcome State Fault Refusal :=
  issue (.atomAnd h d a b) s fun s => atomGlobal s d a 6 (s.src h 2 b) 0

/-- ATOM.OR. -/
def execAtomOr (h : Hdr) (d a b : Opnd) (s : State) : Host.Outcome State Fault Refusal :=
  issue (.atomOr h d a b) s fun s => atomGlobal s d a 7 (s.src h 2 b) 0

/-- ATOM.XOR. -/
def execAtomXor (h : Hdr) (d a b : Opnd) (s : State) : Host.Outcome State Fault Refusal :=
  issue (.atomXor h d a b) s fun s => atomGlobal s d a 8 (s.src h 2 b) 0

/-- ATOM.XCHG. -/
def execAtomXchg (h : Hdr) (d a b : Opnd) (s : State) : Host.Outcome State Fault Refusal :=
  issue (.atomXchg h d a b) s fun s => atomGlobal s d a 9 (s.src h 2 b) 0

/-- ATOM.CAS: b holds the compare value and b+1 the swap value. -/
def execAtomCas (h : Hdr) (d a b : Opnd) (s : State) : Host.Outcome State Fault Refusal :=
  issue (.atomCas h d a b) s fun s => atomGlobal s d a 10 (s.src2 2 b).lo (s.src2 2 b).hi

/-- ATOM.FADD (R138). -/
def execAtomFadd (h : Hdr) (d a b : Opnd) (s : State) : Host.Outcome State Fault Refusal :=
  issue (.atomFadd h d a b) s fun s => atomGlobal s d a 11 (s.src h 2 b) 0

/-! Scratchpad atomics (R140) -/

/-- ATOMS.ADD. -/
def execAtomsAdd (h : Hdr) (d a b : Opnd) (s : State) : Host.Outcome State Fault Refusal :=
  issue (.atomsAdd h d a b) s fun s => atomSpad (.atomsAdd h d a b) s d (s.src h 1 a) 1 (s.src h 2 b) 0

/-- ATOMS.MIN. -/
def execAtomsMin (h : Hdr) (d a b : Opnd) (s : State) : Host.Outcome State Fault Refusal :=
  issue (.atomsMin h d a b) s fun s => atomSpad (.atomsMin h d a b) s d (s.src h 1 a) 2 (s.src h 2 b) 0

/-- ATOMS.MAX. -/
def execAtomsMax (h : Hdr) (d a b : Opnd) (s : State) : Host.Outcome State Fault Refusal :=
  issue (.atomsMax h d a b) s fun s => atomSpad (.atomsMax h d a b) s d (s.src h 1 a) 3 (s.src h 2 b) 0

/-- ATOMS.CAS. -/
def execAtomsCas (h : Hdr) (d a b : Opnd) (s : State) : Host.Outcome State Fault Refusal :=
  issue (.atomsCas h d a b) s fun s =>
    atomSpad (.atomsCas h d a b) s d (s.src h 1 a) 10 (s.src2 2 b).lo (s.src2 2 b).hi

end Sys2Proof.Machine
end

