-- ==== Sys2Proof/Machine/Control.lean ====
section
/-! DEFINITION. Transfers of control, EXIT, TRAP, BKPT, path priority and identity (R77, R78, R153-R159). -/

namespace Sys2Proof.Machine

/-! The target of a transfer (R77) -/

/-- The virtual address of a word of the current code base (R56, R57). -/
def State.codeVa (s : State) (w : Word) : Nat := (s.th.cb + .ofNat 64 (4 * w.toNat)).toNat

/-- What the fetch of several words comes to; a fault names its word. -/
inductive Fetched where
  | ok (s : State) (ws : List Word)
  | fault (s : State) (f : TFault) (w : Word)

/-- Fetches consecutive words of the current code base (R57). -/
def fetchWords (s : State) (w : Word) : Nat → Fetched
  | 0 => .ok s []
  | n + 1 => match s.fetchWord (s.coreIx s.cur) (s.space s.cur) (s.codeVa w) with
    | .ok s x => match fetchWords s (w + 1) n with
      | .ok s ws => .ok s (x :: ws)
      | r => r
    | .fault s f => .fault s f w
    | .device s _ => .fault s { trap := .perm } w

/-- Why a transfer cannot land on a slot behind the given words (R58, R77): the slot is a literal or extension word, or the
word before it has C = 1. -/
def badTarget (ws : List Word) : Option Trap :=
  match ws with
  | [a] => if spanOf 0 a = 2 then some .illegal else if a.getLsbD 31 then some .brchain else none
  | [a, b] =>
    if spanOf 0 a = 2 then (if a.getLsbD 31 then some .brchain else none)
    else if spanOf 1 b = 2 then some .illegal
    else if b.getLsbD 31 then some .brchain else none
  | _ => none

/-- A transfer to a word index, with its target test (R77); `link` writes o7 and is done only when the test passes. -/
def transfer (i : Instr) (s : State) (w : Word) (link : State → State) : Res :=
  let slot := w.toNat % 3
  let base := w - .ofNat 32 slot
  match fetchWords s base slot with
  | .ok s ws => match badTarget ws with
    | some t => .targetTrap t i.tval s
    | none => .goto w (link s)
  | .fault s f at_ =>
    let va := s.codeVa at_
    match fetchFault s (s.space s.cur) va f with
    | some s' => .targetTrap f.trap (.ofNat 64 va) s'
    | none => .targetStall (fetchRecord s (s.space s.cur) va f)

/-- The o7 write of CALL and CALLR: the first instruction word after the chain, class 2 (R77, R153). -/
def linkTo (i : Instr) (s : State) : State → State := fun s' => s'.putFixed .c2 (Opnd.code (.o 7)) (nextIndex i s)

/-- BR (R78). -/
def execBr (h : Hdr) (n : Bool) (p : BitVec 3) (k : BitVec 17) (s : State) : Host.Outcome State Fault Refusal :=
  issue (.br h n p k) s fun s =>
    if s.readPred 0 p.toNat != n then transfer (.br h n p k) s (s.th.w + k.signExtend 32) id else .ok s

/-- CALL. -/
def execCall (h : Hdr) (k : BitVec 21) (s : State) : Host.Outcome State Fault Refusal :=
  issue (.call h k) s fun s => transfer (.call h k) s (s.th.w + k.signExtend 32) (linkTo (.call h k) s)

/-- JMP. -/
def execJmp (h : Hdr) (a : Opnd) (s : State) : Host.Outcome State Fault Refusal :=
  issue (.jmp h a) s fun s => transfer (.jmp h a) s (s.src h 1 a) id

/-- RET: a jump to the word index in o7. -/
def execRet (h : Hdr) (s : State) : Host.Outcome State Fault Refusal :=
  issue (.ret h) s fun s => transfer (.ret h) s (s.src h 1 (.o 7)) id

/-- CALLR reads a before it writes o7 (R153). -/
def execCallr (h : Hdr) (a : Opnd) (s : State) : Host.Outcome State Fault Refusal :=
  issue (.callr h a) s fun s => transfer (.callr h a) s (s.src h 1 a) (linkTo (.callr h a) s)

/-! EXIT, TRAP, BKPT -/

/-- The group of a SIMT thread within its team. -/
def groupOf : ThreadId → Nat
  | .simt _ idx => idx / 32
  | .host _ => 0

/-- The exit rule of R169: a register whose set holds the group has signatures of an operation not yet performed. -/
def orphans (s : State) : Bool :=
  match s.teamOf s.cur with
  | some t => t.cvs.any fun c => c.2.set.getLsbD (groupOf s.cur) && match c.2.op with
    | some o => !o.signs.isEmpty
    | none => false
  | none => false

/-- The trap path entry of ECALL (R203, Table 9.1): KIND 1 and NUM 0 in the H bank from H and S, in the S bank from U. -/
def State.ecall (s : State) (n : Nat) (code restart : Word) : State :=
  s.enterBank n (s.th.level != .u) 0x100 (code.setWidth 64) restart

/-- EXIT (R154, R155): after the exit rule it waits for every result and access of the thread that is still outstanding. -/
def execExit (h : Hdr) (s : State) : Host.Outcome State Fault Refusal :=
  issue (.exit h) s fun s =>
    match s.cur with
    | .simt _ _ =>
      if orphans s then .trap .convorphan 0 s
      else if s.fenceHeld || s.fencing || !s.myAsks.isEmpty then .hold
      else .moved { s with th := { s.th.complete with wait := .retired } }
    | .host n => match s.th.level with
      | .h => .moved { s with th := { s.th.complete with wait := .stopped } }
      | .e => .moved (s.asyncExit n 2 true (nextIndex (.exit h) s))
      | _ => .moved (s.ecall n 0 (nextIndex (.exit h) s))

/-- TRAP (R156): TRAPSW with the 14-bit code, restarting after the chain. -/
def execTrap (h : Hdr) (imm : BitVec 14) (s : State) : Host.Outcome State Fault Refusal :=
  issue (.trap h imm) s fun s => .moved (s.takeTrap .trapsw (imm.setWidth 64) (nextIndex (.trap h imm) s))

/-- BKPT (R156): restarts at its own word. -/
def execBkpt (h : Hdr) (s : State) : Host.Outcome State Fault Refusal :=
  issue (.bkpt h) s fun s => .moved (s.takeTrap .bkpt 0 s.th.w)

/-! Path priority (R157, R158) -/

/-- PRIO. -/
def execPrio (h : Hdr) (a : Opnd) (s : State) : Host.Outcome State Fault Refusal :=
  issue (.prio h a) s fun s => .ok { s with th := { s.th with prio := (s.src h 1 a).setWidth 3 } }

/-- YIELD. -/
def execYield (h : Hdr) (s : State) : Host.Outcome State Fault Refusal :=
  issue (.yield h) s fun s =>
    let s := s.voidL
    .ok { s with th := { s.th with yielded := !s.onHost } }

/-! Identity (R159) -/

/-- The coordinate of a dimension of the current tile. A dimension at or above RANK gives 0xFFFFFFFF in a persistent launch, and 0 in item
mode also before any REFILL (DESIGN CHOICE, assumption 89). -/
def tileCoord (s : State) (t : Team) (l : Launch) (d : Nat) : Word :=
  if l.pers then 0xFFFFFFFF
  else if l.rank ≤ d then 0
  else match (if l.item then s.th.tile else t.coords) with
    | some x => x.getD d 0
    | none => 0xFFFFFFFF

/-- The values of Table 7.2. -/
def idValue (s : State) (f : Nat) : Word :=
  match s.cur with
  | .host n => match f with
    | 8 => .ofNat 32 (384 + n % 8)
    | 9 => .ofNat 32 (n / 8)
    | _ => 0
  | .simt _ idx => match s.teamOf s.cur, s.launchOf s.cur with
    | some t, some (_, l) => match f with
      | 0 => .ofNat 32 (idx % 32)
      | 1 => .ofNat 32 (idx / 32)
      | 2 => .ofNat 32 t.slot
      | 3 => .ofNat 32 t.member
      | 4 | 5 | 6 | 7 => tileCoord s t l (f - 4)
      | 8 => .ofNat 32 (t.core % 384)
      | 9 => .ofNat 32 (t.core / 384)
      | 10 => .ofNat 32 l.args
      | 11 => .ofNat 32 (l.args / 2 ^ 32)
      | _ => .ofNat 32 l.seq
    | _, _ => 0

/-- ID. -/
def execId (h : Hdr) (d : Opnd) (f : BitVec 7) (s : State) : Host.Outcome State Fault Refusal :=
  issue (.id h d f) s fun s => .ok (s.postTo d (idValue s f.toNat))

end Sys2Proof.Machine
end

