-- ==== Sys2Proof/Machine/Work.lean ====
section
/-! DEFINITION. Items and persistent tiles: REFILL and FETCHW (R160-R164). -/

namespace Sys2Proof.Machine

/-- Takes the first item of a launch from a core's item queue (R161). -/
def takeItem (launch : Nat) : List (Nat × List Word × Nat) → Option ((List Word × Nat) × List (Nat × List Word × Nat))
  | [] => none
  | (l, c, n) :: t =>
    if l = launch then some ((c, n), t) else (takeItem launch t).map fun r => (r.1, (l, c, n) :: r.2)

/-- A thread that waited becomes ready now, unless its stall count runs on (R236). -/
def Thread.wakeAt (t : Thread) (now : Nat) : Thread := { t with readyAt := Nat.max t.readyAt now }

/-- Gives a thread the next item of its core's queue: its number to a register, its tile as the current tile (R160). -/
def State.giveItem (s : State) (i : ThreadId) (launch : Nat) (dst : Nat) : Option State :=
  match takeItem launch (s.core (s.coreIx i)).items with
  | none => none
  | some ((c, n), rest) =>
    let s := s.modCore (s.coreIx i) fun x => { x with items := rest }
    some (s.modThread i fun t => { t with
      tile := some c, results := t.results ++ (if dst < 0x7C then [⟨dst, .ofNat 32 n, 0⟩] else []) })

/-- The oldest REFILL of a launch that waits on a core (R161). -/
def State.oldestAsk (s : State) (core launch : Nat) : Option Ask := (s.core core).asks.find? fun a => a.launch = launch

/-- A REFILL has its answer: it waits no more. -/
def State.dropAsk (s : State) (core : Nat) (a : Ask) : State := s.modCore core fun x => { x with asks := x.asks.erase a }

/-- REFILL (R160, R161): with nothing in the queue, d stays pending and the REFILL waits behind those of its core that came before. -/
def execRefill (h : Hdr) (d : Opnd) (s : State) : Host.Outcome State Fault Refusal :=
  issue (.refill h d) s fun s =>
    match s.launchOf s.cur with
    | none => .trap .illegal (Instr.tval (.refill h d)) s
    | some (n, l) =>
      if !l.item || s.th.w.toNat ≠ l.refillHead then .trap .illegal (Instr.tval (.refill h d)) s
      else
        let core := s.coreIx s.cur
        match (if (s.oldestAsk core n).isSome || l.error.isSome then none else s.giveItem s.cur n d.code) with
        | some s => .ok s
        | none => .ok (s.modCore core fun x => { x with asks := x.asks ++ [⟨s.cur, n, d.code⟩] })

/-- The mailbox checks of R162, after its first. A handle that names another member's object with CV = 0 is refused, as R149 refuses an
arrival there (DESIGN CHOICE, assumption 91). -/
def mailboxTrap (s : State) (t : Team) (l : Launch) (x y : Word) : Option Trap :=
  let off := x.toNat % 2 ^ 28
  let m := x.toNat / 2 ^ 28
  if off % 16 ≠ 0 then some .misalign
  else if (m ≠ 15 && m ≠ t.member) || l.scratch < off + 16 then some .perm
  else match s.arrivable y with
    | some r => if (s.bar r).valid then none else some .barfault
    | none => some .barfault

/-- FETCHW (R162-R164): one request of the serving walker; a ninth waits. -/
def execFetchw (h : Hdr) (a b : Opnd) (s : State) : Host.Outcome State Fault Refusal :=
  issue (.fetchw h a b) s fun s =>
    match s.cur, s.teamOf s.cur, s.launchOf s.cur with
    | .simt team idx, some t, some (_, l) =>
      if !l.pers then .trap .illegal (Instr.tval (.fetchw h a b)) s
      else
        let x := s.src h 1 a
        let y := s.src h 2 b
        match mailboxTrap s t l x y with
        | some e => .trap e (Instr.tval (.fetchw h a b)) s
        | none =>
          if 8 ≤ t.fetches.length then .hold
          else .ok (s.modTeam team fun t => { t with fetches := t.fetches ++ [⟨idx, x.toNat % 2 ^ 28, y.toNat % 4096⟩] })
    | _, _, _ => .trap .illegal (Instr.tval (.fetchw h a b)) s

end Sys2Proof.Machine
end

