-- ==== Sys2Proof/Machine/Converge.lean ====
section
/-! DEFINITION. Convergence registers, signatures and collectives (R165-R170). -/

namespace Sys2Proof.Machine

/-- The groups of a set, in increasing number. -/
def setGroups (set : Word) : List Nat := (List.range 32).filter fun g => set.getLsbD g

/-- The thread indexes of a set, in set order: by group, then by home lane (R170). -/
def setThreads (set : Word) : List Nat := (setGroups set).flatMap fun g => (List.range 32).map fun l => 32 * g + l

def Team.cv (t : Team) (n : Nat) : Conv := Tab.getD t.cvs n {}
def Team.setCv (t : Team) (n : Nat) (c : Conv) : Team := { t with cvs := Tab.set t.cvs {} n c }

/-- Whether a thread of a set has exited (R169). -/
def State.setExited (s : State) (team : Nat) (set : Word) : Bool :=
  (setThreads set).any fun i => match s.thread? (.simt team i) with
    | some t => t.wait == .retired
    | none => true

/-- The checks of Table 7.3 on a signature. A thread that has already signed traps with CONVDUP whatever it signs, and one whose group is not in
the set with CONVSET also where a thread of the set has exited (DESIGN CHOICE, assumption 105). -/
def signTrap (s : State) (team : Nat) (t : Team) (cv opcode : Nat) (fixed : List Nat) (idx : Nat) : Option Trap :=
  let c := t.cv cv
  if !c.set.getLsbD (idx / 32) then some .convset
  else match c.op with
    | some o =>
      if o.signs.any fun g => g.idx = idx then some .convdup
      else if o.opcode ≠ opcode || o.fixed ≠ fixed then some .convset
      else if s.setExited team c.set then some .convorphan else none
    | none => if s.setExited team c.set then some .convorphan else none

/-- Adds a signature (R168): the state, and the operation when its last thread has signed. The first signature numbers it. -/
def addSign (s : State) (team : Nat) (t : Team) (cv opcode : Nat) (fixed : List Nat) (g : Sign) : State × Option (Word × ConvOp) :=
  let c := t.cv cv
  let o : ConvOp := match c.op with
    | some o => { o with signs := o.signs ++ [g] }
    | none => ⟨opcode, fixed, [g], s.serial⟩
  let s := { s with serial := s.serial + 1 }
  if o.signs.length = (setThreads c.set).length then
    (s.modTeam team fun t => t.setCv cv { c with op := none }, some (c.set, o))
  else (s.modTeam team fun t => t.setCv cv { c with op := some o }, none)

/-! The values of the collectives (R170) -/

def ConvOp.sign? (o : ConvOp) (idx : Nat) : Option Sign := o.signs.find? fun g => g.idx = idx
def ConvOp.input (o : ConvOp) (idx : Nat) : Word := match o.sign? idx with
  | some g => g.a
  | none => 0

/-- The source lane of SHFL. -/
def shflLane (ctl : Word) (l : Nat) : Nat :=
  let n := ctl.toNat / 128 % 32
  match ctl.toNat / 16 % 4 with
  | 0 => n
  | 1 => if l < n then l else l - n
  | 2 => if 31 < l + n then l else l + n
  | _ => l ^^^ n

/-- The inputs that a thread's vote or reduction spans, in set order. -/
def ConvOp.span (o : ConvOp) (set : Word) (wide : Bool) (idx : Nat) : List (Nat × Word) :=
  ((setThreads set).filter fun i => wide || i / 32 = idx / 32).map fun i => (i, o.input i)

def voteOf (op : Nat) (l : List (Nat × Word)) : Word :=
  match op with
  | 0 => if l.all fun p => p.2 ≠ 0 then 1 else 0
  | 1 => if l.any fun p => p.2 ≠ 0 then 1 else 0
  | 2 => .ofNat 32 ((l.map fun p => if p.2 ≠ 0 then 2 ^ (p.1 % 32) else 0).sum)
  | _ => match l with
    | [] => 1
    | p :: t => if t.all fun q => q.2 = p.2 then 1 else 0

/-- The exact sum of F32 inputs, rounded once by RNE with subnormals kept. -/
def sumF32 (l : List Word) : Word :=
  let s := exactSum false (l.map (f32In false))
  .ofNat 32 (s.1.round f32 .rne false s.2).bits

/-- A reduction of at least one input in set order. Over a single input each gives that input's bits, also FMIN and FMAX of a NaN
(DESIGN CHOICE, assumption 90). -/
def reduceOf (op : Nat) (l : List Word) : Word :=
  let by_ (f : Word → Word → Word) : Word := match l with
    | [] => 0
    | x :: t => t.foldl f x
  match op with
  | 0 => by_ (· + ·)
  | 1 => by_ smin
  | 2 => by_ smax
  | 3 => by_ umin
  | 4 => by_ umax
  | 5 => by_ (· &&& ·)
  | 6 => by_ (· ||| ·)
  | 7 => by_ (· ^^^ ·)
  | 8 => sumF32 l
  | 9 => by_ fun x y => .ofNat 32 (fminmax false x.toNat y.toNat)
  | _ => by_ fun x y => .ofNat 32 (fminmax true x.toNat y.toNat)

/-- A thread's own result. -/
def collective (set : Word) (o : ConvOp) (g : Sign) : Word :=
  if o.opcode = 0xD2 then o.input (g.idx / 32 * 32 + shflLane g.ctl (g.idx % 32))
  else if o.opcode = 0xD3 then voteOf (g.ctl.toNat / 16 % 4) (o.span set (g.ctl.getLsbD 6) g.idx)
  else
    let l := o.span set (g.ctl.getLsbD 8) g.idx
    let l := if g.ctl.getLsbD 9 then l.filter fun p => p.1 ≤ g.idx else l
    reduceOf (g.ctl.toNat / 16 % 16) (l.map (·.2))

/-- A performed collective: every signer receives its result and goes on (R168). -/
def performCollective (s : State) (team : Nat) (set : Word) (o : ConvOp) : State :=
  o.signs.foldl (fun s g => s.modThread (.simt team g.idx) fun t => { t with
    wait := .none, readyAt := Nat.max t.readyAt s.time
    results := t.results ++ (if g.dst < 0x7C then [⟨g.dst, collective set o g, 0⟩] else []) }) s

/-- A signature of a collective: the thread waits until the operation is performed (R168). -/
def signCollective (i : Instr) (s : State) (opcode : Nat) (d : Opnd) (x ctl fixed : Word) : Res :=
  match s.cur, s.teamOf s.cur with
  | .simt team idx, some t =>
    let cv := ctl.toNat % 16
    match signTrap s team t cv opcode [fixed.toNat] idx with
    | some e => .trap e i.tval s
    | none =>
      let s := s.voidL
      let s := { s with th := { s.th with wait := .converge cv } }
      match addSign s team t cv opcode [fixed.toNat] ⟨idx, x, ctl, if d.isReg then d.code else 0x7C⟩ with
      | (s, some (set, o)) => .ok (performCollective s team set o)
      | (s, none) => .ok s
  | _, _ => .trap .illegal i.tval s

/-! Meanings -/

/-- CDECL (R166). -/
def execCdecl (h : Hdr) (w : BitVec 4) (a : Opnd) (s : State) : Host.Outcome State Fault Refusal :=
  issue (.cdecl h w a) s fun s =>
    match s.cur, s.teamOf s.cur with
    | .simt team idx, some t =>
      let x := s.src h 1 a
      let c := t.cv w.toNat
      if x = 0 || 2 ^ t.groups ≤ x.toNat || !x.getLsbD (idx / 32) || (c.set ≠ 0 && c.set ≠ x) then
        .trap .convset (Instr.tval (.cdecl h w a)) s
      else if c.set = 0 then .ok (s.modTeam team fun t => t.setCv w.toNat { c with set := x })
      else .ok s
    | _, _ => .trap .illegal (Instr.tval (.cdecl h w a)) s

/-- CRST (R167). -/
def execCrst (h : Hdr) (w : BitVec 4) (s : State) : Host.Outcome State Fault Refusal :=
  issue (.crst h w) s fun s =>
    match s.cur, s.teamOf s.cur with
    | .simt team idx, some t =>
      let c := t.cv w.toNat
      if c.set = 0 then .ok s
      else if !c.set.getLsbD (idx / 32) || c.op.isSome then .trap .convset (Instr.tval (.crst h w)) s
      else .ok (s.modTeam team fun t => t.setCv w.toNat {})
    | _, _ => .trap .illegal (Instr.tval (.crst h w)) s

/-- SHFL: every field of the control word but LANE is fixed. -/
def execShfl (h : Hdr) (d a b : Opnd) (s : State) : Host.Outcome State Fault Refusal :=
  issue (.shfl h d a b) s fun s =>
    let ctl := s.src h 2 b
    if ctl.toNat / 2 ^ 12 ≠ 0 || ctl.getLsbD 6 then .trap .illegal (Instr.tval (.shfl h d a b)) s
    else signCollective (.shfl h d a b) s 0xD2 d (s.src h 1 a) ctl (ctl &&& 0x7F)

/-- VOTE. -/
def execVote (h : Hdr) (d a b : Opnd) (s : State) : Host.Outcome State Fault Refusal :=
  issue (.vote h d a b) s fun s =>
    let ctl := s.src h 2 b
    if ctl.toNat / 2 ^ 7 ≠ 0 || (ctl.getLsbD 6 && ctl.toNat / 16 % 4 = 2) then .trap .illegal (Instr.tval (.vote h d a b)) s
    else signCollective (.vote h d a b) s 0xD3 d (s.src h 1 a) ctl ctl

/-- RDX. -/
def execRdx (h : Hdr) (d a b : Opnd) (s : State) : Host.Outcome State Fault Refusal :=
  issue (.rdx h d a b) s fun s =>
    let ctl := s.src h 2 b
    if ctl.toNat / 2 ^ 10 ≠ 0 || 11 ≤ ctl.toNat / 16 % 16 then .trap .illegal (Instr.tval (.rdx h d a b)) s
    else signCollective (.rdx h d a b) s 0xD4 d (s.src h 1 a) ctl ctl

end Sys2Proof.Machine
end

