-- ==== Sys2Proof/Machine/Fetch.lean ====
section
/-! DEFINITION. The chain that stands at a thread's word index (R55-R58, R69, R70), interrupts (R199, R204, R217), and the picker's choice
(R236, R237). -/

namespace Sys2Proof.Machine

/-! Chains (R58, R69, R70) -/

/-- An instruction word of a chain: its word index, its bits, what it decodes to, and whether its C bit ties it to a word outside its
packet. -/
structure ChainWord where
  at_  : Word
  raw  : Word
  dec  : Option Instr
  past : Bool
  deriving DecidableEq, Repr

/-- What the fetch of a chain comes to. -/
inductive Chained where
  | ok (s : State) (l : List ChainWord)
  | fault (s : State) (f : TFault) (w : Word)

/-- The words of the chain from slot `slot` of its packet on. Behind word index 0xFFFFFFFF stands word index 0, at the code base itself (R56;
DESIGN CHOICE, assumption 88). -/
def fetchChain : Nat → State → Nat → Word → Chained
  | 0, s, _, _ => .ok s []
  | n + 1, s, slot, w =>
    match fetchWords s w 1 with
    | .fault s f at_ => .fault s f at_
    | .ok s ws =>
      let x := ws.headD 0
      let span := spanOf slot x
      match (if span = 2 then fetchWords s (w + 1) 1 else .ok s []) with
      | .fault s f at_ => .fault s f at_
      | .ok s more =>
        let dec := match decode slot (x :: more) with
          | .ok (i, _) => some i
          | .error _ => none
        let c := x.getLsbD 31
        let past := c && 3 ≤ slot + span
        let l : ChainWord := ⟨w, x, dec, past⟩
        if c && !past then match fetchChain n s (slot + span) (w + .ofNat 32 span) with
          | .ok s rest => .ok s (l :: rest)
          | r => r
        else .ok s [l]

/-- The chain at the current thread's word index. Where that index names the literal or extension word of an instruction and no transfer has
tested it (a TEPC, an ENTRY, a word index of HCSTART), the word is decoded as an instruction (DESIGN CHOICE, assumption 102). -/
def State.chainAt (s : State) : Chained := fetchChain 3 s (s.th.w.toNat % 3) s.th.w

/-- The words that R69 allows only at the end of a chain. -/
def leaves : Instr → Bool
  | .br .. | .call .. | .jmp .. | .ret .. | .callr .. | .exit .. | .trap .. | .bkpt .. | .ecall .. | .eret .. | .eenter .. | .eexit .. =>
    true
  | _ => false

/-- Whether a word of a chain is ILLEGAL in its place (R58, R69), beside the rules of the word itself. -/
def ChainWord.illegal (l : ChainWord) (last : Bool) (s : State) : Bool :=
  match l.dec with
  | none => true
  | some i => l.past || (!last && (leaves i || l.raw.toNat / 2 ^ 29 % 4 ≠ 0)) || illegalWord i s

/-- Two words that need the same pipe (R26). -/
def pipeClash (s : State) : List Instr → Bool
  | [] => false
  | i :: t => t.any (fun j => s.pipeOf i == s.pipeOf j) || pipeClash s t

/-- A dependent chain (R70). -/
def dependent : List Instr → Bool
  | [] => false
  | i :: t => t.any (fun j => meets i.writeCodes j.readCodes || meets i.writeCodes j.writeCodes) || dependent t

def illegalAt (s : State) : List ChainWord → Option ChainWord
  | [] => none
  | [l] => if l.illegal true s then some l else none
  | l :: t => if l.illegal false s then some l else illegalAt s t

/-- The word that a chain's ILLEGAL names: a pipe clash its first word, else the word in the lowest slot (R26, R79). -/
def chainIllegal (s : State) (l : List ChainWord) : Option ChainWord :=
  if pipeClash s (l.filterMap (·.dec)) then l.head? else illegalAt s l

/-! Interrupts (R204, Table 9.1) -/

/-- The lowest pending enabled source of a bank with IE = 1. -/
def Bank.source (b : Bank) : Option Nat :=
  if b.tstat.getLsbD 2 then (List.range 32).find? fun k => (b.ipend &&& b.imask).getLsbD k else none

/-- The entry of the interrupt that host core `n` takes before its next chain, if there is one: of the H bank first. -/
def State.takeIrq (s : State) (n : Nat) : Option State :=
  match s.thread? (.host n) with
  | none => none
  | some t =>
    if t.wait == .stopped then none
    else
      let restart := t.restartAt t.w
      let go (s : State) : State := s.modThread (.host n) fun t => { t with wait := .none }
      match (s.hostCore n).bankH.source with
      | some k =>
        let cause : Word := .ofNat 32 (0x200 + k)
        some (if t.level == .e then ((go s).asyncExit n 0 true restart).enterBank n true cause 0 0
          else (go s).enterBank n true cause 0 restart)
      | none =>
        if t.level == .h then none
        else match (s.hostCore n).bankS.source with
          | some k => some (if t.level == .e then (go s).asyncExit n 0 true restart
              else (go s).enterBank n false (.ofNat 32 (0x200 + k)) 0 restart)
          | none => none

/-- INTERRUPT_ENTRY. -/
def execInterruptEntry (n : Nat) (s : State) : Host.Outcome State Fault Refusal :=
  agent s (if n < Config.hosts then s.takeIrq n else none)

/-! The pipes of a bundle (R26, R27) -/

/-- A scratchpad access of a word: the address register, the offset and the size. -/
def spadForm : Instr → Option (Hdr × Opnd × Int × Nat)
  | .ldsW h _ a i | .stsW h _ a i => some (h, a, i.toInt * 4, 4)
  | .ldsD h _ a i | .stsD h _ a i => some (h, a, i.toInt * 8, 8)
  | .ldsQ h _ a i | .stsQ h _ a i => some (h, a, i.toInt * 16, 16)
  | .ldsH h _ a i | .stsH h _ a i => some (h, a, i.toInt * 2, 2)
  | .ldsB h _ a i | .stsB h _ a i => some (h, a, i.toInt, 1)
  | .atomsAdd h _ a _ | .atomsMin h _ a _ | .atomsMax h _ a _ | .atomsCas h _ a _ => some (h, a, 0, 4)
  | _ => none

/-- An access of a word through the L1: the offset of its address pair and the size. -/
def globalForm (s : State) : Instr → Option (Opnd × Int × Nat)
  | .ldB _ _ a i | .ldBs _ _ a i | .stB _ _ a i => some (a, i.toInt, 1)
  | .ldH _ _ a i | .ldHs _ _ a i | .stH _ _ a i => some (a, i.toInt * 2, 2)
  | .ldW _ _ a i | .stW _ _ a i => some (a, i.toInt * 4, 4)
  | .ldD _ _ a i | .stD _ _ a i => some (a, i.toInt * 8, 8)
  | .ldQ _ _ a i | .stQ _ _ a i => some (a, i.toInt * 16, 16)
  | .ldxW h _ a b | .stxW h _ a b => some (a, (s.src h 2 b).toInt * 4, 4)
  | .ldAcqW _ _ a _ | .stRelW _ _ a _ => some (a, 0, 4)
  | .ldAcqD _ _ a _ | .stRelD _ _ a _ => some (a, 0, 8)
  | _ => none

/-- Where a word of the current thread accesses a scratchpad: the owner, the offset and the size. -/
def State.spadPlaceOf (s : State) (i : Instr) : Option (Owner × Nat × Nat) :=
  match spadForm i with
  | none => none
  | some (h, a, off, n) => match s.spadAt (ownerOf s.cur) (spadAddr (s.src h 1 a) off) n n with
    | .ok (o, off) => some (o, off, n)
    | .error _ => none

/-- The scratchpad words that a word of the current thread touches, its own team's or another member's: by core, slot and offset. -/
def State.spadWords (s : State) (i : Instr) : List Nat :=
  match s.spadPlaceOf i with
  | some (.team t, o, n) => match s.teams.find t with
    | some x => (List.range ((n + 3) / 4)).map fun k => x.core * 2 ^ 24 + x.slot * 2 ^ 18 + o / 4 + k
    | none => []
  | _ => []

/-- The bytes that a word of the current thread touches in its L1. -/
def State.l1Bytes (s : State) (i : Instr) : List Nat :=
  match globalForm s i with
  | none => []
  | some (a, off, n) => (List.range n).map (s.va a off + ·)

def isF64 : Instr → Bool
  | .dadd .. | .dmul .. | .dfma .. | .dcmp .. => true
  | _ => false

/-- A bundle with one more thread that issued its words (R27). Accesses of several threads to the same byte of the L1 or the same scratchpad
word count once (DESIGN CHOICE, assumption 103). -/
def Bundle.join (b : Bundle) (s : State) (is : List Instr) : Bundle :=
  let sfu := is.filter fun i => s.pipeOf i == .sfu
  { b with
    sfu := b.sfu + (sfu.filter fun i => !isF64 i).length
    f64 := b.f64 + (sfu.filter isF64).length
    bytes := (b.bytes ++ is.flatMap s.l1Bytes).dedup
    words := (b.words ++ is.flatMap s.spadWords).dedup }

/-- For how many clocks a bundle holds the SFU: eight functions or four F64 operations a clock. -/
def Bundle.sfuClocks (b : Bundle) : Nat := Nat.max ((b.sfu + 7) / 8) ((b.f64 + 3) / 4)

/-- For how many clocks it holds the MEM pipe: one per 128 bytes of L1, or per round of the 32 banks of a scratchpad. -/
def Bundle.memClocks (b : Bundle) : Nat :=
  let round := ((b.words.map (· / 2 ^ 24)).dedup.flatMap fun c => (List.range 32).map fun k =>
    (b.words.filter fun w => w / 2 ^ 24 = c && w % 32 = k).length).foldl Nat.max 0
  Nat.max ((b.bytes.length + 127) / 128) round

/-- A thread of the bundle that its core's picker chose last has issued its words (R27). -/
def State.joinBundle (s₀ s : State) (is : List Instr) : State :=
  match s₀.cur with
  | .host _ => s
  | .simt _ _ => s.modCore (s₀.coreIx s₀.cur) fun c =>
    let b := c.bundle.join s₀ is
    let from_ := c.picked.getD s.time
    { c with
      bundle := b
      sfuTo := if b.sfuClocks = 0 then c.sfuTo else from_ + b.sfuClocks * Config.ticksPerCoreClock
      memTo := if b.memClocks = 0 then c.memTo else from_ + b.memClocks * Config.ticksPerCoreClock }

/-! The picker (R236, R237) -/

/-- Segments on a core's drain fix-up list (R317): one for each faulting line, and one for a whole add-on-store operation, which its first
drain holds. -/
def State.drainFix (s : State) (core : Nat) : Nat :=
  ((s.drains.filter fun d => match s.teams.find d.team with
    | some t => t.core = core
    | none => false).map fun d => d.fix.length).sum

/-- Whether a channel holds as many copies as it may, 4 (R193). -/
def State.chanFull (s : State) (ch : Nat) : Bool := 4 ≤ (Tab.getD (s.store (ownerOf s.cur)).chans ch {}).queue.length

/-- Whether a word waits for work of its own thread that is outstanding, or for room in a queue (R130, R154, R164, R179, R180, R193, R317).
A word whose unit reads or writes the scratchpad waits for the thread's accesses that have not reached their banks (R127). -/
def State.waitsOwn (s : State) : Instr → Bool
  | .mwait _ t => s.th.mx.any fun m => (t = 127 || m.tiles.contains t.toNat) && !m.done
  | .mfence .. => !s.th.logged.isEmpty || s.spadLate || !s.myAsks.isEmpty || s.th.early.any fun e => s.time < e.at_
  | .fence .. => s.logHeld
  | .fetchw .. => (s.teamOf s.cur).any fun t => 8 ≤ t.fetches.length
  | .mload .. => s.spadLate
  | .mdrain _ _ _ _ x => s.spadLate || (x.glb && 32 ≤ s.drainFix (s.coreIx s.cur))
  | .cpyGs _ _ _ ch | .cpySg _ _ _ ch => s.spadLate || s.chanFull ch.toNat
  | .cpyl _ _ _ _ x | .cpyg _ _ _ _ x => s.spadLate || s.chanFull x.ch.toNat
  | _ => false

/-- A global access of a word: the offset of its address pair, the size, and the kind and form. -/
def accessForm (s : State) (i : Instr) : Option (Opnd × Int × Nat × AccessKind × Form) :=
  match i with
  | .ldcW _ _ a k => some (a, k.toInt * 4, 4, .ldc, .other)
  | .ldcQ _ _ a k => some (a, k.toInt * 16, 16, .ldc, .other)
  | .atomAdd _ _ a _ | .atomMin _ _ a _ | .atomMax _ _ a _ | .atomMinu _ _ a _ | .atomMaxu _ _ a _ | .atomAnd _ _ a _ | .atomOr _ _ a _
  | .atomXor _ _ a _ | .atomXchg _ _ a _ | .atomCas _ _ a _ | .atomFadd _ _ a _ => some (a, 0, 4, .atomic, .other)
  | .ldW _ _ a k => some (a, k.toInt * 4, 4, .read, .ldW)
  | .ldD _ _ a k => some (a, k.toInt * 8, 8, .read, .ldD)
  | .stW _ _ a k => some (a, k.toInt * 4, 4, .write, .stW)
  | .stD _ _ a k => some (a, k.toInt * 8, 8, .write, .stD)
  | i => (globalForm s i).map fun p => (p.1, p.2.1, p.2.2, if (i.dataCodes).isEmpty then .read else .write, .other)

/-- Whether a word waits for an earlier access of its thread to its line, or to a device (R125, R130). -/
def State.waitsLine (s : State) (i : Instr) : Bool := match accessForm s i with
  | some (a, off, n, kind, form) =>
    let va := s.va a off
    va % n = 0 && wellFormedVa va && (s.lineHeld va n || s.deviceWaits { sp := s.space s.cur, va := va, kind := kind, form := form })
  | none => false

/-- The chain of the current thread, when it can issue as far as Table 10.4 says (R240): a fault of its fetch is its own to take. A word
that accesses the core's scratchpad waits for the port (R27). -/
def State.nextChain (s : State) : Option (List Instr) :=
  if s.th.fetch.isSome then none else match s.chainAt with
    | .ok s l =>
      let is := l.filterMap (·.dec)
      if is.all fun x => !held x s && !s.waitsOwn x && !s.waitsLine x && !(s.spadPlaceOf x).any fun p => s.portBusy p.1 then some is else none
    | .fault _ f _ => if f.wait then none else some []

/-- A ready thread as the picker sees it: its stamp, resident slot, group and home lane, its launch and word index, its effective
priority, whether its chain needs the SFU or the MEM pipe, and whether it holds a REFILL. -/
structure Cand where
  id     : ThreadId
  stamp  : Nat
  slot   : Nat
  group  : Nat
  lane   : Nat
  launch : Nat
  w      : Word
  prio   : Nat
  sfu    : Bool := false
  mem    : Bool := false
  refill : Bool := false
  deriving DecidableEq, Repr

def Cand.older (a b : Cand) : Bool :=
  a.stamp < b.stamp || (a.stamp = b.stamp && (a.slot < b.slot || (a.slot = b.slot &&
    (a.group < b.group || (a.group = b.group && a.lane < b.lane)))))

def oldestCand : List Cand → Option Cand
  | [] => none
  | c :: t => match oldestCand t with
    | some d => some (if d.older c then d else c)
    | none => some c

def isRefill : Instr → Bool
  | .refill .. => true
  | _ => false

/-- The threads of a SIMT core that could issue at some time from now on: in no waiting state of Table 10.4, as far as the core
has found. A slice outside S0 has its cores' clocks gated (R452). -/
def State.cands (s : State) (core : Nat) : List Cand :=
  if (Tab.getD s.power (sliceOf core) {}).state ≠ 0 then []
  else s.allThreads.filterMap fun p => match p.1 with
    | .host _ => none
    | .simt team idx => match s.teams.find team with
      | none => none
      | some t =>
        if t.core = core && p.2.wait == .none && p.2.stuck ≠ some s.time then
          match (s.switchTo p.1).bind State.nextChain with
          | some is => some ⟨p.1, p.2.readyAt, t.slot, idx / 32, idx % 32, t.launch, p.2.w, if p.2.yielded then 0 else p.2.prio.toNat,
              is.any fun i => i.info.pipe == .sfu, is.any fun i => i.info.pipe == .mem, is.any isRefill⟩
          | none => none
        else none

/-- Whether a thread is overdue (R236). -/
def Cand.late (c : Cand) (now : Nat) : Bool := c.stamp + 1024 * Config.ticksPerCoreClock ≤ now

/-- Whether a thread of a core is overdue (R27, R236): one that has been found not ready is not. -/
def State.overdue (s : State) (core : Nat) : Bool :=
  ({ s with chain := none }.cands core).any fun c => c.late s.time && (s.thread? c.id).any fun (t : Thread) => t.stuck.isNone

/-- Whether a pipe that a thread's chain needs is held (R27). -/
def Core.heldFor (k : Core) (c : Cand) (now : Nat) : Bool := (c.sfu && now < k.sfuTo) || (c.mem && now < k.memTo)

/-- The bundle of R237 in a clock: none when nothing issues. -/
def pickBundle (k : Core) (l : List Cand) (now : Nat) : List Cand :=
  let rdy := l.filter fun c => c.stamp ≤ now
  match oldestCand (rdy.filter (·.late now)) with
  | some lead => if k.heldFor lead now then [] else [lead]
  | none =>
    let can := rdy.filter fun c => !k.heldFor c now
    match oldestCand (can.filter fun c => can.all fun d => d.prio ≤ c.prio) with
    | none => []
    | some lead => (List.range 32).filterMap fun n =>
        oldestCand (rdy.filter fun c => c.lane = n && c.launch = lead.launch && c.w = lead.w)

/-- What has become of the readiness of a SIMT thread (R236): one that waits is marked with the tick at which it was found so, and the first
tick without a wait is its ready stamp. -/
def State.noteThread (s : State) (i : ThreadId) : State :=
  match s.thread? i with
  | none => s
  | some t =>
    if t.wait != .none then s else match ((s.switchTo i).bind State.nextChain).isSome, t.stuck with
    | true, some at_ => if at_ < s.time then s.setThread i { t with stuck := none, readyAt := Nat.max t.readyAt s.time } else s
    | false, none => s.setThread i { t with stuck := some s.time }
    | _, _ => s

/-- The same for every SIMT thread. -/
def State.noteReady (s : State) : State :=
  if s.teams.isEmpty then s else (s.allThreads.filter fun p => !p.1.isHost).foldl (fun s p => s.noteThread p.1) s

/-- The clock of a picker's next choice: one clock after its last, or the first in which a thread is ready. -/
def State.pickClock (s : State) (core : Nat) (l : List Cand) : Nat :=
  let first := match l with
    | [] => s.time
    | c :: t => t.foldl (fun m x => Nat.min m x.stamp) c.stamp
  let next := match (s.core core).picked with
    | some t => t + Config.ticksPerCoreClock
    | none => 0
  Nat.max s.time (Nat.max next first)

/-- PICKER_CHOICE: the core's picker acts, at most once in a clock, in the first clock from now on in which a thread of it is ready. The
bundle's threads take their turns next; `order` is the order in which their accesses reach memory, by home lane. Threads that take items
with REFILL do so in increasing home lane order (R161); their atomics then wait at the unit, which serves them in an order of its own
(R299). -/
def State.pickerChoice (s : State) (core : Nat) (order : List Nat) : State :=
  match s.cands core with
  | [] => s
  | l =>
    let now := s.pickClock core l
    let b := pickBundle (s.core core) l now
    let order := if b.any (·.refill) then [] else order
    let first := order.dedup.filterMap fun n => b.find? fun (c : Cand) => c.lane = n
    let rest := b.filter fun (c : Cand) => !order.contains c.lane
    { s.modCore core fun k => { k with picked := some now, bundle := { refill := b.any (·.refill) } } with
      time := now
      agenda := if b.isEmpty then s.agenda else .bundle core order ((first ++ rest).map (·.id)) :: s.agenda }

def execPickerChoice (core : Nat) (order : List Nat) (s : State) : Host.Outcome State Fault Refusal := .next (s.pickerChoice core order)

end Sys2Proof.Machine
end

