-- ==== Sys2Proof/Machine/Matrix.lean ====
section
/-! DEFINITION. Matrix operations, tile rows and drains as the threads issue them (R171-R186, R284-R286). -/

namespace Sys2Proof.Machine

/-! The reservation table (R284-R286) -/

/-- Engine clocks are core clocks (R288). -/
def State.clock (s : State) : Nat := s.time / Config.ticksPerCoreClock

def State.quad (s : State) (n : Nat) : Quad := Tab.getD s.quads n {}
def State.modQuad (s : State) (n : Nat) (f : Quad → Quad) : State := { s with quads := s.quads.put n (f (s.quad n)) }

/-- Whether an operation's B region has been read (R286). -/
def Quad.bReady (q : Quad) (op : Nat) : Bool :=
  match q.bufs.find? (·.op == op) with
  | some b => b.ready
  | none => false

/-- Gives an eligibility stamp to every entry that becomes eligible in this clock (R285): every earlier-posted entry of its core
and tile has been granted, and an MMAJ has its B region. The stamp of a restored entry is its restore clock (R287). -/
def stampEntries (s : State) (q : Quad) : List Pass → List Pass → List Pass
  | _, [] => []
  | before, p :: rest =>
    let clear := before.all fun e => !(e.core = p.core && e.team = p.team && e.tile = p.tile) || e.grant.isSome
    let b := match s.ops.find p.op with
      | some o => o.bAddr.isNone || q.bReady p.op
      | none => true
    let p' := if p.stamp.isNone && clear && b then { p with stamp := some (p.restored.getD s.clock) } else p
    p' :: stampEntries s q (before ++ [p']) rest

def State.restamp (s : State) (n : Nat) : State := s.modQuad n fun q => { q with table := stampEntries s q [] q.table }

/-- Posts waiting passes of one core in order while the table of 32 has room (R176, R284). -/
def postWaiting (core : Nat) : Nat → Quad → Quad
  | 0, q => q
  | n + 1, q =>
    if 32 ≤ q.table.length then q
    else match q.waiting.find? (·.core == core) with
      | none => q
      | some p => postWaiting core n { q with table := q.table ++ [p], waiting := q.waiting.erase p }

/-- The quad of a core. -/
def quadOf (core : Nat) : Nat := core / 4

/-- A performed matrix operation posts its passes (R176): one for each group of the set, in increasing number. -/
def State.perform (s : State) (team : Nat) (t : Team) (pri : Nat) (tile : Nat) (set : Word) (o : ConvOp) (m : MxOp) : State :=
  let groups := setGroups set
  let passes := (List.range groups.length).zipWith (fun i g =>
    ({ core := t.core, team := team, tile := tile + i, op := o.op, group := g, pri := pri } : Pass)) groups
  let s := { s with ops := s.ops.put o.op m }
  let s := s.modQuad (quadOf t.core) fun q => postWaiting t.core 32 { q with
    waiting := q.waiting ++ passes
    reads := if m.bAddr.isSome then q.reads ++ [(o.op, t.core, groups.length)] else q.reads }
  s.restamp (quadOf t.core)

/-! Signing (R171-R176) -/

/-- The fragment and scale codes that an operation names for a thread (R173, R174). -/
def mxCodes (a b : Opnd) (x : MmaCtl) (j : Bool) : List Nat :=
  (List.range 16).map (a.code + ·) ++ (if j then [] else (List.range 16).map (b.code + ·))
    ++ (if x.sa.isReg then [x.sa.code] else []) ++ (if !j && x.sb.isReg then [x.sb.code] else [])

/-- The B region's size: 64 columns and scale words 0-23 (R175). -/
def regionSize : Nat := 2144

/-- The check of the B address by the thread at home lane 0 of the lowest group (R175). -/
def regionTrap (l : Launch) (x : Word) : Option Trap :=
  let off := x.toNat % 2 ^ 28
  if off % 16 ≠ 0 then some .misalign
  else if x.toNat / 2 ^ 28 ≠ 15 || l.scratch < off + regionSize then some .perm
  else none

/-- The words that a signing thread has acquired hold what the copies landed there for the passes of its operation, whatever stores of its team
have not completed (R178). -/
def State.useSeen (s : State) (team : Nat) : State :=
  match s.th.seen with
  | [] => s
  | l =>
    let drop (i : ThreadId) (t : Thread) : Thread := match i with
      | .simt k _ => if k = team then { t with sts := t.sts.filter fun p => !l.contains p.1 } else t
      | .host _ => t
    { s with th := { drop s.cur s.th with seen := [] }, threads := s.threads.map fun p => (p.1, drop p.1 p.2) }

/-- The signature of MMA or MMAJ (R176). The traps of convergence come first, then TILEFAULT, then those of the B region's address (DESIGN
CHOICE, assumption 104); an address that yields any value raises none (R10). -/
def signMatrix (i : Instr) (s : State) (opcode tile : Nat) (a b : Opnd) (x : MmaCtl) (addr : Word) (any : Bool := false) : Res :=
  match s.cur, s.teamOf s.cur, s.launchOf s.cur with
  | .simt team idx, some t, some (_, l) =>
    let cv := x.cv.toNat
    let j := opcode = 0xE1
    let fixed := [tile, a.code, b.code, mmaExt x]
    match signTrap s team t cv opcode fixed idx with
    | some e => .trap e i.tval s
    | none =>
      let groups := setGroups (t.cv cv).set
      let rank := (groups.filter (· < idx / 32)).length
      let lead := idx = 32 * groups.headD 0
      if l.tiles ≤ tile + rank then .trap .tilefault i.tval s
      else match (if j && lead && !any then regionTrap l addr else none) with
        | some e => .trap e (spadTval addr) s
        | none =>
          let tiles := (List.range groups.length).map (tile + ·)
          match addSign (if j then s.useSeen team else s) team t cv opcode fixed ⟨idx, addr, 0, 0x7C⟩ with
          | (s, done) =>
            let o := match done with
              | some (_, o) => o
              | none => (((s.teams.find team).getD t).cv cv).op.getD ⟨opcode, fixed, [], 0⟩
            let base := match o.sign? (32 * groups.headD 0) with
              | some g => some (g.a.toNat % 2 ^ 28)
              | none => none
            let region := if j then some (match base with
              | some r => (r, regionSize)
              | none => (0, 0)) else none
            let codes := mxCodes a b x j
            let olds := (s.th.early.filter fun e => codes.contains e.code && s.time < e.at_).map fun e => (e.code, e.old)
            let out : MxOut := { op := o.op, tiles := tiles, codes := codes, region := region, signed := true, done := false, olds := olds }
            let s := { s with th := { s.th with mx := s.th.mx ++ [out] } }
            -- The first thread of the set tells every signer where the B region lies; what they have stored there spoils the operation.
            let s := if j && lead then o.signs.foldl (fun s g => s.modThread (.simt team g.idx) fun t => { t with
                mx := t.mx.map fun (m : MxOut) => if m.op = o.op then { m with
                  region := region, spoilt := m.spoilt || m.stores.any (fun p => { m with region := region }.hitBy p.1 p.2) } else m }) s else s
            match done with
            | none => .ok s
            | some (set, o) =>
              let outs := o.signs.filterMap fun g => (s.thread? (.simt team g.idx)).bind fun t => t.mx.find? fun m => m.op = o.op
              .ok (s.perform team t l.pri tile set o ⟨team, tile, groups, x, a.code, b.code, if j then base else none,
                outs.any (·.spoilt), outs.flatMap (·.rows)⟩)
  | _, _, _ => .trap .illegal i.tval s

/-- MMA. -/
def execMma (h : Hdr) (t : BitVec 7) (a b : Opnd) (x : MmaCtl) (s : State) : Host.Outcome State Fault Refusal :=
  issue (.mma h t a b x) s fun s => signMatrix (.mma h t a b x) s 0xE0 t.toNat a b x 0

/-- MMAJ: B from the scratchpad region at register b. -/
def execMmaj (h : Hdr) (t : BitVec 7) (a b : Opnd) (x : MmaCtl) (s : State) : Host.Outcome State Fault Refusal :=
  issue (.mmaj h t a b x) s fun s => signMatrix (.mmaj h t a b x) s 0xE1 t.toNat a b x (s.src h 2 b) (s.looseCode b.code)

/-! Tile rows (R182) -/

/-- Whether a performed pass has still to update a tile of the team (R177). -/
def State.passPending (s : State) (t : Team) (team tile : Nat) : Bool :=
  let q := s.quad (quadOf t.core)
  (q.table ++ q.waiting).any fun p => p.team = team && p.tile = tile

/-- The operations of the thread that name a tile and are outstanding (R181, Table 8.2). -/
def State.tileHits (s : State) (tile : Nat) : List MxOut := s.th.mx.filter fun m => m.signed && m.tiles.contains tile

/-- The common checks of MZERO, MLOAD and MDRAIN: the tile, the hazard of Table 8.2, and the tile's order of updates
(R177, R182). The hazard is checked right after the tile and before each word's own checks (DESIGN CHOICE, assumption 92). -/
def onTile (i : Instr) (s : State) (tile : Nat) (k : Nat → Nat → Team → Launch → List MxOut → Res) : Res :=
  match s.cur, s.teamOf s.cur, s.launchOf s.cur with
  | .simt team idx, some t, some (_, l) =>
    if l.tiles ≤ tile then .trap .tilefault i.tval s
    else
      let hit := s.tileHits tile
      if s.checking && !hit.isEmpty then .trap .mxhaz i.tval s
      else if hit.isEmpty && s.passPending t team tile then .hold
      else if s.moves.any fun m => m.team = team && m.tile = tile && m.idx % 32 = idx % 32 then .hold
      else k team idx t l hit
  | _, _, _ => .trap .illegal i.tval s

/-- The rows that a word of the thread touches while operations of its own on the tile are outstanding yield any value (Table 8.2). -/
def State.touchRows (s : State) (team idx tile : Nat) (hit : List MxOut) : State :=
  (hit.foldl (fun s m => s.spoilRow (32 * tile + idx % 32) m) s).freeTiles team (rowKeys tile idx)

/-! Movements on the scratchpad port (R27) -/

/-- Whether a movement or a B read uses a core's scratchpad port. -/
def State.portTaken (s : State) (core : Nat) : Bool :=
  (s.moves.any fun m => m.core = core && m.began.isSome)
    || (s.drains.any fun d => d.began.isSome && !d.landed && d.plan.isNone && (s.teams.find d.team).any fun t => t.core = core)
    || (s.quad (quadOf core)).bufs.any fun b => b.core = core && !b.ready

/-- The piece of a movement of a core that issued first and has not begun: the number of an MLOAD or a scratchpad drain of one thread, with the
core clock of its issue. -/
def State.nextMove (s : State) (core : Nat) : Option (Nat × Nat) :=
  let loads := (s.moves.filter fun m => m.core = core && m.began.isNone).map fun m => (m.out, m.clk)
  let drains := (s.drains.filter fun d => !d.ctl.glb && !d.landed && d.began.isNone
    && (s.teams.find d.team).any fun t => t.core = core).map fun d => (d.num, d.clk)
  match loads ++ drains with
  | [] => none
  | n :: l => some (l.foldl (fun a b => if b.1 < a.1 then b else a) n)

/-- Whether the next movement of a core may begin (R27): the port is free, and no thread of the core is overdue, but that the movement of one
bundle, once under way, runs to its end. -/
def State.mayMove (s : State) (core : Nat) : Bool := match s.nextMove core with
  | some (_, c) => !s.portTaken core && ((s.core core).moveClk = some c || !s.overdue core)
  | none => false

/-- Movements begin in issue order, each when it may; one whose word has just issued begins a clock later. -/
def State.startMove (s : State) (core : Nat) (at_ : Nat) : State :=
  match s.nextMove core with
  | none => s
  | some (n, c) => if !s.mayMove core then s else { s.modCore core fun k => { k with moveClk := some c } with
    moves := s.moves.map fun m => if m.out = n then { m with began := some at_ } else m
    drains := s.drains.map fun d => if d.num = n then { d with began := some at_ } else d }

/-- The clock after that of an issue. -/
def State.nextClock (s : State) : Nat := s.time + Config.ticksPerCoreClock

/-- Whether a movement of 128-byte pieces that began at a tick is over: one piece moves in each clock. -/
def State.moved (s : State) (began : Option Nat) (pieces : Nat) : Bool := match began with
  | some t => t + pieces * Config.ticksPerCoreClock ≤ s.time
  | none => false

/-- Writes a thread's two rows; their poison marks go (R421). -/
def State.setRows (s : State) (team idx tile : Nat) (v : List Word) : State :=
  s.modTeam team fun t => { t with
    tiles := ((rowKeys tile idx).zip v).foldl (fun m p => Tab.set m 0 p.1 p.2) t.tiles
    tpoison := t.tpoison.filter fun k => !(rowKeys tile idx).contains k }

/-- MZERO. -/
def execMzero (h : Hdr) (t : BitVec 7) (s : State) : Host.Outcome State Fault Refusal :=
  issue (.mzero h t) s fun s => onTile (.mzero h t) s t.toNat fun team idx _ _ hit =>
    if hit.isEmpty then .ok (s.setRows team idx t.toNat (List.replicate 128 0)) else .ok (s.touchRows team idx t.toNat hit)

/-- MLOAD: its data moves after issue on the scratchpad port (R27). -/
def execMload (h : Hdr) (t : BitVec 7) (a : Opnd) (s : State) : Host.Outcome State Fault Refusal :=
  issue (.mload h t a) s fun s => onTile (.mload h t a) s t.toNat fun team idx tm l hit =>
    let x := s.src h 1 a
    let off := x.toNat % 2 ^ 28 + 512 * (idx % 32)
    if x.toNat % 16 ≠ 0 then .trap .misalign (spadTval x) s
    else if x.toNat / 2 ^ 28 ≠ 15 || l.scratch < off + 512 then .trap .perm (spadTval x) s
    else if s.spadLate then .hold
    else
      let s := if hit.isEmpty then s else s.touchRows team idx t.toNat hit
      .ok (({ s with
        serial := s.serial + 1
        moves := s.moves ++ [⟨tm.core, team, idx, t.toNat, off, s.serial, !hit.isEmpty, s.clock, none⟩]
        th := { s.th with readyAt := s.time, mx := s.th.mx ++ [{ op := s.serial, tiles := [t.toNat], codes := [], region := some (off, 512), signed := false, done := false }] } }
        : State).startMove tm.core s.nextClock)

/-! MDRAIN (R183-R186) -/

/-- The element size of a drain format (Table 8.4). -/
def drainSize (fmt : Nat) : Nat := if fmt = 1 || fmt = 10 then 4 else if fmt = 2 || fmt = 3 then 2 else 1

/-- C / S9Value(DIV), rounded once by RNE to an IEEE format (R184). -/
def divRound (f : Fmt) (v : FVal) (div : Nat) : Nat :=
  match s9 div, v with
  | none, _ => f.nanBits
  | _, .nan => f.nanBits
  | some _, .inf n => (if n then f.signBit else 0) + f.infBits
  | some (m, e), .fin n k x => (roundIeee f .rne false n (if m then 2 * k else k) (if m then 3 else 1) (x - e)).bits

/-- The conversion of one tile element (Table 8.4). -/
def drainElem (fmt div : Nat) (c : Word) : Nat :=
  let v := f32.value c.toNat
  match fmt with
  | 1 => divRound f32 v div
  | 2 => divRound f16 v div
  | 3 => divRound bf16 v div
  | 4 => (narrow v (some div) .e4m3 true).bits
  | 5 => (narrow v (some div) .e5m2 true).bits
  | 7 => (narrow (.fin (c.toInt < 0) c.toInt.natAbs 0) (some div) .s8 false).bits
  | _ => c.toNat

/-- The byte offset of element (r, c) from the destination (R183): 8-bit elements stand where pi puts them. -/
def drainOff (x : DrainCtl) (pitch r c : Nat) : Nat :=
  let s := drainSize x.fmt.toNat
  let line := if x.col then c else r
  let k := if x.col then r else c
  line * pitch + (if s = 1 then k / 4 * 4 + pi8 (k % 4) else k * s)

/-- The offsets and bytes of a thread's drain; those that Table 8.2 gives any value are not converted. -/
def drainCells (x : DrainCtl) (pitch idx : Nat) (elems : List Word) (loose : Bool := false) : List (Nat × List Byte) :=
  (List.range 128).zipWith (fun i e =>
    (drainOff x pitch (2 * (idx % 32) + i / 64) (i % 64),
      leBytes (drainSize x.fmt.toNat) (if loose then e.toNat else drainElem x.fmt.toNat x.div.toNat e))) elems

/-- One past the last byte of a thread's drain. -/
def drainEnd (x : DrainCtl) (pitch idx : Nat) : Nat :=
  let s := drainSize x.fmt.toNat
  let r := 2 * (idx % 32) + 1
  if x.col then 63 * pitch + (if s = 1 then r / 4 * 4 + 4 else (r + 1) * s) else r * pitch + 64 * s

/-- The checks of R183 after the tile check. -/
def drainTrap (s : State) (l : Launch) (x : DrainCtl) (dst : Nat) (sa : Word) (pitch idx : Nat) : Option Trap :=
  let o := ownerOf s.cur
  if dst % 16 ≠ 0 || pitch % 16 ≠ 0 then some .misalign
  else if pitch < 64 * drainSize x.fmt.toNat then some .illegal
  else if !x.glb && (match s.memberOf o (sa.toNat / 2 ^ 28) with
      | none => true
      | some m => s.spadSize m < sa.toNat % 2 ^ 28 + drainEnd x pitch idx) then some .perm
  else if x.bar ≠ 0xFF && (s.engineHandle o l.eid x.bar.toNat).isNone then some .barfault
  else none

/-- Whether the L1 lines that a global drain covers meet a held line (R139). -/
def State.drainMeetsHold (s : State) (core dst : Nat) (x : DrainCtl) (pitch idx : Nat) : Bool :=
  let sp := s.space s.cur
  let lines := ((drainCells x pitch idx (List.replicate 128 0)).map fun c => (dst + c.1) / 128).dedup
  x.glb && s.waitsForHold fun l => l.core = core && l.sp = sp && lines.contains l.va

/-- MDRAIN: the tile is read at issue; the bytes land and are counted later (R186). It is the carrier of an earlier FENCE.REL, and with
REL = 1 of its own, which waits for the thread's earlier accesses (R143). -/
def execMdrain (h : Hdr) (t : BitVec 7) (a b : Opnd) (x : DrainCtl) (s : State) : Host.Outcome State Fault Refusal :=
  issue (.mdrain h t a b x) s fun s => onTile (.mdrain h t a b x) s t.toNat fun team idx tm l hit =>
    let sa := s.src h 1 a
    let dst := if x.glb then (s.src2 1 a).toNat else sa.toNat
    let pitch := (s.src h 2 b).toNat
    match drainTrap s l x dst sa pitch idx with
    | some .illegal => .trap .illegal (Instr.tval (.mdrain h t a b x)) s
    | some e => .trap e (.ofNat 64 dst) s
    | none =>
      if s.spadLate || (x.glb && 32 ≤ s.drainFix tm.core) then .hold
      else if (x.rel && (s.fenceHeld || s.fenceMeetsHold 1 4 false)) || s.drainMeetsHold tm.core dst x pitch idx then .hold
      else if (rowKeys t.toNat idx).any tm.tpoison.contains then .trap .integ (.ofNat 64 dst) s
      else
        let elems := if hit.isEmpty then (rowKeys t.toNat idx).map fun k => Tab.getD tm.tiles k 0
          else (rowKeys t.toNat idx).map fun k => s.free (8192 + k)
        let s := if x.rel then s.release 4 else s
        let sig := s.th.pending.getD 0
        let s := { s with th := { s.th with pending := none } }
        let sectors := ((drainCells x pitch idx elems).map fun c => (dst + c.1) / 32).dedup
        let sp := s.space s.cur
        let s := if x.glb then sectors.foldl (fun s k => s.sectorHome tm.core sp (32 * k) false) s else s
        .ok (({ s with
          serial := s.serial + 1, th := { s.th with readyAt := s.time }
          drains := s.drains ++ [⟨s.serial, team, idx, x, dst, pitch, elems, sp, sig, s.clock, false, [], none, [], none, !hit.isEmpty⟩] } : State).startMove
            tm.core s.nextClock)

/-! MFENCE and MWAIT (R179, R180) -/

/-- MFENCE: waits for the thread's earlier register writes and scratchpad writes, also those of a pending REFILL. -/
def execMfence (h : Hdr) (w : BitVec 4) (s : State) : Host.Outcome State Fault Refusal :=
  issue (.mfence h w) s fun s =>
    match s.cur, s.teamOf s.cur with
    | .simt _ idx, some t =>
      if !(t.cv w.toNat).set.getLsbD (idx / 32) then .trap .convset (Instr.tval (.mfence h w)) s
      else if s.waitsOwn (.mfence h w) then .hold
      else .ok { s with th := s.th.complete }
    | _, _ => .trap .illegal (Instr.tval (.mfence h w)) s

/-- MWAIT: waits for the thread's operations and movements on a tile, or on every tile. -/
def execMwait (h : Hdr) (t : BitVec 7) (s : State) : Host.Outcome State Fault Refusal :=
  issue (.mwait h t) s fun s =>
    let covers (m : MxOut) : Bool := t = 127 || m.tiles.contains t.toNat
    if s.th.mx.any fun m => covers m && !m.done then .hold
    else .ok { s with th := { s.th with mx := s.th.mx.filter fun m => !covers m } }

end Sys2Proof.Machine
end

