-- ==== Sys2Proof/Machine/CopyOps.lean ====
section
/-! DEFINITION. Copies (R187-R197, R293-R297, R458): their checks and issue, channels and engines, delivery in logical order, the
fix-up list, counts and the write pointer; and the answer to a fault record (R323). -/

namespace Sys2Proof.Machine

/-! The layout record (Tables 8.5 and 8.6) -/

/-- Element size of a format in bits (Table 2.3). -/
def fmtBits (f : Nat) : Nat :=
  if f = 6 || f = 9 then 4
  else if f = 1 || f = 10 || f = 14 then 32
  else if f = 2 || f = 3 || f = 13 then 16
  else if f = 11 then 64
  else 8

/-- A record word and fields of Q0. -/
def recW (r : List Word) (n : Nat) : Nat := (r.getD n 0).toNat
def recF (r : List Word) (lo width : Nat) : Nat := recW r 0 / 2 ^ lo % 2 ^ width
def recFmt (r : List Word) : Nat := recF r 0 4
def recSwz (r : List Word) : Nat := recF r 10 2
def recDim (r : List Word) (d : Nat) : Nat := recW r (4 + d)
def recStride (r : List Word) (d : Nat) : Nat := if d = 0 then 0 else recW r (6 + 2 * d) + 2 ^ 32 * recW r (7 + 2 * d)
def recOrigin (r : List Word) (d : Nat) : Int := (r.getD (14 + d) 0).toInt
def recWin (r : List Word) (d : Nat) : Nat := recW r 18 / 2 ^ (8 * d) % 256 + 1
def recBase (r : List Word) : Nat := recW r 1 + 2 ^ 32 * recW r 2
def recSaddr (r : List Word) : Word := r.getD 19 0

/-- B, the byte count of a CPY (R188). -/
def recBytes (r : List Word) : Nat := recWin r 0 * recWin r 1 * recWin r 2 * recWin r 3 * fmtBits (recFmt r) / 8

/-- The swizzled offset of R188. -/
def swizzle (swz l : Nat) : Nat := l ^^^ (l / 128 % 2 ^ swz * 16)

/-- One past the last scratchpad byte of a window image: the last block's 16-byte chunks lie where the swizzle puts them. -/
def recSpan (r : List Word) : Nat :=
  let b := recBytes r
  ((List.range 8).map fun k => if b / 128 * 128 + 16 * k < b then swizzle (recSwz r) (b / 128 * 128 + 16 * k) + 16 else 0).foldl
    Nat.max (b / 128 * 128)

/-- The record checks of R189. -/
def recBad (r : List Word) : Bool :=
  let bits := fmtBits (recFmt r)
  let s := if bits = 4 then 1 else bits / 8
  recF r 24 8 ≠ 0 || recF r 12 4 ≠ 0 || recF r 7 1 ≠ 0 || (List.range 4).any (fun k => recW r (20 + k) ≠ 0)
    || recFmt r = 0 || recFmt r = 15 || recF r 4 3 = 0 || 5 ≤ recF r 4 3 || recF r 8 2 = 3
    || (List.range 4).any (fun d => recF r 4 3 ≤ d
        && (recDim r d ≠ 1 || recStride r d ≠ 0 || recOrigin r d ≠ 0 || recWin r d ≠ 1))
    || (List.range 4).any (fun d => recDim r d = 0 || 2 ^ 31 ≤ recDim r d)
    || recBase r % s ≠ 0 || (List.range 4).any (fun d => recStride r d % s ≠ 0)
    || recWin r 0 * recWin r 1 * recWin r 2 * recWin r 3 * bits % 128 ≠ 0
    || recW r 19 % (if recSwz r = 0 then 16 else 128) ≠ 0
    || (bits = 4 && (recOrigin r 0 % 8 ≠ 0 || recWin r 0 % 8 ≠ 0 || recDim r 0 % 8 ≠ 0))

/-! Where a copy's bytes lie -/

/-- One byte of a copy by its logical offset: its global source and destination addresses, its scratchpad address (member field
and all), and its fill value when it lies out of bounds; a skipped byte has none of them. -/
structure Cell where
  src  : Option Nat := none
  dst  : Option Nat := none
  spad : Option Word := none
  fill : Option Byte := none
  deriving DecidableEq, Repr

def Copy.total (c : Copy) : Nat := if c.form = 0 then recBytes c.rec_ else c.len

/-- The unit in which the elements of a record move: an element, or a 32-bit word of eight 4-bit ones (R189). -/
def recUnit (r : List Word) : Nat := if fmtBits (recFmt r) = 4 then 4 else fmtBits (recFmt r) / 8

/-- Byte `l` of a CPY (R188). -/
def recCell (r : List Word) (dir l : Nat) : Cell :=
  let u := recUnit r
  let k := if fmtBits (recFmt r) = 4 then 8 else 1
  let e := l / u
  let w0 := recWin r 0 / k
  let x0 := e % w0 * k
  let x1 := e / w0 % recWin r 1
  let x2 := e / w0 / recWin r 1 % recWin r 2
  let x3 := e / w0 / recWin r 1 / recWin r 2
  let c (d : Nat) (x : Nat) : Int := recOrigin r d + x
  let cs := [c 0 x0, c 1 x1, c 2 x2, c 3 x3]
  let inb := (List.range 4).all fun d => 0 ≤ cs.getD d 0 && cs.getD d 0 < recDim r d
  let g := recBase r + (cs.getD 0 0).toNat / k * u + (cs.getD 1 0).toNat * recStride r 1 + (cs.getD 2 0).toNat * recStride r 2
    + (cs.getD 3 0).toNat * recStride r 3 + l % u
  let sa : Word := recSaddr r + .ofNat 32 (swizzle (recSwz r) l)
  if inb then
    if dir = 0 then { src := some (g % 2 ^ 64), spad := some sa } else { dst := some (g % 2 ^ 64), spad := some sa }
  else if dir = 1 || recF r 8 2 = 2 then {}
  else
    let v := recW r 3
    let b := if recF r 8 2 = 0 then 0
      else if fmtBits (recFmt r) = 4 then v % 16 * 17
      else v / 2 ^ (8 * (l % u)) % 256
    { spad := some sa, fill := some (.ofNat 8 b) }

/-- Byte `l` of a copy; `row` is the index word of its row in a CPYG (R192). -/
def Copy.cell (c : Copy) (row : Word) (l : Nat) : Cell :=
  let sp (a : Nat) : Option Word := some (.ofNat 32 (a + l))
  if c.form = 0 then recCell c.rec_ c.dir l
  else if c.form = 1 then
    if c.dir = 0 then { src := some ((c.src + l) % 2 ^ 64), spad := sp c.dst }
    else if c.dir = 1 then { dst := some ((c.dst + l) % 2 ^ 64), spad := sp c.src }
    else { src := some ((c.src + l) % 2 ^ 64), dst := some ((c.dst + l) % 2 ^ 64) }
  else { src := some ((c.src + row.toNat * c.rb + l % c.rb) % 2 ^ 64), spad := sp c.dst }

/-- The lines that a byte of the global sides falls in: bytes of one turn share them (R295). -/
def Cell.lines (x : Cell) : Option Nat × Option Nat := (x.src.map (· / 128), x.dst.map (· / 128))

/-- How many bytes, at most `n`, from an offset on lie in one line of each global side, and in one row. -/
def Copy.near (c : Copy) (row : Word) (l : Nat) : Nat → Nat
  | 0 => 0
  | n + 1 =>
    let k := Copy.near c row l n
    if k = n && l + n < c.total && (c.cell row (l + n)).lines = (c.cell row l).lines && (c.form ≠ 2 || (l + n) / c.rb = l / c.rb) then
      n + 1
    else k

/-- The aligned destination word that byte `l` of a copy lies in: one of a global tensor, else the word of its offset, since every other
destination starts at a multiple of 16. -/
def Copy.wordOf (c : Copy) (row : Word) (l : Nat) : Option Nat :=
  if c.form = 0 && c.dir = 1 then (c.cell row l).dst.map (· / 4) else some (l / 4)

/-- Whether byte `l` and the one before it land in one destination word: no turn parts them (R197). -/
def Copy.joined (c : Copy) (row : Word) (l : Nat) : Bool :=
  l < c.total && (c.wordOf row l).isSome && c.wordOf row l = c.wordOf row (l - 1)

/-- The greatest length up to `n` that ends with a whole destination word. -/
def Copy.whole (c : Copy) (row : Word) (l : Nat) : Nat → Nat
  | 0 => 0
  | n + 1 => if c.joined row (l + n + 1) then Copy.whole c row l n else n + 1

/-- How many bytes, at most `n`, a turn moves from an offset (R295): bytes of one line of each global side, or one destination word whose
bytes come from several lines. -/
def Copy.run (c : Copy) (row : Word) (l n : Nat) : Nat :=
  match c.whole row l (c.near row l n) with
  | 0 => if n = 0 then 0 else ((List.range 4).find? fun k => !c.joined row (l + k + 1)).getD 3 + 1
  | k => k

/-! Channels -/

def State.chan (s : State) (o : Owner) (ch : Nat) : Chan := Tab.getD (s.store o).chans ch {}
def State.setChan (s : State) (o : Owner) (ch : Nat) (c : Chan) : State :=
  s.modStore o fun x => { x with chans := Tab.set x.chans {} ch c }

/-- CEOWN e (Table 20.1); its reset value enables guest 0. -/
def State.ceown (s : State) (e : Nat) : Dword := Tab.getD s.reg.ceown e 0x100

/-- Whether a guest owns an enabled engine (R294, R392). -/
def State.ownsEngine (s : State) (guest : Byte) : Bool :=
  (List.range Config.engines).any fun e => (s.ceown e).getLsbD 8 && (s.ceown e).setWidth 8 = guest

/-- Every physical channel that is bound. -/
def State.boundChans (s : State) : List Nat :=
  let of (x : Store) : List Nat := x.chans.filterMap fun p => p.2.phys
  s.hosts.flatMap (fun p => of p.2.store) ++ s.teams.flatMap (fun p => of p.2.store)

/-- The slice of an owner. -/
def State.ownerSlice (s : State) : Owner → Nat
  | .host n => n / 8
  | .team t => match s.teams.find t with
    | some x => x.core / 384
    | none => 0

/-- The lowest-numbered free channel of an engine that takes bindings for a guest: it is its guest's, enabled, and no change of its
owner waits (R293). -/
def State.freeChan (s : State) (guest : Byte) (e : Nat) : Option Nat :=
  if (s.ceown e).getLsbD 8 && (s.ceown e).setWidth 8 = guest && (s.reg.ceNext.find e).isNone then
    ((List.range 16).map (16 * e + ·)).find? fun p => !s.boundChans.contains p
  else none

/-- The physical channel that a binding takes (R294): the issuer's slice first, then by hops, the lower slice first. -/
def State.bindChan (s : State) (guest : Byte) (slice : Nat) : Option Nat :=
  (List.range 6).findSome? fun h =>
    ((List.range Config.slices).filter fun x => hops x slice = h).findSome? fun x =>
      (List.range 4).findSome? fun e => s.freeChan guest (4 * x + e)

/-! Issue (R190-R195, R458) -/

/-- The scratchpad ranges of a copy: address and length (R193). -/
def Copy.ranges (c : Copy) : List (Word × Nat) :=
  if c.form = 0 then [(recSaddr c.rec_, recSpan c.rec_)]
  else if c.form = 1 then
    (if c.dir = 0 then [(.ofNat 32 c.dst, c.len)] else if c.dir = 1 then [(.ofNat 32 c.src, c.len)] else [])
  else [(.ofNat 32 c.idx, c.len / c.rb * 4), (.ofNat 32 c.dst, c.len)]

/-- The form checks of R458, step 1. -/
def Copy.formTrap (c : Copy) : Option Trap :=
  if c.form = 0 then (if recBad c.rec_ then some .tlrfault else none)
  else if c.form = 1 then
    if c.len % 16 ≠ 0 then some .misalign
    else if 2 ^ 30 < c.len then some .perm
    else if c.src % 16 ≠ 0 || c.dst % 16 ≠ 0 then some .misalign else none
  else if c.dst % 16 ≠ 0 || c.src % 16 ≠ 0 || c.idx % 4 ≠ 0 then some .misalign else none

/-- The checks of R458 in their order. -/
def copyTrap (s : State) (c : Copy) : Option Trap :=
  let o := ownerOf s.cur
  match c.formTrap with
  | some t => some t
  | none =>
    if c.ranges.any fun r => match s.spadAt o r.1 r.2 1 with
      | .ok _ => false
      | .error _ => true then some .perm
    else if c.bar ≠ 0xFF && (s.engineHandle o c.sp.eid.toNat c.bar).isNone then some .barfault
    else if !s.ownsEngine c.sp.guest then some .perm else none

/-- The issue of a copy on a channel (R193, R195): at most 4 on a channel; with REL the release at DEV scope comes first. The signature of
the thread's last FENCE.REL goes with the copy's writes and counts (R278); a copy is no carrier, so a pending signature still goes with the
thread's next carrier (R143). TVAL of its traps is the channel number, of TLRFAULT the word (R201). -/
def issueCopy (i : Instr) (s : State) (c : Copy) (ch : Nat) : Res :=
  match copyTrap s c with
  | some t => .trap t (if t = .tlrfault then i.tval else .ofNat 64 ch) s
  | none =>
    let o := ownerOf s.cur
    if s.chanFull ch || s.spadLate then .hold
    else if c.rel && (s.fenceHeld || s.fenceMeetsHold 1 4 false) then .hold
    else
      let old := s.th.pending
      let s := if c.rel then s.release 4 else s
      let c := { c with sig := s.th.pending.getD 0 ||| s.th.relSig }
      let s := if c.rel then { s with th := { s.th with pending := old } } else s
      let x := s.chan o ch
      .ok (s.setChan o ch { x with queue := x.queue ++ [c] })

/-- A copy before its issue. -/
def newCopy (s : State) (form dir : Nat) (r : List Word) (src dst len idx rb bar : Nat) (rel : Bool) : Copy :=
  ⟨form, dir, r, src, dst, len, idx, rb, bar, rel, s.space s.cur, 0, s.cur, false, 0, 0, 0, [], none⟩

/-- The record of a CPY: registers a to a+23 (R187). -/
def copyRecord (s : State) (a : Opnd) : List Word := (List.range 24).map fun k => s.readCode 1 (a.code + k)

def cpyOf (s : State) (a : Opnd) (dir : Nat) (e : Bool) : Copy :=
  let r := copyRecord s a
  newCopy s 0 dir r 0 0 0 0 1 (recF r 16 8) e

/-- CPY.GS. -/
def execCpyGs (h : Hdr) (a : Opnd) (e : Bool) (ch : BitVec 4) (s : State) : Host.Outcome State Fault Refusal :=
  issue (.cpyGs h a e ch) s fun s => issueCopy (.cpyGs h a e ch) s (cpyOf s a 0 e) ch.toNat

/-- CPY.SG. -/
def execCpySg (h : Hdr) (a : Opnd) (e : Bool) (ch : BitVec 4) (s : State) : Host.Outcome State Fault Refusal :=
  issue (.cpySg h a e ch) s fun s => issueCopy (.cpySg h a e ch) s (cpyOf s a 1 e) ch.toNat

/-- CPYL (R191). -/
def execCpyl (h : Hdr) (d a b : Opnd) (x : CpylCtl) (s : State) : Host.Outcome State Fault Refusal :=
  issue (.cpyl h d a b x) s fun s =>
    let dst := if x.dir = 0 then (s.src h 0 d).toNat else (s.src2 0 d).toNat
    let src := if x.dir = 1 then (s.src h 1 a).toNat else (s.src2 1 a).toNat
    issueCopy (.cpyl h d a b x) s (newCopy s 1 x.dir.toNat [] src dst (s.src h 2 b).toNat 0 1 x.bar.toNat x.rel) x.ch.toNat

/-- CPYG (R192). -/
def execCpyg (h : Hdr) (d a b : Opnd) (x : CpygCtl) (s : State) : Host.Outcome State Fault Refusal :=
  issue (.cpyg h d a b x) s fun s =>
    let rb := x.rowb.toNat * 16
    issueCopy (.cpyg h d a b x) s (newCopy s 2 0 [] (s.src2 1 a).toNat (s.src h 0 d).toNat ((x.cnt.toNat + 1) * rb) (s.src h 2 b).toNat rb
      x.bar.toNat x.rel) x.ch.toNat

/-! Engines and their owners (R293) -/

/-- CEOWN: a change of owner waits until every channel of the engine is unbound (R293); a write that leaves the owner takes effect at once. -/
def State.applyCeown (s : State) (e : Nat) (v : Dword) : State :=
  if v.setWidth 8 ≠ (s.ceown e).setWidth 8 && s.boundChans.any (· / 16 = e) then { s with reg := { s.reg with ceNext := s.reg.ceNext.put e v } }
  else { s with reg := { s.reg with ceown := Tab.set s.reg.ceown 0x100 e v, ceNext := s.reg.ceNext.del e } }

/-- The changes of owner that wait take effect at the engines with no bound channel (R293). -/
def State.settleCeown (s : State) : State := s.reg.ceNext.foldl (fun s p => s.applyCeown p.1 p.2) s

/-! The end of a copy -/

/-- The trap of a copy on a host core is taken at its next issued word; an earlier one stays (R196). -/
def Thread.owe (t : Thread) (e : Trap) (v : Dword) : Thread := { t with owed := some (t.owed.getD (e, v)) }

/-- A copy stops (R150, R196): a SIMT launch ends; on a host core the channel drops its copies and the thread traps at its next
word. -/
def State.stopCopy (s : State) (o : Owner) (ch : Nat) (t : Trap) : State :=
  let s := (s.setChan o ch { s.chan o ch with queue := [], phys := none }).settleCeown
  match o with
  | .host n => s.modThread (.host n) fun x => x.owe t (.ofNat 64 ch)
  | .team k => match s.teams.find k with
    | some x => s.endLaunch x.launch (trapError t)
    | none => s

/-- The write pointer (R194): the start address plus the landed prefix, rounded down. -/
def Copy.pointer (c : Copy) : Word :=
  let start := if c.form = 0 then recSaddr c.rec_
    else .ofNat 32 (if c.form = 1 && c.dir = 1 then c.src else c.dst)
  let pre := (c.fix.map (·.off)).foldl Nat.min c.cursor
  let grain := if c.form = 0 && recSwz c.rec_ ≠ 0 then 128 else 16
  start + .ofNat 32 (pre / grain * grain)

/-- Bytes that have landed. -/
def Copy.landed (c : Copy) : Nat := c.cursor - (c.fix.map (·.len)).sum

/-- The count of landed bytes on the barrier in multiples of 16 (R193), and the end of the copy when all have landed; a channel with
nothing left is unbound (R294). A host core's channel whose queue goes on with a copy of another guest stays bound to its engine, which
serves that copy too: R294 keeps the binding until the queue is empty, R293 has an engine serve its own guest's copies only (DESIGN CHOICE,
assumption 107). -/
def State.creditCopy (s : State) (o : Owner) (ch : Nat) (c : Copy) : State :=
  let n := c.landed / 16 * 16 - c.counted
  let c := { c with counted := c.counted + n }
  let s := s.count (s.coreIx c.tid) c.sp.eid.toNat 0x30 (n / 16)
  let finish (s : State) : State :=
    let x := s.chan o ch
    let rest := x.queue.drop 1
    let done := c.cursor = c.total && c.fix.isEmpty
    (s.setChan o ch { x with
      queue := if done then rest else c :: rest
      phys := if done && rest.isEmpty then none else x.phys
      wptr := c.pointer }).settleCeown
  if c.bar = 0xFF || (n = 0 && c.total ≠ 0) then finish s
  else match s.engineHandle o c.sp.eid.toNat c.bar with
    | some r => match s.engineCount r n c.sig with
      | some s => finish s
      | none => s.stopCopy o ch .barfault
    | none => s.stopCopy o ch .barfault

/-! Moving bytes -/

/-- What moving a segment comes to: it has moved (with the lines its destination lies in), it waits for a held line, or a fault. -/
inductive Moved where
  | ok (s : State) (sig : Sig)
  | wait
  | fault (s : State) (a : Access) (f : TFault)
  /-- A terminal trap that writes no record: a poisoned source word (R421). -/
  | trap (t : Trap)

/-- Writes bytes at the home, line by line under their grants (R369). -/
def State.homeCells (s : State) (cells : List (Nat × Byte)) : State :=
  ((cells.map fun c => c.1 / 64).dedup).foldl (fun s l => s.landLine l (cells.filter fun c => c.1 / 64 = l)) s

/-- Stores scattered scratchpad bytes; a whole word stored clears its poison mark (R421). -/
def Store.writeCells (x : Store) (cells : List (Nat × Byte)) : Store :=
  { x with
    spad := cells.foldl (fun t c => Tab.set t 0 c.1 c.2) x.spad
    poison := x.poison.filter fun w => !((List.range 4).all fun k => cells.any fun c => c.1 = 4 * w + k) }

/-- The scratchpad bytes of cells; a member that is gone has none. -/
def State.spadPlace (s : State) (o : Owner) (a : Word) : Option (Owner × Nat) :=
  (s.memberOf o (a.toNat / 2 ^ 28)).map fun m => (m, a.toNat % 2 ^ 28)

/-- The core of an owner. -/
def State.ownerCore (s : State) : Owner → Nat
  | .host n => hostIx n
  | .team t => s.coreIx (.simt t 0)

/-- The global lines of a segment's bytes, each with its physical line: they are translated and checked in order (R196). -/
def reachLines (s : State) (sp : Space) (kind : AccessKind) (bad : State → Nat → Bool) : List Nat → Except Moved (State × Tab Nat)
  | [] => .ok (s, [])
  | va :: rest =>
    let a : Access := { sp := sp, va := va, kind := kind }
    if !wellFormedVa va then .error (.fault s a { trap := .perm }) else
    match translate s a with
    | .error f => .error (.fault s a f)
    | .ok (s, t) =>
      let line := t.at va / 128
      if s.lineHeldAt line then .error .wait
      else if bad s line then .error (.fault s a { trap := .integ, bad := some (line / 32) })
      else match reachLines s sp kind bad rest with
        | .ok (s, l) => .ok (s, (va / 128, line) :: l)
        | e => e

/-- One address of each line that addresses lie in. -/
def lineHeads (l : List Nat) : List Nat := (l.map (· / 128)).dedup.filterMap fun n => l.find? (· / 128 = n)

/-- The physical address of a byte by the lines reached. -/
def physIn (l : Tab Nat) (va : Nat) : Nat := ((l.find? (·.1 = va / 128)).map (·.2)).getD 0 * 128 + va % 128

/-- Reads the source bytes of a segment: from the home, from the scratchpad or the fill value. -/
def readCells (s : State) (o : Owner) (sp : Space) (xs : List Cell) : Except Moved (State × List Byte) :=
  match reachLines s sp .copyRead (fun s line => xs.any fun x => x.src.any fun va =>
      !s.verifies (line * 128 + va % 128) 1) (lineHeads (xs.filterMap (·.src))) with
  | .error m => .error m
  | .ok (s, ls) =>
    let s := ls.foldl (fun s l => s.l2Read sp.guest l.2) s
    let word (x : Cell) : Option (Owner × Nat) := x.spad.bind (s.spadPlace o)
    if xs.any fun x => x.src.isNone && x.fill.isNone && (word x).any fun w => (s.store w.1).poison.contains (w.2 / 4) then
      .error (.trap .integ)
    else
      let lines : Tab (List Byte) := ls.map fun l => (l.1, s.homeBytes (l.2 * 128) 128)
      .ok (s, xs.map fun x => match x.src, x.fill, word x with
        | some va, _, _ => ((lines.find? (·.1 = va / 128)).map (·.2)).getD [] |>.getD (va % 128) 0
        | none, some b, _ => b
        | none, none, some (m, off) => Tab.getD (s.store m).spad off 0
        | none, none, none => 0)

/-- Bytes of a copy that land where an MMAJ which its thread has outstanding reads its B region (Table 8.2, R279). -/
def State.copySpoils (s : State) (tid : ThreadId) (offs : List Nat) : State :=
  match s.thread? tid with
  | none => s
  | some t =>
    if t.mx.isEmpty then s else
    let chunks := (offs.map (· / 16)).dedup
    let hit := t.mx.filter fun m => m.signed && chunks.any fun k => m.hitBy (16 * k) 16
    (hit.foldl (fun s m => s.spoilFor tid m) s).modThread tid fun t => chunks.foldl (fun t k => t.noteStore (16 * k) 16) t

/-- Whether a thread is one of a team's. -/
def ofTeam (n : Nat) : ThreadId → Bool
  | .simt t _ => t = n
  | .host _ => false

/-- What a line that has landed leaves behind: the signature beside it, the epoch signature of the issuer's core, and in that core's L1 the
bytes that it has written itself, so that a load of its threads fetches the others anew (R272, R278, R280). -/
def State.landedLine (s : State) (core : Nat) (sp : Space) (sig : Sig) (va line : Nat) : State :=
  ((s.keepSig line sig).noteWrite core va).dropClean core sp va

/-- Scratchpad words that a copy has landed on over stores of the team that have not completed (R178). -/
def State.landOver (s : State) (o : Owner) (r : Option BarRef) (words : List Nat) : State :=
  match r, o with
  | some r, .team team =>
    let hit := words.filter fun w => s.allThreads.any fun p => ofTeam team p.1 && p.2.sts.any fun x => x.1 = w
    if hit.isEmpty then s else s.modStore o fun x => { x with landedOn := x.landedOn ++ hit.map fun w => (r, w) }
  | _, _ => s

/-- Moves a segment of a copy (R188, R195): its bytes are read, then land. -/
def moveCells (s : State) (o : Owner) (c : Copy) (xs : List Cell) : Moved :=
  match readCells s o c.sp xs with
  | .error m => m
  | .ok (s, bs) =>
    let out := (xs.zip bs).filterMap fun p => p.1.dst.map fun va => (va, p.2)
    match reachLines s c.sp .copyWrite (fun s line => out.any fun p => s.writeFails (line * 2 + p.1 % 128 / 64))
        (lineHeads (out.map (·.1))) with
    | .error m => m
    | .ok (s, ls) =>
      let s := ls.foldl (fun s l => s.l2Store c.sp.guest l.2) s
      let s := s.homeCells (out.map fun p => (physIn ls p.1, p.2))
      let s := ls.foldl (fun s l => s.landedLine (s.ownerCore o) c.sp c.sig (l.1 * 128) l.2) s
      let cells := (xs.zip bs).filterMap fun p => if p.1.src.isNone && p.1.fill.isNone then none
        else (p.1.spad.bind (s.spadPlace o)).map fun w => (w.1, w.2, p.2)
      let s := match cells with
        | [] => s
        | (m, _) :: _ =>
          let s := if m = o then (s.copySpoils c.tid (cells.map (·.2.1))).landOver o (s.engineHandle o c.sp.eid.toNat c.bar)
            (cells.map fun x => x.2.1 / 4 * 4).dedup else s
          s.modStore m fun x => x.writeCells (cells.map (·.2))
      .ok s (ls.foldl (fun g l => g ||| sigOf l.1) 0)

/-- The agent number of a channel in a record (Table 14.7). -/
def State.copyAgent (s : State) (o : Owner) (ch : Nat) : Nat × Nat :=
  let p := (s.chan o ch).phys.getD 0
  (2, p / 64 * 2 ^ 28 + p / 16 * 2 ^ 22 + p % 16 * 2 ^ 18)

/-- Whether the head of a channel is one that an engine serves. -/
def State.served (s : State) (o : Owner) (ch : Nat) : Option Copy :=
  let x := s.chan o ch
  match x.queue, x.phys with
  | c :: _, some p =>
    -- A change that waits has its EN already (R392).
    if c.started && (s.ceown (p / 16)).getLsbD 8 && (s.reg.ceNext.find (p / 16)).all (·.getLsbD 8) then some c else none
  | _, _ => none

/-- What a fault of a segment comes to (R196, R296): a retryable one goes on the fix-up list; delivery stops at it while the list is full,
and waits while the records have no room; a terminal one stops the copy. -/
def State.copyFault (s : State) (o : Owner) (ch : Nat) (c : Copy) (off len : Nat) (a : Access) (f : TFault) : Option State :=
  if f.wait then none
  else if f.trap.retryable then
    match s.retryFault a.sp a.kind a.va f.trap.num f.detail (s.copyAgent o ch) with
      | .wait s link =>
        let s := s.count (s.coreIx c.tid) c.sp.eid.toNat 0x40 1
        let g : Segment := ⟨off, len, a.va, c.row, link, false⟩
        some (s.creditCopy o ch (if c.fix.length < 64 then { c with cursor := Nat.max c.cursor (off + len), fix := c.fix ++ [g] }
          else { c with stop := some g }))
      | .full => none
      | .terminal s => some (s.stopCopy o ch f.trap)
  else if f.trap = .perm && !wellFormedVa a.va then some (s.stopCopy o ch .perm)
  else some ((s.terminalFault a f (s.copyAgent o ch)).stopCopy o ch f.trap)

/-- The index word of the row at an offset (R192), read before the row is fetched. -/
def rowWord (s : State) (o : Owner) (c : Copy) (l : Nat) : Option Word :=
  match s.spadPlace o (.ofNat 32 (c.idx + 4 * (l / c.rb))) with
  | some (m, off) => if (s.store m).poison.contains (off / 4) then none else some ((s.store m).word off)
  | none => some 0

/-! Events -/

/-- CHANNEL_BIND (R294). -/
def execChannelBind (o : Owner) (ch : Nat) (s : State) : Host.Outcome State Fault Refusal :=
  agent s (match (s.chan o ch).queue, (s.chan o ch).phys with
    | c :: _, none => (s.bindChan c.sp.guest (s.ownerSlice o)).map fun p => s.setChan o ch { s.chan o ch with phys := some p }
    | _, _ => none)

/-- COPY_START (R193, R194): the copy at the head of a bound channel starts; the write pointer is reset. -/
def execCopyStart (o : Owner) (ch : Nat) (s : State) : Host.Outcome State Fault Refusal :=
  agent s (match (s.chan o ch).queue, (s.chan o ch).phys with
    | c :: rest, some _ =>
      if c.started then none
      else some (s.setChan o ch { s.chan o ch with queue := { c with started := true } :: rest, wptr := c.pointer })
    | _, _ => none)

/-- Whether a channel has bytes for its engine to deliver: not while delivery has stopped at a fault (R296). -/
def State.delivers (s : State) (o : Owner) (ch : Nat) : Bool :=
  (s.served o ch).any fun c => c.stop.isNone && (c.cursor ≠ c.total || c.total = 0)

/-- The segment that replays next (R196, R296): after the last segment has been delivered the lowest address; while delivery has stopped at
a fault that the full list has no place for, the lowest address among the answered ones. -/
def Copy.nextFix (c : Copy) : Option Segment :=
  let least (l : List Segment) : Option Segment := l.foldl (fun b x => match b with
    | some y => if x.va < y.va then some x else b
    | none => some x) none
  if c.cursor = c.total then (least c.fix).bind fun x => if x.answered then some x else none
  else if c.stop.isSome then least (c.fix.filter (·.answered))
  else none

/-- The physical channels that have bytes to deliver or to replay: a replay is a turn of its channel too (R295, R296). -/
def State.delivering (s : State) : List Nat :=
  let of (o : Owner) (x : Store) : List Nat := x.chans.filterMap fun p =>
    if s.delivers o p.1 || ((s.served o p.1).bind (·.nextFix)).isSome then p.2.phys else none
  s.hosts.flatMap (fun p => of (.host p.1) p.2.store) ++ s.teams.flatMap fun p => of (.team p.1) p.2.store

/-- The physical channel that an engine serves next (R295): after the one that it served last, in the order of their numbers. -/
def State.nextChan (s : State) (e : Nat) : Option Nat :=
  let l := s.delivering
  let after := match s.ceLast.find e with
    | some p => p % 16 + 1
    | none => 0
  ((List.range 16).map fun k => 16 * e + (after + k) % 16).find? l.contains

/-- Delivers the next bytes of a copy, at most `n` of them, in logical order; a copy of no bytes counts 0 and ends (R191). None where a
held line or a full record queue lets nothing move. -/
def State.deliverCopy (s : State) (o : Owner) (ch : Nat) (c : Copy) (n : Nat) : Option State :=
  if c.total = 0 then some (s.creditCopy o ch c) else
  let l := c.cursor
  match (if c.form = 2 && l % c.rb = 0 then rowWord s o c l else some c.row) with
  | none => some (s.stopCopy o ch .integ)
  | some row =>
    let c := { c with row := row }
    let n := c.run row l n
    match moveCells s o c ((List.range n).map fun k => c.cell row (l + k)) with
    | .ok s g => some (s.creditCopy o ch { c with cursor := l + n, sig := c.sig ||| g })
    | .wait => none
    | .trap t => some (s.stopCopy o ch t)
    | .fault s a f => s.copyFault o ch c l n a f

/-- COPY_ENGINE_TURN (R295): the channel whose turn it is delivers one line's worth of bytes; where nothing can move its turn passes. -/
def execCopyEngineTurn (o : Owner) (ch : Nat) (s : State) : Host.Outcome State Fault Refusal :=
  agent s (match s.served o ch, (s.chan o ch).phys with
    | some c, some p =>
      if s.delivers o ch && s.nextChan (p / 16) = some p then
        let s : State := { s with ceLast := s.ceLast.put (p / 16) p }
        some ((s.deliverCopy o ch c 128).getD s)
      else none
    | _, _ => none)

/-- FLAGS.FIX of a launch whose copy or drain replays (Table 11.5). -/
def State.noteFix (s : State) : Owner → State
  | .host _ => s
  | .team t => match s.teams.find t with
    | some x => s.modLaunch x.launch fun l => { l with fix := true }
    | none => s

/-- The fault at which delivery stopped takes a free place on the list, and delivery resumes past it (R296). -/
def Copy.resume (c : Copy) : Copy := match c.stop with
  | some g => if c.fix.length < 64 then { c with cursor := g.off + g.len, fix := c.fix ++ [g], stop := none } else c
  | none => c

/-- A segment replays; one that faults again waits on a new record (R323). -/
def State.replayFix (s : State) (o : Owner) (ch : Nat) (c : Copy) (g : Segment) : Option State :=
  let c' := { c with fix := c.fix.erase g }
  match moveCells s o c ((List.range g.len).map fun k => c.cell g.row (g.off + k)) with
  | .ok s x => some ((s.noteFix o).creditCopy o ch { c' with sig := c.sig ||| x }.resume)
  | .wait => none
  | .trap t => some (s.stopCopy o ch t)
  | .fault s a f => (s.copyFault o ch { c' with row := g.row } g.off g.len a f).map fun s' =>
      let x := s'.chan o ch
      s'.setChan o ch { x with queue := match x.queue with
        | y :: rest => { y with row := c.row } :: rest
        | [] => [] }

/-- COPY_FIXUP_REPLAY: in its channel's turn at the engine (R295). -/
def execCopyFixupReplay (o : Owner) (ch : Nat) (s : State) : Host.Outcome State Fault Refusal :=
  agent s (match s.served o ch, (s.chan o ch).phys with
    | some c, some p => match c.nextFix with
      | none => none
      | some g =>
        if s.nextChan (p / 16) = some p then
          let s : State := { s with ceLast := s.ceLast.put (p / 16) p }
          some ((s.replayFix o ch c g).getD s)
        else none
    | _, _ => none)

/-! The answer to a record (R323) -/

/-- The channels of a store whose head copy waits on a link. -/
def waitingChans (x : Store) (link : Nat) : List Nat :=
  x.chans.filterMap fun p => if p.2.queue.any fun c => (c.fix ++ c.stop.toList).any fun g => g.link = link then some p.1 else none

/-- Marks the segments of a store that wait on a link as answered. -/
def answerChans (x : Store) (link : Nat) : Store :=
  let answer (g : Segment) : Segment := if g.link = link then { g with answered := true } else g
  { x with chans := x.chans.map fun p => (p.1, { p.2 with queue := p.2.queue.map fun c =>
      { c with fix := c.fix.map answer, stop := c.stop.map answer } }) }

/-- The answer as the command processor takes it (R248, R261, R344): a failed read of a record, list or constant segment is EFETCH, and
a failed signal write is given up. -/
def Entry.answer (e : Entry) (link : Nat) (fail : Bool) : Entry :=
  if e.heldOn ≠ some link then e
  else if !fail then { e with heldOn := none }
  else if e.words.isEmpty then { e with heldOn := none, error := some 0x204, blind := true }
  else if e.deps.isNone then { e with heldOn := none, error := some 0x204, deps := some [] }
  else { e with heldOn := none, mute := true }

/-- The answer for a launch: a signal write that fails is given up (R261), and the constant reads of the quads that wait may go on
(R248). -/
def Launch.answer (l : Launch) (link : Nat) (fail : Bool) : Launch :=
  { l with
    waits := if l.waits = some link then none else l.waits
    mute := l.mute || (fail && l.waits = some link)
    consts := l.consts.filter (·.2 ≠ link) }

/-- Whether the page of a logged access is a device's now (R125): its own turn at the device then decides its order. -/
def State.isDevice (s : State) (e : LogEntry) : Bool :=
  let at_ (f : Form) : Bool := s.devicePage { sp := e.sp, va := e.va, kind := e.kind, form := f }
  e.dev && if kindWrites e.kind then at_ .stW || at_ .stD else at_ .ldW || at_ .ldD

/-- An answer to an outstanding record (R323): everything that waits on it may replay; with FAIL = 1 every attached access
completes as a terminal PERM without a record: of a constant segment as EFETCH (R248), of a TDISP or link submission without its data. -/
def State.answerLink (s : State) (link : Nat) (fail : Bool) : State :=
  let noConst := s.launches.filterMap fun l => if l.2.consts.any (·.2 = link) then some l.1 else none
  let s : State := { s with
    dmas := if fail then s.dmas.filter (·.waits ≠ some link) else s.dmas.map fun d => if d.waits = some link then { d with waits := none } else d
    outst := s.outst.filter (·.link ≠ link)
    queues := s.queues.map fun q => (q.1, { q.2 with entries := q.2.entries.map fun e => e.answer link fail })
    launches := s.launches.map fun l => (l.1, l.2.answer link fail) }
  if fail then
    let launches := (s.log.filter (·.link = link)).filterMap (fun e => (s.launchOf e.tid).map (·.1))
      ++ (s.drains.filter fun d => d.fix.any fun f => f.2.1 = link).filterMap (fun d => (s.teams.find d.team).map (·.launch))
      ++ (s.allThreads.filter fun p => p.2.fetch = some link).filterMap fun p => (s.launchOf p.1).map (·.1)
    let copies := s.hosts.flatMap (fun p => (waitingChans p.2.store link).map fun c => (Owner.host p.1, c))
      ++ s.teams.flatMap fun p => (waitingChans p.2.store link).map fun c => (Owner.team p.1, c)
    copies.foldl (fun s c => s.stopCopy c.1 c.2 .perm)
      (launches.foldl (fun s n => s.endLaunch n 0x10B) (noConst.foldl (fun s n => s.endLaunch n 0x204)
        { s with log := s.log.filter (·.link ≠ link) }))
  else
    let free (t : Thread) : Thread := if t.fetch = some link then { t with fetch := none }.wakeAt s.time else t
    { s with
      th := free s.th
      threads := s.threads.map fun p => (p.1, free p.2)
      hosts := s.hosts.map fun p => (p.1, { p.2 with store := answerChans p.2.store link })
      teams := s.teams.map fun p => (p.1, { p.2 with store := answerChans p.2.store link })
      log := s.log.map fun e => if e.link = link then { e with ready := true, device := e.device || s.isDevice e } else e
      drains := s.drains.map fun d => { d with fix := d.fix.map fun f => if f.2.1 = link then (f.1, f.2.1, true) else f } }

end Sys2Proof.Machine
end

