-- ==== Sys2Proof/Machine/System.lean ====
section
/-! DEFINITION. System registers (Table 9.4), timestamps, service calls and returns, the timers, and TLBI (R198-R208, R227, R290,
R291, R323, R397, R398). -/

namespace Sys2Proof.Machine

/-! Timestamps (R208, R397, R398) -/

/-- TSV of an enclave: what it had gathered, and the time since it last started to run. -/
def Encl.tsv (e : Encl) (now : Nat) : Nat := e.tsvBase + match e.tsvAt with
  | some t => now - t
  | none => 0

/-- TSR or TSV as a context reads it; outside an enclave both are the module's count. -/
def State.timestamp (s : State) (eid : Nat) (virtual_ : Bool) : Nat :=
  match s.encls.find eid with
  | some e => if virtual_ then e.tsv s.ns else s.ns + e.offr
  | none => s.ns

/-! Timers (R204) -/

/-- One clock of a bank's timer: IPEND[0] is set while TSR ≥ TCMP; the change to it is one assertion. -/
def State.tick (s : State) (n : Nat) (high : Bool) : State :=
  let b := (s.hostCore n).bank high
  if s.ns < b.tcmp.toNat then
    if b.timer then s.modHost n fun c => c.setBank high { c.bank high with timer := false } else s
  else if b.timer then s.modHost n fun c => c.setBank high { c.bank high with ipend := (c.bank high).ipend ||| 1 }
  else (s.modHost n fun c => c.setBank high { c.bank high with timer := true }).assertIrq n high 0

/-- TIMER_ASSERT: TSR has reached TCMP. -/
def execTimerAssert (n : Nat) (high : Bool) (s : State) : Host.Outcome State Fault Refusal :=
  agent s (if ((s.hostCore n).bank high).tcmp.toNat ≤ s.ns && n < Config.hosts then some (s.tick n high) else none)

/-! The governor (R290, R291) -/

/-- The quad that MGOVSEL of a host core names; none when it names no quad in service. -/
def State.govQuad (s : State) (n : Nat) : Option Nat :=
  let k := (s.hostCore n).mgovsel.toNat
  if 96 ≤ k then none
  else
    let q := 96 * (n / 8) + k
    if (s.quad q).removed || ((s.quad q).out && !s.quadBusy (n / 8) k) then none else some q

/-- The entries that wait for a grant and are eligible (R285). -/
def Quad.eligible (q : Quad) : List Pass := q.table.filter fun p => p.stamp.isSome && p.grant.isNone

/-- Whether a forced halt has stopped a team: its passes that have no grant get none (R287). -/
def State.halting (s : State) (team : Nat) : Bool :=
  match s.teams.find team with
  | some t => t.halting
  | none => false

/-- The context of a team. -/
def State.eidOfTeam (s : State) (team : Nat) : Nat := match s.launchOfTeam team with
  | some l => l.eid
  | none => 0

/-- How many clocks before `now`, not yet counted, the arbiter has withheld a grant from entries that have been eligible since `since`: those
outside an operand stage, in the window whose budget is spent (R288, R291). -/
def Quad.withheld (q : Quad) (since now : Nat) : Nat :=
  let free := match q.lastG with
    | some g => g + 8
    | none => 0
  if q.granted < q.budget then 0 else Nat.min now (64 * (q.window + 1)) - Nat.max since (Nat.max (q.lastW.getD 0) free)

/-- The first clock in which some of the entries has been eligible: a restored one keeps its old stamp (R287, R291). -/
def firstStamp (now : Nat) (l : List Pass) : Nat := l.foldl (fun m p => Nat.min m ((p.since.or p.stamp).getD now)) now

/-- Counts the clocks before `now` in which a quad's arbiter has withheld a grant: in MGOVSTAT, and as an event for each core with an
eligible entry (R291, R456). -/
def State.accrue (s : State) (n now : Nat) : State :=
  let q := s.quad n
  let l := q.eligible.filter fun p => !s.halting p.team
  let k := q.withheld (firstStamp now l) now
  if k = 0 then s else
  let s := s.modQuad n fun q => { q with stall := Nat.min (q.stall + k) (2 ^ 32 - 1), lastW := some now }
  ((l.map fun p => (p.core, s.eidOfTeam p.team)).dedup).foldl (fun s c =>
    s.count c.1 c.2 0x21 (q.withheld (firstStamp now (l.filter fun p => p.core = c.1 && s.eidOfTeam p.team = c.2)) now)) s

/-- The same for every quad whose budget is spent. -/
def State.accrueAll (s : State) : State :=
  (s.quads.filter fun p => p.2.budget ≤ p.2.granted && !p.2.table.isEmpty).foldl (fun s p => s.accrue p.1 s.clock) s

/-- The start of a new window of 64 engine clocks: the pending budget takes effect (R290). -/
def Quad.roll (q : Quad) (clock : Nat) : Quad :=
  if q.window < clock / 64 then { q with window := clock / 64, budget := q.nextB, granted := 0 } else q

/-- A write of MGOVCFG: a budget of 1-8 is taken for the next window and clears MGOVSTAT; any other is ignored. -/
def State.writeGov (s : State) (q : Nat) (v : Word) : State :=
  let b := v.toNat % 16
  if b = 0 || 8 < b then s
  else (s.accrue q s.clock).modQuad q fun x => { x.roll s.clock with nextB := b, stall := 0, lastW := some s.clock }

/-! System registers (R205-R207) -/

/-- FPC as a SYSRD reads it: every earlier floating-point word has completed; words chained with a SYSWR of FPC read it as
it stood before the chain (R45). -/
def State.readFpc (s : State) : Word :=
  let base := match s.chain with
    | some c => setFlags c.fpc c.raised
    | none => s.th.fpc
  s.th.results.foldl (fun f r => setFlags f r.flags) base

/-- A bank register by its place in 0x040-0x04E, as 64 bits from its first number. -/
def Bank.read (b : Bank) (k : Nat) : Nat :=
  match k with
  | 0 => b.vector.toNat
  | 2 => b.tcause.toNat
  | 3 => b.tstat.toNat
  | 4 => b.tepc.toNat
  | 5 => b.tecb.toNat
  | 7 => b.tval.toNat
  | 9 => b.tsave0.toNat
  | 10 => b.tsave1.toNat
  | 11 => b.ipend.toNat
  | 12 => b.imask.toNat
  | _ => b.tcmp.toNat

/-- The first number of a 64-bit register whose .HI number this is. -/
def hiOf (n : Nat) : Option Nat :=
  if n = 0x003 || n = 0x061 || (0x018 ≤ n && n ≤ 0x027 && n % 2 = 1)
      || ((0x040 ≤ n && n ≤ 0x05E) && (n % 16 = 1 || n % 16 = 6 || n % 16 = 8 || n % 16 = 14)) then some (n - 1)
  else none

/-- Whether a number is the .LO number of a 64-bit register. -/
def isLo (n : Nat) : Bool := hiOf (n + 1) == some n

/-- The live value of a register by its first number, up to 64 bits (Table 9.4). -/
def State.sysValue (s : State) (n : Nat) : Nat :=
  let core := s.coreIx s.cur
  let eid := (s.space s.cur).eid.toNat
  let host := match s.cur with
    | .host k => k
    | .simt _ _ => 0
  let hc := s.hostCore host
  if n = 0 then s.readFpc.toNat
  else if n = 1 then s.th.chk.toNat
  else if n = 2 then (s.energy core eid).1
  else if n = 4 then bit (s.energy core eid).2
  else if n = 5 then eid
  else if 0x010 ≤ n && n < 0x018 then (Tab.getD (s.core core).evsel (n - 0x010) 0).toNat
  else if 0x018 ≤ n && n < 0x028 then Tab.getD s.evcnt (evKey core eid ((n - 0x018) / 2)) 0
  else if 0x040 ≤ n && n < 0x050 then hc.bankS.read (n - 0x040)
  else if 0x050 ≤ n && n < 0x060 then hc.bankH.read (n - 0x050)
  else if n = 0x060 then hc.ptroot.toNat
  else if n = 0x062 then hc.guestid.toNat
  else if n = 0x063 then hc.fltresp.toNat
  else if n = 0x070 then hc.mgovsel.toNat
  else match s.govQuad host with
    | some q => if n = 0x071 then (s.quad q).nextB else ((s.accrue q s.clock).quad q).stall
    | none => 0

/-- What a SYSRD returns, with the latch it leaves (R206). -/
def State.sysRead (s : State) (n : Nat) : Word × Option (Nat × Word) :=
  match hiOf n with
  | some m =>
    let live : Word := .ofNat 32 (s.sysValue m / 2 ^ 32)
    match s.th.latch with
    | some (k, v) => (if k = n then v else live, none)
    | none => (live, none)
  | none =>
    let v := s.sysValue n
    (.ofNat 32 v, if isLo n then some (n + 1, .ofNat 32 (v / 2 ^ 32)) else none)

/-- One half of a 64-bit register replaced. -/
def setHalf (x : Dword) (hi : Bool) (v : Word) : Dword := if hi then pairOf x.lo v else pairOf v x.hi

/-- TCAUSE as it keeps a written value (Table 9.3): a KIND or NUM that the table does not list reads as zero (R9, DEDUCED: assumption 108). -/
def tcauseOf (v : Word) : Word :=
  let kind := if v.toNat / 256 % 8 ≤ 3 then v.toNat / 256 % 8 else 0
  let top := if kind = 1 then 0 else if kind = 2 then 31 else 22
  .ofNat 32 (kind * 256 + if v.toNat % 256 ≤ top then v.toNat % 256 else 0)

/-- A write of a bank register; reserved bits stay zero, and a 1 clears a pending source. -/
def Bank.write (b : Bank) (now k : Nat) (v : Word) : Bank :=
  match k with
  | 0 | 1 => { b with tvec := setHalf b.tvec (k = 1) v &&& ~~~(0x3F : Dword) }
  | 2 => { b with tcause := tcauseOf v }
  | 3 => { b with tstat := v &&& 0x1F }
  | 4 => { b with tepc := v }
  | 5 | 6 => { b with tecb := setHalf b.tecb (k = 6) v }
  | 7 | 8 => { b with tval := setHalf b.tval (k = 8) v }
  | 9 => { b with tsave0 := v }
  | 10 => { b with tsave1 := v }
  | 11 => { b with ipend := b.ipend &&& ~~~v }
  | 12 => { b with imask := v }
  | _ =>
    let t := setHalf b.tcmp (k = 14) v
    { b with tcmp := t, timer := b.timer && decide (t.toNat ≤ now) }

/-- A write of FLTRESP (R323): at H it answers a record of the retryable ring, at S one of the writer's guest ring. -/
def State.writeFltresp (s : State) (n : Nat) (v : Word) : State :=
  let s := s.modHost n fun c => { c with fltresp := v }
  let guest := (s.hostCore n).guestid.toNat
  let ring := if s.th.level == .h then some 0 else if guest = 0 then none else some (1 + guest)
  match s.outst.find? fun o => ring = some o.ring && o.seq ≠ 0 && o.seq = v.toNat % 2 ^ 31 with
  | some o => s.answerLink o.link (v.getLsbD 31)
  | none => s

/-- A write of a system register (Table 9.4); the flags that words chained with a write of FPC raise are kept (R96). -/
def State.sysWrite (s : State) (n : Nat) (v : Word) : State :=
  let core := s.coreIx s.cur
  let eid := (s.space s.cur).eid.toNat
  if n = 0 then { s with th := { s.th with fpc := (v &&& 0x1F07) ||| (match s.chain with
    | some c => setFlags 0 c.raised
    | none => 0) } }
  else if n = 1 then { s with th := { s.th with chk := v &&& 1 } }
  else match s.cur with
    | .simt _ _ => s
    | .host k =>
      if 0x010 ≤ n && n < 0x018 then s.modCore core fun c => { c with evsel := Tab.set c.evsel 0 (n - 0x010) (v &&& 0x3FF) }
      else if 0x018 ≤ n && n < 0x028 then
        let key := evKey core eid ((n - 0x018) / 2)
        let old : Dword := .ofNat 64 (Tab.getD s.evcnt key 0)
        { s with evcnt := Tab.set s.evcnt 0 key ((setHalf old (n % 2 = 1) v).toNat % 2 ^ 48) }
      else if 0x040 ≤ n && n < 0x050 then s.modHost k fun c => { c with bankS := c.bankS.write s.ns (n - 0x040) v }
      else if 0x050 ≤ n && n < 0x060 then s.modHost k fun c => { c with bankH := c.bankH.write s.ns (n - 0x050) v }
      else if n = 0x060 || n = 0x061 then
        s.modHost k fun c => { c with ptroot := setHalf c.ptroot (n = 0x061) v &&& 0xFFFFFFFFFF80 }
      else if n = 0x062 then s.modHost k fun c => { c with guestid := v &&& 0xFF }
      else if n = 0x063 then s.writeFltresp k v
      else if n = 0x070 then s.modHost k fun c => { c with mgovsel := v &&& 0x7F }
      else if n = 0x071 then match s.govQuad k with
        | some q => s.writeGov q v
        | none => s
      else s

/-- SYSRD: a read of FPC waits for the words before it (R45). -/
def execSysrd (h : Hdr) (d : Opnd) (imm : BitVec 14) (s : State) : Host.Outcome State Fault Refusal :=
  issue (.sysrd h d imm) s fun s =>
    let r := s.sysRead imm.toNat
    let s := if imm = 0 then { s with th := s.th.settle } else s
    .ok ({ s with th := { s.th with latch := r.2 } }.postTo d r.1)

/-- SYSWR: the write takes effect after its chain (R207). -/
def execSyswr (h : Hdr) (v : Opnd) (imm : BitVec 14) (s : State) : Host.Outcome State Fault Refusal :=
  issue (.syswr h v imm) s fun s =>
    let x := s.src h 0 v
    match s.chain with
    | some c => .ok { s with chain := some { c with sys := c.sys ++ [(imm.toNat, x)] } }
    | none => .ok (s.sysWrite imm.toNat x)

/-- TSRD (R208). -/
def execTsrd (h : Hdr) (d : Opnd) (f : Bool) (s : State) : Host.Outcome State Fault Refusal :=
  issue (.tsrd h d f) s fun s => .ok (s.postTo2 d (.ofNat 64 (s.timestamp (s.space s.cur).eid.toNat f)))

/-- ECALL (R203). -/
def execEcall (h : Hdr) (imm : BitVec 14) (s : State) : Host.Outcome State Fault Refusal :=
  issue (.ecall h imm) s fun s => match s.cur with
    | .host n => .moved (s.ecall n (imm.setWidth 32) (nextIndex (.ecall h imm) s))
    | .simt _ _ => .trap .priv (Instr.tval (.ecall h imm)) s

/-- ERET (R202). -/
def execEret (h : Hdr) (s : State) : Host.Outcome State Fault Refusal :=
  issue (.eret h) s fun s => match s.cur with
    | .host n =>
      let high := s.th.level == .h
      let pl := ((s.hostCore n).bank high).tstat.toNat % 4
      if pl < s.th.level.code || pl = 3 then .trap .priv (Instr.tval (.eret h)) s else .moved (s.trapReturn n high)
    | .simt _ _ => .trap .priv (Instr.tval (.eret h)) s

/-! TLBI (R227) -/

/-- Drops translations, and writes back and drops the cached lines, of a choice of spaces and addresses. -/
def State.invalidate (s : State) (t : Tlb → Bool) (l : Line → Bool) : State :=
  let s := s.evictLines l
  { s with
    tlb := s.tlb.filter (fun x => !t x), clines := s.clines.filter (fun x => !l x), ilines := s.ilines.filter (fun x => !l x) }

/-- TLBI; at PAGE scope every line within the largest page size around the address goes. -/
def execTlbi (h : Hdr) (a b : Opnd) (s : State) : Host.Outcome State Fault Refusal :=
  issue (.tlbi h a b) s fun s =>
    let i := Instr.tlbi h a b
    let x := s.src h 2 b
    let va := (s.src2 1 a).toNat
    let sp := s.space s.cur
    let scope := x.toNat % 4
    if x.toNat / 2 ^ 16 ≠ 0 || x.toNat / 4 % 64 ≠ 0 then .trap .illegal i.tval s
    else if scope = 3 && s.th.level != .h then .trap .priv i.tval s
    else if scope = 0 && va % 4096 ≠ 0 then .trap .misalign (.ofNat 64 va) s
    else if scope = 0 && !wellFormedVa va then .trap .perm (.ofNat 64 va) s
    else
      let guest : Byte := if s.th.level == .h then x.extractLsb' 8 8 else sp.guest
      let line (l : Line) : Bool := match scope with
        | 0 => l.sp = sp && l.va / 2 ^ 20 = va / 2 ^ 27
        | 1 => l.sp = sp
        | 2 => l.sp.guest = guest
        | _ => true
      let tlb (t : Tlb) : Bool := match scope with
        | 0 => t.covers sp va
        | 1 => t.sp = sp
        | 2 => t.sp.guest = guest
        | _ => true
      -- Its write-backs wait while an atomic unit holds a line of theirs (R139).
      if s.fenceMeetsHold 1 4 false || s.waitsForHold line then .hold else .ok ((s.release 4).invalidate tlb line)

end Sys2Proof.Machine
end

