-- ==== Sys2Proof/Machine/Engine.lean ====
section
/-! DEFINITION. The matrix engine's steps: posting, B reads, grants under the governor, the arithmetic of a pass and its tile update,
the MLOAD movement, and the energy tick (R27, R51, R52, R174-R178, R284-R291, R394, R395). -/

namespace Sys2Proof.Machine

/-! The arithmetic of a pass (R51, R52, R174) -/

/-- The width of an element of a matrix format. -/
def mmaWidth (fmt : Nat) : Nat := match fmt with
  | 2 | 3 => 16
  | 6 | 9 => 4
  | _ => 8

/-- The value of an element. -/
def mmaValue (fmt bits : Nat) : FVal := match fmt with
  | 2 => f16.value bits
  | 3 => bf16.value bits
  | _ => match Narrowed.ofCode fmt with
    | some n => n.value bits
    | none => .nan

/-- The elements of a fragment row of eight words, in logical order (R38, R174). -/
def rowValues (fmt : Nat) (ws : List Word) : List FVal :=
  let w := mmaWidth fmt
  ws.flatMap fun x => (List.range (32 / w)).map fun k => mmaValue fmt (elemBits w k x)

/-- One element of a floating-point pass (R51). The last addition follows IEEE RNE also where C is -0 and the sum is +0: it gives +0 (DESIGN
CHOICE, assumption 86). -/
def passFloat (na : Bool) (a b : List FVal) (sa sb : Nat) (c : Word) : Word :=
  let ps := (List.zipWith FVal.mul a b).map fun p => if na then p.1.neg else p.1
  let total := (exactSum false ps).1
  let scaled := (scaleBy (scaleBy total sa).1 sb).1
  let r := scaled.round f32 .rne false false
  .ofNat 32 (fAdd f32 .rne false (f32.value c.toNat) (f32.value r.bits)).bits

/-- An integer element as a number. -/
def FVal.int : FVal → Int
  | .fin s m _ => if s then -(m : Int) else m
  | _ => 0

/-- One element of an integer pass (R52). -/
def passInt (na : Bool) (a b : List FVal) (c : Word) : Word :=
  let t := (List.zipWith (fun x y => x.int * y.int) a b).sum
  .ofInt 32 (c.toInt + if na then -t else t)

/-- Whether a pair of formats makes an integer pass (R172). -/
def mmaInteger (fa : Nat) : Bool := fa = 7 || fa = 8 || fa = 9

/-- The element of row `r`, column `j` after a pass over the operands that its operand stage read. -/
def passElem (x : MmaCtl) (p : Pass) (r j : Nat) (c : Word) : Word :=
  let fa := x.fa.toNat
  let a := rowValues fa ((p.a.drop (8 * r)).take 8)
  let b := rowValues x.fb.toNat ((p.b.drop (8 * j)).take 8)
  if mmaInteger fa then passInt x.na a b c
  else passFloat x.na a b (p.sa.getD r 0xFE).toNat (p.sb.getD j 0xFE).toNat c

/-! Operands (R174, R175, R178) -/

/-- A register of a signer as an operand stage reads it: where a write of it had not completed at the signature, what it held before or
what it holds now (R178). -/
def State.operandReg (s : State) (op idx : Nat) (t : Thread) (code : Nat) : Word :=
  let old := (t.mx.find? fun m => m.signed && m.op = op).bind fun m => m.olds.find? fun e => e.1 = code
  match old with
  | some e => if (s.free (2 ^ 22 + 128 * idx + code)).getLsbD 0 then e.2 else t.reg code
  | none => t.reg code

/-- The sixteen fragment registers of every thread of a group, as 64 rows of eight words. -/
def State.fragment (s : State) (op team group code : Nat) : List Word :=
  (List.range 32).flatMap fun l => match s.thread? (.simt team (32 * group + l)) with
    | some t => (List.range 16).map fun k => s.operandReg op (32 * group + l) t (code + k)
    | none => List.replicate 16 0

/-- The 64 scales that a scale register of every thread holds: zr gives 1.0 (R51). -/
def State.scales (s : State) (op team group : Nat) (o : Opnd) : List Word :=
  (List.range 64).map fun r =>
    if !o.isReg then 0xFE else match s.thread? (.simt team (32 * group + r / 2)) with
      | some t => (s.operandReg op (32 * group + r / 2) t o.code >>> (9 * (r % 2))) &&& 0x1FF
      | none => 0xFE

/-- A word of a B region as the engine reads it: where a store of the team to it has not completed, what it held before or what it holds now
(R178). -/
def State.regionWord (s : State) (x : Store) (olds : List (Nat × Word)) (off : Nat) : Word :=
  let now := x.word off
  match olds.filter fun e => e.1 = off with
  | [] => now
  | l => ((now :: l.map (·.2))[(s.free (2 ^ 23 + off)).toNat % (l.length + 1)]?).getD now

/-- The stores of a team's threads that have not completed (R178). -/
def State.teamSts (s : State) (team : Nat) : List (Nat × Word) :=
  s.allThreads.flatMap fun p => match p.1 with
    | .simt t _ => if t = team then p.2.sts else []
    | .host _ => []

/-- The column scales of a B region: three to a word from word 512 on (R175). -/
def regionScales (ws : List Word) : List Word :=
  (List.range 64).map fun j => (ws.getD (512 + j / 3) 0 >>> (9 * (j % 3))) &&& 0x1FF

/-- Whether an operand register of a pass holds poison (R421). -/
def State.passPoison (s : State) (team group : Nat) (codes : List Nat) : Bool :=
  (List.range 32).any fun l => match s.thread? (.simt team (32 * group + l)) with
    | some t => meets t.poison codes
    | none => false

/-- A pass with the operands of its operand stage. -/
def State.operands (s : State) (q : Quad) (o : MxOp) (p : Pass) : Pass :=
  let b := match o.bAddr, q.bufs.find? (·.op == p.op) with
    | some _, some x => x.words
    | _, _ => s.fragment p.op p.team p.group o.bCode
  { p with
    grant := some s.clock
    a := s.fragment p.op p.team p.group o.aCode
    b := b.take 512
    sa := s.scales p.op p.team p.group o.ctl.sa
    sb := match o.bAddr with
      | none => s.scales p.op p.team p.group o.ctl.sb
      | some _ => if o.ctl.sb.isReg then regionScales b else List.replicate 64 0xFE }

/-! Posting and B reads (R284-R286) -/

/-- PASS_POST: a waiting pass takes a free entry. -/
def execPassPost (core : Nat) (s : State) : Host.Outcome State Fault Refusal :=
  agent s (
    let q := s.quad (quadOf core)
    if 32 ≤ q.table.length || !(q.waiting.any (·.core == core)) then none
    else some ((s.modQuad (quadOf core) (postWaiting core 1)).restamp (quadOf core)))

/-- B_READ_START: the oldest waiting B read of a core begins when a buffer and the port are free and no thread of the core is overdue; it
reads 2,136 bytes. A restored buffer takes a free one before any read (R287). A poisoned word ends the launch (R421). -/
def execBReadStart (core : Nat) (s : State) : Host.Outcome State Fault Refusal :=
  agent s (
    let q := s.quad (quadOf core)
    match q.spare.find? (·.core == core), q.reads.find? (fun r => r.2.1 = core) with
    | some b, _ =>
      if 4 ≤ q.bufs.length then none
      else some ((s.modQuad (quadOf core) fun q => { q with spare := q.spare.erase b, bufs := q.bufs ++ [b] }).restamp (quadOf core))
    | none, none => none
    | none, some r =>
      if 4 ≤ q.bufs.length || s.portTaken core || s.overdue core then none
      else match s.ops.find r.1 with
        | none => none
        | some o =>
          let off := o.bAddr.getD 0
          let x := s.store (.team o.team)
          let olds := s.teamSts o.team
          let words := (List.range 534).map fun k => s.regionWord x olds (off + 4 * k)
          let s := s.modQuad (quadOf core) fun q => { q with
            reads := q.reads.erase r
            bufs := q.bufs ++ [⟨r.1, core, r.2.2, false, words, s.clock, false⟩] }
          some (if x.poisoned off 2136 then
              match s.teams.find o.team with
              | some t => s.endLaunch t.launch 0x110
              | none => s
            else s))

/-- B_READ_END: 17 clocks after its start the buffer is whole, and the operation's entries become eligible (R285, R286). -/
def execBReadEnd (quad : Nat) (s : State) : Host.Outcome State Fault Refusal :=
  agent s (
    let q := s.quad quad
    match q.bufs.find? fun b => !b.ready && b.start + 17 ≤ s.clock with
    | none => none
    | some b => some ((s.modQuad quad fun q => { q with
        bufs := q.bufs.map fun x => if x.op = b.op then { x with ready := true } else x }).restamp quad))

/-! The arbiter (R288-R292) -/

/-- Of two entries the older: the smaller stamp, then the lower core, then the lower tile. Tile numbers are a team's own: of two entries of two
teams of a core that are equal in all three the one posted earlier is granted (DESIGN CHOICE, assumption 109). -/
def Pass.before (a b : Pass) : Bool :=
  let x := a.stamp.getD 0
  let y := b.stamp.getD 0
  x < y || (x = y && (a.core < b.core || (a.core = b.core && a.tile < b.tile)))

def oldest : List Pass → Option Pass
  | [] => none
  | p :: t => match oldest t with
    | some q => some (if q.before p then q else p)
    | none => some p

/-- The entry that the arbiter grants: the oldest aged entry, else the oldest of the highest PRI. -/
def Quad.pick (q : Quad) (now : Nat) : Option Pass :=
  match oldest (q.eligible.filter fun p => p.stamp.getD now + 512 ≤ now) with
  | some p => some p
  | none => oldest (q.eligible.filter fun p => q.eligible.all fun e => e.pri ≤ p.pri)

/-- The weight of a pass (Table 20.3). -/
def passWeight (fa : Nat) : Nat := match mmaWidth fa with
  | 8 => 196608
  | 4 => 229376
  | _ => 262144

/-- The grant of an entry: its operands are read, its context is charged, and a B buffer whose last pass this was is free. An operand register
or a B buffer that holds poison ends the launch (R421). -/
def State.grantPass (s : State) (quad : Nat) (p : Pass) (o : MxOp) : State :=
  let q := s.quad quad
  let p' := s.operands q o p
  let codes := (List.range 16).map (o.aCode + ·) ++ (if o.bAddr.isNone then (List.range 16).map (o.bCode + ·) else [])
    ++ (if o.ctl.sa.isReg then [o.ctl.sa.code] else []) ++ (if o.bAddr.isNone && o.ctl.sb.isReg then [o.ctl.sb.code] else [])
  let bad := s.passPoison p.team p.group codes || q.bufs.any fun b => b.op = p.op && b.poison
  let s := s.modQuad quad fun q => { q with
    granted := q.granted + 1, lastG := some s.clock
    table := q.table.map fun e => if e = p then p' else e
    bufs := (q.bufs.map fun b => if b.op = p.op then { b with left := b.left - 1 } else b).filter fun b => b.left ≠ 0 }
  let eid := s.eidOfTeam p.team
  let s := ((s.charge p.core eid (passWeight o.ctl.fa.toNat)).count p.core eid 0x20 1).restamp quad
  if bad then match s.teams.find p.team with
    | some t => s.endLaunch t.launch 0x110
    | none => s
  else s

/-- PASS_GRANT: one clock of the arbiter. A clock in which it withholds the grant counts (R291). -/
def execPassGrant (quad : Nat) (s : State) : Host.Outcome State Fault Refusal :=
  agent s (
    let s := (s.accrue quad s.clock).modQuad quad fun q => q.roll s.clock
    let q := s.quad quad
    let inStage := match q.lastG with
      | some g => decide (s.clock < g + 8)
      | none => false
    if inStage then none
    else match { q with table := q.table.filter fun p => !s.halting p.team }.pick s.clock with
      | none => none
      | some p =>
        if q.budget ≤ q.granted then some (s.accrue quad (s.clock + 1))
        else (s.ops.find p.op).map (s.grantPass quad p))

/-- The tile after a pass (R176): with Z it starts from +0; the elements of an operation, and the row pairs, that Table 8.2 has spoilt are any
value. -/
def State.updateTile (s : State) (p : Pass) (o : MxOp) : State :=
  if o.spoilt then s.freeTiles p.team (tileKeys [p.tile])
  else (s.modTeam p.team fun t => { t with
    tiles := (List.range 64).foldl (fun m r => (List.range 64).foldl (fun m j =>
        let k := tileKey p.tile r j
        Tab.set m 0 k (passElem o.ctl p r j (if o.ctl.z then 0 else Tab.getD t.tiles k 0))) m) t.tiles
    tpoison := if o.ctl.z then t.tpoison.filter (· / 4096 ≠ p.tile) else t.tpoison }).freeTiles p.team
      (pairKeys (o.rows.filter (· / 32 = p.tile)))

/-- An operation whose last pass has updated its tile is done for its signers (R180). -/
def State.finishOp (s : State) (n : Nat) (o : MxOp) : State :=
  let done (t : Thread) : Thread := { t with mx := t.mx.map fun m => if m.op = n && m.signed then { m with done := true } else m }
  let mine : ThreadId → Bool := fun i => match i with
    | .simt t _ => t = o.team
    | .host _ => false
  let s := if o.spoilt then s.freeTiles o.team (tileKeys ((List.range o.groups.length).map (o.tile + ·))) else s
  { s with
    ops := s.ops.del n
    th := if mine s.cur then done s.th else s.th
    threads := s.threads.map fun p => if mine p.1 then (p.1, done p.2) else p }

/-- PASS_COMPLETE: 16 clocks after its grant a pass has updated its tile and its entry is free; an MLOAD of the tile that issued before it comes
first (R177, assumption 95). A poisoned tile element that it reads ends the launch (R421). -/
def execPassComplete (quad : Nat) (s : State) : Host.Outcome State Fault Refusal :=
  agent s (
    let q := s.quad quad
    match q.table.find? fun p => (match p.grant with
      | some g => decide (g + 16 ≤ s.clock)
      | none => false) && !s.moves.any fun m => m.team = p.team && m.tile = p.tile with
    | none => none
    | some p => match s.ops.find p.op with
      | none => none
      | some o =>
        let bad := !o.ctl.z && (match s.teams.find p.team with
          | some t => t.tpoison.any (· / 4096 = p.tile)
          | none => false)
        let s := if bad then (match s.teams.find p.team with
            | some t => s.endLaunch t.launch 0x110
            | none => s) else s.updateTile p o
        let s := s.modQuad quad fun q => postWaiting p.core 1 { q with table := q.table.erase p }
        let left := ((s.quad quad).table ++ (s.quad quad).waiting).any (·.op == p.op)
        some ((if left then s else s.finishOp p.op o).restamp quad))

/-- GOVERNOR_WINDOW. -/
def execGovernorWindow (quad : Nat) (s : State) : Host.Outcome State Fault Refusal :=
  agent s (if (s.quad quad).window < s.clock / 64 then some ((s.accrue quad s.clock).modQuad quad fun q => q.roll s.clock) else none)

/-- MGOVCFG_WRITE: a write for a quad in service. -/
def execMgovcfgWrite (quad : Nat) (v : BitVec 32) (s : State) : Host.Outcome State Fault Refusal :=
  agent s (if (s.quad quad).removed then none else some (s.writeGov quad v))

/-! Movements and energy -/

/-- The end of an MLOAD's movement: its rows are loaded; a poisoned source word ends the launch (R421). -/
def State.endLoad (s : State) (m : Move) : State :=
  let s := { s with moves := s.moves.erase m }
  let x := s.store (.team m.team)
  let s := s.modThread (.simt m.team m.idx) fun t => { t with
    mx := t.mx.map fun o => if o.op = m.out && !o.signed then { o with done := true } else o }
  if m.spoilt then s.freeTiles m.team (rowKeys m.tile m.idx)
  else if x.poisoned m.off 512 then (match s.teams.find m.team with
    | some t => s.endLaunch t.launch 0x110
    | none => s)
  else s.setRows m.team m.idx m.tile ((List.range 128).map fun k => x.word (m.off + 4 * k))

/-- MLOAD_MOVEMENT_END: the movement on a core's port, which moves 128 bytes a clock, ends and the next begins; with none on the port the one
that issued first begins (R27). -/
def execMloadMovementEnd (core : Nat) (s : State) : Host.Outcome State Fault Refusal :=
  agent s (match s.moves.find? fun m => m.core = core && m.began.isSome with
    | some m => if s.moved m.began 4 then some ((s.endLoad m).startMove core s.time) else none
    | none => if s.mayMove core then some (s.startMove core s.time) else none)

/-- Static energy of 1,024 clocks at P0-P3 (R395). -/
def staticEnergy (point : Nat) : Nat := match point with
  | 0 => 1966080 | 1 => 1802240 | 2 => 1638400 | _ => 1474560

/-- Gives out the static energy of `n` ticks by the per-lane entries of the resident teams, in a clock; the residency event counts their
clocks (R395). -/
def State.giveStatic (s : State) (core n clk : Nat) : State :=
  let es := staticEnergy (Tab.getD s.power (sliceOf core) {}).eff
  let teams := (s.teams.filter fun t => t.2.core = core).map fun t => match s.launches.find t.2.launch with
    | some l => (l.eid, l.lanes)
    | none => (0, 0)
  let a := (teams.map (·.2)).sum
  (teams.map (·.1)).dedup.foldl (fun s e =>
    let r := ((teams.filter fun t => t.1 = e).map (·.2)).sum
    (s.chargeAt core e (n * (es * r / a)) clk).count core e 1 (1024 * n)) s

/-- The ticks of a core that are due, each in its own clock. -/
def State.tickCore (s : State) (core : Nat) : State :=
  let last := s.clock / 1024
  let due := last - (s.core core).ticks
  if due = 0 then s else
  let s := s.modCore core fun c => { c with ticks := last }
  (if due = 1 then s else s.giveStatic core (due - 1) (1024 * (last - 1))).giveStatic core 1 (1024 * last)

/-- The same for every core that holds a team: placements, releases and reads of energy come after the ticks that are due (R395, R412). -/
def State.tickAll (s : State) : State := ((s.teams.map (·.2.core)).dedup).foldl State.tickCore s

/-- ENERGY_TICK: the static energy of a core is given out by per-lane entries. -/
def execEnergyTick (core : Nat) (s : State) : Host.Outcome State Fault Refusal :=
  agent s (if (s.core core).ticks < s.clock / 1024 then some (s.tickCore core) else none)

end Sys2Proof.Machine
end

