-- ==== Sys2Proof/Machine/Events.lean ====
section
/-! DEFINITION. The steps of the memory system: leases, epochs, fills, write-backs, grants, walks, the atomic units, fault records, the
operand log, and interlocked results (R73, R129, R139, R143, R298, R314-R317, R322, R369-R373). -/

namespace Sys2Proof.Machine

/-! Acting for a thread -/

/-- Does something as another thread, and goes back to the current one. -/
def State.onThread (s : State) (i : ThreadId) (f : State → State) : State :=
  if i = s.cur then f s else match s.switchTo i with
    | none => s
    | some s' => ((f s').switchTo s.cur).getD (f s')

/-- INTERLOCKED_RESULT_WRITE: the oldest outstanding result of a thread is written (R73). -/
def execInterlockedResultWrite (i : ThreadId) (s : State) : Host.Outcome State Fault Refusal :=
  agent s (match s.thread? i with
    | some t => match t.results with
      | r :: rest => some (s.setThread i { t.settleOne r with results := rest })
      | [] => none
    | none => none)

/-! Caches -/

/-- LINE_LEASE_EXPIRY (R129): a write-back waits while an atomic unit holds its line (R139). -/
def execLineLeaseExpiry (core line : Nat) (s : State) : Host.Outcome State Fault Refusal :=
  agent s (
    let hit (l : Line) : Bool := l.core = core && l.va = line && l.expired s.ns && (l.dirty.isEmpty || !s.writeWaits core l.pa)
    if s.lines.any hit then some (s.evictLines hit) else none)

/-- EPOCH_ROLLOVER (R143). -/
def execEpochRollover (core : Nat) (s : State) : Host.Outcome State Fault Refusal :=
  agent s (if (s.core core).epoch < s.epochNow then some (s.modCore core fun c => c.roll s.epochNow) else none)

/-- WRITE_BACK of a dirty line (R33, R128), once no atomic unit holds it (R139). -/
def execWriteBack (core line : Nat) (s : State) : Host.Outcome State Fault Refusal :=
  agent s (
    let hit (l : Line) : Bool := l.core = core && l.va = line && !l.dirty.isEmpty && !s.writeWaits core l.pa
    if s.lines.any hit then some (s.cleanLines hit) else none)

/-- L1_FILL: a line of a space that a thread of the core uses returns from its home (R32). -/
def execL1Fill (core : Nat) (sp : Space) (va : BitVec 64) (s : State) : Host.Outcome State Fault Refusal :=
  agent s (
    let s := s.expireLeases
    let a : Access := { sp := sp, va := va.toNat, kind := .read }
    let whole := match s.findLine core sp a.va with
      | some l => l.bytes.length = 128 || l.expired s.ns
      | none => false
    if whole || !wellFormedVa a.va || !(s.allThreads.any fun p => s.coreIx p.1 = core && s.space p.1 = sp) then none
    else match translate s a with
      | .error _ => none
      | .ok (s, t) =>
        if t.mt ≠ 0 || s.portBlocked core (t.at a.va / 128) then none
        else match s.fillWhole core a t with
          | .ok (s, _) => some s
          | .error f => some (s.terminalFault a f (coreAgent core)))

/-- The space that a frame belongs to, for the record of an integrity failure found by an agent. -/
def Pot.space (p : Pot) : Space := ⟨p.guest, p.owner, 0⟩

/-- Whether the grant of a crypto line is the first that a line's write-back asks for: it is the first of the line's two with dirty bytes. -/
def Line.asksFirst (l : Line) (crypto : Nat) : Bool :=
  l.pa = crypto / 2 && (l.dirty.any fun o => o / 64 = crypto % 2) && (crypto % 2 = 0 || !l.dirty.any fun o => o / 64 = 0)

/-- COUNTER_GRANT of a crypto line (R369-R371): that of a write-back, which no atomic unit holds up. There is no grant without the write that
asks for it (R409). -/
def execCounterGrant (pa : Nat) (s : State) : Host.Outcome State Fault Refusal :=
  agent s (match s.lines.find? fun l => l.asksFirst (pa / 64) && !s.writeWaits l.core l.pa with
    | some l => some (s.cleanLines fun x => x = l)
    | none => none)

/-- PAGE_TABLE_WALK: a walk that succeeds installs its translation; one that meets a failed tag is an integrity failure (R310, R311). -/
def execPageTableWalk (sp : Space) (va : BitVec 64) (kind : AccessKind) (s : State) : Host.Outcome State Fault Refusal :=
  agent s (
    let a : Access := { sp := sp, va := va.toNat, kind := kind }
    if !wellFormedVa a.va then none
    else match walk s a with
      | .ok (s, _) => some s
      | .error f => match f.bad with
        | some _ => some (s.terminalFault a f (4, homeOf a.va * 2 ^ 28))
        | none => none)

/-! Fault records (R322) -/

/-- The next number of a ring's records: from 1, modulo 2^31, 0 skipped. -/
def nextSeq (n : Nat) : Nat := if n + 1 = 2 ^ 31 then 1 else n + 1

/-- Writes a record into its ring: the record, then TAIL, which carries its release, then NSRC. -/
def State.writeRecord (s : State) (x : Rcb) (q : Queued) : State :=
  let seq := nextSeq (Tab.getD s.ringSeq q.ring 0)
  let at_ := x.base + 32 * (x.tail % 2 ^ x.log2n)
  let s := (s.homeWrite at_ (q.rec_.bytes seq)).homeWrite (x.addr + 12) (leBytes 4 (x.tail + 1))
  let s := { s with
    ringSeq := s.ringSeq.put q.ring seq
    records := s.records.erase q
    outst := s.outst.map fun (o : Outst) => if o.link = q.link then { o with seq := seq } else o }
  (s.keepSig (x.addr / 128) (BitVec.allOnes 512)).assertIrq x.ncore (q.ring ≤ 1) x.nsrc

/-- FAULT_RECORD_WRITE: of the ring whose turn it is in the round, which is enabled and has room, the oldest record enters it. -/
def execFaultRecordWrite (ring : Nat) (s : State) : Host.Outcome State Fault Refusal :=
  agent s (match s.records.find? (·.ring == ring), s.ring ring, s.nextRing with
    | some q, some x, some (turn, left) =>
      let at_ := x.base + 32 * (x.tail % 2 ^ x.log2n)
      if turn ≠ ring || s.lineHeldAt (at_ / 128) || s.lineHeldAt (x.addr / 128) then none
      else if s.writeFails (at_ / 64) then
        some (s.poisonFrame (at_ / 4096) (s.pot (at_ / 4096)).space .write 0 (at_ / 2 ^ 36) (4, at_ / 2 ^ 36 * 2 ^ 28))
      else if s.writeFails (x.addr / 64) then
        some (s.poisonFrame (x.addr / 4096) (s.pot (x.addr / 4096)).space .write 0 (x.addr / 2 ^ 36) (4, x.addr / 2 ^ 36 * 2 ^ 28))
      else some ({ s with ringNow := some (ring, left) }.writeRecord x q)
    | _, _, _ => none)

/-! The operand log (R130, R316) -/

/-- What a replay comes to: done, waiting on a record again, held where it is, or its launch has ended. -/
inductive Replayed where
  | done (s : State)
  | again (s : State) (link : Nat)
  | held
  | ended (s : State)

/-- The current thread becomes ready now if a change has ended its wait (R236). -/
def State.wakeFrom (s₀ s : State) : State :=
  if !s.onHost && s₀.nextChain.isNone && s.nextChain.isSome then { s with th := s.th.wakeAt s.time } else s

/-- The current thread's access is no longer outstanding, and fences that waited for it may complete (R141). -/
def State.unlog (s : State) (num : Nat) : State :=
  s.wakeFrom ({ s with
    log := s.log.filter (·.num ≠ num), atomQ := s.atomQ.filter (·.num ≠ num)
    th := { s.th with logged := s.th.logged.filter (·.2 ≠ num) } } : State).completeFences

/-- The trap of the current thread's outstanding access. -/
def replayTrap (s : State) (va : Nat) (t : Trap) : Replayed := match s.cur with
  | .host n => .ended (s.modThread (.host n) fun x => x.owe t (.ofNat 64 va))
  | .simt _ _ => match s.launchOf s.cur with
    | some (n, _) => .ended (s.endLaunch n (trapError t))
    | none => .held

/-- A fault of the current thread's outstanding access: a retryable one waits again (R316, R323); any other is its trap. That of a store whose
host thread has left its enclave in the meantime is nobody's. -/
def replayFault (s : State) (a : Access) (f : TFault) : Replayed :=
  let agent := s.agentOf s.cur
  let trap (s' : State) (t : Trap) : Replayed := if s.onHost && s.space s.cur ≠ a.sp then .ended s' else replayTrap s' a.va t
  if f.wait then .held
  else if f.trap.retryable && !s.onHost then
    match s.retryFault a.sp a.kind a.va f.trap.num f.detail agent with
    | .wait s link => .again (s.count (s.coreIx s.cur) a.sp.eid.toNat 0x40 1) link
    | .full => .held
    | .terminal s => trap s f.trap
  else trap (s.terminalFault a f agent) f.trap

def LogEntry.access (e : LogEntry) : Access :=
  let form : Form := if !e.dev then .other else match e.kind, e.size with
    | .write, 8 => .stD
    | .write, _ => .stW
    | _, 8 => .ldD
    | _, _ => .ldW
  { sp := e.sp, va := e.va, kind := e.kind, form := form }

/-- An access to a scratchpad reaches its bank (R127, R263); a store waits while an add-on-store holds the bank (R301). -/
def replaySpad (s : State) (e : LogEntry) (o : Owner) : Replayed :=
  if e.poison then replayTrap s e.va .integ
  else match e.kind with
    | .read =>
      if (s.store o).poisoned e.va e.size then replayTrap s e.va .integ
      else .done (s.deliver e.dst (loadWords e.size e.signed ((s.store o).read e.va e.size)))
    | _ =>
      if s.bankHeld o e.va e.size then .held
      else .done (s.modStore o fun x => x.write e.va (leBytes e.size e.data.toNat))

/-- A logged access of the current thread once more (R316); a store or atomic carries the signature that it took to the log (R143). -/
def replay (s : State) (e : LogEntry) : Replayed :=
  match e.spad with
  | some o => replaySpad s e o
  | none =>
  let a := e.access
  let core := e.core
  let load (r : MemRes (List Byte)) : Replayed := match r with
    | .ok s bs =>
      let s := s.gather (s.physLine core a.sp a.va)
      .done ((if e.kind = .read && e.op ≠ 0 then s.orderBy ⟨0, e.op, false⟩ else s).deliver e.dst (loadWords e.size e.signed bs))
    | .device s pa => if e.kind = .read then .done (s.deliver e.dst (loadWords e.size e.signed (leBytes e.size (s.deviceRead pa).toNat)))
        else replayFault s a { trap := .perm }
    | .fault s f => replayFault s a f
  if e.poison then replayFault s a { trap := .integ }
  else match e.kind with
    | .read => load (s.l1Load core a e.size)
    | .ldc => load (s.ldc core a e.size)
    | .atomic =>
      if (s.physLine core a.sp a.va).any fun l => s.lineBusy core l then .held else
      match atomicNow s core a e.op (e.data.extractLsb' 0 32) (e.data.extractLsb' 32 32) with
      | .ok s old => .done (((s.gather (s.physLine core a.sp a.va)).carryWith e.sig core a.sp a.va).deliver e.dst [old])
      | .device s _ => replayFault s a { trap := .perm }
      | .fault s f => replayFault s a f
    | _ =>
      if s.carrierHeld e.sig core a then .held else
      match s.l1Store core a (leBytes e.size e.data.toNat) with
      | .ok s _ => .done (s.carryWith e.sig core a.sp a.va)
      | .device s pa =>
        let v : Dword := e.data.extractLsb' 0 64
        (match s.region pa with
          | .kick _ => if badKick v then replayFault s a { trap := .perm } else .done (s.deviceStore pa v)
          | _ => .done (s.deviceStore pa v))
      | .fault s f => replayFault s a f

/-- What a replay of a logged access of the current thread leaves. -/
def State.replayEntry (s : State) (e : LogEntry) : State := match replay s e with
  | .done s => s.unlog e.num
  | .again s' link => if e.link = 0 && !s.logRoom e.core then s
      else { s' with log := s'.log.map fun x => if x.num = e.num then { x with link := link, ready := false } else x }
  | .held => s
  | .ended s => s.unlog e.num

/-- OPERAND_LOG_REPLAY: an answered entry replays when it is its thread's oldest. An access that reaches memory later than it issued does
so in any order with those of other lines (R264); when it faults it takes its place in the log. -/
def execOperandLogReplay (n : Nat) (s : State) : Host.Outcome State Fault Refusal :=
  agent s (match s.log.find? (·.num == n) with
    | none => none
    | some e =>
      if !e.ready || (e.link ≠ 0 && s.log.any fun x => x.tid = e.tid && x.link ≠ 0 && x.num < n) || (s.thread? e.tid).isNone then none
      else some (s.onThread e.tid fun s => s.replayEntry e))

/-- The fences of every thread that wait for nothing any more complete, and their threads are ready (R141, R236, R239). -/
def State.completeAll (s : State) : State :=
  (s.allThreads.filter fun p => !p.2.fences.isEmpty).foldl (fun s p => s.onThread p.1 fun s => s.wakeFrom s.completeFences) s

/-! Atomic units (R139, R298) -/

/-- The oldest request that a bank's unit has taken whose line is free and that is the first for its line, while the unit holds fewer than 16
lines; a host core's is its own word's to make. -/
def State.nextAtomic (s : State) (slice bank : Nat) : Option AtomReq :=
  if s.unitFull slice bank then none else
  (s.unitTaken slice bank).find? fun r => !r.tid.isHost && !s.lineHeldAt (r.pa / 128)
    && s.atomQ.all fun x => x.pa / 128 ≠ r.pa / 128 || r.num ≤ x.num

/-- The requests that are served in one hold with a request: the atomics of its bundle on its line (R299). -/
def State.sameHold (s : State) (r : AtomReq) : List AtomReq :=
  s.atomQ.filter fun x => !x.tid.isHost && x.core = r.core && x.clk = r.clk && x.pa / 128 = r.pa / 128

/-- The elements of a list in an order that the S12 chooses: the free values name the next one each time. -/
def anyOrder {α : Type} (pick : Nat → Nat) : Nat → List α → List α
  | 0, l => l
  | n + 1, l => match l[pick n % l.length]? with
    | some x => x :: anyOrder pick n (l.eraseIdx (pick n % l.length))
    | none => l

/-- The order in which a hold applies its requests: one that the S12 chooses for each hold (R299). -/
def State.holdOrder (s : State) (l : List AtomReq) : List AtomReq := match l with
  | [] => []
  | [r] => [r]
  | l => anyOrder (fun k => (s.free (2 ^ 27 + k)).toNat) l.length l

/-- Performs a request of the current thread. One that faults goes to the operand log in its place of program order (R316). -/
def State.serve (s : State) (r : AtomReq) : State :=
  let a : Access := { sp := r.sp, va := r.va, kind := .atomic }
  let s₀ : State := { s with atomQ := s.atomQ.filter (·.num ≠ r.num) }
  let after (x : Replayed) : State := match x with
    | .done s' => s'.unlog r.num
    | .ended s' => s'.unlog r.num
    | .held => s
    | .again s' link => if !s.logRoom r.core then s else
        let s' : State := { s' with th := { s'.th with logged := s'.th.logged.filter (·.2 ≠ r.num) } }
        s'.putLog r.num { Sys2Proof.Machine.entryOf s' a 4 r.op false (.ofNat 128 (r.b.toNat + 2 ^ 32 * r.c.toNat)) r.dst with
          link := link, sig := some (r.sig.getD 0) }
  match atomicNow s₀ r.core a r.op r.b r.c with
  | .ok s' old => (((s'.gather (s'.physLine r.core a.sp a.va)).carryWith r.sig r.core a.sp a.va).deliver r.dst [old]).unlog r.num
  | .device s' _ => after (replayFault s' a { trap := .perm })
  | .fault s' f => after (replayFault s' a f)

/-- ATOMIC_UNIT_SERVE: the oldest request of a bank whose line is free is performed, with those of its bundle on the line (R298, R299). -/
def execAtomicUnitServe (slice bank : Nat) (s : State) : Host.Outcome State Fault Refusal :=
  agent s (match s.nextAtomic slice bank with
    | none => none
    | some r => if (s.thread? r.tid).isNone then none
        else some ((s.holdOrder (s.sameHold r)).foldl (fun s r => s.onThread r.tid fun s => (s.serve r).freshen) s))

end Sys2Proof.Machine
end

