-- ==== Sys2Proof/Machine/Drains.lean ====
section
/-! DEFINITION. Drains on their way (R183-R186, R300, R301, R317): landing, add-on-store, the count on the barrier, and replay. -/

namespace Sys2Proof.Machine

/-- The addresses and bytes of a drain. -/
def Drain.cells (d : Drain) : List (Nat × List Byte) :=
  (drainCells d.ctl d.pitch d.idx d.elems d.loose).map fun c => ((d.dst + c.1) % 2 ^ 64, c.2)

/-- The virtual lines that a drain writes. -/
def Drain.vlines (d : Drain) : List Nat := (d.cells.map fun c => c.1 / 128).dedup

def Drain.bytes (d : Drain) : Nat := 128 * drainSize d.ctl.fmt.toNat

/-- The new bytes of an element: with ADD the sum with what stands there (R185). -/
def Drain.combine (d : Drain) (old new : List Byte) : List Byte :=
  if !d.ctl.add || d.loose then new
  else
    let x : Word := .ofNat 32 (leNat old)
    let y : Word := .ofNat 32 (leNat new)
    leBytes 4 (if d.ctl.fmt = 1 then faddAtom x y else x + y).toNat

def State.setDrain (s : State) (d : Drain) : State :=
  { s with drains := s.drains.map fun x => if x.num = d.num then d else x }
def State.dropDrain (s : State) (d : Drain) : State := { s with drains := s.drains.filter (·.num ≠ d.num) }

/-- A drain's trap ends its launch (Table 14.5). -/
def State.endDrain (s : State) (d : Drain) (t : Trap) : State :=
  let s := s.dropDrain d
  match s.teams.find d.team with
  | some x => s.endLaunch x.launch (trapError t)
  | none => s

/-- The agent of a drain (Table 14.7). -/
def State.drainAgent (s : State) (d : Drain) : Nat × Nat := (3, (s.agentOf (.simt d.team d.idx)).2)

/-- What landing a line comes to: landed, to be tried later, skipped behind a record, or the drain has ended. -/
inductive Landed where
  | ok (s : State)
  | wait
  | skip (s : State) (link : Nat)
  | stop (s : State)

/-- The access of a line of a drain. -/
def Drain.access (d : Drain) (line : Nat) : Access :=
  { sp := d.sp, va := (d.cells.find? (fun c => c.1 / 128 = line)).elim (line * 128) (·.1), kind := .drainWrite }

/-- The fault of a line of a drain (Table 14.5, R317). -/
def drainFault (s : State) (d : Drain) (a : Access) (f : TFault) : Landed :=
  if f.wait then .wait
  else if f.trap.retryable then
    match s.retryFault a.sp a.kind a.va f.trap.num f.detail (s.drainAgent d) with
    | .wait s link => .skip s link
    | .full => .wait
    | .terminal s => .stop (s.endDrain d f.trap)
  else .stop ((s.terminalFault a f (s.drainAgent d)).endDrain d f.trap)

/-- Whether the current contents of a line that a drain writes fail their check (R373). -/
def State.drainMeetsBad (s : State) (d : Drain) (line phys : Nat) : Bool :=
  (d.cells.filter fun c => c.1 / 128 = line).any fun c => s.writeFails (2 * phys + c.1 % 128 / 64)

/-- The core of a drain. -/
def State.drainCore (s : State) (d : Drain) : Nat := s.coreIx (.simt d.team d.idx)

/-- Writes the bytes of drains in one line at its home, under their signatures (R186); an add-on-store is an atomic unit's work (R185, R391). -/
def State.drainWrite (s : State) (ds : List Drain) (line phys : Nat) : State :=
  ds.foldl (fun s d =>
    let cells := (d.cells.filter fun c => c.1 / 128 = line).flatMap fun c =>
      let pa := phys * 128 + c.1 % 128
      let bs := d.combine (s.homeBytes pa c.2.length) c.2
      ((List.range bs.length).zip bs).map fun p => (pa + p.1, p.2)
    if cells.isEmpty then s else
    ((if d.ctl.add then s.l2Write phys else s.l2Store d.sp.guest phys).homeCells cells).landedLine (s.drainCore d) d.sp d.sig (line * 128) phys) s

/-- Translates a line of a drain: what follows, or what the fault comes to. -/
def reachLine {α : Type} (s : State) (d : Drain) (line : Nat) (fail : Landed → α) (k : State → Nat → α) : α :=
  let a := d.access line
  if !wellFormedVa a.va then fail (.stop (s.endDrain d .perm))
  else match translate s a with
    | .error f => fail (drainFault s d a f)
    | .ok (s, t) => k s (t.at a.va / 128)

/-- Lands one line of a global drain at its home. -/
def landDrainLine (s : State) (d : Drain) (line : Nat) : Landed :=
  reachLine s d line id fun s phys =>
    if s.writeWaits (s.drainCore d) phys then .wait
    else if s.drainMeetsBad d line phys then drainFault s d (d.access line) { trap := .integ, bad := some (phys / 32) }
    else .ok (s.drainWrite [d] line phys)

/-- Lands the lines of a drain in turn; faulting lines are skipped and recorded while the core's list has room for them (R317). What is left
is still to land; none when the drain has ended. -/
def landLines (s : State) (d : Drain) (room : Nat) : List Nat → State × Option (List (Nat × Nat × Bool) × List Nat)
  | [] => (s, some ([], []))
  | l :: rest => match landDrainLine s d l with
    | .wait => (s, some ([], l :: rest))
    | .stop s => (s, none)
    | .ok s => landLines s d room rest
    | .skip s' link => match room with
      | 0 => (s, some ([], l :: rest))
      | r + 1 => match landLines s' d r rest with
        | (s, some (f, left)) => (s, some ((l, link, false) :: f, left))
        | (s, none) => (s, none)

/-- How many segments a core's drain fix-up list still takes. -/
def State.drainRoom (s : State) (d : Drain) : Nat := 32 - s.drainFix (s.drainCore d)

/-- The count of a drain whose bytes have all landed (R186, R150). -/
def State.creditDrain (s : State) (d : Drain) : State :=
  let s := s.dropDrain d
  if d.ctl.bar = 0xFF then s
  else match s.engineHandle (.team d.team) d.sp.eid.toNat d.ctl.bar.toNat with
    | none => s.endDrain d .barfault
    | some r =>
      let sig := if d.ctl.glb then d.vlines.foldl (fun g l => g ||| sigOf l) d.sig else d.sig
      (s.engineCount r d.bytes sig).getD (s.endDrain d .barfault)

/-- The drains of one drain operation: those of the threads of one bundle (R185). -/
def State.drainGroup (s : State) (d : Drain) : List Drain :=
  let core (x : Drain) : Option Nat := (s.teams.find x.team).map (·.core)
  s.drains.filter fun x => x.ctl = d.ctl && x.clk = d.clk && core x = core d && !x.landed

/-! Scratchpad drains (R27, R183, R301) -/

/-- The scratchpad bytes of a drain, with the team whose scratchpad they lie in; none when that member is gone. -/
def State.spadCells (s : State) (d : Drain) : Option (Owner × List (Nat × List Byte)) :=
  (s.spadPlace (.team d.team) (.ofNat 32 d.dst)).map fun m =>
    (m.1, (drainCells d.ctl d.pitch d.idx d.elems d.loose).map fun c => (m.2 + c.1, c.2))

/-- The banks that it touches. -/
def State.drainBanks (s : State) (d : Drain) : List Nat := match s.spadCells d with
  | some (.team t, l) => (l.flatMap fun c => bankKeys t c.1 c.2.length).dedup
  | _ => []

/-- Whether an add-on-store reads a poisoned word (R421). -/
def State.drainPoisoned (s : State) (d : Drain) : Bool := d.ctl.add && (s.spadCells d).any fun m =>
  m.2.any fun c => (s.store m.1).poison.contains (c.1 / 4)

/-- Writes those of a drain's scratchpad bytes that lie in some banks. -/
def State.spadWrite (s : State) (d : Drain) (banks : Nat → Bool) : State := match s.spadCells d with
  | some (.team t, l) =>
    let x := s.store (.team t)
    s.modStore (.team t) fun y => y.writeCells ((l.filter fun c => banks (bankKey t c.1)).flatMap fun c =>
      let bs := d.combine (x.read c.1 c.2.length) c.2
      ((List.range bs.length).zip bs).map fun p => (c.1 + p.1, p.2))
  | _ => s

/-- Lands a scratchpad drain whole. -/
def landSpad (s : State) (d : Drain) : State :=
  if (s.spadCells d).isNone then s.endDrain d .perm
  else if s.drainPoisoned d then s.endDrain d .integ
  else (s.spadWrite d fun _ => true).creditDrain d

/-- The least of some numbers. -/
def leastOf : List Nat → Option Nat
  | [] => none
  | n :: l => some (l.foldl Nat.min n)

/-- Whether another drain operation holds a bank. -/
def State.bankTaken (s : State) (d : Drain) (b : Nat) : Bool := s.drains.any fun x => !x.ctl.glb && x.num ≠ d.num && x.taken.contains b

/-- An add-on-store operation takes the next of its banks, in increasing number, once no other holds it, and applies its words there; it holds
the banks until the last word of the operation is applied, and then its drains are counted (R301; DESIGN CHOICE that no bank is released
before, assumption 110). -/
def State.takeBank (s : State) (d : Drain) (g : List Drain) : Option State :=
  let all := (g.flatMap s.drainBanks).dedup
  let left := all.filter fun b => !d.taken.contains b
  if g.any fun x => (s.spadCells x).isNone then some (g.foldl State.dropDrain (s.endDrain d .perm))
  else if d.taken.isEmpty && g.any s.drainPoisoned then some (g.foldl State.dropDrain (s.endDrain d .integ))
  else match leastOf left with
    | none => some (g.foldl State.creditDrain s)
    | some b =>
      if s.bankTaken d b then none
      else
        let s := g.foldl (fun s x => s.spadWrite x (· = b)) s
        some (if left.length = 1 then g.foldl State.creditDrain s else s.setDrain { d with taken := b :: d.taken })

/-- What a scratchpad drain does once its data has moved: it lands, when no operation holds a bank of its own, or the operation of
add-on-stores that it belongs to goes on, when all of them have moved (R185, R301). -/
def State.settleSpad (s : State) (d : Drain) : Option State :=
  if !d.ctl.add then (if (s.drainBanks d).any (s.bankTaken d) then none else some (landSpad s d))
  else
    let g := s.drainGroup d
    match g.head? with
    | some h => if g.any (·.plan.isNone) then none else s.takeBank h g
    | none => none

/-- A step of a scratchpad drain: its movement begins when its turn comes, 128 bytes move in a clock, and it lands. -/
def State.moveDrain (s : State) (d : Drain) : Option State :=
  let core := s.drainCore d
  if d.began.isNone then
    if (s.nextMove core).any (·.1 = d.num) && s.mayMove core then some (s.startMove core s.time) else none
  else if d.plan.isNone then
    if !s.moved d.began (drainSize d.ctl.fmt.toNat) then none
    else
      let d := { d with plan := some [] }
      let s := s.setDrain d
      some (((s.settleSpad d).getD s).startMove core s.time)
  else s.settleSpad d

/-! Add-on-store to global memory (R185, R300, R317) -/

/-- What the translation of an operation comes to: its lines, a record that it must wait on, or an end. -/
inductive Planned where
  | ok (s : State) (l : List (Nat × Nat))
  | skip (s : State) (line link : Nat)
  | wait
  | stop (s : State)

/-- Translates lines of drains in turn, before any is taken. -/
def planLines (s : State) : List (Drain × Nat) → Planned
  | [] => .ok s []
  | (d, l) :: rest => reachLine s d l (fun r => match r with
      | .skip s link => .skip s l link
      | .stop s => .stop s
      | _ => .wait) fun s phys => match planLines s rest with
      | .ok s p => .ok s ((l, phys) :: p)
      | r => r

/-- Puts a line into its place by physical address: by home slice first, which is the address's upper part. -/
def insertLine (x : Nat × Nat) : List (Nat × Nat) → List (Nat × Nat)
  | [] => [x]
  | y :: t => if x.2 ≤ y.2 then x :: y :: t else y :: insertLine x t

/-- Whether the unit of a line's bank has no room for an operation's next line: it holds 16, some of them for atomics or for earlier operations
(R298, R302). Lines of its own and of later operations keep no operation waiting, which could otherwise never be applied (DESIGN CHOICE,
assumption 111). -/
def State.noRoomFor (s : State) (d : Drain) (line : Nat) : Bool :=
  let slice := line / 2 ^ 29
  let bank := bankOf (line * 128)
  s.unitFull slice bank && (((s.holds.filter fun h => s.time < h.until_).map (·.line))
    ++ (s.drains.filter fun x => x.ctl.glb && x.num < d.num).flatMap (·.taken)).any fun l => inBank l slice bank

/-- Applies the bytes of an operation that has taken all its lines in the next of them; after the last the drains are counted and the lines
released. A line whose contents fail their check stops it before (R373). -/
def State.applyLine (s : State) (d : Drain) (g : List Drain) (plan : List (Nat × Nat)) : Option State :=
  match plan.find? fun p => g.any fun x => s.drainMeetsBad x p.1 p.2, plan with
  | some (line, phys), _ => match drainFault s d (d.access line) { trap := .integ, bad := some (phys / 32) } with
    | .stop s => some (g.foldl State.dropDrain s)
    | _ => none
  | none, [] => some (g.foldl State.creditDrain s)
  | none, (line, phys) :: rest =>
    let s := (s.drainWrite g line phys).countSlice (homeOf (line * 128)) 0x203 1
    some (if rest.isEmpty then g.foldl State.creditDrain s else s.setDrain { d with plan := some rest })

/-- An operation takes the next of its lines, once nothing else holds it and its unit has room. When it has taken the last it applies its bytes
line by line, and holds them all until then (R300): an operation that shares a line with it has applied none of its own before. -/
def State.takeLine (s : State) (d : Drain) (g : List Drain) (plan : List (Nat × Nat)) : Option State :=
  match plan.filter fun p => !d.taken.contains p.2 with
  | [] => s.applyLine d g plan
  | (_, phys) :: rest =>
    if s.writeWaits (s.drainCore d) phys || s.noRoomFor d phys then none
    else
      let d := { d with taken := phys :: d.taken, plan := some plan, fix := [] }
      let s := s.setDrain d
      if rest.all fun p => p.2 = phys then s.applyLine d (s.drainGroup d) plan else some s

/-- A step of an add-on-store operation: it is translated in full, or waits as one segment on a record, which its first drain holds
(R317); then it takes its lines one by one, and applies its bytes. -/
def State.addOnStore (s : State) (d : Drain) : Option State :=
  let g := s.drainGroup d
  match g.head? with
  | none => none
  | some d => match d.plan with
    | some p => s.takeLine d g p
    | none =>
      if d.fix.any (!·.2.2) then none else
      match planLines s (g.flatMap fun x => x.vlines.map fun l => (x, l)) with
      | .ok s p =>
        s.takeLine d g (p.dedup.foldr insertLine [])
      | .skip s' l link =>
        if d.fix.isEmpty && s.drainRoom d = 0 then none else some (s'.setDrain { d with fix := [(l, link, false)] })
      | .wait => none
      | .stop s => some (g.foldl State.dropDrain s)

/-! Events -/

/-- A step of a global drain that is no add-on-store: its lines land, as far as nothing holds them. -/
def State.landDrain (s : State) (d : Drain) : Option State :=
  let todo := match d.plan with
    | some p => p.map (·.1)
    | none => d.vlines
  match landLines s d (s.drainRoom d) todo with
  | (s, none) => some s
  | (s, some (f, left)) =>
    let d := { d with fix := d.fix ++ f, plan := some (left.map fun l => (l, 0)), landed := left.isEmpty }
    if left.length = todo.length then none
    else some (if d.landed && d.fix.isEmpty then s.creditDrain d else s.setDrain d)

/-- DRAIN_COMPLETE: the bytes of a drain arrive, and are counted unless a line waits for a replay. -/
def execDrainComplete (n : Nat) (s : State) : Host.Outcome State Fault Refusal :=
  agent s (match s.drains.find? (·.num == n) with
    | none => none
    | some d =>
      if d.landed then none
      else if !d.ctl.glb then s.moveDrain d
      else if d.ctl.add then s.addOnStore d
      else s.landDrain d)

/-- DRAIN_FIXUP_REPLAY: a skipped line whose record is answered lands, or the whole operation of an add-on-store is tried again. -/
def execDrainFixupReplay (n : Nat) (s : State) : Host.Outcome State Fault Refusal :=
  agent s (match s.drains.find? (·.num == n) with
    | none => none
    | some d => match d.fix.find? (·.2.2) with
      | none => none
      | some f =>
        let s := s.noteFix (.team d.team)
        if d.ctl.add then s.addOnStore d
        else match landDrainLine s d f.1 with
          | .wait => none
          | .stop s => some s
          | .skip s link => some (s.setDrain { d with fix := d.fix.map fun x => if x = f then (f.1, link, false) else x })
          | .ok s =>
            let rest := d.fix.erase f
            some (if d.landed && rest.isEmpty then s.creditDrain d else s.setDrain { d with fix := rest }))

end Sys2Proof.Machine
end

