-- ==== Sys2Proof/Machine/Completion.lean ====
section
/-! DEFINITION. What the command processor does in memory: its reads and their faults, completion signals and counts (R248, R259, R261,
R344), and what becomes of the work of a team that ends early (R244). -/

namespace Sys2Proof.Machine

/-- The space of a launch. -/
def Launch.space (l : Launch) : Space := ⟨l.guest, .ofNat 16 l.eid, 0⟩

/-- What reading for the command processor comes to: bytes, a wait on a record, or a terminal fault. -/
inductive CpRead where
  | ok (s : State) (bs : List Byte)
  | wait (s : State) (link : Nat)
  | held
  | bad (s : State)

/-- A fault of an access of a command processor (Table 14.5). A retryable one is recorded with KIND 8, any other with the kind of the access:
for the constant segment (R248), whose kind Table 14.8 does not say, KIND 8 and LDC's KIND 4 (DESIGN CHOICE, assumption 112). -/
def cpFault (s : State) (lead : Nat) (a : Access) (f : TFault) : CpRead :=
  let agent := (5, lead * 2 ^ 28)
  if f.wait then .held
  else if f.trap.retryable then
    match s.retryFault a.sp .signal a.va f.trap.num f.detail agent with
    | .wait s link => .wait s link
    | .full => .held
    | .terminal s => .bad s
  else .bad (s.terminalFault a f agent)

/-- Reads bytes at the home for a command processor, line by line. A malformed VA is a terminal fault with its record (R344). -/
def cpRead (s : State) (lead : Nat) (sp : Space) : Nat → Nat → Nat → CpRead
  | 0, _, _ => .ok s []
  | k + 1, va, n =>
    if n = 0 then .ok s []
    else
      let a : Access := { sp := sp, va := va, kind := .signal }
      let m := Nat.min n (128 - va % 128)
      if !wellFormedVa va then .bad (s.terminalFault a { trap := .perm } (5, lead * 2 ^ 28))
      else match translate s a with
        | .error f => cpFault s lead a f
        | .ok (s, t) =>
          if !s.verifies (t.at va) m then cpFault s lead a { trap := .integ, bad := some (t.at va / 4096) }
          else
            let bs := s.homeBytes (t.at va) m
            let s := s.l2Read sp.guest (t.at va / 128)
            match cpRead s lead sp k (va + m) (n - m) with
            | .ok s r => .ok s (bs ++ r)
            | r => r

/-! Completion (R259-R261) -/

/-- The signal of Table 11.5. -/
def signalBytes (value start fin : Nat) (error : Word) (flags : Nat) : List Byte :=
  leBytes 8 value ++ leBytes 8 start ++ leBytes 8 fin ++ leBytes 4 error.toNat ++ leBytes 4 flags

/-- Writes a signal at its home under a signature (R259, R261): `bad` has written its record and leaves the signal unwritten. -/
def writeSignal (s : State) (lead : Nat) (sp : Space) (va : Nat) (bs : List Byte) (sig : Sig) : CpRead :=
  let a : Access := { sp := sp, va := va, kind := .signal, wr := true }
  if !wellFormedVa va || va % 32 ≠ 0 then .bad s
  else match translate s a with
    | .error f => cpFault s lead a f
    | .ok (s, t) =>
      let line := t.at va / 128
      if s.lineHeldAt line then .held
      else if s.writeFails (t.at va / 64) then cpFault s lead a { trap := .integ, bad := some (t.at va / 4096) }
      else .ok (((s.homeStore sp.guest (t.at va) bs).keepSig line sig).countSlice (homeOf va) 0x203 1) []

/-- The count of a completion on a context handle; a refused one is dropped with its terminal record (R261). -/
def State.countHandle (s : State) (lead : Nat) (sp : Space) (h : Nat) (sig : Sig) : State :=
  let refused : State := s.terminalRecord lead ⟨2, 18, sp.guest.toNat, sp.eid.toNat, lead, 8, 5, 0, lead * 2 ^ 28, 0⟩
  match s.encls.find sp.eid.toNat with
  | none => refused
  | some e => if e.barPage.isNone || h < 192 then refused else (s.engineCount (.ctx sp.eid.toNat h) 32 sig).getD refused

/-- The SIMT cores' lines of a context. -/
def Line.ofContext (l : Line) (sp : Space) : Bool := l.core < 4608 && l.sp.guest = sp.guest && l.sp.eid = sp.eid

/-- The release of a completion: every core writes back the context's dirty lines; the OR of the cores' signatures, which name also what
drains, copies and atomics have written (R259). -/
def State.releaseContext (s : State) (sp : Space) : State × Sig :=
  let s := s.cleanLines (·.ofContext sp)
  (s, (s.cores.filter fun c => c.1 < 4608).foldl (fun g c => g ||| s.epochSig c.1) 0)

/-- A launch leaves: it has completed. -/
def State.closeLaunch (s : State) (n : Nat) (l : Launch) (sig : Sig) : State :=
  { s with
    launches := s.launches.del n
    queues := match s.queues.find l.queue with
      | some q => s.queues.put l.queue { q with entries := q.entries.filter (·.seq ≠ l.seq), sig := q.sig ||| sig }
      | none => s.queues }

/-- Writes a launch's signal and makes its count, in this order; the count's signature names the signal's own line too, so that a BARWAIT on
it reads the new signal. None while an atomic unit holds a line that must be written. START of a launch that ended before its first dispatch is
END, and END of a signal whose write had to wait is the time of the write (DESIGN CHOICE, assumption 113). -/
def State.finishLaunch (s : State) (n : Nat) (l : Launch) : Option State :=
  if s.waitsForHold (·.ofContext l.space) then none else
  match s.releaseContext l.space with
  | (s, sig) =>
    let fin := s.timestamp l.eid false
    let bs := signalBytes l.seq (l.start.getD fin) fin (l.error.getD 0) (bit l.pre + 2 * bit l.spl + 4 * bit l.fix)
    let done (s : State) (sig : Sig) : State :=
      (if l.cbar = 255 then s else s.countHandle l.lead l.space l.cbar sig).closeLaunch n l sig
    if l.signal = 0 || l.mute then some (done s sig)
    else match writeSignal s l.lead l.space l.signal bs sig with
      | .ok s _ => some (done s (sig ||| sigOf (l.signal / 128)))
      | .bad s => some (done s sig)
      | .wait s link => some (s.modLaunch n fun l => { l with waits := some link })
      | .held => none

/-! The work of a team that ends early (R244, steps 3 and 4) -/

/-- The words that a team's threads issued before the stop complete, as far as they can: accesses that have been answered or that only reach
memory later than they issued, and atomics whose lines are free. A terminal fault of one of them leaves its record (R245). -/
def State.settleTeam (s : State) (team : Nat) : State :=
  let s := (s.log.filter fun e => ofTeam team e.tid && e.ready).foldl (fun s e => s.onThread e.tid fun s => (s.replayEntry e).freshen) s
  (s.atomQ.filter fun r => ofTeam team r.tid).foldl (fun s r =>
    if s.lineHeldAt (r.pa / 128) then s else s.onThread r.tid fun s => (s.serve r).freshen) s

/-- Whether stores or atomics of a team's threads have still to take effect: it is not released before. -/
def State.unsettled (s : State) (team : Nat) : Bool :=
  (s.log.any fun e => ofTeam team e.tid && logsSig e.kind) || s.atomQ.any fun r => ofTeam team r.tid

/-- The last bytes of a copy that stops: up to seven more pieces of 16 bytes of its turn, none of them counted (R333). -/
def State.lastPieces (s : State) (o : Owner) (ch : Nat) : State :=
  match s.served o ch with
  | none => s
  | some c =>
    let n := 16 * ((s.free (2 ^ 24 + ch)).toNat % 8)
    if c.stop.isSome || c.total ≤ c.cursor || n = 0 then s else
    match (if c.form = 2 && c.cursor % c.rb = 0 then rowWord s o c c.cursor else some c.row) with
    | none => s
    | some row => match moveCells s o c ((List.range (c.run row c.cursor n)).map fun k => c.cell row (c.cursor + k)) with
      | .ok s _ => s
      | _ => s

/-- The pieces of 16 bytes of a drain that land before it stops, none of them counted. -/
def State.lastOfDrain (s : State) (d : Drain) : State :=
  let per := 16 / drainSize d.ctl.fmt.toNat
  let m := (s.free (2 ^ 25)).toNat % (128 / per + 1) * per
  let d' : Drain := { d with elems := d.elems.take m, ctl := { d.ctl with bar := 0xFF } }
  if d.ctl.add || d.landed || d.plan.isSome || m = 0 then s
  else if d.ctl.glb then (landLines s d' 0 d'.vlines).1
  else landSpad s d'

/-- What the drains and copies of a team come to that has ended: they stop between two pieces of 16 bytes. -/
def State.stopTeam (s : State) (team : Nat) : State :=
  let s := (s.drains.filter (·.team = team)).foldl (fun s d => (s.lastOfDrain d).freshen) s
  (List.range 16).foldl (fun s ch => (s.lastPieces (.team team) ch).freshen) s

end Sys2Proof.Machine
end

