-- ==== Sys2Proof/Machine/Crypto.lean ====
section
/-! DEFINITION. The cryptographic functions that the rules of enclaves, key blobs and evicted pages name: SHA-256 (R213), HMAC and
HKDF with SHA-256 (R221), and AES-256-GCM (R221, R360, R431). -/

namespace Sys2Proof.Machine

/-- The bytes of an ASCII string. -/
def asciiBytes (s : String) : List Byte := s.toList.map fun c => .ofNat 8 c.toNat

/-! SHA-256 -/

/-- The 64 round constants, the first in the low word. -/
def shaK : BitVec 2048 := 0xc67178f2bef9a3f7a4506ceb90befffa8cc7020884c8781478a5636f748f82ee682e6ff35b9cca4f4ed8aa4a391c0cb334b0bcb52748774c1e376c0819a4c116106aa070f40e3585d6990624d192e819c76c51a3c24b8b70a81a664ba2bfe8a192722c8581c2c92e766a0abb650a735453380d134d2c6dfc2e1b213827b70a851429296706ca6351d5a79147c6e00bf3bf597fc7b00327c8a831c66d983e515276f988da5cb0a9dc4a7484aa2de92c6f240ca1cc0fc19dc6efbe4786e49b69c1c19bf1749bdc06a780deb1fe72be5d74550c7dc3243185be12835b01d807aa98ab1c5ed5923f82a459f111f13956c25be9b5dba5b5c0fbcf71374491428a2f98

/-- The initial hash value, its first word lowest. -/
def shaH : BitVec 256 := 0x5be0cd191f83d9ab9b05688c510e527fa54ff53a3c6ef372bb67ae856a09e667

/-- A big-endian number of bytes. -/
def beNat (l : List Byte) : Nat := l.foldl (fun n b => n * 256 + b.toNat) 0

/-- `n` big-endian bytes of a value. -/
def beBytes (n v : Nat) : List Byte := (leBytes n v).reverse

def words32 : Nat → List Byte → List Word
  | 0, _ => []
  | n + 1, l => .ofNat 32 (beNat (l.take 4)) :: words32 n (l.drop 4)

/-- The message schedule, newest word first. -/
def shaSchedule : Nat → List Word → List Word
  | 0, w => w
  | n + 1, w =>
    let x (k : Nat) : Word := w.getD k 0
    let s0 := (x 14).rotateRight 7 ^^^ (x 14).rotateRight 18 ^^^ (x 14 >>> 3)
    let s1 := (x 1).rotateRight 17 ^^^ (x 1).rotateRight 19 ^^^ (x 1 >>> 10)
    shaSchedule n ((x 15 + s0 + x 6 + s1) :: w)

/-- The eight working variables. -/
structure Sha where
  a : Word
  b : Word
  c : Word
  d : Word
  e : Word
  f : Word
  g : Word
  h : Word
  deriving DecidableEq, Repr

def shaRound (s : Sha) (p : Word × Word) : Sha :=
  let s1 := s.e.rotateRight 6 ^^^ s.e.rotateRight 11 ^^^ s.e.rotateRight 25
  let ch := (s.e &&& s.f) ^^^ (~~~s.e &&& s.g)
  let t1 := s.h + s1 + ch + p.1 + p.2
  let s0 := s.a.rotateRight 2 ^^^ s.a.rotateRight 13 ^^^ s.a.rotateRight 22
  let maj := (s.a &&& s.b) ^^^ (s.a &&& s.c) ^^^ (s.b &&& s.c)
  ⟨t1 + (s0 + maj), s.a, s.b, s.c, s.d + t1, s.e, s.f, s.g⟩

def shaBlock (s : Sha) (block : List Byte) : Sha :=
  let w := (shaSchedule 48 (words32 16 block).reverse).reverse
  let k := (List.range 64).map fun i => shaK.extractLsb' (32 * i) 32
  let r := (k.zip w).foldl shaRound s
  ⟨s.a + r.a, s.b + r.b, s.c + r.c, s.d + r.d, s.e + r.e, s.f + r.f, s.g + r.g, s.h + r.h⟩

def shaBlocks : Nat → List Byte → Sha → Sha
  | 0, _, s => s
  | n + 1, l, s => shaBlocks n (l.drop 64) (shaBlock s (l.take 64))

/-- SHA-256 of a byte string, as 32 bytes. -/
def sha256 (m : List Byte) : List Byte :=
  let pad := m ++ [0x80] ++ List.replicate ((119 - m.length % 64) % 64) 0 ++ beBytes 8 (8 * m.length)
  let h (i : Nat) : Word := shaH.extractLsb' (32 * i) 32
  let r := shaBlocks (pad.length / 64) pad ⟨h 0, h 1, h 2, h 3, h 4, h 5, h 6, h 7⟩
  [r.a, r.b, r.c, r.d, r.e, r.f, r.g, r.h].flatMap fun w => beBytes 4 w.toNat

/-! HMAC and HKDF -/

def hmac (key msg : List Byte) : List Byte :=
  let k := if 64 < key.length then sha256 key else key
  let k := k ++ List.replicate (64 - k.length) 0
  sha256 (k.map (· ^^^ 0x5C) ++ sha256 (k.map (· ^^^ 0x36) ++ msg))

/-- HKDF-SHA-256 for one block of 32 bytes of output. -/
def hkdf (ikm salt info : List Byte) : List Byte := hmac (hmac salt ikm) (info ++ [1])

/-! AES-256 -/

/-- The S-box, entry 0 lowest. -/
def aesBox : BitVec 2048 := 0x16bb54b00f2d99416842e6bf0d89a18cdf2855cee9871e9b948ed9691198f8e19e1dc186b95735610ef6034866b53e708a8bbd4b1f74dde8c6b4a61c2e2578ba08ae7a65eaf4566ca94ed58d6d37c8e779e4959162acd3c25c2406490a3a32e0db0b5ede14b8ee4688902a22dc4f816073195d643d7ea7c41744975fec130ccdd2f3ff1021dab6bcf5389d928f40a351a89f3c507f02f94585334d43fbaaefd0cf584c4a39becb6a5bb1fc20ed00d153842fe329b3d63b52a05a6e1b1a2c830975b227ebe28012079a059618c323c7041531d871f1e5a534ccf73f362693fdb7c072a49cafa2d4adf04759fa7dc982ca76abd7fe2b670130c56f6bf27b777c63

def subByte (b : Byte) : Byte := aesBox.extractLsb' (8 * b.toNat) 8

/-- Multiplication by x modulo the AES polynomial. -/
def xtime (b : Byte) : Byte := (b <<< 1) ^^^ (if b.getLsbD 7 then 0x1B else 0)

def xorBytes (a b : List Byte) : List Byte := a.zipWith (· ^^^ ·) b

/-- The words of the key schedule, newest first: 60 words of AES-256. -/
def aesExpand : Nat → Byte → List (List Byte) → List (List Byte)
  | 0, _, ws => ws
  | n + 1, rc, ws =>
    let i := ws.length
    let prev := ws.headD []
    let t := if i % 8 = 0 then xorBytes ((prev.drop 1 ++ prev.take 1).map subByte) [rc, 0, 0, 0]
      else if i % 8 = 4 then prev.map subByte else prev
    aesExpand n (if i % 8 = 0 then xtime rc else rc) (xorBytes (ws.getD 7 []) t :: ws)

def chunk4 : Nat → List Byte → List (List Byte)
  | 0, _ => []
  | n + 1, l => l.take 4 :: chunk4 n (l.drop 4)

/-- The 15 round keys. -/
def aesKeys (key : List Byte) : List (List Byte) :=
  let ws := (aesExpand 52 1 (chunk4 8 key).reverse).reverse
  (List.range 15).map fun r => (List.range 4).flatMap fun k => ws.getD (4 * r + k) []

def shiftRows (s : List Byte) : List Byte := (List.range 16).map fun i => s.getD ((i + 4 * (i % 4)) % 16) 0

def mixColumn (c : List Byte) : List Byte :=
  let x (i : Nat) : Byte := c.getD (i % 4) 0
  (List.range 4).map fun i => xtime (x i) ^^^ xtime (x (i + 1)) ^^^ x (i + 1) ^^^ x (i + 2) ^^^ x (i + 3)

/-- One block under expanded keys. -/
def aesBlock (keys : List (List Byte)) (b : List Byte) : List Byte :=
  let mid := ((keys.drop 1).take 13).foldl (fun s k =>
    xorBytes ((chunk4 4 (shiftRows (s.map subByte))).flatMap mixColumn) k) (xorBytes b (keys.headD []))
  xorBytes (shiftRows (mid.map subByte)) (keys.getD 14 [])

/-! GCM -/

/-- Multiplication in GF(2^128) in GCM's bit order: `y`'s bits from the first, `v` the running multiple. -/
def gmulBits (y : Nat) : Nat → Nat → Nat → Nat
  | 0, _, z => z
  | n + 1, v, z =>
    let z := if y / 2 ^ n % 2 = 1 then z ^^^ v else z
    gmulBits y n (if v % 2 = 1 then (v / 2) ^^^ (0xE1 * 2 ^ 120) else v / 2) z

def gmul (x y : Nat) : Nat := gmulBits y 128 x 0

def pad16 (l : List Byte) : List Byte := l ++ List.replicate ((16 - l.length % 16) % 16) 0

def ghash (h : Nat) : Nat → List Byte → Nat → Nat
  | 0, _, y => y
  | n + 1, l, y => ghash h n (l.drop 16) (gmul (y ^^^ beNat (l.take 16)) h)

def gcmStream (keys : List (List Byte)) (nonce : List Byte) (first : Nat) (n : Nat) : List Byte :=
  (List.range n).flatMap fun i => aesBlock keys (nonce ++ beBytes 4 (first + i))

/-- The tag over additional data and ciphertext. -/
def gcmTag (keys : List (List Byte)) (nonce aad c : List Byte) : List Byte :=
  let h := beNat (aesBlock keys (List.replicate 16 0))
  let m := pad16 aad ++ pad16 c ++ beBytes 8 (8 * aad.length) ++ beBytes 8 (8 * c.length)
  xorBytes (beBytes 16 (ghash h (m.length / 16) m 0)) (gcmStream keys nonce 1 1)

/-- AES-256-GCM: the ciphertext of a plaintext, or the plaintext of a ciphertext. -/
def gcmCrypt (keys : List (List Byte)) (nonce p : List Byte) : List Byte :=
  xorBytes p (gcmStream keys nonce 2 ((p.length + 15) / 16))

/-- Seals: ciphertext and tag. -/
def gcmSeal (key nonce aad p : List Byte) : List Byte × List Byte :=
  let keys := aesKeys key
  let c := gcmCrypt keys nonce p
  (c, gcmTag keys nonce aad c)

/-- Opens: the plaintext when the tag verifies. -/
def gcmOpen (key nonce aad c tag : List Byte) : Option (List Byte) :=
  let keys := aesKeys key
  if gcmTag keys nonce aad c = tag then some (gcmCrypt keys nonce c) else none

/-- 256-bit and 96-bit values as bytes. -/
def keyBytes (k : BitVec 256) : List Byte := beBytes 32 k.toNat
def keyOf (l : List Byte) : BitVec 256 := .ofNat 256 (beNat l)

end Sys2Proof.Machine
end

