-- ==== Sys2Proof/Machine/Enclave.lean ====
section
/-! DEFINITION. Creating, entering, leaving, reporting and destroying enclaves (R209-R219, R338-R340, R353-R365, R380, R386,
R459). -/

namespace Sys2Proof.Machine

/-! Buffers that an instruction accesses as loads and stores of its caller (R124) -/

/-- Loads bytes for the current thread, line by line. -/
def loadBytes (s : State) (core : Nat) (sp : Space) : Nat → Nat → Nat → MemRes (List Byte)
  | 0, _, _ => .ok s []
  | k + 1, va, n =>
    if n = 0 then .ok s []
    else
      let m := Nat.min n (128 - va % 128)
      match s.l1Load core { sp := sp, va := va, kind := .read } m with
      | .ok s bs => match loadBytes s core sp k (va + m) (n - m) with
        | .ok s r => .ok s (bs ++ r)
        | r => r
      | r => r

/-- Whether a buffer may be stored to, line by line. -/
def probeBytes (s : State) (sp : Space) : Nat → Nat → Nat → MemRes Unit
  | 0, _, _ => .ok s ()
  | k + 1, va, n =>
    if n = 0 then .ok s ()
    else
      let m := Nat.min n (128 - va % 128)
      match translate s { sp := sp, va := va, kind := .write } with
      | .ok (s, _) => probeBytes s sp k (va + m) (n - m)
      | .error f => .fault s f

/-- Stores bytes line by line. -/
def putBytes (s : State) (core : Nat) (sp : Space) : Nat → Nat → List Byte → MemRes Unit
  | 0, _, _ => .ok s ()
  | k + 1, va, bs =>
    if bs.isEmpty then .ok s ()
    else
      let m := Nat.min bs.length (128 - va % 128)
      match s.l1Store core { sp := sp, va := va, kind := .write } (bs.take m) with
      | .ok s _ => putBytes s core sp k (va + m) (bs.drop m)
      | r => r

/-- The address at which a run of lines faults: each access of a buffer starts in the page it faults in. -/
def faultVa (s : State) (sp : Space) (kind : AccessKind) : Nat → Nat → Nat → Nat
  | 0, va, _ => va
  | k + 1, va, n =>
    let m := Nat.min n (128 - va % 128)
    if n ≤ m then va
    else match translate s { sp := sp, va := va, kind := kind } with
      | .ok _ => faultVa s sp kind k (va + m) (n - m)
      | .error _ => va

/-- The trap of a buffer access of the current host thread. -/
def bufferFault (s : State) (a : Access) (f : TFault) : Res := threadFault s a f (Sys2Proof.Machine.entryOf s a 4 0 false 0 [])

/-- Reads a buffer of the current thread, aligned as its instruction asks. -/
def withBuffer (s : State) (va n align : Nat) (k : State → List Byte → Res) : Res :=
  let sp := s.space s.cur
  if va % align ≠ 0 then .trap .misalign (.ofNat 64 va) s
  else if !wellFormedVa va then .trap .perm (.ofNat 64 va) s
  else match loadBytes s (s.coreIx s.cur) sp 64 va n with
    | .ok s bs => k s bs
    | .device s _ => .trap .perm (.ofNat 64 va) s
    | .fault s' f => bufferFault s' { sp := sp, va := faultVa s sp .read 64 va n, kind := .read } f

/-- Stores to a buffer of the current thread, whole or not at all. -/
def storeBuffer (s : State) (va : Nat) (bs : List Byte) (k : State → Res) : Res :=
  let sp := s.space s.cur
  let fail (s' : State) (f : TFault) : Res :=
    bufferFault s' { sp := sp, va := faultVa s sp .write 64 va bs.length, kind := .write } f
  match probeBytes s sp 64 va bs.length with
  | .fault s' f => fail s' f
  | .device s _ => .trap .perm (.ofNat 64 va) s
  | .ok s _ => match putBytes s (s.coreIx s.cur) sp 64 va bs with
    | .ok s _ => k s
    | .device s _ => .trap .perm (.ofNat 64 va) s
    | .fault s' f => fail s' f

/-- The bytes of a buffer from an offset. -/
def slice (bs : List Byte) (off n : Nat) : List Byte := (bs.drop off).take n
def field (bs : List Byte) (off n : Nat) : Nat := leNat (slice bs off n)
def allZero (bs : List Byte) : Bool := bs.all (· = 0)

/-- The status codes of Table 9.7. -/
inductive Status where
  | ok | badreq | badstate | notowner | nores | duplicate | notable | authfail | stale | pinned | busy
  deriving DecidableEq, Repr

def Status.code : Status → Nat
  | .ok => 0 | .badreq => 1 | .badstate => 2 | .notowner => 3 | .nores => 4 | .duplicate => 5 | .notable => 6
  | .authfail => 7 | .stale => 8 | .pinned => 9 | .busy => 10

/-- A status in d[15:0] (R214). -/
def answer (s : State) (d : Opnd) (x : Status) : Res := .ok (s.postTo d (.ofNat 32 x.code))

/-- The guest number of the current host thread's core. -/
def State.callerGuest (s : State) : Byte := (s.space s.cur).guest

/-- A LIVE enclave (R353). -/
def State.liveEncl (s : State) (eid : Nat) : Option Encl :=
  match s.encls.find eid with
  | some e => if e.failed then none else some e
  | none => none

/-! The save pools (R386) -/

/-- Frames of a team's image (R386). -/
def Launch.imageFrames (l : Launch) : Nat :=
  (128 * l.lanes + 2048 * l.groups + l.scratch + 16 * l.bars + 16384 * l.tiles + 8192 + 4095) / 4096

/-- Frames of an energy table of 4,704 entries of 8 bytes (R393). -/
def energyFrames : Nat := 10

/-- Frames of a slice's pool that are in use: energy tables and launch images of the partition led by the slice, and the images of
teams that stand on the slice or are sealed there. -/
def State.poolUsed (s : State) (slice : Nat) : Nat :=
  ((s.encls.filter fun e => e.2.lead = slice).map fun e => energyFrames +
      ((e.2.images.filter fun i => i.team.core / 384 = slice).map fun i => match s.launches.find i.team.launch with
        | some l => l.imageFrames
        | none => 0).sum).sum
    + (s.launches.filter fun l => l.2.lead = slice).length
    + ((s.teams.filter fun t => t.2.core / 384 = slice).map fun t => match s.launches.find t.2.launch with
        | some l => l.imageFrames
        | none => 0).sum

def State.svpool (s : State) (slice : Nat) : Dword := Tab.getD s.reg.svpool slice 0

/-- Free frames of an enabled pool. -/
def State.poolFree (s : State) (slice : Nat) : Option Nat :=
  let v := (s.svpool slice).toNat
  if v % 2 = 1 then some (v / 32 % 2 ^ 16 * 512 - s.poolUsed slice) else none

/-! The creation descriptor (Tables 9.5 and 9.6) -/

structure EcdPage where
  ty   : Nat
  perm : Nat
  va   : Nat
  pa   : Nat
  bad  : Bool
  deriving DecidableEq, Repr

def ecdPage (bs : List Byte) (k : Nat) : EcdPage :=
  let lo := field bs (128 + 16 * k) 8
  let hi := field bs (136 + 16 * k) 8
  let ty := hi % 16
  let perm := hi / 256 % 16
  let va := hi / 4096 * 4096
  let reserved := hi / 16 % 16 ≠ 0 || lo / 2 ^ 48 ≠ 0 || lo % 4096 ≠ 0
  let permBad := if ty ≤ 1 then 8 ≤ perm else if ty = 2 then 4 ≤ perm else perm ≠ 0
  let vaBad := if ty ≤ 2 then !wellFormedVa va else va ≠ 0
  ⟨ty, perm, va, lo, reserved || 5 ≤ ty || permBad || vaBad⟩

structure Ecd where
  ctl     : Nat
  threads : Nat
  queues  : Nat
  pages   : List EcdPage
  entry   : Nat
  stack   : Nat
  deriving DecidableEq, Repr

def ecdOf (bs : List Byte) : Ecd :=
  ⟨field bs 0 4, field bs 4 2, field bs 6 2, (List.range (Nat.min (field bs 8 4) 248)).map (ecdPage bs), field bs 48 8, field bs 56 8⟩

/-- Class 1 of R459. -/
def ecdForm (bs : List Byte) (x : Ecd) : Bool :=
  x.ctl % 256 = 1 && x.ctl / 2048 = 0 && 1 ≤ x.threads && x.threads ≤ 64 && 1 ≤ x.queues && x.queues ≤ 16
    && 1 ≤ field bs 8 4 && field bs 8 4 ≤ 248 && allZero (slice bs 12 4) && allZero (slice bs 64 64)
    && wellFormedVa x.entry && x.entry % 64 = 0 && wellFormedVa x.stack && x.stack % 16 = 0
    && x.pages.all fun p => !p.bad

def EcdPage.data (p : EcdPage) : Bool := p.ty ≤ 1
def EcdPage.node (p : EcdPage) (lev : Nat) : Bool := p.ty = 2 && p.perm = lev

/-- The region that a node of a level maps. -/
def nodeSpan (lev : Nat) : Nat := match lev with
  | 0 => 2 ^ 52 | 1 => 2 ^ 39 | 2 => 2 ^ 30 | _ => 2 ^ 21

/-- Class 2 of R459. -/
def ecdDuplicate (x : Ecd) : Bool :=
  !(x.pages.map (·.pa)).Nodup || !((x.pages.filter (·.data)).map (·.va)).Nodup
    || (List.range 3).any (fun k => !((x.pages.filter (·.node (k + 1))).map (·.va)).Nodup)
    || x.pages.any fun p => p.node 0 && 16 < (x.pages.filter fun q => q.node 0 && q.va = p.va).length

/-- Class 4 of R459. -/
def ecdPlaced (x : Ecd) : Bool :=
  (x.pages.all fun p => !p.data || p.pa / 2 ^ 36 = homeOf p.va)
    && x.threads ≤ (x.pages.filter (·.ty = 3)).length && (x.pages.filter (·.ty = 4)).length ≤ 1
    && x.pages.any fun p => p.ty = 0 && 4 ≤ p.perm && p.va = x.entry / 4096 * 4096

/-- The first entry of the L0 node of a slice: 16 consecutive entries naming 16 consecutive frames, 64 KiB aligned (R210). -/
def ecdRoot (x : Ecd) (slice : Nat) : Option Nat :=
  (List.range x.pages.length).findSome? fun i =>
    let g := (x.pages.drop i).take 16
    match g with
    | p :: _ =>
      if p.node 0 && homeOf p.va = slice && g.length = 16 && p.pa % 65536 = 0 && p.pa / 2 ^ 36 = slice
          && ((List.range 16).zip g).all fun q => q.2.node 0 && q.2.va = p.va && q.2.pa = p.pa + 4096 * q.1 then some p.pa
      else none
    | [] => none

/-- The node of a level 1-3 that covers an address. -/
def ecdNode (x : Ecd) (lev va : Nat) : Option Nat :=
  (x.pages.find? fun p => p.node lev && p.va = va / nodeSpan lev * nodeSpan lev).map (·.pa)

def ecdCovers (x : Ecd) (va : Nat) : Bool :=
  (ecdRoot x (homeOf va)).isSome && (List.range 3).all fun k => (ecdNode x (k + 1) va).isSome

/-- The kick page VA of queue `i` of an enclave whose queues lie at a lead slice (R339). -/
def kickVa (lead i : Nat) : Nat := lead * 2 ^ 52 + 0xFFFFFFF000000 + 4096 * i
def kickPa (lead q : Nat) : Nat := 0x10010000000 + lead * 2 ^ 20 + q * 4096

/-- Whether the entries of level 0 that name a VA are one L0 node (R210): 16 entries, consecutive, with consecutive frames. -/
def ecdNode0 (x : Ecd) (va : Nat) : Bool :=
  let mine := x.pages.filter fun q => q.node 0 && q.va = va
  mine.length = 16 && ((x.pages.dropWhile fun q => !(q.node 0 && q.va = va)).take 16 = mine)
    && match mine.head? with
      | some p => p.pa % 65536 = 0 && (List.range 16).all fun k => (mine.map (·.pa)).getD k 0 = p.pa + 4096 * k
      | none => false

/-- Class 5 of R459. -/
def ecdTables (x : Ecd) (lead : Option Nat) : Bool :=
  (x.pages.all fun p => !p.data || ecdCovers x p.va)
    && (x.pages.all fun p => p.ty ≠ 2 || (p.pa / 2 ^ 36 = homeOf p.va && (if p.perm = 0 then ecdNode0 x p.va else p.va % nodeSpan p.perm = 0)))
    && match lead with
      | some l => (List.range x.queues).all fun i => ecdCovers x (kickVa l i)
      | none => true

/-- The partition that GPTAB names for a guest (R380); the table's frame is a hypervisor's. -/
def State.guestLead (s : State) (guest : Nat) : Option Nat :=
  let tab := s.reg.gptab.toNat
  let b := (Memory.get s.mem (tab + guest)).toNat
  if (s.pot (tab / 4096)).state ≠ .hyp || b < 128 || b / 16 % 8 ≠ 0 then none
  else if partEn (s.part (b % 16)) then some (b % 16) else none

/-- A key slot that nothing holds: not loaded, and recorded for no live enclave (R212, R363). -/
def State.slotFree (s : State) (k : Nat) : Bool :=
  !s.slotLoaded (.ofNat 8 k) && s.encls.all fun e => e.2.slot.toNat ≠ k && e.2.newSlot.map (·.toNat) ≠ some k

def State.freeSlot (s : State) : Option Nat := ((List.range 255).map (· + 1)).find? s.slotFree

/-- The lowest unused enclave ID: none of its frames is still in SCRUB (R219). -/
def State.freeEid (s : State) : Option Nat :=
  ((List.range (s.encls.length + s.scrubs.length + 1)).map (· + 1)).find? fun n =>
    n < 65536 && (s.encls.find n).isNone && s.scrubs.all fun p => p.2 ≠ n

/-- The lowest free attestation entry of 128 (Table 9.8). -/
def State.freeAtt (s : State) : Option Nat := (List.range 128).find? fun n => s.encls.all fun e => e.2.att ≠ n

/-- The lowest free queues of a partition (R338). -/
def State.freeQueues (s : State) (lead n : Nat) : Option (List Nat) :=
  let l := (((List.range 256).map (256 * lead + ·)).filter fun q => (s.queues.find q).isNone).take n
  if l.length = n then some l else none

/-- The status of a descriptor (R459): none when the creation can go on. -/
def ecdStatus (s : State) (bs : List Byte) (x : Ecd) : Option Status :=
  let g := s.callerGuest
  if !ecdForm bs x then some .badreq
  else if ecdDuplicate x then some .duplicate
  else if x.pages.any fun p => (s.pot (p.pa / 4096)).state ≠ .guest || (s.pot (p.pa / 4096)).guest ≠ g then some .notowner
  else if !ecdPlaced x then some .badreq
  else if !ecdTables x (s.guestLead g.toNat) then some .notable
  else none

/-! Page-table entries and frames that the controller writes -/

def pteLeaf (pa perm mt : Nat) (encl : Bool) : Nat := 1 + perm * 4 + bit encl * 32 + pa + mt * 2 ^ 56
def pteLink (pa : Nat) : Nat := 3 + pa

/-- Recalls a frame, whose dirty bytes go home under its old entry, and changes the entry (R211), unless the recall has met an integrity
failure, which leaves the frame POISONED (R373). -/
def State.moveFrame (s : State) (frame : Nat) (p : Pot) : State :=
  let s := s.recall frame
  if (s.pot frame).state = .poisoned then s else s.setPot frame p

/-- Whether an operation on a page waits for a line that an atomic unit or a sweep holds: one of its frame's recall, or that of its table
entry (R139, R372). -/
def State.pageHeld (s : State) (frame at_ : Nat) : Bool := s.recallHeld frame || s.lineHeldAt (at_ / 128)

/-- Writes an 8-byte table entry under a grant. One that meets a failed tag, of its own line or in an overflow of another, poisons the
node's frame (R371, R373). -/
def State.putEntry (s : State) (a e : Nat) : State :=
  if s.writeFails (a / 64) then
    let p := s.pot (a / 4096)
    s.poisonFrame (a / 4096) ⟨p.guest, p.owner, 0⟩ .write 0 (a / 2 ^ 36) (4, a / 2 ^ 36 * 2 ^ 28)
  else s.homeWrite a (leBytes 8 e)

/-- The address of the entry of a level for a VA, with its node. -/
def entryAt (node va lev : Nat) : Nat := node + 8 * levelIndex va lev

/-- A frame taken by ECREATE: its new entry, with its contents zero, or re-encrypted for a measured page (R212). -/
def takeFrame (s : State) (eid : Nat) (guest slot : Byte) (p : EcdPage) : State :=
  let st : PotState := match p.ty with
    | 0 | 1 => .encl
    | 2 => .enclPt
    | 3 => .enclSave
    | _ => .enclBar
  let f := p.pa / 4096
  let s := s.moveFrame f {
    state := st, guest := guest, owner := .ofNat 16 eid, slot := slot
    eva := if p.data then .ofNat 40 (p.va / 4096) else 0
    ehome := if p.data then .ofNat 4 (homeOf p.va) else 0
    maxp := if p.data then .ofNat 3 p.perm else 0 }
  let plain := Memory.bytes s.mem p.pa 4096
  let s := s.scrubFrame f
  if p.ty = 0 then s.homeWrite p.pa plain else s

/-- Links the nodes and leaves of a new enclave (R212 step 6, R339). -/
def buildTables (s : State) (x : Ecd) (lead : Nat) (queues : List Nat) : State :=
  let link (s : State) (p : EcdPage) : State :=
    if p.ty = 2 then
      let parent := if p.perm = 1 then ecdRoot x (homeOf p.va) else if p.perm = 0 then none else ecdNode x (p.perm - 1) p.va
      match parent with
      | some n => s.putEntry (entryAt n p.va (p.perm - 1)) (pteLink p.pa)
      | none => s
    else if p.data then match ecdNode x 3 p.va with
      | some n => s.putEntry (entryAt n p.va 3) (pteLeaf p.pa p.perm 0 true)
      | none => s
    else s
  let s := x.pages.foldl link s
  ((List.range queues.length).zip queues).foldl (fun s q => match ecdNode x 3 (kickVa lead q.1) with
    | some n => s.putEntry (entryAt n (kickVa lead q.1) 3) (pteLeaf (kickPa lead (q.2 % 256)) 3 2 false)
    | none => s) s

/-- M of R213 over the plaintext of the measured pages. -/
def measure (s : State) (bs : List Byte) (x : Ecd) : List Byte :=
  x.pages.foldl (fun m p => if p.ty = 0 then
      sha256 (m ++ leBytes 8 p.va ++ [.ofNat 8 p.perm] ++ sha256 (Memory.bytes s.mem p.pa 4096)) else m)
    (sha256 (slice bs 0 128))

/-- Whether the command processor of a partition starts nothing: its triplet has stopped (R349), or the tandem has failed (R423). -/
def State.cpStopped (s : State) (lead : Nat) : Bool := (s.trip (16 * lead)).stop || s.tandem.failed

/-- The creation itself (R212), once every check has passed. -/
def State.create (s : State) (bs : List Byte) (x : Ecd) (eid slot att lead : Nat) (queues : List Nat) : State :=
  let g := s.callerGuest
  let k : Byte := .ofNat 8 slot
  let s := { s with slots := s.slots.put slot { loaded := true, guest := g, eid := .ofNat 16 eid, key := 256 + s.keysMade } }
  let s := x.pages.foldl (fun s p => takeFrame s eid g k p) s
  let s := buildTables s x lead queues
  let m := measure s bs x
  let e : Encl := {
    guest := g, slot := k, key := 256 + s.keysMade, ctl := .ofNat 32 x.ctl, policy := keyOf (slice bs 16 32), meas := keyOf m, ecd := slice bs 0 128
    threads := x.threads, entry := .ofNat 64 x.entry, stack := .ofNat 64 x.stack
    roots := (List.range Config.slices).foldl (fun t h => match ecdRoot x h with
      | some n => t.put h n
      | none => t) []
    savePas := (x.pages.filter (·.ty = 3)).map (·.pa), barPage := (x.pages.find? (·.ty = 4)).map (·.pa / 4096)
    att := att, data := List.replicate 64 0, lead := lead, queues := queues
    paging := Config.keyMaterial s.keysMade, export_ := Config.keyMaterial (s.keysMade + 1)
    save := Config.keyMaterial (s.keysMade + 2), tsvAt := some s.ns
    devices := Config.policyDevices (keyOf (slice bs 16 32)) }
  { s with
    keysMade := s.keysMade + 4
    encls := s.encls.put eid e
    reg := { s.reg with ckLast := s.reg.ckLast.del eid }
    queues := ((List.range queues.length).zip queues).foldl (fun t q =>
      t.put q.2 ({ owner := eid, guest := g, index := q.1, stopped := s.cpStopped lead } : SimtQ)) s.queues }

/-- ECREATE. A measured page whose tag fails is an integrity failure of the guest's frame (R373), as is one that the recall of the frames
meets, and the frame is then no longer GUEST. -/
def execEcreate (h : Hdr) (d a : Opnd) (s : State) : Host.Outcome State Fault Refusal :=
  issue (.ecreate h d a) s fun s =>
    let va := (s.src2 1 a).toNat
    withBuffer s va 4096 4096 fun s bs =>
      let x := ecdOf bs
      let fail (s : State) (c : Status) : Res := .ok (s.postTo d (.ofNat 32 (c.code * 65536)))
      match ecdStatus s bs x with
      | some c => fail s c
      | none => if x.pages.any fun p => s.recallHeld (p.pa / 4096) then .hold else
        match s.freeEid, s.freeSlot, s.freeAtt, s.guestLead s.callerGuest.toNat with
        | some eid, some slot, some att, some lead =>
          match s.freeQueues lead x.queues, s.poolFree lead with
          | some queues, some free =>
            if free < energyFrames then fail s .nores
            else
              let s := x.pages.foldl (fun s p => s.recall (p.pa / 4096)) s
              if x.pages.any fun p => (s.pot (p.pa / 4096)).state = .poisoned then fail s .notowner
              else match x.pages.find? fun p => p.ty = 0 && !s.verifies p.pa 4096 with
              | some p => fail (s.poisonFrame (p.pa / 4096) (s.space s.cur) .read va (p.pa / 2 ^ 36) (s.agentOf s.cur)) .notowner
              | none => .ok ((s.create bs x eid slot att lead queues).postTo d (.ofNat 32 eid))
          | _, _ => fail s .nores
        | _, _, _, _ => fail s .nores

/-! Entering and leaving (R215, R216) -/

/-- A thread of a host core that starts at E with the caller's g0-g15 and every other register zero. -/
def Thread.fresh (t : Thread) (eid : Nat) (cb : Dword) (w : Word) : Thread :=
  { t.blankHost with regs := t.regs.filter (·.1 < 16), eid := .ofNat 16 eid, level := .e, cb := cb, w := w }

/-- The thread that an EENTER resumes (R215). -/
def Encl.resume (e : Encl) (eid idx : Nat) (t : Thread) : Thread :=
  match Tab.getD e.saves idx .empty with
  | .thread u => { u with level := .e, readyAt := t.readyAt }
  | .exited w cb => t.fresh eid cb w
  | .empty =>
    let sp := e.stack - .ofNat 64 (65536 * idx)
    ((t.fresh eid e.entry 0).setReg (Opnd.code (.o 4)) sp.lo).setReg (Opnd.code (.o 5)) sp.hi

/-- Restored channels: they bind again, and the fix-ups of their copies replay (R297). -/
def restoreChans (c : Tab Chan) : Tab Chan :=
  let ready (c : Copy) : Copy := { c with
    fix := c.fix.map fun f => { f with answered := true }, stop := c.stop.map fun f => { f with answered := true } }
  c.map fun p => (p.1, { p.2 with queue := p.2.queue.map ready })

/-- The sealed copies of an enclave thread go on from the host core that it is entered on, before that core's own (R297). -/
def State.unsealHostChans (s : State) (n eid idx : Nat) : State :=
  match s.encls.find eid with
  | none => s
  | some e =>
    let kept := restoreChans (e.chans.getD idx [])
    if kept.isEmpty then s
    else ((s.modHost n fun h => { h with store := { h.store with chans := kept.foldl (fun t p =>
        let x := t.getD p.1 {}
        t.put p.1 { x with queue := p.2.queue ++ x.queue, wptr := p.2.wptr, phys := none }) h.store.chans } }).modEncl eid fun e => { e with
      chans := e.chans.del idx }).settleCeown

/-- EENTER. While the whole context is halted no thread of it runs, and the word waits for the end of the halt (R431, R460, assumption 116). -/
def execEenter (h : Hdr) (a b : Opnd) (s : State) : Host.Outcome State Fault Refusal :=
  issue (.eenter h a b) s fun s =>
    let i := Instr.eenter h a b
    let eid := (s.src h 1 a).toNat % 65536
    let idx := (s.src h 2 b).toNat % 64
    match s.cur, s.encls.find eid with
    | .host n, some e =>
      if e.guest ≠ s.callerGuest then .trap .perm i.tval s
      else if e.threads ≤ idx || s.hosts.any (fun p => p.2.entered = some (eid, idx)) then .trap .perm i.tval s
      else if !s.slotLoaded e.slot then .trap .keyrevoked i.tval s
      else if e.halted && !e.failed then .hold
      else
        let s := { s with th := s.th.complete }
        let s := s.modHost n fun c => { c with retW := nextIndex i s, retCb := s.th.cb }
        if e.failed then .moved (s.asyncExit n 16 false s.th.w)
        else
          .moved { ((s.freshCode (hostIx n)).modHost n fun c => { c with entered := some (eid, idx) }).unsealHostChans n eid idx with
            th := e.resume eid idx s.th, evcnt := moveCounters s.evcnt eid (saveIx eid idx) (hostIx n) }
    | _, _ => .trap .perm i.tval s

/-- EEXIT: the enclave thread's place is recorded, g0-g15 are kept, and S goes on at the return point. -/
def execEexit (h : Hdr) (s : State) : Host.Outcome State Fault Refusal :=
  issue (.eexit h) s fun s =>
    match s.cur with
    | .host n =>
      let c := s.hostCore n
      match c.entered with
      | some (eid, idx) =>
        let t := s.th.complete
        let s := s.modEncl eid fun e => { e with saves := e.saves.put idx (.exited (nextIndex (.eexit h) s) t.cb) }
        let s := s.modHost n fun c => { c with entered := none }
        .moved { s with
          th := { t.fresh 0 c.retCb c.retW with level := .s }
          evcnt := moveCounters s.evcnt eid (hostIx n) (saveIx eid idx) }
      | none => .trap .priv (Instr.tval (.eexit h)) s
    | .simt _ _ => .trap .priv (Instr.tval (.eexit h)) s

/-! Reports (R218) -/

/-- The report buffer after its DATA (Table 9.8). -/
def reportTail (e : Encl) (eid seq : Nat) : List Byte :=
  keyBytes e.meas ++ keyBytes e.policy ++ leBytes 8 seq ++ leBytes 2 eid ++ leBytes 2 (e.ctl.toNat / 256 % 8)
    ++ leBytes 2 (0x40 + e.att) ++ List.replicate 114 0

/-- A checkpoint or restore request in the DATA of a report: it is acted on after the EREPORT (R430). -/
def State.noteRequest (s : State) (eid host : Nat) (data : List Byte) : State :=
  let magic := data.take 8
  if magic = asciiBytes "DRFCHK01" then { s with ckJobs := s.ckJobs ++ [{ eid := eid, restore := false, host := host, data := data }] }
  else if magic = asciiBytes "DRFRST01" then { s with ckJobs := s.ckJobs ++ [{ eid := eid, restore := true, host := host, data := data }] }
  else s

/-- EREPORT. -/
def execEreport (h : Hdr) (d a : Opnd) (s : State) : Host.Outcome State Fault Refusal :=
  issue (.ereport h d a) s fun s =>
    let va := (s.src2 1 a).toNat
    let eid := (s.space s.cur).eid.toNat
    match s.encls.find eid with
    | none => .trap .priv (Instr.tval (.ereport h d a)) s
    | some _ => withBuffer s va 256 64 fun s bs => match s.encls.find eid with
      | none => .trap .priv (Instr.tval (.ereport h d a)) s
      | some e =>
        let seq := (e.seq + 1) % 2 ^ 64
        storeBuffer s va (slice bs 0 64 ++ reportTail e eid seq) fun s =>
          .ok (((s.modEncl eid fun e => { e with seq := seq, data := slice bs 0 64 }).noteRequest eid (s.coreIx s.cur - hostIx 0)
            (slice bs 0 64)).postTo d (.ofNat 32 seq))

/-! Destroying (R219) -/

/-- A frame goes to SCRUB for its next owner (R358, R359), unless its recall leaves it POISONED; `eid` is the destroyed enclave that it
belonged to, or 0. -/
def State.scrubFor (s : State) (frame : Nat) (guest slot : Byte) (eid : Nat) : State :=
  let s := s.moveFrame frame { state := .scrub, guest := guest, slot := slot }
  if (s.pot frame).state = .scrub then { s with scrubs := s.scrubs ++ [(frame, eid)] } else s

/-- The current slot of a guest. -/
def State.guestSlot (s : State) (guest : Byte) : Byte := (s.spaceSlots ⟨guest, 0, 0⟩).headD 0

/-- Revokes a slot (R222): dirty lines go home, cached lines go, the key goes. -/
def State.revoke (s : State) (k : Byte) : State :=
  let s := s.invalidate (fun _ => false) fun l => l.slot = k
  let x : KeySlot := Tab.getD s.slots k.toNat {}
  { s with slots := s.slots.put k.toNat { x with loaded := false } }

/-- Releases a team (R242): its threads, passes, copies, drains, movements and waiting accesses go with it. -/
def State.dropTeam (s : State) (team : Nat) : State :=
  let mine : ThreadId → Bool := fun i => match i with
    | .simt t _ => t = team
    | .host _ => false
  let foldCore := match s.teams.find team with
    | some t => some t.core
    | none => none
  let eid := match s.launchOfTeam team with
    | some l => l.eid
    | none => 0
  let s : State := { s with
    threads := s.threads.filter fun p => !mine p.1
    th := if mine s.cur then { s.th with wait := .retired } else s.th
    teams := s.teams.del team
    quads := s.quads.map fun q => (q.1, { q.2 with
      table := q.2.table.filter (·.team ≠ team), waiting := q.2.waiting.filter (·.team ≠ team)
      bufs := q.2.bufs.filter fun b => match s.ops.find b.op with
        | some o => o.team ≠ team
        | none => true
      spare := q.2.spare.filter fun b => match s.ops.find b.op with
        | some o => o.team ≠ team
        | none => true
      reads := q.2.reads.filter fun r => match s.ops.find r.1 with
        | some o => o.team ≠ team
        | none => true })
    ops := s.ops.filter fun p => p.2.team ≠ team
    drains := s.drains.filter (·.team ≠ team)
    moves := s.moves.filter (·.team ≠ team)
    log := s.log.filter fun e => !mine e.tid
    atomQ := s.atomQ.filter fun r => !mine r.tid
    cores := s.cores.map fun c => (c.1, { c.2 with asks := c.2.asks.filter fun a => !mine a.tid }) }
  -- The copy engines that its channels leave may change their owner (R293).
  let s := s.settleCeown
  -- The context's last team has left the core: its counter folds into the energy table (R393, R396).
  match foldCore with
  | none => s
  | some c =>
    if s.teams.any fun t => t.2.core = c && (match s.launches.find t.2.launch with
        | some l => l.eid = eid
        | none => false) then s
    else
      let m : Meter := Tab.getD s.meters (c * 65536 + eid) {}
      { s with meters := s.meters.put (c * 65536 + eid) (m.fold (s.clockOf c)) }

/-- Releases a team whose launch has ended early, once the stores and atomics that it has issued have taken effect (R244). -/
def State.endTeam (s : State) (team : Nat) : State :=
  let s := s.settleTeam team
  if s.unsettled team then s else (s.stopTeam team).dropTeam team

/-- Whether a context has a team on some core. -/
def State.standing (s : State) (eid : Nat) (onCore : Nat → Bool) : Bool := s.teams.any fun t => onCore t.2.core && match s.launches.find t.2.launch with
  | some l => l.eid = eid
  | none => false

/-- PREEMPT's ACT 3 is complete when every team has been released (R385). -/
def State.settleBusy (s : State) : State :=
  if s.reg.preempt.toNat / 65536 = 3 && !s.standing (s.reg.preempt.toNat % 65536) fun _ => true then
    { s with reg := { s.reg with preBusy := false } } else s

/-- The kill of a context on some cores (R385): its teams there are released and their launches end with EKILL. A team whose stores have still
to take effect goes with its launch. -/
def State.killTeams (s : State) (eid : Nat) (onCore : Nat → Bool) : State :=
  let mine := s.teams.filter fun t => onCore t.2.core && match s.launches.find t.2.launch with
    | some l => l.eid = eid
    | none => false
  let s := mine.foldl (fun s t => s.endLaunch t.2.launch 0x203) s
  mine.foldl (fun s t => s.endTeam t.1) s

/-- Whether a queued item belongs to another enclave than this. -/
def ofOther (s : State) (eid : Nat) (i : Nat × List Word × Nat) : Bool :=
  match s.launches.find i.1 with
  | some l => l.eid ≠ eid
  | none => true

/-- The end of the launches of an enclave that is destroyed (R219, R260, R385): each ends with EKILL, its teams are released, and its signal is
written and its count made, as far as that needs no answer of software; an access that waits for one is gone (assumption 26). None while a
store, an atomic or a signal waits for a line that an atomic unit holds. -/
def State.endLaunches (s : State) (eid : Nat) : Option State :=
  let mine := s.launches.filter fun l => l.2.eid = eid
  let gone (e : LogEntry) : Bool := !e.ready && e.sp.eid.toNat = eid && !e.tid.isHost
  let s : State := { s with log := s.log.filter fun e => !gone e }
  let s := (mine.foldl (fun s l => s.endLaunch l.1 0x203) s).killTeams eid fun _ => true
  if s.standing eid fun _ => true then none
  else mine.foldl (fun r p => r.bind fun s => match s.launches.find p.1 with
    | some l => s.finishLaunch p.1 { l with mute := l.mute || l.waits.isSome }
    | none => some s) (some s)

/-- What follows of EDESTROY when its launches have ended: entered threads, attestation entry, key slot, frames. -/
def State.destroyed (s : State) (eid : Nat) (e : Encl) : State :=
  let s : State := { s with
    launches := s.launches.filter fun l => l.2.eid ≠ eid
    walkers := s.walkers.filter fun w => match s.launches.find w.launch with
      | some l => l.eid ≠ eid
      | none => true
    cores := s.cores.map fun c => (c.1, { c.2 with items := c.2.items.filter (ofOther s eid) }) }
  let s : State := (List.range Config.hosts).foldl (fun s n => match (s.hostCore n).entered with
    | some (x, _) => if x = eid then s.asyncExit n 0 false 0 else s
    | none => s) s
  let s : State := { s with tdis := s.tdis.map fun t => if t.2.eid = eid then (t.1, { t.2 with state := .error, ide := none }) else t }
  let s : State := s.revoke e.slot
  let s : State := { s with slots := s.slots.put e.slot.toNat {} }
  let s : State := match e.newSlot with
    | some k => { s.revoke k with slots := s.slots.put k.toNat {} }
    | none => s
  let frames := (s.pots.filter fun p => p.2.owner.toNat = eid && p.2.state.isEncl).map (·.1)
  let slot := s.guestSlot e.guest
  let s : State := frames.foldl (fun s f => s.scrubFor f e.guest slot eid) s
  { s with
    encls := s.encls.del eid
    reg := if s.reg.preempt.toNat % 65536 = eid then { s.reg with preBusy := false } else s.reg
    meters := s.meters.filter fun m => m.1 % 65536 ≠ eid
    evcnt := s.evcnt.filter fun m => m.1 / 8 % 65536 ≠ eid }

/-- EDESTROY in its order (R219): queues, launches, and the rest. None while write-backs or other writes of it wait for lines that an atomic
unit holds (R139), a frame of it is moved (R372), or accesses of its host threads have not returned (R76). -/
def State.destroy (s : State) (eid : Nat) (e : Encl) : Option State :=
  let moves (w : Nat × Sweep) : Bool := w.2.dst.isSome && (s.pot w.1).owner.toNat = eid
  if (s.waitsForHold fun l => l.sp.eid.toNat = eid || l.slot = e.slot || some l.slot = e.newSlot) || s.sweeps.any moves
    || s.hosts.any fun h => h.2.entered.any (·.1 = eid) && s.unreturned (.host h.1) then none
  else ({ s with queues := s.queues.filter fun q => q.2.owner ≠ eid }.endLaunches eid).map fun (s : State) => s.destroyed eid e

/-- EDESTROY. -/
def execEdestroy (h : Hdr) (a : Opnd) (s : State) : Host.Outcome State Fault Refusal :=
  issue (.edestroy h a) s fun s =>
    let eid := (s.src h 1 a).toNat % 65536
    match s.encls.find eid with
    | some e => if e.guest = s.callerGuest then (match s.destroy eid e with
        | some s => .ok s
        | none => .hold) else .trap .perm (Instr.tval (.edestroy h a)) s
    | none => .trap .perm (Instr.tval (.edestroy h a)) s

end Sys2Proof.Machine
end

