-- ==== Sys2Proof/Machine/Keys.lean ====
section
/-! DEFINITION. The KEY group: wrapping and unwrapping an enclave's keys, revoking and loading key slots (R220-R223, R363, R365). -/

namespace Sys2Proof.Machine

/-- WK of R221. -/
def wrapKey (e : Encl) (kind : Nat) : List Byte :=
  hkdf (keyBytes Config.deviceSecret) (keyBytes e.meas) (asciiBytes "Drefin key wrap" ++ keyBytes e.policy ++ [.ofNat 8 kind])

/-- KWRAP (R221). -/
def execKwrap (h : Hdr) (d a : Opnd) (s : State) : Host.Outcome State Fault Refusal :=
  issue (.kwrap h d a) s fun s =>
    let va := (s.src2 1 a).toNat
    withBuffer s va 128 64 fun s bs =>
      match s.encls.find (s.space s.cur).eid.toNat with
      | none => .trap .priv (Instr.tval (.kwrap h d a)) s
      | some e =>
        let kind := field bs 1 1
        if kind ≠ 1 && kind ≠ 2 then answer s d .badreq
        else
          let hdr := [1, .ofNat 8 kind, 0, 0]
          let nonce := beBytes 12 (Config.nonce s.keysMade).toNat
          let r := gcmSeal (wrapKey e kind) nonce hdr (keyBytes (if kind = 1 then e.paging else e.export_))
          storeBuffer { s with keysMade := s.keysMade + 1 } va (hdr ++ nonce ++ r.1 ++ r.2 ++ List.replicate 64 0) fun s => answer s d .ok

/-- KUNWRAP (R221). -/
def execKunwrap (h : Hdr) (d a : Opnd) (s : State) : Host.Outcome State Fault Refusal :=
  issue (.kunwrap h d a) s fun s =>
    let va := (s.src2 1 a).toNat
    withBuffer s va 128 64 fun s bs =>
      let eid := (s.space s.cur).eid.toNat
      match s.encls.find eid with
      | none => .trap .priv (Instr.tval (.kunwrap h d a)) s
      | some e =>
        let kind := field bs 1 1
        if field bs 0 1 ≠ 1 || (kind ≠ 1 && kind ≠ 2) || field bs 2 2 ≠ 0 || !allZero (slice bs 64 64) then answer s d .badreq
        else match gcmOpen (wrapKey e kind) (slice bs 4 12) (slice bs 0 4) (slice bs 16 32) (slice bs 48 16) with
          | none => answer s d .authfail
          | some k => answer (s.modEncl eid fun e =>
              if kind = 1 then { e with paging := keyOf k } else { e with export_ := keyOf k }) d .ok

/-- KREVOKE (R222, R365). -/
def execKrevoke (h : Hdr) (d a : Opnd) (s : State) : Host.Outcome State Fault Refusal :=
  issue (.krevoke h d a) s fun s =>
    let k := (s.src h 1 a).toNat % 256
    let x : KeySlot := Tab.getD s.slots k {}
    if k = 0 then answer s d .notowner
    else if !x.loaded then answer s d .badstate
    else if x.guest ≠ s.callerGuest then answer s d .notowner
    else if s.encls.any fun e => e.2.newSlot.isSome && (e.2.slot.toNat = k || e.2.newSlot.map (·.toNat) = some k) then
      answer s d .badstate
    else if s.waitsForHold fun l => l.slot.toNat = k then .hold
    else answer (s.revoke (.ofNat 8 k)) d .ok

/-- KLOAD (R223). -/
def execKload (h : Hdr) (d a : Opnd) (s : State) : Host.Outcome State Fault Refusal :=
  issue (.kload h d a) s fun s =>
    let x := s.src h 1 a
    let k := x.toNat % 256
    let guest : Byte := x.extractLsb' 8 8
    let eid := x.toNat / 65536
    if k = 0 then answer s d .badreq
    else if s.slotLoaded (.ofNat 8 k) then answer s d .badstate
    else if eid = 0 then
      if !s.slotFree k then answer s d .badstate
      else answer { s with
        slots := s.slots.put k { loaded := true, guest := guest, key := guest.toNat }
        keysMade := if s.gkeys.contains guest.toNat then s.keysMade else s.keysMade + 1
        gkeys := if s.gkeys.contains guest.toNat then s.gkeys else guest.toNat :: s.gkeys } d .ok
    else match s.liveEncl eid with
      | none => answer s d .notowner
      | some e =>
        if e.guest ≠ guest then answer s d .notowner
        else if e.slot.toNat ≠ k then answer s d .badreq
        else answer { s with slots := s.slots.put k { loaded := true, guest := guest, eid := .ofNat 16 eid, key := e.key } } d .ok

end Sys2Proof.Machine
end

