-- ==== Sys2Proof/Machine/Dispatcher.lean ====
section
/-! DEFINITION. The dispatcher, the walkers and the end of a launch: placing teams and clusters, dispensing and splitting, items and
mailboxes, team done, completion signals and terminal ends (R231-R235, R241-R245, R248, R250-R261, R386). -/

namespace Sys2Proof.Machine

/-! Contexts -/

/-- Whether a context's dispensing is stopped: a soft request or a halt of it stands, or walkers of the launch are sealed (R257, R258,
R383). -/
def State.stoppedDispensing (s : State) (l : Launch) : Bool :=
  !l.sealedW.isEmpty || match s.encls.find l.eid with
    | some e => e.soft.isSome || e.halted || e.failed
    | none => true

/-- Whether a slice lies in the partition that a lead slice leads; a slice that is about to leave it does not (R380, R381). -/
def State.inPart (s : State) (lead slice : Nat) : Bool :=
  partEn (s.part lead) && lead ≤ slice && slice < lead + partSize (s.part lead) && match s.reg.resize.find lead with
    | some v => decide (slice < lead + partSize v)
    | none => true

def State.partSlices (s : State) (lead : Nat) : List Nat := (List.range Config.slices).filter (s.inPart lead)

/-! Walkers (R250-R252) -/

/-- The first index from `c` on, within `n`, that is not skipped. -/
def Launch.passOver (l : Launch) : Nat → Nat → Nat
  | 0, c => c
  | n + 1, c => if (l.coords c).isSome then c else Launch.passOver l n (c + 1)

/-- Passes over skipped indices (R251). -/
def Walker.pass (w : Walker) (l : Launch) : Walker :=
  let c := l.passOver (w.fin - w.cur) w.cur
  { w with cur := c, skip := w.skip + (c - w.cur) }

def Walker.is (w : Walker) (slice num : Nat) : Bool := w.slice = slice && w.num = num

/-- Stores a walker; an exhausted one credits its skips and is free (R251). -/
def State.putWalker (s : State) (w : Walker) : State :=
  let others := s.walkers.filter fun x => !x.is w.slice w.num
  if w.fin ≤ w.cur then { s with walkers := others }.modLaunch w.launch fun l => { l with credit := l.credit + w.skip }
  else { s with walkers := others ++ [w] }

/-- Dispenses a walker's next index: its coordinates, and the launch's START at its first. -/
def State.dispense (s : State) (w : Walker) (l : Launch) : State × List Word :=
  let x := (l.coords w.cur).getD [0, 0, 0, 0]
  let tsr := s.timestamp l.eid false
  let s := s.modLaunch w.launch fun l => { l with
    credit := l.credit + w.skip, doneT := l.doneT + 1, start := some (l.start.getD tsr) }
  (s.putWalker (Walker.pass { w with cur := w.cur + 1, skip := 0 } l), x)

/-- The walkers of a launch on a slice; each holds an index. -/
def State.walkersOn (s : State) (launch slice : Nat) : List Walker :=
  s.walkers.filter fun w => w.launch = launch && w.slice = slice

/-- The lowest-numbered walker of a list. -/
def lowWalker : List Walker → Option Walker
  | [] => none
  | w :: t => match lowWalker t with
    | some x => some (if x.num < w.num then x else w)
    | none => some w

/-- The lowest free walker of a slice: one whose triplet serves. -/
def freeWalker (s : State) (busy : List (Nat × Nat)) (slice : Nat) : Option Nat :=
  (List.range Config.walkersPerSlice).find? fun n =>
    !busy.contains (slice, n) && !(s.trip (256 + 16 * slice + n)).stop

def State.busyWalkers (s : State) : List (Nat × Nat) := s.walkers.map fun w => (w.slice, w.num)

/-! Room (R231, R386) -/

/-- The teams resident on a core, with their launches. -/
def State.residents (s : State) (core : Nat) : List (Team × Launch) :=
  s.teams.filterMap fun p => if p.2.core = core then (s.launches.find p.2.launch).map fun l => (p.2, l) else none

/-- The slot that a team of a launch would take on a core, when the core has room for it: every resource of Table 10.2. A quad whose
constant segment waits on a record takes no team of the launch (R248). -/
def State.room (s : State) (l : Launch) (core : Nat) : Option Nat :=
  let r := s.residents core
  let sum (f : Launch → Nat) : Nat := (r.map fun p => f p.2).sum
  let q := s.quad (core / 4)
  if q.out || q.removed || !s.inPart l.lead (core / 384) || l.consts.any (·.1 = core / 4) then none
  else if 64 < sum Launch.groups + l.groups || 2048 < sum Launch.lanes + l.lanes || 48 < sum Launch.tiles + l.tiles
      || 131072 < sum (fun l => l.scratch + 16 * l.bars) + l.scratch + 16 * l.bars then none
  else (List.range 16).find? fun k => r.all fun p => p.1.slot ≠ k

/-- Whether the slice's pool can take the images of `n` teams. -/
def State.poolTakes (s : State) (slice : Nat) (l : Launch) (n : Nat) : Bool :=
  match s.poolFree slice with
  | some f => decide (n * l.imageFrames ≤ f)
  | none => false

/-- Whether a launch may place anything now. -/
def State.placing (s : State) (l : Launch) : Bool := l.error.isNone && !s.stoppedDispensing l

/-- The core at a core row and column of a slice (R233). -/
def meshCore (slice r c : Nat) : Nat := slice * 384 + 4 * (r / 2 * 12 + c / 2) + 2 * (r % 2) + c % 2

/-- The cores of a rectangle, members in order (R234). -/
def rectCores (shape slice r c : Nat) : List Nat :=
  let sh := shapeOf shape
  (List.range (sh.1 * sh.2)).map fun m => meshCore slice (r + m / sh.2) (c + m % sh.2)

/-- Whether a cluster of a launch fits on the rectangle at a top-left core. -/
def State.rectFits (s : State) (l : Launch) (slice r c : Nat) : Bool :=
  let sh := shapeOf l.cshape
  r % 2 = 0 && c % 2 = 0 && r + sh.1 ≤ 16 && c + sh.2 ≤ 24 && (rectCores l.cshape slice r c).all fun k => (s.room l k).isSome

/-- Whether a team or cluster of a launch finds room with its core or one of its cores on `core`. -/
def State.roomAt (s : State) (l : Launch) (core : Nat) : Bool :=
  if l.cshape = 0 then (s.room l core).isSome
  else (List.range 8).any fun i => (List.range 12).any fun j =>
    (rectCores l.cshape (core / 384) (2 * i) (2 * j)).contains core && s.rectFits l (core / 384) (2 * i) (2 * j)

/-- Whether a launch could be placed on a core, or on a rectangle that holds it, now: for the order of R348. -/
def State.couldPlace (s : State) (n : Nat) (l : Launch) (core : Nat) : Bool :=
  s.placing l && s.roomAt l core && !(s.walkersOn n (core / 384)).isEmpty
    && s.poolTakes (core / 384) l (if l.cshape = 0 then 1 else (shapeOf l.cshape).1 * (shapeOf l.cshape).2)

/-- Whether a launch goes before another wherever both have room (R348): the higher PRI, and within one enclave the lower queue number and
then the lower sequence number. -/
def Launch.before (x l : Launch) : Bool :=
  l.pri < x.pri || (x.pri = l.pri && x.eid = l.eid && (x.queue < l.queue || (x.queue = l.queue && x.seq < l.seq)))

/-! The weighted cycle of enclaves (R348) -/

/-- The lowest of some numbers. -/
def lowest : List Nat → Option Nat
  | [] => none
  | x :: l => some (l.foldl min x)

/-- The enclave whose turn it is: the one that has the turn, while it is among those that could use it and has entries left, and otherwise
the next of them by number (assumption 71). -/
def turnOf (now : Nat × Nat) (eids : List Nat) : Option Nat :=
  if 0 < now.2 && eids.contains now.1 then some now.1
  else match lowest (eids.filter (now.1 < ·)) with
    | some x => some x
    | none => lowest eids

/-- Whether another enclave has the turn. -/
def State.notTurn (s : State) (key eid : Nat) (eids : List Nat) : Bool := match turnOf (Tab.getD s.turns key (0, 0)) eids with
  | some x => x != eid
  | none => false

/-- An enclave uses one entry of its turn. -/
def State.takeTurn (s : State) (key eid : Nat) : State :=
  let now := Tab.getD s.turns key (0, 0)
  let left := if now.1 = eid && 0 < now.2 then now.2 else match s.encls.find eid with
    | some e => e.weight
    | none => 1
  { s with turns := s.turns.put key (eid, left - 1) }

/-- The cycle of the placements of a partition at a PRI. -/
def Launch.cycle (l : Launch) : Nat := 16 * l.lead + 8 + l.pri

/-- A launch that goes before this one and could use a core, or another enclave's turn there (R348). -/
def State.outranked (s : State) (l : Launch) (core : Nat) : Bool :=
  let could := s.launches.filter fun p => s.couldPlace p.1 p.2 core
  could.any (·.2.before l) || s.notTurn l.cycle l.eid ((could.filter (·.2.cycle = l.cycle)).map (·.2.eid))

/-! The constant segment (R248) -/

/-- The constant segment of a launch for a quad that is to hold its first team: its lines are read anew into the quad's constant cache
(R277). -/
def loadConstants (s : State) (l : Launch) (quad : Nat) : Nat → Nat → CpRead
  | 0, _ => .ok s []
  | k + 1, va =>
    let a : Access := { sp := l.space, va := va, kind := .ldc }
    if !wellFormedVa va then .bad s
    else match readThrough (s.clines.filter fun x => x.core ≠ quad || x.sp ≠ a.sp || x.va ≠ va / 128) s quad a 4 with
      | .ok (s, ls, _) => loadConstants { s with clines := ls } l quad k (va + 128)
      | .error f => cpFault s l.lead a f

/-! Placing a team (R232, R248, R256) -/

/-- A thread at release (Table 10.3). -/
def Launch.newThread (l : Launch) (now idx : Nat) : Thread :=
  { eid := .ofNat 16 l.eid, cb := .ofNat 64 l.code, w := l.entryOf (idx / 32), level := .e, allot := l.regsOf (idx / 32), readyAt := now }

/-- Makes a team resident on a core, all its threads ready, which fetch their words anew (R59). A context's event counters start at 0 on
a core where it has none, and a core's energy ticks with its first team (R395). -/
def State.addTeam (s : State) (launch : Nat) (l : Launch) (core slot : Nat) (cluster : Option Nat) (member : Nat)
    (coords : Option (List Word)) (serving : Option (Nat × Nat)) : State :=
  let n := s.serial
  let first := !(s.teams.any fun p => p.2.core = core && (match s.launches.find p.2.launch with
    | some x => x.eid = l.eid
    | none => false))
  let idle := !s.teams.any fun p => p.2.core = core
  let s := (s.freshCode core).modCore core fun c => if idle then { c with ticks := s.clock / 1024 } else c
  { s with
    serial := n + 1
    evcnt := if first then s.evcnt.filter (fun p => p.1 / 8 ≠ core * 65536 + l.eid) else s.evcnt
    teams := s.teams.put n {
      launch := launch, core := core, slot := slot, cluster := cluster, member := member, groups := l.groups, coords := coords
      serving := serving, placed := s.ns }
    threads := s.threads ++ (List.range (32 * l.groups)).map fun i => (.simt n i, l.newThread s.time i) }

/-- What a launch takes for a placement on a slice: the tile of the walker that it dispenses, or its serving walker; of several walkers there
that hold an index the lowest-numbered one (DESIGN CHOICE, assumption 114). -/
def State.takeTile (s : State) (n : Nat) (l : Launch) (slice : Nat) :
    Option (State × Option (List Word) × Option (Nat × Nat)) :=
  match lowWalker (s.walkersOn n slice) with
  | none => none
  | some w =>
    if l.pers || l.item then
      some (s.modLaunch n (fun x => { x with start := some (x.start.getD (s.timestamp l.eid false)) }), none, some (w.slice, w.num))
    else match s.dispense w l with
      | (s, x) => some (s, some x, none)

/-- Releases teams of a launch on cores, as members of one cluster or as one team: one entry of its enclave's turn. -/
def State.release' (s : State) (n : Nat) (l : Launch) (slice : Nat) (cores : List Nat) (cluster : Option Nat) : Option State :=
  match s.takeTile n l slice with
  | none => none
  | some (s, x, w) => some ((((List.range cores.length).zip cores).foldl (fun s c => match s.room l c.2 with
      | some slot => s.addTeam n l c.2 slot cluster c.1 x w
      | none => s) s).takeTurn l.cycle l.eid)

/-- Reads the constant segment for the quads that are to hold their first team of the launch, then goes on. A retryable fault holds the teams of
that quad alone (R248). -/
def withConstants (s : State) (n : Nat) (l : Launch) : List Nat → (State → Option State) → Option State
  | [], k => k s
  | q :: rest, k =>
    if l.cbytes = 0 || l.quads.contains q then withConstants s n l rest k
    else match loadConstants s l q (l.cbytes / 128) l.const with
      | .ok s _ => withConstants (s.modLaunch n fun l => { l with quads := q :: l.quads }) n l rest k
      | .wait s link => some (s.modLaunch n fun l => { l with consts := l.consts ++ [(q, link)] })
      | .held => none
      | .bad s => some (s.endLaunch n 0x204)

/-- TEAM_PLACE: a team of a launch goes to the lowest-numbered core of the slice that has room (R256). -/
def execTeamPlace (n core : Nat) (s : State) : Host.Outcome State Fault Refusal :=
  agent s (match s.launches.find n with
    | none => none
    | some l =>
      let slice := core / 384
      let base := slice * 384
      if !s.placing l || l.cshape ≠ 0 || (s.room l core).isNone || (s.walkersOn n slice).isEmpty || !s.poolTakes slice l 1
          || s.outranked l core || (List.range (core - base)).any (fun k => (s.room l (base + k)).isSome) then none
      else withConstants s n l [core / 4] fun s => s.release' n l slice [core] none)

/-- Whether a rectangle with a lower top-left core fits. -/
def State.lowerRect (s : State) (l : Launch) (slice r c : Nat) : Bool :=
  (List.range 8).any fun i => (List.range 12).any fun j =>
    meshCore slice (2 * i) (2 * j) < meshCore slice r c && s.rectFits l slice (2 * i) (2 * j)

/-- CLUSTER_PLACE: all teams of a cluster at once (R234, R235). -/
def execClusterPlace (n slice row col : Nat) (s : State) : Host.Outcome State Fault Refusal :=
  agent s (match s.launches.find n with
    | none => none
    | some l =>
      let cores := rectCores l.cshape slice row col
      if !s.placing l || l.cshape = 0 || !s.rectFits l slice row col || (s.walkersOn n slice).isEmpty
          || !s.poolTakes slice l cores.length || cores.any (s.outranked l) || s.lowerRect l slice row col then none
      else withConstants s n l (cores.map (· / 4)).dedup fun s =>
        { s with serial := s.serial + 1 }.release' n l slice cores (some s.serial))

/-! Team done (R241, R242) -/

/-- The conditions of R241. -/
def State.teamDone (s : State) (n : Nat) (t : Team) : Bool :=
  (s.allThreads.all fun p => match p.1 with
    | .simt m _ => m ≠ n || p.2.wait == .retired
    | .host _ => true)
  && s.ops.all (fun o => o.2.team ≠ n) && s.drains.all (·.team ≠ n) && s.moves.all (·.team ≠ n)
  && t.store.chans.all (fun c => c.2.queue.isEmpty) && t.fetches.isEmpty

/-- TEAM_DONE: a team's resources go, a cluster's together. -/
def execTeamDone (n : Nat) (s : State) : Host.Outcome State Fault Refusal :=
  agent s (match s.teams.find n with
    | none => none
    | some t =>
      if t.done || !s.teamDone n t then none
      else match t.cluster with
        | none => some (s.dropTeam n)
        | some c =>
          let s := s.modTeam n fun t => { t with done := true }
          let members := s.teams.filter fun p => p.2.cluster = some c
          some (if members.all fun p => p.2.done then members.foldl (fun s p => s.dropTeam p.1) s else s))

/-! Splitting (R253-R255) -/

/-- Of the walkers of a launch that can be split, the one with the largest range; ties to the lowest slice, then walker. -/
def splitVictim (ws : List Walker) : Option Walker :=
  ws.foldl (fun b w => match b with
    | none => some w
    | some x =>
      let a := w.fin - w.cur
      let c := x.fin - x.cur
      if c < a || (a = c && (w.slice < x.slice || (w.slice = x.slice && w.num < x.num))) then some w else b) none

/-- Serves a split request of a core: a new walker on its slice, or one of the two refusals. The request is no longer outstanding. -/
def State.split (s : State) (n : Nat) (l : Launch) (core : Nat) : State :=
  let slice := core / 384
  let s := s.modLaunch n fun l => { l with splits := l.splits.filter (· ≠ core) }
  match splitVictim (s.walkers.filter fun w => w.launch = n && 2 * l.minSplit ≤ w.fin - w.cur) with
  | none => s.modLaunch n fun l => { l with noRange := core :: l.noRange.filter (· ≠ core) }
  | some v => match freeWalker s s.busyWalkers slice with
    | none => s.modLaunch n fun l => { l with
        retry := (core, s.time + 256 * Config.ticksPerCoreClock) :: l.retry.filter (·.1 ≠ core) }
    | some f =>
      let mid := v.cur + (v.fin - v.cur + 1) / 2
      let w : Walker := ⟨slice, f, n, mid, v.fin, 0⟩
      let s := (s.putWalker (Walker.pass { v with fin := mid } l)).putWalker (w.pass l)
      s.modLaunch n fun l => { l with spl := true, retry := l.retry.filter (·.1 ≠ core) }

/-- Whether the walker that serves a team, or another of its slice, holds an index (R256). -/
def State.servingWalker (s : State) (t : Team) : Option Walker :=
  let ws := s.walkersOn t.launch (t.core / 384)
  match t.serving.bind fun p => ws.find? fun w => w.is p.1 p.2 with
  | some w => some w
  | none => lowWalker ws

/-- Tiles in a core's item queue for a launch. -/
def State.queuedTiles (s : State) (n core : Nat) : Nat :=
  (((s.core core).items.filter fun i => i.1 = n).map (·.2.1)).dedup.length

def State.holdsTeam (s : State) (n core : Nat) : Bool := s.teams.any fun p => p.2.launch = n && p.2.core = core && !p.2.done

/-- The cases of R253 in which a core makes a split request. Room includes the frames of the save pool (R386). -/
def State.wantsSplit (s : State) (n : Nat) (l : Launch) (core : Nat) : Bool :=
  let slice := core / 384
  let none_ := (s.walkersOn n slice).isEmpty
  let fits := s.poolTakes slice l (if l.cshape = 0 then 1 else (shapeOf l.cshape).1 * (shapeOf l.cshape).2) && if l.cshape = 0 then (s.room l core).isSome
    else (List.range 8).any fun i => (List.range 12).any fun j => meshCore slice (2 * i) (2 * j) = core && s.rectFits l slice (2 * i) (2 * j)
  l.split && !l.noRange.contains core && ((fits && none_)
    || (l.pers && s.teams.any fun p => p.2.launch = n && p.2.core = core && !p.2.fetches.isEmpty && (s.servingWalker p.2).isNone)
    || (l.item && s.holdsTeam n core && s.queuedTiles n core < 2 && none_))

/-- A core makes a split request, or one that is held has its turn. The requests of a launch are served one at a time in the order in which
they were made; while dispensing is stopped or the command processor is paused they are held (R253, R257). A core that has left the
partition has no request any more. -/
def State.askSplit (s : State) (n : Nat) (l : Launch) (core : Nat) (wants : Bool) : Option State :=
  let serves := s.placing l && !s.paused.contains l.lead
  let kept : Option State := if wants then some (s.modLaunch n fun l => { l with splits := l.splits ++ [core] }) else none
  match l.splits with
  | x :: rest =>
    if x = core then
      if !s.inPart l.lead (core / 384) then some (s.modLaunch n fun l => { l with splits := rest })
      else if serves then some (s.split n l core) else none
    else if rest.contains core then none else kept
  | [] => if wants && serves then some (s.split n l core) else kept

/-- SPLIT_REQUEST. -/
def execSplitRequest (n core : Nat) (s : State) : Host.Outcome State Fault Refusal :=
  agent s (match s.launches.find n with
    | none => none
    | some l =>
      if l.error.isSome then none
      else s.askSplit n l core (!l.retry.any (·.1 = core) && s.inPart l.lead (core / 384) && s.wantsSplit n l core))

/-- SPLIT_RETRY: a refused request is repeated after 256 clocks while its case still holds. -/
def execSplitRetry (n core : Nat) (s : State) : Host.Outcome State Fault Refusal :=
  agent s (match s.launches.find n with
    | none => none
    | some l =>
      if l.error.isSome || !(l.retry.any fun r => r.1 = core && r.2 ≤ s.time) then none
      else
        let l' : Launch := { l with retry := l.retry.filter (·.1 ≠ core) }
        let s := s.modLaunch n fun _ => l'
        if s.inPart l.lead (core / 384) && s.wantsSplit n l core && !l.splits.contains core then s.askSplit n l' core true else some s)

/-! Items and mailboxes (R160-R164, R256) -/

/-- The lowest-numbered fed core of a slice whose item queue holds fewer than two tiles. -/
def State.hungryCore (s : State) (n slice : Nat) : Option Nat :=
  ((List.range Config.coresPerSlice).map (slice * 384 + ·)).find? fun c => s.holdsTeam n c && s.queuedTiles n c < 2

/-- WALKER_DISPENSE: in item mode a tile enters an item queue; in non-persistent mode it goes to the lowest core with room, as one
team. -/
def execWalkerDispense (slice num : Nat) (s : State) : Host.Outcome State Fault Refusal :=
  agent s (match s.walkers.find? (·.is slice num) with
    | none => none
    | some w => match s.launches.find w.launch with
      | none => none
      | some l =>
        if !s.placing l then none
        else if l.item then match s.hungryCore w.launch slice with
          | none => none
          | some c => match s.dispense w l with
            | (s, x) => some (s.modCore c fun k => { k with items := k.items ++ (List.range l.nitems).map fun i => (w.launch, x, i) })
        else if l.pers || l.cshape ≠ 0 then none
        else match ((List.range Config.coresPerSlice).map (slice * 384 + ·)).find? fun c => (s.room l c).isSome with
          | none => none
          | some c =>
            if s.outranked l c || !s.poolTakes slice l 1 then none
            else withConstants s w.launch l [c / 4] fun s => match s.room l c, s.walkers.find? (·.is slice num) with
              | some slot, some w => match s.dispense w l with
                | (s, x) => some ((s.addTeam w.launch l c slot none 0 (some x) none).takeTurn l.cycle l.eid)
              | _, _ => none)

/-- Whether the items of a launch are at their end for a core, whose queue is empty (R161, R255): no walker of its slice holds an index, nor a
sealed one, and the core's split request has been refused NORANGE. The end marker is no tile: a soft request does not withhold it. -/
def State.itemsOver (s : State) (n : Nat) (l : Launch) (core : Nat) : Bool :=
  (s.walkersOn n (core / 384)).isEmpty && l.sealedW.isEmpty && l.split && l.noRange.contains core

/-- REFILL_ITEM: the oldest REFILL of a core that waits takes the next item, or the end marker when the core's split request has been
refused NORANGE (R161, R256). -/
def execRefillItem (team thread : Nat) (s : State) : Host.Outcome State Fault Refusal :=
  agent s (match s.teams.find team, s.launchOfTeam team with
    | some tm, some l => match s.oldestAsk tm.core tm.launch with
      | none => none
      | some a =>
        let answer : Option (State → State) :=
          if a.tid ≠ .simt team thread || l.error.isSome then none
          else if (takeItem tm.launch (s.core tm.core).items).isSome then some fun s => (s.giveItem a.tid tm.launch a.dst).getD s
          else if s.itemsOver tm.launch l tm.core then some fun s => { s with th := { s.th with
              results := s.th.results ++ (if a.dst < 0x7C then [⟨a.dst, 0xFFFFFFFF, 0⟩] else []) } }
          else none
        answer.map fun f => s.onThread a.tid fun s => s.wakeFrom ((f s).dropAsk tm.core a)
    | _, _ => none)

/-- Writes a mailbox and counts its 16 bytes (R163). -/
def State.mailbox (s : State) (team : Nat) (t : Team) (eid : Nat) (r : FetchReq) (ws : List Word) : State :=
  let s := s.modTeam team fun t => { t with
    fetches := t.fetches.erase r
    store := t.store.write r.mbox (ws.flatMap fun w => leBytes 4 w.toNat) }
  match s.handle (.team team) eid (.ofNat 32 r.bar) with
  | none => s.endLaunch t.launch (trapError .barfault)
  | some (b, _) => (s.engineCount b 16 0).getD (s.endLaunch t.launch (trapError .barfault))

/-- FETCHW_SERVE: the oldest request of a team receives a tile, the stop marker or the exhausted marker, which every later request then
receives too; without a walker to serve it the request first makes a split request (R163, R256). -/
def execFetchwServe (team : Nat) (s : State) : Host.Outcome State Fault Refusal :=
  agent s (match s.teams.find team, s.launchOfTeam team with
    | some t, some l => match t.fetches with
      | [] => none
      | r :: _ =>
        let soft := match s.encls.find l.eid with
          | some e => e.soft
          | none => none
        let exhausted : State := (s.modTeam team fun t => { t with spent := true }).mailbox team t l.eid r [0xFFFFFFFF, 0, 0, 0]
        if l.error.isSome then none
        else if t.stopped || soft.any (fun x => x.cores.contains t.core) then
          some ((s.modTeam team fun t => { t with stopped := true }).mailbox team t l.eid r [0xFFFFFFFE, 0, 0, 0])
        else if t.spent then some exhausted
        else match s.servingWalker t with
          | some w =>
            if s.stoppedDispensing l then none
            else match s.dispense w l with
              | (s, x) =>
                let x := (List.range 4).map fun d => if l.rank ≤ d then 0 else x.getD d 0
                some ((s.modTeam team fun t => { t with serving := some (w.slice, w.num) }).mailbox team t l.eid r x)
          | none =>
            if !s.stoppedDispensing l && (!l.split || l.noRange.contains t.core) then some exhausted
            else s.askSplit t.launch l t.core (l.split && !l.noRange.contains t.core && !l.retry.any (·.1 = t.core))
    | _, _ => none)

/-! Completion (R244, R259-R261) -/

/-- LAUNCH_COMPLETE (R259). -/
def execLaunchComplete (n : Nat) (s : State) : Host.Outcome State Fault Refusal :=
  agent s (match s.launches.find n with
    | none => none
    | some l =>
      if l.error.isSome || l.waits.isSome || !l.splits.isEmpty || s.walkers.any (·.launch = n) || !l.sealedW.isEmpty || l.doneT + l.credit ≠ l.total
          || s.teams.any (·.2.launch = n) || (match s.encls.find l.eid with
            | some e => e.images.any fun i => i.team.launch = n
            | none => false) then none
      else s.finishLaunch n l)

/-- Everything of a launch that has ended with an error is dropped (R244, steps 2-5). -/
def State.dropLaunch (s : State) (n : Nat) (l : Launch) : State :=
  let s : State := { s with
    walkers := s.walkers.filter (·.launch ≠ n)
    cores := s.cores.map fun c => (c.1, { c.2 with items := c.2.items.filter (·.1 ≠ n) }) }
  let s := (s.modLaunch n fun l => { l with sealedW := [], splits := [], retry := [], consts := [] }).modEncl l.eid fun e => { e with
    images := e.images.filter fun i => i.team.launch ≠ n }
  (s.teams.filter fun p => p.2.launch = n).foldl (fun s p => s.endTeam p.1) s

/-- TERMINAL_TRAP_END (R244, R245): the teams go as soon as what they have issued is done, and then the launch is complete. -/
def execTerminalTrapEnd (n : Nat) (s : State) : Host.Outcome State Fault Refusal :=
  agent s (match s.launches.find n with
    | none => none
    | some l =>
      let standing := s.teams.any (·.2.launch = n) || s.walkers.any (·.launch = n)
      if l.error.isNone || (l.waits.isSome && !standing) then none
      else
        let s := (s.dropLaunch n l).settleBusy
        some (if s.teams.any (·.2.launch = n) then s else (s.finishLaunch n l).getD s))

end Sys2Proof.Machine
end

