-- ==== Sys2Proof/Machine/Queues.lean ====
section
/-! DEFINITION. SIMT queues and the command processor: taking kicks, reading records, starting launches, completing marks, and the
quiescent command boundary (R246, R247, R250, R338-R350, R386). -/

namespace Sys2Proof.Machine

/-! Reading an entry (R246, R247, R344, R346) -/

/-- The space of a queue. -/
def SimtQ.space (q : SimtQ) : Space := ⟨q.guest, .ofNat 16 q.owner, 0⟩

def wordsOf : List Byte → List Word
  | a :: b :: c :: d :: t => .ofNat 32 (leNat [a, b, c, d]) :: wordsOf t
  | _ => []

/-- A launch from the words of its record. -/
def recordOf (q : SimtQ) (qn seq : Nat) (words : List Word) : Launch :=
  { words := words, eid := q.owner, guest := q.guest, lead := qn / 256, queue := qn, seq := seq }

/-- MBAR of a mark block. -/
def markBar (words : List Word) : Nat := (words.getD 8 0).toNat % 256

/-- Whether a mark block is malformed (R344). -/
def badMark (words : List Word) : Bool := (words.getD 8 0).toNat / 256 ≠ 0 || markBar words < 192

/-- The dependence list from its bytes; none for a reserved bit or a handle below 192 (R247). -/
def depsOf : Nat → List Byte → Option (List (Nat × Word))
  | 0, _ => some []
  | n + 1, bs =>
    let v := leNat (bs.take 8)
    if v / 256 % 2 ^ 24 ≠ 0 || v % 256 < 192 then none
    else (depsOf n (bs.drop 8)).map fun r => (v % 256, .ofNat 32 (v / 2 ^ 32)) :: r

/-- Reads the dependence list of a launch's entry, and makes the check of R346 at the take. -/
def readDeps (s : State) (q : SimtQ) (qn : Nat) (e : Entry) : State × Entry :=
  let l := recordOf q qn e.seq e.words
  if l.depn = 0 then (s, { e with deps := some [] })
  else match cpRead s (qn / 256) q.space 2 l.deps (8 * l.depn) with
    | .ok s bs => match depsOf l.depn bs with
      | none => (s, { e with deps := some [], error := some 0x201 })
      | some ds =>
        let ok := ds.all fun d => (match s.encls.find q.owner with
          | some x => x.barPage.isSome
          | none => false) && (s.bar (.ctx q.owner d.1)).valid
        (s, { e with deps := some ds, error := if ok then none else some 0x112 })
    | .wait s link => (s, { e with heldOn := some link })
    | .held => (s, e)
    | .bad s => (s, { e with deps := some [], error := some 0x204 })

/-- Reads what an entry names, as far as it has not been read (R344). -/
def readEntryOf (s : State) (q : SimtQ) (qn : Nat) (e : Entry) : State × Entry :=
  if e.words.isEmpty then
    match cpRead s (qn / 256) q.space 2 e.va.toNat 128 with
    | .wait s link => (s, { e with heldOn := some link })
    | .held => (s, e)
    | .bad s => (s, { e with deps := some [], error := some 0x204, blind := true })
    | .ok s bs =>
      let ws := wordsOf bs
      let e := { e with words := ws }
      if e.mark then (s, { e with deps := some [], error := if badMark ws then some 0x201 else none })
      else if !(recordOf q qn e.seq ws).wellFormed then (s, { e with deps := some [], error := some 0x201 })
      else readDeps s q qn e
  else readDeps s q qn e

/-- Whether an entry has still something to be read, and is not held on a record. -/
def Entry.unread (e : Entry) : Bool := e.error.isNone && (e.words.isEmpty || e.deps.isNone) && e.heldOn.isNone

def State.setEntry (s : State) (qn : Nat) (e : Entry) : State :=
  match s.queues.find qn with
  | some q => { s with queues := s.queues.put qn { q with entries := q.entries.map fun x => if x.seq = e.seq then e else x } }
  | none => s

def State.dropEntry (s : State) (qn seq : Nat) (sig : Sig) : State :=
  match s.queues.find qn with
  | some q => { s with queues := s.queues.put qn { q with entries := q.entries.filter (·.seq ≠ seq), sig := q.sig ||| sig } }
  | none => s

/-- The read of an entry that has something to be read, unless a held line lets nothing of it be read now. -/
def readsOn (s : State) (q : SimtQ) (qn : Nat) (e : Entry) : Option State :=
  match readEntryOf s q qn e with
  | (s', e') => if e' = e then none else some (s'.setEntry qn e')

/-- The first read of a queue's entries that can be made. -/
def readsNext (s : State) (q : SimtQ) (qn : Nat) : Option State :=
  q.entries.findSome? fun e => if e.unread then readsOn s q qn e else none

/-- KICK_TAKE (R342, R344): an entry whose record is answered is read again; otherwise the oldest held kick is taken, with the next
sequence number, and what it names is read. An entry that waits lets later kicks be taken. -/
def execKickTake (slice queue : Nat) (s : State) : Host.Outcome State Fault Refusal :=
  agent s (
    let qn := 256 * slice + queue
    if s.paused.contains slice || 256 ≤ queue then none
    else match s.queues.find qn with
      | none => none
      | some q => match readsNext s q qn with
        | some s => some s
        | none => match q.held with
          | [] => none
          | (i, v) :: rest =>
            if 256 ≤ q.occ then none
            else
              let e : Entry := ⟨q.seq + 1, v.getLsbD 0, v &&& ~~~(0x7F : Dword), [], none, none, false, false, none, false⟩
              let s := { s with queues := s.queues.put qn { q with seq := q.seq + 1, held := rest, entries := q.entries ++ [e] } }
              let s := s.onThread i fun s => s.wakeFrom { s with th := { s.th with kick := none } }
              match readEntryOf s q qn e with
              | (s, e) => some (s.setEntry qn e))

/-! Starting (R250, R345, R348, R386) -/

/-- Places the walkers of a launch on the slices of its partition in order (R250): none when too few are free. -/
def placeWalkers (s : State) (l : Launch) (n : Nat) (slices : List Nat) :
    List Nat → List Walker → List (Nat × Nat) → Option (List Walker)
  | [], ws, _ => some ws
  | k :: rest, ws, busy =>
    let t := l.total
    let lo := k * t / l.walkers
    let hi := (k + 1) * t / l.walkers
    if hi ≤ lo then placeWalkers s l n slices rest ws busy
    else
      let order := (List.range slices.length).map fun j => slices.getD ((k + j) % slices.length) 0
      match order.findSome? fun x => (freeWalker s busy x).map fun f => (x, f) with
      | none => none
      | some p => placeWalkers s l n slices rest (ws ++ [⟨p.1, p.2, n, lo, hi, 0⟩]) (busy ++ [p])

/-- The head of a queue: its first entry that has not started. -/
def SimtQ.head (q : SimtQ) : Option Entry := q.entries.find? fun e => !e.begun

/-- Whether the entry before this one in its queue has completed. -/
def SimtQ.previousDone (q : SimtQ) (seq : Nat) : Bool := q.entries.all fun e => e.seq + 1 ≠ seq

/-- The walkers of a launch's entry when it can start now (R345, R386). -/
def startable (s : State) (q : SimtQ) (qn : Nat) (e : Entry) : Option (List Walker) :=
  let l := recordOf q qn e.seq e.words
  let depsDone := (e.deps.getD []).all fun d => (s.bar (.ctx q.owner d.1)).complete d.2
  let pool := match s.poolFree l.lead with
    | some f => decide (1 ≤ f)
    | none => false
  let live := match s.encls.find q.owner with
    | some x => !x.failed && !x.halted
    | none => false
  if e.error.isSome || e.mark || e.deps.isNone || e.heldOn.isSome || !depsDone || (l.serial && !q.previousDone e.seq) || !pool || !live then
    none
  else placeWalkers s l s.serial (s.partSlices l.lead) (List.range l.walkers) [] s.busyWalkers

/-- The priority at which a queue's head can start, if it can (R348): marks count as 7. -/
def State.headPri (s : State) (qn : Nat) (q : SimtQ) : Option Nat :=
  if q.stopped || s.cpStopped (qn / 256) then none else match q.head with
    | none => none
    | some e =>
      if e.mark then (if e.heldOn.isSome || e.unread then none else some 7)
      else if (startable s q qn e).isSome then some (recordOf q qn e.seq e.words).pri else none

/-- Whether a queue of the same lead slice goes before one whose head can start at `pri` (R348): its head can start at a higher PRI, or at
the same one in a queue of the same enclave with a lower number; or it is another enclave's turn. -/
def State.queueBefore (s : State) (qn : Nat) (q : SimtQ) (pri : Nat) : Bool :=
  let mine := s.queues.filter (·.1 / 256 = qn / 256)
  (mine.any fun p => match s.headPri p.1 p.2 with
    | some x => decide (pri < x) || (x = pri && p.2.owner = q.owner && p.1 < qn)
    | none => false)
  || s.notTurn (16 * (qn / 256) + pri) q.owner ((mine.filter fun p => s.headPri p.1 p.2 = some pri).map (·.2.owner))

/-- An entry that failed before it started completes at the head of its queue (R247): signal, then count. While its signal waits on a record it
has left the head: it has started (R345), and completes when the record is answered. -/
def State.failEntry (s : State) (q : SimtQ) (qn : Nat) (e : Entry) : Option State :=
  if e.blind then some (s.dropEntry qn e.seq 0)
  else
    let l := recordOf q qn e.seq e.words
    let now := s.timestamp q.owner false
    let done (s : State) (sig : Sig) : State := (if l.cbar = 255 then s else s.countHandle l.lead q.space l.cbar sig).dropEntry qn e.seq 0
    if l.signal = 0 || e.mute then some (done s 0)
    else match writeSignal s l.lead q.space l.signal (signalBytes e.seq now now (e.error.getD 0) 0) 0 with
      | .ok s _ => some (done s (sigOf (l.signal / 128)))
      | .bad s => some (done s 0)
      | .wait s link => some (s.setEntry qn { e with heldOn := some link, begun := true })
      | .held => none

/-- An entry that has failed and whose signal no longer waits. -/
def SimtQ.failing (q : SimtQ) : Option Entry := q.entries.find? fun e => e.begun && !e.mark && e.error.isSome && e.heldOn.isNone

/-- Starts a launch with its walkers; those whose indices are all skipped are exhausted at once. -/
def State.startLaunch (s : State) (q : SimtQ) (qn : Nat) (e : Entry) (ws : List Walker) : State :=
  let n := s.serial
  let l := recordOf q qn e.seq e.words
  let s := { s with serial := n + 1, launches := s.launches.put n l }
  (ws.foldl (fun s w => s.putWalker (w.pass l)) s).setEntry qn { e with begun := true }

/-- ENTRY_START: the head of a queue starts, or completes with the error it already has. A head at lower PRI waits behind one at
higher PRI that can start. -/
def execEntryStart (slice queue : Nat) (s : State) : Host.Outcome State Fault Refusal :=
  agent s (
    let qn := 256 * slice + queue
    if s.paused.contains slice || 256 ≤ queue || !partEn (s.part slice) then none
    else match s.queues.find qn with
      | none => none
      | some q =>
        if q.stopped || s.cpStopped slice then none else match q.failing, q.head with
        | some e, _ => s.failEntry q qn e
        | none, none => none
        | none, some e =>
          if e.heldOn.isSome then none
          else if e.unread then match readEntryOf s q qn e with
            | (s, e) => some (s.setEntry qn e)
          else if e.mark then
            (if s.queueBefore qn q 7 then none
            else
              let s := s.takeTurn (16 * slice + 7) q.owner
              if e.blind then some (s.dropEntry qn e.seq 0) else some (s.setEntry qn { e with begun := true }))
          else if e.error.isSome then s.failEntry q qn e
          else match startable s q qn e with
            | none => none
            | some ws =>
              let pri := (recordOf q qn e.seq e.words).pri
              if s.queueBefore qn q pri then none else some ((s.startLaunch q qn e ws).takeTurn (16 * slice + pri) q.owner))

/-! Marks (R347) -/

/-- MARK_COMPLETE: after every earlier entry of its queue, a mark writes its signal and makes its count, whose signature names
the signal's line too (R151). -/
def execMarkComplete (slice queue seq : Nat) (s : State) : Host.Outcome State Fault Refusal :=
  agent s (
    let qn := 256 * slice + queue
    match s.queues.find qn with
    | none => none
    | some q => match q.entries.find? (·.seq == seq) with
      | none => none
      | some e =>
        if !e.mark || !e.begun || e.heldOn.isSome || s.paused.contains slice || q.stopped || s.cpStopped slice || q.entries.any (·.seq < seq) then none
        else
          let now := s.timestamp q.owner false
          let h := markBar e.words
          let done (s : State) (sig : Sig) : State :=
            (if 192 ≤ h && h ≤ 254 then s.countHandle slice q.space h sig else s).dropEntry qn seq 0
          if e.mute then some (done s q.sig)
          else match writeSignal s slice q.space e.va.toNat (signalBytes seq now now (e.error.getD 0) 0) q.sig with
            | .ok s _ => some (done s (q.sig ||| sigOf (e.va.toNat / 128)))
            | .bad s => some (done s q.sig)
            | .wait s link => some (s.setEntry qn { e with heldOn := some link })
            | .held => none)

/-! The quiescent boundary (R350) -/

/-- QUIESCE_REQUEST. -/
def execQuiesceRequest (slice : Nat) (s : State) : Host.Outcome State Fault Refusal :=
  agent s (if s.paused.contains slice || !partEn (s.part slice) then none else some { s with paused := slice :: s.paused })

/-- QUIESCE_RELEASE. -/
def execQuiesceRelease (slice : Nat) (s : State) : Host.Outcome State Fault Refusal :=
  agent s (if s.paused.contains slice then some { s with paused := s.paused.filter (· ≠ slice) } else none)

end Sys2Proof.Machine
end

