-- ==== Sys2Proof/Machine/Contexts.lean ====
section
/-! DEFINITION. Partitions and the pre-emption ladder: soft requests, forced halts, kills, sealing and restoring contexts, quads and
blocks in and out of service, and the copy engines' owners (R257, R258, R287, R378-R392, R397, R398, R460). -/

namespace Sys2Proof.Machine

/-! The teams of a context -/

/-- The resident teams of a context. -/
def State.contextTeams (s : State) (eid : Nat) : List (Nat × Team) := s.teams.filter fun p => s.eidOfTeam p.1 = eid

/-- The context's teams on some cores, with the other members of their clusters (R388). -/
def State.namedTeams (s : State) (eid : Nat) (onCore : Nat → Bool) : List (Nat × Team) :=
  let mine := s.contextTeams eid
  let there := mine.filter fun p => onCore p.2.core
  mine.filter fun p => onCore p.2.core || (p.2.cluster.isSome && there.any fun q => q.2.cluster = p.2.cluster)

/-- Every SIMT core of a partition. -/
def State.partCores (s : State) (lead : Nat) : List Nat :=
  (s.partSlices lead).flatMap fun k => (List.range Config.coresPerSlice).map (k * 384 + ·)

/-! Soft requests (R383, R385) -/

/-- A soft request has been met when no team of the context remains on the named cores, and after a halt of the whole context no line of it
in an L1 and no thread of it on a host core (R282, R384). -/
def State.softMet (s : State) (eid : Nat) (e : Encl) (x : Soft) : Bool :=
  !((s.contextTeams eid).any fun p => x.cores.contains p.2.core)
    && !(e.halted && (s.lines.any (·.sp.eid.toNat = eid) || s.hosts.any fun h => h.2.entered.any (·.1 = eid)))

/-- The soft request ends when it has been met; a PREEMPT that asked for it is no longer busy. -/
def State.endSoft (s : State) (eid : Nat) : State :=
  match s.encls.find eid with
  | none => s
  | some e => match e.soft with
    | none => s
    | some x =>
      if !s.softMet eid e x then s
      else
        let s := s.modEncl eid fun e => { e with soft := none }
        if s.reg.preempt.toNat % 65536 = eid then { s with reg := { s.reg with preBusy := false } } else s

/-- The earlier of two deadlines. -/
def earlier (a b : Option Nat) : Option Nat :=
  match a, b with
  | some x, some y => some (Nat.min x y)
  | some x, none => some x
  | none, y => y

/-- Two requests for one context combine: the union of the cores and the earlier deadlines. -/
def Soft.join (x : Option Soft) (cores : List Nat) (g1 : Nat) (g2 : Option Nat) : Soft :=
  match x with
  | some x => { cores := (x.cores ++ cores).dedup, g1 := Nat.min x.g1 g1, g2 := earlier x.g2 g2 }
  | none => { cores := cores, g1 := g1, g2 := g2 }

/-- A soft request for a context, with the deadlines of the partition that holds its queues. -/
def State.softRequest (s : State) (eid : Nat) (cores : List Nat) : State :=
  match s.encls.find eid with
  | none => s
  | some e =>
    let p := (s.part e.lead).toNat
    let g1 := s.ns + p / 2 ^ 32 % 65536 * 1000
    let g2 := s.ns + p / 2 ^ 48 * 1000
    (s.modEncl eid fun e => { e with soft := some (Soft.join e.soft cores g1 (some g2)) }).endSoft eid

/-- Soft requests for the contexts that have a team on some cores. -/
def State.softOn (s : State) (cores : List Nat) : State :=
  (((s.teams.filter fun p => cores.contains p.2.core).map fun p => s.eidOfTeam p.1).dedup).foldl
    (fun s eid => s.softRequest eid cores) s

/-! Sealing (R76, R161, R164, R257, R287, R384, R386) -/

/-- The lines of a context on some cores. -/
def Line.ofEid (l : Line) (eid : Nat) (on : Nat → Bool) : Bool := on l.core && l.sp.eid.toNat = eid

/-- Whether a team can be sealed now: every issued REFILL has written its register (R161), every FETCHW has written its mailbox (R164), every
granted pass has updated its tile, no atomic, access that only reaches memory late, scratchpad movement, B read or add-on-store that has taken
a line is under way, and no atomic unit holds a line that must be written back. -/
def State.sealable (s : State) (n : Nat) (t : Team) : Bool :=
  let q := s.quad (quadOf t.core)
  t.fetches.isEmpty && (s.core t.core).asks.all (fun a => !ofTeam n a.tid)
    && s.drains.all (fun d => d.team ≠ n || d.taken.isEmpty)
    && !s.waitsForHold (·.ofEid (s.eidOfTeam n) (· = t.core))
    && s.log.all (fun e => !ofTeam n e.tid || e.link ≠ 0)
    && s.moves.all (·.team ≠ n) && s.atomQ.all (fun r => !ofTeam n r.tid)
    && q.table.all (fun p => p.team ≠ n || p.grant.isNone)
    && q.bufs.all (fun b => b.ready || match s.ops.find b.op with
      | some o => decide (o.team ≠ n)
      | none => true)

/-- The held kick stores of a team's threads are withdrawn, and are their restart points (R343). -/
def State.withdrawTeam (s : State) (n : Nat) : State :=
  (s.allThreads.filter fun p => ofTeam n p.1 && p.2.kick.isSome).foldl (fun s p => match s.withdrawKick p.1 p.2.w with
    | (s, w) => s.modThread p.1 fun t => { t with w := w, wait := .none }) s

/-- A thread as its team's image keeps it: every result written, its pending signature and its waits, no gathered set (R76, R282). -/
def Thread.sealSimt (t : Thread) : Thread := { t.complete with gathered := 0, fetch := none, stuck := none }

/-- Channels as an image keeps them: unbound, at their cursors (R297). -/
def sealChans (c : Tab Chan) : Tab Chan := c.map fun p => (p.1, { p.2 with phys := none })

/-- What frames hold: their numbers, the bytes listed and the lines whose tags fail. -/
def State.framesHold (s : State) (frames : List Nat) : List Nat × List Host.Cell × List Nat :=
  (frames, s.mem.filter fun c => frames.contains (c.1 / 4096), s.badTags.filter fun l => frames.contains (l / 64))

/-- The frames that images lie in. -/
def State.imageFramesTaken (s : State) : List Nat :=
  (s.encls.flatMap fun e => e.2.images.flatMap fun i => i.pool.1) ++ s.launches.flatMap fun l => match l.2.image with
    | some i => i.1
    | none => []

/-- The frames of an image in a slice's pool: the lowest that no other image takes (DESIGN CHOICE, assumption 47). None in a pool that is not
enabled. -/
def State.imagePool (s : State) (slice n : Nat) : List Nat :=
  let v := (s.svpool slice).toNat
  let taken := s.imageFramesTaken
  if v % 2 = 0 then [] else ((List.range' (v / 2 ^ 21 * 512) (taken.length + n)).filter fun f => !taken.contains f).take n

/-- Writes an image into its frames: what stands there is sealed with AES-256-GCM, and is any value (R386). -/
def State.writeImage (s : State) (frames : List Nat) : State :=
  frames.foldl (fun s f => (s.homeWrite (f * 4096) ((List.range 4096).map fun i => .ofNat 8 (s.free (2 ^ 28 + i)).toNat)).freshen) s

/-- The halt count and the digest of the images as thread 0's save page holds them at 4,032-4,095 (R386, assumption 47). -/
def haltBytes (halts : Nat) (digest : BitVec 256) : List Byte := leBytes 8 halts ++ leBytes 32 digest.toNat ++ List.replicate 24 0

/-- A new digest of the context's images, which depends on their tags: any value. -/
def State.newDigest (s : State) (eid : Nat) : State :=
  let d : BitVec 256 := (List.range 8).foldl (fun d k => d <<< 32 ||| (s.free (2 ^ 29 + k)).setWidth 256) 0
  match s.encls.find eid with
  | none => s
  | some e =>
    let s : State := match e.savePas with
      | pa :: _ => s.homeWrite (pa + 4032) (haltBytes e.halts d)
      | [] => s
    (s.modEncl eid fun e => { e with digest := some d }).freshen

/-- The image of a team (Table 20.2); the last team of its launch on a core takes the core's items of the launch with it. -/
def State.teamImage (s : State) (n : Nat) (t : Team) : TeamImage :=
  let q := s.quad (quadOf t.core)
  let own (op : Nat) : Bool := match s.ops.find op with
    | some o => decide (o.team = n)
    | none => false
  let more := s.teams.any fun p => p.1 ≠ n && p.2.core = t.core && p.2.launch = t.launch
  { num := n
    team := { t with store := { t.store with chans := sealChans t.store.chans } }
    threads := (s.allThreads.filter fun p => ofTeam n p.1).map fun p => (match p.1 with
      | .simt _ i => i
      | .host i => i, p.2.sealSimt)
    ops := s.ops.filter fun o => o.2.team = n
    passes := (q.table ++ q.waiting).filter (·.team = n)
    bufs := (q.bufs ++ q.spare).filter fun b => own b.op
    reads := q.reads.filter fun r => own r.1
    log := s.log.filter fun e => ofTeam n e.tid
    drains := s.drains.filter (·.team = n)
    items := if more then [] else (s.core t.core).items.filter (·.1 = t.launch) }

/-- Seals a team: the context's L1 lines of its core go home and go, the image enters the slice's pool, and the team leaves its core. -/
def State.sealTeam (s : State) (eid n : Nat) : State :=
  let s := s.withdrawTeam n
  match s.teams.find n with
  | none => s
  | some t =>
    let s := s.evictLines (·.ofEid eid (· = t.core))
    let img := s.teamImage n t
    let frames := s.imagePool (sliceOf t.core) (match s.launches.find t.launch with
      | some l => l.imageFrames
      | none => 0)
    let s := s.writeImage frames
    let img := { img with pool := s.framesHold frames }
    let s := if img.items.isEmpty then s
      else s.modCore t.core fun c => { c with items := c.items.filter (·.1 ≠ t.launch) }
    ((s.dropTeam n).modEncl eid fun e => { e with images := e.images ++ [img] }).newDigest eid

/-- Seals a launch's image in the lead slice's pool, where it has none (R386). -/
def State.sealLaunch (s : State) (n : Nat) : State :=
  match s.launches.find n with
  | none => s
  | some l =>
    if l.image.isSome then s else
    let frames := s.imagePool l.lead 1
    let s := s.writeImage frames
    s.modLaunch n fun l => { l with image := some (s.framesHold frames) }

/-- The walkers of the context's launches are sealed with the launches' images and freed, and the launches are marked pre-empted (R257, R258). -/
def State.sealWalkers (s : State) (eid : Nat) : State :=
  let mine (n : Nat) : Bool := match s.launches.find n with
    | some l => l.eid = eid
    | none => false
  let ls := (s.launches.filter fun p => p.2.eid = eid && p.2.image.isNone).map (·.1)
  let s := if ls.isEmpty then s else (ls.foldl State.sealLaunch s).newDigest eid
  { s with
    walkers := s.walkers.filter fun w => !mine w.launch
    launches := s.launches.map fun p => if p.2.eid = eid then
        (p.1, { p.2 with
          pre := true
          sealedW := p.2.sealedW ++ (s.walkers.filter (·.launch = p.1)).map fun w => (w.cur, w.fin, w.skip) })
      else p }

/-- The teams of a halt that can be sealed now: a cluster is sealed whole, and a team, or a cluster all of whose teams are done, is not
sealed. -/
def State.toSeal (s : State) (ts : List (Nat × Team)) : List (Nat × Team) :=
  ts.filter fun p => match p.2.cluster with
    | none => s.sealable p.1 p.2 && !s.teamDone p.1 p.2
    | some c => (s.teams.all fun q => q.2.cluster ≠ some c || s.sealable q.1 q.2)
        && s.teams.any fun q => q.2.cluster = some c && !q.2.done && !s.teamDone q.1 q.2

/-- The lines of a context leave some cores, once no atomic unit holds one that must be written back (R282). -/
def State.haltLines (s : State) (eid : Nat) (on : Nat → Bool) : State :=
  if s.waitsForHold (·.ofEid eid on) then s else s.evictLines (·.ofEid eid on)

/-- The copies of an enclave thread leave its host core's channels and are sealed with it, unbound, at their cursors; a copy engine that they
leave may change its owner (R293, R297). -/
def State.sealHostChans (s : State) (n eid idx : Nat) : State :=
  let c := (s.hostCore n).store.chans
  let mine (x : Copy) : Bool := x.sp.eid.toNat = eid
  let kept := (c.filter fun p => p.2.queue.any mine).map fun p => (p.1, { p.2 with queue := p.2.queue.filter mine })
  let rest := c.map fun p => (p.1, if p.2.queue.any mine then { p.2 with queue := p.2.queue.filter (!mine ·), phys := none } else p.2)
  if kept.isEmpty then s
  else ((s.modHost n fun h => { h with store := { h.store with chans := rest } }).modEncl eid fun e => { e with
    chans := e.chans.put idx (sealChans kept) }).settleCeown

/-- Every entered host thread of an enclave leaves with NUM 0, sealed or not (R384, R385). One that is to be sealed leaves when its accesses
have returned (R76). -/
def State.exitHosts (s : State) (eid : Nat) (sealIt : Bool) : State :=
  (List.range Config.hosts).foldl (fun s n => match (s.hostCore n).entered with
    | some (x, idx) => if x = eid && !(sealIt && s.unreturned (.host n)) then match s.thread? (.host n) with
        | some t => (if sealIt then s.sealHostChans n eid idx else s).asyncExit n 0 sealIt t.w
        | none => s
      else s
    | none => s) s

/-- The forced halt of a context on the cores that its request names: as much of it as can be done now (R384). Held kick stores are withdrawn
(R343). The walkers are sealed once no FETCHW of the teams there is outstanding (R164). -/
def State.forceHalt (s : State) (eid : Nat) : State :=
  match s.encls.find eid with
  | none => s
  | some e => match e.soft with
    | none => s
    | some x =>
      let ts := s.namedTeams eid x.cores.contains
      let s := if e.halted then s.exitHosts eid true else s
      let s := s.haltLines eid fun c => e.halted || x.cores.contains c
      let first := !ts.isEmpty && ts.all fun p => !p.2.halting
      let s := ts.foldl (fun s p => (s.withdrawTeam p.1).modTeam p.1 fun t => { t with halting := true }) s
      let s := if ts.all fun p => p.2.fetches.isEmpty then s.sealWalkers eid else s
      let s := s.modEncl eid fun e => { e with tsaved := some (s.timestamp eid false), halts := if first then e.halts + 1 else e.halts }
      ((s.toSeal ts).foldl (fun s p => s.sealTeam eid p.1) s).endSoft eid

/-- TSV stands still from now on (R398). -/
def Encl.stopTsv (e : Encl) (now : Nat) : Encl := { e with tsvBase := e.tsv now, tsvAt := none }

/-- The halt of a whole context (R384, R398, R460). -/
def State.haltContext (s : State) (eid : Nat) : State :=
  match s.encls.find eid with
  | none => s
  | some x =>
    let s := (s.modEncl eid fun e => { e.stopTsv s.ns with
      halted := true, soft := some (Soft.join e.soft (s.partCores x.lead) s.ns none) })
    s.forceHalt eid

/-- A halt by PREEMPT with ACT 2 or by a notice's deadline, which an ACT 0 ends (R460). -/
def State.orderHalt (s : State) (eid : Nat) : State := (s.modEncl eid fun e => { e with ordered := true }).haltContext eid

/-- Whether a checkpoint or a migration has halted a context and holds it so (R431, R441, R460). -/
def State.ckHolds (s : State) (eid : Nat) (e : Encl) : Bool := e.stay || e.migr.isSome || s.ckJobs.any fun j => j.eid = eid && j.began

/-- The kill of a context on the cores that its request names (R385). -/
def State.killNamed (s : State) (eid : Nat) : State :=
  match s.encls.find eid with
  | none => s
  | some e => match e.soft with
    | none => s
    | some x => (s.killTeams eid x.cores.contains).endSoft eid

/-! PREEMPT (R383-R385, R460) -/

/-- A write of PREEMPT that is not ignored. -/
def State.notePreempt (s : State) (act : Nat) (eid : BitVec 16) (busy : Bool) : State :=
  { s with reg := { s.reg with preempt := .ofNat 18 (act * 65536 + eid.toNat), preBusy := busy } }

/-- The enclave that a write of PREEMPT names, unless the write is ignored. -/
def State.preemptee (s : State) (eid : BitVec 16) : Option Encl := if s.reg.preBusy then none else s.liveEncl eid.toNat

/-- OFFR at a restore (R397). -/
def State.restoreClock (s : State) (eid : Nat) : State :=
  s.modEncl eid fun e => match e.tsaved with
    | some t => { e with offr := Nat.max e.offr (t + 1 - s.ns) }
    | none => e

/-- The end of the halt of a whole context: TSV runs again, but not while the enclave is FAILED (R398). -/
def State.resumeContext (s : State) (eid : Nat) : State :=
  (s.modEncl eid fun e => { e with halted := false, tsvAt := if e.failed then none else some s.ns }).restoreClock eid

/-- PREEMPT_RESUME: a checkpoint or a migration that runs, or one that left the context halted, keeps it halted. -/
def execPreemptResume (eid : BitVec 16) (s : State) : Host.Outcome State Fault Refusal :=
  agent s (match s.preemptee eid with
    | none => none
    | some e =>
      if !e.ordered then none
      else
        let t := (s.notePreempt 0 eid false).modEncl eid.toNat fun e => { e with ordered := false }
        some (if s.ckHolds eid.toNat e then t else t.resumeContext eid.toNat))

/-- PREEMPT_SOFT. -/
def execPreemptSoft (eid : BitVec 16) (s : State) : Host.Outcome State Fault Refusal :=
  agent s ((s.preemptee eid).map fun e => (s.notePreempt 1 eid true).softRequest eid.toNat (s.partCores e.lead))

/-- PREEMPT_HALT. -/
def execPreemptHalt (eid : BitVec 16) (s : State) : Host.Outcome State Fault Refusal :=
  agent s ((s.preemptee eid).map fun _ => (s.notePreempt 2 eid true).orderHalt eid.toNat)

/-- PREEMPT_KILL. -/
def execPreemptKill (eid : BitVec 16) (s : State) : Host.Outcome State Fault Refusal :=
  agent s ((s.preemptee eid).map fun _ =>
    ((((s.notePreempt 3 eid true).killTeams eid.toNat fun _ => true).exitHosts eid.toNat false).endSoft eid.toNat).settleBusy)

/-! Deadlines -/

/-- SOFT_REQUEST_END. -/
def execSoftRequestEnd (eid : Nat) (s : State) : Host.Outcome State Fault Refusal :=
  agent s (match s.encls.find eid with
    | some e => match e.soft with
      | some x => if s.softMet eid e x then some (s.endSoft eid) else none
      | none => none
    | none => none)

/-- G1_DEADLINE: the forced halt, and what is left of it. -/
def execG1Deadline (eid : Nat) (s : State) : Host.Outcome State Fault Refusal :=
  agent s (match s.encls.find eid with
    | some e => match e.soft with
      | some x => if x.g1 ≤ s.ns && (e.halted || (s.contextTeams eid).any fun p => x.cores.contains p.2.core) then some (s.forceHalt eid) else none
      | none => none
    | none => none)

/-- G2_DEADLINE: the kill of what the halt has not sealed. -/
def execG2Deadline (eid : Nat) (s : State) : Host.Outcome State Fault Refusal :=
  agent s (match s.encls.find eid with
    | some e => match e.soft with
      | some x => match x.g2 with
        | some g => if g ≤ s.ns && (s.contextTeams eid).any (fun p => x.cores.contains p.2.core) then some (s.killNamed eid) else none
        | none => none
      | none => none
    | none => none)

/-! Time slices (R382) -/

/-- How long a context's teams have stood on a core, by the oldest of them. -/
def State.residence (s : State) (eid core : Nat) : Nat :=
  ((s.contextTeams eid).filter fun p => p.2.core = core).foldl (fun m p => Nat.max m (s.ns - p.2.placed)) 0

/-! Restoring (R258, R287, R387, R397) -/

/-- Places one sealed walker state on the lowest free walker of the partition. -/
def State.placeSealed (s : State) (n lead : Nat) (w : Nat × Nat × Nat) : Option State :=
  (s.partSlices lead).findSome? fun k => (freeWalker s s.busyWalkers k).map fun f =>
    s.putWalker ⟨k, f, n, w.1, w.2.1, w.2.2⟩

/-- Places the sealed walkers of a launch, as many as find a free walker. -/
def State.placeAllSealed (s : State) (n : Nat) (l : Launch) : State :=
  let r := l.sealedW.foldl (fun (r : State × List (Nat × Nat × Nat)) w => match r.1.placeSealed n l.lead w with
    | some s => (s, r.2)
    | none => (r.1, r.2 ++ [w])) (s, [])
  r.1.modLaunch n fun l => { l with sealedW := r.2 }

/-- Makes a thread resident under its number. -/
def State.addThread (s : State) (i : ThreadId) (t : Thread) : State :=
  if i = s.cur then { s with th := t } else { s with threads := dropThread s.threads i ++ [(i, t)] }

/-- A restored thread's wait on a context object: what happened to the object while the thread was sealed. -/
def State.rewake (s : State) (i : ThreadId) (n : Nat) (t : Thread) : State :=
  match t.wait with
  | .barrier (.ctx e h) ph _ _ =>
    let b := s.bar (.ctx e h)
    if !b.valid then s.endLaunch n (trapError .barfault)
    else if b.complete ph then s.wake (.ctx e h) b i
    else s
  | _ => s

/-- Makes a sealed team resident on a core: its entries are posted again, each with the restore clock for its stamp (R287), its buffers as far
as four allow (R286), its logged accesses and fix-ups replay, its threads are ready from now and fetch their words anew (R59). The core's L1
lines of the context and the quad's constant lines of it go, so that no read of it is older than before (R277, R282). -/
def State.restoreTeam (s : State) (l : Launch) (x : TeamImage) (core slot : Nat) : State :=
  let n := x.num
  let first := !(s.teams.any fun p => p.2.core = core && s.eidOfTeam p.1 = l.eid)
  let idle := !s.teams.any fun p => p.2.core = core
  let s := s.evictLines (·.ofEid l.eid (· = core))
  let s := s.modCore core fun c => if idle then { c with ticks := s.clock / 1024 } else c
  let s : State := { s.freshCode core with
    clines := s.clines.filter fun c => !(c.core = core / 4 && c.sp = l.space)
    evcnt := if first then s.evcnt.filter (fun p => p.1 / 8 ≠ core * 65536 + l.eid) else s.evcnt
    teams := s.teams.put n { x.team with
      core := core, slot := slot, halting := false, stopped := false, placed := s.ns
      store := { x.team.store with chans := restoreChans x.team.store.chans } }
    ops := x.ops.foldl (fun t o => t.put o.1 o.2) s.ops
    log := s.log ++ x.log.map fun e => { e with core := core, ready := true }
    drains := s.drains ++ x.drains.map fun d => { d with fix := d.fix.map fun f => (f.1, f.2.1, true), plan := none, began := none } }
  let s := x.threads.foldl (fun s t => s.addThread (.simt n t.1) { t.2 with readyAt := s.time }) s
  let s := if x.items.isEmpty then s else s.modCore core fun c => { c with items := c.items ++ x.items }
  let s := s.modQuad (quadOf core) fun q => postWaiting core 32 { q with
    waiting := q.waiting ++ x.passes.map fun (p : Pass) => { p with core := core, stamp := none, restored := some s.clock }
    reads := q.reads ++ x.reads.map fun r => (r.1, core, r.2.2)
    bufs := q.bufs ++ ((x.bufs.map fun (b : BBuf) => { b with core := core }).take (4 - q.bufs.length))
    spare := q.spare ++ (x.bufs.map fun (b : BBuf) => { b with core := core }).drop (4 - q.bufs.length) }
  let s := s.restamp (quadOf core)
  x.threads.foldl (fun s t => s.rewake (.simt n t.1) x.team.launch t.2) s

/-- The members of a sealed cluster, or a sealed team alone, with the cores that they would take around `core`. -/
def State.restorePlan (s : State) (e : Encl) (x : TeamImage) (l : Launch) (core : Nat) : Option (List (TeamImage × Nat)) :=
  let fits (c : Nat) : Bool := (s.room l c).isSome && !s.waitsForHold (·.ofEid l.eid (· = c)) && (c / 384 = x.team.core / 384 || s.poolTakes (c / 384) l 1)
  match x.team.cluster with
  | none => if fits core then some [(x, core)] else none
  | some k =>
    let slice := core / 384
    let at_ := (List.range 96).find? fun i => meshCore slice (2 * (i / 12)) (2 * (i % 12)) = core
    match at_ with
    | none => none
    | some i =>
      let r := 2 * (i / 12)
      let c := 2 * (i % 12)
      let cores := rectCores l.cshape slice r c
      let members := e.images.filter fun y => y.team.cluster = some k
      if s.rectFits l slice r c && cores.all fits then some (members.map fun y => (y, cores.getD y.team.member core)) else none

/-- Whether an image's tag fails: its frames no longer hold what was sealed there. -/
def State.frameImageFails (s : State) (x : List Nat × List Host.Cell × List Nat) : Bool :=
  s.framesHold x.1 ≠ x || x.1.any fun f => (s.pot f).state = .poisoned

/-- Whether the digest in thread 0's save page fails, or the tag of its line. -/
def State.digestFails (s : State) (e : Encl) : Bool := match e.savePas, e.digest with
  | pa :: _, some d => s.lineBad (pa / 64 + 63) || Memory.bytes s.mem (pa + 4040) 32 ≠ leBytes 32 d.toNat
  | _, _ => false

/-- Places the first sealed team or cluster of a context that fits on a core, once the quads that hold no team of the launch yet have read its
constant segment (R248). The frames of its images are scrubbed (R387). An image that fails its tag, or the digest of the images, is an integrity
failure of the enclave, and nothing of it is loaded (R386). -/
def State.restoreAt (s : State) (eid : Nat) (e : Encl) (core : Nat) : Option State :=
  e.images.findSome? fun x => match s.launches.find x.team.launch with
    | none => none
    | some l => if l.error.isSome then none else (s.restorePlan e x l core).bind fun plan =>
        if s.digestFails e || plan.any fun p => s.frameImageFails p.1.pool then some (s.failEnclave eid)
        else withConstants s x.team.launch l (plan.map (·.2 / 4)).dedup fun s =>
          let s := plan.foldl (fun (s : State) p => match s.room l p.2 with
            | some slot => s.restoreTeam l p.1 p.2 slot
            | none => s) s
          some (((plan.flatMap fun p => p.1.pool.1).foldl State.scrubFrame (s.modEncl eid fun e => { e with
            images := e.images.filter fun y => plan.all fun p => p.1.num ≠ y.num })).newDigest eid)

/-- The sealed walkers of a launch take free walkers; once all have, the frame of its image is scrubbed (R258, R387). -/
def State.restoreWalkers (s : State) (n : Nat) (l : Launch) : State :=
  let s := s.placeAllSealed n l
  match s.launches.find n with
  | some l => if l.sealedW.isEmpty then match l.image with
      | some i => (i.1.foldl State.scrubFrame s).modLaunch n fun l => { l with image := none }
      | none => s
    else s
  | none => s

/-- Whether a context's sealed work may be placed: no halt of the whole context, no soft request, no failure (R460). -/
def Encl.restorable (e : Encl) : Bool := !e.failed && !e.halted && e.soft.isNone && e.migr.isNone

/-- Whether a launch has something to place (R382): an index that a walker of its partition holds, or a sealed team. -/
def State.hasToPlace (s : State) (n : Nat) (l : Launch) : Bool :=
  l.error.isNone && ((s.placing l && (s.partSlices l.lead).any fun k => !(s.walkersOn n k).isEmpty)
    || match s.encls.find l.eid with
      | some e => e.restorable && e.images.any (·.team.launch = n)
      | none => false)

/-- A launch of another context that waits for room, which the core would make. -/
def State.displacer (s : State) (eid core n : Nat) (l : Launch) : Bool :=
  let gone : State := { s with teams := s.teams.filter fun p => p.2.core ≠ core || s.eidOfTeam p.1 ≠ eid }
  l.eid ≠ eid && s.hasToPlace n l && (s.contextTeams eid).all (fun p => p.2.core ≠ core || match s.launches.find p.2.launch with
      | some x => x.pri ≤ l.pri
      | none => true)
    && (s.partCores l.lead).all (fun c => !s.roomAt l c) && gone.roomAt l core

/-- TIME_SLICE_EXPIRY. -/
def execTimeSliceExpiry (eid core : Nat) (s : State) : Host.Outcome State Fault Refusal :=
  agent s (match s.encls.find eid with
    | none => none
    | some e =>
      let slice := (s.part e.lead).toNat / 2 ^ 16 % 65536
      let stood := s.residence eid core
      let others := ((s.teams.filter fun p => p.2.core = core).map fun p => s.residence (s.eidOfTeam p.1) core)
      if slice = 0 || !((s.contextTeams eid).any fun p => p.2.core = core) || stood < slice * 1000 || others.any (stood < ·)
          || !(s.launches.any fun p => s.displacer eid core p.1 p.2) then none
      else some (s.softRequest eid [core]))

/-- CONTEXT_RESTORE: the context's sealed walkers take free walkers, and a sealed team or cluster the core (R258, R387). -/
def execContextRestore (eid core : Nat) (s : State) : Host.Outcome State Fault Refusal :=
  agent s (match s.encls.find eid with
    | none => none
    | some e =>
      let ls := s.launches.filter fun p => p.2.eid = eid && p.2.error.isNone && (!p.2.sealedW.isEmpty || p.2.image.isSome)
      if !e.restorable || (ls.isEmpty && e.images.isEmpty) then none
      else
        if !ls.isEmpty && (s.digestFails e || ls.any fun p => p.2.image.any s.frameImageFails) then some (s.failEnclave eid) else
        let s := ls.foldl (fun s p => s.restoreWalkers p.1 p.2) (s.restoreClock eid)
        some ((s.restoreAt eid e core).getD s))

/-! Partitions (R380, R381) -/

/-- Whether the fields of a value with EN = 1 lie in their ranges. -/
def partFields (slice v : Nat) : Bool :=
  let size := v / 256 % 16
  let g1 := v / 2 ^ 32 % 65536
  let g2 := v / 2 ^ 48
  [1, 2, 3, 4, 6, 12].contains size && slice % size = 0 && 1 ≤ g1 && g1 ≤ g2

/-- One past the last slice that a partition holds or is being given. -/
def State.partEnd (s : State) (t : Nat) : Nat :=
  t + Nat.max (partSize (s.part t)) (match s.reg.resize.find t with
    | some v => partSize v
    | none => 0)

/-- Whether slices `a` to `b - 1` meet an enabled partition with another lead slice. -/
def State.overlaps' (s : State) (slice b : Nat) : Bool :=
  (List.range Config.slices).any fun t => t ≠ slice && partEn (s.part t) && t < b && slice < s.partEnd t

/-- Whether a partition holds the queues of a live enclave. -/
def State.partHeld (s : State) (slice : Nat) : Bool := s.encls.any fun e => e.2.lead = slice && !e.2.failed && !e.2.queues.isEmpty

/-- A write of PART. -/
def State.writePart (s : State) (slice : Nat) (x : BitVec 64) : State :=
  let v := x.toNat
  let old := s.part slice
  let store : State := { s with reg := { s.reg with part := s.reg.part.put slice x } }
  if v / 2 ^ 12 % 16 ≠ 0 || v / 2 % 128 ≠ 0 || Config.slices ≤ slice || (s.reg.resize.find slice).isSome then s
  else if v % 2 = 0 then (if partEn old && s.partHeld slice then s else store)
  else if !partFields slice v || s.overlaps' slice (slice + partSize x) then s
  else if partEn old && s.partHeld slice && partSize x ≠ partSize old then
    { s with reg := { s.reg with resize := s.reg.resize.put slice x } }
  else store

/-- PART_WRITE. -/
def execPartWrite (slice : Nat) (value : BitVec 64) (s : State) : Host.Outcome State Fault Refusal :=
  agent s (some (s.writePart slice value))

/-- The cores that leave a partition in its resize. -/
def leavingCores (slice : Nat) (old new : Dword) : List Nat :=
  ((List.range (slice + partSize old)).filter fun k => slice + partSize new ≤ k).flatMap fun k =>
    (List.range Config.coresPerSlice).map (k * 384 + ·)

/-- The walkers of slices that have left their partition are sealed and are placed again on the others (R258, R381). -/
def State.moveWalkers (s : State) (slices : List Nat) : State :=
  let go := s.walkers.filter fun w => slices.contains w.slice
  go.foldl (fun s w => s.modLaunch w.launch fun l => { l with sealedW := l.sealedW ++ [(w.cur, w.fin, w.skip)] })
    { s with walkers := s.walkers.filter fun w => !slices.contains w.slice }

/-- PARTITION_RESIZE: the teams on leaving cores receive a soft request; when they are gone, at a quiescent boundary, the partition
takes its new extent. -/
def execPartitionResize (slice : Nat) (s : State) : Host.Outcome State Fault Refusal :=
  agent s (match s.reg.resize.find slice with
    | none => none
    | some v =>
      let cores := leavingCores slice (s.part slice) v
      let asked (p : Nat × Team) : Bool := match s.encls.find (s.eidOfTeam p.1) with
        | some e => match e.soft with
          | some x => x.cores.contains p.2.core
          | none => false
        | none => true
      let there := s.teams.filter fun p => cores.contains p.2.core
      if !there.isEmpty then (if there.all asked then none else some (s.softOn cores))
      else if !s.paused.contains slice then none
      else some ({ s with reg := { s.reg with part := s.reg.part.put slice v, resize := s.reg.resize.del slice } }.moveWalkers
        (cores.map (· / 384)).dedup))

/-! Quads (R388) -/

/-- The four cores of a quad. -/
def quadCores (q : Nat) : List Nat := (List.range 4).map (4 * q + ·)

/-- Takes a quad out of service. -/
def State.quadOut (s : State) (q : Nat) : State := (s.modQuad q fun x => { x with out := true }).softOn (quadCores q)

def quadOk (slice quad : Nat) : Bool := slice < Config.slices && quad < Config.quadsPerSlice

/-- QUADSVC_OUT. -/
def execQuadsvcOut (slice quad : Nat) (s : State) : Host.Outcome State Fault Refusal :=
  agent s (if quadOk slice quad then
      some ({ s with reg := { s.reg with quadsvc := .ofNat 17 (65536 + quad * 256 + slice) } }.quadOut (96 * slice + quad))
    else none)

/-- QUADSVC_IN: a quad that is fused off or has been removed stays out. -/
def execQuadsvcIn (slice quad : Nat) (s : State) : Host.Outcome State Fault Refusal :=
  agent s (if quadOk slice quad then
      some ({ s with reg := { s.reg with quadsvc := .ofNat 17 (quad * 256 + slice) } }.modQuad (96 * slice + quad) fun x =>
        { x with out := x.removed })
    else none)

/-! Engines and blocks (R293, R389, R392) -/

/-- CEOWN_WRITE. -/
def execCeownWrite (engine : Nat) (value : BitVec 64) (s : State) : Host.Outcome State Fault Refusal :=
  agent s (if engine < Config.engines && value.toNat < 512 then some (s.applyCeown engine value) else none)

/-- The first frame of a 2 GiB block, and how many it has. -/
def blockFrame (v : Nat) : Nat := v / 2 ^ 31 % 2 ^ 17 * 524288
def blockFrames : Nat := 524288

/-- Status of a BLKMOVE (R389): 0 when it goes on. -/
def blkStatus (s : State) (v : Nat) : Option Status :=
  let f := blockFrame v
  let old := v % 256
  let new := v / 256 % 256
  let inBlock (n : Nat) : Bool := f ≤ n && n < f + blockFrames
  let foreign (p : Nat × Pot) : Bool := inBlock p.1 && !(p.2.state = .free || (p.2.state = .guest && p.2.guest.toNat = old))
  let outside := Config.slices * 2 ^ 24 ≤ f || Config.ctreeBase < (f + blockFrames) * 4096 % 2 ^ 36 || (f + blockFrames) * 4096 % 2 ^ 36 = 0
  if s.reg.blkBusy then some .busy
  else if outside || s.pots.any foreign || (new ≠ 0 && !s.slotLoaded (s.guestSlot (.ofNat 8 new))) then some .badstate
  else if s.pins.any fun p => inBlock p.1 && 0 < p.2 then some .pinned
  else none

/-- Whether a write-back of a block's frames meets a held line (R139). -/
def State.blockHeld (s : State) (f : Nat) : Bool := s.waitsForHold fun l => f ≤ l.pa / 32 && l.pa / 32 < f + blockFrames

/-- The frames of a block go to SCRUB for the new guest and are recalled. One that its recall finds POISONED stays so, and is done. -/
def State.moveBlock (s : State) (f : Nat) (new : Byte) : State :=
  let inBlock (n : Nat) : Bool := f ≤ n && n < f + blockFrames
  let slot : Byte := if new = 0 then 0 else s.guestSlot new
  let hit (t : Tlb) : Bool := t.pa / 4096 < f + blockFrames && f * 4096 < t.pa + t.size
  let s := { s with tlb := s.tlb.filter fun t => !hit t }
  let s := s.evictLines fun l => inBlock (l.pa / 32)
  let bad (n : Nat) : Bool := (s.pot n).state = .poisoned
  let frames := List.range' f blockFrames
  { s with
    clines := s.clines.filter (fun l => !inBlock (l.pa / 32)), ilines := s.ilines.filter (fun l => !inBlock (l.pa / 32))
    pots := s.pots.filter (fun p => decide (p.1 < f)) ++ frames.map (fun n => (n, if bad n then Tab.getD s.pots n {} else { Tab.getD s.pots n {} with
        state := .scrub, guest := new, slot := slot, owner := 0, busy := true }))
      ++ s.pots.filter (fun p => decide (f + blockFrames ≤ p.1))
    scrubs := s.scrubs ++ (frames.filter fun n => !bad n).map fun n => (n, 0)
    reg := { s.reg with blkDone := (frames.filter bad).length } }

/-- BLKMOVE. A write that meets a held line waits for it (R139). -/
def execBlkmove (value : BitVec 64) (s : State) : Host.Outcome State Fault Refusal :=
  agent s (
    let v := value.toNat
    if 2 ^ 48 ≤ v || v / 2 ^ 16 % 2 ^ 15 ≠ 0 then none
    else match blkStatus s v with
      | some c => some { s with reg := { s.reg with blkStat := c.code } }
      | none => if s.blockHeld (blockFrame v) then none else
          let s := s.moveBlock (blockFrame v) (.ofNat 8 (v / 256))
          some { s with reg := { s.reg with blkmove := value, blkBusy := true, blkStat := 0 } })

end Sys2Proof.Machine
end

