-- ==== Sys2Proof/Machine/Pot.lean ====
section
/-! DEFINITION. The POT group: page ownership, mapping, discarding, evicting and loading the pages of enclaves (R224-R226,
R318, R354-R362). -/

namespace Sys2Proof.Machine

/-! Entry images and request blocks (Tables 19.2 and 9.11) -/

def PotState.code : PotState → Nat
  | .free => 0 | .hyp => 1 | .guest => 2 | .encl => 3 | .enclPt => 4 | .enclSave => 5 | .enclBar => 6 | .kick => 7
  | .shared => 8 | .discarded => 9 | .reclaiming => 10 | .migrating => 11 | .scrub => 12 | .ctree => 13 | .retired => 14
  | .poisoned => 15

/-- The states that POTSET may set (Table 9.12). -/
def potTarget : Nat → Option PotState
  | 0 => some .free | 1 => some .hyp | 2 => some .guest | 7 => some .kick | 8 => some .shared | 12 => some .scrub
  | 14 => some .retired | _ => none

/-- The image of an entry. -/
def Pot.image (p : Pot) : Nat :=
  p.state.code + bit p.pend * 16 + p.slot.toNat * 2 ^ 8 + p.owner.toNat * 2 ^ 16 + p.guest.toNat * 2 ^ 32 + p.ehome.toNat * 2 ^ 40
    + p.maxp.toNat * 2 ^ 44 + p.eva.toNat * 2 ^ 64

/-- An entry from an image whose reserved bits are zero; the frame's key stays. -/
def potOf (v : Nat) (st : PotState) (old : Pot) : Pot :=
  { state := st, pend := v / 16 % 2 = 1, slot := .ofNat 8 (v / 2 ^ 8), owner := .ofNat 16 (v / 2 ^ 16), guest := .ofNat 8 (v / 2 ^ 32)
    ehome := .ofNat 4 (v / 2 ^ 40), maxp := .ofNat 3 (v / 2 ^ 44), eva := .ofNat 40 (v / 2 ^ 64), key := old.key }

/-- A nonzero reserved bit of an image. -/
def potReserved (v : Nat) : Bool := v / 32 % 8 ≠ 0 || v / 2 ^ 47 % 2 ^ 17 ≠ 0 || v / 2 ^ 104 ≠ 0

/-- A frame address of a request block: in HBM4, with only [47:12] set. -/
def goodFrame (s : State) (pa : Nat) : Bool := pa % 4096 = 0 && pa / 2 ^ 48 = 0 && match s.region pa with
  | .hbm _ => true
  | _ => false

/-- Whether an operation on a frame must be repeated (R225, R372, R389): a block move or a sweep works on it, or moves contents to it. -/
def State.frameBusy (s : State) (frame : Nat) : Bool :=
  (s.pot frame).busy || (s.pot frame).state = .migrating || s.sweeps.any fun w => w.1 = frame || w.2.dst = some frame

def State.pinned (s : State) (frame : Nat) : Bool := 0 < Tab.getD s.pins frame 0

/-- Whether a frame lies in an enabled save pool (R386). -/
def State.pooled (s : State) (frame : Nat) : Bool :=
  let v := (s.svpool (frame / 2 ^ 24)).toNat
  let base := v / 2 ^ 21 * 512
  v % 2 = 1 && base ≤ frame && frame < base + v / 32 % 2 ^ 16 * 512

/-! POTSET and POTRD -/

/-- Whether an entry image moves its frame, which is then recalled (R225). -/
def potMoves (p q : Pot) : Bool := q.state = .scrub || q.guest ≠ p.guest || q.owner ≠ p.owner || q.slot ≠ p.slot

/-- The status and effect of POTSET on a frame (R225, Table 19.5); a retired frame enters the retired list (R422). One that the recall finds
POISONED is in none of the states that it may leave. -/
def potSet (s : State) (pa va v : Nat) : Status × State :=
  let f := pa / 4096
  let p := s.pot f
  if !goodFrame s pa || va ≠ 0 || potReserved v then (.badreq, s)
  else match potTarget (v % 16) with
    | none => (.badreq, s)
    | some st =>
      let from_ := if p.state = .poisoned then st = .retired
        else st ≠ .retired && (p.state = .free || p.state = .hyp || p.state = .guest || p.state = .kick || p.state = .shared)
      let q := potOf v st p
      let moved := potMoves p q
      if s.frameBusy f || s.pooled f then (.busy, s)
      else if !from_ then (.badstate, s)
      else if moved && s.pinned f then (.pinned, s)
      else
        let s := if moved && p.state ≠ .poisoned then s.moveFrame f q else s.setPot f q
        if moved && p.state ≠ .poisoned && (s.pot f).state = .poisoned then (.badstate, s) else
        (.ok, if st = .scrub then { s with scrubs := s.scrubs ++ [(f, 0)] }
          else if st = .retired && (s.retired.filter (· / 2 ^ 24 = f / 2 ^ 24)).length < 4096 then { s with retired := f :: s.retired }
          else s)

/-- The request block of a member of the group. -/
def withBlock (s : State) (a : Opnd) (k : State → List Byte → Res) : Res := withBuffer s (s.src2 1 a).toNat 32 32 k

/-- POTSET. -/
def execPotset (h : Hdr) (d a : Opnd) (s : State) : Host.Outcome State Fault Refusal :=
  issue (.potset h d a) s fun s => withBlock s a fun s bs =>
    let r := potSet s (field bs 0 8) (field bs 8 8) (field bs 16 16)
    let f := field bs 0 8 / 4096
    let recalls := (r.1 = .ok && potMoves (s.pot f) (r.2.pot f))
      || (r.1 = .badstate && (s.pot f).state ≠ .poisoned && (r.2.pot f).state = .poisoned)
    if recalls && s.recallHeld f then .hold else answer r.2 d r.1

/-- POTRD. -/
def execPotrd (h : Hdr) (d a : Opnd) (s : State) : Host.Outcome State Fault Refusal :=
  issue (.potrd h d a) s fun s =>
    let at_ := (s.src2 1 a).toNat
    withBlock s a fun s bs =>
      let pa := field bs 0 8
      if !goodFrame s pa || field bs 8 8 ≠ 0 then answer s d .badreq
      else if s.frameBusy (pa / 4096) then answer s d .busy
      else storeBuffer s (at_ + 16) (leBytes 16 (s.pot (pa / 4096)).image) fun s => answer s d .ok

/-! The page tables of an enclave -/

/-- Where a descent of an enclave's tables stops: at an entry that is no link (its level, address and value), or at a line whose
tag fails. -/
def descend (s : State) (va : Nat) : Nat → Nat → Except Nat (Nat × Nat × Nat)
  | 0, node => .ok (4, node, 0)
  | n + 1, node =>
    let lev := 3 - n
    let a := entryAt node va lev
    if s.lineBad (a / 64) then .error (a / 4096)
    else
      let e := Memory.u64 s.mem a
      if pteV e && pteT e && lev < 3 then descend s va n (ptePfn e * 4096) else .ok (lev, a, e)

/-- A request block that names a page of an enclave. -/
structure PageReq where
  pa   : Nat
  va   : Nat
  perm : Nat
  ty   : Nat
  eid  : Nat
  blob : Nat
  ok   : Bool
  deriving DecidableEq, Repr

def pageReq (s : State) (bs : List Byte) : PageReq :=
  let w := field bs 8 8
  { pa := field bs 0 8, va := w / 4096 * 4096, perm := w / 256 % 16, ty := w % 16, eid := field bs 16 2, blob := field bs 24 8
    ok := goodFrame s (field bs 0 8) && w / 16 % 16 = 0 && wellFormedVa (w / 4096 * 4096) && (w % 16 = 0 || w % 16 = 2)
      && w / 256 % 16 < 8 && field bs 16 2 ≠ 0 && allZero (slice bs 18 6) }

/-- The table entry of the page is read for a request of the caller's guest: its level, address and value, the top level where the page's
slice has no root. A failed tag poisons the node's frame (R373). -/
def onPage (s : State) (d a : Opnd) (k : State → PageReq → Encl → Nat → Nat → Nat → Res) : Res :=
  withBlock s a fun s bs =>
    let r := pageReq s bs
    if !r.ok then answer s d .badreq
    else match s.liveEncl r.eid with
      | none => answer s d .notowner
      | some e =>
        if e.guest ≠ s.callerGuest || (s.pot (r.pa / 4096)).guest ≠ s.callerGuest then answer s d .notowner
        else if s.frameBusy (r.pa / 4096) then answer s d .busy
        else match e.roots.find (homeOf r.va) with
          | none => k s r e 0 0 0
          | some root => match descend s r.va 4 root with
            | .error f => answer (s.poisonFrame f (s.space s.cur) .read r.va (homeOf r.va) (s.agentOf s.cur)) d .badstate
            | .ok (lev, at_, ent) => k s r e lev at_ ent

/-- An entry for a page of an enclave (Table 19.2). -/
def enclPot (st : PotState) (r : PageReq) (e : Encl) (perm : Nat) (pend : Bool) : Pot :=
  { state := st, eva := .ofNat 40 (r.va / 4096), maxp := .ofNat 3 perm, ehome := .ofNat 4 (homeOf r.va), guest := e.guest
    owner := .ofNat 16 r.eid, slot := e.slot, pend := pend }

/-- Moves a frame to an enclave for an operation on a page whose table entry lies at `at_`, once no line of the two is held. A frame that its
recall finds POISONED is no longer in the state that the operation asks for. -/
def withFrame (s : State) (d : Opnd) (frame at_ : Nat) (p : Pot) (k : State → Res) : Res :=
  if s.pageHeld frame at_ then .hold else
  let s := s.moveFrame frame p
  if (s.pot frame).state = .poisoned then answer s d .badstate else k s

/-- PMAP: a pending page of zeros under the enclave key, or a table node under the deepest present one (R225). -/
def execPmap (h : Hdr) (d a : Opnd) (s : State) : Host.Outcome State Fault Refusal :=
  issue (.pmap h d a) s fun s => onPage s d a fun s r e lev at_ ent =>
    let f := r.pa / 4096
    if (s.pot f).state ≠ .guest then answer s d .badstate
    else if s.pinned f then answer s d .pinned
    else if (e.roots.find (homeOf r.va)).isNone then answer s d .notable
    else if r.ty = 0 then
      if r.pa / 2 ^ 36 ≠ homeOf r.va then answer s d .badreq
      else if lev < 3 then answer s d .notable
      else if pteV ent || pteR ent then answer s d .badstate
      else withFrame s d f at_ (enclPot .encl r e r.perm true) fun s =>
        answer ((s.scrubFrame f).putEntry at_ (pteLeaf r.pa r.perm 0 true)) d .ok
    else if r.pa / 2 ^ 36 ≠ homeOf r.va then answer s d .notable
    else if 3 ≤ lev || pteV ent || pteR ent then answer s d .badstate
    else withFrame s d f at_ (enclPot .enclPt r e 0 true) fun s => answer ((s.scrubFrame f).putEntry at_ (pteLink r.pa)) d .ok

/-- PACCEPT: a pending page at the address is accepted, or else a pending table node. -/
def execPaccept (h : Hdr) (d a : Opnd) (s : State) : Host.Outcome State Fault Refusal :=
  issue (.paccept h d a) s fun s =>
    let va := (s.src2 1 a).toNat
    let eid := (s.space s.cur).eid
    if va % 4096 ≠ 0 then .trap .misalign (.ofNat 64 va) s
    else
      let mine (st : PotState) (p : Nat × Pot) : Bool := p.2.state = st && p.2.owner = eid && p.2.pend
        && p.2.eva.toNat = va / 4096 % 2 ^ 40 && p.2.ehome.toNat = homeOf va
      match (if wellFormedVa va then (s.pots.find? (mine .encl)) <|> (s.pots.find? (mine .enclPt)) else none) with
      | none => answer s d .badstate
      | some (f, p) => if s.frameBusy f then answer s d .busy else answer (s.setPot f { p with pend := false }) d .ok

/-- The status of a request for a data page of the enclave at its address, in a state that the operation accepts. -/
def pageStatus (s : State) (r : PageReq) (lev ent : Nat) (good : Pot → Bool) : Option Status :=
  let p := s.pot (r.pa / 4096)
  if !(p.state = .encl || p.state = .discarded) || p.owner.toNat ≠ r.eid || lev ≠ 3 || !pteV ent || ptePfn ent ≠ r.pa / 4096
      || p.eva.toNat ≠ r.va / 4096 % 2 ^ 40 || !good p then some .badstate
  else if s.pinned (r.pa / 4096) then some .pinned
  else none

/-- PDISCARD (R225). -/
def execPdiscard (h : Hdr) (d a : Opnd) (s : State) : Host.Outcome State Fault Refusal :=
  issue (.pdiscard h d a) s fun s => onPage s d a fun s r _ lev _ ent =>
    match pageStatus s r lev ent fun p => p.state = .encl && !p.pend with
    | some c => answer s d c
    | none =>
      let f := r.pa / 4096
      if s.recallHeld f then .hold else
      let s := s.recall f
      if (s.pot f).state = .poisoned then answer s d .badstate else answer (s.setPot f { s.pot f with state := .discarded }) d .ok

/-- The header of an eviction blob before its tag (Table 19.6). -/
def blobHeader (eid perm va version : Nat) (nonce : List Byte) : List Byte :=
  leBytes 4 1 ++ leBytes 2 eid ++ leBytes 2 perm ++ leBytes 8 va ++ leBytes 8 version ++ nonce ++ List.replicate 12 0

/-- PEVICT (R360). -/
def execPevict (h : Hdr) (d a : Opnd) (s : State) : Host.Outcome State Fault Refusal :=
  issue (.pevict h d a) s fun s => onPage s d a fun s r e lev at_ ent =>
    let f := r.pa / 4096
    let sp := s.space s.cur
    match pageStatus s r lev ent fun p => p.state = .encl && !p.pend with
    | some c => answer s d c
    | none =>
      if r.blob % 64 ≠ 0 || !wellFormedVa r.blob then answer s d .badreq
      else if e.evicts = 2 ^ 61 - 1 then answer s d .nores
      else if s.pageHeld f at_ then .hold
      else match probeBytes s sp 64 r.blob 4160 with
        | .fault s' x => bufferFault s' { sp := sp, va := faultVa s sp .write 64 r.blob 4160, kind := .write } x
        | .device s _ => .trap .perm (.ofNat 64 r.blob) s
        | .ok s _ =>
          let version := e.evicts + 1
          let s := s.modEncl r.eid fun e => { e with evicts := version }
          let s := (s.setPot f { s.pot f with state := .migrating }).putEntry at_ (version * 8 + 4)
          let s := s.recall f
          if (s.pot f).state = .poisoned then answer s d .badstate
          else if !s.verifies r.pa 4096 then
            answer (s.poisonFrame f sp .read r.va (homeOf r.va) (s.agentOf s.cur)) d .badstate
          else
            let nonce := beBytes 12 (Config.nonce s.keysMade).toNat
            let hdr := blobHeader r.eid (bit (pteR ent) + 2 * bit (pteW ent) + 4 * bit (pteX ent)) r.va version nonce
            let c := gcmSeal (keyBytes e.paging) nonce hdr (Memory.bytes s.mem r.pa 4096)
            let s := ({ s with keysMade := s.keysMade + 1 }).modEncl r.eid fun e => { e with evPerms := e.evPerms.put (r.va / 4096) (ent / 4 % 8) }
            let s := s.scrubFor f s.callerGuest (s.guestSlot s.callerGuest) 0
            storeBuffer s r.blob (hdr ++ c.2 ++ c.1) fun s => answer s d .ok

/-- PLOAD (R361). -/
def execPload (h : Hdr) (d a : Opnd) (s : State) : Host.Outcome State Fault Refusal :=
  issue (.pload h d a) s fun s => onPage s d a fun s r e lev at_ ent =>
    let f := r.pa / 4096
    if (s.pot f).state ≠ .guest then answer s d .badstate
    else if s.pinned f then answer s d .pinned
    else if r.pa / 2 ^ 36 ≠ homeOf r.va || r.blob % 64 ≠ 0 || !wellFormedVa r.blob then answer s d .badreq
    else if lev < 3 || pteV ent || !pteR ent then answer s d .badstate
    else withBuffer s r.blob 4160 64 fun s bs =>
      if !allZero (slice bs 36 12) || field bs 0 4 ≠ 1 || field bs 4 2 ≠ r.eid || 8 ≤ field bs 6 2 || field bs 8 8 ≠ r.va then
        answer s d .badreq
      else match gcmOpen (keyBytes e.paging) (slice bs 24 12) (slice bs 0 48) (slice bs 64 4096) (slice bs 48 16) with
        | none => answer s d .authfail
        | some plain =>
          if field bs 16 8 ≠ ent / 8 then answer s d .stale
          else
            let perm := field bs 6 2
            withFrame s d f at_ (enclPot .encl r e perm false) fun s =>
              let s := s.modEncl r.eid fun e => { e with evPerms := e.evPerms.del (r.va / 4096) }
              answer (((s.scrubFrame f).homeWrite r.pa plain).putEntry at_ (pteLeaf r.pa perm 0 true)) d .ok

/-- PUNMAP: the page is reclaimed, its entry is cleared, and the frame goes back to the guest through a scrub (R225, R362). A first write
that the recall brings home has been applied before it (R226). -/
def execPunmap (h : Hdr) (d a : Opnd) (s : State) : Host.Outcome State Fault Refusal :=
  issue (.punmap h d a) s fun s => onPage s d a fun s r _ lev at_ ent =>
    let f := r.pa / 4096
    let good (p : Pot) : Bool := p.state = .discarded || p.pend
    let first := pageStatus s r lev ent good
    if first.isNone && s.pageHeld f at_ then .hold else
    let s := if first.isNone then s.recall f else s
    match first <|> pageStatus s r lev ent good with
    | some c => answer s d c
    | none =>
      let s := (s.setPot f { s.pot f with state := .reclaiming }).putEntry at_ 0
      answer (s.scrubFor f s.callerGuest (s.guestSlot s.callerGuest) 0) d .ok

end Sys2Proof.Machine
end

