-- ==== Sys2Proof/Machine/Protect.lean ====
section
/-! DEFINITION. Scrubs, key rotation and sweeps, tag injection, device interfaces and link streams (R318, R359, R365, R372, R375-R377). -/

namespace Sys2Proof.Machine

/-! Scrubs (R359, R389) -/

/-- A frame of a block move has been scrubbed. With the last one BLKSTAT reads OK, and POT operations on the block's frames go on. -/
def State.blockScrubbed (s : State) (frame : Nat) : State :=
  let f := blockFrame s.reg.blkmove.toNat
  if s.reg.blkBusy && f ≤ frame && frame < f + blockFrames then
    let n := s.reg.blkDone + 1
    let s : State := { s with reg := { s.reg with blkDone := n } }
    if n < blockFrames then s else { s with
      reg := { s.reg with blkBusy := false, blkStat := 0 }
      pots := s.pots.map fun p => if f ≤ p.1 && p.1 < f + blockFrames then (p.1, { p.2 with busy := false }) else p }
  else s

/-- SCRUB_END: zeros under the next owner's key; the frame is GUEST, or FREE without a guest. -/
def execScrubEnd (frame : Nat) (s : State) : Host.Outcome State Fault Refusal :=
  agent s (if (s.pot frame).state = .scrub && s.scrubs.any (·.1 = frame) then
      let s := s.scrubFrame frame
      let p := s.pot frame
      let s := s.setPot frame { p with state := if p.guest = 0 then .free else .guest }
      some ({ s with scrubs := s.scrubs.filter (·.1 ≠ frame) }.blockScrubbed frame)
    else none)

/-! Key rotation and sweeps (R365, R372) -/

/-- The frames of an enclave. -/
def State.framesOf (s : State) (eid : Nat) : List (Nat × Pot) := s.pots.filter fun p => p.2.owner.toNat = eid && p.2.state.isEncl

/-- KEY_ROTATION: a new key in the lowest free slot, and, when every frame has been swept to it, the end of the rotation. -/
def execKeyRotation (eid : Nat) (s : State) : Host.Outcome State Fault Refusal :=
  agent s (match s.liveEncl eid with
    | none => none
    | some e => match e.newSlot with
      | none => match s.freeSlot with
        | none => none
        | some k => some { s.modEncl eid (fun e => { e with newSlot := some (.ofNat 8 k) }) with
            slots := s.slots.put k { loaded := true, guest := e.guest, eid := .ofNat 16 eid, key := 256 + s.keysMade }
            keysMade := s.keysMade + 1 }
      | some k =>
        let left (p : Nat × Pot) : Bool := p.2.owner.toNat = eid && (p.2.state.isEncl || p.2.state = .migrating) && p.2.slot ≠ k
        if s.pots.any left || s.waitsForHold fun l => l.slot = e.slot then none
        else
          let s := s.revoke e.slot
          some ({ s with slots := s.slots.put e.slot.toNat {} }.modEncl eid fun e => { e with
            slot := k, newSlot := none, key := s.slotKey k }))

/-- The leaf of a data page of an enclave, where it names the frame: the entry's address and value. -/
def State.leafOf (s : State) (frame : Nat) : Option (Nat × Nat) :=
  let p := s.pot frame
  let va := p.ehome.toNat * 2 ^ 52 + p.eva.toNat * 4096
  match (s.encls.find p.owner.toNat).bind fun e => e.roots.find p.ehome.toNat with
  | none => none
  | some root => match descend s va 4 root with
    | .ok (3, a, e) => if pteV e && ptePfn e = frame then some (a, e) else none
    | _ => none

/-- The start of a sweep: for a key rotation of a frame that still stands under the old slot, or for a move of an ENCL frame to a FREE frame of
its stack, when it becomes MIGRATING (R372, Table 19.5). -/
def State.startSweep (s : State) (frame : Nat) (dst : Option Nat) : Option State :=
  let p := s.pot frame
  if s.pinned frame || s.frameBusy frame then none
  else match s.encls.find p.owner.toNat, dst with
    | none, _ => none
    | some e, none => match e.newSlot with
      | some k => if p.state.isEncl && p.slot ≠ k then some { s with sweeps := s.sweeps.put frame { q := 0, slot := k } } else none
      | none => none
    | some _, some d =>
      if p.state = .encl && (s.pot d).state = .free && d / 2 ^ 24 = frame / 2 ^ 24 && !s.frameBusy d && (s.leafOf frame).isSome then
        some ({ s with sweeps := s.sweeps.put frame { q := 0, slot := p.slot, dst := some d, former := .encl } }.setPot frame
          { p with state := .migrating })
      else none

/-- The end of a sweep: the frame stands under the new slot, or the frame that its contents have moved to takes its place in the enclave's
tables, and it goes to SCRUB. None while a line of it, or of its table entry, is held. -/
def State.endSweep (s : State) (frame : Nat) (w : Sweep) : Option State :=
  let p := s.pot frame
  let done : State := { s with sweeps := s.sweeps.del frame }
  match w.dst with
  | none => some (done.setPot frame { p with slot := w.slot, key := s.slotKey w.slot })
  | some d =>
    if done.recallHeld frame then none else
    let s := done.recall frame
    match s.leafOf frame with
    | none => some s
    | some (a, e) =>
      if s.lineHeldAt (a / 128) then none
      else if (s.pot frame).state = .poisoned then some s
      else
        let s := (s.setPot d { p with state := w.former }).pokeAll (d * 4096) (Memory.bytes s.mem (frame * 4096) 4096)
        some ((s.putEntry a (e - frame * 4096 + d * 4096)).scrubFor frame p.guest (s.guestSlot p.guest) 0)

/-- SWEEP: a sweep of a frame starts, or its pointer passes one more line, which is read, checked and written with new counters, or, past the
last one, it ends (R372). Of a move, the lines of the two frames stand in the first one's place until the end (assumption 48). -/
def execSweep (x : Swept) (s : State) : Host.Outcome State Fault Refusal :=
  agent s (match s.sweeps.find x.frame with
    | none => s.startSweep x.frame x.dst
    | some w =>
      let line := x.frame * 64 + w.q
      if 64 ≤ w.q then s.endSweep x.frame w
      else if s.unitHolds (line / 2) then none
      else if !s.verifies (line * 64) 64 then
        some ({ s with sweeps := s.sweeps.del x.frame }.poisonFrame x.frame (s.pot x.frame).space .read 0 (x.frame / 2 ^ 24) (2, x.frame / 2 ^ 24 * 2 ^ 28))
      else
        let dest := match w.dst with
          | some d => d * 64 + w.q
          | none => line
        some ({ s.grant dest with sweeps := s.sweeps.put x.frame { w with q := w.q + 1 } }.inject (· = line)))

/-! Tag injection (R375) -/

/-- INJTAG_ARM. -/
def execInjtagArm (line : BitVec 42) (s : State) : Host.Outcome State Fault Refusal :=
  agent s (
    let p := s.pot (line.toNat / 64)
    match s.liveEncl p.owner.toNat with
    | some e => if (p.state = .encl || p.state = .discarded) && e.ctl.getLsbD 8 then
        some { s with reg := { s.reg with injtag := some line } } else none
    | none => none)

/-- INJTAG_DISARM: whatever LINE holds. -/
def execInjtagDisarm (_line : BitVec 42) (s : State) : Host.Outcome State Fault Refusal :=
  agent s (some { s with reg := { s.reg with injtag := none } })

/-! Transfers that translate every page when they are submitted (R318) -/

/-- What a submission comes to: its pieces, a wait (on a record, or for a step of another agent), or a terminal end. -/
inductive Plan where
  | ok (s : State) (at_ : List (Nat × Nat))
  | wait (s : State) (link : Option Nat)
  | bad (s : State)

/-- A fault of a submission (Table 14.5). -/
def planFault (s : State) (agent : Nat × Nat) (a : Access) (f : TFault) : Plan :=
  if f.wait then .wait s none
  else if f.trap.retryable then match s.retryFault a.sp a.kind a.va f.trap.num f.detail agent with
    | .wait s link => .wait s (some link)
    | .full => .wait s none
    | .terminal s => .bad s
  else .bad (s.terminalFault a f agent)

/-- The pieces of a transfer, each within one 128-byte line. A malformed VA ends it without a record (R315). -/
def plan (s : State) (agent : Nat × Nat) (sp : Space) (write : Bool) : Nat → Nat → Nat → Plan
  | 0, _, _ => .ok s []
  | k + 1, va, n =>
    if n = 0 then .ok s []
    else
      let a : Access := { sp := sp, va := va, kind := .dma, wr := write }
      let m := Nat.min n (128 - va % 128)
      if !wellFormedVa va then .bad s
      else match translate s a with
        | .error f => planFault s agent a f
        | .ok (s, t) => match plan s agent sp write k (va + m) (n - m) with
          | .ok s r => .ok s ((t.at va, m) :: r)
          | r => r

/-- The frames of the pieces, each once. -/
def planFrames (at_ : List (Nat × Nat)) : List Nat := (at_.map fun p => p.1 / 4096).dedup

/-- Whether the page-lock tables have room for a transfer's frames. -/
def State.canPin (s : State) (frames : List Nat) : Bool :=
  frames.all (fun f => Tab.getD s.pins f 0 < 65535)
    && (List.range Config.slices).all fun k =>
      (s.pins.filter fun p => p.1 / 2 ^ 24 = k).length + (frames.filter fun f => f / 2 ^ 24 = k && !s.pinned f).length ≤ 4096

def State.pin (s : State) (frames : List Nat) : State :=
  { s with pins := frames.foldl (fun t f => Tab.set t 0 f (Tab.getD t f 0 + 1)) s.pins }

def State.unpin (s : State) (frames : List Nat) : State :=
  { s with pins := frames.foldl (fun t f => Tab.set t 0 f (Tab.getD t f 0 - 1)) s.pins }

/-- The VA of the first piece, from `va` on, whose frame has no entry in the page-lock table. -/
def State.unlocked (s : State) : List (Nat × Nat) → Nat → Nat
  | [], va => va
  | (pa, m) :: r, va => if s.pinned (pa / 4096) then s.unlocked r (va + m) else va

/-- Writes the bytes of a transfer to its pieces from `va` on, or checks what it reads; a tag that fails poisons its frame, with a record of
the page (R319, R373). -/
def transferAt (s : State) (agent : Nat × Nat) (sp : Space) (write : Bool) : List (Nat × Nat) → Nat → List Byte → State
  | [], _, _ => s
  | (pa, m) :: r, va, bs =>
    let bad := if write then s.writeFails (pa / 64) || s.writeFails ((pa + m - 1) / 64) else !s.verifies pa m
    if bad then s.poisonFrame (pa / 4096) sp .dma (va / 4096 * 4096) (pa / 2 ^ 36) agent
    else
      let s := if write then s.homeStore sp.guest pa (bs.take m) else s.l2Read sp.guest (pa / 128)
      transferAt s agent sp write r (va + m) (bs.drop m)

/-- Whether two submissions are the same transfer. -/
def Dma.same (a b : Dma) : Bool :=
  a.link = b.link && a.tdi = b.tdi && a.tbit = b.tbit && a.va = b.va && a.write = b.write && a.data = b.data

def State.putDma (s : State) (d : Dma) : State := { s with dmas := s.dmas.filter (!d.same ·) ++ [d] }
def State.dropDma (s : State) (d : Dma) : State := { s with dmas := s.dmas.filter (!d.same ·) }

/-- A transfer is submitted: every page is translated and its frames are pinned, or it waits on the record of a retryable fault or for room in
the page-lock table (R318). A full table is reported with DETAIL 6 (assumption 96). -/
def State.submit (s : State) (agent : Nat × Nat) (d : Dma) : Option State :=
  match plan s agent d.sp d.write (d.data.length + 1) d.va d.data.length with
  | .wait _ none => none
  | .wait s (some link) => some (s.putDma { d with waits := some link })
  | .bad s => some (s.dropDma d)
  | .ok s at_ =>
    let frames := planFrames at_
    if s.canPin frames then some ((s.putDma { d with at_ := at_ }).pin frames)
    else if frames.any fun f => 65535 ≤ Tab.getD s.pins f 0 then none
    else match s.retryFault d.sp .dma (s.unlocked at_ d.va) Trap.notpresent.num 6 agent with
      | .wait s link => some (s.putDma { d with waits := some link })
      | .terminal s => some (s.dropDma d)
      | .full => none

/-- A turn of a transfer: the first submits it; after that it is submitted again while it waits, and then its data moves and its frames are
unpinned. -/
def State.dmaTurn (s : State) (agent : Nat × Nat) (d : Dma) (moves : Bool) : Option State :=
  match s.dmas.find? d.same with
  | none => s.submit agent d
  | some d =>
    if d.waits.isSome then none
    else if d.at_.isEmpty && !d.data.isEmpty then s.submit agent d
    else if moves && d.write && d.at_.any (fun p => s.lineHeldAt (p.1 / 128)) then none
    else
      let s := (s.dropDma d).unpin (planFrames d.at_)
      some (if moves then transferAt s agent d.sp d.write d.at_ d.va d.data else s)

/-! Device interfaces (R376) -/

/-- Whether an interface is bound: locked or running. -/
def Tdi.bound (t : Tdi) : Bool := t.state = .locked || t.state = .run

/-- START_INTERFACE_REQUEST: the first turn locks the interface for the enclave, with the keys of its IDE stream and the measurements that it
reports; the next sends the request, when the enclave's policy lists them (assumption 118). At most 16 interfaces of a root port are bound at
once. -/
def execStartInterfaceRequest (tdi eid : Nat) (s : State) : Host.Outcome State Fault Refusal :=
  agent s (match s.liveEncl eid with
    | none => none
    | some e =>
      let t : Tdi := Tab.getD s.tdis tdi {}
      let bound := (s.tdis.filter fun p => p.1 / 65536 = tdi / 65536 && p.2.bound).length
      match t.state with
      | .unlocked =>
        if 4 * 65536 ≤ tdi || 16 ≤ bound then none
        else some { s with
          keysMade := s.keysMade + 1
          tdis := s.tdis.put tdi { state := .locked, eid := eid, guest := e.guest, meas := Config.deviceMeasurement s.fresh tdi, ide := some s.keysMade } }
      | .locked =>
        if t.eid ≠ eid || !e.devices.contains t.meas then none else some { s with tdis := s.tdis.put tdi { t with state := .run } }
      | _ => none)

/-- The PTROOT under which a device reaches a guest's own space: that of the lowest host core that runs the guest. -/
def State.guestRoot (s : State) (guest : Byte) : Dword :=
  match s.hosts.find? fun h => h.2.guestid.toNat = guest.toNat with
  | some h => h.2.ptroot
  | none => 0

/-- TDISP_DMA_REQUEST: the request is submitted; a later turn of the same request moves its data. The bytes of a read request only say how
many it asks for. A request with the T bit from an interface in RUN goes to its enclave, any other to the guest of its function (R23), which
is the guest of the enclave that the interface was bound to last, and guest 0 before any binding (DESIGN CHOICE, assumption 93). -/
def execTdispDmaRequest (tdi : Nat) (tbit : Bool) (va : BitVec 64) (write : Bool) (data : List (BitVec 8)) (s : State) :
    Host.Outcome State Fault Refusal :=
  agent s (
    let t : Tdi := Tab.getD s.tdis tdi {}
    let agent := (7, tdi % 65536)
    let sp : Space := if tbit && t.state = .run then ⟨t.guest, .ofNat 16 t.eid, 0⟩ else ⟨t.guest, 0, s.guestRoot t.guest⟩
    let d : Dma := { tdi := tdi, tbit := tbit, va := va.toNat, write := write, data := data, sp := sp, at_ := [] }
    if t.state = .error && !s.dmas.any d.same then
      some (s.terminalRecord (homeOf va.toNat) (faultRec ⟨t.guest, .ofNat 16 t.eid, 0⟩ .dma agent va.toNat 11 0))
    else s.dmaTurn agent d (t.state ≠ .error))

/-! Link streams (R377) -/

/-- The source and destination EIDs of a stream, whose number stands for both where the link lists none (assumption 119). -/
def Link.pair (l : Link) (n : Nat) : Nat × Nat := Tab.getD l.pairs n (n % 4096, n % 4096)

/-- The enclave of this module that a stream ends or starts at. -/
def Link.localEid (l : Link) (n : Nat) : Nat := if n < 4096 then (l.pair n).2 else (l.pair n).1

/-- The key of a stream (R455), once the roots of trust at the link's ends have their session, and the nonce of its next flit. -/
def Link.streamKey (l : Link) (n : Nat) : Option (List Byte) := l.secret.map fun x =>
  hkdf (keyBytes x) [] (asciiBytes "Drefin stream" ++ leBytes 4 n ++ leBytes 2 (l.pair n).1 ++ leBytes 2 (l.pair n).2)
def Link.nonce (l : Link) (n : Nat) : List Byte := leBytes 4 n ++ leBytes 8 (Tab.getD l.streams n (0, true)).1

/-- LINK_FLIT_RECEIVE: an incoming stream carries the writes of an enclave of the peer for one here. A good flit is submitted (R318), and a
later turn of the same flit lands it; a bad one ends its stream with a record. The other end's report of a bad flit on an outgoing stream,
numbered from 4,096 on, ends it with this end's record. -/
def execLinkFlitReceive (link stream : Nat) (good : Bool) (va : BitVec 64) (data : List (BitVec 8)) (s : State) :
    Host.Outcome State Fault Refusal :=
  agent s (
    let l : Link := Tab.getD s.links link {}
    let x := Tab.getD l.streams stream (0, true)
    let eid := l.localEid stream
    let agent := (6, link * 4096 + stream % 4096)
    match s.liveEncl eid with
    | none => none
    | some e =>
      let sp : Space := ⟨e.guest, .ofNat 16 eid, 0⟩
      let d : Dma := { tdi := agent.2, tbit := true, va := va.toNat, write := true, data := data, sp := sp, at_ := [], link := true }
      let put (v : Nat × Bool) (s : State) : State := { s with links := s.links.put link { l with streams := l.streams.put stream v } }
      if good && stream < 4096 && s.dmas.any d.same then s.dmaTurn agent d true
      else if 16 ≤ link || !l.up || (l.streamKey stream).isNone || 8192 ≤ stream || (good && 4096 ≤ stream) || !x.2 then none
      else if !good then
        some ((put (x.1, false) s).terminalRecord (4 + link / 2) (faultRec sp .dma agent va.toNat 16 0))
      else (s.submit agent d).map (put (x.1 + 1, true)))

end Sys2Proof.Machine
end

