-- ==== Sys2Proof/Machine/Resilience.lean ====
section
/-! DEFINITION. Triplets, array errors and poison, repairs, the firmware tandem and live update, and the writes of the anchor die's
registers (R321, R322, R348, R379, R415-R424, R427, R445, R450). -/

namespace Sys2Proof.Machine

/-! Triplets (R415-R418) -/

/-- The triplets that exist. -/
def tripExists (t : Triplet) : Bool :=
  match t.kind.toNat with
  | 0 => t.slice.toNat < Config.slices && t.index = 0
  | 1 => decide (t.slice.toNat < Config.slices)
  | 2 => t.slice.toNat < Config.slices && t.index.toNat < 4
  | 3 => t.slice = 0 && t.index = 0
  | _ => false

def State.modTrip (s : State) (n : Nat) (f : Trip → Trip) : State := { s with trips := s.trips.put n (f (s.trip n)) }

/-- One copy of a triplet dissents: its resync begins (R416). -/
def State.resyncStart (s : State) (n copy : Nat) : State :=
  (s.modTrip n fun t => { t with
    resync := Nat.min (t.resync + 1) (2 ^ 32 - 1), last := copy, duplex := true, since := s.clock }).rasEvent 0

/-- TRIPLET_DISSENT: an upset of the copy under resync changes nothing (R417). -/
def execTripletDissent (trip : Triplet) (copy : Nat) (s : State) : Host.Outcome State Fault Refusal :=
  agent s (
    let t := s.trip (tripKey trip)
    if !tripExists trip || 3 ≤ copy || t.duplex || t.stop then none
    else some (s.resyncStart (tripKey trip) copy))

/-- RESYNC_END. -/
def execResyncEnd (trip : Triplet) (s : State) : Host.Outcome State Fault Refusal :=
  agent s (
    let t := s.trip (tripKey trip)
    if t.duplex && !t.stop then some (s.modTrip (tripKey trip) fun t => { t with duplex := false }) else none)

/-- The stop of a command processor (R349): the partition's launches end with ECPLANE and its queues stop with their entries kept. -/
def State.stopCp (s : State) (lead : Nat) : State :=
  let s := (s.launches.filter fun p => p.2.lead = lead).foldl (fun s p => s.endLaunch p.1 0x202) s
  { s with queues := s.queues.map fun p => if p.1 / 256 = lead then (p.1, { p.2 with stopped := true }) else p }

/-- The launches with an access in a walk that the stop of a walker triplet restarts end with ECPLANE (R314). Which launches have one there is
a free value (assumption 97). -/
def State.endWalks (s : State) : State :=
  s.launches.foldl (fun s p =>
    if s.teams.any (·.2.launch = p.1) && (s.free (2 ^ 26 + p.1)).getLsbD 0 then s.endLaunch p.1 0x202 else s) s

/-- The work that a stopped triplet served (Table 24.2). -/
def State.stopWork (s : State) (t : Triplet) : State :=
  let slice := t.slice.toNat
  match t.kind.toNat with
  | 0 => s.stopCp slice
  | 1 => match s.walkers.find? (·.is slice t.index.toNat) with
    | some w => s.endLaunch w.launch 0x202
    | none => s
  | 2 => s.endWalks.terminalRecord slice ⟨2, 0x80, 0, 0, slice, 0, 4, 0, slice * 2 ^ 28 + t.index.toNat * 2 ^ 26, 0⟩
  | _ => s

/-- The stop of a triplet (R418). -/
def State.stopTriplet (s : State) (trip : Triplet) : State :=
  ((s.modTrip (tripKey trip) fun t => { t with stop := true }).stopWork trip).rasEvent 1

/-- TRIPLET_STOP. -/
def execTripletStop (trip : Triplet) (s : State) : Host.Outcome State Fault Refusal :=
  agent s (if !tripExists trip || (s.trip (tripKey trip)).stop then none else some (s.stopTriplet trip))

/-- A copy whose state read finds an uncorrectable error counts as dissenting (R416): the triplet begins a resync of it. The copy under resync
is overwritten (R417); a second copy makes the triplet stop (R419). -/
def State.copyError (s : State) (trip : Triplet) (copy : Nat) : State :=
  let t := s.trip (tripKey trip)
  if t.stop then s
  else if !t.duplex then s.resyncStart (tripKey trip) copy
  else if t.last = copy then s else s.stopTriplet trip

/-- The queues that a command processor's restart releases: those of enclaves that have not failed. -/
def State.releaseQueues (s : State) (lead : Nat) : State :=
  { s with queues := s.queues.map fun p => if p.1 / 256 = lead && (s.liveEncl p.2.owner).isSome then (p.1, { p.2 with stopped := false })
    else p }

/-- TRIPLET_RESTART. -/
def execTripletRestart (trip : Triplet) (s : State) : Host.Outcome State Fault Refusal :=
  agent s (if !(s.trip (tripKey trip)).stop || s.tandem.failed then none
    else
      let s := s.modTrip (tripKey trip) fun t => { t with stop := false, duplex := false }
      some (if trip.kind = 0 then s.releaseQueues trip.slice.toNat else s))

/-! Array errors (R420-R422) -/

/-- Counts an error of a class on a slice (R415): CORR or UNCORR, each saturating; an uncorrectable one sets RASSTAT[2]. -/
def State.eccError (s : State) (cls slice : Nat) (uncorr : Bool) : State :=
  let key := if cls = 7 then 112 else cls * 16 + slice
  let c := Tab.getD s.reg.eccCnt key (0, 0)
  let up (n : Nat) : Nat := Nat.min (n + 1) (2 ^ 32 - 1)
  let s : State := { s with reg := { s.reg with
    eccCnt := Tab.set s.reg.eccCnt (0, 0) key (if uncorr then (c.1, up c.2) else (up c.1, c.2)) } }
  if uncorr then s.rasEvent 2 else s

/-- Notes in a quad that an array of it has reported an uncorrectable error, or a correction (R422). -/
def State.noteQuad (s : State) (q : Nat) (uncorr : Bool) : State :=
  s.modQuad q fun x => if uncorr then { x with uncorr := true } else { x with corr := s.ns :: x.corr }

/-- Counts an error of an array of a core or its quad (R415, R422). -/
def State.coreError (s : State) (cls core : Nat) (uncorr : Bool) : State :=
  let s := s.eccError cls (sliceOf core) uncorr
  if core < hostIx 0 then s.noteQuad (quadOf core) uncorr else s

/-- Whether the tandem removes a quad: an uncorrectable error, or more than 64 corrections within an hour (R422). -/
def State.quadFails (s : State) (q : Nat) : Bool :=
  (s.quad q).uncorr || 64 < ((s.quad q).corr.filter fun t => s.ns < t + 3600000000000).length

/-- The failure of the active complex (R423): the standby takes over, or, in simplex, every queue stops until module reset. -/
def State.tandemDown (s : State) : State :=
  if s.tandem.standby then
    { s with tandem := { s.tandem with activeB := !s.tandem.activeB, standby := false } }.rasEvent 4
  else
    let s : State := { s with tandem := { s.tandem with failed := true } }
    (List.range Config.slices).foldl State.stopCp s

/-- A line all of whose dirty bytes hold poison (R421). -/
def Line.dirtyAll (l : Line) : Line := { l with poison := (l.poison ++ l.dirty).dedup }

/-- UNCORRECTABLE_ERROR. -/
def execUncorrectableError (site : ErrorSite) (s : State) : Host.Outcome State Fault Refusal :=
  agent s (match site with
    | .register t code =>
      if (s.thread? t).isNone || 0x7C ≤ code then none
      else some ((s.modThread t fun x => { x with poison := code :: x.poison.filter (· ≠ code) }).coreError 0 (s.coreIx t) true)
    | .operandLog n => match s.log.find? (·.num == n) with
      | some e => some ({ s with log := s.log.map fun (x : LogEntry) => if x.num = n then { x with poison := true } else x }.coreError 0 e.core true)
      | none => none
    | .scratch o w =>
      if s.spadSize o ≤ 4 * w then none
      else
        some ((s.modStore o fun x => { x with poison := w :: x.poison.filter (· ≠ w) }).coreError 1 (s.ownerCore o) true)
    | .tile team key => match s.teams.find team with
      | some t => some ((s.modTeam team fun x => { x with tpoison := key :: x.tpoison.filter (· ≠ key) }).coreError 3 t.core true)
      | none => none
    | .l1 core line =>
      let hit (l : Line) : Bool := l.core = core && l.va = line
      if !s.lines.any hit then none
      else
        let dirty := s.lines.any fun l => hit l && !l.dirty.isEmpty
        some ({ s with lines := (s.lines.filter fun l => !(hit l && l.dirty.isEmpty)).map fun l => if hit l then l.dirtyAll else l }.coreError 2
          core dirty)
    | .clean cls slice quad =>
      if cls < 8 && slice < Config.slices && quad.all (· < Config.quadsPerSlice) then
        let s := s.eccError cls slice false
        some (match quad with
          | some q => s.noteQuad (96 * slice + q) false
          | none => s)
      else none
    | .barrier o h =>
      if ((s.store o).bars.find h).isNone then none
      else some ((s.modStore o fun x => { x with bars := x.bars.map fun b => if b.1 = h then (h, { b.2 with poison := true }) else b }).coreError 1
        (s.ownerCore o) true)
    | .bBuffer op => match s.quads.find? fun q => q.2.bufs.any (·.op = op) with
      | none => none
      | some (q, x) => match x.bufs.find? (·.op = op) with
        | none => none
        | some b => some ((s.modQuad q fun x => { x with
            bufs := x.bufs.map fun (y : BBuf) => if y.op = op then { y with poison := true } else y }).coreError 3 b.core true)
    | .roLine instr core line =>
      -- A line of a constant cache stands under its quad's number.
      let hit (l : Line) : Bool := l.core = core && l.va = line
      if instr then
        if s.ilines.any hit then some ({ s with ilines := s.ilines.filter (!hit ·) }.coreError 2 core false) else none
      else if s.clines.any hit then some ({ s with clines := s.clines.filter (!hit ·) }.coreError 2 (4 * core) false) else none
    | .tlb sp page =>
      let hit (t : Tlb) : Bool := t.sp = sp && t.page = page
      if s.tlb.any hit then some ({ s with tlb := s.tlb.filter (!hit ·) }.eccError 5 (homeOf (page * 4096)) false) else none
    | .counterCache slice => if slice < Config.slices then some (s.eccError 5 slice false) else none
    | .queueEntry slice copy =>
      if slice < Config.slices && copy < 3 then some ((s.eccError 5 slice false).copyError ⟨0, .ofNat 4 slice, 0⟩ copy) else none
    | .journal copy => if copy < 3 then some ((s.eccError 7 0 true).copyError ⟨3, 0, 0⟩ copy) else none
    | .tripletState trip copy => if tripExists trip && copy < 3 then some (s.copyError trip copy) else none
    | .hbm pa =>
      let slice := pa / 2 ^ 36
      if Config.slices ≤ slice || s.l2.any (·.line = pa / 128) then none
      else if Config.ctreeBase ≤ pa % 2 ^ 36 then some { s with badMeta := pa / 64 :: s.badMeta.filter (· ≠ pa / 64) }
      else some { s with badTags := pa / 64 :: s.badTags.filter (· ≠ pa / 64) }
    | .l2 pa =>
      let slice := pa / 2 ^ 36
      if slice < Config.slices then
        some ((s.eccError 4 slice true).poisonFrame (pa / 4096) (s.pot (pa / 4096)).space .read 0 slice (4, slice * 2 ^ 28))
      else none
    | .rootStore slice m =>
      if slice < Config.slices && m < 4096 then
        some ((s.eccError 6 slice true).poisonMany ((List.range 4096).map (slice * 2 ^ 24 + m * 4096 + ·)) slice)
      else none
    | .tandem b =>
      let s := s.eccError 7 0 true
      some (if s.tandem.failed then s
        else if b = s.tandem.activeB then s.tandemDown
        else { s with tandem := { s.tandem with standby := false } }))

/-- QUAD_AUTO_REMOVE: the errors that are the reason no longer count once the quad is out. -/
def execQuadAutoRemove (slice quad : Nat) (s : State) : Host.Outcome State Fault Refusal :=
  agent s (
    let q := 96 * slice + quad
    if quadOk slice quad && !(s.quad q).out && s.quadFails q then
      some (((s.modQuad q fun x => { x with uncorr := false, corr := [] }).quadOut q).rasEvent 3)
    else none)

/-! The firmware tandem (R423, R424, R445) -/

/-- TANDEM_FAILOVER: complex A misses its heartbeat. -/
def execTandemFailover (s : State) : Host.Outcome State Fault Refusal :=
  agent s (if s.tandem.standby && !s.tandem.failed then some s.tandemDown else none)

/-- TANDEM_REJOIN: the failed complex rejoins as standby, or the tandem runs simplex. -/
def execTandemRejoin (ok : Bool) (s : State) : Host.Outcome State Fault Refusal :=
  agent s (if s.tandem.standby || s.tandem.failed then none
    else if ok then some { s with tandem := { s.tandem with standby := true, simplex := false } }
    else some ({ s with tandem := { s.tandem with simplex := true } }.rasEvent 5))

/-- TANDEM_SIMPLEX_FAILURE. -/
def execTandemSimplexFailure (s : State) : Host.Outcome State Fault Refusal :=
  agent s (if s.tandem.simplex && !s.tandem.failed then some s.tandemDown else none)

/-- A firmware image (Table 26.1): its bytes, rollback number and COMMIT, the signed message and the signature. -/
structure FwImage where
  bytes    : List Byte
  rollback : Nat
  commit   : Bool
  message  : List Byte
  sig      : List Byte

/-- The image at an address, when its header is well formed and the frames are HYP. -/
def fwImage (s : State) (v : Nat) : Option FwImage :=
  let pages := v / 2 ^ 48
  let pa := v % 2 ^ 48
  let bs := Memory.bytes s.mem pa (pages * 4096)
  let len := field bs 16 8
  let sig := field bs 24 4
  let ok := (List.range pages).all (fun k => (s.pot (pa / 4096 + k)).state = .hyp && s.verifies (pa + 4096 * k) 4096)
    && field bs 0 4 = 0x57465244 && field bs 4 4 = 1 && field bs 8 4 ≤ 255 && field bs 12 4 ≤ 1 && len % 4096 = 0
    && 1 ≤ sig && sig ≤ 65535 && allZero (slice bs 28 36) && 64 + len + sig ≤ pages * 4096
  if ok then some ⟨bs, field bs 8 4, field bs 12 4 = 1, bs.take (64 + len), slice bs (64 + len) sig⟩ else none

/-- The end of a live update (R424): the command boundaries that it has asked for are released. -/
def State.endUpdate (s : State) (result : Nat) : State :=
  { s with
    paused := s.paused.filter fun k => !s.tandem.quiet.contains k
    tandem := { s.tandem with update := none, result := result, quiet := [] } }.rasEvent 6

/-- The lead slices of the partitions that are not at a quiescent command boundary (R350). -/
def State.unpaused (s : State) : List Nat := (List.range Config.slices).filter fun k => partEn (s.part k) && !s.paused.contains k

/-- A write of FWUPD: ignored while BUSY. -/
def State.startUpdate (s : State) (v : BitVec 64) : State :=
  if s.tandem.update.isSome || v.toNat / 2 ^ 48 = 0 || v.toNat % 4096 ≠ 0 then s
  else { s with tandem := { s.tandem with update := some v } }

/-- FWUPD: the update that the write of this value started goes on. It ends with the result of its checks; or it asks every partition for a
quiescent command boundary, where no command is in progress between steps, and then ends with B active under the new image. With no update
running it is the write. -/
def execFwupd (value : BitVec 64) (s : State) : Host.Outcome State Fault Refusal :=
  agent s (
    if s.tandem.update.isNone then some (s.startUpdate value)
    else if s.tandem.update ≠ some value then none
    else if !s.tandem.standby then some (s.endUpdate 5)
    else match fwImage s value.toNat with
      | none => some (s.endUpdate 2)
      | some f =>
        if !Config.firmwareSigned f.message f.sig then some (s.endUpdate 2)
        else if f.rollback < s.tandem.minRoll then some (s.endUpdate 3)
        else match Config.conversion f.bytes s.tandem.version with
          | none => some (s.endUpdate 4)
          | some ver =>
            if !s.unpaused.isEmpty then
              some { s with paused := s.unpaused ++ s.paused, tandem := { s.tandem with quiet := s.tandem.quiet ++ s.unpaused } }
            else
              some ({ s with tandem := { s.tandem with
                activeB := !s.tandem.activeB, version := ver % 65536, commit := if f.commit then some f.rollback else none
                digest := some (keyOf (sha256 f.message)) } }.endUpdate 1))

/-! Clearing writes (R322, R415, R450) -/

/-- FRLOST_CLEAR. -/
def execFrlostClear (s : State) : Host.Outcome State Fault Refusal := agent s (some { s with reg := { s.reg with frlost := 0 } })

/-- TRSTAT_CLEAR. -/
def execTrstatClear (s : State) : Host.Outcome State Fault Refusal :=
  agent s (some (s.modTrip (s.reg.trsel.toNat % 4096) fun t => { t with resync := 0, last := 3 }))

/-- ECCCNT_CLEAR. -/
def execEcccntClear (s : State) : Host.Outcome State Fault Refusal :=
  agent s (some { s with reg := { s.reg with eccCnt := s.reg.eccCnt.del s.eccKey } })

/-- RASSTAT_CLEAR: a write with a nonzero reserved bit is ignored. -/
def execRasstatClear (value : BitVec 64) (s : State) : Host.Outcome State Fault Refusal :=
  agent s (if value.toNat < 128 then some { s with reg := { s.reg with rasstat := s.reg.rasstat &&& ~~~(value.setWidth 7) } } else none)

/-- The counter that SEVSEL last selected (Table 26.5). -/
def State.sevKey (s : State) : Nat := s.reg.sevsel.toNat / 2 ^ 20 % 16 * 16 + s.reg.sevsel.toNat / 2 ^ 16 % 16

/-- SEVCNT_CLEAR. -/
def execSevcntClear (s : State) : Host.Outcome State Fault Refusal :=
  agent s (some { s with reg := { s.reg with sevcnt := s.reg.sevcnt.del s.sevKey } })

/-! The registers that only store their fields (R321, R348, R379, R415, R427, R450) -/

/-- NSRC in [12:8] and NCORE 0-95 in [6:0], with every other bit zero. -/
def irqFields (v : Nat) : Bool := v / 2 ^ 13 = 0 && v / 128 % 2 = 0 && v % 128 < Config.hosts

/-- BASE in [47:21] on a slice, N in [20:5], EN in [0], with the reserved bits zero. -/
def areaFields (k v : Nat) : Bool :=
  v / 2 ^ 48 = 0 && v / 2 % 16 = 0 && (v % 2 = 0 || (v / 2 ^ 36 = k && v / 2 ^ 21 % 2 ^ 15 + v / 32 % 2 ^ 16 ≤ 2 ^ 15))

/-- Whether a TRSEL value names a triplet. -/
def trselFields (v : Nat) : Bool :=
  v < 4096 && tripExists ⟨.ofNat 4 (v / 256), .ofNat 4 (v / 16), .ofNat 4 v⟩

/-- A write of a register of the partition and pool block (Table 20.1). -/
def State.writePool (s : State) (o v : Nat) : Anchor :=
  let r := s.reg
  let x : Dword := .ofNat 64 v
  if o = 0x60 then (if v / 2 ^ 48 = 0 && v % 256 = 0 then { r with gptab := x } else r)
  else if o = 0x200 then (if v / 2 ^ 16 = 0 && v / 16 % 16 = 0 && v % 16 < Config.slices then { r with slsel := x } else r)
  else if o = 0x208 then
    (if v / 2 ^ 16 = 0 && v ≠ 0 then { r with waymask := Tab.set r.waymask 0xFFFF r.slsel.toNat (.ofNat 16 v) } else r)
  else if o = 0x210 then (if v / 64 = 0 then { r with share := Tab.set r.share 0 (r.slsel.toNat % 16) (.ofNat 6 v) } else r)
  else if 0x240 ≤ o && o < 0x2A0 then
    (if areaFields ((o - 0x240) / 8) v then { r with svpool := Tab.set r.svpool 0 ((o - 0x240) / 8) x } else r)
  else if o = 0x300 then
    (if v / 2 ^ 29 = 0 && v / 65536 ≤ 4703 then
      let e := s.energy (enqCore (v / 65536)) (v % 65536)
      { r with enqsel := x, enqval := .ofNat 64 (bit e.2 * 2 ^ 63 + e.1) }
    else r)
  else r

/-- A write of a register of the checkpoint block (Table 25.1). -/
def Anchor.writeCk (r : Anchor) (o v : Nat) : Anchor :=
  let x : Dword := .ofNat 64 v
  if o = 0 then (if v / 65536 = 0 then { r with cksel := x } else r)
  else if o = 0x10 then (if irqFields v then { r with ckirq := x } else r)
  else if 0x40 ≤ o && o < 0xA0 then
    (if areaFields ((o - 0x40) / 8) v then { r with ckarea := Tab.set r.ckarea 0 ((o - 0x40) / 8) x } else r)
  else if 0xA0 ≤ o && o < 0x100 then
    (if areaFields ((o - 0xA0) / 8) v then { r with ckpool := Tab.set r.ckpool 0 ((o - 0xA0) / 8) x } else r)
  else r

/-- A write of a register of the trust, link and power block (Table 26.5). -/
def Anchor.writePower (r : Anchor) (o v : Nat) : Anchor :=
  let x : Dword := .ofNat 64 v
  if o = 0x60 then
    (let t := v / 2 ^ 16 % 256
     if v / 2 ^ 24 = 0 && irqFields (v % 2 ^ 16) && 85 ≤ t && t ≤ 110 then { r with thrcfg := x } else r)
  else if o = 0x70 then
    (if v / 2 ^ 24 = 0 && v / 1024 % 64 = 0 && v / 2 ^ 20 % 16 < Config.slices then
      { r with sevsel := x, sevsrc := r.sevsrc.put (v / 2 ^ 16) (v % 1024) }
    else r)
  else if 0x80 ≤ o && o < 0xA0 then
    (if irqFields v then { r with pciecfg := Tab.set r.pciecfg 0 ((o - 0x80) / 8) x } else r)
  else r

/-- A write of a register of the resilience block (Table 24.1). -/
def Anchor.writeRas (r : Anchor) (o v : Nat) : Anchor :=
  let x : Dword := .ofNat 64 v
  if o = 0 then (if trselFields v then { r with trsel := x } else r)
  else if o = 0x10 then
    -- SLICE is ignored for CLASS 7, and reads as zero.
    (if v / 2 ^ 11 = 0 && v / 16 % 16 = 0 && (v / 256 = 7 || v % 16 < Config.slices) then
      { r with eccsel := if v / 256 = 7 then 0x700 else x } else r)
  else if o = 0x20 then (if irqFields v then { r with rascfg := x } else r)
  else r

/-- A write to a register without an event of its own: it stores its fields, or is ignored. -/
def State.writeRegister (s : State) (off v : Nat) : State :=
  let o := off % 0x1000
  match off / 0x1000 with
  | 1 =>
    if o = 0 then (if v / 2 ^ 48 = 0 && v % 4096 = 0 then { s with reg := { s.reg with frtab := .ofNat 64 v } } else s)
    else if o = 8 then
      (if v / 2 ^ 12 = 0 && v % 256 ≠ 0 then { s with reg := { s.reg with frwt := Tab.set s.reg.frwt 0 (v % 256) (v / 256) } } else s)
    else s
  | 3 =>
    if o = 0x68 then
      (if v / 2 ^ 20 = 0 && 1 ≤ v / 2 ^ 16 then s.modEncl (v % 65536) fun e => { e with weight := v / 2 ^ 16 } else s)
    else { s with reg := s.writePool o v }
  | 4 => { s with reg := s.reg.writeRas o v }
  | 5 => { s with reg := s.reg.writeCk o v }
  | 6 => { s with reg := s.reg.writePower o v }
  | _ => s

/-- REGISTER_WRITE. -/
def execRegisterWrite (offset : Nat) (value : BitVec 64) (s : State) : Host.Outcome State Fault Refusal :=
  agent s (some (s.writeRegister offset value.toNat))

end Sys2Proof.Machine
end

