-- ==== Sys2Proof/Machine/Checkpoint.lean ====
section
/-! DEFINITION. Notices, checkpoints, restores and migrations (R427-R443). -/

namespace Sys2Proof.Machine

/-- What a checkpoint of another module holds, known by its shards' digests, and what a migration stream brings, numbered by
`State.fresh`. -/
opaque foreignImage : List (BitVec 256) → CkImage
opaque streamedImage : Nat → CkImage

/-! Events and statuses (Tables 25.1 and 25.3) -/

def CkStatus.code : CkStatus → Nat
  | .ok => 0 | .badreq => 1 | .badstate => 2 | .notallowed => 3 | .nores => 4 | .authfail => 5 | .stepmismatch => 6 | .busy => 7

/-- An event of an enclave: CKSTAT's EVENT and STATUS, and CKIRQ. -/
def State.ckNote (s : State) (eid event : Nat) (x : CkStatus) : State :=
  let s := { s with reg := { s.reg with ckLast := s.reg.ckLast.put eid (event, x.code) } }
  let nsrc := s.reg.ckirq.toNat / 256 % 32
  if nsrc = 0 then s else s.assertIrq (s.reg.ckirq.toNat % 128) true nsrc

def Encl.checkpointable (e : Encl) : Bool := e.ctl.getLsbD 10
def Encl.migratable (e : Encl) : Bool := e.ctl.getLsbD 9

/-! Notices (R428, R429) -/

/-- A notice to one enclave: also a soft request for it on every core of its partition (R383). -/
def State.notify (s : State) (eid deadline : Nat) : State :=
  match s.liveEncl eid with
  | none => s
  | some e =>
    if !e.checkpointable then s
    else ((s.modEncl eid fun e => { e with notice := earlier e.notice (some deadline) }).looseCount (.ctx eid 255) 32).ckNote eid 1 .ok
      |>.softRequest eid (s.partCores e.lead)

/-- Whether a session is open on the management port: commands are accepted only inside one (R449). -/
def State.managed (s : State) : Bool := s.sessions.any fun x => !x.relay && x.done

/-- The answer of a management command, one status byte; the command restarts its session's idle time (R448, R449). -/
def State.respond (s : State) (code : Nat) : State :=
  let mine (x : Session) : Bool := !x.relay && x.done
  { s with
    spdmOut := s.spdmOut ++ [⟨false, (s.sessions.find? mine).map (·.num), [.ofNat 8 code]⟩]
    sessions := s.sessions.map fun x => if mine x then { x with last := s.ns } else x }

/-- NOTICE. -/
def execNotice (eid : BitVec 16) (deadline : BitVec 64) (s : State) : Host.Outcome State Fault Refusal :=
  agent s (if !s.managed then none
    else if eid.toNat = 0xFFFF then
      some ((s.encls.foldl (fun s e => s.notify e.1 deadline.toNat) s).respond 0)
    else some ((s.notify eid.toNat deadline.toNat).respond (match s.liveEncl eid.toNat with
      | some _ => Status.ok.code
      | none => Status.badstate.code)))

/-- NOTICE_DEADLINE. -/
def execNoticeDeadline (eid : Nat) (s : State) : Host.Outcome State Fault Refusal :=
  agent s (match s.liveEncl eid with
    | none => none
    | some e => match e.notice with
      | none => none
      | some d =>
        if s.ns < d || s.ckJobs.any (fun j => j.eid = eid && !j.restore && j.move.isNone) then none
        else some (((s.modEncl eid fun e => { e with notice := none }).orderHalt eid).ckNote eid 4 .ok))

/-! Areas (Table 25.1) -/

def areaBase (v : Dword) : Nat := v.toNat / 2 ^ 21 % 2 ^ 27 * 2 ^ 21
def areaSize (v : Dword) : Nat := v.toNat / 32 % 2 ^ 16 * 2 ^ 21
def areaOn (v : Dword) : Bool := v.getLsbD 0
def State.ckarea (s : State) (k : Nat) : Dword := Tab.getD s.reg.ckarea k 0
def State.ckpool (s : State) (k : Nat) : Dword := Tab.getD s.reg.ckpool k 0

/-- Where shard `k` stands: behind the manifest on the lead slice. -/
def State.shardAt (s : State) (lead k : Nat) : Nat := areaBase (s.ckarea k) + if k = lead then 4096 else 0

/-! Shards (R433, R434) -/

def recHeader (ty len va perm version : Nat) : List Byte :=
  leBytes 4 ty ++ leBytes 4 len ++ leBytes 8 va ++ leBytes 2 perm ++ List.replicate 6 0 ++ leBytes 8 version

def PageRec.bytes (r : PageRec) : List Byte := recHeader r.ty r.body.length r.va r.perm r.version ++ r.body

/-- The nonzero level-3 entries under a node, with their addresses. -/
def tableLeaves (s : State) : Nat → Nat → Nat → Nat → List (Nat × Nat)
  | 0, _, _, _ => []
  | n + 1, lev, node, base =>
    (List.range (if lev = 0 then 8192 else 512)).flatMap fun i =>
      let e := Memory.u64 s.mem (node + 8 * i)
      let va := base + i * (if lev = 3 then 4096 else nodeSpan (lev + 1))
      if lev = 3 then (if e = 0 then [] else [(va, e)])
      else if pteV e && pteT e then tableLeaves s n (lev + 1) (ptePfn e * 4096) va
      else []

/-- The record of a page of an enclave by its entry; kick pages have none. -/
def pageRec (s : State) (x : Encl) (va e : Nat) : Option PageRec :=
  let perm := e / 4 % 8
  if pteV e then
    if !pteE e then none
    else
      let p := s.pot (ptePfn e)
      match p.state with
      | .encl => if p.pend then some ⟨3, va, perm, 0, []⟩ else some ⟨1, va, perm, 0, Memory.bytes s.mem (ptePfn e * 4096) 4096⟩
      | .discarded => some ⟨2, va, perm, 0, []⟩
      | _ => none
  else if pteR e then some ⟨4, va, Tab.getD x.evPerms (va / 4096) 0, e / 8, []⟩
  else none

def State.shardPages (s : State) (e : Encl) (k : Nat) : List PageRec :=
  match e.roots.find k with
  | some root => (tableLeaves s 4 0 root (k * 2 ^ 52)).filterMap fun p => pageRec s e p.1 p.2
  | none => []

/-- The image records of a shard, whose bodies only an S12 reads: teams sealed on the slice, and, on the lead slice, launches, save
pages and the context state. -/
def imageRecs (number k lead : Nat) (x : CkImage) : List Byte :=
  let teams := (x.teams.filter fun t => t.team.core / 384 = k).length
  let tys := List.replicate teams 5 ++ (if k = lead then
    List.replicate x.launches.length 6 ++ List.replicate x.saves.length 7 ++ [8] else [])
  ((List.range tys.length).zip tys).flatMap fun p =>
    let body := Config.imageBody number (256 * p.1 + k)
    recHeader p.2 body.length 0 0 0 ++ body

/-- The chunks of a stream, sealed (R434). -/
def sealChunks (key hdr : List Byte) (k : Nat) : Nat → Nat → List Byte → List Byte
  | 0, _, _ => []
  | n + 1, i, bs =>
    let c := bs.take 4096
    let plain := c ++ List.replicate (4096 - c.length) 0
    let r := gcmSeal key (leBytes 4 k ++ leBytes 8 i) hdr plain
    r.1 ++ r.2 ++ sealChunks key hdr k n (i + 1) (bs.drop 4096)

def shardKey (ek : List Byte) (step k : Nat) : List Byte := hkdf ek (leBytes 8 step) (asciiBytes "Drefin shard" ++ [.ofNat 8 k])

def shardHeader (k step ckseq n : Nat) : List Byte :=
  leBytes 4 1 ++ [.ofNat 8 k] ++ List.replicate 3 0 ++ leBytes 8 step ++ leBytes 8 ckseq ++ leBytes 8 n ++ List.replicate 32 0

def shardBytes (ek : List Byte) (step ckseq k : Nat) (stream : List Byte) : List Byte :=
  let n := (stream.length + 4095) / 4096
  let hdr := shardHeader k step ckseq n
  hdr ++ sealChunks (shardKey ek step k) hdr k n 0 stream

/-! The manifest (R435) -/

/-- Bytes 0-735 of a manifest. -/
def manifestHead (e : Encl) (x : CkImage) (user : List Byte) (shards : List (List Byte)) : List Byte :=
  leBytes 4 1 ++ leBytes 4 0 ++ leBytes 8 x.step ++ leBytes 8 x.ckseq ++ leBytes 8 x.tsaved ++ leBytes 8 x.tsv ++ leBytes 8 0
    ++ keyBytes e.meas ++ keyBytes e.policy ++ user ++ List.replicate 16 0
    ++ shards.flatMap fun b => leBytes 8 b.length ++ sha256 b ++ leBytes 8 0

/-- The whole manifest under nonces of the root of trust. -/
def manifestBytes (s : State) (e : Encl) (head : List Byte) : List Byte :=
  let ek := keyBytes e.export_
  let n1 := beBytes 12 (Config.nonce s.keysMade).toNat
  let n2 := beBytes 12 (Config.nonce (s.keysMade + 1)).toNat
  let hdr := [1, 2, 0, 0]
  let w := gcmSeal (wrapKey e 2) n1 hdr ek
  let p := gcmSeal ek n2 head (keyBytes e.paging)
  head ++ hmac ek head ++ hdr ++ n1 ++ w.1 ++ w.2 ++ List.replicate 64 0 ++ n2 ++ p.1 ++ p.2 ++ List.replicate 3140 0

/-! Capturing a halted context (R433) -/

/-- A launch with its queue's number within the enclave in place of the queue. -/
def Launch.portable (l : Launch) (e : Encl) : Launch := { l with queue := e.queues.idxOf l.queue }

/-- What the halted context of an enclave holds. -/
def State.capture (s : State) (eid : Nat) (e : Encl) (step rva : Nat) : CkImage :=
  { step := step, ckseq := e.ckseq + 1, tsaved := e.tsaved.getD 0, tsv := e.tsv s.ns
    pages := (List.range Config.slices).flatMap (s.shardPages e)
    teams := e.images
    launches := (s.launches.filter fun p => p.2.eid = eid).map fun p => (p.1, p.2.portable e)
    queues := e.queues.filterMap s.queues.find
    saves := e.saves, chans := e.chans
    counters := (List.range (64 * 8)).filterMap fun i =>
      (s.evcnt.find (evKey (saveIx eid (i / 8)) eid (i % 8))).map fun v => (i, v)
    energy := (s.meters.filter fun m => m.1 % 65536 = eid).map fun m =>
      (m.1 / 65536, Nat.min (m.2.live + m.2.tab) (2 ^ 48 - 1), m.2.sat || m.2.tsat || 2 ^ 48 ≤ m.2.live + m.2.tab)
    evicts := e.evicts, seq := e.seq, data := e.data, bars := e.bars, rva := rva, paging := e.paging, digests := [] }

/-- Whether the halt of a context is complete: no team of it stands on a core, no host core runs a thread of it, no L1 holds a line of it, its
link-stream writes have landed and no frame of it is pinned (R431). -/
def State.haltDone (s : State) (eid : Nat) : Bool :=
  (s.contextTeams eid).isEmpty && s.lines.all (·.sp.eid.toNat ≠ eid) && !(s.hosts.any fun h => h.2.entered.any (·.1 = eid))
    && s.dmas.all (fun d => !(d.link && d.sp.eid.toNat = eid)) && s.pins.all fun p => p.2 = 0 || (s.pot p.1).owner.toNat ≠ eid

/-! Results (R436) -/

def resultBytes (step ckseq tsr : Nat) (x : CkStatus) (kind : Nat) : List Byte :=
  leBytes 8 step ++ leBytes 8 ckseq ++ leBytes 8 tsr ++ leBytes 4 x.code ++ [.ofNat 8 kind, 0, 0, 0]

/-- Writes a result record at RVA, then counts 32 bytes on handle 254, whose signature names the record's line too: whether it has been
written or given up. -/
def State.ckResult (s : State) (eid : Nat) (e : Encl) (rva step : Nat) (x : CkStatus) (kind : Nat) : State × Bool :=
  let sp : Space := ⟨e.guest, .ofNat 16 eid, 0⟩
  let r := s.releaseContext sp
  let bs := resultBytes step (match s.encls.find eid with
    | some e => e.ckseq
    | none => 0) (s.timestamp eid false) x kind
  match writeSignal r.1 e.lead sp rva bs r.2 with
  | .ok s _ => (s.countHandle e.lead sp 254 (r.2 ||| sigOf (rva / 128)), true)
  | .bad s => (s.countHandle e.lead sp 254 r.2, true)
  | .wait s _ => (s, false)
  | .held => (s, false)

/-! Requests (R430, R432) -/

def CkJob.step (j : CkJob) : Nat := field j.data 8 8
def CkJob.rva (j : CkJob) : Nat := field j.data 16 8
def CkJob.mode (j : CkJob) : Nat := field j.data 24 1
def CkJob.user (j : CkJob) : List Byte := slice j.data 32 32
def CkJob.kva (j : CkJob) : Nat := field j.data 32 8

/-- Whether a VA is of a page of an enclave with W: by its leaf, or by the permissions that an evicted page had. -/
def State.writablePage (s : State) (eid : Nat) (e : Encl) (va : Nat) : Bool :=
  match walkLeaf s ⟨e.guest, .ofNat 16 eid, 0⟩ va with
  | .ok (_, x, _) => pteE x && pteW x
  | .error f => f.trap.retryable && Tab.getD e.evPerms (va / 4096) 0 / 2 % 2 = 1

/-- DATA that breaks Table 25.2. -/
def State.malformed (s : State) (e : Encl) (j : CkJob) : Bool :=
  1 < j.mode || !s.writablePage j.eid e j.rva || !allZero (slice j.data 25 7) || j.rva % 32 ≠ 0 || !wellFormedVa j.rva
    || (if j.restore then !allZero (slice j.data 40 24) || j.kva % 32 ≠ 0 else j.step = 0)

/-- Whether a job may run now: it is the oldest request, and no migration of another enclave runs. -/
def State.ckTurn (s : State) (j : CkJob) : Bool :=
  s.ckJobs.head? = some j && s.encls.all fun e => e.1 = j.eid || e.2.migr.isNone

/-- A second request of an enclave whose first has not ended. -/
def State.secondJob (s : State) (eid : Nat) (restore : Bool) : Option CkJob :=
  ((s.ckJobs.filter (·.eid == eid)).drop 1).find? fun j => j.restore == restore && j.move.isNone && j.result.isNone

/-- The end of the halt: with MODE 0 the context resumes, unless PREEMPT or a notice has halted it too, or an earlier checkpoint with MODE 1
(R460); with MODE 1 it stays halted. -/
def State.endHalt (s : State) (eid : Nat) (stay : Bool) : State :=
  match s.encls.find eid with
  | none => s
  | some e =>
    if stay then s.modEncl eid fun e => { e with stay := true }
    else if e.ordered || e.stay then s
    else s.resumeContext eid

/-- The event of a result by its KIND (Tables 25.1 and 25.3). -/
def ckEvent (kind : Nat) : Nat := if kind = 1 then 2 else if kind = 2 then 3 else 6

/-- Writes the result record of a request whose work is over; once it is written the event follows, and a context that the request halted goes
on or stays halted (R431 steps 5 and 6, R438 step 5). -/
def State.finishJob (s : State) (j : CkJob) (e : Encl) (r : CkResult) : State :=
  match s.ckResult j.eid e r.rva r.step r.status r.kind with
  | (s, done) =>
    if !done then s
    else
      let s := { s with ckJobs := s.ckJobs.erase j }.ckNote j.eid (ckEvent r.kind) r.status
      if j.began then s.endHalt j.eid (j.mode = 1) else s

/-- The work of a request is over: its result record is to be written. -/
def State.endJob (s : State) (j : CkJob) (e : Encl) (r : CkResult) : State :=
  let j' := { j with result := some r }
  { s with ckJobs := s.ckJobs.map fun x => if x = j then j' else x }.finishJob j' e r

/-- The result of a request that ends with a status of its own. -/
def CkJob.ends (j : CkJob) (x : CkStatus) : CkResult := ⟨j.rva, j.step, x, if j.restore then 2 else 1⟩

/-- A second request receives BUSY (R431). -/
def State.refuseBusy (s : State) (j : CkJob) : Option State :=
  (s.encls.find j.eid).map fun e => match s.ckResult j.eid e j.rva j.step .busy (if j.restore then 2 else 1) with
    | (s, done) => if done then { s with ckJobs := s.ckJobs.erase j } else s

/-- Whether a TDI is bound to the enclave in RUN. -/
def State.tdiRuns (s : State) (eid : Nat) : Bool := s.tdis.any fun t => t.2.eid = eid && t.2.state = .run

/-! Taking a checkpoint (R431) -/

/-- The checks of step 1. -/
def ckStatus (s : State) (j : CkJob) (e : Encl) : CkStatus :=
  if e.failed || s.tdiRuns j.eid then .badstate
  else if !e.checkpointable then .notallowed
  else if e.migr.isSome then .busy
  else if (List.range Config.slices).any fun k => !areaOn (s.ckarea k) then .nores
  else if s.malformed e j then .badreq
  else .ok

/-- The areas hold any value after a checkpoint that did not fit (R431). -/
def State.spoilAreas (s : State) : State :=
  (List.range Config.slices).foldl (fun s k =>
    (s.homeWrite (areaBase (s.ckarea k)) ((List.range (areaSize (s.ckarea k))).map fun i => .ofNat 8 (s.free (2 ^ 28 + i)).toNat)).freshen) s

/-- Steps 3-6, once the context is halted. -/
def State.formCheckpoint (s : State) (j : CkJob) (e : Encl) : State :=
  match (s.framesOf j.eid).find? fun p => !s.verifies (p.1 * 4096) 4096 with
  | some p => s.poisonFrame p.1 p.2.space .read 0 (p.1 / 2 ^ 24) (5, e.lead * 2 ^ 28)
  | none =>
    let ek := keyBytes e.export_
    let x := s.capture j.eid e j.step j.rva
    let shards := (List.range Config.slices).map fun k =>
      shardBytes ek j.step x.ckseq k ((s.shardPages e k).flatMap PageRec.bytes ++ imageRecs s.fresh k e.lead x)
    let fits := (List.range Config.slices).all fun k =>
      (shards.getD k []).length + (if k = e.lead then 4096 else 0) ≤ areaSize (s.ckarea k)
    if !fits then s.spoilAreas.endJob j e (j.ends .nores)
    else
      let head := manifestHead e x j.user shards
      let m := manifestBytes s e head
      let s := (List.range Config.slices).foldl (fun s k => s.homeWrite (s.shardAt e.lead k) (shards.getD k [])) s
      let s := s.homeWrite (areaBase (s.ckarea e.lead)) m
      let s : State := { s with
        keysMade := s.keysMade + 2
        sealed := s.sealed ++ [{ x with digests := shards.map fun b => keyOf (sha256 b) }] }
      let s := s.modEncl j.eid fun e => { e with ckseq := e.ckseq + 1, notice := none }
      s.endJob j e (j.ends .ok)

/-- CHECKPOINT: one turn of a request: its checks and the halt; when the halt is complete, the rest; and the result record, where its page was
not there before. -/
def execCheckpoint (eid : Nat) (s : State) : Host.Outcome State Fault Refusal :=
  agent s (match s.secondJob eid false with
    | some j => s.refuseBusy j
    | none => match s.ckJobs.find? (·.eid == eid), s.encls.find eid with
      | some j, some e =>
        if j.restore || j.move.isSome || !s.ckTurn j then none
        else match j.result with
          | some r => some (s.finishJob j e r)
          | none =>
            if !j.began then match ckStatus s j e with
              | .ok => some ({ s with ckJobs := s.ckJobs.map fun (x : CkJob) => if x = j then { x with began := true } else x }.haltContext eid)
              | x => some (s.endJob j e (j.ends x))
            else if e.failed then some (s.endJob j e (j.ends .badstate))
            else if s.haltDone eid then some (s.formCheckpoint j e)
            else some (s.forceHalt eid)
      | some j, none => some { s with ckJobs := s.ckJobs.erase j }
      | none, _ => none)

/-! Restoring (R437, R438) -/

/-- The records of a stream of plaintext chunks. -/
def parseRecs : Nat → List Byte → List PageRec
  | 0, _ => []
  | n + 1, bs =>
    let ty := field bs 0 4
    let len := field bs 4 4
    if ty = 0 || bs.length < 32 then []
    else ⟨ty, field bs 8 8, field bs 16 2, field bs 24 8, slice bs 32 len⟩ :: parseRecs n (bs.drop (32 + len))

/-- The plaintext of a shard, when every chunk's tag verifies. -/
def openChunks (key hdr : List Byte) (k : Nat) : Nat → Nat → List Byte → Option (List Byte)
  | 0, _, _ => some []
  | n + 1, i, bs =>
    match gcmOpen key (leBytes 4 k ++ leBytes 8 i) hdr (slice bs 0 4096) (slice bs 4096 16) with
    | some p => (openChunks key hdr k n (i + 1) (bs.drop 4112)).map (p ++ ·)
    | none => none

/-- The shards as the manifest's lengths give them. -/
def shardsOf (s : State) (lead : Nat) (m : List Byte) : List (List Byte) :=
  (List.range Config.slices).map fun k => Memory.bytes s.mem (s.shardAt lead k) (Nat.min (field m (160 + 48 * k) 8) (areaSize (s.ckarea k)))

/-- The shape of a shard's header: check 1. -/
def shardShape (k : Nat) (b : List Byte) : Bool :=
  field b 0 4 = 1 && field b 4 1 = k && allZero (slice b 5 3) && allZero (slice b 32 32) && b.length = 64 + 4112 * field b 24 8

def manifestShape (m : List Byte) : Bool :=
  field m 0 4 = 1 && field m 4 4 = 0 && field m 40 8 = 0 && allZero (slice m 144 16) && allZero (slice m 956 3140)
    && (List.range Config.slices).all fun k => field m (200 + 48 * k) 8 = 0

/-- The frames of a slice's restore pool that can be used, lowest first. -/
def State.poolFrames (s : State) (guest : Byte) (k : Nat) : List Nat :=
  let v := s.ckpool k
  if !areaOn v then []
  else ((List.range (areaSize v / 4096)).map (areaBase v / 4096 + ·)).filter fun f =>
    let p := s.pot f
    f / 2 ^ 24 = k && !s.pinned f && (p.state = .free || (p.state = .guest && p.guest = guest))

/-- The first 16 frames of a list that can hold an L0 node, and the rest. -/
def takeRoot (l : List Nat) : Option (Nat × List Nat) :=
  (l.find? fun f => f % 16 = 0 && (List.range 16).all fun i => l.contains (f + i)).map fun f =>
    (f, l.filter fun g => !(f ≤ g && g < f + 16))

/-- The nodes of levels 1-3 that some addresses need. -/
def nodesFor (vas : List Nat) : List (Nat × Nat) :=
  [1, 2, 3].flatMap fun lev => ((vas.map fun v => v / nodeSpan lev * nodeSpan lev).dedup).map fun v => (lev, v)

/-- The frames of one slice for its pages, nodes, and on the lead slice its save and barrier pages; none when the pool lacks them. -/
def placeSlice (s : State) (e : Encl) (pages : List PageRec) (k : Nat) : Option (List EcdPage) :=
  let mine := pages.filter fun p => homeOf p.va = k
  let vas := mine.map (·.va) ++ (if k = e.lead then (List.range e.queues.length).map (kickVa e.lead) else [])
  let want : List EcdPage :=
    ((mine.filter fun p => p.ty ≤ 3).map fun p => ⟨1, p.perm, p.va, 0, false⟩)
      ++ ((nodesFor vas).map fun p => ⟨2, p.1, p.2, 0, false⟩)
      ++ (if k = e.lead then List.replicate e.threads ⟨3, 0, 0, 0, false⟩ ++ (if e.barPage.isSome then [⟨4, 0, 0, 0, false⟩] else []) else [])
  if want.isEmpty then some []
  else match takeRoot (s.poolFrames e.guest k) with
    | none => none
    | some (root, free) =>
      if free.length < want.length then none
      else some ((want.zipWith (fun (p : EcdPage) f => { p with pa := f * 4096 }) free)
        ++ (List.range 16).map fun i => ⟨2, 0, k * 2 ^ 52, (root + i) * 4096, false⟩)

/-- All the frames of a restore. -/
def placePages (s : State) (e : Encl) (pages : List PageRec) : List Nat → Option (List EcdPage)
  | [] => some []
  | k :: r => match placeSlice s e pages k, placePages s e pages r with
    | some a, some b => some (a ++ b)
    | _, _ => none

/-- A sealed thread or team under new numbers, `d` above the old ones, in the space of another enclave. -/
def BarRef.move (r : BarRef) (d eid : Nat) : BarRef :=
  match r with
  | .own (.team n) h => .own (.team (n + d)) h
  | .own o h => .own o h
  | .ctx _ h => .ctx eid h

def Wait.move (w : Wait) (d eid : Nat) : Wait :=
  match w with
  | .barrier b p r v => .barrier (b.move d eid) p r v
  | w => w

def Thread.move (t : Thread) (d eid : Nat) : Thread :=
  { t with
    eid := .ofNat 16 eid, wait := t.wait.move d eid
    logged := t.logged.map fun p => (p.1, p.2 + d)
    mx := t.mx.map fun m => { m with op := m.op + d } }

def moveTid (d : Nat) : ThreadId → ThreadId
  | .simt n i => .simt (n + d) i
  | t => t

def Conv.move (c : Conv) (d : Nat) : Conv := { c with op := c.op.map fun o => { o with op := o.op + d } }

def moveChans (d : Nat) (sp : Space) (c : Tab Chan) : Tab Chan :=
  c.map fun p => (p.1, { p.2 with queue := p.2.queue.map fun c => { c with sp := sp, tid := moveTid d c.tid } })

def TeamImage.move (x : TeamImage) (d : Nat) (sp : Space) : TeamImage :=
  let eid := sp.eid.toNat
  { num := x.num + d
    team := { x.team with
      launch := x.team.launch + d, cluster := x.team.cluster.map (· + d)
      cvs := x.team.cvs.map fun c => (c.1, c.2.move d)
      store := { x.team.store with chans := moveChans d sp x.team.store.chans } }
    threads := x.threads.map fun t => (t.1, t.2.move d eid)
    ops := x.ops.map fun o => (o.1 + d, { o.2 with team := o.2.team + d })
    passes := x.passes.map fun (p : Pass) => { p with team := p.team + d, op := p.op + d }
    bufs := x.bufs.map fun (b : BBuf) => { b with op := b.op + d }
    reads := x.reads.map fun r => (r.1 + d, r.2)
    log := x.log.map fun (e : LogEntry) => { e with num := e.num + d, tid := moveTid d e.tid, sp := sp }
    drains := x.drains.map fun (y : Drain) => { y with num := y.num + d, team := y.team + d, sp := sp }
    items := x.items.map fun i => (i.1 + d, i.2) }

/-- A sealed host thread in another enclave. -/
def SavePage.move (p : SavePage) (eid : Nat) : SavePage :=
  match p with
  | .thread t => .thread (t.move 0 eid)
  | p => p

/-- Puts a page record's contents into its frame. -/
def State.putRec (s : State) (x : Ecd) (r : PageRec) : State :=
  match x.pages.find? fun p => p.data && p.va = r.va with
  | some p =>
    let f := p.pa / 4096
    if r.ty = 1 then s.homeWrite p.pa r.body
    else if r.ty = 2 then s.setPot f { s.pot f with state := .discarded }
    else s.setPot f { s.pot f with pend := true }
  | none => if r.ty = 4 then match ecdNode x 3 r.va with
      | some n => s.putEntry (entryAt n r.va 3) (r.version * 8 + 4)
      | none => s
    else s

/-- A sealed team enters the pool of its slice. -/
def State.putImage (s : State) (eid : Nat) (x : TeamImage) : State :=
  let slice := sliceOf x.team.core
  let frames := s.imagePool slice (match s.launches.find x.team.launch with
    | some l => l.imageFrames
    | none => 0)
  let s := s.writeImage frames
  s.modEncl eid fun e => { e with images := e.images ++ [{ x with pool := s.framesHold frames }] }

/-- The load of a checkpoint's contents into a target enclave (R438): frames, pages and tables, keys, queues, energy, attestation entry,
images and time. -/
def State.loadImage (s : State) (eid : Nat) (e : Encl) (frames : List EcdPage) (img : CkImage) : State :=
  let sp : Space := ⟨e.guest, .ofNat 16 eid, 0⟩
  let x : Ecd := ⟨0, e.threads, e.queues.length, frames, 0, 0⟩
  let d := s.serial
  let gslot := s.guestSlot e.guest
  let s := (s.framesOf eid).foldl (fun s p => s.scrubFor p.1 e.guest gslot 0) s
  let s := frames.foldl (fun s p => takeFrame s eid e.guest e.slot p) s
  let s := buildTables s x e.lead e.queues
  let s := img.pages.foldl (fun s r => s.putRec x r) s
  let qn (i : Nat) : Nat := e.queues.getD i 0
  let s : State := { s with
    serial := 2 * d
    launches := img.launches.foldl (fun t p => t.put (p.1 + d) { p.2 with
      eid := eid, guest := e.guest, lead := e.lead, queue := qn p.2.queue, waits := none, retry := [], splits := [], consts := [], quads := []
      image := none }) s.launches
    queues := img.queues.foldl (fun t q => t.put (qn q.index) { q with owner := eid, guest := e.guest, held := [] }) s.queues
    meters := img.energy.foldl (fun t m => t.put (m.1 * 65536 + eid) { tab := m.2.1, tsat := m.2.2 })
      (s.meters.filter fun m => m.1 % 65536 ≠ eid)
    evcnt := img.counters.foldl (fun t c => Tab.set t 0 (evKey (saveIx eid (c.1 / 8)) eid (c.1 % 8)) c.2) s.evcnt }
  let s := s.modEncl eid fun e => { e with
    roots := (List.range Config.slices).foldl (fun t h => match ecdRoot x h with
      | some n => t.put h n
      | none => t) []
    savePas := (frames.filter (·.ty = 3)).map (·.pa), barPage := (frames.find? (·.ty = 4)).map (·.pa / 4096)
    saves := img.saves.map fun p => (p.1, p.2.move eid), chans := img.chans.map fun p => (p.1, moveChans 0 sp p.2)
    bars := img.bars, paging := img.paging, evicts := img.evicts
    seq := img.seq, data := img.data, ckseq := img.ckseq, halted := false, ordered := false, stay := false
    images := [], evPerms := (img.pages.filter (·.ty = 4)).foldl (fun t r => t.put (r.va / 4096) r.perm) []
    tsvBase := img.tsv, tsvAt := some s.ns, tsaved := some img.tsaved }
  let s := img.teams.foldl (fun s t => s.putImage eid (t.move d sp)) s
  let s := (img.launches.map (·.1 + d)).foldl State.sealLaunch s
  (s.newDigest eid).restoreClock eid

/-- What a restore's checks come to: a status, a wait for the key's page, or the image and its frames. -/
inductive Checked where
  | fail (s : State) (x : CkStatus)
  | wait (s : State)
  | good (s : State) (img : CkImage) (frames : List EcdPage)

/-- EK of a restore: check 3. -/
def restoreKey (s : State) (j : CkJob) (e : Encl) (m : List Byte) : CpRead :=
  if j.mode = 1 then cpRead s e.lead ⟨e.guest, .ofNat 16 j.eid, 0⟩ 2 j.kva 32
  else
    let b := slice m 768 128
    if field b 0 1 ≠ 1 || field b 1 1 ≠ 2 || field b 2 2 ≠ 0 || !allZero (slice b 64 64) then .bad s
    else match gcmOpen (wrapKey e 2) (slice b 4 12) (slice b 0 4) (slice b 16 32) (slice b 48 16) with
      | some k => .ok s k
      | none => .bad s

/-- Checks 4-7 with the key. -/
def checkShards (s : State) (j : CkJob) (e : Encl) (m ek : List Byte) (shards : List (List Byte)) : Checked :=
  let step := field m 8 8
  let ckseq := field m 16 8
  let head := slice m 0 736
  let ks := List.range Config.slices
  if hmac ek head ≠ slice m 736 32 then .fail s .authfail
  else if (j.step ≠ 0 && j.step ≠ step) || shards.any fun b => field b 8 8 ≠ step || field b 16 8 ≠ ckseq then .fail s .stepmismatch
  else
    let plains := ks.map fun k =>
      let b := shards.getD k []
      if sha256 b ≠ slice m (168 + 48 * k) 32 then none
      else openChunks (shardKey ek step k) (b.take 64) k (field b 24 8) 0 (b.drop 64)
    match gcmOpen ek (slice m 896 12) head (slice m 908 32) (slice m 940 16) with
    | none => .fail s .authfail
    | some pk =>
      if plains.any (·.isNone) then .fail s .authfail
      else
        let digests := shards.map fun b => keyOf (sha256 b)
        let img := (s.sealed.find? fun x => x.digests = digests).getD (foreignImage digests)
        let pages := plains.flatMap fun p => ((parseRecs ((p.getD []).length + 1) (p.getD [])).filter fun r => r.ty ≤ 4)
        let img := { img with
          step := step, pages := pages, paging := keyOf pk, ckseq := ckseq, tsaved := field m 24 8, tsv := field m 32 8 }
        match placePages s e pages ks with
        | some f => .good s img f
        | none => .fail s .nores

/-- Whether an enclave can be the target of a restore or a migration: LIVE, CHECKPOINTABLE, no started launch, and no thread entered but on the
asking core. -/
def State.targetOk (s : State) (eid : Nat) (e : Encl) (host : Option Nat) : Bool :=
  !e.failed && e.checkpointable && e.migr.isNone && s.launches.all (fun l => l.2.eid ≠ eid)
    && s.hosts.all fun h => some h.1 = host || match h.2.entered with
      | some (x, _) => x ≠ eid
      | none => true

/-- The checks of R437 in their order, behind BUSY (Table 25.3). -/
def checkRestore (s : State) (j : CkJob) (e : Encl) : Checked :=
  if e.migr.isSome then .fail s .busy
  else if !s.targetOk j.eid e (some j.host) then .fail s .badstate
  else if s.malformed e j then .fail s .badreq
  else if (List.range Config.slices).any fun k => !areaOn (s.ckarea k) then .fail s .nores
  else
    let m := Memory.bytes s.mem (areaBase (s.ckarea e.lead)) 4096
    let shards := shardsOf s e.lead m
    if !manifestShape m || (List.range Config.slices).any fun k => !shardShape k (shards.getD k []) then .fail s .badreq
    else if slice m 48 32 ≠ keyBytes e.meas || slice m 80 32 ≠ keyBytes e.policy then .fail s .authfail
    else match restoreKey s j e m with
      | .bad s => .fail s .authfail
      | .wait s _ => .wait s
      | .held => .wait s
      | .ok s ek => checkShards s j e m ek shards

/-- The asking thread leaves an enclave whose state a restore has replaced. -/
def State.leaveHost (s : State) (n eid : Nat) : State :=
  match (s.hostCore n).entered with
  | some (x, _) => if x = eid then s.asyncExit n 0 false 0 else s
  | none => s

/-- RESTORE. -/
def execRestore (eid : Nat) (s : State) : Host.Outcome State Fault Refusal :=
  agent s (match s.secondJob eid true with
    | some j => s.refuseBusy j
    | none => match s.ckJobs.find? (·.eid == eid), s.encls.find eid with
      | some j, some e =>
        if !j.restore || j.move.isSome || !s.ckTurn j then none
        else match j.result with
          | some r => some (s.finishJob j e r)
          | none => if s.unreturned (.host j.host) then none else match checkRestore s j e with
            | .fail s x => some (s.endJob j e (j.ends x))
            | .wait s => some s
            | .good s img frames => some (((s.leaveHost j.host eid).loadImage eid e frames img).endJob j e ⟨img.rva, img.step, .ok, 2⟩)
      | some j, none => some { s with ckJobs := s.ckJobs.erase j }
      | none, _ => none)

/-! Migration (R441, R442) -/

/-- Whether a trained link leads to a package. -/
def State.linkTo (s : State) (pkg : Nat) : Bool := s.links.any fun l => l.2.up && l.2.peer = pkg

/-- The status of MIGRATE-OUT. -/
def migrateStatus (s : State) (eid pkg : Nat) : CkStatus :=
  match s.encls.find eid with
  | none => .badstate
  | some e =>
    if e.failed || s.tdiRuns eid || !s.linkTo pkg then .badstate
    else if e.migr.isSome || s.ckJobs.any (·.eid == eid) then .busy
    else if !e.migratable || !Config.policyLists e.policy pkg then .notallowed
    else .ok

/-- The status of MIGRATE-IN. -/
def arrivalStatus (s : State) (eid pkg : Nat) : CkStatus :=
  match s.encls.find eid with
  | none => .badstate
  | some e =>
    if e.migr.isSome || s.ckJobs.any (·.eid == eid) then .busy
    else if !e.migratable then .notallowed
    else if !s.targetOk eid e none || !s.linkTo pkg then .badstate
    else .ok

/-- Whether the checkpoint, restore or migration of another enclave runs or waits: a command is then held (R432). -/
def State.ckOthers (s : State) (eid : Nat) : Bool := s.ckJobs.any (fun j => j.eid ≠ eid) || s.encls.any fun e => e.1 ≠ eid && e.2.migr.isSome

/-- A migration command of an enclave that is held. -/
def State.heldMove (s : State) (eid : Nat) (out : Bool) (pkg : Nat) : Option CkJob :=
  s.ckJobs.find? fun j => j.eid == eid && j.move == some (out, pkg)

/-- A migration outward or inward begins; outward, with the halt of the context. -/
def State.beginMove (s : State) (eid : Nat) (out : Bool) (pkg : Nat) : State :=
  let s := s.modEncl eid fun e => { e with migr := some ⟨out, pkg, 0, none⟩ }
  if out then s.haltContext eid else s

/-- One turn of a migration command: on its arrival it is refused, begins, or is held; one that is held begins, or is refused, when its turn
comes (R432, R441). -/
def State.moveCommand (s : State) (eid : Nat) (out : Bool) (pkg : Nat) : Option State :=
  let status (s : State) : CkStatus := if out then migrateStatus s eid pkg else arrivalStatus s eid pkg
  let run (s : State) : State := match status s with
    | .ok => (s.beginMove eid out pkg).respond 0
    | x => s.respond x.code
  match s.heldMove eid out pkg with
  | some j => if s.ckTurn j then some (run { s with ckJobs := s.ckJobs.erase j }) else none
  | none =>
    if status s = .ok && s.ckOthers eid then some { s with ckJobs := s.ckJobs ++ [⟨eid, false, 0, [], false, some (out, pkg), none⟩] }
    else some (run s)

/-- MIGRATE_OUT. -/
def execMigrateOut (eid : BitVec 16) (pkg : BitVec 15) (s : State) : Host.Outcome State Fault Refusal :=
  agent s (if !s.managed then none else s.moveCommand eid.toNat true pkg.toNat)

/-- MIGRATE_IN. -/
def execMigrateIn (eid : BitVec 16) (pkg : BitVec 15) (s : State) : Host.Outcome State Fault Refusal :=
  agent s (if !s.managed then none else s.moveCommand eid.toNat false pkg.toNat)

/-- The stream is whole at the destination: its state is loaded, stays halted, and READY is sent; where the pools lack frames the stream
fails (R441, R442). -/
def State.receive (s : State) (eid : Nat) (e : Encl) (m : Migr) (img : CkImage) : State :=
  match placePages s e img.pages (List.range Config.slices) with
  | none => (s.modEncl eid fun e => { e with migr := none }).ckNote eid 6 .nores
  | some frames => (s.loadImage eid e frames img).modEncl eid fun e => { e with
      halted := true, tsvAt := none, migr := some { m with stage := 1, image := some img } }

/-- MIGRATION_READY: at the destination the stream is whole and READY is sent; at the source READY arrives, and the enclave goes. -/
def execMigrationReady (eid : Nat) (s : State) : Host.Outcome State Fault Refusal :=
  agent s (match s.encls.find eid with
    | none => none
    | some e => match e.migr with
      | none => none
      | some m =>
        if m.stage ≠ 0 then none
        else if m.out then (if s.haltDone eid then (s.destroy eid e).map fun s => s.ckNote eid 5 .ok else some (s.forceHalt eid))
        else some (s.receive eid e m (streamedImage s.fresh)))

/-- The state that a migration has brought starts: its result record is to be written (R442, R443). -/
def State.start (s : State) (eid : Nat) (e : Encl) (img : CkImage) : State :=
  let s := (s.modEncl eid fun e => { e with migr := none }).resumeContext eid
  let j : CkJob := ⟨eid, true, 0, [], false, none, some ⟨img.rva, img.step, .ok, 3⟩⟩
  { s with ckJobs := s.ckJobs ++ [j] }.finishJob j e ⟨img.rva, img.step, .ok, 3⟩

/-- MIGRATION_GO: the destination starts the state; where the page of its result record is not there, RESTORE writes it later. -/
def execMigrationGo (eid : Nat) (s : State) : Host.Outcome State Fault Refusal :=
  agent s (match s.encls.find eid with
    | none => none
    | some e => match e.migr with
      | none => none
      | some m => m.image.map fun img => s.start eid e img)

/-- MIGRATION_STREAM_FAIL: before READY the source resumes and the destination discards; after READY the destination keeps the state
halted, and discards it when it learns that the source still lives (assumption 100). -/
def execMigrationStreamFail (eid : Nat) (s : State) : Host.Outcome State Fault Refusal :=
  agent s (match s.encls.find eid with
    | none => none
    | some e => match e.migr with
      | none => none
      | some m =>
        if m.out then some ((s.modEncl eid fun e => { e with migr := none }).endHalt eid false)
        else if m.stage = 0 then some (s.modEncl eid fun e => { e with migr := none })
        else if m.stage = 1 then some (s.modEncl eid fun e => { e with migr := some { m with stage := 2 } })
        else s.destroy eid e)

end Sys2Proof.Machine
end

