-- ==== Sys2Proof/Machine/Management.lean ====
section
/-! DEFINITION. Attestation over SPDM, the management commands, power, ports, links and module reset (R402, R444-R457). -/

namespace Sys2Proof.Machine

/-! SPDM messages (R402, R446-R448) -/

/-- A message of SPDM 1.3. -/
def spdm (code p1 p2 : Nat) (body : List Byte) : List Byte := [0x13, .ofNat 8 code, .ofNat 8 p1, .ofNat 8 p2] ++ body

/-- An ERROR response. -/
def spdmError (code : Nat) (data : Nat := 0) : List Byte := spdm 0x7F code data []

/-- The page of a relay buffer as a device access leaves it: in HYP frames. -/
def State.hypPage (s : State) (pa : Nat) : Bool := (s.pot (pa / 4096)).state = .hyp && s.verifies pa 4096

/-- Sends a response: on the bus, or into the relay's buffer, which is free again; the messages of a session leave sealed (R447). -/
def State.answerSpdm (s : State) (req : SpdmReq) (bs : List Byte) : State :=
  let s : State := { s with
    spdmOut := s.spdmOut ++ [⟨req.relay, req.session, bs⟩]
    sessions := s.sessions.map fun x => if some x.num = req.session then { x with last := s.ns } else x }
  match req.relay, s.reg.spdmBuf with
  | true, some pa =>
    let out := if req.session.isSome then Config.standardBytes s.fresh 9 else bs
    let s := { s with reg := { s.reg with spdmBuf := none } }
    if s.hypPage pa then s.homeWrite pa (out.take 4096) else s
  | _, _ => s

/-- The bytes of a request. -/
def requestBytes (r : SpdmReq) : List Byte := [0x13, r.code, r.param1, r.param2] ++ r.payload

/-- Whether a request stands before the root of trust: one of the relay is in the buffer that SPDMRLY named, where a session's is
sealed; one of a session names a session that is open. GET_VERSION carries version 1.0, and any version byte is let through. -/
def State.arrived (s : State) (r : SpdmReq) : Bool :=
  (match r.session with
    | some n => s.sessions.any fun x => x.num = n
    | none => true)
  && (!r.relay || match s.reg.spdmBuf with
    | some pa => r.session.isSome || Memory.bytes s.mem (pa + 1) (r.payload.length + 3) = (requestBytes r).drop 1
    | none => false)

/-- A request that waits for a leaf of the bottom tree holds its transport, and the other's requests come after it (R447). -/
def State.spdmWait (s : State) (r : SpdmReq) : State := { s with reg := { s.reg with spdmHeld := some r } }

/-- A request that has waited is served. -/
def State.spdmDone (s : State) (r : SpdmReq) : State :=
  if s.reg.spdmHeld = some r then { s with reg := { s.reg with spdmHeld := none } } else s

/-- Serves a request whose code is in `codes`: before step 3 of R457 it is not ready; a signature takes a leaf of the bottom tree, and
waits while none is left (R444). While one waits, a second request on its transport receives ERROR 0x03, and one on the other waits. -/
def serve (s : State) (r : SpdmReq) (code : Nat) (signs : Bool) (f : State → State) : Option State :=
  if r.code.toNat ≠ code || !s.arrived r then none
  else if !s.booted then some (s.answerSpdm r (spdmError 0x42))
  else if s.reg.spdmHeld.any fun x => x ≠ r && (x.relay || r.relay) then none
  else if s.reg.spdmHeld.any (· ≠ r) then some (s.answerSpdm r (spdmError 3))
  else if !signs then some (f (s.spdmDone r))
  else if s.lmsLeft = 0 then (if s.reg.spdmHeld.isSome then none else some (s.spdmWait r))
  else some (f { s.spdmDone r with lmsLeft := s.lmsLeft - 1 })

/-- A signature, and a nonce, of a response (`Config.standardBytes`). -/
def State.signature (s : State) : List Byte := Config.standardBytes s.fresh 0
def State.spdmNonce (s : State) : List Byte := (Config.standardBytes s.fresh 1 ++ List.replicate 32 0).take 32

/-- The slot-0 chain (R446): it changes with the bottom tree. -/
def State.certChain (s : State) : List Byte := Config.standardBytes s.lmsTop 2

/-- GET_VERSION. -/
def execGetVersion (r : SpdmReq) (s : State) : Host.Outcome State Fault Refusal :=
  agent s (serve s r 0x84 false fun s => s.answerSpdm r [0x10, 0x04, 0, 0, 0, 1, 0, 0x13])

/-- The capability flags of Table 26.2. -/
def capFlags : Nat := 0x22F6

/-- GET_CAPABILITIES: what the manual does not give of the response is any value. -/
def execGetCapabilities (r : SpdmReq) (s : State) : Host.Outcome State Fault Refusal :=
  agent s (serve s r 0xE1 false fun s => s.answerSpdm r
    (spdm 0x61 0 0 ([0] ++ leBytes 1 (s.free 1).toNat ++ [0, 0] ++ leBytes 4 capFlags ++ leBytes 4 (s.free 2).toNat ++ leBytes 4 (s.free 3).toNat)))

/-- The algorithm structures of a request: type and the first 16 bits it supports. -/
def algStructs : Nat → List Byte → List (Nat × Nat)
  | 0, _ => []
  | n + 1, bs => if bs.length < 4 then [] else (field bs 0 1, field bs 2 2) :: algStructs n (bs.drop (4 + 4 * (field bs 1 1 % 16)))

/-- Whether a NEGOTIATE_ALGORITHMS request offers the values of Table 26.2. -/
def offersAlgorithms (r : SpdmReq) : Bool :=
  let b := r.payload
  let ext := field b 24 1
  let algs := algStructs r.param1.toNat (b.drop (28 + 4 * (ext + field b 25 1)))
  (field b 2 1) % 2 = 1 && (field b 8 4) % 2 = 1
    && ((List.range ext).any fun i => slice b (28 + 4 * i) 4 = [4, 0, 8, 0])
    && algs.any (fun a => a.1 = 2 && a.2 / 16 % 2 = 1) && algs.any (fun a => a.1 = 3 && a.2 / 2 % 2 = 1)

/-- NEGOTIATE_ALGORITHMS. -/
def execNegotiateAlgorithms (r : SpdmReq) (s : State) : Host.Outcome State Fault Refusal :=
  agent s (serve s r 0xE3 false fun s => s.answerSpdm r (if !offersAlgorithms r then spdmError 1
    else spdm 0x63 2 0 (leBytes 2 48 ++ [1, 0] ++ leBytes 4 2 ++ leBytes 4 0 ++ leBytes 4 1 ++ List.replicate 12 0 ++ [1, 0, 0, 0]
      ++ [4, 0, 8, 0] ++ [2, 0x20, 0x10, 0] ++ [3, 0x20, 2, 0])))

/-- GET_DIGESTS. -/
def execGetDigests (r : SpdmReq) (s : State) : Host.Outcome State Fault Refusal :=
  agent s (serve s r 0x81 false fun s => s.answerSpdm r (spdm 0x01 0 1 (sha256 s.certChain)))

/-- GET_CERTIFICATE: a portion of the chain of slot 0. -/
def execGetCertificate (r : SpdmReq) (s : State) : Host.Outcome State Fault Refusal :=
  agent s (serve s r 0x82 false fun s =>
    let off := field r.payload 0 2
    let part := slice s.certChain off (field r.payload 2 2)
    s.answerSpdm r (if r.param1.toNat % 16 ≠ 0 then spdmError 1
      else spdm 0x02 0 0 (leBytes 2 part.length ++ leBytes 2 (s.certChain.length - off - part.length) ++ part)))

/-- CHALLENGE. -/
def execChallenge (r : SpdmReq) (s : State) : Host.Outcome State Fault Refusal :=
  agent s (serve s r 0x83 (r.param1 = 0) fun s => s.answerSpdm r (if r.param1 ≠ 0 then spdmError 1
    else spdm 0x03 0 1 (sha256 s.certChain ++ s.spdmNonce ++ Config.standardBytes s.fresh 3 ++ [0, 0] ++ slice r.payload 32 8 ++ s.signature)))

/-! Measurements (Table 26.4, R402) -/

/-- The value of an index 1-14. -/
def State.identity (s : State) (n : Nat) : BitVec 256 :=
  if n = 14 then s.tandem.digest.getD (Config.identityDigest 14) else Config.identityDigest n

/-- A measurement block. -/
def measBlock (index ty : Nat) (v : List Byte) : List Byte :=
  leBytes 1 index ++ [1] ++ leBytes 2 (v.length + 3) ++ leBytes 1 ty ++ leBytes 2 v.length ++ v

def State.hardBlock (s : State) (n : Nat) : List Byte :=
  measBlock n (if n = 13 then 0x80 else if n = 14 then 0x81 else 0x82) (keyBytes (s.identity n))

/-- The attestation entry that an index reads, with its M, POLICY, DATA and SEQ. -/
def State.attEntry (s : State) (n : Nat) : Option (List Byte) :=
  (s.encls.find? fun e => 0x40 + e.2.att = n).map fun e =>
    keyBytes e.2.meas ++ keyBytes e.2.policy ++ (e.2.data ++ List.replicate 64 0).take 64 ++ leBytes 8 e.2.seq

/-- The number of blocks and the record that an operation asks for; none for an index without an entry. -/
def State.measRecord (s : State) (op : Nat) : Option (Nat × List Byte) :=
  if op = 0xFF then some (14, ((List.range 14).map (· + 1)).flatMap s.hardBlock)
  else if 1 ≤ op && op ≤ 14 then some (1, s.hardBlock op)
  else (s.attEntry op).map fun v => (1, measBlock op 0x84 v)

/-- The end of a MEASUREMENTS response: nonce, no opaque data, RequesterContext, and the signature when one is asked for. -/
def State.measTail (s : State) (r : SpdmReq) : List Byte :=
  let sig := r.param1.getLsbD 0
  s.spdmNonce ++ [0, 0] ++ slice r.payload (if sig then 33 else 0) 8 ++ (if sig then s.signature else [])

/-- GET_MEASUREMENTS. -/
def execGetMeasurements (r : SpdmReq) (s : State) : Host.Outcome State Fault Refusal :=
  let sig := r.param1.getLsbD 0
  let op := r.param2.toNat
  let slot := if sig then field r.payload 32 1 % 16 else 0
  let bad := slot ≠ 0 || (op ≠ 0 && (s.measRecord op).isNone)
  agent s (serve s r 0xE0 (sig && !bad) fun s => s.answerSpdm r (
    if bad then spdmError 1
    else if op = 0 then spdm 0x60 (14 + s.encls.length) 0 ([0, 0, 0, 0] ++ s.measTail r)
    else match s.measRecord op with
      | some (n, rec_) => spdm 0x60 0 0 (leBytes 1 n ++ leBytes 3 rec_.length ++ rec_ ++ s.measTail r)
      | none => spdmError 1))

/-! Sessions (R448) -/

/-- KEY_EXCHANGE: the ninth responder session is refused. -/
def execKeyExchange (r : SpdmReq) (s : State) : Host.Outcome State Fault Refusal :=
  let full : Bool := 8 ≤ s.sessions.length
  agent s (serve s r 0xE4 (!full && r.param2 = 0) fun s =>
    if full then s.answerSpdm r (spdmError 3)
    else if r.param2 ≠ 0 then s.answerSpdm r (spdmError 1)
    else
      let n := s.serial
      ({ s with serial := n + 1, sessions := s.sessions ++ [⟨n, r.relay, false, s.ns⟩] } : State).answerSpdm r
        (spdm 0x64 60 0 (leBytes 2 n ++ [0, 0] ++ s.spdmNonce ++ Config.standardBytes s.fresh 4 ++ s.signature)))

/-- A request that belongs inside a session; outside one it is unexpected. -/
def inSession (s : State) (r : SpdmReq) (f : Nat → State) : State :=
  match r.session with
  | some n => f n
  | none => s.answerSpdm r (spdmError 4)

/-- FINISH: the session stands. -/
def execFinish (r : SpdmReq) (s : State) : Host.Outcome State Fault Refusal :=
  agent s (serve s r 0xE5 false fun s => inSession s r fun n =>
    { s with sessions := s.sessions.map fun (x : Session) => if x.num = n then { x with done := true } else x }.answerSpdm r (spdm 0x65 0 0 []))

/-- HEARTBEAT. -/
def execHeartbeat (r : SpdmReq) (s : State) : Host.Outcome State Fault Refusal :=
  agent s (serve s r 0xE8 false fun s => inSession s r fun _ => s.answerSpdm r (spdm 0x68 0 0 []))

/-- Ends a session: its place is free at once. -/
def State.endSession (s : State) (n : Nat) : State := { s with sessions := s.sessions.filter fun x => x.num ≠ n }

/-- END_SESSION. -/
def execEndSession (r : SpdmReq) (s : State) : Host.Outcome State Fault Refusal :=
  agent s (serve s r 0xEC false fun s => inSession s r fun n => (s.answerSpdm r (spdm 0x6C 0 0 [])).endSession n)

/-- The codes of Table 26.3. -/
def spdmCodes : List Nat := [0x84, 0xE1, 0xE3, 0x81, 0x82, 0x83, 0xE0, 0xE4, 0xE5, 0xE8, 0xEC]

/-- UNSUPPORTED_REQUEST. -/
def execUnsupportedRequest (r : SpdmReq) (s : State) : Host.Outcome State Fault Refusal :=
  agent s (if spdmCodes.contains r.code.toNat then none
    else serve s r r.code.toNat false fun s => s.answerSpdm r (spdmError 7 r.code.toNat))

/-- SESSION_TIMEOUT: 120 s without a message. -/
def execSessionTimeout (n : Nat) (s : State) : Host.Outcome State Fault Refusal :=
  agent s (match s.sessions.find? (·.num == n) with
    | some x => if x.last + 120000000000 ≤ s.ns then some (s.endSession n) else none
    | none => none)

/-- SPDMRLY: a request buffer in HYP frames is submitted; while one is being served the new buffer receives ERROR 0x03. -/
def execSpdmrly (value : BitVec 64) (s : State) : Host.Outcome State Fault Refusal :=
  agent s (
    let pa := value.toNat
    if pa / 2 ^ 48 ≠ 0 || pa % 4096 ≠ 0 || !s.hypPage pa then none
    else if s.reg.spdmBuf.isSome then some (s.homeWrite pa (spdmError 3))
    else some { s with reg := { s.reg with spdmBuf := some pa } })

/-! Power (R452, R453) -/

def State.slicePower (s : State) (k : Nat) : Power := Tab.getD s.power k {}
def State.modPower (s : State) (k : Nat) (f : Power → Power) : State :=
  { s with power := Tab.set s.power {} k (f (s.slicePower k)) }

/-- Whether a slice stands in no enabled partition and its eight host cores are stopped. -/
def State.sliceIdle (s : State) (k : Nat) : Bool :=
  (s.leadOf k).isNone
    && (List.range 8).all fun i => match s.thread? (.host (8 * k + i)) with
      | some t => t.wait == .stopped
      | none => true

/-- Whether every frame of a slice is FREE, HYP, RETIRED or CTREE. -/
def State.sliceClear (s : State) (k : Nat) : Bool :=
  s.pots.all fun p => p.1 / 2 ^ 24 ≠ k || p.2.state = .free || p.2.state = .hyp || p.2.state = .retired || p.2.state = .ctree

/-- Whether a value of PSTATE is taken. -/
def State.pstateOk (s : State) (k v : Nat) : Bool :=
  let st := v / 16 % 4
  v / 2 ^ 10 = 0 && v / 64 % 4 = 0 && v / 4 % 4 = 0
    && (st = 0 || s.sliceIdle k) && (st ≠ 3 || s.sliceClear k)

/-- A change starts when the effective point or STATE is to change. -/
def Power.start (p : Power) (st : Nat) : Power :=
  if st = p.state && Nat.min 3 (p.point + p.thr) = p.eff then p else { p with change := some st }

/-- Applies a write of PSTATE, outside a change. -/
def State.applyPstate (s : State) (k v : Nat) : State :=
  if s.pstateOk k v then s.modPower k fun p => { p with point := v % 4 }.start (v / 16 % 4) else s

/-- A write of PSTATE. -/
def State.writePstate (s : State) (k v : Nat) : State :=
  if (s.slicePower k).change.isSome then s.modPower k fun p => { p with queue := p.queue ++ [v] } else s.applyPstate k v

/-- PSTATE_WRITE. -/
def execPstateWrite (k : Nat) (value : BitVec 64) (s : State) : Host.Outcome State Fault Refusal :=
  agent s (if Config.slices ≤ k then none else some (s.writePstate k value.toNat))

/-- The scrub of a whole stack and the rebuild of its counter tree. Each frame's major counter goes on (R359). -/
def State.scrubStack (s : State) (k : Nat) : State :=
  let mine (n size : Nat) : Bool := n * size / 2 ^ 36 = k
  { s with
    mem := Memory.clear s.mem (k * 2 ^ 36) (2 ^ 36)
    lines := s.lines.filter fun l => !mine l.pa 128, clines := s.clines.filter fun l => !mine l.pa 128
    ilines := s.ilines.filter fun l => !mine l.pa 128
    l2 := s.l2.filter fun l => !mine l.line 128, badMeta := s.badMeta.filter fun l => !mine l 64
    ctrs := s.ctrs.map fun c => if mine c.1 4096 then (c.1, { major := c.2.major + 1, minor := [] }) else c
    nodes1 := s.nodes1.filter fun c => c.1 / 2 ^ 18 ≠ k
    nodes2 := s.nodes2.filter fun c => c.1 / 2 ^ 12 ≠ k, roots := s.roots.filter fun c => c.1 / 2 ^ 12 ≠ k
    badTags := s.badTags.filter fun l => !mine l 64, homeSig := s.homeSig.filter fun h => !mine h.1 128 }

/-- PSTATE_CHANGE_END. -/
def execPstateChangeEnd (k : Nat) (s : State) : Host.Outcome State Fault Refusal :=
  agent s (match (s.slicePower k).change with
    | none => none
    | some st =>
      let p := s.slicePower k
      let s := if p.state = 3 && st ≠ 3 then s.scrubStack k else s
      let s := s.modPower k fun p => { p with state := st, eff := Nat.min 3 (p.point + p.thr), change := none, queue := [] }
      some (p.queue.foldl (fun s v => s.writePstate k v) s))

/-- THROTTLE_STEP: at most one step a millisecond. -/
def execThrottleStep (k : Nat) (temp : Int) (s : State) : Host.Outcome State Fault Refusal :=
  agent s (
    let p := s.slicePower k
    let lim : Int := (s.reg.thrcfg.toNat / 2 ^ 16 % 256 : Nat)
    let thr := if lim ≤ temp then Nat.min 3 (p.thr + 1) else if temp ≤ lim - 5 then p.thr - 1 else p.thr
    if Config.slices ≤ k || s.ns < p.next then none
    else
      let s := if p.thr = 0 then s else s.countSlice k 0x208 850000
      let s := s.modPower k fun p => { p with thr := thr, next := s.ns + 1000000 }.start (p.change.getD p.state)
      let nsrc := s.reg.thrcfg.toNat / 256 % 32
      some (if thr = p.thr || nsrc = 0 then s else s.assertIrq (s.reg.thrcfg.toNat % 128) true nsrc))

/-- POWER. -/
def execPower (k : Nat) (state point : BitVec 2) (s : State) : Host.Outcome State Fault Refusal :=
  agent s (if !s.managed then none
    else if Config.slices ≤ k then some (s.respond Status.badreq.code)
    else some ((s.writePstate k (state.toNat * 16 + point.toNat)).respond Status.ok.code))

/-- PACKAGE. -/
def execPackage (number : BitVec 16) (s : State) : Host.Outcome State Fault Refusal :=
  agent s (if !s.managed then none
    else if s.links.any (·.2.up) then some (s.respond Status.badstate.code)
    else if 32767 < number.toNat then some (s.respond Status.badreq.code)
    else some ({ s with reg := { s.reg with pkgnum := number.setWidth 15 } }.respond Status.ok.code))

/-! Starting host cores, ports, links (R451, R454, R455) -/

/-- HCSTART: the writer is the current thread. -/
def execHcstart (value : BitVec 64) (s : State) : Host.Outcome State Fault Refusal :=
  agent s (
    let v := value.toNat
    let n := v / 256 % 128
    match s.cur, s.thread? (.host n) with
    | .host w, some t =>
      if v % 256 ≠ 1 || v / 2 ^ 15 % 2 ^ 17 ≠ 0 || Config.hosts ≤ n || t.wait != .stopped then none
      else
        let c := s.hostCore w
        some (((s.freshCode (hostIx n)).setThread (.host n) { t with wait := .none, level := .h, cb := s.th.cb, w := .ofNat 32 (v / 2 ^ 32), readyAt := s.time }).modHost n
          fun x => { x with ptroot := c.ptroot, guestid := 0, bankH := c.bankH })
    | _, _ => none)

/-- MSI_WRITE. -/
def execMsiWrite (port : Nat) (s : State) : Host.Outcome State Fault Refusal :=
  agent s (
    let v := (Tab.getD s.reg.pciecfg port 0).toNat
    if 4 ≤ port || v / 256 % 32 = 0 then none else some (s.assertIrq (v % 128) true (v / 256 % 32)))

/-- LINK_TRAIN. -/
def execLinkTrain (link : Nat) (peer : BitVec 15) (s : State) : Host.Outcome State Fault Refusal :=
  agent s (if 16 ≤ link || (Tab.getD s.links link {}).up then none
    else some { s with
      keysMade := s.keysMade + 1
      links := s.links.put link { up := true, peer := peer.toNat, streams := [], secret := some (Config.keyMaterial s.keysMade) } })

/-- The launches of enclaves whose stream a lost link ends, and which have a write on it that has not been acknowledged or wait on its release,
end with 0x110 (R455). Which launches have one is a free value (assumption 50). -/
def State.loseWrites (s : State) (eids : List Nat) : State :=
  (s.launches.filter fun p => eids.contains p.2.eid).foldl (fun s p =>
    if (s.free (2 ^ 40 + p.1)).getLsbD 0 then s.endLaunch p.1 0x110 else s) s

/-- LINK_DOWN: the session of the link's roots of trust ends, each open stream ends with its record (R377), and the launches that it leaves without their writes end (R455). -/
def execLinkDown (link : Nat) (s : State) : Host.Outcome State Fault Refusal :=
  agent s (
    let l : Link := Tab.getD s.links link {}
    if !l.up then none
    else
      let s := { s with links := s.links.put link { l with up := false, streams := [], secret := none } }
      let ended := l.streams.filter (·.2.2)
      some ((ended.foldl (fun s x =>
        let eid := l.localEid x.1
        let g : Byte := match s.encls.find eid with
          | some e => e.guest
          | none => 0
        s.terminalRecord (4 + link / 2) (faultRec ⟨g, .ofNat 16 eid, 0⟩ .dma (6, link * 4096 + x.1 % 4096) 0 16 0)) s).loseWrites
          (ended.map fun x => l.localEid x.1)))

/-! Boot (R444, R457) -/

/-- LMS_TREE_RENEW: the index of the top leaf advances before the leaf is used. -/
def execLmsTreeRenew (s : State) : Host.Outcome State Fault Refusal :=
  agent s (if s.lmsLeft = 0 && s.lmsTop < 2 ^ 20 then some { s with lmsTop := s.lmsTop + 1, lmsLeft := 1024 } else none)

/-- The module between the start of a reset and step 3 of R457: what survives it is what the anchor die's stores and fuses hold. -/
def State.rebooting (s : State) : State :=
  { State.reset with
    th := { wait := .stopped }, booted := false
    pots := s.retired.foldl (fun t f => Tab.set t {} f { state := .retired }) [], retired := s.retired
    tandem := { minRoll := Nat.max s.tandem.minRoll (s.tandem.commit.getD 0), version := s.tandem.version, digest := s.tandem.digest }
    lmsTop := s.lmsTop + 1, fresh := s.fresh, keysMade := s.keysMade + 2, sealed := s.sealed }

/-- MODULE_RESET: the reset begins; its next turn starts host core 0. -/
def execModuleReset (s : State) : Host.Outcome State Fault Refusal :=
  agent s (some (if s.booted then s.rebooting else { s with booted := true }.modThread (.host 0) fun t => { t with wait := .none }))

end Sys2Proof.Machine
end

