-- ==== Sys2Proof/Machine/Sfu.lean ====
section
/-! DEFINITION. The SFU functions (R112): special values and flags exactly, every other result the machine's own choice within
the bound of Table 5.5 (assumption 2). Bounds are decided with fixed-point values of 96 fraction bits. -/

namespace Sys2Proof.Machine

/-- One in the fixed-point form. -/
def fxOne : Nat := 2 ^ 96
def fxPi : Nat := 248902613312231085230521944622
def fxLn2 : Nat := 54916777467707473351141471128
def fxLog2e : Nat := 114302077158074026402637675936

def fxMul (a b : Nat) : Nat := a * b / fxOne

/-- A magnitude m x 2^e in the fixed-point form, rounded down. -/
def fxOf (m : Nat) (e : Int) : Nat :=
  let f := shiftFrac m 1 (e + 96)
  f.1 / f.2

/-- The exponential series of t, term by term. -/
def expTerms (t : Nat) : Nat → Nat → Nat → Nat
  | 0, _, _ => 0
  | n + 1, k, term => term + expTerms t n (k + 1) (fxMul term t / (k + 1))

/-- 2^f for a fraction f. -/
def fxExp2 (f : Nat) : Nat := expTerms (fxMul f fxLn2) 36 0 fxOne

/-- e^x for x up to 64, or e^-x. -/
def fxExp (x : Nat) : Nat := let y := fxMul x fxLog2e; fxExp2 (y % fxOne) * 2 ^ (y / fxOne)
def fxExpNeg (x : Nat) : Nat :=
  let y := fxMul x fxLog2e
  if 200 < y / fxOne then 0 else fxOne * fxOne / (fxExp2 (y % fxOne) * 2 ^ (y / fxOne))

/-- The sine series, alternating. -/
def sinTerms (t2 : Nat) : Nat → Nat → Nat → Bool → Int
  | 0, _, _, _ => 0
  | n + 1, k, term, neg =>
    (if neg then -(term : Int) else term) + sinTerms t2 n (k + 2) (fxMul term t2 / ((k + 1) * (k + 2))) (!neg)

/-- sin(pi r) for r in [0, 2). -/
def fxSinPi (r : Nat) : Int :=
  let q := r % fxOne
  let q := if fxOne < 2 * q then fxOne - q else q
  let t := fxMul q fxPi
  let v := sinTerms (fxMul t t) 20 1 t false
  if fxOne ≤ r then -v else v

/-- The series of atanh z. -/
def atanhTerms (z2 : Nat) : Nat → Nat → Nat → Nat
  | 0, _, _ => 0
  | n + 1, k, p => p / k + atanhTerms z2 n (k + 2) (fxMul p z2)

/-- log2 of a mantissa m in [1, 2), in the fixed-point form. -/
def fxLog2 (m : Nat) : Nat :=
  let z := (m - fxOne) * fxOne / (m + fxOne)
  fxMul (2 * atanhTerms (fxMul z z) 44 1 z) fxLog2e

/-- The integer square root of n, below 2^(k+1), bit by bit. -/
def isqrtFrom (n : Nat) : Nat → Nat → Nat
  | 0, r => if (r + 1) * (r + 1) ≤ n then r + 1 else r
  | k + 1, r =>
    let c := r + 2 ^ (k + 1)
    isqrtFrom n k (if c * c ≤ n then c else r)

def isqrt (n : Nat) : Nat := isqrtFrom n (Nat.log2 n / 2 + 1) 0

/-- A fixed-point approximation as a value. -/
def fxVal (y : Int) : FVal := .fin (y < 0) y.natAbs (-96)

/-- Whether a result lies within bn x 2^be of y. -/
def within (c y : FVal) (bn : Nat) (be : Int) : Bool :=
  match exactSum false [c, y.neg] with
  | (.fin _ m e, _) => (FVal.fin false m e).cmp (.fin false bn be) != .gt
  | _ => false

/-- The exponent of the unit in the last place of F32 at y. -/
def ulpExp : FVal → Int
  | .fin _ m e => if m = 0 then -149 else max ((Nat.log2 m : Int) + e - 23) (-149)
  | _ => -149

/-- The machine's choice for an input where it meets the bound, and the nearest value otherwise. -/
def sfuPick (f : Nat) (a : Word) (near : Nat) (ok : FVal → Bool) : Nat :=
  let c := Config.sfuChoice f a
  if ok (f32.value c.toNat) then c.toNat else near

/-- One of the two F32 values that bracket num / den x 2^e, or the value itself (faithful). -/
def faithful (f : Nat) (a : Word) (neg : Bool) (num den : Nat) (e : Int) : Nat :=
  if (Config.sfuChoice f a).getLsbD 0 then (roundIeee f32 .rd false neg num den e).bits else (roundIeee f32 .ru false neg num den e).bits

/-- The flags and the flush of a result that is no special value (R112). -/
def sfuEnd (ftz : Bool) (n : Nat) (nx : BitVec 5) : FRes :=
  let tiny := n % 2 ^ 31 < 2 ^ 23
  ⟨if ftz && tiny then n / 2 ^ 31 * 2 ^ 31 else n, nx ||| flagIf (tiny && nx != 0) UF⟩

def negBit (s : Bool) : Nat := if s then 2 ^ 31 else 0
def canonNan : Nat := 0x7FC00000
def oneF : Nat := 0x3F800000
def infF : Nat := 0x7F800000

/-- A power of two: its exponent. -/
def pow2? (m : Nat) (e : Int) : Option Int := if m = 2 ^ Nat.log2 m then some (e + Nat.log2 m) else none

/-- An integer value; a half-integer value. -/
def isIntegral (m : Nat) (e : Int) : Bool := let f := shiftFrac m 1 e; f.1 % f.2 == 0

/-- Whether an integral magnitude is odd. -/
def isOdd (m : Nat) (e : Int) : Bool := let f := shiftFrac m 1 e; f.1 / f.2 % 2 == 1

/-- 1 / a. A subnormal whose reciprocal is beyond the largest finite value sets NX and no OF, and a power of two sets no flag
(DESIGN CHOICE, assumption 87). -/
def frcpOf (ftz : Bool) (a : Word) : FRes :=
  match f32In ftz a with
  | .nan => ⟨canonNan, 0⟩
  | .inf s => ⟨negBit s, 0⟩
  | .fin s m e =>
    if m = 0 then ⟨negBit s + infF, DZ⟩
    else
      let exact : Bool := match pow2? m e with
        | some k => -126 ≤ -k && -k ≤ 127
        | none => false
      if exact then ⟨(roundIeee f32 .rne false s 1 m (-e)).bits, 0⟩
      else sfuEnd ftz (faithful 0 a s 1 m (-e)) NX

/-- 1 / sqrt a. -/
def frsqOf (ftz : Bool) (a : Word) : FRes :=
  match f32In ftz a with
  | .nan => ⟨canonNan, 0⟩
  | .inf s => if s then ⟨canonNan, NV⟩ else ⟨0, 0⟩
  | .fin s m e =>
    if m = 0 then ⟨negBit s + infF, DZ⟩
    else if s then ⟨canonNan, NV⟩
    else
      let m' := if e % 2 = 0 then m else 2 * m
      let e' := if e % 2 = 0 then e else e - 1
      match pow2? m' e' with
      | some k => if k % 2 = 0 then ⟨(roundIeee f32 .rne false false 1 1 (-(k / 2))).bits, 0⟩
        else sfuEnd ftz (faithful 1 a false (2 * isqrt (2 ^ 160 / m') + 1) 1 (-81 - e' / 2)) NX
      | none => sfuEnd ftz (faithful 1 a false (2 * isqrt (2 ^ 160 / m') + 1) 1 (-81 - e' / 2)) NX

/-- sqrt a; NX only where the result differs from the exact root. -/
def fsqrtOf (ftz : Bool) (a : Word) : FRes :=
  match f32In ftz a with
  | .nan => ⟨canonNan, 0⟩
  | .inf s => if s then ⟨canonNan, NV⟩ else ⟨infF, 0⟩
  | .fin s m e =>
    if m = 0 then ⟨negBit s, 0⟩
    else if s then ⟨canonNan, NV⟩
    else
      let m' := if e % 2 = 0 then m else 2 * m
      let e' := if e % 2 = 0 then e else e - 1
      let x := m' * 2 ^ 80
      let r := isqrt x
      let sticky := if r * r = x then 0 else 1
      let n := 2 * r + sticky
      let rd := roundIeee f32 .rne false false n 1 (e' / 2 - 41)
      if rd.flags &&& NX = 0 then ⟨rd.bits, 0⟩
      else sfuEnd ftz (faithful 2 a false n 1 (e' / 2 - 41)) NX

/-- 2^a. The unit in the last place is that of the exact result, which lies between 2^fl and 2^(fl + 1). -/
def fex2Of (ftz : Bool) (a : Word) : FRes :=
  match f32In ftz a with
  | .nan => ⟨canonNan, 0⟩
  | .inf s => if s then ⟨0, 0⟩ else ⟨infF, 0⟩
  | .fin s m e =>
    if m = 0 then ⟨oneF, 0⟩
    else if !s && (FVal.fin s m e).cmp (.fin false 128 0) != .lt then ⟨infF, OF ||| NX⟩
    else
      let fr := shiftFrac m 1 e
      let fl : Int := if s then -((fr.1 + fr.2 - 1) / fr.2 : Nat) else (fr.1 / fr.2 : Nat)
      if isIntegral m e && -126 ≤ fl then ⟨(roundIeee f32 .rne false false 1 1 fl).bits, 0⟩
      else
        let y : FVal := if fl < -300 then .fin false 0 0 else
          let f : Nat := (if s then -(fxOf m e : Int) else fxOf m e) - fl * fxOne |>.toNat
          .fin false (fxExp2 (f % fxOne)) (fl - 96 + f / fxOne)
        let near := (y.round f32 .rne false false).bits
        sfuEnd ftz (sfuPick 3 a near fun c => !c.sign && within c y 0xFFFFF (max (fl - 23) (-149) - 19)) NX

/-- log2 a. -/
def flg2Of (ftz : Bool) (a : Word) : FRes :=
  match f32In ftz a with
  | .nan => ⟨canonNan, 0⟩
  | .inf s => if s then ⟨canonNan, NV⟩ else ⟨infF, 0⟩
  | .fin s m e =>
    if m = 0 then ⟨negBit true + infF, DZ⟩
    else if s then ⟨canonNan, NV⟩
    else match pow2? m e with
    | some k => ⟨((intVal k).round f32 .rne false false).bits, 0⟩
    | none =>
      let k : Int := e + Nat.log2 m
      let y := fxVal (k * fxOne + fxLog2 (fxOf m (-(Nat.log2 m : Int))))
      let near := (y.round f32 .rne false false).bits
      let b := if k = -1 || k = 0 then (0xFFFFF, (-42 : Int)) else (0xFFFFF, ulpExp y - 19)
      sfuEnd ftz (sfuPick 4 a near fun c => within c y b.1 b.2) NX

/-- sin pi a. -/
def fsinpOf (ftz : Bool) (a : Word) : FRes :=
  match f32In ftz a with
  | .nan => ⟨canonNan, 0⟩
  | .inf _ => ⟨canonNan, NV⟩
  | .fin s m e =>
    if isIntegral m e then ⟨negBit s, 0⟩
    else if isIntegral m (e + 1) then
      let odd := let f := shiftFrac m 1 e; f.1 / f.2 % 2 == 1
      ⟨negBit (s != odd) + oneF, 0⟩
    else
      let v := fxSinPi (fxOf m e % (2 * fxOne))
      let y := fxVal (if s then -v else v)
      let near := ((if v = 0 then FVal.fin s 0 0 else y).round f32 .rne false false).bits
      sfuEnd ftz (sfuPick 5 a near fun c => within c y 0xFFFFF (-42)) NX

/-- cos pi a. -/
def fcospOf (ftz : Bool) (a : Word) : FRes :=
  match f32In ftz a with
  | .nan => ⟨canonNan, 0⟩
  | .inf _ => ⟨canonNan, NV⟩
  | .fin _ m e =>
    if isIntegral m e then ⟨negBit (isOdd m e) + oneF, 0⟩
    else if isIntegral m (e + 1) then ⟨0, 0⟩
    else
      let y := fxVal (fxSinPi ((fxOf m e + fxOne / 2) % (2 * fxOne)))
      let near := (y.round f32 .rne false false).bits
      sfuEnd ftz (sfuPick 6 a near fun c => within c y 0xFFFFF (-42)) NX

/-- tanh a; 9.01 as the bound of Table 5.5. -/
def ftanhOf (ftz : Bool) (a : Word) : FRes :=
  match f32In ftz a with
  | .nan => ⟨canonNan, 0⟩
  | .inf s => ⟨negBit s + oneF, 0⟩
  | .fin s m e =>
    if m = 0 then ⟨negBit s, 0⟩
    else if (FVal.fin false (100 * m) e).cmp (.fin false 901 0) != .lt then ⟨negBit s + oneF, 0⟩
    else
      let x := fxExp (2 * fxOf m e)
      let v : Int := ((x - fxOne) * fxOne / (x + fxOne) : Nat)
      let y := fxVal (if s then -v else v)
      let near := ((if v = 0 then FVal.fin s 0 0 else y).round f32 .rne false false).bits
      sfuEnd ftz (sfuPick 7 a near fun c => within c y 0xFFFFF (-41)) NX

/-- 1 / (1 + e^-a). -/
def fsigmOf (ftz : Bool) (a : Word) : FRes :=
  match f32In ftz a with
  | .nan => ⟨canonNan, 0⟩
  | .inf s => if s then ⟨0, 0⟩ else ⟨oneF, 0⟩
  | .fin s m e =>
    if m = 0 then ⟨0x3F000000, 0⟩
    else if !s && (FVal.fin false m e).cmp (.fin false 17 0) != .lt then ⟨oneF, 0⟩
    else
      let x := if (FVal.fin false m e).cmp (.fin false 128 0) != .lt then 0 else fxExpNeg (fxOf m e)
      let v : Nat := if s then x * fxOne / (fxOne + x) else fxOne * fxOne / (fxOne + x)
      let y := fxVal v
      let near := (y.round f32 .rne false false).bits
      sfuEnd ftz (sfuPick 8 a near fun c => within c y 0xFFFFF (-42)) NX

/-- An SFU word: interlocked, its flags set when its result is written (R45). -/
def sfuOp (i : Instr) (h : Hdr) (d a : Opnd) (f : Bool → Word → FRes) (s : State) : Host.Outcome State Fault Refusal :=
  issue i s fun s =>
    let r := f (fpcFtz s.fpcIn) (s.src h 1 a)
    .ok (s.postTo d (.ofNat 32 r.bits) r.flags)

/-! Meanings -/

/-- R112: FRCP. -/
def execFrcp (h : Hdr) (d a : Opnd) (s : State) : Host.Outcome State Fault Refusal := sfuOp (.frcp h d a) h d a frcpOf s

/-- R112: FRSQ. -/
def execFrsq (h : Hdr) (d a : Opnd) (s : State) : Host.Outcome State Fault Refusal := sfuOp (.frsq h d a) h d a frsqOf s

/-- R112: FSQRT. -/
def execFsqrt (h : Hdr) (d a : Opnd) (s : State) : Host.Outcome State Fault Refusal := sfuOp (.fsqrt h d a) h d a fsqrtOf s

/-- R112: FEX2. -/
def execFex2 (h : Hdr) (d a : Opnd) (s : State) : Host.Outcome State Fault Refusal := sfuOp (.fex2 h d a) h d a fex2Of s

/-- R112: FLG2. -/
def execFlg2 (h : Hdr) (d a : Opnd) (s : State) : Host.Outcome State Fault Refusal := sfuOp (.flg2 h d a) h d a flg2Of s

/-- R112: FSINP. -/
def execFsinp (h : Hdr) (d a : Opnd) (s : State) : Host.Outcome State Fault Refusal := sfuOp (.fsinp h d a) h d a fsinpOf s

/-- R112: FCOSP. -/
def execFcosp (h : Hdr) (d a : Opnd) (s : State) : Host.Outcome State Fault Refusal := sfuOp (.fcosp h d a) h d a fcospOf s

/-- R112: FTANH. -/
def execFtanh (h : Hdr) (d a : Opnd) (s : State) : Host.Outcome State Fault Refusal := sfuOp (.ftanh h d a) h d a ftanhOf s

/-- R112: FSIGM. -/
def execFsigm (h : Hdr) (d a : Opnd) (s : State) : Host.Outcome State Fault Refusal := sfuOp (.fsigm h d a) h d a fsigmOf s

end Sys2Proof.Machine
end

