-- ==== Sys2Proof/Machine/Dispatch.lean ====
section
/-! DEFINITION. The meaning of every instruction and of every step of an agent: one arm for each row of the opcode table. -/

namespace Sys2Proof.Machine

def exec (i : Instr) (s : State) : Host.Outcome State Fault Refusal :=
  match i with
  | .nop h => Sys2Proof.Machine.execNop h s
  | .add h d a b => Sys2Proof.Machine.execAdd h d a b s
  | .sub h d a b => Sys2Proof.Machine.execSub h d a b s
  | .mul h d a b => Sys2Proof.Machine.execMul h d a b s
  | .mulhi h d a b => Sys2Proof.Machine.execMulhi h d a b s
  | .mulhu h d a b => Sys2Proof.Machine.execMulhu h d a b s
  | .mad h d a b => Sys2Proof.Machine.execMad h d a b s
  | .and h d a b => Sys2Proof.Machine.execAnd h d a b s
  | .or h d a b => Sys2Proof.Machine.execOr h d a b s
  | .xor h d a b => Sys2Proof.Machine.execXor h d a b s
  | .andn h d a b => Sys2Proof.Machine.execAndn h d a b s
  | .shl h d a b => Sys2Proof.Machine.execShl h d a b s
  | .shr h d a b => Sys2Proof.Machine.execShr h d a b s
  | .sra h d a b => Sys2Proof.Machine.execSra h d a b s
  | .min h d a b => Sys2Proof.Machine.execMin h d a b s
  | .max h d a b => Sys2Proof.Machine.execMax h d a b s
  | .minu h d a b => Sys2Proof.Machine.execMinu h d a b s
  | .maxu h d a b => Sys2Proof.Machine.execMaxu h d a b s
  | .adds h d a b => Sys2Proof.Machine.execAdds h d a b s
  | .subs h d a b => Sys2Proof.Machine.execSubs h d a b s
  | .lea h k d a b => Sys2Proof.Machine.execLea h k d a b s
  | .add64 h d a b => Sys2Proof.Machine.execAdd64 h d a b s
  | .sub64 h d a b => Sys2Proof.Machine.execSub64 h d a b s
  | .mulw h d a b => Sys2Proof.Machine.execMulw h d a b s
  | .mulws h d a b => Sys2Proof.Machine.execMulws h d a b s
  | .bfe h d a b => Sys2Proof.Machine.execBfe h d a b s
  | .bfi h d a b => Sys2Proof.Machine.execBfi h d a b s
  | .prmb h d a b => Sys2Proof.Machine.execPrmb h d a b s
  | .addi h d a imm => Sys2Proof.Machine.execAddi h d a imm s
  | .andi h d a imm => Sys2Proof.Machine.execAndi h d a imm s
  | .ori h d a imm => Sys2Proof.Machine.execOri h d a imm s
  | .xori h d a imm => Sys2Proof.Machine.execXori h d a imm s
  | .shli h d a imm => Sys2Proof.Machine.execShli h d a imm s
  | .shri h d a imm => Sys2Proof.Machine.execShri h d a imm s
  | .srai h d a imm => Sys2Proof.Machine.execSrai h d a imm s
  | .muli h d a imm => Sys2Proof.Machine.execMuli h d a imm s
  | .movi h d imm => Sys2Proof.Machine.execMovi h d imm s
  | .mov h d a => Sys2Proof.Machine.execMov h d a s
  | .clz h d a => Sys2Proof.Machine.execClz h d a s
  | .popc h d a => Sys2Proof.Machine.execPopc h d a s
  | .brev h d a => Sys2Proof.Machine.execBrev h d a s
  | .abs h d a => Sys2Proof.Machine.execAbs h d a s
  | .neg h d a => Sys2Proof.Machine.execNeg h d a s
  | .not h d a => Sys2Proof.Machine.execNot h d a s
  | .sext8 h d a => Sys2Proof.Machine.execSext8 h d a s
  | .sext16 h d a => Sys2Proof.Machine.execSext16 h d a s
  | .zext8 h d a => Sys2Proof.Machine.execZext8 h d a s
  | .zext16 h d a => Sys2Proof.Machine.execZext16 h d a s
  | .ctz h d a => Sys2Proof.Machine.execCtz h d a s
  | .cmp h k p a b => Sys2Proof.Machine.execCmp h k p a b s
  | .cmpi h k p a imm => Sys2Proof.Machine.execCmpi h k p a imm s
  | .pand h p q r => Sys2Proof.Machine.execPand h p q r s
  | .por h p q r => Sys2Proof.Machine.execPor h p q r s
  | .pxor h p q r => Sys2Proof.Machine.execPxor h p q r s
  | .pandn h p q r => Sys2Proof.Machine.execPandn h p q r s
  | .pnot h p q => Sys2Proof.Machine.execPnot h p q s
  | .pget h d => Sys2Proof.Machine.execPget h d s
  | .pput h a => Sys2Proof.Machine.execPput h a s
  | .sel h n d a b => Sys2Proof.Machine.execSel h n d a b s
  | .fadd h d a b => Sys2Proof.Machine.execFadd h d a b s
  | .fsub h d a b => Sys2Proof.Machine.execFsub h d a b s
  | .fmul h d a b => Sys2Proof.Machine.execFmul h d a b s
  | .ffma h d a b => Sys2Proof.Machine.execFfma h d a b s
  | .ffnma h d a b => Sys2Proof.Machine.execFfnma h d a b s
  | .fmin h d a b => Sys2Proof.Machine.execFmin h d a b s
  | .fmax h d a b => Sys2Proof.Machine.execFmax h d a b s
  | .fcmp h k p a b => Sys2Proof.Machine.execFcmp h k p a b s
  | .hadd2 h d a b => Sys2Proof.Machine.execHadd2 h d a b s
  | .hmul2 h d a b => Sys2Proof.Machine.execHmul2 h d a b s
  | .hfma2 h d a b => Sys2Proof.Machine.execHfma2 h d a b s
  | .badd2 h d a b => Sys2Proof.Machine.execBadd2 h d a b s
  | .bmul2 h d a b => Sys2Proof.Machine.execBmul2 h d a b s
  | .bfma2 h d a b => Sys2Proof.Machine.execBfma2 h d a b s
  | .dadd h d a b => Sys2Proof.Machine.execDadd h d a b s
  | .dmul h d a b => Sys2Proof.Machine.execDmul h d a b s
  | .dfma h d a b => Sys2Proof.Machine.execDfma h d a b s
  | .dcmp h k p a b => Sys2Proof.Machine.execDcmp h k p a b s
  | .frcp h d a => Sys2Proof.Machine.execFrcp h d a s
  | .frsq h d a => Sys2Proof.Machine.execFrsq h d a s
  | .fsqrt h d a => Sys2Proof.Machine.execFsqrt h d a s
  | .fex2 h d a => Sys2Proof.Machine.execFex2 h d a s
  | .flg2 h d a => Sys2Proof.Machine.execFlg2 h d a s
  | .fsinp h d a => Sys2Proof.Machine.execFsinp h d a s
  | .fcosp h d a => Sys2Proof.Machine.execFcosp h d a s
  | .ftanh h d a => Sys2Proof.Machine.execFtanh h d a s
  | .fsigm h d a => Sys2Proof.Machine.execFsigm h d a s
  | .fabs h d a => Sys2Proof.Machine.execFabs h d a s
  | .fneg h d a => Sys2Proof.Machine.execFneg h d a s
  | .ffloor h d a => Sys2Proof.Machine.execFfloor h d a s
  | .fceil h d a => Sys2Proof.Machine.execFceil h d a s
  | .ftrunc h d a => Sys2Proof.Machine.execFtrunc h d a s
  | .frint h d a => Sys2Proof.Machine.execFrint h d a s
  | .fclass h d a => Sys2Proof.Machine.execFclass h d a s
  | .fcvtF16F32 h d a => Sys2Proof.Machine.execFcvtF16F32 h d a s
  | .fcvtBf16F32 h d a => Sys2Proof.Machine.execFcvtBf16F32 h d a s
  | .fcvtF32F16 h d a => Sys2Proof.Machine.execFcvtF32F16 h d a s
  | .fcvtF32Bf16 h d a => Sys2Proof.Machine.execFcvtF32Bf16 h d a s
  | .fcvtF64F32 h d a => Sys2Proof.Machine.execFcvtF64F32 h d a s
  | .fcvtF32F64 h d a => Sys2Proof.Machine.execFcvtF32F64 h d a s
  | .fcvtF32S32 h d a => Sys2Proof.Machine.execFcvtF32S32 h d a s
  | .fcvtF32N32 h d a => Sys2Proof.Machine.execFcvtF32N32 h d a s
  | .fcvtF64S32 h d a => Sys2Proof.Machine.execFcvtF64S32 h d a s
  | .fcvtF64N32 h d a => Sys2Proof.Machine.execFcvtF64N32 h d a s
  | .fcvtS32F32Fixed h d a m => Sys2Proof.Machine.execFcvtS32F32Fixed h d a m s
  | .fcvtS32F32 h d a => Sys2Proof.Machine.execFcvtS32F32 h d a s
  | .fcvtN32F32Fixed h d a m => Sys2Proof.Machine.execFcvtN32F32Fixed h d a m s
  | .fcvtN32F32 h d a => Sys2Proof.Machine.execFcvtN32F32 h d a s
  | .fcvtS32F64Fixed h d a m => Sys2Proof.Machine.execFcvtS32F64Fixed h d a m s
  | .fcvtS32F64 h d a => Sys2Proof.Machine.execFcvtS32F64 h d a s
  | .fcvtN32F64Fixed h d a m => Sys2Proof.Machine.execFcvtN32F64Fixed h d a m s
  | .fcvtN32F64 h d a => Sys2Proof.Machine.execFcvtN32F64 h d a s
  | .pkF16 h d a b => Sys2Proof.Machine.execPkF16 h d a b s
  | .pkB16 h d a b => Sys2Proof.Machine.execPkB16 h d a b s
  | .pkn h d a b => Sys2Proof.Machine.execPkn h d a b s
  | .upkn h d a b => Sys2Proof.Machine.execUpkn h d a b s
  | .dot4E43 h d a b => Sys2Proof.Machine.execDot4E43 h d a b s
  | .dot4E52 h d a b => Sys2Proof.Machine.execDot4E52 h d a b s
  | .dot4S8 h d a b => Sys2Proof.Machine.execDot4S8 h d a b s
  | .dot4N8 h d a b => Sys2Proof.Machine.execDot4N8 h d a b s
  | .dot8E21 h d a b => Sys2Proof.Machine.execDot8E21 h d a b s
  | .dot8S4 h d a b => Sys2Proof.Machine.execDot8S4 h d a b s
  | .dot2B16 h d a b => Sys2Proof.Machine.execDot2B16 h d a b s
  | .dot2F16 h d a b => Sys2Proof.Machine.execDot2F16 h d a b s
  | .fscl h d a b => Sys2Proof.Machine.execFscl h d a b s
  | .ldB h d a imm => Sys2Proof.Machine.execLdB h d a imm s
  | .ldBs h d a imm => Sys2Proof.Machine.execLdBs h d a imm s
  | .ldH h d a imm => Sys2Proof.Machine.execLdH h d a imm s
  | .ldHs h d a imm => Sys2Proof.Machine.execLdHs h d a imm s
  | .ldW h d a imm => Sys2Proof.Machine.execLdW h d a imm s
  | .ldD h d a imm => Sys2Proof.Machine.execLdD h d a imm s
  | .ldQ h d a imm => Sys2Proof.Machine.execLdQ h d a imm s
  | .ldcW h d a imm => Sys2Proof.Machine.execLdcW h d a imm s
  | .ldcQ h d a imm => Sys2Proof.Machine.execLdcQ h d a imm s
  | .stB h v a imm => Sys2Proof.Machine.execStB h v a imm s
  | .stH h v a imm => Sys2Proof.Machine.execStH h v a imm s
  | .stW h v a imm => Sys2Proof.Machine.execStW h v a imm s
  | .stD h v a imm => Sys2Proof.Machine.execStD h v a imm s
  | .stQ h v a imm => Sys2Proof.Machine.execStQ h v a imm s
  | .ldxW h d a b => Sys2Proof.Machine.execLdxW h d a b s
  | .stxW h v a b => Sys2Proof.Machine.execStxW h v a b s
  | .ldsW h d a imm => Sys2Proof.Machine.execLdsW h d a imm s
  | .ldsD h d a imm => Sys2Proof.Machine.execLdsD h d a imm s
  | .ldsQ h d a imm => Sys2Proof.Machine.execLdsQ h d a imm s
  | .ldsH h d a imm => Sys2Proof.Machine.execLdsH h d a imm s
  | .ldsB h d a imm => Sys2Proof.Machine.execLdsB h d a imm s
  | .stsW h v a imm => Sys2Proof.Machine.execStsW h v a imm s
  | .stsD h v a imm => Sys2Proof.Machine.execStsD h v a imm s
  | .stsQ h v a imm => Sys2Proof.Machine.execStsQ h v a imm s
  | .stsH h v a imm => Sys2Proof.Machine.execStsH h v a imm s
  | .stsB h v a imm => Sys2Proof.Machine.execStsB h v a imm s
  | .ldAcqW h d a e => Sys2Proof.Machine.execLdAcqW h d a e s
  | .ldAcqD h d a e => Sys2Proof.Machine.execLdAcqD h d a e s
  | .stRelW h v a e => Sys2Proof.Machine.execStRelW h v a e s
  | .stRelD h v a e => Sys2Proof.Machine.execStRelD h v a e s
  | .prf h a imm => Sys2Proof.Machine.execPrf h a imm s
  | .cwb h a => Sys2Proof.Machine.execCwb h a s
  | .cinv h a => Sys2Proof.Machine.execCinv h a s
  | .cwbiAll h => Sys2Proof.Machine.execCwbiAll h s
  | .atomAdd h d a b => Sys2Proof.Machine.execAtomAdd h d a b s
  | .atomMin h d a b => Sys2Proof.Machine.execAtomMin h d a b s
  | .atomMax h d a b => Sys2Proof.Machine.execAtomMax h d a b s
  | .atomMinu h d a b => Sys2Proof.Machine.execAtomMinu h d a b s
  | .atomMaxu h d a b => Sys2Proof.Machine.execAtomMaxu h d a b s
  | .atomAnd h d a b => Sys2Proof.Machine.execAtomAnd h d a b s
  | .atomOr h d a b => Sys2Proof.Machine.execAtomOr h d a b s
  | .atomXor h d a b => Sys2Proof.Machine.execAtomXor h d a b s
  | .atomXchg h d a b => Sys2Proof.Machine.execAtomXchg h d a b s
  | .atomCas h d a b => Sys2Proof.Machine.execAtomCas h d a b s
  | .atomFadd h d a b => Sys2Proof.Machine.execAtomFadd h d a b s
  | .atomsAdd h d a b => Sys2Proof.Machine.execAtomsAdd h d a b s
  | .atomsMin h d a b => Sys2Proof.Machine.execAtomsMin h d a b s
  | .atomsMax h d a b => Sys2Proof.Machine.execAtomsMax h d a b s
  | .atomsCas h d a b => Sys2Proof.Machine.execAtomsCas h d a b s
  | .fence h x e k => Sys2Proof.Machine.execFence h x e k s
  | .barinit h a b => Sys2Proof.Machine.execBarinit h a b s
  | .bararv h d a => Sys2Proof.Machine.execBararv h d a s
  | .barxb h a b => Sys2Proof.Machine.execBarxb h a b s
  | .bararvx h d a b => Sys2Proof.Machine.execBararvx h d a b s
  | .barwait h a b => Sys2Proof.Machine.execBarwait h a b s
  | .bartst h p a b => Sys2Proof.Machine.execBartst h p a b s
  | .barinv h a => Sys2Proof.Machine.execBarinv h a s
  | .wptr h d a => Sys2Proof.Machine.execWptr h d a s
  | .prio h a => Sys2Proof.Machine.execPrio h a s
  | .yield h => Sys2Proof.Machine.execYield h s
  | .br h n p k => Sys2Proof.Machine.execBr h n p k s
  | .call h k => Sys2Proof.Machine.execCall h k s
  | .jmp h a => Sys2Proof.Machine.execJmp h a s
  | .ret h => Sys2Proof.Machine.execRet h s
  | .callr h a => Sys2Proof.Machine.execCallr h a s
  | .exit h => Sys2Proof.Machine.execExit h s
  | .trap h imm => Sys2Proof.Machine.execTrap h imm s
  | .bkpt h => Sys2Proof.Machine.execBkpt h s
  | .refill h d => Sys2Proof.Machine.execRefill h d s
  | .fetchw h a b => Sys2Proof.Machine.execFetchw h a b s
  | .id h d f => Sys2Proof.Machine.execId h d f s
  | .cdecl h w a => Sys2Proof.Machine.execCdecl h w a s
  | .crst h w => Sys2Proof.Machine.execCrst h w s
  | .shfl h d a b => Sys2Proof.Machine.execShfl h d a b s
  | .vote h d a b => Sys2Proof.Machine.execVote h d a b s
  | .rdx h d a b => Sys2Proof.Machine.execRdx h d a b s
  | .mma h t a b x => Sys2Proof.Machine.execMma h t a b x s
  | .mmaj h t a b x => Sys2Proof.Machine.execMmaj h t a b x s
  | .mzero h t => Sys2Proof.Machine.execMzero h t s
  | .mload h t a => Sys2Proof.Machine.execMload h t a s
  | .mdrain h t a b x => Sys2Proof.Machine.execMdrain h t a b x s
  | .mfence h w => Sys2Proof.Machine.execMfence h w s
  | .mwait h t => Sys2Proof.Machine.execMwait h t s
  | .cpyGs h a e ch => Sys2Proof.Machine.execCpyGs h a e ch s
  | .cpySg h a e ch => Sys2Proof.Machine.execCpySg h a e ch s
  | .cpyl h d a b x => Sys2Proof.Machine.execCpyl h d a b x s
  | .cpyg h d a b x => Sys2Proof.Machine.execCpyg h d a b x s
  | .sysrd h d imm => Sys2Proof.Machine.execSysrd h d imm s
  | .syswr h v imm => Sys2Proof.Machine.execSyswr h v imm s
  | .tsrd h d f => Sys2Proof.Machine.execTsrd h d f s
  | .ecall h imm => Sys2Proof.Machine.execEcall h imm s
  | .eret h => Sys2Proof.Machine.execEret h s
  | .ecreate h d a => Sys2Proof.Machine.execEcreate h d a s
  | .eenter h a b => Sys2Proof.Machine.execEenter h a b s
  | .eexit h => Sys2Proof.Machine.execEexit h s
  | .ereport h d a => Sys2Proof.Machine.execEreport h d a s
  | .kwrap h d a => Sys2Proof.Machine.execKwrap h d a s
  | .kunwrap h d a => Sys2Proof.Machine.execKunwrap h d a s
  | .krevoke h d a => Sys2Proof.Machine.execKrevoke h d a s
  | .kload h d a => Sys2Proof.Machine.execKload h d a s
  | .potset h d a => Sys2Proof.Machine.execPotset h d a s
  | .potrd h d a => Sys2Proof.Machine.execPotrd h d a s
  | .pmap h d a => Sys2Proof.Machine.execPmap h d a s
  | .paccept h d a => Sys2Proof.Machine.execPaccept h d a s
  | .pdiscard h d a => Sys2Proof.Machine.execPdiscard h d a s
  | .pevict h d a => Sys2Proof.Machine.execPevict h d a s
  | .pload h d a => Sys2Proof.Machine.execPload h d a s
  | .punmap h d a => Sys2Proof.Machine.execPunmap h d a s
  | .tlbi h a b => Sys2Proof.Machine.execTlbi h a b s
  | .edestroy h a => Sys2Proof.Machine.execEdestroy h a s
  | .pickerChoice core order => Sys2Proof.Machine.execPickerChoice core order s
  | .terminalTrapEnd launch => Sys2Proof.Machine.execTerminalTrapEnd launch s
  | .timerAssert host hyp => Sys2Proof.Machine.execTimerAssert host hyp s
  | .interruptEntry host => Sys2Proof.Machine.execInterruptEntry host s
  | .lineLeaseExpiry core line => Sys2Proof.Machine.execLineLeaseExpiry core line s
  | .epochRollover core => Sys2Proof.Machine.execEpochRollover core s
  | .l1Fill core sp va => Sys2Proof.Machine.execL1Fill core sp va s
  | .uncorrectableError site => Sys2Proof.Machine.execUncorrectableError site s
  | .writeBack core line => Sys2Proof.Machine.execWriteBack core line s
  | .counterGrant pa => Sys2Proof.Machine.execCounterGrant pa s
  | .atomicUnitServe slice bank => Sys2Proof.Machine.execAtomicUnitServe slice bank s
  | .pageTableWalk sp va kind => Sys2Proof.Machine.execPageTableWalk sp va kind s
  | .faultRecordWrite ring => Sys2Proof.Machine.execFaultRecordWrite ring s
  | .operandLogReplay entry => Sys2Proof.Machine.execOperandLogReplay entry s
  | .copyFixupReplay owner ch => Sys2Proof.Machine.execCopyFixupReplay owner ch s
  | .drainFixupReplay entry => Sys2Proof.Machine.execDrainFixupReplay entry s
  | .channelBind owner ch => Sys2Proof.Machine.execChannelBind owner ch s
  | .copyStart owner ch => Sys2Proof.Machine.execCopyStart owner ch s
  | .copyEngineTurn owner ch => Sys2Proof.Machine.execCopyEngineTurn owner ch s
  | .drainComplete drain => Sys2Proof.Machine.execDrainComplete drain s
  | .passPost core => Sys2Proof.Machine.execPassPost core s
  | .bReadStart core => Sys2Proof.Machine.execBReadStart core s
  | .bReadEnd quad => Sys2Proof.Machine.execBReadEnd quad s
  | .passGrant quad => Sys2Proof.Machine.execPassGrant quad s
  | .passComplete quad => Sys2Proof.Machine.execPassComplete quad s
  | .governorWindow quad => Sys2Proof.Machine.execGovernorWindow quad s
  | .teamPlace launch core => Sys2Proof.Machine.execTeamPlace launch core s
  | .clusterPlace launch slice row col => Sys2Proof.Machine.execClusterPlace launch slice row col s
  | .teamDone team => Sys2Proof.Machine.execTeamDone team s
  | .walkerDispense slice walker => Sys2Proof.Machine.execWalkerDispense slice walker s
  | .refillItem team thread => Sys2Proof.Machine.execRefillItem team thread s
  | .fetchwServe team => Sys2Proof.Machine.execFetchwServe team s
  | .splitRequest launch core => Sys2Proof.Machine.execSplitRequest launch core s
  | .splitRetry launch core => Sys2Proof.Machine.execSplitRetry launch core s
  | .launchComplete launch => Sys2Proof.Machine.execLaunchComplete launch s
  | .kickTake slice queue => Sys2Proof.Machine.execKickTake slice queue s
  | .entryStart slice queue => Sys2Proof.Machine.execEntryStart slice queue s
  | .markComplete slice queue seq => Sys2Proof.Machine.execMarkComplete slice queue seq s
  | .quiesceRequest slice => Sys2Proof.Machine.execQuiesceRequest slice s
  | .quiesceRelease slice => Sys2Proof.Machine.execQuiesceRelease slice s
  | .scrubEnd frame => Sys2Proof.Machine.execScrubEnd frame s
  | .keyRotation eid => Sys2Proof.Machine.execKeyRotation eid s
  | .sweep x => Sys2Proof.Machine.execSweep x s
  | .injtagArm line => Sys2Proof.Machine.execInjtagArm line s
  | .injtagDisarm line => Sys2Proof.Machine.execInjtagDisarm line s
  | .tdispDmaRequest tdi tbit va write data => Sys2Proof.Machine.execTdispDmaRequest tdi tbit va write data s
  | .linkFlitReceive link stream good va data => Sys2Proof.Machine.execLinkFlitReceive link stream good va data s
  | .partWrite slice value => Sys2Proof.Machine.execPartWrite slice value s
  | .partitionResize slice => Sys2Proof.Machine.execPartitionResize slice s
  | .preemptResume eid => Sys2Proof.Machine.execPreemptResume eid s
  | .preemptSoft eid => Sys2Proof.Machine.execPreemptSoft eid s
  | .preemptHalt eid => Sys2Proof.Machine.execPreemptHalt eid s
  | .preemptKill eid => Sys2Proof.Machine.execPreemptKill eid s
  | .timeSliceExpiry eid core => Sys2Proof.Machine.execTimeSliceExpiry eid core s
  | .softRequestEnd eid => Sys2Proof.Machine.execSoftRequestEnd eid s
  | .g1Deadline eid => Sys2Proof.Machine.execG1Deadline eid s
  | .g2Deadline eid => Sys2Proof.Machine.execG2Deadline eid s
  | .contextRestore eid core => Sys2Proof.Machine.execContextRestore eid core s
  | .quadsvcOut slice quad => Sys2Proof.Machine.execQuadsvcOut slice quad s
  | .quadsvcIn slice quad => Sys2Proof.Machine.execQuadsvcIn slice quad s
  | .ceownWrite engine value => Sys2Proof.Machine.execCeownWrite engine value s
  | .blkmove value => Sys2Proof.Machine.execBlkmove value s
  | .energyTick core => Sys2Proof.Machine.execEnergyTick core s
  | .mgovcfgWrite quad value => Sys2Proof.Machine.execMgovcfgWrite quad value s
  | .frlostClear => Sys2Proof.Machine.execFrlostClear s
  | .trstatClear => Sys2Proof.Machine.execTrstatClear s
  | .ecccntClear => Sys2Proof.Machine.execEcccntClear s
  | .rasstatClear value => Sys2Proof.Machine.execRasstatClear value s
  | .sevcntClear => Sys2Proof.Machine.execSevcntClear s
  | .registerWrite offset value => Sys2Proof.Machine.execRegisterWrite offset value s
  | .tripletDissent trip copy => Sys2Proof.Machine.execTripletDissent trip copy s
  | .resyncEnd trip => Sys2Proof.Machine.execResyncEnd trip s
  | .tripletStop trip => Sys2Proof.Machine.execTripletStop trip s
  | .tripletRestart trip => Sys2Proof.Machine.execTripletRestart trip s
  | .quadAutoRemove slice quad => Sys2Proof.Machine.execQuadAutoRemove slice quad s
  | .tandemFailover => Sys2Proof.Machine.execTandemFailover s
  | .tandemRejoin ok => Sys2Proof.Machine.execTandemRejoin ok s
  | .fwupd value => Sys2Proof.Machine.execFwupd value s
  | .notice eid deadline => Sys2Proof.Machine.execNotice eid deadline s
  | .noticeDeadline eid => Sys2Proof.Machine.execNoticeDeadline eid s
  | .checkpoint eid => Sys2Proof.Machine.execCheckpoint eid s
  | .restore eid => Sys2Proof.Machine.execRestore eid s
  | .migrateOut eid pkg => Sys2Proof.Machine.execMigrateOut eid pkg s
  | .migrateIn eid pkg => Sys2Proof.Machine.execMigrateIn eid pkg s
  | .migrationReady eid => Sys2Proof.Machine.execMigrationReady eid s
  | .migrationGo eid => Sys2Proof.Machine.execMigrationGo eid s
  | .migrationStreamFail eid => Sys2Proof.Machine.execMigrationStreamFail eid s
  | .getVersion req => Sys2Proof.Machine.execGetVersion req s
  | .getCapabilities req => Sys2Proof.Machine.execGetCapabilities req s
  | .negotiateAlgorithms req => Sys2Proof.Machine.execNegotiateAlgorithms req s
  | .getDigests req => Sys2Proof.Machine.execGetDigests req s
  | .getCertificate req => Sys2Proof.Machine.execGetCertificate req s
  | .challenge req => Sys2Proof.Machine.execChallenge req s
  | .getMeasurements req => Sys2Proof.Machine.execGetMeasurements req s
  | .keyExchange req => Sys2Proof.Machine.execKeyExchange req s
  | .finish req => Sys2Proof.Machine.execFinish req s
  | .heartbeat req => Sys2Proof.Machine.execHeartbeat req s
  | .endSession req => Sys2Proof.Machine.execEndSession req s
  | .unsupportedRequest req => Sys2Proof.Machine.execUnsupportedRequest req s
  | .sessionTimeout session => Sys2Proof.Machine.execSessionTimeout session s
  | .spdmrly value => Sys2Proof.Machine.execSpdmrly value s
  | .power slice state point => Sys2Proof.Machine.execPower slice state point s
  | .package number => Sys2Proof.Machine.execPackage number s
  | .pstateWrite slice value => Sys2Proof.Machine.execPstateWrite slice value s
  | .throttleStep slice temp => Sys2Proof.Machine.execThrottleStep slice temp s
  | .hcstart value => Sys2Proof.Machine.execHcstart value s
  | .msiWrite port => Sys2Proof.Machine.execMsiWrite port s
  | .linkTrain link peer => Sys2Proof.Machine.execLinkTrain link peer s
  | .linkDown link => Sys2Proof.Machine.execLinkDown link s
  | .lmsTreeRenew => Sys2Proof.Machine.execLmsTreeRenew s
  | .moduleReset => Sys2Proof.Machine.execModuleReset s
  | .interlockedResultWrite tid => Sys2Proof.Machine.execInterlockedResultWrite tid s
  | .mloadMovementEnd core => Sys2Proof.Machine.execMloadMovementEnd core s
  | .pstateChangeEnd slice => Sys2Proof.Machine.execPstateChangeEnd slice s
  | .tandemSimplexFailure => Sys2Proof.Machine.execTandemSimplexFailure s
  | .startInterfaceRequest tdi eid => Sys2Proof.Machine.execStartInterfaceRequest tdi eid s

end Sys2Proof.Machine
end

