-- ==== Sys2Proof/Machine/Chain.lean ====
section
/-! DEFINITION. One turn of the machine: the issue of the chain at the current thread's word index, with fetch faults, interrupts and
the order of traps in a chain (R57, R69-R71, R79, R96, R204, R207), and the stores that reach the anchor die (R125). -/

namespace Sys2Proof.Machine

/-- The state that an instruction leads to. -/
def stateOr (o : Host.Outcome State Fault Refusal) (s : State) : State :=
  match o with
  | .next s' => s'
  | _ => s

/-! A chain of several words -/

/-- The words whose effect is on what the other words of their chain are translated and checked by: they take effect after those. -/
def comesLast : Instr → Bool
  | .tlbi .. => true
  | .eenter .. | .eexit .. => false
  | i => asksController i

def ChainWord.last (x : ChainWord) : Bool := x.dec.any comesLast

/-- Issues words of a chain one after another, each in the chain's own clock. No word follows one whose thread has left (R374). -/
def wordsInTurn (s t : State) (l : List ChainWord) : State :=
  l.foldl (fun t x => match x.dec with
    | some i => if s.left t then t else stateOr (exec i { t with th := { t.th with w := x.at_, readyAt := t.time } }) t
    | none => t) t

/-- Issues the words of a chain. One that asks the enclave controller, or drops translations, takes its effect after the others, which no word
of their own chain makes fault (R79, R404; DESIGN CHOICE, assumption 120); the thread goes on where the chain's last word leads. -/
def chainWords (s : State) (l : List ChainWord) : State :=
  let t := wordsInTurn s s (l.filter fun x => !x.last)
  if l.all fun x => !x.last then t else
    let u := wordsInTurn s t (l.filter (·.last))
    if s.left u || l.getLast?.any (·.last) then u else { u with th := { u.th with w := t.th.w, readyAt := t.th.readyAt } }

/-- What the words of a chain start from: their clock, the results that one of them waits for, and the sources they share (R70). -/
def startChain (s : State) (is : List Instr) : State :=
  let w := s.th.w
  let s := is.foldl (fun s i => begin_ i s) s
  let c : ChainCtx := { first := w, regs := s.th.regs, preds := s.th.preds, fpc := s.th.fpc }
  { s with chain := some c }

/-- A chain whose words could not all issue: nothing of it has happened, but a fetch's fault record stands (R57). -/
def unissued (s₀ s : State) : State :=
  { s₀ with
    records := s.records, outst := s.outst, serial := s.serial, evcnt := s.evcnt
    atomQ := if s₀.onHost then s.atomQ else s₀.atomQ
    th := { s₀.th with fetch := s.th.fetch } }

/-- A chain that traps adds no energy (R394): the counter of its core and context stands as it did before it. -/
def State.uncharge (s₀ s : State) : State :=
  let key := s₀.coreIx s₀.cur * 65536 + (s₀.space s₀.cur).eid.toNat
  { s with meters := match s₀.meters.find key with
    | some m => s.meters.put key m
    | none => s.meters.del key }

/-- The trap of a chain (R79): nothing of the chain stands, except before a control transfer that traps at its target. The word that
raised it runs once more, alone, for what the trap itself does; where it trapped only for what an earlier word of the chain had done, it
changes nothing. -/
def chainTrap (s₀ s : State) (l : List ChainWord) (c : ChainCtx) (t : Trap) (v : Dword) (w : Word) (target : Bool) : State :=
  let before := chainWords s (l.takeWhile fun x => x.at_ ≠ w)
  let base := if target then before else { s with fresh := before.fresh }
  let ctx : ChainCtx := { before.chain.getD c with solo := true, trap := none }
  let s' := chainWords { base with chain := some ctx } ((l.filter fun x => x.at_ = w).take 1)
  let s' := if s₀.left s' || s'.chain.any (·.trap.isSome) then s' else base
  let s' := if target then c.sys.foldl (fun s p => s.sysWrite p.1 p.2) s' else s'
  s₀.endInTrap (s₀.uncharge { s' with chain := none }) t v (if target then w else c.first)

/-- A chain of several words. Where its transfer waits for the words of its target's packet, the others have taken effect and the thread goes
on at the transfer (R77). -/
def runChain (s₀ : State) (l : List ChainWord) : State :=
  let is := l.filterMap (·.dec)
  if is.any fun i => held i s₀ then s₀
  else
    let s := startChain s₀ is
    let first : Dword := match l with
      | x :: _ => x.raw.setWidth 64
      | [] => 0
    if s.checking && dependent is && !(is.any fun i => privWord i s) then
      s₀.endInTrap { s with chain := none } .chainhaz first s₀.th.w
    else
      let s' := chainWords s l
      match s'.chain with
      | none => s'
      | some c =>
        if c.held then unissued s₀ s'
        else match c.trap with
          | some (_, t, v, w, target) => chainTrap s₀ s l c t v w target
          | none =>
            if s₀.left s' then { s' with chain := none }
            else
              let t : State := { c.sys.foldl (fun s p => s.sysWrite p.1 p.2) s' with chain := none }
              if is.any trapsAsEffect then s₀.uncharge t else t

/-! The turn of a thread -/

/-- Time passes for a thread that cannot issue, when no other turn stands next. -/
def State.idle (s : State) : State := if s.agenda.isEmpty then { s with time := s.time + s.period } else s

/-- The clock in which a thread's word issues (R72), which ends its YIELD. -/
def State.atReady (s : State) : State := { s with time := Nat.max s.time s.th.readyAt, th := { s.th with yielded := false } }

/-- Whether the thread waits whatever its next word is. -/
def State.asleep (s : State) : Bool :=
  s.th.fetch.isSome
  || s.th.wait != .none || s.haltedTeam

/-- A thread whose request the enclave controller holds has its place among those that are held (R418). -/
def State.joinController (s : State) (is : List Instr) : State :=
  if is.any (fun i => asks i s) && s.controllerHolds && !s.ctlQ.contains s.cur then { s with ctlQ := s.ctlQ ++ [s.cur] } else s

/-- What follows the issue of a chain's words: a host core's place among the atomic requests goes with the word that it was for, and so does
its place at the enclave controller, and a bundle is counted (R456); a SIMT core's bundle has one more thread (R27). Where nothing issued,
time passes. -/
def afterIssue (is : List Instr) (s₀ s : State) : State :=
  if s.fresh = s₀.fresh then (s.joinController is).idle
  else match s₀.cur with
    | .host n => { s with atomQ := s.atomsBut s₀.cur, ctlQ := s.ctlQ.filter (· ≠ s₀.cur) }.count (hostIx n) (s₀.space s₀.cur).eid.toNat 3 1
    | .simt _ _ => s₀.joinBundle s is

/-- A fault of the chain's fetch (R57): a trap at the chain's first word, or a wait. -/
def fetchTrap (s : State) (f : TFault) (w : Word) : State :=
  let va := s.codeVa w
  let sp := s.space s.cur
  match fetchFault s.atReady sp va f with
  | some s' => s.endInTrap s' f.trap (.ofNat 64 va) s.th.w
  | none => (fetchRecord s sp va f).idle

/-- The chain at the current thread's word index issues. -/
def issueChain (s : State) : Host.Outcome State Fault Refusal :=
  match s.chainAt with
  | .fault s' f w => .next (fetchTrap s' f w)
  | .ok s' l => match chainIllegal s' l, l with
    | some x, _ => .next (s'.endInTrap s'.atReady .illegal (x.raw.setWidth 64) s'.th.w)
    | none, [⟨_, _, some i, _⟩] => match exec i s' with
      | .next s'' => .next (afterIssue [i] s' s'')
      | r => r
    | none, l => .next (afterIssue (l.filterMap (·.dec)) s' (runChain s' l))

/-- The interrupt that the current thread's core takes before its next chain, both timers having run (R204). -/
def State.timers (s : State) : State :=
  match s.cur with
  | .host n => (s.tick n false).tick n true
  | .simt _ _ => s

def State.irqNow (s : State) : Option State :=
  match s.cur with
  | .host n => s.takeIrq n
  | .simt _ _ => none

/-- What has come about by the current tick without a turn of its own: leases have run out (R129), arbiters have withheld grants (R291),
energy ticks have been given out (R395), fences have completed (R141), and waits of SIMT threads have begun or ended (R236). -/
def State.catchUp (s : State) : State := s.expireLeases.accrueAll.tickAll.completeAll.noteReady

/-- The machine at a later tick. -/
def State.passTo (s : State) (t : Nat) : State := if s.time < t then { s with time := t }.catchUp else s

/-- The start of the current thread's turn: the clock in which its next word may issue (R72), with what has come about by then, and its
core's timers (R204). -/
def State.atTurn (s : State) : State := (if s.asleep then s else s.passTo s.th.readyAt).timers

/-- The turn of the current thread: an interrupt, a trap that it owes, or its next chain. A host thread is taken out of its program only once
its accesses have returned (R76). -/
def runThread (s : State) : Host.Outcome State Fault Refusal :=
  let s := s.atTurn
  match s.irqNow with
  | some s' => .next (if s.lateOut then s.idle else s'.freshen)
  | none =>
    if s.asleep then .next s.idle
    else match s.th.owed with
      | some (t, v) => .next (if s.lateOut then s.idle else ({ s with th := { s.th with owed := none } }.takeTrap t v s.th.w).freshen)
      | none => issueChain s

/-- The turn of a SIMT core: its picker chooses, or, with no thread that could issue, time passes (R237). -/
def runPicker (core : Nat) (s : State) : Host.Outcome State Fault Refusal :=
  .next (if (s.cands core).isEmpty then s.idle else s.pickerChoice core [])

/-- The turn of the current thread, which on a SIMT core is the picker's to choose. -/
def runCurrent (s : State) : Host.Outcome State Fault Refusal :=
  match s.cur with
  | .host _ => runThread s
  | .simt _ _ => runPicker (s.coreIx s.cur) s

/-! Stores to the anchor die (R125, R321, R342, R379, R415, R427, R450) -/

/-- A write of PREEMPT by its ACT (R383). -/
def State.writePreempt (s : State) (v : Nat) : Host.Outcome State Fault Refusal :=
  let eid : BitVec 16 := .ofNat 16 v
  if v / 2 ^ 18 ≠ 0 then .next s
  else match v / 2 ^ 16 with
    | 0 => execPreemptResume eid s
    | 1 => execPreemptSoft eid s
    | 2 => execPreemptHalt eid s
    | _ => execPreemptKill eid s

/-- A write of QUADSVC (R388). -/
def State.writeQuadsvc (s : State) (v : Nat) : Host.Outcome State Fault Refusal :=
  if v / 2 ^ 17 ≠ 0 || v / 2 ^ 15 % 2 ≠ 0 || v / 16 % 16 ≠ 0 then .next s
  else if v / 65536 = 1 then execQuadsvcOut (v % 16) (v / 256 % 128) s
  else execQuadsvcIn (v % 16) (v / 256 % 128) s

/-- A write of INJTAG (Table 19.9). -/
def State.writeInjtag (s : State) (v : Nat) : Host.Outcome State Fault Refusal :=
  if v / 2 ^ 48 ≠ 0 || v / 2 % 32 ≠ 0 then .next s
  else if v % 2 = 1 then execInjtagArm (.ofNat 42 (v / 64)) s
  else execInjtagDisarm (.ofNat 42 (v / 64)) s

/-- An ST.D of the current thread to an anchor-die register, by its offset. -/
def State.writeAnchor (s : State) (off : Nat) (x : Dword) : Host.Outcome State Fault Refusal :=
  let o := off % 0x1000
  let v := x.toNat
  let clear (f : State → Host.Outcome State Fault Refusal) : Host.Outcome State Fault Refusal := if v = 0 then f s else .next s
  match off / 0x1000 with
  | 1 => if o = 0x10 then clear execFrlostClear else execRegisterWrite off x s
  | 2 => s.writeInjtag v
  | 3 =>
    if o < 0x60 then execPartWrite (o / 8) x s
    else if o = 0x70 then s.writePreempt v
    else if o = 0x78 then s.writeQuadsvc v
    else if 0x80 ≤ o && o < 0x200 then execCeownWrite ((o - 0x80) / 8) x s
    else if o = 0x218 then execBlkmove x s
    else execRegisterWrite off x s
  | 4 =>
    if o = 8 then clear execTrstatClear
    else if o = 0x18 then clear execEcccntClear
    else if o = 0x28 then execRasstatClear x s
    else if o = 0x30 then .next (s.startUpdate x)
    else execRegisterWrite off x s
  | 6 =>
    if o < 0x60 then execPstateWrite (o / 8) x s
    else if o = 0x68 then execHcstart x s
    else if o = 0x78 then clear execSevcntClear
    else if o = 0x128 then execSpdmrly x s
    else execRegisterWrite off x s
  | _ => execRegisterWrite off x s

/-- A store to a device address takes effect: at the anchor die's registers, or at a command processor, which takes the kick. -/
def State.landStore (s : State) (pa : Nat) (v : Dword) : Host.Outcome State Fault Refusal :=
  match s.region pa with
  | .kick q => execKickTake (q / 256) (q % 256) s
  | .regs => s.writeAnchor (pa % 2 ^ 16) v
  | _ => .next s

/-! Turns -/

/-- A thread whose turn found that it is not ready (Table 10.4): it is ready again no earlier than now (R236), and the picker passes it over
in this clock. -/
def State.notReady (s : State) : State :=
  { s with th := { s.th with stuck := some s.time, readyAt := Nat.max s.th.readyAt s.time } }

/-- The turns of the later threads of a bundle. -/
def State.memberTurns (s : State) (core : Nat) (l : List ThreadId) : List Turn :=
  l.filterMap fun i => match i, s.thread? i, s.launchOf i with
    | .simt _ idx, some t, some (n, _) => some (.member core (idx % 32) n t.w i)
    | _, _, _ => none

/-- Tries the threads of a bundle one by one: one whose words do not issue turns out not to be ready, with what its turn has left (a fetch's
fault record); of the others nothing happens yet. -/
def tryBundle (s : State) : List ThreadId → State × Bool
  | [] => (s, true)
  | i :: rest =>
    let next (t : State) (ok : Bool) : State × Bool :=
      let r := tryBundle t rest
      (r.1, ok && r.2)
    match s.switchTo i with
    | none => next s true
    | some s' =>
      let t := stateOr (runThread s') s'
      if t.fresh = s.fresh then next (({ t with time := s.time, agenda := s.agenda } : State).notReady) false else next s true

/-- The turn of a bundle (R237). If one of its threads turns out not to be ready, the picker chooses again in the same clock without it.
Otherwise its first thread issues, the bundle is counted (R456), and the other threads take their turns. -/
def runBundle (core : Nat) (order : List Nat) (l : List ThreadId) (s : State) : Host.Outcome State Fault Refusal :=
  match l, tryBundle s l with
  | [], _ => .next s
  | _ :: _, (t, false) => .next (({ t with agenda := .event (.pickerChoice core order) :: t.agenda } : State).modCore core fun k => { k with picked := none })
  | i :: rest, (_, true) => match s.switchTo i with
    | none => .fault .noSuchThread
    | some s' => match runThread { s' with agenda := s.memberTurns core rest ++ s.agenda } with
      | .next t => .next (t.count core (s'.space s'.cur).eid.toNat 3 1)
      | r => r

/-- The turn of a later thread of a bundle. One that turns out not to be ready gives its place to the oldest other ready thread of its home
lane at the bundle's word (R237). -/
def runMember (core lane launch : Nat) (w : Word) (i : ThreadId) (s : State) : Host.Outcome State Fault Refusal :=
  match s.switchTo i with
  | none => .next s
  | some s' => match runThread s' with
    | .next t =>
      if t.fresh ≠ s.fresh then .next t
      else
        let t := ({ t with time := s.time } : State).notReady
        match oldestCand ((t.cands core).filter fun c => c.lane = lane && c.launch = launch && c.w = w && c.stamp ≤ t.time) with
        | some c => .next { t with agenda := .member core lane launch w c.id :: t.agenda }
        | none => .next t
    | r => r

/-- Whether a store to a device register waits: BLKMOVE, while an atomic unit holds a line of its block (R139, R389). -/
def State.storeHeld (s : State) (pa : Nat) (v : Dword) : Bool :=
  s.region pa = .regs && pa % 2 ^ 16 = 0x3218 && v.toNat / 2 ^ 16 % 2 ^ 15 = 0 && v.toNat < 2 ^ 48 && (blkStatus s v.toNat).isNone
    && s.blockHeld (blockFrame v.toNat)

/-- A store to a device register that waits: the other turns go on, or time passes. -/
def State.postpone (s : State) (t : Turn) : State := match s.agenda with
  | [] => { s with time := s.time + Config.ticksPerCoreClock, agenda := [t] }
  | u :: rest => { s with agenda := u :: t :: rest }

/-- The next word of a SIMT thread has not come yet, or comes (R240): of the model, a wait on record 0, which no record bears. -/
def State.awaitWord (s : State) (i : ThreadId) : State :=
  if i.isHost then s else s.modThread i fun t => if t.fetch.isNone && t.wait = .none then { t with fetch := some 0 } else t

def State.wordComes (s : State) (i : ThreadId) : State :=
  s.modThread i fun t => if t.fetch = some 0 then { t with fetch := none }.wakeAt s.time else t

/-- One turn: a step of an agent, a thread that issues its next chain after a delay, a bundle or a later thread of it, a thread's next access
that is to come late (R264), a store that lands, or a thread whose next word is still to come, or comes (R240). -/
def takeTurn (t : Turn) (s : State) : Host.Outcome State Fault Refusal :=
  match t with
  | .event e => if e.isEvent then exec e s else .next s
  | .thread i d => match s.switchTo i with
    | some s' => runCurrent (s'.passTo (s'.time + d * s'.period))
    | none => .fault .noSuchThread
  | .bundle core order l => runBundle core order l s
  | .member core lane launch w i => runMember core lane launch w i s
  | .late i => .next (s.modThread i fun t => { t with late := true })
  | .store pa v => if s.storeHeld pa v then .next (s.postpone t) else s.landStore pa v
  | .unfetched i => .next (s.awaitWord i)
  | .fetched i => .next (s.wordComes i)

/-! The pickers of the other cores (R237, R238) -/

/-- The core whose picker acts no later than a tick because a thread of it is overdue in that clock. -/
def State.dueCore (s : State) (t : Nat) : Option Nat :=
  ((s.teams.map (·.2.core)).dedup).find? fun c =>
    let l := s.cands c
    let now := s.pickClock c l
    decide (now ≤ t) && l.any (·.late now)

/-- The tick that the next turn reaches before anything issues; none within the clock of a bundle or a store. -/
def State.reaches (s : State) : List Turn → Option Nat
  | [] => some s.time
  | .event _ :: _ => some s.time
  | .thread i d :: _ => some (s.time + d * periodOf i)
  | _ => none

/-- What is left of a turn's delay when a picker has acted in the meantime. -/
def Turn.after (ticks : Nat) : Turn → Turn
  | .thread i d => .thread i (d - ticks / periodOf i)
  | t => t

/-- The picker of a core acts before the next turn. -/
def State.pickFirst (s : State) (core : Nat) : State :=
  let passed := s.pickClock core (s.cands core) - s.time
  { s with agenda := match s.agenda with
    | [] => []
    | t :: rest => t.after passed :: rest }.pickerChoice core []

/-- The machine goes on: with the picker of a core that has an overdue thread, which issues in its own clock (R238), with the next turn of the
agenda, or, with none, with the current thread or the choice of its core's picker (assumption 3). -/
def runNext (s : State) : Host.Outcome State Fault Refusal :=
  match (s.reaches s.agenda).bind s.dueCore with
  | some core => .next (s.pickFirst core)
  | none => match s.agenda with
    | [] => runCurrent s
    | t :: rest => takeTurn t { s with agenda := rest }

/-! A program from outside the machine (R457) -/

/-- The page tables that map VA 0 of home slice 0 to one page: root set, four nodes and the page, in HYP frames of slice 0. -/
def bootImage (code : List Byte) : List (Nat × List Byte) :=
  [(0x0, leBytes 8 0x10001), (0x10000, leBytes 8 0x20003), (0x20000, leBytes 8 0x21003), (0x21000, leBytes 8 0x22003),
    (0x22000, leBytes 8 0x23055), (0x23000, code)]

def bootFrames : List Nat := [0x0, 0x20, 0x21, 0x22, 0x23] ++ List.range' 0x10 16

/-- Loads an instruction's words at word 0 of code base 0 for host core 0 at level H. -/
def State.loadWord (s : State) (code : List Byte) : State :=
  { s with
    mem := (bootImage code).foldl (fun m p => Memory.setAll m p.1 p.2) s.mem
    pots := bootFrames.foldl (fun t f => t.put f { state := .hyp, maxp := 7 }) s.pots
    hosts := s.hosts.put 0 { s.hostCore 0 with ptroot := 0, guestid := 0 }
    ilines := [], tlb := [] }

end Sys2Proof.Machine
end

