-- ==== Sys2Proof/Machine/Step.lean ====
section
/-! DEFINITION. One step of the module, and the placing of an instruction where the first step after reset fetches it. -/

namespace Sys2Proof.Machine

/-- One step: what has come about by now, and then the next turn. -/
def step (s : State) : Host.Outcome State Fault Refusal := runNext s.catchUp

/-- An instruction's words, low word first, where the next step fetches: the state of a host core that runs at word 0 of code base 0 in
its own address space. It stands for the load of a hypervisor image (R457). -/
def State.withFetchWord (s : State) (_nbits w : Nat) : State := s.loadWord (leBytes 8 w)

end Sys2Proof.Machine
end

