-- ==== Sys2Proof/WellFormed.lean ====
section
/-! DEFINITION. When a term of `Instr` is a word that a program may hold: one check for each rule that a term can break. -/

namespace Sys2Proof

/-- The checks, by what each refuses. -/
inductive Flaw where
  /-- A step of an agent: no word encodes it. -/
  | notAWord
  /-- The header names a literal and no operand position holds 0x7D, or the word takes an extension word (R58). -/
  | strayLiteral
  /-- A JMP of o7, which is RET (R153). -/
  | jumpIsRet
  /-- An operand code that its position refuses: 0x7E, 0x7F, a literal where none may stand, an odd pair, a range beyond g111, zr
  where a range stands (R60-R66, R173, R187). -/
  | operand
  /-- Two literals (R63). -/
  | twoLiterals
  /-- A field value that the instruction's rule calls ILLEGAL (Table 3.7 and the entries). -/
  | fieldValue
  /-- An unassigned system register, or a write of one that takes none (R206, R207). -/
  | systemRegister
  deriving DecidableEq, Repr

/-- Whether the header's literal is one that the encoding carries. -/
def Instr.litOk (i : Instr) : Bool :=
  match i.hdr? with
  | some h => h.lit == 0 || (takesLit i.wordNat && !takesExt i.wordNat)
  | none => true

/-- Whether the term is its word's own decoding and not RET's. -/
def Instr.retOk : Instr → Bool
  | .jmp _ a => a != .o 7
  | _ => true

/-- The flaws of a term, with all 112 main-file registers allotted. -/
def Instr.flaws (i : Instr) : List Flaw :=
  if i.isEvent then [.notAWord]
  else
    (if i.litOk then [] else [.strayLiteral]) ++ (if i.retOk then [] else [.jumpIsRet])
      ++ (if i.info.uses.all (Use.ok 112) then [] else [.operand])
      ++ (if (i.info.uses.filter (·.opnd == .lit)).length ≤ 1 then [] else [.twoLiterals])
      ++ (if i.info.ok then [] else [.fieldValue])
      ++ (if i.sysAccess == some none then [.systemRegister] else [])

/-- A well-formed instruction word. -/
def Instr.WellFormed (i : Instr) : Prop := i.flaws = []

/-- What the encoding itself needs of a term, whatever its operands: it is a word, and nothing in it is lost. -/
def Instr.Encodable (i : Instr) : Prop := i.isEvent = false ∧ i.litOk = true ∧ i.retOk = true

end Sys2Proof
end

