-- ==== Sys2Proof/Safety.lean ====
section
/-! DEFINITION. The terms that statements about the machine use: when a word runs to its own effect, what it leaves unchanged, and the
invariant that every step keeps. -/

namespace Sys2Proof.Machine

/-- The word is alone in its chain, nothing holds it (R240), its thread owes no trap, no check of Table 3.5 before the execute
stage stops it, and no register that it reads is void (R62). -/
def Runs (i : Instr) (s : State) : Prop :=
  s.chain = none ∧ s.th.owed = none ∧ held i s = false ∧ gate i (begin_ i s) = none ∧ loose i (begin_ i s) = false

/-- The same of a word that reads a void register: its sources yield any value. -/
def RunsLoose (i : Instr) (s : State) : Prop :=
  s.chain = none ∧ s.th.owed = none ∧ held i s = false ∧ gate i (begin_ i s) = none ∧ loose i (begin_ i s) = true

/-- The register after every outstanding result of the thread is written (R73). -/
def State.final (s : State) (c : Nat) : Word := s.th.settle.reg c

/-- The predicate after every outstanding result of the thread is written. -/
def State.finalPred (s : State) (n : Nat) : Bool := predOf s.th.settle.preds n

/-- FPC after every outstanding result of the thread is written. -/
def State.finalFpc (s : State) : Word := s.th.settle.fpc

/-- A byte of memory as it stands at its home. -/
def State.byte (s : State) (pa : Nat) : Byte := Memory.get s.mem pa

/-- The invariant of the module between its steps: memory is in its canonical form, and no chain is open. -/
structure Inv (s : State) : Prop where
  mem   : Memory.wf s.mem = true
  chain : s.chain = none

/-- The registers that a 32-bit destination names, with the value it is given: none for zr (R60). -/
def outs (d : Opnd) (v : Word) : List (Nat × Word) := if d.isReg then [(d.code, v)] else []

/-- A pair destination: the lower register takes the low half (R61). -/
def outs2 (d : Opnd) (v : Dword) : List (Nat × Word) := if d.isReg then [(d.code, v.lo), (d.code + 1, v.hi)] else []

/-- A quad destination (R61). -/
def outs4 (d : Opnd) (v : Qword) : List (Nat × Word) :=
  if d.isReg then
    [(d.code, v.extractLsb' 0 32), (d.code + 1, v.extractLsb' 32 32), (d.code + 2, v.extractLsb' 64 32),
      (d.code + 3, v.extractLsb' 96 32)]
  else []

/-- What a word reads from its operand field `f`, once the results that it waits for are written (R73). -/
def operand (i : Instr) (s : State) (h : Hdr) (f : Nat) (o : Opnd) : Word := (begin_ i s).src h f o
def operand2 (i : Instr) (s : State) (f : Nat) (o : Opnd) : Dword := (begin_ i s).src2 f o
def operand4 (i : Instr) (s : State) (f : Nat) (o : Opnd) : Qword := (begin_ i s).src4 f o
def operandP (i : Instr) (s : State) (f : Nat) (n : BitVec 3) : Bool := (begin_ i s).readPred f n.toNat

/-- FPC as a word reads it. -/
def fpcOf (i : Instr) (s : State) : Word := (begin_ i s).fpcIn

/-- The stall count of a word (R72). -/
def stallOf (i : Instr) : Nat := match i.hdr? with
  | some h => h.s.toNat
  | none => 0

/-- The state `t` differs from `s` only in the registers, predicates, FPC, word index and clock of the current thread, in the energy and
event counters, and, where the word writes a register that an outstanding matrix operation names with checking off, in the tiles,
operations and movements of the teams and in the thread's record of the operation (Table 8.2). -/
structure Quiet (i : Instr) (s t : State) : Prop where
  thread : t.th = { s.th with
    regs := t.th.regs, preds := t.th.preds, fpc := t.th.fpc, w := t.th.w, readyAt := t.th.readyAt, yielded := false
    early := t.th.early, results := t.th.results, lvoid := t.th.lvoid, poison := t.th.poison, mx := t.th.mx }
  rest : t = { s with
    th := t.th, time := t.time, fresh := t.fresh, meters := t.meters, evcnt := t.evcnt, teams := t.teams, ops := t.ops
    moves := t.moves }
  tiles : (s.th.mx.all fun m => !meets m.codes i.writeCodes) = true →
    t.teams = s.teams ∧ t.ops = s.ops ∧ t.moves = s.moves ∧ t.th.mx = s.th.mx

/-- The word's whole effect is on its own thread: once every result is written, the listed registers and predicates hold the listed values
and every other one what it held, FPC has the flags added and no other bit changed, the thread goes on at word `w`, and the next word
may issue 1 + S clocks after this one, which issued when the thread was ready (R72). -/
structure Did (i : Instr) (s t : State) (w : Word) (regs : List (Nat × Word)) (preds : List (Nat × Bool)) (flags : BitVec 5) : Prop where
  wrote  : ∀ p ∈ regs, t.final p.1 = p.2
  kept   : ∀ c, (∀ p ∈ regs, p.1 ≠ c) → t.final c = s.final c
  wroteP : ∀ p ∈ preds, p.1 ≠ 0 → t.finalPred p.1 = p.2
  keptP  : ∀ n, (∀ p ∈ preds, p.1 ≠ n) → t.finalPred n = s.finalPred n
  fpc    : t.finalFpc = setFlags s.finalFpc flags
  next   : t.th.w = w
  time   : t.time = Nat.max s.time s.th.readyAt
  ready  : t.th.readyAt = t.time + (1 + stallOf i) * s.period
  quiet  : Quiet i s t

/-- The word runs, and its whole effect is what `Did` says, with the word after it next. -/
def Gives (i : Instr) (s : State) (regs : List (Nat × Word)) (preds : List (Nat × Bool) := []) (flags : BitVec 5 := 0) : Prop :=
  ∃ t, exec i s = .next t ∧ Did i s t (nextIndex i s) regs preds flags

/-- The word has retired over the effect `u`: beside `u` only the thread's word index and clock, the count of free values and the energy
and event counters differ, and the tiles, operations and movements of the teams and the thread's record of an outstanding matrix operation
where the word writes a register that the operation names with checking off (Table 8.2). -/
structure Ends (i : Instr) (w : Word) (u t : State) : Prop where
  rest : t = { u with
    th := { u.th with w := w, readyAt := u.time + (1 + stallOf i) * u.period, mx := t.th.mx }
    fresh := u.fresh + 1, meters := t.meters, evcnt := t.evcnt, teams := t.teams, ops := t.ops, moves := t.moves }
  tiles : (u.th.mx.all fun m => !meets m.codes i.writeCodes) = true →
    t.teams = u.teams ∧ t.ops = u.ops ∧ t.moves = u.moves ∧ t.th.mx = u.th.mx

/-- The word runs, its effect is the state `u`, and the thread goes on at the word after it. -/
def Takes (i : Instr) (s u : State) : Prop := ∃ t, exec i s = .next t ∧ Ends i (nextIndex i s) u t

/-- The word runs, its effect is the state `u`, and the thread goes on at word `w` with its l registers void (R62). -/
def Goes (i : Instr) (s : State) (w : Word) (u : State) : Prop := ∃ t, exec i s = .next t ∧ Ends i w u.voidL t

/-- The word runs, and its effect is the state `u`, which says itself where its thread stands. -/
def Lands (i : Instr) (s u : State) : Prop := ∃ t, exec i s = .next t ∧ Ends i u.th.w u t

/-- The registers and predicates of the thread once every result is written: the listed registers hold the listed values, every other
register, every predicate and FPC what they held before. -/
def Writes (s u : State) (regs : List (Nat × Word)) : Prop :=
  (∀ p ∈ regs, u.final p.1 = p.2) ∧ (∀ c, (∀ p ∈ regs, p.1 ≠ c) → u.final c = s.final c)
  ∧ (∀ n, u.finalPred n = s.finalPred n) ∧ u.finalFpc = s.finalFpc

/-- A step of an agent takes effect: it leads to `u`, with the count of free values advanced. -/
def Occurs (i : Instr) (s u : State) : Prop := exec i s = .next u.freshen

/-- A request to the enclave controller answers status `c` in d over the effect `u`. -/
def Answers (i : Instr) (s : State) (d : Opnd) (c : Status) (u : State) : Prop :=
  Takes i s (u.postTo d (.ofNat 32 c.code)) ∧ Writes u (u.postTo d (.ofNat 32 c.code)) (outs d (.ofNat 32 c.code))

/-- The word reads the `n` bytes `bs` at the address in `a`, aligned as it asks, which leaves `u`. -/
def Reads (i : Instr) (s : State) (a : Opnd) (n align : Nat) (u : State) (bs : List Byte) : Prop :=
  let b := begin_ i s
  (b.src2 1 a).toNat % align = 0 ∧ (b.src2 1 a).toNat < 12 * 2 ^ 52
    ∧ loadBytes b (b.coreIx b.cur) (b.space b.cur) 64 (b.src2 1 a).toNat n = .ok u bs

/-- The bytes are stored whole for the thread at an address, which leaves `v`. -/
def Stores (u : State) (va : Nat) (bs : List Byte) (v : State) : Prop :=
  ∃ w, probeBytes u (u.space u.cur) 64 va bs.length = .ok w () ∧ putBytes w (w.coreIx w.cur) (u.space u.cur) 64 va bs = .ok v ()

/-- A request block names a page of an enclave of the caller's guest, and a frame of that guest that no operation holds; its
enclave's tables lead to the entry `ent` at `at_` of level `lev`. -/
def Names (u : State) (bs : List Byte) (e : Encl) (lev at_ ent : Nat) : Prop :=
  let r := pageReq u bs
  r.ok = true ∧ u.liveEncl r.eid = some e ∧ e.guest = u.callerGuest ∧ (u.pot (r.pa / 4096)).guest = u.callerGuest
    ∧ u.frameBusy (r.pa / 4096) = false ∧ ∃ root, e.roots.find (homeOf r.va) = some root ∧ descend u r.va 4 root = .ok (lev, at_, ent)

/-- Words of format RRR that write d with a function of a and b. -/
def Binary (mk : Hdr → Opnd → Opnd → Opnd → Instr) (f : Word → Word → Word) : Prop :=
  ∀ h d a b s, Runs (mk h d a b) s →
    Gives (mk h d a b) s (outs d (f (operand (mk h d a b) s h 1 a) (operand (mk h d a b) s h 2 b)))

/-- Words that write d with a function of its old value, a and b. -/
def Ternary (mk : Hdr → Opnd → Opnd → Opnd → Instr) (f : Word → Word → Word → Word) : Prop :=
  ∀ h d a b s, Runs (mk h d a b) s →
    Gives (mk h d a b) s (outs d (f (operand (mk h d a b) s h 0 d) (operand (mk h d a b) s h 1 a) (operand (mk h d a b) s h 2 b)))

/-- Words of format RRI or RR that write d with a function of a. -/
def Unary (mk : Hdr → Opnd → Opnd → Instr) (f : Word → Word) : Prop :=
  ∀ h d a s, Runs (mk h d a) s → Gives (mk h d a) s (outs d (f (operand (mk h d a) s h 1 a)))

/-- Floating words of two sources, with the flags that they raise. -/
def FloatBinary (mk : Hdr → Opnd → Opnd → Opnd → Instr) (f : Word → Word → Word → FRes) : Prop :=
  ∀ h d a b s, Runs (mk h d a b) s →
    let r := f (fpcOf (mk h d a b) s) (operand (mk h d a b) s h 1 a) (operand (mk h d a b) s h 2 b)
    Gives (mk h d a b) s (outs d (.ofNat 32 r.bits)) [] r.flags

/-- Floating words that read d as well. -/
def FloatTernary (mk : Hdr → Opnd → Opnd → Opnd → Instr) (f : Word → Word → Word → Word → FRes) : Prop :=
  ∀ h d a b s, Runs (mk h d a b) s →
    let r := f (fpcOf (mk h d a b) s) (operand (mk h d a b) s h 0 d) (operand (mk h d a b) s h 1 a) (operand (mk h d a b) s h 2 b)
    Gives (mk h d a b) s (outs d (.ofNat 32 r.bits)) [] r.flags

/-- Floating words of one source. -/
def FloatUnary (mk : Hdr → Opnd → Opnd → Instr) (f : Word → Word → FRes) : Prop :=
  ∀ h d a s, Runs (mk h d a) s →
    let r := f (fpcOf (mk h d a) s) (operand (mk h d a) s h 1 a)
    Gives (mk h d a) s (outs d (.ofNat 32 r.bits)) [] r.flags

/-- F64 words of two pair sources; `f` takes the rounding mode and the two values. -/
def PairBinary (mk : Hdr → Opnd → Opnd → Opnd → Instr) (f : Word → Dword → Dword → FRes) : Prop :=
  ∀ h d a b s, Runs (mk h d a b) s →
    let r := f (fpcOf (mk h d a b) s) (operand2 (mk h d a b) s 1 a) (operand2 (mk h d a b) s 2 b)
    Gives (mk h d a b) s (outs2 d (.ofNat 64 r.bits)) [] r.flags

end Sys2Proof.Machine
end

