-- ==== Sys2Proof/Certificates/Slice0/Obligations.lean ====
section
/-! DEFINITION. The statements for the provers. Each docstring names the rules of spec/ that its statement formalises. -/

open Sys2Proof Sys2Proof.Machine

/-! Integer, predicate and floating-point words (05_isa_arith.md) -/

/-- R98: the integer forms of Table 5.1, of 32 bits and of pairs: the value of d, and nothing else changes. -/
def Obligations.IntegerForms : Prop :=
  (Binary .add (fun a b => a + b) ∧ Binary .sub (fun a b => a - b) ∧ Binary .mul (fun a b => a * b)
   ∧ Binary .mulhi (fun a b => (a.signExtend 64 * b.signExtend 64).extractLsb' 32 32)
   ∧ Binary .mulhu (fun a b => (a.setWidth 64 * b.setWidth 64).extractLsb' 32 32)
   ∧ Ternary .mad (fun d a b => a * b + d)
   ∧ Binary .and (fun a b => a &&& b) ∧ Binary .or (fun a b => a ||| b) ∧ Binary .xor (fun a b => a ^^^ b)
   ∧ Binary .andn (fun a b => a &&& ~~~b)
   ∧ Binary .shl (fun a b => a <<< (b.toNat % 32)) ∧ Binary .shr (fun a b => a >>> (b.toNat % 32))
   ∧ Binary .sra (fun a b => a.sshiftRight (b.toNat % 32))
   ∧ Binary .min (fun a b => if a.toInt < b.toInt then a else b) ∧ Binary .max (fun a b => if a.toInt < b.toInt then b else a)
   ∧ Binary .minu (fun a b => if a.toNat < b.toNat then a else b) ∧ Binary .maxu (fun a b => if a.toNat < b.toNat then b else a)
   ∧ Binary .adds (fun a b => .ofInt 32 (max (-2147483648) (min 2147483647 (a.toInt + b.toInt))))
   ∧ Binary .subs (fun a b => .ofInt 32 (max (-2147483648) (min 2147483647 (a.toInt - b.toInt))))
   ∧ ∀ k, Binary (fun h d a b => .lea h k d a b) (fun a b => a + (b <<< k.toNat)))
  ∧ (∀ h d a b s,
     (Runs (.add64 h d a b) s →
       Gives (.add64 h d a b) s (outs2 d (operand2 (.add64 h d a b) s 1 a + operand2 (.add64 h d a b) s 2 b)))
     ∧ (Runs (.sub64 h d a b) s →
       Gives (.sub64 h d a b) s (outs2 d (operand2 (.sub64 h d a b) s 1 a - operand2 (.sub64 h d a b) s 2 b)))
     ∧ (Runs (.mulw h d a b) s →
       Gives (.mulw h d a b) s (outs2 d (.ofNat 64 ((operand (.mulw h d a b) s h 1 a).toNat * (operand (.mulw h d a b) s h 2 b).toNat))))
     ∧ (Runs (.mulws h d a b) s →
       Gives (.mulws h d a b) s (outs2 d (.ofInt 64 ((operand (.mulws h d a b) s h 1 a).toInt * (operand (.mulws h d a b) s h 2 b).toInt)))))

/-- R99: BFE, BFI and PRMB, bit by bit. -/
def Obligations.BitFields : Prop :=
  (∀ h d a b s, Runs (.bfe h d a b) s →
    let x := operand (.bfe h d a b) s h 1 a
    let y := operand (.bfe h d a b) s h 2 b
    let pos := y.toNat % 32
    let eff := min (y.toNat / 32 % 64) (32 - pos)
    ∃ v : Word, (∀ i < 32, v.getLsbD i =
        if i < eff then x.getLsbD (pos + i) else (0 < eff && y.getLsbD 11 && x.getLsbD (pos + eff - 1)))
      ∧ Gives (.bfe h d a b) s (outs d v))
  ∧ (∀ h d a b s, Runs (.bfi h d a b) s →
    let old := operand (.bfi h d a b) s h 0 d
    let x := operand (.bfi h d a b) s h 1 a
    let y := operand (.bfi h d a b) s h 2 b
    let pos := y.toNat % 32
    let eff := min (y.toNat / 32 % 64) (32 - pos)
    ∃ v : Word, (∀ i < 32, v.getLsbD i = if pos ≤ i ∧ i < pos + eff then x.getLsbD (i - pos) else old.getLsbD i)
      ∧ Gives (.bfi h d a b) s (outs d v))
  ∧ (∀ h d a b s, Runs (.prmb h d a b) s →
    let x := operand (.prmb h d a b) s h 1 a
    let y := operand (.prmb h d a b) s h 2 b
    ∃ v : Word, (∀ i < 4, ∀ j < 8, v.getLsbD (8 * i + j) =
        let c := y.toNat / 16 ^ i % 16
        if 8 ≤ c then false else if 4 ≤ c then x.getLsbD (8 * (c % 4) + 7) else x.getLsbD (8 * c + j))
      ∧ Gives (.prmb h d a b) s (outs d v))

/-- R100, R101: the immediate forms and moves of Table 5.2, and the integer unary group of Table 5.3, where a count is said by what it
counts. A shift amount of more than five bits has no term of `Instr`. -/
def Obligations.ImmediateAndUnaryForms : Prop :=
  ((∀ imm, Unary (fun h d a => .addi h d a imm) (fun a => a + imm.signExtend 32))
   ∧ (∀ imm, Unary (fun h d a => .andi h d a imm) (fun a => a &&& imm.signExtend 32))
   ∧ (∀ imm, Unary (fun h d a => .ori h d a imm) (fun a => a ||| imm.signExtend 32))
   ∧ (∀ imm, Unary (fun h d a => .xori h d a imm) (fun a => a ^^^ imm.signExtend 32))
   ∧ (∀ imm, Unary (fun h d a => .shli h d a imm) (fun a => a <<< imm.toNat))
   ∧ (∀ imm, Unary (fun h d a => .shri h d a imm) (fun a => a >>> imm.toNat))
   ∧ (∀ imm, Unary (fun h d a => .srai h d a imm) (fun a => a.sshiftRight imm.toNat))
   ∧ (∀ imm, Unary (fun h d a => .muli h d a imm) (fun a => a * imm.signExtend 32))
   ∧ (∀ h d imm s, Runs (.movi h d imm) s → Gives (.movi h d imm) s (outs d (imm.signExtend 32)))
   ∧ Unary .mov (fun a => a))
  ∧ ((∀ h d a s, Runs (.clz h d a) s →
     let x := operand (.clz h d a) s h 1 a
     ∃ n ≤ 32, (∀ i < n, x.getLsbD (31 - i) = false) ∧ (n < 32 → x.getLsbD (31 - n) = true)
       ∧ Gives (.clz h d a) s (outs d (.ofNat 32 n)))
   ∧ (∀ h d a s, Runs (.ctz h d a) s →
     let x := operand (.ctz h d a) s h 1 a
     ∃ n ≤ 32, (∀ i < n, x.getLsbD i = false) ∧ (n < 32 → x.getLsbD n = true) ∧ Gives (.ctz h d a) s (outs d (.ofNat 32 n)))
   ∧ Unary .popc (fun a => .ofNat 32 ((List.range 32).filter fun i => a.getLsbD i).length)
   ∧ (∀ h d a s, Runs (.brev h d a) s →
     let x := operand (.brev h d a) s h 1 a
     ∃ v : Word, (∀ i < 32, v.getLsbD i = x.getLsbD (31 - i)) ∧ Gives (.brev h d a) s (outs d v))
   ∧ Unary .abs (fun a => .ofInt 32 |a.toInt|)
   ∧ Unary .neg (fun a => 0 - a) ∧ Unary .not (fun a => ~~~a)
   ∧ Unary .sext8 (fun a => (a.extractLsb' 0 8).signExtend 32) ∧ Unary .sext16 (fun a => (a.extractLsb' 0 16).signExtend 32)
   ∧ Unary .zext8 (fun a => a &&& 0xFF) ∧ Unary .zext16 (fun a => a &&& 0xFFFF))

/-- R102: CMP and CMPI by the integer column of Table 3.4. -/
def Obligations.IntegerCompares : Prop :=
  let holds (k : BitVec 4) (x y : Word) : Bool := match k.toNat with
    | 0 => x = y
    | 1 => x ≠ y
    | 2 => x.toInt < y.toInt
    | 3 => x.toInt ≤ y.toInt
    | 4 => y.toInt < x.toInt
    | 5 => y.toInt ≤ x.toInt
    | 6 => x.toNat < y.toNat
    | 7 => x.toNat ≤ y.toNat
    | 8 => y.toNat < x.toNat
    | _ => y.toNat ≤ x.toNat
  (∀ h k p a b s, Runs (.cmp h k p a b) s →
    Gives (.cmp h k p a b) s [] [(p.toNat, holds k (operand (.cmp h k p a b) s h 1 a) (operand (.cmp h k p a b) s h 2 b))])
  ∧ (∀ h k p a imm s, Runs (.cmpi h k p a imm) s →
    Gives (.cmpi h k p a imm) s [] [(p.toNat, holds k (operand (.cmpi h k p a imm) s h 1 a) (imm.signExtend 32))])
  ∧ (∀ h k p a b imm, (Instr.cmp h k p a b).word.extractLsb' 14 7 = k ++ p ∧ (Instr.cmpi h k p a imm).word.extractLsb' 14 7 = k ++ p)
  ∧ ∀ h k p a b imm (s : State), 10 ≤ k.toNat → ∀ i ∈ [Instr.cmp h k p a b, Instr.cmpi h k p a imm], s.chain = none → s.th.owed = none →
    held i s = false → s.lateOut = false → exec i s = .next ((begin_ i s).freshen.takeTrap .illegal i.tval s.th.w)

/-- R103, R104 and R105: predicate logic, PGET, PPUT and SEL. -/
def Obligations.Predicates : Prop :=
  (∀ h p q r s, Runs (.pand h p q r) s →
    Gives (.pand h p q r) s [] [(p.toNat, operandP (.pand h p q r) s 1 q && operandP (.pand h p q r) s 2 r)])
  ∧ (∀ h p q r s, Runs (.por h p q r) s →
    Gives (.por h p q r) s [] [(p.toNat, operandP (.por h p q r) s 1 q || operandP (.por h p q r) s 2 r)])
  ∧ (∀ h p q r s, Runs (.pxor h p q r) s →
    Gives (.pxor h p q r) s [] [(p.toNat, Bool.xor (operandP (.pxor h p q r) s 1 q) (operandP (.pxor h p q r) s 2 r))])
  ∧ (∀ h p q r s, Runs (.pandn h p q r) s →
    Gives (.pandn h p q r) s [] [(p.toNat, operandP (.pandn h p q r) s 1 q && !operandP (.pandn h p q r) s 2 r)])
  ∧ (∀ h p q s, Runs (.pnot h p q) s → Gives (.pnot h p q) s [] [(p.toNat, !operandP (.pnot h p q) s 1 q)])
  ∧ (∀ h d s, Runs (.pget h d) s →
    ∃ v : Word, (∀ i : BitVec 3, v.getLsbD i.toNat = operandP (.pget h d) s 1 i) ∧ v.toNat < 256 ∧ Gives (.pget h d) s (outs d v))
  ∧ (∀ h a s, Runs (.pput h a) s →
    let x := operand (.pput h a) s h 1 a
    Gives (.pput h a) s [] ((List.range 7).map fun i => (i + 1, x.getLsbD (i + 1))))
  ∧ ∀ h n d a b s, Runs (.sel h n d a b) s →
    Gives (.sel h n d a b) s
      (outs d (if operandP (.sel h n d a b) s 3 n then operand (.sel h n d a b) s h 1 a else operand (.sel h n d a b) s h 2 b))

/-- R106, R107, R109, R116, R119, R120: words that round an exact result once, or each half's, with the flags of the rounding: the class 4
forms of two or three 32-bit sources; and FMIN and FMAX by cases, on operands that FTZ does not change. -/
def Obligations.FloatForms : Prop :=
  (FloatBinary .fadd (faddOf false) ∧ FloatBinary .fsub (faddOf true) ∧ FloatBinary .fmul fmulOf
   ∧ FloatTernary .ffma (ffmaOf false) ∧ FloatTernary .ffnma (ffmaOf true)
   ∧ FloatBinary .fmin (fminmaxOf false) ∧ FloatBinary .fmax (fminmaxOf true)
   ∧ FloatBinary .hadd2 (pairAdd f16) ∧ FloatBinary .hmul2 (pairMul f16) ∧ FloatTernary .hfma2 (pairFma f16)
   ∧ FloatBinary .badd2 (pairAdd bf16) ∧ FloatBinary .bmul2 (pairMul bf16) ∧ FloatTernary .bfma2 (pairFma bf16)
   ∧ FloatBinary .pkF16 (fun _ a b => halves ((f32In false a).round f16 .rne false false) ((f32In false b).round f16 .rne false false))
   ∧ FloatBinary .pkB16 (fun _ a b => halves ((f32In false a).round bf16 .rne false false) ((f32In false b).round bf16 .rne false false))
   ∧ FloatBinary .fscl fsclOf
   ∧ FloatTernary .dot4E43 (fdotOf 8 4 e4m3.narrowValue) ∧ FloatTernary .dot4E52 (fdotOf 8 4 e5m2.value)
   ∧ FloatTernary .dot8E21 (fdotOf 4 8 e2m1.narrowValue) ∧ FloatTernary .dot2B16 (fdotOf 16 2 bf16.value)
   ∧ FloatTernary .dot2F16 (fdotOf 16 2 f16.value))
  ∧ (∀ (up : Bool) (c a b : Word), fpcFtz c = false →
     let x := f32.value a.toNat
     let y := f32.value b.toNat
     let r := fminmaxOf up c a b
     r.flags = 0
     ∧ (x.isNan = true → y.isNan = true → r.bits = 0x7FC00000)
     ∧ (x.isNan = false → y.isNan = true → r.bits = a.toNat)
     ∧ (x.isNan = true → y.isNan = false → r.bits = b.toNat)
     ∧ (x.isNan = false → y.isNan = false →
         r.bits = if (x.isZero && y.isZero && x.sign && !y.sign) || ((!(x.isZero && y.isZero)) && x.cmp y == .lt)
           then (if up then b.toNat else a.toNat) else (if up then a.toNat else b.toNat)))

/-- R42, R43, R44, R47: what a rounding mode takes for n / d of a given sign: an integer next to it, the even one at a tie under RNE, the
one toward zero under RZ, toward minus infinity under RD, toward plus infinity under RU. And rounding to an IEEE format: a NaN gives the
canonical NaN with no flag, or NV where no operand was a NaN; an infinity passes; a zero keeps its sign; and a result that is neither an
overflow nor flushed is the rounded magnitude under the exact value's sign, inexact exactly when it differs from the exact value. -/
def Obligations.Rounding : Prop :=
  (∀ (neg : Bool) (n d : Nat), 0 < d →
     (let q := roundQuot .rne neg n d
      2 * (max (q * d) n - min (q * d) n) ≤ d ∧ (2 * (max (q * d) n - min (q * d) n) = d → q % 2 = 0))
     ∧ (roundQuot .rz neg n d * d ≤ n ∧ n < (roundQuot .rz neg n d + 1) * d)
     ∧ (if neg then n ≤ roundQuot .rd neg n d * d ∧ roundQuot .rd neg n d * d < n + d else roundQuot .rd neg n d = n / d)
     ∧ (if neg then roundQuot .ru neg n d = n / d else n ≤ roundQuot .ru neg n d * d ∧ roundQuot .ru neg n d * d < n + d))
  ∧ ((∀ f rm ftz nv, FVal.round f rm ftz nv .nan = ⟨f.nanBits, if nv then NV else 0⟩)
   ∧ (∀ f rm ftz nv neg, FVal.round f rm ftz nv (.inf neg) = ⟨(if neg then f.signBit else 0) + f.infBits, 0⟩)
   ∧ (∀ f rm ftz nv neg e, FVal.round f rm ftz nv (.fin neg 0 e) = ⟨if neg then f.signBit else 0, 0⟩)
   ∧ (∀ f rm ftz nv neg m e, m ≠ 0 →
       let r := roundMag f rm neg m 1 e
       let t := FVal.round f rm ftz nv (.fin neg m e)
       t.flags.getLsbD 0 = false ∧ t.flags.getLsbD 1 = false
       ∧ (r.overflow = true → t.flags = OF ||| NX
           ∧ t.bits = (if neg then f.signBit else 0) + (if rm = .rz ∨ (rm = .rd ∧ neg = false) ∨ (rm = .ru ∧ neg = true)
             then f.infBits - 1 else f.infBits))
       ∧ (r.overflow = false → ftz = true → r.tiny = true → t = ⟨if neg then f.signBit else 0, UF ||| NX⟩)
       ∧ (r.overflow = false → (ftz = false ∨ r.tiny = false) →
           t.bits = (if neg then f.signBit else 0) + r.mag ∧ t.flags.getLsbD 4 = r.inexact
           ∧ t.flags.getLsbD 3 = (r.tiny && r.inexact) ∧ t.flags.getLsbD 2 = false)))

/-- R113 and R114: the float unary group; FABS and FNEG change only the sign bit of what is not a NaN, and FCLASS sets one bit. -/
def Obligations.FloatUnaryGroup : Prop :=
  FloatUnary .fabs (fun c a => signOp (fun n => n % 2 ^ 31) (fpcFtz c) a)
  ∧ FloatUnary .fneg (fun c a => signOp (fun n => (n + 2 ^ 31) % 2 ^ 32) (fpcFtz c) a)
  ∧ FloatUnary .ffloor (fun c a => integral .rd false (fpcFtz c) a) ∧ FloatUnary .fceil (fun c a => integral .ru false (fpcFtz c) a)
  ∧ FloatUnary .ftrunc (fun c a => integral .rz false (fpcFtz c) a)
  ∧ FloatUnary .frint (fun c a => integral (fpcRm c) true (fpcFtz c) a)
  ∧ FloatUnary .fclass (fun _ a => ⟨fclassOf a, 0⟩)
  ∧ (∀ a : Word, signOp (fun n => n % 2 ^ 31) false a =
      if (f32.value a.toNat).isNan then ⟨0x7FC00000, 0⟩ else ⟨(a &&& 0x7FFFFFFF).toNat, 0⟩)
  ∧ (∀ a : Word, signOp (fun n => (n + 2 ^ 31) % 2 ^ 32) false a =
      if (f32.value a.toNat).isNan then ⟨0x7FC00000, 0⟩ else ⟨(a ^^^ 0x80000000).toNat, 0⟩)
  ∧ (∀ a : Word, let e := (a.extractLsb' 23 8); let m := a.extractLsb' 0 23
      fclassOf a = if e = 255 then (if m = 0 then (if a.getLsbD 31 then 1 else 128) else if a.getLsbD 22 then 512 else 256)
        else if e = 0 then (if m = 0 then (if a.getLsbD 31 then 8 else 16) else if a.getLsbD 31 then 4 else 32)
        else if a.getLsbD 31 then 2 else 64)
  ∧ (∀ rm nx ftz a, (integral rm nx ftz a).flags = 0 ∨ (nx = true ∧ (integral rm nx ftz a).flags = NX))

/-- R108 and R111: FCMP and DCMP set a predicate by the floating-point column of Table 3.4 and no flag; a NaN is unordered, -0 equals +0. -/
def Obligations.FloatCompares : Prop :=
  (∀ h k p a b s, Runs (.fcmp h k p a b) s →
    let c := fpcOf (.fcmp h k p a b) s
    Gives (.fcmp h k p a b) s [] [(p.toNat, fCond k.toNat (f32In (fpcFtz c) (operand (.fcmp h k p a b) s h 1 a))
      (f32In (fpcFtz c) (operand (.fcmp h k p a b) s h 2 b)))])
  ∧ (∀ h k p a b s, Runs (.dcmp h k p a b) s →
    Gives (.dcmp h k p a b) s [] [(p.toNat, fCond k.toNat (f64.value (operand2 (.dcmp h k p a b) s 1 a).toNat)
      (f64.value (operand2 (.dcmp h k p a b) s 2 b).toNat))])
  ∧ (∀ k x y, (x.isNan || y.isNan) = true → k < 12 → fCond k x y = (k == 1 || (6 ≤ k && k < 10) || k == 11))
  ∧ ∀ n m e e', fCond 0 (.fin n 0 e) (.fin m 0 e') = true

/-- R110, R112: F64 arithmetic on pairs, rounded once by FPC.RM, FTZ ignored; and the SFU group, each result a function of the input bits
and FTZ alone. -/
def Obligations.DoubleAndSfuForms : Prop :=
  (PairBinary .dadd (fun c a b => fAdd f64 (fpcRm c) false (f64.value a.toNat) (f64.value b.toNat))
   ∧ PairBinary .dmul (fun c a b => fMul f64 (fpcRm c) false (f64.value a.toNat) (f64.value b.toNat))
   ∧ ∀ h d a b s, Runs (.dfma h d a b) s →
     let i := Instr.dfma h d a b
     let r := fFma f64 (fpcRm (fpcOf i s)) false false (f64.value (operand2 i s 1 a).toNat) (f64.value (operand2 i s 2 b).toNat)
       (f64.value (operand2 i s 0 d).toNat)
     Gives i s (outs2 d (.ofNat 64 r.bits)) [] r.flags)
  ∧ (FloatUnary .frcp (fun c a => frcpOf (fpcFtz c) a) ∧ FloatUnary .frsq (fun c a => frsqOf (fpcFtz c) a)
   ∧ FloatUnary .fsqrt (fun c a => fsqrtOf (fpcFtz c) a) ∧ FloatUnary .fex2 (fun c a => fex2Of (fpcFtz c) a)
   ∧ FloatUnary .flg2 (fun c a => flg2Of (fpcFtz c) a) ∧ FloatUnary .fsinp (fun c a => fsinpOf (fpcFtz c) a)
   ∧ FloatUnary .fcosp (fun c a => fcospOf (fpcFtz c) a) ∧ FloatUnary .ftanh (fun c a => ftanhOf (fpcFtz c) a)
   ∧ FloatUnary .fsigm (fun c a => fsigmOf (fpcFtz c) a))

/-- R115: the conversions of Table 5.7, with R47's rounding between floating formats and R48's clamp into integers: the nearest integer by
the code's rounding, clamped, NV where it is out of range or a NaN, NX where it is inexact. -/
def Obligations.Conversions : Prop :=
  FloatUnary .fcvtF16F32 (fun c a => (f32In (fpcFtz c) a).round f16 (fpcRm c) false false)
  ∧ FloatUnary .fcvtBf16F32 (fun c a => (f32In (fpcFtz c) a).round bf16 (fpcRm c) false false)
  ∧ FloatUnary .fcvtF32F16 (fun c a => (f16.value (a.toNat % 65536)).round f32 (fpcRm c) (fpcFtz c) false)
  ∧ FloatUnary .fcvtF32Bf16 (fun c a => (bf16.value (a.toNat % 65536)).round f32 (fpcRm c) (fpcFtz c) false)
  ∧ FloatUnary .fcvtF32S32 (fun c a => (intVal a.toInt).round f32 (fpcRm c) (fpcFtz c) false)
  ∧ FloatUnary .fcvtF32N32 (fun c a => (intVal a.toNat).round f32 (fpcRm c) (fpcFtz c) false)
  ∧ (∀ m, FloatUnary (fun h d a => .fcvtS32F32Fixed h d a m) (fun c a => toS32 (rmOf m.toNat) (f32In (fpcFtz c) a)))
  ∧ FloatUnary .fcvtS32F32 (fun c a => toS32 (fpcRm c) (f32In (fpcFtz c) a))
  ∧ (∀ m, FloatUnary (fun h d a => .fcvtN32F32Fixed h d a m) (fun c a => toN32 (rmOf m.toNat) (f32In (fpcFtz c) a)))
  ∧ FloatUnary .fcvtN32F32 (fun c a => toN32 (fpcRm c) (f32In (fpcFtz c) a))
  ∧ (∀ h d a s, Runs (.fcvtF64F32 h d a) s →
      let i := Instr.fcvtF64F32 h d a
      let r := (f32In (fpcFtz (fpcOf i s)) (operand i s h 1 a)).round f64 .rne false false
      Gives i s (outs2 d (.ofNat 64 r.bits)) [] r.flags)
  ∧ (∀ h d a s, Runs (.fcvtF64S32 h d a) s →
      let i := Instr.fcvtF64S32 h d a
      let r := (intVal (operand i s h 1 a).toInt).round f64 .rne false false
      Gives i s (outs2 d (.ofNat 64 r.bits)) [] r.flags)
  ∧ (∀ h d a s, Runs (.fcvtF64N32 h d a) s →
      let i := Instr.fcvtF64N32 h d a
      let r := (intVal (operand i s h 1 a).toNat).round f64 .rne false false
      Gives i s (outs2 d (.ofNat 64 r.bits)) [] r.flags)
  ∧ (∀ h d a s, Runs (.fcvtF32F64 h d a) s →
      let i := Instr.fcvtF32F64 h d a
      let c := fpcOf i s
      let r := (f64.value (operand2 i s 1 a).toNat).round f32 (fpcRm c) (fpcFtz c) false
      Gives i s (outs d (.ofNat 32 r.bits)) [] r.flags)
  ∧ (∀ h d a m s,
      (Runs (.fcvtS32F64Fixed h d a m) s → let i := Instr.fcvtS32F64Fixed h d a m
        let r := toS32 (rmOf m.toNat) (f64.value (operand2 i s 1 a).toNat)
        Gives i s (outs d (.ofNat 32 r.bits)) [] r.flags)
      ∧ (Runs (.fcvtS32F64 h d a) s → let i := Instr.fcvtS32F64 h d a
        let r := toS32 (fpcRm (fpcOf i s)) (f64.value (operand2 i s 1 a).toNat)
        Gives i s (outs d (.ofNat 32 r.bits)) [] r.flags)
      ∧ (Runs (.fcvtN32F64Fixed h d a m) s → let i := Instr.fcvtN32F64Fixed h d a m
        let r := toN32 (rmOf m.toNat) (f64.value (operand2 i s 1 a).toNat)
        Gives i s (outs d (.ofNat 32 r.bits)) [] r.flags)
      ∧ (Runs (.fcvtN32F64 h d a) s → let i := Instr.fcvtN32F64 h d a
        let r := toN32 (fpcRm (fpcOf i s)) (f64.value (operand2 i s 1 a).toNat)
        Gives i s (outs d (.ofNat 32 r.bits)) [] r.flags))
  ∧ (∀ rm, toS32 rm .nan = ⟨0, NV⟩ ∧ toN32 rm .nan = ⟨0, NV⟩)
  ∧ (∀ rm (n : Int), 0 ≤ n → n < 2 ^ 31 → toS32 rm (intVal n) = ⟨n.toNat, 0⟩ ∧ toN32 rm (intVal n) = ⟨n.toNat, 0⟩)
  ∧ (∀ rm (n : Int), 2 ^ 31 ≤ n → toS32 rm (intVal n) = ⟨0x7FFFFFFF, NV⟩)
  ∧ ∀ rm (n : Int), n < 0 → toN32 rm (intVal n) = ⟨0, NV⟩

/-- R49, R50, R117, R118, R120: PKN inserts the narrowed value at its logical slot and keeps the other bits of d, UPKN widens one slot; a
format code outside 4-9, or a slot above 3 of an 8-bit format, takes ILLEGAL with the word in TVAL. The integer DOT forms: exact products
of the logical elements, summed into d modulo 2^32, with no flag. -/
def Obligations.NarrowAndDotForms : Prop :=
  (∀ h d a b s,
     let p := Instr.pkn h d a b
     let u := Instr.upkn h d a b
     (Runs p s → ∀ fmt, Narrowed.ofCode ((operand p s h 2 b).toNat / 8 % 16) = some fmt →
       (fmt.width = 4 ∨ (operand p s h 2 b).toNat % 8 < 4) →
       let y := operand p s h 2 b
       let r := narrow (f32In false (operand p s h 1 a)) (some (y.toNat / 2 ^ 23)) fmt (y.getLsbD 7)
       let pos := if fmt.width = 8 then 8 * pi8 (y.toNat % 8) else 4 * pi4 (y.toNat % 8)
       ∃ v : Word, (∀ j < 32, v.getLsbD j = if pos ≤ j ∧ j < pos + fmt.width then r.bits.testBit (j - pos)
           else (operand p s h 0 d).getLsbD j)
         ∧ Gives p s (outs d v) [] r.flags)
     ∧ (Runs u s → ∀ fmt, Narrowed.ofCode ((operand u s h 2 b).toNat / 8 % 16) = some fmt →
       (fmt.width = 4 ∨ (operand u s h 2 b).toNat % 8 < 4) →
       let y := operand u s h 2 b
       let v := fmt.value (elemBits fmt.width (y.toNat % 8) (operand u s h 1 a))
       let x := scaleBy v (y.toNat / 2 ^ 23)
       let r := x.1.round f32 .rne false (x.2 && !v.isNan)
       Gives u s (outs d (.ofNat 32 r.bits)) [] r.flags)
     ∧ (∀ i ∈ [p, u], Runs i s → s.lateOut = false →
       (∀ fmt, Narrowed.ofCode ((operand i s h 2 b).toNat / 8 % 16) = some fmt →
         fmt.width = 8 ∧ 4 ≤ (operand i s h 2 b).toNat % 8) →
       exec i s = .next ((begin_ i s).freshen.takeTrap .illegal (i.word.setWidth 64) s.th.w)))
  ∧ (let el (w k : Nat) (x : Word) : Nat := x.toNat / 2 ^ (w * (if w = 8 then pi8 k else pi4 k)) % 2 ^ w
   let sgn (w n : Nat) : Int := if n < 2 ^ (w - 1) then n else (n : Int) - 2 ^ w
   Ternary .dot4S8 (fun d a b => d + .ofInt 32 (((List.range 4).map fun k => sgn 8 (el 8 k a) * sgn 8 (el 8 k b)).sum))
   ∧ Ternary .dot4N8 (fun d a b => d + .ofInt 32 (((List.range 4).map fun k => (el 8 k a : Int) * (el 8 k b : Int)).sum))
   ∧ Ternary .dot8S4 (fun d a b => d + .ofInt 32 (((List.range 8).map fun k => sgn 4 (el 4 k a) * sgn 4 (el 4 k b)).sum)))

/-! Operands, checks and traps (03_encoding.md, 09_isa_system.md) -/

/-- R10, R60, R61, R62, R70: outside a chain, with no result outstanding or early: zr reads as zero, a literal is its word, a register reads
what it holds, a pair or quad reads its registers low half first, and p0 reads as true. A word that reads a void register otherwise than as
the data that it stores has no effect of its own: it raises no trap and leaves any value in each of its destinations (an MLOAD, in its
rows), and nothing else. -/
def Obligations.OperandReads : Prop :=
  (∀ i s (k : State → Res), RunsLoose i s → (i.readCodes.filter (begin_ i s).looseCode).all i.dataCodes.contains = false →
    ∃ t, issue i s k = .next t ∧ Ends i (nextIndex i s) (((begin_ i s).anyValue i).anyRows i) t)
  ∧ ∀ i s h f, s.chain = none → s.th.results = [] → s.th.early = [] → s.th.lvoid = 0 →
    operand i s h f .zr = 0 ∧ operand i s h f .lit = h.lit ∧ operand2 i s f .zr = 0 ∧ operand4 i s f .zr = 0
    ∧ operandP i s f 0 = true
    ∧ (∀ o : Opnd, o.isReg = true → operand i s h f o = s.th.reg o.code
        ∧ operand2 i s f o = pairOf (s.th.reg o.code) (s.th.reg (o.code + 1))
        ∧ operand4 i s f o = pairOf (s.th.reg (o.code + 2)) (s.th.reg (o.code + 3)) ++ operand2 i s f o)
    ∧ ∀ n : BitVec 3, n ≠ 0 → operandP i s f n = s.th.preds.getLsbD n.toNat

/-- R29, R74, R79: outside a chain the checks of Table 3.5 come in their order: ILLEGAL, then PRIV, then STALLCHK where CHK is set and a
source is early, then MXHAZ where CHK is set and a destination is an outstanding fragment; and the first that fails is taken with the
instruction word in TVAL and the word itself as restart point. -/
def Obligations.GateTraps : Prop :=
  ∀ i s, s.chain = none → s.th.owed = none → held i s = false → s.lateOut = false →
    let b := begin_ i s
    (∀ t, gate i b = some t → t ≠ .integ → exec i s = .next (b.freshen.takeTrap t i.tval s.th.w))
    ∧ (illegalWord i b = true → gate i b = some .illegal)
    ∧ (illegalWord i b = false → privWord i b = true → gate i b = some .priv)
    ∧ (illegalWord i b = false → privWord i b = false → b.th.chk.getLsbD 0 = true → (∃ c ∈ i.readCodes, b.isEarly c = true) →
        gate i b = some .stallchk)
    ∧ (illegalWord i b = false → privWord i b = false → b.th.chk.getLsbD 0 = false → b.th.poison = [] → gate i b = none)

/-- R200, R80, Table 9.1: a trap of a host thread at H enters the H bank and one at S or U the S bank: TEPC, TECB, TCAUSE and TVAL hold the
restart point, the code base, KIND 0 with NUM, and the value; TSTAT holds the level in PL, IE in PIE, and IE = 0; the thread goes on at
word 0 of TVEC at the bank's level, no byte of memory and no other core changes. -/
def Obligations.TrapEntry : Prop :=
  ∀ (s : State) n t value restart, s.cur = .host n → s.th.kick = none → s.th.level ≠ .e →
    let high := s.th.level == .h
    let old := (s.hostCore n).bank high
    let u := s.takeTrap t value restart
    let new := (u.hostCore n).bank high
    new.tepc = restart ∧ new.tecb = s.th.cb ∧ new.tcause = .ofNat 32 t.num ∧ new.tval = value
    ∧ new.tstat.toNat % 4 = s.th.level.code ∧ new.tstat.getLsbD 3 = old.tstat.getLsbD 2 ∧ new.tstat.getLsbD 2 = false
    ∧ new.tvec = old.tvec ∧ new.tsave0 = old.tsave0 ∧ new.tsave1 = old.tsave1 ∧ new.ipend = old.ipend ∧ new.imask = old.imask
    ∧ new.tcmp = old.tcmp ∧ new.latch = s.th.latch ∧ u.th.latch = none
    ∧ u.th.w = 0 ∧ u.th.cb = old.vector ∧ u.th.level = (if high then .h else .s)
    ∧ (u.hostCore n).bank (!high) = (s.hostCore n).bank (!high) ∧ (∀ m, m ≠ n → u.hostCore m = s.hostCore m)
    ∧ (∀ c, u.th.reg c = s.final c) ∧ u.th.preds = s.th.settle.preds ∧ u.th.fpc = s.finalFpc
    ∧ (∀ a, u.byte a = s.byte a)

/-- R244, R245: a trap of a SIMT thread stops it and ends its launch, at that clock, with ERROR 0x100 + NUM, unless an error already stands;
it changes nothing else. -/
def Obligations.SimtTrap : Prop :=
  ∀ (s : State) team idx t value restart n l, s.cur = .simt team idx → s.launchOf s.cur = some (n, l) →
    s.takeTrap t value restart = { s with
      th := { s.th with wait := .stopped }
      launches := s.launches.put n (if l.error.isSome then l else
        { l with error := some (.ofNat 32 (0x100 + t.num)), ended := some s.time }) }

/-! Global accesses (06_isa_memory.md) -/

/-- R123, R124, R127, R131, R134, R264: the global loads: the address is the pair A plus the form's offset; once the L1 answers, the value
fills d, extended for the forms under a word, the line's signature is gathered, and LD.ACQ acquires at its scope after it. A load from a
device page returns the register. A plain load or LDC may reach memory later than it issues: it then waits in the thread's log, with d
pending. For the constant loads the constant path answers with the bytes, and it does for a line that the quad's constant cache, or
on a host core the data L1 of an earlier constant read, holds. -/
def Obligations.GlobalLoads : Prop :=
  (let loads (i : Instr) (at_ : State → Nat) (size : Nat) (signed : Bool) (form : Form) (codes : List Nat) (scope : Nat) : Prop :=
     ∀ s, Runs i s →
       let b := begin_ i s
       let core := b.coreIx b.cur
       let va := at_ b
       let a : Access := { sp := b.space b.cur, va := va, kind := .read, form := form }
       let e := entryOf b a size scope signed 0 codes
       va % size = 0 → va < 12 * 2 ^ 52 → b.lineHeld va size = false → b.deviceWaits a = false →
       (b.mayGoLate a e = true → Takes i s (b.goLate e))
       ∧ (b.mayGoLate a e = false →
         (∀ b' bs, b.l1Load core a size = .ok b' bs →
           let g := b'.gather (b'.physLine core a.sp va)
           let u := if scope = 0 then g else g.orderBy ⟨0, scope, false⟩
           let ws := loadWords size signed bs
           u.th.level = s.th.level → Takes i s (u.deliver codes ws) ∧ Writes u (u.deliver codes ws) (codes.zip ws))
         ∧ (∀ b' pa, b.l1Load core a size = .device b' pa → b'.th.level = s.th.level →
           Takes i s (b'.deliver codes (loadWords size signed (leBytes size (b'.deviceRead pa).toNat)))))
   ∀ h (d a o : Opnd) (imm : BitVec 7) (e : BitVec 3),
     loads (.ldB h d a imm) (fun b => b.va a imm.toInt) 1 false .other (dstCodes d 1) 0
     ∧ loads (.ldBs h d a imm) (fun b => b.va a imm.toInt) 1 true .other (dstCodes d 1) 0
     ∧ loads (.ldH h d a imm) (fun b => b.va a (imm.toInt * 2)) 2 false .other (dstCodes d 1) 0
     ∧ loads (.ldHs h d a imm) (fun b => b.va a (imm.toInt * 2)) 2 true .other (dstCodes d 1) 0
     ∧ loads (.ldW h d a imm) (fun b => b.va a (imm.toInt * 4)) 4 false .ldW (dstCodes d 1) 0
     ∧ loads (.ldD h d a imm) (fun b => b.va a (imm.toInt * 8)) 8 false .ldD (dstCodes d 2) 0
     ∧ loads (.ldQ h d a imm) (fun b => b.va a (imm.toInt * 16)) 16 false .other (dstCodes d 4) 0
     ∧ loads (.ldxW h d a o) (fun b => b.va a ((b.src h 2 o).toInt * 4)) 4 false .other (dstCodes d 1) 0
     ∧ loads (.ldAcqW h d a e) (fun b => b.va a 0) 4 false .other (dstCodes d 1) e.toNat
     ∧ loads (.ldAcqD h d a e) (fun b => b.va a 0) 8 false .other (dstCodes d 2) e.toNat)
  ∧ (let loads (i : Instr) (at_ : State → Nat) (size : Nat) (codes : List Nat) : Prop :=
     ∀ s, Runs i s →
       let b := begin_ i s
       let core := b.coreIx b.cur
       let va := at_ b
       let a : Access := { sp := b.space b.cur, va := va, kind := .ldc }
       let e := entryOf b a size 0 false 0 codes
       va % size = 0 → va < 12 * 2 ^ 52 → b.lineHeld va size = false → b.deviceWaits a = false →
       (b.mayGoLate a e = true → Takes i s (b.goLate e))
       ∧ (∀ b' bs, b.mayGoLate a e = false → b.ldc core a size = .ok b' bs →
         let u := b'.gather (b'.physLine core a.sp va)
         u.th.level = s.th.level →
         Takes i s (u.deliver codes (loadWords size false bs))
         ∧ Writes u (u.deliver codes (loadWords size false bs)) (codes.zip (loadWords size false bs)))
       ∧ (∀ l bs, b.mayGoLate a e = false →
         (core < 4608 ∧ b.clines.find? (fun l => l.core = core / 4 && l.sp = a.sp && l.va = va / 128) = some l
           ∨ 4608 ≤ core ∧ (b.lines.any fun l => l.expired b.ns) = false ∧ b.findLine core a.sp va = some l ∧ l.ldc = true ∧ l.rOk = true
             ∧ l.poison = []) →
         l.read (va % 128) size = some bs →
         ∃ t, exec i s = .next t ∧ t.th.w = nextIndex i s ∧ (∀ p ∈ codes.zip (loadWords size false bs), t.final p.1 = p.2)
           ∧ (∀ c, c ∉ codes → t.final c = s.final c) ∧ ∀ p, t.byte p = s.byte p)
   ∀ h (d a : Opnd) (imm : BitVec 7),
     loads (.ldcW h d a imm) (fun b => b.va a (imm.toInt * 4)) 4 (dstCodes d 1)
     ∧ loads (.ldcQ h d a imm) (fun b => b.va a (imm.toInt * 16)) 16 (dstCodes d 4))

/-- R123, R124, R128, R134, R264: the global stores: the low bytes of the data operand go to the L1 at the address of the form, whose line
carries the signature that waits; ST.REL releases at its scope first. A store to a register or to a kick page is the module's next turn,
and a kick holds the thread until it is taken (R342). A plain store may reach memory later than it issues: it then waits in the thread's
log. -/
def Obligations.GlobalStores : Prop :=
  let stores (i : Instr) (at_ val : State → Nat) (size : Nat) (form : Form) (scope : Option Nat) : Prop :=
    ∀ s, Runs i s →
      let b := begin_ i s
      let r := match scope with
        | some e => b.release e
        | none => b
      let core := r.coreIx r.cur
      let va := at_ b
      let a : Access := { sp := r.space r.cur, va := va, kind := .write, form := form }
      let e := entryOf r a size 0 false (.ofNat 128 (val b)) []
      let free (b' : State) : Prop := b'.th.level = s.th.level
      va % size = 0 → va < 12 * 2 ^ 52 → r.lineHeld va size = false → r.deviceWaits a = false →
      (∀ k, scope = some k → b.fenceHeld = false ∧ b.fenceMeetsHold 1 k false = false) →
      (r.mayGoLate a e = true → Takes i s (r.goLate e))
      ∧ (r.mayGoLate a e = false → r.carrierHeld r.th.pending core a = false →
        (∀ b', r.l1Store core a (leBytes size (val b)) = .ok b' () →
          (b'.carry core a.sp va).th.level = s.th.level → Takes i s (b'.carry core a.sp va))
        ∧ (∀ b' pa, r.l1Store core a (leBytes size (val b)) = .device b' pa → b'.region pa = .regs → free b' →
          Takes i s { b' with agenda := .store pa (.ofNat 64 (val b)) :: b'.agenda })
        ∧ (∀ b' pa q, r.l1Store core a (leBytes size (val b)) = .device b' pa → b'.region pa = .kick q →
          badKick (.ofNat 64 (val b)) = false → free b' → Takes i s (b'.deviceStore pa (.ofNat 64 (val b)))))
  ∀ h (v a o : Opnd) (imm : BitVec 7) (e : BitVec 3),
    stores (.stB h v a imm) (fun b => b.va a imm.toInt) (fun b => (b.src h 0 v).toNat) 1 .other none
    ∧ stores (.stH h v a imm) (fun b => b.va a (imm.toInt * 2)) (fun b => (b.src h 0 v).toNat) 2 .other none
    ∧ stores (.stW h v a imm) (fun b => b.va a (imm.toInt * 4)) (fun b => (b.src h 0 v).toNat) 4 .stW none
    ∧ stores (.stD h v a imm) (fun b => b.va a (imm.toInt * 8)) (fun b => (b.src2 0 v).toNat) 8 .stD none
    ∧ stores (.stQ h v a imm) (fun b => b.va a (imm.toInt * 16)) (fun b => (b.src4 0 v).toNat) 16 .other none
    ∧ stores (.stxW h v a o) (fun b => b.va a ((b.src h 2 o).toInt * 4)) (fun b => (b.src h 0 v).toNat) 4 .other none
    ∧ stores (.stRelW h v a e) (fun b => b.va a 0) (fun b => (b.src h 0 v).toNat) 4 .other (some e.toNat)
    ∧ stores (.stRelD h v a e) (fun b => b.va a 0) (fun b => (b.src2 0 v).toNat) 8 .other (some e.toNat)

/-- R124, Table 6.2 orders 1 and 2: a global access whose address is no multiple of its size takes MISALIGN, and one beyond slice 11 takes
PERM, with the address in TVAL, whatever the caches hold. -/
def Obligations.AccessTraps : Prop :=
  let traps (i : Instr) (at_ : State → Nat) (size : Nat) : Prop :=
    ∀ s, Runs i s → s.lateOut = false →
      let b := begin_ i s
      let va := at_ b
      (va % size ≠ 0 → exec i s = .next (b.freshen.takeTrap .misalign (.ofNat 64 va) s.th.w))
      ∧ (va % size = 0 → 12 * 2 ^ 52 ≤ va → exec i s = .next (b.freshen.takeTrap .perm (.ofNat 64 va) s.th.w))
  ∀ h (d a o : Opnd) (imm : BitVec 7) (e : BitVec 3),
    traps (.ldB h d a imm) (fun b => b.va a imm.toInt) 1 ∧ traps (.ldBs h d a imm) (fun b => b.va a imm.toInt) 1
    ∧ traps (.stB h d a imm) (fun b => b.va a imm.toInt) 1 ∧ traps (.ldHs h d a imm) (fun b => b.va a (imm.toInt * 2)) 2
    ∧ traps (.ldAcqW h d a e) (fun b => b.va a 0) 4 ∧ traps (.ldAcqD h d a e) (fun b => b.va a 0) 8
    ∧ traps (.ldH h d a imm) (fun b => b.va a (imm.toInt * 2)) 2 ∧ traps (.ldW h d a imm) (fun b => b.va a (imm.toInt * 4)) 4
    ∧ traps (.ldD h d a imm) (fun b => b.va a (imm.toInt * 8)) 8 ∧ traps (.ldQ h d a imm) (fun b => b.va a (imm.toInt * 16)) 16
    ∧ traps (.ldxW h d a o) (fun b => b.va a ((b.src h 2 o).toInt * 4)) 4
    ∧ traps (.stH h d a imm) (fun b => b.va a (imm.toInt * 2)) 2 ∧ traps (.stW h d a imm) (fun b => b.va a (imm.toInt * 4)) 4
    ∧ traps (.stD h d a imm) (fun b => b.va a (imm.toInt * 8)) 8 ∧ traps (.stQ h d a imm) (fun b => b.va a (imm.toInt * 16)) 16
    ∧ traps (.stxW h d a o) (fun b => b.va a ((b.src h 2 o).toInt * 4)) 4
    ∧ traps (.ldcW h d a imm) (fun b => b.va a (imm.toInt * 4)) 4 ∧ traps (.ldcQ h d a imm) (fun b => b.va a (imm.toInt * 16)) 16
    ∧ traps (.atomAdd h d a o) (fun b => b.va a 0) 4 ∧ traps (.atomCas h d a o) (fun b => b.va a 0) 4
    ∧ ∀ i ∈ [Instr.atomMin h d a o, .atomMax h d a o, .atomMinu h d a o, .atomMaxu h d a o, .atomAnd h d a o, .atomOr h d a o,
        .atomXor h d a o, .atomXchg h d a o, .atomFadd h d a o], traps i (fun b => b.va a 0) 4

/-- R124, R127, R128: a load through an L1 with no lease run out: a hit returns the line's bytes; with none, an uncached page returns the
bytes at the home where they verify; neither changes a byte at the home. A store hits a line that was filled with W: the line holds the
new bytes, dirty, and the home is unchanged; on an uncached page of a HYP frame the bytes go home, and every other byte of memory is
unchanged. Rests on the readings of assumption 27. -/
def Obligations.CacheAccess : Prop :=
  ∀ (s : State) core (a : Access), (s.lines.any fun l => l.expired s.ns) = false →
    let none? := fun (n : Nat) => (s.findLine core a.sp a.va).bind fun l => l.read (a.va % 128) n
    (∀ l n bs, s.findLine core a.sp a.va = some l → l.read (a.va % 128) n = some bs → l.rOk = true → l.poison = [] →
      ∃ u, s.l1Load core a n = .ok u bs ∧ u.lines = s.lines ∧ ∀ p, u.byte p = s.byte p)
    ∧ (∀ n t, none? n = none → s.tlb.find? (·.covers a.sp a.va) = some t → t.mt = 1 → t.r = true → a.kind = .read → a.form = .other →
      s.region (t.at a.va) = .hbm (homeOf a.va) → s.keyRevoked a.sp = false → s.verifies (t.at a.va) n = true →
      s.portBlocked core (t.at a.va / 128) = false → (s.pot (t.at a.va / 4096)).state.zeros = false →
      ∃ u, s.l1Load core a n = .ok u (Memory.bytes s.mem (t.at a.va) n) ∧ ∀ p, u.byte p = s.byte p)
    ∧ (∀ l bs, s.findLine core a.sp a.va = some l → l.wOk = true →
      ∃ u, s.l1Store core a bs = .ok u () ∧ u.findLine core a.sp a.va = some (l.write (a.va % 128) bs) ∧ ∀ p, u.byte p = s.byte p)
    ∧ (∀ bs t, s.findLine core a.sp a.va = none → s.tlb.find? (·.covers a.sp a.va) = some t → t.mt = 1 → t.w = true →
      a.kind = .write → a.form = .other → s.region (t.at a.va) = .hbm (homeOf a.va) → s.keyRevoked a.sp = false →
      s.writeFails (t.at a.va / 64) = false → s.writeWaits core (t.at a.va / 128) = false →
      (s.pot (t.at a.va / 4096)).state = .hyp → t.at a.va / 64 = (t.at a.va + bs.length - 1) / 64 → bs ≠ [] →
      ∃ u, s.l1Store core a bs = .ok u () ∧ (∀ k (hk : k < bs.length), u.byte (t.at a.va + k) = bs[k])
        ∧ ∀ p, p < t.at a.va ∨ t.at a.va + bs.length ≤ p → u.byte p = s.byte p)

/-! Scratchpads, atomics, caches, barriers (06_isa_memory.md) -/

/-- R123, R132, R133, R263: the scratchpad loads of a thread whose port is free and that no earlier access of it to those words holds: the
bytes at the offset of the member that the address names, little-endian, zero-extended, fill d. The stores, where no region of an outstanding operation is met: the owner's bytes at the offset are
the low bytes of the data operand, and no other byte of any scratchpad and no byte of memory changes. The address: a misaligned offset is
MISALIGN, an access beyond the owner's allocation PERM, member 15 is the thread's own owner. -/
def Obligations.ScratchpadAccesses : Prop :=
  (let loads (i : Instr) (at_ : State → Word) (size : Nat) (codes : List Nat) : Prop :=
     ∀ s, Runs i s →
       let b := begin_ i s
       ∀ o off, b.spadAt (ownerOf b.cur) (at_ b) size size = .ok (o, off) → b.portBusy o = false → b.spadHeld o off size = false →
         (b.store o).poisoned off size = false →
         (b.th.late = true → Takes i s (b.goLate (spadEntry b o .read off size 0 codes))) ∧ (b.th.late = false →
         let ws := loadWords size false ((List.range size).map fun k => Tab.getD (b.store o).spad (off + k) 0)
         Takes i s (b.deliver codes ws) ∧ Writes s (b.deliver codes ws) (codes.zip ws))
   ∀ h (d a : Opnd) (imm : BitVec 7),
     loads (.ldsB h d a imm) (fun b => spadAddr (b.src h 1 a) imm.toInt) 1 (dstCodes d 1)
     ∧ loads (.ldsH h d a imm) (fun b => spadAddr (b.src h 1 a) (imm.toInt * 2)) 2 (dstCodes d 1)
     ∧ loads (.ldsW h d a imm) (fun b => spadAddr (b.src h 1 a) (imm.toInt * 4)) 4 (dstCodes d 1)
     ∧ loads (.ldsD h d a imm) (fun b => spadAddr (b.src h 1 a) (imm.toInt * 8)) 8 (dstCodes d 2)
     ∧ loads (.ldsQ h d a imm) (fun b => spadAddr (b.src h 1 a) (imm.toInt * 16)) 16 (dstCodes d 4))
  ∧ (let stores (i : Instr) (at_ : State → Word) (val : State → Nat) (size : Nat) : Prop :=
     ∀ s, Runs i s →
       let b := begin_ i s
       ∀ o off, b.spadAt (ownerOf b.cur) (at_ b) size size = .ok (o, off) → b.portBusy o = false → b.spadHeld o off size = false →
         b.bankHeld o off size = false → b.regionHits o off size = [] →
         (b.th.late = true → Takes i s ((b.noteSts o off size).goLate (spadEntry (b.noteSts o off size) o .write off size (.ofNat 128 (val b)) [])))
         ∧ (b.th.late = false →
         let u := (b.noteSts o off size).modStore o fun x => x.write off (leBytes size (val b))
         Takes i s u
         ∧ (∀ k, k < size → Tab.getD (u.store o).spad (off + k) 0 = .ofNat 8 (val b / 256 ^ k))
         ∧ (∀ p, p < off ∨ off + size ≤ p → Tab.getD (u.store o).spad p 0 = Tab.getD (b.store o).spad p 0)
         ∧ (∀ o', o' ≠ o → u.store o' = b.store o') ∧ ∀ p, u.byte p = s.byte p)
   ∀ h (v a : Opnd) (imm : BitVec 7),
     stores (.stsB h v a imm) (fun b => spadAddr (b.src h 1 a) imm.toInt) (fun b => (b.src h 0 v).toNat) 1
     ∧ stores (.stsH h v a imm) (fun b => spadAddr (b.src h 1 a) (imm.toInt * 2)) (fun b => (b.src h 0 v).toNat) 2
     ∧ stores (.stsW h v a imm) (fun b => spadAddr (b.src h 1 a) (imm.toInt * 4)) (fun b => (b.src h 0 v).toNat) 4
     ∧ stores (.stsD h v a imm) (fun b => spadAddr (b.src h 1 a) (imm.toInt * 8)) (fun b => (b.src2 0 v).toNat) 8
     ∧ stores (.stsQ h v a imm) (fun b => spadAddr (b.src h 1 a) (imm.toInt * 16)) (fun b => (b.src4 0 v).toNat) 16)
  ∧ (∀ (s : State) o (a : Word) size, 0 < size →
     let off := a.toNat % 2 ^ 28
     (off % size ≠ 0 → s.spadAt o a size size = .error .misalign)
     ∧ (off % size = 0 → a.toNat / 2 ^ 28 = 15 → s.spadSize o < off + size → s.spadAt o a size size = .error .perm)
     ∧ (off % size = 0 → a.toNat / 2 ^ 28 = 15 → off + size ≤ s.spadSize o → s.spadAt o a size size = .ok (o, off))
     ∧ (off % size = 0 → s.memberOf o (a.toNat / 2 ^ 28) = none → s.spadAt o a size size = .error .perm))

/-- R140: the scratchpad atomics: d receives the word that stood there, which is replaced by the operation's result; no byte of memory
and no other byte of the scratchpad changes. -/
def Obligations.ScratchpadAtomics : Prop :=
  let atom (i : Instr) (h : Hdr) (d a : Opnd) (f : State → Word → Word) : Prop :=
    ∀ s, Runs i s →
      let b := begin_ i s
      ∀ o off, b.spadAt (ownerOf b.cur) (b.src h 1 a) 4 4 = .ok (o, off) → b.portBusy o = false → b.spadHeld o off 4 = false →
        b.bankHeld o off 4 = false → (b.store o).poisoned off 4 = false → b.regionHits o off 4 = [] →
        let old := (b.store o).word off
        let u := (b.noteSts o off 4).modStore o fun x => x.write off (leBytes 4 (f b old).toNat)
        Takes i s (u.deliver (dstCodes d 1) [old]) ∧ Writes s (u.deliver (dstCodes d 1) [old]) (outs d old)
        ∧ (∀ p, p < off ∨ off + 4 ≤ p → Tab.getD (u.store o).spad p 0 = Tab.getD (b.store o).spad p 0) ∧ ∀ p, u.byte p = s.byte p
  ∀ h (d a c : Opnd),
    atom (.atomsAdd h d a c) h d a (fun b old => old + b.src h 2 c)
    ∧ atom (.atomsMin h d a c) h d a (fun b old => if old.toInt < (b.src h 2 c).toInt then old else b.src h 2 c)
    ∧ atom (.atomsMax h d a c) h d a (fun b old => if old.toInt < (b.src h 2 c).toInt then b.src h 2 c else old)
    ∧ atom (.atomsCas h d a c) h d a (fun b old => if old = (b.src2 2 c).lo then (b.src2 2 c).hi else old)

/-- R137, R138, R139: a global atomic whose line no other requester holds: the word at its home is read and replaced in one update, and
the old value fills d; the operations of Table 6.4. On an uncached page of a HYP frame that a cached translation permits, the four bytes at
the home become the operation's result, d receives the word that stood there, and no other byte of memory and no other register changes.
Rests on the readings of assumption 24. -/
def Obligations.GlobalAtomics : Prop :=
  let atom (i : Instr) (d a : Opnd) (f : State → Word → Word) : Prop :=
    ∀ s, Runs i s →
      let b := begin_ i s
      let core := b.coreIx b.cur
      let va := b.va a 0
      let ac : Access := { sp := b.space b.cur, va := va, kind := .atomic }
      va % 4 = 0 → va < 12 * 2 ^ 52 → b.lineHeld va 4 = false → b.deviceWaits ac = false →
      (b.cur.isHost = false → (b.core core).bundle.refill = false) →
      (∀ t, b.findLine core ac.sp va = none → b.tlb.find? (·.covers ac.sp va) = some t → t.mt = 1 → t.r = true → t.w = true →
        let pa := t.at va
        pa % 4 = 0 → b.region pa = .hbm (homeOf va) → (b.pot (pa / 4096)).state = .hyp → b.lineBusy core (pa / 128) = false →
        b.writeFails (pa / 64) = false → b.keyRevoked ac.sp = false →
        let old : Word := .ofNat 32 (leNat (Memory.bytes b.mem pa 4))
        ∃ u, exec i s = .next u ∧ u.th.w = nextIndex i s ∧ (∀ p ∈ outs d old, u.final p.1 = p.2)
          ∧ (∀ c, (∀ p ∈ outs d old, p.1 ≠ c) → u.final c = s.final c)
          ∧ (∀ k, k < 4 → u.byte (pa + k) = .ofNat 8 ((f b old).toNat / 256 ^ k))
          ∧ ∀ p, p < pa ∨ pa + 4 ≤ p → u.byte p = s.byte p) ∧
      ∀ s1 t s2 old, translate b ac = .ok (s1, t) → s1.lineBusy core (t.at va / 128) = false →
        s1.homeAtomic core ac (f b) = .ok s2 old →
        let s3 := s2.holdLine core ((s2.physLine core ac.sp va).getD 0)
        let u := ({ s3 with atomQ := s3.atomsBut s3.cur }.gather (s3.physLine core ac.sp va)).carry core ac.sp va
        u.th.level = s.th.level →
        Takes i s (u.deliver (dstCodes d 1) [old]) ∧ Writes u (u.deliver (dstCodes d 1) [old]) (outs d old)
  ∀ h (d a c : Opnd),
    atom (.atomAdd h d a c) d a (fun b old => old + b.src h 2 c)
    ∧ atom (.atomMin h d a c) d a (fun b old => if old.toInt < (b.src h 2 c).toInt then old else b.src h 2 c)
    ∧ atom (.atomMax h d a c) d a (fun b old => if old.toInt < (b.src h 2 c).toInt then b.src h 2 c else old)
    ∧ atom (.atomMinu h d a c) d a (fun b old => if old.toNat < (b.src h 2 c).toNat then old else b.src h 2 c)
    ∧ atom (.atomMaxu h d a c) d a (fun b old => if old.toNat < (b.src h 2 c).toNat then b.src h 2 c else old)
    ∧ atom (.atomAnd h d a c) d a (fun b old => old &&& b.src h 2 c)
    ∧ atom (.atomOr h d a c) d a (fun b old => old ||| b.src h 2 c)
    ∧ atom (.atomXor h d a c) d a (fun b old => old ^^^ b.src h 2 c)
    ∧ atom (.atomXchg h d a c) d a (fun b _ => b.src h 2 c)
    ∧ atom (.atomCas h d a c) d a (fun b old => if old = (b.src2 2 c).lo then (b.src2 2 c).hi else old)
    ∧ atom (.atomFadd h d a c) d a (fun b old =>
        .ofNat 32 (fAdd f32 .rne false (f32.value old.toNat) (f32.value (b.src h 2 c).toNat)).bits)

/-- R135, R136, R141-R147: prefetch, cache maintenance and fences: CWB writes back the issuing core's line of the address and keeps it,
CINV writes it back and drops it, CWBI.ALL does so for every line of the context, FENCE releases, acquires or both at its scope, SC with
every line of the context written back and dropped, and CP drops the context's constant and instruction lines. -/
def Obligations.CacheMaintenance : Prop :=
  (∀ h a s, Runs (.cwb h a) s →
    let b := begin_ (.cwb h a) s
    let u := b.cleanLines fun l => l.core = b.coreIx b.cur && l.sp = b.space b.cur && l.va = b.va a 0 / 128
    (b.waitsForHold fun l => l.core = b.coreIx b.cur && l.sp = b.space b.cur && l.va = b.va a 0 / 128) = false →
    u.th.level = s.th.level → Takes (.cwb h a) s u)
  ∧ (∀ h a s, Runs (.cinv h a) s →
    let b := begin_ (.cinv h a) s
    let u := b.evictLines fun l => l.core = b.coreIx b.cur && l.sp = b.space b.cur && l.va = b.va a 0 / 128
    (b.waitsForHold fun l => l.core = b.coreIx b.cur && l.sp = b.space b.cur && l.va = b.va a 0 / 128) = false →
    u.th.level = s.th.level → Takes (.cinv h a) s u
      ∧ ((∀ l ∈ b.lines, l.core = b.coreIx b.cur → l.dirty = []) → ∀ p, u.byte p = s.byte p))
  ∧ (∀ h s, Runs (.cwbiAll h) s →
    let b := begin_ (.cwbiAll h) s
    let u := b.evictLines fun l => l.core = b.coreIx b.cur && l.sp.guest = (b.space b.cur).guest && l.sp.eid = (b.space b.cur).eid
    (b.waitsForHold fun l => l.core = b.coreIx b.cur && l.sp.guest = (b.space b.cur).guest && l.sp.eid = (b.space b.cur).eid) = false →
    u.th.level = s.th.level → Takes (.cwbiAll h) s u)
  ∧ (∀ h x e k s, Runs (.fence h x e k) s →
    let i := Instr.fence h x e k
    let b := begin_ i s
    (b.logHeld = false → (b.orderBy ⟨k.toNat, e.toNat, x⟩).th.level = s.th.level → Takes i s (b.orderBy ⟨k.toNat, e.toNat, x⟩))
    ∧ (b.th.fences = [] → b.fenceHeld = false → b.fenceMeetsHold k.toNat e.toNat x = false →
      b.orderBy ⟨k.toNat, e.toNat, x⟩ = b.fence k.toNat e.toNat x)
    ∧ (b.fenceHeld = true → b.orderBy ⟨k.toNat, e.toNat, x⟩ = { b with th := { b.th with
        fences := b.th.fences ++ [⟨k.toNat, e.toNat, x⟩] } }))
  ∧ (∀ h a imm s, Runs (.prf h a imm) s →
    let i := Instr.prf h a imm
    let b := begin_ i s
    let ac : Access := { sp := b.space b.cur, va := b.va a (imm.toInt * 128), kind := .read }
    (b.lines.any fun l => l.expired b.ns) = false →
    (12 * 2 ^ 52 ≤ ac.va → Takes i s b)
    ∧ (∀ f, translate b ac = .error f → Takes i s b)
    ∧ (∀ s1 t s2 l, ac.va < 12 * 2 ^ 52 → translate b ac = .ok (s1, t) → t.mt = 0 → s1.fillWhole (b.coreIx b.cur) ac t = .ok (s2, l) →
        s2.th.level = s.th.level → Takes i s s2))
  ∧ (∀ (s : State) e, (s.fence 1 0 false) = { s with th := { s.th with sts := [] } } ∧ (s.fence 0 1 false) = s
    ∧ (1 < e → (s.release e).th.pending.isSome = true))

/-- R145, R151, R152, R421: the barrier words on a handle that names an object: BARINIT starts an absent one, or one that holds poison, BARXB
adds expected bytes, BARARV and BARARVX arrive and give the phase before, BARTST says whether a phase is complete and gathers the object's
signature, BARWAIT goes on where it is complete and waits where it is not, BARINV ends the object, and WPTR reads a channel's write pointer.
A word other than BARINIT whose object holds poison takes INTEG (its order among the checks is the model's, assumption 101). -/
def Obligations.Barriers : Prop :=
  let named (b : State) (x : Word) : Option (BarRef × Bool) := b.handle (ownerOf b.cur) (b.space b.cur).eid.toNat x
  (∀ h a c s, Runs (.barinit h a c) s →
    let i := Instr.barinit h a c
    let b := begin_ i s
    let n := (b.src h 2 c).toNat % 65536
    ∀ r m, named b (b.src h 1 a) = some (r, m) → ((b.bar r).valid = false ∨ (b.bar r).poison = true) → n ≠ 0 →
      Takes i s (b.setBar r { b.bar r with
        cv := match r with
          | .own _ _ => (b.src h 2 c).getLsbD 16
          | .ctx _ _ => false
        valid := true, arriveExp := n, arrivePend := n, bytesPend := 0, phase := 0, poison := false }))
  ∧ (∀ h a c s, Runs (.barxb h a c) s →
    let i := Instr.barxb h a c
    let b := begin_ i s
    let n : Int := (b.src h 2 c).toNat
    ∀ r m, named b (b.src h 1 a) = some (r, m) → (b.bar r).poison = false → (b.bar r).valid = true → (b.bar r).bytesPend + n ≤ 2 ^ 31 - 1 →
      let u := b.barDone r { b.bar r with bytesPend := (b.bar r).bytesPend + n }
      u.th.level = s.th.level → Takes i s u)
  ∧ (∀ h d a s, Runs (.bararv h d a) s →
    let i := Instr.bararv h d a
    let b := begin_ i s
    ∀ r, b.arrivable (b.src h 1 a) = some r → (b.bar r).poison = false → (b.bar r).valid = true → (b.bar r).arrivePend ≠ 0 → b.storesWait = false →
      let u := b.arrive r (b.bar r)
      u.th.level = s.th.level → Takes i s (u.postTo d (b.bar r).phase) ∧ Writes u (u.postTo d (b.bar r).phase) (outs d (b.bar r).phase))
  ∧ (∀ h d a c s, Runs (.bararvx h d a c) s →
    let i := Instr.bararvx h d a c
    let b := begin_ i s
    let n : Int := (b.src h 2 c).toNat
    ∀ r, b.arrivable (b.src h 1 a) = some r → (b.bar r).poison = false → (b.bar r).valid = true → (b.bar r).arrivePend ≠ 0 → (b.bar r).bytesPend + n ≤ 2 ^ 31 - 1 →
      b.storesWait = false →
      let u := b.arrive r { b.bar r with bytesPend := (b.bar r).bytesPend + n }
      u.th.level = s.th.level → Takes i s (u.postTo d (b.bar r).phase))
  ∧ (∀ h a c s, Runs (.barwait h a c) s →
    let i := Instr.barwait h a c
    let b := begin_ i s
    ∀ r, b.waitable (b.src h 1 a) = some r → (b.bar r).poison = false → (b.bar r).valid = true →
      ((b.bar r).complete (b.src h 2 c) = true → (b.barAcquire r).th.level = s.th.level → Takes i s (b.barAcquire r))
      ∧ ((b.bar r).complete (b.src h 2 c) = false →
        Takes i s { b.voidL with th := { b.voidL.th with wait := .barrier r (b.src h 2 c) s.th.w ((b.src h 1 a).setWidth 64) } }))
  ∧ (∀ h p a c s, Runs (.bartst h p a c) s →
    let i := Instr.bartst h p a c
    let b := begin_ i s
    ∀ r, b.waitable (b.src h 1 a) = some r → (b.bar r).poison = false → (b.bar r).valid = true →
      ((b.bar r).complete (b.src h 2 c) = true → (b.barAcquire r).th.level = s.th.level →
        Takes i s ((b.barAcquire r).postPred p.toNat true))
      ∧ ((b.bar r).complete (b.src h 2 c) = false → let u := (b.barGather r).postPred p.toNat false
        Takes i s u ∧ u.th.gathered = s.th.gathered ||| b.barSig (b.bar r) ∧ (p ≠ 0 → u.finalPred p.toNat = false)
        ∧ (∀ n, n ≠ p.toNat → u.finalPred n = s.finalPred n) ∧ (∀ x, u.final x = s.final x) ∧ ∀ x, u.byte x = s.byte x))
  ∧ (∀ h a s, Runs (.barinv h a) s →
    let i := Instr.barinv h a
    let b := begin_ i s
    ∀ r m, named b (b.src h 1 a) = some (r, m) → (b.bar r).poison = false → (b.bar r).valid = true →
      let u := (b.setBar r { b.bar r with valid := false }).faultWaiters r
      u.th.level = s.th.level → Takes i s (match r with
        | .ctx e k => u.depCheck e k
        | .own _ _ => u))
  ∧ (∀ h p d a c s, ∀ i ∈ [Instr.barxb h a c, .bararv h d a, .bararvx h d a c, .barwait h a c, .bartst h p a c, .barinv h a], Runs i s → s.lateOut = false →
    let b := begin_ i s
    ∀ r, named b (b.src h 1 a) = some (r, true) → (b.bar r).poison = true →
      exec i s = .next (b.freshen.takeTrap .integ ((b.src h 1 a).setWidth 64) s.th.w))
  ∧ ∀ h d a s, Runs (.wptr h d a) s →
    let i := Instr.wptr h d a
    let b := begin_ i s
    Gives i s (outs d (Tab.getD (b.store (ownerOf b.cur)).chans ((operand i s h 1 a).toNat % 16) {}).wptr)

/-- R150: the phase rule: an operation that leaves no arrival and no byte pending on a valid object completes its phase: the phase goes up
by one, the arrivals start over, no byte is pending; otherwise nothing of it changes. A phase is complete while the object's phase is 1
to 2^31 ahead of it, modulo 2^32. -/
def Obligations.PhaseRule : Prop :=
  (∀ b : BarObj, b.valid = true → b.arrivePend = 0 → b.bytesPend = 0 →
    b.check = ({ b with phase := b.phase + 1, arrivePend := b.arriveExp, bytesPend := 0 }, true))
  ∧ (∀ b : BarObj, (b.valid = false ∨ b.arrivePend ≠ 0 ∨ b.bytesPend ≠ 0) → b.check = (b, false))
  ∧ ∀ (b : BarObj) (p : Word), b.complete p = true ↔ ∃ k : Nat, 1 ≤ k ∧ k ≤ 2 ^ 31 ∧ b.phase = p + .ofNat 32 k

/-! Control, convergence, matrix words and copies (07_isa_control.md, 08_isa_matrix_copy.md) -/

/-- R58, R62, R77, R78, R153: the transfers: a BR whose predicate differs from N, a CALL, JMP, RET and CALLR go to their target when the
packet words before it allow a landing, with the l registers void; CALL and CALLR leave in o7 the word after themselves, CALLR having
read its source first. A BR not taken goes on. A target behind a word with C = 1 is BRCHAIN, one that is a literal or extension word is
ILLEGAL, and slot 0 is always a landing; either trap restarts at the transfer. -/
def Obligations.Transfers : Prop :=
  (let goes (i : Instr) (taken : State → Bool) (at_ : State → Word) (link : Bool) : Prop :=
     ∀ s, Runs i s →
       let b := begin_ i s
       let w := at_ b
       (taken b = true → ∀ u ws, fetchWords b (w - .ofNat 32 (w.toNat % 3)) (w.toNat % 3) = .ok u ws → badTarget ws = none →
         if link then
           let v := u.putFixed .c2 0x77 (nextIndex i s)
           Goes i s w v ∧ (u.th = b.th → v.final 0x77 = nextIndex i s ∧ ∀ c, c ≠ 0x77 → v.final c = s.final c)
         else Goes i s w u)
       ∧ (taken b = false → Takes i s b)
   ∀ h (n : Bool) (p : BitVec 3) (k : BitVec 17) (m : BitVec 21) (a : Opnd),
     goes (.br h n p k) (fun b => b.readPred 0 p.toNat != n) (fun b => b.th.w + k.signExtend 32) false
     ∧ goes (.call h m) (fun _ => true) (fun b => b.th.w + m.signExtend 32) true
     ∧ goes (.jmp h a) (fun _ => true) (fun b => b.src h 1 a) false
     ∧ goes (.ret h) (fun _ => true) (fun b => b.src h 1 (.o 7)) false
     ∧ goes (.callr h a) (fun _ => true) (fun b => b.src h 1 a) true)
  ∧ ((∀ s (w : Word), w.toNat % 3 = 0 → fetchWords s (w - .ofNat 32 (w.toNat % 3)) (w.toNat % 3) = .ok s [] ∧ badTarget [] = none)
   ∧ (∀ a : Word, badTarget [a] = if spanOf 0 a = 2 then some .illegal else if a.getLsbD 31 then some .brchain else none)
   ∧ ∀ h a s, Runs (.jmp h a) s → s.lateOut = false →
     let b := begin_ (.jmp h a) s
     let w := b.src h 1 a
     ∀ u ws t, fetchWords b (w - .ofNat 32 (w.toNat % 3)) (w.toNat % 3) = .ok u ws → badTarget ws = some t → u.th = b.th →
       exec (.jmp h a) s = .next (u.freshen.takeTrap t ((Instr.jmp h a).word.setWidth 64) s.th.w))

/-- R154, R155, R156: words that end a thread's turn or enter a handler: EXIT retires a SIMT thread, stops a host core at H, and is
an ECALL of code 0 below; TRAP and BKPT take their trap, TRAP with its code in TVAL and the next word as restart point, BKPT with its own
word. -/
def Obligations.SystemWords : Prop :=
  (∀ h s, Runs (.exit h) s →
    let i := Instr.exit h
    let b := begin_ i s
    (∀ t x, s.cur = .simt t x → orphans b = false → b.fenceHeld = false → b.fencing = false → b.myAsks = [] → Lands i s { b with th := { b.th.complete with wait := .retired } })
    ∧ (∀ n, s.cur = .host n → s.th.level = .h → Lands i s { b with th := { b.th.complete with wait := .stopped } })
    ∧ (∀ n, s.cur = .host n → (s.th.level = .s ∨ s.th.level = .u) →
        Lands i s (b.enterBank n (s.th.level == .s) 0x100 0 (nextIndex i s))))
  ∧ (∀ h imm s, Runs (.trap h imm) s →
    Lands (.trap h imm) s ((begin_ (.trap h imm) s).takeTrap .trapsw (imm.setWidth 64) (nextIndex (.trap h imm) s)))
  ∧ ∀ h s, Runs (.bkpt h) s → Lands (.bkpt h) s ((begin_ (.bkpt h) s).takeTrap .bkpt 0 s.th.w)

/-- R203: ECALL enters the H bank from H and S and the S bank from U with KIND 1 and NUM 0: TVAL receives n, TEPC the word after it; at
E and in a SIMT thread it traps with PRIV. Its word, and the reserved D. -/
def Obligations.SystemCall : Prop :=
  decode 0 [0x1E600005] = .ok (.ecall ⟨false, 0, 0⟩ 5, 1)
  ∧ (∀ w x : Word, w.toNat / 2 ^ 21 % 256 = 0xF3 → w.toNat / 2 ^ 14 % 128 ≠ 0 → decode 0 [w, x] = .error .reserved)
  ∧ (∀ h imm (s : State) n, Runs (.ecall h imm) s → s.cur = .host n → s.th.level ≠ .e →
    let i := Instr.ecall h imm
    let high := s.th.level != .u
    let old := (s.hostCore n).bank high
    let u := (begin_ i s).enterBank n high 0x100 (imm.setWidth 64) (nextIndex i s)
    let new := (u.hostCore n).bank high
    Lands i s u
    ∧ (s.th.kick = none → new.tepc = nextIndex i s ∧ new.tecb = s.th.cb ∧ new.tcause = 0x100 ∧ new.tval = imm.setWidth 64
      ∧ new.tstat = tstat false (old.tstat.getLsbD 2) false s.th.level.code ∧ u.th.w = 0 ∧ u.th.cb = old.vector
      ∧ u.th.level = (if high then .h else .s) ∧ (∀ c, u.th.reg c = s.final c) ∧ u.th.preds = s.th.settle.preds ∧ u.th.fpc = s.finalFpc
      ∧ (u.hostCore n).bank (!high) = (s.hostCore n).bank (!high) ∧ (∀ m, m ≠ n → u.hostCore m = s.hostCore m)
      ∧ ∀ a, u.byte a = s.byte a))
  ∧ ∀ h imm (s : State), s.chain = none → s.th.owed = none → held (.ecall h imm) s = false → s.lateOut = false → (s.onHost = false ∨ s.th.level = .e) →
    exec (.ecall h imm) s = .next ((begin_ (.ecall h imm) s).freshen.takeTrap .priv (Instr.tval (.ecall h imm)) s.th.w)

/-- R202: ERET at S or H restores the level, IE, code base, word index and SYSRD latch of the current level's bank and voids the l registers,
and traps with PRIV where PL is less than the level or 3; at U or E and in a SIMT thread it traps with PRIV. Its word, and its reserved fields. -/
def Obligations.ExceptionReturn : Prop :=
  decode 0 [0x1E800000] = .ok (.eret ⟨false, 0, 0⟩, 1)
  ∧ (∀ w x : Word, w.toNat / 2 ^ 21 % 256 = 0xF4 → w.toNat % 2 ^ 21 ≠ 0 → decode 0 [w, x] = .error .reserved)
  ∧ (∀ h (s : State) n, Runs (.eret h) s → s.cur = .host n →
    let i := Instr.eret h
    let b := begin_ i s
    let high := s.th.level == .h
    let bank := (s.hostCore n).bank high
    let pl := bank.tstat.toNat % 4
    (s.th.level.code ≤ pl → pl ≠ 3 →
      let u := b.trapReturn n high
      Lands i s u ∧ u.th.w = bank.tepc ∧ u.th.cb = bank.tecb ∧ u.th.level.code = pl ∧ u.th.latch = bank.latch
      ∧ ((u.hostCore n).bank high).tstat.getLsbD 2 = bank.tstat.getLsbD 3 ∧ u.th.lvoid = 0xF ∧ (∀ c, u.th.reg c = s.final c)
      ∧ u.th.preds = s.th.settle.preds ∧ u.th.fpc = s.finalFpc
      ∧ (u.hostCore n).bank (!high) = (s.hostCore n).bank (!high) ∧ (∀ m, m ≠ n → u.hostCore m = s.hostCore m)
      ∧ ∀ a, u.byte a = s.byte a)
    ∧ (s.lateOut = false → pl < s.th.level.code ∨ pl = 3 → exec i s = .next (b.freshen.takeTrap .priv i.tval s.th.w)))
  ∧ ∀ h (s : State), s.chain = none → s.th.owed = none → held (.eret h) s = false → s.lateOut = false →
    (s.onHost = false ∨ s.th.level = .u ∨ s.th.level = .e) →
    exec (.eret h) s = .next ((begin_ (.eret h) s).freshen.takeTrap .priv (Instr.tval (.eret h)) s.th.w)

/-- R95, R157, R158, R159, R160, R162: NOP has no effect; PRIO sets the priority and YIELD steps back and voids the l registers; ID gives
the identity; REFILL takes the next item or waits for one; FETCHW puts a request to the serving walker. -/
def Obligations.ThreadWords : Prop :=
  (∀ h s, Runs (.nop h) s → Gives (.nop h) s [])
  ∧ (∀ h a s, Runs (.prio h a) s →
    let b := begin_ (.prio h a) s
    Takes (.prio h a) s { b with th := { b.th with prio := (b.src h 1 a).setWidth 3 } })
  ∧ (∀ h s, Runs (.yield h) s →
    let b := begin_ (.yield h) s
    Takes (.yield h) s { b.voidL with th := { b.voidL.th with yielded := !s.cur.isHost } })
  ∧ (∀ h d f s, Runs (.id h d f) s → Gives (.id h d f) s (outs d (idValue (begin_ (.id h d f) s) f.toNat))
    ∧ (∀ n, s.cur = .host n → (f.toNat = 8 → idValue s 8 = .ofNat 32 (384 + n % 8)) ∧ (f.toNat = 9 → idValue s 9 = .ofNat 32 (n / 8)))
    ∧ ∀ t x tm n l, s.cur = .simt t x → s.teams.find t = some tm → s.launchOf s.cur = some (n, l) →
      idValue s 0 = .ofNat 32 (x % 32) ∧ idValue s 1 = .ofNat 32 (x / 32) ∧ idValue s 2 = .ofNat 32 tm.slot
      ∧ idValue s 3 = .ofNat 32 tm.member ∧ idValue s 8 = .ofNat 32 (tm.core % 384) ∧ idValue s 9 = .ofNat 32 (tm.core / 384))
  ∧ (∀ h d s n l, Runs (.refill h d) s →
    let i := Instr.refill h d
    let b := begin_ i s
    b.launchOf b.cur = some (n, l) → l.item = true → s.th.w.toNat = l.refillHead →
      (∀ u, l.error = none → b.oldestAsk (b.coreIx b.cur) n = none → b.giveItem b.cur n d.code = some u → Takes i s u)
      ∧ (l.error.isSome = true ∨ (b.oldestAsk (b.coreIx b.cur) n).isSome = true ∨ b.giveItem b.cur n d.code = none →
        Takes i s (b.modCore (b.coreIx b.cur) fun x => { x with asks := x.asks ++ [⟨b.cur, n, d.code⟩] })))
  ∧ ∀ h a c s team idx t n l, Runs (.fetchw h a c) s → s.cur = .simt team idx →
    let i := Instr.fetchw h a c
    let b := begin_ i s
    b.teamOf b.cur = some t → b.launchOf b.cur = some (n, l) → l.pers = true → mailboxTrap b t l (b.src h 1 a) (b.src h 2 c) = none →
      t.fetches.length < 8 →
      Takes i s (b.modTeam team fun t => { t with
        fetches := t.fetches ++ [⟨idx, (b.src h 1 a).toNat % 2 ^ 28, (b.src h 2 c).toNat % 4096⟩] })

/-- R165-R170: CDECL gives a register its set of groups, or repeats it; CRST empties one whose set is free; a signature of SHFL, VOTE or
RDX that passes the checks of Table 7.3 waits with the l registers void, and the last one performs the operation, which gives every
signer its own result and lets it go on. The values: SHFL's source lane by its mode, VOTE's all, any, ballot and uniform, RDX's fold in
set order. -/
def Obligations.Convergence : Prop :=
  ((∀ h w a s team idx t, Runs (.cdecl h w a) s → s.cur = .simt team idx →
     let i := Instr.cdecl h w a
     let b := begin_ i s
     let x := b.src h 1 a
     b.teamOf b.cur = some t → x ≠ 0 → x.toNat < 2 ^ t.groups → x.getLsbD (idx / 32) = true →
       ((t.cv w.toNat).set = x → Takes i s b)
       ∧ ((t.cv w.toNat).set = 0 → Takes i s (b.modTeam team fun t' => t'.setCv w.toNat { t.cv w.toNat with set := x })))
   ∧ (∀ h w s team idx t, Runs (.crst h w) s → s.cur = .simt team idx →
     let i := Instr.crst h w
     let b := begin_ i s
     b.teamOf b.cur = some t →
       ((t.cv w.toNat).set = 0 → Takes i s b)
       ∧ ((t.cv w.toNat).set.getLsbD (idx / 32) = true → (t.cv w.toNat).op = none → Takes i s (b.modTeam team fun t => t.setCv w.toNat {})))
   ∧ let signs (i : Instr) (h : Hdr) (d a c : Opnd) (opcode : Nat) (good : Word → Bool) (fixed : Word → Word) : Prop :=
       ∀ s team idx t, Runs i s → s.cur = .simt team idx →
         let b := begin_ i s
         let ctl := b.src h 2 c
         let cv := ctl.toNat % 16
         b.teamOf b.cur = some t → good ctl = true → signTrap b team t cv opcode [(fixed ctl).toNat] idx = none →
           let b1 : State := { b.voidL with th := { b.voidL.th with wait := .converge cv } }
           let r := addSign b1 team t cv opcode [(fixed ctl).toNat] ⟨idx, b.src h 1 a, ctl, if d.isReg then d.code else 0x7C⟩
           (r.2 = none → Takes i s r.1) ∧ (∀ set o, r.2 = some (set, o) → Takes i s (performCollective r.1 team set o))
     (∀ h d a c, signs (.shfl h d a c) h d a c 0xD2 (fun x => x.toNat < 4096 && !x.getLsbD 6) (fun x => x &&& 0x7F)
       ∧ signs (.vote h d a c) h d a c 0xD3 (fun x => x.toNat < 128 && !(x.getLsbD 6 && x.toNat / 16 % 4 == 2)) id
       ∧ signs (.rdx h d a c) h d a c 0xD4 (fun x => x.toNat < 1024 && x.toNat / 16 % 16 < 11) id))
  ∧ ((∀ (ctl : Word) l, l < 32 →
     let n := ctl.toNat / 128 % 32
     shflLane ctl l < 32
     ∧ (ctl.toNat / 16 % 4 = 0 → shflLane ctl l = n)
     ∧ (ctl.toNat / 16 % 4 = 1 → shflLane ctl l = if n ≤ l then l - n else l)
     ∧ (ctl.toNat / 16 % 4 = 2 → shflLane ctl l = if l + n ≤ 31 then l + n else l)
     ∧ (ctl.toNat / 16 % 4 = 3 → shflLane ctl l = l ^^^ n))
   ∧ (∀ l : List (Nat × Word),
     voteOf 0 l = (if ∀ p ∈ l, p.2 ≠ 0 then 1 else 0) ∧ voteOf 1 l = (if ∃ p ∈ l, p.2 ≠ 0 then 1 else 0)
     ∧ voteOf 3 l = (if ∀ p ∈ l, ∀ q ∈ l, p.2 = q.2 then 1 else 0))
   ∧ (∀ l : List (Nat × Word), (l.map (·.1)).Nodup → (∀ p ∈ l, p.1 < 32) → ∀ p ∈ l, (voteOf 2 l).getLsbD p.1 = decide (p.2 ≠ 0))
   ∧ ∀ x : Word, ∀ l : List Word,
     reduceOf 0 (x :: l) = l.foldl (· + ·) x ∧ reduceOf 5 (x :: l) = l.foldl (· &&& ·) x ∧ reduceOf 6 (x :: l) = l.foldl (· ||| ·) x
     ∧ reduceOf 7 (x :: l) = l.foldl (· ^^^ ·) x ∧ (reduceOf 1 (x :: l)).toInt = l.foldl (fun m y => min m y.toInt) x.toInt
     ∧ (reduceOf 4 (x :: l)).toNat = l.foldl (fun m y => max m y.toNat) x.toNat)

/-- R171-R176: a signature of MMA (`mma`) or MMAJ (`mmaj`) completes: one whose thread meets none of the traps of Table 7.3 and whose rank has its tile within the launch's,
and, of MMAJ's lead thread, whose B region is 16-aligned within the allocation of its own team, takes effect: the operation is kept
outstanding in the thread, no byte of memory and no predicate changes, and the last signature performs the operation with that tile. -/
def Obligations.MatrixSignatures : Prop :=
  let signs (i : Instr) (tile : Nat) (a c : Opnd) (x : MmaCtl) (opcode : Nat) (at_ : State → Word) : Prop :=
    ∀ s team idx t n l, Runs i s → s.cur = .simt team idx →
      let b := begin_ i s
      let fixed := [tile, a.code, c.code, mmaExt x]
      let groups := setGroups (t.cv x.cv.toNat).set
      let off := (at_ b).toNat % 2 ^ 28
      b.teamOf b.cur = some t → b.launchOf b.cur = some (n, l) → signTrap b team t x.cv.toNat opcode fixed idx = none →
      tile + (groups.filter (· < idx / 32)).length < l.tiles →
      (opcode = 0xE1 → idx = 32 * groups.headD 0 → off % 16 = 0 ∧ (at_ b).toNat / 2 ^ 28 = 15 ∧ off + 2144 ≤ l.scratch) →
      ∃ u, Takes i s u ∧ u.mem = s.mem ∧ (∀ n, u.finalPred n = s.finalPred n)
        ∧ (∃ m, m.codes = mxCodes a c x (opcode == 0xE1) ∧ m.tiles.headD 128 = tile ∧ m ∈ u.th.mx)
        ∧ ∀ o, (addSign (if opcode = 0xE1 then b.useSeen team else b) team t x.cv.toNat opcode fixed ⟨idx, at_ b, 0, 0x7C⟩).2
            = some ((t.cv x.cv.toNat).set, o) →
          ∃ v m, u = State.perform v team t l.pri tile (t.cv x.cv.toNat).set o m ∧ m.team = team ∧ m.tile = tile ∧ m.groups = groups
  ∀ h (t : BitVec 7) a c x,
    signs (.mma h t a c x) t.toNat a c x 0xE0 (fun _ => 0) ∧ signs (.mmaj h t a c x) t.toNat a c x 0xE1 (fun b => b.src h 2 c)

/-- R27, R180, R182: MZERO clears the thread's two rows; MLOAD starts a movement of 512 bytes from the team's own scratchpad; MFENCE waits
for the thread's results; MWAIT goes on once the thread's operations on the tile, or on every tile, are done. -/
def Obligations.TileWords : Prop :=
  let free (b : State) (tile team idx : Nat) (t : Team) (n : Nat) (l : Launch) : Prop :=
    b.cur = .simt team idx ∧ b.teamOf b.cur = some t ∧ b.launchOf b.cur = some (n, l) ∧ tile < l.tiles ∧ b.tileHits tile = []
    ∧ b.passPending t team tile = false ∧ (b.moves.any fun m => m.team = team && m.tile = tile && m.idx % 32 = idx % 32) = false
  (∀ h (tl : BitVec 7) s team idx t n l, Runs (.mzero h tl) s →
    let i := Instr.mzero h tl
    let b := begin_ i s
    free b tl.toNat team idx t n l → Takes i s (b.setRows team idx tl.toNat (List.replicate 128 0))
      ∧ ∀ r c, r < 2 → c < 64 → ∀ t', (b.setRows team idx tl.toNat (List.replicate 128 0)).teams.find team = some t' →
        Tab.getD t'.tiles (tileKey tl.toNat (2 * (idx % 32) + r) c) 0 = 0)
  ∧ (∀ h (tl : BitVec 7) a s team idx t n l, Runs (.mload h tl a) s →
    let i := Instr.mload h tl a
    let b := begin_ i s
    let x := b.src h 1 a
    let off := x.toNat % 2 ^ 28 + 512 * (idx % 32)
    free b tl.toNat team idx t n l → x.toNat % 16 = 0 → x.toNat / 2 ^ 28 = 15 → off + 512 ≤ l.scratch → b.spadLate = false →
      Takes i s (({ b with
        serial := b.serial + 1
        moves := b.moves ++ [⟨t.core, team, idx, tl.toNat, off, b.serial, false, b.clock, none⟩]
        th := { b.th with readyAt := b.time, mx := b.th.mx ++
          [{ op := b.serial, tiles := [tl.toNat], codes := [], region := some (off, 512), signed := false, done := false }] } } : State).startMove
            t.core b.nextClock))
  ∧ (∀ h w s team idx t, Runs (.mfence h w) s → s.cur = .simt team idx →
    let i := Instr.mfence h w
    let b := begin_ i s
    b.teamOf b.cur = some t → (t.cv w.toNat).set.getLsbD (idx / 32) = true → b.waitsOwn i = false → Takes i s { b with th := b.th.complete })
  ∧ ∀ h (tl : BitVec 7) s, Runs (.mwait h tl) s →
    let i := Instr.mwait h tl
    let b := begin_ i s
    (∀ m ∈ s.th.mx, (tl = 127 ∨ tl.toNat ∈ m.tiles) → m.done = true) →
      Takes i s { b with th := { b.th with mx := s.th.mx.filter fun m => !(tl = 127 || m.tiles.contains tl.toNat) } }

/-- R183, R186: MDRAIN reads the thread's two rows at issue and leaves a drain that lands later; a REL drain releases first; the drain
takes the thread's signature with it, and one to global memory first writes back and drops the sectors of its own L1 that it covers. -/
def Obligations.Drains : Prop :=
  ∀ h (tl : BitVec 7) a c x s team idx t n l, Runs (.mdrain h tl a c x) s →
    let i := Instr.mdrain h tl a c x
    let b := begin_ i s
    let sa := b.src h 1 a
    let dst := if x.glb then (b.src2 1 a).toNat else sa.toNat
    let pitch := (b.src h 2 c).toNat
    b.cur = .simt team idx → b.teamOf b.cur = some t → b.launchOf b.cur = some (n, l) → tl.toNat < l.tiles → b.tileHits tl.toNat = [] →
    b.passPending t team tl.toNat = false → (b.moves.any fun m => m.team = team && m.tile = tl.toNat && m.idx % 32 = idx % 32) = false →
    drainTrap b l x dst sa pitch idx = none → b.spadLate = false → (x.glb = true → b.drainFix t.core < 32) →
    (x.rel = true → b.fenceHeld = false ∧ b.fenceMeetsHold 1 4 false = false) → b.drainMeetsHold t.core dst x pitch idx = false →
    (rowKeys tl.toNat idx).any t.tpoison.contains = false →
      let elems := (rowKeys tl.toNat idx).map fun k => Tab.getD t.tiles k 0
      let sectors := ((drainCells x pitch idx elems).map fun e => (dst + e.1) / 32).dedup
      let r := if x.rel then b.release 4 else b
      let sig := r.th.pending.getD 0
      let r := { r with th := { r.th with pending := none } }
      let sp := r.space r.cur
      let u := if x.glb then sectors.foldl (fun s k => s.sectorHome t.core sp (32 * k) false) r else r
      u.th.level = s.th.level →
      Takes i s (({ u with
        serial := u.serial + 1, th := { u.th with readyAt := u.time }
        drains := u.drains ++ [⟨u.serial, team, idx, x, dst, pitch, elems, sp, sig, u.clock, false, [], none, [], none, false⟩] } : State).startMove
          t.core u.nextClock)

/-- R187-R195, R278, R458: a copy that passes the checks of R458 in their order joins its channel's queue of at most 4, with the signature of
the thread's last release; with REL the issuer releases first. A signature that waits for a carrier goes on waiting. A check that fails
traps, TLRFAULT with the word in TVAL, another with the channel. Rests on the readings of assumption 20. -/
def Obligations.CopyIssue : Prop :=
  let copies (i : Instr) (copy : State → Copy) (ch : Nat) : Prop :=
    ∀ s, Runs i s →
      let b := begin_ i s
      let c := copy b
      let o := ownerOf b.cur
      (∀ t, copyTrap b c = some t → s.lateOut = false → exec i s = .next (b.freshen.takeTrap t (if t = .tlrfault then i.tval else .ofNat 64 ch) s.th.w))
      ∧ (copyTrap b c = none → b.chanFull ch = false → b.spadLate = false → c.rel = false →
        Takes i s (b.setChan o ch { b.chan o ch with queue := (b.chan o ch).queue ++ [{ c with sig := b.th.pending.getD 0 ||| b.th.relSig }] }))
      ∧ (copyTrap b c = none → b.chanFull ch = false → b.spadLate = false → c.rel = true → b.fenceHeld = false →
        b.fenceMeetsHold 1 4 false = false →
        let r := b.release 4
        let u := { r with th := { r.th with pending := b.th.pending } }
        r.th.level = s.th.level →
        Takes i s (u.setChan o ch { u.chan o ch with
          queue := (u.chan o ch).queue ++ [{ c with sig := r.th.pending.getD 0 ||| r.th.relSig }] }))
  ∀ h d a c e (ch : BitVec 4) x y,
    copies (.cpyGs h a e ch) (fun b => cpyOf b a 0 e) ch.toNat ∧ copies (.cpySg h a e ch) (fun b => cpyOf b a 1 e) ch.toNat
    ∧ copies (.cpyl h d a c x) (fun b => newCopy b 1 x.dir.toNat []
        (if x.dir = 1 then (b.src h 1 a).toNat else (b.src2 1 a).toNat) (if x.dir = 0 then (b.src h 0 d).toNat else (b.src2 0 d).toNat)
        (b.src h 2 c).toNat 0 1 x.bar.toNat x.rel) x.ch.toNat
    ∧ copies (.cpyg h d a c y) (fun b => newCopy b 2 0 [] (b.src2 1 a).toNat (b.src h 0 d).toNat
        ((y.cnt.toNat + 1) * (y.rowb.toNat * 16)) (b.src h 2 c).toNat (y.rowb.toNat * 16) y.bar.toNat y.rel) y.ch.toNat

/-! System registers, enclaves, keys, page ownership (09_isa_system.md, 19_enclaves.md) -/

/-- R45, R205-R208, R227, Tables 9.2 and 9.4: SYSRD answers the register's value, the first half of a 64-bit one with a latch of the
other; SYSWR changes the register that it names; TSRD reads a time value; TLBI writes back and drops the translations and cached lines
of its scope. What a write leaves in a register: FPC its mode bits and flags, CHK bit 0, TVEC with [5:0] zero, TCAUSE a cause that Table 9.3
lists (what another value leaves is the model's, assumption 108), TSTAT its fields, TEPC, TSAVE and IMASK the value, IPEND without the ones that the value has, GUESTID eight bits; and a read gives it back. No
write but FLTRESP's changes another register of the thread or a byte of memory or another host core. Rests on the readings of
assumptions 15, 39 and 40. -/
def Obligations.SystemRegisters : Prop :=
  ((∀ h d imm s, Runs (.sysrd h d imm) s →
     let i := Instr.sysrd h d imm
     let b := begin_ i s
     let r := b.sysRead imm.toNat
     let u := if imm = 0 then { b with th := b.th.settle } else b
     let v := { u with th := { u.th with latch := r.2 } }
     Takes i s (v.postTo d r.1) ∧ Writes s (v.postTo d r.1) (outs d r.1))
   ∧ (∀ h v imm s, Runs (.syswr h v imm) s →
     let i := Instr.syswr h v imm
     Takes i s ((begin_ i s).sysWrite imm.toNat ((begin_ i s).src h 0 v)))
   ∧ (∀ h d f s, Runs (.tsrd h d f) s →
     let b := begin_ (.tsrd h d f) s
     Gives (.tsrd h d f) s (outs2 d (.ofNat 64 (b.timestamp (b.space b.cur).eid.toNat f))))
   ∧ ∀ h a c s, Runs (.tlbi h a c) s →
     let i := Instr.tlbi h a c
     let b := begin_ i s
     let x := b.src h 2 c
     let va := (b.src2 1 a).toNat
     let sp := b.space b.cur
     let guest : Byte := if s.th.level = .h then x.extractLsb' 8 8 else sp.guest
     let drops (t : Tlb → Bool) (l : Line → Bool) : Prop := b.waitsForHold l = false →
       ∃ u, Takes i s u ∧ u = (b.release 4).invalidate t l ∧ (u.tlb.all fun x => !t x) = true ∧ (u.clines.all fun x => !l x) = true
         ∧ (u.ilines.all fun x => !l x) = true
     x.toNat / 2 ^ 16 = 0 → x.toNat / 4 % 64 = 0 → b.fenceMeetsHold 1 4 false = false →
       (x.toNat % 4 = 0 → va % 4096 = 0 → va < 12 * 2 ^ 52 → drops (fun t => t.covers sp va) fun l => l.sp = sp && l.va / 2 ^ 20 = va / 2 ^ 27)
       ∧ (x.toNat % 4 = 1 → drops (fun t => t.sp = sp) fun l => l.sp = sp)
       ∧ (x.toNat % 4 = 2 → drops (fun t => t.sp.guest = guest) fun l => l.sp.guest = guest)
       ∧ (x.toNat % 4 = 3 → s.th.level = .h → drops (fun _ => true) fun _ => true))
  ∧ (∀ (s : State) (v : Word), s.chain = none →
     (s.sysWrite 0 v).th.fpc = v &&& 0x1F07 ∧ (s.sysWrite 1 v).th.chk = v &&& 1
     ∧ ∀ n, s.cur = .host n →
       ((s.sysWrite 0x040 v).hostCore n).bankS.tvec.lo = v &&& ~~~(0x3F : Word) ∧ ((s.sysWrite 0x041 v).hostCore n).bankS.tvec.hi = v
       ∧ ((v.toNat ≤ 22 ∨ v = 0x100 ∨ (0x200 ≤ v.toNat ∧ v.toNat ≤ 0x21F) ∨ (0x300 ≤ v.toNat ∧ v.toNat ≤ 0x316)) →
         ((s.sysWrite 0x042 v).hostCore n).bankS.tcause = v)
       ∧ ((s.sysWrite 0x042 v).hostCore n).bankS.tcause.toNat < 0x800 ∧ ((s.sysWrite 0x043 v).hostCore n).bankS.tstat = v &&& 0x1F
       ∧ ((s.sysWrite 0x044 v).hostCore n).bankS.tepc = v ∧ ((s.sysWrite 0x049 v).hostCore n).bankS.tsave0 = v
       ∧ ((s.sysWrite 0x04A v).hostCore n).bankS.tsave1 = v ∧ ((s.sysWrite 0x04C v).hostCore n).bankS.imask = v
       ∧ ((s.sysWrite 0x04B v).hostCore n).bankS.ipend = (s.hostCore n).bankS.ipend &&& ~~~v
       ∧ ((s.sysWrite 0x054 v).hostCore n).bankH.tepc = v ∧ ((s.sysWrite 0x062 v).hostCore n).guestid = v &&& 0xFF
       ∧ ((s.sysWrite 0x044 v).sysRead 0x044).1 = v ∧ ((s.sysWrite 0x062 v).sysRead 0x062).1 = v &&& 0xFF
       ∧ (s.sysRead 0x060).2 = some (0x061, .ofNat 32 ((s.hostCore n).ptroot.toNat / 2 ^ 32))
       ∧ (∀ x, s.th.latch = some (0x061, x) → s.sysRead 0x061 = (x, none))
       ∧ (∀ k, k ≠ 0x063 → (s.sysWrite k v).th.regs = s.th.regs ∧ (s.sysWrite k v).th.preds = s.th.preds ∧ (s.sysWrite k v).th.w = s.th.w
           ∧ (s.sysWrite k v).mem = s.mem ∧ ∀ m, m ≠ n → (s.sysWrite k v).hostCore m = s.hostCore m))

/-- R212, R215, R216, R218, R219: the enclave words that succeed. ECREATE builds the enclave of a well-formed ECD and gives its number,
and answers the status of the first check that fails in d[31:16]; EENTER records the return point and resumes the enclave thread at E;
EEXIT records its place and returns, keeping g0-g15 and zeroing every other register; EREPORT stores the report and gives its sequence
number; EDESTROY removes the enclave. Rests on the readings of assumptions 10, 43, 46 and 116. -/
def Obligations.EnclaveWords : Prop :=
  (∀ h d a s u bs, Runs (.ecreate h d a) s → Reads (.ecreate h d a) s a 4096 4096 u bs →
    let i := Instr.ecreate h d a
    (∀ c, ecdStatus u bs (ecdOf bs) = some c → Takes i s (u.postTo d (.ofNat 32 (c.code * 65536))))
    ∧ (∀ eid slot att lead qs free, ecdStatus u bs (ecdOf bs) = none → u.freeEid = some eid → u.freeSlot = some slot →
      u.freeAtt = some att → u.guestLead u.callerGuest.toNat = some lead → u.freeQueues lead (ecdOf bs).queues = some qs →
      u.poolFree lead = some free → energyFrames ≤ free →
      ((ecdOf bs).pages.any fun p => u.recallHeld (p.pa / 4096)) = false →
      let w := (ecdOf bs).pages.foldl (fun s p => s.recall (p.pa / 4096)) u
      ((ecdOf bs).pages.any fun p => (w.pot (p.pa / 4096)).state = .poisoned) = false →
      ((ecdOf bs).pages.find? fun p => p.ty = 0 && !w.verifies p.pa 4096) = none →
      let v := w.create bs (ecdOf bs) eid slot att lead qs
      Takes i s (v.postTo d (.ofNat 32 eid))
        ∧ ∃ e, v.encls.find eid = some e ∧ e.guest = u.callerGuest ∧ e.slot = .ofNat 8 slot ∧ e.threads = (ecdOf bs).threads
          ∧ e.entry = .ofNat 64 (ecdOf bs).entry ∧ e.att = att ∧ e.queues = qs ∧ e.failed = false))
  ∧ (∀ h a c s n, Runs (.eenter h a c) s → s.cur = .host n →
    let i := Instr.eenter h a c
    let b := begin_ i s
    let eid := (b.src h 1 a).toNat % 65536
    let idx := (b.src h 2 c).toNat % 64
    ∀ e, b.encls.find eid = some e → e.guest = b.callerGuest → idx < e.threads →
      (b.hosts.any fun p => p.2.entered = some (eid, idx)) = false → b.slotLoaded e.slot = true → e.failed = false → e.halted = false →
      ∃ u, Lands i s u ∧ u.th = e.resume eid idx b.th.complete ∧ (u.hostCore n).retW = nextIndex i s ∧ (u.hostCore n).retCb = s.th.cb
        ∧ (u.hostCore n).entered = some (eid, idx) ∧ (∀ m, m ≠ n → u.hostCore m = s.hostCore m) ∧ ∀ p, u.byte p = s.byte p)
  ∧ (∀ h s n eid idx, Runs (.eexit h) s → s.cur = .host n → (s.hostCore n).entered = some (eid, idx) →
    let i := Instr.eexit h
    ∃ u, Lands i s u ∧ u.th.w = (s.hostCore n).retW ∧ u.th.cb = (s.hostCore n).retCb ∧ u.th.level = .s ∧ u.th.eid = 0 ∧ u.th.fpc = 0
      ∧ u.th.chk = 0 ∧ (∀ c, u.th.reg c = if c < 16 then s.final c else 0) ∧ (u.hostCore n).entered = none
      ∧ (∀ e, s.encls.find eid = some e → u.encls.find eid = some { e with saves := e.saves.put idx (.exited (nextIndex i s) s.th.cb) })
      ∧ ∀ p, u.byte p = s.byte p)
  ∧ (∀ h d a s u bs e, Runs (.ereport h d a) s → Reads (.ereport h d a) s a 256 64 u bs →
    let i := Instr.ereport h d a
    let b := begin_ i s
    let eid := (b.space b.cur).eid.toNat
    (∃ e₀, b.encls.find eid = some e₀) → u.encls.find eid = some e →
      let seq := (e.seq + 1) % 2 ^ 64
      ∀ w, Stores u (b.src2 1 a).toNat (slice bs 0 64 ++ reportTail e eid seq) w →
      let v := (w.modEncl eid fun e => { e with seq := seq, data := slice bs 0 64 }).noteRequest eid (w.coreIx w.cur - hostIx 0) (slice bs 0 64)
      v.th.level = s.th.level → Takes i s (v.postTo d (.ofNat 32 seq)))
  ∧ ∀ h a s e, Runs (.edestroy h a) s →
    let i := Instr.edestroy h a
    let b := begin_ i s
    let eid := (b.src h 1 a).toNat % 65536
    b.encls.find eid = some e → e.guest = b.callerGuest →
      (∀ u, b.destroy eid e = some u → Takes i s u ∧ u.encls.find eid = none)
      ∧ ((b.waitsForHold fun l => l.sp.eid.toNat = eid || l.slot = e.slot || some l.slot = e.newSlot) = false → b.sweeps = [] →
        (b.hosts.any fun h => h.2.entered.any (·.1 = eid) && b.unreturned (.host h.1)) = false → (b.launches.all fun l => l.2.eid ≠ eid) = true →
        ∃ u, Takes i s u ∧ u.encls.find eid = none)

/-- R220-R223: the KEY group: a request answers its status in d. KWRAP stores the wrapped key, KUNWRAP takes the key of a blob whose tag
verifies, KREVOKE drops a slot of the caller's guest, KLOAD loads a free slot for a guest or an enclave's own slot. Rests on the readings
of assumptions 10 and 42. -/
def Obligations.KeyWords : Prop :=
  (∀ h d a s u bs e, Runs (.kwrap h d a) s → Reads (.kwrap h d a) s a 128 64 u bs → u.encls.find (u.space u.cur).eid.toNat = some e →
    let i := Instr.kwrap h d a
    let b := begin_ i s
    (u.th.level = s.th.level → field bs 1 1 ≠ 1 → field bs 1 1 ≠ 2 → Answers i s d .badreq u)
    ∧ (field bs 1 1 = 1 ∨ field bs 1 1 = 2 →
      let hdr : List Byte := [1, .ofNat 8 (field bs 1 1), 0, 0]
      let nonce := beBytes 12 (Config.nonce u.keysMade).toNat
      let r := gcmSeal (wrapKey e (field bs 1 1)) nonce hdr (keyBytes (if field bs 1 1 = 1 then e.paging else e.export_))
      ∀ v, Stores { u with keysMade := u.keysMade + 1 } (b.src2 1 a).toNat (hdr ++ nonce ++ r.1 ++ r.2 ++ List.replicate 64 0) v →
        v.th.level = s.th.level → Answers i s d .ok v))
  ∧ (∀ h d a s u bs e, Runs (.kunwrap h d a) s → Reads (.kunwrap h d a) s a 128 64 u bs → u.th.level = s.th.level →
    u.encls.find (u.space u.cur).eid.toNat = some e →
    let i := Instr.kunwrap h d a
    let good := field bs 0 1 = 1 ∧ (field bs 1 1 = 1 ∨ field bs 1 1 = 2) ∧ field bs 2 2 = 0 ∧ allZero (slice bs 64 64) = true
    let key := gcmOpen (wrapKey e (field bs 1 1)) (slice bs 4 12) (slice bs 0 4) (slice bs 16 32) (slice bs 48 16)
    (¬ good → Answers i s d .badreq u) ∧ (good → key = none → Answers i s d .authfail u)
    ∧ (good → ∀ k, key = some k → Answers i s d .ok (u.modEncl (u.space u.cur).eid.toNat fun e =>
      if field bs 1 1 = 1 then { e with paging := keyOf k } else { e with export_ := keyOf k })))
  ∧ (∀ h d a s, Runs (.krevoke h d a) s →
    let i := Instr.krevoke h d a
    let b := begin_ i s
    let k := (b.src h 1 a).toNat % 256
    let x : KeySlot := Tab.getD b.slots k {}
    (k = 0 → Answers i s d .notowner b) ∧ (k ≠ 0 → x.loaded = false → Answers i s d .badstate b)
    ∧ (k ≠ 0 → x.loaded = true → x.guest ≠ b.callerGuest → Answers i s d .notowner b)
    ∧ (k ≠ 0 → x.loaded = true → x.guest = b.callerGuest → (∀ e ∈ b.encls, e.2.newSlot = none) →
      (b.waitsForHold fun l => l.slot.toNat = k) = false →
      Answers i s d .ok (b.revoke (.ofNat 8 k)) ∧ (Tab.getD (b.revoke (.ofNat 8 k)).slots k {}).loaded = false))
  ∧ ∀ h d a s, Runs (.kload h d a) s →
    let i := Instr.kload h d a
    let b := begin_ i s
    let x := b.src h 1 a
    let k := x.toNat % 256
    let eid := x.toNat / 65536
    let guest : Byte := x.extractLsb' 8 8
    (k = 0 → Answers i s d .badreq b) ∧ (k ≠ 0 → b.slotLoaded (.ofNat 8 k) = true → Answers i s d .badstate b)
    ∧ (k ≠ 0 → b.slotLoaded (.ofNat 8 k) = false →
      (eid = 0 → b.slotFree k = false → Answers i s d .badstate b)
      ∧ (eid = 0 → b.slotFree k = true → ∃ u, Answers i s d .ok u ∧ u.slots = b.slots.put k { loaded := true, guest := guest, key := guest.toNat }
        ∧ u.th = b.th ∧ u.mem = b.mem)
      ∧ (eid ≠ 0 → b.liveEncl eid = none → Answers i s d .notowner b)
      ∧ (∀ e, eid ≠ 0 → b.liveEncl eid = some e → e.guest ≠ guest → Answers i s d .notowner b)
      ∧ (∀ e, eid ≠ 0 → b.liveEncl eid = some e → e.guest = guest → e.slot.toNat ≠ k → Answers i s d .badreq b)
      ∧ (∀ e, eid ≠ 0 → b.liveEncl eid = some e → e.guest = guest → e.slot.toNat = k →
        Answers i s d .ok { b with slots := b.slots.put k { loaded := true, guest := guest, eid := .ofNat 16 eid, key := e.key } }))

/-- R225, R226, Table 9.12: POTSET answers the first check that its request fails and writes the frame's entry where none does, dropping
what is cached of a frame that changes hands and queueing a scrub; POTRD stores the entry's image after its block; PACCEPT clears the
pending mark of the page at its address. Rests on the readings of assumptions 42 and 45. -/
def Obligations.FrameWords : Prop :=
  (∀ h d a s u bs, Runs (.potset h d a) s → Reads (.potset h d a) s a 32 32 u bs →
    let i := Instr.potset h d a
    let f := field bs 0 8 / 4096
    let v := field bs 16 16
    let p := u.pot f
    let bad := goodFrame u (field bs 0 8) = false ∨ field bs 8 8 ≠ 0 ∨ potReserved v = true
    (bad ∨ potTarget (v % 16) = none → Answers i s d .badreq u)
    ∧ ∀ st, ¬ bad → potTarget (v % 16) = some st →
      let q := potOf v st p
      let moved := st = .scrub ∨ q.guest ≠ p.guest ∨ q.owner ≠ p.owner ∨ q.slot ≠ p.slot
      let may := (p.state = .poisoned ∧ st = .retired) ∨ (st ≠ .retired ∧
        (p.state = .free ∨ p.state = .hyp ∨ p.state = .guest ∨ p.state = .kick ∨ p.state = .shared))
      (u.frameBusy f = true ∨ u.pooled f = true → Answers i s d .busy u)
      ∧ (u.frameBusy f = false → u.pooled f = false →
        (¬ may → Answers i s d .badstate u) ∧ (may → moved → u.pinned f = true → Answers i s d .pinned u)
        ∧ (may → moved → u.pinned f = false → u.recallHeld f = false → p.state ≠ .poisoned →
          ((u.moveFrame f q).pot f).state ≠ .poisoned →
          (st = .scrub → let w := u.moveFrame f q
            Answers i s d .ok { w with scrubs := w.scrubs ++ [(f, 0)] })
          ∧ (st ≠ .scrub → st ≠ .retired → Answers i s d .ok (u.moveFrame f q)))
        ∧ (may → (¬ moved ∨ u.pinned f = false) → u.recallHeld f = false → st = .retired →
          let w := u.setPot f q
          Answers i s d .ok (if (w.retired.filter (· / 2 ^ 24 = f / 2 ^ 24)).length < 4096 then { w with retired := f :: w.retired } else w))
        ∧ (may → ¬ moved → st ≠ .retired → Answers i s d .ok (u.setPot f q))))
  ∧ (∀ h d a s u bs, Runs (.potrd h d a) s → Reads (.potrd h d a) s a 32 32 u bs →
    let i := Instr.potrd h d a
    let pa := field bs 0 8
    ((goodFrame u pa = false ∨ field bs 8 8 ≠ 0) → Answers i s d .badreq u)
    ∧ (goodFrame u pa = true → field bs 8 8 = 0 → u.frameBusy (pa / 4096) = true → Answers i s d .busy u)
    ∧ (goodFrame u pa = true → field bs 8 8 = 0 → u.frameBusy (pa / 4096) = false →
      ∀ v, Stores u (((begin_ i s).src2 1 a).toNat + 16) (leBytes 16 (u.pot (pa / 4096)).image) v → Answers i s d .ok v))
  ∧ ∀ h d a s, Runs (.paccept h d a) s →
    let i := Instr.paccept h d a
    let b := begin_ i s
    let va := (b.src2 1 a).toNat
    let mine (st : PotState) (p : Nat × Pot) : Bool := p.2.state = st && p.2.owner = (b.space b.cur).eid && p.2.pend
      && p.2.eva.toNat = va / 4096 % 2 ^ 40 && p.2.ehome.toNat = homeOf va
    (va % 4096 ≠ 0 → s.lateOut = false → exec i s = .next (b.freshen.takeTrap .misalign (.ofNat 64 va) s.th.w))
    ∧ (va % 4096 = 0 → 12 * 2 ^ 52 ≤ va → Answers i s d .badstate b)
    ∧ (va % 4096 = 0 → va < 12 * 2 ^ 52 →
      (b.pots.find? (mine .encl) = none → b.pots.find? (mine .enclPt) = none → Answers i s d .badstate b)
      ∧ ∀ f p, (b.pots.find? (mine .encl) = some (f, p) ∨ b.pots.find? (mine .encl) = none ∧ b.pots.find? (mine .enclPt) = some (f, p)) →
        (b.frameBusy f = true → Answers i s d .busy b) ∧ (b.frameBusy f = false → Answers i s d .ok (b.setPot f { p with pend := false })))

/-- R225, R360-R362: the page words answer the status of the first check that fails and change nothing, and where none fails they move the
frame, its ownership entry and its table entry as their rule says. Rests on the readings of assumption 42. -/
def Obligations.PageWords : Prop :=
  (∀ h d a s u bs, (pageReq u bs).ok = false →
      ∀ i ∈ [Instr.pmap h d a, .pdiscard h d a, .pevict h d a, .pload h d a, .punmap h d a], Runs i s → Reads i s a 32 32 u bs →
        Answers i s d .badreq u)
  ∧ (∀ h d a s u bs e lev at_ ent, Runs (.pmap h d a) s → Reads (.pmap h d a) s a 32 32 u bs → Names u bs e lev at_ ent →
    let i := Instr.pmap h d a
    let r := pageReq u bs
    let f := r.pa / 4096
    ((u.pot f).state ≠ .guest → Answers i s d .badstate u)
    ∧ ((u.pot f).state = .guest → u.pinned f = true → Answers i s d .pinned u)
    ∧ ((u.pot f).state = .guest → u.pinned f = false → r.pa / 2 ^ 36 = homeOf r.va → pteV ent = false → pteR ent = false →
      (r.ty = 0 → 3 ≤ lev → u.pageHeld f at_ = false → ((u.moveFrame f (enclPot .encl r e r.perm true)).pot f).state ≠ .poisoned →
        Answers i s d .ok (((u.moveFrame f (enclPot .encl r e r.perm true)).scrubFrame f).putEntry at_ (pteLeaf r.pa r.perm 0 true)))
      ∧ (r.ty = 0 → lev < 3 → Answers i s d .notable u)
      ∧ (r.ty ≠ 0 → lev < 3 → u.pageHeld f at_ = false → ((u.moveFrame f (enclPot .enclPt r e 0 true)).pot f).state ≠ .poisoned →
        Answers i s d .ok (((u.moveFrame f (enclPot .enclPt r e 0 true)).scrubFrame f).putEntry at_ (pteLink r.pa)))))
  ∧ (∀ h d a s u bs e lev at_ ent, Runs (.pdiscard h d a) s → Reads (.pdiscard h d a) s a 32 32 u bs → Names u bs e lev at_ ent →
    let i := Instr.pdiscard h d a
    let f := (pageReq u bs).pa / 4096
    let c := pageStatus u (pageReq u bs) lev ent fun p => p.state = .encl && !p.pend
    (∀ x, c = some x → Answers i s d x u)
    ∧ (c = none → u.recallHeld f = false → ((u.recall f).pot f).state ≠ .poisoned →
      Answers i s d .ok ((u.recall f).setPot f { (u.recall f).pot f with state := .discarded })))
  ∧ (∀ h d a s u bs e lev at_ ent, Runs (.pevict h d a) s → Reads (.pevict h d a) s a 32 32 u bs → Names u bs e lev at_ ent →
    let i := Instr.pevict h d a
    let r := pageReq u bs
    let f := r.pa / 4096
    let c := pageStatus u r lev ent fun p => p.state = .encl && !p.pend
    (∀ x, c = some x → Answers i s d x u) ∧ (c = none → r.blob % 64 ≠ 0 ∨ 12 * 2 ^ 52 ≤ r.blob → Answers i s d .badreq u)
    ∧ (c = none → r.blob % 64 = 0 → r.blob < 12 * 2 ^ 52 → e.evicts ≠ 2 ^ 61 - 1 → u.pageHeld f at_ = false →
      ∀ w, probeBytes u (u.space u.cur) 64 r.blob 4160 = .ok w () →
        let m := w.modEncl r.eid fun x => { x with evicts := e.evicts + 1 }
        let g := ((m.setPot f { m.pot f with state := .migrating }).putEntry at_ ((e.evicts + 1) * 8 + 4)).recall f
        let nonce := beBytes 12 (Config.nonce g.keysMade).toNat
        let hdr := blobHeader r.eid (bit (pteR ent) + 2 * bit (pteW ent) + 4 * bit (pteX ent)) r.va (e.evicts + 1) nonce
        let x := gcmSeal (keyBytes e.paging) nonce hdr (Memory.bytes g.mem r.pa 4096)
        let k := ({ g with keysMade := g.keysMade + 1 } : State).modEncl r.eid fun e => { e with evPerms := e.evPerms.put (r.va / 4096) (ent / 4 % 8) }
        (g.pot f).state ≠ .poisoned → g.verifies r.pa 4096 = true →
        ∀ v, Stores (k.scrubFor f k.callerGuest (k.guestSlot k.callerGuest) 0) r.blob (hdr ++ x.2 ++ x.1) v → Answers i s d .ok v))
  ∧ (∀ h d a s u bs e lev at_ ent, Runs (.pload h d a) s → Reads (.pload h d a) s a 32 32 u bs → Names u bs e lev at_ ent →
    let i := Instr.pload h d a
    let r := pageReq u bs
    let f := r.pa / 4096
    ((u.pot f).state ≠ .guest → Answers i s d .badstate u)
    ∧ ((u.pot f).state = .guest → u.pinned f = false → r.pa / 2 ^ 36 = homeOf r.va → r.blob % 64 = 0 → r.blob < 12 * 2 ^ 52 → 3 ≤ lev →
      pteV ent = false → pteR ent = true →
      ∀ v blob, loadBytes u (u.coreIx u.cur) (u.space u.cur) 64 r.blob 4160 = .ok v blob → allZero (slice blob 36 12) = true →
        field blob 0 4 = 1 → field blob 4 2 = r.eid → field blob 6 2 < 8 → field blob 8 8 = r.va →
        let key := gcmOpen (keyBytes e.paging) (slice blob 24 12) (slice blob 0 48) (slice blob 64 4096) (slice blob 48 16)
        (key = none → Answers i s d .authfail v)
        ∧ ∀ plain, key = some plain →
          (field blob 16 8 ≠ ent / 8 → Answers i s d .stale v)
          ∧ (field blob 16 8 = ent / 8 → v.pageHeld f at_ = false →
            let m := v.moveFrame f (enclPot .encl r e (field blob 6 2) false)
            (m.pot f).state ≠ .poisoned →
            let k := m.modEncl r.eid fun e => { e with evPerms := e.evPerms.del (r.va / 4096) }
            Answers i s d .ok (((k.scrubFrame f).homeWrite r.pa plain).putEntry at_ (pteLeaf r.pa (field blob 6 2) 0 true)))))
  ∧ ∀ h d a s u bs e lev at_ ent, Runs (.punmap h d a) s → Reads (.punmap h d a) s a 32 32 u bs → Names u bs e lev at_ ent →
    let i := Instr.punmap h d a
    let f := (pageReq u bs).pa / 4096
    let c (u : State) := pageStatus u (pageReq u bs) lev ent fun p => p.state = .discarded || p.pend
    (∀ x, c u = some x → Answers i s d x u)
    ∧ (c u = none → u.pageHeld f at_ = false →
      let w := u.recall f
      (∀ x, c w = some x → Answers i s d x w)
      ∧ (c w = none →
        let v := (w.setPot f { w.pot f with state := .reclaiming }).putEntry at_ 0
        Answers i s d .ok (v.scrubFor f v.callerGuest (v.guestSlot v.callerGuest) 0)))

/-! Steps of the agents (09_isa_system.md to 26_trust_links_power.md): where its condition holds, a step of an agent takes its effect -/

/-- R73, R204, R217, R236, R237: an outstanding result is written; a timer asserts source 0; an interrupt enters the H bank first, and
takes an enclave thread out through an asynchronous exit; the picker acts at most once in a clock and puts a bundle's threads next, all of one
launch and word index, one to a lane, in lane order where they take items (R161); beside a thread that is overdue nothing else issues. Rests
on the readings of assumption 25. -/
def Obligations.ThreadEvents : Prop :=
  (∀ tid t r rest s, s.thread? tid = some t → t.results = r :: rest →
    Occurs (.interlockedResultWrite tid) s (s.setThread tid { t.settleOne r with results := rest }))
  ∧ (∀ n high s, n < Config.hosts → ((s.hostCore n).bank high).tcmp.toNat ≤ s.ns →
    (((s.hostCore n).bank high).timer = false → Occurs (.timerAssert n high) s
      ((s.modHost n fun c => c.setBank high { c.bank high with timer := true }).assertIrq n high 0))
    ∧ (((s.hostCore n).bank high).timer = true → Occurs (.timerAssert n high) s
      (s.modHost n fun c => c.setBank high { c.bank high with ipend := (c.bank high).ipend ||| 1 })))
  ∧ (∀ n t s, n < Config.hosts → s.thread? (.host n) = some t → t.wait ≠ .stopped →
    let i := Instr.interruptEntry n
    let g := s.modThread (.host n) fun t => { t with wait := .none }
    let at_ := t.restartAt t.w
    (∀ k, (s.hostCore n).bankH.source = some k →
      (t.level ≠ .e → Occurs i s (g.enterBank n true (.ofNat 32 (0x200 + k)) 0 at_))
      ∧ (t.level = .e → Occurs i s ((g.asyncExit n 0 true at_).enterBank n true (.ofNat 32 (0x200 + k)) 0 0)))
    ∧ (∀ k, (s.hostCore n).bankH.source = none → (s.hostCore n).bankS.source = some k → t.level ≠ .h →
      (t.level ≠ .e → Occurs i s (g.enterBank n false (.ofNat 32 (0x200 + k)) 0 at_))
      ∧ (t.level = .e → Occurs i s (g.asyncExit n 0 true at_))))
  ∧ (∀ core order s, s.cands core ≠ [] →
    let now := s.pickClock core (s.cands core)
    let b := pickBundle (s.core core) (s.cands core) now
    ∃ u l o, exec (.pickerChoice core order) s = .next u ∧ u.time = now ∧ s.time ≤ now ∧ (u.core core).picked = some now
      ∧ (∀ t, (s.core core).picked = some t → t + Config.ticksPerCoreClock ≤ now)
      ∧ u.agenda = (if b.isEmpty then s.agenda else .bundle core o l :: s.agenda)
      ∧ (∀ x, x ∈ l ↔ ∃ c ∈ b, x = c.id) ∧ (b.any (·.refill) = true → l = b.map (·.id))
      ∧ u.th = s.th ∧ u.threads = s.threads ∧ u.mem = s.mem)
  ∧ (∀ k l now, ∀ c ∈ pickBundle k l now, c ∈ l ∧ c.stamp ≤ now ∧ ∀ d ∈ pickBundle k l now,
      (c.launch = d.launch ∧ c.w = d.w ∧ (c.lane = d.lane → c = d)) ∨ c = d)
  ∧ ∀ k l now, (l.any fun c => c.late now) = true → (pickBundle k l now).length ≤ 1

/-- R129, R139, R143, R298, R310, R316, R322, R369-R371: a line whose lease has run out is written back and goes; an epoch rolls over; a dirty
line is written back; an atomic unit that holds a line keeps its write-backs waiting; a fill and a walk install what they found; a grant is
part of the write-back that asks for it, and there is none without one (R409); a record of the ring whose turn it is enters it while there is room; a logged
access replays; a waiting atomic is served. Rests on the readings of assumptions 3, 28, 74 and 82. -/
def Obligations.MemoryEvents : Prop :=
  (∀ core line s,
    let hit := fun l : Line => l.core = core && l.va = line && l.expired s.ns && (l.dirty.isEmpty || !s.writeWaits core l.pa)
    s.lines.any hit = true → Occurs (.lineLeaseExpiry core line) s (s.evictLines hit))
  ∧ (∀ core s, (s.core core).epoch < s.epochNow → Occurs (.epochRollover core) s (s.modCore core fun c => c.roll s.epochNow))
  ∧ (∀ core line s,
    let hit := fun l : Line => l.core = core && l.va = line && !l.dirty.isEmpty && !s.writeWaits core l.pa
    s.lines.any hit = true → Occurs (.writeBack core line) s (s.cleanLines hit))
  ∧ (∀ core sp va s s₁ t s₂ x,
    let a : Access := { sp := sp, va := va.toNat, kind := .read }
    let r := s.expireLeases
    (∀ l, r.findLine core sp va.toNat = some l → l.bytes.length ≠ 128 ∧ l.expired r.ns = false) → va.toNat < 12 * 2 ^ 52 →
    (r.allThreads.any fun p => r.coreIx p.1 = core && r.space p.1 = sp) = true → translate r a = .ok (s₁, t) → t.mt = 0 →
    s₁.portBlocked core (t.at va.toNat / 128) = false → s₁.fillWhole core a t = .ok (s₂, x) → Occurs (.l1Fill core sp va) s s₂)
  ∧ (∀ pa s, let asks := fun l : Line => l.asksFirst (pa / 64) && !s.writeWaits l.core l.pa
    (∀ l, s.lines.find? asks = some l → Occurs (.counterGrant pa) s (s.cleanLines fun x => x = l))
    ∧ (s.lines.find? asks = none → exec (.counterGrant pa) s = .next s))
  ∧ (∀ s : State, ∀ line bytes, (s.pot (line / 64)).state ≠ .discarded →
    s.landLine line bytes = (bytes.foldl (fun s p => s.poke p.1 p.2) (s.grant line)).inject (· = line))
  ∧ (∀ sp va kind s s₁ t, va.toNat < 12 * 2 ^ 52 → walk s { sp := sp, va := va.toNat, kind := kind } = .ok (s₁, t) →
    Occurs (.pageTableWalk sp va kind) s s₁)
  ∧ (∀ ring left q x s, s.records.find? (fun r => r.ring == ring) = some q → s.ring ring = some x → s.nextRing = some (ring, left) →
    let at_ := x.base + 32 * (x.tail % 2 ^ x.log2n)
    (x.tail + 2 ^ 32 - x.head) % 2 ^ 32 ≠ 2 ^ x.log2n → s.lineHeldAt (at_ / 128) = false → s.lineHeldAt (x.addr / 128) = false →
    s.writeFails (at_ / 64) = false → s.writeFails (x.addr / 64) = false →
    Occurs (.faultRecordWrite ring) s (State.writeRecord { s with ringNow := some (ring, left) } x q))
  ∧ (∀ n e s s₁, s.log.find? (fun x => x.num == n) = some e → e.ready = true →
    (e.link = 0 ∨ (s.log.any fun x => x.tid = e.tid && x.link ≠ 0 && x.num < n) = false) →
    e.tid = s.cur → replay s e = .done s₁ → Occurs (.operandLogReplay n) s (s₁.unlog n))
  ∧ ∀ slice bank r s s₁ old, s.nextAtomic slice bank = some r → s.sameHold r = [r] → r.tid = s.cur →
    atomicNow { s with atomQ := s.atomQ.filter (·.num ≠ r.num) } r.core { sp := r.sp, va := r.va, kind := .atomic } r.op r.b r.c = .ok s₁ old →
    Occurs (.atomicUnitServe slice bank) s
      ((((s₁.gather (s₁.physLine r.core r.sp r.va)).carryWith r.sig r.core r.sp r.va).deliver r.dst [old]).unlog r.num).freshen

/-- R27, R185, R186, R191-R196, R294-R296, R300, R301, R317: a channel takes a physical channel of its engine; its copy starts with the write
pointer reset, moves a line's worth when its turn comes among the engine's channels and is credited with it, and replays a segment whose
record is answered, in its channel's turn; a scratchpad drain begins its movement in issue order and lands when it has moved, an
add-on-store bank by bank; a global drain lands its lines and is counted, or keeps the lines that wait; an add-on-store takes its lines one
by one, and applies its bytes when it has them all. Rests on the readings of assumptions 22, 32, 38, 110 and 111. -/
def Obligations.TransferEvents : Prop :=
  (∀ o ch c rest p s, (s.chan o ch).queue = c :: rest → (s.chan o ch).phys = none → s.bindChan c.sp.guest (s.ownerSlice o) = some p →
    Occurs (.channelBind o ch) s (s.setChan o ch { s.chan o ch with phys := some p }))
  ∧ (∀ o ch c rest p s, (s.chan o ch).queue = c :: rest → (s.chan o ch).phys = some p → c.started = false →
    Occurs (.copyStart o ch) s (s.setChan o ch { s.chan o ch with queue := { c with started := true } :: rest, wptr := c.pointer }))
  ∧ (∀ o ch c p s, s.served o ch = some c → (s.chan o ch).phys = some p → c.stop = none → s.nextChan (p / 16) = some p →
    let r : State := { s with ceLast := s.ceLast.put (p / 16) p }
    (c.total = 0 → Occurs (.copyEngineTurn o ch) s (r.creditCopy o ch c))
    ∧ ∀ row, c.total ≠ 0 → c.cursor ≠ c.total → (if c.form = 2 && c.cursor % c.rb = 0 then rowWord r o c c.cursor else some c.row) = some row →
      let c' := { c with row := row }
      let n := c'.run row c.cursor 128
      let cells := (List.range n).map fun k => c'.cell row (c.cursor + k)
      (∀ s₁ g, moveCells r o c' cells = .ok s₁ g →
        Occurs (.copyEngineTurn o ch) s (s₁.creditCopy o ch { c' with cursor := c.cursor + n, sig := c.sig ||| g }))
      ∧ (∀ t, moveCells r o c' cells = .trap t → Occurs (.copyEngineTurn o ch) s (r.stopCopy o ch t))
      ∧ (moveCells r o c' cells = .wait → Occurs (.copyEngineTurn o ch) s r))
  ∧ (∀ o ch c g p s s₁ x, s.served o ch = some c → (s.chan o ch).phys = some p → c.nextFix = some g → s.nextChan (p / 16) = some p →
    let r : State := { s with ceLast := s.ceLast.put (p / 16) p }
    moveCells r o { c with fix := c.fix.erase g } ((List.range g.len).map fun k => c.cell g.row (g.off + k)) = .ok s₁ x →
    Occurs (.copyFixupReplay o ch) s ((s₁.noteFix o).creditCopy o ch (Copy.resume { c with fix := c.fix.erase g, sig := c.sig ||| x })))
  ∧ (∀ n d s, s.drains.find? (fun x => x.num == n) = some d → d.landed = false → d.ctl.glb = false →
    let core := s.drainCore d
    let e : Drain := { d with plan := some [] }
    let r := s.setDrain e
    (d.began = none → (s.nextMove core).any (·.1 = d.num) = true → s.mayMove core = true →
      Occurs (.drainComplete n) s (s.startMove core s.time))
    ∧ (d.plan = none → s.moved d.began (drainSize d.ctl.fmt.toNat) = true →
      (d.ctl.add = false → (r.drainBanks e).any (r.bankTaken e) = false → Occurs (.drainComplete n) s ((landSpad r e).startMove core s.time))
      ∧ (d.ctl.add = true → (r.drainGroup e).any (·.plan.isNone) = true → Occurs (.drainComplete n) s (r.startMove core s.time))
      ∧ (d.ctl.add = true → ∀ x g u, r.drainGroup e = x :: g → (x :: g).any (·.plan.isNone) = false → r.takeBank x (x :: g) = some u →
        Occurs (.drainComplete n) s (u.startMove core s.time))))
  ∧ (∀ d g b (s : State), (g.any fun x => (s.spadCells x).isNone) = false → g.any s.drainPoisoned = false →
    let left := (g.flatMap s.drainBanks).dedup.filter fun b => !d.taken.contains b
    leastOf left = some b → s.bankTaken d b = false →
    let w := g.foldl (fun s x => s.spadWrite x (· = b)) s
    s.takeBank d g = some (if left.length = 1 then g.foldl State.creditDrain w else w.setDrain { d with taken := b :: d.taken }))
  ∧ (∀ n d s, s.drains.find? (fun x => x.num == n) = some d → d.landed = false → d.ctl.glb = true →
    (d.ctl.add = false →
      let todo := match d.plan with
        | some p => p.map (·.1)
        | none => d.vlines
      (∀ s₁, landLines s d (s.drainRoom d) todo = (s₁, none) → Occurs (.drainComplete n) s s₁)
      ∧ ∀ s₁ f left, landLines s d (s.drainRoom d) todo = (s₁, some (f, left)) → left.length ≠ todo.length →
        let d' := { d with fix := d.fix ++ f, plan := some (left.map fun l => (l, 0)), landed := left.isEmpty }
        (left = [] → d.fix ++ f = [] → Occurs (.drainComplete n) s (s₁.creditDrain d'))
        ∧ (left ≠ [] ∨ d.fix ++ f ≠ [] → Occurs (.drainComplete n) s (s₁.setDrain d')))
    ∧ (d.ctl.add = true → ∀ u, s.addOnStore d = some u → Occurs (.drainComplete n) s u))
  ∧ (∀ d (g : List Drain) plan line phys rest (s : State), plan.filter (fun p : Nat × Nat => !d.taken.contains p.2) = (line, phys) :: rest →
    s.writeWaits (s.drainCore d) phys = false → s.noRoomFor d phys = false →
    let e : Drain := { d with taken := phys :: d.taken, plan := some plan, fix := [] }
    let r := s.setDrain e
    s.takeLine d g plan = if rest.all (fun p => p.2 = phys) then r.applyLine e (r.drainGroup e) plan else some r)
  ∧ (∀ d (g : List Drain) line phys rest (s : State), (((line, phys) :: rest).any fun p => g.any fun x => s.drainMeetsBad x p.1 p.2) = false →
    let r := (s.drainWrite g line phys).countSlice (homeOf (line * 128)) 0x203 1
    s.applyLine d g ((line, phys) :: rest) = some (if rest.isEmpty then g.foldl State.creditDrain r
      else r.setDrain { d with plan := some rest }))
  ∧ ∀ n d f s, s.drains.find? (fun x => x.num == n) = some d → d.fix.find? (fun x => x.2.2) = some f →
    let s₀ := s.noteFix (.team d.team)
    (d.ctl.add = true → ∀ u, s₀.addOnStore d = some u → Occurs (.drainFixupReplay n) s u)
    ∧ (d.ctl.add = false → ∀ s₁, landDrainLine s₀ d f.1 = .ok s₁ →
      (d.landed = true → d.fix.erase f = [] → Occurs (.drainFixupReplay n) s (s₁.creditDrain d))
      ∧ (d.landed = false ∨ d.fix.erase f ≠ [] → Occurs (.drainFixupReplay n) s (s₁.setDrain { d with fix := d.fix.erase f })))

/-- R27, R284-R292, R394, R395: a waiting pass takes a free entry of the quad's table; a B region is read into a buffer, which is whole 17
clocks later; in a clock of the arbiter the oldest aged entry, else the oldest of the highest PRI, is granted while the window's budget lasts,
and withheld, which counts, otherwise; a new window takes the pending budget; movements begin in issue order and load their two rows; a
core's static energy is charged every 1,024 clocks. Rests on the readings of assumption 35. -/
def Obligations.EngineEvents : Prop :=
  (∀ core s, (s.quad (quadOf core)).table.length < 32 → ((s.quad (quadOf core)).waiting.any fun p => p.core == core) = true →
    Occurs (.passPost core) s ((s.modQuad (quadOf core) (postWaiting core 1)).restamp (quadOf core)))
  ∧ (∀ core s r o,
    let q := s.quad (quadOf core)
    q.spare.find? (fun b => b.core == core) = none → q.reads.find? (fun r => r.2.1 = core) = some r → q.bufs.length < 4 →
    s.overdue core = false → s.portTaken core = false → s.ops.find r.1 = some o →
    let x := s.store (.team o.team)
    let off := o.bAddr.getD 0
    x.poisoned off 2136 = false → Occurs (.bReadStart core) s (s.modQuad (quadOf core) fun q => { q with
      reads := q.reads.erase r
      bufs := q.bufs ++ [⟨r.1, core, r.2.2, false, (List.range 534).map fun k => s.regionWord x (s.teamSts o.team) (off + 4 * k), s.clock, false⟩] }))
  ∧ (∀ core b s, (s.quad (quadOf core)).spare.find? (fun b => b.core == core) = some b → (s.quad (quadOf core)).bufs.length < 4 →
    Occurs (.bReadStart core) s ((s.modQuad (quadOf core) fun q => { q with spare := q.spare.erase b, bufs := q.bufs ++ [b] }).restamp (quadOf core)))
  ∧ (∀ (s : State) x off, s.regionWord x [] off = x.word off)
  ∧ (∀ quad b s, (s.quad quad).bufs.find? (fun b => !b.ready && b.start + 17 ≤ s.clock) = some b →
    Occurs (.bReadEnd quad) s ((s.modQuad quad fun q => { q with
      bufs := q.bufs.map fun x => if x.op = b.op then { x with ready := true } else x }).restamp quad))
  ∧ (∀ quad p o (s : State),
    let r := (s.accrue quad s.clock).modQuad quad fun q => q.roll s.clock
    let q := r.quad quad
    (∀ g, q.lastG = some g → g + 8 ≤ r.clock) →
    Quad.pick { q with table := q.table.filter fun p => !r.halting p.team } r.clock = some p → r.ops.find p.op = some o →
    (q.granted < q.budget → Occurs (.passGrant quad) s (r.grantPass quad p o))
    ∧ (q.budget ≤ q.granted → Occurs (.passGrant quad) s (r.accrue quad (r.clock + 1))))
  ∧ (∀ q now p, Quad.pick q now = some p → p ∈ q.eligible
    ∧ (p.stamp.getD now + 512 ≤ now → ∀ e ∈ q.eligible, e.stamp.getD now + 512 ≤ now → e.before p = false)
    ∧ (¬ p.stamp.getD now + 512 ≤ now → ∀ e ∈ q.eligible, ¬ e.stamp.getD now + 512 ≤ now ∧ e.pri ≤ p.pri
      ∧ (e.pri = p.pri → e.before p = false)))
  ∧ (∀ quad s, (s.quad quad).window < s.clock / 64 → Occurs (.governorWindow quad) s
    ((s.accrue quad s.clock).modQuad quad fun q => { q with window := s.clock / 64, budget := q.nextB, granted := 0 }))
  ∧ (∀ quad v s, (s.quad quad).removed = false →
    (v.toNat % 16 = 0 ∨ 8 < v.toNat % 16 → Occurs (.mgovcfgWrite quad v) s s)
    ∧ (v.toNat % 16 ≠ 0 → v.toNat % 16 ≤ 8 → Occurs (.mgovcfgWrite quad v) s
      ((s.accrue quad s.clock).modQuad quad fun x => { x.roll s.clock with nextB := v.toNat % 16, stall := 0, lastW := some s.clock })))
  ∧ (∀ core (s : State), (s.moves.find? fun m => m.core = core && m.began.isSome) = none → s.mayMove core = true →
    Occurs (.mloadMovementEnd core) s (s.startMove core s.time))
  ∧ (∀ core m (s : State), (s.moves.find? fun m => m.core = core && m.began.isSome) = some m → s.moved m.began 4 = true → m.spoilt = false →
    (s.store (.team m.team)).poisoned m.off 512 = false →
    let r := State.modThread { s with moves := s.moves.erase m } (.simt m.team m.idx) fun (t : Thread) => { t with
      mx := t.mx.map fun o => if o.op = m.out && !o.signed then { o with done := true } else o }
    Occurs (.mloadMovementEnd core) s ((r.setRows m.team m.idx m.tile
      ((List.range 128).map fun k => (s.store (.team m.team)).word (m.off + 4 * k))).startMove core s.time))
  ∧ ∀ core s, (s.core core).ticks < s.clock / 1024 →
    let last := s.clock / 1024
    let r := s.modCore core fun c => { c with ticks := last }
    ((s.teams.any fun t => t.2.core = core) = false → Occurs (.energyTick core) s r)
    ∧ ∀ n t l, (s.core core).ticks + 1 = last → (s.teams.filter fun t => t.2.core = core) = [(n, t)] → s.launches.find t.launch = some l →
      0 < l.lanes → Occurs (.energyTick core) s
        ((r.chargeAt core l.eid (staticEnergy (Tab.getD s.power (sliceOf core) {}).eff) (1024 * last)).count core l.eid 1 1024)

/-- R51, R52, R174, R176: 16 clocks after its grant a pass has given every element of its tile the value of the pass over the operands
that it read, on the element before it or on +0 with Z = 1, but for the rows that Table 8.2 has spoilt; no element of another tile or team,
and no byte of memory, changes. -/
def Obligations.PassResult : Prop :=
  ∀ quad p o t s, ((s.quad quad).table.find? fun p => (match p.grant with | some g => decide (g + 16 ≤ s.clock) | none => false)
      && !s.moves.any fun m => m.team = p.team && m.tile = p.tile) = some p →
    s.ops.find p.op = some o → s.teams.find p.team = some t → o.spoilt = false → (o.ctl.z = true ∨ t.tpoison = []) →
    ∃ u t', exec (.passComplete quad) s = .next u ∧ u.teams.find p.team = some t'
      ∧ (∀ r j, r < 64 → j < 64 → o.rows.contains (32 * p.tile + r / 2) = false → Tab.getD t'.tiles (tileKey p.tile r j) 0 =
          passElem o.ctl p r j (if o.ctl.z then 0 else Tab.getD t.tiles (tileKey p.tile r j) 0))
      ∧ (∀ k, k / 4096 ≠ p.tile → Tab.getD t'.tiles k 0 = Tab.getD t.tiles k 0)
      ∧ (∀ n, n ≠ p.team → u.teams.find n = s.teams.find n) ∧ u.mem = s.mem

/-- R160-R164, R231-R235, R241-R245, R248, R251-R256, R348, Table 10.3: a walker's next index goes to the first core of its slice with room as
one team, or to an item queue; a persistent launch's teams take every free place; a team whose threads have all retired leaves with its
resources; a split request waits its turn and gives a core's slice a walker of half the largest range; the oldest REFILL of a core that waits
takes an item or the end marker, and a FETCHW a tile, the stop marker or, from then on, the exhausted marker; a launch all of whose indices are done completes, and one with an error is dropped; placements of one PRI go round the enclaves in a
weighted cycle. Rests on the readings of assumptions 34, 70 and 71. -/
def Obligations.DispatchEvents : Prop :=
  (∀ n l core slot (s : State) u, s.launches.find n = some l → s.placing l = true → l.cshape = 0 → s.room l core = some slot →
    s.walkersOn n (core / 384) ≠ [] → s.poolTakes (core / 384) l 1 = true → s.outranked l core = false →
    (∀ k, k < core - core / 384 * 384 → s.room l (core / 384 * 384 + k) = none) → (l.cbytes = 0 ∨ l.quads.contains (core / 4) = true) →
    s.release' n l (core / 384) [core] none = some u → Occurs (.teamPlace n core) s u)
  ∧ (∀ now eids x, turnOf now eids = some x → x ∈ eids
    ∧ (0 < now.2 → now.1 ∈ eids → x = now.1)
    ∧ ((now.2 = 0 ∨ now.1 ∉ eids) → (∀ y ∈ eids, now.1 < y → now.1 < x ∧ x ≤ y) ∧ ((∀ y ∈ eids, y ≤ now.1) → ∀ y ∈ eids, x ≤ y)))
  ∧ (∀ key eid e (s : State), s.encls.find eid = some e →
    let now : Nat × Nat := Tab.getD s.turns key (0, 0)
    (s.takeTurn key eid).turns.find key = some (eid, (if now.1 = eid ∧ 0 < now.2 then now.2 else e.weight) - 1))
  ∧ (∀ n l slice row col (s : State) u, s.launches.find n = some l → s.placing l = true → l.cshape ≠ 0 → s.rectFits l slice row col = true →
    s.walkersOn n slice ≠ [] →
    let cores := rectCores l.cshape slice row col
    s.poolTakes slice l cores.length = true → cores.any (s.outranked l) = false → s.lowerRect l slice row col = false → l.cbytes = 0 →
    { s with serial := s.serial + 1 }.release' n l slice cores (some s.serial) = some u → Occurs (.clusterPlace n slice row col) s u)
  ∧ (∀ (s : State) n (l : Launch) core slot cluster m x w i, i < 32 * l.groups → findThread s.threads (.simt s.serial i) = none → s.cur ≠ .simt s.serial i →
    let u := s.addTeam n l core slot cluster m x w
    u.thread? (.simt s.serial i) = some { eid := .ofNat 16 l.eid, cb := .ofNat 64 l.code, w := l.entryOf (i / 32), level := .e
                                          allot := l.regsOf (i / 32), readyAt := s.time }
    ∧ ∃ t, u.teams.find s.serial = some t ∧ t.launch = n ∧ t.core = core ∧ t.slot = slot ∧ t.member = m ∧ t.coords = x ∧ t.groups = l.groups
      ∧ t.store = {} ∧ t.tiles = [])
  ∧ (∀ slice num w l c (s : State), s.walkers.find? (fun x => x.is slice num) = some w → s.launches.find w.launch = some l → s.placing l = true →
    let r := s.dispense w l
    (l.item = true → s.hungryCore w.launch slice = some c → Occurs (.walkerDispense slice num) s
      (r.1.modCore c fun k => { k with items := k.items ++ (List.range l.nitems).map fun i => (w.launch, r.2, i) }))
    ∧ (l.item = false → l.pers = false → l.cshape = 0 →
      ((List.range Config.coresPerSlice).map (slice * 384 + ·)).find? (fun c => (s.room l c).isSome) = some c →
      s.outranked l c = false → s.poolTakes slice l 1 = true → (l.cbytes = 0 ∨ l.quads.contains (c / 4) = true) →
      ∀ slot, s.room l c = some slot → Occurs (.walkerDispense slice num) s
        ((r.1.addTeam w.launch l c slot none 0 (some r.2) none).takeTurn l.cycle l.eid)))
  ∧ (∀ n t (s : State), s.teams.find n = some t → t.done = false → s.teamDone n t = true → t.cluster = none →
    Occurs (.teamDone n) s (s.dropTeam n) ∧ (s.dropTeam n).teams.find n = none)
  ∧ (∀ n t c (s : State), s.teams.find n = some t → t.done = false → s.teamDone n t = true → t.cluster = some c →
    let r := s.modTeam n fun t => { t with done := true }
    let members := r.teams.filter fun p => p.2.cluster = some c
    (members.all (fun p => p.2.done) = true → Occurs (.teamDone n) s (members.foldl (fun s p => s.dropTeam p.1) r))
    ∧ (members.all (fun p => p.2.done) = false → Occurs (.teamDone n) s r))
  ∧ (∀ n l core (s : State), s.launches.find n = some l → l.error = none → s.inPart l.lead (core / 384) = true →
    let serves := s.placing l && !s.paused.contains l.lead
    (s.wantsSplit n l core = true → (l.retry.any fun r => r.1 = core) = false → l.splits = [] →
      (serves = true → Occurs (.splitRequest n core) s (s.split n l core))
      ∧ (serves = false → Occurs (.splitRequest n core) s (s.modLaunch n fun l => { l with splits := l.splits ++ [core] })))
    ∧ (∀ rest, l.splits = core :: rest → serves = true → Occurs (.splitRequest n core) s (s.split n l core))
    ∧ ((l.retry.any fun r => r.1 = core && r.2 ≤ s.time) = true → l.splits = [] →
      let l' : Launch := { l with retry := l.retry.filter (·.1 ≠ core) }
      let r := s.modLaunch n fun _ => l'
      r.inPart l.lead (core / 384) = true → r.wantsSplit n l core = true → (r.placing l' && !r.paused.contains l'.lead) = true →
        Occurs (.splitRetry n core) s (r.split n l' core)))
  ∧ (∀ (u : State) n (l : Launch) core v f,
    let s := u.modLaunch n fun l => { l with splits := l.splits.filter (· ≠ core) }
    splitVictim (s.walkers.filter fun w => w.launch = n && 2 * l.minSplit ≤ w.fin - w.cur) = some v →
    freeWalker s s.busyWalkers (core / 384) = some f →
    let mid := v.cur + (v.fin - v.cur + 1) / 2
    u.split n l core = ((s.putWalker (Walker.pass { v with fin := mid } l)).putWalker
      (Walker.pass ⟨core / 384, f, n, mid, v.fin, 0⟩ l)).modLaunch n fun l => { l with spl := true, retry := l.retry.filter (·.1 ≠ core) })
  ∧ (∀ team idx tm l a (s : State), s.teams.find team = some tm → s.launchOfTeam team = some l → l.error = none →
    s.oldestAsk tm.core tm.launch = some a → a.tid = .simt team idx →
    ((takeItem tm.launch (s.core tm.core).items).isSome = true → Occurs (.refillItem team idx) s
      (s.onThread a.tid fun s => s.wakeFrom (((s.giveItem a.tid tm.launch a.dst).getD s).dropAsk tm.core a)))
    ∧ (takeItem tm.launch (s.core tm.core).items = none → s.walkersOn tm.launch (tm.core / 384) = [] → l.sealedW = [] →
      l.split = true → l.noRange.contains tm.core = true → Occurs (.refillItem team idx) s
        (s.onThread a.tid fun s => s.wakeFrom (State.dropAsk { s with th := { s.th with
          results := s.th.results ++ (if a.dst < 0x7C then [⟨a.dst, 0xFFFFFFFF, 0⟩] else []) } } tm.core a))))
  ∧ (∀ team t l r rest (s : State), s.teams.find team = some t → s.launchOfTeam team = some l → t.fetches = r :: rest → l.error = none →
    (t.stopped = true → Occurs (.fetchwServe team) s
      ((s.modTeam team fun t => { t with stopped := true }).mailbox team t l.eid r [0xFFFFFFFE, 0, 0, 0]))
    ∧ (t.stopped = false → (∀ e, s.encls.find l.eid = some e → e.soft = none) → t.spent = true →
      Occurs (.fetchwServe team) s ((s.modTeam team fun t => { t with spent := true }).mailbox team t l.eid r [0xFFFFFFFF, 0, 0, 0]))
    ∧ (t.stopped = false → (∀ e, s.encls.find l.eid = some e → e.soft = none) → t.spent = false → s.stoppedDispensing l = false →
      (∀ w, s.servingWalker t = some w →
        let x := s.dispense w l
        Occurs (.fetchwServe team) s ((x.1.modTeam team fun t => { t with serving := some (w.slice, w.num) }).mailbox team t l.eid r
          ((List.range 4).map fun d => if l.rank ≤ d then 0 else x.2.getD d 0)))
      ∧ (s.servingWalker t = none → (l.split = false ∨ l.noRange.contains t.core = true) →
        Occurs (.fetchwServe team) s ((s.modTeam team fun t => { t with spent := true }).mailbox team t l.eid r [0xFFFFFFFF, 0, 0, 0]))))
  ∧ (∀ n l (s : State) u, s.launches.find n = some l → l.error = none → l.waits = none → l.splits = [] → (s.walkers.any fun w => w.launch = n) = false → l.sealedW = [] →
    l.doneT + l.credit = l.total → (s.teams.any fun t => t.2.launch = n) = false →
    (∀ e, s.encls.find l.eid = some e → (e.images.any fun i => i.team.launch = n) = false) →
    (s.finishLaunch n l = some u → Occurs (.launchComplete n) s u)
    ∧ (l.signal = 0 → l.cbar = 255 → s.waitsForHold (fun x => x.ofContext l.space) = false → Occurs (.launchComplete n) s
      ((s.releaseContext l.space).1.closeLaunch n l (s.releaseContext l.space).2)))
  ∧ ∀ n l e (s : State), s.launches.find n = some l → l.error = some e → l.waits = none →
    let u := (s.dropLaunch n l).settleBusy
    ((u.teams.any fun t => t.2.launch = n) = true → Occurs (.terminalTrapEnd n) s u)
    ∧ ((u.teams.any fun t => t.2.launch = n) = false → Occurs (.terminalTrapEnd n) s ((u.finishLaunch n l).getD u))

/-- R246, R247, R259, R342, R344, R345, R347, R348, R350: a held kick is taken with the next sequence number and its record is read; the
head of a queue starts when its walkers, its dependences and its pool allow, no head of higher PRI can start and its enclave has the turn, or completes with the
error that it has; a mark behind every earlier entry writes its signal and makes its count; a boundary is asked for and given up. Rests on
the readings of assumptions 30, 31 and 71. -/
def Obligations.QueueEvents : Prop :=
  (∀ slice queue q i v rest (s : State), queue < 256 → s.paused.contains slice = false → s.queues.find (256 * slice + queue) = some q →
    readsNext s q (256 * slice + queue) = none → q.held = (i, v) :: rest → q.occ < 256 →
    let qn := 256 * slice + queue
    let e : Entry := ⟨q.seq + 1, v.getLsbD 0, v &&& ~~~(0x7F : Dword), [], none, none, false, false, none, false⟩
    let r := State.onThread { s with queues := s.queues.put qn { q with seq := q.seq + 1, held := rest, entries := q.entries ++ [e] } } i
      fun s => s.wakeFrom { s with th := { s.th with kick := none } }
    Occurs (.kickTake slice queue) s ((readEntryOf r q qn e).1.setEntry qn (readEntryOf r q qn e).2))
  ∧ (∀ slice queue q e es (s : State), queue < 256 → s.paused.contains slice = false → s.queues.find (256 * slice + queue) = some q →
    let qn := 256 * slice + queue
    q.entries = e :: es → e.unread = true → (readEntryOf s q qn e).2 ≠ e →
    Occurs (.kickTake slice queue) s ((readEntryOf s q qn e).1.setEntry qn (readEntryOf s q qn e).2))
  ∧ (∀ q qn (s : State), (∀ e ∈ q.entries, e.unread = true → (readEntryOf s q qn e).2 = e) → readsNext s q qn = none)
  ∧ (∀ slice queue q e (s : State), queue < 256 → s.paused.contains slice = false → partEn (s.part slice) = true →
    s.queues.find (256 * slice + queue) = some q → q.stopped = false → s.cpStopped slice = false → q.failing = none → q.head = some e → e.heldOn = none → e.unread = false →
    let qn := 256 * slice + queue
    let i := Instr.entryStart slice queue
    let r := s.takeTurn (16 * slice + 7) q.owner
    (e.mark = true → s.queueBefore qn q 7 = false → e.blind = false → Occurs i s (r.setEntry qn { e with begun := true }))
    ∧ (e.mark = true → s.queueBefore qn q 7 = false → e.blind = true → Occurs i s (r.dropEntry qn e.seq 0))
    ∧ (e.mark = false → e.error.isSome = true → ∀ u, s.failEntry q qn e = some u → Occurs i s u)
    ∧ (e.mark = false → e.error.isSome = true → e.blind = true → Occurs i s (s.dropEntry qn e.seq 0))
    ∧ (e.mark = false → e.error = none → ∀ ws, startable s q qn e = some ws →
      let pri := (recordOf q qn e.seq e.words).pri
      s.queueBefore qn q pri = false → Occurs i s ((s.startLaunch q qn e ws).takeTurn (16 * slice + pri) q.owner)))
  ∧ (∀ slice queue seq q e (s : State), s.queues.find (256 * slice + queue) = some q → q.entries.find? (fun e => e.seq == seq) = some e →
    e.mark = true → e.begun = true → e.heldOn = none → s.paused.contains slice = false → q.stopped = false →
    s.cpStopped slice = false → (q.entries.any fun x => x.seq < seq) = false →
    let qn := 256 * slice + queue
    let now := s.timestamp q.owner false
    let h := markBar e.words
    let done (s : State) (sig : Sig) : State := State.dropEntry (if 192 ≤ h && h ≤ 254 then s.countHandle slice q.space h sig else s) qn seq 0
    (e.mute = true → Occurs (.markComplete slice queue seq) s (done s q.sig))
    ∧ (e.mute = false → ∀ r bs, writeSignal s slice q.space e.va.toNat (signalBytes seq now now (e.error.getD 0) 0) q.sig = .ok r bs →
      Occurs (.markComplete slice queue seq) s (done r (q.sig ||| sigOf (e.va.toNat / 128)))))
  ∧ (∀ slice (s : State), s.paused.contains slice = false → partEn (s.part slice) = true →
    Occurs (.quiesceRequest slice) s { s with paused := slice :: s.paused })
  ∧ ∀ slice (s : State), s.paused.contains slice = true →
    Occurs (.quiesceRelease slice) s { s with paused := s.paused.filter (· ≠ slice) }
      ∧ (s.paused.filter (· ≠ slice)).contains slice = false

/-- R257, R258, R379-R389, R392, R397, R460: PREEMPT's four actions on a live enclave while no earlier one is busy; the end of a soft
request, its two deadlines and a time slice; the return of sealed work; writes of PART, QUADSVC, CEOWN and BLKMOVE; the resize of a
partition. Rests on the readings of assumptions 51 to 55. -/
def Obligations.ContextEvents : Prop :=
  (∀ eid e (s : State), s.reg.preBusy = false → s.liveEncl (BitVec.toNat eid) = some e →
    (e.ordered = true →
      let t := (s.notePreempt 0 eid false).modEncl eid.toNat fun e => { e with ordered := false }
      Occurs (.preemptResume eid) s (if s.ckHolds eid.toNat e then t else
        (t.modEncl eid.toNat fun e => { e with halted := false, tsvAt := if e.failed then none else some s.ns }).restoreClock eid.toNat))
    ∧ (e.ordered = false → exec (.preemptResume eid) s = .next s)
    ∧ Occurs (.preemptSoft eid) s ((s.notePreempt 1 eid true).softRequest eid.toNat (s.partCores e.lead))
    ∧ Occurs (.preemptHalt eid) s ((s.notePreempt 2 eid true).orderHalt eid.toNat)
    ∧ Occurs (.preemptKill eid) s
      (((((s.notePreempt 3 eid true).killTeams eid.toNat fun _ => true).exitHosts eid.toNat false).endSoft eid.toNat).settleBusy))
  ∧ (∀ eid e x (s : State), s.encls.find eid = some e → e.soft = some x →
    (s.softMet eid e x = true → Occurs (.softRequestEnd eid) s (s.endSoft eid))
    ∧ (s.softMet eid e x = false → exec (.softRequestEnd eid) s = .next s)
    ∧ (((s.contextTeams eid).any fun p => x.cores.contains p.2.core) = true →
      (x.g1 ≤ s.ns → Occurs (.g1Deadline eid) s (s.forceHalt eid))
      ∧ (∀ g, x.g2 = some g → g ≤ s.ns → Occurs (.g2Deadline eid) s (s.killNamed eid)))
    ∧ (((s.contextTeams eid).any fun p => x.cores.contains p.2.core) = false → (e.halted = false ∨ ((s.lines.any fun l => l.sp.eid.toNat = eid) = false ∧ (s.hosts.any fun h => h.2.entered.any (·.1 = eid)) = false)) →
      s.reg.preempt.toNat % 65536 = eid →
      s.endSoft eid = { s.modEncl eid (fun e => { e with soft := none }) with reg := { s.reg with preBusy := false } }))
  ∧ (∀ eid core e (s : State), s.encls.find eid = some e →
    let slice := (s.part e.lead).toNat / 2 ^ 16 % 65536
    slice ≠ 0 → ((s.contextTeams eid).any fun p => p.2.core = core) = true → slice * 1000 ≤ s.residence eid core →
    ((s.teams.filter fun p => p.2.core = core).any fun p => s.residence eid core < s.residence (s.eidOfTeam p.1) core) = false →
    (s.launches.any fun p => s.displacer eid core p.1 p.2) = true → Occurs (.timeSliceExpiry eid core) s (s.softRequest eid [core]))
  ∧ (∀ eid core e (s : State), s.encls.find eid = some e → e.restorable = true →
    let ls := s.launches.filter fun p => p.2.eid = eid && p.2.error.isNone && (!p.2.sealedW.isEmpty || p.2.image.isSome)
    (ls ≠ [] ∨ e.images ≠ []) →
    let bad := s.digestFails e || ls.any fun p => p.2.image.any s.frameImageFails
    ((ls = [] ∨ bad = false) →
      let r := ls.foldl (fun s p => s.restoreWalkers p.1 p.2) (s.restoreClock eid)
      Occurs (.contextRestore eid core) s ((r.restoreAt eid e core).getD r))
    ∧ (ls ≠ [] → bad = true → Occurs (.contextRestore eid core) s (s.failEnclave eid)))
  ∧ (∀ slice v (s : State), Occurs (.partWrite slice v) s (s.writePart slice v)
    ∧ (v.toNat / 2 ^ 12 % 16 ≠ 0 ∨ v.toNat / 2 % 128 ≠ 0 → s.writePart slice v = s)
    ∧ (v.toNat / 2 ^ 12 % 16 = 0 → v.toNat / 2 % 128 = 0 → slice < Config.slices → s.reg.resize.find slice = none → v.toNat % 2 = 1 →
      partFields slice v.toNat = true → s.overlaps' slice (slice + partSize v) = false → partEn (s.part slice) = false →
      s.writePart slice v = { s with reg := { s.reg with part := s.reg.part.put slice v } }))
  ∧ (∀ slice v (s : State), s.reg.resize.find slice = some v →
    let cores := leavingCores slice (s.part slice) v
    (s.teams.filter (fun p => cores.contains p.2.core) = [] → s.paused.contains slice = true → Occurs (.partitionResize slice) s
      (State.moveWalkers { s with reg := { s.reg with part := s.reg.part.put slice v, resize := s.reg.resize.del slice } }
        (cores.map (· / 384)).dedup))
    ∧ (∀ n t e, (n, t) ∈ s.teams → cores.contains t.core = true → s.encls.find (s.eidOfTeam n) = some e → e.soft = none →
      Occurs (.partitionResize slice) s (s.softOn cores)))
  ∧ (∀ slice quad (s : State), slice < Config.slices → quad < Config.quadsPerSlice →
    Occurs (.quadsvcOut slice quad) s
      (State.softOn { s with
        reg := { s.reg with quadsvc := .ofNat 17 (65536 + quad * 256 + slice) }
        quads := s.quads.put (96 * slice + quad) { s.quad (96 * slice + quad) with out := true } } (quadCores (96 * slice + quad)))
    ∧ Occurs (.quadsvcIn slice quad) s { s with
        reg := { s.reg with quadsvc := .ofNat 17 (quad * 256 + slice) }
        quads := s.quads.put (96 * slice + quad) { s.quad (96 * slice + quad) with out := (s.quad (96 * slice + quad)).removed } })
  ∧ (∀ engine v (s : State), engine < Config.engines → v.toNat < 512 →
    let same := v.setWidth 8 = (s.ceown engine).setWidth 8
    ((same ∨ (s.boundChans.any fun c => c / 16 = engine) = false) → Occurs (.ceownWrite engine v) s
      { s with reg := { s.reg with ceown := Tab.set s.reg.ceown 0x100 engine v, ceNext := s.reg.ceNext.del engine } })
    ∧ (¬ same → (s.boundChans.any fun c => c / 16 = engine) = true → Occurs (.ceownWrite engine v) s
      { s with reg := { s.reg with ceNext := s.reg.ceNext.put engine v } })
    ∧ ∀ o ch p, (s.chan o ch).phys = some p →
      ((s.ceown (p / 16)).getLsbD 8 = false ∨ ∃ x, s.reg.ceNext.find (p / 16) = some x ∧ x.getLsbD 8 = false) → s.served o ch = none)
  ∧ ∀ v (s : State), v.toNat < 2 ^ 48 → v.toNat / 2 ^ 16 % 2 ^ 15 = 0 →
    (∀ c, blkStatus s v.toNat = some c → Occurs (.blkmove v) s { s with reg := { s.reg with blkStat := c.code } })
    ∧ (blkStatus s v.toNat = none → s.blockHeld (blockFrame v.toNat) = false →
      let m := s.moveBlock (blockFrame v.toNat) (.ofNat 8 (v.toNat / 256))
      Occurs (.blkmove v) s { m with reg := { m.reg with blkmove := v, blkBusy := true, blkStat := 0 } })
    ∧ (blkStatus s v.toNat = none → s.blockHeld (blockFrame v.toNat) = true → exec (.blkmove v) s = .next s)

/-- R318, R359, R365, R372-R377: a scrub leaves the frame zero under its next owner; a rotation takes a new slot, and ends when every
frame has been swept to it; a sweep moves a frame to the new key under new counters; an injection is armed on a line of a debuggable
enclave; an interface is bound; a device request and a flit are translated whole and pinned, or wait on a record, and then move their data;
a flit that fails ends its stream. Rests on the readings of assumptions 48 to 50 and 93. -/
def Obligations.ProtectEvents : Prop :=
  (∀ f (s : State), (s.pot f).state = .scrub → (s.scrubs.any fun x => x.1 = f) = true →
    let r := s.scrubFrame f
    let p := r.pot f
    let u := r.setPot f { p with state := if p.guest = 0 then .free else .guest }
    Occurs (.scrubEnd f) s (State.blockScrubbed { u with scrubs := u.scrubs.filter (·.1 ≠ f) } f))
  ∧ (∀ eid e (s : State), s.liveEncl eid = some e →
    (e.newSlot = none → ∀ k, s.freeSlot = some k → Occurs (.keyRotation eid) s { s.modEncl eid (fun e => { e with newSlot := some (.ofNat 8 k) }) with
      slots := s.slots.put k { loaded := true, guest := e.guest, eid := .ofNat 16 eid, key := 256 + s.keysMade }
      keysMade := s.keysMade + 1 })
    ∧ (∀ k, e.newSlot = some k →
      (s.pots.any fun p => p.2.owner.toNat = eid && (p.2.state.isEncl || p.2.state = .migrating) && p.2.slot ≠ k) = false →
      (s.waitsForHold fun l => l.slot = e.slot) = false →
      let r := s.revoke e.slot
      let q := { r with slots := r.slots.put e.slot.toNat {} }
      Occurs (.keyRotation eid) s (q.modEncl eid fun e => { e with slot := k, newSlot := none, key := r.slotKey k })))
  ∧ (∀ f e (s : State), s.sweeps.find f = none → s.pinned f = false → s.frameBusy f = false → s.encls.find (s.pot f).owner.toNat = some e →
    (∀ k, e.newSlot = some k → (s.pot f).state.isEncl = true → (s.pot f).slot ≠ k →
      Occurs (.sweep ⟨f, none⟩) s { s with sweeps := s.sweeps.put f { q := 0, slot := k } })
    ∧ ∀ d, (s.pot f).state = .encl → (s.pot d).state = .free → d / 2 ^ 24 = f / 2 ^ 24 → s.frameBusy d = false → (s.leafOf f).isSome = true →
      Occurs (.sweep ⟨f, some d⟩) s ({ s with sweeps := s.sweeps.put f { q := 0, slot := (s.pot f).slot, dst := some d, former := .encl } }.setPot f
        { s.pot f with state := .migrating }))
  ∧ (∀ f dst w (s : State), s.sweeps.find f = some w →
    (w.q < 64 → s.unitHolds ((f * 64 + w.q) / 2) = false → s.verifies ((f * 64 + w.q) * 64) 64 = true → ∀ x, x = w.dst.getD f →
      let r := s.grant (x * 64 + w.q)
      Occurs (.sweep ⟨f, dst⟩) s (State.inject { r with sweeps := s.sweeps.put f { w with q := w.q + 1 } } (· = f * 64 + w.q)))
    ∧ (64 ≤ w.q → w.dst = none →
      let r : State := { s with sweeps := s.sweeps.del f }
      Occurs (.sweep ⟨f, dst⟩) s (r.setPot f { s.pot f with slot := w.slot, key := s.slotKey w.slot })))
  ∧ (∀ line (s : State), Occurs (.injtagDisarm line) s { s with reg := { s.reg with injtag := none } }
    ∧ ∀ e, s.liveEncl (s.pot (line.toNat / 64)).owner.toNat = some e →
      ((s.pot (line.toNat / 64)).state = .encl ∨ (s.pot (line.toNat / 64)).state = .discarded) → e.ctl.getLsbD 8 = true →
      Occurs (.injtagArm line) s { s with reg := { s.reg with injtag := some line } })
  ∧ (∀ tdi eid e (s : State), s.liveEncl eid = some e →
    let t : Tdi := Tab.getD s.tdis tdi {}
    (t.state = .unlocked → tdi < 4 * 65536 → (s.tdis.filter fun p => p.1 / 65536 = tdi / 65536 && p.2.bound).length < 16 →
      Occurs (.startInterfaceRequest tdi eid) s { s with
        keysMade := s.keysMade + 1
        tdis := s.tdis.put tdi { state := .locked, eid := eid, guest := e.guest, meas := Config.deviceMeasurement s.fresh tdi
                                 ide := some s.keysMade } })
    ∧ (t.state = .locked → t.eid = eid →
      (t.meas ∈ e.devices → Occurs (.startInterfaceRequest tdi eid) s { s with tdis := s.tdis.put tdi { t with state := .run } })
      ∧ (t.meas ∉ e.devices → exec (.startInterfaceRequest tdi eid) s = .next s)))
  ∧ (∀ tdi tbit va write data (s : State),
    let t : Tdi := Tab.getD s.tdis tdi {}
    let agent := (7, tdi % 65536)
    let sp : Space := if tbit && t.state = .run then ⟨t.guest, .ofNat 16 t.eid, 0⟩ else ⟨t.guest, 0, s.guestRoot t.guest⟩
    let d : Dma := { tdi := tdi, tbit := tbit, va := BitVec.toNat va, write := write, data := data, sp := sp, at_ := [] }
    let i := Instr.tdispDmaRequest tdi tbit va write data
    (s.dmas.find? d.same = none → t.state ≠ .error →
      (∀ r at_, plan s agent sp write (data.length + 1) va.toNat data.length = .ok r at_ → r.canPin (planFrames at_) = true →
        Occurs i s ((r.putDma { d with at_ := at_ }).pin (planFrames at_)))
      ∧ (∀ r link, plan s agent sp write (data.length + 1) va.toNat data.length = .wait r (some link) →
        Occurs i s (r.putDma { d with waits := some link }))
      ∧ ∀ r, plan s agent sp write (data.length + 1) va.toNat data.length = .bad r → Occurs i s (r.dropDma d))
    ∧ (∀ x, s.dmas.find? d.same = some x → t.state ≠ .error → x.waits = none → (x.at_ ≠ [] ∨ x.data = []) →
      (x.write && x.at_.any fun p => s.lineHeldAt (p.1 / 128)) = false →
      Occurs i s (transferAt ((s.dropDma x).unpin (planFrames x.at_)) agent x.sp x.write x.at_ x.va x.data))
    ∧ (s.dmas.any d.same = false → t.state = .error →
      Occurs i s (s.terminalRecord (homeOf va.toNat) (faultRec ⟨t.guest, .ofNat 16 t.eid, 0⟩ .dma agent va.toNat 11 0))))
  ∧ ∀ link stream va data e (s : State),
    let l : Link := Tab.getD s.links link {}
    let x := Tab.getD l.streams stream (0, true)
    let eid := l.localEid stream
    let sp : Space := ⟨e.guest, .ofNat 16 eid, 0⟩
    let agent := (6, link * 4096 + stream % 4096)
    let d : Dma := { tdi := agent.2, tbit := true, va := BitVec.toNat va, write := true, data := data, sp := sp, at_ := [], link := true }
    let put (v : Nat × Bool) (s : State) : State := { s with links := s.links.put link { l with streams := l.streams.put stream v } }
    s.liveEncl eid = some e →
      (link < 16 → l.up = true → l.secret.isSome = true → stream < 8192 → x.2 = true →
        Occurs (.linkFlitReceive link stream false va data) s
          ((put (x.1, false) s).terminalRecord (4 + link / 2) (faultRec sp .dma agent va.toNat 16 0))
        ∧ (stream < 4096 → s.dmas.any d.same = false → ∀ r at_, plan s agent sp true (data.length + 1) va.toNat data.length = .ok r at_ →
          r.canPin (planFrames at_) = true →
          Occurs (.linkFlitReceive link stream true va data) s (put (x.1 + 1, true) ((r.putDma { d with at_ := at_ }).pin (planFrames at_)))))
      ∧ ∀ y, stream < 4096 → s.dmas.find? d.same = some y → y.waits = none → (y.at_ ≠ [] ∨ y.data = []) →
        (y.write && y.at_.any fun p => s.lineHeldAt (p.1 / 128)) = false → Occurs (.linkFlitReceive link stream true va data) s
          (transferAt ((s.dropDma y).unpin (planFrames y.at_)) agent y.sp y.write y.at_ y.va y.data)

/-- The steps `tripletDissent`, `resyncEnd`, `tripletStop` with the work that it stops, and `tripletRestart` (R415-R418); `uncorrectableError`
at every site, and `quadAutoRemove` (R420-R422); `tandemFailover`, `tandemRejoin` and `tandemSimplexFailure` (R423); `fwupd` (R424, R445);
the clearing writes `frlostClear`, `trstatClear`, `ecccntClear`, `sevcntClear` and `rasstatClear` (R322, R415, R450); and `registerWrite` of each
register that only stores its fields (R321, R348, R379, R415, R427, R450). Each takes effect in every state that meets the conditions given.
Rests on the readings of assumptions 53, 57 and 58. -/
def Obligations.ResilienceEvents : Prop :=
  (∀ trip copy (s : State), tripExists trip = true → copy < 3 → (s.trip (tripKey trip)).duplex = false → (s.trip (tripKey trip)).stop = false →
    Occurs (.tripletDissent trip copy) s ((s.modTrip (tripKey trip) fun t => { t with
      resync := Nat.min (t.resync + 1) (2 ^ 32 - 1), last := copy, duplex := true, since := s.clock }).rasEvent 0))
  ∧ (∀ n t (s : State), s.trips.find n = some t → t.stop = false → t.since + 2048 ≤ s.clock → (s.trip n).duplex = false)
  ∧ (∀ trip (s : State), (s.trip (tripKey trip)).duplex = true → (s.trip (tripKey trip)).stop = false →
    Occurs (.resyncEnd trip) s (s.modTrip (tripKey trip) fun t => { t with duplex := false }))
  ∧ (∀ trip (s : State), tripExists trip = true → (s.trip (tripKey trip)).stop = false → Occurs (.tripletStop trip) s
    (((s.modTrip (tripKey trip) fun t => { t with stop := true }).stopWork trip).rasEvent 1))
  ∧ (∀ trip (s : State),
    (trip.kind = 0 → ∃ u : State, s.stopWork trip = u ∧ u.mem = s.mem ∧ u.queues = s.queues.map fun p =>
      if p.1 / 256 = trip.slice.toNat then (p.1, { p.2 with stopped := true }) else p)
    ∧ (∀ w, trip.kind = 1 → s.walkers.find? (fun w => w.is trip.slice.toNat trip.index.toNat) = some w →
      s.stopWork trip = s.endLaunch w.launch 0x202)
    ∧ (trip.kind = 3 → s.stopWork trip = s))
  ∧ (∀ trip (s : State), (s.trip (tripKey trip)).stop = true → s.tandem.failed = false →
    let r := s.modTrip (tripKey trip) fun t => { t with stop := false, duplex := false }
    Occurs (.tripletRestart trip) s (if trip.kind = 0 then r.releaseQueues trip.slice.toNat else r))
  ∧ (∀ t x code (s : State), s.thread? t = some x → code < 0x7C → Occurs (.uncorrectableError (.register t code)) s
    ((s.modThread t fun x => { x with poison := code :: x.poison.filter (· ≠ code) }).coreError 0 (s.coreIx t) true))
  ∧ (∀ n e (s : State), s.log.find? (fun e => e.num == n) = some e → Occurs (.uncorrectableError (.operandLog n)) s
    (State.coreError { s with log := s.log.map fun x => if x.num = n then { x with poison := true } else x } 0 e.core true))
  ∧ (∀ o w (s : State), 4 * w < s.spadSize o → Occurs (.uncorrectableError (.scratch o w)) s
    ((s.modStore o fun x => { x with poison := w :: x.poison.filter (· ≠ w) }).coreError 1 (s.ownerCore o) true))
  ∧ (∀ o h (s : State), ((s.store o).bars.find h).isSome = true → Occurs (.uncorrectableError (.barrier o h)) s
    ((s.modStore o fun x => { x with bars := x.bars.map fun b => if b.1 = h then (h, { b.2 with poison := true }) else b }).coreError 1
      (s.ownerCore o) true))
  ∧ (∀ team key t (s : State), s.teams.find team = some t → Occurs (.uncorrectableError (.tile team key)) s
    ((s.modTeam team fun x => { x with tpoison := key :: x.tpoison.filter (· ≠ key) }).coreError 3 t.core true))
  ∧ (∀ op q x b (s : State), s.quads.find? (fun q => q.2.bufs.any (·.op = op)) = some (q, x) → x.bufs.find? (·.op = op) = some b →
    Occurs (.uncorrectableError (.bBuffer op)) s ((s.modQuad q fun x => { x with
      bufs := x.bufs.map fun y => if y.op = op then { y with poison := true } else y }).coreError 3 b.core true))
  ∧ (∀ core line (s : State),
    let hit (l : Line) : Bool := l.core = core && l.va = line
    (s.lines.any hit = true → (s.lines.any fun l => hit l && !l.dirty.isEmpty) = false →
      ∃ u : State, Occurs (.uncorrectableError (.l1 core line)) s (u.coreError 2 core false) ∧ u.lines.any hit = false ∧ u.mem = s.mem)
    ∧ ((s.lines.any fun l => hit l && !l.dirty.isEmpty) = true →
      ∃ u : State, Occurs (.uncorrectableError (.l1 core line)) s (u.coreError 2 core true) ∧ u.mem = s.mem
        ∧ ∀ l ∈ u.lines, hit l = true → l.dirty.all l.poison.contains = true)
    ∧ (s.ilines.any hit = true → Occurs (.uncorrectableError (.roLine true core line)) s
      (State.coreError { s with ilines := s.ilines.filter (!hit ·) } 2 core false))
    ∧ (s.clines.any hit = true → Occurs (.uncorrectableError (.roLine false core line)) s
      (State.coreError { s with clines := s.clines.filter (!hit ·) } 2 (4 * core) false)))
  ∧ (∀ sp page (s : State),
    let hit (t : Tlb) : Bool := t.sp = sp && t.page = page
    s.tlb.any hit = true → Occurs (.uncorrectableError (.tlb sp page)) s
      (State.eccError { s with tlb := s.tlb.filter (!hit ·) } 5 (homeOf (page * 4096)) false))
  ∧ (∀ slice copy trip (s : State), copy < 3 → (slice < Config.slices →
      Occurs (.uncorrectableError (.counterCache slice)) s (s.eccError 5 slice false)
      ∧ Occurs (.uncorrectableError (.queueEntry slice copy)) s ((s.eccError 5 slice false).copyError ⟨0, .ofNat 4 slice, 0⟩ copy))
    ∧ Occurs (.uncorrectableError (.journal copy)) s ((s.eccError 7 0 true).copyError ⟨3, 0, 0⟩ copy)
    ∧ (tripExists trip = true → Occurs (.uncorrectableError (.tripletState trip copy)) s (s.copyError trip copy)
      ∧ ((s.trip (tripKey trip)).stop = false → (s.trip (tripKey trip)).duplex = false → s.copyError trip copy = s.resyncStart (tripKey trip) copy)
      ∧ ((s.trip (tripKey trip)).stop = false → (s.trip (tripKey trip)).duplex = true → (s.trip (tripKey trip)).last ≠ copy →
        s.copyError trip copy = s.stopTriplet trip)))
  ∧ (∀ pa (s : State), pa / 2 ^ 36 < Config.slices →
    ((s.l2.any fun l => l.line = pa / 128) = false → pa % 2 ^ 36 < Config.ctreeBase → Occurs (.uncorrectableError (.hbm pa)) s
      { s with badTags := pa / 64 :: s.badTags.filter (· ≠ pa / 64) })
    ∧ Occurs (.uncorrectableError (.l2 pa)) s ((s.eccError 4 (pa / 2 ^ 36) true).poisonFrame (pa / 4096) (s.pot (pa / 4096)).space .read 0
      (pa / 2 ^ 36) (4, pa / 2 ^ 36 * 2 ^ 28)))
  ∧ (∀ slice m (s : State), slice < Config.slices → m < 4096 → Occurs (.uncorrectableError (.rootStore slice m)) s
    ((s.eccError 6 slice true).poisonMany ((List.range 4096).map (slice * 2 ^ 24 + m * 4096 + ·)) slice))
  ∧ (∀ b (s : State), let r := s.eccError 7 0 true
    (s.tandem.failed = true → Occurs (.uncorrectableError (.tandem b)) s r)
    ∧ (s.tandem.failed = false → b = s.tandem.activeB → Occurs (.uncorrectableError (.tandem b)) s r.tandemDown)
    ∧ (s.tandem.failed = false → b ≠ s.tandem.activeB → Occurs (.uncorrectableError (.tandem b)) s
      { r with tandem := { r.tandem with standby := false } }))
  ∧ (∀ cls slice (s : State), cls < 8 → slice < Config.slices →
    Occurs (.uncorrectableError (.clean cls slice none)) s (s.eccError cls slice false)
    ∧ ∀ q, q < Config.quadsPerSlice → Occurs (.uncorrectableError (.clean cls slice (some q))) s
      ((s.eccError cls slice false).modQuad (96 * slice + q) fun x => { x with corr := s.ns :: x.corr }))
  ∧ (∀ slice quad (s : State), slice < Config.slices → quad < Config.quadsPerSlice → (s.quad (96 * slice + quad)).out = false →
    ((s.quad (96 * slice + quad)).uncorr = true ∨ 64 < ((s.quad (96 * slice + quad)).corr.filter fun t => s.ns < t + 3600000000000).length) →
    Occurs (.quadAutoRemove slice quad) s
      (((s.modQuad (96 * slice + quad) fun x => { x with uncorr := false, corr := [] }).quadOut (96 * slice + quad)).rasEvent 3))
  ∧ (∀ (s : State), s.tandem.standby = true → s.tandem.failed = false →
    Occurs .tandemFailover s (State.rasEvent { s with tandem := { s.tandem with activeB := !s.tandem.activeB, standby := false } } 4))
  ∧ (∀ (s : State), s.tandem.standby = false → s.tandem.failed = false →
    Occurs (.tandemRejoin true) s { s with tandem := { s.tandem with standby := true, simplex := false } }
    ∧ Occurs (.tandemRejoin false) s (State.rasEvent { s with tandem := { s.tandem with simplex := true } } 5))
  ∧ (∀ (s : State), s.tandem.simplex = true → s.tandem.failed = false → Occurs .tandemSimplexFailure s s.tandemDown)
  ∧ (∀ v (s : State), s.tandem.update = none → v.toNat / 2 ^ 48 ≠ 0 → v.toNat % 4096 = 0 →
    Occurs (.fwupd v) s { s with tandem := { s.tandem with update := some v } })
  ∧ (∀ v (s : State), s.tandem.update = some v →
    (s.tandem.standby = false → Occurs (.fwupd v) s (s.endUpdate 5))
    ∧ (s.tandem.standby = true → fwImage s v.toNat = none → Occurs (.fwupd v) s (s.endUpdate 2))
    ∧ (∀ f, s.tandem.standby = true → fwImage s v.toNat = some f →
      (∀ k, k < Config.slices → partEn (s.part k) = true → s.paused.contains k = true) →
      Occurs (.fwupd v) s (
        if Config.firmwareSigned f.message f.sig = false then s.endUpdate 2
        else if f.rollback < s.tandem.minRoll then s.endUpdate 3
        else match Config.conversion f.bytes s.tandem.version with
          | none => s.endUpdate 4
          | some ver => State.endUpdate { s with tandem := { s.tandem with
              activeB := !s.tandem.activeB, version := ver % 65536, commit := if f.commit then some f.rollback else none
              digest := some (keyOf (sha256 f.message)) } } 1))
    ∧ (∀ f ver, s.tandem.standby = true → fwImage s v.toNat = some f → Config.firmwareSigned f.message f.sig = true →
      s.tandem.minRoll ≤ f.rollback → Config.conversion f.bytes s.tandem.version = some ver → s.unpaused ≠ [] →
      Occurs (.fwupd v) s { s with paused := s.unpaused ++ s.paused, tandem := { s.tandem with quiet := s.tandem.quiet ++ s.unpaused } })
    ∧ ∀ n, (s.endUpdate n).tandem.update = none ∧ (s.endUpdate n).paused = s.paused.filter fun k => !s.tandem.quiet.contains k)
  ∧ (∀ (s : State), Occurs .frlostClear s { s with reg := { s.reg with frlost := 0 } }
    ∧ Occurs .trstatClear s (s.modTrip (s.reg.trsel.toNat % 4096) fun t => { t with resync := 0, last := 3 })
    ∧ Occurs .ecccntClear s { s with reg := { s.reg with eccCnt := s.reg.eccCnt.del s.eccKey } }
    ∧ Occurs .sevcntClear s { s with reg := { s.reg with sevcnt := s.reg.sevcnt.del s.sevKey } }
    ∧ ∀ v, v.toNat < 128 → Occurs (.rasstatClear v) s { s with reg := { s.reg with rasstat := s.reg.rasstat &&& ~~~(v.setWidth 7) } })
  ∧ ∀ v (s : State),
    (v.toNat / 2 ^ 48 = 0 → v.toNat % 4096 = 0 → Occurs (.registerWrite 0x1000 v) s { s with reg := { s.reg with frtab := v } })
    ∧ (v.toNat / 2 ^ 48 = 0 → v.toNat % 256 = 0 → Occurs (.registerWrite 0x3060 v) s { s with reg := { s.reg with gptab := v } })
    ∧ (v.toNat < 4096 → v.toNat % 256 ≠ 0 → Occurs (.registerWrite 0x1008 v) s
      { s with reg := { s.reg with frwt := Tab.set s.reg.frwt 0 (v.toNat % 256) (v.toNat / 256) } })
    ∧ (v.toNat < 2 ^ 20 → 2 ^ 16 ≤ v.toNat → Occurs (.registerWrite 0x3068 v) s
      (s.modEncl (v.toNat % 65536) fun e => { e with weight := v.toNat / 2 ^ 16 }))
    ∧ (v.toNat < 2 ^ 16 → v.toNat / 16 % 16 = 0 → v.toNat % 16 < Config.slices → Occurs (.registerWrite 0x3200 v) s
      { s with reg := { s.reg with slsel := v } })
    ∧ (v.toNat < 2 ^ 29 → v.toNat / 65536 ≤ 4703 → Occurs (.registerWrite 0x3300 v) s
      (let e := s.energy (enqCore (v.toNat / 65536)) (v.toNat % 65536)
       { s with reg := { s.reg with enqsel := v, enqval := .ofNat 64 (bit e.2 * 2 ^ 63 + e.1) } }))
    ∧ (trselFields v.toNat = true → Occurs (.registerWrite 0x4000 v) s { s with reg := { s.reg with trsel := v } })
    ∧ (v.toNat < 65536 → Occurs (.registerWrite 0x5000 v) s { s with reg := { s.reg with cksel := v } })
    ∧ (v.toNat < 2 ^ 24 → irqFields (v.toNat % 2 ^ 16) = true → 85 ≤ v.toNat / 2 ^ 16 % 256 → v.toNat / 2 ^ 16 % 256 ≤ 110 →
      Occurs (.registerWrite 0x6060 v) s { s with reg := { s.reg with thrcfg := v } })
    ∧ (v.toNat < 2 ^ 24 → v.toNat / 1024 % 64 = 0 → v.toNat / 2 ^ 20 % 16 < Config.slices → Occurs (.registerWrite 0x6070 v) s
      { s with reg := { s.reg with sevsel := v, sevsrc := s.reg.sevsrc.put (v.toNat / 2 ^ 16) (v.toNat % 1024) } })
    ∧ (∀ k, k < 4 → irqFields v.toNat = true → Occurs (.registerWrite (0x6080 + 8 * k) v) s
      { s with reg := { s.reg with pciecfg := Tab.set s.reg.pciecfg 0 k v } })
    ∧ (∀ o, o ∈ [0x1000, 0x3060, 0x3068, 0x3200, 0x3208, 0x3210, 0x3300, 0x4000, 0x4010, 0x4020, 0x5000, 0x5010, 0x6060, 0x6070] →
      2 ^ 48 ≤ v.toNat → Occurs (.registerWrite o v) s s)
    ∧ (v.toNat < 64 → Occurs (.registerWrite 0x3210 v) s
      { s with reg := { s.reg with share := Tab.set s.reg.share 0 (s.reg.slsel.toNat % 16) (v.setWidth 6) } })
    ∧ (v.toNat < 2 ^ 11 → v.toNat / 16 % 16 = 0 → (v.toNat / 256 = 7 ∨ v.toNat % 16 < Config.slices) → Occurs (.registerWrite 0x4010 v) s
      { s with reg := { s.reg with eccsel := if v.toNat / 256 = 7 then 0x700 else v } })
    ∧ (v.toNat < 65536 → v.toNat ≠ 0 → Occurs (.registerWrite 0x3208 v) s
      { s with reg := { s.reg with waymask := Tab.set s.reg.waymask 0xFFFF s.reg.slsel.toNat (v.setWidth 16) } })
    ∧ (irqFields v.toNat = true → Occurs (.registerWrite 0x4020 v) s { s with reg := { s.reg with rascfg := v } }
      ∧ Occurs (.registerWrite 0x5010 v) s { s with reg := { s.reg with ckirq := v } })
    ∧ ∀ k, k < 12 → areaFields k v.toNat = true →
      Occurs (.registerWrite (0x3240 + 8 * k) v) s { s with reg := { s.reg with svpool := Tab.set s.reg.svpool 0 k v } }
      ∧ Occurs (.registerWrite (0x5040 + 8 * k) v) s { s with reg := { s.reg with ckarea := Tab.set s.reg.ckarea 0 k v } }
      ∧ Occurs (.registerWrite (0x50A0 + 8 * k) v) s { s with reg := { s.reg with ckpool := Tab.set s.reg.ckpool 0 k v } }

/-- R428-R443: a notice reaches a checkpointable enclave and its deadline halts it; a checkpoint halts the context and is formed when the
halt is complete; a restore whose checks pass loads the image; a request whose work is over writes its result record; a migration command
begins, is refused or is held; a migration halts the source, is loaded and made ready, starts at the destination, or fails. Rests on the
readings of assumptions 53, 59, 60 and 100. -/
def Obligations.CheckpointEvents : Prop :=
  (∀ eid d e (s : State), s.managed = true → eid ≠ 0xFFFF → s.liveEncl (BitVec.toNat eid) = some e →
    Occurs (.notice eid d) s ((s.notify eid.toNat (BitVec.toNat d)).respond 0)
    ∧ (e.checkpointable = true → s.notify eid.toNat d.toNat =
      (((s.modEncl eid.toNat fun e => { e with notice := earlier e.notice (some d.toNat) }).looseCount (.ctx eid.toNat 255) 32).ckNote eid.toNat 1
        .ok).softRequest eid.toNat (s.partCores e.lead)))
  ∧ (∀ d (s : State), s.managed = true → Occurs (.notice 0xFFFF d) s ((s.encls.foldl (fun s e => s.notify e.1 (BitVec.toNat d)) s).respond 0))
  ∧ (∀ eid e d (s : State), s.liveEncl eid = some e → e.notice = some d → d ≤ s.ns → (s.ckJobs.any fun j => j.eid = eid && !j.restore && j.move.isNone) = false →
    Occurs (.noticeDeadline eid) s (((s.modEncl eid fun e => { e with notice := none }).orderHalt eid).ckNote eid 4 .ok))
  ∧ (∀ eid e j (s : State), s.secondJob eid false = none → s.ckJobs.find? (fun j => j.eid == eid) = some j → s.encls.find eid = some e →
    j.restore = false → j.move = none → s.ckTurn j = true →
    let i := Instr.checkpoint eid
    (∀ r, j.result = some r → Occurs i s (s.finishJob j e r))
    ∧ (j.result = none → j.began = false → ckStatus s j e = .ok → Occurs i s
      (State.haltContext { s with ckJobs := s.ckJobs.map fun (x : CkJob) => if x = j then { x with began := true } else x } eid))
    ∧ (∀ x, j.result = none → j.began = false → ckStatus s j e = x → x ≠ .ok → Occurs i s (s.endJob j e ⟨j.rva, j.step, x, 1⟩))
    ∧ (j.result = none → j.began = true → e.failed = false → s.haltDone eid = true → Occurs i s (s.formCheckpoint j e))
    ∧ (j.result = none → j.began = true → e.failed = false → s.haltDone eid = false → Occurs i s (s.forceHalt eid)))
  ∧ (∀ e j r (s : State), (s.ckResult j.eid e r.rva r.step r.status r.kind).2 = true →
    let t : State := (s.ckResult j.eid e r.rva r.step r.status r.kind).1
    let u := State.ckNote { t with ckJobs := t.ckJobs.erase j } j.eid (if r.kind = 1 then 2 else if r.kind = 2 then 3 else 6) r.status
    s.finishJob j e r = if j.began then u.endHalt j.eid (j.mode = 1) else u)
  ∧ (∀ eid e j (s : State), s.secondJob eid true = none → s.ckJobs.find? (fun j => j.eid == eid) = some j → s.encls.find eid = some e →
    j.restore = true → j.move = none → s.ckTurn j = true →
    (∀ r, j.result = some r → Occurs (.restore eid) s (s.finishJob j e r))
    ∧ (∀ r x, j.result = none → s.unreturned (.host j.host) = false → checkRestore s j e = .fail r x → Occurs (.restore eid) s (r.endJob j e ⟨j.rva, j.step, x, 2⟩))
    ∧ ∀ r img frames, j.result = none → s.unreturned (.host j.host) = false → checkRestore s j e = .good r img frames →
      Occurs (.restore eid) s (((r.leaveHost j.host eid).loadImage eid e frames img).endJob j e ⟨img.rva, img.step, .ok, 2⟩))
  ∧ (∀ eid pkg (s : State), s.managed = true →
    let n := BitVec.toNat eid
    let p := BitVec.toNat pkg
    (s.heldMove n true p = none → Occurs (.migrateOut eid pkg) s
      (if migrateStatus s n p = .ok then
        if s.ckOthers n then { s with ckJobs := s.ckJobs ++ [⟨n, false, 0, [], false, some (true, p), none⟩] }
        else ((s.modEncl n fun e => { e with migr := some ⟨true, p, 0, none⟩ }).haltContext n).respond 0
      else s.respond (migrateStatus s n p).code))
    ∧ (∀ j, s.heldMove n true p = some j → s.ckTurn j = true →
      let r : State := { s with ckJobs := s.ckJobs.erase j }
      Occurs (.migrateOut eid pkg) s (if migrateStatus r n p = .ok then (r.beginMove n true p).respond 0 else r.respond (migrateStatus r n p).code))
    ∧ (s.heldMove n false p = none → arrivalStatus s n p = .ok → s.ckOthers n = true → Occurs (.migrateIn eid pkg) s
      { s with ckJobs := s.ckJobs ++ [⟨n, false, 0, [], false, some (false, p), none⟩] })
    ∧ (s.heldMove n false p = none → arrivalStatus s n p = .ok → s.ckOthers n = false → Occurs (.migrateIn eid pkg) s
      ((s.modEncl n fun e => { e with migr := some ⟨false, p, 0, none⟩ }).respond 0))
    ∧ (∀ x, s.heldMove n false p = none → arrivalStatus s n p = x → x ≠ .ok → Occurs (.migrateIn eid pkg) s (s.respond x.code)))
  ∧ ∀ eid e m (s : State), s.encls.find eid = some e → e.migr = some m →
    (m.stage = 0 → m.out = true → s.haltDone eid = true → ∀ u, s.destroy eid e = some u → Occurs (.migrationReady eid) s (u.ckNote eid 5 .ok))
    ∧ (m.stage = 0 → m.out = true → s.haltDone eid = false → Occurs (.migrationReady eid) s (s.forceHalt eid))
    ∧ (m.stage = 0 → m.out = false → ∃ img, Occurs (.migrationReady eid) s (s.receive eid e m img))
    ∧ (∀ img frames, placePages s e img.pages (List.range Config.slices) = some frames → s.receive eid e m img =
      (s.loadImage eid e frames img).modEncl eid fun e => { e with halted := true, tsvAt := none, migr := some { m with stage := 1, image := some img } })
    ∧ (∀ img, m.image = some img → Occurs (.migrationGo eid) s (s.start eid e img))
    ∧ (m.out = true → Occurs (.migrationStreamFail eid) s ((s.modEncl eid fun e => { e with migr := none }).endHalt eid false))
    ∧ (m.out = false → m.stage = 0 → Occurs (.migrationStreamFail eid) s (s.modEncl eid fun e => { e with migr := none }))
    ∧ (m.out = false → m.stage = 1 → Occurs (.migrationStreamFail eid) s
      (s.modEncl eid fun e => { e with migr := some { m with stage := 2 } }))
    ∧ (m.out = false → 1 < m.stage → ∀ u, s.destroy eid e = some u → Occurs (.migrationStreamFail eid) s u)

/-- R402, R444, R446-R449, Tables 26.2-26.4: the requests of Table 26.3 to a root of trust that has booted, one that it does not know, and
any of them before it has booted; a signature takes a leaf of the bottom tree, and a request that waits for one holds its transport. Rests on the readings of assumptions 61 to 64. -/
def Obligations.SpdmEvents : Prop :=
  let asked (r : SpdmReq) (code : Nat) (s : State) : Prop := r.code.toNat = code ∧ s.arrived r = true ∧ s.booted = true ∧ s.reg.spdmHeld = none
  let signed (s : State) : State := { s with lmsLeft := s.lmsLeft - 1 }
  ∀ r (s : State),
    (asked r 0x84 s → Occurs (.getVersion r) s (s.answerSpdm r [0x10, 0x04, 0, 0, 0, 1, 0, 0x13]))
    ∧ (r.code.toNat = 0x84 → s.arrived r = true → s.booted = false → Occurs (.getVersion r) s (s.answerSpdm r [0x13, 0x7F, 0x42, 0]))
    ∧ (asked r 0xE1 s → ∃ bs, Occurs (.getCapabilities r) s (s.answerSpdm r bs) ∧ slice bs 0 4 = [0x13, 0x61, 0, 0] ∧ field bs 8 4 = 0x22F6)
    ∧ (asked r 0xE3 s → offersAlgorithms r = false → Occurs (.negotiateAlgorithms r) s (s.answerSpdm r [0x13, 0x7F, 1, 0]))
    ∧ (asked r 0xE3 s → offersAlgorithms r = true → ∃ bs, Occurs (.negotiateAlgorithms r) s (s.answerSpdm r bs)
      ∧ slice bs 0 4 = [0x13, 0x63, 2, 0] ∧ bs.length = 48)
    ∧ (asked r 0x81 s → Occurs (.getDigests r) s (s.answerSpdm r ([0x13, 0x01, 0, 1] ++ sha256 s.certChain)))
    ∧ (asked r 0x82 s → r.param1.toNat % 16 = 0 → ∃ bs, Occurs (.getCertificate r) s (s.answerSpdm r bs) ∧ slice bs 0 4 = [0x13, 0x02, 0, 0]
      ∧ bs.drop 8 = slice s.certChain (field r.payload 0 2) (field r.payload 2 2))
    ∧ (asked r 0x83 s → r.param1 = 0 → s.lmsLeft ≠ 0 → ∃ bs, Occurs (.challenge r) s ((signed s).answerSpdm r bs)
      ∧ slice bs 0 4 = [0x13, 0x03, 0, 1])
    ∧ (asked r 0x83 s → r.param1 = 0 → s.lmsLeft = 0 → Occurs (.challenge r) s { s with reg := { s.reg with spdmHeld := some r } })
    ∧ (∀ x, r.code.toNat = 0x83 → s.arrived r = true → s.booted = true → s.reg.spdmHeld = some x → x ≠ r →
      (x.relay = false → r.relay = false → Occurs (.challenge r) s (s.answerSpdm r [0x13, 0x7F, 3, 0]))
      ∧ (x.relay ≠ r.relay → exec (.challenge r) s = .next s))
    ∧ (r.code.toNat = 0x83 → s.arrived r = true → s.booted = true → s.reg.spdmHeld = some r → r.param1 = 0 → s.lmsLeft ≠ 0 →
      ∃ bs, Occurs (.challenge r) s (State.answerSpdm { signed s with reg := { s.reg with spdmHeld := none } } r bs))
    ∧ (asked r 0xE0 s → r.param1.getLsbD 0 = false →
      (r.param2 = 0 → ∃ bs, Occurs (.getMeasurements r) s (s.answerSpdm r bs) ∧ slice bs 0 4 = [0x13, 0x60, .ofNat 8 (14 + s.encls.length), 0])
      ∧ (∀ n bs, r.param2 ≠ 0 → s.measRecord r.param2.toNat = some (n, bs) → ∃ out, Occurs (.getMeasurements r) s (s.answerSpdm r out)
        ∧ slice out 0 8 = [0x13, 0x60, 0, 0] ++ leBytes 1 n ++ leBytes 3 bs.length ∧ slice out 8 bs.length = bs)
      ∧ (r.param2 ≠ 0 → s.measRecord r.param2.toNat = none → Occurs (.getMeasurements r) s (s.answerSpdm r [0x13, 0x7F, 1, 0])))
    ∧ (asked r 0xE4 s → (8 ≤ s.sessions.length → Occurs (.keyExchange r) s (s.answerSpdm r [0x13, 0x7F, 3, 0]))
      ∧ (s.sessions.length < 8 → r.param2 = 0 → s.lmsLeft ≠ 0 → ∃ bs, Occurs (.keyExchange r) s
        (State.answerSpdm { signed s with serial := s.serial + 1, sessions := s.sessions ++ [⟨s.serial, r.relay, false, s.ns⟩] } r bs)
        ∧ slice bs 0 4 = [0x13, 0x64, 60, 0]))
    ∧ (∀ n, r.session = some n →
      (asked r 0xE5 s → Occurs (.finish r) s (State.answerSpdm { s with
        sessions := s.sessions.map fun (x : Session) => if x.num = n then { x with done := true } else x } r [0x13, 0x65, 0, 0]))
      ∧ (asked r 0xE8 s → Occurs (.heartbeat r) s (s.answerSpdm r [0x13, 0x68, 0, 0]))
      ∧ (asked r 0xEC s → Occurs (.endSession r) s ((s.answerSpdm r [0x13, 0x6C, 0, 0]).endSession n)
        ∧ ((s.answerSpdm r [0x13, 0x6C, 0, 0]).endSession n).sessions.all (fun x => x.num ≠ n) = true))
    ∧ (spdmCodes.contains r.code.toNat = false → asked r r.code.toNat s →
      Occurs (.unsupportedRequest r) s (s.answerSpdm r [0x13, 0x7F, 7, r.code]))
    ∧ (∀ n x, s.sessions.find? (fun x => x.num == n) = some x → x.last + 120000000000 ≤ s.ns → Occurs (.sessionTimeout n) s (s.endSession n))
    ∧ ∀ v : BitVec 64, v.toNat / 2 ^ 48 = 0 → v.toNat % 4096 = 0 → s.hypPage v.toNat = true →
      (s.reg.spdmBuf = none → Occurs (.spdmrly v) s { s with reg := { s.reg with spdmBuf := some v.toNat } })
      ∧ (s.reg.spdmBuf ≠ none → Occurs (.spdmrly v) s (s.homeWrite v.toNat [0x13, 0x7F, 3, 0]))

/-- R444, R449, R451-R457: POWER and PACKAGE inside a session; a write of PSTATE and the end of its change; a throttle step; HCSTART; an
MSI; the training and loss of a link; the renewal of the bottom tree; and module reset, whose first turn keeps what survives it and whose
second starts host core 0. Rests on the readings of assumptions 61 and 65 to 69. -/
def Obligations.ManagementEvents : Prop :=
  (∀ k st pt (s : State), s.managed = true →
    (Config.slices ≤ k → Occurs (.power k st pt) s (s.respond 1))
    ∧ (k < Config.slices → Occurs (.power k st pt) s ((s.writePstate k (st.toNat * 16 + pt.toNat)).respond 0)))
  ∧ (∀ n (s : State), s.managed = true →
    ((s.links.any fun l => l.2.up) = true → Occurs (.package n) s (s.respond 2))
    ∧ ((s.links.any fun l => l.2.up) = false → n.toNat ≤ 32767 →
      Occurs (.package n) s (State.respond { s with reg := { s.reg with pkgnum := n.setWidth 15 } } 0)))
  ∧ (∀ k (v : BitVec 64) (s : State), k < Config.slices →
    ((s.slicePower k).change ≠ none → Occurs (.pstateWrite k v) s (s.modPower k fun p => { p with queue := p.queue ++ [v.toNat] }))
    ∧ ((s.slicePower k).change = none → s.pstateOk k v.toNat = true → Occurs (.pstateWrite k v) s
      (s.modPower k fun p => Power.start { p with point := v.toNat % 4 } (v.toNat / 16 % 4)))
    ∧ ((s.slicePower k).change = none → s.pstateOk k v.toNat = false → Occurs (.pstateWrite k v) s s))
  ∧ (∀ k st (s : State), (s.slicePower k).change = some st → (s.slicePower k).queue = [] →
    let r := if (s.slicePower k).state = 3 && st ≠ 3 then s.scrubStack k else s
    Occurs (.pstateChangeEnd k) s
      (r.modPower k fun p => { p with state := st, eff := Nat.min 3 (p.point + p.thr), change := none, queue := [] }))
  ∧ (∀ k (temp : Int) (s : State), k < Config.slices → (s.slicePower k).next ≤ s.ns → (s.slicePower k).thr = 0 → s.reg.thrcfg.toNat / 256 % 32 = 0 →
    let lim : Int := (s.reg.thrcfg.toNat / 2 ^ 16 % 256 : Nat)
    Occurs (.throttleStep k temp) s (s.modPower k fun p => Power.start
      { p with thr := if lim ≤ temp then 1 else 0, next := s.ns + 1000000 } (p.change.getD p.state)))
  ∧ (∀ (v : BitVec 64) (s : State) w t, s.cur = .host w → s.thread? (.host (v.toNat / 256 % 128)) = some t → v.toNat % 256 = 1 →
    v.toNat / 2 ^ 15 % 2 ^ 17 = 0 → v.toNat / 256 % 128 < Config.hosts → t.wait = .stopped →
    let n := v.toNat / 256 % 128
    Occurs (.hcstart v) s (((s.freshCode (hostIx n)).setThread (.host n) { t with
      wait := .none, level := .h, cb := s.th.cb, w := .ofNat 32 (v.toNat / 2 ^ 32), readyAt := s.time }).modHost n
        fun x => { x with ptroot := (s.hostCore w).ptroot, guestid := 0, bankH := (s.hostCore w).bankH }))
  ∧ (∀ port (s : State), port < 4 →
    let v := (Tab.getD s.reg.pciecfg port 0).toNat
    v / 256 % 32 ≠ 0 → Occurs (.msiWrite port) s (s.assertIrq (v % 128) true (v / 256 % 32)))
  ∧ (∀ link peer (s : State), link < 16 → (Tab.getD s.links link {} : Link).up = false →
    Occurs (.linkTrain link peer) s { s with
      keysMade := s.keysMade + 1
      links := s.links.put link { up := true, peer := peer.toNat, streams := [], secret := some (Config.keyMaterial s.keysMade) } })
  ∧ (∀ link (s : State), (Tab.getD s.links link {} : Link).up = true → (Tab.getD s.links link {} : Link).streams = [] →
    Occurs (.linkDown link) s { s with
      links := s.links.put link { (Tab.getD s.links link {} : Link) with up := false, streams := [], secret := none } })
  ∧ (∀ (s : State) (eids : List Nat) n (l : Launch), s.launches = [(n, l)] →
    s.loseWrites eids = s ∨ (l.eid ∈ eids ∧ s.loseWrites eids = s.endLaunch n 0x110))
  ∧ (∀ (s : State), s.lmsLeft = 0 → s.lmsTop < 2 ^ 20 → Occurs .lmsTreeRenew s { s with lmsTop := s.lmsTop + 1, lmsLeft := 1024 })
  ∧ (∀ (s : State), s.booted = true → ∃ u, Occurs .moduleReset s u ∧ u.booted = false ∧ u.mem = [] ∧ u.encls = [] ∧ u.launches = [] ∧ u.teams = []
    ∧ u.th.wait = .stopped ∧ u.retired = s.retired ∧ u.lmsTop = s.lmsTop + 1
    ∧ u.tandem.minRoll = Nat.max s.tandem.minRoll (s.tandem.commit.getD 0))
  ∧ ∀ (s : State), s.booted = false →
    Occurs .moduleReset s (State.modThread { s with booted := true } (.host 0) fun t => { t with wait := .none })

/-! The machine as a whole: reset, the step, decoding, and the invariant (03_encoding.md, 26_trust_links_power.md) -/

/-- R41, R74, R205, R363, R380, R388, R415, R427, R450, R457: the values that the tables give for reset. Host core 0 stands at H at word 0 and
every other host core is stopped; FPC, CHK and EID are 0, both banks of every core 0 but TCMP, which is all ones; every governor's budget
is 8; PART 0 names one partition of all slices; every frame below the reserved region is FREE, and slot 0 is loaded. -/
def Obligations.ResetState : Prop :=
  let s := State.reset
  s.cur = .host 0 ∧ s.th.level = .h ∧ s.th.w = 0 ∧ s.th.wait = .none ∧ s.slotLoaded 0 = true ∧ s.booted = true
  ∧ (∀ n, n < 96 → ∃ t, s.thread? (.host n) = some t ∧ t.fpc = 0 ∧ t.chk = 0 ∧ t.eid = 0 ∧ (n ≠ 0 → t.wait = .stopped))
  ∧ (∀ n high, let b := (s.hostCore n).bank high
      b.tvec = 0 ∧ b.tcause = 0 ∧ b.tstat = 0 ∧ b.tepc = 0 ∧ b.tecb = 0 ∧ b.tval = 0 ∧ b.tsave0 = 0 ∧ b.tsave1 = 0 ∧ b.ipend = 0
      ∧ b.imask = 0 ∧ b.tcmp = 0xFFFFFFFFFFFFFFFF)
  ∧ (∀ n, (s.hostCore n).ptroot = 0 ∧ (s.hostCore n).guestid = 0 ∧ (s.hostCore n).fltresp = 0 ∧ (s.hostCore n).mgovsel = 0)
  ∧ (∀ core eid, (s.energy core eid) = (0, false)) ∧ (∀ q, (s.quad q).nextB = 8 ∧ (s.quad q).stall = 0)
  ∧ s.regRead 0x3000 = 0x4E2007D003E80C01 ∧ (∀ k, 1 ≤ k → k < 12 → s.regRead (0x3000 + 8 * k) = 0)
  ∧ (∀ e, e < 48 → s.regRead (0x3080 + 8 * e) = 0x100) ∧ s.regRead 0x3208 = 0xFFFF ∧ s.regRead 0x4008 = 0x30000000
  ∧ s.regRead 0x6060 = 0x690000
  ∧ (∀ o ∈ [0x1000, 0x3060, 0x3070, 0x3078, 0x3200, 0x3210, 0x3218, 0x3220, 0x3300, 0x4000, 0x4010, 0x4018, 0x4020, 0x4028, 0x4038,
      0x5000, 0x5008, 0x5010, 0x6070, 0x6078, 0x6120, 0x6128], s.regRead o = 0)
  ∧ (∀ k, k < 12 → s.regRead (0x3240 + 8 * k) = 0 ∧ s.regRead (0x5040 + 8 * k) = 0 ∧ s.regRead (0x50A0 + 8 * k) = 0
      ∧ s.regRead (0x6000 + 8 * k) = 0)
  ∧ (∀ f, (s.pot f).state = if Config.ctreeBase ≤ f * 4096 % 2 ^ 36 then .ctree else .free)

/-- The state after reset meets the invariant (memory lists nothing, assumption 5). -/
def Obligations.ResetInv : Prop := Inv State.reset

/-- R54, R57, R58, R79, R199, R237, R240: the turn of a thread, once what has come about by its clock stands (`atTurn`): with no interrupt and
no trap owed it fetches the word at its index, with the word after it where the first takes one, decodes it, and runs what it decodes to; what
surrounds it is `afterIssue`, on a host core the count of a bundle and the end of its places at an atomic unit and at the enclave controller, on a SIMT core the
bundle's account of its pipes. Words that decode to no instruction, and an instruction that is ILLEGAL, trap with ILLEGAL, the word in TVAL.
A step is the picker of a core that has an overdue thread, or else, with an empty agenda, the turn of the current host thread or the picker's
choice for a SIMT core; the turn of a bundle all of whose threads are ready is that of its first thread, and the others of the bundle come
next. -/
def Obligations.StepRunsDecoded : Prop :=
  (∀ (s : State) x more u v,
    let r := s.atTurn
    let slot := r.th.w.toNat % 3
    r.irqNow = none → r.asleep = false → r.th.owed = none → fetchWords r r.th.w 1 = .ok u [x] →
    (if spanOf slot x = 2 then fetchWords u (r.th.w + 1) 1 = .ok v more else v = u ∧ more = []) → x.getLsbD 31 = false →
    let illegal := Host.Outcome.next (v.atReady.freshen.takeTrap .illegal (x.setWidth 64) v.th.w)
    (∀ e, v.lateOut = false → decode slot (x :: more) = .error e → runThread s = illegal)
    ∧ ∀ i k, decode slot (x :: more) = .ok (i, k) →
      (illegalWord i v = true → v.lateOut = false → runThread s = illegal)
      ∧ (illegalWord i v = false →
        (∀ t, exec i v = .next t → runThread s = .next (afterIssue [i] v t))
        ∧ (∀ f, exec i v = .fault f → runThread s = .fault f) ∧ (∀ f, exec i v = .refused f → runThread s = .refused f)
        ∧ ∀ t, t.fresh ≠ v.fresh →
          (∀ n, v.cur = .host n →
            afterIssue [i] v t = State.count { t with atomQ := t.atomsBut v.cur, ctlQ := t.ctlQ.filter (· ≠ v.cur) } (hostIx n) (v.space v.cur).eid.toNat 3 1)
          ∧ (v.cur.isHost = false → afterIssue [i] v t = v.joinBundle t [i])))
  ∧ ∀ s : State,
    let c := s.catchUp
    (∀ core, (c.reaches c.agenda).bind c.dueCore = some core → step s = .next (c.pickFirst core))
    ∧ (∀ n, c.agenda = [] → c.dueCore c.time = none → c.cur = .host n → step s = runThread c)
    ∧ (∀ team idx, c.agenda = [] → c.dueCore c.time = none → c.cur = .simt team idx →
      (c.cands (c.coreIx c.cur) = [] → step s = .next c.idle)
      ∧ (c.cands (c.coreIx c.cur) ≠ [] → step s = .next (c.pickerChoice (c.coreIx c.cur) [])))
    ∧ ∀ core order i rest more u t, c.agenda = .bundle core order (i :: rest) :: more →
      (tryBundle { c with agenda := more } (i :: rest)).2 = true →
      State.switchTo { c with agenda := more } i = some u → runThread { u with agenda := c.memberTurns core rest ++ more } = .next t →
      step s = .next (t.count core (u.space u.cur).eid.toNat 3 1)

/-- Words of the manual's examples decode to what they are written as (R127, R137, R143, R151, R153, R156, R157, R160, R162, R165, R166, R170,
R180, R182, R188, R203, R206-R209, R215, R218-R222, R225, R227). -/
def Obligations.DecodeWords : Prop :=
  let h : Hdr := ⟨false, 0, 0⟩
  let reads (w : Word) (i : Instr) : Prop := decode 0 [w] = .ok (i, 1)
  reads 0x13418404 (.ldAcqW h (.g 6) (.g 8) 4) ∧ reads 0x1521040A (.atomCas h (.g 4) (.g 8) (.g 10)) ∧ reads 0x16A00A15 (.barwait h (.g 20) (.g 21))
  ∧ reads 0x18403B80 (.ret h) ∧ reads 0x18A00123 (.trap h 0x123) ∧ reads 0x18C00000 (.bkpt h) ∧ reads 0x17200180 (.prio h (.g 3))
  ∧ reads 0x18E10000 (.refill h (.g 4)) ∧ reads 0x19000409 (.fetchw h (.g 8) (.g 9)) ∧ reads 0x1A008380 (.cdecl h 2 (.g 7))
  ∧ reads 0x1A208000 (.crst h 2) ∧ reads 0x1A414206 (.shfl h (.g 5) (.g 4) (.g 6)) ∧ reads 0x1CA04000 (.mfence h 1)
  ∧ reads 0x1CDFC000 (.mwait h 127) ∧ reads 0x1C414000 (.mzero h 5) ∧ reads 0x1C608300 (.mload h 2 (.g 6))
  ∧ reads 0x1CE02006 (.cpyGs h (.g 64) false 3) ∧ reads 0x1E600005 (.ecall h 5) ∧ reads 0x1E004047 (.sysrd h (.g 1) 0x047)
  ∧ reads 0x1E20C000 (.syswr h (.g 3) 0) ∧ reads 0x1E410000 (.tsrd h (.g 4) false) ∧ reads 0x1EA18400 (.ecreate h (.g 6) (.g 8))
  ∧ reads 0x1EC00205 (.eenter h (.g 4) (.g 5)) ∧ reads 0x1F018400 (.ereport h (.g 6) (.g 8)) ∧ reads 0x1F800200 (.edestroy h (.g 4))
  ∧ reads 0x1F218400 (.kwrap h (.g 6) (.g 8)) ∧ reads 0x1F218202 (.krevoke h (.g 6) (.g 4)) ∧ reads 0x1F418402 (.pmap h (.g 6) (.g 8))
  ∧ reads 0x1F60040A (.tlbi h (.g 8) (.g 10))

/-- R54-R66, Tables 3.1, 3.2 and 3.7: every term that a word encodes is what its own words decode to, with every operand at every value that
the encoding admits. -/
def Obligations.RoundTrip : Prop := ∀ i : Instr, i.Encodable → decode 0 (encode i) = .ok (i, i.length)

/-- From every state whose memory is in canonical form, whatever the agenda holds, a step leads to a state whose memory is in canonical
form. Rests on the readings of assumption 5. -/
def Obligations.InvariantKept : Prop := ∀ s t : State, Inv s → step s = .next t → Inv t
end

