-- ==== Sys2Proof/Laws/Tables.lean ====
section
/-! SUPPORT. Sparse tables and memory bytes: a read after a write, and the canonical form that every memory operation keeps. -/

namespace Sys2Proof.Machine

/-! Reading after writing -/

theorem Tab.find_put {α : Type} (t : Tab α) (n : Nat) (x : α) : (t.put n x).find n = some x := by
  induction t with
  | nil => simp [Tab.put, Tab.find]
  | cons e t ih =>
    obtain ⟨k, v⟩ := e
    simp only [Tab.put]
    split
    · simp [Tab.find]
    · split
      · simp [Tab.find]
      · next h1 h2 => simp [Tab.find, h2, ih]

theorem Tab.find_put_ne {α : Type} (t : Tab α) {n m : Nat} (x : α) (h : m ≠ n) : (t.put n x).find m = t.find m := by
  induction t with
  | nil => simp [Tab.put, Tab.find, Ne.symm h]
  | cons e t ih =>
    obtain ⟨k, v⟩ := e
    simp only [Tab.put]
    split
    · simp [Tab.find, Ne.symm h]
    · split
      · next h1 h2 => subst h2; simp [Tab.find, Ne.symm h]
      · simp only [Tab.find]; split
        · rfl
        · exact ih

theorem Tab.find_del {α : Type} (t : Tab α) (n : Nat) : (t.del n).find n = none := by
  induction t with
  | nil => rfl
  | cons e t ih =>
    obtain ⟨k, v⟩ := e
    simp only [Tab.del]
    split
    · exact ih
    · next h => simp [Tab.find, h, ih]

theorem Tab.find_del_ne {α : Type} (t : Tab α) {n m : Nat} (h : m ≠ n) : (t.del n).find m = t.find m := by
  induction t with
  | nil => rfl
  | cons e t ih =>
    obtain ⟨k, v⟩ := e
    simp only [Tab.del]
    split
    · next hk => subst hk; simp [Tab.find, Ne.symm h, ih]
    · simp only [Tab.find]; split
      · rfl
      · exact ih

/-- A read of the entry that a write set. -/
@[simp] theorem Tab.getD_set {α : Type} [DecidableEq α] (t : Tab α) (z : α) (n : Nat) (x : α) : (t.set z n x).getD n z = x := by
  unfold Tab.set Tab.getD
  split
  · next h => simp [Tab.find_del, h]
  · simp [Tab.find_put]

/-- A write leaves every other entry alone. -/
theorem Tab.getD_set_ne {α : Type} [DecidableEq α] (t : Tab α) (z : α) {n m : Nat} (x : α) (h : m ≠ n) :
    (t.set z n x).getD m z = t.getD m z := by
  unfold Tab.set Tab.getD
  split
  · rw [Tab.find_del_ne t h]
  · rw [Tab.find_put_ne t x h]

/-! The canonical form -/

/-- Every number of a table is above `b`. -/
def Tab.above {α : Type} (b : Nat) (t : Tab α) : Prop := ∀ e ∈ t, b < e.1

theorem Tab.sorted_cons {α : Type} (k : Nat) (v : α) (t : Tab α) :
    Tab.sorted ((k, v) :: t) = true ↔ Tab.above k t ∧ t.sorted = true := by
  induction t generalizing k v with
  | nil => simp [Tab.sorted, Tab.above]
  | cons e t ih =>
    obtain ⟨k', v'⟩ := e
    simp only [Tab.sorted, Bool.and_eq_true, decide_eq_true_eq]
    constructor
    · rintro ⟨h1, h2⟩
      refine ⟨?_, h2⟩
      have := ((ih k' v').mp h2).1
      intro e he
      rcases List.mem_cons.mp he with rfl | he
      · exact h1
      · exact lt_trans h1 (this e he)
    · rintro ⟨h1, h2⟩
      exact ⟨h1 (k', v') (by simp), h2⟩

theorem Tab.put_above {α : Type} {b : Nat} (t : Tab α) (n : Nat) (x : α) (ht : Tab.above b t) (hn : b < n) :
    Tab.above b (t.put n x) := by
  induction t with
  | nil => simpa [Tab.put, Tab.above] using hn
  | cons e t ih =>
    obtain ⟨k, v⟩ := e
    have hk : b < k := ht (k, v) (by simp)
    have ht' : Tab.above b t := fun e he => ht e (by simp [he])
    simp only [Tab.put]
    split
    · intro e he
      rcases List.mem_cons.mp he with rfl | he
      · exact hn
      · exact ht e he
    · split
      · intro e he
        rcases List.mem_cons.mp he with rfl | he
        · exact hn
        · exact ht' e he
      · intro e he
        rcases List.mem_cons.mp he with rfl | he
        · exact hk
        · exact ih ht' e he

theorem Tab.put_sorted {α : Type} (t : Tab α) (n : Nat) (x : α) (h : t.sorted = true) : (t.put n x).sorted = true := by
  induction t with
  | nil => rfl
  | cons e t ih =>
    obtain ⟨k, v⟩ := e
    have hc := (Tab.sorted_cons k v t).mp h
    simp only [Tab.put]
    split
    · next hn =>
      refine (Tab.sorted_cons n x _).mpr ⟨?_, h⟩
      intro e he
      rcases List.mem_cons.mp he with rfl | he
      · exact hn
      · exact lt_trans hn (hc.1 e he)
    · split
      · next h1 h2 => subst h2; exact (Tab.sorted_cons _ x t).mpr hc
      · next h1 h2 =>
        exact (Tab.sorted_cons k v _).mpr ⟨Tab.put_above t n x hc.1 (by omega), ih hc.2⟩

theorem Tab.mem_del {α : Type} (t : Tab α) (n : Nat) (e : Nat × α) (h : e ∈ t.del n) : e ∈ t := by
  induction t with
  | nil => simp [Tab.del] at h
  | cons f t ih =>
    obtain ⟨k, v⟩ := f
    simp only [Tab.del] at h
    split at h
    · exact List.mem_cons_of_mem _ (ih h)
    · rcases List.mem_cons.mp h with rfl | h
      · simp
      · exact List.mem_cons_of_mem _ (ih h)

theorem Tab.del_sorted {α : Type} (t : Tab α) (n : Nat) (h : t.sorted = true) : (t.del n).sorted = true := by
  induction t with
  | nil => rfl
  | cons e t ih =>
    obtain ⟨k, v⟩ := e
    have hc := (Tab.sorted_cons k v t).mp h
    simp only [Tab.del]
    split
    · exact ih hc.2
    · exact (Tab.sorted_cons k v _).mpr ⟨fun e he => hc.1 e (Tab.mem_del t n e he), ih hc.2⟩

theorem Tab.mem_put {α : Type} (t : Tab α) (n : Nat) (x : α) (e : Nat × α) (h : e ∈ t.put n x) : e = (n, x) ∨ e ∈ t := by
  induction t with
  | nil => simpa [Tab.put] using h
  | cons f t ih =>
    obtain ⟨k, v⟩ := f
    simp only [Tab.put] at h
    split at h
    · simpa using h
    · split at h
      · rcases List.mem_cons.mp h with rfl | h
        · exact .inl rfl
        · exact .inr (List.mem_cons_of_mem _ h)
      · rcases List.mem_cons.mp h with rfl | h
        · exact .inr (by simp)
        · rcases ih h with rfl | h
          · exact .inl rfl
          · exact .inr (List.mem_cons_of_mem _ h)

theorem Tab.canon_iff {α : Type} [DecidableEq α] (t : Tab α) (z : α) :
    t.canon z = true ↔ t.sorted = true ∧ ∀ e ∈ t, e.2 ≠ z := by
  simp [Tab.canon, List.all_eq_true]

/-- A write keeps the canonical form. -/
theorem Tab.set_canon {α : Type} [DecidableEq α] (t : Tab α) (z : α) (n : Nat) (x : α) (h : t.canon z = true) :
    (t.set z n x).canon z = true := by
  rw [Tab.canon_iff] at h ⊢
  unfold Tab.set
  split
  · exact ⟨Tab.del_sorted t n h.1, fun e he => h.2 e (Tab.mem_del t n e he)⟩
  · next hx =>
    refine ⟨Tab.put_sorted t n x h.1, fun e he => ?_⟩
    rcases Tab.mem_put t n x e he with rfl | he
    · exact hx
    · exact h.2 e he

theorem Tab.filter_sorted {α : Type} (t : Tab α) (p : Nat × α → Bool) (h : t.sorted = true) : Tab.sorted (t.filter p) = true := by
  induction t with
  | nil => rfl
  | cons e t ih =>
    obtain ⟨k, v⟩ := e
    have hc := (Tab.sorted_cons k v t).mp h
    rw [List.filter_cons]
    split
    · exact (Tab.sorted_cons k v _).mpr ⟨fun e he => hc.1 e (List.mem_of_mem_filter he), ih hc.2⟩
    · exact ih hc.2

theorem Tab.filter_canon {α : Type} [DecidableEq α] (t : Tab α) (z : α) (p : Nat × α → Bool) (h : t.canon z = true) :
    Tab.canon (t.filter p) z = true := by
  rw [Tab.canon_iff] at h ⊢
  exact ⟨Tab.filter_sorted t p h.1, fun e he => h.2 e (List.mem_of_mem_filter he)⟩

/-! Memory -/

@[simp] theorem Memory.get_set (m : List Host.Cell) (a : Nat) (b : Byte) : Memory.get (Memory.set m a b) a = b :=
  Tab.getD_set m Memory.blank a b

theorem Memory.get_set_ne (m : List Host.Cell) {a c : Nat} (b : Byte) (h : c ≠ a) :
    Memory.get (Memory.set m a b) c = Memory.get m c :=
  Tab.getD_set_ne m Memory.blank b h

/-- Memory.set keeps the canonical form. -/
theorem Memory.set_wf (m : List Host.Cell) (a : Nat) (b : Byte) (h : Memory.wf m = true) : Memory.wf (Memory.set m a b) = true :=
  Tab.set_canon m Memory.blank a b h

/-- Memory.setAll keeps the canonical form. -/
theorem Memory.setAll_wf (bs : List Byte) (m : List Host.Cell) (a : Nat) (h : Memory.wf m = true) :
    Memory.wf (Memory.setAll m a bs) = true := by
  induction bs generalizing m a with
  | nil => exact h
  | cons b bs ih => exact ih _ _ (Memory.set_wf m a b h)

/-- Memory.clear keeps the canonical form. -/
theorem Memory.clear_wf (m : List Host.Cell) (a n : Nat) (h : Memory.wf m = true) : Memory.wf (Memory.clear m a n) = true :=
  Tab.filter_canon m Memory.blank _ h

/-- A store of consecutive bytes leaves every other address alone. -/
theorem Memory.get_setAll_out (bs : List Byte) (m : List Host.Cell) (a c : Nat) (h : c < a ∨ a + bs.length ≤ c) :
    Memory.get (Memory.setAll m a bs) c = Memory.get m c := by
  induction bs generalizing m a with
  | nil => rfl
  | cons b bs ih =>
    simp only [List.length_cons] at h
    rw [Memory.setAll, ih _ _ (by omega), Memory.get_set_ne m b (by omega)]

/-- A store of consecutive bytes, read back. -/
theorem Memory.get_setAll_in (bs : List Byte) (m : List Host.Cell) (a k : Nat) (h : k < bs.length) :
    Memory.get (Memory.setAll m a bs) (a + k) = bs[k] := by
  induction bs generalizing m a k with
  | nil => simp at h
  | cons b bs ih =>
    cases k with
    | zero => rw [Memory.setAll, Memory.get_setAll_out _ _ _ _ (by omega)]; simp
    | succ k =>
      have : a + (k + 1) = a + 1 + k := by omega
      rw [Memory.setAll, this, ih _ _ _ (by simpa using h)]; simp

theorem Tab.getD_filter {α : Type} (t : Tab α) (p : Nat × α → Bool) (n : Nat) (z : α) (h : ∀ v, p (n, v) = true) :
    Tab.getD (t.filter p) n z = Tab.getD t n z := by
  unfold Tab.getD
  congr 1
  induction t with
  | nil => rfl
  | cons e t ih =>
    obtain ⟨k, v⟩ := e
    rw [List.filter_cons]
    by_cases hk : k = n
    · subst hk; rw [if_pos (h v)]; simp [Tab.find]
    · split
      · simp [Tab.find, hk, ih]
      · simp [Tab.find, hk, ih]

/-- Bytes read one by one. -/
theorem Memory.bytes_eq (m : List Host.Cell) (a n : Nat) :
    Memory.bytes m a n = (List.range n).map fun i => Memory.get m (a + i) := by
  unfold Memory.bytes
  refine List.map_congr_left fun i hi => ?_
  have : i < n := List.mem_range.mp hi
  exact Tab.getD_filter m _ _ _ fun v => by simp; omega

theorem Memory.get_clear_out (m : List Host.Cell) (a n c : Nat) (h : c < a ∨ a + n ≤ c) :
    Memory.get (Memory.clear m a n) c = Memory.get m c :=
  Tab.getD_filter m _ _ _ fun v => by simp; omega

/-- Zero-filled bytes read 0. -/
theorem Memory.get_clear_in (m : List Host.Cell) (a n c : Nat) (h : a ≤ c ∧ c < a + n) : Memory.get (Memory.clear m a n) c = 0 := by
  unfold Memory.get Tab.getD Memory.clear
  suffices Tab.find (m.filter fun c => !(a ≤ c.1 && c.1 < a + n)) c = none by rw [this]; rfl
  induction m with
  | nil => rfl
  | cons e t ih =>
    obtain ⟨k, v⟩ := e
    rw [List.filter_cons]
    split
    · next hk =>
      have : k ≠ c := by rintro rfl; simp at hk; omega
      simp only [Tab.find, this, if_false]; exact ih
    · exact ih

end Sys2Proof.Machine
end

