-- ==== Sys2Proof/Laws/Issue.lean ====
section
/-! SUPPORT. The issue of one word: what an issued word that runs to its own effect leads to, and what is left of its thread's registers,
predicates and FPC once every outstanding result is written. -/

namespace Sys2Proof.Machine

/-! Registers and predicates -/

theorem Thread.reg_setReg (t : Thread) (c : Nat) (v : Word) : (t.setReg c v).reg c = v := by
  simp [Thread.reg, Thread.setReg, regOf]

theorem Thread.reg_setReg_ne (t : Thread) {c c' : Nat} (v : Word) (h : c' ≠ c) : (t.setReg c v).reg c' = t.reg c' := by
  simp [Thread.reg, Thread.setReg, regOf, Tab.getD_set_ne _ _ _ h]

theorem predOf_set (p : Byte) (n m : Nat) (v : Bool) (hn : n ≠ 0) (h8 : n < 8) :
    predOf (if v then p ||| (1#8 <<< n) else p &&& ~~~(1#8 <<< n)) m = if m = n then v else predOf p m := by
  unfold predOf
  by_cases hm : m = n
  · subst hm; cases v <;> simp [hn, h8]
  · rcases Nat.lt_or_ge m 8 with h | h
    · have hd : m < n ∨ ¬ (m - n = 0) := by omega
      have hd' : ¬ (n ≤ m ∧ m - n = 0) := by omega
      cases v
      · simp only [hm, if_false, Bool.false_eq_true, BitVec.getLsbD_and, BitVec.getLsbD_not, BitVec.getLsbD_shiftLeft]
        rcases hd with hd | hd <;> simp [h, hd]
      · simp only [hm, if_false, if_true, BitVec.getLsbD_or, BitVec.getLsbD_shiftLeft]
        rcases hd with hd | hd <;> simp [h, hd]
    · cases v <;> simp [hm, BitVec.getLsbD_of_ge, h]


theorem Thread.finalPred_setPred (t : Thread) (n : BitVec 3) (v : Bool) (m : Nat) :
    predOf (t.setPred n.toNat v).preds m = if n ≠ 0 ∧ m = n.toNat then v else predOf t.preds m := by
  unfold Thread.setPred
  by_cases hn : n = 0
  · simp [hn]
  · have h0 : n.toNat ≠ 0 := by simpa [← BitVec.toNat_inj] using hn
    simp only [h0, if_false, predOf_set _ _ _ _ h0 (by omega)]
    have hn' : ¬ (n = 0#3) := hn
    simp [hn']

/-! Outstanding results -/

theorem Thread.settle_results (t : Thread) : t.settle.results = [] := rfl

theorem Thread.settle_of_nil (t : Thread) (h : t.results = []) : t.settle = t := by
  cases t; simp_all [Thread.settle]

@[simp] theorem Thread.settle_settle (t : Thread) : t.settle.settle = t.settle := Thread.settle_of_nil _ rfl

/-- What one result does to the register file, to the predicates and to FPC. -/
def regStep (r : Tab Word) (x : Result) : Tab Word := if x.code < 0x7C then Tab.set r 0 x.code x.val else r
def predStep (p : Byte) (x : Result) : Byte :=
  if 128 < x.code then
    (if x.val.getLsbD 0 then p ||| (1#8 <<< (x.code - 128)) else p &&& ~~~(1#8 <<< (x.code - 128)))
  else p
def fpcStep (w : Word) (x : Result) : Word := setFlags w x.flags

theorem Thread.settleOne_parts (t : Thread) (x : Result) :
    (t.settleOne x).regs = regStep t.regs x ∧ (t.settleOne x).preds = predStep t.preds x ∧
      (t.settleOne x).fpc = fpcStep t.fpc x := by
  unfold Thread.settleOne Thread.setReg Thread.setPred regStep predStep fpcStep
  by_cases h : x.code < 0x7C
  · have : ¬ 128 < x.code := by omega
    simp [h, this]
  · by_cases h' : 128 < x.code
    · have : x.code - 128 ≠ 0 := by omega
      simp [h, h', this]
    · simp [h, h']

theorem Thread.foldl_parts (l : List Result) (t : Thread) :
    (l.foldl Thread.settleOne t).regs = l.foldl regStep t.regs ∧ (l.foldl Thread.settleOne t).preds = l.foldl predStep t.preds ∧
      (l.foldl Thread.settleOne t).fpc = l.foldl fpcStep t.fpc := by
  induction l generalizing t with
  | nil => exact ⟨rfl, rfl, rfl⟩
  | cons x l ih =>
    obtain ⟨h1, h2, h3⟩ := Thread.settleOne_parts t x
    obtain ⟨g1, g2, g3⟩ := ih (t.settleOne x)
    exact ⟨by rw [List.foldl_cons, g1, h1]; rfl, by rw [List.foldl_cons, g2, h2]; rfl, by rw [List.foldl_cons, g3, h3]; rfl⟩

/-- The registers, predicates and FPC after every outstanding result is written are functions of those before and of the results. -/
theorem Thread.settle_regs (t : Thread) : t.settle.regs = t.results.foldl regStep t.regs := (Thread.foldl_parts _ t).1
theorem Thread.settle_preds (t : Thread) : t.settle.preds = t.results.foldl predStep t.preds := (Thread.foldl_parts _ t).2.1
theorem Thread.settle_fpc (t : Thread) : t.settle.fpc = t.results.foldl fpcStep t.fpc := (Thread.foldl_parts _ t).2.2

/-- The value that the last of some results leaves under a code. -/
def lastVal (c : Nat) : List Result → Option Word
  | [] => none
  | x :: l => match lastVal c l with
    | some v => some v
    | none => if x.code = c then some x.val else none

theorem lastVal_none {c : Nat} {l : List Result} (h : ∀ x ∈ l, x.code ≠ c) : lastVal c l = none := by
  induction l with
  | nil => rfl
  | cons x l ih =>
    rw [lastVal, ih fun y hy => h y (by simp [hy]), if_neg (h x (by simp))]

theorem lastVal_append (c : Nat) (l : List Result) (x : Result) :
    lastVal c (l ++ [x]) = if x.code = c then some x.val else lastVal c l := by
  induction l with
  | nil => simp [lastVal]
  | cons y l ih =>
    rw [List.cons_append, lastVal, ih]
    by_cases h : x.code = c
    · simp [h]
    · simp only [h, if_false]; rfl

theorem regOf_foldl (l : List Result) (r : Tab Word) (c : Nat) (hc : c < 0x7C) :
    regOf (l.foldl regStep r) c = (lastVal c l).getD (regOf r c) := by
  induction l generalizing r with
  | nil => rfl
  | cons x l ih =>
    rw [List.foldl_cons, ih, lastVal]
    cases h : lastVal c l with
    | some v => simp
    | none =>
      simp only [Option.getD_none]
      unfold regStep
      by_cases hx : x.code = c
      · simp [hx, hc, regOf]
      · simp only [hx, if_false, Option.getD_none]
        split_ifs
        · exact Tab.getD_set_ne _ _ _ (Ne.symm hx)
        · rfl

theorem regOf_foldl_high (l : List Result) (r : Tab Word) (c : Nat) (hc : 0x7C ≤ c) : regOf (l.foldl regStep r) c = regOf r c := by
  induction l generalizing r with
  | nil => rfl
  | cons x l ih =>
    rw [List.foldl_cons, ih]
    unfold regStep
    split_ifs with h
    · exact Tab.getD_set_ne _ _ _ (by omega)
    · rfl

theorem predOf_foldl (l : List Result) (p : Byte) (n : Nat) :
    predOf (l.foldl predStep p) n =
      if n = 0 then true else if 8 ≤ n then false else ((lastVal (128 + n) l).map fun v => v.getLsbD 0).getD (p.getLsbD n) := by
  induction l generalizing p with
  | nil =>
    by_cases h : n = 0
    · simp [predOf, h]
    · by_cases h8 : 8 ≤ n
      · simp [predOf, h, h8]
      · simp [predOf, h, h8, lastVal]
  | cons x l ih =>
    rw [List.foldl_cons, ih, lastVal]
    by_cases h0 : n = 0
    · simp [h0]
    by_cases h8 : 8 ≤ n
    · simp [h0, h8]
    simp only [h0, h8, if_false]
    cases h : lastVal (128 + n) l with
    | some v => simp
    | none =>
      simp only [Option.map_none, Option.getD_none]
      unfold predStep
      by_cases hx : 128 < x.code
      · simp only [hx, if_true]
        by_cases h88 : x.code - 128 < 8
        · have := predOf_set p (x.code - 128) n (x.val.getLsbD 0) (by omega) h88
          unfold predOf at this
          simp only [show (n == 0) = false by simp [h0], Bool.false_or] at this
          rw [this]
          by_cases hn : x.code = 128 + n
          · simp [hn]
          · have : ¬ n = x.code - 128 := by omega
            simp [hn, this]
        · have : ¬ x.code = 128 + n := by omega
          simp only [this, if_false, Option.map_none, Option.getD_none]
          have hz : (1#8 <<< (x.code - 128)) = 0#8 := by
            apply BitVec.eq_of_getLsbD_eq; intro i hi
            simp [BitVec.getLsbD_shiftLeft]; omega
          have ho : p &&& 255#8 = p := by
            have := BitVec.and_allOnes (x := p); simpa using this
          cases hb : x.val.getLsbD 0 <;> simp_all
      · have : ¬ x.code = 128 + n := by omega
        simp [hx, this]

theorem setFlags_idem (w : Word) (f : BitVec 5) : setFlags (setFlags w f) f = setFlags w f := by
  simp only [setFlags, BitVec.or_assoc, BitVec.or_self]

@[simp] theorem setFlags_zero (w : Word) : setFlags w 0 = w := by
  simp [setFlags]

/-! The issue of a word that runs to its own effect -/

theorem spoilOut_eq (s : State) (m : MxOut) : s.spoilOut m = { s with
    th := { s.th with mx := (s.spoilOut m).th.mx }
    teams := (s.spoilOut m).teams, ops := (s.spoilOut m).ops, moves := (s.spoilOut m).moves } := by
  unfold State.spoilOut State.spoilFor State.freeTiles State.modTeam State.modThread State.thread? State.setThread
  split
  · rfl
  · next h =>
    split_ifs
    · split <;> rfl
    · split <;> rfl
    · simp only [h, if_true]

theorem spoilOuts_eq (l : List MxOut) (s : State) : l.foldl State.spoilOut s = { s with
    th := { s.th with mx := (l.foldl State.spoilOut s).th.mx }
    teams := (l.foldl State.spoilOut s).teams, ops := (l.foldl State.spoilOut s).ops
    moves := (l.foldl State.spoilOut s).moves } := by
  induction l generalizing s with
  | nil => rfl
  | cons m l ih =>
    rw [List.foldl_cons, ih, spoilOut_eq]

/-- What the writes of a word do to its outstanding matrix operations touches tiles, operations, movements and the thread's record of its
operations alone. -/
theorem spoilMx_eq (i : Instr) (s : State) : spoilMx i s = { s with
    th := { s.th with mx := (spoilMx i s).th.mx }
    teams := (spoilMx i s).teams, ops := (spoilMx i s).ops, moves := (spoilMx i s).moves } :=
  spoilOuts_eq _ s

theorem spoilMx_none (i : Instr) (s : State) (h : (s.th.mx.all fun m => !meets m.codes i.writeCodes) = true) : spoilMx i s = s := by
  have : (s.th.mx.filter fun m => meets m.codes i.writeCodes) = [] := by
    rw [List.filter_eq_nil_iff]
    intro m hm
    have := List.all_eq_true.mp h m hm
    simpa using this
  simp [spoilMx, this]

/-- What the writing of results touches in a thread. -/
theorem Thread.settleOne_eq (t : Thread) (x : Result) : t.settleOne x = { t with
    regs := (t.settleOne x).regs, preds := (t.settleOne x).preds, fpc := (t.settleOne x).fpc, early := (t.settleOne x).early
    lvoid := (t.settleOne x).lvoid, poison := (t.settleOne x).poison } := by
  unfold Thread.settleOne Thread.setReg Thread.setPred
  split_ifs <;> rfl

theorem Thread.foldl_eq (l : List Result) (t : Thread) : l.foldl Thread.settleOne t = { t with
    regs := (l.foldl Thread.settleOne t).regs, preds := (l.foldl Thread.settleOne t).preds
    fpc := (l.foldl Thread.settleOne t).fpc, early := (l.foldl Thread.settleOne t).early
    lvoid := (l.foldl Thread.settleOne t).lvoid, poison := (l.foldl Thread.settleOne t).poison } := by
  induction l generalizing t with
  | nil => rfl
  | cons x l ih => rw [List.foldl_cons, ih, Thread.settleOne_eq]

theorem Thread.settle_eq (t : Thread) : t.settle = { t with
    regs := t.settle.regs, preds := t.settle.preds, fpc := t.settle.fpc, early := t.settle.early, results := []
    lvoid := t.settle.lvoid, poison := t.settle.poison } := by
  unfold Thread.settle
  rw [Thread.foldl_eq]

/-- The thread of a word that begins. -/
theorem begin_th (i : Instr) (s : State) : (begin_ i s).th = { s.th with
    regs := (begin_ i s).th.regs, preds := (begin_ i s).th.preds, fpc := (begin_ i s).th.fpc, yielded := false
    early := (begin_ i s).th.early, results := (begin_ i s).th.results, lvoid := (begin_ i s).th.lvoid
    poison := (begin_ i s).th.poison } := by
  dsimp only [begin_]
  split
  · dsimp only
    rw [Thread.settle_eq]
  · rfl

theorem begin_rest (i : Instr) (s : State) :
    begin_ i s = { s with time := Nat.max s.time s.th.readyAt, th := (begin_ i s).th } := by
  dsimp only [begin_]
  split <;> rfl

/-- No result that a word waits for is outstanding once it has begun (R73). -/
theorem begin_results (i : Instr) (s : State) (c : Nat) (h : c ∈ i.writeCodes ∨ c ∈ i.readCodes) :
    ∀ x ∈ (begin_ i s).th.results, x.code ≠ c := by
  dsimp only [begin_]
  split
  · intro x hx; simp [Thread.settle] at hx
  · next hn =>
    intro x hx hc
    apply hn
    rw [List.any_eq_true]
    refine ⟨x, hx, ?_⟩
    rcases h with h | h <;> simp [hc, h]

/-- Beginning a word writes what was outstanding and nothing else. -/
theorem begin_settle (i : Instr) (s : State) :
    (begin_ i s).th.settle.regs = s.th.settle.regs ∧ (begin_ i s).th.settle.preds = s.th.settle.preds ∧
      (begin_ i s).th.settle.fpc = s.th.settle.fpc := by
  have h : ∀ t : Thread, ({ t with yielded := false } : Thread).settle.regs = t.settle.regs ∧
      ({ t with yielded := false } : Thread).settle.preds = t.settle.preds ∧
      ({ t with yielded := false } : Thread).settle.fpc = t.settle.fpc := fun t => by
    simp only [Thread.settle_regs, Thread.settle_preds, Thread.settle_fpc, and_self]
  dsimp only [begin_]
  split
  · simp only [Thread.settle_settle]; exact h s.th
  · exact h s.th

/-- A word that leaves its thread's level alone has not left. -/
theorem left_of_level {s t : State} (h : t.th.level = s.th.level) : s.left t = false := by
  unfold State.left
  rw [h]
  cases s.th.level <;> cases s.onHost <;> rfl

theorem perform_tight {i : Instr} {s : State} (k : State → Res) (h : loose i s = false) : perform i s k = k s := by
  simp only [perform, h, Bool.false_eq_true, if_false]

/-- A word that runs to its own effect: what `issue` answers. -/
theorem issue_runs {i : Instr} {s : State} (k : State → Res) (h : Runs i s) {s' : State} (hk : k (begin_ i s) = .ok s')
    (hl : s'.th.level = (begin_ i s).th.level) :
    issue i s k = .next (retire i ((begin_ i s).space (begin_ i s).cur).eid.toNat (some (nextIndex i (begin_ i s))) s') := by
  obtain ⟨h1, h2, h3, h4, h5⟩ := h
  simp only [issue, h1, issueAlone, h2, h3, h4, perform_tight k h5, Bool.false_eq_true, if_false, hk, left_of_level hl]

theorem issue_goes {i : Instr} {s : State} (k : State → Res) (h : Runs i s) {s' : State} {w : Word}
    (hk : k (begin_ i s) = .goto w s') :
    issue i s k = .next (retire i ((begin_ i s).space (begin_ i s).cur).eid.toNat (some w) s'.voidL) := by
  obtain ⟨h1, h2, h3, h4, h5⟩ := h
  simp only [issue, h1, issueAlone, h2, h3, h4, perform_tight k h5, Bool.false_eq_true, if_false, hk]

theorem issue_moves {i : Instr} {s : State} (k : State → Res) (h : Runs i s) {s' : State} (hk : k (begin_ i s) = .moved s') :
    issue i s k = .next (retire i ((begin_ i s).space (begin_ i s).cur).eid.toNat none s') := by
  obtain ⟨h1, h2, h3, h4, h5⟩ := h
  simp only [issue, h1, issueAlone, h2, h3, h4, perform_tight k h5, Bool.false_eq_true, if_false, hk]

theorem nextIndex_begin (i : Instr) (s : State) : nextIndex i (begin_ i s) = nextIndex i s := by
  unfold nextIndex
  rw [begin_th]

/-- What `retire` adds to a state outside a chain. -/
theorem account_eq (i : Instr) (e : Nat) (s : State) : account i e s = { s with
    th := { s.th with readyAt := s.time + (1 + stallOf i) * s.period }
    meters := (account i e s).meters, evcnt := (account i e s).evcnt } := by
  unfold account State.count State.charge State.chargeAt stallOf
  dsimp only
  split <;> split <;> split <;> rfl

theorem retire_eq (i : Instr) (e : Nat) (w : Word) (s : State) (hc : s.chain = none) :
    retire i e (some w) s = { s with
      th := { s.th with readyAt := s.time + (1 + stallOf i) * s.period, w := w, mx := (spoilMx i (account i e s)).th.mx }
      fresh := s.fresh + 1
      meters := (account i e s).meters, evcnt := (account i e s).evcnt
      teams := (spoilMx i (account i e s)).teams, ops := (spoilMx i (account i e s)).ops
      moves := (spoilMx i (account i e s)).moves } := by
  have hd : spoilDouble i (account i e s) = account i e s := by
    unfold spoilDouble
    rw [account_eq]; simp only [hc]
  unfold retire State.freshen
  simp only [hd]
  rw [spoilMx_eq, account_eq]
  simp only [hc, Option.map_none]

/-- A state that only the thread's registers, predicates, FPC and pending results set apart from the beginning of the word. -/
structure Touched (b u : State) : Prop where
  thread : u.th = { b.th with
    regs := u.th.regs, preds := u.th.preds, fpc := u.th.fpc, early := u.th.early, results := u.th.results
    lvoid := u.th.lvoid, poison := u.th.poison }
  rest : u = { b with th := u.th }

theorem Touched.refl (b : State) : Touched b b := ⟨rfl, rfl⟩

theorem Touched.trans {a b c : State} (h : Touched a b) (g : Touched b c) : Touched a c := by
  obtain ⟨h1, h2⟩ := h
  obtain ⟨g1, g2⟩ := g
  exact ⟨by rw [g1, h1], by rw [g2, h2]⟩

theorem all_codes_begin (i : Instr) (s : State) : (begin_ i s).th.mx = s.th.mx := by rw [begin_th]

/-- The end of a word whose effect touched its own thread alone. -/
theorem did_of {i : Instr} {s u : State} {e : Nat} {w : Word} {regs : List (Nat × Word)} {preds : List (Nat × Bool)} {flags : BitVec 5}
    (hc : s.chain = none) (hu : Touched (begin_ i s) u)
    (hw : ∀ p ∈ regs, u.final p.1 = p.2) (hk : ∀ c, (∀ p ∈ regs, p.1 ≠ c) → u.final c = s.final c)
    (hwp : ∀ p ∈ preds, p.1 ≠ 0 → u.finalPred p.1 = p.2) (hkp : ∀ n, (∀ p ∈ preds, p.1 ≠ n) → u.finalPred n = s.finalPred n)
    (hf : u.finalFpc = setFlags s.finalFpc flags) :
    Did i s (retire i e (some w) u) w regs preds flags := by
  have hrest := hu.rest
  have hcu : u.chain = none := by rw [hrest, begin_rest]; exact hc
  have htime : u.time = Nat.max s.time s.th.readyAt := by rw [hrest, begin_rest]
  have hcur : u.cur = s.cur := by rw [hrest, begin_rest]
  have hper : u.period = s.period := by unfold State.period; rw [hcur]
  have hset : ∀ t : Thread, ∀ r w' m, ({ t with readyAt := r, w := w', mx := m } : Thread).settle.regs = t.settle.regs ∧
      ({ t with readyAt := r, w := w', mx := m } : Thread).settle.preds = t.settle.preds ∧
      ({ t with readyAt := r, w := w', mx := m } : Thread).settle.fpc = t.settle.fpc := fun t r w' m => by
    simp only [Thread.settle_regs, Thread.settle_preds, Thread.settle_fpc, and_self]
  have hR := retire_eq i e w u hcu
  obtain ⟨r1, r2, r3⟩ := hset u.th (u.time + (1 + stallOf i) * u.period) w (spoilMx i (account i e u)).th.mx
  have f1 : ∀ c, (retire i e (some w) u).final c = u.final c := fun c => by
    rw [hR]; unfold State.final Thread.reg; dsimp only; rw [r1]
  have f2 : ∀ c, (retire i e (some w) u).finalPred c = u.finalPred c := fun c => by
    rw [hR]; unfold State.finalPred; dsimp only; rw [r2]
  have f3 : (retire i e (some w) u).finalFpc = u.finalFpc := by
    rw [hR]; unfold State.finalFpc; dsimp only; rw [r3]
  refine ⟨fun p hp => (f1 _).trans (hw p hp), fun c hc => (f1 _).trans (hk c hc), fun p hp h0 => (f2 _).trans (hwp p hp h0),
    fun n hn => (f2 _).trans (hkp n hn), f3.trans hf, ?_, ?_, ?_, ?_⟩
  · rw [hR]
  · rw [hR]; exact htime
  · rw [hR]; dsimp only; rw [hper]
  · refine ⟨?_, ?_, ?_⟩
    · rw [hR]; dsimp only; rw [hu.thread, begin_th]
    · rw [hR, hrest, begin_rest]
    · intro hm
      have hmx : (account i e u).th.mx = s.th.mx := by rw [account_eq, hu.thread, begin_th]
      have := spoilMx_none i (account i e u) (by rw [hmx]; exact hm)
      have hm' : u.th.mx = s.th.mx := by rw [hu.thread, begin_th]
      rw [hR]; dsimp only; rw [this, account_eq]; dsimp only
      exact ⟨by rw [hrest, begin_rest], by rw [hrest, begin_rest], by rw [hrest, begin_rest], hm'⟩

/-! Fixed-latency results -/

theorem putFixed_touched (s : State) (l : Lat) (c : Nat) (v : Word) : Touched s (s.putFixed l c v) := ⟨rfl, rfl⟩

theorem put_touched (s : State) (l : Lat) (d : Opnd) (v : Word) : Touched s (s.put l d v) := by
  unfold State.put; split_ifs
  · exact putFixed_touched ..
  · exact Touched.refl s

theorem put2_touched (s : State) (l : Lat) (d : Opnd) (v : Dword) : Touched s (s.put2 l d v) := by
  unfold State.put2; split_ifs
  · exact (putFixed_touched ..).trans (putFixed_touched ..)
  · exact Touched.refl s

theorem putPred_touched (s : State) (l : Lat) (n : Nat) (v : Bool) : Touched s (s.putPred l n v) := by
  unfold State.putPred Thread.setPred; split_ifs <;> exact ⟨rfl, rfl⟩

theorem Opnd.code_lt {d : Opnd} (h : d.isReg = true) : d.code < 0x7C := by
  cases d with
  | g n => have := n.isLt; simp only [Opnd.code]; omega
  | o n => have := n.isLt; simp only [Opnd.code]; omega
  | l n => have := n.isLt; simp only [Opnd.code]; omega
  | zr => cases h
  | lit => cases h
  | bad _ => cases h

theorem putFixed_final (s : State) (l : Lat) (c : Nat) (v : Word) (hc : c < 0x7C) (hr : ∀ x ∈ s.th.results, x.code ≠ c) (c' : Nat) :
    (s.putFixed l c v).final c' = if c' = c then v else s.final c' := by
  unfold State.final Thread.reg
  rw [Thread.settle_regs, Thread.settle_regs]
  have h1 : (s.putFixed l c v).th.results = s.th.results := rfl
  have h2 : (s.putFixed l c v).th.regs = Tab.set s.th.regs 0 c v := rfl
  rw [h1, h2]
  rcases Nat.lt_or_ge c' 0x7C with h | h
  · rw [regOf_foldl _ _ _ h, regOf_foldl _ _ _ h]
    by_cases hcc : c' = c
    · subst hcc; rw [lastVal_none hr]; simp [regOf]
    · simp only [hcc, if_false]; congr 1; exact Tab.getD_set_ne _ _ _ hcc
  · rw [regOf_foldl_high _ _ _ h, regOf_foldl_high _ _ _ h]
    have hcc : c' ≠ c := by omega
    simp only [hcc, if_false]; exact Tab.getD_set_ne _ _ _ hcc

theorem putFixed_finalPred (s : State) (l : Lat) (c : Nat) (v : Word) (n : Nat) : (s.putFixed l c v).finalPred n = s.finalPred n := by
  unfold State.finalPred
  rw [Thread.settle_preds, Thread.settle_preds]; rfl

theorem putFixed_finalFpc (s : State) (l : Lat) (c : Nat) (v : Word) : (s.putFixed l c v).finalFpc = s.finalFpc := by
  unfold State.finalFpc
  rw [Thread.settle_fpc, Thread.settle_fpc]; rfl

theorem putPred_final (s : State) (l : Lat) (n : Nat) (v : Bool) (c : Nat) : (s.putPred l n v).final c = s.final c := by
  unfold State.putPred Thread.setPred State.final Thread.reg; split_ifs <;> first | rfl | rw [Thread.settle_regs, Thread.settle_regs]

theorem putPred_finalFpc (s : State) (l : Lat) (n : Nat) (v : Bool) : (s.putPred l n v).finalFpc = s.finalFpc := by
  unfold State.putPred Thread.setPred State.finalFpc; split_ifs <;> first | rfl | rw [Thread.settle_fpc, Thread.settle_fpc]

theorem putPred_finalPred (s : State) (l : Lat) (p : BitVec 3) (v : Bool) (hr : ∀ x ∈ s.th.results, p ≠ 0 → x.code ≠ 128 + p.toNat) (m : Nat) :
    (s.putPred l p.toNat v).finalPred m = if p ≠ 0 ∧ m = p.toNat then v else s.finalPred m := by
  by_cases hp : p = 0
  · subst hp; rfl
  · have h0 : p.toNat ≠ 0 := by simpa [← BitVec.toNat_inj] using hp
    have h8 : p.toNat < 8 := by omega
    unfold State.finalPred
    rw [Thread.settle_preds, Thread.settle_preds]
    have h1 : (s.putPred l p.toNat v).th.results = s.th.results := by
      unfold State.putPred Thread.setPred; simp only [h0, if_false]
    have h2 : (s.putPred l p.toNat v).th.preds = (s.th.setPred p.toNat v).preds := by
      unfold State.putPred; simp only [h0, if_false]
    rw [h1, h2, predOf_foldl, predOf_foldl]
    have h3 := Thread.finalPred_setPred s.th p v m
    unfold predOf at h3
    by_cases hm : m = p.toNat
    · subst hm
      have hn : ∀ x ∈ s.th.results, x.code ≠ 128 + p.toNat := fun x hx => hr x hx hp
      rw [lastVal_none hn]
      simp only [h0, if_false, hp, ne_eq, not_false_eq_true, and_self, if_true] at h3 ⊢
      have hb : (p.toNat == 0) = false := by simp [h0]
      simp only [hb, Bool.false_or] at h3
      simp [h3]; omega
    · by_cases hm0 : m = 0
      · have h0' : ¬ 0 = p.toNat := Ne.symm h0
        simp [hm0, h0']
      · have hb : (m == 0) = false := by simp [hm0]
        simp only [hb, Bool.false_or, hm, and_false, if_false] at h3
        simp [hm0, hm, h3]

/-! Interlocked results -/

theorem post_touched (s : State) (c : Nat) (v : Word) (f : BitVec 5) : Touched s (s.post c v f) := ⟨rfl, rfl⟩

theorem post_final (s : State) (c : Nat) (v : Word) (f : BitVec 5) (c' : Nat) :
    (s.post c v f).final c' = if c' = c ∧ c < 0x7C then v else s.final c' := by
  unfold State.final Thread.reg
  rw [Thread.settle_regs, Thread.settle_regs]
  have h1 : (s.post c v f).th.results = s.th.results ++ [⟨c, v, f⟩] := rfl
  have h2 : (s.post c v f).th.regs = s.th.regs := rfl
  rw [h1, h2]
  rcases Nat.lt_or_ge c' 0x7C with h | h
  · rw [regOf_foldl _ _ _ h, regOf_foldl _ _ _ h, lastVal_append]
    dsimp only
    by_cases hcc : c' = c
    · subst hcc; simp [h]
    · have hcc' : ¬ c = c' := Ne.symm hcc
      simp only [hcc, false_and, if_false, hcc']
  · rw [regOf_foldl_high _ _ _ h, regOf_foldl_high _ _ _ h]
    have hcc : ¬ (c' = c ∧ c < 0x7C) := by omega
    simp only [hcc, if_false]

theorem post_finalFpc (s : State) (c : Nat) (v : Word) (f : BitVec 5) : (s.post c v f).finalFpc = setFlags s.finalFpc f := by
  unfold State.finalFpc
  rw [Thread.settle_fpc, Thread.settle_fpc]
  have h1 : (s.post c v f).th.results = s.th.results ++ [⟨c, v, f⟩] := rfl
  rw [h1, List.foldl_append]; rfl

theorem post_finalPred_reg (s : State) (c : Nat) (v : Word) (f : BitVec 5) (hc : c ≤ 128) (n : Nat) :
    (s.post c v f).finalPred n = s.finalPred n := by
  unfold State.finalPred
  rw [Thread.settle_preds, Thread.settle_preds]
  have h1 : (s.post c v f).th.results = s.th.results ++ [⟨c, v, f⟩] := rfl
  have h2 : (s.post c v f).th.preds = s.th.preds := rfl
  rw [h1, h2, List.foldl_append]
  have : ¬ 128 < c := by omega
  simp [predStep, this]

theorem post_finalPred (s : State) (p : BitVec 3) (v : Word) (f : BitVec 5) (n : Nat) :
    (s.post (128 + p.toNat) v f).finalPred n = if p ≠ 0 ∧ n = p.toNat then v.getLsbD 0 else s.finalPred n := by
  unfold State.finalPred
  rw [Thread.settle_preds, Thread.settle_preds]
  have h1 : (s.post (128 + p.toNat) v f).th.results = s.th.results ++ [⟨128 + p.toNat, v, f⟩] := rfl
  have h2 : (s.post (128 + p.toNat) v f).th.preds = s.th.preds := rfl
  rw [h1, h2, List.foldl_append]
  have h4 : ([⟨128 + p.toNat, v, f⟩] : List Result).foldl predStep (s.th.results.foldl predStep s.th.preds)
      = predStep (s.th.results.foldl predStep s.th.preds) ⟨128 + p.toNat, v, f⟩ := rfl
  rw [h4]
  by_cases hp : p = 0
  · subst hp; simp [predStep]
  · have h0 : p.toNat ≠ 0 := by simpa [← BitVec.toNat_inj] using hp
    have hlt : 128 < 128 + p.toNat := by omega
    unfold predStep
    simp only [hlt, if_true, Nat.add_sub_cancel_left]
    rw [predOf_set _ _ _ _ h0 (by omega)]
    have hp' : ¬ p = 0#3 := hp
    simp [hp']

end Sys2Proof.Machine
end

