-- ==== Sys2Proof/Laws/Words.lean ====
section
/-! SUPPORT. What a word that runs to its own effect gives, for each way in which meanings write their results. -/

namespace Sys2Proof.Machine

/-- The operands of a word that runs are legal in their roles (R60-R66). -/
theorem Runs.legal {i : Instr} {s : State} (h : Runs i s) : ∀ u ∈ i.info.uses, u.ok s.th.allot = true := by
  have hg := h.2.2.2.1
  intro u hu
  by_contra hn
  have hi : illegalWord i (begin_ i s) = true := by
    unfold illegalWord
    have : i.info.uses.any (fun u => !u.ok (begin_ i s).th.allot) = true := by
      rw [List.any_eq_true]
      refine ⟨u, hu, ?_⟩
      rw [begin_th]
      simpa using hn
    simp only [this, Bool.or_true, Bool.true_or]
  simp [gate, hi] at hg

theorem mem_writeCodes {i : Instr} {u : Use} (hu : u ∈ i.info.uses) (hw : u.role.writes = true) (hr : u.opnd.isReg = true) {k : Nat}
    (hk : k < u.role.width) : u.opnd.code + k ∈ i.writeCodes := by
  unfold Instr.writeCodes
  refine List.mem_append_left _ (List.mem_flatMap.mpr ⟨u, List.mem_filter.mpr ⟨hu, hw⟩, ?_⟩)
  simp only [Use.codes, hr, if_true, List.mem_map, List.mem_range]
  exact ⟨k, hk, rfl⟩

theorem mem_writeCodes_pred {i : Instr} {n : Nat} (h : n ∈ i.info.pwrites) (h0 : n ≠ 0) : 128 + n ∈ i.writeCodes := by
  unfold Instr.writeCodes
  refine List.mem_append_right _ (List.mem_map.mpr ⟨n, List.mem_filter.mpr ⟨h, by simpa using h0⟩, rfl⟩)

/-- A pair destination of a word that runs names two registers of the file. -/
theorem Use.pair_lt {a : Nat} {u : Use} (h : u.ok a = true) (hw : u.role = .dst2 ∨ u.role = .rmw2) (hr : u.opnd.isReg = true) :
    u.opnd.code + 1 < 0x7C := by
  obtain ⟨r, o⟩ := u
  cases o with
  | g n =>
    have := n.isLt
    simp only [Opnd.code]; omega
  | o n =>
    have := n.isLt
    simp only [Opnd.code]; omega
  | l n => rcases hw with hw | hw <;> (dsimp only at hw; subst hw; simp [Use.ok] at h)
  | zr => cases hr
  | lit => cases hr
  | bad _ => cases hr

theorem begin_final (i : Instr) (s : State) (c : Nat) : (begin_ i s).final c = s.final c := by
  unfold State.final Thread.reg; rw [(begin_settle i s).1]

theorem begin_finalPred (i : Instr) (s : State) (n : Nat) : (begin_ i s).finalPred n = s.finalPred n := by
  unfold State.finalPred; rw [(begin_settle i s).2.1]

theorem begin_finalFpc (i : Instr) (s : State) : (begin_ i s).finalFpc = s.finalFpc := by
  unfold State.finalFpc; rw [(begin_settle i s).2.2]

/-- The shape of every word whose effect is on its own thread alone. -/
theorem gives_of {i : Instr} {s u : State} {k : State → Res} (h : Runs i s) (hx : exec i s = issue i s k)
    (hk : k (begin_ i s) = .ok u) (ht : Touched (begin_ i s) u) {regs : List (Nat × Word)} {preds : List (Nat × Bool)}
    {flags : BitVec 5} (hw : ∀ p ∈ regs, u.final p.1 = p.2) (hkp : ∀ c, (∀ p ∈ regs, p.1 ≠ c) → u.final c = s.final c)
    (hwp : ∀ p ∈ preds, p.1 ≠ 0 → u.finalPred p.1 = p.2) (hkpp : ∀ n, (∀ p ∈ preds, p.1 ≠ n) → u.finalPred n = s.finalPred n)
    (hf : u.finalFpc = setFlags s.finalFpc flags) : Gives i s regs preds flags := by
  refine ⟨_, by rw [hx]; exact issue_runs k h hk (by rw [ht.thread]), ?_⟩
  rw [nextIndex_begin]
  exact did_of h.1 ht hw hkp hwp hkpp hf

theorem gives_nothing {i : Instr} {s : State} {k : State → Res} (h : Runs i s) (hx : exec i s = issue i s k)
    (hk : k (begin_ i s) = .ok (begin_ i s)) : Gives i s [] :=
  gives_of h hx hk (Touched.refl _) (by simp) (fun c _ => begin_final i s c) (by simp) (fun n _ => begin_finalPred i s n)
    (by rw [begin_finalFpc, setFlags_zero])

theorem gives_put {i : Instr} {s : State} {k : State → Res} (l : Lat) {d : Opnd} {v : Word} (h : Runs i s)
    (hx : exec i s = issue i s k) (hk : k (begin_ i s) = .ok ((begin_ i s).put l d v))
    (hd : d.isReg = true → d.code ∈ i.writeCodes) : Gives i s (outs d v) := by
  have hfin : ∀ c, ((begin_ i s).put l d v).final c = if d.isReg = true ∧ c = d.code then v else s.final c := fun c => by
    unfold State.put
    by_cases hr : d.isReg = true
    · simp only [hr, if_true, true_and]
      rw [putFixed_final _ _ _ _ (Opnd.code_lt hr) (begin_results i s _ (.inl (hd hr))), begin_final]
    · simp only [hr]; exact begin_final i s c
  refine gives_of h hx hk (put_touched ..) ?_ ?_ (by simp) (fun n _ => ?_) ?_
  · intro p hp
    unfold outs at hp
    split at hp
    · next hr =>
      simp only [List.mem_singleton] at hp; subst hp
      rw [hfin]; simp [hr]
    · simp at hp
  · intro c hc
    rw [hfin]
    split
    · next hh => exact absurd hh.2.symm (hc (d.code, v) (by simp [outs, hh.1]))
    · rfl
  · unfold State.put; split_ifs
    · rw [putFixed_finalPred, begin_finalPred]
    · rw [begin_finalPred]
  · rw [setFlags_zero]
    unfold State.put; split_ifs
    · rw [putFixed_finalFpc, begin_finalFpc]
    · rw [begin_finalFpc]

theorem putFixed_results (s : State) (l : Lat) (c : Nat) (v : Word) : (s.putFixed l c v).th.results = s.th.results := rfl

theorem gives_put2 {i : Instr} {s : State} {k : State → Res} (l : Lat) {d : Opnd} {v : Dword} (h : Runs i s)
    (hx : exec i s = issue i s k) (hk : k (begin_ i s) = .ok ((begin_ i s).put2 l d v))
    (hd : d.isReg = true → d.code ∈ i.writeCodes ∧ d.code + 1 ∈ i.writeCodes ∧ d.code + 1 < 0x7C) : Gives i s (outs2 d v) := by
  by_cases hr : d.isReg = true
  · obtain ⟨h1, h2, h3⟩ := hd hr
    have hfin : ∀ c, ((begin_ i s).put2 l d v).final c =
        if c = d.code + 1 then v.hi else if c = d.code then v.lo else s.final c := fun c => by
      unfold State.put2
      simp only [hr, if_true]
      rw [putFixed_final _ _ _ _ h3 (by rw [putFixed_results]; exact begin_results i s _ (.inl h2)),
        putFixed_final _ _ _ _ (by omega) (begin_results i s _ (.inl h1)), begin_final]
    have ho : outs2 d v = [(d.code, v.lo), (d.code + 1, v.hi)] := by simp [outs2, hr]
    refine gives_of h hx hk (put2_touched ..) ?_ ?_ (by simp) (fun n _ => ?_) ?_
    · rw [ho]
      intro p hp
      simp only [List.mem_cons, List.not_mem_nil, or_false] at hp
      rcases hp with rfl | rfl
      · rw [hfin]; simp
      · rw [hfin]; simp
    · intro c hc
      rw [ho] at hc
      have c1 := hc (d.code, v.lo) (by simp)
      have c2 := hc (d.code + 1, v.hi) (by simp)
      rw [hfin, if_neg (Ne.symm c2), if_neg (Ne.symm c1)]
    · unfold State.put2; simp only [hr, if_true]
      rw [putFixed_finalPred, putFixed_finalPred, begin_finalPred]
    · unfold State.put2; simp only [hr, if_true]
      rw [putFixed_finalFpc, putFixed_finalFpc, begin_finalFpc, setFlags_zero]
  · have ho : outs2 d v = [] := by simp [outs2, hr]
    rw [ho]
    refine gives_nothing h hx ?_
    rw [hk]; unfold State.put2; simp [hr]

theorem gives_putPred {i : Instr} {s : State} {k : State → Res} (l : Lat) {p : BitVec 3} {v : Bool} (h : Runs i s)
    (hx : exec i s = issue i s k) (hk : k (begin_ i s) = .ok ((begin_ i s).putPred l p.toNat v))
    (hd : p ≠ 0 → 128 + p.toNat ∈ i.writeCodes) : Gives i s [] [(p.toNat, v)] := by
  have hfin := putPred_finalPred (begin_ i s) l p v (fun x hx hp => begin_results i s _ (.inl (hd hp)) x hx)
  refine gives_of h hx hk (putPred_touched ..) (by simp) (fun c _ => ?_) ?_ ?_ ?_
  · rw [putPred_final, begin_final]
  · intro q hq h0
    simp only [List.mem_singleton] at hq; subst hq
    rw [hfin]
    have : p ≠ 0 := by rintro rfl; exact h0 rfl
    exact if_pos ⟨this, rfl⟩
  · intro n hn
    have := hn (p.toNat, v) (by simp)
    rw [hfin, if_neg (fun hh => this hh.2.symm), begin_finalPred]
  · rw [putPred_finalFpc, begin_finalFpc, setFlags_zero]

theorem postTo_touched (s : State) (d : Opnd) (v : Word) (f : BitVec 5) : Touched s (s.postTo d v f) := by
  unfold State.postTo; split_ifs
  · exact post_touched ..
  · exact Touched.refl s
  · exact post_touched ..

theorem gives_postTo {i : Instr} {s : State} {k : State → Res} {d : Opnd} {v : Word} {f : BitVec 5} (h : Runs i s)
    (hx : exec i s = issue i s k) (hk : k (begin_ i s) = .ok ((begin_ i s).postTo d v f)) : Gives i s (outs d v) [] f := by
  have hfin : ∀ c, ((begin_ i s).postTo d v f).final c = if d.isReg = true ∧ c = d.code then v else s.final c := fun c => by
    unfold State.postTo
    by_cases hr : d.isReg = true
    · simp only [hr, if_true, true_and]
      rw [post_final, begin_final]; simp [Opnd.code_lt hr]
    · have hr' : d.isReg = false := by simpa using hr
      simp only [hr', Bool.false_eq_true, false_and, if_false]
      by_cases hf : f = 0
      · rw [if_pos hf]; exact begin_final i s c
      · rw [if_neg hf, post_final, begin_final]; simp
  refine gives_of h hx hk (postTo_touched ..) ?_ ?_ (by simp) (fun n _ => ?_) ?_
  · intro p hp
    unfold outs at hp
    split at hp
    · next hr =>
      simp only [List.mem_singleton] at hp; subst hp
      rw [hfin]; simp [hr]
    · simp at hp
  · intro c hc
    rw [hfin]
    split
    · next hh => exact absurd hh.2.symm (hc (d.code, v) (by simp [outs, hh.1]))
    · rfl
  · unfold State.postTo; split_ifs with hr
    · rw [post_finalPred_reg _ _ _ _ (by have := Opnd.code_lt hr; omega), begin_finalPred]
    · rw [begin_finalPred]
    · rw [post_finalPred_reg _ _ _ _ (by omega), begin_finalPred]
  · unfold State.postTo; split_ifs with hr hz
    · rw [post_finalFpc, begin_finalFpc]
    · rw [hz, setFlags_zero, begin_finalFpc]
    · rw [post_finalFpc, begin_finalFpc]

theorem gives_postTo2 {i : Instr} {s : State} {k : State → Res} {d : Opnd} {v : Dword} {f : BitVec 5} (h : Runs i s)
    (hx : exec i s = issue i s k) (hk : k (begin_ i s) = .ok ((begin_ i s).postTo2 d v f))
    (hd : d.isReg = true → d.code + 1 < 0x7C) : Gives i s (outs2 d v) [] f := by
  by_cases hr : d.isReg = true
  · have h3 := hd hr
    have hfin : ∀ c, ((begin_ i s).postTo2 d v f).final c =
        if c = d.code + 1 then v.hi else if c = d.code then v.lo else s.final c := fun c => by
      unfold State.postTo2
      simp only [hr, if_true]
      rw [post_final, post_final, begin_final]
      have h4 : d.code < 0x7C := by omega
      simp only [h3, h4, and_true]
    have ho : outs2 d v = [(d.code, v.lo), (d.code + 1, v.hi)] := by simp [outs2, hr]
    have hk' : k (begin_ i s) = .ok (((begin_ i s).post d.code v.lo f).post (d.code + 1) v.hi) := by
      rw [hk]; unfold State.postTo2; simp [hr]
    have hfin' : ∀ c, (((begin_ i s).post d.code v.lo f).post (d.code + 1) v.hi).final c =
        if c = d.code + 1 then v.hi else if c = d.code then v.lo else s.final c := fun c => by
      have := hfin c; unfold State.postTo2 at this; simpa [hr] using this
    refine gives_of h hx hk' ((post_touched ..).trans (post_touched ..)) ?_ ?_ (by simp) (fun n _ => ?_) ?_
    · rw [ho]
      intro p hp
      simp only [List.mem_cons, List.not_mem_nil, or_false] at hp
      rcases hp with rfl | rfl
      · rw [hfin']; simp
      · rw [hfin']; simp
    · intro c hc
      rw [ho] at hc
      have c1 := hc (d.code, v.lo) (by simp)
      have c2 := hc (d.code + 1, v.hi) (by simp)
      rw [hfin', if_neg (Ne.symm c2), if_neg (Ne.symm c1)]
    · rw [post_finalPred_reg _ _ _ _ (by omega), post_finalPred_reg _ _ _ _ (by omega), begin_finalPred]
    · rw [post_finalFpc, post_finalFpc, begin_finalFpc, setFlags_zero]
  · have ho : outs2 d v = outs d 0 := by simp [outs2, outs, hr]
    rw [ho]
    exact gives_postTo h hx (by rw [hk]; unfold State.postTo2; simp [hr])

theorem gives_postPred {i : Instr} {s : State} {k : State → Res} {p : BitVec 3} {v : Bool} {f : BitVec 5} (h : Runs i s)
    (hx : exec i s = issue i s k) (hk : k (begin_ i s) = .ok ((begin_ i s).postPred p.toNat v f)) : Gives i s [] [(p.toNat, v)] f := by
  by_cases hp : p = 0
  · subst hp
    have hk' : k (begin_ i s) = .ok ((begin_ i s).postTo .zr 0 f) := by
      rw [hk]; unfold State.postPred State.postTo; rfl
    obtain ⟨t, h1, h2⟩ := gives_postTo h hx hk'
    refine ⟨t, h1, ⟨h2.wrote, h2.kept, ?_, fun n _ => h2.keptP n (by simp), h2.fpc, h2.next, h2.time, h2.ready, h2.quiet⟩⟩
    intro q hq h0
    simp only [List.mem_singleton] at hq; subst hq; exact absurd rfl h0
  · have h0 : p.toNat ≠ 0 := by simpa [← BitVec.toNat_inj] using hp
    have hk' : k (begin_ i s) = .ok ((begin_ i s).post (128 + p.toNat) (if v then 1 else 0) f) := by
      rw [hk]; unfold State.postPred; simp [h0]
    refine gives_of h hx hk' (post_touched ..) (by simp) (fun c _ => ?_) ?_ ?_ ?_
    · rw [post_final, begin_final, if_neg (by omega)]
    · intro q hq _
      simp only [List.mem_singleton] at hq; subst hq
      rw [post_finalPred, if_pos ⟨hp, rfl⟩]; cases v <;> simp
    · intro n hn
      have := hn (p.toNat, v) (by simp)
      rw [post_finalPred, if_neg (fun hh => this hh.2.symm), begin_finalPred]
    · rw [post_finalFpc, begin_finalFpc]

/-! Flags raised at once (R41) -/

theorem setFlags_comm (w : Word) (f g : BitVec 5) : setFlags (setFlags w f) g = setFlags (setFlags w g) f := by
  simp only [setFlags, BitVec.or_assoc]
  rw [BitVec.or_comm (f.setWidth 32 <<< 8)]

theorem foldl_fpcStep (l : List Result) (w : Word) (f : BitVec 5) :
    l.foldl fpcStep (setFlags w f) = setFlags (l.foldl fpcStep w) f := by
  induction l generalizing w with
  | nil => rfl
  | cons x l ih => rw [List.foldl_cons, List.foldl_cons, fpcStep, setFlags_comm, ih]; rfl

theorem raise_touched (s : State) (f : BitVec 5) (h : s.chain = none) : Touched s (s.raise f) := by
  refine ⟨rfl, ?_⟩
  unfold State.raise
  simp only [h, Option.map_none]

theorem raise_final (s : State) (f : BitVec 5) (c : Nat) : (s.raise f).final c = s.final c := by
  unfold State.final Thread.reg; rw [Thread.settle_regs, Thread.settle_regs]; rfl

theorem raise_finalPred (s : State) (f : BitVec 5) (n : Nat) : (s.raise f).finalPred n = s.finalPred n := by
  unfold State.finalPred; rw [Thread.settle_preds, Thread.settle_preds]; rfl

theorem raise_finalFpc (s : State) (f : BitVec 5) : (s.raise f).finalFpc = setFlags s.finalFpc f := by
  unfold State.finalFpc; rw [Thread.settle_fpc, Thread.settle_fpc]
  exact foldl_fpcStep _ _ _

theorem begin_chain {i : Instr} {s : State} (h : Runs i s) : (begin_ i s).chain = none := by
  rw [begin_rest]; exact h.1

/-- A result that writes at once, with flags. -/
theorem gives_raised {i : Instr} {s u : State} {k : State → Res} {regs : List (Nat × Word)} {f : BitVec 5} (h : Runs i s)
    (hx : exec i s = issue i s k) (hk : k (begin_ i s) = .ok (u.raise f)) (ht : Touched (begin_ i s) u)
    (hw : ∀ p ∈ regs, u.final p.1 = p.2) (hkp : ∀ c, (∀ p ∈ regs, p.1 ≠ c) → u.final c = s.final c)
    (hp : ∀ n, u.finalPred n = s.finalPred n) (hf : u.finalFpc = s.finalFpc) : Gives i s regs [] f := by
  have hc : u.chain = none := by rw [ht.rest]; exact begin_chain h
  exact gives_of h hx hk (ht.trans (raise_touched u f hc)) (fun p hp => by rw [raise_final]; exact hw p hp)
    (fun c hc => by rw [raise_final]; exact hkp c hc) (by simp) (fun n _ => by rw [raise_finalPred]; exact hp n)
    (by rw [raise_finalFpc, hf])

theorem put_final {i : Instr} {s : State} (l : Lat) (d : Opnd) (v : Word) (hd : d.isReg = true → d.code ∈ i.writeCodes) (c : Nat) :
    ((begin_ i s).put l d v).final c = if d.isReg = true ∧ c = d.code then v else s.final c := by
  unfold State.put
  by_cases hr : d.isReg = true
  · simp only [hr, if_true, true_and]
    rw [putFixed_final _ _ _ _ (Opnd.code_lt hr) (begin_results i s _ (.inl (hd hr))), begin_final]
  · simp only [hr]; exact begin_final i s c

theorem gives_putF {i : Instr} {s : State} {k : State → Res} {d : Opnd} {v : Word} {f : BitVec 5} (h : Runs i s)
    (hx : exec i s = issue i s k) (hk : k (begin_ i s) = .ok (((begin_ i s).put .c4 d v).raise f))
    (hd : d.isReg = true → d.code ∈ i.writeCodes) : Gives i s (outs d v) [] f := by
  refine gives_raised h hx hk (put_touched ..) ?_ ?_ ?_ ?_
  · intro p hp
    unfold outs at hp
    split at hp
    · next hr =>
      simp only [List.mem_singleton] at hp; subst hp
      rw [put_final _ _ _ hd]; simp [hr]
    · simp at hp
  · intro c hc
    rw [put_final _ _ _ hd]
    split
    · next hh => exact absurd hh.2.symm (hc (d.code, v) (by simp [outs, hh.1]))
    · rfl
  · intro n; unfold State.put; split_ifs
    · rw [putFixed_finalPred, begin_finalPred]
    · rw [begin_finalPred]
  · unfold State.put; split_ifs
    · rw [putFixed_finalFpc, begin_finalFpc]
    · rw [begin_finalFpc]

theorem gives_put2F {i : Instr} {s : State} {k : State → Res} {d : Opnd} {v : Dword} {f : BitVec 5} (h : Runs i s)
    (hx : exec i s = issue i s k) (hk : k (begin_ i s) = .ok (((begin_ i s).put2 .c4 d v).raise f))
    (hd : d.isReg = true → d.code ∈ i.writeCodes ∧ d.code + 1 ∈ i.writeCodes ∧ d.code + 1 < 0x7C) : Gives i s (outs2 d v) [] f := by
  by_cases hr : d.isReg = true
  · obtain ⟨h1, h2, h3⟩ := hd hr
    have hfin : ∀ c, ((begin_ i s).put2 .c4 d v).final c =
        if c = d.code + 1 then v.hi else if c = d.code then v.lo else s.final c := fun c => by
      unfold State.put2
      simp only [hr, if_true]
      rw [putFixed_final _ _ _ _ h3 (by rw [putFixed_results]; exact begin_results i s _ (.inl h2)),
        putFixed_final _ _ _ _ (by omega) (begin_results i s _ (.inl h1)), begin_final]
    have ho : outs2 d v = [(d.code, v.lo), (d.code + 1, v.hi)] := by simp [outs2, hr]
    refine gives_raised h hx hk (put2_touched ..) ?_ ?_ ?_ ?_
    · rw [ho]
      intro p hp
      simp only [List.mem_cons, List.not_mem_nil, or_false] at hp
      rcases hp with rfl | rfl
      · rw [hfin]; simp
      · rw [hfin]; simp
    · intro c hc
      rw [ho] at hc
      have c1 := hc (d.code, v.lo) (by simp)
      have c2 := hc (d.code + 1, v.hi) (by simp)
      rw [hfin, if_neg (Ne.symm c2), if_neg (Ne.symm c1)]
    · intro n; unfold State.put2; simp only [hr, if_true]
      rw [putFixed_finalPred, putFixed_finalPred, begin_finalPred]
    · unfold State.put2; simp only [hr, if_true]
      rw [putFixed_finalFpc, putFixed_finalFpc, begin_finalFpc]
  · have ho : outs2 d v = [] := by simp [outs2, hr]
    rw [ho]
    refine gives_raised (u := begin_ i s) h hx ?_ (Touched.refl _) (by simp) (fun c _ => begin_final i s c)
      (fun n => begin_finalPred i s n) (begin_finalFpc i s)
    rw [hk]; unfold State.put2; simp [hr]

/-! The forms of words -/

theorem alu2_gives {i : Instr} {h : Hdr} {d a b : Opnd} {f : Word → Word → Word} {s : State} (hr : Runs i s)
    (hx : exec i s = alu2 i h d a b f s) (hd : d.isReg = true → d.code ∈ i.writeCodes) :
    Gives i s (outs d (f (operand i s h 1 a) (operand i s h 2 b))) :=
  gives_put .c2 hr (k := fun s => .ok (s.put .c2 d (f (s.src h 1 a) (s.src h 2 b)))) hx rfl hd

theorem alu3_gives {i : Instr} {h : Hdr} {d a b : Opnd} {f : Word → Word → Word → Word} {s : State} (hr : Runs i s)
    (hx : exec i s = alu3 i h d a b f s) (hd : d.isReg = true → d.code ∈ i.writeCodes) :
    Gives i s (outs d (f (operand i s h 0 d) (operand i s h 1 a) (operand i s h 2 b))) :=
  gives_put .c2 hr (k := fun s => .ok (s.put .c2 d (f (s.src h 0 d) (s.src h 1 a) (s.src h 2 b)))) hx rfl hd

theorem alu1_gives {i : Instr} {h : Hdr} {d a : Opnd} {f : Word → Word} {s : State} (hr : Runs i s)
    (hx : exec i s = alu1 i h d a f s) (hd : d.isReg = true → d.code ∈ i.writeCodes) :
    Gives i s (outs d (f (operand i s h 1 a))) :=
  gives_put .c2 hr (k := fun s => .ok (s.put .c2 d (f (s.src h 1 a)))) hx rfl hd

theorem setPredBy_gives {i : Instr} {p : BitVec 3} {f : State → Bool} {s : State} (hr : Runs i s)
    (hx : exec i s = setPredBy i p f s) (hd : p ≠ 0 → 128 + p.toNat ∈ i.writeCodes) :
    Gives i s [] [(p.toNat, f (begin_ i s))] :=
  gives_putPred .c2 hr (k := fun s => .ok (s.putPred .c2 p.toNat (f s))) hx rfl hd

theorem fop2_gives {i : Instr} {h : Hdr} {d a b : Opnd} {f : Word → Word → Word → FRes} {s : State} (hr : Runs i s)
    (hx : exec i s = fop2 i h d a b f s) (hd : d.isReg = true → d.code ∈ i.writeCodes) :
    Gives i s (outs d (.ofNat 32 (f (fpcOf i s) (operand i s h 1 a) (operand i s h 2 b)).bits)) []
      (f (fpcOf i s) (operand i s h 1 a) (operand i s h 2 b)).flags :=
  gives_putF hr (k := fun s => .ok (s.putF d (f s.fpcIn (s.src h 1 a) (s.src h 2 b)))) hx rfl hd

theorem fop3_gives {i : Instr} {h : Hdr} {d a b : Opnd} {f : Word → Word → Word → Word → FRes} {s : State} (hr : Runs i s)
    (hx : exec i s = fop3 i h d a b f s) (hd : d.isReg = true → d.code ∈ i.writeCodes) :
    Gives i s (outs d (.ofNat 32 (f (fpcOf i s) (operand i s h 0 d) (operand i s h 1 a) (operand i s h 2 b)).bits)) []
      (f (fpcOf i s) (operand i s h 0 d) (operand i s h 1 a) (operand i s h 2 b)).flags :=
  gives_putF hr (k := fun s => .ok (s.putF d (f s.fpcIn (s.src h 0 d) (s.src h 1 a) (s.src h 2 b)))) hx rfl hd

theorem fop1_gives {i : Instr} {h : Hdr} {d a : Opnd} {f : Word → Word → FRes} {s : State} (hr : Runs i s)
    (hx : exec i s = fop1 i h d a f s) (hd : d.isReg = true → d.code ∈ i.writeCodes) :
    Gives i s (outs d (.ofNat 32 (f (fpcOf i s) (operand i s h 1 a)).bits)) [] (f (fpcOf i s) (operand i s h 1 a)).flags :=
  gives_putF hr (k := fun s => .ok (s.putF d (f s.fpcIn (s.src h 1 a)))) hx rfl hd

theorem sfuOp_gives {i : Instr} {h : Hdr} {d a : Opnd} {f : Bool → Word → FRes} {s : State} (hr : Runs i s)
    (hx : exec i s = sfuOp i h d a f s) :
    Gives i s (outs d (.ofNat 32 (f (fpcFtz (fpcOf i s)) (operand i s h 1 a)).bits)) []
      (f (fpcFtz (fpcOf i s)) (operand i s h 1 a)).flags :=
  gives_postTo hr
    (k := fun s => let r := f (fpcFtz s.fpcIn) (s.src h 1 a); .ok (s.postTo d (.ofNat 32 r.bits) r.flags)) hx rfl

/-! Whole families: the arm and the first use of each word are what is left to show -/

theorem writes_first {i : Instr} {u : Use} {l : List Use} (hu : i.info.uses = u :: l) (hw : u.role.writes = true)
    (hr : u.opnd.isReg = true) {k : Nat} (hk : k < u.role.width) : u.opnd.code + k ∈ i.writeCodes :=
  mem_writeCodes (hu ▸ List.mem_cons_self) hw hr hk

theorem writes_one {i : Instr} {r : Role} {d : Opnd} {l : List Use} (hu : i.info.uses = ⟨r, d⟩ :: l) (hw : r.writes = true)
    (hk : 0 < r.width) : d.isReg = true → d.code ∈ i.writeCodes :=
  fun hr => writes_first hu hw hr hk

theorem writes_pair {i : Instr} {s : State} {r : Role} {d : Opnd} {l : List Use} (h : Runs i s) (hu : i.info.uses = ⟨r, d⟩ :: l)
    (hw : r = .dst2 ∨ r = .rmw2) :
    d.isReg = true → d.code ∈ i.writeCodes ∧ d.code + 1 ∈ i.writeCodes ∧ d.code + 1 < 0x7C := by
  intro hr
  have h1 : r.writes = true := by rcases hw with h | h <;> rw [h] <;> rfl
  have h2 : r.width = 2 := by rcases hw with h | h <;> rw [h] <;> rfl
  exact ⟨writes_first (k := 0) hu h1 hr (by simp [h2]), writes_first hu h1 hr (by simp [h2]),
    Use.pair_lt (h.legal _ (hu ▸ List.mem_cons_self)) hw hr⟩

theorem binary_of {mk : Hdr → Opnd → Opnd → Opnd → Instr} {f : Word → Word → Word}
    (hx : ∀ h d a b s, exec (mk h d a b) s = alu2 (mk h d a b) h d a b f s)
    (hu : ∀ h d a b, (mk h d a b).info.uses = [⟨.dst, d⟩, ⟨.src, a⟩, ⟨.src, b⟩]) : Binary mk f :=
  fun h d a b s hr => alu2_gives hr (hx h d a b s) (writes_one (hu h d a b) rfl Nat.one_pos)

theorem ternary_of {mk : Hdr → Opnd → Opnd → Opnd → Instr} {f : Word → Word → Word → Word}
    (hx : ∀ h d a b s, exec (mk h d a b) s = alu3 (mk h d a b) h d a b f s)
    (hu : ∀ h d a b, (mk h d a b).info.uses = [⟨.rmw, d⟩, ⟨.src, a⟩, ⟨.src, b⟩]) : Ternary mk f :=
  fun h d a b s hr => alu3_gives hr (hx h d a b s) (writes_one (hu h d a b) rfl Nat.one_pos)

theorem unary_of {mk : Hdr → Opnd → Opnd → Instr} {f : Word → Word}
    (hx : ∀ h d a s, exec (mk h d a) s = alu1 (mk h d a) h d a f s)
    (hu : ∀ h d a, (mk h d a).info.uses = [⟨.dst, d⟩, ⟨.src, a⟩]) : Unary mk f :=
  fun h d a s hr => alu1_gives hr (hx h d a s) (writes_one (hu h d a) rfl Nat.one_pos)

theorem floatBinary_of {mk : Hdr → Opnd → Opnd → Opnd → Instr} {f : Word → Word → Word → FRes}
    (hx : ∀ h d a b s, exec (mk h d a b) s = fop2 (mk h d a b) h d a b f s)
    (hu : ∀ h d a b, (mk h d a b).info.uses = [⟨.dst, d⟩, ⟨.src, a⟩, ⟨.src, b⟩]) : FloatBinary mk f :=
  fun h d a b s hr => fop2_gives hr (hx h d a b s) (writes_one (hu h d a b) rfl Nat.one_pos)

theorem floatTernary_of {mk : Hdr → Opnd → Opnd → Opnd → Instr} {f : Word → Word → Word → Word → FRes}
    (hx : ∀ h d a b s, exec (mk h d a b) s = fop3 (mk h d a b) h d a b f s)
    (hu : ∀ h d a b, (mk h d a b).info.uses = [⟨.rmw, d⟩, ⟨.src, a⟩, ⟨.src, b⟩]) : FloatTernary mk f :=
  fun h d a b s hr => fop3_gives hr (hx h d a b s) (writes_one (hu h d a b) rfl Nat.one_pos)

theorem floatUnary_of {mk : Hdr → Opnd → Opnd → Instr} {f : Word → Word → FRes}
    (hx : ∀ h d a s, exec (mk h d a) s = fop1 (mk h d a) h d a f s)
    (hu : ∀ h d a, (mk h d a).info.uses = [⟨.dst, d⟩, ⟨.src, a⟩]) : FloatUnary mk f :=
  fun h d a s hr => fop1_gives hr (hx h d a s) (writes_one (hu h d a) rfl Nat.one_pos)

end Sys2Proof.Machine
end

