-- ==== Sys2Proof/Laws/Ends.lean ====
section
/-! SUPPORT. The end of a word whose effect reaches beyond its own thread. -/

namespace Sys2Proof.Machine

/-- What `retire` adds to a state outside a chain, where the effect has set the program counter itself. -/
theorem retire_none_eq (i : Instr) (e : Nat) (s : State) (hc : s.chain = none) : retire i e none s = { s with
    th := { s.th with readyAt := s.time + (1 + stallOf i) * s.period, mx := (spoilMx i (account i e s)).th.mx }
    fresh := s.fresh + 1
    meters := (account i e s).meters, evcnt := (account i e s).evcnt
    teams := (spoilMx i (account i e s)).teams, ops := (spoilMx i (account i e s)).ops
    moves := (spoilMx i (account i e s)).moves } := by
  have hd : spoilDouble i (account i e s) = account i e s := by
    unfold spoilDouble
    rw [account_eq]; simp only [hc]
  unfold retire State.freshen
  simp only [hd]
  rw [spoilMx_eq, account_eq]

/-- With no outstanding operation named, the accounting leaves tiles, operations and movements alone. -/
theorem spoilMx_quiet {i : Instr} {s : State} (h : (s.th.mx.all fun m => !meets m.codes i.writeCodes) = true) : spoilMx i s = s := by
  unfold spoilMx
  rw [List.filter_eq_nil_iff.2 fun m hm => by have := List.all_eq_true.1 h m hm; simpa using this]
  rfl

theorem account_teams (i : Instr) (e : Nat) (s : State) : (account i e s).teams = s.teams ∧ (account i e s).ops = s.ops ∧
    (account i e s).moves = s.moves ∧ (account i e s).th.mx = s.th.mx := by rw [account_eq]; exact ⟨rfl, rfl, rfl, rfl⟩

theorem ends_of {u : State} (i : Instr) (e : Nat) (w : Word) (hc : u.chain = none) : Ends i w u (retire i e (some w) u) := by
  obtain ⟨a1, a2, a3, a4⟩ := account_teams i e u
  refine ⟨?_, fun hm => ?_⟩
  · rw [retire_eq i e w u hc]
  · rw [retire_eq i e w u hc]
    dsimp only
    rw [spoilMx_quiet (by rw [a4]; exact hm)]
    exact ⟨a1, a2, a3, a4⟩

theorem ends_none {u : State} (i : Instr) (e : Nat) (hc : u.chain = none) : Ends i u.th.w u (retire i e none u) := by
  obtain ⟨a1, a2, a3, a4⟩ := account_teams i e u
  refine ⟨?_, fun hm => ?_⟩
  · rw [retire_none_eq i e u hc]
  · rw [retire_none_eq i e u hc]
    dsimp only
    rw [spoilMx_quiet (by rw [a4]; exact hm)]
    exact ⟨a1, a2, a3, a4⟩

theorem takes_of {i : Instr} {s u : State} {k : State → Res} (h : Runs i s) (hx : exec i s = issue i s k)
    (hk : k (begin_ i s) = .ok u) (hc : u.chain = none) (hl : u.th.level = s.th.level) : Takes i s u := by
  refine ⟨_, by rw [hx]; exact issue_runs k h hk (by rw [hl, begin_th]), ?_⟩
  rw [nextIndex_begin]
  exact ends_of i _ _ hc

theorem modTeam_chain (s : State) (n : Nat) (f : Team → Team) : (s.modTeam n f).chain = s.chain := by
  unfold State.modTeam
  split <;> rfl

@[simp] theorem unbind_chain (s : State) (l : List Nat) : (s.unbind l).chain = s.chain := by
  unfold State.unbind
  dsimp only
  split
  · rfl
  · rw [modTeam_chain]
    rfl

@[simp] theorem voidL_chain (s : State) : s.voidL.chain = s.chain := unbind_chain s lCodes

theorem goes_of {i : Instr} {s u : State} {w : Word} {k : State → Res} (h : Runs i s) (hx : exec i s = issue i s k)
    (hk : k (begin_ i s) = .goto w u) (hc : u.chain = none) : Goes i s w u :=
  ⟨_, by rw [hx]; exact issue_goes k h hk, ends_of i _ _ (by simpa using hc)⟩

theorem lands_of {i : Instr} {s u : State} {k : State → Res} (h : Runs i s) (hx : exec i s = issue i s k)
    (hk : k (begin_ i s) = .moved u) (hc : u.chain = none) : Lands i s u :=
  ⟨_, by rw [hx]; exact issue_moves k h hk, ends_none i _ hc⟩

end Sys2Proof.Machine
end

