-- ==== Sys2Proof/Laws/Keeps.lean ====
section
/-! SUPPORT. What it is for a state to keep another's canonical memory, and to run no chain where that one ran none, for every kind of
answer that an operation gives. -/

namespace Sys2Proof.Machine

/-- `t` keeps the canonical form of the memory of `z`, and where no chain runs, that none does. -/
structure Keeps (z t : State) : Prop where
  mem   : Memory.wf z.mem = true → Memory.wf t.mem = true
  chain : z.chain = none → t.chain = none

theorem Keeps.refl (s : State) : Keeps s s := ⟨id, id⟩

theorem Keeps.trans {a b c : State} (h : Keeps a b) (g : Keeps b c) : Keeps a c :=
  ⟨fun x => g.mem (h.mem x), fun x => g.chain (h.chain x)⟩

theorem Keeps.foldl {α : Type} {z : State} {f : State → α → State} {l : List α} {s : State}
    (hf : ∀ s x, Keeps z s → Keeps z (f s x)) (h : Keeps z s) : Keeps z (l.foldl f s) := by
  induction l generalizing s with
  | nil => exact h
  | cons x l ih => exact ih (hf s x h)

/-- A record update elsewhere. -/
theorem Keeps.lit {z s : State}
    {a_cur : ThreadId} {a_th : Thread} {a_threads : List (ThreadId × Thread)} {a_agenda : List Turn} {a_time : Nat} {a_fresh : Nat}
    {a_serial : Nat} {a_keysMade : Nat} {a_hosts : Tab HostCore} {a_teams : Tab Team} {a_launches : Tab Launch} {a_walkers : List
    Walker} {a_queues : Tab SimtQ} {a_paused : List Nat} {a_turns : Tab (Nat × Nat)} {a_lines : List Line} {a_clines : List Line}
    {a_ilines : List Line} {a_l2 : List L2Line} {a_tlb : List Tlb} {a_pots : Tab Pot} {a_ctrs : Tab Ctr} {a_nodes1 : Tab Ctr}
    {a_nodes2 : Tab Ctr} {a_roots : Tab Nat} {a_badTags : List Nat} {a_badMeta : List Nat} {a_sweeps : Tab Sweep} {a_homeSig : Tab
    Sigs} {a_slots : Tab KeySlot} {a_gkeys : List Nat} {a_encls : Tab Encl} {a_meters : Tab Meter} {a_evcnt : Tab Nat} {a_cores :
    Tab Core} {a_quads : Tab Quad} {a_ops : Tab MxOp} {a_drains : List Drain} {a_moves : List Move} {a_ctlQ : List ThreadId} {a_log
    : List LogEntry} {a_holds : List Hold} {a_atomQ : List AtomReq} {a_records : List Queued} {a_outst : List Outst} {a_ringSeq :
    Tab Nat} {a_ringNow : Option (Nat × Nat)} {a_ceLast : Tab Nat} {a_scrubs : List (Nat × Nat)} {a_pins : Tab Nat} {a_reg : Anchor}
    {a_trips : Tab Trip} {a_tandem : Tandem} {a_retired : List Nat} {a_power : Tab Power} {a_sessions : List Session} {a_spdmOut :
    List SpdmOut} {a_booted : Bool} {a_lmsTop : Nat} {a_lmsLeft : Nat} {a_links : Tab Link} {a_tdis : Tab Tdi} {a_dmas : List Dma}
    {a_ckJobs : List CkJob} {a_sealed : List CkImage}
    (h : Keeps z s) : Keeps z (State.mk
    a_cur a_th a_threads a_agenda a_time a_fresh a_serial a_keysMade s.chain a_hosts a_teams a_launches a_walkers a_queues a_paused
    a_turns s.mem a_lines a_clines a_ilines a_l2 a_tlb a_pots a_ctrs a_nodes1 a_nodes2 a_roots a_badTags a_badMeta a_sweeps
    a_homeSig a_slots a_gkeys a_encls a_meters a_evcnt a_cores a_quads a_ops a_drains a_moves a_ctlQ a_log a_holds a_atomQ a_records
    a_outst a_ringSeq a_ringNow a_ceLast a_scrubs a_pins a_reg a_trips a_tandem a_retired a_power a_sessions a_spdmOut a_booted
    a_lmsTop a_lmsLeft a_links a_tdis a_dmas a_ckJobs a_sealed) :=
  ⟨h.mem, h.chain⟩

/-- A record update that stores bytes at the home. -/
theorem Keeps.litAll {z s : State}
    {a_cur : ThreadId} {a_th : Thread} {a_threads : List (ThreadId × Thread)} {a_agenda : List Turn} {a_time : Nat} {a_fresh : Nat}
    {a_serial : Nat} {a_keysMade : Nat} {a_hosts : Tab HostCore} {a_teams : Tab Team} {a_launches : Tab Launch} {a_walkers : List
    Walker} {a_queues : Tab SimtQ} {a_paused : List Nat} {a_turns : Tab (Nat × Nat)} {a_lines : List Line} {a_clines : List Line}
    {a_ilines : List Line} {a_l2 : List L2Line} {a_tlb : List Tlb} {a_pots : Tab Pot} {a_ctrs : Tab Ctr} {a_nodes1 : Tab Ctr}
    {a_nodes2 : Tab Ctr} {a_roots : Tab Nat} {a_badTags : List Nat} {a_badMeta : List Nat} {a_sweeps : Tab Sweep} {a_homeSig : Tab
    Sigs} {a_slots : Tab KeySlot} {a_gkeys : List Nat} {a_encls : Tab Encl} {a_meters : Tab Meter} {a_evcnt : Tab Nat} {a_cores :
    Tab Core} {a_quads : Tab Quad} {a_ops : Tab MxOp} {a_drains : List Drain} {a_moves : List Move} {a_ctlQ : List ThreadId} {a_log
    : List LogEntry} {a_holds : List Hold} {a_atomQ : List AtomReq} {a_records : List Queued} {a_outst : List Outst} {a_ringSeq :
    Tab Nat} {a_ringNow : Option (Nat × Nat)} {a_ceLast : Tab Nat} {a_scrubs : List (Nat × Nat)} {a_pins : Tab Nat} {a_reg : Anchor}
    {a_trips : Tab Trip} {a_tandem : Tandem} {a_retired : List Nat} {a_power : Tab Power} {a_sessions : List Session} {a_spdmOut :
    List SpdmOut} {a_booted : Bool} {a_lmsTop : Nat} {a_lmsLeft : Nat} {a_links : Tab Link} {a_tdis : Tab Tdi} {a_dmas : List Dma}
    {a_ckJobs : List CkJob} {a_sealed : List CkImage}
    {at_ : Nat} {bs : List Byte} (h : Keeps z s) : Keeps z (State.mk
    a_cur a_th a_threads a_agenda a_time a_fresh a_serial a_keysMade s.chain a_hosts a_teams a_launches a_walkers a_queues a_paused
    a_turns (Memory.setAll s.mem at_ bs) a_lines a_clines a_ilines a_l2 a_tlb a_pots a_ctrs a_nodes1 a_nodes2 a_roots a_badTags
    a_badMeta a_sweeps a_homeSig a_slots a_gkeys a_encls a_meters a_evcnt a_cores a_quads a_ops a_drains a_moves a_ctlQ a_log
    a_holds a_atomQ a_records a_outst a_ringSeq a_ringNow a_ceLast a_scrubs a_pins a_reg a_trips a_tandem a_retired a_power
    a_sessions a_spdmOut a_booted a_lmsTop a_lmsLeft a_links a_tdis a_dmas a_ckJobs a_sealed) :=
  ⟨fun x => Memory.setAll_wf bs _ at_ (h.mem x), h.chain⟩

theorem Keeps.litSet {z s : State}
    {a_cur : ThreadId} {a_th : Thread} {a_threads : List (ThreadId × Thread)} {a_agenda : List Turn} {a_time : Nat} {a_fresh : Nat}
    {a_serial : Nat} {a_keysMade : Nat} {a_hosts : Tab HostCore} {a_teams : Tab Team} {a_launches : Tab Launch} {a_walkers : List
    Walker} {a_queues : Tab SimtQ} {a_paused : List Nat} {a_turns : Tab (Nat × Nat)} {a_lines : List Line} {a_clines : List Line}
    {a_ilines : List Line} {a_l2 : List L2Line} {a_tlb : List Tlb} {a_pots : Tab Pot} {a_ctrs : Tab Ctr} {a_nodes1 : Tab Ctr}
    {a_nodes2 : Tab Ctr} {a_roots : Tab Nat} {a_badTags : List Nat} {a_badMeta : List Nat} {a_sweeps : Tab Sweep} {a_homeSig : Tab
    Sigs} {a_slots : Tab KeySlot} {a_gkeys : List Nat} {a_encls : Tab Encl} {a_meters : Tab Meter} {a_evcnt : Tab Nat} {a_cores :
    Tab Core} {a_quads : Tab Quad} {a_ops : Tab MxOp} {a_drains : List Drain} {a_moves : List Move} {a_ctlQ : List ThreadId} {a_log
    : List LogEntry} {a_holds : List Hold} {a_atomQ : List AtomReq} {a_records : List Queued} {a_outst : List Outst} {a_ringSeq :
    Tab Nat} {a_ringNow : Option (Nat × Nat)} {a_ceLast : Tab Nat} {a_scrubs : List (Nat × Nat)} {a_pins : Tab Nat} {a_reg : Anchor}
    {a_trips : Tab Trip} {a_tandem : Tandem} {a_retired : List Nat} {a_power : Tab Power} {a_sessions : List Session} {a_spdmOut :
    List SpdmOut} {a_booted : Bool} {a_lmsTop : Nat} {a_lmsLeft : Nat} {a_links : Tab Link} {a_tdis : Tab Tdi} {a_dmas : List Dma}
    {a_ckJobs : List CkJob} {a_sealed : List CkImage}
    {at_ : Nat} {b : Byte} (h : Keeps z s) : Keeps z (State.mk
    a_cur a_th a_threads a_agenda a_time a_fresh a_serial a_keysMade s.chain a_hosts a_teams a_launches a_walkers a_queues a_paused
    a_turns (Memory.set s.mem at_ b) a_lines a_clines a_ilines a_l2 a_tlb a_pots a_ctrs a_nodes1 a_nodes2 a_roots a_badTags
    a_badMeta a_sweeps a_homeSig a_slots a_gkeys a_encls a_meters a_evcnt a_cores a_quads a_ops a_drains a_moves a_ctlQ a_log
    a_holds a_atomQ a_records a_outst a_ringSeq a_ringNow a_ceLast a_scrubs a_pins a_reg a_trips a_tandem a_retired a_power
    a_sessions a_spdmOut a_booted a_lmsTop a_lmsLeft a_links a_tdis a_dmas a_ckJobs a_sealed) :=
  ⟨fun x => Memory.set_wf _ at_ b (h.mem x), h.chain⟩

theorem Keeps.litClear {z s : State}
    {a_cur : ThreadId} {a_th : Thread} {a_threads : List (ThreadId × Thread)} {a_agenda : List Turn} {a_time : Nat} {a_fresh : Nat}
    {a_serial : Nat} {a_keysMade : Nat} {a_hosts : Tab HostCore} {a_teams : Tab Team} {a_launches : Tab Launch} {a_walkers : List
    Walker} {a_queues : Tab SimtQ} {a_paused : List Nat} {a_turns : Tab (Nat × Nat)} {a_lines : List Line} {a_clines : List Line}
    {a_ilines : List Line} {a_l2 : List L2Line} {a_tlb : List Tlb} {a_pots : Tab Pot} {a_ctrs : Tab Ctr} {a_nodes1 : Tab Ctr}
    {a_nodes2 : Tab Ctr} {a_roots : Tab Nat} {a_badTags : List Nat} {a_badMeta : List Nat} {a_sweeps : Tab Sweep} {a_homeSig : Tab
    Sigs} {a_slots : Tab KeySlot} {a_gkeys : List Nat} {a_encls : Tab Encl} {a_meters : Tab Meter} {a_evcnt : Tab Nat} {a_cores :
    Tab Core} {a_quads : Tab Quad} {a_ops : Tab MxOp} {a_drains : List Drain} {a_moves : List Move} {a_ctlQ : List ThreadId} {a_log
    : List LogEntry} {a_holds : List Hold} {a_atomQ : List AtomReq} {a_records : List Queued} {a_outst : List Outst} {a_ringSeq :
    Tab Nat} {a_ringNow : Option (Nat × Nat)} {a_ceLast : Tab Nat} {a_scrubs : List (Nat × Nat)} {a_pins : Tab Nat} {a_reg : Anchor}
    {a_trips : Tab Trip} {a_tandem : Tandem} {a_retired : List Nat} {a_power : Tab Power} {a_sessions : List Session} {a_spdmOut :
    List SpdmOut} {a_booted : Bool} {a_lmsTop : Nat} {a_lmsLeft : Nat} {a_links : Tab Link} {a_tdis : Tab Tdi} {a_dmas : List Dma}
    {a_ckJobs : List CkJob} {a_sealed : List CkImage}
    {at_ n : Nat} (h : Keeps z s) : Keeps z (State.mk
    a_cur a_th a_threads a_agenda a_time a_fresh a_serial a_keysMade s.chain a_hosts a_teams a_launches a_walkers a_queues a_paused
    a_turns (Memory.clear s.mem at_ n) a_lines a_clines a_ilines a_l2 a_tlb a_pots a_ctrs a_nodes1 a_nodes2 a_roots a_badTags
    a_badMeta a_sweeps a_homeSig a_slots a_gkeys a_encls a_meters a_evcnt a_cores a_quads a_ops a_drains a_moves a_ctlQ a_log
    a_holds a_atomQ a_records a_outst a_ringSeq a_ringNow a_ceLast a_scrubs a_pins a_reg a_trips a_tandem a_retired a_power
    a_sessions a_spdmOut a_booted a_lmsTop a_lmsLeft a_links a_tdis a_dmas a_ckJobs a_sealed) :=
  ⟨fun x => Memory.clear_wf _ at_ n (h.mem x), h.chain⟩

/-! The same of an operation that answers more than a state -/

/-- What a word's effect keeps, however it ends. -/
def Res.Keeps (z : State) : Res → Prop
  | .ok s | .goto _ s | .moved s | .trap _ _ s | .targetTrap _ _ s | .stall s | .targetStall s => Machine.Keeps z s
  | .hold => True

theorem Res.Keeps.ok {z s : State} (h : Machine.Keeps z s) : Res.Keeps z (.ok s) := h
theorem Res.Keeps.goto {z s : State} {w : Word} (h : Machine.Keeps z s) : Res.Keeps z (.goto w s) := h
theorem Res.Keeps.moved {z s : State} (h : Machine.Keeps z s) : Res.Keeps z (.moved s) := h
theorem Res.Keeps.trap {z s : State} {t : Trap} {v : Dword} (h : Machine.Keeps z s) : Res.Keeps z (.trap t v s) := h
theorem Res.Keeps.targetTrap {z s : State} {t : Trap} {v : Dword} (h : Machine.Keeps z s) : Res.Keeps z (.targetTrap t v s) := h
theorem Res.Keeps.stall {z s : State} (h : Machine.Keeps z s) : Res.Keeps z (.stall s) := h
theorem Res.Keeps.targetStall {z s : State} (h : Machine.Keeps z s) : Res.Keeps z (.targetStall s) := h
theorem Res.Keeps.hold {z : State} : Res.Keeps z .hold := trivial
theorem Res.Keeps.ofOk {z s : State} {r : Res} (e : r = .ok s) (h : Res.Keeps z r) : Machine.Keeps z s := by subst e; exact h
theorem Res.Keeps.ofGoto {z s : State} {r : Res} {w : Word} (e : r = .goto w s) (h : Res.Keeps z r) : Machine.Keeps z s := by subst e; exact h
theorem Res.Keeps.ofMoved {z s : State} {r : Res} (e : r = .moved s) (h : Res.Keeps z r) : Machine.Keeps z s := by subst e; exact h
theorem Res.Keeps.ofStall {z s : State} {r : Res} (e : r = .stall s) (h : Res.Keeps z r) : Machine.Keeps z s := by subst e; exact h
theorem Res.Keeps.ofTargetStall {z s : State} {r : Res} (e : r = .targetStall s) (h : Res.Keeps z r) : Machine.Keeps z s := by subst e; exact h
theorem Res.Keeps.ofTargetTrap {z s : State} {r : Res} {t : Trap} {v : Dword} (e : r = .targetTrap t v s) (h : Res.Keeps z r) :
    Machine.Keeps z s := by subst e; exact h
theorem Res.Keeps.ofTrap {z s : State} {r : Res} {t : Trap} {v : Dword} (e : r = .trap t v s) (h : Res.Keeps z r) :
    Machine.Keeps z s := by subst e; exact h

/-- What a memory access keeps. -/
def MemRes.Keeps {α : Type} (z : State) : MemRes α → Prop
  | .ok s _ | .fault s _ | .device s _ => Machine.Keeps z s

theorem MemRes.Keeps.ok {α : Type} {z s : State} {x : α} (h : Machine.Keeps z s) : MemRes.Keeps z (.ok s x) := h
theorem MemRes.Keeps.fault {α : Type} {z s : State} {f : TFault} (h : Machine.Keeps z s) : MemRes.Keeps z (.fault s f : MemRes α) := h
theorem MemRes.Keeps.device {α : Type} {z s : State} {pa : Nat} (h : Machine.Keeps z s) : MemRes.Keeps z (.device s pa : MemRes α) := h
theorem MemRes.Keeps.ofOk {α : Type} {z s : State} {x : α} {r : MemRes α} (e : r = .ok s x) (h : r.Keeps z) : Machine.Keeps z s := by
  subst e; exact h
theorem MemRes.Keeps.ofFault {α : Type} {z s : State} {f : TFault} {r : MemRes α} (e : r = .fault s f) (h : r.Keeps z) :
    Machine.Keeps z s := by
  subst e; exact h
theorem MemRes.Keeps.ofDevice {α : Type} {z s : State} {pa : Nat} {r : MemRes α} (e : r = .device s pa) (h : r.Keeps z) :
    Machine.Keeps z s := by
  subst e; exact h

/-- What a step with a condition keeps. -/
def OptKeeps (z : State) : Option State → Prop
  | some s => Keeps z s
  | none => True

theorem OptKeeps.some {z s : State} (h : Keeps z s) : OptKeeps z (some s) := h
theorem OptKeeps.none {z : State} : OptKeeps z none := trivial
theorem OptKeeps.of {z s : State} {o : Option State} (e : o = .some s) (h : OptKeeps z o) : Keeps z s := by subst e; exact h

theorem OptKeeps.getD {z s : State} {o : Option State} (h : OptKeeps z o) (g : Keeps z s) : Keeps z (o.getD s) := by
  cases o with
  | none => exact g
  | some t => exact h

/-- What an operation with a second answer keeps. -/
def PairKeeps {β : Type} (z : State) (p : State × β) : Prop := Keeps z p.1

theorem PairKeeps.mk {β : Type} {z s : State} {b : β} (h : Keeps z s) : PairKeeps z (s, b) := h
theorem PairKeeps.of {β : Type} {z s : State} {b : β} {p : State × β} (e : p = (s, b)) (h : PairKeeps z p) : Keeps z s := by
  subst e; exact h
theorem PairKeeps.fst {β : Type} {z : State} {p : State × β} (h : PairKeeps z p) : Keeps z p.1 := h

/-- What an operation that may fail keeps. -/
def ExKeeps {ε β : Type} (z : State) : Except ε (State × β) → Prop
  | .ok p => Keeps z p.1
  | .error _ => True

theorem ExKeeps.ok {ε β : Type} {z s : State} {b : β} (h : Keeps z s) : ExKeeps z (.ok (s, b) : Except ε (State × β)) := h
theorem ExKeeps.error {ε β : Type} {z : State} {e : ε} : ExKeeps z (.error e : Except ε (State × β)) := trivial
theorem ExKeeps.of {ε β : Type} {z s : State} {b : β} {r : Except ε (State × β)} (e : r = .ok (s, b)) (h : ExKeeps z r) :
    Keeps z s := by
  subst e; exact h

def Retry.Keeps (z : State) : Retry → Prop
  | .wait s _ => Machine.Keeps z s
  | .full => True
  | .terminal s => Machine.Keeps z s

theorem Retry.Keeps.wait {z s : State} {link' : Nat} (h : Machine.Keeps z s) : Retry.Keeps z (.wait s link') := h
theorem Retry.Keeps.ofWait {z s : State} {link' : Nat} {r : Retry} (e : r = .wait s link') (h : r.Keeps z) : Machine.Keeps z s := by
  subst e; exact h
theorem Retry.Keeps.full {z : State}  : Retry.Keeps z (.full ) := trivial
theorem Retry.Keeps.terminal {z s : State}  (h : Machine.Keeps z s) : Retry.Keeps z (.terminal s) := h
theorem Retry.Keeps.ofTerminal {z s : State}  {r : Retry} (e : r = .terminal s) (h : r.Keeps z) : Machine.Keeps z s := by
  subst e; exact h

def Fetched.Keeps (z : State) : Fetched → Prop
  | .ok s _ => Machine.Keeps z s
  | .fault s _ _ => Machine.Keeps z s

theorem Fetched.Keeps.ok {z s : State} {ws' : List Word} (h : Machine.Keeps z s) : Fetched.Keeps z (.ok s ws') := h
theorem Fetched.Keeps.ofOk {z s : State} {ws' : List Word} {r : Fetched} (e : r = .ok s ws') (h : r.Keeps z) : Machine.Keeps z s := by
  subst e; exact h
theorem Fetched.Keeps.fault {z s : State} {f' : TFault} {w' : Word} (h : Machine.Keeps z s) : Fetched.Keeps z (.fault s f' w') := h
theorem Fetched.Keeps.ofFault {z s : State} {f' : TFault} {w' : Word} {r : Fetched} (e : r = .fault s f' w') (h : r.Keeps z) : Machine.Keeps z s := by
  subst e; exact h

def Chained.Keeps (z : State) : Chained → Prop
  | .ok s _ => Machine.Keeps z s
  | .fault s _ _ => Machine.Keeps z s

theorem Chained.Keeps.ok {z s : State} {l' : List ChainWord} (h : Machine.Keeps z s) : Chained.Keeps z (.ok s l') := h
theorem Chained.Keeps.ofOk {z s : State} {l' : List ChainWord} {r : Chained} (e : r = .ok s l') (h : r.Keeps z) : Machine.Keeps z s := by
  subst e; exact h
theorem Chained.Keeps.fault {z s : State} {f' : TFault} {w' : Word} (h : Machine.Keeps z s) : Chained.Keeps z (.fault s f' w') := h
theorem Chained.Keeps.ofFault {z s : State} {f' : TFault} {w' : Word} {r : Chained} (e : r = .fault s f' w') (h : r.Keeps z) : Machine.Keeps z s := by
  subst e; exact h

def CpRead.Keeps (z : State) : CpRead → Prop
  | .ok s _ => Machine.Keeps z s
  | .wait s _ => Machine.Keeps z s
  | .held => True
  | .bad s => Machine.Keeps z s

theorem CpRead.Keeps.ok {z s : State} {bs' : List Byte} (h : Machine.Keeps z s) : CpRead.Keeps z (.ok s bs') := h
theorem CpRead.Keeps.ofOk {z s : State} {bs' : List Byte} {r : CpRead} (e : r = .ok s bs') (h : r.Keeps z) : Machine.Keeps z s := by
  subst e; exact h
theorem CpRead.Keeps.wait {z s : State} {link' : Nat} (h : Machine.Keeps z s) : CpRead.Keeps z (.wait s link') := h
theorem CpRead.Keeps.ofWait {z s : State} {link' : Nat} {r : CpRead} (e : r = .wait s link') (h : r.Keeps z) : Machine.Keeps z s := by
  subst e; exact h
theorem CpRead.Keeps.held {z : State}  : CpRead.Keeps z (.held ) := trivial
theorem CpRead.Keeps.bad {z s : State}  (h : Machine.Keeps z s) : CpRead.Keeps z (.bad s) := h
theorem CpRead.Keeps.ofBad {z s : State}  {r : CpRead} (e : r = .bad s) (h : r.Keeps z) : Machine.Keeps z s := by
  subst e; exact h

def Landed.Keeps (z : State) : Landed → Prop
  | .ok s => Machine.Keeps z s
  | .wait => True
  | .skip s _ => Machine.Keeps z s
  | .stop s => Machine.Keeps z s

theorem Landed.Keeps.ok {z s : State}  (h : Machine.Keeps z s) : Landed.Keeps z (.ok s) := h
theorem Landed.Keeps.ofOk {z s : State}  {r : Landed} (e : r = .ok s) (h : r.Keeps z) : Machine.Keeps z s := by
  subst e; exact h
theorem Landed.Keeps.wait {z : State}  : Landed.Keeps z (.wait ) := trivial
theorem Landed.Keeps.skip {z s : State} {link' : Nat} (h : Machine.Keeps z s) : Landed.Keeps z (.skip s link') := h
theorem Landed.Keeps.ofSkip {z s : State} {link' : Nat} {r : Landed} (e : r = .skip s link') (h : r.Keeps z) : Machine.Keeps z s := by
  subst e; exact h
theorem Landed.Keeps.stop {z s : State}  (h : Machine.Keeps z s) : Landed.Keeps z (.stop s) := h
theorem Landed.Keeps.ofStop {z s : State}  {r : Landed} (e : r = .stop s) (h : r.Keeps z) : Machine.Keeps z s := by
  subst e; exact h

def Replayed.Keeps (z : State) : Replayed → Prop
  | .done s => Machine.Keeps z s
  | .again s _ => Machine.Keeps z s
  | .held => True
  | .ended s => Machine.Keeps z s

theorem Replayed.Keeps.done {z s : State}  (h : Machine.Keeps z s) : Replayed.Keeps z (.done s) := h
theorem Replayed.Keeps.ofDone {z s : State}  {r : Replayed} (e : r = .done s) (h : r.Keeps z) : Machine.Keeps z s := by
  subst e; exact h
theorem Replayed.Keeps.again {z s : State} {link' : Nat} (h : Machine.Keeps z s) : Replayed.Keeps z (.again s link') := h
theorem Replayed.Keeps.ofAgain {z s : State} {link' : Nat} {r : Replayed} (e : r = .again s link') (h : r.Keeps z) : Machine.Keeps z s := by
  subst e; exact h
theorem Replayed.Keeps.held {z : State}  : Replayed.Keeps z (.held ) := trivial
theorem Replayed.Keeps.ended {z s : State}  (h : Machine.Keeps z s) : Replayed.Keeps z (.ended s) := h
theorem Replayed.Keeps.ofEnded {z s : State}  {r : Replayed} (e : r = .ended s) (h : r.Keeps z) : Machine.Keeps z s := by
  subst e; exact h

def Plan.Keeps (z : State) : Plan → Prop
  | .ok s _ => Machine.Keeps z s
  | .wait s _ => Machine.Keeps z s
  | .bad s => Machine.Keeps z s

theorem Plan.Keeps.ok {z s : State} {at_' : List (Nat × Nat)} (h : Machine.Keeps z s) : Plan.Keeps z (.ok s at_') := h
theorem Plan.Keeps.ofOk {z s : State} {at_' : List (Nat × Nat)} {r : Plan} (e : r = .ok s at_') (h : r.Keeps z) : Machine.Keeps z s := by
  subst e; exact h
theorem Plan.Keeps.wait {z s : State} {link' : Option Nat} (h : Machine.Keeps z s) : Plan.Keeps z (.wait s link') := h
theorem Plan.Keeps.ofWait {z s : State} {link' : Option Nat} {r : Plan} (e : r = .wait s link') (h : r.Keeps z) : Machine.Keeps z s := by
  subst e; exact h
theorem Plan.Keeps.bad {z s : State}  (h : Machine.Keeps z s) : Plan.Keeps z (.bad s) := h
theorem Plan.Keeps.ofBad {z s : State}  {r : Plan} (e : r = .bad s) (h : r.Keeps z) : Machine.Keeps z s := by
  subst e; exact h

def Checked.Keeps (z : State) : Checked → Prop
  | .fail s _ => Machine.Keeps z s
  | .wait s => Machine.Keeps z s
  | .good s _ _ => Machine.Keeps z s

theorem Checked.Keeps.fail {z s : State} {x' : CkStatus} (h : Machine.Keeps z s) : Checked.Keeps z (.fail s x') := h
theorem Checked.Keeps.ofFail {z s : State} {x' : CkStatus} {r : Checked} (e : r = .fail s x') (h : r.Keeps z) : Machine.Keeps z s := by
  subst e; exact h
theorem Checked.Keeps.wait {z s : State}  (h : Machine.Keeps z s) : Checked.Keeps z (.wait s) := h
theorem Checked.Keeps.ofWait {z s : State}  {r : Checked} (e : r = .wait s) (h : r.Keeps z) : Machine.Keeps z s := by
  subst e; exact h
theorem Checked.Keeps.good {z s : State} {img' : CkImage} {frames' : List EcdPage} (h : Machine.Keeps z s) : Checked.Keeps z (.good s img' frames') := h
theorem Checked.Keeps.ofGood {z s : State} {img' : CkImage} {frames' : List EcdPage} {r : Checked} (e : r = .good s img' frames') (h : r.Keeps z) : Machine.Keeps z s := by
  subst e; exact h

def Moved.Keeps (z : State) : Moved → Prop
  | .ok s _ => Machine.Keeps z s
  | .wait => True
  | .fault s _ _ => Machine.Keeps z s
  | .trap _ => True

theorem Moved.Keeps.ok {z s : State} {sig' : Sig} (h : Machine.Keeps z s) : Moved.Keeps z (.ok s sig') := h
theorem Moved.Keeps.ofOk {z s : State} {sig' : Sig} {r : Moved} (e : r = .ok s sig') (h : r.Keeps z) : Machine.Keeps z s := by
  subst e; exact h
theorem Moved.Keeps.wait {z : State}  : Moved.Keeps z (.wait ) := trivial
theorem Moved.Keeps.fault {z s : State} {a' : Access} {f' : TFault} (h : Machine.Keeps z s) : Moved.Keeps z (.fault s a' f') := h
theorem Moved.Keeps.ofFault {z s : State} {a' : Access} {f' : TFault} {r : Moved} (e : r = .fault s a' f') (h : r.Keeps z) : Machine.Keeps z s := by
  subst e; exact h
theorem Moved.Keeps.trap {z : State} {t' : Trap} : Moved.Keeps z (.trap t') := trivial

def Planned.Keeps (z : State) : Planned → Prop
  | .ok s _ => Machine.Keeps z s
  | .skip s _ _ => Machine.Keeps z s
  | .wait => True
  | .stop s => Machine.Keeps z s

theorem Planned.Keeps.ok {z s : State} {l' : List (Nat × Nat)} (h : Machine.Keeps z s) : Planned.Keeps z (.ok s l') := h
theorem Planned.Keeps.ofOk {z s : State} {l' : List (Nat × Nat)} {r : Planned} (e : r = .ok s l') (h : r.Keeps z) : Machine.Keeps z s := by
  subst e; exact h
theorem Planned.Keeps.skip {z s : State} {line' link' : Nat} (h : Machine.Keeps z s) : Planned.Keeps z (.skip s line' link') := h
theorem Planned.Keeps.ofSkip {z s : State} {line' link' : Nat} {r : Planned} (e : r = .skip s line' link') (h : r.Keeps z) : Machine.Keeps z s := by
  subst e; exact h
theorem Planned.Keeps.wait {z : State} : Planned.Keeps z .wait := trivial
theorem Planned.Keeps.stop {z s : State} (h : Machine.Keeps z s) : Planned.Keeps z (.stop s) := h
theorem Planned.Keeps.ofStop {z s : State} {r : Planned} (e : r = .stop s) (h : r.Keeps z) : Machine.Keeps z s := by
  subst e; exact h


/-- What an operation that may find nothing, with a second answer, keeps. -/
def OptPairKeeps {β : Type} (z : State) : Option (State × β) → Prop
  | some p => Keeps z p.1
  | none => True

theorem OptPairKeeps.some {β : Type} {z s : State} {b : β} (h : Keeps z s) : OptPairKeeps z (.some (s, b)) := h
theorem OptPairKeeps.none {β : Type} {z : State} : OptPairKeeps z (.none : Option (State × β)) := trivial
theorem OptPairKeeps.of {β : Type} {z s : State} {b : β} {o : Option (State × β)} (e : o = .some (s, b)) (h : OptPairKeeps z o) :
    Keeps z s := by subst e; exact h

/-- What an operation that may stop, with a state or without, keeps. -/
def ExOptKeeps {β : Type} (z : State) : Except (Option State) (State × β) → Prop
  | .ok p => Keeps z p.1
  | .error (some s) => Keeps z s
  | .error none => True

theorem ExOptKeeps.ok {β : Type} {z s : State} {b : β} (h : Keeps z s) : ExOptKeeps z (.ok (s, b)) := h
theorem ExOptKeeps.stop {β : Type} {z s : State} (h : Keeps z s) : ExOptKeeps z (.error (some s) : Except (Option State) (State × β)) := h
theorem ExOptKeeps.none {β : Type} {z : State} : ExOptKeeps z (.error .none : Except (Option State) (State × β)) := trivial
theorem ExOptKeeps.ofOk {β : Type} {z s : State} {b : β} {o : Except (Option State) (State × β)} (e : o = .ok (s, b))
    (h : ExOptKeeps z o) : Keeps z s := by subst e; exact h
theorem ExOptKeeps.ofStop {β : Type} {z s : State} {o : Except (Option State) (State × β)} (e : o = .error (some s))
    (h : ExOptKeeps z o) : Keeps z s := by subst e; exact h
theorem ExOptKeeps.ofError {β : Type} {z : State} {x : Option State} {o : Except (Option State) (State × β)} (e : o = .error x)
    (h : ExOptKeeps z o) : OptKeeps z x := by
  subst e
  cases x with
  | none => trivial
  | some s => exact h

/-- What an operation with its answer first keeps. -/
def SndKeeps {β : Type} (z : State) (p : β × State) : Prop := Keeps z p.2

theorem SndKeeps.mk {β : Type} {z s : State} {b : β} (h : Keeps z s) : SndKeeps z (b, s) := h
theorem SndKeeps.of {β : Type} {z s : State} {b : β} {p : β × State} (e : p = (b, s)) (h : SndKeeps z p) : Keeps z s := by
  subst e; exact h
theorem SndKeeps.snd {β : Type} {z : State} {p : β × State} (h : SndKeeps z p) : Keeps z p.2 := h

/-- A step keeps the canonical form of memory. -/
def OutKeeps (z : State) (r : Host.Outcome State Fault Refusal) : Prop :=
  ∀ t, r = .next t → Memory.wf z.mem = true → Memory.wf t.mem = true

theorem OutKeeps.next {z s : State} (h : Keeps z s) : OutKeeps z (.next s) := fun t e x => by cases e; exact h.mem x

theorem OptKeeps.map {α : Type} {z : State} {o : Option α} {f : α → State} (h : ∀ x, Keeps z (f x)) : OptKeeps z (o.map f) := by
  cases o with
  | none => trivial
  | some x => exact h x

theorem Keeps.cond {z s t : State} {p : Prop} [Decidable p] (h : Keeps z s) (g : Keeps z t) : Keeps z (if p then s else t) := by
  split <;> assumption

theorem Res.Keeps.cond {z : State} {r t : Res} {p : Prop} [Decidable p] (h : Res.Keeps z r) (g : Res.Keeps z t) : Res.Keeps z (if p then r else t) := by
  split <;> assumption

/-- What reading bytes for a copy keeps, whose error says how the movement ended. -/
def ExMovedKeeps {β : Type} (z : State) : Except Moved (State × β) → Prop
  | .ok p => Keeps z p.1
  | .error m => Moved.Keeps z m

theorem ExMovedKeeps.ok {β : Type} {z s : State} {b : β} (h : Keeps z s) : ExMovedKeeps z (.ok (s, b) : Except Moved (State × β)) := h
theorem ExMovedKeeps.error {β : Type} {z : State} {m : Moved} (h : Moved.Keeps z m) :
    ExMovedKeeps z (.error m : Except Moved (State × β)) := h
theorem ExMovedKeeps.ofOk {β : Type} {z s : State} {b : β} {o : Except Moved (State × β)} (e : o = .ok (s, b))
    (h : ExMovedKeeps z o) : Keeps z s := by subst e; exact h
theorem ExMovedKeeps.ofError {β : Type} {z : State} {m : Moved} {o : Except Moved (State × β)} (e : o = .error m)
    (h : ExMovedKeeps z o) : Moved.Keeps z m := by subst e; exact h

theorem OptKeeps.mapOf {z : State} {o : Option State} {f : State → State} (h : OptKeeps z o) (hf : ∀ x, Keeps z x → Keeps z (f x)) :
    OptKeeps z (o.map f) := by
  cases o with
  | none => trivial
  | some x => exact hf x h

theorem id_keeps {z s : State} (h : Keeps z s) : Keeps z (id s) := h

theorem ExOptKeeps.error {β : Type} {z : State} {x : Option State} (h : OptKeeps z x) :
    ExOptKeeps z (.error x : Except (Option State) (State × β)) := by
  cases x with
  | none => trivial
  | some s => exact h

theorem OptKeeps.findSome {α : Type} {z : State} {l : List α} {f : α → Option State} (h : ∀ x, OptKeeps z (f x)) :
    OptKeeps z (l.findSome? f) := by
  induction l with
  | nil => trivial
  | cons x l ih =>
    rw [List.findSome?_cons]
    split
    · next e => have := h x; rw [e] at this; exact this
    · exact ih

theorem PairKeeps.foldl {α β : Type} {z : State} {f : State × β → α → State × β} {l : List α} {p : State × β}
    (hf : ∀ p x, PairKeeps z p → PairKeeps z (f p x)) (h : PairKeeps z p) : PairKeeps z (l.foldl f p) := by
  induction l generalizing p with
  | nil => exact h
  | cons x l ih => exact ih (hf p x h)

end Sys2Proof.Machine
end

