-- ==== Sys2Proof/Laws/KeepsWords.lean ====
section
/-! SUPPORT. Every operation and meaning of the words' modules keeps canonical memory. -/

namespace Sys2Proof.Machine

/-! Ops -/

theorem State.freshen_keeps {z s : State} (h : Keeps z s)  :
    Keeps z (State.freshen s) := by
  unfold State.freshen
  with_reducible repeat' first | assumption | split | apply Keeps.lit | dsimp only | intro _

theorem State.setThread_keeps {z s : State} (h : Keeps z s) (i : ThreadId) (t : Thread) :
    Keeps z (State.setThread s i t) := by
  unfold State.setThread
  with_reducible repeat' first | assumption | split | apply Keeps.lit | dsimp only | intro _

theorem State.modThread_keeps {z s : State} (h : Keeps z s) (i : ThreadId) (f : Thread → Thread) :
    Keeps z (State.modThread s i f) := by
  unfold State.modThread
  with_reducible repeat' first | assumption | apply State.setThread_keeps | split | apply Keeps.lit | dsimp only | intro _

theorem State.switchTo_keeps {z s : State} (h : Keeps z s) (i : ThreadId) :
    OptKeeps z (State.switchTo s i) := by
  unfold State.switchTo
  with_reducible repeat' first | assumption | apply OptKeeps.some | apply OptKeeps.none | apply OptKeeps.map | split | apply Keeps.lit | dsimp only | intro _

theorem State.modHost_keeps {z s : State} (h : Keeps z s) (n : Nat) (f : HostCore → HostCore) :
    Keeps z (State.modHost s n f) := by
  unfold State.modHost
  with_reducible repeat' first | assumption | apply State.put_keeps | split | apply Keeps.lit | dsimp only | intro _

theorem State.modTeam_keeps {z s : State} (h : Keeps z s) (n : Nat) (f : Team → Team) :
    Keeps z (State.modTeam s n f) := by
  unfold State.modTeam
  with_reducible repeat' first | assumption | apply State.put_keeps | split | apply Keeps.lit | dsimp only | intro _

theorem State.modLaunch_keeps {z s : State} (h : Keeps z s) (n : Nat) (f : Launch → Launch) :
    Keeps z (State.modLaunch s n f) := by
  unfold State.modLaunch
  with_reducible repeat' first | assumption | apply State.put_keeps | split | apply Keeps.lit | dsimp only | intro _

theorem State.modEncl_keeps {z s : State} (h : Keeps z s) (n : Nat) (f : Encl → Encl) :
    Keeps z (State.modEncl s n f) := by
  unfold State.modEncl
  with_reducible repeat' first | assumption | apply State.put_keeps | split | apply Keeps.lit | dsimp only | intro _

theorem State.modCore_keeps {z s : State} (h : Keeps z s) (n : Nat) (f : Core → Core) :
    Keeps z (State.modCore s n f) := by
  unfold State.modCore
  with_reducible repeat' first | assumption | apply State.put_keeps | split | apply Keeps.lit | dsimp only | intro _

theorem State.setPot_keeps {z s : State} (h : Keeps z s) (frame : Nat) (p : Pot) :
    Keeps z (State.setPot s frame p) := by
  unfold State.setPot
  with_reducible repeat' first | assumption | split | apply Keeps.lit | dsimp only | intro _

theorem State.putFixed_keeps {z s : State} (h : Keeps z s) (l : Lat) (c : Nat) (v : Word) :
    Keeps z (State.putFixed s l c v) := by
  unfold State.putFixed
  with_reducible repeat' first | assumption | split | apply Keeps.lit | dsimp only | intro _

theorem State.put_keeps {z s : State} (h : Keeps z s) (l : Lat) (d : Opnd) (v : Word) :
    Keeps z (State.put s l d v) := by
  unfold State.put
  with_reducible repeat' first | assumption | apply State.putFixed_keeps | split | apply Keeps.lit | dsimp only | intro _

theorem State.put2_keeps {z s : State} (h : Keeps z s) (l : Lat) (d : Opnd) (v : Dword) :
    Keeps z (State.put2 s l d v) := by
  unfold State.put2
  with_reducible repeat' first | assumption | apply State.putFixed_keeps | split | apply Keeps.lit | dsimp only | intro _

theorem State.putPred_keeps {z s : State} (h : Keeps z s) (l : Lat) (n : Nat) (v : Bool) :
    Keeps z (State.putPred s l n v) := by
  unfold State.putPred
  with_reducible repeat' first | assumption | split | apply Keeps.lit | dsimp only | intro _

theorem State.post_keeps {z s : State} (h : Keeps z s) (c : Nat) (v : Word) (flags : BitVec 5) :
    Keeps z (State.post s c v flags) := by
  unfold State.post
  with_reducible repeat' first | assumption | split | apply Keeps.lit | dsimp only | intro _

theorem State.postTo_keeps {z s : State} (h : Keeps z s) (d : Opnd) (v : Word) (flags : BitVec 5) :
    Keeps z (State.postTo s d v flags) := by
  unfold State.postTo
  with_reducible repeat' first | assumption | apply State.post_keeps | split | apply Keeps.lit | dsimp only | intro _

theorem State.postTo2_keeps {z s : State} (h : Keeps z s) (d : Opnd) (v : Dword) (flags : BitVec 5) :
    Keeps z (State.postTo2 s d v flags) := by
  unfold State.postTo2
  with_reducible repeat' first | assumption | apply State.post_keeps | apply State.postTo_keeps | split | apply Keeps.lit | dsimp only | intro _

theorem State.postTo4_keeps {z s : State} (h : Keeps z s) (d : Opnd) (v : Qword) :
    Keeps z (State.postTo4 s d v) := by
  unfold State.postTo4
  with_reducible repeat' first | assumption | apply State.post_keeps | split | apply Keeps.lit | dsimp only | intro _

theorem State.postPred_keeps {z s : State} (h : Keeps z s) (n : Nat) (v : Bool) (flags : BitVec 5) :
    Keeps z (State.postPred s n v flags) := by
  unfold State.postPred
  with_reducible repeat' first | assumption | apply State.post_keeps | split | apply Keeps.lit | dsimp only | intro _

theorem State.unbind_keeps {z s : State} (h : Keeps z s) (codes : List Nat) :
    Keeps z (State.unbind s codes) := by
  unfold State.unbind
  with_reducible repeat' first | assumption | apply State.modTeam_keeps | apply State.modCore_keeps | split | apply Keeps.lit | dsimp only | intro _

theorem State.voidL_keeps {z s : State} (h : Keeps z s)  :
    Keeps z (State.voidL s) := by
  unfold State.voidL
  with_reducible repeat' first | assumption | apply State.unbind_keeps | split | apply Keeps.lit | dsimp only | intro _

theorem State.count_keeps {z s : State} (h : Keeps z s) (core : Nat) (eid : Nat) (code : Nat) (k : Nat) :
    Keeps z (State.count s core eid code k) := by
  unfold State.count
  with_reducible repeat' first | assumption | split | apply Keeps.lit | dsimp only | intro _

theorem State.countSlice_keeps {z s : State} (h : Keeps z s) (slice : Nat) (code : Nat) (k : Nat) :
    Keeps z (State.countSlice s slice code k) := by
  unfold State.countSlice
  with_reducible repeat' first | assumption | refine Keeps.foldl (fun s x h => ?_) ?_ | split | apply Keeps.lit | dsimp only | intro _

theorem State.chargeAt_keeps {z s : State} (h : Keeps z s) (core : Nat) (eid : Nat) (k : Nat) (c : Nat) :
    Keeps z (State.chargeAt s core eid k c) := by
  unfold State.chargeAt
  with_reducible repeat' first | assumption | apply State.put_keeps | split | apply Keeps.lit | dsimp only | intro _

theorem State.charge_keeps {z s : State} (h : Keeps z s) (core : Nat) (eid : Nat) (k : Nat) :
    Keeps z (State.charge s core eid k) := by
  unfold State.charge
  with_reducible repeat' first | assumption | apply State.chargeAt_keeps | split | apply Keeps.lit | dsimp only | intro _

theorem State.withdrawKick_keeps {z s : State} (h : Keeps z s) (i : ThreadId) (r : Word) : PairKeeps z (s.withdrawKick i r) := by
  have hl : Keeps z { s with atomQ := s.atomsBut i, ctlQ := s.ctlQ.filter (· ≠ i) } := Keeps.lit h
  unfold State.withdrawKick
  dsimp only
  split
  · split
    · split
      · exact Keeps.lit (State.modThread_keeps hl _ _)
      · exact Keeps.lit (State.modThread_keeps hl _ _)
    · exact hl
  · exact hl

theorem State.enterBank_keeps {z s : State} (h : Keeps z s) (n : Nat) (high : Bool) (cause : Word) (value : Dword) (restart : Word) :
    Keeps z (State.enterBank s n high cause value restart) := by
  unfold State.enterBank
  with_reducible repeat' first | assumption | apply State.setThread_keeps | apply State.modHost_keeps | apply State.withdrawKick_keeps | refine PairKeeps.of (by assumption) (State.withdrawKick_keeps ?_ _ _) | refine PairKeeps.fst (State.withdrawKick_keeps ?_ _ _) | split | apply Keeps.lit | dsimp only | intro _

theorem State.asyncExit_keeps {z s : State} (h : Keeps z s) (n : Nat) (num : Nat) (sealIt : Bool) (restart : Word) :
    Keeps z (State.asyncExit s n num sealIt restart) := by
  unfold State.asyncExit
  with_reducible repeat' first | assumption | apply State.setThread_keeps | apply State.modHost_keeps | apply State.modEncl_keeps | apply State.put_keeps | apply State.withdrawKick_keeps | refine PairKeeps.of (by assumption) (State.withdrawKick_keeps ?_ _ _) | refine PairKeeps.fst (State.withdrawKick_keeps ?_ _ _) | split | apply Keeps.lit | dsimp only | intro _

theorem State.endLaunch_keeps {z s : State} (h : Keeps z s) (launch : Nat) (error : Word) :
    Keeps z (State.endLaunch s launch error) := by
  unfold State.endLaunch
  with_reducible repeat' first | assumption | apply State.modLaunch_keeps | split | apply Keeps.lit | dsimp only | intro _

theorem State.failEnclave_keeps {z s : State} (h : Keeps z s) (eid : Nat) : Keeps z (State.failEnclave s eid) := by
  unfold State.failEnclave
  split
  · exact h
  · split
    · exact h
    · refine Keeps.foldl (fun s x h => ?_) (Keeps.lit (State.modEncl_keeps h _ _))
      split
      · split
        · split
          · exact State.asyncExit_keeps h _ _ _ _
          · exact h
        · exact h
      · exact h

theorem State.takeTrap_keeps {z s : State} (h : Keeps z s) (t : Trap) (value : Dword) (restart : Word) :
    Keeps z (State.takeTrap s t value restart) := by
  unfold State.takeTrap
  with_reducible repeat' first | assumption | apply State.enterBank_keeps | apply State.asyncExit_keeps | apply State.endLaunch_keeps | split | apply Keeps.lit | dsimp only | intro _

theorem State.trapReturn_keeps {z s : State} (h : Keeps z s) (n : Nat) (high : Bool) :
    Keeps z (State.trapReturn s n high) := by
  unfold State.trapReturn
  with_reducible repeat' first | assumption | apply State.modHost_keeps | apply State.unbind_keeps | apply State.voidL_keeps | split | apply Keeps.lit | dsimp only | intro _

theorem begin__keeps {z s : State} (h : Keeps z s) (i : Instr) :
    Keeps z (begin_ i s) := by
  unfold begin_
  with_reducible repeat' first | assumption | split | apply Keeps.lit | dsimp only | intro _

theorem account_keeps {z s : State} (h : Keeps z s) (i : Instr) (eid : Nat) :
    Keeps z (account i eid s) := by
  unfold account
  with_reducible repeat' first | assumption | apply State.count_keeps | apply State.charge_keeps | split | apply Keeps.lit | dsimp only | intro _

theorem spoilDouble_keeps {z s : State} (h : Keeps z s) (i : Instr) : Keeps z (spoilDouble i s) := by
  unfold spoilDouble
  split
  · exact h
  · refine Keeps.foldl (fun s x h => ?_) h
    split
    · have g := State.unbind_keeps h [x]
      dsimp only
      split
      · exact Keeps.lit g
      · exact Keeps.lit g
    · exact h

theorem State.freeTiles_keeps {z s : State} (h : Keeps z s) (team : Nat) (keys : List Nat) :
    Keeps z (State.freeTiles s team keys) := by
  unfold State.freeTiles
  with_reducible repeat' first | assumption | apply State.modTeam_keeps | refine Keeps.foldl (fun s x h => ?_) ?_ | split | apply Keeps.lit | dsimp only | intro _

theorem State.spoilFor_keeps {z s : State} (h : Keeps z s) (i : ThreadId) (m : MxOut) :
    Keeps z (State.spoilFor s i m) := by
  unfold State.spoilFor
  with_reducible repeat' first | assumption | apply State.modThread_keeps | apply State.freeTiles_keeps | split | apply Keeps.lit | dsimp only | intro _

theorem State.spoilOut_keeps {z s : State} (h : Keeps z s) (m : MxOut) :
    Keeps z (State.spoilOut s m) := by
  unfold State.spoilOut
  with_reducible repeat' first | assumption | apply State.spoilFor_keeps | split | apply Keeps.lit | dsimp only | intro _

theorem State.spoilRow_keeps {z s : State} (h : Keeps z s) (pair : Nat) (m : MxOut) :
    Keeps z (State.spoilRow s pair m) := by
  unfold State.spoilRow
  with_reducible repeat' first | assumption | split | apply Keeps.lit | dsimp only | intro _

theorem spoilMx_keeps {z s : State} (h : Keeps z s) (i : Instr) :
    Keeps z (spoilMx i s) := by
  unfold spoilMx
  with_reducible repeat' first | assumption | apply State.spoilOut_keeps | refine Keeps.foldl (fun s x h => ?_) ?_ | split | apply Keeps.lit | dsimp only | intro _

theorem State.endInTrap_keeps {z s₀ s : State} (h₀ : Keeps z s₀) (h : Keeps z s) (t : Trap) (v : Dword) (w : Word) :
    Keeps z (State.endInTrap s₀ s t v w) := by
  unfold State.endInTrap
  split
  · exact h₀
  · split
    · exact State.freshen_keeps h
    · exact State.takeTrap_keeps (State.freshen_keeps h) _ _ _

theorem State.gone_keeps {z s : State} (h : Keeps z s)  :
    Keeps z (State.gone s) := by
  unfold State.gone
  with_reducible repeat' first | assumption | apply State.freshen_keeps | split | apply Keeps.lit | dsimp only | intro _

theorem State.gateEffect_keeps {z s : State} (h : Keeps z s) (t : Trap) :
    Keeps z (State.gateEffect s t) := by
  unfold State.gateEffect
  with_reducible repeat' first | assumption | apply State.failEnclave_keeps | split | apply Keeps.lit | dsimp only | intro _

theorem State.anyValue_keeps {z s : State} (h : Keeps z s) (i : Instr) :
    Keeps z (State.anyValue s i) := by
  unfold State.anyValue
  with_reducible repeat' first | assumption | apply State.putFixed_keeps | apply State.putPred_keeps | apply State.post_keeps | refine Keeps.foldl (fun s x h => ?_) ?_ | split | apply Keeps.lit | dsimp only | intro _

theorem State.anyRows_keeps {z s : State} (h : Keeps z s) (x0 : Instr) :
    Keeps z (State.anyRows s x0) := by
  unfold State.anyRows
  with_reducible repeat' first | assumption | apply State.freeTiles_keeps | split | apply Keeps.lit | dsimp only | intro _

theorem looseEffect_keeps {z s : State} (h : Keeps z s) (i : Instr) (k : State → Res) (hk : ∀ x, Keeps z x → Res.Keeps z (k x)) :
    Res.Keeps z (looseEffect i s k) := by
  unfold looseEffect
  split
  · have g := hk s h
    split
    · exact h
    · next e =>
      have g' := Res.Keeps.ofOk e g
      split
      · split
        · exact State.spoilOut_keeps g' _
        · exact g'
      · exact g'
    · exact g
  · exact State.anyRows_keeps (State.anyValue_keeps h i) i

theorem perform_keeps {z s : State} (h : Keeps z s) (i : Instr) (k : State → Res) (hk : ∀ x, Keeps z x → Res.Keeps z (k x)) :
    Res.Keeps z (perform i s k) := by
  unfold perform
  split
  · exact looseEffect_keeps h i k hk
  · exact hk s h

theorem retire_keeps {z s : State} (h : Keeps z s) (i : Instr) (e : Nat) (w : Option Word) :
    Memory.wf z.mem = true → Memory.wf (retire i e w s).mem = true := by
  have g := State.freshen_keeps (spoilMx_keeps (spoilDouble_keeps (account_keeps h i e) i) i)
  intro x
  unfold retire
  split
  · exact g.mem x
  · exact g.mem x

theorem issueAlone_keeps {z s : State} (h : Keeps z s) (i : Instr) {k : State → Res} (hk : ∀ x, Keeps z x → Res.Keeps z (k x)) :
    Memory.wf z.mem = true → Memory.wf (issueAlone i s k).mem = true := by
  intro x
  have hb := begin__keeps h i
  unfold issueAlone
  split
  · exact (State.takeTrap_keeps (Keeps.lit h) _ _ _).mem x
  · split
    · exact h.mem x
    · dsimp only
      split
      · exact (State.endInTrap_keeps hb (State.gateEffect_keeps hb _) _ _ _).mem x
      · have g := perform_keeps hb i k hk
        split
        · next e =>
          split
          · exact (State.gone_keeps (Res.Keeps.ofOk e g)).mem x
          · exact retire_keeps (Res.Keeps.ofOk e g) _ _ _ x
        · next e => exact retire_keeps (State.voidL_keeps (Res.Keeps.ofGoto e g)) _ _ _ x
        · next e => exact retire_keeps (Res.Keeps.ofMoved e g) _ _ _ x
        · next e => exact (State.endInTrap_keeps hb (Res.Keeps.ofTrap e g) _ _ _).mem x
        · next e => exact (State.endInTrap_keeps hb (Res.Keeps.ofTargetTrap e g) _ _ _).mem x
        · exact h.mem x
        · next e => exact (Res.Keeps.ofStall e g).mem x
        · next e => exact (Res.Keeps.ofTargetStall e g).mem x

theorem issueChained_keeps {z s : State} (h : Keeps z s) (c : ChainCtx) (i : Instr) {k : State → Res}
    (hk : ∀ x, Keeps z x → Res.Keeps z (k x)) :
    Memory.wf z.mem = true → Memory.wf (issueChained c i s k).mem = true := by
  intro x
  have note (p : Prop) [Decidable p] (a b : State) (ha : Memory.wf a.mem = true) (hb : Memory.wf b.mem = true) :
      Memory.wf (if p then a else b).mem = true := by split <;> assumption
  have g := perform_keeps h i k hk
  unfold issueChained
  dsimp only
  split
  · exact note _ _ _ ((State.gateEffect_keeps h _).mem x) (h.mem x)
  · generalize perform i s k = r at g
    cases r with
    | ok s' =>
      dsimp only
      split
      · exact (State.gone_keeps g).mem x
      · exact retire_keeps g _ _ _ x
    | goto w s' => exact retire_keeps (State.voidL_keeps g) _ _ _ x
    | moved s' => exact retire_keeps g _ _ _ x
    | trap t v s' => exact note _ _ _ ((show Keeps z s' from g).mem x) (h.mem x)
    | targetTrap t v s' => exact note _ _ _ ((show Keeps z s' from g).mem x) (h.mem x)
    | hold => exact h.mem x
    | stall s' => exact (show Keeps z s' from g).mem x
    | targetStall s' => exact (show Keeps z s' from g).mem x

theorem issue_keeps {z s : State} (h : Keeps z s) (i : Instr) (k : State → Res) (hk : ∀ x, Keeps z x → Res.Keeps z (k x)) :
    OutKeeps z (issue i s k) := by
  intro t e
  cases e
  split
  · exact issueAlone_keeps h i hk
  · exact issueChained_keeps h _ i hk

theorem agent_keeps {z s : State} (h : Keeps z s) (r : Option State) (hr : OptKeeps z r) : OutKeeps z (agent s r) := by
  intro t e
  cases e
  cases r with
  | none => exact h.mem
  | some s' => exact (State.freshen_keeps hr).mem

/-! Rings -/

theorem State.terminalRecord_keeps {z s : State} (h : Keeps z s) (slice : Nat) (r : FRec) :
    Keeps z (State.terminalRecord s slice r) := by
  unfold State.terminalRecord
  with_reducible repeat' first | assumption | split | apply Keeps.lit | apply Keeps.litAll | dsimp only | intro _

/-! Flags -/

theorem State.raise_keeps {z s : State} (h : Keeps z s) (f : BitVec 5) : Keeps z (State.raise s f) :=
  ⟨h.mem, fun e => by simp [State.raise, h.chain e]⟩

/-! Integer -/

theorem alu2_keeps {z s : State} (h : Keeps z s) (i : Instr) (h : Hdr) (d : Opnd) (a : Opnd) (b : Opnd) (f : Word → Word → Word) :
    OutKeeps z (alu2 i h d a b f s) := by
  unfold alu2
  with_reducible repeat' first | assumption | apply Res.Keeps.ok | apply OptKeeps.some | apply OptKeeps.none | apply OptKeeps.map | apply State.put_keeps | apply issue_keeps | split | apply Keeps.lit | trivial | dsimp only | intro _

theorem alu3_keeps {z s : State} (h : Keeps z s) (i : Instr) (h : Hdr) (d : Opnd) (a : Opnd) (b : Opnd) (f : Word → Word → Word → Word) :
    OutKeeps z (alu3 i h d a b f s) := by
  unfold alu3
  with_reducible repeat' first | assumption | apply Res.Keeps.ok | apply OptKeeps.some | apply OptKeeps.none | apply OptKeeps.map | apply State.put_keeps | apply issue_keeps | split | apply Keeps.lit | trivial | dsimp only | intro _

theorem alu1_keeps {z s : State} (h : Keeps z s) (i : Instr) (h : Hdr) (d : Opnd) (a : Opnd) (f : Word → Word) :
    OutKeeps z (alu1 i h d a f s) := by
  unfold alu1
  with_reducible repeat' first | assumption | apply Res.Keeps.ok | apply OptKeeps.some | apply OptKeeps.none | apply OptKeeps.map | apply State.put_keeps | apply issue_keeps | split | apply Keeps.lit | trivial | dsimp only | intro _

theorem setPredBy_keeps {z s : State} (h : Keeps z s) (i : Instr) (p : BitVec 3) (f : State → Bool) :
    OutKeeps z (setPredBy i p f s) := by
  unfold setPredBy
  with_reducible repeat' first | assumption | apply Res.Keeps.ok | apply OptKeeps.some | apply OptKeeps.none | apply OptKeeps.map | apply State.putPred_keeps | apply issue_keeps | split | apply Keeps.lit | trivial | dsimp only | intro _

theorem execNop_keeps {z s : State} (h : Keeps z s) (h : Hdr) :
    OutKeeps z (execNop h s) := by
  unfold execNop
  with_reducible repeat' first | assumption | apply Res.Keeps.ok | apply OptKeeps.some | apply OptKeeps.none | apply OptKeeps.map | apply issue_keeps | split | apply Keeps.lit | trivial | dsimp only | intro _

theorem execAdd_keeps {z s : State} (h : Keeps z s) (h : Hdr) (d : Opnd) (a : Opnd) (b : Opnd) :
    OutKeeps z (execAdd h d a b s) := by
  unfold execAdd
  with_reducible repeat' first | assumption | apply OptKeeps.some | apply OptKeeps.none | apply OptKeeps.map | apply alu2_keeps | split | apply Keeps.lit | trivial | dsimp only | intro _

theorem execSub_keeps {z s : State} (h : Keeps z s) (h : Hdr) (d : Opnd) (a : Opnd) (b : Opnd) :
    OutKeeps z (execSub h d a b s) := by
  unfold execSub
  with_reducible repeat' first | assumption | apply OptKeeps.some | apply OptKeeps.none | apply OptKeeps.map | apply alu2_keeps | split | apply Keeps.lit | trivial | dsimp only | intro _

theorem execMul_keeps {z s : State} (h : Keeps z s) (h : Hdr) (d : Opnd) (a : Opnd) (b : Opnd) :
    OutKeeps z (execMul h d a b s) := by
  unfold execMul
  with_reducible repeat' first | assumption | apply OptKeeps.some | apply OptKeeps.none | apply OptKeeps.map | apply alu2_keeps | split | apply Keeps.lit | trivial | dsimp only | intro _

theorem execMulhi_keeps {z s : State} (h : Keeps z s) (h : Hdr) (d : Opnd) (a : Opnd) (b : Opnd) :
    OutKeeps z (execMulhi h d a b s) := by
  unfold execMulhi
  with_reducible repeat' first | assumption | apply OptKeeps.some | apply OptKeeps.none | apply OptKeeps.map | apply alu2_keeps | split | apply Keeps.lit | trivial | dsimp only | intro _

theorem execMulhu_keeps {z s : State} (h : Keeps z s) (h : Hdr) (d : Opnd) (a : Opnd) (b : Opnd) :
    OutKeeps z (execMulhu h d a b s) := by
  unfold execMulhu
  with_reducible repeat' first | assumption | apply OptKeeps.some | apply OptKeeps.none | apply OptKeeps.map | apply alu2_keeps | split | apply Keeps.lit | trivial | dsimp only | intro _

theorem execMad_keeps {z s : State} (h : Keeps z s) (h : Hdr) (d : Opnd) (a : Opnd) (b : Opnd) :
    OutKeeps z (execMad h d a b s) := by
  unfold execMad
  with_reducible repeat' first | assumption | apply OptKeeps.some | apply OptKeeps.none | apply OptKeeps.map | apply alu3_keeps | split | apply Keeps.lit | trivial | dsimp only | intro _

theorem execAnd_keeps {z s : State} (h : Keeps z s) (h : Hdr) (d : Opnd) (a : Opnd) (b : Opnd) :
    OutKeeps z (execAnd h d a b s) := by
  unfold execAnd
  with_reducible repeat' first | assumption | apply OptKeeps.some | apply OptKeeps.none | apply OptKeeps.map | apply alu2_keeps | split | apply Keeps.lit | trivial | dsimp only | intro _

theorem execOr_keeps {z s : State} (h : Keeps z s) (h : Hdr) (d : Opnd) (a : Opnd) (b : Opnd) :
    OutKeeps z (execOr h d a b s) := by
  unfold execOr
  with_reducible repeat' first | assumption | apply OptKeeps.some | apply OptKeeps.none | apply OptKeeps.map | apply alu2_keeps | split | apply Keeps.lit | trivial | dsimp only | intro _

theorem execXor_keeps {z s : State} (h : Keeps z s) (h : Hdr) (d : Opnd) (a : Opnd) (b : Opnd) :
    OutKeeps z (execXor h d a b s) := by
  unfold execXor
  with_reducible repeat' first | assumption | apply OptKeeps.some | apply OptKeeps.none | apply OptKeeps.map | apply alu2_keeps | split | apply Keeps.lit | trivial | dsimp only | intro _

theorem execAndn_keeps {z s : State} (h : Keeps z s) (h : Hdr) (d : Opnd) (a : Opnd) (b : Opnd) :
    OutKeeps z (execAndn h d a b s) := by
  unfold execAndn
  with_reducible repeat' first | assumption | apply OptKeeps.some | apply OptKeeps.none | apply OptKeeps.map | apply alu2_keeps | split | apply Keeps.lit | trivial | dsimp only | intro _

theorem execShl_keeps {z s : State} (h : Keeps z s) (h : Hdr) (d : Opnd) (a : Opnd) (b : Opnd) :
    OutKeeps z (execShl h d a b s) := by
  unfold execShl
  with_reducible repeat' first | assumption | apply OptKeeps.some | apply OptKeeps.none | apply OptKeeps.map | apply alu2_keeps | split | apply Keeps.lit | trivial | dsimp only | intro _

theorem execShr_keeps {z s : State} (h : Keeps z s) (h : Hdr) (d : Opnd) (a : Opnd) (b : Opnd) :
    OutKeeps z (execShr h d a b s) := by
  unfold execShr
  with_reducible repeat' first | assumption | apply OptKeeps.some | apply OptKeeps.none | apply OptKeeps.map | apply alu2_keeps | split | apply Keeps.lit | trivial | dsimp only | intro _

theorem execSra_keeps {z s : State} (h : Keeps z s) (h : Hdr) (d : Opnd) (a : Opnd) (b : Opnd) :
    OutKeeps z (execSra h d a b s) := by
  unfold execSra
  with_reducible repeat' first | assumption | apply OptKeeps.some | apply OptKeeps.none | apply OptKeeps.map | apply alu2_keeps | split | apply Keeps.lit | trivial | dsimp only | intro _

theorem execMin_keeps {z s : State} (h : Keeps z s) (h : Hdr) (d : Opnd) (a : Opnd) (b : Opnd) :
    OutKeeps z (execMin h d a b s) := by
  unfold execMin
  with_reducible repeat' first | assumption | apply OptKeeps.some | apply OptKeeps.none | apply OptKeeps.map | apply alu2_keeps | split | apply Keeps.lit | trivial | dsimp only | intro _

theorem execMax_keeps {z s : State} (h : Keeps z s) (h : Hdr) (d : Opnd) (a : Opnd) (b : Opnd) :
    OutKeeps z (execMax h d a b s) := by
  unfold execMax
  with_reducible repeat' first | assumption | apply OptKeeps.some | apply OptKeeps.none | apply OptKeeps.map | apply alu2_keeps | split | apply Keeps.lit | trivial | dsimp only | intro _

theorem execMinu_keeps {z s : State} (h : Keeps z s) (h : Hdr) (d : Opnd) (a : Opnd) (b : Opnd) :
    OutKeeps z (execMinu h d a b s) := by
  unfold execMinu
  with_reducible repeat' first | assumption | apply OptKeeps.some | apply OptKeeps.none | apply OptKeeps.map | apply alu2_keeps | split | apply Keeps.lit | trivial | dsimp only | intro _

theorem execMaxu_keeps {z s : State} (h : Keeps z s) (h : Hdr) (d : Opnd) (a : Opnd) (b : Opnd) :
    OutKeeps z (execMaxu h d a b s) := by
  unfold execMaxu
  with_reducible repeat' first | assumption | apply OptKeeps.some | apply OptKeeps.none | apply OptKeeps.map | apply alu2_keeps | split | apply Keeps.lit | trivial | dsimp only | intro _

theorem execAdds_keeps {z s : State} (h : Keeps z s) (h : Hdr) (d : Opnd) (a : Opnd) (b : Opnd) :
    OutKeeps z (execAdds h d a b s) := by
  unfold execAdds
  with_reducible repeat' first | assumption | apply OptKeeps.some | apply OptKeeps.none | apply OptKeeps.map | apply alu2_keeps | split | apply Keeps.lit | trivial | dsimp only | intro _

theorem execSubs_keeps {z s : State} (h : Keeps z s) (h : Hdr) (d : Opnd) (a : Opnd) (b : Opnd) :
    OutKeeps z (execSubs h d a b s) := by
  unfold execSubs
  with_reducible repeat' first | assumption | apply OptKeeps.some | apply OptKeeps.none | apply OptKeeps.map | apply alu2_keeps | split | apply Keeps.lit | trivial | dsimp only | intro _

theorem execLea_keeps {z s : State} (h : Keeps z s) (h : Hdr) (k : BitVec 2) (d : Opnd) (a : Opnd) (b : Opnd) :
    OutKeeps z (execLea h k d a b s) := by
  unfold execLea
  with_reducible repeat' first | assumption | apply OptKeeps.some | apply OptKeeps.none | apply OptKeeps.map | apply alu2_keeps | split | apply Keeps.lit | trivial | dsimp only | intro _

theorem execAdd64_keeps {z s : State} (h : Keeps z s) (h : Hdr) (d : Opnd) (a : Opnd) (b : Opnd) :
    OutKeeps z (execAdd64 h d a b s) := by
  unfold execAdd64
  with_reducible repeat' first | assumption | apply Res.Keeps.ok | apply OptKeeps.some | apply OptKeeps.none | apply OptKeeps.map | apply State.put2_keeps | apply issue_keeps | split | apply Keeps.lit | trivial | dsimp only | intro _

theorem execSub64_keeps {z s : State} (h : Keeps z s) (h : Hdr) (d : Opnd) (a : Opnd) (b : Opnd) :
    OutKeeps z (execSub64 h d a b s) := by
  unfold execSub64
  with_reducible repeat' first | assumption | apply Res.Keeps.ok | apply OptKeeps.some | apply OptKeeps.none | apply OptKeeps.map | apply State.put2_keeps | apply issue_keeps | split | apply Keeps.lit | trivial | dsimp only | intro _

theorem execMulw_keeps {z s : State} (h : Keeps z s) (h : Hdr) (d : Opnd) (a : Opnd) (b : Opnd) :
    OutKeeps z (execMulw h d a b s) := by
  unfold execMulw
  with_reducible repeat' first | assumption | apply Res.Keeps.ok | apply OptKeeps.some | apply OptKeeps.none | apply OptKeeps.map | apply State.put2_keeps | apply issue_keeps | split | apply Keeps.lit | trivial | dsimp only | intro _

theorem execMulws_keeps {z s : State} (h : Keeps z s) (h : Hdr) (d : Opnd) (a : Opnd) (b : Opnd) :
    OutKeeps z (execMulws h d a b s) := by
  unfold execMulws
  with_reducible repeat' first | assumption | apply Res.Keeps.ok | apply OptKeeps.some | apply OptKeeps.none | apply OptKeeps.map | apply State.put2_keeps | apply issue_keeps | split | apply Keeps.lit | trivial | dsimp only | intro _

theorem execBfe_keeps {z s : State} (h : Keeps z s) (h : Hdr) (d : Opnd) (a : Opnd) (b : Opnd) :
    OutKeeps z (execBfe h d a b s) := by
  unfold execBfe
  with_reducible repeat' first | assumption | apply OptKeeps.some | apply OptKeeps.none | apply OptKeeps.map | apply alu2_keeps | split | apply Keeps.lit | trivial | dsimp only | intro _

theorem execBfi_keeps {z s : State} (h : Keeps z s) (h : Hdr) (d : Opnd) (a : Opnd) (b : Opnd) :
    OutKeeps z (execBfi h d a b s) := by
  unfold execBfi
  with_reducible repeat' first | assumption | apply OptKeeps.some | apply OptKeeps.none | apply OptKeeps.map | apply alu3_keeps | split | apply Keeps.lit | trivial | dsimp only | intro _

theorem execPrmb_keeps {z s : State} (h : Keeps z s) (h : Hdr) (d : Opnd) (a : Opnd) (b : Opnd) :
    OutKeeps z (execPrmb h d a b s) := by
  unfold execPrmb
  with_reducible repeat' first | assumption | apply OptKeeps.some | apply OptKeeps.none | apply OptKeeps.map | apply alu2_keeps | split | apply Keeps.lit | trivial | dsimp only | intro _

theorem execAddi_keeps {z s : State} (h : Keeps z s) (h : Hdr) (d : Opnd) (a : Opnd) (imm : BitVec 7) :
    OutKeeps z (execAddi h d a imm s) := by
  unfold execAddi
  with_reducible repeat' first | assumption | apply OptKeeps.some | apply OptKeeps.none | apply OptKeeps.map | apply alu1_keeps | split | apply Keeps.lit | trivial | dsimp only | intro _

theorem execAndi_keeps {z s : State} (h : Keeps z s) (h : Hdr) (d : Opnd) (a : Opnd) (imm : BitVec 7) :
    OutKeeps z (execAndi h d a imm s) := by
  unfold execAndi
  with_reducible repeat' first | assumption | apply OptKeeps.some | apply OptKeeps.none | apply OptKeeps.map | apply alu1_keeps | split | apply Keeps.lit | trivial | dsimp only | intro _

theorem execOri_keeps {z s : State} (h : Keeps z s) (h : Hdr) (d : Opnd) (a : Opnd) (imm : BitVec 7) :
    OutKeeps z (execOri h d a imm s) := by
  unfold execOri
  with_reducible repeat' first | assumption | apply OptKeeps.some | apply OptKeeps.none | apply OptKeeps.map | apply alu1_keeps | split | apply Keeps.lit | trivial | dsimp only | intro _

theorem execXori_keeps {z s : State} (h : Keeps z s) (h : Hdr) (d : Opnd) (a : Opnd) (imm : BitVec 7) :
    OutKeeps z (execXori h d a imm s) := by
  unfold execXori
  with_reducible repeat' first | assumption | apply OptKeeps.some | apply OptKeeps.none | apply OptKeeps.map | apply alu1_keeps | split | apply Keeps.lit | trivial | dsimp only | intro _

theorem execShli_keeps {z s : State} (h : Keeps z s) (h : Hdr) (d : Opnd) (a : Opnd) (imm : BitVec 5) :
    OutKeeps z (execShli h d a imm s) := by
  unfold execShli
  with_reducible repeat' first | assumption | apply OptKeeps.some | apply OptKeeps.none | apply OptKeeps.map | apply alu1_keeps | split | apply Keeps.lit | trivial | dsimp only | intro _

theorem execShri_keeps {z s : State} (h : Keeps z s) (h : Hdr) (d : Opnd) (a : Opnd) (imm : BitVec 5) :
    OutKeeps z (execShri h d a imm s) := by
  unfold execShri
  with_reducible repeat' first | assumption | apply OptKeeps.some | apply OptKeeps.none | apply OptKeeps.map | apply alu1_keeps | split | apply Keeps.lit | trivial | dsimp only | intro _

theorem execSrai_keeps {z s : State} (h : Keeps z s) (h : Hdr) (d : Opnd) (a : Opnd) (imm : BitVec 5) :
    OutKeeps z (execSrai h d a imm s) := by
  unfold execSrai
  with_reducible repeat' first | assumption | apply OptKeeps.some | apply OptKeeps.none | apply OptKeeps.map | apply alu1_keeps | split | apply Keeps.lit | trivial | dsimp only | intro _

theorem execMuli_keeps {z s : State} (h : Keeps z s) (h : Hdr) (d : Opnd) (a : Opnd) (imm : BitVec 7) :
    OutKeeps z (execMuli h d a imm s) := by
  unfold execMuli
  with_reducible repeat' first | assumption | apply OptKeeps.some | apply OptKeeps.none | apply OptKeeps.map | apply alu1_keeps | split | apply Keeps.lit | trivial | dsimp only | intro _

theorem execMovi_keeps {z s : State} (h : Keeps z s) (h : Hdr) (d : Opnd) (imm : BitVec 14) :
    OutKeeps z (execMovi h d imm s) := by
  unfold execMovi
  with_reducible repeat' first | assumption | apply Res.Keeps.ok | apply OptKeeps.some | apply OptKeeps.none | apply OptKeeps.map | apply State.put_keeps | apply issue_keeps | split | apply Keeps.lit | trivial | dsimp only | intro _

theorem execMov_keeps {z s : State} (h : Keeps z s) (h : Hdr) (d : Opnd) (a : Opnd) :
    OutKeeps z (execMov h d a s) := by
  unfold execMov
  with_reducible repeat' first | assumption | apply OptKeeps.some | apply OptKeeps.none | apply OptKeeps.map | apply alu1_keeps | split | apply Keeps.lit | trivial | dsimp only | intro _

theorem execClz_keeps {z s : State} (h : Keeps z s) (h : Hdr) (d : Opnd) (a : Opnd) :
    OutKeeps z (execClz h d a s) := by
  unfold execClz
  with_reducible repeat' first | assumption | apply OptKeeps.some | apply OptKeeps.none | apply OptKeeps.map | apply alu1_keeps | split | apply Keeps.lit | trivial | dsimp only | intro _

theorem execPopc_keeps {z s : State} (h : Keeps z s) (h : Hdr) (d : Opnd) (a : Opnd) :
    OutKeeps z (execPopc h d a s) := by
  unfold execPopc
  with_reducible repeat' first | assumption | apply OptKeeps.some | apply OptKeeps.none | apply OptKeeps.map | apply alu1_keeps | split | apply Keeps.lit | trivial | dsimp only | intro _

theorem execBrev_keeps {z s : State} (h : Keeps z s) (h : Hdr) (d : Opnd) (a : Opnd) :
    OutKeeps z (execBrev h d a s) := by
  unfold execBrev
  with_reducible repeat' first | assumption | apply OptKeeps.some | apply OptKeeps.none | apply OptKeeps.map | apply alu1_keeps | split | apply Keeps.lit | trivial | dsimp only | intro _

theorem execAbs_keeps {z s : State} (h : Keeps z s) (h : Hdr) (d : Opnd) (a : Opnd) :
    OutKeeps z (execAbs h d a s) := by
  unfold execAbs
  with_reducible repeat' first | assumption | apply OptKeeps.some | apply OptKeeps.none | apply OptKeeps.map | apply alu1_keeps | split | apply Keeps.lit | trivial | dsimp only | intro _

theorem execNeg_keeps {z s : State} (h : Keeps z s) (h : Hdr) (d : Opnd) (a : Opnd) :
    OutKeeps z (execNeg h d a s) := by
  unfold execNeg
  with_reducible repeat' first | assumption | apply OptKeeps.some | apply OptKeeps.none | apply OptKeeps.map | apply alu1_keeps | split | apply Keeps.lit | trivial | dsimp only | intro _

theorem execNot_keeps {z s : State} (h : Keeps z s) (h : Hdr) (d : Opnd) (a : Opnd) :
    OutKeeps z (execNot h d a s) := by
  unfold execNot
  with_reducible repeat' first | assumption | apply OptKeeps.some | apply OptKeeps.none | apply OptKeeps.map | apply alu1_keeps | split | apply Keeps.lit | trivial | dsimp only | intro _

theorem execSext8_keeps {z s : State} (h : Keeps z s) (h : Hdr) (d : Opnd) (a : Opnd) :
    OutKeeps z (execSext8 h d a s) := by
  unfold execSext8
  with_reducible repeat' first | assumption | apply OptKeeps.some | apply OptKeeps.none | apply OptKeeps.map | apply alu1_keeps | split | apply Keeps.lit | trivial | dsimp only | intro _

theorem execSext16_keeps {z s : State} (h : Keeps z s) (h : Hdr) (d : Opnd) (a : Opnd) :
    OutKeeps z (execSext16 h d a s) := by
  unfold execSext16
  with_reducible repeat' first | assumption | apply OptKeeps.some | apply OptKeeps.none | apply OptKeeps.map | apply alu1_keeps | split | apply Keeps.lit | trivial | dsimp only | intro _

theorem execZext8_keeps {z s : State} (h : Keeps z s) (h : Hdr) (d : Opnd) (a : Opnd) :
    OutKeeps z (execZext8 h d a s) := by
  unfold execZext8
  with_reducible repeat' first | assumption | apply OptKeeps.some | apply OptKeeps.none | apply OptKeeps.map | apply alu1_keeps | split | apply Keeps.lit | trivial | dsimp only | intro _

theorem execZext16_keeps {z s : State} (h : Keeps z s) (h : Hdr) (d : Opnd) (a : Opnd) :
    OutKeeps z (execZext16 h d a s) := by
  unfold execZext16
  with_reducible repeat' first | assumption | apply OptKeeps.some | apply OptKeeps.none | apply OptKeeps.map | apply alu1_keeps | split | apply Keeps.lit | trivial | dsimp only | intro _

theorem execCtz_keeps {z s : State} (h : Keeps z s) (h : Hdr) (d : Opnd) (a : Opnd) :
    OutKeeps z (execCtz h d a s) := by
  unfold execCtz
  with_reducible repeat' first | assumption | apply OptKeeps.some | apply OptKeeps.none | apply OptKeeps.map | apply alu1_keeps | split | apply Keeps.lit | trivial | dsimp only | intro _

theorem execCmp_keeps {z s : State} (h : Keeps z s) (h : Hdr) (k : BitVec 4) (p : BitVec 3) (a : Opnd) (b : Opnd) :
    OutKeeps z (execCmp h k p a b s) := by
  unfold execCmp
  with_reducible repeat' first | assumption | apply OptKeeps.some | apply OptKeeps.none | apply OptKeeps.map | apply setPredBy_keeps | split | apply Keeps.lit | trivial | dsimp only | intro _

theorem execCmpi_keeps {z s : State} (h : Keeps z s) (h : Hdr) (k : BitVec 4) (p : BitVec 3) (a : Opnd) (imm : BitVec 7) :
    OutKeeps z (execCmpi h k p a imm s) := by
  unfold execCmpi
  with_reducible repeat' first | assumption | apply OptKeeps.some | apply OptKeeps.none | apply OptKeeps.map | apply setPredBy_keeps | split | apply Keeps.lit | trivial | dsimp only | intro _

theorem execPand_keeps {z s : State} (h : Keeps z s) (h : Hdr) (p : BitVec 3) (q : BitVec 3) (r : BitVec 3) :
    OutKeeps z (execPand h p q r s) := by
  unfold execPand
  with_reducible repeat' first | assumption | apply OptKeeps.some | apply OptKeeps.none | apply OptKeeps.map | apply setPredBy_keeps | split | apply Keeps.lit | trivial | dsimp only | intro _

theorem execPor_keeps {z s : State} (h : Keeps z s) (h : Hdr) (p : BitVec 3) (q : BitVec 3) (r : BitVec 3) :
    OutKeeps z (execPor h p q r s) := by
  unfold execPor
  with_reducible repeat' first | assumption | apply OptKeeps.some | apply OptKeeps.none | apply OptKeeps.map | apply setPredBy_keeps | split | apply Keeps.lit | trivial | dsimp only | intro _

theorem execPxor_keeps {z s : State} (h : Keeps z s) (h : Hdr) (p : BitVec 3) (q : BitVec 3) (r : BitVec 3) :
    OutKeeps z (execPxor h p q r s) := by
  unfold execPxor
  with_reducible repeat' first | assumption | apply OptKeeps.some | apply OptKeeps.none | apply OptKeeps.map | apply setPredBy_keeps | split | apply Keeps.lit | trivial | dsimp only | intro _

theorem execPandn_keeps {z s : State} (h : Keeps z s) (h : Hdr) (p : BitVec 3) (q : BitVec 3) (r : BitVec 3) :
    OutKeeps z (execPandn h p q r s) := by
  unfold execPandn
  with_reducible repeat' first | assumption | apply OptKeeps.some | apply OptKeeps.none | apply OptKeeps.map | apply setPredBy_keeps | split | apply Keeps.lit | trivial | dsimp only | intro _

theorem execPnot_keeps {z s : State} (h : Keeps z s) (h : Hdr) (p : BitVec 3) (q : BitVec 3) :
    OutKeeps z (execPnot h p q s) := by
  unfold execPnot
  with_reducible repeat' first | assumption | apply OptKeeps.some | apply OptKeeps.none | apply OptKeeps.map | apply setPredBy_keeps | split | apply Keeps.lit | trivial | dsimp only | intro _

theorem execPget_keeps {z s : State} (h : Keeps z s) (h : Hdr) (d : Opnd) :
    OutKeeps z (execPget h d s) := by
  unfold execPget
  with_reducible repeat' first | assumption | apply Res.Keeps.ok | apply OptKeeps.some | apply OptKeeps.none | apply OptKeeps.map | apply State.put_keeps | apply issue_keeps | split | apply Keeps.lit | trivial | dsimp only | intro _

theorem putPreds_keeps {z x1 : State} (h : Keeps z x1) (v : Word) (x0 : Nat) :
    Keeps z (putPreds v x0 x1) := by
  induction x0 generalizing x1 v with
  | zero => unfold putPreds; with_reducible repeat' first | assumption | apply State.putPred_keeps | apply ih | split | apply Keeps.lit | dsimp only | intro _
  | succ _ ih => unfold putPreds; with_reducible repeat' first | assumption | apply State.putPred_keeps | apply ih | split | apply Keeps.lit | dsimp only | intro _

theorem execPput_keeps {z s : State} (h : Keeps z s) (hd : Hdr) (a : Opnd) : OutKeeps z (execPput hd a s) :=
  issue_keeps h _ _ fun _ g => putPreds_keeps g _ _

theorem execSel_keeps {z s : State} (h : Keeps z s) (h : Hdr) (n : BitVec 3) (d : Opnd) (a : Opnd) (b : Opnd) :
    OutKeeps z (execSel h n d a b s) := by
  unfold execSel
  with_reducible repeat' first | assumption | apply Res.Keeps.ok | apply OptKeeps.some | apply OptKeeps.none | apply OptKeeps.map | apply State.put_keeps | apply issue_keeps | split | apply Keeps.lit | trivial | dsimp only | intro _

/-! Floating -/

theorem State.putF_keeps {z s : State} (h : Keeps z s) (d : Opnd) (r : FRes) :
    Keeps z (State.putF s d r) := by
  unfold State.putF
  with_reducible repeat' first | assumption | apply State.put_keeps | apply State.raise_keeps | split | apply Keeps.lit | dsimp only | intro _

theorem fop2_keeps {z s : State} (h : Keeps z s) (i : Instr) (h : Hdr) (d : Opnd) (a : Opnd) (b : Opnd) (f : Word → Word → Word → FRes) :
    OutKeeps z (fop2 i h d a b f s) := by
  unfold fop2
  with_reducible repeat' first | assumption | apply Res.Keeps.ok | apply OptKeeps.some | apply OptKeeps.none | apply OptKeeps.map | apply issue_keeps | apply State.putF_keeps | split | apply Keeps.lit | trivial | dsimp only | intro _

theorem fop3_keeps {z s : State} (h : Keeps z s) (i : Instr) (h : Hdr) (d : Opnd) (a : Opnd) (b : Opnd) (f : Word → Word → Word → Word → FRes) :
    OutKeeps z (fop3 i h d a b f s) := by
  unfold fop3
  with_reducible repeat' first | assumption | apply Res.Keeps.ok | apply OptKeeps.some | apply OptKeeps.none | apply OptKeeps.map | apply issue_keeps | apply State.putF_keeps | split | apply Keeps.lit | trivial | dsimp only | intro _

theorem fop1_keeps {z s : State} (h : Keeps z s) (i : Instr) (h : Hdr) (d : Opnd) (a : Opnd) (f : Word → Word → FRes) :
    OutKeeps z (fop1 i h d a f s) := by
  unfold fop1
  with_reducible repeat' first | assumption | apply Res.Keeps.ok | apply OptKeeps.some | apply OptKeeps.none | apply OptKeeps.map | apply issue_keeps | apply State.putF_keeps | split | apply Keeps.lit | trivial | dsimp only | intro _

theorem dop_keeps {z s : State} (h : Keeps z s) (i : Instr) (d : Opnd) (f : RMode → State → FRes) :
    OutKeeps z (dop i d f s) := by
  unfold dop
  with_reducible repeat' first | assumption | apply Res.Keeps.ok | apply OptKeeps.some | apply OptKeeps.none | apply OptKeeps.map | apply State.postTo2_keeps | apply issue_keeps | split | apply Keeps.lit | trivial | dsimp only | intro _

theorem execFadd_keeps {z s : State} (h : Keeps z s) (h : Hdr) (d : Opnd) (a : Opnd) (b : Opnd) :
    OutKeeps z (execFadd h d a b s) := by
  unfold execFadd
  with_reducible repeat' first | assumption | apply OptKeeps.some | apply OptKeeps.none | apply OptKeeps.map | apply fop2_keeps | split | apply Keeps.lit | trivial | dsimp only | intro _

theorem execFsub_keeps {z s : State} (h : Keeps z s) (h : Hdr) (d : Opnd) (a : Opnd) (b : Opnd) :
    OutKeeps z (execFsub h d a b s) := by
  unfold execFsub
  with_reducible repeat' first | assumption | apply OptKeeps.some | apply OptKeeps.none | apply OptKeeps.map | apply fop2_keeps | split | apply Keeps.lit | trivial | dsimp only | intro _

theorem execFmul_keeps {z s : State} (h : Keeps z s) (h : Hdr) (d : Opnd) (a : Opnd) (b : Opnd) :
    OutKeeps z (execFmul h d a b s) := by
  unfold execFmul
  with_reducible repeat' first | assumption | apply OptKeeps.some | apply OptKeeps.none | apply OptKeeps.map | apply fop2_keeps | split | apply Keeps.lit | trivial | dsimp only | intro _

theorem execFfma_keeps {z s : State} (h : Keeps z s) (h : Hdr) (d : Opnd) (a : Opnd) (b : Opnd) :
    OutKeeps z (execFfma h d a b s) := by
  unfold execFfma
  with_reducible repeat' first | assumption | apply OptKeeps.some | apply OptKeeps.none | apply OptKeeps.map | apply fop3_keeps | split | apply Keeps.lit | trivial | dsimp only | intro _

theorem execFfnma_keeps {z s : State} (h : Keeps z s) (h : Hdr) (d : Opnd) (a : Opnd) (b : Opnd) :
    OutKeeps z (execFfnma h d a b s) := by
  unfold execFfnma
  with_reducible repeat' first | assumption | apply OptKeeps.some | apply OptKeeps.none | apply OptKeeps.map | apply fop3_keeps | split | apply Keeps.lit | trivial | dsimp only | intro _

theorem execFmin_keeps {z s : State} (h : Keeps z s) (h : Hdr) (d : Opnd) (a : Opnd) (b : Opnd) :
    OutKeeps z (execFmin h d a b s) := by
  unfold execFmin
  with_reducible repeat' first | assumption | apply OptKeeps.some | apply OptKeeps.none | apply OptKeeps.map | apply fop2_keeps | split | apply Keeps.lit | trivial | dsimp only | intro _

theorem execFmax_keeps {z s : State} (h : Keeps z s) (h : Hdr) (d : Opnd) (a : Opnd) (b : Opnd) :
    OutKeeps z (execFmax h d a b s) := by
  unfold execFmax
  with_reducible repeat' first | assumption | apply OptKeeps.some | apply OptKeeps.none | apply OptKeeps.map | apply fop2_keeps | split | apply Keeps.lit | trivial | dsimp only | intro _

theorem execFcmp_keeps {z s : State} (h : Keeps z s) (h : Hdr) (k : BitVec 4) (p : BitVec 3) (a : Opnd) (b : Opnd) :
    OutKeeps z (execFcmp h k p a b s) := by
  unfold execFcmp
  with_reducible repeat' first | assumption | apply Res.Keeps.ok | apply OptKeeps.some | apply OptKeeps.none | apply OptKeeps.map | apply State.putPred_keeps | apply issue_keeps | split | apply Keeps.lit | trivial | dsimp only | intro _

theorem execHadd2_keeps {z s : State} (h : Keeps z s) (h : Hdr) (d : Opnd) (a : Opnd) (b : Opnd) :
    OutKeeps z (execHadd2 h d a b s) := by
  unfold execHadd2
  with_reducible repeat' first | assumption | apply OptKeeps.some | apply OptKeeps.none | apply OptKeeps.map | apply fop2_keeps | split | apply Keeps.lit | trivial | dsimp only | intro _

theorem execHmul2_keeps {z s : State} (h : Keeps z s) (h : Hdr) (d : Opnd) (a : Opnd) (b : Opnd) :
    OutKeeps z (execHmul2 h d a b s) := by
  unfold execHmul2
  with_reducible repeat' first | assumption | apply OptKeeps.some | apply OptKeeps.none | apply OptKeeps.map | apply fop2_keeps | split | apply Keeps.lit | trivial | dsimp only | intro _

theorem execHfma2_keeps {z s : State} (h : Keeps z s) (h : Hdr) (d : Opnd) (a : Opnd) (b : Opnd) :
    OutKeeps z (execHfma2 h d a b s) := by
  unfold execHfma2
  with_reducible repeat' first | assumption | apply OptKeeps.some | apply OptKeeps.none | apply OptKeeps.map | apply fop3_keeps | split | apply Keeps.lit | trivial | dsimp only | intro _

theorem execBadd2_keeps {z s : State} (h : Keeps z s) (h : Hdr) (d : Opnd) (a : Opnd) (b : Opnd) :
    OutKeeps z (execBadd2 h d a b s) := by
  unfold execBadd2
  with_reducible repeat' first | assumption | apply OptKeeps.some | apply OptKeeps.none | apply OptKeeps.map | apply fop2_keeps | split | apply Keeps.lit | trivial | dsimp only | intro _

theorem execBmul2_keeps {z s : State} (h : Keeps z s) (h : Hdr) (d : Opnd) (a : Opnd) (b : Opnd) :
    OutKeeps z (execBmul2 h d a b s) := by
  unfold execBmul2
  with_reducible repeat' first | assumption | apply OptKeeps.some | apply OptKeeps.none | apply OptKeeps.map | apply fop2_keeps | split | apply Keeps.lit | trivial | dsimp only | intro _

theorem execBfma2_keeps {z s : State} (h : Keeps z s) (h : Hdr) (d : Opnd) (a : Opnd) (b : Opnd) :
    OutKeeps z (execBfma2 h d a b s) := by
  unfold execBfma2
  with_reducible repeat' first | assumption | apply OptKeeps.some | apply OptKeeps.none | apply OptKeeps.map | apply fop3_keeps | split | apply Keeps.lit | trivial | dsimp only | intro _

theorem execDadd_keeps {z s : State} (h : Keeps z s) (h : Hdr) (d : Opnd) (a : Opnd) (b : Opnd) :
    OutKeeps z (execDadd h d a b s) := by
  unfold execDadd
  with_reducible repeat' first | assumption | apply OptKeeps.some | apply OptKeeps.none | apply OptKeeps.map | apply dop_keeps | split | apply Keeps.lit | trivial | dsimp only | intro _

theorem execDmul_keeps {z s : State} (h : Keeps z s) (h : Hdr) (d : Opnd) (a : Opnd) (b : Opnd) :
    OutKeeps z (execDmul h d a b s) := by
  unfold execDmul
  with_reducible repeat' first | assumption | apply OptKeeps.some | apply OptKeeps.none | apply OptKeeps.map | apply dop_keeps | split | apply Keeps.lit | trivial | dsimp only | intro _

theorem execDfma_keeps {z s : State} (h : Keeps z s) (h : Hdr) (d : Opnd) (a : Opnd) (b : Opnd) :
    OutKeeps z (execDfma h d a b s) := by
  unfold execDfma
  with_reducible repeat' first | assumption | apply OptKeeps.some | apply OptKeeps.none | apply OptKeeps.map | apply dop_keeps | split | apply Keeps.lit | trivial | dsimp only | intro _

theorem execDcmp_keeps {z s : State} (h : Keeps z s) (h : Hdr) (k : BitVec 4) (p : BitVec 3) (a : Opnd) (b : Opnd) :
    OutKeeps z (execDcmp h k p a b s) := by
  unfold execDcmp
  with_reducible repeat' first | assumption | apply Res.Keeps.ok | apply OptKeeps.some | apply OptKeeps.none | apply OptKeeps.map | apply State.postPred_keeps | apply issue_keeps | split | apply Keeps.lit | trivial | dsimp only | intro _

theorem execFabs_keeps {z s : State} (h : Keeps z s) (h : Hdr) (d : Opnd) (a : Opnd) :
    OutKeeps z (execFabs h d a s) := by
  unfold execFabs
  with_reducible repeat' first | assumption | apply OptKeeps.some | apply OptKeeps.none | apply OptKeeps.map | apply fop1_keeps | split | apply Keeps.lit | trivial | dsimp only | intro _

theorem execFneg_keeps {z s : State} (h : Keeps z s) (h : Hdr) (d : Opnd) (a : Opnd) :
    OutKeeps z (execFneg h d a s) := by
  unfold execFneg
  with_reducible repeat' first | assumption | apply OptKeeps.some | apply OptKeeps.none | apply OptKeeps.map | apply fop1_keeps | split | apply Keeps.lit | trivial | dsimp only | intro _

theorem execFfloor_keeps {z s : State} (h : Keeps z s) (h : Hdr) (d : Opnd) (a : Opnd) :
    OutKeeps z (execFfloor h d a s) := by
  unfold execFfloor
  with_reducible repeat' first | assumption | apply OptKeeps.some | apply OptKeeps.none | apply OptKeeps.map | apply fop1_keeps | split | apply Keeps.lit | trivial | dsimp only | intro _

theorem execFceil_keeps {z s : State} (h : Keeps z s) (h : Hdr) (d : Opnd) (a : Opnd) :
    OutKeeps z (execFceil h d a s) := by
  unfold execFceil
  with_reducible repeat' first | assumption | apply OptKeeps.some | apply OptKeeps.none | apply OptKeeps.map | apply fop1_keeps | split | apply Keeps.lit | trivial | dsimp only | intro _

theorem execFtrunc_keeps {z s : State} (h : Keeps z s) (h : Hdr) (d : Opnd) (a : Opnd) :
    OutKeeps z (execFtrunc h d a s) := by
  unfold execFtrunc
  with_reducible repeat' first | assumption | apply OptKeeps.some | apply OptKeeps.none | apply OptKeeps.map | apply fop1_keeps | split | apply Keeps.lit | trivial | dsimp only | intro _

theorem execFrint_keeps {z s : State} (h : Keeps z s) (h : Hdr) (d : Opnd) (a : Opnd) :
    OutKeeps z (execFrint h d a s) := by
  unfold execFrint
  with_reducible repeat' first | assumption | apply OptKeeps.some | apply OptKeeps.none | apply OptKeeps.map | apply fop1_keeps | split | apply Keeps.lit | trivial | dsimp only | intro _

theorem execFclass_keeps {z s : State} (h : Keeps z s) (h : Hdr) (d : Opnd) (a : Opnd) :
    OutKeeps z (execFclass h d a s) := by
  unfold execFclass
  with_reducible repeat' first | assumption | apply OptKeeps.some | apply OptKeeps.none | apply OptKeeps.map | apply fop1_keeps | split | apply Keeps.lit | trivial | dsimp only | intro _

theorem execFcvtF16F32_keeps {z s : State} (h : Keeps z s) (h : Hdr) (d : Opnd) (a : Opnd) :
    OutKeeps z (execFcvtF16F32 h d a s) := by
  unfold execFcvtF16F32
  with_reducible repeat' first | assumption | apply OptKeeps.some | apply OptKeeps.none | apply OptKeeps.map | apply fop1_keeps | split | apply Keeps.lit | trivial | dsimp only | intro _

theorem execFcvtBf16F32_keeps {z s : State} (h : Keeps z s) (h : Hdr) (d : Opnd) (a : Opnd) :
    OutKeeps z (execFcvtBf16F32 h d a s) := by
  unfold execFcvtBf16F32
  with_reducible repeat' first | assumption | apply OptKeeps.some | apply OptKeeps.none | apply OptKeeps.map | apply fop1_keeps | split | apply Keeps.lit | trivial | dsimp only | intro _

theorem execFcvtF32F16_keeps {z s : State} (h : Keeps z s) (h : Hdr) (d : Opnd) (a : Opnd) :
    OutKeeps z (execFcvtF32F16 h d a s) := by
  unfold execFcvtF32F16
  with_reducible repeat' first | assumption | apply OptKeeps.some | apply OptKeeps.none | apply OptKeeps.map | apply fop1_keeps | split | apply Keeps.lit | trivial | dsimp only | intro _

theorem execFcvtF32Bf16_keeps {z s : State} (h : Keeps z s) (h : Hdr) (d : Opnd) (a : Opnd) :
    OutKeeps z (execFcvtF32Bf16 h d a s) := by
  unfold execFcvtF32Bf16
  with_reducible repeat' first | assumption | apply OptKeeps.some | apply OptKeeps.none | apply OptKeeps.map | apply fop1_keeps | split | apply Keeps.lit | trivial | dsimp only | intro _

theorem execFcvtF64F32_keeps {z s : State} (h : Keeps z s) (h : Hdr) (d : Opnd) (a : Opnd) :
    OutKeeps z (execFcvtF64F32 h d a s) := by
  unfold execFcvtF64F32
  with_reducible repeat' first | assumption | apply Res.Keeps.ok | apply OptKeeps.some | apply OptKeeps.none | apply OptKeeps.map | apply State.put2_keeps | apply issue_keeps | apply State.raise_keeps | split | apply Keeps.lit | trivial | dsimp only | intro _

theorem execFcvtF32F64_keeps {z s : State} (h : Keeps z s) (h : Hdr) (d : Opnd) (a : Opnd) :
    OutKeeps z (execFcvtF32F64 h d a s) := by
  unfold execFcvtF32F64
  with_reducible repeat' first | assumption | apply Res.Keeps.ok | apply OptKeeps.some | apply OptKeeps.none | apply OptKeeps.map | apply issue_keeps | apply State.putF_keeps | split | apply Keeps.lit | trivial | dsimp only | intro _

theorem execFcvtF32S32_keeps {z s : State} (h : Keeps z s) (h : Hdr) (d : Opnd) (a : Opnd) :
    OutKeeps z (execFcvtF32S32 h d a s) := by
  unfold execFcvtF32S32
  with_reducible repeat' first | assumption | apply OptKeeps.some | apply OptKeeps.none | apply OptKeeps.map | apply fop1_keeps | split | apply Keeps.lit | trivial | dsimp only | intro _

theorem execFcvtF32N32_keeps {z s : State} (h : Keeps z s) (h : Hdr) (d : Opnd) (a : Opnd) :
    OutKeeps z (execFcvtF32N32 h d a s) := by
  unfold execFcvtF32N32
  with_reducible repeat' first | assumption | apply OptKeeps.some | apply OptKeeps.none | apply OptKeeps.map | apply fop1_keeps | split | apply Keeps.lit | trivial | dsimp only | intro _

theorem execFcvtF64S32_keeps {z s : State} (h : Keeps z s) (h : Hdr) (d : Opnd) (a : Opnd) :
    OutKeeps z (execFcvtF64S32 h d a s) := by
  unfold execFcvtF64S32
  with_reducible repeat' first | assumption | apply Res.Keeps.ok | apply OptKeeps.some | apply OptKeeps.none | apply OptKeeps.map | apply State.put2_keeps | apply issue_keeps | apply State.raise_keeps | split | apply Keeps.lit | trivial | dsimp only | intro _

theorem execFcvtF64N32_keeps {z s : State} (h : Keeps z s) (h : Hdr) (d : Opnd) (a : Opnd) :
    OutKeeps z (execFcvtF64N32 h d a s) := by
  unfold execFcvtF64N32
  with_reducible repeat' first | assumption | apply Res.Keeps.ok | apply OptKeeps.some | apply OptKeeps.none | apply OptKeeps.map | apply State.put2_keeps | apply issue_keeps | apply State.raise_keeps | split | apply Keeps.lit | trivial | dsimp only | intro _

theorem execFcvtS32F32Fixed_keeps {z s : State} (h : Keeps z s) (h : Hdr) (d : Opnd) (a : Opnd) (rm : BitVec 2) :
    OutKeeps z (execFcvtS32F32Fixed h d a rm s) := by
  unfold execFcvtS32F32Fixed
  with_reducible repeat' first | assumption | apply OptKeeps.some | apply OptKeeps.none | apply OptKeeps.map | apply fop1_keeps | split | apply Keeps.lit | trivial | dsimp only | intro _

theorem execFcvtS32F32_keeps {z s : State} (h : Keeps z s) (h : Hdr) (d : Opnd) (a : Opnd) :
    OutKeeps z (execFcvtS32F32 h d a s) := by
  unfold execFcvtS32F32
  with_reducible repeat' first | assumption | apply OptKeeps.some | apply OptKeeps.none | apply OptKeeps.map | apply fop1_keeps | split | apply Keeps.lit | trivial | dsimp only | intro _

theorem execFcvtN32F32Fixed_keeps {z s : State} (h : Keeps z s) (h : Hdr) (d : Opnd) (a : Opnd) (rm : BitVec 2) :
    OutKeeps z (execFcvtN32F32Fixed h d a rm s) := by
  unfold execFcvtN32F32Fixed
  with_reducible repeat' first | assumption | apply OptKeeps.some | apply OptKeeps.none | apply OptKeeps.map | apply fop1_keeps | split | apply Keeps.lit | trivial | dsimp only | intro _

theorem execFcvtN32F32_keeps {z s : State} (h : Keeps z s) (h : Hdr) (d : Opnd) (a : Opnd) :
    OutKeeps z (execFcvtN32F32 h d a s) := by
  unfold execFcvtN32F32
  with_reducible repeat' first | assumption | apply OptKeeps.some | apply OptKeeps.none | apply OptKeeps.map | apply fop1_keeps | split | apply Keeps.lit | trivial | dsimp only | intro _

theorem execFcvtS32F64Fixed_keeps {z s : State} (h : Keeps z s) (h : Hdr) (d : Opnd) (a : Opnd) (rm : BitVec 2) :
    OutKeeps z (execFcvtS32F64Fixed h d a rm s) := by
  unfold execFcvtS32F64Fixed
  with_reducible repeat' first | assumption | apply Res.Keeps.ok | apply OptKeeps.some | apply OptKeeps.none | apply OptKeeps.map | apply issue_keeps | apply State.putF_keeps | split | apply Keeps.lit | trivial | dsimp only | intro _

theorem execFcvtS32F64_keeps {z s : State} (h : Keeps z s) (h : Hdr) (d : Opnd) (a : Opnd) :
    OutKeeps z (execFcvtS32F64 h d a s) := by
  unfold execFcvtS32F64
  with_reducible repeat' first | assumption | apply Res.Keeps.ok | apply OptKeeps.some | apply OptKeeps.none | apply OptKeeps.map | apply issue_keeps | apply State.putF_keeps | split | apply Keeps.lit | trivial | dsimp only | intro _

theorem execFcvtN32F64Fixed_keeps {z s : State} (h : Keeps z s) (h : Hdr) (d : Opnd) (a : Opnd) (rm : BitVec 2) :
    OutKeeps z (execFcvtN32F64Fixed h d a rm s) := by
  unfold execFcvtN32F64Fixed
  with_reducible repeat' first | assumption | apply Res.Keeps.ok | apply OptKeeps.some | apply OptKeeps.none | apply OptKeeps.map | apply issue_keeps | apply State.putF_keeps | split | apply Keeps.lit | trivial | dsimp only | intro _

theorem execFcvtN32F64_keeps {z s : State} (h : Keeps z s) (h : Hdr) (d : Opnd) (a : Opnd) :
    OutKeeps z (execFcvtN32F64 h d a s) := by
  unfold execFcvtN32F64
  with_reducible repeat' first | assumption | apply Res.Keeps.ok | apply OptKeeps.some | apply OptKeeps.none | apply OptKeeps.map | apply issue_keeps | apply State.putF_keeps | split | apply Keeps.lit | trivial | dsimp only | intro _

theorem execPkF16_keeps {z s : State} (h : Keeps z s) (h : Hdr) (d : Opnd) (a : Opnd) (b : Opnd) :
    OutKeeps z (execPkF16 h d a b s) := by
  unfold execPkF16
  with_reducible repeat' first | assumption | apply OptKeeps.some | apply OptKeeps.none | apply OptKeeps.map | apply fop2_keeps | split | apply Keeps.lit | trivial | dsimp only | intro _

theorem execPkB16_keeps {z s : State} (h : Keeps z s) (h : Hdr) (d : Opnd) (a : Opnd) (b : Opnd) :
    OutKeeps z (execPkB16 h d a b s) := by
  unfold execPkB16
  with_reducible repeat' first | assumption | apply OptKeeps.some | apply OptKeeps.none | apply OptKeeps.map | apply fop2_keeps | split | apply Keeps.lit | trivial | dsimp only | intro _

theorem execPkn_keeps {z s : State} (h : Keeps z s) (h : Hdr) (d : Opnd) (a : Opnd) (b : Opnd) :
    OutKeeps z (execPkn h d a b s) := by
  unfold execPkn
  with_reducible repeat' first | assumption | apply Res.Keeps.ok | apply Res.Keeps.trap | apply OptKeeps.some | apply OptKeeps.none | apply OptKeeps.map | apply State.put_keeps | apply issue_keeps | apply State.raise_keeps | split | apply Keeps.lit | trivial | dsimp only | intro _

theorem execUpkn_keeps {z s : State} (h : Keeps z s) (h : Hdr) (d : Opnd) (a : Opnd) (b : Opnd) :
    OutKeeps z (execUpkn h d a b s) := by
  unfold execUpkn
  with_reducible repeat' first | assumption | apply Res.Keeps.ok | apply Res.Keeps.trap | apply OptKeeps.some | apply OptKeeps.none | apply OptKeeps.map | apply issue_keeps | apply State.putF_keeps | split | apply Keeps.lit | trivial | dsimp only | intro _

theorem execDot4E43_keeps {z s : State} (h : Keeps z s) (h : Hdr) (d : Opnd) (a : Opnd) (b : Opnd) :
    OutKeeps z (execDot4E43 h d a b s) := by
  unfold execDot4E43
  with_reducible repeat' first | assumption | apply OptKeeps.some | apply OptKeeps.none | apply OptKeeps.map | apply fop3_keeps | split | apply Keeps.lit | trivial | dsimp only | intro _

theorem execDot4E52_keeps {z s : State} (h : Keeps z s) (h : Hdr) (d : Opnd) (a : Opnd) (b : Opnd) :
    OutKeeps z (execDot4E52 h d a b s) := by
  unfold execDot4E52
  with_reducible repeat' first | assumption | apply OptKeeps.some | apply OptKeeps.none | apply OptKeeps.map | apply fop3_keeps | split | apply Keeps.lit | trivial | dsimp only | intro _

theorem execDot8E21_keeps {z s : State} (h : Keeps z s) (h : Hdr) (d : Opnd) (a : Opnd) (b : Opnd) :
    OutKeeps z (execDot8E21 h d a b s) := by
  unfold execDot8E21
  with_reducible repeat' first | assumption | apply OptKeeps.some | apply OptKeeps.none | apply OptKeeps.map | apply fop3_keeps | split | apply Keeps.lit | trivial | dsimp only | intro _

theorem execDot2B16_keeps {z s : State} (h : Keeps z s) (h : Hdr) (d : Opnd) (a : Opnd) (b : Opnd) :
    OutKeeps z (execDot2B16 h d a b s) := by
  unfold execDot2B16
  with_reducible repeat' first | assumption | apply OptKeeps.some | apply OptKeeps.none | apply OptKeeps.map | apply fop3_keeps | split | apply Keeps.lit | trivial | dsimp only | intro _

theorem execDot2F16_keeps {z s : State} (h : Keeps z s) (h : Hdr) (d : Opnd) (a : Opnd) (b : Opnd) :
    OutKeeps z (execDot2F16 h d a b s) := by
  unfold execDot2F16
  with_reducible repeat' first | assumption | apply OptKeeps.some | apply OptKeeps.none | apply OptKeeps.map | apply fop3_keeps | split | apply Keeps.lit | trivial | dsimp only | intro _

theorem execDot4S8_keeps {z s : State} (h : Keeps z s) (h : Hdr) (d : Opnd) (a : Opnd) (b : Opnd) :
    OutKeeps z (execDot4S8 h d a b s) := by
  unfold execDot4S8
  with_reducible repeat' first | assumption | apply OptKeeps.some | apply OptKeeps.none | apply OptKeeps.map | apply fop3_keeps | split | apply Keeps.lit | trivial | dsimp only | intro _

theorem execDot4N8_keeps {z s : State} (h : Keeps z s) (h : Hdr) (d : Opnd) (a : Opnd) (b : Opnd) :
    OutKeeps z (execDot4N8 h d a b s) := by
  unfold execDot4N8
  with_reducible repeat' first | assumption | apply OptKeeps.some | apply OptKeeps.none | apply OptKeeps.map | apply fop3_keeps | split | apply Keeps.lit | trivial | dsimp only | intro _

theorem execDot8S4_keeps {z s : State} (h : Keeps z s) (h : Hdr) (d : Opnd) (a : Opnd) (b : Opnd) :
    OutKeeps z (execDot8S4 h d a b s) := by
  unfold execDot8S4
  with_reducible repeat' first | assumption | apply OptKeeps.some | apply OptKeeps.none | apply OptKeeps.map | apply fop3_keeps | split | apply Keeps.lit | trivial | dsimp only | intro _

theorem execFscl_keeps {z s : State} (h : Keeps z s) (h : Hdr) (d : Opnd) (a : Opnd) (b : Opnd) :
    OutKeeps z (execFscl h d a b s) := by
  unfold execFscl
  with_reducible repeat' first | assumption | apply OptKeeps.some | apply OptKeeps.none | apply OptKeeps.map | apply fop2_keeps | split | apply Keeps.lit | trivial | dsimp only | intro _

/-! Sfu -/

theorem sfuOp_keeps {z s : State} (h : Keeps z s) (i : Instr) (h : Hdr) (d : Opnd) (a : Opnd) (f : Bool → Word → FRes) :
    OutKeeps z (sfuOp i h d a f s) := by
  unfold sfuOp
  with_reducible repeat' first | assumption | apply Res.Keeps.ok | apply OptKeeps.some | apply OptKeeps.none | apply OptKeeps.map | apply State.postTo_keeps | apply issue_keeps | split | apply Keeps.lit | trivial | dsimp only | intro _

theorem execFrcp_keeps {z s : State} (h : Keeps z s) (h : Hdr) (d : Opnd) (a : Opnd) :
    OutKeeps z (execFrcp h d a s) := by
  unfold execFrcp
  with_reducible repeat' first | assumption | apply OptKeeps.some | apply OptKeeps.none | apply OptKeeps.map | apply sfuOp_keeps | split | apply Keeps.lit | trivial | dsimp only | intro _

theorem execFrsq_keeps {z s : State} (h : Keeps z s) (h : Hdr) (d : Opnd) (a : Opnd) :
    OutKeeps z (execFrsq h d a s) := by
  unfold execFrsq
  with_reducible repeat' first | assumption | apply OptKeeps.some | apply OptKeeps.none | apply OptKeeps.map | apply sfuOp_keeps | split | apply Keeps.lit | trivial | dsimp only | intro _

theorem execFsqrt_keeps {z s : State} (h : Keeps z s) (h : Hdr) (d : Opnd) (a : Opnd) :
    OutKeeps z (execFsqrt h d a s) := by
  unfold execFsqrt
  with_reducible repeat' first | assumption | apply OptKeeps.some | apply OptKeeps.none | apply OptKeeps.map | apply sfuOp_keeps | split | apply Keeps.lit | trivial | dsimp only | intro _

theorem execFex2_keeps {z s : State} (h : Keeps z s) (h : Hdr) (d : Opnd) (a : Opnd) :
    OutKeeps z (execFex2 h d a s) := by
  unfold execFex2
  with_reducible repeat' first | assumption | apply OptKeeps.some | apply OptKeeps.none | apply OptKeeps.map | apply sfuOp_keeps | split | apply Keeps.lit | trivial | dsimp only | intro _

theorem execFlg2_keeps {z s : State} (h : Keeps z s) (h : Hdr) (d : Opnd) (a : Opnd) :
    OutKeeps z (execFlg2 h d a s) := by
  unfold execFlg2
  with_reducible repeat' first | assumption | apply OptKeeps.some | apply OptKeeps.none | apply OptKeeps.map | apply sfuOp_keeps | split | apply Keeps.lit | trivial | dsimp only | intro _

theorem execFsinp_keeps {z s : State} (h : Keeps z s) (h : Hdr) (d : Opnd) (a : Opnd) :
    OutKeeps z (execFsinp h d a s) := by
  unfold execFsinp
  with_reducible repeat' first | assumption | apply OptKeeps.some | apply OptKeeps.none | apply OptKeeps.map | apply sfuOp_keeps | split | apply Keeps.lit | trivial | dsimp only | intro _

theorem execFcosp_keeps {z s : State} (h : Keeps z s) (h : Hdr) (d : Opnd) (a : Opnd) :
    OutKeeps z (execFcosp h d a s) := by
  unfold execFcosp
  with_reducible repeat' first | assumption | apply OptKeeps.some | apply OptKeeps.none | apply OptKeeps.map | apply sfuOp_keeps | split | apply Keeps.lit | trivial | dsimp only | intro _

theorem execFtanh_keeps {z s : State} (h : Keeps z s) (h : Hdr) (d : Opnd) (a : Opnd) :
    OutKeeps z (execFtanh h d a s) := by
  unfold execFtanh
  with_reducible repeat' first | assumption | apply OptKeeps.some | apply OptKeeps.none | apply OptKeeps.map | apply sfuOp_keeps | split | apply Keeps.lit | trivial | dsimp only | intro _

theorem execFsigm_keeps {z s : State} (h : Keeps z s) (h : Hdr) (d : Opnd) (a : Opnd) :
    OutKeeps z (execFsigm h d a s) := by
  unfold execFsigm
  with_reducible repeat' first | assumption | apply OptKeeps.some | apply OptKeeps.none | apply OptKeeps.map | apply sfuOp_keeps | split | apply Keeps.lit | trivial | dsimp only | intro _

/-! Translate -/

theorem State.l2Fill_keeps {z s : State} (h : Keeps z s) (line : Nat) (ways : List Nat) (dirty : Bool) :
    Keeps z (State.l2Fill s line ways dirty) := by
  unfold State.l2Fill
  with_reducible repeat' first | assumption | apply State.countSlice_keeps | split | apply Keeps.lit | dsimp only | intro _

theorem State.l2Touch_keeps {z s : State} (h : Keeps z s) (line : Nat) (ways : List Nat) (write : Bool) :
    Keeps z (State.l2Touch s line ways write) := by
  unfold State.l2Touch
  with_reducible repeat' first | assumption | apply State.countSlice_keeps | apply State.l2Fill_keeps | split | apply Keeps.lit | dsimp only | intro _

theorem State.l2Read_keeps {z s : State} (h : Keeps z s) (guest : Byte) (line : Nat) :
    Keeps z (State.l2Read s guest line) := by
  unfold State.l2Read
  with_reducible repeat' first | assumption | apply State.l2Touch_keeps | split | apply Keeps.lit | dsimp only | intro _

theorem State.l2Store_keeps {z s : State} (h : Keeps z s) (guest : Byte) (line : Nat) :
    Keeps z (State.l2Store s guest line) := by
  unfold State.l2Store
  with_reducible repeat' first | assumption | apply State.l2Touch_keeps | split | apply Keeps.lit | dsimp only | intro _

theorem State.l2Write_keeps {z s : State} (h : Keeps z s) (line : Nat) :
    Keeps z (State.l2Write s line) := by
  unfold State.l2Write
  with_reducible repeat' first | assumption | apply State.l2Touch_keeps | split | apply Keeps.lit | dsimp only | intro _

theorem State.walkTouch_keeps {z s : State} (h : Keeps z s) (sp : Space) (va : Nat) :
    Keeps z (State.walkTouch s sp va) := by
  unfold State.walkTouch
  with_reducible repeat' first | assumption | apply State.l2Read_keeps | refine Keeps.foldl (fun s x h => ?_) ?_ | split | apply Keeps.lit | dsimp only | intro _

theorem State.bumpTree_keeps {z s : State} (h : Keeps z s) (frame : Nat) :
    Keeps z (State.bumpTree s frame) := by
  unfold State.bumpTree
  with_reducible repeat' first | assumption | apply State.put_keeps | split | apply Keeps.lit | dsimp only | intro _

theorem State.inject_keeps {z s : State} (h : Keeps z s) (written : Nat → Bool) :
    Keeps z (State.inject s written) := by
  unfold State.inject
  with_reducible repeat' first | assumption | split | apply Keeps.lit | dsimp only | intro _

theorem State.grant_keeps {z s : State} (h : Keeps z s) (line : Nat) :
    Keeps z (State.grant s line) := by
  unfold State.grant
  with_reducible repeat' first | assumption | apply State.countSlice_keeps | apply State.bumpTree_keeps | apply State.inject_keeps | split | apply Keeps.lit | dsimp only | intro _

theorem State.setAD_keeps {z s : State} (h : Keeps z s) (a : Nat) (e : Nat) (write : Bool) : Keeps z (State.setAD s a e write) := by
  unfold State.setAD
  split
  · exact h
  · exact Keeps.litAll (State.countSlice_keeps (State.l2Write_keeps (State.grant_keeps h _) _) _ _ _)

theorem State.putTlb_keeps {z s : State} (h : Keeps z s) (t : Tlb) :
    Keeps z (State.putTlb s t) := by
  unfold State.putTlb
  with_reducible repeat' first | assumption | split | apply Keeps.lit | dsimp only | intro _

theorem walk_keeps {z s : State} (h : Keeps z s) (a : Access) :
    ExKeeps z (walk s a) := by
  unfold walk
  with_reducible repeat' first | assumption | apply ExKeeps.ok | apply ExKeeps.error | apply State.countSlice_keeps | apply State.walkTouch_keeps | apply State.setAD_keeps | apply State.putTlb_keeps | split | apply Keeps.lit | dsimp only | intro _

theorem translate_keeps {z s : State} (h : Keeps z s) (a : Access) :
    ExKeeps z (translate s a) := by
  unfold translate
  with_reducible repeat' first | assumption | apply ExKeeps.ok | apply ExKeeps.error | apply State.countSlice_keeps | apply walk_keeps | refine ExKeeps.of (by assumption) (walk_keeps ?_ _) | split | apply Keeps.lit | dsimp only | intro _

/-! Cache -/

theorem State.addEpoch_keeps {z s : State} (h : Keeps z s) (core : Nat) (g : Sig) :
    Keeps z (State.addEpoch s core g) := by
  unfold State.addEpoch
  with_reducible repeat' first | assumption | apply State.modCore_keeps | split | apply Keeps.lit | dsimp only | intro _

theorem State.noteWrite_keeps {z s : State} (h : Keeps z s) (core : Nat) (va : Nat) :
    Keeps z (State.noteWrite s core va) := by
  unfold State.noteWrite
  with_reducible repeat' first | assumption | apply State.addEpoch_keeps | split | apply Keeps.lit | dsimp only | intro _

theorem State.keepSig_keeps {z s : State} (h : Keeps z s) (line : Nat) (g : Sig) :
    Keeps z (State.keepSig s line g) := by
  unfold State.keepSig
  with_reducible repeat' first | assumption | apply State.put_keeps | split | apply Keeps.lit | dsimp only | intro _

theorem State.scrubFrame_keeps {z s : State} (h : Keeps z s) (frame : Nat) :
    Keeps z (State.scrubFrame s frame) := by
  unfold State.scrubFrame
  with_reducible repeat' first | assumption | apply State.put_keeps | apply State.bumpTree_keeps | apply State.inject_keeps | split | apply Keeps.lit | apply Keeps.litClear | dsimp only | intro _

theorem State.poke_keeps {z s : State} (h : Keeps z s) (a : Nat) (b : Byte) :
    Keeps z (State.poke s a b) := by
  unfold State.poke
  with_reducible repeat' first | assumption | split | apply Keeps.lit | apply Keeps.litSet | dsimp only | intro _

theorem State.pokeAll_keeps {z s : State} (h : Keeps z s) (a : Nat) (bs : List Byte) :
    Keeps z (State.pokeAll s a bs) := by
  unfold State.pokeAll
  with_reducible repeat' first | assumption | split | apply Keeps.lit | apply Keeps.litAll | dsimp only | intro _

theorem State.firstWrite_keeps {z s : State} (h : Keeps z s) (frame : Nat) :
    Keeps z (State.firstWrite s frame) := by
  unfold State.firstWrite
  with_reducible repeat' first | assumption | apply State.setPot_keeps | apply State.scrubFrame_keeps | split | apply Keeps.lit | dsimp only | intro _

theorem State.landLine_keeps {z s : State} (h : Keeps z s) (line : Nat) (bytes : List (Nat × Byte)) :
    Keeps z (State.landLine s line bytes) := by
  unfold State.landLine
  with_reducible repeat' first | assumption | apply State.inject_keeps | apply State.grant_keeps | apply State.poke_keeps | apply State.firstWrite_keeps | refine Keeps.foldl (fun s x h => ?_) ?_ | split | apply Keeps.lit | dsimp only | intro _

theorem State.landHalf_keeps {z s : State} (h : Keeps z s) (l : Line) (j : Nat) :
    PairKeeps z (State.landHalf s l j) := by
  unfold State.landHalf
  with_reducible repeat' first | assumption | apply State.landLine_keeps | split | apply Keeps.lit | dsimp only | intro _ | apply PairKeeps.mk

theorem State.landDirty_keeps {z s : State} (h : Keeps z s) (l : Line) :
    PairKeeps z (State.landDirty s l) := by
  unfold State.landDirty
  with_reducible repeat' first | assumption | apply State.count_keeps | apply State.l2Write_keeps | apply State.addEpoch_keeps | apply State.landHalf_keeps | refine PairKeeps.of (by assumption) (State.landHalf_keeps ?_ _ _) | refine PairKeeps.fst (State.landHalf_keeps ?_ _ _) | split | apply Keeps.lit | dsimp only | intro _ | apply PairKeeps.mk

theorem State.flushLines_keeps {z s : State} (h : Keeps z s) (p : Line → Bool) :
    Keeps z (State.flushLines s p) := by
  unfold State.flushLines
  with_reducible repeat' first | assumption | apply State.landDirty_keeps | refine PairKeeps.of (by assumption) (State.landDirty_keeps ?_ _) | refine PairKeeps.fst (State.landDirty_keeps ?_ _) | refine Keeps.foldl (fun s x h => ?_) ?_ | split | apply Keeps.lit | dsimp only | intro _

theorem State.unmapFrame_keeps {z s : State} (h : Keeps z s) (frame : Nat) :
    Keeps z (State.unmapFrame s frame) := by
  unfold State.unmapFrame
  with_reducible repeat' first | assumption | split | apply Keeps.lit | dsimp only | intro _

theorem State.poisonOne_keeps {z s : State} (h : Keeps z s) (frame : Nat) (record : State → State) (hrecord : ∀ x0, Keeps z x0 → Keeps z (record x0)) :
    Keeps z (State.poisonOne s frame record) := by
  unfold State.poisonOne
  with_reducible repeat' first | assumption | apply hrecord | apply State.setPot_keeps | apply State.failEnclave_keeps | apply State.flushLines_keeps | apply State.unmapFrame_keeps | split | apply Keeps.lit | dsimp only | intro _

theorem State.poisonMany_keeps {z s : State} (h : Keeps z s) (frames : List Nat) (slice : Nat) :
    Keeps z (State.poisonMany s frames slice) := by
  unfold State.poisonMany
  with_reducible repeat' first | assumption | apply id_keeps | apply State.terminalRecord_keeps | apply State.poisonOne_keeps | refine Keeps.foldl (fun s x h => ?_) ?_ | split | apply Keeps.lit | dsimp only | intro _

theorem State.poisonFrame_keeps {z s : State} (h : Keeps z s) (frame : Nat) (sp : Space) (kind : AccessKind) (va : Nat) (slice : Nat) (agent : Nat × Nat) :
    Keeps z (State.poisonFrame s frame sp kind va slice agent) := by
  unfold State.poisonFrame
  with_reducible repeat' first | assumption | apply agent_keeps | apply State.terminalRecord_keeps | apply State.poisonOne_keeps | apply State.poisonMany_keeps | split | apply Keeps.lit | dsimp only | intro _

theorem State.writeBackLine_keeps {z s : State} (h : Keeps z s) (l : Line) :
    Keeps z (State.writeBackLine s l) := by
  unfold State.writeBackLine
  with_reducible repeat' first | assumption | apply State.landDirty_keeps | refine PairKeeps.of (by assumption) (State.landDirty_keeps ?_ _) | refine PairKeeps.fst (State.landDirty_keeps ?_ _) | apply State.poisonFrame_keeps | split | apply Keeps.lit | dsimp only | intro _

theorem State.evictLines_keeps {z s : State} (h : Keeps z s) (p : Line → Bool) :
    Keeps z (State.evictLines s p) := by
  unfold State.evictLines
  with_reducible repeat' first | assumption | apply State.writeBackLine_keeps | refine Keeps.foldl (fun s x h => ?_) ?_ | split | apply Keeps.lit | dsimp only | intro _

theorem State.recall_keeps {z s : State} (h : Keeps z s) (frame : Nat) :
    Keeps z (State.recall s frame) := by
  unfold State.recall
  with_reducible repeat' first | assumption | apply State.unmapFrame_keeps | apply State.evictLines_keeps | split | apply Keeps.lit | dsimp only | intro _

theorem State.cleanLines_keeps {z s : State} (h : Keeps z s) (p : Line → Bool) :
    Keeps z (State.cleanLines s p) := by
  unfold State.cleanLines
  with_reducible repeat' first | assumption | apply State.writeBackLine_keeps | refine Keeps.foldl (fun s x h => ?_) ?_ | split | apply Keeps.lit | dsimp only | intro _

theorem State.expireLeases_keeps {z s : State} (h : Keeps z s)  :
    Keeps z (State.expireLeases s) := by
  unfold State.expireLeases
  with_reducible repeat' first | assumption | apply State.evictLines_keeps | split | apply Keeps.lit | dsimp only | intro _

theorem State.sectorHome_keeps {z s : State} (h : Keeps z s) (core : Nat) (sp : Space) (va : Nat) (keep : Bool) :
    Keeps z (State.sectorHome s core sp va keep) := by
  unfold State.sectorHome
  with_reducible repeat' first | assumption | apply State.writeBackLine_keeps | refine Keeps.foldl (fun s x h => ?_) ?_ | split | apply Keeps.lit | dsimp only | intro _

theorem State.landBytes_keeps {z s : State} (h : Keeps z s) (a : Nat) (bs : List Byte) :
    Keeps z (State.landBytes s a bs) := by
  unfold State.landBytes
  with_reducible repeat' first | assumption | apply State.landLine_keeps | refine Keeps.foldl (fun s x h => ?_) ?_ | split | apply Keeps.lit | dsimp only | intro _

theorem State.homeWrite_keeps {z s : State} (h : Keeps z s) (a : Nat) (bs : List Byte) :
    Keeps z (State.homeWrite s a bs) := by
  unfold State.homeWrite
  with_reducible repeat' first | assumption | apply State.l2Write_keeps | apply State.landBytes_keeps | refine Keeps.foldl (fun s x h => ?_) ?_ | split | apply Keeps.lit | dsimp only | intro _

theorem State.homeStore_keeps {z s : State} (h : Keeps z s) (guest : Byte) (a : Nat) (bs : List Byte) :
    Keeps z (State.homeStore s guest a bs) := by
  unfold State.homeStore
  with_reducible repeat' first | assumption | apply State.l2Store_keeps | apply State.landBytes_keeps | refine Keeps.foldl (fun s x h => ?_) ?_ | split | apply Keeps.lit | dsimp only | intro _

theorem State.putLine_keeps {z s : State} (h : Keeps z s) (l : Line) :
    Keeps z (State.putLine s l) := by
  unfold State.putLine
  with_reducible repeat' first | assumption | split | apply Keeps.lit | dsimp only | intro _

theorem State.roomFor_keeps {z s : State} (h : Keeps z s) (core : Nat) :
    Keeps z (State.roomFor s core) := by
  unfold State.roomFor
  with_reducible repeat' first | assumption | apply State.evictLines_keeps | split | apply Keeps.lit | dsimp only | intro _

theorem State.fillLine_keeps {z s : State} (h : Keeps z s) (core : Nat) (a : Access) (t : Tlb) (n : Nat) :
    ExKeeps z (State.fillLine s core a t n) := by
  unfold State.fillLine
  with_reducible repeat' first | assumption | apply ExKeeps.ok | apply ExKeeps.error | apply State.put_keeps | apply State.l2Read_keeps | apply State.addEpoch_keeps | apply State.putLine_keeps | apply State.roomFor_keeps | refine Keeps.foldl (fun s x h => ?_) ?_ | split | apply Keeps.lit | dsimp only | intro _

theorem State.fillWhole_keeps {z s : State} (h : Keeps z s) (core : Nat) (a : Access) (t : Tlb) :
    ExKeeps z (State.fillWhole s core a t) := by
  unfold State.fillWhole
  with_reducible repeat' first | assumption | apply ExKeeps.ok | apply ExKeeps.error | apply State.fillLine_keeps | refine ExKeeps.of (by assumption) (State.fillLine_keeps ?_ _ _ _ _) | split | apply Keeps.lit | dsimp only | intro _

theorem State.readHome_keeps {z s : State} (h : Keeps z s) (a : Access) (pa : Nat) (n : Nat) :
    MemRes.Keeps z (State.readHome s a pa n) := by
  unfold State.readHome
  with_reducible repeat' first | assumption | apply MemRes.Keeps.ok | apply MemRes.Keeps.fault | apply State.l2Read_keeps | split | apply Keeps.lit | dsimp only | intro _

theorem State.l1Load_keeps {z s : State} (h : Keeps z s) (core : Nat) (a : Access) (n : Nat) :
    MemRes.Keeps z (State.l1Load s core a n) := by
  unfold State.l1Load
  with_reducible repeat' first | assumption | apply MemRes.Keeps.ok | apply MemRes.Keeps.fault | apply MemRes.Keeps.device | apply State.count_keeps | apply translate_keeps | refine ExKeeps.of (by assumption) (translate_keeps ?_ _) | apply State.expireLeases_keeps | apply State.fillLine_keeps | refine ExKeeps.of (by assumption) (State.fillLine_keeps ?_ _ _ _ _) | apply State.readHome_keeps | refine MemRes.Keeps.ofOk (by assumption) (State.readHome_keeps ?_ _ _ _) | refine MemRes.Keeps.ofFault (by assumption) (State.readHome_keeps ?_ _ _ _) | refine MemRes.Keeps.ofDevice (by assumption) (State.readHome_keeps ?_ _ _ _) | split | apply Keeps.lit | dsimp only | intro _

theorem State.l1Store_keeps {z s : State} (h : Keeps z s) (core : Nat) (a : Access) (bs : List Byte) :
    MemRes.Keeps z (State.l1Store s core a bs) := by
  unfold State.l1Store
  with_reducible repeat' first | assumption | apply MemRes.Keeps.ok | apply MemRes.Keeps.fault | apply MemRes.Keeps.device | apply State.count_keeps | apply translate_keeps | refine ExKeeps.of (by assumption) (translate_keeps ?_ _) | apply State.noteWrite_keeps | apply State.expireLeases_keeps | apply State.homeStore_keeps | apply State.putLine_keeps | apply State.roomFor_keeps | split | apply Keeps.lit | dsimp only | intro _

theorem State.gather_keeps {z s : State} (h : Keeps z s) (line : Option Nat) :
    Keeps z (State.gather s line) := by
  unfold State.gather
  with_reducible repeat' first | assumption | apply State.addEpoch_keeps | split | apply Keeps.lit | dsimp only | intro _

theorem State.carryWith_keeps {z s : State} (h : Keeps z s) (g : Option Sig) (core : Nat) (sp : Space) (va : Nat) :
    Keeps z (State.carryWith s g core sp va) := by
  unfold State.carryWith
  with_reducible repeat' first | assumption | apply State.keepSig_keeps | apply State.sectorHome_keeps | split | apply Keeps.lit | dsimp only | intro _

theorem State.carry_keeps {z s : State} (h : Keeps z s) (core : Nat) (sp : Space) (va : Nat) :
    Keeps z (State.carry s core sp va) := by
  unfold State.carry
  with_reducible repeat' first | assumption | apply State.carryWith_keeps | split | apply Keeps.lit | dsimp only | intro _

theorem State.release_keeps {z s : State} (h : Keeps z s) (scope : Nat) :
    Keeps z (State.release s scope) := by
  unfold State.release
  with_reducible repeat' first | assumption | apply State.cleanLines_keeps | split | apply Keeps.lit | dsimp only | intro _

theorem State.acquireFor_keeps {z s : State} (h : Keeps z s) (i : ThreadId) (scope : Nat) :
    Keeps z (State.acquireFor s i scope) := by
  unfold State.acquireFor
  with_reducible repeat' first | assumption | apply State.modThread_keeps | apply State.evictLines_keeps | split | apply Keeps.lit | dsimp only | intro _

theorem State.acquire_keeps {z s : State} (h : Keeps z s) (scope : Nat) :
    Keeps z (State.acquire s scope) := by
  unfold State.acquire
  with_reducible repeat' first | assumption | apply State.acquireFor_keeps | split | apply Keeps.lit | dsimp only | intro _

theorem State.seqCst_keeps {z s : State} (h : Keeps z s)  :
    Keeps z (State.seqCst s) := by
  unfold State.seqCst
  with_reducible repeat' first | assumption | apply State.evictLines_keeps | split | apply Keeps.lit | dsimp only | intro _

theorem State.freshCode_keeps {z s : State} (h : Keeps z s) (core : Nat) :
    Keeps z (State.freshCode s core) := by
  unfold State.freshCode
  with_reducible repeat' first | assumption | split | apply Keeps.lit | dsimp only | intro _

theorem State.dropConstants_keeps {z s : State} (h : Keeps z s)  :
    Keeps z (State.dropConstants s) := by
  unfold State.dropConstants
  with_reducible repeat' first | assumption | apply State.evictLines_keeps | apply State.ldc_keeps | refine MemRes.Keeps.ofOk (by assumption) (State.ldc_keeps ?_ _ _ _) | refine MemRes.Keeps.ofFault (by assumption) (State.ldc_keeps ?_ _ _ _) | refine MemRes.Keeps.ofDevice (by assumption) (State.ldc_keeps ?_ _ _ _) | split | apply Keeps.lit | dsimp only | intro _

theorem State.fence_keeps {z s : State} (h : Keeps z s) (kind : Nat) (scope : Nat) (cp : Bool) :
    Keeps z (State.fence s kind scope cp) := by
  unfold State.fence
  with_reducible repeat' first | assumption | apply State.cleanLines_keeps | apply State.release_keeps | apply State.acquire_keeps | apply State.seqCst_keeps | apply State.dropConstants_keeps | split | apply Keeps.lit | dsimp only | intro _

theorem readThrough_keeps {z s : State} (h : Keeps z s) (lines : List Line) (core : Nat) (a : Access) (n : Nat) :
    ExKeeps z (readThrough lines s core a n) := by
  unfold readThrough
  with_reducible repeat' first | assumption | apply ExKeeps.ok | apply ExKeeps.error | apply State.put_keeps | apply State.l2Read_keeps | apply translate_keeps | refine ExKeeps.of (by assumption) (translate_keeps ?_ _) | refine Keeps.foldl (fun s x h => ?_) ?_ | split | apply Keeps.lit | dsimp only | intro _

theorem State.dropClean_keeps {z s : State} (h : Keeps z s) (core : Nat) (sp : Space) (va : Nat) :
    Keeps z (State.dropClean s core sp va) := by
  unfold State.dropClean
  with_reducible repeat' first | assumption | split | apply Keeps.lit | dsimp only | intro _

theorem State.markLdc_keeps {z s : State} (h : Keeps z s) (core : Nat) (sp : Space) (va : Nat) :
    Keeps z (State.markLdc s core sp va) := by
  unfold State.markLdc
  with_reducible repeat' first | assumption | split | apply Keeps.lit | dsimp only | intro _

theorem State.ldc_keeps {z s : State} (h : Keeps z s) (core : Nat) (a : Access) (n : Nat) :
    MemRes.Keeps z (State.ldc s core a n) := by
  unfold State.ldc
  with_reducible repeat' first | assumption | apply MemRes.Keeps.ok | apply MemRes.Keeps.fault | apply translate_keeps | refine ExKeeps.of (by assumption) (translate_keeps ?_ _) | apply State.readHome_keeps | refine MemRes.Keeps.ofOk (by assumption) (State.readHome_keeps ?_ _ _ _) | refine MemRes.Keeps.ofFault (by assumption) (State.readHome_keeps ?_ _ _ _) | refine MemRes.Keeps.ofDevice (by assumption) (State.readHome_keeps ?_ _ _ _) | apply State.l1Load_keeps | refine MemRes.Keeps.ofOk (by assumption) (State.l1Load_keeps ?_ _ _ _) | refine MemRes.Keeps.ofFault (by assumption) (State.l1Load_keeps ?_ _ _ _) | refine MemRes.Keeps.ofDevice (by assumption) (State.l1Load_keeps ?_ _ _ _) | apply readThrough_keeps | refine ExKeeps.of (by assumption) (readThrough_keeps ?_ _ _ _ _) | apply State.dropClean_keeps | apply State.markLdc_keeps | split | apply Keeps.lit | dsimp only | intro _

theorem State.fetchWord_keeps {z s : State} (h : Keeps z s) (core : Nat) (sp : Space) (va : Nat) :
    MemRes.Keeps z (State.fetchWord s core sp va) := by
  unfold State.fetchWord
  with_reducible repeat' first | assumption | apply MemRes.Keeps.ok | apply MemRes.Keeps.fault | apply readThrough_keeps | refine ExKeeps.of (by assumption) (readThrough_keeps ?_ _ _ _ _) | split | apply Keeps.lit | dsimp only | intro _

theorem State.homeAtomic_keeps {z s : State} (h : Keeps z s) (core : Nat) (a : Access) (f : Word → Word) :
    MemRes.Keeps z (State.homeAtomic s core a f) := by
  unfold State.homeAtomic
  with_reducible repeat' first | assumption | apply MemRes.Keeps.ok | apply MemRes.Keeps.fault | apply MemRes.Keeps.device | apply State.countSlice_keeps | apply translate_keeps | refine ExKeeps.of (by assumption) (translate_keeps ?_ _) | apply State.noteWrite_keeps | apply State.sectorHome_keeps | apply State.homeWrite_keeps | split | apply Keeps.lit | dsimp only | intro _

/-! Faults -/

theorem State.retryFault_keeps {z s : State} (h : Keeps z s) (sp : Space) (kind : AccessKind) (va : Nat) (cause : Nat) (detail : Nat) (agent : Nat × Nat) :
    Retry.Keeps z (State.retryFault s sp kind va cause detail agent) := by
  unfold State.retryFault
  with_reducible repeat' first | assumption | apply Retry.Keeps.wait | apply Retry.Keeps.full | apply Retry.Keeps.terminal | apply agent_keeps | apply State.terminalRecord_keeps | split | apply Keeps.lit | trivial | dsimp only | intro _

theorem State.infoRecord_keeps {z s : State} (h : Keeps z s) (sp : Space) (kind : AccessKind) (va : Nat) (cause : Nat) (detail : Nat) (agent : Nat × Nat) :
    OptKeeps z (State.infoRecord s sp kind va cause detail agent) := by
  unfold State.infoRecord
  with_reducible repeat' first | assumption | apply OptKeeps.some | apply OptKeeps.none | apply OptKeeps.map | apply agent_keeps | apply State.terminalRecord_keeps | split | apply Keeps.lit | dsimp only | intro _

theorem State.terminalFault_keeps {z s : State} (h : Keeps z s) (a : Access) (f : TFault) (agent : Nat × Nat) :
    Keeps z (State.terminalFault s a f agent) := by
  unfold State.terminalFault
  with_reducible repeat' first | assumption | apply agent_keeps | apply State.terminalRecord_keeps | apply State.poisonFrame_keeps | split | apply Keeps.lit | dsimp only | intro _

theorem State.putLog_keeps {z s : State} (h : Keeps z s) (num : Nat) (e : LogEntry) :
    Keeps z (State.putLog s num e) := by
  unfold State.putLog
  with_reducible repeat' first | assumption | split | apply Keeps.lit | dsimp only | intro _

theorem State.logAccess_keeps {z s : State} (h : Keeps z s) (e : LogEntry) :
    OptKeeps z (State.logAccess s e) := by
  unfold State.logAccess
  with_reducible repeat' first | assumption | apply OptKeeps.some | apply OptKeeps.none | apply OptKeeps.map | apply State.putLog_keeps | split | apply Keeps.lit | dsimp only | intro _

theorem completeList_keeps {z x1 : State} (h : Keeps z x1) (x0 : List Fencing) :
    Keeps z (completeList x0 x1) := by
  induction x0 generalizing x1  with
  | nil => unfold completeList; with_reducible repeat' first | assumption | apply State.fence_keeps | apply ih | split | apply Keeps.lit | dsimp only | intro _
  | cons _ _ ih => unfold completeList; with_reducible repeat' first | assumption | apply State.fence_keeps | apply ih | split | apply Keeps.lit | dsimp only | intro _

theorem State.completeFences_keeps {z s : State} (h : Keeps z s)  :
    Keeps z (State.completeFences s) := by
  unfold State.completeFences
  with_reducible repeat' first | assumption | apply completeList_keeps | split | apply Keeps.lit | dsimp only | intro _

theorem State.orderBy_keeps {z s : State} (h : Keeps z s) (f : Fencing) :
    Keeps z (State.orderBy s f) := by
  unfold State.orderBy
  with_reducible repeat' first | assumption | apply State.completeFences_keeps | split | apply Keeps.lit | dsimp only | intro _

theorem State.orderFor_keeps {z s : State} (h : Keeps z s) (i : ThreadId) (scope : Nat) :
    Keeps z (State.orderFor s i scope) := by
  unfold State.orderFor
  with_reducible repeat' first | assumption | apply State.modThread_keeps | apply State.acquireFor_keeps | split | apply Keeps.lit | dsimp only | intro _

theorem State.goLate_keeps {z s : State} (h : Keeps z s) (e : LogEntry) :
    Keeps z (State.goLate s e) := by
  unfold State.goLate
  with_reducible repeat' first | assumption | apply State.putLog_keeps | refine Keeps.foldl (fun s x h => ?_) ?_ | split | apply Keeps.lit | dsimp only | intro _

theorem threadFault_keeps {z s : State} (h : Keeps z s) (a : Access) (f : TFault) (e : LogEntry) :
    Res.Keeps z (threadFault s a f e) := by
  unfold threadFault
  with_reducible repeat' first | assumption | refine OptKeeps.mapOf (State.logAccess_keeps ?_ _) ?_ | refine OptKeeps.mapOf (State.infoRecord_keeps ?_ _ _ _ _ _ _) ?_ | apply Res.Keeps.ok | apply Res.Keeps.trap | apply Res.Keeps.hold | apply Res.Keeps.stall | apply State.count_keeps | apply agent_keeps | apply State.retryFault_keeps | refine Retry.Keeps.ofWait (by assumption) (State.retryFault_keeps ?_ _ _ _ _ _ _) | refine Retry.Keeps.ofTerminal (by assumption) (State.retryFault_keeps ?_ _ _ _ _ _ _) | apply State.infoRecord_keeps | refine OptKeeps.getD (State.infoRecord_keeps ?_ _ _ _ _ _ _) ?_ | refine OptKeeps.of (by assumption) (State.infoRecord_keeps ?_ _ _ _ _ _ _) | apply State.terminalFault_keeps | apply State.logAccess_keeps | refine OptKeeps.getD (State.logAccess_keeps ?_ _) ?_ | refine OptKeeps.of (by assumption) (State.logAccess_keeps ?_ _) | apply State.goLate_keeps | split | apply Keeps.lit | trivial | dsimp only | intro _

theorem fetchFault_keeps {z s : State} (h : Keeps z s) (sp : Space) (va : Nat) (f : TFault) :
    OptKeeps z (fetchFault s sp va f) := by
  unfold fetchFault
  with_reducible repeat' first | assumption | refine OptKeeps.mapOf (State.infoRecord_keeps ?_ _ _ _ _ _ _) ?_ | apply OptKeeps.some | apply OptKeeps.none | apply OptKeeps.map | apply agent_keeps | apply State.retryFault_keeps | refine Retry.Keeps.ofWait (by assumption) (State.retryFault_keeps ?_ _ _ _ _ _ _) | refine Retry.Keeps.ofTerminal (by assumption) (State.retryFault_keeps ?_ _ _ _ _ _ _) | apply State.infoRecord_keeps | refine OptKeeps.getD (State.infoRecord_keeps ?_ _ _ _ _ _ _) ?_ | refine OptKeeps.of (by assumption) (State.infoRecord_keeps ?_ _ _ _ _ _ _) | apply State.terminalFault_keeps | split | apply Keeps.lit | dsimp only | intro _

theorem fetchRecord_keeps {z s : State} (h : Keeps z s) (sp : Space) (va : Nat) (f : TFault) :
    Keeps z (fetchRecord s sp va f) := by
  unfold fetchRecord
  with_reducible repeat' first | assumption | apply State.retryFault_keeps | refine Retry.Keeps.ofWait (by assumption) (State.retryFault_keeps ?_ _ _ _ _ _ _) | refine Retry.Keeps.ofTerminal (by assumption) (State.retryFault_keeps ?_ _ _ _ _ _ _) | split | apply Keeps.lit | dsimp only | intro _

theorem globalAccess_keeps {z s : State} (h : Keeps z s) {α : Type} {a : Access} {size : Nat} {e : LogEntry} {run : State → MemRes α}
    {done : State → α → Res} {dev : State → Nat → Res} (hr : ∀ t, Keeps z t → MemRes.Keeps z (run t))
    (hd : ∀ t x, Keeps z t → Res.Keeps z (done t x)) (hv : ∀ t pa, Keeps z t → Res.Keeps z (dev t pa)) :
    Res.Keeps z (globalAccess s a size e run done dev) := by
  unfold globalAccess
  split
  · exact h
  · split
    · exact h
    · split
      · trivial
      · split
        · exact State.goLate_keeps h _
        · split
          · next e => exact hd _ _ (MemRes.Keeps.ofOk e (hr _ h))
          · next e => exact hv _ _ (MemRes.Keeps.ofDevice e (hr _ h))
          · next e => exact threadFault_keeps (MemRes.Keeps.ofFault e (hr _ h)) _ _ _

/-! Barrier -/

theorem State.modStore_keeps {z s : State} (h : Keeps z s) (o : Owner) (f : Store → Store) :
    Keeps z (State.modStore s o f) := by
  unfold State.modStore
  with_reducible repeat' first | assumption | apply State.modHost_keeps | apply State.modTeam_keeps | split | apply Keeps.lit | dsimp only | intro _

theorem State.setBar_keeps {z s : State} (h : Keeps z s) (r : BarRef) (b : BarObj) :
    Keeps z (State.setBar s r b) := by
  unfold State.setBar
  with_reducible repeat' first | assumption | apply State.modEncl_keeps | apply State.modStore_keeps | split | apply Keeps.lit | dsimp only | intro _

theorem State.seeLanded_keeps {z s : State} (h : Keeps z s) (i : ThreadId) (r : BarRef) :
    Keeps z (State.seeLanded s i r) := by
  unfold State.seeLanded
  with_reducible repeat' first | assumption | apply State.modThread_keeps | split | apply Keeps.lit | dsimp only | intro _

theorem State.wake_keeps {z s : State} (h : Keeps z s) (r : BarRef) (b : BarObj) (i : ThreadId) :
    Keeps z (State.wake s r b i) := by
  unfold State.wake
  with_reducible repeat' first | assumption | apply State.modThread_keeps | apply State.addEpoch_keeps | apply State.orderFor_keeps | apply State.seeLanded_keeps | split | apply Keeps.lit | dsimp only | intro _

theorem State.wakeAll_keeps {z s : State} (h : Keeps z s) (r : BarRef) (b : BarObj) :
    Keeps z (State.wakeAll s r b) := by
  unfold State.wakeAll
  with_reducible repeat' first | assumption | apply State.wake_keeps | refine Keeps.foldl (fun s x h => ?_) ?_ | split | apply Keeps.lit | dsimp only | intro _

theorem State.depCheck_keeps {z s : State} (h : Keeps z s) (eid : Nat) (h : Nat) :
    Keeps z (State.depCheck s eid h) := by
  unfold State.depCheck
  with_reducible repeat' first | assumption | split | apply Keeps.lit | dsimp only | intro _

theorem State.barDone_keeps {z s : State} (h : Keeps z s) (r : BarRef) (b : BarObj) :
    Keeps z (State.barDone s r b) := by
  unfold State.barDone
  with_reducible repeat' first | assumption | apply State.setBar_keeps | apply State.wakeAll_keeps | apply State.depCheck_keeps | split | apply Keeps.lit | dsimp only | intro _

theorem State.engineCount_keeps {z s : State} (h : Keeps z s) (r : BarRef) (n : Nat) (sig : Sig) :
    OptKeeps z (State.engineCount s r n sig) := by
  unfold State.engineCount
  with_reducible repeat' first | assumption | apply OptKeeps.some | apply OptKeeps.none | apply OptKeeps.map | apply State.barDone_keeps | split | apply Keeps.lit | dsimp only | intro _

theorem State.looseCount_keeps {z s : State} (h : Keeps z s) (r : BarRef) (n : Nat) :
    Keeps z (State.looseCount s r n) := by
  unfold State.looseCount
  with_reducible repeat' first | assumption | refine OptKeeps.mapOf (State.engineCount_keeps ?_ _ _ _) ?_ | apply State.engineCount_keeps | refine OptKeeps.getD (State.engineCount_keeps ?_ _ _ _) ?_ | refine OptKeeps.of (by assumption) (State.engineCount_keeps ?_ _ _ _) | split | apply Keeps.lit | dsimp only | intro _

theorem State.faultWaiters_keeps {z s : State} (h : Keeps z s) (r : BarRef) :
    Keeps z (State.faultWaiters s r) := by
  unfold State.faultWaiters
  with_reducible repeat' first | assumption | apply State.modThread_keeps | apply State.endLaunch_keeps | refine Keeps.foldl (fun s x h => ?_) ?_ | split | apply Keeps.lit | dsimp only | intro _

theorem State.assertIrq_keeps {z s : State} (h : Keeps z s) (n : Nat) (high : Bool) (src : Nat) :
    Keeps z (State.assertIrq s n high src) := by
  unfold State.assertIrq
  with_reducible repeat' first | assumption | apply State.modHost_keeps | apply State.looseCount_keeps | split | apply Keeps.lit | dsimp only | intro _

theorem State.rasEvent_keeps {z s : State} (h : Keeps z s) (b : Nat) :
    Keeps z (State.rasEvent s b) := by
  unfold State.rasEvent
  with_reducible repeat' first | assumption | apply State.assertIrq_keeps | split | apply Keeps.lit | dsimp only | intro _

theorem execBarinit_keeps {z s : State} (h : Keeps z s) (h : Hdr) (a : Opnd) (b : Opnd) :
    OutKeeps z (execBarinit h a b s) := by
  unfold execBarinit
  with_reducible repeat' first | assumption | apply Res.Keeps.ok | apply Res.Keeps.trap | apply OptKeeps.some | apply OptKeeps.none | apply OptKeeps.map | apply issue_keeps | apply State.setBar_keeps | split | apply Keeps.lit | trivial | dsimp only | intro _

theorem State.arrive_keeps {z s : State} (h : Keeps z s) (r : BarRef) (b : BarObj) :
    Keeps z (State.arrive s r b) := by
  unfold State.arrive
  with_reducible repeat' first | assumption | apply State.barDone_keeps | split | apply Keeps.lit | dsimp only | intro _

theorem execBararv_keeps {z s : State} (h : Keeps z s) (h : Hdr) (d : Opnd) (a : Opnd) :
    OutKeeps z (execBararv h d a s) := by
  unfold execBararv
  with_reducible repeat' first | assumption | apply Res.Keeps.ok | apply Res.Keeps.trap | apply Res.Keeps.hold | apply OptKeeps.some | apply OptKeeps.none | apply OptKeeps.map | apply State.postTo_keeps | apply issue_keeps | apply State.arrive_keeps | split | apply Keeps.lit | trivial | dsimp only | intro _

theorem execBarxb_keeps {z s : State} (h : Keeps z s) (h : Hdr) (a : Opnd) (b : Opnd) :
    OutKeeps z (execBarxb h a b s) := by
  unfold execBarxb
  with_reducible repeat' first | assumption | apply Res.Keeps.ok | apply Res.Keeps.trap | apply OptKeeps.some | apply OptKeeps.none | apply OptKeeps.map | apply issue_keeps | apply State.barDone_keeps | split | apply Keeps.lit | trivial | dsimp only | intro _

theorem execBararvx_keeps {z s : State} (h : Keeps z s) (h : Hdr) (d : Opnd) (a : Opnd) (b : Opnd) :
    OutKeeps z (execBararvx h d a b s) := by
  unfold execBararvx
  with_reducible repeat' first | assumption | apply Res.Keeps.ok | apply Res.Keeps.trap | apply Res.Keeps.hold | apply OptKeeps.some | apply OptKeeps.none | apply OptKeeps.map | apply State.postTo_keeps | apply issue_keeps | apply State.arrive_keeps | split | apply Keeps.lit | trivial | dsimp only | intro _

theorem State.barGather_keeps {z s : State} (h : Keeps z s) (r : BarRef) :
    Keeps z (State.barGather s r) := by
  unfold State.barGather
  with_reducible repeat' first | assumption | apply State.addEpoch_keeps | split | apply Keeps.lit | dsimp only | intro _

theorem State.barAcquire_keeps {z s : State} (h : Keeps z s) (r : BarRef) :
    Keeps z (State.barAcquire s r) := by
  unfold State.barAcquire
  with_reducible repeat' first | assumption | apply State.orderBy_keeps | apply State.seeLanded_keeps | apply State.barGather_keeps | split | apply Keeps.lit | dsimp only | intro _

theorem execBarwait_keeps {z s : State} (h : Keeps z s) (h : Hdr) (a : Opnd) (b : Opnd) :
    OutKeeps z (execBarwait h a b s) := by
  unfold execBarwait
  with_reducible repeat' first | assumption | apply Res.Keeps.ok | apply Res.Keeps.trap | apply OptKeeps.some | apply OptKeeps.none | apply OptKeeps.map | apply State.voidL_keeps | apply issue_keeps | apply State.barAcquire_keeps | split | apply Keeps.lit | trivial | dsimp only | intro _

theorem execBartst_keeps {z s : State} (h : Keeps z s) (h : Hdr) (p : BitVec 3) (a : Opnd) (b : Opnd) :
    OutKeeps z (execBartst h p a b s) := by
  unfold execBartst
  with_reducible repeat' first | assumption | apply Res.Keeps.ok | apply Res.Keeps.trap | apply OptKeeps.some | apply OptKeeps.none | apply OptKeeps.map | apply State.postPred_keeps | apply issue_keeps | apply State.barGather_keeps | apply State.barAcquire_keeps | split | apply Keeps.lit | trivial | dsimp only | intro _

theorem execBarinv_keeps {z s : State} (h : Keeps z s) (h : Hdr) (a : Opnd) :
    OutKeeps z (execBarinv h a s) := by
  unfold execBarinv
  with_reducible repeat' first | assumption | apply Res.Keeps.ok | apply Res.Keeps.trap | apply OptKeeps.some | apply OptKeeps.none | apply OptKeeps.map | apply issue_keeps | apply State.setBar_keeps | apply State.depCheck_keeps | apply State.faultWaiters_keeps | split | apply Keeps.lit | trivial | dsimp only | intro _

theorem execWptr_keeps {z s : State} (h : Keeps z s) (h : Hdr) (d : Opnd) (a : Opnd) :
    OutKeeps z (execWptr h d a s) := by
  unfold execWptr
  with_reducible repeat' first | assumption | apply Res.Keeps.ok | apply OptKeeps.some | apply OptKeeps.none | apply OptKeeps.map | apply State.postTo_keeps | apply issue_keeps | split | apply Keeps.lit | trivial | dsimp only | intro _

/-! Device -/

theorem State.deviceStore_keeps {z s : State} (h : Keeps z s) (pa : Nat) (v : Dword) :
    Keeps z (State.deviceStore s pa v) := by
  unfold State.deviceStore
  with_reducible repeat' first | assumption | apply State.put_keeps | split | apply Keeps.lit | dsimp only | intro _

/-! Memory -/

theorem State.deliver_keeps {z s : State} (h : Keeps z s) (dst : List Nat) (ws : List Word) :
    Keeps z (State.deliver s dst ws) := by
  unfold State.deliver
  with_reducible repeat' first | assumption | apply State.post_keeps | refine Keeps.foldl (fun s x h => ?_) ?_ | split | apply Keeps.lit | dsimp only | intro _

theorem loadGlobal_keeps {z s : State} (h : Keeps z s) (va : Nat) (size : Nat) (signed : Bool) (form : Form) (dst : List Nat) (scope : Nat) :
    Res.Keeps z (loadGlobal s va size signed form dst scope) := by
  unfold loadGlobal
  with_reducible repeat' first | assumption | apply Res.Keeps.ok | apply MemRes.Keeps.ok | apply MemRes.Keeps.device | apply State.l1Load_keeps | refine MemRes.Keeps.ofOk (by assumption) (State.l1Load_keeps ?_ _ _ _) | refine MemRes.Keeps.ofFault (by assumption) (State.l1Load_keeps ?_ _ _ _) | refine MemRes.Keeps.ofDevice (by assumption) (State.l1Load_keeps ?_ _ _ _) | apply State.gather_keeps | apply State.orderBy_keeps | apply globalAccess_keeps | refine Res.Keeps.ofOk (by assumption) (globalAccess_keeps ?_ _ _ _ _ ?_ _ ?_ _ ?_) | refine Res.Keeps.ofTrap (by assumption) (globalAccess_keeps ?_ _ _ _ _ ?_ _ ?_ _ ?_) | refine Res.Keeps.ofGoto (by assumption) (globalAccess_keeps ?_ _ _ _ _ ?_ _ ?_ _ ?_) | refine Res.Keeps.ofMoved (by assumption) (globalAccess_keeps ?_ _ _ _ _ ?_ _ ?_ _ ?_) | refine Res.Keeps.ofStall (by assumption) (globalAccess_keeps ?_ _ _ _ _ ?_ _ ?_ _ ?_) | refine Res.Keeps.ofTargetStall (by assumption) (globalAccess_keeps ?_ _ _ _ _ ?_ _ ?_ _ ?_) | refine Res.Keeps.ofTargetTrap (by assumption) (globalAccess_keeps ?_ _ _ _ _ ?_ _ ?_ _ ?_) | apply State.deliver_keeps | split | apply Keeps.lit | trivial | dsimp only | intro _

theorem storeGlobal_keeps {z s : State} (h : Keeps z s) (va : Nat) (size : Nat) (form : Form) (v : Nat) (any : Bool) :
    Res.Keeps z (storeGlobal s va size form v any) := by
  unfold storeGlobal
  with_reducible repeat' first | assumption | apply Res.Keeps.ok | apply Res.Keeps.trap | apply MemRes.Keeps.ok | apply MemRes.Keeps.fault | apply MemRes.Keeps.device | apply State.l1Store_keeps | refine MemRes.Keeps.ofOk (by assumption) (State.l1Store_keeps ?_ _ _ _) | refine MemRes.Keeps.ofFault (by assumption) (State.l1Store_keeps ?_ _ _ _) | refine MemRes.Keeps.ofDevice (by assumption) (State.l1Store_keeps ?_ _ _ _) | apply State.carry_keeps | apply globalAccess_keeps | refine Res.Keeps.ofOk (by assumption) (globalAccess_keeps ?_ _ _ _ _ ?_ _ ?_ _ ?_) | refine Res.Keeps.ofTrap (by assumption) (globalAccess_keeps ?_ _ _ _ _ ?_ _ ?_ _ ?_) | refine Res.Keeps.ofGoto (by assumption) (globalAccess_keeps ?_ _ _ _ _ ?_ _ ?_ _ ?_) | refine Res.Keeps.ofMoved (by assumption) (globalAccess_keeps ?_ _ _ _ _ ?_ _ ?_ _ ?_) | refine Res.Keeps.ofStall (by assumption) (globalAccess_keeps ?_ _ _ _ _ ?_ _ ?_ _ ?_) | refine Res.Keeps.ofTargetStall (by assumption) (globalAccess_keeps ?_ _ _ _ _ ?_ _ ?_ _ ?_) | refine Res.Keeps.ofTargetTrap (by assumption) (globalAccess_keeps ?_ _ _ _ _ ?_ _ ?_ _ ?_) | apply State.deviceStore_keeps | split | apply Keeps.lit | trivial | dsimp only | intro _

theorem loadConst_keeps {z s : State} (h : Keeps z s) (va : Nat) (size : Nat) (dst : List Nat) :
    Res.Keeps z (loadConst s va size dst) := by
  unfold loadConst
  with_reducible repeat' first | assumption | apply Res.Keeps.ok | apply Res.Keeps.trap | apply MemRes.Keeps.ok | apply State.gather_keeps | apply State.ldc_keeps | refine MemRes.Keeps.ofOk (by assumption) (State.ldc_keeps ?_ _ _ _) | refine MemRes.Keeps.ofFault (by assumption) (State.ldc_keeps ?_ _ _ _) | refine MemRes.Keeps.ofDevice (by assumption) (State.ldc_keeps ?_ _ _ _) | apply globalAccess_keeps | refine Res.Keeps.ofOk (by assumption) (globalAccess_keeps ?_ _ _ _ _ ?_ _ ?_ _ ?_) | refine Res.Keeps.ofTrap (by assumption) (globalAccess_keeps ?_ _ _ _ _ ?_ _ ?_ _ ?_) | refine Res.Keeps.ofGoto (by assumption) (globalAccess_keeps ?_ _ _ _ _ ?_ _ ?_ _ ?_) | refine Res.Keeps.ofMoved (by assumption) (globalAccess_keeps ?_ _ _ _ _ ?_ _ ?_ _ ?_) | refine Res.Keeps.ofStall (by assumption) (globalAccess_keeps ?_ _ _ _ _ ?_ _ ?_ _ ?_) | refine Res.Keeps.ofTargetStall (by assumption) (globalAccess_keeps ?_ _ _ _ _ ?_ _ ?_ _ ?_) | refine Res.Keeps.ofTargetTrap (by assumption) (globalAccess_keeps ?_ _ _ _ _ ?_ _ ?_ _ ?_) | apply State.deliver_keeps | split | apply Keeps.lit | trivial | dsimp only | intro _

theorem loadSpad_keeps {z s : State} (h : Keeps z s) (a : Word) (size : Nat) (dst : List Nat) :
    Res.Keeps z (loadSpad s a size dst) := by
  unfold loadSpad
  with_reducible repeat' first | assumption | apply Res.Keeps.ok | apply Res.Keeps.trap | apply Res.Keeps.hold | apply State.goLate_keeps | apply State.deliver_keeps | split | apply Keeps.lit | trivial | dsimp only | intro _

theorem State.noteSts_keeps {z s : State} (h : Keeps z s) (o : Owner) (off : Nat) (n : Nat) :
    Keeps z (State.noteSts s o off n) := by
  unfold State.noteSts
  with_reducible repeat' first | assumption | apply State.modStore_keeps | split | apply Keeps.lit | dsimp only | intro _

theorem spadHazards_keeps {z s : State} (h : Keeps z s) (o : Owner) (off : Nat) (n : Nat) (k : State → Res) (hk : ∀ x0, Keeps z x0 → Res.Keeps z (k x0)) :
    Res.Keeps z (spadHazards s o off n k) := by
  unfold spadHazards
  with_reducible repeat' first | assumption | apply hk | apply Res.Keeps.trap | apply State.spoilOut_keeps | apply State.noteSts_keeps | refine Keeps.foldl (fun s x h => ?_) ?_ | split | apply Keeps.lit | trivial | dsimp only | intro _

theorem writeSpad_keeps {z s : State} (h : Keeps z s) (o : Owner) (off : Nat) (bs : List Byte) (k : State → Res) (hk : ∀ x0, Keeps z x0 → Res.Keeps z (k x0)) :
    Res.Keeps z (writeSpad s o off bs k) := by
  unfold writeSpad
  with_reducible repeat' first | assumption | apply hk | apply State.modStore_keeps | apply spadHazards_keeps | refine Res.Keeps.ofOk (by assumption) (spadHazards_keeps ?_ _ _ _ _ ?_) | refine Res.Keeps.ofTrap (by assumption) (spadHazards_keeps ?_ _ _ _ _ ?_) | refine Res.Keeps.ofGoto (by assumption) (spadHazards_keeps ?_ _ _ _ _ ?_) | refine Res.Keeps.ofMoved (by assumption) (spadHazards_keeps ?_ _ _ _ _ ?_) | refine Res.Keeps.ofStall (by assumption) (spadHazards_keeps ?_ _ _ _ _ ?_) | refine Res.Keeps.ofTargetStall (by assumption) (spadHazards_keeps ?_ _ _ _ _ ?_) | refine Res.Keeps.ofTargetTrap (by assumption) (spadHazards_keeps ?_ _ _ _ _ ?_) | split | apply Keeps.lit | trivial | dsimp only | intro _

theorem storeSpad_keeps {z s : State} (h : Keeps z s) (i : Instr) (a : Word) (size : Nat) (v : Nat) :
    Res.Keeps z (storeSpad i s a size v) := by
  have hin (t : State) (ht : Keeps z t) (o : Owner) (off : Nat) : Res.Keeps z (if t.th.late then
      spadHazards t o off size fun s => .ok (s.goLate (spadEntry s o .write off size (.ofNat 128 v) []))
      else writeSpad t o off (leBytes size v) .ok) := by
    split
    · exact spadHazards_keeps ht _ _ _ _ fun x hx => State.goLate_keeps hx _
    · exact writeSpad_keeps ht _ _ _ _ fun x hx => hx
  unfold storeSpad
  split
  · exact h
  · split
    · trivial
    · split
      · next e => exact Res.Keeps.ofTrap e (hin _ h _ _)
      · exact hin _ h _ _

theorem State.holdLine_keeps {z s : State} (h : Keeps z s) (core : Nat) (line : Nat) :
    Keeps z (State.holdLine s core line) := by
  unfold State.holdLine
  with_reducible repeat' first | assumption | split | apply Keeps.lit | dsimp only | intro _

theorem atomicNow_keeps {z s : State} (h : Keeps z s) (core : Nat) (a : Access) (op : Nat) (b : Word) (c : Word) :
    MemRes.Keeps z (atomicNow s core a op b c) := by
  unfold atomicNow
  with_reducible repeat' first | assumption | apply MemRes.Keeps.ok | apply State.homeAtomic_keeps | refine MemRes.Keeps.ofOk (by assumption) (State.homeAtomic_keeps ?_ _ _ _) | refine MemRes.Keeps.ofFault (by assumption) (State.homeAtomic_keeps ?_ _ _ _) | refine MemRes.Keeps.ofDevice (by assumption) (State.homeAtomic_keeps ?_ _ _ _) | apply State.holdLine_keeps | split | apply Keeps.lit | dsimp only | intro _

theorem atomGlobal_keeps {z s : State} (h : Keeps z s) (d : Opnd) (a : Opnd) (op : Nat) (x : Word) (y : Word) :
    Res.Keeps z (atomGlobal s d a op x y) := by
  unfold atomGlobal
  with_reducible repeat' first | assumption | apply Res.Keeps.ok | apply Res.Keeps.trap | apply Res.Keeps.stall | apply MemRes.Keeps.ok | apply MemRes.Keeps.fault | apply MemRes.Keeps.device | apply translate_keeps | refine ExKeeps.of (by assumption) (translate_keeps ?_ _) | apply State.gather_keeps | apply State.carry_keeps | apply globalAccess_keeps | refine Res.Keeps.ofOk (by assumption) (globalAccess_keeps ?_ _ _ _ _ ?_ _ ?_ _ ?_) | refine Res.Keeps.ofTrap (by assumption) (globalAccess_keeps ?_ _ _ _ _ ?_ _ ?_ _ ?_) | refine Res.Keeps.ofGoto (by assumption) (globalAccess_keeps ?_ _ _ _ _ ?_ _ ?_ _ ?_) | refine Res.Keeps.ofMoved (by assumption) (globalAccess_keeps ?_ _ _ _ _ ?_ _ ?_ _ ?_) | refine Res.Keeps.ofStall (by assumption) (globalAccess_keeps ?_ _ _ _ _ ?_ _ ?_ _ ?_) | refine Res.Keeps.ofTargetStall (by assumption) (globalAccess_keeps ?_ _ _ _ _ ?_ _ ?_ _ ?_) | refine Res.Keeps.ofTargetTrap (by assumption) (globalAccess_keeps ?_ _ _ _ _ ?_ _ ?_ _ ?_) | apply State.deliver_keeps | apply atomicNow_keeps | refine MemRes.Keeps.ofOk (by assumption) (atomicNow_keeps ?_ _ _ _ _ _) | refine MemRes.Keeps.ofFault (by assumption) (atomicNow_keeps ?_ _ _ _ _ _) | refine MemRes.Keeps.ofDevice (by assumption) (atomicNow_keeps ?_ _ _ _ _ _) | split | apply Keeps.lit | trivial | dsimp only | intro _

theorem atomSpad_keeps {z s : State} (h : Keeps z s) (i : Instr) (d : Opnd) (a : Word) (op : Nat) (x : Word) (y : Word) :
    Res.Keeps z (atomSpad i s d a op x y) := by
  unfold atomSpad
  with_reducible repeat' first | assumption | apply Res.Keeps.ok | apply Res.Keeps.trap | apply Res.Keeps.hold | apply State.deliver_keeps | apply writeSpad_keeps | refine Res.Keeps.ofOk (by assumption) (writeSpad_keeps ?_ _ _ _ _ ?_) | refine Res.Keeps.ofTrap (by assumption) (writeSpad_keeps ?_ _ _ _ _ ?_) | refine Res.Keeps.ofGoto (by assumption) (writeSpad_keeps ?_ _ _ _ _ ?_) | refine Res.Keeps.ofMoved (by assumption) (writeSpad_keeps ?_ _ _ _ _ ?_) | refine Res.Keeps.ofStall (by assumption) (writeSpad_keeps ?_ _ _ _ _ ?_) | refine Res.Keeps.ofTargetStall (by assumption) (writeSpad_keeps ?_ _ _ _ _ ?_) | refine Res.Keeps.ofTargetTrap (by assumption) (writeSpad_keeps ?_ _ _ _ _ ?_) | split | apply Keeps.lit | trivial | dsimp only | intro _

theorem execLdB_keeps {z s : State} (h : Keeps z s) (h : Hdr) (d : Opnd) (a : Opnd) (imm : BitVec 7) :
    OutKeeps z (execLdB h d a imm s) := by
  unfold execLdB
  with_reducible repeat' first | assumption | apply OptKeeps.some | apply OptKeeps.none | apply OptKeeps.map | apply issue_keeps | apply loadGlobal_keeps | refine Res.Keeps.ofOk (by assumption) (loadGlobal_keeps ?_ _ _ _ _ _ _) | refine Res.Keeps.ofTrap (by assumption) (loadGlobal_keeps ?_ _ _ _ _ _ _) | refine Res.Keeps.ofGoto (by assumption) (loadGlobal_keeps ?_ _ _ _ _ _ _) | refine Res.Keeps.ofMoved (by assumption) (loadGlobal_keeps ?_ _ _ _ _ _ _) | refine Res.Keeps.ofStall (by assumption) (loadGlobal_keeps ?_ _ _ _ _ _ _) | refine Res.Keeps.ofTargetStall (by assumption) (loadGlobal_keeps ?_ _ _ _ _ _ _) | refine Res.Keeps.ofTargetTrap (by assumption) (loadGlobal_keeps ?_ _ _ _ _ _ _) | split | apply Keeps.lit | trivial | dsimp only | intro _

theorem execLdBs_keeps {z s : State} (h : Keeps z s) (h : Hdr) (d : Opnd) (a : Opnd) (imm : BitVec 7) :
    OutKeeps z (execLdBs h d a imm s) := by
  unfold execLdBs
  with_reducible repeat' first | assumption | apply OptKeeps.some | apply OptKeeps.none | apply OptKeeps.map | apply issue_keeps | apply loadGlobal_keeps | refine Res.Keeps.ofOk (by assumption) (loadGlobal_keeps ?_ _ _ _ _ _ _) | refine Res.Keeps.ofTrap (by assumption) (loadGlobal_keeps ?_ _ _ _ _ _ _) | refine Res.Keeps.ofGoto (by assumption) (loadGlobal_keeps ?_ _ _ _ _ _ _) | refine Res.Keeps.ofMoved (by assumption) (loadGlobal_keeps ?_ _ _ _ _ _ _) | refine Res.Keeps.ofStall (by assumption) (loadGlobal_keeps ?_ _ _ _ _ _ _) | refine Res.Keeps.ofTargetStall (by assumption) (loadGlobal_keeps ?_ _ _ _ _ _ _) | refine Res.Keeps.ofTargetTrap (by assumption) (loadGlobal_keeps ?_ _ _ _ _ _ _) | split | apply Keeps.lit | trivial | dsimp only | intro _

theorem execLdH_keeps {z s : State} (h : Keeps z s) (h : Hdr) (d : Opnd) (a : Opnd) (imm : BitVec 7) :
    OutKeeps z (execLdH h d a imm s) := by
  unfold execLdH
  with_reducible repeat' first | assumption | apply OptKeeps.some | apply OptKeeps.none | apply OptKeeps.map | apply issue_keeps | apply loadGlobal_keeps | refine Res.Keeps.ofOk (by assumption) (loadGlobal_keeps ?_ _ _ _ _ _ _) | refine Res.Keeps.ofTrap (by assumption) (loadGlobal_keeps ?_ _ _ _ _ _ _) | refine Res.Keeps.ofGoto (by assumption) (loadGlobal_keeps ?_ _ _ _ _ _ _) | refine Res.Keeps.ofMoved (by assumption) (loadGlobal_keeps ?_ _ _ _ _ _ _) | refine Res.Keeps.ofStall (by assumption) (loadGlobal_keeps ?_ _ _ _ _ _ _) | refine Res.Keeps.ofTargetStall (by assumption) (loadGlobal_keeps ?_ _ _ _ _ _ _) | refine Res.Keeps.ofTargetTrap (by assumption) (loadGlobal_keeps ?_ _ _ _ _ _ _) | split | apply Keeps.lit | trivial | dsimp only | intro _

theorem execLdHs_keeps {z s : State} (h : Keeps z s) (h : Hdr) (d : Opnd) (a : Opnd) (imm : BitVec 7) :
    OutKeeps z (execLdHs h d a imm s) := by
  unfold execLdHs
  with_reducible repeat' first | assumption | apply OptKeeps.some | apply OptKeeps.none | apply OptKeeps.map | apply issue_keeps | apply loadGlobal_keeps | refine Res.Keeps.ofOk (by assumption) (loadGlobal_keeps ?_ _ _ _ _ _ _) | refine Res.Keeps.ofTrap (by assumption) (loadGlobal_keeps ?_ _ _ _ _ _ _) | refine Res.Keeps.ofGoto (by assumption) (loadGlobal_keeps ?_ _ _ _ _ _ _) | refine Res.Keeps.ofMoved (by assumption) (loadGlobal_keeps ?_ _ _ _ _ _ _) | refine Res.Keeps.ofStall (by assumption) (loadGlobal_keeps ?_ _ _ _ _ _ _) | refine Res.Keeps.ofTargetStall (by assumption) (loadGlobal_keeps ?_ _ _ _ _ _ _) | refine Res.Keeps.ofTargetTrap (by assumption) (loadGlobal_keeps ?_ _ _ _ _ _ _) | split | apply Keeps.lit | trivial | dsimp only | intro _

theorem execLdW_keeps {z s : State} (h : Keeps z s) (h : Hdr) (d : Opnd) (a : Opnd) (imm : BitVec 7) :
    OutKeeps z (execLdW h d a imm s) := by
  unfold execLdW
  with_reducible repeat' first | assumption | apply OptKeeps.some | apply OptKeeps.none | apply OptKeeps.map | apply issue_keeps | apply loadGlobal_keeps | refine Res.Keeps.ofOk (by assumption) (loadGlobal_keeps ?_ _ _ _ _ _ _) | refine Res.Keeps.ofTrap (by assumption) (loadGlobal_keeps ?_ _ _ _ _ _ _) | refine Res.Keeps.ofGoto (by assumption) (loadGlobal_keeps ?_ _ _ _ _ _ _) | refine Res.Keeps.ofMoved (by assumption) (loadGlobal_keeps ?_ _ _ _ _ _ _) | refine Res.Keeps.ofStall (by assumption) (loadGlobal_keeps ?_ _ _ _ _ _ _) | refine Res.Keeps.ofTargetStall (by assumption) (loadGlobal_keeps ?_ _ _ _ _ _ _) | refine Res.Keeps.ofTargetTrap (by assumption) (loadGlobal_keeps ?_ _ _ _ _ _ _) | split | apply Keeps.lit | trivial | dsimp only | intro _

theorem execLdD_keeps {z s : State} (h : Keeps z s) (h : Hdr) (d : Opnd) (a : Opnd) (imm : BitVec 7) :
    OutKeeps z (execLdD h d a imm s) := by
  unfold execLdD
  with_reducible repeat' first | assumption | apply OptKeeps.some | apply OptKeeps.none | apply OptKeeps.map | apply issue_keeps | apply loadGlobal_keeps | refine Res.Keeps.ofOk (by assumption) (loadGlobal_keeps ?_ _ _ _ _ _ _) | refine Res.Keeps.ofTrap (by assumption) (loadGlobal_keeps ?_ _ _ _ _ _ _) | refine Res.Keeps.ofGoto (by assumption) (loadGlobal_keeps ?_ _ _ _ _ _ _) | refine Res.Keeps.ofMoved (by assumption) (loadGlobal_keeps ?_ _ _ _ _ _ _) | refine Res.Keeps.ofStall (by assumption) (loadGlobal_keeps ?_ _ _ _ _ _ _) | refine Res.Keeps.ofTargetStall (by assumption) (loadGlobal_keeps ?_ _ _ _ _ _ _) | refine Res.Keeps.ofTargetTrap (by assumption) (loadGlobal_keeps ?_ _ _ _ _ _ _) | split | apply Keeps.lit | trivial | dsimp only | intro _

theorem execLdQ_keeps {z s : State} (h : Keeps z s) (h : Hdr) (d : Opnd) (a : Opnd) (imm : BitVec 7) :
    OutKeeps z (execLdQ h d a imm s) := by
  unfold execLdQ
  with_reducible repeat' first | assumption | apply OptKeeps.some | apply OptKeeps.none | apply OptKeeps.map | apply issue_keeps | apply loadGlobal_keeps | refine Res.Keeps.ofOk (by assumption) (loadGlobal_keeps ?_ _ _ _ _ _ _) | refine Res.Keeps.ofTrap (by assumption) (loadGlobal_keeps ?_ _ _ _ _ _ _) | refine Res.Keeps.ofGoto (by assumption) (loadGlobal_keeps ?_ _ _ _ _ _ _) | refine Res.Keeps.ofMoved (by assumption) (loadGlobal_keeps ?_ _ _ _ _ _ _) | refine Res.Keeps.ofStall (by assumption) (loadGlobal_keeps ?_ _ _ _ _ _ _) | refine Res.Keeps.ofTargetStall (by assumption) (loadGlobal_keeps ?_ _ _ _ _ _ _) | refine Res.Keeps.ofTargetTrap (by assumption) (loadGlobal_keeps ?_ _ _ _ _ _ _) | split | apply Keeps.lit | trivial | dsimp only | intro _

theorem execLdxW_keeps {z s : State} (h : Keeps z s) (h : Hdr) (d : Opnd) (a : Opnd) (b : Opnd) :
    OutKeeps z (execLdxW h d a b s) := by
  unfold execLdxW
  with_reducible repeat' first | assumption | apply OptKeeps.some | apply OptKeeps.none | apply OptKeeps.map | apply issue_keeps | apply loadGlobal_keeps | refine Res.Keeps.ofOk (by assumption) (loadGlobal_keeps ?_ _ _ _ _ _ _) | refine Res.Keeps.ofTrap (by assumption) (loadGlobal_keeps ?_ _ _ _ _ _ _) | refine Res.Keeps.ofGoto (by assumption) (loadGlobal_keeps ?_ _ _ _ _ _ _) | refine Res.Keeps.ofMoved (by assumption) (loadGlobal_keeps ?_ _ _ _ _ _ _) | refine Res.Keeps.ofStall (by assumption) (loadGlobal_keeps ?_ _ _ _ _ _ _) | refine Res.Keeps.ofTargetStall (by assumption) (loadGlobal_keeps ?_ _ _ _ _ _ _) | refine Res.Keeps.ofTargetTrap (by assumption) (loadGlobal_keeps ?_ _ _ _ _ _ _) | split | apply Keeps.lit | trivial | dsimp only | intro _

theorem execStB_keeps {z s : State} (h : Keeps z s) (h : Hdr) (v : Opnd) (a : Opnd) (imm : BitVec 7) :
    OutKeeps z (execStB h v a imm s) := by
  unfold execStB
  with_reducible repeat' first | assumption | apply OptKeeps.some | apply OptKeeps.none | apply OptKeeps.map | apply issue_keeps | apply storeGlobal_keeps | refine Res.Keeps.ofOk (by assumption) (storeGlobal_keeps ?_ _ _ _ _ _) | refine Res.Keeps.ofTrap (by assumption) (storeGlobal_keeps ?_ _ _ _ _ _) | refine Res.Keeps.ofGoto (by assumption) (storeGlobal_keeps ?_ _ _ _ _ _) | refine Res.Keeps.ofMoved (by assumption) (storeGlobal_keeps ?_ _ _ _ _ _) | refine Res.Keeps.ofStall (by assumption) (storeGlobal_keeps ?_ _ _ _ _ _) | refine Res.Keeps.ofTargetStall (by assumption) (storeGlobal_keeps ?_ _ _ _ _ _) | refine Res.Keeps.ofTargetTrap (by assumption) (storeGlobal_keeps ?_ _ _ _ _ _) | split | apply Keeps.lit | trivial | dsimp only | intro _

theorem execStH_keeps {z s : State} (h : Keeps z s) (h : Hdr) (v : Opnd) (a : Opnd) (imm : BitVec 7) :
    OutKeeps z (execStH h v a imm s) := by
  unfold execStH
  with_reducible repeat' first | assumption | apply OptKeeps.some | apply OptKeeps.none | apply OptKeeps.map | apply issue_keeps | apply storeGlobal_keeps | refine Res.Keeps.ofOk (by assumption) (storeGlobal_keeps ?_ _ _ _ _ _) | refine Res.Keeps.ofTrap (by assumption) (storeGlobal_keeps ?_ _ _ _ _ _) | refine Res.Keeps.ofGoto (by assumption) (storeGlobal_keeps ?_ _ _ _ _ _) | refine Res.Keeps.ofMoved (by assumption) (storeGlobal_keeps ?_ _ _ _ _ _) | refine Res.Keeps.ofStall (by assumption) (storeGlobal_keeps ?_ _ _ _ _ _) | refine Res.Keeps.ofTargetStall (by assumption) (storeGlobal_keeps ?_ _ _ _ _ _) | refine Res.Keeps.ofTargetTrap (by assumption) (storeGlobal_keeps ?_ _ _ _ _ _) | split | apply Keeps.lit | trivial | dsimp only | intro _

theorem execStW_keeps {z s : State} (h : Keeps z s) (h : Hdr) (v : Opnd) (a : Opnd) (imm : BitVec 7) :
    OutKeeps z (execStW h v a imm s) := by
  unfold execStW
  with_reducible repeat' first | assumption | apply OptKeeps.some | apply OptKeeps.none | apply OptKeeps.map | apply issue_keeps | apply storeGlobal_keeps | refine Res.Keeps.ofOk (by assumption) (storeGlobal_keeps ?_ _ _ _ _ _) | refine Res.Keeps.ofTrap (by assumption) (storeGlobal_keeps ?_ _ _ _ _ _) | refine Res.Keeps.ofGoto (by assumption) (storeGlobal_keeps ?_ _ _ _ _ _) | refine Res.Keeps.ofMoved (by assumption) (storeGlobal_keeps ?_ _ _ _ _ _) | refine Res.Keeps.ofStall (by assumption) (storeGlobal_keeps ?_ _ _ _ _ _) | refine Res.Keeps.ofTargetStall (by assumption) (storeGlobal_keeps ?_ _ _ _ _ _) | refine Res.Keeps.ofTargetTrap (by assumption) (storeGlobal_keeps ?_ _ _ _ _ _) | split | apply Keeps.lit | trivial | dsimp only | intro _

theorem execStD_keeps {z s : State} (h : Keeps z s) (h : Hdr) (v : Opnd) (a : Opnd) (imm : BitVec 7) :
    OutKeeps z (execStD h v a imm s) := by
  unfold execStD
  with_reducible repeat' first | assumption | apply OptKeeps.some | apply OptKeeps.none | apply OptKeeps.map | apply issue_keeps | apply storeGlobal_keeps | refine Res.Keeps.ofOk (by assumption) (storeGlobal_keeps ?_ _ _ _ _ _) | refine Res.Keeps.ofTrap (by assumption) (storeGlobal_keeps ?_ _ _ _ _ _) | refine Res.Keeps.ofGoto (by assumption) (storeGlobal_keeps ?_ _ _ _ _ _) | refine Res.Keeps.ofMoved (by assumption) (storeGlobal_keeps ?_ _ _ _ _ _) | refine Res.Keeps.ofStall (by assumption) (storeGlobal_keeps ?_ _ _ _ _ _) | refine Res.Keeps.ofTargetStall (by assumption) (storeGlobal_keeps ?_ _ _ _ _ _) | refine Res.Keeps.ofTargetTrap (by assumption) (storeGlobal_keeps ?_ _ _ _ _ _) | split | apply Keeps.lit | trivial | dsimp only | intro _

theorem execStQ_keeps {z s : State} (h : Keeps z s) (h : Hdr) (v : Opnd) (a : Opnd) (imm : BitVec 7) :
    OutKeeps z (execStQ h v a imm s) := by
  unfold execStQ
  with_reducible repeat' first | assumption | apply OptKeeps.some | apply OptKeeps.none | apply OptKeeps.map | apply issue_keeps | apply storeGlobal_keeps | refine Res.Keeps.ofOk (by assumption) (storeGlobal_keeps ?_ _ _ _ _ _) | refine Res.Keeps.ofTrap (by assumption) (storeGlobal_keeps ?_ _ _ _ _ _) | refine Res.Keeps.ofGoto (by assumption) (storeGlobal_keeps ?_ _ _ _ _ _) | refine Res.Keeps.ofMoved (by assumption) (storeGlobal_keeps ?_ _ _ _ _ _) | refine Res.Keeps.ofStall (by assumption) (storeGlobal_keeps ?_ _ _ _ _ _) | refine Res.Keeps.ofTargetStall (by assumption) (storeGlobal_keeps ?_ _ _ _ _ _) | refine Res.Keeps.ofTargetTrap (by assumption) (storeGlobal_keeps ?_ _ _ _ _ _) | split | apply Keeps.lit | trivial | dsimp only | intro _

theorem execStxW_keeps {z s : State} (h : Keeps z s) (h : Hdr) (v : Opnd) (a : Opnd) (b : Opnd) :
    OutKeeps z (execStxW h v a b s) := by
  unfold execStxW
  with_reducible repeat' first | assumption | apply OptKeeps.some | apply OptKeeps.none | apply OptKeeps.map | apply issue_keeps | apply storeGlobal_keeps | refine Res.Keeps.ofOk (by assumption) (storeGlobal_keeps ?_ _ _ _ _ _) | refine Res.Keeps.ofTrap (by assumption) (storeGlobal_keeps ?_ _ _ _ _ _) | refine Res.Keeps.ofGoto (by assumption) (storeGlobal_keeps ?_ _ _ _ _ _) | refine Res.Keeps.ofMoved (by assumption) (storeGlobal_keeps ?_ _ _ _ _ _) | refine Res.Keeps.ofStall (by assumption) (storeGlobal_keeps ?_ _ _ _ _ _) | refine Res.Keeps.ofTargetStall (by assumption) (storeGlobal_keeps ?_ _ _ _ _ _) | refine Res.Keeps.ofTargetTrap (by assumption) (storeGlobal_keeps ?_ _ _ _ _ _) | split | apply Keeps.lit | trivial | dsimp only | intro _

theorem execLdcW_keeps {z s : State} (h : Keeps z s) (h : Hdr) (d : Opnd) (a : Opnd) (imm : BitVec 7) :
    OutKeeps z (execLdcW h d a imm s) := by
  unfold execLdcW
  with_reducible repeat' first | assumption | apply OptKeeps.some | apply OptKeeps.none | apply OptKeeps.map | apply issue_keeps | apply loadConst_keeps | refine Res.Keeps.ofOk (by assumption) (loadConst_keeps ?_ _ _ _) | refine Res.Keeps.ofTrap (by assumption) (loadConst_keeps ?_ _ _ _) | refine Res.Keeps.ofGoto (by assumption) (loadConst_keeps ?_ _ _ _) | refine Res.Keeps.ofMoved (by assumption) (loadConst_keeps ?_ _ _ _) | refine Res.Keeps.ofStall (by assumption) (loadConst_keeps ?_ _ _ _) | refine Res.Keeps.ofTargetStall (by assumption) (loadConst_keeps ?_ _ _ _) | refine Res.Keeps.ofTargetTrap (by assumption) (loadConst_keeps ?_ _ _ _) | split | apply Keeps.lit | trivial | dsimp only | intro _

theorem execLdcQ_keeps {z s : State} (h : Keeps z s) (h : Hdr) (d : Opnd) (a : Opnd) (imm : BitVec 7) :
    OutKeeps z (execLdcQ h d a imm s) := by
  unfold execLdcQ
  with_reducible repeat' first | assumption | apply OptKeeps.some | apply OptKeeps.none | apply OptKeeps.map | apply issue_keeps | apply loadConst_keeps | refine Res.Keeps.ofOk (by assumption) (loadConst_keeps ?_ _ _ _) | refine Res.Keeps.ofTrap (by assumption) (loadConst_keeps ?_ _ _ _) | refine Res.Keeps.ofGoto (by assumption) (loadConst_keeps ?_ _ _ _) | refine Res.Keeps.ofMoved (by assumption) (loadConst_keeps ?_ _ _ _) | refine Res.Keeps.ofStall (by assumption) (loadConst_keeps ?_ _ _ _) | refine Res.Keeps.ofTargetStall (by assumption) (loadConst_keeps ?_ _ _ _) | refine Res.Keeps.ofTargetTrap (by assumption) (loadConst_keeps ?_ _ _ _) | split | apply Keeps.lit | trivial | dsimp only | intro _

theorem execLdsW_keeps {z s : State} (h : Keeps z s) (h : Hdr) (d : Opnd) (a : Opnd) (imm : BitVec 7) :
    OutKeeps z (execLdsW h d a imm s) := by
  unfold execLdsW
  with_reducible repeat' first | assumption | apply OptKeeps.some | apply OptKeeps.none | apply OptKeeps.map | apply issue_keeps | apply loadSpad_keeps | refine Res.Keeps.ofOk (by assumption) (loadSpad_keeps ?_ _ _ _) | refine Res.Keeps.ofTrap (by assumption) (loadSpad_keeps ?_ _ _ _) | refine Res.Keeps.ofGoto (by assumption) (loadSpad_keeps ?_ _ _ _) | refine Res.Keeps.ofMoved (by assumption) (loadSpad_keeps ?_ _ _ _) | refine Res.Keeps.ofStall (by assumption) (loadSpad_keeps ?_ _ _ _) | refine Res.Keeps.ofTargetStall (by assumption) (loadSpad_keeps ?_ _ _ _) | refine Res.Keeps.ofTargetTrap (by assumption) (loadSpad_keeps ?_ _ _ _) | split | apply Keeps.lit | trivial | dsimp only | intro _

theorem execLdsD_keeps {z s : State} (h : Keeps z s) (h : Hdr) (d : Opnd) (a : Opnd) (imm : BitVec 7) :
    OutKeeps z (execLdsD h d a imm s) := by
  unfold execLdsD
  with_reducible repeat' first | assumption | apply OptKeeps.some | apply OptKeeps.none | apply OptKeeps.map | apply issue_keeps | apply loadSpad_keeps | refine Res.Keeps.ofOk (by assumption) (loadSpad_keeps ?_ _ _ _) | refine Res.Keeps.ofTrap (by assumption) (loadSpad_keeps ?_ _ _ _) | refine Res.Keeps.ofGoto (by assumption) (loadSpad_keeps ?_ _ _ _) | refine Res.Keeps.ofMoved (by assumption) (loadSpad_keeps ?_ _ _ _) | refine Res.Keeps.ofStall (by assumption) (loadSpad_keeps ?_ _ _ _) | refine Res.Keeps.ofTargetStall (by assumption) (loadSpad_keeps ?_ _ _ _) | refine Res.Keeps.ofTargetTrap (by assumption) (loadSpad_keeps ?_ _ _ _) | split | apply Keeps.lit | trivial | dsimp only | intro _

theorem execLdsQ_keeps {z s : State} (h : Keeps z s) (h : Hdr) (d : Opnd) (a : Opnd) (imm : BitVec 7) :
    OutKeeps z (execLdsQ h d a imm s) := by
  unfold execLdsQ
  with_reducible repeat' first | assumption | apply OptKeeps.some | apply OptKeeps.none | apply OptKeeps.map | apply issue_keeps | apply loadSpad_keeps | refine Res.Keeps.ofOk (by assumption) (loadSpad_keeps ?_ _ _ _) | refine Res.Keeps.ofTrap (by assumption) (loadSpad_keeps ?_ _ _ _) | refine Res.Keeps.ofGoto (by assumption) (loadSpad_keeps ?_ _ _ _) | refine Res.Keeps.ofMoved (by assumption) (loadSpad_keeps ?_ _ _ _) | refine Res.Keeps.ofStall (by assumption) (loadSpad_keeps ?_ _ _ _) | refine Res.Keeps.ofTargetStall (by assumption) (loadSpad_keeps ?_ _ _ _) | refine Res.Keeps.ofTargetTrap (by assumption) (loadSpad_keeps ?_ _ _ _) | split | apply Keeps.lit | trivial | dsimp only | intro _

theorem execLdsH_keeps {z s : State} (h : Keeps z s) (h : Hdr) (d : Opnd) (a : Opnd) (imm : BitVec 7) :
    OutKeeps z (execLdsH h d a imm s) := by
  unfold execLdsH
  with_reducible repeat' first | assumption | apply OptKeeps.some | apply OptKeeps.none | apply OptKeeps.map | apply issue_keeps | apply loadSpad_keeps | refine Res.Keeps.ofOk (by assumption) (loadSpad_keeps ?_ _ _ _) | refine Res.Keeps.ofTrap (by assumption) (loadSpad_keeps ?_ _ _ _) | refine Res.Keeps.ofGoto (by assumption) (loadSpad_keeps ?_ _ _ _) | refine Res.Keeps.ofMoved (by assumption) (loadSpad_keeps ?_ _ _ _) | refine Res.Keeps.ofStall (by assumption) (loadSpad_keeps ?_ _ _ _) | refine Res.Keeps.ofTargetStall (by assumption) (loadSpad_keeps ?_ _ _ _) | refine Res.Keeps.ofTargetTrap (by assumption) (loadSpad_keeps ?_ _ _ _) | split | apply Keeps.lit | trivial | dsimp only | intro _

theorem execLdsB_keeps {z s : State} (h : Keeps z s) (h : Hdr) (d : Opnd) (a : Opnd) (imm : BitVec 7) :
    OutKeeps z (execLdsB h d a imm s) := by
  unfold execLdsB
  with_reducible repeat' first | assumption | apply OptKeeps.some | apply OptKeeps.none | apply OptKeeps.map | apply issue_keeps | apply loadSpad_keeps | refine Res.Keeps.ofOk (by assumption) (loadSpad_keeps ?_ _ _ _) | refine Res.Keeps.ofTrap (by assumption) (loadSpad_keeps ?_ _ _ _) | refine Res.Keeps.ofGoto (by assumption) (loadSpad_keeps ?_ _ _ _) | refine Res.Keeps.ofMoved (by assumption) (loadSpad_keeps ?_ _ _ _) | refine Res.Keeps.ofStall (by assumption) (loadSpad_keeps ?_ _ _ _) | refine Res.Keeps.ofTargetStall (by assumption) (loadSpad_keeps ?_ _ _ _) | refine Res.Keeps.ofTargetTrap (by assumption) (loadSpad_keeps ?_ _ _ _) | split | apply Keeps.lit | trivial | dsimp only | intro _

theorem execStsW_keeps {z s : State} (h : Keeps z s) (h : Hdr) (v : Opnd) (a : Opnd) (imm : BitVec 7) :
    OutKeeps z (execStsW h v a imm s) := by
  unfold execStsW
  with_reducible repeat' first | assumption | apply OptKeeps.some | apply OptKeeps.none | apply OptKeeps.map | apply issue_keeps | apply storeSpad_keeps | refine Res.Keeps.ofOk (by assumption) (storeSpad_keeps ?_ _ _ _ _) | refine Res.Keeps.ofTrap (by assumption) (storeSpad_keeps ?_ _ _ _ _) | refine Res.Keeps.ofGoto (by assumption) (storeSpad_keeps ?_ _ _ _ _) | refine Res.Keeps.ofMoved (by assumption) (storeSpad_keeps ?_ _ _ _ _) | refine Res.Keeps.ofStall (by assumption) (storeSpad_keeps ?_ _ _ _ _) | refine Res.Keeps.ofTargetStall (by assumption) (storeSpad_keeps ?_ _ _ _ _) | refine Res.Keeps.ofTargetTrap (by assumption) (storeSpad_keeps ?_ _ _ _ _) | split | apply Keeps.lit | trivial | dsimp only | intro _

theorem execStsD_keeps {z s : State} (h : Keeps z s) (h : Hdr) (v : Opnd) (a : Opnd) (imm : BitVec 7) :
    OutKeeps z (execStsD h v a imm s) := by
  unfold execStsD
  with_reducible repeat' first | assumption | apply OptKeeps.some | apply OptKeeps.none | apply OptKeeps.map | apply issue_keeps | apply storeSpad_keeps | refine Res.Keeps.ofOk (by assumption) (storeSpad_keeps ?_ _ _ _ _) | refine Res.Keeps.ofTrap (by assumption) (storeSpad_keeps ?_ _ _ _ _) | refine Res.Keeps.ofGoto (by assumption) (storeSpad_keeps ?_ _ _ _ _) | refine Res.Keeps.ofMoved (by assumption) (storeSpad_keeps ?_ _ _ _ _) | refine Res.Keeps.ofStall (by assumption) (storeSpad_keeps ?_ _ _ _ _) | refine Res.Keeps.ofTargetStall (by assumption) (storeSpad_keeps ?_ _ _ _ _) | refine Res.Keeps.ofTargetTrap (by assumption) (storeSpad_keeps ?_ _ _ _ _) | split | apply Keeps.lit | trivial | dsimp only | intro _

theorem execStsQ_keeps {z s : State} (h : Keeps z s) (h : Hdr) (v : Opnd) (a : Opnd) (imm : BitVec 7) :
    OutKeeps z (execStsQ h v a imm s) := by
  unfold execStsQ
  with_reducible repeat' first | assumption | apply OptKeeps.some | apply OptKeeps.none | apply OptKeeps.map | apply issue_keeps | apply storeSpad_keeps | refine Res.Keeps.ofOk (by assumption) (storeSpad_keeps ?_ _ _ _ _) | refine Res.Keeps.ofTrap (by assumption) (storeSpad_keeps ?_ _ _ _ _) | refine Res.Keeps.ofGoto (by assumption) (storeSpad_keeps ?_ _ _ _ _) | refine Res.Keeps.ofMoved (by assumption) (storeSpad_keeps ?_ _ _ _ _) | refine Res.Keeps.ofStall (by assumption) (storeSpad_keeps ?_ _ _ _ _) | refine Res.Keeps.ofTargetStall (by assumption) (storeSpad_keeps ?_ _ _ _ _) | refine Res.Keeps.ofTargetTrap (by assumption) (storeSpad_keeps ?_ _ _ _ _) | split | apply Keeps.lit | trivial | dsimp only | intro _

theorem execStsH_keeps {z s : State} (h : Keeps z s) (h : Hdr) (v : Opnd) (a : Opnd) (imm : BitVec 7) :
    OutKeeps z (execStsH h v a imm s) := by
  unfold execStsH
  with_reducible repeat' first | assumption | apply OptKeeps.some | apply OptKeeps.none | apply OptKeeps.map | apply issue_keeps | apply storeSpad_keeps | refine Res.Keeps.ofOk (by assumption) (storeSpad_keeps ?_ _ _ _ _) | refine Res.Keeps.ofTrap (by assumption) (storeSpad_keeps ?_ _ _ _ _) | refine Res.Keeps.ofGoto (by assumption) (storeSpad_keeps ?_ _ _ _ _) | refine Res.Keeps.ofMoved (by assumption) (storeSpad_keeps ?_ _ _ _ _) | refine Res.Keeps.ofStall (by assumption) (storeSpad_keeps ?_ _ _ _ _) | refine Res.Keeps.ofTargetStall (by assumption) (storeSpad_keeps ?_ _ _ _ _) | refine Res.Keeps.ofTargetTrap (by assumption) (storeSpad_keeps ?_ _ _ _ _) | split | apply Keeps.lit | trivial | dsimp only | intro _

theorem execStsB_keeps {z s : State} (h : Keeps z s) (h : Hdr) (v : Opnd) (a : Opnd) (imm : BitVec 7) :
    OutKeeps z (execStsB h v a imm s) := by
  unfold execStsB
  with_reducible repeat' first | assumption | apply OptKeeps.some | apply OptKeeps.none | apply OptKeeps.map | apply issue_keeps | apply storeSpad_keeps | refine Res.Keeps.ofOk (by assumption) (storeSpad_keeps ?_ _ _ _ _) | refine Res.Keeps.ofTrap (by assumption) (storeSpad_keeps ?_ _ _ _ _) | refine Res.Keeps.ofGoto (by assumption) (storeSpad_keeps ?_ _ _ _ _) | refine Res.Keeps.ofMoved (by assumption) (storeSpad_keeps ?_ _ _ _ _) | refine Res.Keeps.ofStall (by assumption) (storeSpad_keeps ?_ _ _ _ _) | refine Res.Keeps.ofTargetStall (by assumption) (storeSpad_keeps ?_ _ _ _ _) | refine Res.Keeps.ofTargetTrap (by assumption) (storeSpad_keeps ?_ _ _ _ _) | split | apply Keeps.lit | trivial | dsimp only | intro _

theorem execLdAcqW_keeps {z s : State} (h : Keeps z s) (h : Hdr) (d : Opnd) (a : Opnd) (e : BitVec 3) :
    OutKeeps z (execLdAcqW h d a e s) := by
  unfold execLdAcqW
  with_reducible repeat' first | assumption | apply OptKeeps.some | apply OptKeeps.none | apply OptKeeps.map | apply issue_keeps | apply loadGlobal_keeps | refine Res.Keeps.ofOk (by assumption) (loadGlobal_keeps ?_ _ _ _ _ _ _) | refine Res.Keeps.ofTrap (by assumption) (loadGlobal_keeps ?_ _ _ _ _ _ _) | refine Res.Keeps.ofGoto (by assumption) (loadGlobal_keeps ?_ _ _ _ _ _ _) | refine Res.Keeps.ofMoved (by assumption) (loadGlobal_keeps ?_ _ _ _ _ _ _) | refine Res.Keeps.ofStall (by assumption) (loadGlobal_keeps ?_ _ _ _ _ _ _) | refine Res.Keeps.ofTargetStall (by assumption) (loadGlobal_keeps ?_ _ _ _ _ _ _) | refine Res.Keeps.ofTargetTrap (by assumption) (loadGlobal_keeps ?_ _ _ _ _ _ _) | split | apply Keeps.lit | trivial | dsimp only | intro _

theorem execLdAcqD_keeps {z s : State} (h : Keeps z s) (h : Hdr) (d : Opnd) (a : Opnd) (e : BitVec 3) :
    OutKeeps z (execLdAcqD h d a e s) := by
  unfold execLdAcqD
  with_reducible repeat' first | assumption | apply OptKeeps.some | apply OptKeeps.none | apply OptKeeps.map | apply issue_keeps | apply loadGlobal_keeps | refine Res.Keeps.ofOk (by assumption) (loadGlobal_keeps ?_ _ _ _ _ _ _) | refine Res.Keeps.ofTrap (by assumption) (loadGlobal_keeps ?_ _ _ _ _ _ _) | refine Res.Keeps.ofGoto (by assumption) (loadGlobal_keeps ?_ _ _ _ _ _ _) | refine Res.Keeps.ofMoved (by assumption) (loadGlobal_keeps ?_ _ _ _ _ _ _) | refine Res.Keeps.ofStall (by assumption) (loadGlobal_keeps ?_ _ _ _ _ _ _) | refine Res.Keeps.ofTargetStall (by assumption) (loadGlobal_keeps ?_ _ _ _ _ _ _) | refine Res.Keeps.ofTargetTrap (by assumption) (loadGlobal_keeps ?_ _ _ _ _ _ _) | split | apply Keeps.lit | trivial | dsimp only | intro _

theorem storeRel_keeps {z s : State} (h : Keeps z s) (va : Nat) (size : Nat) (scope : Nat) (v : Nat) :
    Res.Keeps z (storeRel s va size scope v) := by
  unfold storeRel
  with_reducible repeat' first | assumption | apply Res.Keeps.hold | apply State.release_keeps | apply storeGlobal_keeps | refine Res.Keeps.ofOk (by assumption) (storeGlobal_keeps ?_ _ _ _ _ _) | refine Res.Keeps.ofTrap (by assumption) (storeGlobal_keeps ?_ _ _ _ _ _) | refine Res.Keeps.ofGoto (by assumption) (storeGlobal_keeps ?_ _ _ _ _ _) | refine Res.Keeps.ofMoved (by assumption) (storeGlobal_keeps ?_ _ _ _ _ _) | refine Res.Keeps.ofStall (by assumption) (storeGlobal_keeps ?_ _ _ _ _ _) | refine Res.Keeps.ofTargetStall (by assumption) (storeGlobal_keeps ?_ _ _ _ _ _) | refine Res.Keeps.ofTargetTrap (by assumption) (storeGlobal_keeps ?_ _ _ _ _ _) | split | apply Keeps.lit | trivial | dsimp only | intro _

theorem execStRelW_keeps {z s : State} (h : Keeps z s) (h : Hdr) (v : Opnd) (a : Opnd) (e : BitVec 3) :
    OutKeeps z (execStRelW h v a e s) := by
  unfold execStRelW
  with_reducible repeat' first | assumption | apply OptKeeps.some | apply OptKeeps.none | apply OptKeeps.map | apply issue_keeps | apply storeRel_keeps | refine Res.Keeps.ofOk (by assumption) (storeRel_keeps ?_ _ _ _ _) | refine Res.Keeps.ofTrap (by assumption) (storeRel_keeps ?_ _ _ _ _) | refine Res.Keeps.ofGoto (by assumption) (storeRel_keeps ?_ _ _ _ _) | refine Res.Keeps.ofMoved (by assumption) (storeRel_keeps ?_ _ _ _ _) | refine Res.Keeps.ofStall (by assumption) (storeRel_keeps ?_ _ _ _ _) | refine Res.Keeps.ofTargetStall (by assumption) (storeRel_keeps ?_ _ _ _ _) | refine Res.Keeps.ofTargetTrap (by assumption) (storeRel_keeps ?_ _ _ _ _) | split | apply Keeps.lit | trivial | dsimp only | intro _

theorem execStRelD_keeps {z s : State} (h : Keeps z s) (h : Hdr) (v : Opnd) (a : Opnd) (e : BitVec 3) :
    OutKeeps z (execStRelD h v a e s) := by
  unfold execStRelD
  with_reducible repeat' first | assumption | apply OptKeeps.some | apply OptKeeps.none | apply OptKeeps.map | apply issue_keeps | apply storeRel_keeps | refine Res.Keeps.ofOk (by assumption) (storeRel_keeps ?_ _ _ _ _) | refine Res.Keeps.ofTrap (by assumption) (storeRel_keeps ?_ _ _ _ _) | refine Res.Keeps.ofGoto (by assumption) (storeRel_keeps ?_ _ _ _ _) | refine Res.Keeps.ofMoved (by assumption) (storeRel_keeps ?_ _ _ _ _) | refine Res.Keeps.ofStall (by assumption) (storeRel_keeps ?_ _ _ _ _) | refine Res.Keeps.ofTargetStall (by assumption) (storeRel_keeps ?_ _ _ _ _) | refine Res.Keeps.ofTargetTrap (by assumption) (storeRel_keeps ?_ _ _ _ _) | split | apply Keeps.lit | trivial | dsimp only | intro _

theorem execPrf_keeps {z s : State} (h : Keeps z s) (h : Hdr) (a : Opnd) (imm : BitVec 7) :
    OutKeeps z (execPrf h a imm s) := by
  unfold execPrf
  with_reducible repeat' first | assumption | apply Res.Keeps.ok | apply OptKeeps.some | apply OptKeeps.none | apply OptKeeps.map | apply issue_keeps | apply translate_keeps | refine ExKeeps.of (by assumption) (translate_keeps ?_ _) | apply State.expireLeases_keeps | apply State.fillWhole_keeps | refine ExKeeps.of (by assumption) (State.fillWhole_keeps ?_ _ _ _) | split | apply Keeps.lit | trivial | dsimp only | intro _

theorem execCwb_keeps {z s : State} (h : Keeps z s) (h : Hdr) (a : Opnd) :
    OutKeeps z (execCwb h a s) := by
  unfold execCwb
  with_reducible repeat' first | assumption | apply Res.Keeps.ok | apply Res.Keeps.hold | apply OptKeeps.some | apply OptKeeps.none | apply OptKeeps.map | apply issue_keeps | apply State.cleanLines_keeps | split | apply Keeps.lit | trivial | dsimp only | intro _

theorem execCinv_keeps {z s : State} (h : Keeps z s) (h : Hdr) (a : Opnd) :
    OutKeeps z (execCinv h a s) := by
  unfold execCinv
  with_reducible repeat' first | assumption | apply Res.Keeps.ok | apply Res.Keeps.hold | apply OptKeeps.some | apply OptKeeps.none | apply OptKeeps.map | apply issue_keeps | apply State.evictLines_keeps | split | apply Keeps.lit | trivial | dsimp only | intro _

theorem execCwbiAll_keeps {z s : State} (h : Keeps z s) (h : Hdr) :
    OutKeeps z (execCwbiAll h s) := by
  unfold execCwbiAll
  with_reducible repeat' first | assumption | apply Res.Keeps.ok | apply Res.Keeps.hold | apply OptKeeps.some | apply OptKeeps.none | apply OptKeeps.map | apply issue_keeps | apply State.evictLines_keeps | split | apply Keeps.lit | trivial | dsimp only | intro _

theorem execFence_keeps {z s : State} (h : Keeps z s) (h : Hdr) (x : Bool) (e : BitVec 3) (k : BitVec 2) :
    OutKeeps z (execFence h x e k s) := by
  unfold execFence
  with_reducible repeat' first | assumption | apply Res.Keeps.ok | apply Res.Keeps.hold | apply OptKeeps.some | apply OptKeeps.none | apply OptKeeps.map | apply issue_keeps | apply State.fence_keeps | apply State.orderBy_keeps | split | apply Keeps.lit | trivial | dsimp only | intro _

theorem execAtomAdd_keeps {z s : State} (h : Keeps z s) (h : Hdr) (d : Opnd) (a : Opnd) (b : Opnd) :
    OutKeeps z (execAtomAdd h d a b s) := by
  unfold execAtomAdd
  with_reducible repeat' first | assumption | apply OptKeeps.some | apply OptKeeps.none | apply OptKeeps.map | apply issue_keeps | apply atomGlobal_keeps | refine Res.Keeps.ofOk (by assumption) (atomGlobal_keeps ?_ _ _ _ _ _) | refine Res.Keeps.ofTrap (by assumption) (atomGlobal_keeps ?_ _ _ _ _ _) | refine Res.Keeps.ofGoto (by assumption) (atomGlobal_keeps ?_ _ _ _ _ _) | refine Res.Keeps.ofMoved (by assumption) (atomGlobal_keeps ?_ _ _ _ _ _) | refine Res.Keeps.ofStall (by assumption) (atomGlobal_keeps ?_ _ _ _ _ _) | refine Res.Keeps.ofTargetStall (by assumption) (atomGlobal_keeps ?_ _ _ _ _ _) | refine Res.Keeps.ofTargetTrap (by assumption) (atomGlobal_keeps ?_ _ _ _ _ _) | split | apply Keeps.lit | trivial | dsimp only | intro _

theorem execAtomMin_keeps {z s : State} (h : Keeps z s) (h : Hdr) (d : Opnd) (a : Opnd) (b : Opnd) :
    OutKeeps z (execAtomMin h d a b s) := by
  unfold execAtomMin
  with_reducible repeat' first | assumption | apply OptKeeps.some | apply OptKeeps.none | apply OptKeeps.map | apply issue_keeps | apply atomGlobal_keeps | refine Res.Keeps.ofOk (by assumption) (atomGlobal_keeps ?_ _ _ _ _ _) | refine Res.Keeps.ofTrap (by assumption) (atomGlobal_keeps ?_ _ _ _ _ _) | refine Res.Keeps.ofGoto (by assumption) (atomGlobal_keeps ?_ _ _ _ _ _) | refine Res.Keeps.ofMoved (by assumption) (atomGlobal_keeps ?_ _ _ _ _ _) | refine Res.Keeps.ofStall (by assumption) (atomGlobal_keeps ?_ _ _ _ _ _) | refine Res.Keeps.ofTargetStall (by assumption) (atomGlobal_keeps ?_ _ _ _ _ _) | refine Res.Keeps.ofTargetTrap (by assumption) (atomGlobal_keeps ?_ _ _ _ _ _) | split | apply Keeps.lit | trivial | dsimp only | intro _

theorem execAtomMax_keeps {z s : State} (h : Keeps z s) (h : Hdr) (d : Opnd) (a : Opnd) (b : Opnd) :
    OutKeeps z (execAtomMax h d a b s) := by
  unfold execAtomMax
  with_reducible repeat' first | assumption | apply OptKeeps.some | apply OptKeeps.none | apply OptKeeps.map | apply issue_keeps | apply atomGlobal_keeps | refine Res.Keeps.ofOk (by assumption) (atomGlobal_keeps ?_ _ _ _ _ _) | refine Res.Keeps.ofTrap (by assumption) (atomGlobal_keeps ?_ _ _ _ _ _) | refine Res.Keeps.ofGoto (by assumption) (atomGlobal_keeps ?_ _ _ _ _ _) | refine Res.Keeps.ofMoved (by assumption) (atomGlobal_keeps ?_ _ _ _ _ _) | refine Res.Keeps.ofStall (by assumption) (atomGlobal_keeps ?_ _ _ _ _ _) | refine Res.Keeps.ofTargetStall (by assumption) (atomGlobal_keeps ?_ _ _ _ _ _) | refine Res.Keeps.ofTargetTrap (by assumption) (atomGlobal_keeps ?_ _ _ _ _ _) | split | apply Keeps.lit | trivial | dsimp only | intro _

theorem execAtomMinu_keeps {z s : State} (h : Keeps z s) (h : Hdr) (d : Opnd) (a : Opnd) (b : Opnd) :
    OutKeeps z (execAtomMinu h d a b s) := by
  unfold execAtomMinu
  with_reducible repeat' first | assumption | apply OptKeeps.some | apply OptKeeps.none | apply OptKeeps.map | apply issue_keeps | apply atomGlobal_keeps | refine Res.Keeps.ofOk (by assumption) (atomGlobal_keeps ?_ _ _ _ _ _) | refine Res.Keeps.ofTrap (by assumption) (atomGlobal_keeps ?_ _ _ _ _ _) | refine Res.Keeps.ofGoto (by assumption) (atomGlobal_keeps ?_ _ _ _ _ _) | refine Res.Keeps.ofMoved (by assumption) (atomGlobal_keeps ?_ _ _ _ _ _) | refine Res.Keeps.ofStall (by assumption) (atomGlobal_keeps ?_ _ _ _ _ _) | refine Res.Keeps.ofTargetStall (by assumption) (atomGlobal_keeps ?_ _ _ _ _ _) | refine Res.Keeps.ofTargetTrap (by assumption) (atomGlobal_keeps ?_ _ _ _ _ _) | split | apply Keeps.lit | trivial | dsimp only | intro _

theorem execAtomMaxu_keeps {z s : State} (h : Keeps z s) (h : Hdr) (d : Opnd) (a : Opnd) (b : Opnd) :
    OutKeeps z (execAtomMaxu h d a b s) := by
  unfold execAtomMaxu
  with_reducible repeat' first | assumption | apply OptKeeps.some | apply OptKeeps.none | apply OptKeeps.map | apply issue_keeps | apply atomGlobal_keeps | refine Res.Keeps.ofOk (by assumption) (atomGlobal_keeps ?_ _ _ _ _ _) | refine Res.Keeps.ofTrap (by assumption) (atomGlobal_keeps ?_ _ _ _ _ _) | refine Res.Keeps.ofGoto (by assumption) (atomGlobal_keeps ?_ _ _ _ _ _) | refine Res.Keeps.ofMoved (by assumption) (atomGlobal_keeps ?_ _ _ _ _ _) | refine Res.Keeps.ofStall (by assumption) (atomGlobal_keeps ?_ _ _ _ _ _) | refine Res.Keeps.ofTargetStall (by assumption) (atomGlobal_keeps ?_ _ _ _ _ _) | refine Res.Keeps.ofTargetTrap (by assumption) (atomGlobal_keeps ?_ _ _ _ _ _) | split | apply Keeps.lit | trivial | dsimp only | intro _

theorem execAtomAnd_keeps {z s : State} (h : Keeps z s) (h : Hdr) (d : Opnd) (a : Opnd) (b : Opnd) :
    OutKeeps z (execAtomAnd h d a b s) := by
  unfold execAtomAnd
  with_reducible repeat' first | assumption | apply OptKeeps.some | apply OptKeeps.none | apply OptKeeps.map | apply issue_keeps | apply atomGlobal_keeps | refine Res.Keeps.ofOk (by assumption) (atomGlobal_keeps ?_ _ _ _ _ _) | refine Res.Keeps.ofTrap (by assumption) (atomGlobal_keeps ?_ _ _ _ _ _) | refine Res.Keeps.ofGoto (by assumption) (atomGlobal_keeps ?_ _ _ _ _ _) | refine Res.Keeps.ofMoved (by assumption) (atomGlobal_keeps ?_ _ _ _ _ _) | refine Res.Keeps.ofStall (by assumption) (atomGlobal_keeps ?_ _ _ _ _ _) | refine Res.Keeps.ofTargetStall (by assumption) (atomGlobal_keeps ?_ _ _ _ _ _) | refine Res.Keeps.ofTargetTrap (by assumption) (atomGlobal_keeps ?_ _ _ _ _ _) | split | apply Keeps.lit | trivial | dsimp only | intro _

theorem execAtomOr_keeps {z s : State} (h : Keeps z s) (h : Hdr) (d : Opnd) (a : Opnd) (b : Opnd) :
    OutKeeps z (execAtomOr h d a b s) := by
  unfold execAtomOr
  with_reducible repeat' first | assumption | apply OptKeeps.some | apply OptKeeps.none | apply OptKeeps.map | apply issue_keeps | apply atomGlobal_keeps | refine Res.Keeps.ofOk (by assumption) (atomGlobal_keeps ?_ _ _ _ _ _) | refine Res.Keeps.ofTrap (by assumption) (atomGlobal_keeps ?_ _ _ _ _ _) | refine Res.Keeps.ofGoto (by assumption) (atomGlobal_keeps ?_ _ _ _ _ _) | refine Res.Keeps.ofMoved (by assumption) (atomGlobal_keeps ?_ _ _ _ _ _) | refine Res.Keeps.ofStall (by assumption) (atomGlobal_keeps ?_ _ _ _ _ _) | refine Res.Keeps.ofTargetStall (by assumption) (atomGlobal_keeps ?_ _ _ _ _ _) | refine Res.Keeps.ofTargetTrap (by assumption) (atomGlobal_keeps ?_ _ _ _ _ _) | split | apply Keeps.lit | trivial | dsimp only | intro _

theorem execAtomXor_keeps {z s : State} (h : Keeps z s) (h : Hdr) (d : Opnd) (a : Opnd) (b : Opnd) :
    OutKeeps z (execAtomXor h d a b s) := by
  unfold execAtomXor
  with_reducible repeat' first | assumption | apply OptKeeps.some | apply OptKeeps.none | apply OptKeeps.map | apply issue_keeps | apply atomGlobal_keeps | refine Res.Keeps.ofOk (by assumption) (atomGlobal_keeps ?_ _ _ _ _ _) | refine Res.Keeps.ofTrap (by assumption) (atomGlobal_keeps ?_ _ _ _ _ _) | refine Res.Keeps.ofGoto (by assumption) (atomGlobal_keeps ?_ _ _ _ _ _) | refine Res.Keeps.ofMoved (by assumption) (atomGlobal_keeps ?_ _ _ _ _ _) | refine Res.Keeps.ofStall (by assumption) (atomGlobal_keeps ?_ _ _ _ _ _) | refine Res.Keeps.ofTargetStall (by assumption) (atomGlobal_keeps ?_ _ _ _ _ _) | refine Res.Keeps.ofTargetTrap (by assumption) (atomGlobal_keeps ?_ _ _ _ _ _) | split | apply Keeps.lit | trivial | dsimp only | intro _

theorem execAtomXchg_keeps {z s : State} (h : Keeps z s) (h : Hdr) (d : Opnd) (a : Opnd) (b : Opnd) :
    OutKeeps z (execAtomXchg h d a b s) := by
  unfold execAtomXchg
  with_reducible repeat' first | assumption | apply OptKeeps.some | apply OptKeeps.none | apply OptKeeps.map | apply issue_keeps | apply atomGlobal_keeps | refine Res.Keeps.ofOk (by assumption) (atomGlobal_keeps ?_ _ _ _ _ _) | refine Res.Keeps.ofTrap (by assumption) (atomGlobal_keeps ?_ _ _ _ _ _) | refine Res.Keeps.ofGoto (by assumption) (atomGlobal_keeps ?_ _ _ _ _ _) | refine Res.Keeps.ofMoved (by assumption) (atomGlobal_keeps ?_ _ _ _ _ _) | refine Res.Keeps.ofStall (by assumption) (atomGlobal_keeps ?_ _ _ _ _ _) | refine Res.Keeps.ofTargetStall (by assumption) (atomGlobal_keeps ?_ _ _ _ _ _) | refine Res.Keeps.ofTargetTrap (by assumption) (atomGlobal_keeps ?_ _ _ _ _ _) | split | apply Keeps.lit | trivial | dsimp only | intro _

theorem execAtomCas_keeps {z s : State} (h : Keeps z s) (h : Hdr) (d : Opnd) (a : Opnd) (b : Opnd) :
    OutKeeps z (execAtomCas h d a b s) := by
  unfold execAtomCas
  with_reducible repeat' first | assumption | apply OptKeeps.some | apply OptKeeps.none | apply OptKeeps.map | apply issue_keeps | apply atomGlobal_keeps | refine Res.Keeps.ofOk (by assumption) (atomGlobal_keeps ?_ _ _ _ _ _) | refine Res.Keeps.ofTrap (by assumption) (atomGlobal_keeps ?_ _ _ _ _ _) | refine Res.Keeps.ofGoto (by assumption) (atomGlobal_keeps ?_ _ _ _ _ _) | refine Res.Keeps.ofMoved (by assumption) (atomGlobal_keeps ?_ _ _ _ _ _) | refine Res.Keeps.ofStall (by assumption) (atomGlobal_keeps ?_ _ _ _ _ _) | refine Res.Keeps.ofTargetStall (by assumption) (atomGlobal_keeps ?_ _ _ _ _ _) | refine Res.Keeps.ofTargetTrap (by assumption) (atomGlobal_keeps ?_ _ _ _ _ _) | split | apply Keeps.lit | trivial | dsimp only | intro _

theorem execAtomFadd_keeps {z s : State} (h : Keeps z s) (h : Hdr) (d : Opnd) (a : Opnd) (b : Opnd) :
    OutKeeps z (execAtomFadd h d a b s) := by
  unfold execAtomFadd
  with_reducible repeat' first | assumption | apply OptKeeps.some | apply OptKeeps.none | apply OptKeeps.map | apply issue_keeps | apply atomGlobal_keeps | refine Res.Keeps.ofOk (by assumption) (atomGlobal_keeps ?_ _ _ _ _ _) | refine Res.Keeps.ofTrap (by assumption) (atomGlobal_keeps ?_ _ _ _ _ _) | refine Res.Keeps.ofGoto (by assumption) (atomGlobal_keeps ?_ _ _ _ _ _) | refine Res.Keeps.ofMoved (by assumption) (atomGlobal_keeps ?_ _ _ _ _ _) | refine Res.Keeps.ofStall (by assumption) (atomGlobal_keeps ?_ _ _ _ _ _) | refine Res.Keeps.ofTargetStall (by assumption) (atomGlobal_keeps ?_ _ _ _ _ _) | refine Res.Keeps.ofTargetTrap (by assumption) (atomGlobal_keeps ?_ _ _ _ _ _) | split | apply Keeps.lit | trivial | dsimp only | intro _

theorem execAtomsAdd_keeps {z s : State} (h : Keeps z s) (h : Hdr) (d : Opnd) (a : Opnd) (b : Opnd) :
    OutKeeps z (execAtomsAdd h d a b s) := by
  unfold execAtomsAdd
  with_reducible repeat' first | assumption | apply OptKeeps.some | apply OptKeeps.none | apply OptKeeps.map | apply issue_keeps | apply atomSpad_keeps | refine Res.Keeps.ofOk (by assumption) (atomSpad_keeps ?_ _ _ _ _ _ _) | refine Res.Keeps.ofTrap (by assumption) (atomSpad_keeps ?_ _ _ _ _ _ _) | refine Res.Keeps.ofGoto (by assumption) (atomSpad_keeps ?_ _ _ _ _ _ _) | refine Res.Keeps.ofMoved (by assumption) (atomSpad_keeps ?_ _ _ _ _ _ _) | refine Res.Keeps.ofStall (by assumption) (atomSpad_keeps ?_ _ _ _ _ _ _) | refine Res.Keeps.ofTargetStall (by assumption) (atomSpad_keeps ?_ _ _ _ _ _ _) | refine Res.Keeps.ofTargetTrap (by assumption) (atomSpad_keeps ?_ _ _ _ _ _ _) | split | apply Keeps.lit | trivial | dsimp only | intro _

theorem execAtomsMin_keeps {z s : State} (h : Keeps z s) (h : Hdr) (d : Opnd) (a : Opnd) (b : Opnd) :
    OutKeeps z (execAtomsMin h d a b s) := by
  unfold execAtomsMin
  with_reducible repeat' first | assumption | apply OptKeeps.some | apply OptKeeps.none | apply OptKeeps.map | apply issue_keeps | apply atomSpad_keeps | refine Res.Keeps.ofOk (by assumption) (atomSpad_keeps ?_ _ _ _ _ _ _) | refine Res.Keeps.ofTrap (by assumption) (atomSpad_keeps ?_ _ _ _ _ _ _) | refine Res.Keeps.ofGoto (by assumption) (atomSpad_keeps ?_ _ _ _ _ _ _) | refine Res.Keeps.ofMoved (by assumption) (atomSpad_keeps ?_ _ _ _ _ _ _) | refine Res.Keeps.ofStall (by assumption) (atomSpad_keeps ?_ _ _ _ _ _ _) | refine Res.Keeps.ofTargetStall (by assumption) (atomSpad_keeps ?_ _ _ _ _ _ _) | refine Res.Keeps.ofTargetTrap (by assumption) (atomSpad_keeps ?_ _ _ _ _ _ _) | split | apply Keeps.lit | trivial | dsimp only | intro _

theorem execAtomsMax_keeps {z s : State} (h : Keeps z s) (h : Hdr) (d : Opnd) (a : Opnd) (b : Opnd) :
    OutKeeps z (execAtomsMax h d a b s) := by
  unfold execAtomsMax
  with_reducible repeat' first | assumption | apply OptKeeps.some | apply OptKeeps.none | apply OptKeeps.map | apply issue_keeps | apply atomSpad_keeps | refine Res.Keeps.ofOk (by assumption) (atomSpad_keeps ?_ _ _ _ _ _ _) | refine Res.Keeps.ofTrap (by assumption) (atomSpad_keeps ?_ _ _ _ _ _ _) | refine Res.Keeps.ofGoto (by assumption) (atomSpad_keeps ?_ _ _ _ _ _ _) | refine Res.Keeps.ofMoved (by assumption) (atomSpad_keeps ?_ _ _ _ _ _ _) | refine Res.Keeps.ofStall (by assumption) (atomSpad_keeps ?_ _ _ _ _ _ _) | refine Res.Keeps.ofTargetStall (by assumption) (atomSpad_keeps ?_ _ _ _ _ _ _) | refine Res.Keeps.ofTargetTrap (by assumption) (atomSpad_keeps ?_ _ _ _ _ _ _) | split | apply Keeps.lit | trivial | dsimp only | intro _

theorem execAtomsCas_keeps {z s : State} (h : Keeps z s) (h : Hdr) (d : Opnd) (a : Opnd) (b : Opnd) :
    OutKeeps z (execAtomsCas h d a b s) := by
  unfold execAtomsCas
  with_reducible repeat' first | assumption | apply OptKeeps.some | apply OptKeeps.none | apply OptKeeps.map | apply issue_keeps | apply atomSpad_keeps | refine Res.Keeps.ofOk (by assumption) (atomSpad_keeps ?_ _ _ _ _ _ _) | refine Res.Keeps.ofTrap (by assumption) (atomSpad_keeps ?_ _ _ _ _ _ _) | refine Res.Keeps.ofGoto (by assumption) (atomSpad_keeps ?_ _ _ _ _ _ _) | refine Res.Keeps.ofMoved (by assumption) (atomSpad_keeps ?_ _ _ _ _ _ _) | refine Res.Keeps.ofStall (by assumption) (atomSpad_keeps ?_ _ _ _ _ _ _) | refine Res.Keeps.ofTargetStall (by assumption) (atomSpad_keeps ?_ _ _ _ _ _ _) | refine Res.Keeps.ofTargetTrap (by assumption) (atomSpad_keeps ?_ _ _ _ _ _ _) | split | apply Keeps.lit | trivial | dsimp only | intro _

/-! Control -/

theorem fetchWords_keeps {z s : State} (h : Keeps z s) (w : Word) (x0 : Nat) :
    Fetched.Keeps z (fetchWords s w x0) := by
  induction x0 generalizing s w with
  | zero => unfold fetchWords; with_reducible repeat' first | assumption | apply Fetched.Keeps.ok | apply Fetched.Keeps.fault | apply State.fetchWord_keeps | refine MemRes.Keeps.ofOk (by assumption) (State.fetchWord_keeps ?_ _ _ _) | refine MemRes.Keeps.ofFault (by assumption) (State.fetchWord_keeps ?_ _ _ _) | refine MemRes.Keeps.ofDevice (by assumption) (State.fetchWord_keeps ?_ _ _ _) | apply ih | refine Fetched.Keeps.ofOk (by assumption) (ih ?_ _) | refine Fetched.Keeps.ofFault (by assumption) (ih ?_ _) | split | apply Keeps.lit | trivial | dsimp only | intro _
  | succ _ ih => unfold fetchWords; with_reducible repeat' first | assumption | apply Fetched.Keeps.ok | apply Fetched.Keeps.fault | apply State.fetchWord_keeps | refine MemRes.Keeps.ofOk (by assumption) (State.fetchWord_keeps ?_ _ _ _) | refine MemRes.Keeps.ofFault (by assumption) (State.fetchWord_keeps ?_ _ _ _) | refine MemRes.Keeps.ofDevice (by assumption) (State.fetchWord_keeps ?_ _ _ _) | apply ih | refine Fetched.Keeps.ofOk (by assumption) (ih ?_ _) | refine Fetched.Keeps.ofFault (by assumption) (ih ?_ _) | split | apply Keeps.lit | trivial | dsimp only | intro _

theorem transfer_keeps {z s : State} (h : Keeps z s) (i : Instr) (w : Word) (link : State → State) (hlink : ∀ x0, Keeps z x0 → Keeps z (link x0)) :
    Res.Keeps z (transfer i s w link) := by
  unfold transfer
  with_reducible repeat' first | assumption | refine OptKeeps.mapOf (fetchFault_keeps ?_ _ _ _) ?_ | apply hlink | apply Res.Keeps.ok | apply Res.Keeps.trap | apply Res.Keeps.goto | apply Res.Keeps.targetTrap | apply Res.Keeps.targetStall | apply fetchFault_keeps | refine OptKeeps.getD (fetchFault_keeps ?_ _ _ _) ?_ | refine OptKeeps.of (by assumption) (fetchFault_keeps ?_ _ _ _) | apply fetchRecord_keeps | apply fetchWords_keeps | refine Fetched.Keeps.ofOk (by assumption) (fetchWords_keeps ?_ _ _) | refine Fetched.Keeps.ofFault (by assumption) (fetchWords_keeps ?_ _ _) | split | apply Keeps.lit | trivial | dsimp only | intro _

theorem linkTo_keeps {z s' : State} (h : Keeps z s') (i : Instr) (s : State) : Keeps z (linkTo i s s') :=
  State.putFixed_keeps h _ _ _

theorem execBr_keeps {z s : State} (h : Keeps z s) (h : Hdr) (n : Bool) (p : BitVec 3) (k : BitVec 17) :
    OutKeeps z (execBr h n p k s) := by
  unfold execBr
  with_reducible repeat' first | assumption | apply id_keeps | apply Res.Keeps.ok | apply OptKeeps.some | apply OptKeeps.none | apply OptKeeps.map | apply issue_keeps | apply transfer_keeps | refine Res.Keeps.ofOk (by assumption) (transfer_keeps ?_ _ _ _ ?_) | refine Res.Keeps.ofTrap (by assumption) (transfer_keeps ?_ _ _ _ ?_) | refine Res.Keeps.ofGoto (by assumption) (transfer_keeps ?_ _ _ _ ?_) | refine Res.Keeps.ofMoved (by assumption) (transfer_keeps ?_ _ _ _ ?_) | refine Res.Keeps.ofStall (by assumption) (transfer_keeps ?_ _ _ _ ?_) | refine Res.Keeps.ofTargetStall (by assumption) (transfer_keeps ?_ _ _ _ ?_) | refine Res.Keeps.ofTargetTrap (by assumption) (transfer_keeps ?_ _ _ _ ?_) | split | apply Keeps.lit | trivial | dsimp only | intro _

theorem execCall_keeps {z s : State} (h : Keeps z s) (h : Hdr) (k : BitVec 21) :
    OutKeeps z (execCall h k s) := by
  unfold execCall
  with_reducible repeat' first | assumption | apply OptKeeps.some | apply OptKeeps.none | apply OptKeeps.map | apply issue_keeps | apply transfer_keeps | refine Res.Keeps.ofOk (by assumption) (transfer_keeps ?_ _ _ _ ?_) | refine Res.Keeps.ofTrap (by assumption) (transfer_keeps ?_ _ _ _ ?_) | refine Res.Keeps.ofGoto (by assumption) (transfer_keeps ?_ _ _ _ ?_) | refine Res.Keeps.ofMoved (by assumption) (transfer_keeps ?_ _ _ _ ?_) | refine Res.Keeps.ofStall (by assumption) (transfer_keeps ?_ _ _ _ ?_) | refine Res.Keeps.ofTargetStall (by assumption) (transfer_keeps ?_ _ _ _ ?_) | refine Res.Keeps.ofTargetTrap (by assumption) (transfer_keeps ?_ _ _ _ ?_) | apply linkTo_keeps | split | apply Keeps.lit | trivial | dsimp only | intro _

theorem execJmp_keeps {z s : State} (h : Keeps z s) (h : Hdr) (a : Opnd) :
    OutKeeps z (execJmp h a s) := by
  unfold execJmp
  with_reducible repeat' first | assumption | apply id_keeps | apply OptKeeps.some | apply OptKeeps.none | apply OptKeeps.map | apply issue_keeps | apply transfer_keeps | refine Res.Keeps.ofOk (by assumption) (transfer_keeps ?_ _ _ _ ?_) | refine Res.Keeps.ofTrap (by assumption) (transfer_keeps ?_ _ _ _ ?_) | refine Res.Keeps.ofGoto (by assumption) (transfer_keeps ?_ _ _ _ ?_) | refine Res.Keeps.ofMoved (by assumption) (transfer_keeps ?_ _ _ _ ?_) | refine Res.Keeps.ofStall (by assumption) (transfer_keeps ?_ _ _ _ ?_) | refine Res.Keeps.ofTargetStall (by assumption) (transfer_keeps ?_ _ _ _ ?_) | refine Res.Keeps.ofTargetTrap (by assumption) (transfer_keeps ?_ _ _ _ ?_) | split | apply Keeps.lit | trivial | dsimp only | intro _

theorem execRet_keeps {z s : State} (h : Keeps z s) (h : Hdr) :
    OutKeeps z (execRet h s) := by
  unfold execRet
  with_reducible repeat' first | assumption | apply id_keeps | apply OptKeeps.some | apply OptKeeps.none | apply OptKeeps.map | apply issue_keeps | apply transfer_keeps | refine Res.Keeps.ofOk (by assumption) (transfer_keeps ?_ _ _ _ ?_) | refine Res.Keeps.ofTrap (by assumption) (transfer_keeps ?_ _ _ _ ?_) | refine Res.Keeps.ofGoto (by assumption) (transfer_keeps ?_ _ _ _ ?_) | refine Res.Keeps.ofMoved (by assumption) (transfer_keeps ?_ _ _ _ ?_) | refine Res.Keeps.ofStall (by assumption) (transfer_keeps ?_ _ _ _ ?_) | refine Res.Keeps.ofTargetStall (by assumption) (transfer_keeps ?_ _ _ _ ?_) | refine Res.Keeps.ofTargetTrap (by assumption) (transfer_keeps ?_ _ _ _ ?_) | split | apply Keeps.lit | trivial | dsimp only | intro _

theorem execCallr_keeps {z s : State} (h : Keeps z s) (h : Hdr) (a : Opnd) :
    OutKeeps z (execCallr h a s) := by
  unfold execCallr
  with_reducible repeat' first | assumption | apply OptKeeps.some | apply OptKeeps.none | apply OptKeeps.map | apply issue_keeps | apply transfer_keeps | refine Res.Keeps.ofOk (by assumption) (transfer_keeps ?_ _ _ _ ?_) | refine Res.Keeps.ofTrap (by assumption) (transfer_keeps ?_ _ _ _ ?_) | refine Res.Keeps.ofGoto (by assumption) (transfer_keeps ?_ _ _ _ ?_) | refine Res.Keeps.ofMoved (by assumption) (transfer_keeps ?_ _ _ _ ?_) | refine Res.Keeps.ofStall (by assumption) (transfer_keeps ?_ _ _ _ ?_) | refine Res.Keeps.ofTargetStall (by assumption) (transfer_keeps ?_ _ _ _ ?_) | refine Res.Keeps.ofTargetTrap (by assumption) (transfer_keeps ?_ _ _ _ ?_) | apply linkTo_keeps | split | apply Keeps.lit | trivial | dsimp only | intro _

theorem State.ecall_keeps {z s : State} (h : Keeps z s) (n : Nat) (code : Word) (restart : Word) :
    Keeps z (State.ecall s n code restart) := by
  unfold State.ecall
  with_reducible repeat' first | assumption | apply State.enterBank_keeps | split | apply Keeps.lit | dsimp only | intro _

theorem execExit_keeps {z s : State} (h : Keeps z s) (h : Hdr) :
    OutKeeps z (execExit h s) := by
  unfold execExit
  with_reducible repeat' first | assumption | apply Res.Keeps.trap | apply Res.Keeps.hold | apply Res.Keeps.moved | apply OptKeeps.some | apply OptKeeps.none | apply OptKeeps.map | apply State.asyncExit_keeps | apply issue_keeps | apply State.ecall_keeps | split | apply Keeps.lit | trivial | dsimp only | intro _

theorem execTrap_keeps {z s : State} (h : Keeps z s) (h : Hdr) (imm : BitVec 14) :
    OutKeeps z (execTrap h imm s) := by
  unfold execTrap
  with_reducible repeat' first | assumption | apply Res.Keeps.trap | apply Res.Keeps.moved | apply OptKeeps.some | apply OptKeeps.none | apply OptKeeps.map | apply State.takeTrap_keeps | apply issue_keeps | split | apply Keeps.lit | trivial | dsimp only | intro _

theorem execBkpt_keeps {z s : State} (h : Keeps z s) (h : Hdr) :
    OutKeeps z (execBkpt h s) := by
  unfold execBkpt
  with_reducible repeat' first | assumption | apply Res.Keeps.moved | apply OptKeeps.some | apply OptKeeps.none | apply OptKeeps.map | apply State.takeTrap_keeps | apply issue_keeps | split | apply Keeps.lit | trivial | dsimp only | intro _

theorem execPrio_keeps {z s : State} (h : Keeps z s) (h : Hdr) (a : Opnd) :
    OutKeeps z (execPrio h a s) := by
  unfold execPrio
  with_reducible repeat' first | assumption | apply Res.Keeps.ok | apply OptKeeps.some | apply OptKeeps.none | apply OptKeeps.map | apply issue_keeps | split | apply Keeps.lit | trivial | dsimp only | intro _

theorem execYield_keeps {z s : State} (h : Keeps z s) (h : Hdr) :
    OutKeeps z (execYield h s) := by
  unfold execYield
  with_reducible repeat' first | assumption | apply Res.Keeps.ok | apply OptKeeps.some | apply OptKeeps.none | apply OptKeeps.map | apply State.voidL_keeps | apply issue_keeps | split | apply Keeps.lit | trivial | dsimp only | intro _

theorem execId_keeps {z s : State} (h : Keeps z s) (h : Hdr) (d : Opnd) (f : BitVec 7) :
    OutKeeps z (execId h d f s) := by
  unfold execId
  with_reducible repeat' first | assumption | apply Res.Keeps.ok | apply OptKeeps.some | apply OptKeeps.none | apply OptKeeps.map | apply State.postTo_keeps | apply issue_keeps | split | apply Keeps.lit | trivial | dsimp only | intro _

/-! Fetch -/

theorem fetchChain_keeps (n : Nat) {z s : State} (h : Keeps z s) (slot : Nat) (w : Word) : Chained.Keeps z (fetchChain n s slot w) := by
  induction n generalizing s slot w with
  | zero => exact h
  | succ n ih =>
    have hf := fetchWords_keeps h w 1
    unfold fetchChain
    split
    · next e => exact Fetched.Keeps.ofFault e hf
    · next s' ws e =>
      have g := Fetched.Keeps.ofOk e hf
      extract_lets x span
      clear_value span x
      have hm : Fetched.Keeps z (if span = 2 then fetchWords s' (w + 1) 1 else .ok s' []) := by
        split
        · exact fetchWords_keeps g _ _
        · exact g
      split
      · next e => exact Fetched.Keeps.ofFault e hm
      · next e =>
        have g := Fetched.Keeps.ofOk e hm
        dsimp only
        split
        · have k := ih g (slot + span) (w + .ofNat 32 span)
          split
          · next e => exact Chained.Keeps.ofOk e k
          · exact k
        · exact g

theorem State.chainAt_keeps {z s : State} (h : Keeps z s)  :
    Chained.Keeps z (State.chainAt s) := by
  unfold State.chainAt
  with_reducible repeat' first | assumption | apply fetchChain_keeps | refine Chained.Keeps.ofOk (by assumption) (fetchChain_keeps ?_ _ _ _) | refine Chained.Keeps.ofFault (by assumption) (fetchChain_keeps ?_ _ _ _) | split | apply Keeps.lit | trivial | dsimp only | intro _

theorem State.takeIrq_keeps {z s : State} (h : Keeps z s) (n : Nat) :
    OptKeeps z (State.takeIrq s n) := by
  unfold State.takeIrq
  with_reducible repeat' first | assumption | apply OptKeeps.some | apply OptKeeps.none | apply OptKeeps.map | apply State.modThread_keeps | apply State.enterBank_keeps | apply State.asyncExit_keeps | split | apply Keeps.lit | dsimp only | intro _

theorem execInterruptEntry_keeps {z s : State} (h : Keeps z s) (n : Nat) :
    OutKeeps z (execInterruptEntry n s) := by
  unfold execInterruptEntry
  with_reducible repeat' first | assumption | refine OptKeeps.mapOf (State.takeIrq_keeps ?_ _) ?_ | apply OptKeeps.some | apply OptKeeps.none | apply OptKeeps.map | apply agent_keeps | apply State.takeIrq_keeps | refine OptKeeps.getD (State.takeIrq_keeps ?_ _) ?_ | refine OptKeeps.of (by assumption) (State.takeIrq_keeps ?_ _) | split | apply Keeps.lit | trivial | dsimp only | intro _

theorem State.joinBundle_keeps {z s : State} (h : Keeps z s) (s₀ : State) (is : List Instr) : Keeps z (State.joinBundle s₀ s is) := by
  unfold State.joinBundle
  split
  · exact h
  · exact State.modCore_keeps h _ _

theorem State.noteThread_keeps {z s : State} (h : Keeps z s) (i : ThreadId) :
    Keeps z (State.noteThread s i) := by
  unfold State.noteThread
  with_reducible repeat' first | assumption | refine OptKeeps.mapOf (State.switchTo_keeps ?_ _) ?_ | apply State.setThread_keeps | apply State.switchTo_keeps | refine OptKeeps.getD (State.switchTo_keeps ?_ _) ?_ | refine OptKeeps.of (by assumption) (State.switchTo_keeps ?_ _) | split | apply Keeps.lit | dsimp only | intro _

theorem State.noteReady_keeps {z s : State} (h : Keeps z s)  :
    Keeps z (State.noteReady s) := by
  unfold State.noteReady
  with_reducible repeat' first | assumption | apply State.noteThread_keeps | refine Keeps.foldl (fun s x h => ?_) ?_ | split | apply Keeps.lit | dsimp only | intro _

theorem State.pickerChoice_keeps {z s : State} (h : Keeps z s) (core : Nat) (order : List Nat) :
    Keeps z (State.pickerChoice s core order) := by
  unfold State.pickerChoice
  with_reducible repeat' first | assumption | apply State.modCore_keeps | split | apply Keeps.lit | dsimp only | intro _

theorem execPickerChoice_keeps {z s : State} (h : Keeps z s) (core : Nat) (order : List Nat) :
    OutKeeps z (execPickerChoice core order s) := OutKeeps.next (State.pickerChoice_keeps h _ _)

/-! Work -/

theorem State.giveItem_keeps {z s : State} (h : Keeps z s) (i : ThreadId) (launch : Nat) (dst : Nat) :
    OptKeeps z (State.giveItem s i launch dst) := by
  unfold State.giveItem
  with_reducible repeat' first | assumption | apply OptKeeps.some | apply OptKeeps.none | apply OptKeeps.map | apply State.modThread_keeps | apply State.modCore_keeps | split | apply Keeps.lit | dsimp only | intro _

theorem State.dropAsk_keeps {z s : State} (h : Keeps z s) (core : Nat) (a : Ask) :
    Keeps z (State.dropAsk s core a) := by
  unfold State.dropAsk
  with_reducible repeat' first | assumption | apply State.modCore_keeps | split | apply Keeps.lit | dsimp only | intro _

theorem execRefill_keeps {z s : State} (h : Keeps z s) (h' : Hdr) (d : Opnd) : OutKeeps z (execRefill h' d s) := by
  unfold execRefill
  refine issue_keeps h _ _ fun x hx => ?_
  split
  · exact hx
  · split
    · exact hx
    · dsimp only
      split
      · next n l _ _ y e =>
        split at e
        · exact absurd e (by simp)
        · exact OptKeeps.of e (State.giveItem_keeps hx _ _ _)
      · exact State.modCore_keeps hx _ _

theorem execFetchw_keeps {z s : State} (h : Keeps z s) (h : Hdr) (a : Opnd) (b : Opnd) :
    OutKeeps z (execFetchw h a b s) := by
  unfold execFetchw
  with_reducible repeat' first | assumption | apply Res.Keeps.ok | apply Res.Keeps.trap | apply Res.Keeps.hold | apply OptKeeps.some | apply OptKeeps.none | apply OptKeeps.map | apply State.modTeam_keeps | apply issue_keeps | split | apply Keeps.lit | trivial | dsimp only | intro _

/-! Converge -/

theorem addSign_keeps {z s : State} (h : Keeps z s) (team : Nat) (t : Team) (cv : Nat) (opcode : Nat) (fixed : List Nat) (g : Sign) :
    PairKeeps z (addSign s team t cv opcode fixed g) := by
  unfold addSign
  with_reducible repeat' first | assumption | apply State.modTeam_keeps | split | apply Keeps.lit | dsimp only | intro _ | apply PairKeeps.mk

theorem performCollective_keeps {z s : State} (h : Keeps z s) (team : Nat) (set : Word) (o : ConvOp) :
    Keeps z (performCollective s team set o) := by
  unfold performCollective
  with_reducible repeat' first | assumption | apply State.modThread_keeps | refine Keeps.foldl (fun s x h => ?_) ?_ | split | apply Keeps.lit | dsimp only | intro _

theorem signCollective_keeps {z s : State} (h : Keeps z s) (i : Instr) (opcode : Nat) (d : Opnd) (x : Word) (ctl : Word) (fixed : Word) :
    Res.Keeps z (signCollective i s opcode d x ctl fixed) := by
  unfold signCollective
  with_reducible repeat' first | assumption | apply Res.Keeps.ok | apply Res.Keeps.trap | apply State.voidL_keeps | apply addSign_keeps | refine PairKeeps.of (by assumption) (addSign_keeps ?_ _ _ _ _ _ _) | refine PairKeeps.fst (addSign_keeps ?_ _ _ _ _ _ _) | apply performCollective_keeps | split | apply Keeps.lit | trivial | dsimp only | intro _

theorem execCdecl_keeps {z s : State} (h : Keeps z s) (h : Hdr) (w : BitVec 4) (a : Opnd) :
    OutKeeps z (execCdecl h w a s) := by
  unfold execCdecl
  with_reducible repeat' first | assumption | apply Res.Keeps.ok | apply Res.Keeps.trap | apply OptKeeps.some | apply OptKeeps.none | apply OptKeeps.map | apply State.modTeam_keeps | apply issue_keeps | split | apply Keeps.lit | trivial | dsimp only | intro _

theorem execCrst_keeps {z s : State} (h : Keeps z s) (h : Hdr) (w : BitVec 4) :
    OutKeeps z (execCrst h w s) := by
  unfold execCrst
  with_reducible repeat' first | assumption | apply Res.Keeps.ok | apply Res.Keeps.trap | apply OptKeeps.some | apply OptKeeps.none | apply OptKeeps.map | apply State.modTeam_keeps | apply issue_keeps | split | apply Keeps.lit | trivial | dsimp only | intro _

theorem execShfl_keeps {z s : State} (h : Keeps z s) (h : Hdr) (d : Opnd) (a : Opnd) (b : Opnd) :
    OutKeeps z (execShfl h d a b s) := by
  unfold execShfl
  with_reducible repeat' first | assumption | apply Res.Keeps.trap | apply OptKeeps.some | apply OptKeeps.none | apply OptKeeps.map | apply issue_keeps | apply signCollective_keeps | refine Res.Keeps.ofOk (by assumption) (signCollective_keeps ?_ _ _ _ _ _ _) | refine Res.Keeps.ofTrap (by assumption) (signCollective_keeps ?_ _ _ _ _ _ _) | refine Res.Keeps.ofGoto (by assumption) (signCollective_keeps ?_ _ _ _ _ _ _) | refine Res.Keeps.ofMoved (by assumption) (signCollective_keeps ?_ _ _ _ _ _ _) | refine Res.Keeps.ofStall (by assumption) (signCollective_keeps ?_ _ _ _ _ _ _) | refine Res.Keeps.ofTargetStall (by assumption) (signCollective_keeps ?_ _ _ _ _ _ _) | refine Res.Keeps.ofTargetTrap (by assumption) (signCollective_keeps ?_ _ _ _ _ _ _) | split | apply Keeps.lit | trivial | dsimp only | intro _

theorem execVote_keeps {z s : State} (h : Keeps z s) (h : Hdr) (d : Opnd) (a : Opnd) (b : Opnd) :
    OutKeeps z (execVote h d a b s) := by
  unfold execVote
  with_reducible repeat' first | assumption | apply Res.Keeps.trap | apply OptKeeps.some | apply OptKeeps.none | apply OptKeeps.map | apply issue_keeps | apply signCollective_keeps | refine Res.Keeps.ofOk (by assumption) (signCollective_keeps ?_ _ _ _ _ _ _) | refine Res.Keeps.ofTrap (by assumption) (signCollective_keeps ?_ _ _ _ _ _ _) | refine Res.Keeps.ofGoto (by assumption) (signCollective_keeps ?_ _ _ _ _ _ _) | refine Res.Keeps.ofMoved (by assumption) (signCollective_keeps ?_ _ _ _ _ _ _) | refine Res.Keeps.ofStall (by assumption) (signCollective_keeps ?_ _ _ _ _ _ _) | refine Res.Keeps.ofTargetStall (by assumption) (signCollective_keeps ?_ _ _ _ _ _ _) | refine Res.Keeps.ofTargetTrap (by assumption) (signCollective_keeps ?_ _ _ _ _ _ _) | split | apply Keeps.lit | trivial | dsimp only | intro _

theorem execRdx_keeps {z s : State} (h : Keeps z s) (h : Hdr) (d : Opnd) (a : Opnd) (b : Opnd) :
    OutKeeps z (execRdx h d a b s) := by
  unfold execRdx
  with_reducible repeat' first | assumption | apply Res.Keeps.trap | apply OptKeeps.some | apply OptKeeps.none | apply OptKeeps.map | apply issue_keeps | apply signCollective_keeps | refine Res.Keeps.ofOk (by assumption) (signCollective_keeps ?_ _ _ _ _ _ _) | refine Res.Keeps.ofTrap (by assumption) (signCollective_keeps ?_ _ _ _ _ _ _) | refine Res.Keeps.ofGoto (by assumption) (signCollective_keeps ?_ _ _ _ _ _ _) | refine Res.Keeps.ofMoved (by assumption) (signCollective_keeps ?_ _ _ _ _ _ _) | refine Res.Keeps.ofStall (by assumption) (signCollective_keeps ?_ _ _ _ _ _ _) | refine Res.Keeps.ofTargetStall (by assumption) (signCollective_keeps ?_ _ _ _ _ _ _) | refine Res.Keeps.ofTargetTrap (by assumption) (signCollective_keeps ?_ _ _ _ _ _ _) | split | apply Keeps.lit | trivial | dsimp only | intro _

/-! Matrix -/

theorem State.modQuad_keeps {z s : State} (h : Keeps z s) (n : Nat) (f : Quad → Quad) :
    Keeps z (State.modQuad s n f) := by
  unfold State.modQuad
  with_reducible repeat' first | assumption | apply State.put_keeps | split | apply Keeps.lit | dsimp only | intro _

theorem State.restamp_keeps {z s : State} (h : Keeps z s) (n : Nat) :
    Keeps z (State.restamp s n) := by
  unfold State.restamp
  with_reducible repeat' first | assumption | apply State.modQuad_keeps | split | apply Keeps.lit | dsimp only | intro _

theorem State.perform_keeps {z s : State} (h : Keeps z s) (team : Nat) (t : Team) (pri : Nat) (tile : Nat) (set : Word) (o : ConvOp) (m : MxOp) :
    Keeps z (State.perform s team t pri tile set o m) := by
  unfold State.perform
  with_reducible repeat' first | assumption | apply State.put_keeps | apply State.modQuad_keeps | apply State.restamp_keeps | split | apply Keeps.lit | dsimp only | intro _

theorem State.useSeen_keeps {z s : State} (h : Keeps z s) (team : Nat) :
    Keeps z (State.useSeen s team) := by
  unfold State.useSeen
  with_reducible repeat' first | assumption | split | apply Keeps.lit | dsimp only | intro _

theorem signMatrix_keeps {z s : State} (h : Keeps z s) (i : Instr) (opcode : Nat) (tile : Nat) (a : Opnd) (b : Opnd) (x : MmaCtl) (addr : Word) (any : Bool) :
    Res.Keeps z (signMatrix i s opcode tile a b x addr any) := by
  unfold signMatrix
  with_reducible repeat' first | assumption | apply Res.Keeps.ok | apply Res.Keeps.trap | apply State.modThread_keeps | apply addSign_keeps | refine PairKeeps.of (by assumption) (addSign_keeps ?_ _ _ _ _ _ _) | refine PairKeeps.fst (addSign_keeps ?_ _ _ _ _ _ _) | apply State.perform_keeps | apply State.useSeen_keeps | refine Keeps.foldl (fun s x h => ?_) ?_ | split | apply Keeps.lit | trivial | dsimp only | intro _

theorem execMma_keeps {z s : State} (h : Keeps z s) (h : Hdr) (t : BitVec 7) (a : Opnd) (b : Opnd) (x : MmaCtl) :
    OutKeeps z (execMma h t a b x s) := by
  unfold execMma
  with_reducible repeat' first | assumption | apply OptKeeps.some | apply OptKeeps.none | apply OptKeeps.map | apply issue_keeps | apply signMatrix_keeps | refine Res.Keeps.ofOk (by assumption) (signMatrix_keeps ?_ _ _ _ _ _ _ _ _) | refine Res.Keeps.ofTrap (by assumption) (signMatrix_keeps ?_ _ _ _ _ _ _ _ _) | refine Res.Keeps.ofGoto (by assumption) (signMatrix_keeps ?_ _ _ _ _ _ _ _ _) | refine Res.Keeps.ofMoved (by assumption) (signMatrix_keeps ?_ _ _ _ _ _ _ _ _) | refine Res.Keeps.ofStall (by assumption) (signMatrix_keeps ?_ _ _ _ _ _ _ _ _) | refine Res.Keeps.ofTargetStall (by assumption) (signMatrix_keeps ?_ _ _ _ _ _ _ _ _) | refine Res.Keeps.ofTargetTrap (by assumption) (signMatrix_keeps ?_ _ _ _ _ _ _ _ _) | split | apply Keeps.lit | trivial | dsimp only | intro _

theorem execMmaj_keeps {z s : State} (h : Keeps z s) (h : Hdr) (t : BitVec 7) (a : Opnd) (b : Opnd) (x : MmaCtl) :
    OutKeeps z (execMmaj h t a b x s) := by
  unfold execMmaj
  with_reducible repeat' first | assumption | apply OptKeeps.some | apply OptKeeps.none | apply OptKeeps.map | apply issue_keeps | apply signMatrix_keeps | refine Res.Keeps.ofOk (by assumption) (signMatrix_keeps ?_ _ _ _ _ _ _ _ _) | refine Res.Keeps.ofTrap (by assumption) (signMatrix_keeps ?_ _ _ _ _ _ _ _ _) | refine Res.Keeps.ofGoto (by assumption) (signMatrix_keeps ?_ _ _ _ _ _ _ _ _) | refine Res.Keeps.ofMoved (by assumption) (signMatrix_keeps ?_ _ _ _ _ _ _ _ _) | refine Res.Keeps.ofStall (by assumption) (signMatrix_keeps ?_ _ _ _ _ _ _ _ _) | refine Res.Keeps.ofTargetStall (by assumption) (signMatrix_keeps ?_ _ _ _ _ _ _ _ _) | refine Res.Keeps.ofTargetTrap (by assumption) (signMatrix_keeps ?_ _ _ _ _ _ _ _ _) | split | apply Keeps.lit | trivial | dsimp only | intro _

theorem onTile_keeps {z s : State} (h : Keeps z s) (i : Instr) (tile : Nat) (k : Nat → Nat → Team → Launch → List MxOut → Res) (hk : ∀ x0 x1 x2 x3 x4, Res.Keeps z (k x0 x1 x2 x3 x4)) :
    Res.Keeps z (onTile i s tile k) := by
  unfold onTile
  with_reducible repeat' first | assumption | apply hk | apply Res.Keeps.trap | apply Res.Keeps.hold | split | apply Keeps.lit | trivial | dsimp only | intro _

theorem State.touchRows_keeps {z s : State} (h : Keeps z s) (team : Nat) (idx : Nat) (tile : Nat) (hit : List MxOut) :
    Keeps z (State.touchRows s team idx tile hit) := by
  unfold State.touchRows
  with_reducible repeat' first | assumption | apply State.freeTiles_keeps | apply State.spoilRow_keeps | refine Keeps.foldl (fun s x h => ?_) ?_ | split | apply Keeps.lit | dsimp only | intro _

theorem State.startMove_keeps {z s : State} (h : Keeps z s) (core : Nat) (at_ : Nat) :
    Keeps z (State.startMove s core at_) := by
  unfold State.startMove
  with_reducible repeat' first | assumption | apply State.modCore_keeps | split | apply Keeps.lit | dsimp only | intro _

theorem State.setRows_keeps {z s : State} (h : Keeps z s) (team : Nat) (idx : Nat) (tile : Nat) (v : List Word) :
    Keeps z (State.setRows s team idx tile v) := by
  unfold State.setRows
  with_reducible repeat' first | assumption | apply State.modTeam_keeps | refine Keeps.foldl (fun s x h => ?_) ?_ | split | apply Keeps.lit | dsimp only | intro _

theorem execMzero_keeps {z s : State} (h : Keeps z s) (h : Hdr) (t : BitVec 7) :
    OutKeeps z (execMzero h t s) := by
  unfold execMzero
  with_reducible repeat' first | assumption | apply Res.Keeps.ok | apply OptKeeps.some | apply OptKeeps.none | apply OptKeeps.map | apply issue_keeps | apply onTile_keeps | refine Res.Keeps.ofOk (by assumption) (onTile_keeps ?_ _ _ _ ?_) | refine Res.Keeps.ofTrap (by assumption) (onTile_keeps ?_ _ _ _ ?_) | refine Res.Keeps.ofGoto (by assumption) (onTile_keeps ?_ _ _ _ ?_) | refine Res.Keeps.ofMoved (by assumption) (onTile_keeps ?_ _ _ _ ?_) | refine Res.Keeps.ofStall (by assumption) (onTile_keeps ?_ _ _ _ ?_) | refine Res.Keeps.ofTargetStall (by assumption) (onTile_keeps ?_ _ _ _ ?_) | refine Res.Keeps.ofTargetTrap (by assumption) (onTile_keeps ?_ _ _ _ ?_) | apply State.touchRows_keeps | apply State.setRows_keeps | split | apply Keeps.lit | trivial | dsimp only | intro _

theorem execMload_keeps {z s : State} (h : Keeps z s) (h : Hdr) (t : BitVec 7) (a : Opnd) :
    OutKeeps z (execMload h t a s) := by
  unfold execMload
  with_reducible repeat' first | assumption | apply Res.Keeps.ok | apply Res.Keeps.trap | apply Res.Keeps.hold | apply OptKeeps.some | apply OptKeeps.none | apply OptKeeps.map | apply issue_keeps | apply onTile_keeps | refine Res.Keeps.ofOk (by assumption) (onTile_keeps ?_ _ _ _ ?_) | refine Res.Keeps.ofTrap (by assumption) (onTile_keeps ?_ _ _ _ ?_) | refine Res.Keeps.ofGoto (by assumption) (onTile_keeps ?_ _ _ _ ?_) | refine Res.Keeps.ofMoved (by assumption) (onTile_keeps ?_ _ _ _ ?_) | refine Res.Keeps.ofStall (by assumption) (onTile_keeps ?_ _ _ _ ?_) | refine Res.Keeps.ofTargetStall (by assumption) (onTile_keeps ?_ _ _ _ ?_) | refine Res.Keeps.ofTargetTrap (by assumption) (onTile_keeps ?_ _ _ _ ?_) | apply State.touchRows_keeps | apply State.startMove_keeps | split | apply Keeps.lit | trivial | dsimp only | intro _

theorem execMdrain_keeps {z s : State} (h : Keeps z s) (h : Hdr) (t : BitVec 7) (a : Opnd) (b : Opnd) (x : DrainCtl) :
    OutKeeps z (execMdrain h t a b x s) := by
  unfold execMdrain
  with_reducible repeat' first | assumption | apply Res.Keeps.ok | apply Res.Keeps.trap | apply Res.Keeps.hold | apply OptKeeps.some | apply OptKeeps.none | apply OptKeeps.map | apply issue_keeps | apply State.sectorHome_keeps | apply State.release_keeps | apply onTile_keeps | refine Res.Keeps.ofOk (by assumption) (onTile_keeps ?_ _ _ _ ?_) | refine Res.Keeps.ofTrap (by assumption) (onTile_keeps ?_ _ _ _ ?_) | refine Res.Keeps.ofGoto (by assumption) (onTile_keeps ?_ _ _ _ ?_) | refine Res.Keeps.ofMoved (by assumption) (onTile_keeps ?_ _ _ _ ?_) | refine Res.Keeps.ofStall (by assumption) (onTile_keeps ?_ _ _ _ ?_) | refine Res.Keeps.ofTargetStall (by assumption) (onTile_keeps ?_ _ _ _ ?_) | refine Res.Keeps.ofTargetTrap (by assumption) (onTile_keeps ?_ _ _ _ ?_) | apply State.startMove_keeps | refine Keeps.foldl (fun s x h => ?_) ?_ | split | apply Keeps.lit | trivial | dsimp only | intro _

theorem execMfence_keeps {z s : State} (h : Keeps z s) (h : Hdr) (w : BitVec 4) :
    OutKeeps z (execMfence h w s) := by
  unfold execMfence
  with_reducible repeat' first | assumption | apply Res.Keeps.ok | apply Res.Keeps.trap | apply Res.Keeps.hold | apply OptKeeps.some | apply OptKeeps.none | apply OptKeeps.map | apply issue_keeps | split | apply Keeps.lit | trivial | dsimp only | intro _

theorem execMwait_keeps {z s : State} (h : Keeps z s) (h : Hdr) (t : BitVec 7) :
    OutKeeps z (execMwait h t s) := by
  unfold execMwait
  with_reducible repeat' first | assumption | apply Res.Keeps.ok | apply Res.Keeps.hold | apply OptKeeps.some | apply OptKeeps.none | apply OptKeeps.map | apply issue_keeps | split | apply Keeps.lit | trivial | dsimp only | intro _

/-! CopyOps -/

theorem State.setChan_keeps {z s : State} (h : Keeps z s) (o : Owner) (ch : Nat) (c : Chan) :
    Keeps z (State.setChan s o ch c) := by
  unfold State.setChan
  with_reducible repeat' first | assumption | apply State.modStore_keeps | split | apply Keeps.lit | dsimp only | intro _

theorem issueCopy_keeps {z s : State} (h : Keeps z s) (i : Instr) (c : Copy) (ch : Nat) :
    Res.Keeps z (issueCopy i s c ch) := by
  unfold issueCopy
  with_reducible repeat' first | assumption | apply Res.Keeps.ok | apply Res.Keeps.trap | apply Res.Keeps.hold | apply State.release_keeps | apply State.setChan_keeps | split | apply Keeps.lit | trivial | dsimp only | intro _

theorem execCpyGs_keeps {z s : State} (h : Keeps z s) (h : Hdr) (a : Opnd) (e : Bool) (ch : BitVec 4) :
    OutKeeps z (execCpyGs h a e ch s) := by
  unfold execCpyGs
  with_reducible repeat' first | assumption | apply OptKeeps.some | apply OptKeeps.none | apply OptKeeps.map | apply issue_keeps | apply issueCopy_keeps | refine Res.Keeps.ofOk (by assumption) (issueCopy_keeps ?_ _ _ _) | refine Res.Keeps.ofTrap (by assumption) (issueCopy_keeps ?_ _ _ _) | refine Res.Keeps.ofGoto (by assumption) (issueCopy_keeps ?_ _ _ _) | refine Res.Keeps.ofMoved (by assumption) (issueCopy_keeps ?_ _ _ _) | refine Res.Keeps.ofStall (by assumption) (issueCopy_keeps ?_ _ _ _) | refine Res.Keeps.ofTargetStall (by assumption) (issueCopy_keeps ?_ _ _ _) | refine Res.Keeps.ofTargetTrap (by assumption) (issueCopy_keeps ?_ _ _ _) | split | apply Keeps.lit | trivial | dsimp only | intro _

theorem execCpySg_keeps {z s : State} (h : Keeps z s) (h : Hdr) (a : Opnd) (e : Bool) (ch : BitVec 4) :
    OutKeeps z (execCpySg h a e ch s) := by
  unfold execCpySg
  with_reducible repeat' first | assumption | apply OptKeeps.some | apply OptKeeps.none | apply OptKeeps.map | apply issue_keeps | apply issueCopy_keeps | refine Res.Keeps.ofOk (by assumption) (issueCopy_keeps ?_ _ _ _) | refine Res.Keeps.ofTrap (by assumption) (issueCopy_keeps ?_ _ _ _) | refine Res.Keeps.ofGoto (by assumption) (issueCopy_keeps ?_ _ _ _) | refine Res.Keeps.ofMoved (by assumption) (issueCopy_keeps ?_ _ _ _) | refine Res.Keeps.ofStall (by assumption) (issueCopy_keeps ?_ _ _ _) | refine Res.Keeps.ofTargetStall (by assumption) (issueCopy_keeps ?_ _ _ _) | refine Res.Keeps.ofTargetTrap (by assumption) (issueCopy_keeps ?_ _ _ _) | split | apply Keeps.lit | trivial | dsimp only | intro _

theorem execCpyl_keeps {z s : State} (h : Keeps z s) (h : Hdr) (d : Opnd) (a : Opnd) (b : Opnd) (x : CpylCtl) :
    OutKeeps z (execCpyl h d a b x s) := by
  unfold execCpyl
  with_reducible repeat' first | assumption | apply OptKeeps.some | apply OptKeeps.none | apply OptKeeps.map | apply issue_keeps | apply issueCopy_keeps | refine Res.Keeps.ofOk (by assumption) (issueCopy_keeps ?_ _ _ _) | refine Res.Keeps.ofTrap (by assumption) (issueCopy_keeps ?_ _ _ _) | refine Res.Keeps.ofGoto (by assumption) (issueCopy_keeps ?_ _ _ _) | refine Res.Keeps.ofMoved (by assumption) (issueCopy_keeps ?_ _ _ _) | refine Res.Keeps.ofStall (by assumption) (issueCopy_keeps ?_ _ _ _) | refine Res.Keeps.ofTargetStall (by assumption) (issueCopy_keeps ?_ _ _ _) | refine Res.Keeps.ofTargetTrap (by assumption) (issueCopy_keeps ?_ _ _ _) | split | apply Keeps.lit | trivial | dsimp only | intro _

theorem execCpyg_keeps {z s : State} (h : Keeps z s) (h : Hdr) (d : Opnd) (a : Opnd) (b : Opnd) (x : CpygCtl) :
    OutKeeps z (execCpyg h d a b x s) := by
  unfold execCpyg
  with_reducible repeat' first | assumption | apply OptKeeps.some | apply OptKeeps.none | apply OptKeeps.map | apply issue_keeps | apply issueCopy_keeps | refine Res.Keeps.ofOk (by assumption) (issueCopy_keeps ?_ _ _ _) | refine Res.Keeps.ofTrap (by assumption) (issueCopy_keeps ?_ _ _ _) | refine Res.Keeps.ofGoto (by assumption) (issueCopy_keeps ?_ _ _ _) | refine Res.Keeps.ofMoved (by assumption) (issueCopy_keeps ?_ _ _ _) | refine Res.Keeps.ofStall (by assumption) (issueCopy_keeps ?_ _ _ _) | refine Res.Keeps.ofTargetStall (by assumption) (issueCopy_keeps ?_ _ _ _) | refine Res.Keeps.ofTargetTrap (by assumption) (issueCopy_keeps ?_ _ _ _) | split | apply Keeps.lit | trivial | dsimp only | intro _

theorem State.applyCeown_keeps {z s : State} (h : Keeps z s) (e : Nat) (v : Dword) :
    Keeps z (State.applyCeown s e v) := by
  unfold State.applyCeown
  with_reducible repeat' first | assumption | apply State.put_keeps | split | apply Keeps.lit | dsimp only | intro _

theorem State.settleCeown_keeps {z s : State} (h : Keeps z s)  :
    Keeps z (State.settleCeown s) := by
  unfold State.settleCeown
  with_reducible repeat' first | assumption | apply State.applyCeown_keeps | refine Keeps.foldl (fun s x h => ?_) ?_ | split | apply Keeps.lit | dsimp only | intro _

theorem State.stopCopy_keeps {z s : State} (h : Keeps z s) (o : Owner) (ch : Nat) (t : Trap) :
    Keeps z (State.stopCopy s o ch t) := by
  unfold State.stopCopy
  with_reducible repeat' first | assumption | apply State.modThread_keeps | apply State.endLaunch_keeps | apply State.setChan_keeps | apply State.settleCeown_keeps | split | apply Keeps.lit | dsimp only | intro _

theorem State.creditCopy_keeps {z s : State} (h : Keeps z s) (o : Owner) (ch : Nat) (c : Copy) :
    Keeps z (State.creditCopy s o ch c) := by
  unfold State.creditCopy
  with_reducible repeat' first | assumption | refine OptKeeps.mapOf (State.engineCount_keeps ?_ _ _ _) ?_ | apply State.count_keeps | apply State.engineCount_keeps | refine OptKeeps.getD (State.engineCount_keeps ?_ _ _ _) ?_ | refine OptKeeps.of (by assumption) (State.engineCount_keeps ?_ _ _ _) | apply State.setChan_keeps | apply State.settleCeown_keeps | apply State.stopCopy_keeps | split | apply Keeps.lit | dsimp only | intro _

theorem State.homeCells_keeps {z s : State} (h : Keeps z s) (cells : List (Nat × Byte)) :
    Keeps z (State.homeCells s cells) := by
  unfold State.homeCells
  with_reducible repeat' first | assumption | apply State.landLine_keeps | refine Keeps.foldl (fun s x h => ?_) ?_ | split | apply Keeps.lit | dsimp only | intro _

theorem reachLines_keeps {z s : State} (h : Keeps z s) (sp : Space) (kind : AccessKind) (bad : State → Nat → Bool) (l : List Nat) :
    ExMovedKeeps z (reachLines s sp kind bad l) := by
  induction l generalizing s with
  | nil => exact h
  | cons va rest ih =>
    unfold reachLines
    dsimp only
    split
    · exact h
    · split
      · exact h
      · next e =>
        have g := ExKeeps.of e (translate_keeps h _)
        split
        · trivial
        · split
          · exact g
          · split
            · next e => exact ExMovedKeeps.ofOk e (ih g)
            · exact ih g

theorem readCells_keeps {z s : State} (h : Keeps z s) (o : Owner) (sp : Space) (xs : List Cell) :
    ExMovedKeeps z (readCells s o sp xs) := by
  unfold readCells
  with_reducible repeat' first | assumption | apply ExMovedKeeps.ok | apply ExMovedKeeps.error | apply Moved.Keeps.ok | apply Moved.Keeps.trap | apply State.l2Read_keeps | apply reachLines_keeps | refine ExMovedKeeps.ofOk (by assumption) (reachLines_keeps ?_ _ _ _ _) | refine ExMovedKeeps.ofError (by assumption) (reachLines_keeps ?_ _ _ _ _) | refine Keeps.foldl (fun s x h => ?_) ?_ | split | apply Keeps.lit | dsimp only | intro _

theorem State.copySpoils_keeps {z s : State} (h : Keeps z s) (tid : ThreadId) (offs : List Nat) :
    Keeps z (State.copySpoils s tid offs) := by
  unfold State.copySpoils
  with_reducible repeat' first | assumption | apply State.modThread_keeps | apply State.spoilFor_keeps | refine Keeps.foldl (fun s x h => ?_) ?_ | split | apply Keeps.lit | dsimp only | intro _

theorem State.landedLine_keeps {z s : State} (h : Keeps z s) (core : Nat) (sp : Space) (sig : Sig) (va : Nat) (line : Nat) :
    Keeps z (State.landedLine s core sp sig va line) := by
  unfold State.landedLine
  with_reducible repeat' first | assumption | apply State.noteWrite_keeps | apply State.keepSig_keeps | apply State.dropClean_keeps | split | apply Keeps.lit | dsimp only | intro _

theorem State.landOver_keeps {z s : State} (h : Keeps z s) (o : Owner) (r : Option BarRef) (words : List Nat) :
    Keeps z (State.landOver s o r words) := by
  unfold State.landOver
  with_reducible repeat' first | assumption | apply State.modStore_keeps | split | apply Keeps.lit | dsimp only | intro _

theorem moveCells_keeps {z s : State} (h : Keeps z s) (o : Owner) (c : Copy) (xs : List Cell) :
    Moved.Keeps z (moveCells s o c xs) := by
  unfold moveCells
  with_reducible repeat' first | assumption | apply Moved.Keeps.ok | apply State.l2Store_keeps | apply State.modStore_keeps | apply State.homeCells_keeps | apply reachLines_keeps | refine ExMovedKeeps.ofOk (by assumption) (reachLines_keeps ?_ _ _ _ _) | refine ExMovedKeeps.ofError (by assumption) (reachLines_keeps ?_ _ _ _ _) | apply readCells_keeps | refine ExMovedKeeps.ofOk (by assumption) (readCells_keeps ?_ _ _ _) | refine ExMovedKeeps.ofError (by assumption) (readCells_keeps ?_ _ _ _) | apply State.copySpoils_keeps | apply State.landedLine_keeps | apply State.landOver_keeps | refine Keeps.foldl (fun s x h => ?_) ?_ | split | apply Keeps.lit | trivial | dsimp only | intro _

theorem State.copyFault_keeps {z s : State} (h : Keeps z s) (o : Owner) (ch : Nat) (c : Copy) (off : Nat) (len : Nat) (a : Access) (f : TFault) :
    OptKeeps z (State.copyFault s o ch c off len a f) := by
  unfold State.copyFault
  with_reducible repeat' first | assumption | apply OptKeeps.some | apply OptKeeps.none | apply OptKeeps.map | apply State.count_keeps | apply State.retryFault_keeps | refine Retry.Keeps.ofWait (by assumption) (State.retryFault_keeps ?_ _ _ _ _ _ _) | refine Retry.Keeps.ofTerminal (by assumption) (State.retryFault_keeps ?_ _ _ _ _ _ _) | apply State.terminalFault_keeps | apply State.stopCopy_keeps | apply State.creditCopy_keeps | split | apply Keeps.lit | dsimp only | intro _

theorem execChannelBind_keeps {z s : State} (h : Keeps z s) (o : Owner) (ch : Nat) :
    OutKeeps z (execChannelBind o ch s) := by
  unfold execChannelBind
  with_reducible repeat' first | assumption | apply OptKeeps.some | apply OptKeeps.none | apply OptKeeps.map | apply agent_keeps | apply State.setChan_keeps | split | apply Keeps.lit | trivial | dsimp only | intro _

theorem execCopyStart_keeps {z s : State} (h : Keeps z s) (o : Owner) (ch : Nat) :
    OutKeeps z (execCopyStart o ch s) := by
  unfold execCopyStart
  with_reducible repeat' first | assumption | apply OptKeeps.some | apply OptKeeps.none | apply OptKeeps.map | apply agent_keeps | apply State.setChan_keeps | split | apply Keeps.lit | trivial | dsimp only | intro _

theorem State.deliverCopy_keeps {z s : State} (h : Keeps z s) (o : Owner) (ch : Nat) (c : Copy) (n : Nat) :
    OptKeeps z (State.deliverCopy s o ch c n) := by
  unfold State.deliverCopy
  with_reducible repeat' first | assumption | refine OptKeeps.mapOf (State.copyFault_keeps ?_ _ _ _ _ _ _ _) ?_ | apply OptKeeps.some | apply OptKeeps.none | apply OptKeeps.map | apply State.stopCopy_keeps | apply State.creditCopy_keeps | apply moveCells_keeps | refine Moved.Keeps.ofOk (by assumption) (moveCells_keeps ?_ _ _ _) | refine Moved.Keeps.ofFault (by assumption) (moveCells_keeps ?_ _ _ _) | apply State.copyFault_keeps | refine OptKeeps.getD (State.copyFault_keeps ?_ _ _ _ _ _ _ _) ?_ | refine OptKeeps.of (by assumption) (State.copyFault_keeps ?_ _ _ _ _ _ _ _) | split | apply Keeps.lit | dsimp only | intro _

theorem execCopyEngineTurn_keeps {z s : State} (h : Keeps z s) (o : Owner) (ch : Nat) :
    OutKeeps z (execCopyEngineTurn o ch s) := by
  unfold execCopyEngineTurn
  refine agent_keeps h _ ?_
  split
  · next c p _ _ =>
    split
    · have g : Keeps z { s with ceLast := s.ceLast.put (p / 16) p } := Keeps.lit h
      exact OptKeeps.getD (State.deliverCopy_keeps g _ _ _ _) g
    · trivial
  · trivial

theorem State.noteFix_keeps {z s : State} (h : Keeps z s) (x0 : Owner) :
    Keeps z (State.noteFix s x0) := by
  unfold State.noteFix
  with_reducible repeat' first | assumption | apply State.modLaunch_keeps | split | apply Keeps.lit | dsimp only | intro _

theorem State.replayFix_keeps {z s : State} (h : Keeps z s) (o : Owner) (ch : Nat) (c : Copy) (g : Segment) :
    OptKeeps z (State.replayFix s o ch c g) := by
  unfold State.replayFix
  with_reducible repeat' first | assumption | refine OptKeeps.mapOf (State.copyFault_keeps ?_ _ _ _ _ _ _ _) ?_ | apply OptKeeps.some | apply OptKeeps.none | apply OptKeeps.map | apply State.setChan_keeps | apply State.stopCopy_keeps | apply State.creditCopy_keeps | apply moveCells_keeps | refine Moved.Keeps.ofOk (by assumption) (moveCells_keeps ?_ _ _ _) | refine Moved.Keeps.ofFault (by assumption) (moveCells_keeps ?_ _ _ _) | apply State.copyFault_keeps | refine OptKeeps.getD (State.copyFault_keeps ?_ _ _ _ _ _ _ _) ?_ | refine OptKeeps.of (by assumption) (State.copyFault_keeps ?_ _ _ _ _ _ _ _) | apply State.noteFix_keeps | split | apply Keeps.lit | dsimp only | intro _

theorem execCopyFixupReplay_keeps {z s : State} (h : Keeps z s) (o : Owner) (ch : Nat) :
    OutKeeps z (execCopyFixupReplay o ch s) := by
  unfold execCopyFixupReplay
  with_reducible repeat' first | assumption | refine OptKeeps.mapOf (State.replayFix_keeps ?_ _ _ _ _) ?_ | apply OptKeeps.some | apply OptKeeps.none | apply OptKeeps.map | apply State.put_keeps | apply agent_keeps | apply State.replayFix_keeps | refine OptKeeps.getD (State.replayFix_keeps ?_ _ _ _ _) ?_ | refine OptKeeps.of (by assumption) (State.replayFix_keeps ?_ _ _ _ _) | split | apply Keeps.lit | trivial | dsimp only | intro _

theorem State.answerLink_keeps {z s : State} (h : Keeps z s) (link : Nat) (fail : Bool) :
    Keeps z (State.answerLink s link fail) := by
  unfold State.answerLink
  with_reducible repeat' first | assumption | apply State.endLaunch_keeps | apply State.stopCopy_keeps | refine Keeps.foldl (fun s x h => ?_) ?_ | split | apply Keeps.lit | dsimp only | intro _

/-! System -/

theorem State.tick_keeps {z s : State} (h : Keeps z s) (n : Nat) (high : Bool) :
    Keeps z (State.tick s n high) := by
  unfold State.tick
  with_reducible repeat' first | assumption | apply State.modHost_keeps | apply State.assertIrq_keeps | split | apply Keeps.lit | dsimp only | intro _

theorem execTimerAssert_keeps {z s : State} (h : Keeps z s) (n : Nat) (high : Bool) :
    OutKeeps z (execTimerAssert n high s) := by
  unfold execTimerAssert
  with_reducible repeat' first | assumption | apply OptKeeps.some | apply OptKeeps.none | apply OptKeeps.map | apply agent_keeps | apply State.tick_keeps | split | apply Keeps.lit | trivial | dsimp only | intro _

theorem State.accrue_keeps {z s : State} (h : Keeps z s) (n : Nat) (now : Nat) :
    Keeps z (State.accrue s n now) := by
  unfold State.accrue
  with_reducible repeat' first | assumption | apply State.count_keeps | apply State.modQuad_keeps | refine Keeps.foldl (fun s x h => ?_) ?_ | split | apply Keeps.lit | dsimp only | intro _

theorem State.accrueAll_keeps {z s : State} (h : Keeps z s)  :
    Keeps z (State.accrueAll s) := by
  unfold State.accrueAll
  with_reducible repeat' first | assumption | apply State.accrue_keeps | refine Keeps.foldl (fun s x h => ?_) ?_ | split | apply Keeps.lit | dsimp only | intro _

theorem State.writeGov_keeps {z s : State} (h : Keeps z s) (q : Nat) (v : Word) :
    Keeps z (State.writeGov s q v) := by
  unfold State.writeGov
  with_reducible repeat' first | assumption | apply State.modQuad_keeps | apply State.accrue_keeps | split | apply Keeps.lit | dsimp only | intro _

theorem State.writeFltresp_keeps {z s : State} (h : Keeps z s) (n : Nat) (v : Word) :
    Keeps z (State.writeFltresp s n v) := by
  unfold State.writeFltresp
  with_reducible repeat' first | assumption | apply State.modHost_keeps | apply State.answerLink_keeps | split | apply Keeps.lit | dsimp only | intro _

theorem State.sysWrite_keeps {z s : State} (h : Keeps z s) (n : Nat) (v : Word) : Keeps z (State.sysWrite s n v) := by
  unfold State.sysWrite
  extract_lets core eid
  refine Keeps.cond (Keeps.lit h) (Keeps.cond (Keeps.lit h) ?_)
  split
  · exact h
  · refine Keeps.cond (State.modCore_keeps h _ _) (Keeps.cond ?_ ?_)
    · extract_lets
      exact Keeps.lit h
    refine Keeps.cond (State.modHost_keeps h _ _) (Keeps.cond (State.modHost_keeps h _ _) (Keeps.cond (State.modHost_keeps h _ _)
      (Keeps.cond (State.modHost_keeps h _ _) (Keeps.cond (State.writeFltresp_keeps h _ _) (Keeps.cond (State.modHost_keeps h _ _)
        (Keeps.cond ?_ h))))))
    split
    · exact State.writeGov_keeps h _ _
    · exact h

theorem execSysrd_keeps {z s : State} (h : Keeps z s) (h : Hdr) (d : Opnd) (imm : BitVec 14) :
    OutKeeps z (execSysrd h d imm s) := by
  unfold execSysrd
  with_reducible repeat' first | assumption | apply Res.Keeps.ok | apply OptKeeps.some | apply OptKeeps.none | apply OptKeeps.map | apply State.postTo_keeps | apply issue_keeps | split | apply Keeps.lit | trivial | dsimp only | intro _

theorem execSyswr_keeps {z s : State} (h : Keeps z s) (hd : Hdr) (v : Opnd) (imm : BitVec 14) : OutKeeps z (execSyswr hd v imm s) := by
  refine issue_keeps h _ _ fun x g => ?_
  dsimp only
  split
  · next e => exact ⟨g.mem, fun y => absurd (g.chain y) (by rw [e]; exact Option.some_ne_none _)⟩
  · exact State.sysWrite_keeps g _ _

theorem execTsrd_keeps {z s : State} (h : Keeps z s) (h : Hdr) (d : Opnd) (f : Bool) :
    OutKeeps z (execTsrd h d f s) := by
  unfold execTsrd
  with_reducible repeat' first | assumption | apply Res.Keeps.ok | apply OptKeeps.some | apply OptKeeps.none | apply OptKeeps.map | apply State.postTo2_keeps | apply issue_keeps | split | apply Keeps.lit | trivial | dsimp only | intro _

theorem execEcall_keeps {z s : State} (h : Keeps z s) (h : Hdr) (imm : BitVec 14) :
    OutKeeps z (execEcall h imm s) := by
  unfold execEcall
  with_reducible repeat' first | assumption | apply Res.Keeps.trap | apply Res.Keeps.moved | apply OptKeeps.some | apply OptKeeps.none | apply OptKeeps.map | apply issue_keeps | apply State.ecall_keeps | split | apply Keeps.lit | trivial | dsimp only | intro _

theorem execEret_keeps {z s : State} (h : Keeps z s) (h : Hdr) :
    OutKeeps z (execEret h s) := by
  unfold execEret
  with_reducible repeat' first | assumption | apply Res.Keeps.trap | apply Res.Keeps.moved | apply OptKeeps.some | apply OptKeeps.none | apply OptKeeps.map | apply State.trapReturn_keeps | apply issue_keeps | split | apply Keeps.lit | trivial | dsimp only | intro _

theorem State.invalidate_keeps {z s : State} (h : Keeps z s) (t : Tlb → Bool) (l : Line → Bool) :
    Keeps z (State.invalidate s t l) := by
  unfold State.invalidate
  with_reducible repeat' first | assumption | apply State.evictLines_keeps | split | apply Keeps.lit | dsimp only | intro _

theorem execTlbi_keeps {z s : State} (h : Keeps z s) (h : Hdr) (a : Opnd) (b : Opnd) :
    OutKeeps z (execTlbi h a b s) := by
  unfold execTlbi
  with_reducible repeat' first | assumption | apply Res.Keeps.ok | apply Res.Keeps.trap | apply Res.Keeps.hold | apply OptKeeps.some | apply OptKeeps.none | apply OptKeeps.map | apply issue_keeps | apply State.release_keeps | apply State.invalidate_keeps | split | apply Keeps.lit | trivial | dsimp only | intro _

end Sys2Proof.Machine
end

