-- ==== Sys2Proof/Laws/KeepsEvents.lean ====
section
/-! SUPPORT. Every operation and meaning of the events' modules keeps canonical memory, and so does every instruction. -/

namespace Sys2Proof.Machine

/-! Engine -/

theorem execPassPost_keeps {z s : State} (h : Keeps z s) (core : Nat) :
    OutKeeps z (execPassPost core s) := by
  unfold execPassPost
  with_reducible repeat' first | assumption | apply OptKeeps.some | apply OptKeeps.none | apply OptKeeps.map | apply agent_keeps | apply State.modQuad_keeps | apply State.restamp_keeps | split | apply Keeps.lit | trivial | dsimp only | intro _

theorem execBReadStart_keeps {z s : State} (h : Keeps z s) (core : Nat) :
    OutKeeps z (execBReadStart core s) := by
  unfold execBReadStart
  with_reducible repeat' first | assumption | apply OptKeeps.some | apply OptKeeps.none | apply OptKeeps.map | apply State.endLaunch_keeps | apply agent_keeps | apply State.modQuad_keeps | apply State.restamp_keeps | split | apply Keeps.lit | trivial | dsimp only | intro _

theorem execBReadEnd_keeps {z s : State} (h : Keeps z s) (quad : Nat) :
    OutKeeps z (execBReadEnd quad s) := by
  unfold execBReadEnd
  with_reducible repeat' first | assumption | apply OptKeeps.some | apply OptKeeps.none | apply OptKeeps.map | apply agent_keeps | apply State.modQuad_keeps | apply State.restamp_keeps | apply State.start_keeps | split | apply Keeps.lit | trivial | dsimp only | intro _

theorem State.grantPass_keeps {z s : State} (h : Keeps z s) (quad : Nat) (p : Pass) (o : MxOp) :
    Keeps z (State.grantPass s quad p o) := by
  unfold State.grantPass
  with_reducible repeat' first | assumption | apply State.count_keeps | apply State.charge_keeps | apply State.endLaunch_keeps | apply State.modQuad_keeps | apply State.restamp_keeps | split | apply Keeps.lit | dsimp only | intro _

theorem execPassGrant_keeps {z s : State} (h : Keeps z s) (quad : Nat) :
    OutKeeps z (execPassGrant quad s) := by
  unfold execPassGrant
  with_reducible repeat' first | assumption | apply OptKeeps.some | apply OptKeeps.none | apply OptKeeps.map | apply agent_keeps | apply State.modQuad_keeps | apply State.accrue_keeps | apply State.grantPass_keeps | split | apply Keeps.lit | trivial | dsimp only | intro _

theorem State.updateTile_keeps {z s : State} (h : Keeps z s) (p : Pass) (o : MxOp) :
    Keeps z (State.updateTile s p o) := by
  unfold State.updateTile
  with_reducible repeat' first | assumption | apply State.modTeam_keeps | apply State.freeTiles_keeps | refine Keeps.foldl (fun s x h => ?_) ?_ | split | apply Keeps.lit | dsimp only | intro _

theorem State.finishOp_keeps {z s : State} (h : Keeps z s) (n : Nat) (o : MxOp) :
    Keeps z (State.finishOp s n o) := by
  unfold State.finishOp
  with_reducible repeat' first | assumption | apply State.freeTiles_keeps | split | apply Keeps.lit | dsimp only | intro _

theorem execPassComplete_keeps {z s : State} (h : Keeps z s) (quad : Nat) :
    OutKeeps z (execPassComplete quad s) := by
  unfold execPassComplete
  with_reducible repeat' first | assumption | apply OptKeeps.some | apply OptKeeps.none | apply OptKeeps.map | apply State.endLaunch_keeps | apply agent_keeps | apply State.grant_keeps | apply State.modQuad_keeps | apply State.restamp_keeps | apply State.updateTile_keeps | apply State.finishOp_keeps | split | apply Keeps.lit | trivial | dsimp only | intro _

theorem execGovernorWindow_keeps {z s : State} (h : Keeps z s) (quad : Nat) :
    OutKeeps z (execGovernorWindow quad s) := by
  unfold execGovernorWindow
  with_reducible repeat' first | assumption | apply OptKeeps.some | apply OptKeeps.none | apply OptKeeps.map | apply agent_keeps | apply State.modQuad_keeps | apply State.accrue_keeps | split | apply Keeps.lit | trivial | dsimp only | intro _

theorem execMgovcfgWrite_keeps {z s : State} (h : Keeps z s) (quad : Nat) (v : BitVec 32) :
    OutKeeps z (execMgovcfgWrite quad v s) := by
  unfold execMgovcfgWrite
  with_reducible repeat' first | assumption | apply OptKeeps.some | apply OptKeeps.none | apply OptKeeps.map | apply agent_keeps | apply State.writeGov_keeps | split | apply Keeps.lit | trivial | dsimp only | intro _

theorem State.endLoad_keeps {z s : State} (h : Keeps z s) (m : Move) :
    Keeps z (State.endLoad s m) := by
  unfold State.endLoad
  with_reducible repeat' first | assumption | apply State.modThread_keeps | apply State.endLaunch_keeps | apply State.freeTiles_keeps | apply State.setRows_keeps | split | apply Keeps.lit | dsimp only | intro _

theorem execMloadMovementEnd_keeps {z s : State} (h : Keeps z s) (core : Nat) :
    OutKeeps z (execMloadMovementEnd core s) := by
  unfold execMloadMovementEnd
  with_reducible repeat' first | assumption | apply OptKeeps.some | apply OptKeeps.none | apply OptKeeps.map | apply agent_keeps | apply State.startMove_keeps | apply State.endLoad_keeps | split | apply Keeps.lit | trivial | dsimp only | intro _

theorem State.giveStatic_keeps {z s : State} (h : Keeps z s) (core : Nat) (n : Nat) (clk : Nat) :
    Keeps z (State.giveStatic s core n clk) := by
  unfold State.giveStatic
  with_reducible repeat' first | assumption | apply State.count_keeps | apply State.chargeAt_keeps | refine Keeps.foldl (fun s x h => ?_) ?_ | split | apply Keeps.lit | dsimp only | intro _

theorem State.tickCore_keeps {z s : State} (h : Keeps z s) (core : Nat) :
    Keeps z (State.tickCore s core) := by
  unfold State.tickCore
  with_reducible repeat' first | assumption | apply State.modCore_keeps | apply State.giveStatic_keeps | split | apply Keeps.lit | dsimp only | intro _

theorem State.tickAll_keeps {z s : State} (h : Keeps z s)  :
    Keeps z (State.tickAll s) := by
  unfold State.tickAll
  with_reducible repeat' first | assumption | apply State.tickCore_keeps | refine Keeps.foldl (fun s x h => ?_) ?_ | split | apply Keeps.lit | dsimp only | intro _

theorem execEnergyTick_keeps {z s : State} (h : Keeps z s) (core : Nat) :
    OutKeeps z (execEnergyTick core s) := by
  unfold execEnergyTick
  with_reducible repeat' first | assumption | apply OptKeeps.some | apply OptKeeps.none | apply OptKeeps.map | apply agent_keeps | apply State.tickCore_keeps | split | apply Keeps.lit | trivial | dsimp only | intro _

/-! Events -/

theorem State.onThread_keeps {z s : State} (h : Keeps z s) (i : ThreadId) (f : State → State) (hf : ∀ x0, Keeps z x0 → Keeps z (f x0)) :
    Keeps z (State.onThread s i f) := by
  unfold State.onThread
  with_reducible repeat' first | assumption | refine OptKeeps.mapOf (State.switchTo_keeps ?_ _) ?_ | apply hf | apply State.switchTo_keeps | refine OptKeeps.getD (State.switchTo_keeps ?_ _) ?_ | refine OptKeeps.of (by assumption) (State.switchTo_keeps ?_ _) | split | apply Keeps.lit | dsimp only | intro _

theorem execInterlockedResultWrite_keeps {z s : State} (h : Keeps z s) (i : ThreadId) :
    OutKeeps z (execInterlockedResultWrite i s) := by
  unfold execInterlockedResultWrite
  with_reducible repeat' first | assumption | apply OptKeeps.some | apply OptKeeps.none | apply OptKeeps.map | apply State.setThread_keeps | apply agent_keeps | split | apply Keeps.lit | trivial | dsimp only | intro _

theorem execLineLeaseExpiry_keeps {z s : State} (h : Keeps z s) (core : Nat) (line : Nat) :
    OutKeeps z (execLineLeaseExpiry core line s) := by
  unfold execLineLeaseExpiry
  with_reducible repeat' first | assumption | apply OptKeeps.some | apply OptKeeps.none | apply OptKeeps.map | apply agent_keeps | apply State.evictLines_keeps | split | apply Keeps.lit | trivial | dsimp only | intro _

theorem execEpochRollover_keeps {z s : State} (h : Keeps z s) (core : Nat) :
    OutKeeps z (execEpochRollover core s) := by
  unfold execEpochRollover
  with_reducible repeat' first | assumption | apply OptKeeps.some | apply OptKeeps.none | apply OptKeeps.map | apply State.modCore_keeps | apply agent_keeps | split | apply Keeps.lit | trivial | dsimp only | intro _

theorem execWriteBack_keeps {z s : State} (h : Keeps z s) (core : Nat) (line : Nat) :
    OutKeeps z (execWriteBack core line s) := by
  unfold execWriteBack
  with_reducible repeat' first | assumption | apply OptKeeps.some | apply OptKeeps.none | apply OptKeeps.map | apply agent_keeps | apply State.cleanLines_keeps | split | apply Keeps.lit | trivial | dsimp only | intro _

theorem execL1Fill_keeps {z s : State} (h : Keeps z s) (core : Nat) (sp : Space) (va : BitVec 64) :
    OutKeeps z (execL1Fill core sp va s) := by
  unfold execL1Fill
  with_reducible repeat' first | assumption | apply OptKeeps.some | apply OptKeeps.none | apply OptKeeps.map | apply agent_keeps | apply translate_keeps | refine ExKeeps.of (by assumption) (translate_keeps ?_ _) | apply State.expireLeases_keeps | apply State.fillWhole_keeps | refine ExKeeps.of (by assumption) (State.fillWhole_keeps ?_ _ _ _) | apply State.terminalFault_keeps | split | apply Keeps.lit | trivial | dsimp only | intro _

theorem execCounterGrant_keeps {z s : State} (h : Keeps z s) (pa : Nat) :
    OutKeeps z (execCounterGrant pa s) := by
  unfold execCounterGrant
  with_reducible repeat' first | assumption | apply OptKeeps.some | apply OptKeeps.none | apply OptKeeps.map | apply agent_keeps | apply State.cleanLines_keeps | split | apply Keeps.lit | trivial | dsimp only | intro _

theorem execPageTableWalk_keeps {z s : State} (h : Keeps z s) (sp : Space) (va : BitVec 64) (kind : AccessKind) :
    OutKeeps z (execPageTableWalk sp va kind s) := by
  unfold execPageTableWalk
  with_reducible repeat' first | assumption | apply OptKeeps.some | apply OptKeeps.none | apply OptKeeps.map | apply agent_keeps | apply walk_keeps | refine ExKeeps.of (by assumption) (walk_keeps ?_ _) | apply State.terminalFault_keeps | split | apply Keeps.lit | trivial | dsimp only | intro _

theorem State.writeRecord_keeps {z s : State} (h : Keeps z s) (x : Rcb) (q : Queued) :
    Keeps z (State.writeRecord s x q) := by
  unfold State.writeRecord
  with_reducible repeat' first | assumption | apply State.put_keeps | apply State.keepSig_keeps | apply State.homeWrite_keeps | apply State.assertIrq_keeps | split | apply Keeps.lit | dsimp only | intro _

theorem execFaultRecordWrite_keeps {z s : State} (h : Keeps z s) (ring : Nat) :
    OutKeeps z (execFaultRecordWrite ring s) := by
  unfold execFaultRecordWrite
  with_reducible repeat' first | assumption | apply OptKeeps.some | apply OptKeeps.none | apply OptKeeps.map | apply agent_keeps | apply State.poisonFrame_keeps | apply State.writeRecord_keeps | split | apply Keeps.lit | trivial | dsimp only | intro _

theorem State.wakeFrom_keeps {z s : State} (h : Keeps z s) (s₀ : State) : Keeps z (State.wakeFrom s₀ s) := by
  unfold State.wakeFrom
  split
  · exact Keeps.lit h
  · exact h

theorem State.unlog_keeps {z s : State} (h : Keeps z s) (num : Nat) :
    Keeps z (State.unlog s num) := by
  unfold State.unlog
  with_reducible repeat' first | assumption | apply State.completeFences_keeps | apply State.wakeFrom_keeps | split | apply Keeps.lit | dsimp only | intro _

theorem replayTrap_keeps {z s : State} (h : Keeps z s) (va : Nat) (t : Trap) :
    Replayed.Keeps z (replayTrap s va t) := by
  unfold replayTrap
  with_reducible repeat' first | assumption | apply Replayed.Keeps.held | apply Replayed.Keeps.ended | apply State.modThread_keeps | apply State.endLaunch_keeps | split | apply Keeps.lit | trivial | dsimp only | intro _

theorem replayFault_keeps {z s : State} (h : Keeps z s) (a : Access) (f : TFault) :
    Replayed.Keeps z (replayFault s a f) := by
  unfold replayFault
  with_reducible repeat' first | assumption | apply Replayed.Keeps.again | apply Replayed.Keeps.held | apply Replayed.Keeps.ended | apply State.count_keeps | apply agent_keeps | apply State.retryFault_keeps | refine Retry.Keeps.ofWait (by assumption) (State.retryFault_keeps ?_ _ _ _ _ _ _) | refine Retry.Keeps.ofTerminal (by assumption) (State.retryFault_keeps ?_ _ _ _ _ _ _) | apply State.terminalFault_keeps | apply replayTrap_keeps | refine Replayed.Keeps.ofDone (by assumption) (replayTrap_keeps ?_ _ _) | refine Replayed.Keeps.ofAgain (by assumption) (replayTrap_keeps ?_ _ _) | refine Replayed.Keeps.ofEnded (by assumption) (replayTrap_keeps ?_ _ _) | split | apply Keeps.lit | trivial | dsimp only | intro _

theorem replaySpad_keeps {z s : State} (h : Keeps z s) (e : LogEntry) (o : Owner) :
    Replayed.Keeps z (replaySpad s e o) := by
  unfold replaySpad
  with_reducible repeat' first | assumption | apply Replayed.Keeps.done | apply Replayed.Keeps.held | apply State.modStore_keeps | apply State.deliver_keeps | apply replayTrap_keeps | refine Replayed.Keeps.ofDone (by assumption) (replayTrap_keeps ?_ _ _) | refine Replayed.Keeps.ofAgain (by assumption) (replayTrap_keeps ?_ _ _) | refine Replayed.Keeps.ofEnded (by assumption) (replayTrap_keeps ?_ _ _) | split | apply Keeps.lit | trivial | dsimp only | intro _

theorem replay_keeps {z s : State} (h : Keeps z s) (e : LogEntry) :
    Replayed.Keeps z (replay s e) := by
  unfold replay
  with_reducible repeat' first | assumption | apply MemRes.Keeps.ok | apply MemRes.Keeps.fault | apply MemRes.Keeps.device | apply Replayed.Keeps.done | apply Replayed.Keeps.held | apply State.l1Load_keeps | refine MemRes.Keeps.ofOk (by assumption) (State.l1Load_keeps ?_ _ _ _) | refine MemRes.Keeps.ofFault (by assumption) (State.l1Load_keeps ?_ _ _ _) | refine MemRes.Keeps.ofDevice (by assumption) (State.l1Load_keeps ?_ _ _ _) | apply State.l1Store_keeps | refine MemRes.Keeps.ofOk (by assumption) (State.l1Store_keeps ?_ _ _ _) | refine MemRes.Keeps.ofFault (by assumption) (State.l1Store_keeps ?_ _ _ _) | refine MemRes.Keeps.ofDevice (by assumption) (State.l1Store_keeps ?_ _ _ _) | apply State.gather_keeps | apply State.carryWith_keeps | apply State.ldc_keeps | refine MemRes.Keeps.ofOk (by assumption) (State.ldc_keeps ?_ _ _ _) | refine MemRes.Keeps.ofFault (by assumption) (State.ldc_keeps ?_ _ _ _) | refine MemRes.Keeps.ofDevice (by assumption) (State.ldc_keeps ?_ _ _ _) | apply State.orderBy_keeps | apply State.deviceStore_keeps | apply State.deliver_keeps | apply atomicNow_keeps | refine MemRes.Keeps.ofOk (by assumption) (atomicNow_keeps ?_ _ _ _ _ _) | refine MemRes.Keeps.ofFault (by assumption) (atomicNow_keeps ?_ _ _ _ _ _) | refine MemRes.Keeps.ofDevice (by assumption) (atomicNow_keeps ?_ _ _ _ _ _) | apply replayFault_keeps | refine Replayed.Keeps.ofDone (by assumption) (replayFault_keeps ?_ _ _) | refine Replayed.Keeps.ofAgain (by assumption) (replayFault_keeps ?_ _ _) | refine Replayed.Keeps.ofEnded (by assumption) (replayFault_keeps ?_ _ _) | apply replaySpad_keeps | refine Replayed.Keeps.ofDone (by assumption) (replaySpad_keeps ?_ _ _) | refine Replayed.Keeps.ofAgain (by assumption) (replaySpad_keeps ?_ _ _) | refine Replayed.Keeps.ofEnded (by assumption) (replaySpad_keeps ?_ _ _) | split | apply Keeps.lit | trivial | dsimp only | intro _

theorem State.replayEntry_keeps {z s : State} (h : Keeps z s) (e : LogEntry) :
    Keeps z (State.replayEntry s e) := by
  unfold State.replayEntry
  with_reducible repeat' first | assumption | apply State.unlog_keeps | apply replay_keeps | refine Replayed.Keeps.ofDone (by assumption) (replay_keeps ?_ _) | refine Replayed.Keeps.ofAgain (by assumption) (replay_keeps ?_ _) | refine Replayed.Keeps.ofEnded (by assumption) (replay_keeps ?_ _) | split | apply Keeps.lit | dsimp only | intro _

theorem execOperandLogReplay_keeps {z s : State} (h : Keeps z s) (n : Nat) :
    OutKeeps z (execOperandLogReplay n s) := by
  unfold execOperandLogReplay
  with_reducible repeat' first | assumption | apply OptKeeps.some | apply OptKeeps.none | apply OptKeeps.map | apply agent_keeps | apply State.onThread_keeps | apply State.replayEntry_keeps | split | apply Keeps.lit | trivial | dsimp only | intro _

theorem State.completeAll_keeps {z s : State} (h : Keeps z s)  :
    Keeps z (State.completeAll s) := by
  unfold State.completeAll
  with_reducible repeat' first | assumption | apply State.completeFences_keeps | apply State.onThread_keeps | apply State.wakeFrom_keeps | refine Keeps.foldl (fun s x h => ?_) ?_ | split | apply Keeps.lit | dsimp only | intro _

theorem State.serve_keeps {z s : State} (h : Keeps z s) (r : AtomReq) :
    Keeps z (State.serve s r) := by
  unfold State.serve
  with_reducible repeat' first | assumption | apply State.gather_keeps | apply State.carryWith_keeps | apply State.putLog_keeps | apply State.deliver_keeps | apply atomicNow_keeps | refine MemRes.Keeps.ofOk (by assumption) (atomicNow_keeps ?_ _ _ _ _ _) | refine MemRes.Keeps.ofFault (by assumption) (atomicNow_keeps ?_ _ _ _ _ _) | refine MemRes.Keeps.ofDevice (by assumption) (atomicNow_keeps ?_ _ _ _ _ _) | apply State.unlog_keeps | apply replayFault_keeps | refine Replayed.Keeps.ofDone (by assumption) (replayFault_keeps ?_ _ _) | refine Replayed.Keeps.ofAgain (by assumption) (replayFault_keeps ?_ _ _) | refine Replayed.Keeps.ofEnded (by assumption) (replayFault_keeps ?_ _ _) | split | apply Keeps.lit | dsimp only | intro _

theorem execAtomicUnitServe_keeps {z s : State} (h : Keeps z s) (slice : Nat) (bank : Nat) :
    OutKeeps z (execAtomicUnitServe slice bank s) := by
  unfold execAtomicUnitServe
  with_reducible repeat' first | assumption | apply OptKeeps.some | apply OptKeeps.none | apply OptKeeps.map | apply State.freshen_keeps | apply agent_keeps | apply State.onThread_keeps | apply State.serve_keeps | refine Keeps.foldl (fun s x h => ?_) ?_ | split | apply Keeps.lit | trivial | dsimp only | intro _

/-! Drains -/

theorem State.setDrain_keeps {z s : State} (h : Keeps z s) (d : Drain) :
    Keeps z (State.setDrain s d) := by
  unfold State.setDrain
  with_reducible repeat' first | assumption | split | apply Keeps.lit | dsimp only | intro _

theorem State.dropDrain_keeps {z s : State} (h : Keeps z s) (d : Drain) :
    Keeps z (State.dropDrain s d) := by
  unfold State.dropDrain
  with_reducible repeat' first | assumption | split | apply Keeps.lit | dsimp only | intro _

theorem State.endDrain_keeps {z s : State} (h : Keeps z s) (d : Drain) (t : Trap) :
    Keeps z (State.endDrain s d t) := by
  unfold State.endDrain
  with_reducible repeat' first | assumption | apply State.endLaunch_keeps | apply State.dropDrain_keeps | split | apply Keeps.lit | dsimp only | intro _

theorem drainFault_keeps {z s : State} (h : Keeps z s) (d : Drain) (a : Access) (f : TFault) :
    Landed.Keeps z (drainFault s d a f) := by
  unfold drainFault
  with_reducible repeat' first | assumption | apply Landed.Keeps.wait | apply Landed.Keeps.skip | apply Landed.Keeps.stop | apply State.retryFault_keeps | refine Retry.Keeps.ofWait (by assumption) (State.retryFault_keeps ?_ _ _ _ _ _ _) | refine Retry.Keeps.ofTerminal (by assumption) (State.retryFault_keeps ?_ _ _ _ _ _ _) | apply State.terminalFault_keeps | apply State.endDrain_keeps | split | apply Keeps.lit | trivial | dsimp only | intro _

theorem State.drainWrite_keeps {z s : State} (h : Keeps z s) (ds : List Drain) (line : Nat) (phys : Nat) :
    Keeps z (State.drainWrite s ds line phys) := by
  unfold State.drainWrite
  refine Keeps.foldl (fun s x h => ?_) h
  dsimp only
  split
  · exact h
  · refine State.landedLine_keeps (State.homeCells_keeps ?_ _) _ _ _ _ _
    split
    · exact State.l2Write_keeps h _
    · exact State.l2Store_keeps h _ _

/-- Whatever the failures and the continuation both hold, reaching a line holds. -/
theorem reachLine_ind {α : Type} {z s : State} {P : α → Prop} (h : Keeps z s) {d : Drain} {line : Nat} {fail : Landed → α}
    {k : State → Nat → α} (hf : ∀ l, Landed.Keeps z l → P (fail l)) (hk : ∀ t n, Keeps z t → P (k t n)) :
    P (reachLine s d line fail k) := by
  unfold reachLine
  dsimp only
  split
  · exact hf _ (State.endDrain_keeps h _ _)
  · split
    · exact hf _ (drainFault_keeps h _ _ _)
    · next e => exact hk _ _ (ExKeeps.of e (translate_keeps h _))

theorem landDrainLine_keeps {z s : State} (h : Keeps z s) (d : Drain) (line : Nat) : Landed.Keeps z (landDrainLine s d line) := by
  refine reachLine_ind h (fun _ hl => hl) fun t n ht => ?_
  split
  · trivial
  · split
    · exact drainFault_keeps ht _ _ _
    · exact State.drainWrite_keeps ht _ _ _

theorem landLines_keeps {z s : State} (h : Keeps z s) (d : Drain) (room : Nat) (l : List Nat) :
    PairKeeps z (landLines s d room l) := by
  induction l generalizing s room with
  | nil => exact h
  | cons x rest ih =>
    unfold landLines
    have g := landDrainLine_keeps h d x
    split
    · exact h
    · next e => exact Landed.Keeps.ofStop e g
    · next e => exact ih (Landed.Keeps.ofOk e g) _
    · next e =>
      have g := Landed.Keeps.ofSkip e g
      split
      · exact h
      · next r =>
        have g' := ih g r
        split
        · next e => rw [e] at g'; exact g'
        · next e => rw [e] at g'; exact g'

theorem State.creditDrain_keeps {z s : State} (h : Keeps z s) (d : Drain) :
    Keeps z (State.creditDrain s d) := by
  unfold State.creditDrain
  with_reducible repeat' first | assumption | refine OptKeeps.mapOf (State.engineCount_keeps ?_ _ _ _) ?_ | apply State.engineCount_keeps | refine OptKeeps.getD (State.engineCount_keeps ?_ _ _ _) ?_ | refine OptKeeps.of (by assumption) (State.engineCount_keeps ?_ _ _ _) | apply State.dropDrain_keeps | apply State.endDrain_keeps | refine Keeps.foldl (fun s x h => ?_) ?_ | split | apply Keeps.lit | dsimp only | intro _

theorem State.spadWrite_keeps {z s : State} (h : Keeps z s) (d : Drain) (banks : Nat → Bool) :
    Keeps z (State.spadWrite s d banks) := by
  unfold State.spadWrite
  with_reducible repeat' first | assumption | apply State.modStore_keeps | split | apply Keeps.lit | dsimp only | intro _

theorem landSpad_keeps {z s : State} (h : Keeps z s) (d : Drain) :
    Keeps z (landSpad s d) := by
  unfold landSpad
  with_reducible repeat' first | assumption | apply State.endDrain_keeps | apply State.creditDrain_keeps | apply State.spadWrite_keeps | split | apply Keeps.lit | dsimp only | intro _

theorem State.takeBank_keeps {z s : State} (h : Keeps z s) (d : Drain) (g : List Drain) :
    OptKeeps z (State.takeBank s d g) := by
  unfold State.takeBank
  with_reducible repeat' first | assumption | apply OptKeeps.some | apply OptKeeps.none | apply OptKeeps.map | apply State.setDrain_keeps | apply State.dropDrain_keeps | apply State.endDrain_keeps | apply State.creditDrain_keeps | apply State.spadWrite_keeps | refine Keeps.foldl (fun s x h => ?_) ?_ | split | apply Keeps.lit | dsimp only | intro _

theorem State.settleSpad_keeps {z s : State} (h : Keeps z s) (d : Drain) :
    OptKeeps z (State.settleSpad s d) := by
  unfold State.settleSpad
  with_reducible repeat' first | assumption | refine OptKeeps.mapOf (State.takeBank_keeps ?_ _ _) ?_ | apply OptKeeps.some | apply OptKeeps.none | apply OptKeeps.map | apply landSpad_keeps | apply State.takeBank_keeps | refine OptKeeps.getD (State.takeBank_keeps ?_ _ _) ?_ | refine OptKeeps.of (by assumption) (State.takeBank_keeps ?_ _ _) | split | apply Keeps.lit | dsimp only | intro _

theorem State.moveDrain_keeps {z s : State} (h : Keeps z s) (d : Drain) :
    OptKeeps z (State.moveDrain s d) := by
  unfold State.moveDrain
  with_reducible repeat' first | assumption | refine OptKeeps.mapOf (State.settleSpad_keeps ?_ _) ?_ | apply OptKeeps.some | apply OptKeeps.none | apply OptKeeps.map | apply State.startMove_keeps | apply State.setDrain_keeps | apply State.settleSpad_keeps | refine OptKeeps.getD (State.settleSpad_keeps ?_ _) ?_ | refine OptKeeps.of (by assumption) (State.settleSpad_keeps ?_ _) | apply plan_keeps | refine Plan.Keeps.ofOk (by assumption) (plan_keeps ?_ _ _ _ _ _ _) | refine Plan.Keeps.ofWait (by assumption) (plan_keeps ?_ _ _ _ _ _ _) | refine Plan.Keeps.ofBad (by assumption) (plan_keeps ?_ _ _ _ _ _ _) | split | apply Keeps.lit | dsimp only | intro _

theorem planLines_keeps {z s : State} (h : Keeps z s) (l : List (Drain × Nat)) : Planned.Keeps z (planLines s l) := by
  induction l generalizing s with
  | nil => exact h
  | cons x rest ih =>
    refine reachLine_ind h (fun l hl => ?_) fun t n ht => ?_
    · cases l with
      | ok _ => trivial
      | wait => trivial
      | skip _ _ => exact hl
      | stop _ => exact hl
    · have g := ih ht
      split
      · next e => rw [e] at g; exact g
      · exact g

theorem State.applyLine_keeps {z s : State} (h : Keeps z s) (d : Drain) (g : List Drain) (plan : List (Nat × Nat)) :
    OptKeeps z (State.applyLine s d g plan) := by
  unfold State.applyLine
  with_reducible repeat' first | assumption | apply OptKeeps.some | apply OptKeeps.none | apply OptKeeps.map | apply State.countSlice_keeps | apply State.setDrain_keeps | apply State.dropDrain_keeps | apply drainFault_keeps | refine Landed.Keeps.ofOk (by assumption) (drainFault_keeps ?_ _ _ _) | refine Landed.Keeps.ofSkip (by assumption) (drainFault_keeps ?_ _ _ _) | refine Landed.Keeps.ofStop (by assumption) (drainFault_keeps ?_ _ _ _) | apply State.drainWrite_keeps | apply State.creditDrain_keeps | apply plan_keeps | refine Plan.Keeps.ofOk (by assumption) (plan_keeps ?_ _ _ _ _ _ _) | refine Plan.Keeps.ofWait (by assumption) (plan_keeps ?_ _ _ _ _ _ _) | refine Plan.Keeps.ofBad (by assumption) (plan_keeps ?_ _ _ _ _ _ _) | refine Keeps.foldl (fun s x h => ?_) ?_ | split | apply Keeps.lit | dsimp only | intro _

theorem State.takeLine_keeps {z s : State} (h : Keeps z s) (d : Drain) (g : List Drain) (plan : List (Nat × Nat)) :
    OptKeeps z (State.takeLine s d g plan) := by
  unfold State.takeLine
  with_reducible repeat' first | assumption | refine OptKeeps.mapOf (State.applyLine_keeps ?_ _ _ _) ?_ | apply OptKeeps.some | apply OptKeeps.none | apply OptKeeps.map | apply State.setDrain_keeps | apply State.applyLine_keeps | refine OptKeeps.getD (State.applyLine_keeps ?_ _ _ _) ?_ | refine OptKeeps.of (by assumption) (State.applyLine_keeps ?_ _ _ _) | apply plan_keeps | refine Plan.Keeps.ofOk (by assumption) (plan_keeps ?_ _ _ _ _ _ _) | refine Plan.Keeps.ofWait (by assumption) (plan_keeps ?_ _ _ _ _ _ _) | refine Plan.Keeps.ofBad (by assumption) (plan_keeps ?_ _ _ _ _ _ _) | split | apply Keeps.lit | dsimp only | intro _

theorem State.addOnStore_keeps {z s : State} (h : Keeps z s) (d : Drain) :
    OptKeeps z (State.addOnStore s d) := by
  unfold State.addOnStore
  with_reducible repeat' first | assumption | refine OptKeeps.mapOf (State.takeLine_keeps ?_ _ _ _) ?_ | apply OptKeeps.some | apply OptKeeps.none | apply OptKeeps.map | apply State.setDrain_keeps | apply State.dropDrain_keeps | apply planLines_keeps | refine Planned.Keeps.ofOk (by assumption) (planLines_keeps ?_ _) | refine Planned.Keeps.ofSkip (by assumption) (planLines_keeps ?_ _) | refine Planned.Keeps.ofStop (by assumption) (planLines_keeps ?_ _) | apply State.takeLine_keeps | refine OptKeeps.getD (State.takeLine_keeps ?_ _ _ _) ?_ | refine OptKeeps.of (by assumption) (State.takeLine_keeps ?_ _ _ _) | refine Keeps.foldl (fun s x h => ?_) ?_ | split | apply Keeps.lit | dsimp only | intro _

theorem State.landDrain_keeps {z s : State} (h : Keeps z s) (d : Drain) :
    OptKeeps z (State.landDrain s d) := by
  unfold State.landDrain
  with_reducible repeat' first | assumption | apply OptKeeps.some | apply OptKeeps.none | apply OptKeeps.map | apply State.setDrain_keeps | apply landLines_keeps | refine PairKeeps.of (by assumption) (landLines_keeps ?_ _ _ _) | refine PairKeeps.fst (landLines_keeps ?_ _ _ _) | apply State.creditDrain_keeps | apply plan_keeps | refine Plan.Keeps.ofOk (by assumption) (plan_keeps ?_ _ _ _ _ _ _) | refine Plan.Keeps.ofWait (by assumption) (plan_keeps ?_ _ _ _ _ _ _) | refine Plan.Keeps.ofBad (by assumption) (plan_keeps ?_ _ _ _ _ _ _) | split | apply Keeps.lit | dsimp only | intro _

theorem execDrainComplete_keeps {z s : State} (h : Keeps z s) (n : Nat) :
    OutKeeps z (execDrainComplete n s) := by
  unfold execDrainComplete
  with_reducible repeat' first | assumption | refine OptKeeps.mapOf (State.landDrain_keeps ?_ _) ?_ | refine OptKeeps.mapOf (State.addOnStore_keeps ?_ _) ?_ | refine OptKeeps.mapOf (State.moveDrain_keeps ?_ _) ?_ | apply OptKeeps.some | apply OptKeeps.none | apply OptKeeps.map | apply agent_keeps | apply State.moveDrain_keeps | refine OptKeeps.getD (State.moveDrain_keeps ?_ _) ?_ | refine OptKeeps.of (by assumption) (State.moveDrain_keeps ?_ _) | apply State.addOnStore_keeps | refine OptKeeps.getD (State.addOnStore_keeps ?_ _) ?_ | refine OptKeeps.of (by assumption) (State.addOnStore_keeps ?_ _) | apply State.landDrain_keeps | refine OptKeeps.getD (State.landDrain_keeps ?_ _) ?_ | refine OptKeeps.of (by assumption) (State.landDrain_keeps ?_ _) | split | apply Keeps.lit | trivial | dsimp only | intro _

theorem execDrainFixupReplay_keeps {z s : State} (h : Keeps z s) (n : Nat) :
    OutKeeps z (execDrainFixupReplay n s) := by
  unfold execDrainFixupReplay
  with_reducible repeat' first | assumption | refine OptKeeps.mapOf (State.addOnStore_keeps ?_ _) ?_ | apply OptKeeps.some | apply OptKeeps.none | apply OptKeeps.map | apply agent_keeps | apply State.noteFix_keeps | apply State.setDrain_keeps | apply landDrainLine_keeps | refine Landed.Keeps.ofOk (by assumption) (landDrainLine_keeps ?_ _ _) | refine Landed.Keeps.ofSkip (by assumption) (landDrainLine_keeps ?_ _ _) | refine Landed.Keeps.ofStop (by assumption) (landDrainLine_keeps ?_ _ _) | apply State.creditDrain_keeps | apply State.addOnStore_keeps | refine OptKeeps.getD (State.addOnStore_keeps ?_ _) ?_ | refine OptKeeps.of (by assumption) (State.addOnStore_keeps ?_ _) | split | apply Keeps.lit | trivial | dsimp only | intro _

/-! Completion -/

theorem cpFault_keeps {z s : State} (h : Keeps z s) (lead : Nat) (a : Access) (f : TFault) :
    CpRead.Keeps z (cpFault s lead a f) := by
  unfold cpFault
  with_reducible repeat' first | assumption | apply CpRead.Keeps.wait | apply CpRead.Keeps.held | apply CpRead.Keeps.bad | apply agent_keeps | apply State.retryFault_keeps | refine Retry.Keeps.ofWait (by assumption) (State.retryFault_keeps ?_ _ _ _ _ _ _) | refine Retry.Keeps.ofTerminal (by assumption) (State.retryFault_keeps ?_ _ _ _ _ _ _) | apply State.terminalFault_keeps | split | apply Keeps.lit | trivial | dsimp only | intro _

theorem cpRead_keeps {z s : State} (h : Keeps z s) (lead : Nat) (sp : Space) (x0 : Nat) (x1 : Nat) (x2 : Nat) :
    CpRead.Keeps z (cpRead s lead sp x0 x1 x2) := by
  induction x0 generalizing s lead sp x1 x2 with
  | zero => unfold cpRead; with_reducible repeat' first | assumption | apply CpRead.Keeps.ok | apply CpRead.Keeps.bad | apply State.l2Read_keeps | apply translate_keeps | refine ExKeeps.of (by assumption) (translate_keeps ?_ _) | apply State.terminalFault_keeps | apply cpFault_keeps | refine CpRead.Keeps.ofOk (by assumption) (cpFault_keeps ?_ _ _ _) | refine CpRead.Keeps.ofWait (by assumption) (cpFault_keeps ?_ _ _ _) | refine CpRead.Keeps.ofBad (by assumption) (cpFault_keeps ?_ _ _ _) | apply ih | refine CpRead.Keeps.ofOk (by assumption) (ih ?_ _ _ _ _) | refine CpRead.Keeps.ofWait (by assumption) (ih ?_ _ _ _ _) | refine CpRead.Keeps.ofBad (by assumption) (ih ?_ _ _ _ _) | split | apply Keeps.lit | trivial | dsimp only | intro _
  | succ _ ih => unfold cpRead; with_reducible repeat' first | assumption | apply CpRead.Keeps.ok | apply CpRead.Keeps.bad | apply State.l2Read_keeps | apply translate_keeps | refine ExKeeps.of (by assumption) (translate_keeps ?_ _) | apply State.terminalFault_keeps | apply cpFault_keeps | refine CpRead.Keeps.ofOk (by assumption) (cpFault_keeps ?_ _ _ _) | refine CpRead.Keeps.ofWait (by assumption) (cpFault_keeps ?_ _ _ _) | refine CpRead.Keeps.ofBad (by assumption) (cpFault_keeps ?_ _ _ _) | apply ih | refine CpRead.Keeps.ofOk (by assumption) (ih ?_ _ _ _ _) | refine CpRead.Keeps.ofWait (by assumption) (ih ?_ _ _ _ _) | refine CpRead.Keeps.ofBad (by assumption) (ih ?_ _ _ _ _) | split | apply Keeps.lit | trivial | dsimp only | intro _

theorem writeSignal_keeps {z s : State} (h : Keeps z s) (lead : Nat) (sp : Space) (va : Nat) (bs : List Byte) (sig : Sig) :
    CpRead.Keeps z (writeSignal s lead sp va bs sig) := by
  unfold writeSignal
  with_reducible repeat' first | assumption | apply CpRead.Keeps.ok | apply CpRead.Keeps.held | apply CpRead.Keeps.bad | apply State.countSlice_keeps | apply translate_keeps | refine ExKeeps.of (by assumption) (translate_keeps ?_ _) | apply State.keepSig_keeps | apply State.homeStore_keeps | apply cpFault_keeps | refine CpRead.Keeps.ofOk (by assumption) (cpFault_keeps ?_ _ _ _) | refine CpRead.Keeps.ofWait (by assumption) (cpFault_keeps ?_ _ _ _) | refine CpRead.Keeps.ofBad (by assumption) (cpFault_keeps ?_ _ _ _) | split | apply Keeps.lit | trivial | dsimp only | intro _

theorem State.countHandle_keeps {z s : State} (h : Keeps z s) (lead : Nat) (sp : Space) (h : Nat) (sig : Sig) :
    Keeps z (State.countHandle s lead sp h sig) := by
  unfold State.countHandle
  with_reducible repeat' first | assumption | refine OptKeeps.mapOf (State.engineCount_keeps ?_ _ _ _) ?_ | apply State.terminalRecord_keeps | apply State.engineCount_keeps | refine OptKeeps.getD (State.engineCount_keeps ?_ _ _ _) ?_ | refine OptKeeps.of (by assumption) (State.engineCount_keeps ?_ _ _ _) | split | apply Keeps.lit | dsimp only | intro _

theorem State.releaseContext_keeps {z s : State} (h : Keeps z s) (sp : Space) :
    PairKeeps z (State.releaseContext s sp) := by
  unfold State.releaseContext
  with_reducible repeat' first | assumption | apply State.cleanLines_keeps | refine Keeps.foldl (fun s x h => ?_) ?_ | split | apply Keeps.lit | dsimp only | intro _ | apply PairKeeps.mk

theorem State.closeLaunch_keeps {z s : State} (h : Keeps z s) (n : Nat) (l : Launch) (sig : Sig) :
    Keeps z (State.closeLaunch s n l sig) := by
  unfold State.closeLaunch
  with_reducible repeat' first | assumption | apply State.put_keeps | split | apply Keeps.lit | dsimp only | intro _

theorem State.finishLaunch_keeps {z s : State} (h : Keeps z s) (n : Nat) (l : Launch) :
    OptKeeps z (State.finishLaunch s n l) := by
  unfold State.finishLaunch
  with_reducible repeat' first | assumption | apply OptKeeps.some | apply OptKeeps.none | apply OptKeeps.map | apply State.modLaunch_keeps | apply writeSignal_keeps | refine CpRead.Keeps.ofOk (by assumption) (writeSignal_keeps ?_ _ _ _ _ _) | refine CpRead.Keeps.ofWait (by assumption) (writeSignal_keeps ?_ _ _ _ _ _) | refine CpRead.Keeps.ofBad (by assumption) (writeSignal_keeps ?_ _ _ _ _ _) | apply State.countHandle_keeps | apply State.releaseContext_keeps | refine PairKeeps.of (by assumption) (State.releaseContext_keeps ?_ _) | refine PairKeeps.fst (State.releaseContext_keeps ?_ _) | apply State.closeLaunch_keeps | apply State.start_keeps | split | apply Keeps.lit | dsimp only | intro _

theorem State.settleTeam_keeps {z s : State} (h : Keeps z s) (team : Nat) :
    Keeps z (State.settleTeam s team) := by
  unfold State.settleTeam
  with_reducible repeat' first | assumption | apply State.freshen_keeps | apply State.onThread_keeps | apply State.replayEntry_keeps | apply State.serve_keeps | refine Keeps.foldl (fun s x h => ?_) ?_ | split | apply Keeps.lit | dsimp only | intro _

theorem State.lastPieces_keeps {z s : State} (h : Keeps z s) (o : Owner) (ch : Nat) :
    Keeps z (State.lastPieces s o ch) := by
  unfold State.lastPieces
  with_reducible repeat' first | assumption | apply moveCells_keeps | refine Moved.Keeps.ofOk (by assumption) (moveCells_keeps ?_ _ _ _) | refine Moved.Keeps.ofFault (by assumption) (moveCells_keeps ?_ _ _ _) | split | apply Keeps.lit | dsimp only | intro _

theorem State.lastOfDrain_keeps {z s : State} (h : Keeps z s) (d : Drain) :
    Keeps z (State.lastOfDrain s d) := by
  unfold State.lastOfDrain
  with_reducible repeat' first | assumption | apply landLines_keeps | refine PairKeeps.of (by assumption) (landLines_keeps ?_ _ _ _) | refine PairKeeps.fst (landLines_keeps ?_ _ _ _) | apply landSpad_keeps | split | apply Keeps.lit | dsimp only | intro _

theorem State.stopTeam_keeps {z s : State} (h : Keeps z s) (team : Nat) :
    Keeps z (State.stopTeam s team) := by
  unfold State.stopTeam
  with_reducible repeat' first | assumption | apply State.freshen_keeps | apply State.lastPieces_keeps | apply State.lastOfDrain_keeps | refine Keeps.foldl (fun s x h => ?_) ?_ | split | apply Keeps.lit | dsimp only | intro _

/-! Enclave -/

theorem loadBytes_keeps {z s : State} (h : Keeps z s) (core : Nat) (sp : Space) (x0 : Nat) (x1 : Nat) (x2 : Nat) :
    MemRes.Keeps z (loadBytes s core sp x0 x1 x2) := by
  induction x0 generalizing s core sp x1 x2 with
  | zero => unfold loadBytes; with_reducible repeat' first | assumption | apply MemRes.Keeps.ok | apply State.l1Load_keeps | refine MemRes.Keeps.ofOk (by assumption) (State.l1Load_keeps ?_ _ _ _) | refine MemRes.Keeps.ofFault (by assumption) (State.l1Load_keeps ?_ _ _ _) | refine MemRes.Keeps.ofDevice (by assumption) (State.l1Load_keeps ?_ _ _ _) | apply ih | refine MemRes.Keeps.ofOk (by assumption) (ih ?_ _ _ _ _) | refine MemRes.Keeps.ofFault (by assumption) (ih ?_ _ _ _ _) | refine MemRes.Keeps.ofDevice (by assumption) (ih ?_ _ _ _ _) | split | apply Keeps.lit | dsimp only | intro _
  | succ _ ih => unfold loadBytes; with_reducible repeat' first | assumption | apply MemRes.Keeps.ok | apply State.l1Load_keeps | refine MemRes.Keeps.ofOk (by assumption) (State.l1Load_keeps ?_ _ _ _) | refine MemRes.Keeps.ofFault (by assumption) (State.l1Load_keeps ?_ _ _ _) | refine MemRes.Keeps.ofDevice (by assumption) (State.l1Load_keeps ?_ _ _ _) | apply ih | refine MemRes.Keeps.ofOk (by assumption) (ih ?_ _ _ _ _) | refine MemRes.Keeps.ofFault (by assumption) (ih ?_ _ _ _ _) | refine MemRes.Keeps.ofDevice (by assumption) (ih ?_ _ _ _ _) | split | apply Keeps.lit | dsimp only | intro _

theorem probeBytes_keeps {z s : State} (h : Keeps z s) (sp : Space) (x0 : Nat) (x1 : Nat) (x2 : Nat) :
    MemRes.Keeps z (probeBytes s sp x0 x1 x2) := by
  induction x0 generalizing s sp x1 x2 with
  | zero => unfold probeBytes; with_reducible repeat' first | assumption | apply MemRes.Keeps.ok | apply MemRes.Keeps.fault | apply translate_keeps | refine ExKeeps.of (by assumption) (translate_keeps ?_ _) | apply ih | refine MemRes.Keeps.ofOk (by assumption) (ih ?_ _ _ _) | refine MemRes.Keeps.ofFault (by assumption) (ih ?_ _ _ _) | refine MemRes.Keeps.ofDevice (by assumption) (ih ?_ _ _ _) | split | apply Keeps.lit | dsimp only | intro _
  | succ _ ih => unfold probeBytes; with_reducible repeat' first | assumption | apply MemRes.Keeps.ok | apply MemRes.Keeps.fault | apply translate_keeps | refine ExKeeps.of (by assumption) (translate_keeps ?_ _) | apply ih | refine MemRes.Keeps.ofOk (by assumption) (ih ?_ _ _ _) | refine MemRes.Keeps.ofFault (by assumption) (ih ?_ _ _ _) | refine MemRes.Keeps.ofDevice (by assumption) (ih ?_ _ _ _) | split | apply Keeps.lit | dsimp only | intro _

theorem putBytes_keeps {z s : State} (h : Keeps z s) (core : Nat) (sp : Space) (x0 : Nat) (x1 : Nat) (x2 : List Byte) :
    MemRes.Keeps z (putBytes s core sp x0 x1 x2) := by
  induction x0 generalizing s core sp x1 x2 with
  | zero => unfold putBytes; with_reducible repeat' first | assumption | apply MemRes.Keeps.ok | apply State.l1Store_keeps | refine MemRes.Keeps.ofOk (by assumption) (State.l1Store_keeps ?_ _ _ _) | refine MemRes.Keeps.ofFault (by assumption) (State.l1Store_keeps ?_ _ _ _) | refine MemRes.Keeps.ofDevice (by assumption) (State.l1Store_keeps ?_ _ _ _) | apply ih | refine MemRes.Keeps.ofOk (by assumption) (ih ?_ _ _ _ _) | refine MemRes.Keeps.ofFault (by assumption) (ih ?_ _ _ _ _) | refine MemRes.Keeps.ofDevice (by assumption) (ih ?_ _ _ _ _) | split | apply Keeps.lit | dsimp only | intro _
  | succ _ ih => unfold putBytes; with_reducible repeat' first | assumption | apply MemRes.Keeps.ok | apply State.l1Store_keeps | refine MemRes.Keeps.ofOk (by assumption) (State.l1Store_keeps ?_ _ _ _) | refine MemRes.Keeps.ofFault (by assumption) (State.l1Store_keeps ?_ _ _ _) | refine MemRes.Keeps.ofDevice (by assumption) (State.l1Store_keeps ?_ _ _ _) | apply ih | refine MemRes.Keeps.ofOk (by assumption) (ih ?_ _ _ _ _) | refine MemRes.Keeps.ofFault (by assumption) (ih ?_ _ _ _ _) | refine MemRes.Keeps.ofDevice (by assumption) (ih ?_ _ _ _ _) | split | apply Keeps.lit | dsimp only | intro _

theorem bufferFault_keeps {z s : State} (h : Keeps z s) (a : Access) (f : TFault) :
    Res.Keeps z (bufferFault s a f) := by
  unfold bufferFault
  with_reducible repeat' first | assumption | apply threadFault_keeps | refine Res.Keeps.ofOk (by assumption) (threadFault_keeps ?_ _ _ _) | refine Res.Keeps.ofTrap (by assumption) (threadFault_keeps ?_ _ _ _) | refine Res.Keeps.ofGoto (by assumption) (threadFault_keeps ?_ _ _ _) | refine Res.Keeps.ofMoved (by assumption) (threadFault_keeps ?_ _ _ _) | refine Res.Keeps.ofStall (by assumption) (threadFault_keeps ?_ _ _ _) | refine Res.Keeps.ofTargetStall (by assumption) (threadFault_keeps ?_ _ _ _) | refine Res.Keeps.ofTargetTrap (by assumption) (threadFault_keeps ?_ _ _ _) | split | apply Keeps.lit | trivial | dsimp only | intro _

theorem withBuffer_keeps {z s : State} (h : Keeps z s) (va : Nat) (n : Nat) (align : Nat) (k : State → List Byte → Res) (hk : ∀ x0 x1, Keeps z x0 → Res.Keeps z (k x0 x1)) :
    Res.Keeps z (withBuffer s va n align k) := by
  unfold withBuffer
  with_reducible repeat' first | assumption | apply hk | apply Res.Keeps.ok | apply Res.Keeps.trap | apply loadBytes_keeps | refine MemRes.Keeps.ofOk (by assumption) (loadBytes_keeps ?_ _ _ _ _ _) | refine MemRes.Keeps.ofFault (by assumption) (loadBytes_keeps ?_ _ _ _ _ _) | refine MemRes.Keeps.ofDevice (by assumption) (loadBytes_keeps ?_ _ _ _ _ _) | apply bufferFault_keeps | refine Res.Keeps.ofOk (by assumption) (bufferFault_keeps ?_ _ _) | refine Res.Keeps.ofTrap (by assumption) (bufferFault_keeps ?_ _ _) | refine Res.Keeps.ofGoto (by assumption) (bufferFault_keeps ?_ _ _) | refine Res.Keeps.ofMoved (by assumption) (bufferFault_keeps ?_ _ _) | refine Res.Keeps.ofStall (by assumption) (bufferFault_keeps ?_ _ _) | refine Res.Keeps.ofTargetStall (by assumption) (bufferFault_keeps ?_ _ _) | refine Res.Keeps.ofTargetTrap (by assumption) (bufferFault_keeps ?_ _ _) | split | apply Keeps.lit | trivial | dsimp only | intro _

theorem storeBuffer_keeps {z s : State} (h : Keeps z s) (va : Nat) (bs : List Byte) (k : State → Res) (hk : ∀ x0, Keeps z x0 → Res.Keeps z (k x0)) :
    Res.Keeps z (storeBuffer s va bs k) := by
  unfold storeBuffer
  with_reducible repeat' first | assumption | apply hk | apply Res.Keeps.ok | apply Res.Keeps.trap | apply probeBytes_keeps | refine MemRes.Keeps.ofOk (by assumption) (probeBytes_keeps ?_ _ _ _ _) | refine MemRes.Keeps.ofFault (by assumption) (probeBytes_keeps ?_ _ _ _ _) | refine MemRes.Keeps.ofDevice (by assumption) (probeBytes_keeps ?_ _ _ _ _) | apply putBytes_keeps | refine MemRes.Keeps.ofOk (by assumption) (putBytes_keeps ?_ _ _ _ _ _) | refine MemRes.Keeps.ofFault (by assumption) (putBytes_keeps ?_ _ _ _ _ _) | refine MemRes.Keeps.ofDevice (by assumption) (putBytes_keeps ?_ _ _ _ _ _) | apply bufferFault_keeps | refine Res.Keeps.ofOk (by assumption) (bufferFault_keeps ?_ _ _) | refine Res.Keeps.ofTrap (by assumption) (bufferFault_keeps ?_ _ _) | refine Res.Keeps.ofGoto (by assumption) (bufferFault_keeps ?_ _ _) | refine Res.Keeps.ofMoved (by assumption) (bufferFault_keeps ?_ _ _) | refine Res.Keeps.ofStall (by assumption) (bufferFault_keeps ?_ _ _) | refine Res.Keeps.ofTargetStall (by assumption) (bufferFault_keeps ?_ _ _) | refine Res.Keeps.ofTargetTrap (by assumption) (bufferFault_keeps ?_ _ _) | split | apply Keeps.lit | trivial | dsimp only | intro _

theorem answer_keeps {z s : State} (h : Keeps z s) (d : Opnd) (x : Status) :
    Res.Keeps z (answer s d x) := by
  unfold answer
  with_reducible repeat' first | assumption | apply Res.Keeps.ok | apply State.postTo_keeps | split | apply Keeps.lit | trivial | dsimp only | intro _

theorem State.moveFrame_keeps {z s : State} (h : Keeps z s) (frame : Nat) (p : Pot) :
    Keeps z (State.moveFrame s frame p) := by
  unfold State.moveFrame
  with_reducible repeat' first | assumption | apply State.setPot_keeps | apply State.recall_keeps | split | apply Keeps.lit | dsimp only | intro _

theorem State.putEntry_keeps {z s : State} (h : Keeps z s) (a : Nat) (e : Nat) :
    Keeps z (State.putEntry s a e) := by
  unfold State.putEntry
  with_reducible repeat' first | assumption | apply State.poisonFrame_keeps | apply State.homeWrite_keeps | split | apply Keeps.lit | dsimp only | intro _

theorem takeFrame_keeps {z s : State} (h : Keeps z s) (eid : Nat) (guest : Byte) (slot : Byte) (p : EcdPage) :
    Keeps z (takeFrame s eid guest slot p) := by
  unfold takeFrame
  with_reducible repeat' first | assumption | apply State.scrubFrame_keeps | apply State.homeWrite_keeps | apply State.moveFrame_keeps | split | apply Keeps.lit | dsimp only | intro _

theorem buildTables_keeps {z s : State} (h : Keeps z s) (x : Ecd) (lead : Nat) (queues : List Nat) :
    Keeps z (buildTables s x lead queues) := by
  unfold buildTables
  with_reducible repeat' first | assumption | apply State.putEntry_keeps | refine Keeps.foldl (fun s x h => ?_) ?_ | split | apply Keeps.lit | dsimp only | intro _

theorem State.create_keeps {z s : State} (h : Keeps z s) (bs : List Byte) (x : Ecd) (eid : Nat) (slot : Nat) (att : Nat) (lead : Nat) (queues : List Nat) :
    Keeps z (State.create s bs x eid slot att lead queues) := by
  unfold State.create
  with_reducible repeat' first | assumption | apply State.put_keeps | apply takeFrame_keeps | apply buildTables_keeps | refine Keeps.foldl (fun s x h => ?_) ?_ | split | apply Keeps.lit | dsimp only | intro _

theorem execEcreate_keeps {z s : State} (h : Keeps z s) (h : Hdr) (d : Opnd) (a : Opnd) :
    OutKeeps z (execEcreate h d a s) := by
  unfold execEcreate
  with_reducible repeat' first | assumption | apply Res.Keeps.ok | apply Res.Keeps.hold | apply OptKeeps.some | apply OptKeeps.none | apply OptKeeps.map | apply State.postTo_keeps | apply issue_keeps | apply State.poisonFrame_keeps | apply State.recall_keeps | apply withBuffer_keeps | refine Res.Keeps.ofOk (by assumption) (withBuffer_keeps ?_ _ _ _ _ ?_) | refine Res.Keeps.ofTrap (by assumption) (withBuffer_keeps ?_ _ _ _ _ ?_) | refine Res.Keeps.ofGoto (by assumption) (withBuffer_keeps ?_ _ _ _ _ ?_) | refine Res.Keeps.ofMoved (by assumption) (withBuffer_keeps ?_ _ _ _ _ ?_) | refine Res.Keeps.ofStall (by assumption) (withBuffer_keeps ?_ _ _ _ _ ?_) | refine Res.Keeps.ofTargetStall (by assumption) (withBuffer_keeps ?_ _ _ _ _ ?_) | refine Res.Keeps.ofTargetTrap (by assumption) (withBuffer_keeps ?_ _ _ _ _ ?_) | apply State.create_keeps | refine Keeps.foldl (fun s x h => ?_) ?_ | split | apply Keeps.lit | trivial | dsimp only | intro _

theorem State.unsealHostChans_keeps {z s : State} (h : Keeps z s) (n : Nat) (eid : Nat) (idx : Nat) :
    Keeps z (State.unsealHostChans s n eid idx) := by
  unfold State.unsealHostChans
  with_reducible repeat' first | assumption | apply State.modHost_keeps | apply State.modEncl_keeps | apply State.put_keeps | apply State.settleCeown_keeps | refine Keeps.foldl (fun s x h => ?_) ?_ | split | apply Keeps.lit | dsimp only | intro _

theorem execEenter_keeps {z s : State} (h : Keeps z s) (h : Hdr) (a : Opnd) (b : Opnd) :
    OutKeeps z (execEenter h a b s) := by
  unfold execEenter
  with_reducible repeat' first | assumption | apply Res.Keeps.trap | apply Res.Keeps.hold | apply Res.Keeps.moved | apply OptKeeps.some | apply OptKeeps.none | apply OptKeeps.map | apply State.modHost_keeps | apply State.asyncExit_keeps | apply issue_keeps | apply State.freshCode_keeps | apply State.unsealHostChans_keeps | split | apply Keeps.lit | trivial | dsimp only | intro _

theorem execEexit_keeps {z s : State} (h : Keeps z s) (h : Hdr) :
    OutKeeps z (execEexit h s) := by
  unfold execEexit
  with_reducible repeat' first | assumption | apply Res.Keeps.trap | apply Res.Keeps.moved | apply OptKeeps.some | apply OptKeeps.none | apply OptKeeps.map | apply State.modHost_keeps | apply State.modEncl_keeps | apply State.put_keeps | apply issue_keeps | split | apply Keeps.lit | trivial | dsimp only | intro _

theorem State.noteRequest_keeps {z s : State} (h : Keeps z s) (eid : Nat) (host : Nat) (data : List Byte) :
    Keeps z (State.noteRequest s eid host data) := by
  unfold State.noteRequest
  with_reducible repeat' first | assumption | split | apply Keeps.lit | dsimp only | intro _

theorem execEreport_keeps {z s : State} (h : Keeps z s) (h : Hdr) (d : Opnd) (a : Opnd) :
    OutKeeps z (execEreport h d a s) := by
  unfold execEreport
  with_reducible repeat' first | assumption | apply Res.Keeps.ok | apply Res.Keeps.trap | apply OptKeeps.some | apply OptKeeps.none | apply OptKeeps.map | apply State.modEncl_keeps | apply State.postTo_keeps | apply issue_keeps | apply withBuffer_keeps | refine Res.Keeps.ofOk (by assumption) (withBuffer_keeps ?_ _ _ _ _ ?_) | refine Res.Keeps.ofTrap (by assumption) (withBuffer_keeps ?_ _ _ _ _ ?_) | refine Res.Keeps.ofGoto (by assumption) (withBuffer_keeps ?_ _ _ _ _ ?_) | refine Res.Keeps.ofMoved (by assumption) (withBuffer_keeps ?_ _ _ _ _ ?_) | refine Res.Keeps.ofStall (by assumption) (withBuffer_keeps ?_ _ _ _ _ ?_) | refine Res.Keeps.ofTargetStall (by assumption) (withBuffer_keeps ?_ _ _ _ _ ?_) | refine Res.Keeps.ofTargetTrap (by assumption) (withBuffer_keeps ?_ _ _ _ _ ?_) | apply storeBuffer_keeps | refine Res.Keeps.ofOk (by assumption) (storeBuffer_keeps ?_ _ _ _ ?_) | refine Res.Keeps.ofTrap (by assumption) (storeBuffer_keeps ?_ _ _ _ ?_) | refine Res.Keeps.ofGoto (by assumption) (storeBuffer_keeps ?_ _ _ _ ?_) | refine Res.Keeps.ofMoved (by assumption) (storeBuffer_keeps ?_ _ _ _ ?_) | refine Res.Keeps.ofStall (by assumption) (storeBuffer_keeps ?_ _ _ _ ?_) | refine Res.Keeps.ofTargetStall (by assumption) (storeBuffer_keeps ?_ _ _ _ ?_) | refine Res.Keeps.ofTargetTrap (by assumption) (storeBuffer_keeps ?_ _ _ _ ?_) | apply State.noteRequest_keeps | split | apply Keeps.lit | trivial | dsimp only | intro _

theorem State.scrubFor_keeps {z s : State} (h : Keeps z s) (frame : Nat) (guest : Byte) (slot : Byte) (eid : Nat) :
    Keeps z (State.scrubFor s frame guest slot eid) := by
  unfold State.scrubFor
  with_reducible repeat' first | assumption | apply State.moveFrame_keeps | split | apply Keeps.lit | dsimp only | intro _

theorem State.revoke_keeps {z s : State} (h : Keeps z s) (k : Byte) :
    Keeps z (State.revoke s k) := by
  unfold State.revoke
  with_reducible repeat' first | assumption | apply State.put_keeps | apply State.invalidate_keeps | split | apply Keeps.lit | dsimp only | intro _

theorem State.dropTeam_keeps {z s : State} (h : Keeps z s) (team : Nat) :
    Keeps z (State.dropTeam s team) := by
  unfold State.dropTeam
  with_reducible repeat' first | assumption | apply State.put_keeps | apply State.settleCeown_keeps | split | apply Keeps.lit | dsimp only | intro _

theorem State.endTeam_keeps {z s : State} (h : Keeps z s) (team : Nat) :
    Keeps z (State.endTeam s team) := by
  unfold State.endTeam
  with_reducible repeat' first | assumption | apply State.settleTeam_keeps | apply State.stopTeam_keeps | apply State.dropTeam_keeps | split | apply Keeps.lit | dsimp only | intro _

theorem State.settleBusy_keeps {z s : State} (h : Keeps z s)  :
    Keeps z (State.settleBusy s) := by
  unfold State.settleBusy
  with_reducible repeat' first | assumption | split | apply Keeps.lit | dsimp only | intro _

theorem State.killTeams_keeps {z s : State} (h : Keeps z s) (eid : Nat) (onCore : Nat → Bool) :
    Keeps z (State.killTeams s eid onCore) := by
  unfold State.killTeams
  with_reducible repeat' first | assumption | apply State.endLaunch_keeps | apply State.endTeam_keeps | refine Keeps.foldl (fun s x h => ?_) ?_ | split | apply Keeps.lit | dsimp only | intro _

theorem State.endLaunches_keeps {z s : State} (h : Keeps z s) (eid : Nat) : OptKeeps z (State.endLaunches s eid) := by
  have hf (l : List (Nat × Launch)) : ∀ r, OptKeeps z r → OptKeeps z (l.foldl (fun (r : Option State) p => r.bind fun s =>
      match s.launches.find p.1 with
      | some l => s.finishLaunch p.1 { l with mute := l.mute || l.waits.isSome }
      | none => some s) r) := by
    induction l with
    | nil => exact fun r hr => hr
    | cons x rest ih =>
      refine fun r hr => ih _ ?_
      cases r with
      | none => trivial
      | some t =>
        dsimp only [Option.bind]
        split
        · exact State.finishLaunch_keeps hr _ _
        · exact hr
  unfold State.endLaunches
  dsimp only
  split
  · trivial
  · refine hf _ _ (State.killTeams_keeps (Keeps.foldl (fun s x h => State.endLaunch_keeps h _ _) ?_) _ _)
    with_reducible first | assumption | exact Keeps.lit h

theorem State.destroyed_keeps {z s : State} (h : Keeps z s) (eid : Nat) (e : Encl) :
    Keeps z (State.destroyed s eid e) := by
  unfold State.destroyed
  with_reducible repeat' first | assumption | apply State.put_keeps | apply State.asyncExit_keeps | apply State.scrubFor_keeps | apply State.revoke_keeps | refine Keeps.foldl (fun s x h => ?_) ?_ | split | apply Keeps.lit | dsimp only | intro _

theorem State.destroy_keeps {z s : State} (h : Keeps z s) (eid : Nat) (e : Encl) :
    OptKeeps z (State.destroy s eid e) := by
  unfold State.destroy
  with_reducible repeat' first | assumption | refine OptKeeps.mapOf (State.endLaunches_keeps ?_ _) ?_ | apply OptKeeps.some | apply OptKeeps.none | apply OptKeeps.map | apply State.endLaunches_keeps | refine OptKeeps.getD (State.endLaunches_keeps ?_ _) ?_ | refine OptKeeps.of (by assumption) (State.endLaunches_keeps ?_ _) | apply State.destroyed_keeps | split | apply Keeps.lit | dsimp only | intro _

theorem execEdestroy_keeps {z s : State} (h : Keeps z s) (h : Hdr) (a : Opnd) :
    OutKeeps z (execEdestroy h a s) := by
  unfold execEdestroy
  with_reducible repeat' first | assumption | refine OptKeeps.mapOf (State.destroy_keeps ?_ _ _) ?_ | apply Res.Keeps.ok | apply Res.Keeps.trap | apply Res.Keeps.hold | apply OptKeeps.some | apply OptKeeps.none | apply OptKeeps.map | apply issue_keeps | apply State.destroy_keeps | refine OptKeeps.getD (State.destroy_keeps ?_ _ _) ?_ | refine OptKeeps.of (by assumption) (State.destroy_keeps ?_ _ _) | split | apply Keeps.lit | trivial | dsimp only | intro _

/-! Keys -/

theorem execKwrap_keeps {z s : State} (h : Keeps z s) (h : Hdr) (d : Opnd) (a : Opnd) :
    OutKeeps z (execKwrap h d a s) := by
  unfold execKwrap
  with_reducible repeat' first | assumption | apply Res.Keeps.ok | apply Res.Keeps.trap | apply OptKeeps.some | apply OptKeeps.none | apply OptKeeps.map | apply issue_keeps | apply withBuffer_keeps | refine Res.Keeps.ofOk (by assumption) (withBuffer_keeps ?_ _ _ _ _ ?_) | refine Res.Keeps.ofTrap (by assumption) (withBuffer_keeps ?_ _ _ _ _ ?_) | refine Res.Keeps.ofGoto (by assumption) (withBuffer_keeps ?_ _ _ _ _ ?_) | refine Res.Keeps.ofMoved (by assumption) (withBuffer_keeps ?_ _ _ _ _ ?_) | refine Res.Keeps.ofStall (by assumption) (withBuffer_keeps ?_ _ _ _ _ ?_) | refine Res.Keeps.ofTargetStall (by assumption) (withBuffer_keeps ?_ _ _ _ _ ?_) | refine Res.Keeps.ofTargetTrap (by assumption) (withBuffer_keeps ?_ _ _ _ _ ?_) | apply storeBuffer_keeps | refine Res.Keeps.ofOk (by assumption) (storeBuffer_keeps ?_ _ _ _ ?_) | refine Res.Keeps.ofTrap (by assumption) (storeBuffer_keeps ?_ _ _ _ ?_) | refine Res.Keeps.ofGoto (by assumption) (storeBuffer_keeps ?_ _ _ _ ?_) | refine Res.Keeps.ofMoved (by assumption) (storeBuffer_keeps ?_ _ _ _ ?_) | refine Res.Keeps.ofStall (by assumption) (storeBuffer_keeps ?_ _ _ _ ?_) | refine Res.Keeps.ofTargetStall (by assumption) (storeBuffer_keeps ?_ _ _ _ ?_) | refine Res.Keeps.ofTargetTrap (by assumption) (storeBuffer_keeps ?_ _ _ _ ?_) | apply answer_keeps | refine Res.Keeps.ofOk (by assumption) (answer_keeps ?_ _ _) | refine Res.Keeps.ofTrap (by assumption) (answer_keeps ?_ _ _) | refine Res.Keeps.ofGoto (by assumption) (answer_keeps ?_ _ _) | refine Res.Keeps.ofMoved (by assumption) (answer_keeps ?_ _ _) | refine Res.Keeps.ofStall (by assumption) (answer_keeps ?_ _ _) | refine Res.Keeps.ofTargetStall (by assumption) (answer_keeps ?_ _ _) | refine Res.Keeps.ofTargetTrap (by assumption) (answer_keeps ?_ _ _) | split | apply Keeps.lit | trivial | dsimp only | intro _

theorem execKunwrap_keeps {z s : State} (h : Keeps z s) (hd : Hdr) (d a : Opnd) : OutKeeps z (execKunwrap hd d a s) := by
  refine issue_keeps h _ _ fun x g => withBuffer_keeps g _ _ _ _ fun y bs g => ?_
  extract_lets eid kind
  clear_value kind eid
  split
  · exact g
  · split
    · exact answer_keeps g _ _
    · generalize gcmOpen _ _ _ _ _ = r
      cases r with
      | none => exact answer_keeps g _ _
      | some k => exact answer_keeps (State.modEncl_keeps g _ _) _ _

theorem execKrevoke_keeps {z s : State} (h : Keeps z s) (h : Hdr) (d : Opnd) (a : Opnd) :
    OutKeeps z (execKrevoke h d a s) := by
  unfold execKrevoke
  with_reducible repeat' first | assumption | apply Res.Keeps.ok | apply Res.Keeps.hold | apply OptKeeps.some | apply OptKeeps.none | apply OptKeeps.map | apply issue_keeps | apply answer_keeps | refine Res.Keeps.ofOk (by assumption) (answer_keeps ?_ _ _) | refine Res.Keeps.ofTrap (by assumption) (answer_keeps ?_ _ _) | refine Res.Keeps.ofGoto (by assumption) (answer_keeps ?_ _ _) | refine Res.Keeps.ofMoved (by assumption) (answer_keeps ?_ _ _) | refine Res.Keeps.ofStall (by assumption) (answer_keeps ?_ _ _) | refine Res.Keeps.ofTargetStall (by assumption) (answer_keeps ?_ _ _) | refine Res.Keeps.ofTargetTrap (by assumption) (answer_keeps ?_ _ _) | apply State.revoke_keeps | split | apply Keeps.lit | trivial | dsimp only | intro _

theorem execKload_keeps {z s : State} (h : Keeps z s) (h : Hdr) (d : Opnd) (a : Opnd) :
    OutKeeps z (execKload h d a s) := by
  unfold execKload
  with_reducible repeat' first | assumption | apply Res.Keeps.ok | apply OptKeeps.some | apply OptKeeps.none | apply OptKeeps.map | apply State.put_keeps | apply issue_keeps | apply answer_keeps | refine Res.Keeps.ofOk (by assumption) (answer_keeps ?_ _ _) | refine Res.Keeps.ofTrap (by assumption) (answer_keeps ?_ _ _) | refine Res.Keeps.ofGoto (by assumption) (answer_keeps ?_ _ _) | refine Res.Keeps.ofMoved (by assumption) (answer_keeps ?_ _ _) | refine Res.Keeps.ofStall (by assumption) (answer_keeps ?_ _ _) | refine Res.Keeps.ofTargetStall (by assumption) (answer_keeps ?_ _ _) | refine Res.Keeps.ofTargetTrap (by assumption) (answer_keeps ?_ _ _) | split | apply Keeps.lit | trivial | dsimp only | intro _

/-! Pot -/

theorem potSet_keeps {z s : State} (h : Keeps z s) (pa va v : Nat) : SndKeeps z (potSet s pa va v) := by
  have fin (st : PotState) (f : Nat) {t : State} (g : Keeps z t) : Keeps z (if st = .scrub then { t with scrubs := t.scrubs ++ [(f, 0)] }
      else if st = .retired && (t.retired.filter (· / 2 ^ 24 = f / 2 ^ 24)).length < 4096 then { t with retired := f :: t.retired }
      else t) := Keeps.cond (Keeps.lit g) (Keeps.cond (Keeps.lit g) g)
  unfold potSet
  extract_lets f p
  split
  · exact h
  · split
    · exact h
    · extract_lets from_ q moved
      split
      · exact h
      · split
        · exact h
        · split
          · exact h
          · have g := Keeps.cond (p := (moved && decide (p.state ≠ .poisoned)) = true) (State.moveFrame_keeps h f q) (State.setPot_keeps h f q)
            split
            · exact g
            · exact fin _ _ g

theorem withBlock_keeps {z s : State} (h : Keeps z s) (a : Opnd) (k : State → List Byte → Res) (hk : ∀ x0 x1, Keeps z x0 → Res.Keeps z (k x0 x1)) :
    Res.Keeps z (withBlock s a k) := by
  unfold withBlock
  with_reducible repeat' first | assumption | apply hk | apply withBuffer_keeps | refine Res.Keeps.ofOk (by assumption) (withBuffer_keeps ?_ _ _ _ _ ?_) | refine Res.Keeps.ofTrap (by assumption) (withBuffer_keeps ?_ _ _ _ _ ?_) | refine Res.Keeps.ofGoto (by assumption) (withBuffer_keeps ?_ _ _ _ _ ?_) | refine Res.Keeps.ofMoved (by assumption) (withBuffer_keeps ?_ _ _ _ _ ?_) | refine Res.Keeps.ofStall (by assumption) (withBuffer_keeps ?_ _ _ _ _ ?_) | refine Res.Keeps.ofTargetStall (by assumption) (withBuffer_keeps ?_ _ _ _ _ ?_) | refine Res.Keeps.ofTargetTrap (by assumption) (withBuffer_keeps ?_ _ _ _ _ ?_) | split | apply Keeps.lit | trivial | dsimp only | intro _

theorem execPotset_keeps {z s : State} (h : Keeps z s) (h : Hdr) (d : Opnd) (a : Opnd) :
    OutKeeps z (execPotset h d a s) := by
  unfold execPotset
  with_reducible repeat' first | assumption | apply Res.Keeps.ok | apply Res.Keeps.hold | apply OptKeeps.some | apply OptKeeps.none | apply OptKeeps.map | apply issue_keeps | apply answer_keeps | refine Res.Keeps.ofOk (by assumption) (answer_keeps ?_ _ _) | refine Res.Keeps.ofTrap (by assumption) (answer_keeps ?_ _ _) | refine Res.Keeps.ofGoto (by assumption) (answer_keeps ?_ _ _) | refine Res.Keeps.ofMoved (by assumption) (answer_keeps ?_ _ _) | refine Res.Keeps.ofStall (by assumption) (answer_keeps ?_ _ _) | refine Res.Keeps.ofTargetStall (by assumption) (answer_keeps ?_ _ _) | refine Res.Keeps.ofTargetTrap (by assumption) (answer_keeps ?_ _ _) | apply potSet_keeps | refine SndKeeps.of (by assumption) (potSet_keeps ?_ _ _ _) | refine SndKeeps.snd (potSet_keeps ?_ _ _ _) | apply withBlock_keeps | refine Res.Keeps.ofOk (by assumption) (withBlock_keeps ?_ _ _ ?_) | refine Res.Keeps.ofTrap (by assumption) (withBlock_keeps ?_ _ _ ?_) | refine Res.Keeps.ofGoto (by assumption) (withBlock_keeps ?_ _ _ ?_) | refine Res.Keeps.ofMoved (by assumption) (withBlock_keeps ?_ _ _ ?_) | refine Res.Keeps.ofStall (by assumption) (withBlock_keeps ?_ _ _ ?_) | refine Res.Keeps.ofTargetStall (by assumption) (withBlock_keeps ?_ _ _ ?_) | refine Res.Keeps.ofTargetTrap (by assumption) (withBlock_keeps ?_ _ _ ?_) | split | apply Keeps.lit | trivial | dsimp only | intro _

theorem execPotrd_keeps {z s : State} (h : Keeps z s) (h : Hdr) (d : Opnd) (a : Opnd) :
    OutKeeps z (execPotrd h d a s) := by
  unfold execPotrd
  with_reducible repeat' first | assumption | apply Res.Keeps.ok | apply OptKeeps.some | apply OptKeeps.none | apply OptKeeps.map | apply issue_keeps | apply storeBuffer_keeps | refine Res.Keeps.ofOk (by assumption) (storeBuffer_keeps ?_ _ _ _ ?_) | refine Res.Keeps.ofTrap (by assumption) (storeBuffer_keeps ?_ _ _ _ ?_) | refine Res.Keeps.ofGoto (by assumption) (storeBuffer_keeps ?_ _ _ _ ?_) | refine Res.Keeps.ofMoved (by assumption) (storeBuffer_keeps ?_ _ _ _ ?_) | refine Res.Keeps.ofStall (by assumption) (storeBuffer_keeps ?_ _ _ _ ?_) | refine Res.Keeps.ofTargetStall (by assumption) (storeBuffer_keeps ?_ _ _ _ ?_) | refine Res.Keeps.ofTargetTrap (by assumption) (storeBuffer_keeps ?_ _ _ _ ?_) | apply answer_keeps | refine Res.Keeps.ofOk (by assumption) (answer_keeps ?_ _ _) | refine Res.Keeps.ofTrap (by assumption) (answer_keeps ?_ _ _) | refine Res.Keeps.ofGoto (by assumption) (answer_keeps ?_ _ _) | refine Res.Keeps.ofMoved (by assumption) (answer_keeps ?_ _ _) | refine Res.Keeps.ofStall (by assumption) (answer_keeps ?_ _ _) | refine Res.Keeps.ofTargetStall (by assumption) (answer_keeps ?_ _ _) | refine Res.Keeps.ofTargetTrap (by assumption) (answer_keeps ?_ _ _) | apply withBlock_keeps | refine Res.Keeps.ofOk (by assumption) (withBlock_keeps ?_ _ _ ?_) | refine Res.Keeps.ofTrap (by assumption) (withBlock_keeps ?_ _ _ ?_) | refine Res.Keeps.ofGoto (by assumption) (withBlock_keeps ?_ _ _ ?_) | refine Res.Keeps.ofMoved (by assumption) (withBlock_keeps ?_ _ _ ?_) | refine Res.Keeps.ofStall (by assumption) (withBlock_keeps ?_ _ _ ?_) | refine Res.Keeps.ofTargetStall (by assumption) (withBlock_keeps ?_ _ _ ?_) | refine Res.Keeps.ofTargetTrap (by assumption) (withBlock_keeps ?_ _ _ ?_) | split | apply Keeps.lit | trivial | dsimp only | intro _

theorem onPage_keeps {z s : State} (h : Keeps z s) (d : Opnd) (a : Opnd) (k : State → PageReq → Encl → Nat → Nat → Nat → Res) (hk : ∀ x0 x1 x2 x3 x4 x5, Keeps z x0 → Res.Keeps z (k x0 x1 x2 x3 x4 x5)) :
    Res.Keeps z (onPage s d a k) := by
  unfold onPage
  with_reducible repeat' first | assumption | apply hk | apply Res.Keeps.ok | apply State.poisonFrame_keeps | apply answer_keeps | refine Res.Keeps.ofOk (by assumption) (answer_keeps ?_ _ _) | refine Res.Keeps.ofTrap (by assumption) (answer_keeps ?_ _ _) | refine Res.Keeps.ofGoto (by assumption) (answer_keeps ?_ _ _) | refine Res.Keeps.ofMoved (by assumption) (answer_keeps ?_ _ _) | refine Res.Keeps.ofStall (by assumption) (answer_keeps ?_ _ _) | refine Res.Keeps.ofTargetStall (by assumption) (answer_keeps ?_ _ _) | refine Res.Keeps.ofTargetTrap (by assumption) (answer_keeps ?_ _ _) | apply withBlock_keeps | refine Res.Keeps.ofOk (by assumption) (withBlock_keeps ?_ _ _ ?_) | refine Res.Keeps.ofTrap (by assumption) (withBlock_keeps ?_ _ _ ?_) | refine Res.Keeps.ofGoto (by assumption) (withBlock_keeps ?_ _ _ ?_) | refine Res.Keeps.ofMoved (by assumption) (withBlock_keeps ?_ _ _ ?_) | refine Res.Keeps.ofStall (by assumption) (withBlock_keeps ?_ _ _ ?_) | refine Res.Keeps.ofTargetStall (by assumption) (withBlock_keeps ?_ _ _ ?_) | refine Res.Keeps.ofTargetTrap (by assumption) (withBlock_keeps ?_ _ _ ?_) | split | apply Keeps.lit | trivial | dsimp only | intro _

theorem withFrame_keeps {z s : State} (h : Keeps z s) (d : Opnd) (frame : Nat) (at_ : Nat) (p : Pot) (k : State → Res) (hk : ∀ x0, Keeps z x0 → Res.Keeps z (k x0)) :
    Res.Keeps z (withFrame s d frame at_ p k) := by
  unfold withFrame
  with_reducible repeat' first | assumption | apply hk | apply Res.Keeps.hold | apply answer_keeps | refine Res.Keeps.ofOk (by assumption) (answer_keeps ?_ _ _) | refine Res.Keeps.ofTrap (by assumption) (answer_keeps ?_ _ _) | refine Res.Keeps.ofGoto (by assumption) (answer_keeps ?_ _ _) | refine Res.Keeps.ofMoved (by assumption) (answer_keeps ?_ _ _) | refine Res.Keeps.ofStall (by assumption) (answer_keeps ?_ _ _) | refine Res.Keeps.ofTargetStall (by assumption) (answer_keeps ?_ _ _) | refine Res.Keeps.ofTargetTrap (by assumption) (answer_keeps ?_ _ _) | apply State.moveFrame_keeps | split | apply Keeps.lit | trivial | dsimp only | intro _

theorem execPmap_keeps {z s : State} (h : Keeps z s) (h : Hdr) (d : Opnd) (a : Opnd) :
    OutKeeps z (execPmap h d a s) := by
  unfold execPmap
  with_reducible repeat' first | assumption | apply Res.Keeps.ok | apply OptKeeps.some | apply OptKeeps.none | apply OptKeeps.map | apply issue_keeps | apply State.scrubFrame_keeps | apply answer_keeps | refine Res.Keeps.ofOk (by assumption) (answer_keeps ?_ _ _) | refine Res.Keeps.ofTrap (by assumption) (answer_keeps ?_ _ _) | refine Res.Keeps.ofGoto (by assumption) (answer_keeps ?_ _ _) | refine Res.Keeps.ofMoved (by assumption) (answer_keeps ?_ _ _) | refine Res.Keeps.ofStall (by assumption) (answer_keeps ?_ _ _) | refine Res.Keeps.ofTargetStall (by assumption) (answer_keeps ?_ _ _) | refine Res.Keeps.ofTargetTrap (by assumption) (answer_keeps ?_ _ _) | apply State.putEntry_keeps | apply onPage_keeps | refine Res.Keeps.ofOk (by assumption) (onPage_keeps ?_ _ _ _ ?_) | refine Res.Keeps.ofTrap (by assumption) (onPage_keeps ?_ _ _ _ ?_) | refine Res.Keeps.ofGoto (by assumption) (onPage_keeps ?_ _ _ _ ?_) | refine Res.Keeps.ofMoved (by assumption) (onPage_keeps ?_ _ _ _ ?_) | refine Res.Keeps.ofStall (by assumption) (onPage_keeps ?_ _ _ _ ?_) | refine Res.Keeps.ofTargetStall (by assumption) (onPage_keeps ?_ _ _ _ ?_) | refine Res.Keeps.ofTargetTrap (by assumption) (onPage_keeps ?_ _ _ _ ?_) | apply withFrame_keeps | refine Res.Keeps.ofOk (by assumption) (withFrame_keeps ?_ _ _ _ _ _ ?_) | refine Res.Keeps.ofTrap (by assumption) (withFrame_keeps ?_ _ _ _ _ _ ?_) | refine Res.Keeps.ofGoto (by assumption) (withFrame_keeps ?_ _ _ _ _ _ ?_) | refine Res.Keeps.ofMoved (by assumption) (withFrame_keeps ?_ _ _ _ _ _ ?_) | refine Res.Keeps.ofStall (by assumption) (withFrame_keeps ?_ _ _ _ _ _ ?_) | refine Res.Keeps.ofTargetStall (by assumption) (withFrame_keeps ?_ _ _ _ _ _ ?_) | refine Res.Keeps.ofTargetTrap (by assumption) (withFrame_keeps ?_ _ _ _ _ _ ?_) | split | apply Keeps.lit | trivial | dsimp only | intro _

theorem execPaccept_keeps {z s : State} (h : Keeps z s) (h : Hdr) (d : Opnd) (a : Opnd) :
    OutKeeps z (execPaccept h d a s) := by
  unfold execPaccept
  with_reducible repeat' first | assumption | apply Res.Keeps.ok | apply Res.Keeps.trap | apply OptKeeps.some | apply OptKeeps.none | apply OptKeeps.map | apply State.setPot_keeps | apply issue_keeps | apply answer_keeps | refine Res.Keeps.ofOk (by assumption) (answer_keeps ?_ _ _) | refine Res.Keeps.ofTrap (by assumption) (answer_keeps ?_ _ _) | refine Res.Keeps.ofGoto (by assumption) (answer_keeps ?_ _ _) | refine Res.Keeps.ofMoved (by assumption) (answer_keeps ?_ _ _) | refine Res.Keeps.ofStall (by assumption) (answer_keeps ?_ _ _) | refine Res.Keeps.ofTargetStall (by assumption) (answer_keeps ?_ _ _) | refine Res.Keeps.ofTargetTrap (by assumption) (answer_keeps ?_ _ _) | split | apply Keeps.lit | trivial | dsimp only | intro _

theorem execPdiscard_keeps {z s : State} (h : Keeps z s) (h : Hdr) (d : Opnd) (a : Opnd) :
    OutKeeps z (execPdiscard h d a s) := by
  unfold execPdiscard
  with_reducible repeat' first | assumption | apply Res.Keeps.ok | apply Res.Keeps.hold | apply OptKeeps.some | apply OptKeeps.none | apply OptKeeps.map | apply State.setPot_keeps | apply issue_keeps | apply State.recall_keeps | apply answer_keeps | refine Res.Keeps.ofOk (by assumption) (answer_keeps ?_ _ _) | refine Res.Keeps.ofTrap (by assumption) (answer_keeps ?_ _ _) | refine Res.Keeps.ofGoto (by assumption) (answer_keeps ?_ _ _) | refine Res.Keeps.ofMoved (by assumption) (answer_keeps ?_ _ _) | refine Res.Keeps.ofStall (by assumption) (answer_keeps ?_ _ _) | refine Res.Keeps.ofTargetStall (by assumption) (answer_keeps ?_ _ _) | refine Res.Keeps.ofTargetTrap (by assumption) (answer_keeps ?_ _ _) | apply onPage_keeps | refine Res.Keeps.ofOk (by assumption) (onPage_keeps ?_ _ _ _ ?_) | refine Res.Keeps.ofTrap (by assumption) (onPage_keeps ?_ _ _ _ ?_) | refine Res.Keeps.ofGoto (by assumption) (onPage_keeps ?_ _ _ _ ?_) | refine Res.Keeps.ofMoved (by assumption) (onPage_keeps ?_ _ _ _ ?_) | refine Res.Keeps.ofStall (by assumption) (onPage_keeps ?_ _ _ _ ?_) | refine Res.Keeps.ofTargetStall (by assumption) (onPage_keeps ?_ _ _ _ ?_) | refine Res.Keeps.ofTargetTrap (by assumption) (onPage_keeps ?_ _ _ _ ?_) | split | apply Keeps.lit | trivial | dsimp only | intro _

theorem execPevict_keeps {z s : State} (h : Keeps z s) (hd : Hdr) (d a : Opnd) : OutKeeps z (execPevict hd d a s) := by
  refine issue_keeps h _ _ fun x g => onPage_keeps g _ _ _ fun s r e lev at_ ent g => ?_
  extract_lets f sp version
  split
  · exact answer_keeps g _ _
  · split
    · exact answer_keeps g _ _
    · split
      · exact answer_keeps g _ _
      · refine Res.Keeps.cond trivial ?_
        split
        · next e => exact bufferFault_keeps (MemRes.Keeps.ofFault e (probeBytes_keeps g _ _ _ _)) _ _
        · next e => exact MemRes.Keeps.ofDevice e (probeBytes_keeps g _ _ _ _)
        · next y _ e =>
          have g1 := MemRes.Keeps.ofOk e (probeBytes_keeps g _ _ _ _)
          have g2 := fun v f p at_ w => State.recall_keeps (State.putEntry_keeps (State.setPot_keeps (State.modEncl_keeps g1 r.eid v) f p) at_ w) f
          dsimp only
          refine Res.Keeps.cond (answer_keeps (g2 _ _ _ _ _) _ _) ?_
          split
          · exact answer_keeps (State.poisonFrame_keeps (g2 _ _ _ _ _) _ _ _ _ _ _) _ _
          · generalize gcmSeal _ _ _ _ = c
            exact storeBuffer_keeps (State.scrubFor_keeps (State.modEncl_keeps (Keeps.lit (g2 _ _ _ _ _)) _ _) _ _ _ _) _ _ _ fun _ g => answer_keeps g _ _

theorem execPload_keeps {z s : State} (h : Keeps z s) (hd : Hdr) (d a : Opnd) : OutKeeps z (execPload hd d a s) := by
  refine issue_keeps h _ _ fun x g => onPage_keeps g _ _ _ fun s r e lev at_ ent g => ?_
  extract_lets f
  split
  · exact answer_keeps g _ _
  · split
    · exact answer_keeps g _ _
    · split
      · exact answer_keeps g _ _
      · split
        · exact answer_keeps g _ _
        · refine withBuffer_keeps g _ _ _ _ fun y bs g => ?_
          split
          · exact answer_keeps g _ _
          · generalize gcmOpen _ _ _ _ _ = p
            cases p with
            | none => exact answer_keeps g _ _
            | some plain =>
              dsimp only
              split
              · exact answer_keeps g _ _
              · exact withFrame_keeps g _ _ _ _ _ fun x gx => answer_keeps (State.putEntry_keeps (State.homeWrite_keeps (State.scrubFrame_keeps
                  (State.modEncl_keeps gx _ _) _) _ _) _ _) _ _

theorem execPunmap_keeps {z s : State} (h : Keeps z s) (h : Hdr) (d : Opnd) (a : Opnd) :
    OutKeeps z (execPunmap h d a s) := by
  unfold execPunmap
  with_reducible repeat' first | assumption | apply Res.Keeps.ok | apply Res.Keeps.hold | apply OptKeeps.some | apply OptKeeps.none | apply OptKeeps.map | apply State.setPot_keeps | apply issue_keeps | apply State.recall_keeps | apply answer_keeps | refine Res.Keeps.ofOk (by assumption) (answer_keeps ?_ _ _) | refine Res.Keeps.ofTrap (by assumption) (answer_keeps ?_ _ _) | refine Res.Keeps.ofGoto (by assumption) (answer_keeps ?_ _ _) | refine Res.Keeps.ofMoved (by assumption) (answer_keeps ?_ _ _) | refine Res.Keeps.ofStall (by assumption) (answer_keeps ?_ _ _) | refine Res.Keeps.ofTargetStall (by assumption) (answer_keeps ?_ _ _) | refine Res.Keeps.ofTargetTrap (by assumption) (answer_keeps ?_ _ _) | apply State.putEntry_keeps | apply State.scrubFor_keeps | apply onPage_keeps | refine Res.Keeps.ofOk (by assumption) (onPage_keeps ?_ _ _ _ ?_) | refine Res.Keeps.ofTrap (by assumption) (onPage_keeps ?_ _ _ _ ?_) | refine Res.Keeps.ofGoto (by assumption) (onPage_keeps ?_ _ _ _ ?_) | refine Res.Keeps.ofMoved (by assumption) (onPage_keeps ?_ _ _ _ ?_) | refine Res.Keeps.ofStall (by assumption) (onPage_keeps ?_ _ _ _ ?_) | refine Res.Keeps.ofTargetStall (by assumption) (onPage_keeps ?_ _ _ _ ?_) | refine Res.Keeps.ofTargetTrap (by assumption) (onPage_keeps ?_ _ _ _ ?_) | split | apply Keeps.lit | trivial | dsimp only | intro _

/-! Dispatcher -/

theorem State.putWalker_keeps {z s : State} (h : Keeps z s) (w : Walker) :
    Keeps z (State.putWalker s w) := by
  unfold State.putWalker
  with_reducible repeat' first | assumption | apply State.modLaunch_keeps | split | apply Keeps.lit | dsimp only | intro _

theorem State.dispense_keeps {z s : State} (h : Keeps z s) (w : Walker) (l : Launch) :
    PairKeeps z (State.dispense s w l) := by
  unfold State.dispense
  with_reducible repeat' first | assumption | apply State.modLaunch_keeps | apply State.putWalker_keeps | apply State.start_keeps | split | apply Keeps.lit | dsimp only | intro _ | apply PairKeeps.mk

theorem State.takeTurn_keeps {z s : State} (h : Keeps z s) (key : Nat) (eid : Nat) :
    Keeps z (State.takeTurn s key eid) := by
  unfold State.takeTurn
  with_reducible repeat' first | assumption | apply State.put_keeps | split | apply Keeps.lit | dsimp only | intro _

theorem loadConstants_keeps {z s : State} (h : Keeps z s) (l : Launch) (quad : Nat) (x0 : Nat) (x1 : Nat) :
    CpRead.Keeps z (loadConstants s l quad x0 x1) := by
  induction x0 generalizing s l quad x1 with
  | zero => unfold loadConstants; with_reducible repeat' first | assumption | apply CpRead.Keeps.ok | apply CpRead.Keeps.bad | apply readThrough_keeps | refine ExKeeps.of (by assumption) (readThrough_keeps ?_ _ _ _ _) | apply State.ldc_keeps | refine MemRes.Keeps.ofOk (by assumption) (State.ldc_keeps ?_ _ _ _) | refine MemRes.Keeps.ofFault (by assumption) (State.ldc_keeps ?_ _ _ _) | refine MemRes.Keeps.ofDevice (by assumption) (State.ldc_keeps ?_ _ _ _) | apply cpFault_keeps | refine CpRead.Keeps.ofOk (by assumption) (cpFault_keeps ?_ _ _ _) | refine CpRead.Keeps.ofWait (by assumption) (cpFault_keeps ?_ _ _ _) | refine CpRead.Keeps.ofBad (by assumption) (cpFault_keeps ?_ _ _ _) | apply ih | refine CpRead.Keeps.ofOk (by assumption) (ih ?_ _ _ _) | refine CpRead.Keeps.ofWait (by assumption) (ih ?_ _ _ _) | refine CpRead.Keeps.ofBad (by assumption) (ih ?_ _ _ _) | split | apply Keeps.lit | trivial | dsimp only | intro _
  | succ _ ih => unfold loadConstants; with_reducible repeat' first | assumption | apply CpRead.Keeps.ok | apply CpRead.Keeps.bad | apply readThrough_keeps | refine ExKeeps.of (by assumption) (readThrough_keeps ?_ _ _ _ _) | apply State.ldc_keeps | refine MemRes.Keeps.ofOk (by assumption) (State.ldc_keeps ?_ _ _ _) | refine MemRes.Keeps.ofFault (by assumption) (State.ldc_keeps ?_ _ _ _) | refine MemRes.Keeps.ofDevice (by assumption) (State.ldc_keeps ?_ _ _ _) | apply cpFault_keeps | refine CpRead.Keeps.ofOk (by assumption) (cpFault_keeps ?_ _ _ _) | refine CpRead.Keeps.ofWait (by assumption) (cpFault_keeps ?_ _ _ _) | refine CpRead.Keeps.ofBad (by assumption) (cpFault_keeps ?_ _ _ _) | apply ih | refine CpRead.Keeps.ofOk (by assumption) (ih ?_ _ _ _) | refine CpRead.Keeps.ofWait (by assumption) (ih ?_ _ _ _) | refine CpRead.Keeps.ofBad (by assumption) (ih ?_ _ _ _) | split | apply Keeps.lit | trivial | dsimp only | intro _

theorem State.addTeam_keeps {z s : State} (h : Keeps z s) (launch : Nat) (l : Launch) (core : Nat) (slot : Nat) (cluster : Option Nat) (member : Nat) (coords : Option (List Word)) (serving : Option (Nat × Nat)) :
    Keeps z (State.addTeam s launch l core slot cluster member coords serving) := by
  unfold State.addTeam
  with_reducible repeat' first | assumption | apply State.modCore_keeps | apply State.put_keeps | apply State.freshCode_keeps | split | apply Keeps.lit | dsimp only | intro _

theorem State.takeTile_keeps {z s : State} (h : Keeps z s) (n : Nat) (l : Launch) (slice : Nat) :
    OptPairKeeps z (State.takeTile s n l slice) := by
  unfold State.takeTile
  with_reducible repeat' first | assumption | apply OptPairKeeps.some | apply OptPairKeeps.none | apply State.modLaunch_keeps | apply State.dispense_keeps | refine PairKeeps.of (by assumption) (State.dispense_keeps ?_ _ _) | refine PairKeeps.fst (State.dispense_keeps ?_ _ _) | apply State.start_keeps | split | apply Keeps.lit | dsimp only | intro _

theorem State.releaseP_keeps {z s : State} (h : Keeps z s) (n : Nat) (l : Launch) (slice : Nat) (cores : List Nat) (cluster : Option Nat) :
    OptKeeps z (State.release' s n l slice cores cluster) := by
  unfold State.release'
  with_reducible repeat' first | assumption | apply OptKeeps.some | apply OptKeeps.none | apply OptKeeps.map | apply State.takeTurn_keeps | apply State.addTeam_keeps | apply State.takeTile_keeps | refine OptPairKeeps.of (by assumption) (State.takeTile_keeps ?_ _ _ _) | refine Keeps.foldl (fun s x h => ?_) ?_ | split | apply Keeps.lit | dsimp only | intro _

theorem withConstants_keeps {z s : State} (h : Keeps z s) (n : Nat) (l : Launch) (x0 : List Nat) (x1 : State → Option State) (hx1 : ∀ x0, Keeps z x0 → OptKeeps z (x1 x0)) :
    OptKeeps z (withConstants s n l x0 x1) := by
  induction x0 generalizing s n l x1 with
  | nil => unfold withConstants; with_reducible repeat' first | assumption | apply hx1 | apply OptKeeps.some | apply OptKeeps.none | apply OptKeeps.map | apply State.modLaunch_keeps | apply State.endLaunch_keeps | apply loadConstants_keeps | refine CpRead.Keeps.ofOk (by assumption) (loadConstants_keeps ?_ _ _ _ _) | refine CpRead.Keeps.ofWait (by assumption) (loadConstants_keeps ?_ _ _ _ _) | refine CpRead.Keeps.ofBad (by assumption) (loadConstants_keeps ?_ _ _ _ _) | apply ih | split | apply Keeps.lit | dsimp only | intro _
  | cons _ _ ih => unfold withConstants; with_reducible repeat' first | assumption | apply hx1 | apply OptKeeps.some | apply OptKeeps.none | apply OptKeeps.map | apply State.modLaunch_keeps | apply State.endLaunch_keeps | apply loadConstants_keeps | refine CpRead.Keeps.ofOk (by assumption) (loadConstants_keeps ?_ _ _ _ _) | refine CpRead.Keeps.ofWait (by assumption) (loadConstants_keeps ?_ _ _ _ _) | refine CpRead.Keeps.ofBad (by assumption) (loadConstants_keeps ?_ _ _ _ _) | apply ih | split | apply Keeps.lit | dsimp only | intro _

theorem execTeamPlace_keeps {z s : State} (h : Keeps z s) (n : Nat) (core : Nat) :
    OutKeeps z (execTeamPlace n core s) := by
  unfold execTeamPlace
  with_reducible repeat' first | assumption | refine OptKeeps.mapOf (withConstants_keeps ?_ _ _ _ _ ?_) ?_ | refine OptKeeps.mapOf (State.releaseP_keeps ?_ _ _ _ _ _) ?_ | apply OptKeeps.some | apply OptKeeps.none | apply OptKeeps.map | apply agent_keeps | apply State.releaseP_keeps | refine OptKeeps.getD (State.releaseP_keeps ?_ _ _ _ _ _) ?_ | refine OptKeeps.of (by assumption) (State.releaseP_keeps ?_ _ _ _ _ _) | apply withConstants_keeps | refine OptKeeps.getD (withConstants_keeps ?_ _ _ _ _ ?_) ?_ | refine OptKeeps.of (by assumption) (withConstants_keeps ?_ _ _ _ _ ?_) | split | apply Keeps.lit | trivial | dsimp only | intro _

theorem execClusterPlace_keeps {z s : State} (h : Keeps z s) (n : Nat) (slice : Nat) (row : Nat) (col : Nat) :
    OutKeeps z (execClusterPlace n slice row col s) := by
  unfold execClusterPlace
  with_reducible repeat' first | assumption | refine OptKeeps.mapOf (withConstants_keeps ?_ _ _ _ _ ?_) ?_ | refine OptKeeps.mapOf (State.releaseP_keeps ?_ _ _ _ _ _) ?_ | apply OptKeeps.some | apply OptKeeps.none | apply OptKeeps.map | apply agent_keeps | apply State.releaseP_keeps | refine OptKeeps.getD (State.releaseP_keeps ?_ _ _ _ _ _) ?_ | refine OptKeeps.of (by assumption) (State.releaseP_keeps ?_ _ _ _ _ _) | apply withConstants_keeps | refine OptKeeps.getD (withConstants_keeps ?_ _ _ _ _ ?_) ?_ | refine OptKeeps.of (by assumption) (withConstants_keeps ?_ _ _ _ _ ?_) | split | apply Keeps.lit | trivial | dsimp only | intro _

theorem execTeamDone_keeps {z s : State} (h : Keeps z s) (n : Nat) :
    OutKeeps z (execTeamDone n s) := by
  unfold execTeamDone
  with_reducible repeat' first | assumption | apply OptKeeps.some | apply OptKeeps.none | apply OptKeeps.map | apply State.modTeam_keeps | apply agent_keeps | apply State.dropTeam_keeps | refine Keeps.foldl (fun s x h => ?_) ?_ | split | apply Keeps.lit | trivial | dsimp only | intro _

theorem State.split_keeps {z s : State} (h : Keeps z s) (n : Nat) (l : Launch) (core : Nat) :
    Keeps z (State.split s n l core) := by
  unfold State.split
  with_reducible repeat' first | assumption | apply State.modLaunch_keeps | apply State.putWalker_keeps | split | apply Keeps.lit | dsimp only | intro _

theorem State.askSplit_keeps {z s : State} (h : Keeps z s) (n : Nat) (l : Launch) (core : Nat) (wants : Bool) :
    OptKeeps z (State.askSplit s n l core wants) := by
  unfold State.askSplit
  with_reducible repeat' first | assumption | apply OptKeeps.some | apply OptKeeps.none | apply OptKeeps.map | apply State.modLaunch_keeps | apply State.split_keeps | split | apply Keeps.lit | dsimp only | intro _

theorem execSplitRequest_keeps {z s : State} (h : Keeps z s) (n : Nat) (core : Nat) :
    OutKeeps z (execSplitRequest n core s) := by
  unfold execSplitRequest
  with_reducible repeat' first | assumption | refine OptKeeps.mapOf (State.askSplit_keeps ?_ _ _ _ _) ?_ | apply OptKeeps.some | apply OptKeeps.none | apply OptKeeps.map | apply agent_keeps | apply State.askSplit_keeps | refine OptKeeps.getD (State.askSplit_keeps ?_ _ _ _ _) ?_ | refine OptKeeps.of (by assumption) (State.askSplit_keeps ?_ _ _ _ _) | split | apply Keeps.lit | trivial | dsimp only | intro _

theorem execSplitRetry_keeps {z s : State} (h : Keeps z s) (n : Nat) (core : Nat) :
    OutKeeps z (execSplitRetry n core s) := by
  unfold execSplitRetry
  with_reducible repeat' first | assumption | refine OptKeeps.mapOf (State.askSplit_keeps ?_ _ _ _ _) ?_ | apply OptKeeps.some | apply OptKeeps.none | apply OptKeeps.map | apply State.modLaunch_keeps | apply agent_keeps | apply State.askSplit_keeps | refine OptKeeps.getD (State.askSplit_keeps ?_ _ _ _ _) ?_ | refine OptKeeps.of (by assumption) (State.askSplit_keeps ?_ _ _ _ _) | split | apply Keeps.lit | trivial | dsimp only | intro _

theorem execWalkerDispense_keeps {z s : State} (h : Keeps z s) (slice : Nat) (num : Nat) :
    OutKeeps z (execWalkerDispense slice num s) := by
  unfold execWalkerDispense
  with_reducible repeat' first | assumption | refine OptKeeps.mapOf (withConstants_keeps ?_ _ _ _ _ ?_) ?_ | apply OptKeeps.some | apply OptKeeps.none | apply OptKeeps.map | apply State.modCore_keeps | apply agent_keeps | apply State.dispense_keeps | refine PairKeeps.of (by assumption) (State.dispense_keeps ?_ _ _) | refine PairKeeps.fst (State.dispense_keeps ?_ _ _) | apply State.takeTurn_keeps | apply State.addTeam_keeps | apply withConstants_keeps | refine OptKeeps.getD (withConstants_keeps ?_ _ _ _ _ ?_) ?_ | refine OptKeeps.of (by assumption) (withConstants_keeps ?_ _ _ _ _ ?_) | split | apply Keeps.lit | trivial | dsimp only | intro _

theorem execRefillItem_keeps {z s : State} (h : Keeps z s) (team : Nat) (thread : Nat) : OutKeeps z (execRefillItem team thread s) := by
  unfold execRefillItem
  refine agent_keeps h _ ?_
  split
  · split
    · trivial
    · extract_lets answer
      have ha : ∀ f, answer = some f → ∀ x, Keeps z x → Keeps z (f x) := by
        intro f e x hx
        dsimp only [answer] at e
        split at e
        · cases e
        · split at e
          · cases e
            exact OptKeeps.getD (State.giveItem_keeps hx _ _ _) hx
          · split at e
            · cases e
              exact Keeps.lit hx
            · cases e
      clear_value answer
      cases answer with
      | none => trivial
      | some f =>
        exact State.onThread_keeps h _ _ fun x hx => State.wakeFrom_keeps (State.dropAsk_keeps (ha f rfl x hx) _ _) _
  · trivial

theorem State.mailbox_keeps {z s : State} (h : Keeps z s) (team : Nat) (t : Team) (eid : Nat) (r : FetchReq) (ws : List Word) :
    Keeps z (State.mailbox s team t eid r ws) := by
  unfold State.mailbox
  with_reducible repeat' first | assumption | refine OptKeeps.mapOf (State.engineCount_keeps ?_ _ _ _) ?_ | apply State.modTeam_keeps | apply State.endLaunch_keeps | apply State.engineCount_keeps | refine OptKeeps.getD (State.engineCount_keeps ?_ _ _ _) ?_ | refine OptKeeps.of (by assumption) (State.engineCount_keeps ?_ _ _ _) | split | apply Keeps.lit | dsimp only | intro _

theorem execFetchwServe_keeps {z s : State} (h : Keeps z s) (team : Nat) :
    OutKeeps z (execFetchwServe team s) := by
  unfold execFetchwServe
  with_reducible repeat' first | assumption | refine OptKeeps.mapOf (State.askSplit_keeps ?_ _ _ _ _) ?_ | apply OptKeeps.some | apply OptKeeps.none | apply OptKeeps.map | apply State.modTeam_keeps | apply agent_keeps | apply State.dispense_keeps | refine PairKeeps.of (by assumption) (State.dispense_keeps ?_ _ _) | refine PairKeeps.fst (State.dispense_keeps ?_ _ _) | apply State.split_keeps | apply State.askSplit_keeps | refine OptKeeps.getD (State.askSplit_keeps ?_ _ _ _ _) ?_ | refine OptKeeps.of (by assumption) (State.askSplit_keeps ?_ _ _ _ _) | apply State.mailbox_keeps | split | apply Keeps.lit | trivial | dsimp only | intro _

theorem execLaunchComplete_keeps {z s : State} (h : Keeps z s) (n : Nat) :
    OutKeeps z (execLaunchComplete n s) := by
  unfold execLaunchComplete
  with_reducible repeat' first | assumption | refine OptKeeps.mapOf (State.finishLaunch_keeps ?_ _ _) ?_ | apply OptKeeps.some | apply OptKeeps.none | apply OptKeeps.map | apply agent_keeps | apply State.finishLaunch_keeps | refine OptKeeps.getD (State.finishLaunch_keeps ?_ _ _) ?_ | refine OptKeeps.of (by assumption) (State.finishLaunch_keeps ?_ _ _) | split | apply Keeps.lit | trivial | dsimp only | intro _

theorem State.dropLaunch_keeps {z s : State} (h : Keeps z s) (n : Nat) (l : Launch) :
    Keeps z (State.dropLaunch s n l) := by
  unfold State.dropLaunch
  with_reducible repeat' first | assumption | apply State.modLaunch_keeps | apply State.modEncl_keeps | apply State.endTeam_keeps | refine Keeps.foldl (fun s x h => ?_) ?_ | split | apply Keeps.lit | dsimp only | intro _

theorem execTerminalTrapEnd_keeps {z s : State} (h : Keeps z s) (n : Nat) :
    OutKeeps z (execTerminalTrapEnd n s) := by
  unfold execTerminalTrapEnd
  with_reducible repeat' first | assumption | refine OptKeeps.mapOf (State.finishLaunch_keeps ?_ _ _) ?_ | apply OptKeeps.some | apply OptKeeps.none | apply OptKeeps.map | apply agent_keeps | apply State.finishLaunch_keeps | refine OptKeeps.getD (State.finishLaunch_keeps ?_ _ _) ?_ | refine OptKeeps.of (by assumption) (State.finishLaunch_keeps ?_ _ _) | apply State.settleBusy_keeps | apply State.dropLaunch_keeps | split | apply Keeps.lit | trivial | dsimp only | intro _

/-! Queues -/

theorem readDeps_keeps {z s : State} (h : Keeps z s) (q : SimtQ) (qn : Nat) (e : Entry) :
    PairKeeps z (readDeps s q qn e) := by
  unfold readDeps
  with_reducible repeat' first | assumption | apply cpRead_keeps | refine CpRead.Keeps.ofOk (by assumption) (cpRead_keeps ?_ _ _ _ _ _) | refine CpRead.Keeps.ofWait (by assumption) (cpRead_keeps ?_ _ _ _ _ _) | refine CpRead.Keeps.ofBad (by assumption) (cpRead_keeps ?_ _ _ _ _ _) | split | apply Keeps.lit | dsimp only | intro _ | apply PairKeeps.mk

theorem readEntryOf_keeps {z s : State} (h : Keeps z s) (q : SimtQ) (qn : Nat) (e : Entry) :
    PairKeeps z (readEntryOf s q qn e) := by
  unfold readEntryOf
  with_reducible repeat' first | assumption | apply cpRead_keeps | refine CpRead.Keeps.ofOk (by assumption) (cpRead_keeps ?_ _ _ _ _ _) | refine CpRead.Keeps.ofWait (by assumption) (cpRead_keeps ?_ _ _ _ _ _) | refine CpRead.Keeps.ofBad (by assumption) (cpRead_keeps ?_ _ _ _ _ _) | apply readDeps_keeps | refine PairKeeps.of (by assumption) (readDeps_keeps ?_ _ _ _) | refine PairKeeps.fst (readDeps_keeps ?_ _ _ _) | split | apply Keeps.lit | dsimp only | intro _ | apply PairKeeps.mk

theorem State.setEntry_keeps {z s : State} (h : Keeps z s) (qn : Nat) (e : Entry) :
    Keeps z (State.setEntry s qn e) := by
  unfold State.setEntry
  with_reducible repeat' first | assumption | apply State.put_keeps | split | apply Keeps.lit | dsimp only | intro _

theorem State.dropEntry_keeps {z s : State} (h : Keeps z s) (qn : Nat) (seq : Nat) (sig : Sig) :
    Keeps z (State.dropEntry s qn seq sig) := by
  unfold State.dropEntry
  with_reducible repeat' first | assumption | apply State.put_keeps | split | apply Keeps.lit | dsimp only | intro _

theorem readsOn_keeps {z s : State} (h : Keeps z s) (q : SimtQ) (qn : Nat) (e : Entry) :
    OptKeeps z (readsOn s q qn e) := by
  unfold readsOn
  with_reducible repeat' first | assumption | apply OptKeeps.some | apply OptKeeps.none | apply OptKeeps.map | apply readEntryOf_keeps | refine PairKeeps.of (by assumption) (readEntryOf_keeps ?_ _ _ _) | refine PairKeeps.fst (readEntryOf_keeps ?_ _ _ _) | apply State.setEntry_keeps | split | apply Keeps.lit | dsimp only | intro _

theorem readsNext_keeps {z s : State} (h : Keeps z s) (q : SimtQ) (qn : Nat) :
    OptKeeps z (readsNext s q qn) := by
  unfold readsNext
  with_reducible repeat' first | assumption | refine OptKeeps.mapOf (readsOn_keeps ?_ _ _ _) ?_ | apply OptKeeps.some | apply OptKeeps.none | apply OptKeeps.map | apply readsOn_keeps | refine OptKeeps.getD (readsOn_keeps ?_ _ _ _) ?_ | refine OptKeeps.of (by assumption) (readsOn_keeps ?_ _ _ _) | refine OptKeeps.findSome fun x => ?_ | split | apply Keeps.lit | dsimp only | intro _

theorem execKickTake_keeps {z s : State} (h : Keeps z s) (slice : Nat) (queue : Nat) :
    OutKeeps z (execKickTake slice queue s) := by
  unfold execKickTake
  with_reducible repeat' first | assumption | refine OptKeeps.mapOf (readsNext_keeps ?_ _ _) ?_ | apply OptKeeps.some | apply OptKeeps.none | apply OptKeeps.map | apply State.put_keeps | apply agent_keeps | apply State.onThread_keeps | apply State.wakeFrom_keeps | apply readEntryOf_keeps | refine PairKeeps.of (by assumption) (readEntryOf_keeps ?_ _ _ _) | refine PairKeeps.fst (readEntryOf_keeps ?_ _ _ _) | apply State.setEntry_keeps | apply readsNext_keeps | refine OptKeeps.getD (readsNext_keeps ?_ _ _) ?_ | refine OptKeeps.of (by assumption) (readsNext_keeps ?_ _ _) | split | apply Keeps.lit | trivial | dsimp only | intro _

theorem State.failEntry_keeps {z s : State} (h : Keeps z s) (q : SimtQ) (qn : Nat) (e : Entry) :
    OptKeeps z (State.failEntry s q qn e) := by
  unfold State.failEntry
  with_reducible repeat' first | assumption | apply OptKeeps.some | apply OptKeeps.none | apply OptKeeps.map | apply writeSignal_keeps | refine CpRead.Keeps.ofOk (by assumption) (writeSignal_keeps ?_ _ _ _ _ _) | refine CpRead.Keeps.ofWait (by assumption) (writeSignal_keeps ?_ _ _ _ _ _) | refine CpRead.Keeps.ofBad (by assumption) (writeSignal_keeps ?_ _ _ _ _ _) | apply State.countHandle_keeps | apply State.setEntry_keeps | apply State.dropEntry_keeps | split | apply Keeps.lit | dsimp only | intro _

theorem State.startLaunch_keeps {z s : State} (h : Keeps z s) (q : SimtQ) (qn : Nat) (e : Entry) (ws : List Walker) :
    Keeps z (State.startLaunch s q qn e ws) := by
  unfold State.startLaunch
  with_reducible repeat' first | assumption | apply State.put_keeps | apply State.putWalker_keeps | apply State.setEntry_keeps | refine Keeps.foldl (fun s x h => ?_) ?_ | split | apply Keeps.lit | dsimp only | intro _

theorem execEntryStart_keeps {z s : State} (h : Keeps z s) (slice : Nat) (queue : Nat) :
    OutKeeps z (execEntryStart slice queue s) := by
  unfold execEntryStart
  with_reducible repeat' first | assumption | refine OptKeeps.mapOf (State.failEntry_keeps ?_ _ _ _) ?_ | apply OptKeeps.some | apply OptKeeps.none | apply OptKeeps.map | apply agent_keeps | apply State.takeTurn_keeps | apply readEntryOf_keeps | refine PairKeeps.of (by assumption) (readEntryOf_keeps ?_ _ _ _) | refine PairKeeps.fst (readEntryOf_keeps ?_ _ _ _) | apply State.setEntry_keeps | apply State.dropEntry_keeps | apply State.failEntry_keeps | refine OptKeeps.getD (State.failEntry_keeps ?_ _ _ _) ?_ | refine OptKeeps.of (by assumption) (State.failEntry_keeps ?_ _ _ _) | apply State.startLaunch_keeps | split | apply Keeps.lit | trivial | dsimp only | intro _

theorem execMarkComplete_keeps {z s : State} (h : Keeps z s) (slice : Nat) (queue : Nat) (seq : Nat) :
    OutKeeps z (execMarkComplete slice queue seq s) := by
  unfold execMarkComplete
  with_reducible repeat' first | assumption | apply OptKeeps.some | apply OptKeeps.none | apply OptKeeps.map | apply agent_keeps | apply writeSignal_keeps | refine CpRead.Keeps.ofOk (by assumption) (writeSignal_keeps ?_ _ _ _ _ _) | refine CpRead.Keeps.ofWait (by assumption) (writeSignal_keeps ?_ _ _ _ _ _) | refine CpRead.Keeps.ofBad (by assumption) (writeSignal_keeps ?_ _ _ _ _ _) | apply State.countHandle_keeps | apply State.setEntry_keeps | apply State.dropEntry_keeps | split | apply Keeps.lit | trivial | dsimp only | intro _

theorem execQuiesceRequest_keeps {z s : State} (h : Keeps z s) (slice : Nat) :
    OutKeeps z (execQuiesceRequest slice s) := by
  unfold execQuiesceRequest
  with_reducible repeat' first | assumption | apply OptKeeps.some | apply OptKeeps.none | apply OptKeeps.map | apply agent_keeps | split | apply Keeps.lit | trivial | dsimp only | intro _

theorem execQuiesceRelease_keeps {z s : State} (h : Keeps z s) (slice : Nat) :
    OutKeeps z (execQuiesceRelease slice s) := by
  unfold execQuiesceRelease
  with_reducible repeat' first | assumption | apply OptKeeps.some | apply OptKeeps.none | apply OptKeeps.map | apply agent_keeps | split | apply Keeps.lit | trivial | dsimp only | intro _

/-! Contexts -/

theorem State.endSoft_keeps {z s : State} (h : Keeps z s) (eid : Nat) :
    Keeps z (State.endSoft s eid) := by
  unfold State.endSoft
  with_reducible repeat' first | assumption | apply State.modEncl_keeps | split | apply Keeps.lit | dsimp only | intro _

theorem State.softRequest_keeps {z s : State} (h : Keeps z s) (eid : Nat) (cores : List Nat) :
    Keeps z (State.softRequest s eid cores) := by
  unfold State.softRequest
  with_reducible repeat' first | assumption | apply State.modEncl_keeps | apply State.endSoft_keeps | split | apply Keeps.lit | dsimp only | intro _

theorem State.softOn_keeps {z s : State} (h : Keeps z s) (cores : List Nat) :
    Keeps z (State.softOn s cores) := by
  unfold State.softOn
  with_reducible repeat' first | assumption | apply State.softRequest_keeps | refine Keeps.foldl (fun s x h => ?_) ?_ | split | apply Keeps.lit | dsimp only | intro _

theorem State.withdrawTeam_keeps {z s : State} (h : Keeps z s) (n : Nat) :
    Keeps z (State.withdrawTeam s n) := by
  unfold State.withdrawTeam
  with_reducible repeat' first | assumption | apply State.modThread_keeps | apply State.withdrawKick_keeps | refine PairKeeps.of (by assumption) (State.withdrawKick_keeps ?_ _ _) | refine PairKeeps.fst (State.withdrawKick_keeps ?_ _ _) | refine Keeps.foldl (fun s x h => ?_) ?_ | split | apply Keeps.lit | dsimp only | intro _

theorem State.writeImage_keeps {z s : State} (h : Keeps z s) (frames : List Nat) :
    Keeps z (State.writeImage s frames) := by
  unfold State.writeImage
  with_reducible repeat' first | assumption | apply State.freshen_keeps | apply State.homeWrite_keeps | refine Keeps.foldl (fun s x h => ?_) ?_ | split | apply Keeps.lit | dsimp only | intro _

theorem State.newDigest_keeps {z s : State} (h : Keeps z s) (eid : Nat) :
    Keeps z (State.newDigest s eid) := by
  unfold State.newDigest
  with_reducible repeat' first | assumption | apply State.freshen_keeps | apply State.modEncl_keeps | apply State.homeWrite_keeps | refine Keeps.foldl (fun s x h => ?_) ?_ | split | apply Keeps.lit | dsimp only | intro _

theorem State.sealTeam_keeps {z s : State} (h : Keeps z s) (eid : Nat) (n : Nat) :
    Keeps z (State.sealTeam s eid n) := by
  unfold State.sealTeam
  with_reducible repeat' first | assumption | apply State.modEncl_keeps | apply State.modCore_keeps | apply State.evictLines_keeps | apply State.dropTeam_keeps | apply State.withdrawTeam_keeps | apply State.writeImage_keeps | apply State.newDigest_keeps | split | apply Keeps.lit | dsimp only | intro _

theorem State.sealLaunch_keeps {z s : State} (h : Keeps z s) (n : Nat) :
    Keeps z (State.sealLaunch s n) := by
  unfold State.sealLaunch
  with_reducible repeat' first | assumption | apply State.modLaunch_keeps | apply State.writeImage_keeps | split | apply Keeps.lit | dsimp only | intro _

theorem State.sealWalkers_keeps {z s : State} (h : Keeps z s) (eid : Nat) :
    Keeps z (State.sealWalkers s eid) := by
  unfold State.sealWalkers
  with_reducible repeat' first | assumption | apply State.newDigest_keeps | apply State.sealLaunch_keeps | refine Keeps.foldl (fun s x h => ?_) ?_ | split | apply Keeps.lit | dsimp only | intro _

theorem State.haltLines_keeps {z s : State} (h : Keeps z s) (eid : Nat) (on : Nat → Bool) :
    Keeps z (State.haltLines s eid on) := by
  unfold State.haltLines
  with_reducible repeat' first | assumption | apply State.evictLines_keeps | split | apply Keeps.lit | dsimp only | intro _

theorem State.sealHostChans_keeps {z s : State} (h : Keeps z s) (n : Nat) (eid : Nat) (idx : Nat) :
    Keeps z (State.sealHostChans s n eid idx) := by
  unfold State.sealHostChans
  with_reducible repeat' first | assumption | apply State.modHost_keeps | apply State.modEncl_keeps | apply State.put_keeps | apply State.settleCeown_keeps | split | apply Keeps.lit | dsimp only | intro _

theorem State.exitHosts_keeps {z s : State} (h : Keeps z s) (eid : Nat) (sealIt : Bool) :
    Keeps z (State.exitHosts s eid sealIt) := by
  unfold State.exitHosts
  with_reducible repeat' first | assumption | apply State.asyncExit_keeps | apply State.sealHostChans_keeps | refine Keeps.foldl (fun s x h => ?_) ?_ | split | apply Keeps.lit | dsimp only | intro _

theorem State.forceHalt_keeps {z s : State} (h : Keeps z s) (eid : Nat) :
    Keeps z (State.forceHalt s eid) := by
  unfold State.forceHalt
  with_reducible repeat' first | assumption | apply State.modTeam_keeps | apply State.modEncl_keeps | apply State.endSoft_keeps | apply State.withdrawTeam_keeps | apply State.sealTeam_keeps | apply State.sealWalkers_keeps | apply State.haltLines_keeps | apply State.exitHosts_keeps | refine Keeps.foldl (fun s x h => ?_) ?_ | split | apply Keeps.lit | dsimp only | intro _

theorem State.haltContext_keeps {z s : State} (h : Keeps z s) (eid : Nat) :
    Keeps z (State.haltContext s eid) := by
  unfold State.haltContext
  with_reducible repeat' first | assumption | apply State.modEncl_keeps | apply State.forceHalt_keeps | split | apply Keeps.lit | dsimp only | intro _

theorem State.orderHalt_keeps {z s : State} (h : Keeps z s) (eid : Nat) :
    Keeps z (State.orderHalt s eid) := by
  unfold State.orderHalt
  with_reducible repeat' first | assumption | apply State.modEncl_keeps | apply State.haltContext_keeps | split | apply Keeps.lit | dsimp only | intro _

theorem State.killNamed_keeps {z s : State} (h : Keeps z s) (eid : Nat) :
    Keeps z (State.killNamed s eid) := by
  unfold State.killNamed
  with_reducible repeat' first | assumption | apply State.killTeams_keeps | apply State.endSoft_keeps | split | apply Keeps.lit | dsimp only | intro _

theorem State.notePreempt_keeps {z s : State} (h : Keeps z s) (act : Nat) (eid : BitVec 16) (busy : Bool) :
    Keeps z (State.notePreempt s act eid busy) := by
  unfold State.notePreempt
  with_reducible repeat' first | assumption | split | apply Keeps.lit | dsimp only | intro _

theorem State.restoreClock_keeps {z s : State} (h : Keeps z s) (eid : Nat) :
    Keeps z (State.restoreClock s eid) := by
  unfold State.restoreClock
  with_reducible repeat' first | assumption | apply State.modEncl_keeps | split | apply Keeps.lit | dsimp only | intro _

theorem State.resumeContext_keeps {z s : State} (h : Keeps z s) (eid : Nat) :
    Keeps z (State.resumeContext s eid) := by
  unfold State.resumeContext
  with_reducible repeat' first | assumption | apply State.modEncl_keeps | apply State.restoreClock_keeps | split | apply Keeps.lit | dsimp only | intro _

theorem execPreemptResume_keeps {z s : State} (h : Keeps z s) (eid : BitVec 16) :
    OutKeeps z (execPreemptResume eid s) := by
  unfold execPreemptResume
  with_reducible repeat' first | assumption | apply OptKeeps.some | apply OptKeeps.none | apply OptKeeps.map | apply State.modEncl_keeps | apply agent_keeps | apply State.notePreempt_keeps | apply State.resumeContext_keeps | split | apply Keeps.lit | trivial | dsimp only | intro _

theorem execPreemptSoft_keeps {z s : State} (h : Keeps z s) (eid : BitVec 16) :
    OutKeeps z (execPreemptSoft eid s) := by
  unfold execPreemptSoft
  with_reducible repeat' first | assumption | apply OptKeeps.some | apply OptKeeps.none | apply OptKeeps.map | apply agent_keeps | apply State.softRequest_keeps | apply State.notePreempt_keeps | split | apply Keeps.lit | trivial | dsimp only | intro _

theorem execPreemptHalt_keeps {z s : State} (h : Keeps z s) (eid : BitVec 16) :
    OutKeeps z (execPreemptHalt eid s) := by
  unfold execPreemptHalt
  with_reducible repeat' first | assumption | apply OptKeeps.some | apply OptKeeps.none | apply OptKeeps.map | apply agent_keeps | apply State.orderHalt_keeps | apply State.notePreempt_keeps | split | apply Keeps.lit | trivial | dsimp only | intro _

theorem execPreemptKill_keeps {z s : State} (h : Keeps z s) (eid : BitVec 16) :
    OutKeeps z (execPreemptKill eid s) := by
  unfold execPreemptKill
  with_reducible repeat' first | assumption | apply OptKeeps.some | apply OptKeeps.none | apply OptKeeps.map | apply agent_keeps | apply State.settleBusy_keeps | apply State.killTeams_keeps | apply State.endSoft_keeps | apply State.exitHosts_keeps | apply State.notePreempt_keeps | split | apply Keeps.lit | trivial | dsimp only | intro _

theorem execSoftRequestEnd_keeps {z s : State} (h : Keeps z s) (eid : Nat) :
    OutKeeps z (execSoftRequestEnd eid s) := by
  unfold execSoftRequestEnd
  with_reducible repeat' first | assumption | apply OptKeeps.some | apply OptKeeps.none | apply OptKeeps.map | apply agent_keeps | apply State.endSoft_keeps | split | apply Keeps.lit | trivial | dsimp only | intro _

theorem execG1Deadline_keeps {z s : State} (h : Keeps z s) (eid : Nat) :
    OutKeeps z (execG1Deadline eid s) := by
  unfold execG1Deadline
  with_reducible repeat' first | assumption | apply OptKeeps.some | apply OptKeeps.none | apply OptKeeps.map | apply agent_keeps | apply State.forceHalt_keeps | split | apply Keeps.lit | trivial | dsimp only | intro _

theorem execG2Deadline_keeps {z s : State} (h : Keeps z s) (eid : Nat) :
    OutKeeps z (execG2Deadline eid s) := by
  unfold execG2Deadline
  with_reducible repeat' first | assumption | apply OptKeeps.some | apply OptKeeps.none | apply OptKeeps.map | apply agent_keeps | apply State.killNamed_keeps | split | apply Keeps.lit | trivial | dsimp only | intro _

theorem State.placeSealed_keeps {z s : State} (h : Keeps z s) (n : Nat) (lead : Nat) (w : Nat × Nat × Nat) :
    OptKeeps z (State.placeSealed s n lead w) := by
  unfold State.placeSealed
  with_reducible repeat' first | assumption | apply OptKeeps.some | apply OptKeeps.none | apply OptKeeps.map | apply State.putWalker_keeps | refine OptKeeps.findSome fun x => ?_ | split | apply Keeps.lit | dsimp only | intro _

theorem State.placeAllSealed_keeps {z s : State} (h : Keeps z s) (n : Nat) (l : Launch) : Keeps z (State.placeAllSealed s n l) := by
  unfold State.placeAllSealed
  refine State.modLaunch_keeps (PairKeeps.fst (PairKeeps.foldl (fun p x g => ?_) (PairKeeps.mk h))) _ _
  split
  · next e => exact PairKeeps.mk (OptKeeps.of e (State.placeSealed_keeps g _ _ _))
  · exact PairKeeps.mk g

theorem State.addThread_keeps {z s : State} (h : Keeps z s) (i : ThreadId) (t : Thread) :
    Keeps z (State.addThread s i t) := by
  unfold State.addThread
  with_reducible repeat' first | assumption | split | apply Keeps.lit | dsimp only | intro _

theorem State.rewake_keeps {z s : State} (h : Keeps z s) (i : ThreadId) (n : Nat) (t : Thread) :
    Keeps z (State.rewake s i n t) := by
  unfold State.rewake
  with_reducible repeat' first | assumption | apply State.endLaunch_keeps | apply State.wake_keeps | split | apply Keeps.lit | dsimp only | intro _

theorem State.restoreTeam_keeps {z s : State} (h : Keeps z s) (l : Launch) (x : TeamImage) (core : Nat) (slot : Nat) :
    Keeps z (State.restoreTeam s l x core slot) := by
  unfold State.restoreTeam
  with_reducible repeat' first | assumption | apply State.modCore_keeps | apply State.put_keeps | apply State.evictLines_keeps | apply State.freshCode_keeps | apply State.modQuad_keeps | apply State.restamp_keeps | apply State.addThread_keeps | apply State.rewake_keeps | apply plan_keeps | refine Plan.Keeps.ofOk (by assumption) (plan_keeps ?_ _ _ _ _ _ _) | refine Plan.Keeps.ofWait (by assumption) (plan_keeps ?_ _ _ _ _ _ _) | refine Plan.Keeps.ofBad (by assumption) (plan_keeps ?_ _ _ _ _ _ _) | refine Keeps.foldl (fun s x h => ?_) ?_ | split | apply Keeps.lit | dsimp only | intro _

theorem State.restoreAt_keeps {z s : State} (h : Keeps z s) (eid : Nat) (e : Encl) (core : Nat) :
    OptKeeps z (State.restoreAt s eid e core) := by
  unfold State.restoreAt
  refine OptKeeps.findSome fun x => ?_
  split
  · trivial
  · split
    · trivial
    · next l _ _ =>
      cases s.restorePlan e x l core with
      | none => trivial
      | some plan =>
        dsimp only [Option.bind]
        split
        · exact State.failEnclave_keeps h _
        · refine withConstants_keeps h _ _ _ _ fun t ht => OptKeeps.some (State.newDigest_keeps (Keeps.foldl (fun s x h => State.scrubFrame_keeps h _)
            (State.modEncl_keeps (Keeps.foldl (fun s p h => ?_) ht) _ _)) _)
          split
          · exact State.restoreTeam_keeps h _ _ _ _
          · exact h

theorem State.restoreWalkers_keeps {z s : State} (h : Keeps z s) (n : Nat) (l : Launch) :
    Keeps z (State.restoreWalkers s n l) := by
  unfold State.restoreWalkers
  with_reducible repeat' first | assumption | apply State.modLaunch_keeps | apply State.scrubFrame_keeps | apply State.placeAllSealed_keeps | refine Keeps.foldl (fun s x h => ?_) ?_ | split | apply Keeps.lit | dsimp only | intro _

theorem execTimeSliceExpiry_keeps {z s : State} (h : Keeps z s) (eid : Nat) (core : Nat) :
    OutKeeps z (execTimeSliceExpiry eid core s) := by
  unfold execTimeSliceExpiry
  with_reducible repeat' first | assumption | apply OptKeeps.some | apply OptKeeps.none | apply OptKeeps.map | apply agent_keeps | apply State.softRequest_keeps | split | apply Keeps.lit | trivial | dsimp only | intro _

theorem execContextRestore_keeps {z s : State} (h : Keeps z s) (eid : Nat) (core : Nat) :
    OutKeeps z (execContextRestore eid core s) := by
  unfold execContextRestore
  with_reducible repeat' first | assumption | refine OptKeeps.mapOf (State.restoreAt_keeps ?_ _ _ _) ?_ | apply OptKeeps.some | apply OptKeeps.none | apply OptKeeps.map | apply State.failEnclave_keeps | apply agent_keeps | apply State.restoreClock_keeps | apply State.restoreAt_keeps | refine OptKeeps.getD (State.restoreAt_keeps ?_ _ _ _) ?_ | refine OptKeeps.of (by assumption) (State.restoreAt_keeps ?_ _ _ _) | apply State.restoreWalkers_keeps | refine Keeps.foldl (fun s x h => ?_) ?_ | split | apply Keeps.lit | trivial | dsimp only | intro _

theorem State.writePart_keeps {z s : State} (h : Keeps z s) (slice : Nat) (x : BitVec 64) :
    Keeps z (State.writePart s slice x) := by
  unfold State.writePart
  with_reducible repeat' first | assumption | apply State.put_keeps | split | apply Keeps.lit | dsimp only | intro _

theorem execPartWrite_keeps {z s : State} (h : Keeps z s) (slice : Nat) (value : BitVec 64) :
    OutKeeps z (execPartWrite slice value s) := by
  unfold execPartWrite
  with_reducible repeat' first | assumption | apply OptKeeps.some | apply OptKeeps.none | apply OptKeeps.map | apply agent_keeps | apply State.writePart_keeps | split | apply Keeps.lit | trivial | dsimp only | intro _

theorem State.moveWalkers_keeps {z s : State} (h : Keeps z s) (slices : List Nat) :
    Keeps z (State.moveWalkers s slices) := by
  unfold State.moveWalkers
  with_reducible repeat' first | assumption | apply State.modLaunch_keeps | refine Keeps.foldl (fun s x h => ?_) ?_ | split | apply Keeps.lit | dsimp only | intro _

theorem execPartitionResize_keeps {z s : State} (h : Keeps z s) (slice : Nat) :
    OutKeeps z (execPartitionResize slice s) := by
  unfold execPartitionResize
  with_reducible repeat' first | assumption | apply OptKeeps.some | apply OptKeeps.none | apply OptKeeps.map | apply State.put_keeps | apply agent_keeps | apply State.softOn_keeps | apply State.moveWalkers_keeps | split | apply Keeps.lit | trivial | dsimp only | intro _

theorem State.quadOut_keeps {z s : State} (h : Keeps z s) (q : Nat) :
    Keeps z (State.quadOut s q) := by
  unfold State.quadOut
  with_reducible repeat' first | assumption | apply State.modQuad_keeps | apply State.softOn_keeps | split | apply Keeps.lit | dsimp only | intro _

theorem execQuadsvcOut_keeps {z s : State} (h : Keeps z s) (slice : Nat) (quad : Nat) :
    OutKeeps z (execQuadsvcOut slice quad s) := by
  unfold execQuadsvcOut
  with_reducible repeat' first | assumption | apply OptKeeps.some | apply OptKeeps.none | apply OptKeeps.map | apply agent_keeps | apply State.quadOut_keeps | split | apply Keeps.lit | trivial | dsimp only | intro _

theorem execQuadsvcIn_keeps {z s : State} (h : Keeps z s) (slice : Nat) (quad : Nat) :
    OutKeeps z (execQuadsvcIn slice quad s) := by
  unfold execQuadsvcIn
  with_reducible repeat' first | assumption | apply OptKeeps.some | apply OptKeeps.none | apply OptKeeps.map | apply agent_keeps | apply State.modQuad_keeps | split | apply Keeps.lit | trivial | dsimp only | intro _

theorem execCeownWrite_keeps {z s : State} (h : Keeps z s) (engine : Nat) (value : BitVec 64) :
    OutKeeps z (execCeownWrite engine value s) := by
  unfold execCeownWrite
  with_reducible repeat' first | assumption | apply OptKeeps.some | apply OptKeeps.none | apply OptKeeps.map | apply agent_keeps | apply State.applyCeown_keeps | split | apply Keeps.lit | trivial | dsimp only | intro _

theorem State.moveBlock_keeps {z s : State} (h : Keeps z s) (f : Nat) (new : Byte) :
    Keeps z (State.moveBlock s f new) := by
  unfold State.moveBlock
  with_reducible repeat' first | assumption | apply State.evictLines_keeps | split | apply Keeps.lit | dsimp only | intro _

theorem execBlkmove_keeps {z s : State} (h : Keeps z s) (value : BitVec 64) :
    OutKeeps z (execBlkmove value s) := by
  unfold execBlkmove
  with_reducible repeat' first | assumption | apply OptKeeps.some | apply OptKeeps.none | apply OptKeeps.map | apply agent_keeps | apply State.moveBlock_keeps | split | apply Keeps.lit | trivial | dsimp only | intro _

/-! Protect -/

theorem State.blockScrubbed_keeps {z s : State} (h : Keeps z s) (frame : Nat) :
    Keeps z (State.blockScrubbed s frame) := by
  unfold State.blockScrubbed
  with_reducible repeat' first | assumption | split | apply Keeps.lit | dsimp only | intro _

theorem execScrubEnd_keeps {z s : State} (h : Keeps z s) (frame : Nat) :
    OutKeeps z (execScrubEnd frame s) := by
  unfold execScrubEnd
  with_reducible repeat' first | assumption | apply OptKeeps.some | apply OptKeeps.none | apply OptKeeps.map | apply State.setPot_keeps | apply agent_keeps | apply State.scrubFrame_keeps | apply State.blockScrubbed_keeps | split | apply Keeps.lit | trivial | dsimp only | intro _

theorem execKeyRotation_keeps {z s : State} (h : Keeps z s) (eid : Nat) :
    OutKeeps z (execKeyRotation eid s) := by
  unfold execKeyRotation
  with_reducible repeat' first | assumption | apply OptKeeps.some | apply OptKeeps.none | apply OptKeeps.map | apply State.modEncl_keeps | apply State.put_keeps | apply agent_keeps | apply State.revoke_keeps | split | apply Keeps.lit | trivial | dsimp only | intro _

theorem State.startSweep_keeps {z s : State} (h : Keeps z s) (frame : Nat) (dst : Option Nat) :
    OptKeeps z (State.startSweep s frame dst) := by
  unfold State.startSweep
  with_reducible repeat' first | assumption | apply OptKeeps.some | apply OptKeeps.none | apply OptKeeps.map | apply State.setPot_keeps | apply State.put_keeps | split | apply Keeps.lit | dsimp only | intro _

theorem State.endSweep_keeps {z s : State} (h : Keeps z s) (frame : Nat) (w : Sweep) :
    OptKeeps z (State.endSweep s frame w) := by
  unfold State.endSweep
  with_reducible repeat' first | assumption | apply OptKeeps.some | apply OptKeeps.none | apply OptKeeps.map | apply State.setPot_keeps | apply State.pokeAll_keeps | apply State.recall_keeps | apply State.putEntry_keeps | apply State.scrubFor_keeps | split | apply Keeps.lit | dsimp only | intro _

theorem execSweep_keeps {z s : State} (h : Keeps z s) (x : Swept) :
    OutKeeps z (execSweep x s) := by
  unfold execSweep
  with_reducible repeat' first | assumption | refine OptKeeps.mapOf (State.endSweep_keeps ?_ _ _) ?_ | refine OptKeeps.mapOf (State.startSweep_keeps ?_ _ _) ?_ | apply OptKeeps.some | apply OptKeeps.none | apply OptKeeps.map | apply State.put_keeps | apply agent_keeps | apply State.inject_keeps | apply State.grant_keeps | apply State.poisonFrame_keeps | apply State.startSweep_keeps | refine OptKeeps.getD (State.startSweep_keeps ?_ _ _) ?_ | refine OptKeeps.of (by assumption) (State.startSweep_keeps ?_ _ _) | apply State.endSweep_keeps | refine OptKeeps.getD (State.endSweep_keeps ?_ _ _) ?_ | refine OptKeeps.of (by assumption) (State.endSweep_keeps ?_ _ _) | split | apply Keeps.lit | trivial | dsimp only | intro _

theorem execInjtagArm_keeps {z s : State} (h : Keeps z s) (line : BitVec 42) :
    OutKeeps z (execInjtagArm line s) := by
  unfold execInjtagArm
  with_reducible repeat' first | assumption | apply OptKeeps.some | apply OptKeeps.none | apply OptKeeps.map | apply agent_keeps | split | apply Keeps.lit | trivial | dsimp only | intro _

theorem execInjtagDisarm_keeps {z s : State} (h : Keeps z s) (_line : BitVec 42) :
    OutKeeps z (execInjtagDisarm _line s) := by
  unfold execInjtagDisarm
  with_reducible repeat' first | assumption | apply OptKeeps.some | apply OptKeeps.none | apply OptKeeps.map | apply agent_keeps | split | apply Keeps.lit | trivial | dsimp only | intro _

theorem planFault_keeps {z s : State} (h : Keeps z s) (agent : Nat × Nat) (a : Access) (f : TFault) :
    Plan.Keeps z (planFault s agent a f) := by
  unfold planFault
  with_reducible repeat' first | assumption | apply Plan.Keeps.wait | apply Plan.Keeps.bad | apply agent_keeps | apply State.retryFault_keeps | refine Retry.Keeps.ofWait (by assumption) (State.retryFault_keeps ?_ _ _ _ _ _ _) | refine Retry.Keeps.ofTerminal (by assumption) (State.retryFault_keeps ?_ _ _ _ _ _ _) | apply State.terminalFault_keeps | split | apply Keeps.lit | trivial | dsimp only | intro _

theorem plan_keeps {z s : State} (h : Keeps z s) (agent : Nat × Nat) (sp : Space) (write : Bool) (x0 : Nat) (x1 : Nat) (x2 : Nat) :
    Plan.Keeps z (plan s agent sp write x0 x1 x2) := by
  induction x0 generalizing s agent sp write x1 x2 with
  | zero => unfold plan; with_reducible repeat' first | assumption | apply Plan.Keeps.ok | apply Plan.Keeps.bad | apply agent_keeps | apply translate_keeps | refine ExKeeps.of (by assumption) (translate_keeps ?_ _) | apply planFault_keeps | refine Plan.Keeps.ofOk (by assumption) (planFault_keeps ?_ _ _ _) | refine Plan.Keeps.ofWait (by assumption) (planFault_keeps ?_ _ _ _) | refine Plan.Keeps.ofBad (by assumption) (planFault_keeps ?_ _ _ _) | apply ih | refine Plan.Keeps.ofOk (by assumption) (ih ?_ _ _ _ _ _) | refine Plan.Keeps.ofWait (by assumption) (ih ?_ _ _ _ _ _) | refine Plan.Keeps.ofBad (by assumption) (ih ?_ _ _ _ _ _) | split | apply Keeps.lit | trivial | dsimp only | intro _
  | succ _ ih => unfold plan; with_reducible repeat' first | assumption | apply Plan.Keeps.ok | apply Plan.Keeps.bad | apply agent_keeps | apply translate_keeps | refine ExKeeps.of (by assumption) (translate_keeps ?_ _) | apply planFault_keeps | refine Plan.Keeps.ofOk (by assumption) (planFault_keeps ?_ _ _ _) | refine Plan.Keeps.ofWait (by assumption) (planFault_keeps ?_ _ _ _) | refine Plan.Keeps.ofBad (by assumption) (planFault_keeps ?_ _ _ _) | apply ih | refine Plan.Keeps.ofOk (by assumption) (ih ?_ _ _ _ _ _) | refine Plan.Keeps.ofWait (by assumption) (ih ?_ _ _ _ _ _) | refine Plan.Keeps.ofBad (by assumption) (ih ?_ _ _ _ _ _) | split | apply Keeps.lit | trivial | dsimp only | intro _

theorem State.pin_keeps {z s : State} (h : Keeps z s) (frames : List Nat) :
    Keeps z (State.pin s frames) := by
  unfold State.pin
  with_reducible repeat' first | assumption | refine Keeps.foldl (fun s x h => ?_) ?_ | split | apply Keeps.lit | dsimp only | intro _

theorem State.unpin_keeps {z s : State} (h : Keeps z s) (frames : List Nat) :
    Keeps z (State.unpin s frames) := by
  unfold State.unpin
  with_reducible repeat' first | assumption | refine Keeps.foldl (fun s x h => ?_) ?_ | split | apply Keeps.lit | dsimp only | intro _

theorem transferAt_keeps {z s : State} (h : Keeps z s) (agent : Nat × Nat) (sp : Space) (write : Bool) (x0 : List (Nat × Nat)) (x1 : Nat) (x2 : List Byte) :
    Keeps z (transferAt s agent sp write x0 x1 x2) := by
  induction x0 generalizing s agent sp write x1 x2 with
  | nil => unfold transferAt; with_reducible repeat' first | assumption | apply agent_keeps | apply State.l2Read_keeps | apply State.poisonFrame_keeps | apply State.homeStore_keeps | apply ih | split | apply Keeps.lit | dsimp only | intro _
  | cons _ _ ih => unfold transferAt; with_reducible repeat' first | assumption | apply agent_keeps | apply State.l2Read_keeps | apply State.poisonFrame_keeps | apply State.homeStore_keeps | apply ih | split | apply Keeps.lit | dsimp only | intro _

theorem State.putDma_keeps {z s : State} (h : Keeps z s) (d : Dma) :
    Keeps z (State.putDma s d) := by
  unfold State.putDma
  with_reducible repeat' first | assumption | split | apply Keeps.lit | dsimp only | intro _

theorem State.dropDma_keeps {z s : State} (h : Keeps z s) (d : Dma) :
    Keeps z (State.dropDma s d) := by
  unfold State.dropDma
  with_reducible repeat' first | assumption | split | apply Keeps.lit | dsimp only | intro _

theorem State.submit_keeps {z s : State} (h : Keeps z s) (agent : Nat × Nat) (d : Dma) :
    OptKeeps z (State.submit s agent d) := by
  unfold State.submit
  with_reducible repeat' first | assumption | apply OptKeeps.some | apply OptKeeps.none | apply OptKeeps.map | apply agent_keeps | apply State.retryFault_keeps | refine Retry.Keeps.ofWait (by assumption) (State.retryFault_keeps ?_ _ _ _ _ _ _) | refine Retry.Keeps.ofTerminal (by assumption) (State.retryFault_keeps ?_ _ _ _ _ _ _) | apply plan_keeps | refine Plan.Keeps.ofOk (by assumption) (plan_keeps ?_ _ _ _ _ _ _) | refine Plan.Keeps.ofWait (by assumption) (plan_keeps ?_ _ _ _ _ _ _) | refine Plan.Keeps.ofBad (by assumption) (plan_keeps ?_ _ _ _ _ _ _) | apply State.pin_keeps | apply State.putDma_keeps | apply State.dropDma_keeps | split | apply Keeps.lit | dsimp only | intro _

theorem State.dmaTurn_keeps {z s : State} (h : Keeps z s) (agent : Nat × Nat) (d : Dma) (moves : Bool) :
    OptKeeps z (State.dmaTurn s agent d moves) := by
  unfold State.dmaTurn
  with_reducible repeat' first | assumption | refine OptKeeps.mapOf (State.submit_keeps ?_ _ _) ?_ | apply OptKeeps.some | apply OptKeeps.none | apply OptKeeps.map | apply agent_keeps | apply State.unpin_keeps | apply transferAt_keeps | apply State.dropDma_keeps | apply State.submit_keeps | refine OptKeeps.getD (State.submit_keeps ?_ _ _) ?_ | refine OptKeeps.of (by assumption) (State.submit_keeps ?_ _ _) | split | apply Keeps.lit | dsimp only | intro _

theorem execStartInterfaceRequest_keeps {z s : State} (h : Keeps z s) (tdi : Nat) (eid : Nat) :
    OutKeeps z (execStartInterfaceRequest tdi eid s) := by
  unfold execStartInterfaceRequest
  with_reducible repeat' first | assumption | apply OptKeeps.some | apply OptKeeps.none | apply OptKeeps.map | apply State.put_keeps | apply agent_keeps | split | apply Keeps.lit | trivial | dsimp only | intro _

theorem execTdispDmaRequest_keeps {z s : State} (h : Keeps z s) (tdi : Nat) (tbit : Bool) (va : BitVec 64) (write : Bool) (data : List (BitVec 8)) :
    OutKeeps z (execTdispDmaRequest tdi tbit va write data s) := by
  unfold execTdispDmaRequest
  with_reducible repeat' first | assumption | refine OptKeeps.mapOf (State.dmaTurn_keeps ?_ _ _ _) ?_ | apply OptKeeps.some | apply OptKeeps.none | apply OptKeeps.map | apply agent_keeps | apply State.terminalRecord_keeps | apply State.dmaTurn_keeps | refine OptKeeps.getD (State.dmaTurn_keeps ?_ _ _ _) ?_ | refine OptKeeps.of (by assumption) (State.dmaTurn_keeps ?_ _ _ _) | split | apply Keeps.lit | trivial | dsimp only | intro _

theorem execLinkFlitReceive_keeps {z s : State} (h : Keeps z s) (link : Nat) (stream : Nat) (good : Bool) (va : BitVec 64) (data : List (BitVec 8)) :
    OutKeeps z (execLinkFlitReceive link stream good va data s) := by
  unfold execLinkFlitReceive
  with_reducible repeat' first | assumption | refine OptKeeps.mapOf (State.dmaTurn_keeps ?_ _ _ _) ?_ | refine OptKeeps.mapOf (State.submit_keeps ?_ _ _) ?_ | apply OptKeeps.some | apply OptKeeps.none | apply OptKeeps.map | apply State.put_keeps | apply agent_keeps | apply State.terminalRecord_keeps | apply State.submit_keeps | refine OptKeeps.getD (State.submit_keeps ?_ _ _) ?_ | refine OptKeeps.of (by assumption) (State.submit_keeps ?_ _ _) | apply State.dmaTurn_keeps | refine OptKeeps.getD (State.dmaTurn_keeps ?_ _ _ _) ?_ | refine OptKeeps.of (by assumption) (State.dmaTurn_keeps ?_ _ _ _) | split | apply Keeps.lit | trivial | dsimp only | intro _

/-! Resilience -/

theorem State.modTrip_keeps {z s : State} (h : Keeps z s) (n : Nat) (f : Trip → Trip) :
    Keeps z (State.modTrip s n f) := by
  unfold State.modTrip
  with_reducible repeat' first | assumption | apply State.put_keeps | split | apply Keeps.lit | dsimp only | intro _

theorem State.resyncStart_keeps {z s : State} (h : Keeps z s) (n : Nat) (copy : Nat) :
    Keeps z (State.resyncStart s n copy) := by
  unfold State.resyncStart
  with_reducible repeat' first | assumption | apply State.rasEvent_keeps | apply State.modTrip_keeps | split | apply Keeps.lit | dsimp only | intro _

theorem execTripletDissent_keeps {z s : State} (h : Keeps z s) (trip : Triplet) (copy : Nat) :
    OutKeeps z (execTripletDissent trip copy s) := by
  unfold execTripletDissent
  with_reducible repeat' first | assumption | apply OptKeeps.some | apply OptKeeps.none | apply OptKeeps.map | apply agent_keeps | apply State.resyncStart_keeps | split | apply Keeps.lit | trivial | dsimp only | intro _

theorem execResyncEnd_keeps {z s : State} (h : Keeps z s) (trip : Triplet) :
    OutKeeps z (execResyncEnd trip s) := by
  unfold execResyncEnd
  with_reducible repeat' first | assumption | apply OptKeeps.some | apply OptKeeps.none | apply OptKeeps.map | apply agent_keeps | apply State.modTrip_keeps | split | apply Keeps.lit | trivial | dsimp only | intro _

theorem State.stopCp_keeps {z s : State} (h : Keeps z s) (lead : Nat) :
    Keeps z (State.stopCp s lead) := by
  unfold State.stopCp
  with_reducible repeat' first | assumption | apply State.endLaunch_keeps | refine Keeps.foldl (fun s x h => ?_) ?_ | split | apply Keeps.lit | dsimp only | intro _

theorem State.endWalks_keeps {z s : State} (h : Keeps z s)  :
    Keeps z (State.endWalks s) := by
  unfold State.endWalks
  with_reducible repeat' first | assumption | apply State.endLaunch_keeps | refine Keeps.foldl (fun s x h => ?_) ?_ | split | apply Keeps.lit | dsimp only | intro _

theorem State.stopWork_keeps {z s : State} (h : Keeps z s) (t : Triplet) :
    Keeps z (State.stopWork s t) := by
  unfold State.stopWork
  with_reducible repeat' first | assumption | apply State.endLaunch_keeps | apply State.terminalRecord_keeps | apply State.stopCp_keeps | apply State.endWalks_keeps | split | apply Keeps.lit | dsimp only | intro _

theorem State.stopTriplet_keeps {z s : State} (h : Keeps z s) (trip : Triplet) :
    Keeps z (State.stopTriplet s trip) := by
  unfold State.stopTriplet
  with_reducible repeat' first | assumption | apply State.rasEvent_keeps | apply State.modTrip_keeps | apply State.stopWork_keeps | split | apply Keeps.lit | dsimp only | intro _

theorem execTripletStop_keeps {z s : State} (h : Keeps z s) (trip : Triplet) :
    OutKeeps z (execTripletStop trip s) := by
  unfold execTripletStop
  with_reducible repeat' first | assumption | apply OptKeeps.some | apply OptKeeps.none | apply OptKeeps.map | apply agent_keeps | apply State.stopTriplet_keeps | split | apply Keeps.lit | trivial | dsimp only | intro _

theorem State.copyError_keeps {z s : State} (h : Keeps z s) (trip : Triplet) (copy : Nat) :
    Keeps z (State.copyError s trip copy) := by
  unfold State.copyError
  with_reducible repeat' first | assumption | apply State.resyncStart_keeps | apply State.stopTriplet_keeps | split | apply Keeps.lit | dsimp only | intro _

theorem State.releaseQueues_keeps {z s : State} (h : Keeps z s) (lead : Nat) :
    Keeps z (State.releaseQueues s lead) := by
  unfold State.releaseQueues
  with_reducible repeat' first | assumption | split | apply Keeps.lit | dsimp only | intro _

theorem execTripletRestart_keeps {z s : State} (h : Keeps z s) (trip : Triplet) :
    OutKeeps z (execTripletRestart trip s) := by
  unfold execTripletRestart
  with_reducible repeat' first | assumption | apply OptKeeps.some | apply OptKeeps.none | apply OptKeeps.map | apply agent_keeps | apply State.modTrip_keeps | apply State.releaseQueues_keeps | split | apply Keeps.lit | trivial | dsimp only | intro _

theorem State.eccError_keeps {z s : State} (h : Keeps z s) (cls : Nat) (slice : Nat) (uncorr : Bool) :
    Keeps z (State.eccError s cls slice uncorr) := by
  unfold State.eccError
  with_reducible repeat' first | assumption | apply State.rasEvent_keeps | split | apply Keeps.lit | dsimp only | intro _

theorem State.noteQuad_keeps {z s : State} (h : Keeps z s) (q : Nat) (uncorr : Bool) :
    Keeps z (State.noteQuad s q uncorr) := by
  unfold State.noteQuad
  with_reducible repeat' first | assumption | apply State.modQuad_keeps | split | apply Keeps.lit | dsimp only | intro _

theorem State.coreError_keeps {z s : State} (h : Keeps z s) (cls : Nat) (core : Nat) (uncorr : Bool) :
    Keeps z (State.coreError s cls core uncorr) := by
  unfold State.coreError
  with_reducible repeat' first | assumption | apply State.eccError_keeps | apply State.noteQuad_keeps | split | apply Keeps.lit | dsimp only | intro _

theorem State.tandemDown_keeps {z s : State} (h : Keeps z s)  :
    Keeps z (State.tandemDown s) := by
  unfold State.tandemDown
  with_reducible repeat' first | assumption | apply State.rasEvent_keeps | apply State.stopCp_keeps | refine Keeps.foldl (fun s x h => ?_) ?_ | split | apply Keeps.lit | dsimp only | intro _

theorem execUncorrectableError_keeps {z s : State} (h : Keeps z s) (site : ErrorSite) :
    OutKeeps z (execUncorrectableError site s) := by
  unfold execUncorrectableError
  with_reducible repeat' first | assumption | apply OptKeeps.some | apply OptKeeps.none | apply OptKeeps.map | apply State.modThread_keeps | apply State.modTeam_keeps | apply agent_keeps | apply State.poisonMany_keeps | apply State.poisonFrame_keeps | apply State.modStore_keeps | apply State.modQuad_keeps | apply State.copyError_keeps | apply State.eccError_keeps | apply State.noteQuad_keeps | apply State.coreError_keeps | apply State.tandemDown_keeps | split | apply Keeps.lit | trivial | dsimp only | intro _

theorem execQuadAutoRemove_keeps {z s : State} (h : Keeps z s) (slice : Nat) (quad : Nat) :
    OutKeeps z (execQuadAutoRemove slice quad s) := by
  unfold execQuadAutoRemove
  with_reducible repeat' first | assumption | apply OptKeeps.some | apply OptKeeps.none | apply OptKeeps.map | apply agent_keeps | apply State.rasEvent_keeps | apply State.modQuad_keeps | apply State.quadOut_keeps | split | apply Keeps.lit | trivial | dsimp only | intro _

theorem execTandemFailover_keeps {z s : State} (h : Keeps z s)  :
    OutKeeps z (execTandemFailover s) := by
  unfold execTandemFailover
  with_reducible repeat' first | assumption | apply OptKeeps.some | apply OptKeeps.none | apply OptKeeps.map | apply agent_keeps | apply State.tandemDown_keeps | split | apply Keeps.lit | trivial | dsimp only | intro _

theorem execTandemRejoin_keeps {z s : State} (h : Keeps z s) (ok : Bool) :
    OutKeeps z (execTandemRejoin ok s) := by
  unfold execTandemRejoin
  with_reducible repeat' first | assumption | apply OptKeeps.some | apply OptKeeps.none | apply OptKeeps.map | apply agent_keeps | apply State.rasEvent_keeps | split | apply Keeps.lit | trivial | dsimp only | intro _

theorem execTandemSimplexFailure_keeps {z s : State} (h : Keeps z s)  :
    OutKeeps z (execTandemSimplexFailure s) := by
  unfold execTandemSimplexFailure
  with_reducible repeat' first | assumption | apply OptKeeps.some | apply OptKeeps.none | apply OptKeeps.map | apply agent_keeps | apply State.tandemDown_keeps | split | apply Keeps.lit | trivial | dsimp only | intro _

theorem State.endUpdate_keeps {z s : State} (h : Keeps z s) (result : Nat) :
    Keeps z (State.endUpdate s result) := by
  unfold State.endUpdate
  with_reducible repeat' first | assumption | apply State.rasEvent_keeps | split | apply Keeps.lit | dsimp only | intro _

theorem State.startUpdate_keeps {z s : State} (h : Keeps z s) (v : BitVec 64) :
    Keeps z (State.startUpdate s v) := by
  unfold State.startUpdate
  with_reducible repeat' first | assumption | split | apply Keeps.lit | dsimp only | intro _

theorem execFwupd_keeps {z s : State} (h : Keeps z s) (value : BitVec 64) :
    OutKeeps z (execFwupd value s) := by
  unfold execFwupd
  with_reducible repeat' first | assumption | apply OptKeeps.some | apply OptKeeps.none | apply OptKeeps.map | apply agent_keeps | apply State.endUpdate_keeps | apply State.startUpdate_keeps | split | apply Keeps.lit | trivial | dsimp only | intro _

theorem execFrlostClear_keeps {z s : State} (h : Keeps z s)  :
    OutKeeps z (execFrlostClear s) := by
  unfold execFrlostClear
  with_reducible repeat' first | assumption | apply OptKeeps.some | apply OptKeeps.none | apply OptKeeps.map | apply agent_keeps | split | apply Keeps.lit | trivial | dsimp only | intro _

theorem execTrstatClear_keeps {z s : State} (h : Keeps z s)  :
    OutKeeps z (execTrstatClear s) := by
  unfold execTrstatClear
  with_reducible repeat' first | assumption | apply OptKeeps.some | apply OptKeeps.none | apply OptKeeps.map | apply agent_keeps | apply State.modTrip_keeps | split | apply Keeps.lit | trivial | dsimp only | intro _

theorem execEcccntClear_keeps {z s : State} (h : Keeps z s)  :
    OutKeeps z (execEcccntClear s) := by
  unfold execEcccntClear
  with_reducible repeat' first | assumption | apply OptKeeps.some | apply OptKeeps.none | apply OptKeeps.map | apply agent_keeps | split | apply Keeps.lit | trivial | dsimp only | intro _

theorem execRasstatClear_keeps {z s : State} (h : Keeps z s) (value : BitVec 64) :
    OutKeeps z (execRasstatClear value s) := by
  unfold execRasstatClear
  with_reducible repeat' first | assumption | apply OptKeeps.some | apply OptKeeps.none | apply OptKeeps.map | apply agent_keeps | split | apply Keeps.lit | trivial | dsimp only | intro _

theorem execSevcntClear_keeps {z s : State} (h : Keeps z s)  :
    OutKeeps z (execSevcntClear s) := by
  unfold execSevcntClear
  with_reducible repeat' first | assumption | apply OptKeeps.some | apply OptKeeps.none | apply OptKeeps.map | apply agent_keeps | split | apply Keeps.lit | trivial | dsimp only | intro _

theorem State.writeRegister_keeps {z s : State} (h : Keeps z s) (off : Nat) (v : Nat) :
    Keeps z (State.writeRegister s off v) := by
  unfold State.writeRegister
  with_reducible repeat' first | assumption | apply State.modEncl_keeps | split | apply Keeps.lit | dsimp only | intro _

theorem execRegisterWrite_keeps {z s : State} (h : Keeps z s) (offset : Nat) (value : BitVec 64) :
    OutKeeps z (execRegisterWrite offset value s) := by
  unfold execRegisterWrite
  with_reducible repeat' first | assumption | apply OptKeeps.some | apply OptKeeps.none | apply OptKeeps.map | apply agent_keeps | apply State.writeRegister_keeps | split | apply Keeps.lit | trivial | dsimp only | intro _

/-! Checkpoint -/

theorem State.ckNote_keeps {z s : State} (h : Keeps z s) (eid : Nat) (event : Nat) (x : CkStatus) :
    Keeps z (State.ckNote s eid event x) := by
  unfold State.ckNote
  with_reducible repeat' first | assumption | apply State.put_keeps | apply State.assertIrq_keeps | split | apply Keeps.lit | dsimp only | intro _

theorem State.notify_keeps {z s : State} (h : Keeps z s) (eid : Nat) (deadline : Nat) :
    Keeps z (State.notify s eid deadline) := by
  unfold State.notify
  with_reducible repeat' first | assumption | apply State.modEncl_keeps | apply State.looseCount_keeps | apply State.softRequest_keeps | apply State.ckNote_keeps | split | apply Keeps.lit | dsimp only | intro _

theorem State.respond_keeps {z s : State} (h : Keeps z s) (code : Nat) :
    Keeps z (State.respond s code) := by
  unfold State.respond
  with_reducible repeat' first | assumption | split | apply Keeps.lit | dsimp only | intro _

theorem execNotice_keeps {z s : State} (h : Keeps z s) (eid : BitVec 16) (deadline : BitVec 64) :
    OutKeeps z (execNotice eid deadline s) := by
  unfold execNotice
  with_reducible repeat' first | assumption | apply OptKeeps.some | apply OptKeeps.none | apply OptKeeps.map | apply agent_keeps | apply State.notify_keeps | apply State.respond_keeps | refine Keeps.foldl (fun s x h => ?_) ?_ | split | apply Keeps.lit | trivial | dsimp only | intro _

theorem execNoticeDeadline_keeps {z s : State} (h : Keeps z s) (eid : Nat) :
    OutKeeps z (execNoticeDeadline eid s) := by
  unfold execNoticeDeadline
  with_reducible repeat' first | assumption | apply OptKeeps.some | apply OptKeeps.none | apply OptKeeps.map | apply State.modEncl_keeps | apply agent_keeps | apply State.orderHalt_keeps | apply State.ckNote_keeps | split | apply Keeps.lit | trivial | dsimp only | intro _

theorem State.ckResult_keeps {z s : State} (h : Keeps z s) (eid : Nat) (e : Encl) (rva : Nat) (step : Nat) (x : CkStatus) (kind : Nat) :
    PairKeeps z (State.ckResult s eid e rva step x kind) := by
  unfold State.ckResult
  with_reducible repeat' first | assumption | apply writeSignal_keeps | refine CpRead.Keeps.ofOk (by assumption) (writeSignal_keeps ?_ _ _ _ _ _) | refine CpRead.Keeps.ofWait (by assumption) (writeSignal_keeps ?_ _ _ _ _ _) | refine CpRead.Keeps.ofBad (by assumption) (writeSignal_keeps ?_ _ _ _ _ _) | apply State.countHandle_keeps | apply State.releaseContext_keeps | refine PairKeeps.of (by assumption) (State.releaseContext_keeps ?_ _) | refine PairKeeps.fst (State.releaseContext_keeps ?_ _) | apply step_keeps | split | apply Keeps.lit | dsimp only | intro _ | apply PairKeeps.mk

theorem State.endHalt_keeps {z s : State} (h : Keeps z s) (eid : Nat) (stay : Bool) :
    Keeps z (State.endHalt s eid stay) := by
  unfold State.endHalt
  with_reducible repeat' first | assumption | apply State.modEncl_keeps | apply State.resumeContext_keeps | split | apply Keeps.lit | dsimp only | intro _

theorem State.finishJob_keeps {z s : State} (h : Keeps z s) (j : CkJob) (e : Encl) (r : CkResult) :
    Keeps z (State.finishJob s j e r) := by
  unfold State.finishJob
  with_reducible repeat' first | assumption | apply State.ckNote_keeps | apply State.ckResult_keeps | refine PairKeeps.of (by assumption) (State.ckResult_keeps ?_ _ _ _ _ _ _) | refine PairKeeps.fst (State.ckResult_keeps ?_ _ _ _ _ _ _) | apply State.endHalt_keeps | split | apply Keeps.lit | dsimp only | intro _

theorem State.endJob_keeps {z s : State} (h : Keeps z s) (j : CkJob) (e : Encl) (r : CkResult) :
    Keeps z (State.endJob s j e r) := by
  unfold State.endJob
  with_reducible repeat' first | assumption | apply State.finishJob_keeps | split | apply Keeps.lit | dsimp only | intro _

theorem State.refuseBusy_keeps {z s : State} (h : Keeps z s) (j : CkJob) :
    OptKeeps z (State.refuseBusy s j) := by
  unfold State.refuseBusy
  with_reducible repeat' first | assumption | apply OptKeeps.some | apply OptKeeps.none | apply OptKeeps.map | apply State.ckResult_keeps | refine PairKeeps.of (by assumption) (State.ckResult_keeps ?_ _ _ _ _ _ _) | refine PairKeeps.fst (State.ckResult_keeps ?_ _ _ _ _ _ _) | split | apply Keeps.lit | dsimp only | intro _

theorem State.spoilAreas_keeps {z s : State} (h : Keeps z s)  :
    Keeps z (State.spoilAreas s) := by
  unfold State.spoilAreas
  with_reducible repeat' first | assumption | apply State.freshen_keeps | apply State.homeWrite_keeps | refine Keeps.foldl (fun s x h => ?_) ?_ | split | apply Keeps.lit | dsimp only | intro _

theorem State.formCheckpoint_keeps {z s : State} (h : Keeps z s) (j : CkJob) (e : Encl) :
    Keeps z (State.formCheckpoint s j e) := by
  unfold State.formCheckpoint
  with_reducible repeat' first | assumption | apply State.modEncl_keeps | apply State.poisonFrame_keeps | apply State.homeWrite_keeps | apply State.endJob_keeps | apply State.spoilAreas_keeps | refine Keeps.foldl (fun s x h => ?_) ?_ | split | apply Keeps.lit | dsimp only | intro _

theorem execCheckpoint_keeps {z s : State} (h : Keeps z s) (eid : Nat) :
    OutKeeps z (execCheckpoint eid s) := by
  unfold execCheckpoint
  with_reducible repeat' first | assumption | refine OptKeeps.mapOf (State.refuseBusy_keeps ?_ _) ?_ | apply OptKeeps.some | apply OptKeeps.none | apply OptKeeps.map | apply agent_keeps | apply State.forceHalt_keeps | apply State.haltContext_keeps | apply State.finishJob_keeps | apply State.endJob_keeps | apply State.refuseBusy_keeps | refine OptKeeps.getD (State.refuseBusy_keeps ?_ _) ?_ | refine OptKeeps.of (by assumption) (State.refuseBusy_keeps ?_ _) | apply State.formCheckpoint_keeps | split | apply Keeps.lit | trivial | dsimp only | intro _

theorem State.putRec_keeps {z s : State} (h : Keeps z s) (x : Ecd) (r : PageRec) :
    Keeps z (State.putRec s x r) := by
  unfold State.putRec
  with_reducible repeat' first | assumption | apply State.setPot_keeps | apply State.homeWrite_keeps | apply State.putEntry_keeps | split | apply Keeps.lit | dsimp only | intro _

theorem State.putImage_keeps {z s : State} (h : Keeps z s) (eid : Nat) (x : TeamImage) :
    Keeps z (State.putImage s eid x) := by
  unfold State.putImage
  with_reducible repeat' first | assumption | apply State.modEncl_keeps | apply State.writeImage_keeps | split | apply Keeps.lit | dsimp only | intro _

theorem State.loadImage_keeps {z s : State} (h : Keeps z s) (eid : Nat) (e : Encl) (frames : List EcdPage) (img : CkImage) :
    Keeps z (State.loadImage s eid e frames img) := by
  unfold State.loadImage
  with_reducible repeat' first | assumption | apply State.modEncl_keeps | apply State.put_keeps | apply takeFrame_keeps | apply buildTables_keeps | apply State.scrubFor_keeps | apply State.newDigest_keeps | apply State.sealLaunch_keeps | apply State.restoreClock_keeps | apply State.putRec_keeps | apply State.putImage_keeps | refine Keeps.foldl (fun s x h => ?_) ?_ | split | apply Keeps.lit | dsimp only | intro _

theorem restoreKey_keeps {z s : State} (h : Keeps z s) (j : CkJob) (e : Encl) (m : List Byte) : CpRead.Keeps z (restoreKey s j e m) := by
  unfold restoreKey
  split
  · exact cpRead_keeps h _ _ _ _ _
  · extract_lets b
    clear_value b
    split
    · exact h
    · generalize gcmOpen _ _ _ _ _ = r
      cases r with
      | none => exact h
      | some k => exact h

theorem checkShards_keeps {z s : State} (h : Keeps z s) (j : CkJob) (e : Encl) (m : List Byte) (ek : List Byte) (shards : List (List Byte)) :
    Checked.Keeps z (checkShards s j e m ek shards) := by
  unfold checkShards
  with_reducible repeat' first | assumption | apply Checked.Keeps.fail | apply Checked.Keeps.good | apply step_keeps | split | apply Keeps.lit | trivial | dsimp only | intro _

theorem checkRestore_keeps {z s : State} (h : Keeps z s) (j : CkJob) (e : Encl) : Checked.Keeps z (checkRestore s j e) := by
  unfold checkRestore
  iterate 4 (split; · exact h)
  extract_lets m shards
  clear_value shards m
  iterate 2 (split; · exact h)
  have k := restoreKey_keeps h j e m
  split
  · next e => exact CpRead.Keeps.ofBad e k
  · next e => exact CpRead.Keeps.ofWait e k
  · exact h
  · next e => exact checkShards_keeps (CpRead.Keeps.ofOk e k) _ _ _ _ _

theorem State.leaveHost_keeps {z s : State} (h : Keeps z s) (n : Nat) (eid : Nat) :
    Keeps z (State.leaveHost s n eid) := by
  unfold State.leaveHost
  with_reducible repeat' first | assumption | apply State.asyncExit_keeps | split | apply Keeps.lit | dsimp only | intro _

theorem execRestore_keeps {z s : State} (h : Keeps z s) (eid : Nat) :
    OutKeeps z (execRestore eid s) := by
  unfold execRestore
  with_reducible repeat' first | assumption | refine OptKeeps.mapOf (State.refuseBusy_keeps ?_ _) ?_ | apply OptKeeps.some | apply OptKeeps.none | apply OptKeeps.map | apply agent_keeps | apply State.finishJob_keeps | apply State.endJob_keeps | apply State.refuseBusy_keeps | refine OptKeeps.getD (State.refuseBusy_keeps ?_ _) ?_ | refine OptKeeps.of (by assumption) (State.refuseBusy_keeps ?_ _) | apply State.loadImage_keeps | apply checkRestore_keeps | refine Checked.Keeps.ofFail (by assumption) (checkRestore_keeps ?_ _ _) | refine Checked.Keeps.ofWait (by assumption) (checkRestore_keeps ?_ _ _) | refine Checked.Keeps.ofGood (by assumption) (checkRestore_keeps ?_ _ _) | apply State.leaveHost_keeps | split | apply Keeps.lit | trivial | dsimp only | intro _

theorem State.beginMove_keeps {z s : State} (h : Keeps z s) (eid : Nat) (out : Bool) (pkg : Nat) :
    Keeps z (State.beginMove s eid out pkg) := by
  unfold State.beginMove
  with_reducible repeat' first | assumption | apply State.modEncl_keeps | apply State.haltContext_keeps | split | apply Keeps.lit | dsimp only | intro _

theorem State.moveCommand_keeps {z s : State} (h : Keeps z s) (eid : Nat) (out : Bool) (pkg : Nat) :
    OptKeeps z (State.moveCommand s eid out pkg) := by
  unfold State.moveCommand
  with_reducible repeat' first | assumption | apply OptKeeps.some | apply OptKeeps.none | apply OptKeeps.map | apply State.respond_keeps | apply State.beginMove_keeps | split | apply Keeps.lit | dsimp only | intro _

theorem execMigrateOut_keeps {z s : State} (h : Keeps z s) (eid : BitVec 16) (pkg : BitVec 15) :
    OutKeeps z (execMigrateOut eid pkg s) := by
  unfold execMigrateOut
  with_reducible repeat' first | assumption | refine OptKeeps.mapOf (State.moveCommand_keeps ?_ _ _ _) ?_ | apply OptKeeps.some | apply OptKeeps.none | apply OptKeeps.map | apply agent_keeps | apply State.moveCommand_keeps | refine OptKeeps.getD (State.moveCommand_keeps ?_ _ _ _) ?_ | refine OptKeeps.of (by assumption) (State.moveCommand_keeps ?_ _ _ _) | split | apply Keeps.lit | trivial | dsimp only | intro _

theorem execMigrateIn_keeps {z s : State} (h : Keeps z s) (eid : BitVec 16) (pkg : BitVec 15) :
    OutKeeps z (execMigrateIn eid pkg s) := by
  unfold execMigrateIn
  with_reducible repeat' first | assumption | refine OptKeeps.mapOf (State.moveCommand_keeps ?_ _ _ _) ?_ | apply OptKeeps.some | apply OptKeeps.none | apply OptKeeps.map | apply agent_keeps | apply State.moveCommand_keeps | refine OptKeeps.getD (State.moveCommand_keeps ?_ _ _ _) ?_ | refine OptKeeps.of (by assumption) (State.moveCommand_keeps ?_ _ _ _) | split | apply Keeps.lit | trivial | dsimp only | intro _

theorem State.receive_keeps {z s : State} (h : Keeps z s) (eid : Nat) (e : Encl) (m : Migr) (img : CkImage) :
    Keeps z (State.receive s eid e m img) := by
  unfold State.receive
  with_reducible repeat' first | assumption | apply State.modEncl_keeps | apply State.ckNote_keeps | apply State.loadImage_keeps | split | apply Keeps.lit | dsimp only | intro _

theorem execMigrationReady_keeps {z s : State} (h : Keeps z s) (eid : Nat) :
    OutKeeps z (execMigrationReady eid s) := by
  unfold execMigrationReady
  with_reducible repeat' first | assumption | refine OptKeeps.mapOf (State.destroy_keeps ?_ _ _) ?_ | apply OptKeeps.some | apply OptKeeps.none | apply OptKeeps.map | apply agent_keeps | apply State.destroy_keeps | refine OptKeeps.getD (State.destroy_keeps ?_ _ _) ?_ | refine OptKeeps.of (by assumption) (State.destroy_keeps ?_ _ _) | apply State.forceHalt_keeps | apply State.ckNote_keeps | apply State.receive_keeps | split | apply Keeps.lit | trivial | dsimp only | intro _

theorem State.start_keeps {z s : State} (h : Keeps z s) (eid : Nat) (e : Encl) (img : CkImage) :
    Keeps z (State.start s eid e img) := by
  unfold State.start
  with_reducible repeat' first | assumption | apply State.modEncl_keeps | apply State.resumeContext_keeps | apply State.finishJob_keeps | split | apply Keeps.lit | dsimp only | intro _

theorem execMigrationGo_keeps {z s : State} (h : Keeps z s) (eid : Nat) :
    OutKeeps z (execMigrationGo eid s) := by
  unfold execMigrationGo
  with_reducible repeat' first | assumption | apply OptKeeps.some | apply OptKeeps.none | apply OptKeeps.map | apply agent_keeps | apply State.start_keeps | split | apply Keeps.lit | trivial | dsimp only | intro _

theorem execMigrationStreamFail_keeps {z s : State} (h : Keeps z s) (eid : Nat) :
    OutKeeps z (execMigrationStreamFail eid s) := by
  unfold execMigrationStreamFail
  with_reducible repeat' first | assumption | refine OptKeeps.mapOf (State.destroy_keeps ?_ _ _) ?_ | apply OptKeeps.some | apply OptKeeps.none | apply OptKeeps.map | apply State.modEncl_keeps | apply agent_keeps | apply State.destroy_keeps | refine OptKeeps.getD (State.destroy_keeps ?_ _ _) ?_ | refine OptKeeps.of (by assumption) (State.destroy_keeps ?_ _ _) | apply State.endHalt_keeps | split | apply Keeps.lit | trivial | dsimp only | intro _

/-! Management -/

theorem State.answerSpdm_keeps {z s : State} (h : Keeps z s) (req : SpdmReq) (bs : List Byte) :
    Keeps z (State.answerSpdm s req bs) := by
  unfold State.answerSpdm
  with_reducible repeat' first | assumption | apply State.homeWrite_keeps | split | apply Keeps.lit | dsimp only | intro _

theorem State.spdmWait_keeps {z s : State} (h : Keeps z s) (r : SpdmReq) :
    Keeps z (State.spdmWait s r) := by
  unfold State.spdmWait
  with_reducible repeat' first | assumption | split | apply Keeps.lit | dsimp only | intro _

theorem State.spdmDone_keeps {z s : State} (h : Keeps z s) (r : SpdmReq) :
    Keeps z (State.spdmDone s r) := by
  unfold State.spdmDone
  with_reducible repeat' first | assumption | split | apply Keeps.lit | dsimp only | intro _

theorem serve_keeps {z s : State} (h : Keeps z s) (r : SpdmReq) (code : Nat) (signs : Bool) (f : State → State) (hf : ∀ x0, Keeps z x0 → Keeps z (f x0)) :
    OptKeeps z (serve s r code signs f) := by
  unfold serve
  with_reducible repeat' first | assumption | apply hf | apply OptKeeps.some | apply OptKeeps.none | apply OptKeeps.map | apply State.answerSpdm_keeps | apply State.spdmWait_keeps | apply State.spdmDone_keeps | split | apply Keeps.lit | dsimp only | intro _

theorem execGetVersion_keeps {z s : State} (h : Keeps z s) (r : SpdmReq) :
    OutKeeps z (execGetVersion r s) := by
  unfold execGetVersion
  with_reducible repeat' first | assumption | refine OptKeeps.mapOf (serve_keeps ?_ _ _ _ _ ?_) ?_ | apply OptKeeps.some | apply OptKeeps.none | apply OptKeeps.map | apply agent_keeps | apply State.answerSpdm_keeps | apply serve_keeps | refine OptKeeps.getD (serve_keeps ?_ _ _ _ _ ?_) ?_ | refine OptKeeps.of (by assumption) (serve_keeps ?_ _ _ _ _ ?_) | split | apply Keeps.lit | trivial | dsimp only | intro _

theorem execGetCapabilities_keeps {z s : State} (h : Keeps z s) (r : SpdmReq) :
    OutKeeps z (execGetCapabilities r s) := by
  unfold execGetCapabilities
  with_reducible repeat' first | assumption | refine OptKeeps.mapOf (serve_keeps ?_ _ _ _ _ ?_) ?_ | apply OptKeeps.some | apply OptKeeps.none | apply OptKeeps.map | apply agent_keeps | apply State.answerSpdm_keeps | apply serve_keeps | refine OptKeeps.getD (serve_keeps ?_ _ _ _ _ ?_) ?_ | refine OptKeeps.of (by assumption) (serve_keeps ?_ _ _ _ _ ?_) | split | apply Keeps.lit | trivial | dsimp only | intro _

theorem execNegotiateAlgorithms_keeps {z s : State} (h : Keeps z s) (r : SpdmReq) :
    OutKeeps z (execNegotiateAlgorithms r s) := by
  unfold execNegotiateAlgorithms
  with_reducible repeat' first | assumption | refine OptKeeps.mapOf (serve_keeps ?_ _ _ _ _ ?_) ?_ | apply OptKeeps.some | apply OptKeeps.none | apply OptKeeps.map | apply agent_keeps | apply State.answerSpdm_keeps | apply serve_keeps | refine OptKeeps.getD (serve_keeps ?_ _ _ _ _ ?_) ?_ | refine OptKeeps.of (by assumption) (serve_keeps ?_ _ _ _ _ ?_) | split | apply Keeps.lit | trivial | dsimp only | intro _

theorem execGetDigests_keeps {z s : State} (h : Keeps z s) (r : SpdmReq) :
    OutKeeps z (execGetDigests r s) := by
  unfold execGetDigests
  with_reducible repeat' first | assumption | refine OptKeeps.mapOf (serve_keeps ?_ _ _ _ _ ?_) ?_ | apply OptKeeps.some | apply OptKeeps.none | apply OptKeeps.map | apply agent_keeps | apply State.answerSpdm_keeps | apply serve_keeps | refine OptKeeps.getD (serve_keeps ?_ _ _ _ _ ?_) ?_ | refine OptKeeps.of (by assumption) (serve_keeps ?_ _ _ _ _ ?_) | split | apply Keeps.lit | trivial | dsimp only | intro _

theorem execGetCertificate_keeps {z s : State} (h : Keeps z s) (r : SpdmReq) :
    OutKeeps z (execGetCertificate r s) := by
  unfold execGetCertificate
  with_reducible repeat' first | assumption | refine OptKeeps.mapOf (serve_keeps ?_ _ _ _ _ ?_) ?_ | apply OptKeeps.some | apply OptKeeps.none | apply OptKeeps.map | apply agent_keeps | apply State.answerSpdm_keeps | apply serve_keeps | refine OptKeeps.getD (serve_keeps ?_ _ _ _ _ ?_) ?_ | refine OptKeeps.of (by assumption) (serve_keeps ?_ _ _ _ _ ?_) | split | apply Keeps.lit | trivial | dsimp only | intro _

theorem execChallenge_keeps {z s : State} (h : Keeps z s) (r : SpdmReq) :
    OutKeeps z (execChallenge r s) := by
  unfold execChallenge
  with_reducible repeat' first | assumption | refine OptKeeps.mapOf (serve_keeps ?_ _ _ _ _ ?_) ?_ | apply OptKeeps.some | apply OptKeeps.none | apply OptKeeps.map | apply agent_keeps | apply State.answerSpdm_keeps | apply serve_keeps | refine OptKeeps.getD (serve_keeps ?_ _ _ _ _ ?_) ?_ | refine OptKeeps.of (by assumption) (serve_keeps ?_ _ _ _ _ ?_) | split | apply Keeps.lit | trivial | dsimp only | intro _

theorem execGetMeasurements_keeps {z s : State} (h : Keeps z s) (r : SpdmReq) :
    OutKeeps z (execGetMeasurements r s) := by
  unfold execGetMeasurements
  with_reducible repeat' first | assumption | refine OptKeeps.mapOf (serve_keeps ?_ _ _ _ _ ?_) ?_ | apply OptKeeps.some | apply OptKeeps.none | apply OptKeeps.map | apply agent_keeps | apply State.answerSpdm_keeps | apply serve_keeps | refine OptKeeps.getD (serve_keeps ?_ _ _ _ _ ?_) ?_ | refine OptKeeps.of (by assumption) (serve_keeps ?_ _ _ _ _ ?_) | split | apply Keeps.lit | trivial | dsimp only | intro _

theorem execKeyExchange_keeps {z s : State} (h : Keeps z s) (r : SpdmReq) :
    OutKeeps z (execKeyExchange r s) := by
  unfold execKeyExchange
  with_reducible repeat' first | assumption | refine OptKeeps.mapOf (serve_keeps ?_ _ _ _ _ ?_) ?_ | apply OptKeeps.some | apply OptKeeps.none | apply OptKeeps.map | apply agent_keeps | apply State.answerSpdm_keeps | apply serve_keeps | refine OptKeeps.getD (serve_keeps ?_ _ _ _ _ ?_) ?_ | refine OptKeeps.of (by assumption) (serve_keeps ?_ _ _ _ _ ?_) | split | apply Keeps.lit | trivial | dsimp only | intro _

theorem inSession_keeps {z s : State} (h : Keeps z s) (r : SpdmReq) (f : Nat → State) (hf : ∀ x0, Keeps z (f x0)) :
    Keeps z (inSession s r f) := by
  unfold inSession
  with_reducible repeat' first | assumption | apply hf | apply State.answerSpdm_keeps | split | apply Keeps.lit | dsimp only | intro _

theorem execFinish_keeps {z s : State} (h : Keeps z s) (r : SpdmReq) :
    OutKeeps z (execFinish r s) := by
  unfold execFinish
  with_reducible repeat' first | assumption | refine OptKeeps.mapOf (serve_keeps ?_ _ _ _ _ ?_) ?_ | apply OptKeeps.some | apply OptKeeps.none | apply OptKeeps.map | apply agent_keeps | apply State.answerSpdm_keeps | apply serve_keeps | refine OptKeeps.getD (serve_keeps ?_ _ _ _ _ ?_) ?_ | refine OptKeeps.of (by assumption) (serve_keeps ?_ _ _ _ _ ?_) | apply inSession_keeps | split | apply Keeps.lit | trivial | dsimp only | intro _

theorem execHeartbeat_keeps {z s : State} (h : Keeps z s) (r : SpdmReq) :
    OutKeeps z (execHeartbeat r s) := by
  unfold execHeartbeat
  with_reducible repeat' first | assumption | refine OptKeeps.mapOf (serve_keeps ?_ _ _ _ _ ?_) ?_ | apply OptKeeps.some | apply OptKeeps.none | apply OptKeeps.map | apply agent_keeps | apply State.answerSpdm_keeps | apply serve_keeps | refine OptKeeps.getD (serve_keeps ?_ _ _ _ _ ?_) ?_ | refine OptKeeps.of (by assumption) (serve_keeps ?_ _ _ _ _ ?_) | apply inSession_keeps | split | apply Keeps.lit | trivial | dsimp only | intro _

theorem State.endSession_keeps {z s : State} (h : Keeps z s) (n : Nat) :
    Keeps z (State.endSession s n) := by
  unfold State.endSession
  with_reducible repeat' first | assumption | split | apply Keeps.lit | dsimp only | intro _

theorem execEndSession_keeps {z s : State} (h : Keeps z s) (r : SpdmReq) :
    OutKeeps z (execEndSession r s) := by
  unfold execEndSession
  with_reducible repeat' first | assumption | refine OptKeeps.mapOf (serve_keeps ?_ _ _ _ _ ?_) ?_ | apply OptKeeps.some | apply OptKeeps.none | apply OptKeeps.map | apply agent_keeps | apply State.answerSpdm_keeps | apply serve_keeps | refine OptKeeps.getD (serve_keeps ?_ _ _ _ _ ?_) ?_ | refine OptKeeps.of (by assumption) (serve_keeps ?_ _ _ _ _ ?_) | apply inSession_keeps | apply State.endSession_keeps | split | apply Keeps.lit | trivial | dsimp only | intro _

theorem execUnsupportedRequest_keeps {z s : State} (h : Keeps z s) (r : SpdmReq) :
    OutKeeps z (execUnsupportedRequest r s) := by
  unfold execUnsupportedRequest
  with_reducible repeat' first | assumption | refine OptKeeps.mapOf (serve_keeps ?_ _ _ _ _ ?_) ?_ | apply OptKeeps.some | apply OptKeeps.none | apply OptKeeps.map | apply agent_keeps | apply State.answerSpdm_keeps | apply serve_keeps | refine OptKeeps.getD (serve_keeps ?_ _ _ _ _ ?_) ?_ | refine OptKeeps.of (by assumption) (serve_keeps ?_ _ _ _ _ ?_) | split | apply Keeps.lit | trivial | dsimp only | intro _

theorem execSessionTimeout_keeps {z s : State} (h : Keeps z s) (n : Nat) :
    OutKeeps z (execSessionTimeout n s) := by
  unfold execSessionTimeout
  with_reducible repeat' first | assumption | apply OptKeeps.some | apply OptKeeps.none | apply OptKeeps.map | apply agent_keeps | apply State.endSession_keeps | split | apply Keeps.lit | trivial | dsimp only | intro _

theorem execSpdmrly_keeps {z s : State} (h : Keeps z s) (value : BitVec 64) :
    OutKeeps z (execSpdmrly value s) := by
  unfold execSpdmrly
  with_reducible repeat' first | assumption | apply OptKeeps.some | apply OptKeeps.none | apply OptKeeps.map | apply agent_keeps | apply State.homeWrite_keeps | split | apply Keeps.lit | trivial | dsimp only | intro _

theorem State.modPower_keeps {z s : State} (h : Keeps z s) (k : Nat) (f : Power → Power) :
    Keeps z (State.modPower s k f) := by
  unfold State.modPower
  with_reducible repeat' first | assumption | split | apply Keeps.lit | dsimp only | intro _

theorem State.applyPstate_keeps {z s : State} (h : Keeps z s) (k : Nat) (v : Nat) :
    Keeps z (State.applyPstate s k v) := by
  unfold State.applyPstate
  with_reducible repeat' first | assumption | apply State.start_keeps | apply State.modPower_keeps | split | apply Keeps.lit | dsimp only | intro _

theorem State.writePstate_keeps {z s : State} (h : Keeps z s) (k : Nat) (v : Nat) :
    Keeps z (State.writePstate s k v) := by
  unfold State.writePstate
  with_reducible repeat' first | assumption | apply State.modPower_keeps | apply State.applyPstate_keeps | split | apply Keeps.lit | dsimp only | intro _

theorem execPstateWrite_keeps {z s : State} (h : Keeps z s) (k : Nat) (value : BitVec 64) :
    OutKeeps z (execPstateWrite k value s) := by
  unfold execPstateWrite
  with_reducible repeat' first | assumption | apply OptKeeps.some | apply OptKeeps.none | apply OptKeeps.map | apply agent_keeps | apply State.writePstate_keeps | split | apply Keeps.lit | trivial | dsimp only | intro _

theorem State.scrubStack_keeps {z s : State} (h : Keeps z s) (k : Nat) :
    Keeps z (State.scrubStack s k) := by
  unfold State.scrubStack
  with_reducible repeat' first | assumption | split | apply Keeps.lit | apply Keeps.litClear | dsimp only | intro _

theorem execPstateChangeEnd_keeps {z s : State} (h : Keeps z s) (k : Nat) :
    OutKeeps z (execPstateChangeEnd k s) := by
  unfold execPstateChangeEnd
  with_reducible repeat' first | assumption | apply OptKeeps.some | apply OptKeeps.none | apply OptKeeps.map | apply agent_keeps | apply State.modPower_keeps | apply State.writePstate_keeps | apply State.scrubStack_keeps | refine Keeps.foldl (fun s x h => ?_) ?_ | split | apply Keeps.lit | trivial | dsimp only | intro _

theorem execThrottleStep_keeps {z s : State} (h : Keeps z s) (k : Nat) (temp : Int) :
    OutKeeps z (execThrottleStep k temp s) := by
  unfold execThrottleStep
  with_reducible repeat' first | assumption | apply OptKeeps.some | apply OptKeeps.none | apply OptKeeps.map | apply State.countSlice_keeps | apply agent_keeps | apply State.assertIrq_keeps | apply State.start_keeps | apply State.modPower_keeps | split | apply Keeps.lit | trivial | dsimp only | intro _

theorem execPower_keeps {z s : State} (h : Keeps z s) (k : Nat) (state : BitVec 2) (point : BitVec 2) :
    OutKeeps z (execPower k state point s) := by
  unfold execPower
  with_reducible repeat' first | assumption | apply OptKeeps.some | apply OptKeeps.none | apply OptKeeps.map | apply agent_keeps | apply State.respond_keeps | apply State.writePstate_keeps | split | apply Keeps.lit | trivial | dsimp only | intro _

theorem execPackage_keeps {z s : State} (h : Keeps z s) (number : BitVec 16) :
    OutKeeps z (execPackage number s) := by
  unfold execPackage
  with_reducible repeat' first | assumption | apply OptKeeps.some | apply OptKeeps.none | apply OptKeeps.map | apply agent_keeps | apply State.respond_keeps | split | apply Keeps.lit | trivial | dsimp only | intro _

theorem execHcstart_keeps {z s : State} (h : Keeps z s) (value : BitVec 64) :
    OutKeeps z (execHcstart value s) := by
  unfold execHcstart
  with_reducible repeat' first | assumption | apply OptKeeps.some | apply OptKeeps.none | apply OptKeeps.map | apply State.setThread_keeps | apply State.modHost_keeps | apply agent_keeps | apply State.freshCode_keeps | split | apply Keeps.lit | trivial | dsimp only | intro _

theorem execMsiWrite_keeps {z s : State} (h : Keeps z s) (port : Nat) :
    OutKeeps z (execMsiWrite port s) := by
  unfold execMsiWrite
  with_reducible repeat' first | assumption | apply OptKeeps.some | apply OptKeeps.none | apply OptKeeps.map | apply agent_keeps | apply State.assertIrq_keeps | split | apply Keeps.lit | trivial | dsimp only | intro _

theorem execLinkTrain_keeps {z s : State} (h : Keeps z s) (link : Nat) (peer : BitVec 15) :
    OutKeeps z (execLinkTrain link peer s) := by
  unfold execLinkTrain
  with_reducible repeat' first | assumption | apply OptKeeps.some | apply OptKeeps.none | apply OptKeeps.map | apply State.put_keeps | apply agent_keeps | split | apply Keeps.lit | trivial | dsimp only | intro _

theorem State.loseWrites_keeps {z s : State} (h : Keeps z s) (eids : List Nat) :
    Keeps z (State.loseWrites s eids) := by
  unfold State.loseWrites
  with_reducible repeat' first | assumption | apply State.endLaunch_keeps | refine Keeps.foldl (fun s x h => ?_) ?_ | split | apply Keeps.lit | dsimp only | intro _

theorem execLinkDown_keeps {z s : State} (h : Keeps z s) (link : Nat) :
    OutKeeps z (execLinkDown link s) := by
  unfold execLinkDown
  with_reducible repeat' first | assumption | apply OptKeeps.some | apply OptKeeps.none | apply OptKeeps.map | apply State.put_keeps | apply agent_keeps | apply State.terminalRecord_keeps | apply State.loseWrites_keeps | refine Keeps.foldl (fun s x h => ?_) ?_ | split | apply Keeps.lit | trivial | dsimp only | intro _

theorem execLmsTreeRenew_keeps {z s : State} (h : Keeps z s)  :
    OutKeeps z (execLmsTreeRenew s) := by
  unfold execLmsTreeRenew
  with_reducible repeat' first | assumption | apply OptKeeps.some | apply OptKeeps.none | apply OptKeeps.map | apply agent_keeps | split | apply Keeps.lit | trivial | dsimp only | intro _

theorem State.rebooting_keeps {z s : State} (_ : Keeps z s) : Keeps z (State.rebooting s) := ⟨fun _ => rfl, fun _ => rfl⟩

theorem execModuleReset_keeps {z s : State} (h : Keeps z s)  :
    OutKeeps z (execModuleReset s) := by
  unfold execModuleReset
  with_reducible repeat' first | assumption | apply OptKeeps.some | apply OptKeeps.none | apply OptKeeps.map | apply State.modThread_keeps | apply agent_keeps | apply State.rebooting_keeps | split | apply Keeps.lit | trivial | dsimp only | intro _

/-- Every instruction keeps the canonical form of memory. -/
theorem exec_keeps {z s : State} (self : Keeps z s) (i : Instr) : OutKeeps z (exec i s) := by
  cases i with
  | nop h => exact execNop_keeps self _
  | add h d a b => exact execAdd_keeps self _ _ _ _
  | sub h d a b => exact execSub_keeps self _ _ _ _
  | mul h d a b => exact execMul_keeps self _ _ _ _
  | mulhi h d a b => exact execMulhi_keeps self _ _ _ _
  | mulhu h d a b => exact execMulhu_keeps self _ _ _ _
  | mad h d a b => exact execMad_keeps self _ _ _ _
  | and h d a b => exact execAnd_keeps self _ _ _ _
  | or h d a b => exact execOr_keeps self _ _ _ _
  | xor h d a b => exact execXor_keeps self _ _ _ _
  | andn h d a b => exact execAndn_keeps self _ _ _ _
  | shl h d a b => exact execShl_keeps self _ _ _ _
  | shr h d a b => exact execShr_keeps self _ _ _ _
  | sra h d a b => exact execSra_keeps self _ _ _ _
  | min h d a b => exact execMin_keeps self _ _ _ _
  | max h d a b => exact execMax_keeps self _ _ _ _
  | minu h d a b => exact execMinu_keeps self _ _ _ _
  | maxu h d a b => exact execMaxu_keeps self _ _ _ _
  | adds h d a b => exact execAdds_keeps self _ _ _ _
  | subs h d a b => exact execSubs_keeps self _ _ _ _
  | lea h k d a b => exact execLea_keeps self _ _ _ _ _
  | add64 h d a b => exact execAdd64_keeps self _ _ _ _
  | sub64 h d a b => exact execSub64_keeps self _ _ _ _
  | mulw h d a b => exact execMulw_keeps self _ _ _ _
  | mulws h d a b => exact execMulws_keeps self _ _ _ _
  | bfe h d a b => exact execBfe_keeps self _ _ _ _
  | bfi h d a b => exact execBfi_keeps self _ _ _ _
  | prmb h d a b => exact execPrmb_keeps self _ _ _ _
  | addi h d a imm => exact execAddi_keeps self _ _ _ _
  | andi h d a imm => exact execAndi_keeps self _ _ _ _
  | ori h d a imm => exact execOri_keeps self _ _ _ _
  | xori h d a imm => exact execXori_keeps self _ _ _ _
  | shli h d a imm => exact execShli_keeps self _ _ _ _
  | shri h d a imm => exact execShri_keeps self _ _ _ _
  | srai h d a imm => exact execSrai_keeps self _ _ _ _
  | muli h d a imm => exact execMuli_keeps self _ _ _ _
  | movi h d imm => exact execMovi_keeps self _ _ _
  | mov h d a => exact execMov_keeps self _ _ _
  | clz h d a => exact execClz_keeps self _ _ _
  | popc h d a => exact execPopc_keeps self _ _ _
  | brev h d a => exact execBrev_keeps self _ _ _
  | abs h d a => exact execAbs_keeps self _ _ _
  | neg h d a => exact execNeg_keeps self _ _ _
  | not h d a => exact execNot_keeps self _ _ _
  | sext8 h d a => exact execSext8_keeps self _ _ _
  | sext16 h d a => exact execSext16_keeps self _ _ _
  | zext8 h d a => exact execZext8_keeps self _ _ _
  | zext16 h d a => exact execZext16_keeps self _ _ _
  | ctz h d a => exact execCtz_keeps self _ _ _
  | cmp h k p a b => exact execCmp_keeps self _ _ _ _ _
  | cmpi h k p a imm => exact execCmpi_keeps self _ _ _ _ _
  | pand h p q r => exact execPand_keeps self _ _ _ _
  | por h p q r => exact execPor_keeps self _ _ _ _
  | pxor h p q r => exact execPxor_keeps self _ _ _ _
  | pandn h p q r => exact execPandn_keeps self _ _ _ _
  | pnot h p q => exact execPnot_keeps self _ _ _
  | pget h d => exact execPget_keeps self _ _
  | pput h a => exact execPput_keeps self _ _
  | sel h n d a b => exact execSel_keeps self _ _ _ _ _
  | fadd h d a b => exact execFadd_keeps self _ _ _ _
  | fsub h d a b => exact execFsub_keeps self _ _ _ _
  | fmul h d a b => exact execFmul_keeps self _ _ _ _
  | ffma h d a b => exact execFfma_keeps self _ _ _ _
  | ffnma h d a b => exact execFfnma_keeps self _ _ _ _
  | fmin h d a b => exact execFmin_keeps self _ _ _ _
  | fmax h d a b => exact execFmax_keeps self _ _ _ _
  | fcmp h k p a b => exact execFcmp_keeps self _ _ _ _ _
  | hadd2 h d a b => exact execHadd2_keeps self _ _ _ _
  | hmul2 h d a b => exact execHmul2_keeps self _ _ _ _
  | hfma2 h d a b => exact execHfma2_keeps self _ _ _ _
  | badd2 h d a b => exact execBadd2_keeps self _ _ _ _
  | bmul2 h d a b => exact execBmul2_keeps self _ _ _ _
  | bfma2 h d a b => exact execBfma2_keeps self _ _ _ _
  | dadd h d a b => exact execDadd_keeps self _ _ _ _
  | dmul h d a b => exact execDmul_keeps self _ _ _ _
  | dfma h d a b => exact execDfma_keeps self _ _ _ _
  | dcmp h k p a b => exact execDcmp_keeps self _ _ _ _ _
  | frcp h d a => exact execFrcp_keeps self _ _ _
  | frsq h d a => exact execFrsq_keeps self _ _ _
  | fsqrt h d a => exact execFsqrt_keeps self _ _ _
  | fex2 h d a => exact execFex2_keeps self _ _ _
  | flg2 h d a => exact execFlg2_keeps self _ _ _
  | fsinp h d a => exact execFsinp_keeps self _ _ _
  | fcosp h d a => exact execFcosp_keeps self _ _ _
  | ftanh h d a => exact execFtanh_keeps self _ _ _
  | fsigm h d a => exact execFsigm_keeps self _ _ _
  | fabs h d a => exact execFabs_keeps self _ _ _
  | fneg h d a => exact execFneg_keeps self _ _ _
  | ffloor h d a => exact execFfloor_keeps self _ _ _
  | fceil h d a => exact execFceil_keeps self _ _ _
  | ftrunc h d a => exact execFtrunc_keeps self _ _ _
  | frint h d a => exact execFrint_keeps self _ _ _
  | fclass h d a => exact execFclass_keeps self _ _ _
  | fcvtF16F32 h d a => exact execFcvtF16F32_keeps self _ _ _
  | fcvtBf16F32 h d a => exact execFcvtBf16F32_keeps self _ _ _
  | fcvtF32F16 h d a => exact execFcvtF32F16_keeps self _ _ _
  | fcvtF32Bf16 h d a => exact execFcvtF32Bf16_keeps self _ _ _
  | fcvtF64F32 h d a => exact execFcvtF64F32_keeps self _ _ _
  | fcvtF32F64 h d a => exact execFcvtF32F64_keeps self _ _ _
  | fcvtF32S32 h d a => exact execFcvtF32S32_keeps self _ _ _
  | fcvtF32N32 h d a => exact execFcvtF32N32_keeps self _ _ _
  | fcvtF64S32 h d a => exact execFcvtF64S32_keeps self _ _ _
  | fcvtF64N32 h d a => exact execFcvtF64N32_keeps self _ _ _
  | fcvtS32F32Fixed h d a m => exact execFcvtS32F32Fixed_keeps self _ _ _ _
  | fcvtS32F32 h d a => exact execFcvtS32F32_keeps self _ _ _
  | fcvtN32F32Fixed h d a m => exact execFcvtN32F32Fixed_keeps self _ _ _ _
  | fcvtN32F32 h d a => exact execFcvtN32F32_keeps self _ _ _
  | fcvtS32F64Fixed h d a m => exact execFcvtS32F64Fixed_keeps self _ _ _ _
  | fcvtS32F64 h d a => exact execFcvtS32F64_keeps self _ _ _
  | fcvtN32F64Fixed h d a m => exact execFcvtN32F64Fixed_keeps self _ _ _ _
  | fcvtN32F64 h d a => exact execFcvtN32F64_keeps self _ _ _
  | pkF16 h d a b => exact execPkF16_keeps self _ _ _ _
  | pkB16 h d a b => exact execPkB16_keeps self _ _ _ _
  | pkn h d a b => exact execPkn_keeps self _ _ _ _
  | upkn h d a b => exact execUpkn_keeps self _ _ _ _
  | dot4E43 h d a b => exact execDot4E43_keeps self _ _ _ _
  | dot4E52 h d a b => exact execDot4E52_keeps self _ _ _ _
  | dot4S8 h d a b => exact execDot4S8_keeps self _ _ _ _
  | dot4N8 h d a b => exact execDot4N8_keeps self _ _ _ _
  | dot8E21 h d a b => exact execDot8E21_keeps self _ _ _ _
  | dot8S4 h d a b => exact execDot8S4_keeps self _ _ _ _
  | dot2B16 h d a b => exact execDot2B16_keeps self _ _ _ _
  | dot2F16 h d a b => exact execDot2F16_keeps self _ _ _ _
  | fscl h d a b => exact execFscl_keeps self _ _ _ _
  | ldB h d a imm => exact execLdB_keeps self _ _ _ _
  | ldBs h d a imm => exact execLdBs_keeps self _ _ _ _
  | ldH h d a imm => exact execLdH_keeps self _ _ _ _
  | ldHs h d a imm => exact execLdHs_keeps self _ _ _ _
  | ldW h d a imm => exact execLdW_keeps self _ _ _ _
  | ldD h d a imm => exact execLdD_keeps self _ _ _ _
  | ldQ h d a imm => exact execLdQ_keeps self _ _ _ _
  | ldcW h d a imm => exact execLdcW_keeps self _ _ _ _
  | ldcQ h d a imm => exact execLdcQ_keeps self _ _ _ _
  | stB h v a imm => exact execStB_keeps self _ _ _ _
  | stH h v a imm => exact execStH_keeps self _ _ _ _
  | stW h v a imm => exact execStW_keeps self _ _ _ _
  | stD h v a imm => exact execStD_keeps self _ _ _ _
  | stQ h v a imm => exact execStQ_keeps self _ _ _ _
  | ldxW h d a b => exact execLdxW_keeps self _ _ _ _
  | stxW h v a b => exact execStxW_keeps self _ _ _ _
  | ldsW h d a imm => exact execLdsW_keeps self _ _ _ _
  | ldsD h d a imm => exact execLdsD_keeps self _ _ _ _
  | ldsQ h d a imm => exact execLdsQ_keeps self _ _ _ _
  | ldsH h d a imm => exact execLdsH_keeps self _ _ _ _
  | ldsB h d a imm => exact execLdsB_keeps self _ _ _ _
  | stsW h v a imm => exact execStsW_keeps self _ _ _ _
  | stsD h v a imm => exact execStsD_keeps self _ _ _ _
  | stsQ h v a imm => exact execStsQ_keeps self _ _ _ _
  | stsH h v a imm => exact execStsH_keeps self _ _ _ _
  | stsB h v a imm => exact execStsB_keeps self _ _ _ _
  | ldAcqW h d a e => exact execLdAcqW_keeps self _ _ _ _
  | ldAcqD h d a e => exact execLdAcqD_keeps self _ _ _ _
  | stRelW h v a e => exact execStRelW_keeps self _ _ _ _
  | stRelD h v a e => exact execStRelD_keeps self _ _ _ _
  | prf h a imm => exact execPrf_keeps self _ _ _
  | cwb h a => exact execCwb_keeps self _ _
  | cinv h a => exact execCinv_keeps self _ _
  | cwbiAll h => exact execCwbiAll_keeps self _
  | atomAdd h d a b => exact execAtomAdd_keeps self _ _ _ _
  | atomMin h d a b => exact execAtomMin_keeps self _ _ _ _
  | atomMax h d a b => exact execAtomMax_keeps self _ _ _ _
  | atomMinu h d a b => exact execAtomMinu_keeps self _ _ _ _
  | atomMaxu h d a b => exact execAtomMaxu_keeps self _ _ _ _
  | atomAnd h d a b => exact execAtomAnd_keeps self _ _ _ _
  | atomOr h d a b => exact execAtomOr_keeps self _ _ _ _
  | atomXor h d a b => exact execAtomXor_keeps self _ _ _ _
  | atomXchg h d a b => exact execAtomXchg_keeps self _ _ _ _
  | atomCas h d a b => exact execAtomCas_keeps self _ _ _ _
  | atomFadd h d a b => exact execAtomFadd_keeps self _ _ _ _
  | atomsAdd h d a b => exact execAtomsAdd_keeps self _ _ _ _
  | atomsMin h d a b => exact execAtomsMin_keeps self _ _ _ _
  | atomsMax h d a b => exact execAtomsMax_keeps self _ _ _ _
  | atomsCas h d a b => exact execAtomsCas_keeps self _ _ _ _
  | fence h x e k => exact execFence_keeps self _ _ _ _
  | barinit h a b => exact execBarinit_keeps self _ _ _
  | bararv h d a => exact execBararv_keeps self _ _ _
  | barxb h a b => exact execBarxb_keeps self _ _ _
  | bararvx h d a b => exact execBararvx_keeps self _ _ _ _
  | barwait h a b => exact execBarwait_keeps self _ _ _
  | bartst h p a b => exact execBartst_keeps self _ _ _ _
  | barinv h a => exact execBarinv_keeps self _ _
  | wptr h d a => exact execWptr_keeps self _ _ _
  | prio h a => exact execPrio_keeps self _ _
  | yield h => exact execYield_keeps self _
  | br h n p k => exact execBr_keeps self _ _ _ _
  | call h k => exact execCall_keeps self _ _
  | jmp h a => exact execJmp_keeps self _ _
  | ret h => exact execRet_keeps self _
  | callr h a => exact execCallr_keeps self _ _
  | exit h => exact execExit_keeps self _
  | trap h imm => exact execTrap_keeps self _ _
  | bkpt h => exact execBkpt_keeps self _
  | refill h d => exact execRefill_keeps self _ _
  | fetchw h a b => exact execFetchw_keeps self _ _ _
  | id h d f => exact execId_keeps self _ _ _
  | cdecl h w a => exact execCdecl_keeps self _ _ _
  | crst h w => exact execCrst_keeps self _ _
  | shfl h d a b => exact execShfl_keeps self _ _ _ _
  | vote h d a b => exact execVote_keeps self _ _ _ _
  | rdx h d a b => exact execRdx_keeps self _ _ _ _
  | mma h t a b x => exact execMma_keeps self _ _ _ _ _
  | mmaj h t a b x => exact execMmaj_keeps self _ _ _ _ _
  | mzero h t => exact execMzero_keeps self _ _
  | mload h t a => exact execMload_keeps self _ _ _
  | mdrain h t a b x => exact execMdrain_keeps self _ _ _ _ _
  | mfence h w => exact execMfence_keeps self _ _
  | mwait h t => exact execMwait_keeps self _ _
  | cpyGs h a e ch => exact execCpyGs_keeps self _ _ _ _
  | cpySg h a e ch => exact execCpySg_keeps self _ _ _ _
  | cpyl h d a b x => exact execCpyl_keeps self _ _ _ _ _
  | cpyg h d a b x => exact execCpyg_keeps self _ _ _ _ _
  | sysrd h d imm => exact execSysrd_keeps self _ _ _
  | syswr h v imm => exact execSyswr_keeps self _ _ _
  | tsrd h d f => exact execTsrd_keeps self _ _ _
  | ecall h imm => exact execEcall_keeps self _ _
  | eret h => exact execEret_keeps self _
  | ecreate h d a => exact execEcreate_keeps self _ _ _
  | eenter h a b => exact execEenter_keeps self _ _ _
  | eexit h => exact execEexit_keeps self _
  | ereport h d a => exact execEreport_keeps self _ _ _
  | kwrap h d a => exact execKwrap_keeps self _ _ _
  | kunwrap h d a => exact execKunwrap_keeps self _ _ _
  | krevoke h d a => exact execKrevoke_keeps self _ _ _
  | kload h d a => exact execKload_keeps self _ _ _
  | potset h d a => exact execPotset_keeps self _ _ _
  | potrd h d a => exact execPotrd_keeps self _ _ _
  | pmap h d a => exact execPmap_keeps self _ _ _
  | paccept h d a => exact execPaccept_keeps self _ _ _
  | pdiscard h d a => exact execPdiscard_keeps self _ _ _
  | pevict h d a => exact execPevict_keeps self _ _ _
  | pload h d a => exact execPload_keeps self _ _ _
  | punmap h d a => exact execPunmap_keeps self _ _ _
  | tlbi h a b => exact execTlbi_keeps self _ _ _
  | edestroy h a => exact execEdestroy_keeps self _ _
  | pickerChoice core order => exact execPickerChoice_keeps self _ _
  | terminalTrapEnd launch => exact execTerminalTrapEnd_keeps self _
  | timerAssert host hyp => exact execTimerAssert_keeps self _ _
  | interruptEntry host => exact execInterruptEntry_keeps self _
  | lineLeaseExpiry core line => exact execLineLeaseExpiry_keeps self _ _
  | epochRollover core => exact execEpochRollover_keeps self _
  | l1Fill core sp va => exact execL1Fill_keeps self _ _ _
  | uncorrectableError site => exact execUncorrectableError_keeps self _
  | writeBack core line => exact execWriteBack_keeps self _ _
  | counterGrant pa => exact execCounterGrant_keeps self _
  | atomicUnitServe slice bank => exact execAtomicUnitServe_keeps self _ _
  | pageTableWalk sp va kind => exact execPageTableWalk_keeps self _ _ _
  | faultRecordWrite ring => exact execFaultRecordWrite_keeps self _
  | operandLogReplay entry => exact execOperandLogReplay_keeps self _
  | copyFixupReplay owner ch => exact execCopyFixupReplay_keeps self _ _
  | drainFixupReplay entry => exact execDrainFixupReplay_keeps self _
  | channelBind owner ch => exact execChannelBind_keeps self _ _
  | copyStart owner ch => exact execCopyStart_keeps self _ _
  | copyEngineTurn owner ch => exact execCopyEngineTurn_keeps self _ _
  | drainComplete drain => exact execDrainComplete_keeps self _
  | passPost core => exact execPassPost_keeps self _
  | bReadStart core => exact execBReadStart_keeps self _
  | bReadEnd quad => exact execBReadEnd_keeps self _
  | passGrant quad => exact execPassGrant_keeps self _
  | passComplete quad => exact execPassComplete_keeps self _
  | governorWindow quad => exact execGovernorWindow_keeps self _
  | teamPlace launch core => exact execTeamPlace_keeps self _ _
  | clusterPlace launch slice row col => exact execClusterPlace_keeps self _ _ _ _
  | teamDone team => exact execTeamDone_keeps self _
  | walkerDispense slice walker => exact execWalkerDispense_keeps self _ _
  | refillItem team thread => exact execRefillItem_keeps self _ _
  | fetchwServe team => exact execFetchwServe_keeps self _
  | splitRequest launch core => exact execSplitRequest_keeps self _ _
  | splitRetry launch core => exact execSplitRetry_keeps self _ _
  | launchComplete launch => exact execLaunchComplete_keeps self _
  | kickTake slice queue => exact execKickTake_keeps self _ _
  | entryStart slice queue => exact execEntryStart_keeps self _ _
  | markComplete slice queue seq => exact execMarkComplete_keeps self _ _ _
  | quiesceRequest slice => exact execQuiesceRequest_keeps self _
  | quiesceRelease slice => exact execQuiesceRelease_keeps self _
  | scrubEnd frame => exact execScrubEnd_keeps self _
  | keyRotation eid => exact execKeyRotation_keeps self _
  | sweep x => exact execSweep_keeps self _
  | injtagArm line => exact execInjtagArm_keeps self _
  | injtagDisarm line => exact execInjtagDisarm_keeps self line
  | tdispDmaRequest tdi tbit va write data => exact execTdispDmaRequest_keeps self _ _ _ _ _
  | linkFlitReceive link stream good va data => exact execLinkFlitReceive_keeps self _ _ _ _ _
  | partWrite slice value => exact execPartWrite_keeps self _ _
  | partitionResize slice => exact execPartitionResize_keeps self _
  | preemptResume eid => exact execPreemptResume_keeps self _
  | preemptSoft eid => exact execPreemptSoft_keeps self _
  | preemptHalt eid => exact execPreemptHalt_keeps self _
  | preemptKill eid => exact execPreemptKill_keeps self _
  | timeSliceExpiry eid core => exact execTimeSliceExpiry_keeps self _ _
  | softRequestEnd eid => exact execSoftRequestEnd_keeps self _
  | g1Deadline eid => exact execG1Deadline_keeps self _
  | g2Deadline eid => exact execG2Deadline_keeps self _
  | contextRestore eid core => exact execContextRestore_keeps self _ _
  | quadsvcOut slice quad => exact execQuadsvcOut_keeps self _ _
  | quadsvcIn slice quad => exact execQuadsvcIn_keeps self _ _
  | ceownWrite engine value => exact execCeownWrite_keeps self _ _
  | blkmove value => exact execBlkmove_keeps self _
  | energyTick core => exact execEnergyTick_keeps self _
  | mgovcfgWrite quad value => exact execMgovcfgWrite_keeps self _ _
  | frlostClear => exact execFrlostClear_keeps self
  | trstatClear => exact execTrstatClear_keeps self
  | ecccntClear => exact execEcccntClear_keeps self
  | rasstatClear value => exact execRasstatClear_keeps self _
  | sevcntClear => exact execSevcntClear_keeps self
  | registerWrite offset value => exact execRegisterWrite_keeps self _ _
  | tripletDissent trip copy => exact execTripletDissent_keeps self _ _
  | resyncEnd trip => exact execResyncEnd_keeps self _
  | tripletStop trip => exact execTripletStop_keeps self _
  | tripletRestart trip => exact execTripletRestart_keeps self _
  | quadAutoRemove slice quad => exact execQuadAutoRemove_keeps self _ _
  | tandemFailover => exact execTandemFailover_keeps self
  | tandemRejoin ok => exact execTandemRejoin_keeps self _
  | fwupd value => exact execFwupd_keeps self _
  | notice eid deadline => exact execNotice_keeps self _ _
  | noticeDeadline eid => exact execNoticeDeadline_keeps self _
  | checkpoint eid => exact execCheckpoint_keeps self _
  | restore eid => exact execRestore_keeps self _
  | migrateOut eid pkg => exact execMigrateOut_keeps self _ _
  | migrateIn eid pkg => exact execMigrateIn_keeps self _ _
  | migrationReady eid => exact execMigrationReady_keeps self _
  | migrationGo eid => exact execMigrationGo_keeps self _
  | migrationStreamFail eid => exact execMigrationStreamFail_keeps self _
  | getVersion req => exact execGetVersion_keeps self _
  | getCapabilities req => exact execGetCapabilities_keeps self _
  | negotiateAlgorithms req => exact execNegotiateAlgorithms_keeps self _
  | getDigests req => exact execGetDigests_keeps self _
  | getCertificate req => exact execGetCertificate_keeps self _
  | challenge req => exact execChallenge_keeps self _
  | getMeasurements req => exact execGetMeasurements_keeps self _
  | keyExchange req => exact execKeyExchange_keeps self _
  | finish req => exact execFinish_keeps self _
  | heartbeat req => exact execHeartbeat_keeps self _
  | endSession req => exact execEndSession_keeps self _
  | unsupportedRequest req => exact execUnsupportedRequest_keeps self _
  | sessionTimeout session => exact execSessionTimeout_keeps self _
  | spdmrly value => exact execSpdmrly_keeps self _
  | power slice state point => exact execPower_keeps self _ _ _
  | package number => exact execPackage_keeps self _
  | pstateWrite slice value => exact execPstateWrite_keeps self _ _
  | throttleStep slice temp => exact execThrottleStep_keeps self _ _
  | hcstart value => exact execHcstart_keeps self _
  | msiWrite port => exact execMsiWrite_keeps self _
  | linkTrain link peer => exact execLinkTrain_keeps self _ _
  | linkDown link => exact execLinkDown_keeps self _
  | lmsTreeRenew => exact execLmsTreeRenew_keeps self
  | moduleReset => exact execModuleReset_keeps self
  | interlockedResultWrite tid => exact execInterlockedResultWrite_keeps self _
  | mloadMovementEnd core => exact execMloadMovementEnd_keeps self _
  | pstateChangeEnd slice => exact execPstateChangeEnd_keeps self _
  | tandemSimplexFailure => exact execTandemSimplexFailure_keeps self
  | startInterfaceRequest tdi eid => exact execStartInterfaceRequest_keeps self _ _

end Sys2Proof.Machine
end

