-- ==== Sys2Proof/Laws/State.lean ====
section
/-! SUPPORT. What the updates of Machine/Ops.lean leave in each field of the state: one lemma per field per update, so that no proof
needs to unfold a record update. -/

namespace Sys2Proof.Machine

/-! freshen -/

@[simp] theorem State.freshen_cur (s : State) : (s.freshen).cur = s.cur := rfl
@[simp] theorem State.freshen_th (s : State) : (s.freshen).th = s.th := rfl
@[simp] theorem State.freshen_threads (s : State) : (s.freshen).threads = s.threads := rfl
@[simp] theorem State.freshen_agenda (s : State) : (s.freshen).agenda = s.agenda := rfl
@[simp] theorem State.freshen_time (s : State) : (s.freshen).time = s.time := rfl
@[simp] theorem State.freshen_fresh (s : State) : (s.freshen).fresh = s.fresh + 1 := rfl
@[simp] theorem State.freshen_serial (s : State) : (s.freshen).serial = s.serial := rfl
@[simp] theorem State.freshen_keysMade (s : State) : (s.freshen).keysMade = s.keysMade := rfl
@[simp] theorem State.freshen_chain (s : State) : (s.freshen).chain = s.chain := rfl
@[simp] theorem State.freshen_hosts (s : State) : (s.freshen).hosts = s.hosts := rfl
@[simp] theorem State.freshen_teams (s : State) : (s.freshen).teams = s.teams := rfl
@[simp] theorem State.freshen_launches (s : State) : (s.freshen).launches = s.launches := rfl
@[simp] theorem State.freshen_walkers (s : State) : (s.freshen).walkers = s.walkers := rfl
@[simp] theorem State.freshen_queues (s : State) : (s.freshen).queues = s.queues := rfl
@[simp] theorem State.freshen_paused (s : State) : (s.freshen).paused = s.paused := rfl
@[simp] theorem State.freshen_turns (s : State) : (s.freshen).turns = s.turns := rfl
@[simp] theorem State.freshen_mem (s : State) : (s.freshen).mem = s.mem := rfl
@[simp] theorem State.freshen_lines (s : State) : (s.freshen).lines = s.lines := rfl
@[simp] theorem State.freshen_clines (s : State) : (s.freshen).clines = s.clines := rfl
@[simp] theorem State.freshen_ilines (s : State) : (s.freshen).ilines = s.ilines := rfl
@[simp] theorem State.freshen_l2 (s : State) : (s.freshen).l2 = s.l2 := rfl
@[simp] theorem State.freshen_tlb (s : State) : (s.freshen).tlb = s.tlb := rfl
@[simp] theorem State.freshen_pots (s : State) : (s.freshen).pots = s.pots := rfl
@[simp] theorem State.freshen_ctrs (s : State) : (s.freshen).ctrs = s.ctrs := rfl
@[simp] theorem State.freshen_nodes1 (s : State) : (s.freshen).nodes1 = s.nodes1 := rfl
@[simp] theorem State.freshen_nodes2 (s : State) : (s.freshen).nodes2 = s.nodes2 := rfl
@[simp] theorem State.freshen_roots (s : State) : (s.freshen).roots = s.roots := rfl
@[simp] theorem State.freshen_badTags (s : State) : (s.freshen).badTags = s.badTags := rfl
@[simp] theorem State.freshen_badMeta (s : State) : (s.freshen).badMeta = s.badMeta := rfl
@[simp] theorem State.freshen_sweeps (s : State) : (s.freshen).sweeps = s.sweeps := rfl
@[simp] theorem State.freshen_homeSig (s : State) : (s.freshen).homeSig = s.homeSig := rfl
@[simp] theorem State.freshen_slots (s : State) : (s.freshen).slots = s.slots := rfl
@[simp] theorem State.freshen_gkeys (s : State) : (s.freshen).gkeys = s.gkeys := rfl
@[simp] theorem State.freshen_encls (s : State) : (s.freshen).encls = s.encls := rfl
@[simp] theorem State.freshen_meters (s : State) : (s.freshen).meters = s.meters := rfl
@[simp] theorem State.freshen_evcnt (s : State) : (s.freshen).evcnt = s.evcnt := rfl
@[simp] theorem State.freshen_cores (s : State) : (s.freshen).cores = s.cores := rfl
@[simp] theorem State.freshen_quads (s : State) : (s.freshen).quads = s.quads := rfl
@[simp] theorem State.freshen_ops (s : State) : (s.freshen).ops = s.ops := rfl
@[simp] theorem State.freshen_drains (s : State) : (s.freshen).drains = s.drains := rfl
@[simp] theorem State.freshen_moves (s : State) : (s.freshen).moves = s.moves := rfl
@[simp] theorem State.freshen_ctlQ (s : State) : (s.freshen).ctlQ = s.ctlQ := rfl
@[simp] theorem State.freshen_log (s : State) : (s.freshen).log = s.log := rfl
@[simp] theorem State.freshen_holds (s : State) : (s.freshen).holds = s.holds := rfl
@[simp] theorem State.freshen_atomQ (s : State) : (s.freshen).atomQ = s.atomQ := rfl
@[simp] theorem State.freshen_records (s : State) : (s.freshen).records = s.records := rfl
@[simp] theorem State.freshen_outst (s : State) : (s.freshen).outst = s.outst := rfl
@[simp] theorem State.freshen_ringSeq (s : State) : (s.freshen).ringSeq = s.ringSeq := rfl
@[simp] theorem State.freshen_ringNow (s : State) : (s.freshen).ringNow = s.ringNow := rfl
@[simp] theorem State.freshen_ceLast (s : State) : (s.freshen).ceLast = s.ceLast := rfl
@[simp] theorem State.freshen_scrubs (s : State) : (s.freshen).scrubs = s.scrubs := rfl
@[simp] theorem State.freshen_pins (s : State) : (s.freshen).pins = s.pins := rfl
@[simp] theorem State.freshen_reg (s : State) : (s.freshen).reg = s.reg := rfl
@[simp] theorem State.freshen_trips (s : State) : (s.freshen).trips = s.trips := rfl
@[simp] theorem State.freshen_tandem (s : State) : (s.freshen).tandem = s.tandem := rfl
@[simp] theorem State.freshen_retired (s : State) : (s.freshen).retired = s.retired := rfl
@[simp] theorem State.freshen_power (s : State) : (s.freshen).power = s.power := rfl
@[simp] theorem State.freshen_sessions (s : State) : (s.freshen).sessions = s.sessions := rfl
@[simp] theorem State.freshen_spdmOut (s : State) : (s.freshen).spdmOut = s.spdmOut := rfl
@[simp] theorem State.freshen_booted (s : State) : (s.freshen).booted = s.booted := rfl
@[simp] theorem State.freshen_lmsTop (s : State) : (s.freshen).lmsTop = s.lmsTop := rfl
@[simp] theorem State.freshen_lmsLeft (s : State) : (s.freshen).lmsLeft = s.lmsLeft := rfl
@[simp] theorem State.freshen_links (s : State) : (s.freshen).links = s.links := rfl
@[simp] theorem State.freshen_tdis (s : State) : (s.freshen).tdis = s.tdis := rfl
@[simp] theorem State.freshen_dmas (s : State) : (s.freshen).dmas = s.dmas := rfl
@[simp] theorem State.freshen_ckJobs (s : State) : (s.freshen).ckJobs = s.ckJobs := rfl
@[simp] theorem State.freshen_sealed (s : State) : (s.freshen).sealed = s.sealed := rfl

/-! modHost -/

@[simp] theorem State.modHost_cur (s : State) (n : Nat) (f : HostCore → HostCore) : (s.modHost n f).cur = s.cur := rfl
@[simp] theorem State.modHost_th (s : State) (n : Nat) (f : HostCore → HostCore) : (s.modHost n f).th = s.th := rfl
@[simp] theorem State.modHost_threads (s : State) (n : Nat) (f : HostCore → HostCore) : (s.modHost n f).threads = s.threads := rfl
@[simp] theorem State.modHost_agenda (s : State) (n : Nat) (f : HostCore → HostCore) : (s.modHost n f).agenda = s.agenda := rfl
@[simp] theorem State.modHost_time (s : State) (n : Nat) (f : HostCore → HostCore) : (s.modHost n f).time = s.time := rfl
@[simp] theorem State.modHost_fresh (s : State) (n : Nat) (f : HostCore → HostCore) : (s.modHost n f).fresh = s.fresh := rfl
@[simp] theorem State.modHost_serial (s : State) (n : Nat) (f : HostCore → HostCore) : (s.modHost n f).serial = s.serial := rfl
@[simp] theorem State.modHost_keysMade (s : State) (n : Nat) (f : HostCore → HostCore) : (s.modHost n f).keysMade = s.keysMade := rfl
@[simp] theorem State.modHost_chain (s : State) (n : Nat) (f : HostCore → HostCore) : (s.modHost n f).chain = s.chain := rfl
@[simp] theorem State.modHost_hosts (s : State) (n : Nat) (f : HostCore → HostCore) : (s.modHost n f).hosts = s.hosts.put n (f (s.hostCore n)) := rfl
@[simp] theorem State.modHost_teams (s : State) (n : Nat) (f : HostCore → HostCore) : (s.modHost n f).teams = s.teams := rfl
@[simp] theorem State.modHost_launches (s : State) (n : Nat) (f : HostCore → HostCore) : (s.modHost n f).launches = s.launches := rfl
@[simp] theorem State.modHost_walkers (s : State) (n : Nat) (f : HostCore → HostCore) : (s.modHost n f).walkers = s.walkers := rfl
@[simp] theorem State.modHost_queues (s : State) (n : Nat) (f : HostCore → HostCore) : (s.modHost n f).queues = s.queues := rfl
@[simp] theorem State.modHost_paused (s : State) (n : Nat) (f : HostCore → HostCore) : (s.modHost n f).paused = s.paused := rfl
@[simp] theorem State.modHost_turns (s : State) (n : Nat) (f : HostCore → HostCore) : (s.modHost n f).turns = s.turns := rfl
@[simp] theorem State.modHost_mem (s : State) (n : Nat) (f : HostCore → HostCore) : (s.modHost n f).mem = s.mem := rfl
@[simp] theorem State.modHost_lines (s : State) (n : Nat) (f : HostCore → HostCore) : (s.modHost n f).lines = s.lines := rfl
@[simp] theorem State.modHost_clines (s : State) (n : Nat) (f : HostCore → HostCore) : (s.modHost n f).clines = s.clines := rfl
@[simp] theorem State.modHost_ilines (s : State) (n : Nat) (f : HostCore → HostCore) : (s.modHost n f).ilines = s.ilines := rfl
@[simp] theorem State.modHost_l2 (s : State) (n : Nat) (f : HostCore → HostCore) : (s.modHost n f).l2 = s.l2 := rfl
@[simp] theorem State.modHost_tlb (s : State) (n : Nat) (f : HostCore → HostCore) : (s.modHost n f).tlb = s.tlb := rfl
@[simp] theorem State.modHost_pots (s : State) (n : Nat) (f : HostCore → HostCore) : (s.modHost n f).pots = s.pots := rfl
@[simp] theorem State.modHost_ctrs (s : State) (n : Nat) (f : HostCore → HostCore) : (s.modHost n f).ctrs = s.ctrs := rfl
@[simp] theorem State.modHost_nodes1 (s : State) (n : Nat) (f : HostCore → HostCore) : (s.modHost n f).nodes1 = s.nodes1 := rfl
@[simp] theorem State.modHost_nodes2 (s : State) (n : Nat) (f : HostCore → HostCore) : (s.modHost n f).nodes2 = s.nodes2 := rfl
@[simp] theorem State.modHost_roots (s : State) (n : Nat) (f : HostCore → HostCore) : (s.modHost n f).roots = s.roots := rfl
@[simp] theorem State.modHost_badTags (s : State) (n : Nat) (f : HostCore → HostCore) : (s.modHost n f).badTags = s.badTags := rfl
@[simp] theorem State.modHost_badMeta (s : State) (n : Nat) (f : HostCore → HostCore) : (s.modHost n f).badMeta = s.badMeta := rfl
@[simp] theorem State.modHost_sweeps (s : State) (n : Nat) (f : HostCore → HostCore) : (s.modHost n f).sweeps = s.sweeps := rfl
@[simp] theorem State.modHost_homeSig (s : State) (n : Nat) (f : HostCore → HostCore) : (s.modHost n f).homeSig = s.homeSig := rfl
@[simp] theorem State.modHost_slots (s : State) (n : Nat) (f : HostCore → HostCore) : (s.modHost n f).slots = s.slots := rfl
@[simp] theorem State.modHost_gkeys (s : State) (n : Nat) (f : HostCore → HostCore) : (s.modHost n f).gkeys = s.gkeys := rfl
@[simp] theorem State.modHost_encls (s : State) (n : Nat) (f : HostCore → HostCore) : (s.modHost n f).encls = s.encls := rfl
@[simp] theorem State.modHost_meters (s : State) (n : Nat) (f : HostCore → HostCore) : (s.modHost n f).meters = s.meters := rfl
@[simp] theorem State.modHost_evcnt (s : State) (n : Nat) (f : HostCore → HostCore) : (s.modHost n f).evcnt = s.evcnt := rfl
@[simp] theorem State.modHost_cores (s : State) (n : Nat) (f : HostCore → HostCore) : (s.modHost n f).cores = s.cores := rfl
@[simp] theorem State.modHost_quads (s : State) (n : Nat) (f : HostCore → HostCore) : (s.modHost n f).quads = s.quads := rfl
@[simp] theorem State.modHost_ops (s : State) (n : Nat) (f : HostCore → HostCore) : (s.modHost n f).ops = s.ops := rfl
@[simp] theorem State.modHost_drains (s : State) (n : Nat) (f : HostCore → HostCore) : (s.modHost n f).drains = s.drains := rfl
@[simp] theorem State.modHost_moves (s : State) (n : Nat) (f : HostCore → HostCore) : (s.modHost n f).moves = s.moves := rfl
@[simp] theorem State.modHost_ctlQ (s : State) (n : Nat) (f : HostCore → HostCore) : (s.modHost n f).ctlQ = s.ctlQ := rfl
@[simp] theorem State.modHost_log (s : State) (n : Nat) (f : HostCore → HostCore) : (s.modHost n f).log = s.log := rfl
@[simp] theorem State.modHost_holds (s : State) (n : Nat) (f : HostCore → HostCore) : (s.modHost n f).holds = s.holds := rfl
@[simp] theorem State.modHost_atomQ (s : State) (n : Nat) (f : HostCore → HostCore) : (s.modHost n f).atomQ = s.atomQ := rfl
@[simp] theorem State.modHost_records (s : State) (n : Nat) (f : HostCore → HostCore) : (s.modHost n f).records = s.records := rfl
@[simp] theorem State.modHost_outst (s : State) (n : Nat) (f : HostCore → HostCore) : (s.modHost n f).outst = s.outst := rfl
@[simp] theorem State.modHost_ringSeq (s : State) (n : Nat) (f : HostCore → HostCore) : (s.modHost n f).ringSeq = s.ringSeq := rfl
@[simp] theorem State.modHost_ringNow (s : State) (n : Nat) (f : HostCore → HostCore) : (s.modHost n f).ringNow = s.ringNow := rfl
@[simp] theorem State.modHost_ceLast (s : State) (n : Nat) (f : HostCore → HostCore) : (s.modHost n f).ceLast = s.ceLast := rfl
@[simp] theorem State.modHost_scrubs (s : State) (n : Nat) (f : HostCore → HostCore) : (s.modHost n f).scrubs = s.scrubs := rfl
@[simp] theorem State.modHost_pins (s : State) (n : Nat) (f : HostCore → HostCore) : (s.modHost n f).pins = s.pins := rfl
@[simp] theorem State.modHost_reg (s : State) (n : Nat) (f : HostCore → HostCore) : (s.modHost n f).reg = s.reg := rfl
@[simp] theorem State.modHost_trips (s : State) (n : Nat) (f : HostCore → HostCore) : (s.modHost n f).trips = s.trips := rfl
@[simp] theorem State.modHost_tandem (s : State) (n : Nat) (f : HostCore → HostCore) : (s.modHost n f).tandem = s.tandem := rfl
@[simp] theorem State.modHost_retired (s : State) (n : Nat) (f : HostCore → HostCore) : (s.modHost n f).retired = s.retired := rfl
@[simp] theorem State.modHost_power (s : State) (n : Nat) (f : HostCore → HostCore) : (s.modHost n f).power = s.power := rfl
@[simp] theorem State.modHost_sessions (s : State) (n : Nat) (f : HostCore → HostCore) : (s.modHost n f).sessions = s.sessions := rfl
@[simp] theorem State.modHost_spdmOut (s : State) (n : Nat) (f : HostCore → HostCore) : (s.modHost n f).spdmOut = s.spdmOut := rfl
@[simp] theorem State.modHost_booted (s : State) (n : Nat) (f : HostCore → HostCore) : (s.modHost n f).booted = s.booted := rfl
@[simp] theorem State.modHost_lmsTop (s : State) (n : Nat) (f : HostCore → HostCore) : (s.modHost n f).lmsTop = s.lmsTop := rfl
@[simp] theorem State.modHost_lmsLeft (s : State) (n : Nat) (f : HostCore → HostCore) : (s.modHost n f).lmsLeft = s.lmsLeft := rfl
@[simp] theorem State.modHost_links (s : State) (n : Nat) (f : HostCore → HostCore) : (s.modHost n f).links = s.links := rfl
@[simp] theorem State.modHost_tdis (s : State) (n : Nat) (f : HostCore → HostCore) : (s.modHost n f).tdis = s.tdis := rfl
@[simp] theorem State.modHost_dmas (s : State) (n : Nat) (f : HostCore → HostCore) : (s.modHost n f).dmas = s.dmas := rfl
@[simp] theorem State.modHost_ckJobs (s : State) (n : Nat) (f : HostCore → HostCore) : (s.modHost n f).ckJobs = s.ckJobs := rfl
@[simp] theorem State.modHost_sealed (s : State) (n : Nat) (f : HostCore → HostCore) : (s.modHost n f).sealed = s.sealed := rfl

/-! modCore -/

@[simp] theorem State.modCore_cur (s : State) (n : Nat) (f : Core → Core) : (s.modCore n f).cur = s.cur := rfl
@[simp] theorem State.modCore_th (s : State) (n : Nat) (f : Core → Core) : (s.modCore n f).th = s.th := rfl
@[simp] theorem State.modCore_threads (s : State) (n : Nat) (f : Core → Core) : (s.modCore n f).threads = s.threads := rfl
@[simp] theorem State.modCore_agenda (s : State) (n : Nat) (f : Core → Core) : (s.modCore n f).agenda = s.agenda := rfl
@[simp] theorem State.modCore_time (s : State) (n : Nat) (f : Core → Core) : (s.modCore n f).time = s.time := rfl
@[simp] theorem State.modCore_fresh (s : State) (n : Nat) (f : Core → Core) : (s.modCore n f).fresh = s.fresh := rfl
@[simp] theorem State.modCore_serial (s : State) (n : Nat) (f : Core → Core) : (s.modCore n f).serial = s.serial := rfl
@[simp] theorem State.modCore_keysMade (s : State) (n : Nat) (f : Core → Core) : (s.modCore n f).keysMade = s.keysMade := rfl
@[simp] theorem State.modCore_chain (s : State) (n : Nat) (f : Core → Core) : (s.modCore n f).chain = s.chain := rfl
@[simp] theorem State.modCore_hosts (s : State) (n : Nat) (f : Core → Core) : (s.modCore n f).hosts = s.hosts := rfl
@[simp] theorem State.modCore_teams (s : State) (n : Nat) (f : Core → Core) : (s.modCore n f).teams = s.teams := rfl
@[simp] theorem State.modCore_launches (s : State) (n : Nat) (f : Core → Core) : (s.modCore n f).launches = s.launches := rfl
@[simp] theorem State.modCore_walkers (s : State) (n : Nat) (f : Core → Core) : (s.modCore n f).walkers = s.walkers := rfl
@[simp] theorem State.modCore_queues (s : State) (n : Nat) (f : Core → Core) : (s.modCore n f).queues = s.queues := rfl
@[simp] theorem State.modCore_paused (s : State) (n : Nat) (f : Core → Core) : (s.modCore n f).paused = s.paused := rfl
@[simp] theorem State.modCore_turns (s : State) (n : Nat) (f : Core → Core) : (s.modCore n f).turns = s.turns := rfl
@[simp] theorem State.modCore_mem (s : State) (n : Nat) (f : Core → Core) : (s.modCore n f).mem = s.mem := rfl
@[simp] theorem State.modCore_lines (s : State) (n : Nat) (f : Core → Core) : (s.modCore n f).lines = s.lines := rfl
@[simp] theorem State.modCore_clines (s : State) (n : Nat) (f : Core → Core) : (s.modCore n f).clines = s.clines := rfl
@[simp] theorem State.modCore_ilines (s : State) (n : Nat) (f : Core → Core) : (s.modCore n f).ilines = s.ilines := rfl
@[simp] theorem State.modCore_l2 (s : State) (n : Nat) (f : Core → Core) : (s.modCore n f).l2 = s.l2 := rfl
@[simp] theorem State.modCore_tlb (s : State) (n : Nat) (f : Core → Core) : (s.modCore n f).tlb = s.tlb := rfl
@[simp] theorem State.modCore_pots (s : State) (n : Nat) (f : Core → Core) : (s.modCore n f).pots = s.pots := rfl
@[simp] theorem State.modCore_ctrs (s : State) (n : Nat) (f : Core → Core) : (s.modCore n f).ctrs = s.ctrs := rfl
@[simp] theorem State.modCore_nodes1 (s : State) (n : Nat) (f : Core → Core) : (s.modCore n f).nodes1 = s.nodes1 := rfl
@[simp] theorem State.modCore_nodes2 (s : State) (n : Nat) (f : Core → Core) : (s.modCore n f).nodes2 = s.nodes2 := rfl
@[simp] theorem State.modCore_roots (s : State) (n : Nat) (f : Core → Core) : (s.modCore n f).roots = s.roots := rfl
@[simp] theorem State.modCore_badTags (s : State) (n : Nat) (f : Core → Core) : (s.modCore n f).badTags = s.badTags := rfl
@[simp] theorem State.modCore_badMeta (s : State) (n : Nat) (f : Core → Core) : (s.modCore n f).badMeta = s.badMeta := rfl
@[simp] theorem State.modCore_sweeps (s : State) (n : Nat) (f : Core → Core) : (s.modCore n f).sweeps = s.sweeps := rfl
@[simp] theorem State.modCore_homeSig (s : State) (n : Nat) (f : Core → Core) : (s.modCore n f).homeSig = s.homeSig := rfl
@[simp] theorem State.modCore_slots (s : State) (n : Nat) (f : Core → Core) : (s.modCore n f).slots = s.slots := rfl
@[simp] theorem State.modCore_gkeys (s : State) (n : Nat) (f : Core → Core) : (s.modCore n f).gkeys = s.gkeys := rfl
@[simp] theorem State.modCore_encls (s : State) (n : Nat) (f : Core → Core) : (s.modCore n f).encls = s.encls := rfl
@[simp] theorem State.modCore_meters (s : State) (n : Nat) (f : Core → Core) : (s.modCore n f).meters = s.meters := rfl
@[simp] theorem State.modCore_evcnt (s : State) (n : Nat) (f : Core → Core) : (s.modCore n f).evcnt = s.evcnt := rfl
@[simp] theorem State.modCore_cores (s : State) (n : Nat) (f : Core → Core) : (s.modCore n f).cores = s.cores.put n (f (s.core n)) := rfl
@[simp] theorem State.modCore_quads (s : State) (n : Nat) (f : Core → Core) : (s.modCore n f).quads = s.quads := rfl
@[simp] theorem State.modCore_ops (s : State) (n : Nat) (f : Core → Core) : (s.modCore n f).ops = s.ops := rfl
@[simp] theorem State.modCore_drains (s : State) (n : Nat) (f : Core → Core) : (s.modCore n f).drains = s.drains := rfl
@[simp] theorem State.modCore_moves (s : State) (n : Nat) (f : Core → Core) : (s.modCore n f).moves = s.moves := rfl
@[simp] theorem State.modCore_ctlQ (s : State) (n : Nat) (f : Core → Core) : (s.modCore n f).ctlQ = s.ctlQ := rfl
@[simp] theorem State.modCore_log (s : State) (n : Nat) (f : Core → Core) : (s.modCore n f).log = s.log := rfl
@[simp] theorem State.modCore_holds (s : State) (n : Nat) (f : Core → Core) : (s.modCore n f).holds = s.holds := rfl
@[simp] theorem State.modCore_atomQ (s : State) (n : Nat) (f : Core → Core) : (s.modCore n f).atomQ = s.atomQ := rfl
@[simp] theorem State.modCore_records (s : State) (n : Nat) (f : Core → Core) : (s.modCore n f).records = s.records := rfl
@[simp] theorem State.modCore_outst (s : State) (n : Nat) (f : Core → Core) : (s.modCore n f).outst = s.outst := rfl
@[simp] theorem State.modCore_ringSeq (s : State) (n : Nat) (f : Core → Core) : (s.modCore n f).ringSeq = s.ringSeq := rfl
@[simp] theorem State.modCore_ringNow (s : State) (n : Nat) (f : Core → Core) : (s.modCore n f).ringNow = s.ringNow := rfl
@[simp] theorem State.modCore_ceLast (s : State) (n : Nat) (f : Core → Core) : (s.modCore n f).ceLast = s.ceLast := rfl
@[simp] theorem State.modCore_scrubs (s : State) (n : Nat) (f : Core → Core) : (s.modCore n f).scrubs = s.scrubs := rfl
@[simp] theorem State.modCore_pins (s : State) (n : Nat) (f : Core → Core) : (s.modCore n f).pins = s.pins := rfl
@[simp] theorem State.modCore_reg (s : State) (n : Nat) (f : Core → Core) : (s.modCore n f).reg = s.reg := rfl
@[simp] theorem State.modCore_trips (s : State) (n : Nat) (f : Core → Core) : (s.modCore n f).trips = s.trips := rfl
@[simp] theorem State.modCore_tandem (s : State) (n : Nat) (f : Core → Core) : (s.modCore n f).tandem = s.tandem := rfl
@[simp] theorem State.modCore_retired (s : State) (n : Nat) (f : Core → Core) : (s.modCore n f).retired = s.retired := rfl
@[simp] theorem State.modCore_power (s : State) (n : Nat) (f : Core → Core) : (s.modCore n f).power = s.power := rfl
@[simp] theorem State.modCore_sessions (s : State) (n : Nat) (f : Core → Core) : (s.modCore n f).sessions = s.sessions := rfl
@[simp] theorem State.modCore_spdmOut (s : State) (n : Nat) (f : Core → Core) : (s.modCore n f).spdmOut = s.spdmOut := rfl
@[simp] theorem State.modCore_booted (s : State) (n : Nat) (f : Core → Core) : (s.modCore n f).booted = s.booted := rfl
@[simp] theorem State.modCore_lmsTop (s : State) (n : Nat) (f : Core → Core) : (s.modCore n f).lmsTop = s.lmsTop := rfl
@[simp] theorem State.modCore_lmsLeft (s : State) (n : Nat) (f : Core → Core) : (s.modCore n f).lmsLeft = s.lmsLeft := rfl
@[simp] theorem State.modCore_links (s : State) (n : Nat) (f : Core → Core) : (s.modCore n f).links = s.links := rfl
@[simp] theorem State.modCore_tdis (s : State) (n : Nat) (f : Core → Core) : (s.modCore n f).tdis = s.tdis := rfl
@[simp] theorem State.modCore_dmas (s : State) (n : Nat) (f : Core → Core) : (s.modCore n f).dmas = s.dmas := rfl
@[simp] theorem State.modCore_ckJobs (s : State) (n : Nat) (f : Core → Core) : (s.modCore n f).ckJobs = s.ckJobs := rfl
@[simp] theorem State.modCore_sealed (s : State) (n : Nat) (f : Core → Core) : (s.modCore n f).sealed = s.sealed := rfl

/-! putFixed -/

@[simp] theorem State.putFixed_cur (s : State) (l : Lat) (c : Nat) (v : Word) : (s.putFixed l c v).cur = s.cur := rfl
@[simp] theorem State.putFixed_threads (s : State) (l : Lat) (c : Nat) (v : Word) : (s.putFixed l c v).threads = s.threads := rfl
@[simp] theorem State.putFixed_agenda (s : State) (l : Lat) (c : Nat) (v : Word) : (s.putFixed l c v).agenda = s.agenda := rfl
@[simp] theorem State.putFixed_time (s : State) (l : Lat) (c : Nat) (v : Word) : (s.putFixed l c v).time = s.time := rfl
@[simp] theorem State.putFixed_fresh (s : State) (l : Lat) (c : Nat) (v : Word) : (s.putFixed l c v).fresh = s.fresh := rfl
@[simp] theorem State.putFixed_serial (s : State) (l : Lat) (c : Nat) (v : Word) : (s.putFixed l c v).serial = s.serial := rfl
@[simp] theorem State.putFixed_keysMade (s : State) (l : Lat) (c : Nat) (v : Word) : (s.putFixed l c v).keysMade = s.keysMade := rfl
@[simp] theorem State.putFixed_chain (s : State) (l : Lat) (c : Nat) (v : Word) : (s.putFixed l c v).chain = s.chain := rfl
@[simp] theorem State.putFixed_hosts (s : State) (l : Lat) (c : Nat) (v : Word) : (s.putFixed l c v).hosts = s.hosts := rfl
@[simp] theorem State.putFixed_teams (s : State) (l : Lat) (c : Nat) (v : Word) : (s.putFixed l c v).teams = s.teams := rfl
@[simp] theorem State.putFixed_launches (s : State) (l : Lat) (c : Nat) (v : Word) : (s.putFixed l c v).launches = s.launches := rfl
@[simp] theorem State.putFixed_walkers (s : State) (l : Lat) (c : Nat) (v : Word) : (s.putFixed l c v).walkers = s.walkers := rfl
@[simp] theorem State.putFixed_queues (s : State) (l : Lat) (c : Nat) (v : Word) : (s.putFixed l c v).queues = s.queues := rfl
@[simp] theorem State.putFixed_paused (s : State) (l : Lat) (c : Nat) (v : Word) : (s.putFixed l c v).paused = s.paused := rfl
@[simp] theorem State.putFixed_turns (s : State) (l : Lat) (c : Nat) (v : Word) : (s.putFixed l c v).turns = s.turns := rfl
@[simp] theorem State.putFixed_mem (s : State) (l : Lat) (c : Nat) (v : Word) : (s.putFixed l c v).mem = s.mem := rfl
@[simp] theorem State.putFixed_lines (s : State) (l : Lat) (c : Nat) (v : Word) : (s.putFixed l c v).lines = s.lines := rfl
@[simp] theorem State.putFixed_clines (s : State) (l : Lat) (c : Nat) (v : Word) : (s.putFixed l c v).clines = s.clines := rfl
@[simp] theorem State.putFixed_ilines (s : State) (l : Lat) (c : Nat) (v : Word) : (s.putFixed l c v).ilines = s.ilines := rfl
@[simp] theorem State.putFixed_l2 (s : State) (l : Lat) (c : Nat) (v : Word) : (s.putFixed l c v).l2 = s.l2 := rfl
@[simp] theorem State.putFixed_tlb (s : State) (l : Lat) (c : Nat) (v : Word) : (s.putFixed l c v).tlb = s.tlb := rfl
@[simp] theorem State.putFixed_pots (s : State) (l : Lat) (c : Nat) (v : Word) : (s.putFixed l c v).pots = s.pots := rfl
@[simp] theorem State.putFixed_ctrs (s : State) (l : Lat) (c : Nat) (v : Word) : (s.putFixed l c v).ctrs = s.ctrs := rfl
@[simp] theorem State.putFixed_nodes1 (s : State) (l : Lat) (c : Nat) (v : Word) : (s.putFixed l c v).nodes1 = s.nodes1 := rfl
@[simp] theorem State.putFixed_nodes2 (s : State) (l : Lat) (c : Nat) (v : Word) : (s.putFixed l c v).nodes2 = s.nodes2 := rfl
@[simp] theorem State.putFixed_roots (s : State) (l : Lat) (c : Nat) (v : Word) : (s.putFixed l c v).roots = s.roots := rfl
@[simp] theorem State.putFixed_badTags (s : State) (l : Lat) (c : Nat) (v : Word) : (s.putFixed l c v).badTags = s.badTags := rfl
@[simp] theorem State.putFixed_badMeta (s : State) (l : Lat) (c : Nat) (v : Word) : (s.putFixed l c v).badMeta = s.badMeta := rfl
@[simp] theorem State.putFixed_sweeps (s : State) (l : Lat) (c : Nat) (v : Word) : (s.putFixed l c v).sweeps = s.sweeps := rfl
@[simp] theorem State.putFixed_homeSig (s : State) (l : Lat) (c : Nat) (v : Word) : (s.putFixed l c v).homeSig = s.homeSig := rfl
@[simp] theorem State.putFixed_slots (s : State) (l : Lat) (c : Nat) (v : Word) : (s.putFixed l c v).slots = s.slots := rfl
@[simp] theorem State.putFixed_gkeys (s : State) (l : Lat) (c : Nat) (v : Word) : (s.putFixed l c v).gkeys = s.gkeys := rfl
@[simp] theorem State.putFixed_encls (s : State) (l : Lat) (c : Nat) (v : Word) : (s.putFixed l c v).encls = s.encls := rfl
@[simp] theorem State.putFixed_meters (s : State) (l : Lat) (c : Nat) (v : Word) : (s.putFixed l c v).meters = s.meters := rfl
@[simp] theorem State.putFixed_evcnt (s : State) (l : Lat) (c : Nat) (v : Word) : (s.putFixed l c v).evcnt = s.evcnt := rfl
@[simp] theorem State.putFixed_cores (s : State) (l : Lat) (c : Nat) (v : Word) : (s.putFixed l c v).cores = s.cores := rfl
@[simp] theorem State.putFixed_quads (s : State) (l : Lat) (c : Nat) (v : Word) : (s.putFixed l c v).quads = s.quads := rfl
@[simp] theorem State.putFixed_ops (s : State) (l : Lat) (c : Nat) (v : Word) : (s.putFixed l c v).ops = s.ops := rfl
@[simp] theorem State.putFixed_drains (s : State) (l : Lat) (c : Nat) (v : Word) : (s.putFixed l c v).drains = s.drains := rfl
@[simp] theorem State.putFixed_moves (s : State) (l : Lat) (c : Nat) (v : Word) : (s.putFixed l c v).moves = s.moves := rfl
@[simp] theorem State.putFixed_ctlQ (s : State) (l : Lat) (c : Nat) (v : Word) : (s.putFixed l c v).ctlQ = s.ctlQ := rfl
@[simp] theorem State.putFixed_log (s : State) (l : Lat) (c : Nat) (v : Word) : (s.putFixed l c v).log = s.log := rfl
@[simp] theorem State.putFixed_holds (s : State) (l : Lat) (c : Nat) (v : Word) : (s.putFixed l c v).holds = s.holds := rfl
@[simp] theorem State.putFixed_atomQ (s : State) (l : Lat) (c : Nat) (v : Word) : (s.putFixed l c v).atomQ = s.atomQ := rfl
@[simp] theorem State.putFixed_records (s : State) (l : Lat) (c : Nat) (v : Word) : (s.putFixed l c v).records = s.records := rfl
@[simp] theorem State.putFixed_outst (s : State) (l : Lat) (c : Nat) (v : Word) : (s.putFixed l c v).outst = s.outst := rfl
@[simp] theorem State.putFixed_ringSeq (s : State) (l : Lat) (c : Nat) (v : Word) : (s.putFixed l c v).ringSeq = s.ringSeq := rfl
@[simp] theorem State.putFixed_ringNow (s : State) (l : Lat) (c : Nat) (v : Word) : (s.putFixed l c v).ringNow = s.ringNow := rfl
@[simp] theorem State.putFixed_ceLast (s : State) (l : Lat) (c : Nat) (v : Word) : (s.putFixed l c v).ceLast = s.ceLast := rfl
@[simp] theorem State.putFixed_scrubs (s : State) (l : Lat) (c : Nat) (v : Word) : (s.putFixed l c v).scrubs = s.scrubs := rfl
@[simp] theorem State.putFixed_pins (s : State) (l : Lat) (c : Nat) (v : Word) : (s.putFixed l c v).pins = s.pins := rfl
@[simp] theorem State.putFixed_reg (s : State) (l : Lat) (c : Nat) (v : Word) : (s.putFixed l c v).reg = s.reg := rfl
@[simp] theorem State.putFixed_trips (s : State) (l : Lat) (c : Nat) (v : Word) : (s.putFixed l c v).trips = s.trips := rfl
@[simp] theorem State.putFixed_tandem (s : State) (l : Lat) (c : Nat) (v : Word) : (s.putFixed l c v).tandem = s.tandem := rfl
@[simp] theorem State.putFixed_retired (s : State) (l : Lat) (c : Nat) (v : Word) : (s.putFixed l c v).retired = s.retired := rfl
@[simp] theorem State.putFixed_power (s : State) (l : Lat) (c : Nat) (v : Word) : (s.putFixed l c v).power = s.power := rfl
@[simp] theorem State.putFixed_sessions (s : State) (l : Lat) (c : Nat) (v : Word) : (s.putFixed l c v).sessions = s.sessions := rfl
@[simp] theorem State.putFixed_spdmOut (s : State) (l : Lat) (c : Nat) (v : Word) : (s.putFixed l c v).spdmOut = s.spdmOut := rfl
@[simp] theorem State.putFixed_booted (s : State) (l : Lat) (c : Nat) (v : Word) : (s.putFixed l c v).booted = s.booted := rfl
@[simp] theorem State.putFixed_lmsTop (s : State) (l : Lat) (c : Nat) (v : Word) : (s.putFixed l c v).lmsTop = s.lmsTop := rfl
@[simp] theorem State.putFixed_lmsLeft (s : State) (l : Lat) (c : Nat) (v : Word) : (s.putFixed l c v).lmsLeft = s.lmsLeft := rfl
@[simp] theorem State.putFixed_links (s : State) (l : Lat) (c : Nat) (v : Word) : (s.putFixed l c v).links = s.links := rfl
@[simp] theorem State.putFixed_tdis (s : State) (l : Lat) (c : Nat) (v : Word) : (s.putFixed l c v).tdis = s.tdis := rfl
@[simp] theorem State.putFixed_dmas (s : State) (l : Lat) (c : Nat) (v : Word) : (s.putFixed l c v).dmas = s.dmas := rfl
@[simp] theorem State.putFixed_ckJobs (s : State) (l : Lat) (c : Nat) (v : Word) : (s.putFixed l c v).ckJobs = s.ckJobs := rfl
@[simp] theorem State.putFixed_sealed (s : State) (l : Lat) (c : Nat) (v : Word) : (s.putFixed l c v).sealed = s.sealed := rfl

/-! post -/

@[simp] theorem State.post_cur (s : State) (c : Nat) (v : Word) (f : BitVec 5) : (s.post c v f).cur = s.cur := rfl
@[simp] theorem State.post_th (s : State) (c : Nat) (v : Word) (f : BitVec 5) : (s.post c v f).th = { s.th with results := s.th.results ++ [⟨c, v, f⟩] } := rfl
@[simp] theorem State.post_threads (s : State) (c : Nat) (v : Word) (f : BitVec 5) : (s.post c v f).threads = s.threads := rfl
@[simp] theorem State.post_agenda (s : State) (c : Nat) (v : Word) (f : BitVec 5) : (s.post c v f).agenda = s.agenda := rfl
@[simp] theorem State.post_time (s : State) (c : Nat) (v : Word) (f : BitVec 5) : (s.post c v f).time = s.time := rfl
@[simp] theorem State.post_fresh (s : State) (c : Nat) (v : Word) (f : BitVec 5) : (s.post c v f).fresh = s.fresh := rfl
@[simp] theorem State.post_serial (s : State) (c : Nat) (v : Word) (f : BitVec 5) : (s.post c v f).serial = s.serial := rfl
@[simp] theorem State.post_keysMade (s : State) (c : Nat) (v : Word) (f : BitVec 5) : (s.post c v f).keysMade = s.keysMade := rfl
@[simp] theorem State.post_chain (s : State) (c : Nat) (v : Word) (f : BitVec 5) : (s.post c v f).chain = s.chain := rfl
@[simp] theorem State.post_hosts (s : State) (c : Nat) (v : Word) (f : BitVec 5) : (s.post c v f).hosts = s.hosts := rfl
@[simp] theorem State.post_teams (s : State) (c : Nat) (v : Word) (f : BitVec 5) : (s.post c v f).teams = s.teams := rfl
@[simp] theorem State.post_launches (s : State) (c : Nat) (v : Word) (f : BitVec 5) : (s.post c v f).launches = s.launches := rfl
@[simp] theorem State.post_walkers (s : State) (c : Nat) (v : Word) (f : BitVec 5) : (s.post c v f).walkers = s.walkers := rfl
@[simp] theorem State.post_queues (s : State) (c : Nat) (v : Word) (f : BitVec 5) : (s.post c v f).queues = s.queues := rfl
@[simp] theorem State.post_paused (s : State) (c : Nat) (v : Word) (f : BitVec 5) : (s.post c v f).paused = s.paused := rfl
@[simp] theorem State.post_turns (s : State) (c : Nat) (v : Word) (f : BitVec 5) : (s.post c v f).turns = s.turns := rfl
@[simp] theorem State.post_mem (s : State) (c : Nat) (v : Word) (f : BitVec 5) : (s.post c v f).mem = s.mem := rfl
@[simp] theorem State.post_lines (s : State) (c : Nat) (v : Word) (f : BitVec 5) : (s.post c v f).lines = s.lines := rfl
@[simp] theorem State.post_clines (s : State) (c : Nat) (v : Word) (f : BitVec 5) : (s.post c v f).clines = s.clines := rfl
@[simp] theorem State.post_ilines (s : State) (c : Nat) (v : Word) (f : BitVec 5) : (s.post c v f).ilines = s.ilines := rfl
@[simp] theorem State.post_l2 (s : State) (c : Nat) (v : Word) (f : BitVec 5) : (s.post c v f).l2 = s.l2 := rfl
@[simp] theorem State.post_tlb (s : State) (c : Nat) (v : Word) (f : BitVec 5) : (s.post c v f).tlb = s.tlb := rfl
@[simp] theorem State.post_pots (s : State) (c : Nat) (v : Word) (f : BitVec 5) : (s.post c v f).pots = s.pots := rfl
@[simp] theorem State.post_ctrs (s : State) (c : Nat) (v : Word) (f : BitVec 5) : (s.post c v f).ctrs = s.ctrs := rfl
@[simp] theorem State.post_nodes1 (s : State) (c : Nat) (v : Word) (f : BitVec 5) : (s.post c v f).nodes1 = s.nodes1 := rfl
@[simp] theorem State.post_nodes2 (s : State) (c : Nat) (v : Word) (f : BitVec 5) : (s.post c v f).nodes2 = s.nodes2 := rfl
@[simp] theorem State.post_roots (s : State) (c : Nat) (v : Word) (f : BitVec 5) : (s.post c v f).roots = s.roots := rfl
@[simp] theorem State.post_badTags (s : State) (c : Nat) (v : Word) (f : BitVec 5) : (s.post c v f).badTags = s.badTags := rfl
@[simp] theorem State.post_badMeta (s : State) (c : Nat) (v : Word) (f : BitVec 5) : (s.post c v f).badMeta = s.badMeta := rfl
@[simp] theorem State.post_sweeps (s : State) (c : Nat) (v : Word) (f : BitVec 5) : (s.post c v f).sweeps = s.sweeps := rfl
@[simp] theorem State.post_homeSig (s : State) (c : Nat) (v : Word) (f : BitVec 5) : (s.post c v f).homeSig = s.homeSig := rfl
@[simp] theorem State.post_slots (s : State) (c : Nat) (v : Word) (f : BitVec 5) : (s.post c v f).slots = s.slots := rfl
@[simp] theorem State.post_gkeys (s : State) (c : Nat) (v : Word) (f : BitVec 5) : (s.post c v f).gkeys = s.gkeys := rfl
@[simp] theorem State.post_encls (s : State) (c : Nat) (v : Word) (f : BitVec 5) : (s.post c v f).encls = s.encls := rfl
@[simp] theorem State.post_meters (s : State) (c : Nat) (v : Word) (f : BitVec 5) : (s.post c v f).meters = s.meters := rfl
@[simp] theorem State.post_evcnt (s : State) (c : Nat) (v : Word) (f : BitVec 5) : (s.post c v f).evcnt = s.evcnt := rfl
@[simp] theorem State.post_cores (s : State) (c : Nat) (v : Word) (f : BitVec 5) : (s.post c v f).cores = s.cores := rfl
@[simp] theorem State.post_quads (s : State) (c : Nat) (v : Word) (f : BitVec 5) : (s.post c v f).quads = s.quads := rfl
@[simp] theorem State.post_ops (s : State) (c : Nat) (v : Word) (f : BitVec 5) : (s.post c v f).ops = s.ops := rfl
@[simp] theorem State.post_drains (s : State) (c : Nat) (v : Word) (f : BitVec 5) : (s.post c v f).drains = s.drains := rfl
@[simp] theorem State.post_moves (s : State) (c : Nat) (v : Word) (f : BitVec 5) : (s.post c v f).moves = s.moves := rfl
@[simp] theorem State.post_ctlQ (s : State) (c : Nat) (v : Word) (f : BitVec 5) : (s.post c v f).ctlQ = s.ctlQ := rfl
@[simp] theorem State.post_log (s : State) (c : Nat) (v : Word) (f : BitVec 5) : (s.post c v f).log = s.log := rfl
@[simp] theorem State.post_holds (s : State) (c : Nat) (v : Word) (f : BitVec 5) : (s.post c v f).holds = s.holds := rfl
@[simp] theorem State.post_atomQ (s : State) (c : Nat) (v : Word) (f : BitVec 5) : (s.post c v f).atomQ = s.atomQ := rfl
@[simp] theorem State.post_records (s : State) (c : Nat) (v : Word) (f : BitVec 5) : (s.post c v f).records = s.records := rfl
@[simp] theorem State.post_outst (s : State) (c : Nat) (v : Word) (f : BitVec 5) : (s.post c v f).outst = s.outst := rfl
@[simp] theorem State.post_ringSeq (s : State) (c : Nat) (v : Word) (f : BitVec 5) : (s.post c v f).ringSeq = s.ringSeq := rfl
@[simp] theorem State.post_ringNow (s : State) (c : Nat) (v : Word) (f : BitVec 5) : (s.post c v f).ringNow = s.ringNow := rfl
@[simp] theorem State.post_ceLast (s : State) (c : Nat) (v : Word) (f : BitVec 5) : (s.post c v f).ceLast = s.ceLast := rfl
@[simp] theorem State.post_scrubs (s : State) (c : Nat) (v : Word) (f : BitVec 5) : (s.post c v f).scrubs = s.scrubs := rfl
@[simp] theorem State.post_pins (s : State) (c : Nat) (v : Word) (f : BitVec 5) : (s.post c v f).pins = s.pins := rfl
@[simp] theorem State.post_reg (s : State) (c : Nat) (v : Word) (f : BitVec 5) : (s.post c v f).reg = s.reg := rfl
@[simp] theorem State.post_trips (s : State) (c : Nat) (v : Word) (f : BitVec 5) : (s.post c v f).trips = s.trips := rfl
@[simp] theorem State.post_tandem (s : State) (c : Nat) (v : Word) (f : BitVec 5) : (s.post c v f).tandem = s.tandem := rfl
@[simp] theorem State.post_retired (s : State) (c : Nat) (v : Word) (f : BitVec 5) : (s.post c v f).retired = s.retired := rfl
@[simp] theorem State.post_power (s : State) (c : Nat) (v : Word) (f : BitVec 5) : (s.post c v f).power = s.power := rfl
@[simp] theorem State.post_sessions (s : State) (c : Nat) (v : Word) (f : BitVec 5) : (s.post c v f).sessions = s.sessions := rfl
@[simp] theorem State.post_spdmOut (s : State) (c : Nat) (v : Word) (f : BitVec 5) : (s.post c v f).spdmOut = s.spdmOut := rfl
@[simp] theorem State.post_booted (s : State) (c : Nat) (v : Word) (f : BitVec 5) : (s.post c v f).booted = s.booted := rfl
@[simp] theorem State.post_lmsTop (s : State) (c : Nat) (v : Word) (f : BitVec 5) : (s.post c v f).lmsTop = s.lmsTop := rfl
@[simp] theorem State.post_lmsLeft (s : State) (c : Nat) (v : Word) (f : BitVec 5) : (s.post c v f).lmsLeft = s.lmsLeft := rfl
@[simp] theorem State.post_links (s : State) (c : Nat) (v : Word) (f : BitVec 5) : (s.post c v f).links = s.links := rfl
@[simp] theorem State.post_tdis (s : State) (c : Nat) (v : Word) (f : BitVec 5) : (s.post c v f).tdis = s.tdis := rfl
@[simp] theorem State.post_dmas (s : State) (c : Nat) (v : Word) (f : BitVec 5) : (s.post c v f).dmas = s.dmas := rfl
@[simp] theorem State.post_ckJobs (s : State) (c : Nat) (v : Word) (f : BitVec 5) : (s.post c v f).ckJobs = s.ckJobs := rfl
@[simp] theorem State.post_sealed (s : State) (c : Nat) (v : Word) (f : BitVec 5) : (s.post c v f).sealed = s.sealed := rfl

/-! charge -/

@[simp] theorem State.charge_cur (s : State) (c e k : Nat) : (s.charge c e k).cur = s.cur := rfl
@[simp] theorem State.charge_th (s : State) (c e k : Nat) : (s.charge c e k).th = s.th := rfl
@[simp] theorem State.charge_threads (s : State) (c e k : Nat) : (s.charge c e k).threads = s.threads := rfl
@[simp] theorem State.charge_agenda (s : State) (c e k : Nat) : (s.charge c e k).agenda = s.agenda := rfl
@[simp] theorem State.charge_time (s : State) (c e k : Nat) : (s.charge c e k).time = s.time := rfl
@[simp] theorem State.charge_fresh (s : State) (c e k : Nat) : (s.charge c e k).fresh = s.fresh := rfl
@[simp] theorem State.charge_serial (s : State) (c e k : Nat) : (s.charge c e k).serial = s.serial := rfl
@[simp] theorem State.charge_keysMade (s : State) (c e k : Nat) : (s.charge c e k).keysMade = s.keysMade := rfl
@[simp] theorem State.charge_chain (s : State) (c e k : Nat) : (s.charge c e k).chain = s.chain := rfl
@[simp] theorem State.charge_hosts (s : State) (c e k : Nat) : (s.charge c e k).hosts = s.hosts := rfl
@[simp] theorem State.charge_teams (s : State) (c e k : Nat) : (s.charge c e k).teams = s.teams := rfl
@[simp] theorem State.charge_launches (s : State) (c e k : Nat) : (s.charge c e k).launches = s.launches := rfl
@[simp] theorem State.charge_walkers (s : State) (c e k : Nat) : (s.charge c e k).walkers = s.walkers := rfl
@[simp] theorem State.charge_queues (s : State) (c e k : Nat) : (s.charge c e k).queues = s.queues := rfl
@[simp] theorem State.charge_paused (s : State) (c e k : Nat) : (s.charge c e k).paused = s.paused := rfl
@[simp] theorem State.charge_turns (s : State) (c e k : Nat) : (s.charge c e k).turns = s.turns := rfl
@[simp] theorem State.charge_mem (s : State) (c e k : Nat) : (s.charge c e k).mem = s.mem := rfl
@[simp] theorem State.charge_lines (s : State) (c e k : Nat) : (s.charge c e k).lines = s.lines := rfl
@[simp] theorem State.charge_clines (s : State) (c e k : Nat) : (s.charge c e k).clines = s.clines := rfl
@[simp] theorem State.charge_ilines (s : State) (c e k : Nat) : (s.charge c e k).ilines = s.ilines := rfl
@[simp] theorem State.charge_l2 (s : State) (c e k : Nat) : (s.charge c e k).l2 = s.l2 := rfl
@[simp] theorem State.charge_tlb (s : State) (c e k : Nat) : (s.charge c e k).tlb = s.tlb := rfl
@[simp] theorem State.charge_pots (s : State) (c e k : Nat) : (s.charge c e k).pots = s.pots := rfl
@[simp] theorem State.charge_ctrs (s : State) (c e k : Nat) : (s.charge c e k).ctrs = s.ctrs := rfl
@[simp] theorem State.charge_nodes1 (s : State) (c e k : Nat) : (s.charge c e k).nodes1 = s.nodes1 := rfl
@[simp] theorem State.charge_nodes2 (s : State) (c e k : Nat) : (s.charge c e k).nodes2 = s.nodes2 := rfl
@[simp] theorem State.charge_roots (s : State) (c e k : Nat) : (s.charge c e k).roots = s.roots := rfl
@[simp] theorem State.charge_badTags (s : State) (c e k : Nat) : (s.charge c e k).badTags = s.badTags := rfl
@[simp] theorem State.charge_badMeta (s : State) (c e k : Nat) : (s.charge c e k).badMeta = s.badMeta := rfl
@[simp] theorem State.charge_sweeps (s : State) (c e k : Nat) : (s.charge c e k).sweeps = s.sweeps := rfl
@[simp] theorem State.charge_homeSig (s : State) (c e k : Nat) : (s.charge c e k).homeSig = s.homeSig := rfl
@[simp] theorem State.charge_slots (s : State) (c e k : Nat) : (s.charge c e k).slots = s.slots := rfl
@[simp] theorem State.charge_gkeys (s : State) (c e k : Nat) : (s.charge c e k).gkeys = s.gkeys := rfl
@[simp] theorem State.charge_encls (s : State) (c e k : Nat) : (s.charge c e k).encls = s.encls := rfl
@[simp] theorem State.charge_evcnt (s : State) (c e k : Nat) : (s.charge c e k).evcnt = s.evcnt := rfl
@[simp] theorem State.charge_cores (s : State) (c e k : Nat) : (s.charge c e k).cores = s.cores := rfl
@[simp] theorem State.charge_quads (s : State) (c e k : Nat) : (s.charge c e k).quads = s.quads := rfl
@[simp] theorem State.charge_ops (s : State) (c e k : Nat) : (s.charge c e k).ops = s.ops := rfl
@[simp] theorem State.charge_drains (s : State) (c e k : Nat) : (s.charge c e k).drains = s.drains := rfl
@[simp] theorem State.charge_moves (s : State) (c e k : Nat) : (s.charge c e k).moves = s.moves := rfl
@[simp] theorem State.charge_ctlQ (s : State) (c e k : Nat) : (s.charge c e k).ctlQ = s.ctlQ := rfl
@[simp] theorem State.charge_log (s : State) (c e k : Nat) : (s.charge c e k).log = s.log := rfl
@[simp] theorem State.charge_holds (s : State) (c e k : Nat) : (s.charge c e k).holds = s.holds := rfl
@[simp] theorem State.charge_atomQ (s : State) (c e k : Nat) : (s.charge c e k).atomQ = s.atomQ := rfl
@[simp] theorem State.charge_records (s : State) (c e k : Nat) : (s.charge c e k).records = s.records := rfl
@[simp] theorem State.charge_outst (s : State) (c e k : Nat) : (s.charge c e k).outst = s.outst := rfl
@[simp] theorem State.charge_ringSeq (s : State) (c e k : Nat) : (s.charge c e k).ringSeq = s.ringSeq := rfl
@[simp] theorem State.charge_ringNow (s : State) (c e k : Nat) : (s.charge c e k).ringNow = s.ringNow := rfl
@[simp] theorem State.charge_ceLast (s : State) (c e k : Nat) : (s.charge c e k).ceLast = s.ceLast := rfl
@[simp] theorem State.charge_scrubs (s : State) (c e k : Nat) : (s.charge c e k).scrubs = s.scrubs := rfl
@[simp] theorem State.charge_pins (s : State) (c e k : Nat) : (s.charge c e k).pins = s.pins := rfl
@[simp] theorem State.charge_reg (s : State) (c e k : Nat) : (s.charge c e k).reg = s.reg := rfl
@[simp] theorem State.charge_trips (s : State) (c e k : Nat) : (s.charge c e k).trips = s.trips := rfl
@[simp] theorem State.charge_tandem (s : State) (c e k : Nat) : (s.charge c e k).tandem = s.tandem := rfl
@[simp] theorem State.charge_retired (s : State) (c e k : Nat) : (s.charge c e k).retired = s.retired := rfl
@[simp] theorem State.charge_power (s : State) (c e k : Nat) : (s.charge c e k).power = s.power := rfl
@[simp] theorem State.charge_sessions (s : State) (c e k : Nat) : (s.charge c e k).sessions = s.sessions := rfl
@[simp] theorem State.charge_spdmOut (s : State) (c e k : Nat) : (s.charge c e k).spdmOut = s.spdmOut := rfl
@[simp] theorem State.charge_booted (s : State) (c e k : Nat) : (s.charge c e k).booted = s.booted := rfl
@[simp] theorem State.charge_lmsTop (s : State) (c e k : Nat) : (s.charge c e k).lmsTop = s.lmsTop := rfl
@[simp] theorem State.charge_lmsLeft (s : State) (c e k : Nat) : (s.charge c e k).lmsLeft = s.lmsLeft := rfl
@[simp] theorem State.charge_links (s : State) (c e k : Nat) : (s.charge c e k).links = s.links := rfl
@[simp] theorem State.charge_tdis (s : State) (c e k : Nat) : (s.charge c e k).tdis = s.tdis := rfl
@[simp] theorem State.charge_dmas (s : State) (c e k : Nat) : (s.charge c e k).dmas = s.dmas := rfl
@[simp] theorem State.charge_ckJobs (s : State) (c e k : Nat) : (s.charge c e k).ckJobs = s.ckJobs := rfl
@[simp] theorem State.charge_sealed (s : State) (c e k : Nat) : (s.charge c e k).sealed = s.sealed := rfl

/-! count -/

@[simp] theorem State.count_cur (s : State) (c e a k : Nat) : (s.count c e a k).cur = s.cur := by unfold State.count; split <;> rfl
@[simp] theorem State.count_th (s : State) (c e a k : Nat) : (s.count c e a k).th = s.th := by unfold State.count; split <;> rfl
@[simp] theorem State.count_threads (s : State) (c e a k : Nat) : (s.count c e a k).threads = s.threads := by unfold State.count; split <;> rfl
@[simp] theorem State.count_agenda (s : State) (c e a k : Nat) : (s.count c e a k).agenda = s.agenda := by unfold State.count; split <;> rfl
@[simp] theorem State.count_time (s : State) (c e a k : Nat) : (s.count c e a k).time = s.time := by unfold State.count; split <;> rfl
@[simp] theorem State.count_fresh (s : State) (c e a k : Nat) : (s.count c e a k).fresh = s.fresh := by unfold State.count; split <;> rfl
@[simp] theorem State.count_serial (s : State) (c e a k : Nat) : (s.count c e a k).serial = s.serial := by unfold State.count; split <;> rfl
@[simp] theorem State.count_keysMade (s : State) (c e a k : Nat) : (s.count c e a k).keysMade = s.keysMade := by unfold State.count; split <;> rfl
@[simp] theorem State.count_chain (s : State) (c e a k : Nat) : (s.count c e a k).chain = s.chain := by unfold State.count; split <;> rfl
@[simp] theorem State.count_hosts (s : State) (c e a k : Nat) : (s.count c e a k).hosts = s.hosts := by unfold State.count; split <;> rfl
@[simp] theorem State.count_teams (s : State) (c e a k : Nat) : (s.count c e a k).teams = s.teams := by unfold State.count; split <;> rfl
@[simp] theorem State.count_launches (s : State) (c e a k : Nat) : (s.count c e a k).launches = s.launches := by unfold State.count; split <;> rfl
@[simp] theorem State.count_walkers (s : State) (c e a k : Nat) : (s.count c e a k).walkers = s.walkers := by unfold State.count; split <;> rfl
@[simp] theorem State.count_queues (s : State) (c e a k : Nat) : (s.count c e a k).queues = s.queues := by unfold State.count; split <;> rfl
@[simp] theorem State.count_paused (s : State) (c e a k : Nat) : (s.count c e a k).paused = s.paused := by unfold State.count; split <;> rfl
@[simp] theorem State.count_turns (s : State) (c e a k : Nat) : (s.count c e a k).turns = s.turns := by unfold State.count; split <;> rfl
@[simp] theorem State.count_mem (s : State) (c e a k : Nat) : (s.count c e a k).mem = s.mem := by unfold State.count; split <;> rfl
@[simp] theorem State.count_lines (s : State) (c e a k : Nat) : (s.count c e a k).lines = s.lines := by unfold State.count; split <;> rfl
@[simp] theorem State.count_clines (s : State) (c e a k : Nat) : (s.count c e a k).clines = s.clines := by unfold State.count; split <;> rfl
@[simp] theorem State.count_ilines (s : State) (c e a k : Nat) : (s.count c e a k).ilines = s.ilines := by unfold State.count; split <;> rfl
@[simp] theorem State.count_l2 (s : State) (c e a k : Nat) : (s.count c e a k).l2 = s.l2 := by unfold State.count; split <;> rfl
@[simp] theorem State.count_tlb (s : State) (c e a k : Nat) : (s.count c e a k).tlb = s.tlb := by unfold State.count; split <;> rfl
@[simp] theorem State.count_pots (s : State) (c e a k : Nat) : (s.count c e a k).pots = s.pots := by unfold State.count; split <;> rfl
@[simp] theorem State.count_ctrs (s : State) (c e a k : Nat) : (s.count c e a k).ctrs = s.ctrs := by unfold State.count; split <;> rfl
@[simp] theorem State.count_nodes1 (s : State) (c e a k : Nat) : (s.count c e a k).nodes1 = s.nodes1 := by unfold State.count; split <;> rfl
@[simp] theorem State.count_nodes2 (s : State) (c e a k : Nat) : (s.count c e a k).nodes2 = s.nodes2 := by unfold State.count; split <;> rfl
@[simp] theorem State.count_roots (s : State) (c e a k : Nat) : (s.count c e a k).roots = s.roots := by unfold State.count; split <;> rfl
@[simp] theorem State.count_badTags (s : State) (c e a k : Nat) : (s.count c e a k).badTags = s.badTags := by unfold State.count; split <;> rfl
@[simp] theorem State.count_badMeta (s : State) (c e a k : Nat) : (s.count c e a k).badMeta = s.badMeta := by unfold State.count; split <;> rfl
@[simp] theorem State.count_sweeps (s : State) (c e a k : Nat) : (s.count c e a k).sweeps = s.sweeps := by unfold State.count; split <;> rfl
@[simp] theorem State.count_homeSig (s : State) (c e a k : Nat) : (s.count c e a k).homeSig = s.homeSig := by unfold State.count; split <;> rfl
@[simp] theorem State.count_slots (s : State) (c e a k : Nat) : (s.count c e a k).slots = s.slots := by unfold State.count; split <;> rfl
@[simp] theorem State.count_gkeys (s : State) (c e a k : Nat) : (s.count c e a k).gkeys = s.gkeys := by unfold State.count; split <;> rfl
@[simp] theorem State.count_encls (s : State) (c e a k : Nat) : (s.count c e a k).encls = s.encls := by unfold State.count; split <;> rfl
@[simp] theorem State.count_meters (s : State) (c e a k : Nat) : (s.count c e a k).meters = s.meters := by unfold State.count; split <;> rfl
@[simp] theorem State.count_cores (s : State) (c e a k : Nat) : (s.count c e a k).cores = s.cores := by unfold State.count; split <;> rfl
@[simp] theorem State.count_quads (s : State) (c e a k : Nat) : (s.count c e a k).quads = s.quads := by unfold State.count; split <;> rfl
@[simp] theorem State.count_ops (s : State) (c e a k : Nat) : (s.count c e a k).ops = s.ops := by unfold State.count; split <;> rfl
@[simp] theorem State.count_drains (s : State) (c e a k : Nat) : (s.count c e a k).drains = s.drains := by unfold State.count; split <;> rfl
@[simp] theorem State.count_moves (s : State) (c e a k : Nat) : (s.count c e a k).moves = s.moves := by unfold State.count; split <;> rfl
@[simp] theorem State.count_ctlQ (s : State) (c e a k : Nat) : (s.count c e a k).ctlQ = s.ctlQ := by unfold State.count; split <;> rfl
@[simp] theorem State.count_log (s : State) (c e a k : Nat) : (s.count c e a k).log = s.log := by unfold State.count; split <;> rfl
@[simp] theorem State.count_holds (s : State) (c e a k : Nat) : (s.count c e a k).holds = s.holds := by unfold State.count; split <;> rfl
@[simp] theorem State.count_atomQ (s : State) (c e a k : Nat) : (s.count c e a k).atomQ = s.atomQ := by unfold State.count; split <;> rfl
@[simp] theorem State.count_records (s : State) (c e a k : Nat) : (s.count c e a k).records = s.records := by unfold State.count; split <;> rfl
@[simp] theorem State.count_outst (s : State) (c e a k : Nat) : (s.count c e a k).outst = s.outst := by unfold State.count; split <;> rfl
@[simp] theorem State.count_ringSeq (s : State) (c e a k : Nat) : (s.count c e a k).ringSeq = s.ringSeq := by unfold State.count; split <;> rfl
@[simp] theorem State.count_ringNow (s : State) (c e a k : Nat) : (s.count c e a k).ringNow = s.ringNow := by unfold State.count; split <;> rfl
@[simp] theorem State.count_ceLast (s : State) (c e a k : Nat) : (s.count c e a k).ceLast = s.ceLast := by unfold State.count; split <;> rfl
@[simp] theorem State.count_scrubs (s : State) (c e a k : Nat) : (s.count c e a k).scrubs = s.scrubs := by unfold State.count; split <;> rfl
@[simp] theorem State.count_pins (s : State) (c e a k : Nat) : (s.count c e a k).pins = s.pins := by unfold State.count; split <;> rfl
@[simp] theorem State.count_reg (s : State) (c e a k : Nat) : (s.count c e a k).reg = s.reg := by unfold State.count; split <;> rfl
@[simp] theorem State.count_trips (s : State) (c e a k : Nat) : (s.count c e a k).trips = s.trips := by unfold State.count; split <;> rfl
@[simp] theorem State.count_tandem (s : State) (c e a k : Nat) : (s.count c e a k).tandem = s.tandem := by unfold State.count; split <;> rfl
@[simp] theorem State.count_retired (s : State) (c e a k : Nat) : (s.count c e a k).retired = s.retired := by unfold State.count; split <;> rfl
@[simp] theorem State.count_power (s : State) (c e a k : Nat) : (s.count c e a k).power = s.power := by unfold State.count; split <;> rfl
@[simp] theorem State.count_sessions (s : State) (c e a k : Nat) : (s.count c e a k).sessions = s.sessions := by unfold State.count; split <;> rfl
@[simp] theorem State.count_spdmOut (s : State) (c e a k : Nat) : (s.count c e a k).spdmOut = s.spdmOut := by unfold State.count; split <;> rfl
@[simp] theorem State.count_booted (s : State) (c e a k : Nat) : (s.count c e a k).booted = s.booted := by unfold State.count; split <;> rfl
@[simp] theorem State.count_lmsTop (s : State) (c e a k : Nat) : (s.count c e a k).lmsTop = s.lmsTop := by unfold State.count; split <;> rfl
@[simp] theorem State.count_lmsLeft (s : State) (c e a k : Nat) : (s.count c e a k).lmsLeft = s.lmsLeft := by unfold State.count; split <;> rfl
@[simp] theorem State.count_links (s : State) (c e a k : Nat) : (s.count c e a k).links = s.links := by unfold State.count; split <;> rfl
@[simp] theorem State.count_tdis (s : State) (c e a k : Nat) : (s.count c e a k).tdis = s.tdis := by unfold State.count; split <;> rfl
@[simp] theorem State.count_dmas (s : State) (c e a k : Nat) : (s.count c e a k).dmas = s.dmas := by unfold State.count; split <;> rfl
@[simp] theorem State.count_ckJobs (s : State) (c e a k : Nat) : (s.count c e a k).ckJobs = s.ckJobs := by unfold State.count; split <;> rfl
@[simp] theorem State.count_sealed (s : State) (c e a k : Nat) : (s.count c e a k).sealed = s.sealed := by unfold State.count; split <;> rfl

/-! setThread -/

@[simp] theorem State.setThread_cur (s : State) (i : ThreadId) (t : Thread) : (s.setThread i t).cur = s.cur := by unfold State.setThread; split <;> rfl
@[simp] theorem State.setThread_agenda (s : State) (i : ThreadId) (t : Thread) : (s.setThread i t).agenda = s.agenda := by unfold State.setThread; split <;> rfl
@[simp] theorem State.setThread_time (s : State) (i : ThreadId) (t : Thread) : (s.setThread i t).time = s.time := by unfold State.setThread; split <;> rfl
@[simp] theorem State.setThread_fresh (s : State) (i : ThreadId) (t : Thread) : (s.setThread i t).fresh = s.fresh := by unfold State.setThread; split <;> rfl
@[simp] theorem State.setThread_serial (s : State) (i : ThreadId) (t : Thread) : (s.setThread i t).serial = s.serial := by unfold State.setThread; split <;> rfl
@[simp] theorem State.setThread_keysMade (s : State) (i : ThreadId) (t : Thread) : (s.setThread i t).keysMade = s.keysMade := by unfold State.setThread; split <;> rfl
@[simp] theorem State.setThread_chain (s : State) (i : ThreadId) (t : Thread) : (s.setThread i t).chain = s.chain := by unfold State.setThread; split <;> rfl
@[simp] theorem State.setThread_hosts (s : State) (i : ThreadId) (t : Thread) : (s.setThread i t).hosts = s.hosts := by unfold State.setThread; split <;> rfl
@[simp] theorem State.setThread_teams (s : State) (i : ThreadId) (t : Thread) : (s.setThread i t).teams = s.teams := by unfold State.setThread; split <;> rfl
@[simp] theorem State.setThread_launches (s : State) (i : ThreadId) (t : Thread) : (s.setThread i t).launches = s.launches := by unfold State.setThread; split <;> rfl
@[simp] theorem State.setThread_walkers (s : State) (i : ThreadId) (t : Thread) : (s.setThread i t).walkers = s.walkers := by unfold State.setThread; split <;> rfl
@[simp] theorem State.setThread_queues (s : State) (i : ThreadId) (t : Thread) : (s.setThread i t).queues = s.queues := by unfold State.setThread; split <;> rfl
@[simp] theorem State.setThread_paused (s : State) (i : ThreadId) (t : Thread) : (s.setThread i t).paused = s.paused := by unfold State.setThread; split <;> rfl
@[simp] theorem State.setThread_turns (s : State) (i : ThreadId) (t : Thread) : (s.setThread i t).turns = s.turns := by unfold State.setThread; split <;> rfl
@[simp] theorem State.setThread_mem (s : State) (i : ThreadId) (t : Thread) : (s.setThread i t).mem = s.mem := by unfold State.setThread; split <;> rfl
@[simp] theorem State.setThread_lines (s : State) (i : ThreadId) (t : Thread) : (s.setThread i t).lines = s.lines := by unfold State.setThread; split <;> rfl
@[simp] theorem State.setThread_clines (s : State) (i : ThreadId) (t : Thread) : (s.setThread i t).clines = s.clines := by unfold State.setThread; split <;> rfl
@[simp] theorem State.setThread_ilines (s : State) (i : ThreadId) (t : Thread) : (s.setThread i t).ilines = s.ilines := by unfold State.setThread; split <;> rfl
@[simp] theorem State.setThread_l2 (s : State) (i : ThreadId) (t : Thread) : (s.setThread i t).l2 = s.l2 := by unfold State.setThread; split <;> rfl
@[simp] theorem State.setThread_tlb (s : State) (i : ThreadId) (t : Thread) : (s.setThread i t).tlb = s.tlb := by unfold State.setThread; split <;> rfl
@[simp] theorem State.setThread_pots (s : State) (i : ThreadId) (t : Thread) : (s.setThread i t).pots = s.pots := by unfold State.setThread; split <;> rfl
@[simp] theorem State.setThread_ctrs (s : State) (i : ThreadId) (t : Thread) : (s.setThread i t).ctrs = s.ctrs := by unfold State.setThread; split <;> rfl
@[simp] theorem State.setThread_nodes1 (s : State) (i : ThreadId) (t : Thread) : (s.setThread i t).nodes1 = s.nodes1 := by unfold State.setThread; split <;> rfl
@[simp] theorem State.setThread_nodes2 (s : State) (i : ThreadId) (t : Thread) : (s.setThread i t).nodes2 = s.nodes2 := by unfold State.setThread; split <;> rfl
@[simp] theorem State.setThread_roots (s : State) (i : ThreadId) (t : Thread) : (s.setThread i t).roots = s.roots := by unfold State.setThread; split <;> rfl
@[simp] theorem State.setThread_badTags (s : State) (i : ThreadId) (t : Thread) : (s.setThread i t).badTags = s.badTags := by unfold State.setThread; split <;> rfl
@[simp] theorem State.setThread_badMeta (s : State) (i : ThreadId) (t : Thread) : (s.setThread i t).badMeta = s.badMeta := by unfold State.setThread; split <;> rfl
@[simp] theorem State.setThread_sweeps (s : State) (i : ThreadId) (t : Thread) : (s.setThread i t).sweeps = s.sweeps := by unfold State.setThread; split <;> rfl
@[simp] theorem State.setThread_homeSig (s : State) (i : ThreadId) (t : Thread) : (s.setThread i t).homeSig = s.homeSig := by unfold State.setThread; split <;> rfl
@[simp] theorem State.setThread_slots (s : State) (i : ThreadId) (t : Thread) : (s.setThread i t).slots = s.slots := by unfold State.setThread; split <;> rfl
@[simp] theorem State.setThread_gkeys (s : State) (i : ThreadId) (t : Thread) : (s.setThread i t).gkeys = s.gkeys := by unfold State.setThread; split <;> rfl
@[simp] theorem State.setThread_encls (s : State) (i : ThreadId) (t : Thread) : (s.setThread i t).encls = s.encls := by unfold State.setThread; split <;> rfl
@[simp] theorem State.setThread_meters (s : State) (i : ThreadId) (t : Thread) : (s.setThread i t).meters = s.meters := by unfold State.setThread; split <;> rfl
@[simp] theorem State.setThread_evcnt (s : State) (i : ThreadId) (t : Thread) : (s.setThread i t).evcnt = s.evcnt := by unfold State.setThread; split <;> rfl
@[simp] theorem State.setThread_cores (s : State) (i : ThreadId) (t : Thread) : (s.setThread i t).cores = s.cores := by unfold State.setThread; split <;> rfl
@[simp] theorem State.setThread_quads (s : State) (i : ThreadId) (t : Thread) : (s.setThread i t).quads = s.quads := by unfold State.setThread; split <;> rfl
@[simp] theorem State.setThread_ops (s : State) (i : ThreadId) (t : Thread) : (s.setThread i t).ops = s.ops := by unfold State.setThread; split <;> rfl
@[simp] theorem State.setThread_drains (s : State) (i : ThreadId) (t : Thread) : (s.setThread i t).drains = s.drains := by unfold State.setThread; split <;> rfl
@[simp] theorem State.setThread_moves (s : State) (i : ThreadId) (t : Thread) : (s.setThread i t).moves = s.moves := by unfold State.setThread; split <;> rfl
@[simp] theorem State.setThread_ctlQ (s : State) (i : ThreadId) (t : Thread) : (s.setThread i t).ctlQ = s.ctlQ := by unfold State.setThread; split <;> rfl
@[simp] theorem State.setThread_log (s : State) (i : ThreadId) (t : Thread) : (s.setThread i t).log = s.log := by unfold State.setThread; split <;> rfl
@[simp] theorem State.setThread_holds (s : State) (i : ThreadId) (t : Thread) : (s.setThread i t).holds = s.holds := by unfold State.setThread; split <;> rfl
@[simp] theorem State.setThread_atomQ (s : State) (i : ThreadId) (t : Thread) : (s.setThread i t).atomQ = s.atomQ := by unfold State.setThread; split <;> rfl
@[simp] theorem State.setThread_records (s : State) (i : ThreadId) (t : Thread) : (s.setThread i t).records = s.records := by unfold State.setThread; split <;> rfl
@[simp] theorem State.setThread_outst (s : State) (i : ThreadId) (t : Thread) : (s.setThread i t).outst = s.outst := by unfold State.setThread; split <;> rfl
@[simp] theorem State.setThread_ringSeq (s : State) (i : ThreadId) (t : Thread) : (s.setThread i t).ringSeq = s.ringSeq := by unfold State.setThread; split <;> rfl
@[simp] theorem State.setThread_ringNow (s : State) (i : ThreadId) (t : Thread) : (s.setThread i t).ringNow = s.ringNow := by unfold State.setThread; split <;> rfl
@[simp] theorem State.setThread_ceLast (s : State) (i : ThreadId) (t : Thread) : (s.setThread i t).ceLast = s.ceLast := by unfold State.setThread; split <;> rfl
@[simp] theorem State.setThread_scrubs (s : State) (i : ThreadId) (t : Thread) : (s.setThread i t).scrubs = s.scrubs := by unfold State.setThread; split <;> rfl
@[simp] theorem State.setThread_pins (s : State) (i : ThreadId) (t : Thread) : (s.setThread i t).pins = s.pins := by unfold State.setThread; split <;> rfl
@[simp] theorem State.setThread_reg (s : State) (i : ThreadId) (t : Thread) : (s.setThread i t).reg = s.reg := by unfold State.setThread; split <;> rfl
@[simp] theorem State.setThread_trips (s : State) (i : ThreadId) (t : Thread) : (s.setThread i t).trips = s.trips := by unfold State.setThread; split <;> rfl
@[simp] theorem State.setThread_tandem (s : State) (i : ThreadId) (t : Thread) : (s.setThread i t).tandem = s.tandem := by unfold State.setThread; split <;> rfl
@[simp] theorem State.setThread_retired (s : State) (i : ThreadId) (t : Thread) : (s.setThread i t).retired = s.retired := by unfold State.setThread; split <;> rfl
@[simp] theorem State.setThread_power (s : State) (i : ThreadId) (t : Thread) : (s.setThread i t).power = s.power := by unfold State.setThread; split <;> rfl
@[simp] theorem State.setThread_sessions (s : State) (i : ThreadId) (t : Thread) : (s.setThread i t).sessions = s.sessions := by unfold State.setThread; split <;> rfl
@[simp] theorem State.setThread_spdmOut (s : State) (i : ThreadId) (t : Thread) : (s.setThread i t).spdmOut = s.spdmOut := by unfold State.setThread; split <;> rfl
@[simp] theorem State.setThread_booted (s : State) (i : ThreadId) (t : Thread) : (s.setThread i t).booted = s.booted := by unfold State.setThread; split <;> rfl
@[simp] theorem State.setThread_lmsTop (s : State) (i : ThreadId) (t : Thread) : (s.setThread i t).lmsTop = s.lmsTop := by unfold State.setThread; split <;> rfl
@[simp] theorem State.setThread_lmsLeft (s : State) (i : ThreadId) (t : Thread) : (s.setThread i t).lmsLeft = s.lmsLeft := by unfold State.setThread; split <;> rfl
@[simp] theorem State.setThread_links (s : State) (i : ThreadId) (t : Thread) : (s.setThread i t).links = s.links := by unfold State.setThread; split <;> rfl
@[simp] theorem State.setThread_tdis (s : State) (i : ThreadId) (t : Thread) : (s.setThread i t).tdis = s.tdis := by unfold State.setThread; split <;> rfl
@[simp] theorem State.setThread_dmas (s : State) (i : ThreadId) (t : Thread) : (s.setThread i t).dmas = s.dmas := by unfold State.setThread; split <;> rfl
@[simp] theorem State.setThread_ckJobs (s : State) (i : ThreadId) (t : Thread) : (s.setThread i t).ckJobs = s.ckJobs := by unfold State.setThread; split <;> rfl
@[simp] theorem State.setThread_sealed (s : State) (i : ThreadId) (t : Thread) : (s.setThread i t).sealed = s.sealed := by unfold State.setThread; split <;> rfl

/-! modTeam -/

@[simp] theorem State.modTeam_cur (s : State) (n : Nat) (f : Team → Team) : (s.modTeam n f).cur = s.cur := by unfold State.modTeam; split <;> rfl
@[simp] theorem State.modTeam_th (s : State) (n : Nat) (f : Team → Team) : (s.modTeam n f).th = s.th := by unfold State.modTeam; split <;> rfl
@[simp] theorem State.modTeam_threads (s : State) (n : Nat) (f : Team → Team) : (s.modTeam n f).threads = s.threads := by unfold State.modTeam; split <;> rfl
@[simp] theorem State.modTeam_agenda (s : State) (n : Nat) (f : Team → Team) : (s.modTeam n f).agenda = s.agenda := by unfold State.modTeam; split <;> rfl
@[simp] theorem State.modTeam_time (s : State) (n : Nat) (f : Team → Team) : (s.modTeam n f).time = s.time := by unfold State.modTeam; split <;> rfl
@[simp] theorem State.modTeam_fresh (s : State) (n : Nat) (f : Team → Team) : (s.modTeam n f).fresh = s.fresh := by unfold State.modTeam; split <;> rfl
@[simp] theorem State.modTeam_serial (s : State) (n : Nat) (f : Team → Team) : (s.modTeam n f).serial = s.serial := by unfold State.modTeam; split <;> rfl
@[simp] theorem State.modTeam_keysMade (s : State) (n : Nat) (f : Team → Team) : (s.modTeam n f).keysMade = s.keysMade := by unfold State.modTeam; split <;> rfl
@[simp] theorem State.modTeam_chain (s : State) (n : Nat) (f : Team → Team) : (s.modTeam n f).chain = s.chain := by unfold State.modTeam; split <;> rfl
@[simp] theorem State.modTeam_hosts (s : State) (n : Nat) (f : Team → Team) : (s.modTeam n f).hosts = s.hosts := by unfold State.modTeam; split <;> rfl
@[simp] theorem State.modTeam_launches (s : State) (n : Nat) (f : Team → Team) : (s.modTeam n f).launches = s.launches := by unfold State.modTeam; split <;> rfl
@[simp] theorem State.modTeam_walkers (s : State) (n : Nat) (f : Team → Team) : (s.modTeam n f).walkers = s.walkers := by unfold State.modTeam; split <;> rfl
@[simp] theorem State.modTeam_queues (s : State) (n : Nat) (f : Team → Team) : (s.modTeam n f).queues = s.queues := by unfold State.modTeam; split <;> rfl
@[simp] theorem State.modTeam_paused (s : State) (n : Nat) (f : Team → Team) : (s.modTeam n f).paused = s.paused := by unfold State.modTeam; split <;> rfl
@[simp] theorem State.modTeam_turns (s : State) (n : Nat) (f : Team → Team) : (s.modTeam n f).turns = s.turns := by unfold State.modTeam; split <;> rfl
@[simp] theorem State.modTeam_mem (s : State) (n : Nat) (f : Team → Team) : (s.modTeam n f).mem = s.mem := by unfold State.modTeam; split <;> rfl
@[simp] theorem State.modTeam_lines (s : State) (n : Nat) (f : Team → Team) : (s.modTeam n f).lines = s.lines := by unfold State.modTeam; split <;> rfl
@[simp] theorem State.modTeam_clines (s : State) (n : Nat) (f : Team → Team) : (s.modTeam n f).clines = s.clines := by unfold State.modTeam; split <;> rfl
@[simp] theorem State.modTeam_ilines (s : State) (n : Nat) (f : Team → Team) : (s.modTeam n f).ilines = s.ilines := by unfold State.modTeam; split <;> rfl
@[simp] theorem State.modTeam_l2 (s : State) (n : Nat) (f : Team → Team) : (s.modTeam n f).l2 = s.l2 := by unfold State.modTeam; split <;> rfl
@[simp] theorem State.modTeam_tlb (s : State) (n : Nat) (f : Team → Team) : (s.modTeam n f).tlb = s.tlb := by unfold State.modTeam; split <;> rfl
@[simp] theorem State.modTeam_pots (s : State) (n : Nat) (f : Team → Team) : (s.modTeam n f).pots = s.pots := by unfold State.modTeam; split <;> rfl
@[simp] theorem State.modTeam_ctrs (s : State) (n : Nat) (f : Team → Team) : (s.modTeam n f).ctrs = s.ctrs := by unfold State.modTeam; split <;> rfl
@[simp] theorem State.modTeam_nodes1 (s : State) (n : Nat) (f : Team → Team) : (s.modTeam n f).nodes1 = s.nodes1 := by unfold State.modTeam; split <;> rfl
@[simp] theorem State.modTeam_nodes2 (s : State) (n : Nat) (f : Team → Team) : (s.modTeam n f).nodes2 = s.nodes2 := by unfold State.modTeam; split <;> rfl
@[simp] theorem State.modTeam_roots (s : State) (n : Nat) (f : Team → Team) : (s.modTeam n f).roots = s.roots := by unfold State.modTeam; split <;> rfl
@[simp] theorem State.modTeam_badTags (s : State) (n : Nat) (f : Team → Team) : (s.modTeam n f).badTags = s.badTags := by unfold State.modTeam; split <;> rfl
@[simp] theorem State.modTeam_badMeta (s : State) (n : Nat) (f : Team → Team) : (s.modTeam n f).badMeta = s.badMeta := by unfold State.modTeam; split <;> rfl
@[simp] theorem State.modTeam_sweeps (s : State) (n : Nat) (f : Team → Team) : (s.modTeam n f).sweeps = s.sweeps := by unfold State.modTeam; split <;> rfl
@[simp] theorem State.modTeam_homeSig (s : State) (n : Nat) (f : Team → Team) : (s.modTeam n f).homeSig = s.homeSig := by unfold State.modTeam; split <;> rfl
@[simp] theorem State.modTeam_slots (s : State) (n : Nat) (f : Team → Team) : (s.modTeam n f).slots = s.slots := by unfold State.modTeam; split <;> rfl
@[simp] theorem State.modTeam_gkeys (s : State) (n : Nat) (f : Team → Team) : (s.modTeam n f).gkeys = s.gkeys := by unfold State.modTeam; split <;> rfl
@[simp] theorem State.modTeam_encls (s : State) (n : Nat) (f : Team → Team) : (s.modTeam n f).encls = s.encls := by unfold State.modTeam; split <;> rfl
@[simp] theorem State.modTeam_meters (s : State) (n : Nat) (f : Team → Team) : (s.modTeam n f).meters = s.meters := by unfold State.modTeam; split <;> rfl
@[simp] theorem State.modTeam_evcnt (s : State) (n : Nat) (f : Team → Team) : (s.modTeam n f).evcnt = s.evcnt := by unfold State.modTeam; split <;> rfl
@[simp] theorem State.modTeam_cores (s : State) (n : Nat) (f : Team → Team) : (s.modTeam n f).cores = s.cores := by unfold State.modTeam; split <;> rfl
@[simp] theorem State.modTeam_quads (s : State) (n : Nat) (f : Team → Team) : (s.modTeam n f).quads = s.quads := by unfold State.modTeam; split <;> rfl
@[simp] theorem State.modTeam_ops (s : State) (n : Nat) (f : Team → Team) : (s.modTeam n f).ops = s.ops := by unfold State.modTeam; split <;> rfl
@[simp] theorem State.modTeam_drains (s : State) (n : Nat) (f : Team → Team) : (s.modTeam n f).drains = s.drains := by unfold State.modTeam; split <;> rfl
@[simp] theorem State.modTeam_moves (s : State) (n : Nat) (f : Team → Team) : (s.modTeam n f).moves = s.moves := by unfold State.modTeam; split <;> rfl
@[simp] theorem State.modTeam_ctlQ (s : State) (n : Nat) (f : Team → Team) : (s.modTeam n f).ctlQ = s.ctlQ := by unfold State.modTeam; split <;> rfl
@[simp] theorem State.modTeam_log (s : State) (n : Nat) (f : Team → Team) : (s.modTeam n f).log = s.log := by unfold State.modTeam; split <;> rfl
@[simp] theorem State.modTeam_holds (s : State) (n : Nat) (f : Team → Team) : (s.modTeam n f).holds = s.holds := by unfold State.modTeam; split <;> rfl
@[simp] theorem State.modTeam_atomQ (s : State) (n : Nat) (f : Team → Team) : (s.modTeam n f).atomQ = s.atomQ := by unfold State.modTeam; split <;> rfl
@[simp] theorem State.modTeam_records (s : State) (n : Nat) (f : Team → Team) : (s.modTeam n f).records = s.records := by unfold State.modTeam; split <;> rfl
@[simp] theorem State.modTeam_outst (s : State) (n : Nat) (f : Team → Team) : (s.modTeam n f).outst = s.outst := by unfold State.modTeam; split <;> rfl
@[simp] theorem State.modTeam_ringSeq (s : State) (n : Nat) (f : Team → Team) : (s.modTeam n f).ringSeq = s.ringSeq := by unfold State.modTeam; split <;> rfl
@[simp] theorem State.modTeam_ringNow (s : State) (n : Nat) (f : Team → Team) : (s.modTeam n f).ringNow = s.ringNow := by unfold State.modTeam; split <;> rfl
@[simp] theorem State.modTeam_ceLast (s : State) (n : Nat) (f : Team → Team) : (s.modTeam n f).ceLast = s.ceLast := by unfold State.modTeam; split <;> rfl
@[simp] theorem State.modTeam_scrubs (s : State) (n : Nat) (f : Team → Team) : (s.modTeam n f).scrubs = s.scrubs := by unfold State.modTeam; split <;> rfl
@[simp] theorem State.modTeam_pins (s : State) (n : Nat) (f : Team → Team) : (s.modTeam n f).pins = s.pins := by unfold State.modTeam; split <;> rfl
@[simp] theorem State.modTeam_reg (s : State) (n : Nat) (f : Team → Team) : (s.modTeam n f).reg = s.reg := by unfold State.modTeam; split <;> rfl
@[simp] theorem State.modTeam_trips (s : State) (n : Nat) (f : Team → Team) : (s.modTeam n f).trips = s.trips := by unfold State.modTeam; split <;> rfl
@[simp] theorem State.modTeam_tandem (s : State) (n : Nat) (f : Team → Team) : (s.modTeam n f).tandem = s.tandem := by unfold State.modTeam; split <;> rfl
@[simp] theorem State.modTeam_retired (s : State) (n : Nat) (f : Team → Team) : (s.modTeam n f).retired = s.retired := by unfold State.modTeam; split <;> rfl
@[simp] theorem State.modTeam_power (s : State) (n : Nat) (f : Team → Team) : (s.modTeam n f).power = s.power := by unfold State.modTeam; split <;> rfl
@[simp] theorem State.modTeam_sessions (s : State) (n : Nat) (f : Team → Team) : (s.modTeam n f).sessions = s.sessions := by unfold State.modTeam; split <;> rfl
@[simp] theorem State.modTeam_spdmOut (s : State) (n : Nat) (f : Team → Team) : (s.modTeam n f).spdmOut = s.spdmOut := by unfold State.modTeam; split <;> rfl
@[simp] theorem State.modTeam_booted (s : State) (n : Nat) (f : Team → Team) : (s.modTeam n f).booted = s.booted := by unfold State.modTeam; split <;> rfl
@[simp] theorem State.modTeam_lmsTop (s : State) (n : Nat) (f : Team → Team) : (s.modTeam n f).lmsTop = s.lmsTop := by unfold State.modTeam; split <;> rfl
@[simp] theorem State.modTeam_lmsLeft (s : State) (n : Nat) (f : Team → Team) : (s.modTeam n f).lmsLeft = s.lmsLeft := by unfold State.modTeam; split <;> rfl
@[simp] theorem State.modTeam_links (s : State) (n : Nat) (f : Team → Team) : (s.modTeam n f).links = s.links := by unfold State.modTeam; split <;> rfl
@[simp] theorem State.modTeam_tdis (s : State) (n : Nat) (f : Team → Team) : (s.modTeam n f).tdis = s.tdis := by unfold State.modTeam; split <;> rfl
@[simp] theorem State.modTeam_dmas (s : State) (n : Nat) (f : Team → Team) : (s.modTeam n f).dmas = s.dmas := by unfold State.modTeam; split <;> rfl
@[simp] theorem State.modTeam_ckJobs (s : State) (n : Nat) (f : Team → Team) : (s.modTeam n f).ckJobs = s.ckJobs := by unfold State.modTeam; split <;> rfl
@[simp] theorem State.modTeam_sealed (s : State) (n : Nat) (f : Team → Team) : (s.modTeam n f).sealed = s.sealed := by unfold State.modTeam; split <;> rfl

/-! modLaunch -/

@[simp] theorem State.modLaunch_cur (s : State) (n : Nat) (f : Launch → Launch) : (s.modLaunch n f).cur = s.cur := by unfold State.modLaunch; split <;> rfl
@[simp] theorem State.modLaunch_th (s : State) (n : Nat) (f : Launch → Launch) : (s.modLaunch n f).th = s.th := by unfold State.modLaunch; split <;> rfl
@[simp] theorem State.modLaunch_threads (s : State) (n : Nat) (f : Launch → Launch) : (s.modLaunch n f).threads = s.threads := by unfold State.modLaunch; split <;> rfl
@[simp] theorem State.modLaunch_agenda (s : State) (n : Nat) (f : Launch → Launch) : (s.modLaunch n f).agenda = s.agenda := by unfold State.modLaunch; split <;> rfl
@[simp] theorem State.modLaunch_time (s : State) (n : Nat) (f : Launch → Launch) : (s.modLaunch n f).time = s.time := by unfold State.modLaunch; split <;> rfl
@[simp] theorem State.modLaunch_fresh (s : State) (n : Nat) (f : Launch → Launch) : (s.modLaunch n f).fresh = s.fresh := by unfold State.modLaunch; split <;> rfl
@[simp] theorem State.modLaunch_serial (s : State) (n : Nat) (f : Launch → Launch) : (s.modLaunch n f).serial = s.serial := by unfold State.modLaunch; split <;> rfl
@[simp] theorem State.modLaunch_keysMade (s : State) (n : Nat) (f : Launch → Launch) : (s.modLaunch n f).keysMade = s.keysMade := by unfold State.modLaunch; split <;> rfl
@[simp] theorem State.modLaunch_chain (s : State) (n : Nat) (f : Launch → Launch) : (s.modLaunch n f).chain = s.chain := by unfold State.modLaunch; split <;> rfl
@[simp] theorem State.modLaunch_hosts (s : State) (n : Nat) (f : Launch → Launch) : (s.modLaunch n f).hosts = s.hosts := by unfold State.modLaunch; split <;> rfl
@[simp] theorem State.modLaunch_teams (s : State) (n : Nat) (f : Launch → Launch) : (s.modLaunch n f).teams = s.teams := by unfold State.modLaunch; split <;> rfl
@[simp] theorem State.modLaunch_walkers (s : State) (n : Nat) (f : Launch → Launch) : (s.modLaunch n f).walkers = s.walkers := by unfold State.modLaunch; split <;> rfl
@[simp] theorem State.modLaunch_queues (s : State) (n : Nat) (f : Launch → Launch) : (s.modLaunch n f).queues = s.queues := by unfold State.modLaunch; split <;> rfl
@[simp] theorem State.modLaunch_paused (s : State) (n : Nat) (f : Launch → Launch) : (s.modLaunch n f).paused = s.paused := by unfold State.modLaunch; split <;> rfl
@[simp] theorem State.modLaunch_turns (s : State) (n : Nat) (f : Launch → Launch) : (s.modLaunch n f).turns = s.turns := by unfold State.modLaunch; split <;> rfl
@[simp] theorem State.modLaunch_mem (s : State) (n : Nat) (f : Launch → Launch) : (s.modLaunch n f).mem = s.mem := by unfold State.modLaunch; split <;> rfl
@[simp] theorem State.modLaunch_lines (s : State) (n : Nat) (f : Launch → Launch) : (s.modLaunch n f).lines = s.lines := by unfold State.modLaunch; split <;> rfl
@[simp] theorem State.modLaunch_clines (s : State) (n : Nat) (f : Launch → Launch) : (s.modLaunch n f).clines = s.clines := by unfold State.modLaunch; split <;> rfl
@[simp] theorem State.modLaunch_ilines (s : State) (n : Nat) (f : Launch → Launch) : (s.modLaunch n f).ilines = s.ilines := by unfold State.modLaunch; split <;> rfl
@[simp] theorem State.modLaunch_l2 (s : State) (n : Nat) (f : Launch → Launch) : (s.modLaunch n f).l2 = s.l2 := by unfold State.modLaunch; split <;> rfl
@[simp] theorem State.modLaunch_tlb (s : State) (n : Nat) (f : Launch → Launch) : (s.modLaunch n f).tlb = s.tlb := by unfold State.modLaunch; split <;> rfl
@[simp] theorem State.modLaunch_pots (s : State) (n : Nat) (f : Launch → Launch) : (s.modLaunch n f).pots = s.pots := by unfold State.modLaunch; split <;> rfl
@[simp] theorem State.modLaunch_ctrs (s : State) (n : Nat) (f : Launch → Launch) : (s.modLaunch n f).ctrs = s.ctrs := by unfold State.modLaunch; split <;> rfl
@[simp] theorem State.modLaunch_nodes1 (s : State) (n : Nat) (f : Launch → Launch) : (s.modLaunch n f).nodes1 = s.nodes1 := by unfold State.modLaunch; split <;> rfl
@[simp] theorem State.modLaunch_nodes2 (s : State) (n : Nat) (f : Launch → Launch) : (s.modLaunch n f).nodes2 = s.nodes2 := by unfold State.modLaunch; split <;> rfl
@[simp] theorem State.modLaunch_roots (s : State) (n : Nat) (f : Launch → Launch) : (s.modLaunch n f).roots = s.roots := by unfold State.modLaunch; split <;> rfl
@[simp] theorem State.modLaunch_badTags (s : State) (n : Nat) (f : Launch → Launch) : (s.modLaunch n f).badTags = s.badTags := by unfold State.modLaunch; split <;> rfl
@[simp] theorem State.modLaunch_badMeta (s : State) (n : Nat) (f : Launch → Launch) : (s.modLaunch n f).badMeta = s.badMeta := by unfold State.modLaunch; split <;> rfl
@[simp] theorem State.modLaunch_sweeps (s : State) (n : Nat) (f : Launch → Launch) : (s.modLaunch n f).sweeps = s.sweeps := by unfold State.modLaunch; split <;> rfl
@[simp] theorem State.modLaunch_homeSig (s : State) (n : Nat) (f : Launch → Launch) : (s.modLaunch n f).homeSig = s.homeSig := by unfold State.modLaunch; split <;> rfl
@[simp] theorem State.modLaunch_slots (s : State) (n : Nat) (f : Launch → Launch) : (s.modLaunch n f).slots = s.slots := by unfold State.modLaunch; split <;> rfl
@[simp] theorem State.modLaunch_gkeys (s : State) (n : Nat) (f : Launch → Launch) : (s.modLaunch n f).gkeys = s.gkeys := by unfold State.modLaunch; split <;> rfl
@[simp] theorem State.modLaunch_encls (s : State) (n : Nat) (f : Launch → Launch) : (s.modLaunch n f).encls = s.encls := by unfold State.modLaunch; split <;> rfl
@[simp] theorem State.modLaunch_meters (s : State) (n : Nat) (f : Launch → Launch) : (s.modLaunch n f).meters = s.meters := by unfold State.modLaunch; split <;> rfl
@[simp] theorem State.modLaunch_evcnt (s : State) (n : Nat) (f : Launch → Launch) : (s.modLaunch n f).evcnt = s.evcnt := by unfold State.modLaunch; split <;> rfl
@[simp] theorem State.modLaunch_cores (s : State) (n : Nat) (f : Launch → Launch) : (s.modLaunch n f).cores = s.cores := by unfold State.modLaunch; split <;> rfl
@[simp] theorem State.modLaunch_quads (s : State) (n : Nat) (f : Launch → Launch) : (s.modLaunch n f).quads = s.quads := by unfold State.modLaunch; split <;> rfl
@[simp] theorem State.modLaunch_ops (s : State) (n : Nat) (f : Launch → Launch) : (s.modLaunch n f).ops = s.ops := by unfold State.modLaunch; split <;> rfl
@[simp] theorem State.modLaunch_drains (s : State) (n : Nat) (f : Launch → Launch) : (s.modLaunch n f).drains = s.drains := by unfold State.modLaunch; split <;> rfl
@[simp] theorem State.modLaunch_moves (s : State) (n : Nat) (f : Launch → Launch) : (s.modLaunch n f).moves = s.moves := by unfold State.modLaunch; split <;> rfl
@[simp] theorem State.modLaunch_ctlQ (s : State) (n : Nat) (f : Launch → Launch) : (s.modLaunch n f).ctlQ = s.ctlQ := by unfold State.modLaunch; split <;> rfl
@[simp] theorem State.modLaunch_log (s : State) (n : Nat) (f : Launch → Launch) : (s.modLaunch n f).log = s.log := by unfold State.modLaunch; split <;> rfl
@[simp] theorem State.modLaunch_holds (s : State) (n : Nat) (f : Launch → Launch) : (s.modLaunch n f).holds = s.holds := by unfold State.modLaunch; split <;> rfl
@[simp] theorem State.modLaunch_atomQ (s : State) (n : Nat) (f : Launch → Launch) : (s.modLaunch n f).atomQ = s.atomQ := by unfold State.modLaunch; split <;> rfl
@[simp] theorem State.modLaunch_records (s : State) (n : Nat) (f : Launch → Launch) : (s.modLaunch n f).records = s.records := by unfold State.modLaunch; split <;> rfl
@[simp] theorem State.modLaunch_outst (s : State) (n : Nat) (f : Launch → Launch) : (s.modLaunch n f).outst = s.outst := by unfold State.modLaunch; split <;> rfl
@[simp] theorem State.modLaunch_ringSeq (s : State) (n : Nat) (f : Launch → Launch) : (s.modLaunch n f).ringSeq = s.ringSeq := by unfold State.modLaunch; split <;> rfl
@[simp] theorem State.modLaunch_ringNow (s : State) (n : Nat) (f : Launch → Launch) : (s.modLaunch n f).ringNow = s.ringNow := by unfold State.modLaunch; split <;> rfl
@[simp] theorem State.modLaunch_ceLast (s : State) (n : Nat) (f : Launch → Launch) : (s.modLaunch n f).ceLast = s.ceLast := by unfold State.modLaunch; split <;> rfl
@[simp] theorem State.modLaunch_scrubs (s : State) (n : Nat) (f : Launch → Launch) : (s.modLaunch n f).scrubs = s.scrubs := by unfold State.modLaunch; split <;> rfl
@[simp] theorem State.modLaunch_pins (s : State) (n : Nat) (f : Launch → Launch) : (s.modLaunch n f).pins = s.pins := by unfold State.modLaunch; split <;> rfl
@[simp] theorem State.modLaunch_reg (s : State) (n : Nat) (f : Launch → Launch) : (s.modLaunch n f).reg = s.reg := by unfold State.modLaunch; split <;> rfl
@[simp] theorem State.modLaunch_trips (s : State) (n : Nat) (f : Launch → Launch) : (s.modLaunch n f).trips = s.trips := by unfold State.modLaunch; split <;> rfl
@[simp] theorem State.modLaunch_tandem (s : State) (n : Nat) (f : Launch → Launch) : (s.modLaunch n f).tandem = s.tandem := by unfold State.modLaunch; split <;> rfl
@[simp] theorem State.modLaunch_retired (s : State) (n : Nat) (f : Launch → Launch) : (s.modLaunch n f).retired = s.retired := by unfold State.modLaunch; split <;> rfl
@[simp] theorem State.modLaunch_power (s : State) (n : Nat) (f : Launch → Launch) : (s.modLaunch n f).power = s.power := by unfold State.modLaunch; split <;> rfl
@[simp] theorem State.modLaunch_sessions (s : State) (n : Nat) (f : Launch → Launch) : (s.modLaunch n f).sessions = s.sessions := by unfold State.modLaunch; split <;> rfl
@[simp] theorem State.modLaunch_spdmOut (s : State) (n : Nat) (f : Launch → Launch) : (s.modLaunch n f).spdmOut = s.spdmOut := by unfold State.modLaunch; split <;> rfl
@[simp] theorem State.modLaunch_booted (s : State) (n : Nat) (f : Launch → Launch) : (s.modLaunch n f).booted = s.booted := by unfold State.modLaunch; split <;> rfl
@[simp] theorem State.modLaunch_lmsTop (s : State) (n : Nat) (f : Launch → Launch) : (s.modLaunch n f).lmsTop = s.lmsTop := by unfold State.modLaunch; split <;> rfl
@[simp] theorem State.modLaunch_lmsLeft (s : State) (n : Nat) (f : Launch → Launch) : (s.modLaunch n f).lmsLeft = s.lmsLeft := by unfold State.modLaunch; split <;> rfl
@[simp] theorem State.modLaunch_links (s : State) (n : Nat) (f : Launch → Launch) : (s.modLaunch n f).links = s.links := by unfold State.modLaunch; split <;> rfl
@[simp] theorem State.modLaunch_tdis (s : State) (n : Nat) (f : Launch → Launch) : (s.modLaunch n f).tdis = s.tdis := by unfold State.modLaunch; split <;> rfl
@[simp] theorem State.modLaunch_dmas (s : State) (n : Nat) (f : Launch → Launch) : (s.modLaunch n f).dmas = s.dmas := by unfold State.modLaunch; split <;> rfl
@[simp] theorem State.modLaunch_ckJobs (s : State) (n : Nat) (f : Launch → Launch) : (s.modLaunch n f).ckJobs = s.ckJobs := by unfold State.modLaunch; split <;> rfl
@[simp] theorem State.modLaunch_sealed (s : State) (n : Nat) (f : Launch → Launch) : (s.modLaunch n f).sealed = s.sealed := by unfold State.modLaunch; split <;> rfl

/-! modEncl -/

@[simp] theorem State.modEncl_cur (s : State) (n : Nat) (f : Encl → Encl) : (s.modEncl n f).cur = s.cur := by unfold State.modEncl; split <;> rfl
@[simp] theorem State.modEncl_th (s : State) (n : Nat) (f : Encl → Encl) : (s.modEncl n f).th = s.th := by unfold State.modEncl; split <;> rfl
@[simp] theorem State.modEncl_threads (s : State) (n : Nat) (f : Encl → Encl) : (s.modEncl n f).threads = s.threads := by unfold State.modEncl; split <;> rfl
@[simp] theorem State.modEncl_agenda (s : State) (n : Nat) (f : Encl → Encl) : (s.modEncl n f).agenda = s.agenda := by unfold State.modEncl; split <;> rfl
@[simp] theorem State.modEncl_time (s : State) (n : Nat) (f : Encl → Encl) : (s.modEncl n f).time = s.time := by unfold State.modEncl; split <;> rfl
@[simp] theorem State.modEncl_fresh (s : State) (n : Nat) (f : Encl → Encl) : (s.modEncl n f).fresh = s.fresh := by unfold State.modEncl; split <;> rfl
@[simp] theorem State.modEncl_serial (s : State) (n : Nat) (f : Encl → Encl) : (s.modEncl n f).serial = s.serial := by unfold State.modEncl; split <;> rfl
@[simp] theorem State.modEncl_keysMade (s : State) (n : Nat) (f : Encl → Encl) : (s.modEncl n f).keysMade = s.keysMade := by unfold State.modEncl; split <;> rfl
@[simp] theorem State.modEncl_chain (s : State) (n : Nat) (f : Encl → Encl) : (s.modEncl n f).chain = s.chain := by unfold State.modEncl; split <;> rfl
@[simp] theorem State.modEncl_hosts (s : State) (n : Nat) (f : Encl → Encl) : (s.modEncl n f).hosts = s.hosts := by unfold State.modEncl; split <;> rfl
@[simp] theorem State.modEncl_teams (s : State) (n : Nat) (f : Encl → Encl) : (s.modEncl n f).teams = s.teams := by unfold State.modEncl; split <;> rfl
@[simp] theorem State.modEncl_launches (s : State) (n : Nat) (f : Encl → Encl) : (s.modEncl n f).launches = s.launches := by unfold State.modEncl; split <;> rfl
@[simp] theorem State.modEncl_walkers (s : State) (n : Nat) (f : Encl → Encl) : (s.modEncl n f).walkers = s.walkers := by unfold State.modEncl; split <;> rfl
@[simp] theorem State.modEncl_queues (s : State) (n : Nat) (f : Encl → Encl) : (s.modEncl n f).queues = s.queues := by unfold State.modEncl; split <;> rfl
@[simp] theorem State.modEncl_paused (s : State) (n : Nat) (f : Encl → Encl) : (s.modEncl n f).paused = s.paused := by unfold State.modEncl; split <;> rfl
@[simp] theorem State.modEncl_turns (s : State) (n : Nat) (f : Encl → Encl) : (s.modEncl n f).turns = s.turns := by unfold State.modEncl; split <;> rfl
@[simp] theorem State.modEncl_mem (s : State) (n : Nat) (f : Encl → Encl) : (s.modEncl n f).mem = s.mem := by unfold State.modEncl; split <;> rfl
@[simp] theorem State.modEncl_lines (s : State) (n : Nat) (f : Encl → Encl) : (s.modEncl n f).lines = s.lines := by unfold State.modEncl; split <;> rfl
@[simp] theorem State.modEncl_clines (s : State) (n : Nat) (f : Encl → Encl) : (s.modEncl n f).clines = s.clines := by unfold State.modEncl; split <;> rfl
@[simp] theorem State.modEncl_ilines (s : State) (n : Nat) (f : Encl → Encl) : (s.modEncl n f).ilines = s.ilines := by unfold State.modEncl; split <;> rfl
@[simp] theorem State.modEncl_l2 (s : State) (n : Nat) (f : Encl → Encl) : (s.modEncl n f).l2 = s.l2 := by unfold State.modEncl; split <;> rfl
@[simp] theorem State.modEncl_tlb (s : State) (n : Nat) (f : Encl → Encl) : (s.modEncl n f).tlb = s.tlb := by unfold State.modEncl; split <;> rfl
@[simp] theorem State.modEncl_pots (s : State) (n : Nat) (f : Encl → Encl) : (s.modEncl n f).pots = s.pots := by unfold State.modEncl; split <;> rfl
@[simp] theorem State.modEncl_ctrs (s : State) (n : Nat) (f : Encl → Encl) : (s.modEncl n f).ctrs = s.ctrs := by unfold State.modEncl; split <;> rfl
@[simp] theorem State.modEncl_nodes1 (s : State) (n : Nat) (f : Encl → Encl) : (s.modEncl n f).nodes1 = s.nodes1 := by unfold State.modEncl; split <;> rfl
@[simp] theorem State.modEncl_nodes2 (s : State) (n : Nat) (f : Encl → Encl) : (s.modEncl n f).nodes2 = s.nodes2 := by unfold State.modEncl; split <;> rfl
@[simp] theorem State.modEncl_roots (s : State) (n : Nat) (f : Encl → Encl) : (s.modEncl n f).roots = s.roots := by unfold State.modEncl; split <;> rfl
@[simp] theorem State.modEncl_badTags (s : State) (n : Nat) (f : Encl → Encl) : (s.modEncl n f).badTags = s.badTags := by unfold State.modEncl; split <;> rfl
@[simp] theorem State.modEncl_badMeta (s : State) (n : Nat) (f : Encl → Encl) : (s.modEncl n f).badMeta = s.badMeta := by unfold State.modEncl; split <;> rfl
@[simp] theorem State.modEncl_sweeps (s : State) (n : Nat) (f : Encl → Encl) : (s.modEncl n f).sweeps = s.sweeps := by unfold State.modEncl; split <;> rfl
@[simp] theorem State.modEncl_homeSig (s : State) (n : Nat) (f : Encl → Encl) : (s.modEncl n f).homeSig = s.homeSig := by unfold State.modEncl; split <;> rfl
@[simp] theorem State.modEncl_slots (s : State) (n : Nat) (f : Encl → Encl) : (s.modEncl n f).slots = s.slots := by unfold State.modEncl; split <;> rfl
@[simp] theorem State.modEncl_gkeys (s : State) (n : Nat) (f : Encl → Encl) : (s.modEncl n f).gkeys = s.gkeys := by unfold State.modEncl; split <;> rfl
@[simp] theorem State.modEncl_meters (s : State) (n : Nat) (f : Encl → Encl) : (s.modEncl n f).meters = s.meters := by unfold State.modEncl; split <;> rfl
@[simp] theorem State.modEncl_evcnt (s : State) (n : Nat) (f : Encl → Encl) : (s.modEncl n f).evcnt = s.evcnt := by unfold State.modEncl; split <;> rfl
@[simp] theorem State.modEncl_cores (s : State) (n : Nat) (f : Encl → Encl) : (s.modEncl n f).cores = s.cores := by unfold State.modEncl; split <;> rfl
@[simp] theorem State.modEncl_quads (s : State) (n : Nat) (f : Encl → Encl) : (s.modEncl n f).quads = s.quads := by unfold State.modEncl; split <;> rfl
@[simp] theorem State.modEncl_ops (s : State) (n : Nat) (f : Encl → Encl) : (s.modEncl n f).ops = s.ops := by unfold State.modEncl; split <;> rfl
@[simp] theorem State.modEncl_drains (s : State) (n : Nat) (f : Encl → Encl) : (s.modEncl n f).drains = s.drains := by unfold State.modEncl; split <;> rfl
@[simp] theorem State.modEncl_moves (s : State) (n : Nat) (f : Encl → Encl) : (s.modEncl n f).moves = s.moves := by unfold State.modEncl; split <;> rfl
@[simp] theorem State.modEncl_ctlQ (s : State) (n : Nat) (f : Encl → Encl) : (s.modEncl n f).ctlQ = s.ctlQ := by unfold State.modEncl; split <;> rfl
@[simp] theorem State.modEncl_log (s : State) (n : Nat) (f : Encl → Encl) : (s.modEncl n f).log = s.log := by unfold State.modEncl; split <;> rfl
@[simp] theorem State.modEncl_holds (s : State) (n : Nat) (f : Encl → Encl) : (s.modEncl n f).holds = s.holds := by unfold State.modEncl; split <;> rfl
@[simp] theorem State.modEncl_atomQ (s : State) (n : Nat) (f : Encl → Encl) : (s.modEncl n f).atomQ = s.atomQ := by unfold State.modEncl; split <;> rfl
@[simp] theorem State.modEncl_records (s : State) (n : Nat) (f : Encl → Encl) : (s.modEncl n f).records = s.records := by unfold State.modEncl; split <;> rfl
@[simp] theorem State.modEncl_outst (s : State) (n : Nat) (f : Encl → Encl) : (s.modEncl n f).outst = s.outst := by unfold State.modEncl; split <;> rfl
@[simp] theorem State.modEncl_ringSeq (s : State) (n : Nat) (f : Encl → Encl) : (s.modEncl n f).ringSeq = s.ringSeq := by unfold State.modEncl; split <;> rfl
@[simp] theorem State.modEncl_ringNow (s : State) (n : Nat) (f : Encl → Encl) : (s.modEncl n f).ringNow = s.ringNow := by unfold State.modEncl; split <;> rfl
@[simp] theorem State.modEncl_ceLast (s : State) (n : Nat) (f : Encl → Encl) : (s.modEncl n f).ceLast = s.ceLast := by unfold State.modEncl; split <;> rfl
@[simp] theorem State.modEncl_scrubs (s : State) (n : Nat) (f : Encl → Encl) : (s.modEncl n f).scrubs = s.scrubs := by unfold State.modEncl; split <;> rfl
@[simp] theorem State.modEncl_pins (s : State) (n : Nat) (f : Encl → Encl) : (s.modEncl n f).pins = s.pins := by unfold State.modEncl; split <;> rfl
@[simp] theorem State.modEncl_reg (s : State) (n : Nat) (f : Encl → Encl) : (s.modEncl n f).reg = s.reg := by unfold State.modEncl; split <;> rfl
@[simp] theorem State.modEncl_trips (s : State) (n : Nat) (f : Encl → Encl) : (s.modEncl n f).trips = s.trips := by unfold State.modEncl; split <;> rfl
@[simp] theorem State.modEncl_tandem (s : State) (n : Nat) (f : Encl → Encl) : (s.modEncl n f).tandem = s.tandem := by unfold State.modEncl; split <;> rfl
@[simp] theorem State.modEncl_retired (s : State) (n : Nat) (f : Encl → Encl) : (s.modEncl n f).retired = s.retired := by unfold State.modEncl; split <;> rfl
@[simp] theorem State.modEncl_power (s : State) (n : Nat) (f : Encl → Encl) : (s.modEncl n f).power = s.power := by unfold State.modEncl; split <;> rfl
@[simp] theorem State.modEncl_sessions (s : State) (n : Nat) (f : Encl → Encl) : (s.modEncl n f).sessions = s.sessions := by unfold State.modEncl; split <;> rfl
@[simp] theorem State.modEncl_spdmOut (s : State) (n : Nat) (f : Encl → Encl) : (s.modEncl n f).spdmOut = s.spdmOut := by unfold State.modEncl; split <;> rfl
@[simp] theorem State.modEncl_booted (s : State) (n : Nat) (f : Encl → Encl) : (s.modEncl n f).booted = s.booted := by unfold State.modEncl; split <;> rfl
@[simp] theorem State.modEncl_lmsTop (s : State) (n : Nat) (f : Encl → Encl) : (s.modEncl n f).lmsTop = s.lmsTop := by unfold State.modEncl; split <;> rfl
@[simp] theorem State.modEncl_lmsLeft (s : State) (n : Nat) (f : Encl → Encl) : (s.modEncl n f).lmsLeft = s.lmsLeft := by unfold State.modEncl; split <;> rfl
@[simp] theorem State.modEncl_links (s : State) (n : Nat) (f : Encl → Encl) : (s.modEncl n f).links = s.links := by unfold State.modEncl; split <;> rfl
@[simp] theorem State.modEncl_tdis (s : State) (n : Nat) (f : Encl → Encl) : (s.modEncl n f).tdis = s.tdis := by unfold State.modEncl; split <;> rfl
@[simp] theorem State.modEncl_dmas (s : State) (n : Nat) (f : Encl → Encl) : (s.modEncl n f).dmas = s.dmas := by unfold State.modEncl; split <;> rfl
@[simp] theorem State.modEncl_ckJobs (s : State) (n : Nat) (f : Encl → Encl) : (s.modEncl n f).ckJobs = s.ckJobs := by unfold State.modEncl; split <;> rfl
@[simp] theorem State.modEncl_sealed (s : State) (n : Nat) (f : Encl → Encl) : (s.modEncl n f).sealed = s.sealed := by unfold State.modEncl; split <;> rfl

/-! put -/

@[simp] theorem State.put_cur (s : State) (l : Lat) (d : Opnd) (v : Word) : (s.put l d v).cur = s.cur := by unfold State.put; split <;> rfl
@[simp] theorem State.put_threads (s : State) (l : Lat) (d : Opnd) (v : Word) : (s.put l d v).threads = s.threads := by unfold State.put; split <;> rfl
@[simp] theorem State.put_agenda (s : State) (l : Lat) (d : Opnd) (v : Word) : (s.put l d v).agenda = s.agenda := by unfold State.put; split <;> rfl
@[simp] theorem State.put_time (s : State) (l : Lat) (d : Opnd) (v : Word) : (s.put l d v).time = s.time := by unfold State.put; split <;> rfl
@[simp] theorem State.put_fresh (s : State) (l : Lat) (d : Opnd) (v : Word) : (s.put l d v).fresh = s.fresh := by unfold State.put; split <;> rfl
@[simp] theorem State.put_serial (s : State) (l : Lat) (d : Opnd) (v : Word) : (s.put l d v).serial = s.serial := by unfold State.put; split <;> rfl
@[simp] theorem State.put_keysMade (s : State) (l : Lat) (d : Opnd) (v : Word) : (s.put l d v).keysMade = s.keysMade := by unfold State.put; split <;> rfl
@[simp] theorem State.put_chain (s : State) (l : Lat) (d : Opnd) (v : Word) : (s.put l d v).chain = s.chain := by unfold State.put; split <;> rfl
@[simp] theorem State.put_hosts (s : State) (l : Lat) (d : Opnd) (v : Word) : (s.put l d v).hosts = s.hosts := by unfold State.put; split <;> rfl
@[simp] theorem State.put_teams (s : State) (l : Lat) (d : Opnd) (v : Word) : (s.put l d v).teams = s.teams := by unfold State.put; split <;> rfl
@[simp] theorem State.put_launches (s : State) (l : Lat) (d : Opnd) (v : Word) : (s.put l d v).launches = s.launches := by unfold State.put; split <;> rfl
@[simp] theorem State.put_walkers (s : State) (l : Lat) (d : Opnd) (v : Word) : (s.put l d v).walkers = s.walkers := by unfold State.put; split <;> rfl
@[simp] theorem State.put_queues (s : State) (l : Lat) (d : Opnd) (v : Word) : (s.put l d v).queues = s.queues := by unfold State.put; split <;> rfl
@[simp] theorem State.put_paused (s : State) (l : Lat) (d : Opnd) (v : Word) : (s.put l d v).paused = s.paused := by unfold State.put; split <;> rfl
@[simp] theorem State.put_turns (s : State) (l : Lat) (d : Opnd) (v : Word) : (s.put l d v).turns = s.turns := by unfold State.put; split <;> rfl
@[simp] theorem State.put_mem (s : State) (l : Lat) (d : Opnd) (v : Word) : (s.put l d v).mem = s.mem := by unfold State.put; split <;> rfl
@[simp] theorem State.put_lines (s : State) (l : Lat) (d : Opnd) (v : Word) : (s.put l d v).lines = s.lines := by unfold State.put; split <;> rfl
@[simp] theorem State.put_clines (s : State) (l : Lat) (d : Opnd) (v : Word) : (s.put l d v).clines = s.clines := by unfold State.put; split <;> rfl
@[simp] theorem State.put_ilines (s : State) (l : Lat) (d : Opnd) (v : Word) : (s.put l d v).ilines = s.ilines := by unfold State.put; split <;> rfl
@[simp] theorem State.put_l2 (s : State) (l : Lat) (d : Opnd) (v : Word) : (s.put l d v).l2 = s.l2 := by unfold State.put; split <;> rfl
@[simp] theorem State.put_tlb (s : State) (l : Lat) (d : Opnd) (v : Word) : (s.put l d v).tlb = s.tlb := by unfold State.put; split <;> rfl
@[simp] theorem State.put_pots (s : State) (l : Lat) (d : Opnd) (v : Word) : (s.put l d v).pots = s.pots := by unfold State.put; split <;> rfl
@[simp] theorem State.put_ctrs (s : State) (l : Lat) (d : Opnd) (v : Word) : (s.put l d v).ctrs = s.ctrs := by unfold State.put; split <;> rfl
@[simp] theorem State.put_nodes1 (s : State) (l : Lat) (d : Opnd) (v : Word) : (s.put l d v).nodes1 = s.nodes1 := by unfold State.put; split <;> rfl
@[simp] theorem State.put_nodes2 (s : State) (l : Lat) (d : Opnd) (v : Word) : (s.put l d v).nodes2 = s.nodes2 := by unfold State.put; split <;> rfl
@[simp] theorem State.put_roots (s : State) (l : Lat) (d : Opnd) (v : Word) : (s.put l d v).roots = s.roots := by unfold State.put; split <;> rfl
@[simp] theorem State.put_badTags (s : State) (l : Lat) (d : Opnd) (v : Word) : (s.put l d v).badTags = s.badTags := by unfold State.put; split <;> rfl
@[simp] theorem State.put_badMeta (s : State) (l : Lat) (d : Opnd) (v : Word) : (s.put l d v).badMeta = s.badMeta := by unfold State.put; split <;> rfl
@[simp] theorem State.put_sweeps (s : State) (l : Lat) (d : Opnd) (v : Word) : (s.put l d v).sweeps = s.sweeps := by unfold State.put; split <;> rfl
@[simp] theorem State.put_homeSig (s : State) (l : Lat) (d : Opnd) (v : Word) : (s.put l d v).homeSig = s.homeSig := by unfold State.put; split <;> rfl
@[simp] theorem State.put_slots (s : State) (l : Lat) (d : Opnd) (v : Word) : (s.put l d v).slots = s.slots := by unfold State.put; split <;> rfl
@[simp] theorem State.put_gkeys (s : State) (l : Lat) (d : Opnd) (v : Word) : (s.put l d v).gkeys = s.gkeys := by unfold State.put; split <;> rfl
@[simp] theorem State.put_encls (s : State) (l : Lat) (d : Opnd) (v : Word) : (s.put l d v).encls = s.encls := by unfold State.put; split <;> rfl
@[simp] theorem State.put_meters (s : State) (l : Lat) (d : Opnd) (v : Word) : (s.put l d v).meters = s.meters := by unfold State.put; split <;> rfl
@[simp] theorem State.put_evcnt (s : State) (l : Lat) (d : Opnd) (v : Word) : (s.put l d v).evcnt = s.evcnt := by unfold State.put; split <;> rfl
@[simp] theorem State.put_cores (s : State) (l : Lat) (d : Opnd) (v : Word) : (s.put l d v).cores = s.cores := by unfold State.put; split <;> rfl
@[simp] theorem State.put_quads (s : State) (l : Lat) (d : Opnd) (v : Word) : (s.put l d v).quads = s.quads := by unfold State.put; split <;> rfl
@[simp] theorem State.put_ops (s : State) (l : Lat) (d : Opnd) (v : Word) : (s.put l d v).ops = s.ops := by unfold State.put; split <;> rfl
@[simp] theorem State.put_drains (s : State) (l : Lat) (d : Opnd) (v : Word) : (s.put l d v).drains = s.drains := by unfold State.put; split <;> rfl
@[simp] theorem State.put_moves (s : State) (l : Lat) (d : Opnd) (v : Word) : (s.put l d v).moves = s.moves := by unfold State.put; split <;> rfl
@[simp] theorem State.put_ctlQ (s : State) (l : Lat) (d : Opnd) (v : Word) : (s.put l d v).ctlQ = s.ctlQ := by unfold State.put; split <;> rfl
@[simp] theorem State.put_log (s : State) (l : Lat) (d : Opnd) (v : Word) : (s.put l d v).log = s.log := by unfold State.put; split <;> rfl
@[simp] theorem State.put_holds (s : State) (l : Lat) (d : Opnd) (v : Word) : (s.put l d v).holds = s.holds := by unfold State.put; split <;> rfl
@[simp] theorem State.put_atomQ (s : State) (l : Lat) (d : Opnd) (v : Word) : (s.put l d v).atomQ = s.atomQ := by unfold State.put; split <;> rfl
@[simp] theorem State.put_records (s : State) (l : Lat) (d : Opnd) (v : Word) : (s.put l d v).records = s.records := by unfold State.put; split <;> rfl
@[simp] theorem State.put_outst (s : State) (l : Lat) (d : Opnd) (v : Word) : (s.put l d v).outst = s.outst := by unfold State.put; split <;> rfl
@[simp] theorem State.put_ringSeq (s : State) (l : Lat) (d : Opnd) (v : Word) : (s.put l d v).ringSeq = s.ringSeq := by unfold State.put; split <;> rfl
@[simp] theorem State.put_ringNow (s : State) (l : Lat) (d : Opnd) (v : Word) : (s.put l d v).ringNow = s.ringNow := by unfold State.put; split <;> rfl
@[simp] theorem State.put_ceLast (s : State) (l : Lat) (d : Opnd) (v : Word) : (s.put l d v).ceLast = s.ceLast := by unfold State.put; split <;> rfl
@[simp] theorem State.put_scrubs (s : State) (l : Lat) (d : Opnd) (v : Word) : (s.put l d v).scrubs = s.scrubs := by unfold State.put; split <;> rfl
@[simp] theorem State.put_pins (s : State) (l : Lat) (d : Opnd) (v : Word) : (s.put l d v).pins = s.pins := by unfold State.put; split <;> rfl
@[simp] theorem State.put_reg (s : State) (l : Lat) (d : Opnd) (v : Word) : (s.put l d v).reg = s.reg := by unfold State.put; split <;> rfl
@[simp] theorem State.put_trips (s : State) (l : Lat) (d : Opnd) (v : Word) : (s.put l d v).trips = s.trips := by unfold State.put; split <;> rfl
@[simp] theorem State.put_tandem (s : State) (l : Lat) (d : Opnd) (v : Word) : (s.put l d v).tandem = s.tandem := by unfold State.put; split <;> rfl
@[simp] theorem State.put_retired (s : State) (l : Lat) (d : Opnd) (v : Word) : (s.put l d v).retired = s.retired := by unfold State.put; split <;> rfl
@[simp] theorem State.put_power (s : State) (l : Lat) (d : Opnd) (v : Word) : (s.put l d v).power = s.power := by unfold State.put; split <;> rfl
@[simp] theorem State.put_sessions (s : State) (l : Lat) (d : Opnd) (v : Word) : (s.put l d v).sessions = s.sessions := by unfold State.put; split <;> rfl
@[simp] theorem State.put_spdmOut (s : State) (l : Lat) (d : Opnd) (v : Word) : (s.put l d v).spdmOut = s.spdmOut := by unfold State.put; split <;> rfl
@[simp] theorem State.put_booted (s : State) (l : Lat) (d : Opnd) (v : Word) : (s.put l d v).booted = s.booted := by unfold State.put; split <;> rfl
@[simp] theorem State.put_lmsTop (s : State) (l : Lat) (d : Opnd) (v : Word) : (s.put l d v).lmsTop = s.lmsTop := by unfold State.put; split <;> rfl
@[simp] theorem State.put_lmsLeft (s : State) (l : Lat) (d : Opnd) (v : Word) : (s.put l d v).lmsLeft = s.lmsLeft := by unfold State.put; split <;> rfl
@[simp] theorem State.put_links (s : State) (l : Lat) (d : Opnd) (v : Word) : (s.put l d v).links = s.links := by unfold State.put; split <;> rfl
@[simp] theorem State.put_tdis (s : State) (l : Lat) (d : Opnd) (v : Word) : (s.put l d v).tdis = s.tdis := by unfold State.put; split <;> rfl
@[simp] theorem State.put_dmas (s : State) (l : Lat) (d : Opnd) (v : Word) : (s.put l d v).dmas = s.dmas := by unfold State.put; split <;> rfl
@[simp] theorem State.put_ckJobs (s : State) (l : Lat) (d : Opnd) (v : Word) : (s.put l d v).ckJobs = s.ckJobs := by unfold State.put; split <;> rfl
@[simp] theorem State.put_sealed (s : State) (l : Lat) (d : Opnd) (v : Word) : (s.put l d v).sealed = s.sealed := by unfold State.put; split <;> rfl

/-! put2 -/

@[simp] theorem State.put2_cur (s : State) (l : Lat) (d : Opnd) (v : Dword) : (s.put2 l d v).cur = s.cur := by unfold State.put2; split <;> rfl
@[simp] theorem State.put2_threads (s : State) (l : Lat) (d : Opnd) (v : Dword) : (s.put2 l d v).threads = s.threads := by unfold State.put2; split <;> rfl
@[simp] theorem State.put2_agenda (s : State) (l : Lat) (d : Opnd) (v : Dword) : (s.put2 l d v).agenda = s.agenda := by unfold State.put2; split <;> rfl
@[simp] theorem State.put2_time (s : State) (l : Lat) (d : Opnd) (v : Dword) : (s.put2 l d v).time = s.time := by unfold State.put2; split <;> rfl
@[simp] theorem State.put2_fresh (s : State) (l : Lat) (d : Opnd) (v : Dword) : (s.put2 l d v).fresh = s.fresh := by unfold State.put2; split <;> rfl
@[simp] theorem State.put2_serial (s : State) (l : Lat) (d : Opnd) (v : Dword) : (s.put2 l d v).serial = s.serial := by unfold State.put2; split <;> rfl
@[simp] theorem State.put2_keysMade (s : State) (l : Lat) (d : Opnd) (v : Dword) : (s.put2 l d v).keysMade = s.keysMade := by unfold State.put2; split <;> rfl
@[simp] theorem State.put2_chain (s : State) (l : Lat) (d : Opnd) (v : Dword) : (s.put2 l d v).chain = s.chain := by unfold State.put2; split <;> rfl
@[simp] theorem State.put2_hosts (s : State) (l : Lat) (d : Opnd) (v : Dword) : (s.put2 l d v).hosts = s.hosts := by unfold State.put2; split <;> rfl
@[simp] theorem State.put2_teams (s : State) (l : Lat) (d : Opnd) (v : Dword) : (s.put2 l d v).teams = s.teams := by unfold State.put2; split <;> rfl
@[simp] theorem State.put2_launches (s : State) (l : Lat) (d : Opnd) (v : Dword) : (s.put2 l d v).launches = s.launches := by unfold State.put2; split <;> rfl
@[simp] theorem State.put2_walkers (s : State) (l : Lat) (d : Opnd) (v : Dword) : (s.put2 l d v).walkers = s.walkers := by unfold State.put2; split <;> rfl
@[simp] theorem State.put2_queues (s : State) (l : Lat) (d : Opnd) (v : Dword) : (s.put2 l d v).queues = s.queues := by unfold State.put2; split <;> rfl
@[simp] theorem State.put2_paused (s : State) (l : Lat) (d : Opnd) (v : Dword) : (s.put2 l d v).paused = s.paused := by unfold State.put2; split <;> rfl
@[simp] theorem State.put2_turns (s : State) (l : Lat) (d : Opnd) (v : Dword) : (s.put2 l d v).turns = s.turns := by unfold State.put2; split <;> rfl
@[simp] theorem State.put2_mem (s : State) (l : Lat) (d : Opnd) (v : Dword) : (s.put2 l d v).mem = s.mem := by unfold State.put2; split <;> rfl
@[simp] theorem State.put2_lines (s : State) (l : Lat) (d : Opnd) (v : Dword) : (s.put2 l d v).lines = s.lines := by unfold State.put2; split <;> rfl
@[simp] theorem State.put2_clines (s : State) (l : Lat) (d : Opnd) (v : Dword) : (s.put2 l d v).clines = s.clines := by unfold State.put2; split <;> rfl
@[simp] theorem State.put2_ilines (s : State) (l : Lat) (d : Opnd) (v : Dword) : (s.put2 l d v).ilines = s.ilines := by unfold State.put2; split <;> rfl
@[simp] theorem State.put2_l2 (s : State) (l : Lat) (d : Opnd) (v : Dword) : (s.put2 l d v).l2 = s.l2 := by unfold State.put2; split <;> rfl
@[simp] theorem State.put2_tlb (s : State) (l : Lat) (d : Opnd) (v : Dword) : (s.put2 l d v).tlb = s.tlb := by unfold State.put2; split <;> rfl
@[simp] theorem State.put2_pots (s : State) (l : Lat) (d : Opnd) (v : Dword) : (s.put2 l d v).pots = s.pots := by unfold State.put2; split <;> rfl
@[simp] theorem State.put2_ctrs (s : State) (l : Lat) (d : Opnd) (v : Dword) : (s.put2 l d v).ctrs = s.ctrs := by unfold State.put2; split <;> rfl
@[simp] theorem State.put2_nodes1 (s : State) (l : Lat) (d : Opnd) (v : Dword) : (s.put2 l d v).nodes1 = s.nodes1 := by unfold State.put2; split <;> rfl
@[simp] theorem State.put2_nodes2 (s : State) (l : Lat) (d : Opnd) (v : Dword) : (s.put2 l d v).nodes2 = s.nodes2 := by unfold State.put2; split <;> rfl
@[simp] theorem State.put2_roots (s : State) (l : Lat) (d : Opnd) (v : Dword) : (s.put2 l d v).roots = s.roots := by unfold State.put2; split <;> rfl
@[simp] theorem State.put2_badTags (s : State) (l : Lat) (d : Opnd) (v : Dword) : (s.put2 l d v).badTags = s.badTags := by unfold State.put2; split <;> rfl
@[simp] theorem State.put2_badMeta (s : State) (l : Lat) (d : Opnd) (v : Dword) : (s.put2 l d v).badMeta = s.badMeta := by unfold State.put2; split <;> rfl
@[simp] theorem State.put2_sweeps (s : State) (l : Lat) (d : Opnd) (v : Dword) : (s.put2 l d v).sweeps = s.sweeps := by unfold State.put2; split <;> rfl
@[simp] theorem State.put2_homeSig (s : State) (l : Lat) (d : Opnd) (v : Dword) : (s.put2 l d v).homeSig = s.homeSig := by unfold State.put2; split <;> rfl
@[simp] theorem State.put2_slots (s : State) (l : Lat) (d : Opnd) (v : Dword) : (s.put2 l d v).slots = s.slots := by unfold State.put2; split <;> rfl
@[simp] theorem State.put2_gkeys (s : State) (l : Lat) (d : Opnd) (v : Dword) : (s.put2 l d v).gkeys = s.gkeys := by unfold State.put2; split <;> rfl
@[simp] theorem State.put2_encls (s : State) (l : Lat) (d : Opnd) (v : Dword) : (s.put2 l d v).encls = s.encls := by unfold State.put2; split <;> rfl
@[simp] theorem State.put2_meters (s : State) (l : Lat) (d : Opnd) (v : Dword) : (s.put2 l d v).meters = s.meters := by unfold State.put2; split <;> rfl
@[simp] theorem State.put2_evcnt (s : State) (l : Lat) (d : Opnd) (v : Dword) : (s.put2 l d v).evcnt = s.evcnt := by unfold State.put2; split <;> rfl
@[simp] theorem State.put2_cores (s : State) (l : Lat) (d : Opnd) (v : Dword) : (s.put2 l d v).cores = s.cores := by unfold State.put2; split <;> rfl
@[simp] theorem State.put2_quads (s : State) (l : Lat) (d : Opnd) (v : Dword) : (s.put2 l d v).quads = s.quads := by unfold State.put2; split <;> rfl
@[simp] theorem State.put2_ops (s : State) (l : Lat) (d : Opnd) (v : Dword) : (s.put2 l d v).ops = s.ops := by unfold State.put2; split <;> rfl
@[simp] theorem State.put2_drains (s : State) (l : Lat) (d : Opnd) (v : Dword) : (s.put2 l d v).drains = s.drains := by unfold State.put2; split <;> rfl
@[simp] theorem State.put2_moves (s : State) (l : Lat) (d : Opnd) (v : Dword) : (s.put2 l d v).moves = s.moves := by unfold State.put2; split <;> rfl
@[simp] theorem State.put2_ctlQ (s : State) (l : Lat) (d : Opnd) (v : Dword) : (s.put2 l d v).ctlQ = s.ctlQ := by unfold State.put2; split <;> rfl
@[simp] theorem State.put2_log (s : State) (l : Lat) (d : Opnd) (v : Dword) : (s.put2 l d v).log = s.log := by unfold State.put2; split <;> rfl
@[simp] theorem State.put2_holds (s : State) (l : Lat) (d : Opnd) (v : Dword) : (s.put2 l d v).holds = s.holds := by unfold State.put2; split <;> rfl
@[simp] theorem State.put2_atomQ (s : State) (l : Lat) (d : Opnd) (v : Dword) : (s.put2 l d v).atomQ = s.atomQ := by unfold State.put2; split <;> rfl
@[simp] theorem State.put2_records (s : State) (l : Lat) (d : Opnd) (v : Dword) : (s.put2 l d v).records = s.records := by unfold State.put2; split <;> rfl
@[simp] theorem State.put2_outst (s : State) (l : Lat) (d : Opnd) (v : Dword) : (s.put2 l d v).outst = s.outst := by unfold State.put2; split <;> rfl
@[simp] theorem State.put2_ringSeq (s : State) (l : Lat) (d : Opnd) (v : Dword) : (s.put2 l d v).ringSeq = s.ringSeq := by unfold State.put2; split <;> rfl
@[simp] theorem State.put2_ringNow (s : State) (l : Lat) (d : Opnd) (v : Dword) : (s.put2 l d v).ringNow = s.ringNow := by unfold State.put2; split <;> rfl
@[simp] theorem State.put2_ceLast (s : State) (l : Lat) (d : Opnd) (v : Dword) : (s.put2 l d v).ceLast = s.ceLast := by unfold State.put2; split <;> rfl
@[simp] theorem State.put2_scrubs (s : State) (l : Lat) (d : Opnd) (v : Dword) : (s.put2 l d v).scrubs = s.scrubs := by unfold State.put2; split <;> rfl
@[simp] theorem State.put2_pins (s : State) (l : Lat) (d : Opnd) (v : Dword) : (s.put2 l d v).pins = s.pins := by unfold State.put2; split <;> rfl
@[simp] theorem State.put2_reg (s : State) (l : Lat) (d : Opnd) (v : Dword) : (s.put2 l d v).reg = s.reg := by unfold State.put2; split <;> rfl
@[simp] theorem State.put2_trips (s : State) (l : Lat) (d : Opnd) (v : Dword) : (s.put2 l d v).trips = s.trips := by unfold State.put2; split <;> rfl
@[simp] theorem State.put2_tandem (s : State) (l : Lat) (d : Opnd) (v : Dword) : (s.put2 l d v).tandem = s.tandem := by unfold State.put2; split <;> rfl
@[simp] theorem State.put2_retired (s : State) (l : Lat) (d : Opnd) (v : Dword) : (s.put2 l d v).retired = s.retired := by unfold State.put2; split <;> rfl
@[simp] theorem State.put2_power (s : State) (l : Lat) (d : Opnd) (v : Dword) : (s.put2 l d v).power = s.power := by unfold State.put2; split <;> rfl
@[simp] theorem State.put2_sessions (s : State) (l : Lat) (d : Opnd) (v : Dword) : (s.put2 l d v).sessions = s.sessions := by unfold State.put2; split <;> rfl
@[simp] theorem State.put2_spdmOut (s : State) (l : Lat) (d : Opnd) (v : Dword) : (s.put2 l d v).spdmOut = s.spdmOut := by unfold State.put2; split <;> rfl
@[simp] theorem State.put2_booted (s : State) (l : Lat) (d : Opnd) (v : Dword) : (s.put2 l d v).booted = s.booted := by unfold State.put2; split <;> rfl
@[simp] theorem State.put2_lmsTop (s : State) (l : Lat) (d : Opnd) (v : Dword) : (s.put2 l d v).lmsTop = s.lmsTop := by unfold State.put2; split <;> rfl
@[simp] theorem State.put2_lmsLeft (s : State) (l : Lat) (d : Opnd) (v : Dword) : (s.put2 l d v).lmsLeft = s.lmsLeft := by unfold State.put2; split <;> rfl
@[simp] theorem State.put2_links (s : State) (l : Lat) (d : Opnd) (v : Dword) : (s.put2 l d v).links = s.links := by unfold State.put2; split <;> rfl
@[simp] theorem State.put2_tdis (s : State) (l : Lat) (d : Opnd) (v : Dword) : (s.put2 l d v).tdis = s.tdis := by unfold State.put2; split <;> rfl
@[simp] theorem State.put2_dmas (s : State) (l : Lat) (d : Opnd) (v : Dword) : (s.put2 l d v).dmas = s.dmas := by unfold State.put2; split <;> rfl
@[simp] theorem State.put2_ckJobs (s : State) (l : Lat) (d : Opnd) (v : Dword) : (s.put2 l d v).ckJobs = s.ckJobs := by unfold State.put2; split <;> rfl
@[simp] theorem State.put2_sealed (s : State) (l : Lat) (d : Opnd) (v : Dword) : (s.put2 l d v).sealed = s.sealed := by unfold State.put2; split <;> rfl

/-! putPred -/

@[simp] theorem State.putPred_cur (s : State) (l : Lat) (n : Nat) (v : Bool) : (s.putPred l n v).cur = s.cur := by unfold State.putPred; split <;> rfl
@[simp] theorem State.putPred_threads (s : State) (l : Lat) (n : Nat) (v : Bool) : (s.putPred l n v).threads = s.threads := by unfold State.putPred; split <;> rfl
@[simp] theorem State.putPred_agenda (s : State) (l : Lat) (n : Nat) (v : Bool) : (s.putPred l n v).agenda = s.agenda := by unfold State.putPred; split <;> rfl
@[simp] theorem State.putPred_time (s : State) (l : Lat) (n : Nat) (v : Bool) : (s.putPred l n v).time = s.time := by unfold State.putPred; split <;> rfl
@[simp] theorem State.putPred_fresh (s : State) (l : Lat) (n : Nat) (v : Bool) : (s.putPred l n v).fresh = s.fresh := by unfold State.putPred; split <;> rfl
@[simp] theorem State.putPred_serial (s : State) (l : Lat) (n : Nat) (v : Bool) : (s.putPred l n v).serial = s.serial := by unfold State.putPred; split <;> rfl
@[simp] theorem State.putPred_keysMade (s : State) (l : Lat) (n : Nat) (v : Bool) : (s.putPred l n v).keysMade = s.keysMade := by unfold State.putPred; split <;> rfl
@[simp] theorem State.putPred_chain (s : State) (l : Lat) (n : Nat) (v : Bool) : (s.putPred l n v).chain = s.chain := by unfold State.putPred; split <;> rfl
@[simp] theorem State.putPred_hosts (s : State) (l : Lat) (n : Nat) (v : Bool) : (s.putPred l n v).hosts = s.hosts := by unfold State.putPred; split <;> rfl
@[simp] theorem State.putPred_teams (s : State) (l : Lat) (n : Nat) (v : Bool) : (s.putPred l n v).teams = s.teams := by unfold State.putPred; split <;> rfl
@[simp] theorem State.putPred_launches (s : State) (l : Lat) (n : Nat) (v : Bool) : (s.putPred l n v).launches = s.launches := by unfold State.putPred; split <;> rfl
@[simp] theorem State.putPred_walkers (s : State) (l : Lat) (n : Nat) (v : Bool) : (s.putPred l n v).walkers = s.walkers := by unfold State.putPred; split <;> rfl
@[simp] theorem State.putPred_queues (s : State) (l : Lat) (n : Nat) (v : Bool) : (s.putPred l n v).queues = s.queues := by unfold State.putPred; split <;> rfl
@[simp] theorem State.putPred_paused (s : State) (l : Lat) (n : Nat) (v : Bool) : (s.putPred l n v).paused = s.paused := by unfold State.putPred; split <;> rfl
@[simp] theorem State.putPred_turns (s : State) (l : Lat) (n : Nat) (v : Bool) : (s.putPred l n v).turns = s.turns := by unfold State.putPred; split <;> rfl
@[simp] theorem State.putPred_mem (s : State) (l : Lat) (n : Nat) (v : Bool) : (s.putPred l n v).mem = s.mem := by unfold State.putPred; split <;> rfl
@[simp] theorem State.putPred_lines (s : State) (l : Lat) (n : Nat) (v : Bool) : (s.putPred l n v).lines = s.lines := by unfold State.putPred; split <;> rfl
@[simp] theorem State.putPred_clines (s : State) (l : Lat) (n : Nat) (v : Bool) : (s.putPred l n v).clines = s.clines := by unfold State.putPred; split <;> rfl
@[simp] theorem State.putPred_ilines (s : State) (l : Lat) (n : Nat) (v : Bool) : (s.putPred l n v).ilines = s.ilines := by unfold State.putPred; split <;> rfl
@[simp] theorem State.putPred_l2 (s : State) (l : Lat) (n : Nat) (v : Bool) : (s.putPred l n v).l2 = s.l2 := by unfold State.putPred; split <;> rfl
@[simp] theorem State.putPred_tlb (s : State) (l : Lat) (n : Nat) (v : Bool) : (s.putPred l n v).tlb = s.tlb := by unfold State.putPred; split <;> rfl
@[simp] theorem State.putPred_pots (s : State) (l : Lat) (n : Nat) (v : Bool) : (s.putPred l n v).pots = s.pots := by unfold State.putPred; split <;> rfl
@[simp] theorem State.putPred_ctrs (s : State) (l : Lat) (n : Nat) (v : Bool) : (s.putPred l n v).ctrs = s.ctrs := by unfold State.putPred; split <;> rfl
@[simp] theorem State.putPred_nodes1 (s : State) (l : Lat) (n : Nat) (v : Bool) : (s.putPred l n v).nodes1 = s.nodes1 := by unfold State.putPred; split <;> rfl
@[simp] theorem State.putPred_nodes2 (s : State) (l : Lat) (n : Nat) (v : Bool) : (s.putPred l n v).nodes2 = s.nodes2 := by unfold State.putPred; split <;> rfl
@[simp] theorem State.putPred_roots (s : State) (l : Lat) (n : Nat) (v : Bool) : (s.putPred l n v).roots = s.roots := by unfold State.putPred; split <;> rfl
@[simp] theorem State.putPred_badTags (s : State) (l : Lat) (n : Nat) (v : Bool) : (s.putPred l n v).badTags = s.badTags := by unfold State.putPred; split <;> rfl
@[simp] theorem State.putPred_badMeta (s : State) (l : Lat) (n : Nat) (v : Bool) : (s.putPred l n v).badMeta = s.badMeta := by unfold State.putPred; split <;> rfl
@[simp] theorem State.putPred_sweeps (s : State) (l : Lat) (n : Nat) (v : Bool) : (s.putPred l n v).sweeps = s.sweeps := by unfold State.putPred; split <;> rfl
@[simp] theorem State.putPred_homeSig (s : State) (l : Lat) (n : Nat) (v : Bool) : (s.putPred l n v).homeSig = s.homeSig := by unfold State.putPred; split <;> rfl
@[simp] theorem State.putPred_slots (s : State) (l : Lat) (n : Nat) (v : Bool) : (s.putPred l n v).slots = s.slots := by unfold State.putPred; split <;> rfl
@[simp] theorem State.putPred_gkeys (s : State) (l : Lat) (n : Nat) (v : Bool) : (s.putPred l n v).gkeys = s.gkeys := by unfold State.putPred; split <;> rfl
@[simp] theorem State.putPred_encls (s : State) (l : Lat) (n : Nat) (v : Bool) : (s.putPred l n v).encls = s.encls := by unfold State.putPred; split <;> rfl
@[simp] theorem State.putPred_meters (s : State) (l : Lat) (n : Nat) (v : Bool) : (s.putPred l n v).meters = s.meters := by unfold State.putPred; split <;> rfl
@[simp] theorem State.putPred_evcnt (s : State) (l : Lat) (n : Nat) (v : Bool) : (s.putPred l n v).evcnt = s.evcnt := by unfold State.putPred; split <;> rfl
@[simp] theorem State.putPred_cores (s : State) (l : Lat) (n : Nat) (v : Bool) : (s.putPred l n v).cores = s.cores := by unfold State.putPred; split <;> rfl
@[simp] theorem State.putPred_quads (s : State) (l : Lat) (n : Nat) (v : Bool) : (s.putPred l n v).quads = s.quads := by unfold State.putPred; split <;> rfl
@[simp] theorem State.putPred_ops (s : State) (l : Lat) (n : Nat) (v : Bool) : (s.putPred l n v).ops = s.ops := by unfold State.putPred; split <;> rfl
@[simp] theorem State.putPred_drains (s : State) (l : Lat) (n : Nat) (v : Bool) : (s.putPred l n v).drains = s.drains := by unfold State.putPred; split <;> rfl
@[simp] theorem State.putPred_moves (s : State) (l : Lat) (n : Nat) (v : Bool) : (s.putPred l n v).moves = s.moves := by unfold State.putPred; split <;> rfl
@[simp] theorem State.putPred_ctlQ (s : State) (l : Lat) (n : Nat) (v : Bool) : (s.putPred l n v).ctlQ = s.ctlQ := by unfold State.putPred; split <;> rfl
@[simp] theorem State.putPred_log (s : State) (l : Lat) (n : Nat) (v : Bool) : (s.putPred l n v).log = s.log := by unfold State.putPred; split <;> rfl
@[simp] theorem State.putPred_holds (s : State) (l : Lat) (n : Nat) (v : Bool) : (s.putPred l n v).holds = s.holds := by unfold State.putPred; split <;> rfl
@[simp] theorem State.putPred_atomQ (s : State) (l : Lat) (n : Nat) (v : Bool) : (s.putPred l n v).atomQ = s.atomQ := by unfold State.putPred; split <;> rfl
@[simp] theorem State.putPred_records (s : State) (l : Lat) (n : Nat) (v : Bool) : (s.putPred l n v).records = s.records := by unfold State.putPred; split <;> rfl
@[simp] theorem State.putPred_outst (s : State) (l : Lat) (n : Nat) (v : Bool) : (s.putPred l n v).outst = s.outst := by unfold State.putPred; split <;> rfl
@[simp] theorem State.putPred_ringSeq (s : State) (l : Lat) (n : Nat) (v : Bool) : (s.putPred l n v).ringSeq = s.ringSeq := by unfold State.putPred; split <;> rfl
@[simp] theorem State.putPred_ringNow (s : State) (l : Lat) (n : Nat) (v : Bool) : (s.putPred l n v).ringNow = s.ringNow := by unfold State.putPred; split <;> rfl
@[simp] theorem State.putPred_ceLast (s : State) (l : Lat) (n : Nat) (v : Bool) : (s.putPred l n v).ceLast = s.ceLast := by unfold State.putPred; split <;> rfl
@[simp] theorem State.putPred_scrubs (s : State) (l : Lat) (n : Nat) (v : Bool) : (s.putPred l n v).scrubs = s.scrubs := by unfold State.putPred; split <;> rfl
@[simp] theorem State.putPred_pins (s : State) (l : Lat) (n : Nat) (v : Bool) : (s.putPred l n v).pins = s.pins := by unfold State.putPred; split <;> rfl
@[simp] theorem State.putPred_reg (s : State) (l : Lat) (n : Nat) (v : Bool) : (s.putPred l n v).reg = s.reg := by unfold State.putPred; split <;> rfl
@[simp] theorem State.putPred_trips (s : State) (l : Lat) (n : Nat) (v : Bool) : (s.putPred l n v).trips = s.trips := by unfold State.putPred; split <;> rfl
@[simp] theorem State.putPred_tandem (s : State) (l : Lat) (n : Nat) (v : Bool) : (s.putPred l n v).tandem = s.tandem := by unfold State.putPred; split <;> rfl
@[simp] theorem State.putPred_retired (s : State) (l : Lat) (n : Nat) (v : Bool) : (s.putPred l n v).retired = s.retired := by unfold State.putPred; split <;> rfl
@[simp] theorem State.putPred_power (s : State) (l : Lat) (n : Nat) (v : Bool) : (s.putPred l n v).power = s.power := by unfold State.putPred; split <;> rfl
@[simp] theorem State.putPred_sessions (s : State) (l : Lat) (n : Nat) (v : Bool) : (s.putPred l n v).sessions = s.sessions := by unfold State.putPred; split <;> rfl
@[simp] theorem State.putPred_spdmOut (s : State) (l : Lat) (n : Nat) (v : Bool) : (s.putPred l n v).spdmOut = s.spdmOut := by unfold State.putPred; split <;> rfl
@[simp] theorem State.putPred_booted (s : State) (l : Lat) (n : Nat) (v : Bool) : (s.putPred l n v).booted = s.booted := by unfold State.putPred; split <;> rfl
@[simp] theorem State.putPred_lmsTop (s : State) (l : Lat) (n : Nat) (v : Bool) : (s.putPred l n v).lmsTop = s.lmsTop := by unfold State.putPred; split <;> rfl
@[simp] theorem State.putPred_lmsLeft (s : State) (l : Lat) (n : Nat) (v : Bool) : (s.putPred l n v).lmsLeft = s.lmsLeft := by unfold State.putPred; split <;> rfl
@[simp] theorem State.putPred_links (s : State) (l : Lat) (n : Nat) (v : Bool) : (s.putPred l n v).links = s.links := by unfold State.putPred; split <;> rfl
@[simp] theorem State.putPred_tdis (s : State) (l : Lat) (n : Nat) (v : Bool) : (s.putPred l n v).tdis = s.tdis := by unfold State.putPred; split <;> rfl
@[simp] theorem State.putPred_dmas (s : State) (l : Lat) (n : Nat) (v : Bool) : (s.putPred l n v).dmas = s.dmas := by unfold State.putPred; split <;> rfl
@[simp] theorem State.putPred_ckJobs (s : State) (l : Lat) (n : Nat) (v : Bool) : (s.putPred l n v).ckJobs = s.ckJobs := by unfold State.putPred; split <;> rfl
@[simp] theorem State.putPred_sealed (s : State) (l : Lat) (n : Nat) (v : Bool) : (s.putPred l n v).sealed = s.sealed := by unfold State.putPred; split <;> rfl

/-! setReg -/

@[simp] theorem Thread.setReg_regs (t : Thread) (c : Nat) (v : Word) : (t.setReg c v).regs = Tab.set t.regs 0 c v := rfl
@[simp] theorem Thread.setReg_preds (t : Thread) (c : Nat) (v : Word) : (t.setReg c v).preds = t.preds := rfl
@[simp] theorem Thread.setReg_fpc (t : Thread) (c : Nat) (v : Word) : (t.setReg c v).fpc = t.fpc := rfl
@[simp] theorem Thread.setReg_chk (t : Thread) (c : Nat) (v : Word) : (t.setReg c v).chk = t.chk := rfl
@[simp] theorem Thread.setReg_eid (t : Thread) (c : Nat) (v : Word) : (t.setReg c v).eid = t.eid := rfl
@[simp] theorem Thread.setReg_cb (t : Thread) (c : Nat) (v : Word) : (t.setReg c v).cb = t.cb := rfl
@[simp] theorem Thread.setReg_w (t : Thread) (c : Nat) (v : Word) : (t.setReg c v).w = t.w := rfl
@[simp] theorem Thread.setReg_level (t : Thread) (c : Nat) (v : Word) : (t.setReg c v).level = t.level := rfl
@[simp] theorem Thread.setReg_allot (t : Thread) (c : Nat) (v : Word) : (t.setReg c v).allot = t.allot := rfl
@[simp] theorem Thread.setReg_prio (t : Thread) (c : Nat) (v : Word) : (t.setReg c v).prio = t.prio := rfl
@[simp] theorem Thread.setReg_yielded (t : Thread) (c : Nat) (v : Word) : (t.setReg c v).yielded = t.yielded := rfl
@[simp] theorem Thread.setReg_readyAt (t : Thread) (c : Nat) (v : Word) : (t.setReg c v).readyAt = t.readyAt := rfl
@[simp] theorem Thread.setReg_early (t : Thread) (c : Nat) (v : Word) : (t.setReg c v).early = t.early := rfl
@[simp] theorem Thread.setReg_results (t : Thread) (c : Nat) (v : Word) : (t.setReg c v).results = t.results := rfl
@[simp] theorem Thread.setReg_logged (t : Thread) (c : Nat) (v : Word) : (t.setReg c v).logged = t.logged := rfl
@[simp] theorem Thread.setReg_latch (t : Thread) (c : Nat) (v : Word) : (t.setReg c v).latch = t.latch := rfl
@[simp] theorem Thread.setReg_wait (t : Thread) (c : Nat) (v : Word) : (t.setReg c v).wait = t.wait := rfl
@[simp] theorem Thread.setReg_gathered (t : Thread) (c : Nat) (v : Word) : (t.setReg c v).gathered = t.gathered := rfl
@[simp] theorem Thread.setReg_pending (t : Thread) (c : Nat) (v : Word) : (t.setReg c v).pending = t.pending := rfl
@[simp] theorem Thread.setReg_fences (t : Thread) (c : Nat) (v : Word) : (t.setReg c v).fences = t.fences := rfl
@[simp] theorem Thread.setReg_mx (t : Thread) (c : Nat) (v : Word) : (t.setReg c v).mx = t.mx := rfl
@[simp] theorem Thread.setReg_tile (t : Thread) (c : Nat) (v : Word) : (t.setReg c v).tile = t.tile := rfl
@[simp] theorem Thread.setReg_owed (t : Thread) (c : Nat) (v : Word) : (t.setReg c v).owed = t.owed := rfl
@[simp] theorem Thread.setReg_poison (t : Thread) (c : Nat) (v : Word) : (t.setReg c v).poison = t.poison.filter (· ≠ c) := rfl
@[simp] theorem Thread.setReg_kick (t : Thread) (c : Nat) (v : Word) : (t.setReg c v).kick = t.kick := rfl
@[simp] theorem Thread.setReg_fetch (t : Thread) (c : Nat) (v : Word) : (t.setReg c v).fetch = t.fetch := rfl
@[simp] theorem Thread.setReg_sts (t : Thread) (c : Nat) (v : Word) : (t.setReg c v).sts = t.sts := rfl
@[simp] theorem Thread.setReg_seen (t : Thread) (c : Nat) (v : Word) : (t.setReg c v).seen = t.seen := rfl
@[simp] theorem Thread.setReg_relSig (t : Thread) (c : Nat) (v : Word) : (t.setReg c v).relSig = t.relSig := rfl
@[simp] theorem Thread.setReg_late (t : Thread) (c : Nat) (v : Word) : (t.setReg c v).late = t.late := rfl
@[simp] theorem Thread.setReg_stuck (t : Thread) (c : Nat) (v : Word) : (t.setReg c v).stuck = t.stuck := rfl

/-! setPred -/

@[simp] theorem Thread.setPred_regs (t : Thread) (n : Nat) (v : Bool) : (t.setPred n v).regs = t.regs := by unfold Thread.setPred; split <;> rfl
@[simp] theorem Thread.setPred_fpc (t : Thread) (n : Nat) (v : Bool) : (t.setPred n v).fpc = t.fpc := by unfold Thread.setPred; split <;> rfl
@[simp] theorem Thread.setPred_chk (t : Thread) (n : Nat) (v : Bool) : (t.setPred n v).chk = t.chk := by unfold Thread.setPred; split <;> rfl
@[simp] theorem Thread.setPred_eid (t : Thread) (n : Nat) (v : Bool) : (t.setPred n v).eid = t.eid := by unfold Thread.setPred; split <;> rfl
@[simp] theorem Thread.setPred_cb (t : Thread) (n : Nat) (v : Bool) : (t.setPred n v).cb = t.cb := by unfold Thread.setPred; split <;> rfl
@[simp] theorem Thread.setPred_w (t : Thread) (n : Nat) (v : Bool) : (t.setPred n v).w = t.w := by unfold Thread.setPred; split <;> rfl
@[simp] theorem Thread.setPred_level (t : Thread) (n : Nat) (v : Bool) : (t.setPred n v).level = t.level := by unfold Thread.setPred; split <;> rfl
@[simp] theorem Thread.setPred_allot (t : Thread) (n : Nat) (v : Bool) : (t.setPred n v).allot = t.allot := by unfold Thread.setPred; split <;> rfl
@[simp] theorem Thread.setPred_prio (t : Thread) (n : Nat) (v : Bool) : (t.setPred n v).prio = t.prio := by unfold Thread.setPred; split <;> rfl
@[simp] theorem Thread.setPred_yielded (t : Thread) (n : Nat) (v : Bool) : (t.setPred n v).yielded = t.yielded := by unfold Thread.setPred; split <;> rfl
@[simp] theorem Thread.setPred_lvoid (t : Thread) (n : Nat) (v : Bool) : (t.setPred n v).lvoid = t.lvoid := by unfold Thread.setPred; split <;> rfl
@[simp] theorem Thread.setPred_readyAt (t : Thread) (n : Nat) (v : Bool) : (t.setPred n v).readyAt = t.readyAt := by unfold Thread.setPred; split <;> rfl
@[simp] theorem Thread.setPred_early (t : Thread) (n : Nat) (v : Bool) : (t.setPred n v).early = t.early := by unfold Thread.setPred; split <;> rfl
@[simp] theorem Thread.setPred_results (t : Thread) (n : Nat) (v : Bool) : (t.setPred n v).results = t.results := by unfold Thread.setPred; split <;> rfl
@[simp] theorem Thread.setPred_logged (t : Thread) (n : Nat) (v : Bool) : (t.setPred n v).logged = t.logged := by unfold Thread.setPred; split <;> rfl
@[simp] theorem Thread.setPred_latch (t : Thread) (n : Nat) (v : Bool) : (t.setPred n v).latch = t.latch := by unfold Thread.setPred; split <;> rfl
@[simp] theorem Thread.setPred_wait (t : Thread) (n : Nat) (v : Bool) : (t.setPred n v).wait = t.wait := by unfold Thread.setPred; split <;> rfl
@[simp] theorem Thread.setPred_gathered (t : Thread) (n : Nat) (v : Bool) : (t.setPred n v).gathered = t.gathered := by unfold Thread.setPred; split <;> rfl
@[simp] theorem Thread.setPred_pending (t : Thread) (n : Nat) (v : Bool) : (t.setPred n v).pending = t.pending := by unfold Thread.setPred; split <;> rfl
@[simp] theorem Thread.setPred_fences (t : Thread) (n : Nat) (v : Bool) : (t.setPred n v).fences = t.fences := by unfold Thread.setPred; split <;> rfl
@[simp] theorem Thread.setPred_mx (t : Thread) (n : Nat) (v : Bool) : (t.setPred n v).mx = t.mx := by unfold Thread.setPred; split <;> rfl
@[simp] theorem Thread.setPred_tile (t : Thread) (n : Nat) (v : Bool) : (t.setPred n v).tile = t.tile := by unfold Thread.setPred; split <;> rfl
@[simp] theorem Thread.setPred_owed (t : Thread) (n : Nat) (v : Bool) : (t.setPred n v).owed = t.owed := by unfold Thread.setPred; split <;> rfl
@[simp] theorem Thread.setPred_poison (t : Thread) (n : Nat) (v : Bool) : (t.setPred n v).poison = t.poison := by unfold Thread.setPred; split <;> rfl
@[simp] theorem Thread.setPred_kick (t : Thread) (n : Nat) (v : Bool) : (t.setPred n v).kick = t.kick := by unfold Thread.setPred; split <;> rfl
@[simp] theorem Thread.setPred_fetch (t : Thread) (n : Nat) (v : Bool) : (t.setPred n v).fetch = t.fetch := by unfold Thread.setPred; split <;> rfl
@[simp] theorem Thread.setPred_sts (t : Thread) (n : Nat) (v : Bool) : (t.setPred n v).sts = t.sts := by unfold Thread.setPred; split <;> rfl
@[simp] theorem Thread.setPred_seen (t : Thread) (n : Nat) (v : Bool) : (t.setPred n v).seen = t.seen := by unfold Thread.setPred; split <;> rfl
@[simp] theorem Thread.setPred_relSig (t : Thread) (n : Nat) (v : Bool) : (t.setPred n v).relSig = t.relSig := by unfold Thread.setPred; split <;> rfl
@[simp] theorem Thread.setPred_late (t : Thread) (n : Nat) (v : Bool) : (t.setPred n v).late = t.late := by unfold Thread.setPred; split <;> rfl
@[simp] theorem Thread.setPred_stuck (t : Thread) (n : Nat) (v : Bool) : (t.setPred n v).stuck = t.stuck := by unfold Thread.setPred; split <;> rfl

/-! voidL -/

@[simp] theorem Thread.voidL_regs (t : Thread) : (t.voidL).regs = t.regs := rfl
@[simp] theorem Thread.voidL_preds (t : Thread) : (t.voidL).preds = t.preds := rfl
@[simp] theorem Thread.voidL_fpc (t : Thread) : (t.voidL).fpc = t.fpc := rfl
@[simp] theorem Thread.voidL_chk (t : Thread) : (t.voidL).chk = t.chk := rfl
@[simp] theorem Thread.voidL_eid (t : Thread) : (t.voidL).eid = t.eid := rfl
@[simp] theorem Thread.voidL_cb (t : Thread) : (t.voidL).cb = t.cb := rfl
@[simp] theorem Thread.voidL_w (t : Thread) : (t.voidL).w = t.w := rfl
@[simp] theorem Thread.voidL_level (t : Thread) : (t.voidL).level = t.level := rfl
@[simp] theorem Thread.voidL_allot (t : Thread) : (t.voidL).allot = t.allot := rfl
@[simp] theorem Thread.voidL_prio (t : Thread) : (t.voidL).prio = t.prio := rfl
@[simp] theorem Thread.voidL_yielded (t : Thread) : (t.voidL).yielded = t.yielded := rfl
@[simp] theorem Thread.voidL_lvoid (t : Thread) : (t.voidL).lvoid = 0xF := rfl
@[simp] theorem Thread.voidL_readyAt (t : Thread) : (t.voidL).readyAt = t.readyAt := rfl
@[simp] theorem Thread.voidL_early (t : Thread) : (t.voidL).early = t.early := rfl
@[simp] theorem Thread.voidL_latch (t : Thread) : (t.voidL).latch = t.latch := rfl
@[simp] theorem Thread.voidL_wait (t : Thread) : (t.voidL).wait = t.wait := rfl
@[simp] theorem Thread.voidL_gathered (t : Thread) : (t.voidL).gathered = t.gathered := rfl
@[simp] theorem Thread.voidL_pending (t : Thread) : (t.voidL).pending = t.pending := rfl
@[simp] theorem Thread.voidL_fences (t : Thread) : (t.voidL).fences = t.fences := rfl
@[simp] theorem Thread.voidL_mx (t : Thread) : (t.voidL).mx = t.mx := rfl
@[simp] theorem Thread.voidL_tile (t : Thread) : (t.voidL).tile = t.tile := rfl
@[simp] theorem Thread.voidL_owed (t : Thread) : (t.voidL).owed = t.owed := rfl
@[simp] theorem Thread.voidL_poison (t : Thread) : (t.voidL).poison = t.poison := rfl
@[simp] theorem Thread.voidL_kick (t : Thread) : (t.voidL).kick = t.kick := rfl
@[simp] theorem Thread.voidL_fetch (t : Thread) : (t.voidL).fetch = t.fetch := rfl
@[simp] theorem Thread.voidL_sts (t : Thread) : (t.voidL).sts = t.sts := rfl
@[simp] theorem Thread.voidL_seen (t : Thread) : (t.voidL).seen = t.seen := rfl
@[simp] theorem Thread.voidL_relSig (t : Thread) : (t.voidL).relSig = t.relSig := rfl
@[simp] theorem Thread.voidL_late (t : Thread) : (t.voidL).late = t.late := rfl
@[simp] theorem Thread.voidL_stuck (t : Thread) : (t.voidL).stuck = t.stuck := rfl

end Sys2Proof.Machine
end

