-- ==== Sys2Proof/Tests/Slice0.lean ====
section
/-! SUPPORT. Tests: words written out from the spec's encodings, terms that the well-formedness checks refuse, results worked out by hand
from the rules, and for each statement for the provers states and operands that meet its hypotheses. -/

namespace Sys2Proof.Tests

set_option Elab.async false

open Sys2Proof Sys2Proof.Machine

/-! Helpers -/

def h0 : Hdr := ⟨false, 0, 0⟩

def runsB (s : State) (i : Instr) : Bool := s.chain.isNone && s.th.owed.isNone && !held i s && (gate i (begin_ i s)).isNone && !loose i (begin_ i s)

theorem runs_of_runsB {i : Instr} {s : State} (h : runsB s i = true) : Runs i s := by
  simpa [runsB, Runs, and_assoc] using h

theorem runs_all {l : List Instr} {s : State} (h : l.all (runsB s) = true) : ∀ i ∈ l, Runs i s := fun i hi =>
  runs_of_runsB (List.all_eq_true.mp h i hi)

/-- The state that an instruction leads to, when it leads to one. -/
def after (i : Instr) (s : State) : Option State := match exec i s with
  | .next t => some t
  | _ => none

/-- A register after an instruction, its result written. -/
def regAfter (s : State) (i : Instr) (c : Nat) : Option Word := (after i s).map (·.final c)
def predAfter (s : State) (i : Instr) (n : Nat) : Option Bool := (after i s).map (·.finalPred n)
def flagsAfter (s : State) (i : Instr) : Option Nat := (after i s).map fun t => t.finalFpc.toNat / 256 % 32

/-- The machine right after reset, with pages of guest 0 in home slice 0: at 0 one of type 0 to read and execute, at 0x1000 one of type 0
to read and write, at 0x2000 one of type 1, and at 0x3000 the page of anchor-die registers from 0x3000. -/
def paged : State :=
  let s := State.reset.loadWord []
  { s with
    mem := Memory.setAll s.mem 0x22008 (leBytes 8 0x240CD ++ leBytes 8 (0x250CD + 2 ^ 56) ++ leBytes 8 (2 ^ 40 + 0x30CD + 2 ^ 57))
    pots := [0x24, 0x25].foldl (fun t f => t.put f { state := .hyp, maxp := 7 }) s.pots }

/-- Host core 0 at a level, with registers given. -/
def host (l : Level) (regs : Tab Word) : State := { paged with th := { paged.th with level := l, regs := regs, preds := 3 } }

/-- Enclave 1 of a guest, in key slot 1, with an address space of three pages: at 0 one to read and execute, at 0x1000 one of type 0 to
read and write, at 0x2000 one of type 1; and with the kick page of queue 0 of slice 0 at its address. -/
def enclOf (g : Byte) : Encl := { guest := g, slot := 1, key := 256, threads := 2, roots := [(0, 0x40000)], queues := [0] }

def enclImage : List (Nat × Nat) :=
  [(0x40000, 0x31003), (0x31000, 0x32003), (0x32000, 0x33003), (0x33000, 0x38075), (0x33008, 0x340ED), (0x33010, 0x390ED + 2 ^ 56),
    (0x4FFF8, 0x35003), (0x35FF8, 0x36003), (0x36FC0, 0x37003), (0x37000, 2 ^ 40 + 0x10000000 + 0xCD + 2 ^ 57)]

def potFor (g : Byte) (st : PotState) (page : Nat) : Pot := { state := st, maxp := 7, eva := .ofNat 40 page, guest := g, owner := 1, slot := 1, key := 256 }

def withEncl (g : Byte) (s : State) : State :=
  { s with
    mem := enclImage.foldl (fun m (p : Nat × Nat) => Memory.setAll m p.1 (leBytes 8 p.2)) s.mem
    pots := (([0x31, 0x32, 0x33, 0x35, 0x36, 0x37] ++ (List.range 16).map (0x40 + ·)).map (·, potFor g .enclPt 0) ++ [(0x38, potFor g .encl 0), (0x34, potFor g .encl 1),
      (0x39, potFor g .encl 2)]).foldl (fun t (p : Nat × Pot) => t.put p.1 p.2) s.pots
    slots := s.slots.put 1 { loaded := true, guest := g, eid := 1, key := 256 }
    encls := [(1, enclOf g)]
    queues := [(0, { owner := 1, guest := g, index := 0 })] }

/-- Host core 0 in enclave 1. -/
def inEncl (regs : Tab Word) : State :=
  let s := withEncl 1 paged
  { s with
    th := { s.th with level := .e, eid := 1, regs := regs, preds := 3 }
    hosts := s.hosts.put 0 { s.hostCore 0 with guestid := 1, entered := some (1, 0), retW := 40, retCb := 0x2000 } }

/-- A launch record of four tiles, with one group of 64 registers a thread, 4 barrier objects, 4 tiles and 4 KiB of scratchpad. -/
def record (flags head items : Nat) : List Word :=
  [.ofNat 32 (0x4001 + flags), 4, 1, 1, 1, 0x10000, 0, 0, 0, 0, 0x40001, 0x04101000, 0, 0, 0, 0, 255, .ofNat 32 head, .ofNat 32 items]
    ++ List.replicate 13 0

def launch1 : Launch := { words := record 0 0 0, eid := 1, guest := 1, lead := 0, queue := 0, seq := 1 }

/-- Lane 0 of a team of one group on core 0, in enclave 1. -/
def simtOf (l : Launch) (regs : Tab Word) : State :=
  let s := withEncl 1 paged
  { s with
    cur := .simt 1 0
    th := { eid := 1, level := .e, allot := 64, regs := regs, preds := 3 }
    threads := (.host 0, s.th) :: (List.range 31).map (fun k => (.simt 1 (k + 1), { eid := 1, level := .e, allot := 64 })) ++ s.threads
    serial := 2
    teams := [(1, { launch := 1, core := 0, slot := 0, groups := 1, cvs := [(2, { set := 1 })] })]
    launches := [(1, l)] }

def simt (regs : Tab Word) : State := simtOf launch1 regs

/-- What a buffer word reads, when it may. -/
def readsB (s : State) (i : Instr) (a : Opnd) (n align : Nat) : Option (State × List Byte) :=
  let b := begin_ i s
  let va := (b.src2 1 a).toNat
  if va % align = 0 ∧ va < 12 * 2 ^ 52 then match loadBytes b (b.coreIx b.cur) (b.space b.cur) 64 va n with
    | .ok u bs => some (u, bs)
    | _ => none
  else none

theorem reads_of_readsB {s : State} {i : Instr} {a : Opnd} {n align : Nat} {u : State} {bs : List Byte}
    (h : readsB s i a n align = some (u, bs)) : Reads i s a n align u bs := by
  unfold readsB at h
  simp only at h
  split at h
  · rename_i ha
    split at h
    · rename_i hl
      simp only [Option.some.injEq, Prod.mk.injEq] at h
      exact ⟨ha.1, ha.2, by rw [hl, h.1, h.2]⟩
    · cases h
  · cases h

/-- Whether bytes are stored whole at an address. -/
def storesAt (u : State) (va : Nat) (bs : List Byte) : Bool :=
  match probeBytes u (u.space u.cur) 64 va bs.length with
  | .ok w _ => match putBytes w (w.coreIx w.cur) (u.space u.cur) 64 va bs with
    | .ok v _ => v.th.level == u.th.level
    | _ => false
  | _ => false

/-! Well-formedness: one term for each check, which refuses it -/

theorem test_ill_formed : (Instr.moduleReset).flaws = [.notAWord]
    ∧ (Instr.add ⟨false, 0, 7⟩ (.g 1) (.g 2) (.g 3)).flaws = [.strayLiteral]
    ∧ (Instr.jmp h0 (.o 7)).flaws = [.jumpIsRet]
    ∧ (Instr.add h0 .lit (.g 2) (.g 3)).flaws ≠ [] ∧ (Instr.add64 h0 (.g 1) (.g 2) (.g 4)).flaws = [.operand]
    ∧ (Instr.add h0 (.g 1) (.bad false) (.g 3)).flaws = [.operand]
    ∧ (Instr.add ⟨false, 0, 7⟩ (.g 1) .lit .lit).flaws = [.twoLiterals]
    ∧ (Instr.cmp h0 10 1 (.g 2) (.g 3)).flaws = [.fieldValue]
    ∧ (Instr.sysrd h0 (.g 1) 0x3FF).flaws = [.systemRegister] := by decide +kernel

theorem test_well_formed : (Instr.add ⟨false, 0, 7⟩ (.g 1) .lit (.g 3)).WellFormed ∧ (Instr.jmp h0 (.o 6)).WellFormed
    ∧ (Instr.add64 h0 (.g 0) (.g 2) (.g 110)).WellFormed ∧ (Instr.cmp h0 9 7 (.g 2) (.g 3)).WellFormed
    ∧ (Instr.sysrd h0 (.g 1) 0x047).WellFormed := by
  unfold Instr.WellFormed; decide +kernel

/-! Decoding: words written out bit by bit from Tables 3.1, 3.2 and 3.7 and the examples of the entries -/

/-- The manual's example of R176, two words. -/
theorem test_decode_mma : decode 0 [0x1C00C820, 0x054A8144]
    = .ok (.mma h0 3 (.g 16) (.g 32) ⟨false, true, .g 41, .g 40, 1, 4, 4⟩, 2) := by decide +kernel

theorem test_decode_add_literal : decode 0 [0x0020D3FD, 0xDEADBEEF] = .ok (.add ⟨false, 0, 0xDEADBEEF⟩ (.g 3) (.g 39) .lit, 2)
    := by decide +kernel

/-- One word of each family, by the opcode and format fields of Tables 3.2, 3.3 and 3.7. -/
theorem test_decode_families :
    (decode 0 [0x0B818205] = .ok (.pkn h0 (.g 6) (.g 4) (.g 5), 1))               -- R118's example of pkn
    ∧ (decode 0 [0x00000000] = .ok (.nop h0, 1))
    ∧ (decode 0 [0xC0214305] = .ok (.add ⟨true, 2, 0⟩ (.g 5) (.g 6) (.g 5), 1))   -- C = 1 and S = 2
    ∧ (decode 0 [0x18403B80] = .ok (.ret h0, 1)) ∧ (decode 0 [0x18403B00] = .ok (.jmp h0 (.o 6), 1)) := by decide +kernel

/-! Integer words (R98-R105): results worked out by hand -/

def ints : State := host .h [(4, 100), (5, 0x80000001), (6, 3), (7, 0xFFFFFFFE), (8, 0xFFFFFFFF), (10, 1), (15, 0x1234FF80)]

theorem test_integer_forms : let r := fun i => regAfter ints i 20
    r (.add h0 (.g 20) (.g 5) (.g 7)) = some 0x7FFFFFFF ∧ r (.sub h0 (.g 20) (.g 6) (.g 7)) = some 5
    ∧ r (.mul h0 (.g 20) (.g 5) (.g 6)) = some 0x80000003 ∧ r (.mulhi h0 (.g 20) (.g 5) (.g 7)) = some 0
    ∧ r (.mulhu h0 (.g 20) (.g 5) (.g 7)) = some 0x7FFFFFFF ∧ regAfter ints (.mad h0 (.g 4) (.g 6) (.g 7)) 4 = some 94
    ∧ r (.and h0 (.g 20) (.g 5) (.g 6)) = some 1 ∧ r (.or h0 (.g 20) (.g 5) (.g 6)) = some 0x80000003
    ∧ r (.xor h0 (.g 20) (.g 5) (.g 6)) = some 0x80000002 ∧ r (.andn h0 (.g 20) (.g 6) (.g 5)) = some 2
    ∧ r (.shl h0 (.g 20) (.g 6) (.g 7)) = some 0xC0000000 ∧ r (.shr h0 (.g 20) (.g 5) (.g 7)) = some 2
    ∧ r (.sra h0 (.g 20) (.g 5) (.g 7)) = some 0xFFFFFFFE ∧ r (.min h0 (.g 20) (.g 5) (.g 6)) = some 0x80000001
    ∧ r (.max h0 (.g 20) (.g 5) (.g 6)) = some 3 ∧ r (.minu h0 (.g 20) (.g 5) (.g 6)) = some 3
    ∧ r (.maxu h0 (.g 20) (.g 5) (.g 6)) = some 0x80000001 ∧ r (.adds h0 (.g 20) (.g 5) (.g 7)) = some 0x80000000
    ∧ r (.subs h0 (.g 20) (.g 6) (.g 5)) = some 0x7FFFFFFF ∧ r (.lea h0 2 (.g 20) (.g 6) (.g 4)) = some 403 := by decide +kernel

theorem test_pair_forms : let hi := fun i => regAfter ints i 21
    hi (.add64 h0 (.g 20) (.g 8) (.g 10)) = some 1 ∧ hi (.sub64 h0 (.g 20) (.g 10) (.g 8)) = some 0xFFFFFFFF
    ∧ hi (.mulw h0 (.g 20) (.g 5) (.g 7)) = some 0x7FFFFFFF ∧ hi (.mulws h0 (.g 20) (.g 5) (.g 7)) = some 0
    ∧ regAfter ints (.mulws h0 (.g 20) (.g 5) (.g 7)) 20 = some 0xFFFFFFFE := by decide +kernel

theorem test_bit_fields :
    regAfter ints (.bfe ⟨false, 0, 2204⟩ (.g 20) (.g 5) .lit) 20 = some 0xFFFFFFF8
    ∧ regAfter ints (.bfi ⟨false, 0, 72⟩ (.g 4) (.g 6) .lit) 4 = some 0x364
    ∧ regAfter ints (.prmb ⟨false, 0, 0x8703⟩ (.g 20) (.g 5) .lit) 20 = some 0x00FF0180 := by decide +kernel

theorem test_immediate_and_unary_forms : let r := fun i => regAfter ints i 20
    r (.addi h0 (.g 20) (.g 6) 0x7F) = some 2 ∧ r (.andi h0 (.g 20) (.g 5) 0x7F) = some 0x80000001
    ∧ r (.ori h0 (.g 20) (.g 6) 0x40) = some 0xFFFFFFC3 ∧ r (.xori h0 (.g 20) (.g 6) 0x7F) = some 0xFFFFFFFC
    ∧ r (.shli h0 (.g 20) (.g 6) 31) = some 0x80000000 ∧ r (.shri h0 (.g 20) (.g 5) 31) = some 1
    ∧ r (.srai h0 (.g 20) (.g 5) 31) = some 0xFFFFFFFF ∧ r (.muli h0 (.g 20) (.g 6) 0x7F) = some 0xFFFFFFFD
    ∧ r (.movi h0 (.g 20) 0x2000) = some 0xFFFFE000 ∧ r (.mov h0 (.g 20) (.g 15)) = some 0x1234FF80
    ∧ r (.clz h0 (.g 20) (.g 6)) = some 30 ∧ r (.clz h0 (.g 20) .zr) = some 32 ∧ r (.popc h0 (.g 20) (.g 7)) = some 31
    ∧ r (.brev h0 (.g 20) (.g 6)) = some 0xC0000000 ∧ r (.abs h0 (.g 20) (.g 7)) = some 2
    ∧ r (.neg h0 (.g 20) (.g 6)) = some 0xFFFFFFFD ∧ r (.not h0 (.g 20) (.g 6)) = some 0xFFFFFFFC
    ∧ r (.sext8 h0 (.g 20) (.g 15)) = some 0xFFFFFF80 ∧ r (.sext16 h0 (.g 20) (.g 15)) = some 0xFFFFFF80
    ∧ r (.zext8 h0 (.g 20) (.g 15)) = some 0x80 ∧ r (.zext16 h0 (.g 20) (.g 15)) = some 0xFF80
    ∧ r (.ctz h0 (.g 20) (.g 7)) = some 1 ∧ r (.ctz h0 (.g 20) .zr) = some 32 := by decide +kernel

/-- -2^31 + 1 is below 3 signed and above it unsigned (Table 3.4); p0 stays true. -/
theorem test_compares : let p := fun i => predAfter ints i 5
    p (.cmp h0 2 5 (.g 5) (.g 6)) = some true ∧ p (.cmp h0 6 5 (.g 5) (.g 6)) = some false ∧ p (.cmp h0 9 5 (.g 5) (.g 6)) = some true
    ∧ p (.cmpi h0 4 5 (.g 6) 0x7F) = some true ∧ p (.cmpi h0 0 5 (.g 6) 3) = some true ∧ p (.cmpi h0 8 5 (.g 6) 0x7F) = some false
    ∧ predAfter ints (.cmpi h0 1 0 (.g 6) 3) 0 = some true := by decide +kernel

/-- p1 is true and p2 false: PGET gives 0x03, PPUT of -2 clears p1's neighbours only by its own bits. -/
theorem test_predicates : let p := fun i => predAfter ints i 5
    p (.pand h0 5 1 2) = some false ∧ p (.por h0 5 1 2) = some true ∧ p (.pxor h0 5 1 1) = some false ∧ p (.pandn h0 5 1 2) = some true
    ∧ p (.pnot h0 5 2) = some true ∧ regAfter ints (.pget h0 (.g 20)) 20 = some 3 ∧ predAfter ints (.pput h0 (.g 6)) 1 = some true
    ∧ predAfter ints (.pput h0 (.g 10)) 1 = some false ∧ regAfter ints (.sel h0 2 (.g 20) (.g 5) (.g 6)) 20 = some 3
    ∧ regAfter ints (.sel h0 0 (.g 20) (.g 5) (.g 6)) 20 = some 0x80000001 := by decide +kernel

/-- The hypotheses of the statements on integer words, with a literal, a discarded result and p0 as destination among the forms. -/
theorem test_runs_integer : ∀ i ∈ [Instr.add h0 (.g 20) (.g 5) (.g 7), .add ⟨false, 3, 9⟩ .zr .lit (.l 3), .sub h0 (.g 20) (.g 5) (.g 7),
      .mul h0 (.g 20) (.g 5) (.g 7), .mulhi h0 (.g 20) (.g 5) (.g 7), .mulhu h0 (.g 20) (.g 5) (.g 7), .mad h0 (.g 20) (.g 5) (.g 7),
      .and h0 (.g 20) (.g 5) (.g 7), .or h0 (.g 20) (.g 5) (.g 7), .xor h0 (.g 20) (.g 5) (.g 7), .andn h0 (.g 20) (.g 5) (.g 7),
      .shl h0 (.g 20) (.g 5) (.g 7), .shr h0 (.g 20) (.g 5) (.g 7), .sra h0 (.g 20) (.g 5) (.g 7), .min h0 (.g 20) (.g 5) (.g 7),
      .max h0 (.g 20) (.g 5) (.g 7), .minu h0 (.g 20) (.g 5) (.g 7), .maxu h0 (.g 20) (.g 5) (.g 7), .adds h0 (.g 20) (.g 5) (.g 7),
      .subs h0 (.g 20) (.g 5) (.g 7), .lea h0 3 (.g 20) (.g 5) (.g 7), .add64 h0 (.g 20) (.g 8) (.g 10), .add64 h0 .zr .zr (.g 110),
      .sub64 h0 (.g 20) (.g 8) (.g 10), .mulw h0 (.g 20) (.g 5) (.g 7), .mulws h0 (.g 20) (.g 5) (.g 7), .bfe h0 (.g 20) (.g 5) (.g 7),
      .bfi h0 (.g 20) (.g 5) (.g 7), .prmb h0 (.g 20) (.g 5) (.g 7)], Runs i ints := runs_all (by decide +kernel)

theorem test_runs_immediate_and_unary : ∀ i ∈ [Instr.addi h0 (.g 20) (.g 5) 64, .andi h0 (.g 20) (.g 5) 64, .ori h0 (.g 20) (.g 5) 64,
      .xori h0 (.g 20) (.g 5) 64, .shli h0 (.g 20) (.g 5) 31, .shri h0 (.g 20) (.g 5) 31, .srai h0 (.g 20) (.g 5) 31,
      .muli h0 (.g 20) (.g 5) 64, .movi h0 (.g 20) 0x2000, .mov h0 (.g 20) (.g 5), .mov ⟨false, 0, 5⟩ (.o 7) .lit, .clz h0 (.g 20) (.g 5),
      .popc h0 (.g 20) (.g 5), .brev h0 (.g 20) (.g 5), .abs h0 (.g 20) (.g 5), .neg h0 (.g 20) (.g 5), .not h0 (.g 20) (.g 5),
      .sext8 h0 (.g 20) (.g 5), .sext16 h0 (.g 20) (.g 5), .zext8 h0 (.g 20) (.g 5), .zext16 h0 (.g 20) (.g 5), .ctz h0 (.g 20) (.g 5)],
    Runs i ints := runs_all (by decide +kernel)

theorem test_runs_predicates : ∀ i ∈ [Instr.cmp h0 0 5 (.g 5) (.g 6), .cmp h0 9 0 (.g 5) (.g 6), .cmpi h0 9 5 (.g 5) 64,
      .pand h0 5 1 2, .por h0 0 1 2, .pxor h0 5 1 2, .pandn h0 5 1 2, .pnot h0 5 1, .pget h0 (.g 20), .pput h0 (.g 5),
      .sel h0 7 (.g 20) (.g 5) (.g 6)], Runs i ints := runs_all (by decide +kernel)

/-- Codes 10 and 15 of CMP and CMPI: the last clause of `IntegerCompares`. -/
theorem test_reserved_compares : 10 ≤ (10#4).toNat ∧ ints.chain = none ∧ ints.th.owed = none
    ∧ held (.cmp h0 10 1 (.g 5) (.g 6)) ints = false ∧ held (.cmpi h0 15 1 (.g 5) 0) ints = false := by decide +kernel

/-! Floating-point words (R41-R50, R106-R120) -/

/-- 1.5, 2.5, 1.0, +0, -0, +infinity, a NaN, -1.0, and the F64 values 1.0 and 0.5 in pairs. -/
def floats : State := host .h [(12, 0x3FC00000), (13, 0x40200000), (16, 0x3F800000), (18, 0x80000000), (19, 0x7F800000), (20, 0x7FC00001),
  (21, 0xBF800000), (31, 0x3FF00000), (33, 0x3FE00000)]

theorem test_float_forms : let r := fun i => regAfter floats i 40
    r (.fadd h0 (.g 40) (.g 12) (.g 13)) = some 0x40800000 ∧ r (.fsub h0 (.g 40) (.g 12) (.g 13)) = some 0xBF800000
    ∧ r (.fmul h0 (.g 40) (.g 12) (.g 13)) = some 0x40700000 ∧ regAfter floats (.ffma h0 (.g 16) (.g 12) (.g 13)) 16 = some 0x40980000
    ∧ regAfter floats (.ffnma h0 (.g 16) (.g 12) (.g 13)) 16 = some 0xC0300000 ∧ r (.fmin h0 (.g 40) (.g 17) (.g 18)) = some 0x80000000
    ∧ r (.fmax h0 (.g 40) (.g 17) (.g 18)) = some 0 ∧ r (.fmax h0 (.g 40) (.g 20) (.g 12)) = some 0x3FC00000
    ∧ r (.fadd h0 (.g 40) (.g 20) (.g 12)) = some 0x7FC00000 ∧ flagsAfter floats (.fadd h0 (.g 40) (.g 20) (.g 12)) = some 0
    ∧ flagsAfter floats (.fsub h0 (.g 40) (.g 19) (.g 19)) = some 1 := by decide +kernel

/-- 1.0 in both halves of F16 and of BF16; 1 + 1 = 2, 1 x 1 = 1, 1 x 1 + 1 = 2. -/
theorem test_pair_of_halves : let s := host .h [(1, 0x3C003C00), (2, 0x3F803F80)]
    regAfter s (.hadd2 h0 (.g 9) (.g 1) (.g 1)) 9 = some 0x40004000 ∧ regAfter s (.hmul2 h0 (.g 9) (.g 1) (.g 1)) 9 = some 0x3C003C00
    ∧ regAfter s (.hfma2 h0 (.g 1) (.g 1) (.g 1)) 1 = some 0x40004000 ∧ regAfter s (.badd2 h0 (.g 9) (.g 2) (.g 2)) 9 = some 0x40004000
    ∧ regAfter s (.bmul2 h0 (.g 9) (.g 2) (.g 2)) 9 = some 0x3F803F80 ∧ regAfter s (.bfma2 h0 (.g 2) (.g 2) (.g 2)) 2 = some 0x40004000
    := by decide +kernel

/-- 1.0 + 0.5, 1.0 x 0.5 and 1.0 x 0.5 + 1.0 in F64: 1.5, 0.5 and 1.5. -/
theorem test_double_forms : let hi := fun i => regAfter floats i 41
    hi (.dadd h0 (.g 40) (.g 30) (.g 32)) = some 0x3FF80000 ∧ hi (.dmul h0 (.g 40) (.g 30) (.g 32)) = some 0x3FE00000
    ∧ regAfter floats (.dfma h0 (.g 30) (.g 30) (.g 32)) 31 = some 0x3FF80000
    ∧ predAfter floats (.dcmp h0 4 3 (.g 30) (.g 32)) 3 = some true ∧ predAfter floats (.fcmp h0 0 3 (.g 17) (.g 18)) 3 = some true
    ∧ predAfter floats (.fcmp h0 0 3 (.g 20) (.g 20)) 3 = some false ∧ predAfter floats (.fcmp h0 1 3 (.g 20) (.g 20)) 3 = some true
    := by decide +kernel

/-- The special values of Table 5.5, with DZ (2) and NV (1). -/
theorem test_sfu_special_values : let r := fun i => (regAfter floats i 40, flagsAfter floats i)
    r (.frcp h0 (.g 40) (.g 18)) = (some 0xFF800000, some 2) ∧ r (.frsq h0 (.g 40) (.g 17)) = (some 0x7F800000, some 2)
    ∧ r (.fsqrt h0 (.g 40) (.g 21)) = (some 0x7FC00000, some 1) ∧ r (.fex2 h0 (.g 40) (.g 16)) = (some 0x40000000, some 0)
    ∧ r (.flg2 h0 (.g 40) (.g 16)) = (some 0, some 0) ∧ r (.fsinp h0 (.g 40) (.g 12)) = (some 0xBF800000, some 0)
    ∧ r (.fcosp h0 (.g 40) (.g 16)) = (some 0xBF800000, some 0) ∧ r (.ftanh h0 (.g 40) (.g 19)) = (some 0x3F800000, some 0)
    ∧ r (.fsigm h0 (.g 40) (.g 17)) = (some 0x3F000000, some 0) := by decide +kernel

theorem test_float_unary : let r := fun i => (regAfter floats i 40, flagsAfter floats i)
    r (.fabs h0 (.g 40) (.g 21)) = (some 0x3F800000, some 0) ∧ r (.fneg h0 (.g 40) (.g 17)) = (some 0x80000000, some 0)
    ∧ r (.ffloor h0 (.g 40) (.g 12)) = (some 0x3F800000, some 0) ∧ r (.fceil h0 (.g 40) (.g 12)) = (some 0x40000000, some 0)
    ∧ r (.ftrunc h0 (.g 40) (.g 13)) = (some 0x40000000, some 0) ∧ r (.frint h0 (.g 40) (.g 13)) = (some 0x40000000, some 16)
    ∧ r (.fclass h0 (.g 40) (.g 18)) = (some 8, some 0) ∧ r (.fclass h0 (.g 40) (.g 20)) = (some 512, some 0) := by decide +kernel

/-- 1.5 is 0x3E00 in F16 and 0x3FC0 in BF16; 2.5 rounds to 2 under RNE and to 3 under RU. -/
theorem test_conversions : let r := fun i => (regAfter floats i 40, flagsAfter floats i)
    r (.fcvtF16F32 h0 (.g 40) (.g 12)) = (some 0x3E00, some 0) ∧ r (.fcvtBf16F32 h0 (.g 40) (.g 12)) = (some 0x3FC0, some 0)
    ∧ r (.fcvtF32F16 ⟨false, 0, 0x3E00⟩ (.g 40) .lit) = (some 0x3FC00000, some 0)
    ∧ r (.fcvtF32Bf16 ⟨false, 0, 0x3FC0⟩ (.g 40) .lit) = (some 0x3FC00000, some 0)
    ∧ r (.fcvtF32S32 ⟨false, 0, 0xFFFFFFFF⟩ (.g 40) .lit) = (some 0xBF800000, some 0) := by decide +kernel

theorem test_integer_conversions : let r := fun i => (regAfter floats i 40, flagsAfter floats i)
    r (.fcvtF32N32 ⟨false, 0, 0xFFFFFFFF⟩ (.g 40) .lit) = (some 0x4F800000, some 16)
    ∧ r (.fcvtS32F32Fixed h0 (.g 40) (.g 13) 0) = (some 2, some 16) ∧ r (.fcvtS32F32Fixed h0 (.g 40) (.g 13) 3) = (some 3, some 16)
    ∧ r (.fcvtS32F32 h0 (.g 40) (.g 19)) = (some 0x7FFFFFFF, some 1) ∧ r (.fcvtN32F32Fixed h0 (.g 40) (.g 21) 1) = (some 0, some 1)
    ∧ r (.fcvtN32F32 h0 (.g 40) (.g 13)) = (some 2, some 16) ∧ regAfter floats (.fcvtF64F32 h0 (.g 40) (.g 16)) 41 = some 0x3FF00000
    ∧ regAfter floats (.fcvtF64S32 h0 (.g 40) (.g 18)) 41 = some 0xC1E00000
    ∧ regAfter floats (.fcvtF64N32 h0 (.g 40) (.g 18)) 41 = some 0x41E00000
    ∧ r (.fcvtF32F64 h0 (.g 40) (.g 32)) = (some 0x3F000000, some 0) ∧ r (.fcvtS32F64Fixed h0 (.g 40) (.g 32) 3) = (some 1, some 16)
    ∧ r (.fcvtS32F64 h0 (.g 40) (.g 30)) = (some 1, some 0) ∧ r (.fcvtN32F64Fixed h0 (.g 40) (.g 32) 1) = (some 0, some 16)
    ∧ r (.fcvtN32F64 h0 (.g 40) (.g 30)) = (some 1, some 0) := by decide +kernel

/-- R118's example: 2.6 at scale 2.0 is 0x3A in slot 2, which reads back as 2.5. And FSCL by 2.0, and both packs of 1.5 and 2.5. -/
theorem test_packing : let s := host .h [(4, 0x40266666), (5, 0x80000022), (6, 0x00003A00), (12, 0x3FC00000), (13, 0x40200000)]
    regAfter s (.pkn h0 (.g 9) (.g 4) (.g 5)) 9 = some 0x3A00 ∧ flagsAfter s (.pkn h0 (.g 9) (.g 4) (.g 5)) = some 16
    ∧ regAfter s (.upkn h0 (.g 7) (.g 6) (.g 5)) 7 = some 0x40200000 ∧ flagsAfter s (.upkn h0 (.g 7) (.g 6) (.g 5)) = some 0
    ∧ regAfter s (.fscl ⟨false, 0, 0x100⟩ (.g 9) (.g 12) .lit) 9 = some 0x40400000
    ∧ regAfter s (.pkF16 h0 (.g 9) (.g 12) (.g 13)) 9 = some 0x41003E00 ∧ regAfter s (.pkB16 h0 (.g 9) (.g 12) (.g 13)) 9 = some 0x40203FC0
    := by decide +kernel

/-- Elements 1.0, of each format, in every slot, and integers -1 and 2: sums of the products, added to d = 0. -/
theorem test_dot_products : let s := host .h [(1, 0x38383838), (2, 0x3C3C3C3C), (3, 0xFFFFFFFF), (4, 0x02020202), (5, 0x22222222),
      (6, 0x3F803F80), (7, 0x3C003C00)]
    let r := fun i => regAfter s i 9
    r (.dot4E43 h0 (.g 9) (.g 1) (.g 1)) = some 0x40800000 ∧ r (.dot4E52 h0 (.g 9) (.g 2) (.g 2)) = some 0x40800000
    ∧ r (.dot4S8 h0 (.g 9) (.g 3) (.g 4)) = some 0xFFFFFFF8 ∧ r (.dot4N8 h0 (.g 9) (.g 3) (.g 4)) = some 2040
    ∧ r (.dot8E21 h0 (.g 9) (.g 5) (.g 5)) = some 0x41000000 ∧ r (.dot8S4 h0 (.g 9) (.g 3) (.g 5)) = some 0xFFFFFFF0
    ∧ r (.dot2B16 h0 (.g 9) (.g 6) (.g 6)) = some 0x40000000 ∧ r (.dot2F16 h0 (.g 9) (.g 7) (.g 7)) = some 0x40000000 := by decide +kernel

theorem test_runs_float : ∀ i ∈ [Instr.fadd h0 (.g 40) (.g 12) (.g 13), .fsub h0 (.g 40) (.g 12) (.g 13), .fmul h0 (.g 40) (.g 12) (.g 13),
      .ffma h0 (.g 40) (.g 12) (.g 13), .ffnma h0 .zr (.g 12) (.g 13), .fmin h0 (.g 40) (.g 12) (.g 13), .fmax h0 (.g 40) (.g 12) (.g 13),
      .fcmp h0 0 1 (.g 12) (.g 13), .fcmp h0 11 0 (.g 12) (.g 13), .hadd2 h0 (.g 40) (.g 12) (.g 13), .hmul2 h0 (.g 40) (.g 12) (.g 13),
      .hfma2 h0 (.g 40) (.g 12) (.g 13), .badd2 h0 (.g 40) (.g 12) (.g 13), .bmul2 h0 (.g 40) (.g 12) (.g 13),
      .bfma2 h0 (.g 40) (.g 12) (.g 13), .dadd h0 (.g 40) (.g 30) (.g 32), .dmul h0 (.g 40) (.g 30) (.g 32),
      .dfma h0 (.g 40) (.g 30) (.g 32), .dcmp h0 11 7 (.g 30) (.g 32), .frcp h0 (.g 40) (.g 12), .frsq h0 (.g 40) (.g 12),
      .fsqrt h0 (.g 40) (.g 12), .fex2 h0 (.g 40) (.g 12), .flg2 h0 (.g 40) (.g 12), .fsinp h0 (.g 40) (.g 12), .fcosp h0 (.g 40) (.g 12),
      .ftanh h0 (.g 40) (.g 12), .fsigm h0 (.g 40) (.g 12), .fabs h0 (.g 40) (.g 12), .fneg h0 (.g 40) (.g 12), .ffloor h0 (.g 40) (.g 12),
      .fceil h0 (.g 40) (.g 12), .ftrunc h0 (.g 40) (.g 12), .frint h0 (.g 40) (.g 12), .fclass h0 (.g 40) (.g 12)], Runs i floats :=
  runs_all (by decide +kernel)

theorem test_runs_conversions : ∀ i ∈ [Instr.fcvtF16F32 h0 (.g 40) (.g 12), .fcvtBf16F32 h0 (.g 40) (.g 12), .fcvtF32F16 h0 (.g 40) (.g 12),
      .fcvtF32Bf16 h0 (.g 40) (.g 12), .fcvtF64F32 h0 (.g 40) (.g 12), .fcvtF32F64 h0 (.g 40) (.g 30), .fcvtF32S32 h0 (.g 40) (.g 12),
      .fcvtF32N32 h0 (.g 40) (.g 12), .fcvtF64S32 h0 (.g 40) (.g 12), .fcvtF64N32 h0 (.g 40) (.g 12), .fcvtS32F32Fixed h0 (.g 40) (.g 12) 3,
      .fcvtS32F32 h0 (.g 40) (.g 12), .fcvtN32F32Fixed h0 (.g 40) (.g 12) 3, .fcvtN32F32 h0 (.g 40) (.g 12),
      .fcvtS32F64Fixed h0 (.g 40) (.g 30) 3, .fcvtS32F64 h0 (.g 40) (.g 30), .fcvtN32F64Fixed h0 (.g 40) (.g 30) 3,
      .fcvtN32F64 h0 (.g 40) (.g 30), .pkF16 h0 (.g 40) (.g 12) (.g 13), .pkB16 h0 (.g 40) (.g 12) (.g 13),
      .pkn h0 (.g 40) (.g 12) (.g 13), .upkn h0 (.g 40) (.g 12) (.g 13), .dot4E43 h0 (.g 40) (.g 12) (.g 13),
      .dot4E52 h0 (.g 40) (.g 12) (.g 13), .dot4S8 h0 (.g 40) (.g 12) (.g 13), .dot4N8 h0 (.g 40) (.g 12) (.g 13),
      .dot8E21 h0 (.g 40) (.g 12) (.g 13), .dot8S4 h0 (.g 40) (.g 12) (.g 13), .dot2B16 h0 (.g 40) (.g 12) (.g 13),
      .dot2F16 h0 (.g 40) (.g 12) (.g 13), .fscl h0 (.g 40) (.g 12) (.g 13)], Runs i floats := runs_all (by decide +kernel)

/-- Both cases of `NarrowAndDotForms`: a format of each width that takes the slot, at the last slot; and slot 4 of an 8-bit format, and
format codes 3 and 10. -/
theorem test_narrow_cases : Narrowed.ofCode 4 ≠ none ∧ Narrowed.ofCode 9 ≠ none ∧ (∀ f, Narrowed.ofCode 6 = some f → f.width = 4)
    ∧ (∀ f, Narrowed.ofCode 4 = some f → f.width = 8) ∧ Narrowed.ofCode 3 = none ∧ Narrowed.ofCode 10 = none := by
  refine ⟨by decide, by decide, ?_, ?_, by decide, by decide⟩ <;> (intro f h; cases h; decide)

/-- `Rounding`: a tie, an overflow, a tiny result, and one that is neither, each under its mode. -/
theorem test_rounding : roundQuot .rne false 5 2 = 2 ∧ roundQuot .ru true 5 2 = 2 ∧ roundQuot .rd true 5 2 = 3 ∧ roundQuot .rz true 5 2 = 2
    ∧ (roundMag f32 .rne false 1 1 128).overflow = true ∧ (roundMag f32 .rne false 1 1 127).overflow = false
    ∧ (roundMag f32 .rne false 1 1 (-127)).tiny = true ∧ (roundMag f32 .rne false 1 1 (-126)).tiny = false
    ∧ (FVal.round f32 .rne true false (.fin true 1 (-127))) = ⟨0x80000000, UF ||| NX⟩ := by decide +kernel

/-- `FloatForms`, `FloatCompares`, `Conversions`: no flush, NaNs on either side, zeros of both signs, codes at both ends, integers at both ends. -/
theorem test_float_cases : fpcFtz 0 = false ∧ (f32.value 0x7FC00000).isNan = true ∧ (f32.value 0x3F800000).isNan = false
    ∧ (f32.value 0x80000000).isZero = true ∧ fCond 11 .nan (f32.value 0) = true ∧ fCond 0 .nan .nan = false
    ∧ toS32 .rne (intVal 2147483648) = ⟨0x7FFFFFFF, NV⟩ ∧ toS32 .rne (intVal 2147483647) = ⟨0x7FFFFFFF, 0⟩
    ∧ toN32 .rne (intVal (-1)) = ⟨0, NV⟩ := by decide +kernel

/-! Operands, checks and traps (R60-R62, R74, R79, R80, R200, R244) -/

theorem test_operands : ints.chain = none ∧ ints.th.results = [] ∧ ints.th.early = [] ∧ ints.th.lvoid = 0
    ∧ operand (.nop h0) ints ⟨false, 0, 7⟩ 1 .lit = 7 ∧ operand2 (.nop h0) ints 1 (.g 4) = 0x8000000100000064
    ∧ operandP (.nop h0) ints 1 1 = true ∧ operandP (.nop h0) ints 1 7 = false := by decide +kernel

/-- The hypotheses of the clauses of `GateTraps`: an odd pair is ILLEGAL, a register of the H bank at U is PRIV, a source that is early with
CHK set is STALLCHK, and with CHK clear it passes. -/
theorem test_gate :
    let early := { ints with th := { ints.th with chk := 1, early := [⟨5, 0, 100⟩] } }
    let i := Instr.add h0 (.g 20) (.g 5) (.g 6)
    gate (.add64 h0 (.g 1) (.g 2) (.g 4)) ints = some .illegal ∧ gate (.sysrd h0 (.g 1) 0x054) (host .u []) = some .priv
    ∧ gate i early = some .stallchk ∧ illegalWord i early = false ∧ privWord i early = false ∧ early.isEarly 5 = true
    ∧ held i early = false ∧ gate i { early with th := { early.th with chk := 0 } } = none := by decide +kernel

/-- A trap at H, at S, and at U, from each of which `TrapEntry` follows one bank. -/
theorem test_trap_entry : (host .h []).cur = .host 0 ∧ (host .h []).th.kick = none
    ∧ (((host .h []).takeTrap .illegal 9 4).hostCore 0).bankH.tcause = 1 ∧ (((host .s []).takeTrap .bkpt 9 4).hostCore 0).bankS.tcause = 22
    ∧ ((host .u []).takeTrap .priv 9 4).th.level = .s ∧ (((host .u []).takeTrap .priv 9 4).hostCore 0).bankS.tstat = 2 := by
  decide +kernel

theorem test_simt_trap : (simt []).cur = .simt 1 0 ∧ (simt []).launchOf (simt []).cur = some (1, launch1)
    ∧ (((simt []).takeTrap .illegal 0 0).launches.find 1).map (·.error) = some (some 0x101) := by decide +kernel

/-! Global accesses (R123-R147) -/

/-- Addresses 0x1000, 0x2000, 0x3000, one that is odd and the first beyond slice 11; the words 5 and 6; and bytes at 0x1000. -/
def accesses : State :=
  let s := host .h [(0, 0x1000), (2, 0x2000), (4, 0x3000), (6, 1), (9, 0xC00000), (10, 5), (11, 6), (13, 0x80000000)]
  { s with mem := Memory.setAll (Memory.setAll s.mem 0x24000 [0x81, 0xFF, 3, 4, 5, 6, 7, 8]) 0x25000 [5] }

def inL1 (s : State) (va n : Nat) (kind : AccessKind) (form : Form) : MemRes (List Byte) :=
  s.l1Load (s.coreIx s.cur) { sp := s.space s.cur, va := va, kind := kind, form := form } n

/-- The hypotheses on a global load whose L1 answers. -/
def loadsB (s : State) (i : Instr) (va n : Nat) (form : Form := .other) : Bool :=
  let b := begin_ i s
  runsB s i && va % n == 0 && va < 12 * 2 ^ 52 && !b.lineHeld va n && !b.deviceWaits { sp := b.space b.cur, va := va, kind := .read, form := form } && !b.th.late && match inL1 b va n .read form with
    | .ok u _ => u.th.level == s.th.level
    | _ => false

theorem test_global_loads : ∀ p ∈ [(Instr.ldB h0 (.g 20) (.g 0) 0, 0x1000, 1, Form.other), (.ldBs h0 (.g 20) (.g 2) 0x7F, 0x1FFF, 1, .other),
      (.ldH h0 (.g 20) (.g 0) 0, 0x1000, 2, .other), (.ldHs h0 (.g 20) (.g 0) 0, 0x1000, 2, .other), (.ldW h0 .zr (.g 0) 63, 0x10FC, 4, .ldW),
      (.ldD h0 (.g 20) (.g 0) 0, 0x1000, 8, .ldD), (.ldQ h0 (.g 20) (.g 0) 0, 0x1000, 16, .other), (.ldxW h0 (.g 20) (.g 0) (.g 10), 0x1014, 4, .other),
      (.ldAcqW h0 (.g 20) (.g 0) 1, 0x1000, 4, .other), (.ldAcqD h0 (.g 20) (.g 0) 4, 0x1000, 8, .other)],
    loadsB accesses p.1 p.2.1 p.2.2.1 p.2.2.2 = true := by decide +kernel

/-- 0xFF81 loaded as a byte and as a halfword of each kind; a doubleword's high half; an indexed word beyond the bytes. -/
theorem test_global_load_values : let r := fun i => regAfter accesses i 20
    r (.ldB h0 (.g 20) (.g 0) 0) = some 0x81 ∧ r (.ldBs h0 (.g 20) (.g 0) 0) = some 0xFFFFFF81 ∧ r (.ldH h0 (.g 20) (.g 0) 0) = some 0xFF81
    ∧ r (.ldHs h0 (.g 20) (.g 0) 0) = some 0xFFFFFF81 ∧ r (.ldW h0 (.g 20) (.g 0) 1) = some 0x08070605
    ∧ regAfter accesses (.ldD h0 (.g 20) (.g 0) 0) 21 = some 0x08070605 ∧ regAfter accesses (.ldQ h0 (.g 20) (.g 0) 0) 21 = some 0x08070605
    ∧ r (.ldxW h0 (.g 20) (.g 0) (.g 10)) = some 0 ∧ r (.ldAcqW h0 (.g 20) (.g 0) 2) = some 0x0403FF81
    ∧ regAfter accesses (.ldAcqD h0 (.g 20) (.g 0) 2) 21 = some 0x08070605 ∧ r (.ldcW h0 (.g 20) (.g 0) 0) = some 0x0403FF81
    ∧ regAfter accesses (.ldcQ h0 (.g 20) (.g 0) 0) 21 = some 0x08070605 := by decide +kernel

/-- An LD.D of PART 0 on a device page, and both constant loads. -/
theorem test_device_and_constant_loads :
    (match inL1 accesses 0x3000 8 .read .ldD with | .device u pa => u.th.level == .h && pa == 2 ^ 40 + 0x3000 | _ => false) = true
    ∧ runsB accesses (.ldD h0 (.g 20) (.g 4) 0) = true ∧ regAfter accesses (.ldD h0 (.g 20) (.g 4) 0) 21 = some 0x4E2007D0
    ∧ (∀ p ∈ [(Instr.ldcW h0 (.g 20) (.g 0) 1, 0x1004, 4), (.ldcQ h0 (.g 20) (.g 0) 0, 0x1000, 16)], runsB accesses p.1 = true
      ∧ (match (begin_ p.1 accesses).ldc 4608 { sp := accesses.space (.host 0), va := p.2.1, kind := .ldc } p.2.2 with
        | .ok u _ => u.th.level == .h | _ => false) = true) := by decide +kernel

/-- The hypotheses on a global store whose L1 takes it, after its release if it has one. -/
def storesB (s : State) (i : Instr) (va n : Nat) (form : Form := .other) (scope : Option Nat := none) : Bool :=
  let b := begin_ i s
  let r := (scope.map b.release).getD b
  let a : Access := { sp := r.space r.cur, va := va, kind := .write, form := form }
  runsB s i && va % n == 0 && va < 12 * 2 ^ 52 && !r.lineHeld va n && !r.deviceWaits a && !b.fenceHeld
    && !r.th.late && !r.carrierHeld r.th.pending (r.coreIx r.cur) a && (scope.all fun k => !b.fenceMeetsHold 1 k false)
    && match r.l1Store (r.coreIx r.cur) a (leBytes n 5) with
      | .ok u _ => u.th.level == s.th.level && u.th.level == (u.carry (r.coreIx r.cur) (r.space r.cur) va).th.level
      | _ => false

theorem test_global_stores : ∀ p ∈ [(Instr.stB h0 (.g 10) (.g 0) 0, 0x1000, 1, Form.other, none), (.stH h0 (.g 10) (.g 2) 0x40, 0x1F80, 2, .other, none),
      (.stW h0 .zr (.g 0) 63, 0x10FC, 4, .stW, none), (.stD h0 (.g 10) (.g 0) 0, 0x1000, 8, .stD, none), (.stQ h0 .zr (.g 0) 0, 0x1000, 16, .other, none),
      (.stxW h0 (.g 10) (.g 0) (.g 10), 0x1014, 4, .other, none), (.stRelW h0 (.g 10) (.g 0) 1, 0x1000, 4, .other, some 1),
      (.stRelD h0 (.g 10) (.g 2) 4, 0x2000, 8, .other, some 4)],
    storesB accesses p.1 p.2.1 p.2.2.1 p.2.2.2.1 p.2.2.2.2 = true := by decide +kernel

/-- A store to the uncached page stands at its home: the halves of a doubleword, and a byte's neighbour unchanged. -/
theorem test_global_store_bytes : let m := fun i => (after i accesses).map fun t => Memory.bytes t.mem 0x25000 8
    m (.stB h0 (.g 13) (.g 2) 0) = some [0, 0, 0, 0, 0, 0, 0, 0] ∧ m (.stH h0 (.g 11) (.g 2) 0) = some [6, 0, 0, 0, 0, 0, 0, 0]
    ∧ m (.stW h0 (.g 13) (.g 2) 1) = some [5, 0, 0, 0, 0, 0, 0, 0x80] ∧ m (.stD h0 (.g 10) (.g 2) 0) = some [5, 0, 0, 0, 6, 0, 0, 0]
    ∧ m (.stQ h0 (.g 12) (.g 2) 0) = some [0, 0, 0, 0, 0, 0, 0, 0x80] ∧ m (.stxW h0 (.g 11) (.g 2) .zr) = some [6, 0, 0, 0, 0, 0, 0, 0]
    ∧ m (.stRelW h0 (.g 11) (.g 2) 4) = some [6, 0, 0, 0, 0, 0, 0, 0] ∧ m (.stRelD h0 (.g 10) (.g 2) 4) = some [5, 0, 0, 0, 6, 0, 0, 0]
    := by decide +kernel

/-- An ST.D to a register page, and one of a kick word to the kick page of a queue. -/
theorem test_device_stores :
    (let s := inEncl [(0, 0xFF000000), (1, 0x000FFFFF), (10, 0x80)]
     let b := begin_ (.stD h0 (.g 10) (.g 0) 0) s
     runsB s (.stD h0 (.g 10) (.g 0) 0) = true ∧ b.va (.g 0) 0 = 0xFFFFFFF000000 ∧ badKick (.ofNat 64 (b.src2 0 (.g 10)).toNat) = false
     ∧ (match b.l1Store 4608 { sp := b.space (.host 0), va := 0xFFFFFFF000000, kind := .write, form := .stD } (leBytes 8 0x80) with
        | .device u pa => u.region pa == .kick 0 && u.th.level == .e | _ => false) = true)
    ∧ (let b := begin_ (.stD h0 (.g 10) (.g 4) 0) accesses
       runsB accesses (.stD h0 (.g 10) (.g 4) 0) = true
       ∧ (match b.l1Store 4608 { sp := b.space (.host 0), va := 0x3000, kind := .write, form := .stD } (leBytes 8 5) with
        | .device u pa => u.region pa == .regs && u.th.level == .h | _ => false) = true) := by decide +kernel

/-- Each access at an odd address, and at the first address beyond slice 11. -/
theorem test_access_traps : (begin_ (.ldH h0 (.g 20) (.g 6) 0) accesses).va (.g 6) 0 = 1
    ∧ (begin_ (.ldB h0 (.g 20) (.g 8) 0) accesses).va (.g 8) 0 = 12 * 2 ^ 52
    ∧ ∀ a ∈ [Opnd.g 6, .g 8], ∀ i ∈ [Instr.ldB h0 (.g 20) a 0, .ldBs h0 (.g 20) a 0, .ldH h0 (.g 20) a 0, .ldHs h0 (.g 20) a 0,
      .ldW h0 (.g 20) a 0, .ldD h0 (.g 20) a 0, .ldQ h0 (.g 20) a 0, .ldxW h0 (.g 20) a .zr, .ldAcqW h0 (.g 20) a 1, .ldAcqD h0 (.g 20) a 5,
      .ldcW h0 (.g 20) a 0, .ldcQ h0 (.g 20) a 0, .stB h0 (.g 10) a 0, .stH h0 (.g 10) a 0, .stW h0 (.g 10) a 0, .stD h0 (.g 10) a 0,
      .stQ h0 .zr a 0, .stxW h0 (.g 10) a .zr, .atomAdd h0 (.g 20) a (.g 10), .atomMin h0 (.g 20) a (.g 10), .atomMax h0 (.g 20) a (.g 10),
      .atomMinu h0 (.g 20) a (.g 10), .atomMaxu h0 (.g 20) a (.g 10), .atomAnd h0 (.g 20) a (.g 10), .atomOr h0 (.g 20) a (.g 10),
      .atomXor h0 (.g 20) a (.g 10), .atomXchg h0 (.g 20) a (.g 10), .atomCas h0 (.g 20) a (.g 10), .atomFadd h0 (.g 20) a (.g 10)],
      runsB accesses i = true := by decide +kernel

/-- `CacheAccess`: no lease has run out; a line that hits, and one filled with W; a miss on the uncached page, to read and to write. -/
theorem test_cache_access :
    let sp := accesses.space (.host 0)
    let a (va : Nat) (k : AccessKind) : Access := { sp := sp, va := va, kind := k }
    let filled := (after (.stW h0 (.g 10) (.g 0) 0) accesses).getD accesses
    let walked := (after (.ldW h0 (.g 20) (.g 2) 0) accesses).getD accesses
    (filled.lines.any fun l => l.core = 4608 && l.expired filled.ns) = false
    ∧ (filled.findLine 4608 sp 0x1000).map (fun l => (l.read 0 4, l.poison, l.wOk)) = some (some [5, 0, 0, 0], [], true)
    ∧ walked.findLine 4608 sp 0x2000 = none ∧ (walked.tlb.find? (·.covers sp 0x2000)).map (fun t => (t.mt, t.r, t.w, t.at 0x2000))
      = some (1, true, true, 0x25000)
    ∧ walked.region 0x25000 = .hbm (homeOf 0x2000) ∧ walked.verifies 0x25000 4 = true ∧ walked.grantFails (0x25000 / 64) = false
    ∧ (walked.pot 0x25).state = .hyp ∧ (a 0x2000 .read).form = .other
    ∧ (walked.findLine 4608 sp 0x2000).bind (fun l => l.read 0 4) = none := by decide +kernel

/-- Each atomic on the word 5 with operands 6, or 2^31 where the sign matters: what stands at the home, and the old value in d. -/
theorem test_global_atomics : let m := fun i => (after i accesses).map fun t => (leNat (Memory.bytes t.mem 0x25000 4), (t.final 20).toNat)
    m (.atomAdd h0 (.g 20) (.g 2) (.g 11)) = some (11, 5) ∧ m (.atomMin h0 (.g 20) (.g 2) (.g 13)) = some (0x80000000, 5)
    ∧ m (.atomMax h0 (.g 20) (.g 2) (.g 13)) = some (5, 5) ∧ m (.atomMinu h0 (.g 20) (.g 2) (.g 13)) = some (5, 5)
    ∧ m (.atomMaxu h0 (.g 20) (.g 2) (.g 13)) = some (0x80000000, 5) ∧ m (.atomAnd h0 (.g 20) (.g 2) (.g 11)) = some (4, 5)
    ∧ m (.atomOr h0 (.g 20) (.g 2) (.g 11)) = some (7, 5) ∧ m (.atomXor h0 (.g 20) (.g 2) (.g 11)) = some (3, 5)
    ∧ m (.atomXchg h0 (.g 20) (.g 2) (.g 11)) = some (6, 5) ∧ m (.atomCas h0 (.g 20) (.g 2) (.g 10)) = some (6, 5)
    ∧ m (.atomFadd h0 (.g 20) (.g 2) (.g 11)) = some (11, 5) := by decide +kernel

/-- The hypotheses of `GlobalAtomics`, which are the same for its eleven words. -/
theorem test_global_atomic_hypotheses :
    let ac : Access := { sp := accesses.space (.host 0), va := 0x2000, kind := .atomic }
    (∀ i ∈ [Instr.atomAdd h0 (.g 20) (.g 2) (.g 10), .atomMin h0 (.g 20) (.g 2) (.g 10), .atomMax h0 (.g 20) (.g 2) (.g 10),
      .atomMinu h0 (.g 20) (.g 2) (.g 10), .atomMaxu h0 (.g 20) (.g 2) (.g 10), .atomAnd h0 (.g 20) (.g 2) (.g 10), .atomOr h0 (.g 20) (.g 2) (.g 10),
      .atomXor h0 (.g 20) (.g 2) (.g 10), .atomXchg h0 (.g 20) (.g 2) (.g 10), .atomCas h0 (.g 20) (.g 2) (.g 10),
      .atomFadd h0 .zr (.g 2) (.g 10)], runsB accesses i = true)
    ∧ (begin_ (.atomAdd h0 (.g 20) (.g 2) (.g 10)) accesses).lineHeld 0x2000 4 = false
    ∧ (match translate accesses ac with
      | .ok (s1, t) => !s1.lineBusy 4608 (t.at 0x2000 / 128) && match s1.homeAtomic 4608 ac (· + 1) with
        | .ok s2 old => s2.th.level == .h && old == 5
        | _ => false
      | _ => false) = true := by decide +kernel

/-- Cache words and fences: their hypotheses at host core 0 with a dirty line; PRF of a mapped page, of none, and beyond slice 11. -/
theorem test_cache_maintenance :
    let s := (after (.stW h0 (.g 10) (.g 0) 0) accesses).getD accesses
    (∀ i ∈ [Instr.cwb h0 (.g 0), .cinv h0 (.g 0), .cwbiAll h0, .fence h0 true 1 0, .fence h0 false 5 3, .prf h0 (.g 0) 0, .prf h0 (.g 4) 127,
      .prf h0 (.g 8) 0], runsB s i = true ∧ (after i s).map (·.th.level) = some .h)
    ∧ (begin_ (.fence h0 true 1 0) s).fenceHeld = false
    ∧ ((after (.cwb h0 (.g 0)) s).map fun t => (t.byte 0x24000, t.lines.length)) = some (5, 1)
    ∧ ((after (.cinv h0 (.g 0)) s).map fun t => (t.byte 0x24000, t.lines.length)) = some (5, 0)
    ∧ ((after (.cwbiAll h0) s).map fun t => (t.byte 0x24000, t.lines.length)) = some (5, 0)
    ∧ (accesses.lines.all fun l => l.dirty.isEmpty) = true ∧ (after (.prf h0 (.g 0) 0) accesses).map (·.lines.length) = some 1
    ∧ (match translate accesses { sp := accesses.space (.host 0), va := 0x4000, kind := .read } with | .error _ => true | _ => false) = true
    := by decide +kernel

/-! Scratchpads and barriers (R132, R133, R140, R148-R152) -/

/-- Host core 0 with bytes at scratchpad offset 256, and addresses of member 15: 256, the last 16 bytes, and one that is misaligned. -/
def scratch : State :=
  let s := host .h [(0, 0xF0000100), (1, 0xF0007FF0), (2, 0xF0000102), (3, 0x10000100), (10, 7), (11, 9)]
  s.modStore (.host 0) fun x => { x with spad := [(256, 0x81), (257, 0xFF), (258, 3), (259, 4), (263, 8)] }

/-- The hypotheses of the scratchpad forms: the place, a free port, no poison, no outstanding region. -/
def spadB (s : State) (i : Instr) (a : Opnd) (off : Int) (n place : Nat) : Bool :=
  let b := begin_ i s
  runsB s i && match b.spadAt (ownerOf b.cur) (spadAddr (b.src h0 1 a) off) n n with
    | .ok (o, k) => o == .host 0 && k == place && !b.portBusy o && !(b.store o).poisoned k n && b.regionHits o k n == []
    | _ => false

theorem test_scratchpad : ∀ p ∈ [(Instr.ldsB h0 (.g 20) (.g 0) 0x40, Opnd.g 0, (-64 : Int), 1, 192), (.ldsH h0 (.g 20) (.g 0) 0, .g 0, 0, 2, 256),
      (.ldsW h0 .zr (.g 1) 3, .g 1, 12, 4, 32764), (.ldsD h0 (.g 20) (.g 1) 1, .g 1, 8, 8, 32760), (.ldsQ h0 (.g 20) (.g 1) 0, .g 1, 0, 16, 32752),
      (.stsB h0 (.g 10) (.g 1) 15, .g 1, 15, 1, 32767), (.stsH h0 (.g 10) (.g 0) 0, .g 0, 0, 2, 256), (.stsW h0 (.g 10) (.g 0) 0, .g 0, 0, 4, 256),
      (.stsD h0 (.g 10) (.g 0) 0, .g 0, 0, 8, 256), (.stsQ h0 .zr (.g 1) 0, .g 1, 0, 16, 32752), (.atomsAdd h0 (.g 20) (.g 0) (.g 10), .g 0, 0, 4, 256),
      (.atomsMin h0 (.g 20) (.g 0) (.g 10), .g 0, 0, 4, 256), (.atomsMax h0 .zr (.g 0) (.g 10), .g 0, 0, 4, 256),
      (.atomsCas h0 (.g 20) (.g 1) (.g 10), .g 1, 0, 4, 32752)], spadB scratch p.1 p.2.1 p.2.2.1 p.2.2.2.1 p.2.2.2.2 = true := by decide +kernel

/-- A byte, a halfword, a word and the high half of a doubleword; a stored halfword and doubleword; and each atomic on 0x0403FF81. -/
theorem test_scratchpad_values : let r := fun i => regAfter scratch i 20
    let m := fun i => (after i scratch).map fun t => (((t.store (.host 0)).word 256).toNat, (t.final 20).toNat)
    r (.ldsB h0 (.g 20) (.g 0) 0) = some 0x81 ∧ r (.ldsH h0 (.g 20) (.g 0) 0) = some 0xFF81 ∧ r (.ldsW h0 (.g 20) (.g 0) 0) = some 0x0403FF81
    ∧ regAfter scratch (.ldsD h0 (.g 20) (.g 0) 0) 21 = some 0x08000000 ∧ regAfter scratch (.ldsQ h0 (.g 20) (.g 0) 0) 21 = some 0x08000000
    ∧ m (.stsB h0 (.g 10) (.g 0) 0) = some (0x0403FF07, 0) ∧ m (.stsH h0 (.g 10) (.g 0) 0) = some (0x04030007, 0)
    ∧ m (.stsW h0 (.g 10) (.g 0) 0) = some (7, 0) ∧ m (.stsD h0 (.g 10) (.g 0) 0) = some (7, 0) ∧ m (.stsQ h0 (.g 8) (.g 0) 0) = some (0, 0)
    ∧ m (.atomsAdd h0 (.g 20) (.g 0) (.g 10)) = some (0x0403FF88, 0x0403FF81) ∧ m (.atomsMin h0 (.g 20) (.g 0) (.g 10)) = some (7, 0x0403FF81)
    ∧ m (.atomsMax h0 (.g 20) (.g 0) (.g 3)) = some (0x10000100, 0x0403FF81)
    ∧ m (.atomsCas h0 (.g 20) (.g 0) (.g 10)) = some (0x0403FF81, 0x0403FF81) := by decide +kernel

/-- Each clause on addresses: misaligned, one byte beyond the end, the last word, and a member that a host core does not have. -/
theorem test_scratchpad_addresses : let p := fun (a : Word) => scratch.spadAt (.host 0) a 4 4
    p 0xF0000102 = .error .misalign ∧ scratch.spadSize (.host 0) = 32768 ∧ p 0xF0007FFC = .ok (.host 0, 32764) ∧ p 0xF0008000 = .error .perm
    ∧ scratch.memberOf (.host 0) 1 = none ∧ p 0x10000100 = .error .perm := by decide +kernel

/-- Host core 0 with objects: 3 absent, 4 with two arrivals pending, 5 with one; and enclave 1 with a context object 192. -/
def bars : State :=
  let o (n : Nat) : BarObj := { valid := true, arrivePend := n, arriveExp := n, phase := 5 }
  let s := inEncl [(0, 0xF03), (1, 0xF04), (2, 0xF05), (3, 192), (4, 193), (10, 1), (11, 5), (12, 4), (13, 2)]
  { s.modStore (.host 0) (fun x => { x with bars := [(4, o 2), (5, o 1)] }) with
    encls := [(1, { enclOf 1 with barPage := some 0x3A, bars := [(192, o 1)] })] }

/-- The hypotheses of `Barriers`, clause by clause: objects that are absent and present, own and of the context, phases complete and not. -/
theorem test_barriers :
    let h := fun (x : Word) => bars.handle (.host 0) 1 x
    (∀ i ∈ [Instr.barinit h0 (.g 0) (.g 13), .barinit h0 (.g 4) (.g 10), .barxb h0 (.g 1) (.g 10), .bararv h0 (.g 20) (.g 1), .bararv h0 .zr (.g 3),
      .bararvx h0 (.g 20) (.g 2) (.g 10), .barwait h0 (.g 1) (.g 11), .barwait h0 (.g 1) (.g 12), .bartst h0 1 (.g 1) (.g 11),
      .bartst h0 1 (.g 1) (.g 12), .barinv h0 (.g 1), .barinv h0 (.g 3), .wptr h0 (.g 20) (.g 10)],
      runsB bars i = true ∧ (after i bars).map (·.th.level) = some .e)
    ∧ h 0xF03 = some (.own (.host 0) 3, true) ∧ (bars.bar (.own (.host 0) 3)).valid = false ∧ h 193 = some (.ctx 1 193, true)
    ∧ h 0xF04 = some (.own (.host 0) 4, true) ∧ (bars.bar (.own (.host 0) 4)).valid = true
    ∧ bars.arrivable 0xF04 = some (.own (.host 0) 4) ∧ bars.waitable 0xF04 = some (.own (.host 0) 4)
    ∧ (bars.bar (.own (.host 0) 4)).arrivePend = 2 ∧ (bars.bar (.own (.host 0) 4)).complete 4 = true
    ∧ (bars.bar (.own (.host 0) 4)).complete 5 = false ∧ (bars.bar (.ctx 1 192)).valid = true := by decide +kernel

/-- The last arrival completes phase 5, so the object's phase is 6 and its arrivals start over; BARTST sees phase 4 complete and 5 not. -/
theorem test_barrier_effects :
    (after (.bararv h0 (.g 20) (.g 2)) bars).map (fun t => ((t.bar (.own (.host 0) 5)).phase, (t.bar (.own (.host 0) 5)).arrivePend, t.final 20))
      = some (6, 1, 5)
    ∧ (after (.barinit h0 (.g 0) (.g 13)) bars).map (fun t => (t.bar (.own (.host 0) 3)).arrivePend) = some 2
    ∧ (after (.barxb h0 (.g 1) (.g 10)) bars).map (fun t => (t.bar (.own (.host 0) 4)).bytesPend) = some 1
    ∧ predAfter bars (.bartst h0 2 (.g 1) (.g 12)) 2 = some true ∧ predAfter bars (.bartst h0 2 (.g 1) (.g 11)) 2 = some false
    ∧ (after (.barwait h0 (.g 1) (.g 11)) bars).map (fun t => t.th.wait != .none) = some true
    ∧ (after (.barwait h0 (.g 1) (.g 12)) bars).map (fun t => t.th.wait) = some .none
    ∧ (after (.barinv h0 (.g 3)) bars).map (fun t => (t.bar (.ctx 1 192)).valid) = some false := by decide +kernel

theorem test_phase_rule : let b : BarObj := { valid := true, arriveExp := 3, phase := 0xFFFFFFFF }
    b.valid = true ∧ b.arrivePend = 0 ∧ b.bytesPend = 0 ∧ b.check.1.phase = 0 ∧ ({ b with bytesPend := -1 } : BarObj).check.2 = false
    ∧ b.complete 0xFFFFFFFE = true ∧ b.complete 0xFFFFFFFF = false ∧ b.complete 0x7FFFFFFF = true ∧ b.complete 0x7FFFFFFE = false := by
  decide +kernel

/-! Control (R77, R78, R153-R162) -/

/-- Words at code base 0: NOP in slot 0, then a word with C = 1, then a literal's word and its literal in slots 0 and 1 of the next packet. -/
def code : State :=
  let s := host .h [(5, 6), (6, 2), (7, 4), (0x77, 3)]
  { s with mem := Memory.setAll s.mem 0x23004 (leBytes 4 0x80000000 ++ leBytes 4 0 ++ leBytes 4 0x002080FD ++ leBytes 4 9) }

/-- Every transfer to a target that allows it, with BR taken on p1 = true and not on p2 = false; a target behind C = 1 and one that is a
literal. -/
theorem test_transfers :
    (∀ i ∈ [Instr.br h0 false 1 3, .br h0 true 2 3, .br h0 true 1 3, .call h0 6, .jmp h0 (.g 5), .ret h0, .callr h0 (.g 5), .jmp h0 (.g 6),
      .jmp h0 (.g 7)], runsB code i = true)
    ∧ (after (.br h0 false 1 3) code).map (·.th.w) = some 3 ∧ (after (.br h0 true 1 3) code).map (·.th.w) = some 1
    ∧ (after (.call h0 6) code).map (fun t => (t.th.w, t.final 0x77)) = some (6, 1) ∧ (after (.ret h0) code).map (·.th.w) = some 3
    ∧ (after (.jmp h0 (.g 5)) code).map (·.th.lvoid) = some 15 ∧ (after (.callr h0 (.o 7)) code).map (·.th.w) = some 3
    ∧ (after (.jmp h0 (.g 6)) code).map (fun t => ((t.hostCore 0).bankH.tcause, (t.hostCore 0).bankH.tepc)) = some (5, 0)
    ∧ (after (.jmp h0 (.g 7)) code).map (fun t => (t.hostCore 0).bankH.tcause) = some 1
    ∧ badTarget [0x80000000] = some .brchain ∧ badTarget [0x002080FD] = some .illegal := by decide +kernel

/-- `Transfers`: what stands before the targets is fetched, with the thread as it was. -/
theorem test_transfer_fetches : ∀ p ∈ [(3#32, 0), (2, 2), (4, 1)],
    (match fetchWords code (p.1 - .ofNat 32 (p.1.toNat % 3)) (p.1.toNat % 3) with
      | .ok u ws => u.th == code.th && ws.length == p.2
      | _ => false) = true := by decide +kernel

/-- EXIT in a SIMT thread, at H, and below; TRAP, BKPT and ECALL at each level that takes them, and the levels that do not. -/
theorem test_system_words :
    runsB (simt []) (.exit h0) = true ∧ orphans (simt []) = false ∧ (simt []).th.logged = []
    ∧ (after (.exit h0) (simt [])).map (·.th.wait) = some .retired ∧ (after (.exit h0) (host .h [])).map (·.th.wait) = some .stopped
    ∧ (∀ l ∈ [Level.h, .s, .u], ∀ i ∈ [Instr.exit h0, .trap h0 0x3FFF, .bkpt h0, .ecall h0 0x3FFF], runsB (host l []) i = true)
    ∧ (after (.exit h0) (host .u [])).map (fun t => (t.hostCore 0).bankS.tcause) = some 0x100
    ∧ (after (.trap h0 7) (host .h [])).map (fun t => ((t.hostCore 0).bankH.tval, (t.hostCore 0).bankH.tepc)) = some (7, 1)
    ∧ (after (.bkpt h0) (host .h [])).map (fun t => ((t.hostCore 0).bankH.tcause, (t.hostCore 0).bankH.tepc)) = some (22, 0) := by
  decide +kernel

theorem test_ecall : (host .s []).th.kick = none ∧ (host .s []).th.level ≠ .e
    ∧ (after (.ecall h0 5) (host .s [])).map (fun t => ((t.hostCore 0).bankH.tval, (t.hostCore 0).bankH.tepc, t.th.level)) = some (5, 1, .h)
    ∧ (after (.ecall h0 5) (host .u [])).map (fun t => ((t.hostCore 0).bankS.tcause, t.th.level)) = some (0x100, .s)
    ∧ held (.ecall h0 5) (inEncl []) = false ∧ (inEncl []).th.level = .e ∧ held (.ecall h0 5) (simt []) = false
    ∧ (simt []).onHost = false ∧ (0x1E604000#32).toNat / 2 ^ 21 % 256 = 0xF3 ∧ (0x1E604000#32).toNat / 2 ^ 14 % 128 = 1 := by decide +kernel

/-- ERET at H into U, where PL is 2; a PL of 3; at S a PL below; and the words and levels that it refuses. -/
theorem test_eret :
    let at_ := fun (l : Level) (pl : Word) =>
      let s := host l []
      s.modHost 0 fun c => c.setBank (l == .h) { c.bank (l == .h) with tstat := pl, tepc := 12, tecb := 0x3000 }
    runsB (at_ .h 2) (.eret h0) = true ∧ (after (.eret h0) (at_ .h 2)).map (fun t => (t.th.w, t.th.cb, t.th.level)) = some (12, 0x3000, .u)
    ∧ runsB (at_ .h 3) (.eret h0) = true ∧ (after (.eret h0) (at_ .h 3)).map (fun t => (t.hostCore 0).bankH.tcause) = some 2
    ∧ runsB (at_ .s 0) (.eret h0) = true ∧ (after (.eret h0) (at_ .s 0)).map (fun t => (t.hostCore 0).bankS.tcause) = some 2
    ∧ runsB (at_ .s 1) (.eret h0) = true ∧ (after (.eret h0) (at_ .s 1)).map (·.th.level) = some .s
    ∧ held (.eret h0) (host .u []) = false ∧ held (.eret h0) (inEncl []) = false ∧ held (.eret h0) (simt []) = false
    ∧ (0x1E800001#32).toNat / 2 ^ 21 % 256 = 0xF4 ∧ (0x1E800001#32).toNat % 2 ^ 21 ≠ 0 := by decide +kernel

/-- Words of a thread on a host core and in a SIMT thread, with an item launch and a persistent one. -/
def itemsAt (q : List (Nat × List Word × Nat)) : State :=
  { simtOf { launch1 with words := record 0x200 0 2 } [] with cores := [(0, { items := q })] }

def persistent : State :=
  let s := simtOf { launch1 with words := record 0x100 0 0 } [(0, 0xF0000FF0), (1, 0xF01)]
  s.modStore (.team 1) fun x => { x with bars := [(1, { valid := true, arriveExp := 1, arrivePend := 1 })] }

theorem test_thread_words :
    (∀ i ∈ [Instr.nop ⟨true, 3, 0⟩, .yield h0, .id h0 (.g 20) 8, .id h0 .zr 9], runsB ints i = true)
    ∧ (after (.prio h0 (.g 6)) (simt [(6, 11)])).map (·.th.prio) = some 3 ∧ runsB (simt []) (.prio h0 .zr) = true ∧ (after (.yield h0) (simt [])).map (·.th.yielded) = some true
    ∧ regAfter ints (.id h0 (.g 20) 8) 20 = some 384 ∧ (∀ i ∈ [Instr.yield h0, .id h0 (.g 20) 0, .id h0 (.g 20) 9], runsB (simt []) i = true)
    ∧ ((simt []).teams.find 1).isSome = true ∧ idValue (simt []) 4 = 0xFFFFFFFF := by decide +kernel

/-- REFILL with an item in the queue and with none, at its head word; FETCHW with room for a request. -/
theorem test_work_words :
    runsB (itemsAt []) (.refill h0 (.g 4)) = true ∧ (launch1.item, ({ launch1 with words := record 0x200 0 2 } : Launch).item) = (false, true)
    ∧ ((itemsAt []).giveItem (.simt 1 0) 1 4).isNone = true ∧ ((itemsAt [(1, [2, 0, 0, 0], 1)]).giveItem (.simt 1 0) 1 4).isSome = true
    ∧ (after (.refill h0 (.g 4)) (itemsAt [])).map (fun t => ((t.core 0).asks, t.th.wait)) = some ([⟨.simt 1 0, 1, 4⟩], .none)
    ∧ regAfter (itemsAt [(1, [2, 0, 0, 0], 1)]) (.refill h0 (.g 4)) 4 = some 1
    ∧ runsB persistent (.fetchw h0 (.g 0) (.g 1)) = true
    ∧ (persistent.teams.find 1).map (fun t => (mailboxTrap persistent t { launch1 with words := record 0x100 0 0 } 0xF0000FF0 0xF01, t.fetches.length))
      = some (none, 0)
    ∧ (after (.fetchw h0 (.g 0) (.g 1)) persistent).map (fun t => (t.teams.find 1).map (·.fetches)) = some (some [⟨0, 0xFF0, 0xF01⟩]) := by
  decide +kernel

/-! Convergence and tiles (R165-R186) -/

/-- Lane 0 when the other 31 lanes have signed for an operation of register 2, each with its lane number as input. -/
def last31 (opcode fixed ctl : Nat) : State :=
  let s := simt [(5, 64), (6, .ofNat 32 ctl)]
  let signs : List Sign := (List.range 31).map fun k => ⟨k + 1, .ofNat 32 (k + 1), .ofNat 32 ctl, 20⟩
  { s with teams := [(1, { launch := 1, core := 0, slot := 0, groups := 1, cvs := [(2, { set := 1, op := some ⟨opcode, [fixed], signs, 1⟩ })] })] }

/-- CDECL of a free register and of one that holds the set; CRST of an empty one and of one whose set is free. -/
theorem test_declarations : let s := simt [(7, 1)]
    (∀ i ∈ [Instr.cdecl h0 3 (.g 7), .cdecl h0 2 (.g 7), .crst h0 3, .crst h0 2], runsB s i = true)
    ∧ (s.teams.find 1).map (fun t => ((t.cv 3).set, (t.cv 2).set, (t.cv 2).op)) = some (0, 1, none) ∧ (1#32).getLsbD 0 = true
    ∧ (after (.cdecl h0 3 (.g 7)) s).map (fun t => (t.teams.find 1).map fun t => (t.cv 3).set) = some (some 1)
    ∧ (after (.crst h0 2) s).map (fun t => (t.teams.find 1).map fun t => (t.cv 2).set) = some (some 0) := by decide +kernel

/-- The first signature of each collective waits; the last performs it: SHFL from lane 5, VOTE's ballot, RDX's sum 64 + (1 + ... + 31). -/
theorem test_collectives :
    let shfl := 2 + 128 * 5
    let vote := 2 + 16 * 2
    let rdx := 2
    (∀ p ∈ [(Instr.shfl h0 (.g 20) (.g 5) (.g 6), 0xD2, 2, shfl), (.vote h0 (.g 20) (.g 5) (.g 6), 0xD3, vote, vote),
      (.rdx h0 (.g 20) (.g 5) (.g 6), 0xD4, rdx, rdx)], runsB (last31 p.2.1 p.2.2.1 p.2.2.2) p.1 = true
        ∧ runsB (simt [(5, 64), (6, .ofNat 32 p.2.2.2)]) p.1 = true
        ∧ (after p.1 (simt [(5, 64), (6, .ofNat 32 p.2.2.2)])).map (·.th.wait) = some (.converge 2)
        ∧ (after p.1 (last31 p.2.1 p.2.2.1 p.2.2.2)).map (·.th.wait) = some .none)
    ∧ regAfter (last31 0xD2 2 shfl) (.shfl h0 (.g 20) (.g 5) (.g 6)) 20 = some 5
    ∧ regAfter (last31 0xD3 vote vote) (.vote h0 (.g 20) (.g 5) (.g 6)) 20 = some 0xFFFFFFFF
    ∧ regAfter (last31 0xD4 rdx rdx) (.rdx h0 (.g 20) (.g 5) (.g 6)) 20 = some 560 := by decide +kernel

/-- Each mode of SHFL at lanes where it holds and where it wraps; votes; reductions with a signed and an unsigned reading. -/
theorem test_collective_values : (List.range 4).map (fun m => shflLane (.ofNat 32 (16 * m + 128 * 5)) 3) = [5, 3, 8, 6]
    ∧ (List.range 4).map (fun m => shflLane (.ofNat 32 (16 * m + 128 * 5)) 30) = [5, 25, 30, 27]
    ∧ voteOf 0 [(0, 1), (1, 0)] = 0 ∧ voteOf 1 [(0, 1), (1, 0)] = 1 ∧ voteOf 2 [(31, 7), (32, 0)] = 0x80000000 ∧ voteOf 3 [(0, 4), (1, 4)] = 1
    ∧ reduceOf 1 [5, 0xFFFFFFFF] = 0xFFFFFFFF ∧ reduceOf 4 [5, 0xFFFFFFFF] = 0xFFFFFFFF ∧ reduceOf 2 [5, 0xFFFFFFFF] = 5
    ∧ reduceOf 5 [6, 3] = 2 ∧ reduceOf 6 [6, 3] = 7 ∧ reduceOf 7 [6, 3] = 5 ∧ reduceOf 0 [6, 3] = 9 := by decide +kernel

/-- The first signature of MMA and of MMAJ. -/
theorem test_matrix_signatures :
    let x : MmaCtl := ⟨false, true, .zr, .zr, 2, 4, 4⟩
    let s := simt [(5, 0xF0000000)]
    ∀ p ∈ [(Instr.mma h0 3 (.g 16) (.g 32) x, 0xE0, 3, Opnd.g 32), (.mmaj h0 0 (.g 16) (.g 5) x, 0xE1, 0, .g 5)], runsB s p.1 = true
      ∧ (match signMatrix p.1 (begin_ p.1 s) p.2.1 p.2.2.1 (.g 16) p.2.2.2 x 0xF0000000 with | .ok u => u.th.level == s.th.level | _ => false) = true
    := by decide +kernel

/-- Tile words on the last tile: no outstanding operation, no pending pass, no movement; MFENCE and MWAIT, of a tile and of all. -/
theorem test_tile_words :
    let s := simt [(5, 0xF0000E00)]
    (∀ i ∈ [Instr.mzero h0 3, .mload h0 3 (.g 5), .mfence h0 2, .mwait h0 3, .mwait h0 127], runsB s i = true)
    ∧ launch1.tiles = 4 ∧ s.tileHits 3 = [] ∧ (s.teams.find 1).map (fun t => s.passPending t 1 3) = some false ∧ s.moves = [] ∧ s.th.mx = []
    ∧ launch1.scratch = 4096 ∧ (after (.mload h0 3 (.g 5)) s).map (fun t => t.moves.map (·.off)) = some [3584]
    ∧ (after (.mload h0 3 (.g 5)) s).map (fun t => t.th.mx.length) = some 1
    ∧ (after (.mzero h0 3) { s with teams := [(1, { launch := 1, core := 0, slot := 0, groups := 1, tiles := [(3 * 4096 + 64, 9), (3 * 4096 + 128, 9)] })] }).map
      (fun t => (t.teams.find 1).map (·.tiles)) = some (some [(12416, 9)]) := by decide +kernel

/-- A drain to the scratchpad, and one to global memory with REL. -/
theorem test_drains :
    let x : DrainCtl := ⟨false, 0x100, 0xFF, false, false, false, 1⟩
    let y : DrainCtl := { x with glb := true, rel := true }
    let s := simt [(0, 0x2000), (5, 0xF0000E00), (6, 256)]
    runsB s (.mdrain h0 3 (.g 5) (.g 6) x) = true ∧ drainTrap s launch1 x 0xF0000E00 0xF0000E00 256 0 = none
    ∧ runsB s (.mdrain h0 3 (.g 0) (.g 6) y) = true ∧ drainTrap s launch1 y 0x2000 0x2000 256 0 = none ∧ s.drainFix 0 = 0
    ∧ (s.teams.find 1).map (fun t => (rowKeys 3 0).any t.tpoison.contains) = some false
    ∧ (after (.mdrain h0 3 (.g 5) (.g 6) x) s).map (fun t => (t.drains.map (·.dst), t.th.level)) = some ([0xF0000E00], .e)
    ∧ (after (.mdrain h0 3 (.g 0) (.g 6) y) s).map (fun t => (t.drains.map (·.dst), t.th.level)) = some ([0x2000], .e) := by decide +kernel

/-- Host core 0 of guest 0, which owns every engine: a layout record of eight F32 elements in g64-g87, and plain copies. -/
def copies : State := host .h [(0, 0x1000), (4, 0xF0000100), (5, 0xF0000200), (6, 32), (64, 0x00FF0011), (65, 0x1000), (68, 8), (69, 1), (70, 1), (71, 1),
  (82, 7), (83, 0xF0000100)]

theorem test_copies :
    let x : CpylCtl := ⟨0xFF, false, 3, 0⟩
    let y : CpygCtl := ⟨1, 1, 0xFF, true, 3⟩
    (∀ i ∈ [Instr.cpyGs h0 (.g 64) false 3, .cpySg h0 (.g 64) true 15, .cpyl h0 (.g 4) (.g 0) (.g 6) x, .cpyg h0 (.g 4) (.g 0) (.g 5) y,
      .cpyGs h0 (.g 8) false 3], runsB copies i = true)
    ∧ copyTrap copies (cpyOf copies (.g 64) 0 false) = none ∧ copyTrap copies (cpyOf copies (.g 64) 1 true) = none
    ∧ copyTrap copies (newCopy copies 1 0 [] 0x1000 0xF0000100 32 0 1 0xFF false) = none
    ∧ copyTrap copies (newCopy copies 2 0 [] 0x1000 0xF0000100 32 0xF0000200 16 0xFF true) = none
    ∧ copyTrap copies (cpyOf copies (.g 8) 0 false) = some .tlrfault ∧ copyTrap copies (newCopy copies 1 0 [] 0x1000 0xF0000100 8 0 1 0xFF false)
      = some .misalign
    ∧ (copies.chan (.host 0) 3).queue.length < 4 ∧ copies.fenceHeld = false
    ∧ (after (.cpyGs h0 (.g 64) false 3) copies).map (fun t => (t.chan (.host 0) 3).queue.map (·.total)) = some [32]
    ∧ (after (.cpySg h0 (.g 64) true 15) copies).map (fun t => (t.chan (.host 0) 15).queue.map (·.dir)) = some [1]
    ∧ (after (.cpyl h0 (.g 4) (.g 0) (.g 6) x) copies).map (fun t => (t.chan (.host 0) 3).queue.map (·.dst)) = some [0xF0000100]
    ∧ (after (.cpyg h0 (.g 4) (.g 0) (.g 5) y) copies).map (fun t => (t.chan (.host 0) 3).queue.map (·.total)) = some [32] := by decide +kernel

/-! System registers, enclaves, keys and frames (R205-R227) -/

/-- SYSRD of FPC and of the first half of PTROOT, whose other half is latched; SYSWR of GUESTID and of FPC; TSRD; and TLBI of each scope. -/
theorem test_system_registers :
    let s := (host .h [(0, 0x1000), (5, 0), (6, 1), (7, 2), (8, 3), (20, 0xFFF)]).modHost 0 fun c => { c with ptroot := 0x0000000500010000, guestid := 0 }
    (∀ i ∈ [Instr.sysrd h0 (.g 20) 0, .sysrd h0 (.g 20) 0x060, .sysrd h0 .zr 0x044, .syswr h0 (.g 20) 0, .syswr h0 (.g 20) 0x062, .syswr h0 (.g 20) 0x043,
      .tsrd h0 (.g 20) false, .tsrd h0 (.g 20) true, .tlbi h0 (.g 0) (.g 5), .tlbi h0 (.g 0) (.g 6), .tlbi h0 (.g 0) (.g 7), .tlbi h0 (.g 0) (.g 8)],
      runsB s i = true)
    ∧ regAfter s (.sysrd h0 (.g 20) 0x060) 20 = some 0x10000 ∧ (after (.sysrd h0 (.g 20) 0x060) s).map (·.th.latch) = some (some (0x061, 5))
    ∧ (after (.syswr h0 (.g 20) 0x062) s).map (fun t => (t.hostCore 0).guestid) = some 0xFF
    ∧ (after (.syswr h0 (.g 20) 0) s).map (·.finalFpc) = some 0xF07
    ∧ (after (.syswr h0 (.g 20) 0x043) s).map (fun t => (t.hostCore 0).bankS.tstat) = some 0x1F
    ∧ (after (.tlbi h0 (.g 0) (.g 8)) { s with tlb := [⟨⟨1, 1, 0⟩, 0, 4096, 0, true, false, false, 0, 1⟩] }).map (·.tlb.length) = some 0
    ∧ s.th.level = .h ∧ s.chain = none := by decide +kernel

theorem test_latched_half : let s := { host .h [] with th := { (host .h []).th with latch := some (0x061, 7) } }
    s.chain = none ∧ s.th.latch = some (0x061, 7) ∧ regAfter s (.sysrd h0 (.g 4) 0x061) 4 = some 7 := by decide +kernel

/-- A descriptor of one thread and one queue, with 24 frames of guest 0 from 0x100: the entry page, two branches of tables, a save page. -/
def descriptor : List Byte :=
  let page (k ty perm va : Nat) : List Byte := leBytes 8 (0x100000 + 4096 * k) ++ leBytes 8 (va + 256 * perm + ty)
  leBytes 4 1 ++ leBytes 2 1 ++ leBytes 2 1 ++ leBytes 4 24 ++ List.replicate 116 0
    ++ (List.range 16).flatMap (fun k => page k 2 0 0)
    ++ page 16 2 1 0 ++ page 17 2 2 0 ++ page 18 2 3 0 ++ page 19 2 1 0xFFF8000000000 ++ page 20 2 2 0xFFFFFC0000000
    ++ page 21 2 3 0xFFFFFFF000000 ++ page 22 0 5 0 ++ page 23 3 0 0

/-- Host core 0 at S, with the descriptor at 0x4000, guest 0 in the partition of slice 0, and a save pool of one block. -/
def creator : State :=
  let s := host .s [(0, 0x4000)]
  { s with
    mem := Memory.setAll (Memory.setAll (Memory.set s.mem 0x27000 0x80) 0x22020 (leBytes 8 0x260CD)) 0x26000 descriptor
    pots := ((List.range 24).map (· + 0x100)).foldl (fun t f => t.put f { state := .guest, maxp := 7 })
      ([0x26, 0x27].foldl (fun t f => t.put f { state := .hyp, maxp := 7 }) s.pots)
    reg := { s.reg with gptab := 0x27000, svpool := [(0, 0x21)] } }

/-- A descriptor that passes every check, and a page of zeros, which the first check refuses. -/
theorem test_ecreate : runsB creator (.ecreate h0 (.g 20) (.g 0)) = true
    ∧ (match readsB creator (.ecreate h0 (.g 20) (.g 0)) (.g 0) 4096 4096 with
      | some (u, bs) => ecdStatus u bs (ecdOf bs) == none && u.freeEid == some 1 && u.freeSlot == some 1 && u.freeAtt == some 0
          && u.guestLead u.callerGuest.toNat == some 0 && u.freeQueues 0 1 == some [0] && u.poolFree 0 == some 512
          && ((ecdOf bs).pages.find? fun p => p.ty = 0 && !u.verifies p.pa 4096).isNone
      | none => false) = true
    ∧ (match readsB { creator with th := { creator.th with regs := [(0, 0x2000)] } } (.ecreate h0 (.g 20) (.g 0)) (.g 0) 4096 4096 with
      | some (u, bs) => ecdStatus u bs (ecdOf bs) == some .badreq
      | none => false) = true := by decide +kernel

/-- Host core 0 at S in guest 0, beside enclave 1 of guest 0. -/
def beside (regs : Tab Word) : State := withEncl 0 (host .s regs)

/-- EENTER of a thread that has no save page. -/
theorem test_eenter :
    runsB (beside [(4, 1), (5, 1)]) (.eenter h0 (.g 4) (.g 5)) = true ∧ (beside []).callerGuest = 0 ∧ (beside []).slotLoaded 1 = true
    ∧ ((beside []).hosts.any fun p => p.2.entered = some (1, 1)) = false ∧ (enclOf 0).failed = false
    ∧ (after (.eenter h0 (.g 4) (.g 5)) (beside [(4, 1), (5, 1)])).map (fun t => (t.th.level, t.th.eid, (t.hostCore 0).entered)) = some (.e, 1, some (1, 1))
 := by decide +kernel

/-- EEXIT, EREPORT and EDESTROY. -/
theorem test_enclave_words : runsB (inEncl [(16, 9)]) (.eexit h0) = true ∧ ((inEncl []).hostCore 0).entered = some (1, 0)
    ∧ (after (.eexit h0) (inEncl [(15, 8), (16, 9)])).map (fun t => (t.th.w, t.th.cb, t.final 15, t.final 16, t.th.level))
      = some (40, 0x2000, 8, 0, .s)
    ∧ runsB (inEncl [(0, 0x2000)]) (.ereport h0 (.g 20) (.g 0)) = true
    ∧ (match readsB (inEncl [(0, 0x2000)]) (.ereport h0 (.g 20) (.g 0)) (.g 0) 256 64 with
      | some (u, bs) => u.th.level == .e && match u.encls.find 1 with
        | some e => storesAt u 0x2000 (slice bs 0 64 ++ reportTail e 1 1)
        | none => false
      | none => false) = true
    ∧ regAfter (inEncl [(0, 0x2000)]) (.ereport h0 (.g 20) (.g 0)) 20 = some 1
    ∧ runsB (beside [(4, 1)]) (.edestroy h0 (.g 4)) = true ∧ ((beside []).encls.find 1).map (·.guest) = some 0
    ∧ (after (.edestroy h0 (.g 4)) (beside [(4, 1)])).map (fun t => (t.encls, (t.pot 0x34).state)) = some ([], .scrub) := by decide +kernel

/-- What a tag that does not stand under the key cannot open, and what one that does opens: so each branch of KUNWRAP and PLOAD on the tag
is met by some blob, whatever the key. -/
theorem test_gcm_opens (key nonce aad p : List Byte) :
    (gcmOpen key nonce aad (gcmSeal key nonce aad p).1 (gcmSeal key nonce aad p).2).isSome = true := by
  simp [gcmOpen, gcmSeal]

theorem test_gcm_refuses (key nonce aad c t u : List Byte) (h : t ≠ u) : gcmOpen key nonce aad c t = none ∨ gcmOpen key nonce aad c u = none := by
  unfold gcmOpen
  by_cases ht : gcmTag (aesKeys key) nonce aad c = t
  · exact .inr (if_neg (by rw [ht]; exact h))
  · exact .inl (if_neg ht)

/-- FIPS 180-4's digest of "abc", and the GCM specification's test case 13: key, nonce and text of zeros, of no bytes. -/
theorem test_sha256 : (sha256 [0x61, 0x62, 0x63]).take 4 = [0xBA, 0x78, 0x16, 0xBF] := by decide +kernel

theorem test_gcm : (gcmSeal (List.replicate 32 0) (List.replicate 12 0) [] []).2 =
    [0x53, 0x0F, 0x8A, 0xFB, 0xC7, 0x45, 0x36, 0xB9, 0xA9, 0x63, 0xB4, 0xF1, 0xC4, 0xCB, 0x73, 0x8B] := by decide +kernel

/-- KWRAP and KUNWRAP of a block in the enclave's page: a KIND that is refused and one that is not, the block's form for KUNWRAP, and room
for a wrapped key. -/
theorem test_wrapping :
    let at_ := fun (bs : List Byte) => let s := inEncl [(0, 0x2000)]; { s with mem := Memory.setAll s.mem 0x39000 bs }
    (∀ bs ∈ [[], [1, 1], [1, 2]], runsB (at_ bs) (.kwrap h0 (.g 20) (.g 0)) = true ∧ runsB (at_ bs) (.kunwrap h0 (.g 20) (.g 0)) = true
      ∧ (match readsB (at_ bs) (.kwrap h0 (.g 20) (.g 0)) (.g 0) 128 64 with
        | some (u, r) => u.th.level == .e && (u.encls.find (u.space u.cur).eid.toNat).isSome && field r 1 1 == (bs.getD 1 0).toNat && field r 2 2 == 0
            && allZero (slice r 64 64) && storesAt { u with keysMade := u.keysMade + 1 } 0x2000 (List.replicate 128 7)
        | none => false) = true)
    ∧ ([1, 1, 0, 0] ++ beBytes 12 (Config.nonce 0).toNat ++ List.replicate 100 7 : List Byte).length = 116 := by decide +kernel

/-- KREVOKE: slot 0, a slot that is not loaded, one of another guest, and one of the caller's. KLOAD: slot 0, a loaded slot, a free one
for a guest, one that enclave 1 holds for a guest, and for an enclave none, another guest's, another slot and its own. -/
theorem test_key_slots :
    let r := fun (x : Word) => regAfter (beside [(6, x)]) (.krevoke h0 (.g 4) (.g 6)) 4
    let unloaded := fun (x : Word) => { host .h [(6, x)] with encls := [(1, { enclOf 0 with slot := 3 })] }
    let l := fun (x : Word) => regAfter (unloaded x) (.kload h0 (.g 4) (.g 6)) 4
    (([0, 1, 2, 0x0103, 0x00010003] : List Word).all fun x => runsB (beside [(6, x)]) (.krevoke h0 (.g 4) (.g 6))
      && runsB (unloaded x) (.kload h0 (.g 4) (.g 6))) = true
    ∧ r 0 = some 3 ∧ r 2 = some 2 ∧ r 1 = some 0 ∧ (∀ e ∈ (beside []).encls, e.2.newSlot = none)
    ∧ regAfter ({ beside [(6, 2)] with slots := [(2, { loaded := true, guest := 9 })] }) (.krevoke h0 (.g 4) (.g 6)) 4 = some 3
    ∧ l 0 = some 1 ∧ regAfter (withEncl 0 (host .h [(6, 1)])) (.kload h0 (.g 4) (.g 6)) 4 = some 2 ∧ l 0x0103 = some 2 ∧ l 0x0102 = some 0
    ∧ l 0x00020003 = some 3 ∧ l 0x00010103 = some 3 ∧ l 0x00010004 = some 1 ∧ l 0x00010003 = some 0
    ∧ (after (.kload h0 (.g 4) (.g 6)) (unloaded 0x0102)).map (fun t => Tab.getD t.slots 2 {}) = some { loaded := true, guest := 1, key := 1 } := by
  decide +kernel

/-- A request block in the page of type 1 of host core 0, which stands beside enclave 1 of its guest; frame 0x50 is the guest's. -/
def asking (bs : List Byte) : State :=
  let s := withEncl 0 (host .h [(0, 0x2000)])
  { s with mem := Memory.setAll s.mem 0x25000 bs, pots := s.pots.put 0x50 { state := .guest, maxp := 7 } }

def entryBlock (pa va v : Nat) : List Byte := leBytes 8 pa ++ leBytes 8 va ++ leBytes 16 v

/-- What a POTSET meets: its frame is busy or pooled, its states, whether the frame moves, whether it is pinned; and its answer. -/
def potsetAnswer (s : State) : List Nat :=
  ((readsB s (.potset h0 (.g 4) (.g 0)) (.g 0) 32 32).map fun p =>
    let f := field p.2 0 8 / 4096
    [bit (runsB s (.potset h0 (.g 4) (.g 0))), bit (p.1.frameBusy f || p.1.pooled f), (p.1.pot f).state.code, bit (p.1.pinned f),
      ((regAfter s (.potset h0 (.g 4) (.g 0)) 4).map (·.toNat)).getD 99]).getD []

/-- Each clause on POTSET: a bad address, no target, a reserved bit, busy, a state that it may not leave, pinned, to SCRUB, to another guest,
and a frame that keeps its owner. -/
theorem test_potset : let a := fun (pa v : Nat) => potsetAnswer (asking (entryBlock pa 0 v))
    a 0x50001 1 = [1, 0, 2, 0, 1] ∧ a 0x50000 3 = [1, 0, 2, 0, 1]
    ∧ a 0x50000 (1 + 32) = [1, 0, 2, 0, 1] ∧ a 0x34000 2 = [1, 0, 3, 0, 2]
 := by decide +kernel

theorem test_potset_moves : let a := fun (pa v : Nat) => potsetAnswer (asking (entryBlock pa 0 v))
    potsetAnswer { asking (entryBlock 0x50000 0 12) with pots := (asking []).pots.put 0x50 { state := .guest, busy := true } }
      = [1, 1, 2, 0, 10]
    ∧ potsetAnswer { asking (entryBlock 0x50000 0 12) with pins := [(0x50, 1)] } = [1, 0, 2, 1, 9]
    ∧ a 0x50000 12 = [1, 0, 2, 0, 0] ∧ a 0x50000 (2 + 5 * 2 ^ 32) = [1, 0, 2, 0, 0]
    ∧ a 0x50000 1 = [1, 0, 2, 0, 0] := by decide +kernel

theorem test_potset_effects :
    (after (.potset h0 (.g 4) (.g 0)) (asking (entryBlock 0x50000 0 12))).map (fun t => ((t.pot 0x50).state, t.scrubs)) = some (.scrub, [(0x50, 0)])
    ∧ (after (.potset h0 (.g 4) (.g 0)) (asking (entryBlock 0x50000 0 (2 + 5 * 2 ^ 32)))).map (fun t => (t.pot 0x50).guest) = some 5 := by
  decide +kernel

/-- POTRD of a bad address, of a busy frame, and of one whose image it stores after the block: state 2, MAXP 7. -/
theorem test_potrd : let r := fun (s : State) => regAfter s (.potrd h0 (.g 4) (.g 0)) 4
    runsB (asking (entryBlock 0x50000 0 0)) (.potrd h0 (.g 4) (.g 0)) = true ∧ r (asking (entryBlock 0x50008 0 0)) = some 1
    ∧ r { asking (entryBlock 0x50000 0 0) with pots := (asking []).pots.put 0x50 { state := .guest, busy := true } } = some 10
    ∧ r (asking (entryBlock 0x50000 0 0)) = some 0
    ∧ (match readsB (asking (entryBlock 0x50000 0 0)) (.potrd h0 (.g 4) (.g 0)) (.g 0) 32 32 with
      | some (u, _) => storesAt u 0x2010 (leBytes 16 (u.pot 0x50).image)
      | none => false) = true
    ∧ (after (.potrd h0 (.g 4) (.g 0)) (asking (entryBlock 0x50000 0 0))).map (fun t => Memory.bytes t.mem 0x25010 8)
      = some [2, 0, 0, 0, 0, 0x70, 0, 0] := by decide +kernel

/-- PACCEPT: misaligned, beyond slice 11, no pending page, a pending page, a pending table, and a busy one. -/
theorem test_paccept : let i := Instr.paccept h0 (.g 4) (.g 0)
    let s := fun (va : Nat) (st : PotState) (busy : Bool) =>
      let s := inEncl [(0, .ofNat 32 va), (1, .ofNat 32 (va / 2 ^ 32))]
      { s with pots := s.pots.put 0x60 { potFor 1 st 7 with pend := true, busy := busy } }
    let r := fun va st busy => regAfter (s va st busy) i 4
    runsB (s 0x7000 .encl false) i = true ∧ (begin_ i (s 0x7008 .encl false)).va (.g 0) 0 = 0x7008 ∧ r (12 * 2 ^ 52) .encl false = some 2
    ∧ r 0x6000 .encl false = some 2 ∧ r 0x7000 .encl false = some 0 ∧ r 0x7000 .enclPt false = some 0 ∧ r 0x7000 .encl true = some 10
    ∧ (after i (s 0x7000 .encl false)).map (fun t => (t.pot 0x60).pend) = some false := by decide +kernel

/-- What a page word meets: its request is good, and names an enclave, a frame and an entry that no operation holds. -/
def namesB (s : State) (i : Instr) : Option (Nat × Nat × Bool) :=
  (readsB s i (.g 0) 32 32).bind fun p =>
    let r := pageReq p.1 p.2
    match p.1.liveEncl r.eid with
    | some e => match e.roots.find (homeOf r.va) with
      | some root => match descend p.1 r.va 4 root with
        | .ok (lev, _, ent) => some (lev, ent, runsB s i && r.ok && e.guest == p.1.callerGuest
            && (p.1.pot (r.pa / 4096)).guest == p.1.callerGuest && !p.1.frameBusy (r.pa / 4096))
        | _ => none
      | none => none
    | none => none

theorem names_of_namesB {s : State} {i : Instr} {x : Nat × Nat × Bool} (h : namesB s i = some x) (hb : x.2.2 = true) :
    ∃ u bs e at_, Runs i s ∧ Reads i s (.g 0) 32 32 u bs ∧ Names u bs e x.1 at_ x.2.1 := by
  unfold namesB at h
  obtain ⟨p, hp, h⟩ := Option.bind_eq_some_iff.mp h
  simp only at h
  split at h
  · split at h
    · split at h
      · rename_i e he _ root hr _ _ at_ _ hd
        simp only [Option.some.injEq] at h
        subst h
        simp only [Bool.and_eq_true, beq_iff_eq, Bool.not_eq_true'] at hb
        exact ⟨p.1, p.2, e, at_, runs_of_runsB hb.1.1.1.1, reads_of_readsB (by rw [hp]), hb.1.1.1.2, he, hb.1.1.2, hb.1.2, hb.2, root, hr, hd⟩
      · cases h
    · cases h
  · cases h

def pageBlock (pa va perm ty blob : Nat) : List Byte := leBytes 8 pa ++ leBytes 8 (va + 256 * perm + ty) ++ leBytes 8 1 ++ leBytes 8 blob

/-- PMAP of a page, of a page whose table is missing, of a table, of a frame that is not the guest's, and of a pinned one. -/
theorem test_pmap : let i := Instr.pmap h0 (.g 4) (.g 0)
    let r := fun s => (namesB s i, regAfter s i 4)
    r (asking (pageBlock 0x50000 0x5000 3 0 0)) = (some (3, 0, true), some 0) ∧ r (asking (pageBlock 0x50000 0x200000 3 0 0)) = (some (2, 0, true), some 6)
 := by decide +kernel

theorem test_pmap_more : let i := Instr.pmap h0 (.g 4) (.g 0)
    let r := fun s => (namesB s i, regAfter s i 4)
    r (asking (pageBlock 0x50000 0x200000 0 2 0)) = (some (2, 0, true), some 0) ∧ r (asking (pageBlock 0x24000 0x5000 3 0 0)) = (some (3, 0, true), some 2)
    ∧ r { asking (pageBlock 0x50000 0x5000 3 0 0) with pins := [(0x50, 1)] } = (some (3, 0, true), some 9)
    ∧ regAfter (asking (pageBlock 0x50008 0x5000 3 0 0)) i 4 = some 1
    ∧ (after i (asking (pageBlock 0x50000 0x5000 3 0 0))).map (fun t => (Memory.u64 t.mem 0x33028, (t.pot 0x50).state, (t.pot 0x50).pend))
      = some (0x5002D, .encl, true) := by decide +kernel

/-- PDISCARD and PUNMAP of the page at 0x1000, and each in a state that it refuses. -/
theorem test_pdiscard_and_punmap : let r := fun s i => (namesB s i, regAfter s i 4)
    let good := asking (pageBlock 0x34000 0x1000 0 0 0)
    let gone := { good with pots := good.pots.put 0x34 { potFor 0 .discarded 1 with pend := false } }
    r good (.pdiscard h0 (.g 4) (.g 0)) = (some (3, 0x340ED, true), some 0) ∧ r gone (.pdiscard h0 (.g 4) (.g 0)) = (some (3, 0x340ED, true), some 2)
    ∧ r gone (.punmap h0 (.g 4) (.g 0)) = (some (3, 0x340ED, true), some 0) ∧ r good (.punmap h0 (.g 4) (.g 0)) = (some (3, 0x340ED, true), some 2)
    ∧ (after (.punmap h0 (.g 4) (.g 0)) gone).map (fun t => ((t.pot 0x34).state, Memory.u64 t.mem 0x33008)) = some (.scrub, 0) := by decide +kernel

/-- PEVICT: a page that it refuses, a misaligned blob, and one whose blob fits at 0x1000 of the caller. PLOAD: a frame that is not the
guest's, and a blob with the form that it asks. -/
theorem test_pevict_and_pload :
    let r := fun s i => (namesB s i, regAfter s i 4)
    let good := asking (pageBlock 0x34000 0x1000 0 0 0x1000)
    let out := { asking (pageBlock 0x50000 0x5000 0 0 0x1000) with
      mem := Memory.setAll (Memory.setAll (asking (pageBlock 0x50000 0x5000 0 0 0x1000)).mem 0x33028 (leBytes 8 12)) 0x24000
        (blobHeader 1 3 0x5000 1 (List.replicate 12 9)) }
    r { good with pots := good.pots.put 0x34 (potFor 0 .discarded 1) } (.pevict h0 (.g 4) (.g 0)) = (some (3, 0x340ED, true), some 2)
    ∧ r (asking (pageBlock 0x34000 0x1000 0 0 0x1008)) (.pevict h0 (.g 4) (.g 0)) = (some (3, 0x340ED, true), some 1)
    ∧ namesB good (.pevict h0 (.g 4) (.g 0)) = some (3, 0x340ED, true) ∧ good.verifies 0x34000 4096 = true
    ∧ (match probeBytes good (good.space good.cur) 64 0x1000 4160 with | .ok w _ => w.verifies 0x34000 4096 | _ => false) = true
    ∧ storesAt good 0x1000 (List.replicate 4160 7) = true
    ∧ r (asking (pageBlock 0x24000 0x5000 0 0 0x1000)) (.pload h0 (.g 4) (.g 0)) = (some (3, 0, true), some 2)
    ∧ namesB out (.pload h0 (.g 4) (.g 0)) = some (3, 12, true)
    ∧ (match loadBytes out 4608 (out.space out.cur) 64 0x1000 4160 with
      | .ok v b => v.th.level == .h && allZero (slice b 36 12) && field b 0 4 == 1 && field b 4 2 == 1 && field b 6 2 == 3 && field b 8 8 == 0x5000
          && field b 16 8 == 12 / 8
      | _ => false) = true := by decide +kernel


/-! Steps of the agents. For each clause: a state that meets its conditions, and an effect of the step there. -/

/-- Whether the step of an agent takes effect and leads to a state with a given value. -/
def seen {α : Type} [DecidableEq α] (i : Instr) (s : State) (f : State → α) (v : α) : Bool := match exec i s with
  | .next t => f t == v
  | _ => false

def banked (l : Level) (high : Bool) (b : Bank) : State := (host l []).modHost 0 fun c => c.setBank high b

/-- An outstanding result, a timer that asserts and one that stays asserted, and the entries of an interrupt of each bank. -/
theorem test_thread_events :
    let late := { host .h [] with th := { (host .h []).th with results := [⟨4, 9, 1⟩, ⟨5, 8, 0⟩] } }
    let on : Bank := { tvec := 0x1000, tstat := 4, ipend := 0x28, imask := 0x20 }
    let e := (inEncl []).modHost 0
    seen (.interlockedResultWrite (.host 0)) late (fun t => (t.th.reg 4, t.th.results.length)) (9, 1)
    ∧ seen (.timerAssert 0 true) (banked .h true { tcmp := 0 }) (fun t => ((t.hostCore 0).bankH.timer, (t.hostCore 0).bankH.ipend)) (true, 1)
    ∧ seen (.timerAssert 0 false) (banked .h false { tcmp := 0, timer := true }) (fun t => (t.hostCore 0).bankS.ipend) 1
    ∧ on.source = some 5
    ∧ seen (.interruptEntry 0) (banked .u true on) (fun t => ((t.hostCore 0).bankH.tcause, t.th.level)) (0x205, .h)
    ∧ seen (.interruptEntry 0) (e fun c => c.setBank true on) (fun t => ((t.hostCore 0).bankH.tcause, t.th.level)) (0x205, .h)
    ∧ seen (.interruptEntry 0) (banked .u false on) (fun t => ((t.hostCore 0).bankS.tcause, t.th.level)) (0x205, .s)
    ∧ seen (.interruptEntry 0) (e fun c => c.setBank false on) (fun t => (t.th.level == .e, (t.hostCore 0).entered)) (false, none) := by
  decide +kernel

/-- The threads of a group at one word are one bundle, the lane named first before the others; a thread that is not ready is left out; an overdue
thread issues alone; and a core that has chosen in this clock chooses next in the one after it. -/
theorem test_picker :
    let s := simt []
    let c (lane stamp : Nat) : Cand := ⟨.simt 1 lane, stamp, 0, 0, lane, 1, 0, 4, false, false, false⟩
    ((s.cands 0).length, (pickBundle (s.core 0) (s.cands 0) 0).length) = (32, 32)
    ∧ seen (.pickerChoice 0 [3]) s (fun t => match t.agenda with
      | [.bundle 0 [3] l] => (l.length, l.take 2) == (32, [.simt 1 3, .simt 1 0])
      | _ => false) true
    ∧ pickBundle {} [c 0 0, c 1 9] 5 = [c 0 0]
    ∧ pickBundle {} [c 0 5, c 1 0] (1024 * Config.ticksPerCoreClock) = [c 1 0]
    ∧ ({ s with cores := [(0, { picked := some 0 })] } : State).pickClock 0 [c 0 0] = Config.ticksPerCoreClock := by decide +kernel

/-! The memory system -/

/-- A dirty line of core 384 x 0 in enclave 1, over the page at 0x1000. -/
def dirtyLine : Line := ⟨0, ⟨1, 1, 0⟩, 1, 32, 0x34 * 32, [(4, 0x5A)], [4], true, 0, [], true, false⟩

def cached : State := { simt [] with lines := [dirtyLine], time := 70000 * Config.ticksPerNs }

/-- Leases, epochs, write-backs and fills. -/
theorem test_cache_events :
    dirtyLine.expired cached.ns = true ∧ seen (.lineLeaseExpiry 0 32) cached (fun t => (t.lines.length, Memory.get t.mem 0x34004)) (0, 0x5A)
    ∧ (cached.core 0).epoch < cached.epochNow ∧ seen (.epochRollover 0) cached (fun t => (t.core 0).epoch) 2
    ∧ seen (.writeBack 0 32) cached (fun t => (t.lines.map (·.dirty), Memory.get t.mem 0x34004)) ([[]], 0x5A)
    ∧ (translate { cached with time := 0 } { sp := ⟨1, 1, 0⟩, va := 0x1000, kind := .read }).toOption.map (fun r => (r.2.mt, r.2.pa)) = some (0, 0x34000)
    ∧ (cached.allThreads.any fun p => cached.coreIx p.1 = 0 && cached.space p.1 = ⟨1, 1, 0⟩) = true
    ∧ seen (.l1Fill 0 ⟨1, 1, 0⟩ 0x1000) { cached with time := 0 } (fun t => t.lines.map fun l => (l.bytes.length, l.dirty)) [(128, [4])]
    ∧ seen (.pageTableWalk ⟨1, 1, 0⟩ 0x1000 .read) (simt []) (fun t => t.tlb.map (·.pa)) [0x34000] := by decide +kernel

/-- The grant of a write-back, of the first crypto line with dirty bytes alone, and one whose merge meets a failed tag. -/
theorem test_grants :
    let bad : State := { cached with badTags := [0x34000 / 64] }
    cached.grantFails (0x34040 / 64) = false ∧ bad.grantFails (0x34000 / 64) = true ∧ cached.region 0x34000 = .hbm 0
    ∧ dirtyLine.asksFirst (0x34000 / 64) = true ∧ dirtyLine.asksFirst (0x34040 / 64) = false
    ∧ seen (.counterGrant 0x34000) cached (fun t => ((Tab.getD t.ctrs 0x34 {}).minor, Memory.get t.mem 0x34004)) ([(0, 1)], 0x5A)
    ∧ seen (.counterGrant 0x34000) bad (fun t => (t.pot 0x34).state) PotState.poisoned := by decide +kernel

/-- Ring 0 with room for 128 records, its block at 0x60000 and its records from 0x61000, and a record that waits. -/
def ringed : State :=
  let s := simt []
  { s with
    mem := Memory.setAll (Memory.setAll s.mem 0x60000 (leBytes 8 0x60041)) 0x60040 (leBytes 8 0x61000 ++ leBytes 8 0 ++ leBytes 4 0x01000107)
    pots := [0x60, 0x61].foldl (fun t f => t.put f { state := .hyp, maxp := 7 }) s.pots
    reg := { s.reg with frtab := 0x60000 }
    records := [⟨0, 0, 1, faultRec ⟨0, 0, 0⟩ .read (0, 0) 0x5000 12 0⟩] }

theorem test_fault_record :
    (ringed.ring 0).map (fun x => (x.addr, x.base, x.tail, x.log2n, x.nsrc)) = some (0x60040, 0x61000, 0, 7, 1)
    ∧ ringed.grantFails (0x61000 / 64) = false ∧ ringed.grantFails (0x60040 / 64) = false
    ∧ seen (.faultRecordWrite 0) ringed (fun t => (Memory.u32 t.mem 0x6004C, t.records.length, (t.hostCore 0).bankH.ipend)) (1, 0, 2) := by
  decide +kernel

/-- A load of g20 in the operand log, answered, and an atomic that waits at its unit. -/
def logged : State :=
  let s := simt []
  { s with
    th := { s.th with logged := [(20, 3)] }
    log := [⟨3, 0, .simt 1 0, ⟨1, 1, 0⟩, .read, 0x1000, 4, false, 0, 0, [20], 0, true, false, false, none, false, none⟩] }

def queued : State :=
  { simt [] with
    th := { (simt []).th with logged := [(20, 3)] }
    atomQ := [⟨3, 0, 5, .simt 1 0, 0, ⟨1, 1, 0⟩, 0x1004, 0x34004, 0, 7, 0, [20], none, 0⟩] }

theorem test_replay :
    (match logged.log with | [e] => (match replay logged e with | .done t => t.th.reg 20 == 0 | _ => false) | _ => false) = true
    ∧ seen (.operandLogReplay 3) logged (fun t => (t.log.length, t.th.logged, t.final 20)) (0, [], 0)
    ∧ (queued.nextAtomic 0 5).map (fun r => (r.num, (queued.sameHold r).length)) = some (3, 1)
    ∧ ringed.nextRing = some (0, 7)
    ∧ (match atomicNow (queued.unlog 3) 0 { sp := ⟨1, 1, 0⟩, va := 0x1004, kind := .atomic } 0 7 0 with | .ok _ o => o == 0 | _ => false) = true
    ∧ seen (.atomicUnitServe 0 5) queued (fun t => (t.atomQ.length, Memory.u32 t.mem 0x34004, t.final 20)) (0, 7, 0) := by decide +kernel

/-! Copies and drains on their way -/

/-- Host core 0, with a copy at the head of channel 3, bound or not. -/
def channel (phys : Option Nat) (c : Copy) : State := (host .h []).modStore (.host 0) fun x => { x with
  spad := [(0x200, 1), (0x204, 2)], chans := [(3, { queue := [c], phys := phys })] }

def plain : Copy := newCopy (host .h []) 1 0 [] 0x1000 0xF0000100 32 0 1 0xFF false

def rows : Copy := newCopy (host .h []) 2 0 [] 0x1000 0xF0000100 32 0xF0000200 16 0xFF false

/-- What an owner's channel holds: how far its head has come, its physical channel and its write pointer. -/
def progress (o : Owner) (ch : Nat) (t : State) : List (Nat × Bool) × Option Nat × Word :=
  ((t.chan o ch).queue.map fun c => (c.cursor, c.started), (t.chan o ch).phys, (t.chan o ch).wptr)

/-- Binding, start, the turns of a plain and an indexed copy, the end of a copy of no bytes, and a poisoned source word. -/
theorem test_copy_events :
    (channel none plain).bindChan 0 ((channel none plain).ownerSlice (.host 0)) = some 0
    ∧ seen (.channelBind (.host 0) 3) (channel none plain) (progress (.host 0) 3) ([(0, false)], some 0, 0)
    ∧ seen (.copyStart (.host 0) 3) (channel (some 0) plain) (progress (.host 0) 3) ([(0, true)], some 0, 0xF0000100)
    ∧ ((channel (some 0) { plain with started := true }).served (.host 0) 3).map (·.total) = some 32
    ∧ seen (.copyEngineTurn (.host 0) 3) (channel (some 0) { plain with started := true, len := 0 }) (progress (.host 0) 3) ([], none, 0xF0000100)
    ∧ seen (.copyEngineTurn (.host 0) 3) (channel (some 0) { plain with started := true }) (progress (.host 0) 3) ([], none, 0xF0000120)
    ∧ seen (.copyEngineTurn (.host 0) 3) (channel (some 0) { rows with started := true }) (progress (.host 0) 3) ([(16, true)], some 0, 0xF0000110)
    ∧ (let s := channel (some 0) { newCopy (host .h []) 1 1 [] 0xF0000200 0x1000 32 0 1 0xFF false with started := true }
      let p := s.modStore (.host 0) fun x => { x with poison := [0x204 / 4] }
      seen (.copyEngineTurn (.host 0) 3) s (fun t => (Memory.get t.mem 0x24000, Memory.get t.mem 0x24004)) (1, 2)
      ∧ seen (.copyEngineTurn (.host 0) 3) p (fun t => t.th.owed) (some (.integ, 3))) := by decide +kernel

/-- An answered segment is the next to replay, and ends its copy. -/
theorem test_copy_replay :
    let c := { plain with started := true, cursor := 32, counted := 16, fix := [⟨16, 16, 0x1010, 0, 5, true⟩] }
    c.nextFix = some ⟨16, 16, 0x1010, 0, 5, true⟩
    ∧ seen (.copyFixupReplay (.host 0) 3) (channel (some 0) c) (progress (.host 0) 3) ([], none, 0xF0000120) := by decide +kernel

/-- A drain of lane 0 from the first tile, its first two elements 1.0 and the divisor 2.0, as it stands at a destination. -/
def drainTo (x : DrainCtl) (dst : Nat) (landed : Bool) (fix : List (Nat × Nat × Bool)) : State :=
  let s := simt []
  { s with
    mem := Memory.setAll (Memory.setAll s.mem 0x60010 (leBytes 8 0x62001)) 0x62000 (leBytes 8 0x61000 ++ leBytes 8 0 ++ leBytes 4 0x01000107)
    pots := s.pots.put 0x62 { state := .guest, maxp := 7, guest := 1 }
    reg := { s.reg with frtab := 0x60000 }
    drains := [⟨9, 1, 0, x, dst, 256, [0x3F800000, 0x3F800000] ++ List.replicate 126 0, ⟨1, 1, 0⟩, 0, 0, landed, fix, none, [], none, false⟩] }

def f32Drain : DrainCtl := ⟨false, 0x100, 0xFF, false, false, true, 1⟩

/-- A drain to the scratchpad; to global memory, plain and with ADD; to a page that is not present; and the replay of one and of two lines. -/
theorem test_drain_events :
    let word (a : Nat) (t : State) : Nat × List (Bool × Nat) := (Memory.u32 t.mem a, t.drains.map fun d => (d.landed, d.fix.length))
    let moving := drainTo { f32Drain with glb := false } 0xF0000E00 false []
    let lines := [(32, 0x680), (33, 0x681), (34, 0x682), (35, 0x683)]
    let adding (taken : List Nat) : State := let s := drainTo { f32Drain with add := true } 0x1000 false []
      { s with drains := s.drains.map fun d => { d with taken := taken, plan := some lines } }
    seen (.drainComplete 9) moving (fun t => t.drains.map (·.began)) [some 0]
    ∧ seen (.drainComplete 9) { moving with time := 4 * Config.ticksPerCoreClock, drains := moving.drains.map fun d => { d with began := some 0 } } (fun t =>
      ((t.store (.team 1)).word 0xE00, t.drains.length)) (0x3F000000, 0)
    ∧ seen (.drainComplete 9) (drainTo f32Drain 0x1000 false []) (word 0x34004) (0x3F000000, [])
    ∧ seen (.drainComplete 9) (drainTo { f32Drain with add := true } 0x1000 false []) (fun t => (word 0x34004 t, t.drains.map (·.taken)))
      ((0, [(false, 0)]), [[0x34000 / 128]])
    ∧ seen (.drainComplete 9) (adding [0x682, 0x681, 0x680]) (fun t => (word 0x34004 t, t.drains.map (·.taken)))
      ((0x3F000000, [(false, 0)]), [[0x683, 0x682, 0x681, 0x680]])
    ∧ seen (.drainComplete 9) { adding [0x682, 0x681, 0x680] with holds := [⟨0x683, 8, 0, 9⟩] } (fun t => t.drains.map (·.taken)) [[0x682, 0x681, 0x680]]
    ∧ seen (.drainComplete 9) (drainTo f32Drain 0x5000 false []) (word 0x34004) (0, [(true, 4)])
    ∧ seen (.drainFixupReplay 9) (drainTo f32Drain 0x1000 true [(32, 3, true)]) (word 0x34004) (0x3F000000, [])
    ∧ seen (.drainFixupReplay 9) (drainTo f32Drain 0x1000 true [(32, 3, true), (33, 4, false)]) (word 0x34004) (0x3F000000, [(true, 1)])
    ∧ seen (.drainFixupReplay 9) (drainTo { f32Drain with add := true } 0x1000 false [(32, 3, true)]) (word 0x34004) (0, [(false, 0)]) := by decide +kernel

/-! Engines -/

/-- A quad's engine on core 0, with the operation 5 on tile 3 of team 1, its B region at 0 of the scratchpad where `b` says so, and time. -/
def engine (b : Option Nat) (time : Nat) (q : Quad) : State :=
  let s := simt []
  { s with
    time := time, quads := s.quads.put 0 q
    ops := [(5, ⟨1, 3, [0], ⟨false, true, .zr, .zr, 2, 4, 4⟩, 16, 32, b, false, []⟩)] }

def pass5 : Pass := { core := 0, team := 1, tile := 3, op := 5, group := 0, pri := 4 }

/-- Posting, the two ends of a B read, a grant, a withheld one, a window, the writes of the governor, a movement's end and a tick of energy. -/
theorem test_engine_events :
    seen (.passPost 0) (engine none 0 { waiting := [pass5] }) (fun t => ((t.quad 0).table.length, (t.quad 0).waiting.length)) (1, 0)
    ∧ seen (.bReadStart 0) (engine (some 0) 0 { reads := [(5, 0, 2)] }) (fun t => (t.quad 0).bufs.map fun b => (b.words.length, b.left, b.ready))
      [(534, 2, false)]
    ∧ seen (.bReadEnd 0) (engine (some 0) (17 * 240) { bufs := [⟨5, 0, 2, false, [], 0, false⟩] }) (fun t => (t.quad 0).bufs.map (·.ready)) [true]
    ∧ seen (.passGrant 0) (engine none 4800 { table := [{ pass5 with stamp := some 0 }] }) (fun t =>
      ((t.quad 0).table.map (·.grant), (t.quad 0).granted)) ([some 20], 1)
    ∧ seen (.passGrant 0) (engine none 4800 { table := [{ pass5 with stamp := some 0 }], granted := 8, lastG := some 12 }) (fun t =>
      ((t.quad 0).table.map (·.grant), (t.quad 0).stall)) ([none], 1)
    ∧ seen (.governorWindow 0) (engine none (64 * 240) { nextB := 3, granted := 8 }) (fun t => ((t.quad 0).budget, (t.quad 0).granted)) (3, 0)
    ∧ seen (.mgovcfgWrite 0 9) (engine none 0 {}) (fun t => (t.quad 0).nextB) 8 ∧ seen (.mgovcfgWrite 0 3) (engine none 0 {}) (fun t => (t.quad 0).nextB) 3
    ∧ seen (.mloadMovementEnd 0) { (simt []).modStore (.team 1) (fun x => { x with spad := [(0xE04, 9)] }) with
        moves := [⟨0, 1, 0, 3, 0xE00, 7, false, 0, some 0⟩], time := 4 * Config.ticksPerCoreClock }
      (fun t => (t.moves.length, (t.teams.find 1).map (·.tiles))) (0, some [(3 * 4096 + 1, 9)])
    ∧ seen (.energyTick 0) (engine none (1025 * 240) {}) (fun t => (t.energy 0 1, (t.core 0).ticks)) ((1966080, false), 1)
    ∧ seen (.energyTick 0) { engine none (1024 * 240) {} with teams := [] } (fun t => (t.energy 0 1, (t.core 0).ticks)) ((0, false), 1) := by
  decide +kernel

/-- The arbiter's order: an aged entry before one of higher PRI, a higher PRI before an older one, and of one PRI the older. -/
theorem test_arbiter :
    let a := { pass5 with stamp := some 0, pri := 1 }
    let b := { pass5 with stamp := some 9, pri := 4, tile := 2 }
    let c := { pass5 with stamp := some 5, pri := 4, tile := 1 }
    Quad.pick { table := [b, a] } 512 = some a ∧ Quad.pick { table := [a, b] } 100 = some b ∧ Quad.pick { table := [b, c] } 100 = some c := by
  decide +kernel

/-- A pass granted 16 clocks ago: row 0 of A and row 1 of B are 32 values of 1.0 in E4M3, so the element of row 0 and column 1 is 32.0 at scale
1.0 and every other one +0. -/
def passed : State :=
  let ones (r : Nat) : List Word := List.replicate (8 * r) 0 ++ List.replicate 8 0x38383838 ++ List.replicate (504 - 8 * r) 0
  engine none (36 * 240) { table := [{ pass5 with
    stamp := some 0, grant := some 20, a := ones 0, b := ones 1, sa := List.replicate 64 0xFE, sb := List.replicate 64 0xFE }] }

theorem test_pass_element : let x : MmaCtl := ⟨false, true, .zr, .zr, 2, 4, 4⟩
    (match (passed.quad 0).table with
      | [p] => [passElem x p 0 1 0, passElem x p 0 1 0x3F800000, passElem { x with na := true } p 0 1 0, passElem x p 1 1 0]
          == [0x42000000, 0x42040000, 0xC2000000, 0] && (match p.grant with | some g => decide (g + 16 ≤ passed.clock) | none => false)
      | _ => false) = true
    ∧ (passed.ops.find 5).map (fun o => (o.spoilt, o.ctl.z)) = some (false, true) ∧ (passed.teams.find 1).isSome = true := by decide +kernel

/-! Launches (R231-R261) -/

/-- The launch of team 1 with flags added to its record, walkers with ranges of it on slice 0, and a partition of slice 0 with a pool. -/
def fed (flags : Nat) (ws : List (Nat × Nat × Nat)) : State :=
  let s := simtOf { launch1 with words := record flags 0 2 } []
  { s with
    walkers := ws.map fun w => ⟨0, w.1, 1, w.2.1, w.2.2, 0⟩
    reg := { s.reg with part := [(0, .ofNat 64 (0x101 + 2 ^ 32 + 2 ^ 48))], svpool := [(0, 0x21)] } }

/-- Team 1 when all its threads have retired. -/
def retired (s : State) : State := { s with th := { s.th with wait := .retired }, threads := s.threads.map fun p => (p.1, { p.2 with wait := .retired }) }

def walkersIn (t : State) : List (Nat × Nat × Nat) := t.walkers.map fun w => (w.num, w.cur, w.fin)

/-- One team of one tile on the lowest core; a cluster of four; a tile of a walker as one team and as items. -/
theorem test_placing : let s := fed 0 [(0, 1, 4)]
    seen (.teamPlace 1 0) s (fun t => (t.teams.find 2).map fun x => (x.launch, x.core, x.slot)) (some (1, 0, 1))
    ∧ seen (.teamPlace 1 0) s (fun t => (walkersIn t, t.threads.length)) ([(0, 2, 4)], s.threads.length + 32)
    ∧ seen (.teamPlace 1 0) { s with time := 5 } (fun t => (t.thread? (.simt 2 31)).map fun x => (x.cb, x.w, x.allot, x.readyAt))
      (some (0, 0, 64, 5))
    ∧ seen (.clusterPlace 1 0 0 0) (fed 0x20000 [(0, 0, 4)]) (fun t => t.teams.map fun p => (p.1, p.2.core, p.2.member, p.2.cluster))
      [(1, 0, 0, none), (3, 0, 0, some 2), (4, 1, 1, some 2), (5, 2, 2, some 2), (6, 3, 3, some 2)]
    ∧ seen (.walkerDispense 0 0) s (fun t => ((t.teams.find 2).map (·.coords), walkersIn t)) (some (some [1, 0, 0, 0]), [(0, 2, 4)])
    ∧ seen (.walkerDispense 0 0) (fed 0x200 [(0, 3, 4)]) (fun t => ((t.core 0).items, walkersIn t)) ([(1, [3, 0, 0, 0], 0), (1, [3, 0, 0, 0], 1)], []) := by
  decide +kernel

/-- A team whose threads have all retired, alone and in a cluster. -/
theorem test_team_done : let s := retired (fed 0 [])
    let pair := s.teams ++ [(7, { launch := 1, core := 1, slot := 0, cluster := some 9, groups := 1, done := false })]
    seen (.teamDone 1) s (fun t => (t.teams.length, (t.threads.filter fun p => p.1 == .simt 1 3).length)) (0, 0)
    ∧ seen (.teamDone 7) { s with teams := pair } (fun t => t.teams.map (·.1)) [1]
    ∧ seen (.teamDone 7) { s with teams := pair ++ [(8, { launch := 1, core := 2, slot := 0, cluster := some 9, groups := 1 })] }
      (fun t => t.teams.map fun p => (p.1, p.2.done)) [(1, false), (7, true), (8, false)] := by decide +kernel

/-- A split of the range 0-4 of walker 0, which serves slice 0: the second half goes to the lowest free walker. -/
theorem test_splits : let s := fed 0x900 [(0, 0, 4)]
    (s.split 1 { launch1 with words := record 0x900 0 2 } 0).walkers = [⟨0, 0, 1, 0, 2, 0⟩, ⟨0, 1, 1, 2, 4, 0⟩]
    ∧ seen (.splitRequest 1 0) { fed 0x800 [] with walkers := [⟨1, 0, 1, 0, 4, 0⟩] } (fun t => (t.walkers, (t.launches.find 1).map (·.spl)))
      ([⟨1, 0, 1, 0, 2, 0⟩, ⟨0, 0, 1, 2, 4, 0⟩], some true)
    ∧ seen (.splitRetry 1 0) { fed 0x800 [] with
        walkers := [⟨1, 0, 1, 0, 4, 0⟩], time := 9
        launches := [(1, { launch1 with words := record 0x800 0 2, retry := [(0, 9)] })] } (fun t => (walkersIn t, (t.launches.find 1).map (·.retry)))
      ([(0, 0, 2), (0, 2, 4)], some []) := by decide +kernel

/-- A pending REFILL with an item and with the end marker; FETCHW with the stop marker, a tile, and the exhausted marker. -/
theorem test_feeding :
    let waits (s : State) : State := { s with cores := [(0, { s.core 0 with asks := [⟨.simt 1 0, 1, 4⟩] })] }
    let asks (s : State) (stopped : Bool) : State :=
      (s.modTeam 1 fun t => { t with fetches := [⟨0, 0xFF0, 0xF01⟩], stopped := stopped }).modStore (.team 1) fun x => { x with
        bars := [(1, { valid := true, arriveExp := 1, arrivePend := 1 })] }
    let mail (t : State) : Option (List Nat) := (t.teams.find 1).map fun x => (List.range 2).map fun k => leNat (x.store.read (0xFF0 + 4 * k) 4)
    seen (.refillItem 1 0) (waits { fed 0x200 [] with cores := [(0, { items := [(1, [2, 0, 0, 0], 1)] })] })
      (fun t => ((t.core 0).asks.length, t.th.results.map (·.val))) (0, [1])
    ∧ seen (.refillItem 1 0) (waits { fed 0xA00 [] with launches := [(1, { launch1 with words := record 0xA00 0 2, noRange := [0] })] })
      (fun t => ((t.core 0).asks.length, t.th.results.map (·.val))) (0, [0xFFFFFFFF])
    ∧ seen (.fetchwServe 1) (asks (fed 0x100 [(0, 0, 4)]) true) mail (some [0xFFFFFFFE, 0])
    ∧ seen (.fetchwServe 1) (asks (fed 0x100 [(0, 3, 4)]) false) mail (some [3, 0])
    ∧ seen (.fetchwServe 1) (asks (fed 0x100 []) false) mail (some [0xFFFFFFFF, 0]) := by decide +kernel

/-- The last index is done: the launch leaves. A launch with an error leaves with its teams. -/
theorem test_launch_ends :
    seen (.launchComplete 1) { fed 0 [] with teams := [], launches := [(1, { launch1 with doneT := 3, credit := 1 })] } (fun t => t.launches.length) 0
    ∧ seen (.terminalTrapEnd 1) { fed 0 [(0, 0, 4)] with launches := [(1, { launch1 with error := some 0x204 })] }
      (fun t => (t.launches.length, t.teams.length, t.walkers.length)) (0, 0, 0) := by decide +kernel

/-! Queues (R342-R350) -/

/-- Queue 0 of slice 0 with entries and held kicks. -/
def lined (es : List Entry) (held : List (ThreadId × Dword)) : State :=
  { fed 0 [] with queues := [(0, { owner := 1, guest := 1, index := 0, entries := es, seq := es.length, held := held })] }

def markOf (words : List Word) (blind mute begun : Bool) : Entry := ⟨1, true, 0x1000, words, some [], none, blind, mute, none, begun⟩
def launchOf (words : List Word) (error : Option Word) : Entry := ⟨1, false, 0x1000, words, some [], error, false, false, none, false⟩
/-- The entries of queue 0: sequence number, whether a mark, error (0 for none), whether begun. -/
def entriesOf (t : State) : List (Nat × Bool × Word × Bool) := match t.queues.find 0 with
  | some q => q.entries.map fun e => (e.seq, e.mark, e.error.getD 0, e.begun)
  | none => [(0, false, 0, false)]

/-- A kick on a record of zeros; one whose record was not read before; a mark and a blind mark; an entry with an error; a launch. -/
theorem test_queue_heads :
    seen (.kickTake 0 0) (lined [] [(.host 0, 0x1000)]) entriesOf [(1, false, 0x201, false)]
    ∧ seen (.kickTake 0 0) (lined [] [(.host 0, 0x1001)]) entriesOf [(1, true, 0x201, false)]
    ∧ seen (.kickTake 0 0) (lined [{ launchOf [] none with deps := none }] []) entriesOf [(1, false, 0x201, false)]
    ∧ seen (.entryStart 0 0) (lined [markOf (List.replicate 32 0) false false false] []) entriesOf [(1, true, 0, true)]
    ∧ seen (.entryStart 0 0) (lined [markOf (List.replicate 32 0) true false false] []) entriesOf []
    ∧ seen (.entryStart 0 0) (lined [launchOf (record 0 0 0) (some 0x201)] []) entriesOf []
    ∧ seen (.entryStart 0 0) (lined [launchOf (record 0 0 0) none] []) entriesOf [(1, false, 0, true)]
    ∧ seen (.entryStart 0 0) (lined [launchOf (record 0 0 0) none] []) (fun t => (t.launches.map (·.1), t.walkers)) ([1, 2], [⟨0, 0, 2, 0, 4, 0⟩]) := by
  decide +kernel

/-- The weighted cycle of enclaves (R348): whose turn it is, and how many entries it has left. -/
theorem test_cycle : let s := lined [] []
    turnOf (2, 1) [1, 2, 3] = some 2 ∧ turnOf (2, 0) [1, 2, 3] = some 3 ∧ turnOf (3, 0) [2, 1] = some 1 ∧ turnOf (2, 1) [1] = some 1
    ∧ (s.takeTurn 5 1).turns = [(5, (1, 0))] ∧ ((s.modEncl 1 fun e => { e with weight := 3 }).takeTurn 5 1).turns = [(5, (1, 2))]
    ∧ (({ s with turns := [(5, (1, 2))] } : State).takeTurn 5 1).turns = [(5, (1, 1))]
    ∧ (({ s with turns := [(5, (2, 2))] } : State).notTurn 5 1 [1, 2], ({ s with turns := [(5, (2, 0))] } : State).notTurn 5 1 [1, 2]) = (true, false) := by
  decide +kernel

/-- A mark behind nothing, silent and with its signal of 0x1000; the quiescent boundary. -/
theorem test_marks :
    let words := List.replicate 8 0 ++ [255] ++ List.replicate 23 0
    seen (.markComplete 0 0 1) (lined [markOf words false true true] []) entriesOf []
    ∧ seen (.markComplete 0 0 1) (lined [markOf words false false true] []) (fun t => (entriesOf t, t.homeBytes 0x34000 1)) ([], [1])
    ∧ seen (.quiesceRequest 0) (lined [] []) (·.paused) [0] ∧ seen (.quiesceRelease 0) { lined [] [] with paused := [0, 2] } (·.paused) [2] := by
  decide +kernel

/-! Contexts and partitions (R379-R389) -/

def changed (s : State) (f : Encl → Encl) : State := s.modEncl 1 f
def softOf (t : State) : Option (List Nat × Nat) := ((t.encls.find 1).bind (·.soft)).map fun x => (x.cores, x.g1)

/-- With no save pool, so that an image has no frames, whose bytes would be any value. -/
def poolless (s : State) : State := { s with reg := { s.reg with svpool := [] } }

/-- PREEMPT's four actions; a soft request that has ended, its halt and its kill. -/
theorem test_ladder : let s := poolless (fed 0 [(0, 1, 4)])
    let asked : State := changed s fun e => { e with soft := some ⟨[0, 1], 0, some 0⟩ }
    let halted (t : State) : Option (Bool × Nat × Nat) := (t.encls.find 1).map fun e => (e.halted, e.images.length, t.teams.length)
    seen (.preemptResume 1) (changed s fun e => { e with halted := true, ordered := true }) halted (some (false, 0, 1))
    ∧ seen (.preemptResume 1) (changed s fun e => { e with halted := true, ordered := true, stay := true }) halted (some (true, 0, 1))
    ∧ seen (.preemptResume 1) (changed s fun e => { e with halted := true }) halted (some (true, 0, 1))
    ∧ seen (.preemptSoft 1) s (fun t => (softOf t).map fun x => (x.1.length, x.2)) (some (384, 1000))
    ∧ seen (.preemptHalt 1) s halted (some (true, 1, 0)) ∧ seen (.preemptHalt 1) s (fun t => (t.launches.find 1).map (·.sealedW)) (some [(1, 4, 0)])
    ∧ seen (.preemptKill 1) s halted (some (false, 0, 0))
    ∧ seen (.g1Deadline 1) asked halted (some (false, 1, 0)) ∧ seen (.g2Deadline 1) asked halted (some (false, 0, 0))
    ∧ seen (.softRequestEnd 1) (changed s fun e => { e with soft := some ⟨[5], 0, some 0⟩ }) softOf none
    ∧ seen (.softRequestEnd 1) asked softOf (some ([0, 1], 0)) := by decide +kernel

/-- A sealed team of launch 1, with sealed walkers, returns to core 2. -/
theorem test_restore :
    let img : TeamImage := ⟨1, { launch := 1, core := 0, slot := 0, groups := 1 }, [(0, { w := 9 })], [], [], [], [], [], [], [], ([], [], [])⟩
    let s : State := changed { fed 0 [] with teams := [], launches := [(1, { launch1 with sealedW := [(2, 4, 0)] })] } fun e => { e with images := [img] }
    seen (.contextRestore 1 2) s (fun t => (t.teams.map fun p => (p.1, p.2.core), walkersIn t)) ([(1, 2)], [(0, 2, 4)])
    ∧ seen (.contextRestore 1 2) { s with cur := .host 0 } (fun t => (t.thread? (.simt 1 0)).map (·.w)) (some 9) := by decide +kernel

/-- Every core of the partition but core 0 is full or out of service, and a launch of another context waits for room. -/
def crowded : State :=
  let s := fed 0 []
  let big : Launch := { words := (record 0 0 0).set 11 0x0411F000, eid := 2, guest := 1, lead := 0, queue := 1, seq := 1 }
  { s with
    time := 2000 * Config.ticksPerNs
    reg := { s.reg with part := [(0, .ofNat 64 (0x101 + 2 ^ 16 + 2 ^ 32 + 2 ^ 48))] }
    encls := s.encls ++ [(2, enclOf 1)]
    launches := s.launches ++ [(2, big)]
    walkers := [⟨0, 0, 2, 0, 4, 0⟩]
    teams := s.teams ++ (List.range 3).map (fun k => (10 + k, { launch := 2, core := k + 1, slot := 0, groups := 1 }))
    quads := (List.range 95).map fun k => (k + 1, { out := true }) }

theorem test_time_slice : seen (.timeSliceExpiry 1 0) crowded softOf (some ([0], 3000)) := by decide +kernel

/-- Writes of PART: one with a reserved bit, one of a partition of two slices; a resize from two slices to one, with a team on the leaving slice
and without; a quad; an engine's owner; blocks. -/
theorem test_partitions :
    let two : Dword := .ofNat 64 (0x201 + 2 ^ 32 + 2 ^ 48)
    let one : Dword := .ofNat 64 (0x101 + 2 ^ 32 + 2 ^ 48)
    let s := fed 0 []
    let r : State := { s with paused := [0], reg := { s.reg with part := [(0, two)], resize := [(0, one)] } }
    let far : State := { r with teams := [(1, { launch := 1, core := 400, slot := 0, groups := 1 })] }
    let bound : State := s.modStore (.host 0) fun x => { x with chans := [(0, { phys := some 3 })] }
    seen (.partWrite 2 (two + 2)) s (fun t => t.part 2) 0 ∧ seen (.partWrite 2 two) s (fun t => t.part 2) two
    ∧ seen (.partitionResize 0) r (fun t => t.part 0) one ∧ seen (.partitionResize 0) far (fun t => (softOf t).map fun x => x.1.length) (some 384)
    ∧ seen (.quadsvcOut 0 0) s (fun t => ((t.quad 0).out, softOf t)) (true, some ([0, 1, 2, 3], 1000))
    ∧ seen (.quadsvcIn 0 0) { s with quads := [(0, { out := true })] } (fun t => (t.quad 0).out) false
    ∧ seen (.ceownWrite 1 0x101) s (fun t => t.reg.ceown) [(1, 0x101)]
    ∧ seen (.ceownWrite 0 0x101) bound (fun t => (t.reg.ceown, t.reg.ceNext)) (s.reg.ceown, [(0, 0x101)])
    ∧ seen (.blkmove 0) { s with reg := { s.reg with blkBusy := true } } (fun t => t.reg.blkStat) Status.busy.code
    ∧ blkStatus s 0x80000000 = none ∧ (0x80000000#64).toNat / 2 ^ 16 % 2 ^ 15 = 0 := by decide +kernel

/-! Keys, devices and links (R318, R359, R365, R372-R377) -/

/-- Enclave 1 with host core 0 at H, its context changed. -/
def kept (f : Encl → Encl) : State := (withEncl 1 (host .h [])).modEncl 1 f

/-- A scrub, a rotation that begins and one that ends, a sweep of the read-write page, an injection, an interface, a device's write, a flit. -/
theorem test_protection :
    let s := kept id
    let run : State := { s with tdis := [(5, { state := .run, eid := 1, guest := 1 })] }
    let at_ : List (Nat × Nat) := [(0x34004, 1)]
    let sent : State := { run with dmas := [⟨5, true, 0x1004, true, [7], ⟨1, 1, 0⟩, at_, none, false⟩], pins := [(0x34, 1)] }
    let up : State := { s with links := [(3, { up := true, pairs := [(9, (5, 1))], secret := some 77 })] }
    let rot := kept fun e => { e with newSlot := some 2 }
    let sweeping (q : Nat) (dst : Option Nat) (st : PotState) : State :=
      let u : State := { rot with mem := Memory.setAll rot.mem 0x34004 [9], sweeps := [(0x34, { q := q, slot := if dst.isSome then 1 else 2, dst := dst, former := .encl })] }
      { u with pots := u.pots.put 0x34 { u.pot 0x34 with state := st } }
    let streams (t : State) : Option (List (Nat × Nat × Bool)) := (t.links.find 3).map fun l => l.streams.map fun x => (x.1, x.2.1, x.2.2)
    seen (.scrubEnd 0x24) { s with pots := s.pots.put 0x24 { state := .scrub, guest := 1 }, scrubs := [(0x24, 0)] }
      (fun t => ((t.pot 0x24).state, t.scrubs.length)) (.guest, 0)
    ∧ seen (.keyRotation 1) s (fun t => ((t.encls.find 1).bind (·.newSlot), (t.slots.find 2).map (·.eid))) (some 2, some 1)
    ∧ seen (.keyRotation 1) (kept fun e => { e with slot := 2, newSlot := some 1 }) (fun t => (t.encls.find 1).map fun e => (e.slot, e.newSlot))
      (some (1, none))
    ∧ seen (.sweep ⟨0x34, none⟩) rot (fun t => (t.sweeps.find 0x34).map fun w => (w.q, w.slot)) (some (0, 2))
    ∧ seen (.sweep ⟨0x34, none⟩) (sweeping 5 none .encl) (fun t => ((t.sweeps.find 0x34).map (·.q), (Tab.getD t.ctrs 0x34 {}).minor)) (some 6, [(5, 1)])
    ∧ seen (.sweep ⟨0x34, none⟩) { sweeping 5 none .encl with badTags := [0x34140 / 64] } (fun t => ((t.pot 0x34).state, t.sweeps.length)) (.poisoned, 0)
    ∧ seen (.sweep ⟨0x34, none⟩) (sweeping 64 none .encl) (fun t => ((t.pot 0x34).slot, t.sweeps.length)) (2, 0)
    ∧ (s.leafOf 0x34).isSome = true
    ∧ seen (.sweep ⟨0x34, some 0x90⟩) s (fun t => ((t.pot 0x34).state, (t.sweeps.find 0x34).map fun w => (w.dst, w.slot))) (.migrating, some (some 0x90, 1))
    ∧ seen (.sweep ⟨0x34, none⟩) (sweeping 64 (some 0x90) .migrating) (fun t => ((t.pot 0x34).state, (t.pot 0x90).state, (t.pot 0x90).eva, t.sweeps.length))
      (.scrub, .encl, 1, 0)
    ∧ seen (.injtagArm 0xD00) (kept fun e => { e with ctl := 0x100 }) (fun t => t.reg.injtag) (some 0xD00)
    ∧ seen (.injtagDisarm 0) { s with reg := { s.reg with injtag := some 3 } } (fun t => t.reg.injtag) none
    ∧ seen (.startInterfaceRequest 5 1) s (fun t => ((t.tdis.find 5).map fun x => (x.state, x.eid, x.ide.isSome))) (some (.locked, 1, true))
    ∧ seen (.startInterfaceRequest 5 1) { kept (fun e => { e with devices := [7] }) with tdis := [(5, { state := .locked, eid := 1, guest := 1, meas := 7 })] }
      (fun t => (t.tdis.find 5).map fun x => (x.state, x.eid)) (some (.run, 1))
    ∧ seen (.startInterfaceRequest 5 1) { s with tdis := [(5, { state := .locked, eid := 1, guest := 1, meas := 7 })] } (fun t => (t.tdis.find 5).map (·.state)) (some .locked)
    ∧ seen (.tdispDmaRequest 5 true 0x1004 true [7]) run (fun t => (t.pins, t.dmas.map (·.at_))) ([(0x34, 1)], [at_])
    ∧ seen (.tdispDmaRequest 5 true 0x1004 true [7]) sent (fun t => (t.pins, t.homeBytes 0x34004 1)) ([], [7])
    ∧ seen (.linkFlitReceive 3 9 true 0x1004 [7]) up (fun t => (t.pins, t.dmas.map (·.at_), streams t == some [(9, 1, true)])) ([(0x34, 1)], [at_], true)
    ∧ seen (.linkFlitReceive 3 9 true 0x1004 [7]) { up with dmas := [⟨3 * 4096 + 9, true, 0x1004, true, [7], ⟨1, 1, 0⟩, at_, none, true⟩], pins := [(0x34, 1)] }
      (fun t => (t.pins, t.homeBytes 0x34004 1)) ([], [7])
    ∧ seen (.linkFlitReceive 3 9 false 0x1004 [7]) up streams (some [(9, 0, false)])
    ∧ seen (.linkFlitReceive 3 9 true 0x1004 [7]) { up with links := [(3, { up := true, pairs := [(9, (5, 1))] })] } (·.dmas.length) 0 := by decide +kernel

/-! Resilience (R321, R322, R415-R424, R445) -/

/-- A dissent, its resync, a stop with a launch and its queue, and a restart. -/
theorem test_triplets : let s := fed 0 [(0, 0, 4)]
    let cp : Triplet := ⟨0, 0, 0⟩
    let st (t : State) : Nat × Nat × Bool × Bool := ((t.trip 0).resync, (t.trip 0).last, (t.trip 0).duplex, (t.trip 0).stop)
    tripExists ⟨2, 3, 3⟩ = true ∧ tripExists ⟨2, 3, 4⟩ = false
    ∧ seen (.tripletDissent cp 2) s (fun t => (st t, t.reg.rasstat)) ((1, 2, true, false), 1)
    ∧ seen (.resyncEnd cp) { s with trips := [(0, { duplex := true })] } st (0, 3, false, false)
    ∧ (({ s with trips := [(0, { duplex := true })], time := 2047 * 240 } : State).trip 0).duplex = true
    ∧ (({ s with trips := [(0, { duplex := true })], time := 2048 * 240 } : State).trip 0).duplex = false
    ∧ seen (.tripletStop cp) s (fun t => (st t, (t.launches.find 1).bind (·.error), t.queues.map (·.2.stopped))) ((0, 3, false, true), some 0x202, [true])
    ∧ seen (.tripletRestart cp) { s with trips := [(0, { stop := true })], queues := s.queues.map fun q => (q.1, { q.2 with stopped := true }) }
      (fun t => (st t, t.queues.map (·.2.stopped))) ((0, 3, false, false), [false]) := by decide +kernel

/-- An error in a register, in a scratchpad word and a corrected one; a quad. -/
theorem test_array_errors : let s := fed 0 []
    let count (k : Nat) (t : State) : Option (Nat × Nat) := t.reg.eccCnt.find k
    seen (.uncorrectableError (.register (.simt 1 3) 5)) s (fun t => ((t.thread? (.simt 1 3)).map (·.poison), count 0 t, t.reg.rasstat)) (some [5], some (0, 1), 4)
    ∧ seen (.uncorrectableError (.scratch (.team 1) 3)) s (fun t => ((t.teams.find 1).map (·.store.poison), count 16 t)) (some [3], some (0, 1))
    ∧ s.spadSize (.team 1) = 4096 ∧ seen (.uncorrectableError (.clean 4 2 none)) s (count 66) (some (1, 0))
    ∧ seen (.uncorrectableError (.clean 0 0 (some 1))) s (fun t => (t.quad 1).corr) [0]
    ∧ seen (.quadAutoRemove 0 1) s (fun t => (t.quad 1).out) false
    ∧ seen (.quadAutoRemove 0 1) (s.modQuad 1 fun x => { x with corr := List.replicate 65 0 }) (fun t => ((t.quad 1).out, t.reg.rasstat)) (true, 8)
    ∧ seen (.quadAutoRemove 0 1) (s.modQuad 1 fun x => { x with uncorr := true }) (fun t => ((t.quad 1).out, (t.quad 1).uncorr)) (true, false) := by decide +kernel

/-- A page of HYP type at 0x24000 that holds an image with rollback number 3, no code and a signature of one byte. -/
def imaged : State :=
  { paged with mem := Memory.setAll paged.mem 0x24000 (leBytes 4 0x57465244 ++ leBytes 4 1 ++ leBytes 4 3 ++ leBytes 4 1 ++ leBytes 8 0 ++ leBytes 4 1) }

/-- The tandem's failover, rejoin and failure; the updates whose checks fail; and an image that passes those of its header. -/
theorem test_tandem : let s := imaged
    let with_ (x : Tandem) : State := { s with tandem := x }
    let v : Dword := .ofNat 64 (2 ^ 48 + 0x24000)
    let res (t : State) : Nat × Bool := (t.tandem.result, t.tandem.update.isSome)
    seen .tandemFailover s (fun t => (t.tandem.activeB, t.tandem.standby, t.reg.rasstat)) (true, false, 16)
    ∧ seen (.tandemRejoin true) (with_ { standby := false, simplex := true }) (fun t => (t.tandem.standby, t.tandem.simplex)) (true, false)
    ∧ seen (.tandemRejoin false) (with_ { standby := false }) (fun t => (t.tandem.simplex, t.reg.rasstat)) (true, 32)
    ∧ seen .tandemSimplexFailure (with_ { standby := false, simplex := true }) (·.tandem.failed) true
    ∧ seen (.fwupd v) s res (0, true) ∧ seen (.fwupd v) (with_ { standby := false, update := some v }) res (5, false)
    ∧ seen (.fwupd (.ofNat 64 (2 ^ 48))) (with_ { update := some (.ofNat 64 (2 ^ 48)) }) res (2, false) := by decide +kernel

theorem test_image : (fwImage imaged (2 ^ 48 + 0x24000)).map (fun f => (f.rollback, f.commit, f.message.length, f.sig)) = some (3, true, 64, [0])
    ∧ (List.range 12).all (fun k => !partEn (imaged.part k) || [0].contains k) = true := by decide +kernel

/-- The clearing writes, and the writes that store. -/
theorem test_register_writes : let s := paged
    let r : State := { s with reg := { s.reg with frlost := 3, eccCnt := [(0, (1, 1))], sevcnt := [(0, 1)], rasstat := 5 }, trips := [(0, { resync := 3, last := 1 })] }
    seen .frlostClear r (·.reg.frlost) 0 ∧ seen .trstatClear r (fun t => ((t.trip 0).resync, (t.trip 0).last)) (0, 3)
    ∧ seen .ecccntClear r (·.reg.eccCnt) [] ∧ seen .sevcntClear r (·.reg.sevcnt) [] ∧ seen (.rasstatClear 4) r (·.reg.rasstat) 1
    ∧ seen (.registerWrite 0x1000 0x5000) s (·.reg.frtab) 0x5000 ∧ seen (.registerWrite 0x3060 0x5100) s (·.reg.gptab) 0x5100
    ∧ seen (.registerWrite 0x3208 0xF) s (·.reg.waymask) [(0, 0xF)] ∧ seen (.registerWrite 0x4020 0x105F) s (·.reg.rascfg) 0x105F
    ∧ irqFields 0x60 = false ∧ seen (.registerWrite 0x5010 0x102) s (·.reg.ckirq) 0x102
    ∧ seen (.registerWrite 0x3248 (.ofNat 64 (2 ^ 36 + 0x21))) s (·.reg.svpool) [(1, .ofNat 64 (2 ^ 36 + 0x21))]
    ∧ seen (.registerWrite 0x5048 (.ofNat 64 (2 ^ 36 + 0x21))) s (·.reg.ckarea) [(1, .ofNat 64 (2 ^ 36 + 0x21))] ∧ areaFields 2 (2 ^ 36 + 0x21) = false := by
  decide +kernel

/-! Checkpoints (R428-R443) -/

/-- Areas of 2 MiB on every slice, at 2 MiB from its start, and a management session. -/
def areas : Tab Dword := (List.range 12).map fun k => (k, .ofNat 64 (k * 2 ^ 36 + 0x200021))
def run (f : Encl → Encl) : State :=
  let s := kept fun e => f { e with ctl := 0x600 }
  { s with reg := { s.reg with ckarea := areas }, sessions := [⟨1, false, true, 0⟩], links := [(3, { up := true, peer := 7 })] }

/-- DATA of a request: STEP, RVA 0x1000, MODE, and KVA for a restore. -/
def jobOf (restore : Bool) (step mode kva : Nat) (began : Bool) : CkJob :=
  ⟨1, restore, 0, leBytes 8 0 ++ leBytes 8 step ++ leBytes 8 0x1000 ++ leBytes 8 mode ++ leBytes 8 kva ++ List.replicate 24 0, began, none, none⟩

def asked (j : CkJob) (s : State) : State := { s with ckJobs := [j] }
def noted (t : State) : Option (Nat × Nat) := t.reg.ckLast.find 1

/-- A notice, one to all, its deadline; the halt of a checkpoint, one that is refused, one under way, and one that is formed. -/
theorem test_checkpoints : let s := run id
    let halted (t : State) : Option (Bool × Nat) := (t.encls.find 1).map fun e => (e.halted, e.ckseq)
    seen (.notice 1 500) s (fun t => ((t.encls.find 1).bind (·.notice), noted t)) (some 500, some (1, 0))
    ∧ seen (.notice 0xFFFF 500) s noted (some (1, 0))
    ∧ seen (.noticeDeadline 1) (run fun e => { e with notice := some 0 }) (fun t => (halted t, noted t)) (some (true, 0), some (4, 0))
    ∧ seen (.checkpoint 1) (asked (jobOf false 1 0 0 false) s) (fun t => (halted t, t.ckJobs.map (·.began))) (some (true, 0), [true])
    ∧ seen (.checkpoint 1) (asked (jobOf false 0 0 0 false) s) (fun t => (noted t, t.ckJobs.length)) (some (2, 1), 0)
    ∧ seen (.checkpoint 1) (asked { jobOf false 1 0 0 true with result := some ⟨0x1000, 1, .ok, 1⟩ } (run fun e => { e with halted := true }))
      (fun t => (halted t, noted t, t.ckJobs.length)) (some (false, 0), some (2, 0), 0)
    ∧ seen (.checkpoint 1) (asked { jobOf false 1 1 0 true with result := some ⟨0x1000, 1, .ok, 1⟩ } (run fun e => { e with halted := true }))
      halted (some (true, 0))
    ∧ seen (.checkpoint 1) { asked (jobOf false 1 0 0 true) s with pins := [(0x34, 1)] } (fun t => t.ckJobs.length) 1
    ∧ (s.haltDone 1, ({ s with pins := [(0x34, 1)] } : State).haltDone 1) = (true, false) := by decide +kernel

theorem test_checkpoint_turn : let s := asked (jobOf false 1 0 0 true) (run id)
    s.secondJob 1 false = none ∧ s.ckJobs.find? (fun j => j.eid == 1) = some (jobOf false 1 0 0 true) ∧ s.ckTurn (jobOf false 1 0 0 true) = true := by
  decide +kernel

/-- A restore of a malformed request. -/
theorem test_restore_refused : seen (.restore 1) (asked (jobOf true 0 2 0 false) (run id)) noted (some (3, 1))
    ∧ seen (.restore 1) (asked { jobOf true 0 0 0 false with result := some ⟨0x1000, 1, .ok, 2⟩ } (run id)) noted (some (3, 0)) := by decide +kernel

/-- Migration: out and in; readiness at the destination and at the source; the failures. -/
theorem test_migrations : let s := run id
    let at_ (out : Bool) (stage : Nat) (image : Option CkImage) : State := run fun e => { e with migr := some ⟨out, 7, stage, image⟩, halted := out }
    let st (t : State) : Option (Option (Bool × Nat)) := (t.encls.find 1).map fun e => e.migr.map fun m => (m.out, m.stage)
    let img : CkImage := ⟨0, 0, 0, 0, [], [], [], [], [], [], [], [], 0, 0, [], [], 0, 0, []⟩
    migrateStatus s 1 8 = .badstate
    ∧ seen (.migrateOut 1 8) s (fun t => t.spdmOut.map (·.bytes)) [[2]]
    ∧ seen (.migrateIn 1 7) s st (some (some (false, 0)))
    ∧ (s.heldMove 1 true 8).isNone = true ∧ arrivalStatus s 1 7 = .ok ∧ s.ckOthers 1 = false
    ∧ seen (.migrateIn 1 7) { s with ckJobs := [{ jobOf false 1 0 0 false with eid := 2 }] } (fun t => (st t, t.ckJobs.map (·.move)))
      (some none, [none, some (false, 7)])
    ∧ seen (.migrateOut 1 8) { s with ckJobs := [⟨1, false, 0, [], false, some (true, 8), none⟩] } (fun t => (t.ckJobs.length, t.spdmOut.map (·.bytes))) (0, [[2]])
    ∧ seen (.migrationReady 1) (at_ true 0 none) (fun t => (st t, noted t)) (none, some (5, 0))
    ∧ noted ((at_ false 0 none).receive 1 (enclOf 1) ⟨false, 7, 0, none⟩ img) = some (6, 4)
    ∧ seen (.migrationGo 1) (at_ false 1 (some img)) (fun t => (st t, noted t)) (some none, some (6, 0))
    ∧ seen (.migrationStreamFail 1) (at_ false 0 none) st (some none)
    ∧ seen (.migrationStreamFail 1) (at_ true 0 none) (fun t => (st t, (t.encls.find 1).map (·.halted))) (some none, some false)
    ∧ seen (.migrationStreamFail 1) (at_ false 1 none) st (some (some (false, 2)))
    ∧ seen (.migrationStreamFail 1) (at_ false 2 none) st none := by decide +kernel

/-- The last check of a restore or a migration: pages of a checkpoint find frames of the pool; and check 1 of an empty shard. -/
theorem test_restore_parts : let s := run fun e => { e with queues := [], threads := 1 }
    let t : State := { s with reg := { s.reg with ckpool := [(0, 0x800021)] } }
    ((s.encls.find 1).bind fun e => placePages s e [] (List.range 12)) = none
    ∧ (((t.encls.find 1).bind fun e => placePages t e [] (List.range 12)).map fun l => (l.length, l.head?.map (·.ty), l.head?.map (·.pa))) = some (17, some 3, some 0x810000)
    ∧ shardShape 3 (shardHeader 3 4 1 0) = true ∧ shardShape 2 (shardHeader 3 4 1 0) = false := by decide +kernel

/-! Attestation (R402, R444-R449) -/

def requestOf (code p1 p2 : Byte) (session : Option Nat) (payload : List Byte) : SpdmReq := ⟨false, session, code, p1, p2, payload⟩
def answers (t : State) : List (List Byte) := t.spdmOut.map fun x => slice x.bytes 0 4

/-- The algorithms of Table 26.2. -/
def offer : List Byte :=
  leBytes 2 48 ++ [1, 0] ++ leBytes 4 2 ++ leBytes 4 1 ++ List.replicate 12 0 ++ [1, 0, 0, 0] ++ [4, 0, 8, 0] ++ [2, 0x20, 0x10, 0, 3, 0x20, 2, 0]

/-- The requests of Table 26.3 outside and inside a session, one refused before the boot is done, and one unknown. -/
theorem test_spdm : let s := { kept id with sessions := [⟨1, false, true, 0⟩], lmsLeft := 3 }
    let early : State := { s with booted := false }
    seen (.getVersion (requestOf 0x84 0 0 none [])) s answers [[0x10, 4, 0, 0]]
    ∧ seen (.getVersion (requestOf 0x84 0 0 none [])) early answers [[0x13, 0x7F, 0x42, 0]]
    ∧ seen (.getCapabilities (requestOf 0xE1 0 0 none [])) s answers [[0x13, 0x61, 0, 0]]
    ∧ offersAlgorithms (requestOf 0xE3 2 0 none offer) = true ∧ offersAlgorithms (requestOf 0xE3 0 0 none offer) = false
    ∧ seen (.negotiateAlgorithms (requestOf 0xE3 2 0 none offer)) s answers [[0x13, 0x63, 2, 0]]
    ∧ seen (.negotiateAlgorithms (requestOf 0xE3 0 0 none offer)) s answers [[0x13, 0x7F, 1, 0]]
    ∧ seen (.getDigests (requestOf 0x81 0 0 none [])) s answers [[0x13, 1, 0, 1]]
    ∧ seen (.getCertificate (requestOf 0x82 0 0 none [0, 0, 4, 0])) s answers [[0x13, 2, 0, 0]]
    ∧ seen (.challenge (requestOf 0x83 0 0 none (List.replicate 40 0))) s (fun t => (answers t, t.lmsLeft)) ([[0x13, 3, 0, 1]], 2)
    ∧ (let none_ : State := { s with lmsLeft := 0 }
      let r := requestOf 0x83 0 0 none (List.replicate 40 0)
      let waits (x : SpdmReq) (t : State) : State := { t with reg := { t.reg with spdmHeld := some x } }
      seen (.challenge r) none_ (fun t => (t.reg.spdmHeld == some r, t.spdmOut.length)) (true, 0)
      ∧ seen (.challenge r) (waits (requestOf 0xE4 0 0 none []) none_) answers [[0x13, 0x7F, 3, 0]]
      ∧ seen (.challenge r) (waits { r with relay := true } none_) answers []
      ∧ seen (.challenge r) (waits r s) (fun t => (answers t, t.reg.spdmHeld.isNone)) ([[0x13, 3, 0, 1]], true))
    ∧ seen (.unsupportedRequest (requestOf 0x66 0 0 none [])) s answers [[0x13, 0x7F, 7, 0x66]] := by decide +kernel

theorem test_measurements : let s := { kept id with lmsLeft := 3 }
    seen (.getMeasurements (requestOf 0xE0 0 0 none [])) s answers [[0x13, 0x60, 15, 0]]
    ∧ seen (.getMeasurements (requestOf 0xE0 0 13 none [])) s (fun t => t.spdmOut.map fun x => slice x.bytes 4 9) [[1, 39, 0, 0, 13, 1, 35, 0, 0x80]]
    ∧ (s.measRecord 13).isSome = true ∧ s.measRecord 20 = none
    ∧ seen (.getMeasurements (requestOf 0xE0 0 20 none [])) s answers [[0x13, 0x7F, 1, 0]] := by decide +kernel

/-- Sessions: the first, the ninth, its messages and its end, by request and by time; a relay's buffer. -/
theorem test_sessions : let s := { kept id with lmsLeft := 3 }
    let x : Session := ⟨1, false, false, 0⟩
    let in_ (n : Nat) : State := { s with sessions := List.replicate n x }
    let buf (b : Option Nat) : State := { s with reg := { s.reg with spdmBuf := b } }
    seen (.keyExchange (requestOf 0xE4 0 0 none [])) s (fun t => (answers t, t.sessions.length, t.lmsLeft)) ([[0x13, 0x64, 60, 0]], 1, 2)
    ∧ seen (.keyExchange (requestOf 0xE4 0 0 none [])) (in_ 8) answers [[0x13, 0x7F, 3, 0]]
    ∧ seen (.finish (requestOf 0xE5 0 0 (some 1) [])) (in_ 1) (fun t => (answers t, t.sessions.map (·.done))) ([[0x13, 0x65, 0, 0]], [true])
    ∧ seen (.heartbeat (requestOf 0xE8 0 0 (some 1) [])) (in_ 1) answers [[0x13, 0x68, 0, 0]]
    ∧ seen (.endSession (requestOf 0xEC 0 0 (some 1) [])) (in_ 1) (fun t => (answers t, t.sessions.length)) ([[0x13, 0x6C, 0, 0]], 0)
    ∧ seen (.sessionTimeout 1) { in_ 1 with time := 120000000000 * Config.ticksPerNs } (·.sessions.length) 0
    ∧ seen (.spdmrly 0x24000) (buf none) (·.reg.spdmBuf) (some 0x24000)
    ∧ seen (.spdmrly 0x24000) (buf (some 0x25000)) (fun t => t.homeBytes 0x24000 4) [0x13, 0x7F, 3, 0] := by decide +kernel

/-! Power, ports, links and reset (R449-R457) -/

/-- Host core 0 at H with a management session, and slice 1 in no partition. -/
def managed : State :=
  let s := kept id
  { s with sessions := [⟨1, false, true, 0⟩], reg := { s.reg with part := [(0, .ofNat 64 (0x101 + 2 ^ 32 + 2 ^ 48))] } }

theorem test_power : let s := managed
    let pw (t : State) : Nat × Nat × Option Nat × List Nat := ((t.slicePower 1).point, (t.slicePower 1).state, (t.slicePower 1).change, (t.slicePower 1).queue)
    let changing (p : Power) : State := { s with power := [(1, p)] }
    seen (.power 12 0 0) s (fun t => t.spdmOut.map (·.bytes)) [[1]] ∧ seen (.power 1 0 2) s pw (2, 0, some 0, [])
    ∧ seen (.pstateWrite 1 0x11) s pw (1, 0, some 1, []) ∧ seen (.pstateWrite 1 0x40) s pw (0, 0, none, [])
    ∧ (s.pstateOk 1 0x11, s.pstateOk 0 0x11, s.pstateOk 1 0x40) = (true, false, false)
    ∧ seen (.pstateWrite 1 0x11) (changing { change := some 0 }) pw (0, 0, some 0, [0x11])
    ∧ seen (.pstateChangeEnd 1) (changing { point := 1, change := some 2 }) (fun t => (pw t, (t.slicePower 1).eff)) ((1, 2, none, []), 1)
    ∧ seen (.pstateChangeEnd 1) (changing { state := 3, change := some 0 }) pw (0, 0, none, [])
    ∧ seen (.throttleStep 1 105) s (fun t => ((t.slicePower 1).thr, (t.slicePower 1).change)) (1, some 0)
    ∧ seen (.throttleStep 1 104) s (fun t => ((t.slicePower 1).thr, (t.slicePower 1).change)) (0, none)
    ∧ s.reg.thrcfg.toNat / 256 % 32 = 0 := by decide +kernel

/-- PACKAGE, HCSTART of host core 2 at word 5, an MSI, a link. -/
theorem test_module : let s := managed
    let up : State := { s with links := [(3, { up := true })] }
    seen (.package 9) s (·.reg.pkgnum) 9 ∧ seen (.package 9) up (fun t => t.spdmOut.map (·.bytes)) [[2]]
    ∧ s.cur = .host 0
    ∧ seen (.hcstart (.ofNat 64 (5 * 2 ^ 32 + 0x201))) s (fun t => (t.thread? (.host 2)).map fun x => (x.wait, x.level, x.w)) (some (.none, .h, 5))
    ∧ seen (.msiWrite 1) { s with reg := { s.reg with pciecfg := [(1, 0x102)] } } (fun t => (t.hostCore 2).bankH.ipend) 2
    ∧ seen (.linkTrain 3 7) s (fun t => (t.links.find 3).map fun l => (l.up, l.peer)) (some (true, 7))
    ∧ seen (.linkDown 3) up (fun t => (t.links.find 3).map (·.up)) (some false)
    ∧ (State.loseWrites { s with launches := [(1, launch1)] } [launch1.eid + 1]).launches = [(1, launch1)]
    ∧ seen .lmsTreeRenew { s with lmsLeft := 0, lmsTop := 4 } (fun t => (t.lmsTop, t.lmsLeft)) (5, 1024)
    ∧ seen .moduleReset s (fun t => (t.booted, t.encls.length, t.lmsTop)) (false, 0, s.lmsTop + 1)
    ∧ seen .moduleReset { s with booted := false, th := { s.th with wait := .stopped } } (fun t => (t.booted, t.th.wait)) (true, .none) := by
  decide +kernel

/-! Accesses that wait, void registers, and completion at the home -/

/-- `OperandReads`: a word that reads a void register, as a source of a sum and as the address of a load. -/
theorem test_void_sources :
    let s : State := { ints with th := { ints.th with lvoid := 1 } }
    ∀ i ∈ [Instr.add h0 (.g 20) (.l 0) (.g 5), .ldsW h0 (.g 20) (.l 0) 0, .stsW h0 (.g 5) (.l 0) 0],
      (s.chain.isNone && s.th.owed.isNone && !held i s && (gate i (begin_ i s)).isNone && loose i (begin_ i s)
        && !(i.readCodes.filter (begin_ i s).looseCode).all i.dataCodes.contains) = true := by decide +kernel

/-- `GlobalAtomics`: the uncached page of a HYP frame with a cached translation, and what each word leaves at the home. -/
theorem test_atomics_at_home :
    let s := (after (.ldW h0 (.g 20) (.g 2) 0) accesses).getD accesses
    let b := begin_ (.atomAdd h0 (.g 20) (.g 2) (.g 10)) s
    let sp := b.space (.host 0)
    (∀ i ∈ [Instr.atomAdd h0 (.g 20) (.g 2) (.g 10), .atomMin h0 (.g 20) (.g 2) (.g 10), .atomMax h0 (.g 20) (.g 2) (.g 10),
      .atomMinu h0 (.g 20) (.g 2) (.g 10), .atomMaxu h0 (.g 20) (.g 2) (.g 10), .atomAnd h0 (.g 20) (.g 2) (.g 10), .atomOr h0 (.g 20) (.g 2) (.g 10),
      .atomXor h0 (.g 20) (.g 2) (.g 10), .atomXchg h0 (.g 20) (.g 2) (.g 10), .atomCas h0 (.g 20) (.g 2) (.g 10),
      .atomFadd h0 .zr (.g 2) (.g 10)], runsB s i = true)
    ∧ b.lineHeld 0x2000 4 = false ∧ b.findLine 4608 sp 0x2000 = none
    ∧ (b.tlb.find? (·.covers sp 0x2000)).map (fun t => (t.mt, t.r, t.w, t.at 0x2000)) = some (1, true, true, 0x25000)
    ∧ b.region 0x25000 = .hbm (homeOf 0x2000) ∧ (b.pot 0x25).state = .hyp ∧ b.lineBusy 4608 (0x25000 / 128) = false
    ∧ b.grantFails (0x25000 / 64) = false
    ∧ (after (.atomAdd h0 (.g 20) (.g 2) (.g 11)) s).map (fun t => (leNat (Memory.bytes t.mem 0x25000 4), (t.final 20).toNat)) = some (11, 5) := by
  decide +kernel

/-- `GlobalLoads`: a line that the host's data L1 holds, and one that the quad's constant cache holds. -/
theorem test_constants_held :
    let i := Instr.ldcW h0 (.g 20) (.g 0) 1
    let s := (after i accesses).getD accesses
    let t := (after i (simt [(0, 0x1000)])).getD (simt [])
    runsB s i = true ∧ ((begin_ i s).lines.any fun l => l.expired (begin_ i s).ns) = false
    ∧ ((begin_ i s).findLine 4608 ((begin_ i s).space (.host 0)) 0x1004).map (fun l => (l.rOk, l.poison, l.read 4 4)) = some (true, [], some [5, 6, 7, 8])
    ∧ runsB t i = true
    ∧ ((begin_ i t).clines.find? fun l => l.core = 0 && l.sp = (begin_ i t).space (.simt 1 0) && l.va = 0x1000 / 128).bind (fun l => l.read 4 4)
      = some [0, 0, 0, 0] := by decide +kernel

/-- `GlobalLoads` and `GlobalStores`: plain accesses of a SIMT thread that may reach memory later than they issue: a 16-byte one in four
parts, with its destination pending. -/
theorem test_late_accesses :
    let s : State := { simt [(0, 0x1000)] with th := { (simt [(0, 0x1000)]).th with late := true } }
    let late (i : Instr) (n : Nat) (kind : AccessKind) (dst : List Nat) : Bool :=
      let b := begin_ i s
      let a : Access := { sp := b.space b.cur, va := 0x1000, kind := kind }
      runsB s i && !b.lineHeld 0x1000 n && b.mayGoLate a (entryOf b a n 0 false 0 dst)
    late (.ldW h0 (.g 20) (.g 0) 0) 4 .read [20] = true ∧ late (.ldQ h0 (.g 20) (.g 0) 0) 16 .read [20, 21, 22, 23] = true
    ∧ late (.stW h0 (.g 20) (.g 0) 0) 4 .write [] = true ∧ late (.stQ h0 (.g 20) (.g 0) 0) 16 .write [] = true
    ∧ (after (.ldQ h0 (.g 20) (.g 0) 0) s).map (fun t => (t.log.map fun e => (e.va, e.dst), t.th.late))
      = some ([(0x1000, [20]), (0x1004, [21]), (0x1008, [22]), (0x100C, [23])], false) := by decide +kernel

/-- `CacheAccess`, `CacheMaintenance`, `Barriers`, `Drains`, `CopyIssue`, `SystemRegisters`, `KeyWords`: no atomic unit holds a line, and
nothing of the thread waits. -/
theorem test_nothing_held :
    let s := (after (.stW h0 (.g 10) (.g 0) 0) accesses).getD accesses
    let sp := s.space (.host 0)
    s.waitsForHold (fun _ => true) = false ∧ s.logHeld = false ∧ s.th.fences = [] ∧ s.fenceHeld = false ∧ s.fenceMeetsHold 1 4 true = false
    ∧ ((List.range 4).all fun k => !s.fenceMeetsHold k 5 true) = true ∧ (s.lines.any fun l => l.expired s.ns) = false
    ∧ s.lineHeldAt (0x25000 / 128) = false ∧ (s.findLine 4608 sp 0x1000).map (·.rOk) = some true
    ∧ bars.storesWait = false ∧ (simt []).fencing = false ∧ (simt []).fenceHeld = false ∧ (simt []).myAsks = [] ∧ (simt []).th.early = []
    ∧ (simt [(0, 0x2000), (5, 0xF0000E00), (6, 256)]).drainMeetsHold 0 0x2000 ⟨false, 0x100, 0xFF, true, true, false, 1⟩ 256 0 = false
    ∧ copies.fenceMeetsHold 1 4 false = false ∧ (beside []).waitsForHold (fun l => l.slot.toNat = 1) = false := by decide +kernel

/-! Clauses that need a state of their own -/

/-- `MatrixSignatures`: the last of 32 signatures performs MMA; the other 31 stand in convergence register 2. -/
theorem test_last_signature :
    let x : MmaCtl := ⟨false, true, .zr, .zr, 2, 4, 4⟩
    let i := Instr.mma h0 3 (.g 16) (.g 32) x
    let fixed := [3, (Opnd.g 16).code, (Opnd.g 32).code, mmaExt x]
    let sign (k : Nat) : Sign := ⟨k, 0, 0, 0x7C⟩
    let t : Team := { launch := 1, core := 0, slot := 0, groups := 1, cvs := [(2, { set := 1, op := some ⟨0xE0, fixed, (List.range 31).map fun k => sign (k + 1), 5⟩ })] }
    let s : State := { simt [] with teams := [(1, t)] }
    let b := begin_ i s
    runsB s i = true ∧ signTrap b 1 t 2 0xE0 fixed 0 = none ∧ (setGroups (t.cv 2).set).filter (· < 0) = []
    ∧ (addSign b 1 t 2 0xE0 fixed ⟨0, 0, 0, 0x7C⟩).2.map (fun p => (p.1, p.2.op)) = some (1, 5)
    ∧ (after i s).map (fun u => ((u.quad 0).table.map (fun p => (p.tile, p.op, p.group)), u.ops.map (·.1), (u.teams.find 1).map fun t => (t.cv 2).op.isNone))
      = some ([(3, 5, 0)], [5], some true)
    ∧ (let a : Team := { launch := 1, core := 0, slot := 0, groups := 1, cvs := [(2, { set := 2 })] }
      let r : State := { simt [] with teams := [(1, a)] }
      signTrap (begin_ i r) 1 a 2 0xE0 fixed 0 = some .convset) := by decide +kernel

/-- What an error at a site leaves beside its count: the class's CORR and UNCORR on slice 0. -/
def struck (site : ErrorSite) (s : State) : Option (Option (Nat × Nat) × State) := match exec (.uncorrectableError site) s with
  | .next t => some ((match site with
      | .operandLog _ => t.reg.eccCnt.find 0
      | .barrier _ _ => t.reg.eccCnt.find 16
      | .l1 _ _ | .roLine _ _ _ => t.reg.eccCnt.find 32
      | .tile _ _ | .bBuffer _ => t.reg.eccCnt.find 48
      | .l2 _ => t.reg.eccCnt.find 64
      | .tlb _ _ | .counterCache _ | .queueEntry _ _ => t.reg.eccCnt.find 80
      | .rootStore _ _ => t.reg.eccCnt.find 96
      | .journal _ | .tandem _ => t.reg.eccCnt.find 112
      | _ => none), t)
  | _ => none

def strikes {α : Type} [DecidableEq α] (site : ErrorSite) (s : State) (f : State → α) (c : Option (Nat × Nat)) (v : α) : Bool :=
  match struck site s with
  | some (k, t) => k == c && f t == v
  | none => false

/-- The arrays of a core and its quad (R419-R422): where the word, the tile element, the object, the buffer or the dirty line then holds poison,
the quad has an uncorrectable error; a clean line goes. -/
theorem test_core_arrays :
    let bars := (simt []).modStore (.team 1) fun x => { x with bars := [(1, { valid := true, arriveExp := 1, arrivePend := 1 })] }
    let line : Line := { dirtyLine with dirty := [] }
    let buffered := engine (some 0) 0 { bufs := [⟨5, 0, 2, true, [], 0, false⟩] }
    strikes (.operandLog 3) logged (fun t => (t.log.map (·.poison), (t.quad 0).uncorr)) (some (0, 1)) ([true], true)
    ∧ strikes (.barrier (.team 1) 1) bars (fun t => (((t.store (.team 1)).bars.find 1).map (·.poison), (t.quad 0).uncorr)) (some (0, 1)) (some true, true)
    ∧ strikes (.tile 1 4095) (simt []) (fun t => (t.teams.find 1).map (·.tpoison)) (some (0, 1)) (some [4095])
    ∧ strikes (.bBuffer 5) buffered (fun t => (t.quad 0).bufs.map (·.poison)) (some (0, 1)) [true]
    ∧ strikes (.l1 0 32) cached (fun t => (t.lines.map (·.poison), (t.quad 0).uncorr)) (some (0, 1)) ([[4]], true)
    ∧ strikes (.l1 0 32) { cached with lines := [line] } (fun t => (t.lines.length, (t.quad 0).uncorr, (t.quad 0).corr.length)) (some (1, 0)) (0, false, 1)
    ∧ strikes (.roLine true 0 32) { cached with ilines := [line], clines := [line] } (fun t => (t.ilines.length, t.clines.length)) (some (1, 0)) (0, 1)
    ∧ strikes (.roLine false 0 32) { cached with ilines := [line], clines := [line] } (fun t => (t.ilines.length, t.clines.length)) (some (1, 0)) (1, 0) := by
  decide +kernel

/-- The arrays of a slice (R416, R419, R420): a translation that goes, a counter, a queue entry and a journal copy, and a copy of a triplet's
state, the second of which stops it; a line of HBM, of data and of the counter region; a line of the L2, a root and the tandem. -/
theorem test_slice_arrays :
    let cp : Triplet := ⟨0, 0, 0⟩
    let st (t : State) : Nat × Bool × Bool := ((t.trip 0).last, (t.trip 0).duplex, (t.trip 0).stop)
    let s := fed 0 []
    let walked := (after (.pageTableWalk ⟨1, 1, 0⟩ 0x1000 .read) (simt [])).getD (simt [])
    let half : State := { s with trips := [(0, { duplex := true, last := 2 })] }
    walked.tlb.map (·.page) = [1] ∧ strikes (.tlb ⟨1, 1, 0⟩ 1) walked (·.tlb.length) (some (1, 0)) 0
    ∧ strikes (.counterCache 0) s (·.reg.rasstat) (some (1, 0)) 0
    ∧ strikes (.queueEntry 0 2) s st (some (1, 0)) (2, true, false)
    ∧ strikes (.journal 1) s (fun t => (t.trip (tripKey ⟨3, 0, 0⟩)).last) (some (0, 1)) 1
    ∧ strikes (.tripletState cp 1) s st none (1, true, false) ∧ strikes (.tripletState cp 1) half st none (2, true, true)
    ∧ strikes (.tripletState cp 2) half st none (2, true, false)
    ∧ strikes (.hbm 0x34001) s (fun t => (t.badTags, t.badMeta)) none ([0xD00], [])
    ∧ strikes (.hbm 0xFB0000000) s (fun t => (t.badTags, t.badMeta)) none ([], [0xFB0000000 / 64])
    ∧ strikes (.l2 0x34000) s (fun t => ((t.pot 0x34).state, (t.encls.find 1).map (·.failed))) (some (0, 1)) (.poisoned, some true)
    ∧ strikes (.rootStore 0 4095) s (fun t => (t.pot 0x34).state) (some (0, 1)) .encl
    ∧ strikes (.tandem false) s (fun t => (t.tandem.activeB, t.tandem.standby)) (some (0, 1)) (true, false)
    ∧ strikes (.tandem true) s (fun t => (t.tandem.activeB, t.tandem.standby)) (some (0, 1)) (false, false)
    ∧ strikes (.tandem true) { s with tandem := { failed := true } } (fun t => (t.tandem.activeB, t.tandem.standby)) (some (0, 1)) (false, true) := by
  decide +kernel

/-- The stop of a command processor, of a walker and of the anchor die's controller (Table 24.2). -/
theorem test_stopped_work :
    let s := fed 0 [(0, 0, 4)]
    let err (t : State) : Option Word := (t.launches.find 1).bind (·.error)
    let made : State := (s.stopWork ⟨0, 0, 0⟩)
    err made = some 0x202 ∧ made.queues.map (·.2.stopped) = [true] ∧ made.cpStopped 0 = false
    ∧ err (s.stopWork ⟨1, 0, 0⟩) = some 0x202 ∧ err (s.stopWork ⟨1, 0, 1⟩) = none ∧ err (s.stopWork ⟨3, 0, 0⟩) = none
    ∧ ({ s with trips := [(0, { stop := true })] } : State).cpStopped 0 = true
    ∧ ({ s with tandem := { s.tandem with failed := true } } : State).cpStopped 0 = true := by decide +kernel

/-- `registerWrite`: the registers that store, and the last one writes that is ignored. -/
theorem test_more_register_writes : let s := fed 0 []
    seen (.registerWrite 0x1008 0x705) s (·.reg.frwt) [(5, 7)] ∧ seen (.registerWrite 0x3068 0x30001) s (fun t => (t.encls.find 1).map (·.weight)) (some 3)
    ∧ seen (.registerWrite 0x3200 0xFF0B) s (·.reg.slsel) 0xFF0B ∧ seen (.registerWrite 0x3200 0xFF0C) s (·.reg.slsel) 0
    ∧ seen (.registerWrite 0x3210 63) { s with reg := { s.reg with slsel := 0x102 } } (·.reg.share) [(2, 63)]
    ∧ seen (.registerWrite 0x3300 1) s (fun t => (t.reg.enqsel, t.reg.enqval)) (1, 0)
    ∧ seen (.registerWrite 0x4010 0x70F) s (·.reg.eccsel) 0x700 ∧ seen (.registerWrite 0x4010 0x60C) s (·.reg.eccsel) 0
    ∧ seen (.registerWrite 0x5000 0xFFFF) s (·.reg.cksel) 0xFFFF ∧ seen (.registerWrite 0x6060 (.ofNat 64 (85 * 2 ^ 16))) s (·.reg.thrcfg) (.ofNat 64 (85 * 2 ^ 16))
    ∧ seen (.registerWrite 0x6070 0xB03FF) s (fun t => (t.reg.sevsel, t.reg.sevsrc)) (0xB03FF, [(11, 0x3FF)])
    ∧ seen (.registerWrite 0x6098 0x102) s (·.reg.pciecfg) [(3, 0x102)]
    ∧ seen (.registerWrite 0x5000 (.ofNat 64 (2 ^ 48))) s (·.reg.cksel) 0 ∧ trselFields 0 = true ∧ seen (.registerWrite 0x4000 0) s (·.reg.trsel) 0
    ∧ (kept id).reg.ckpool = [] ∧ seen (.registerWrite 0x50A8 (.ofNat 64 (2 ^ 36 + 0x21))) s (·.reg.ckpool) [(1, .ofNat 64 (2 ^ 36 + 0x21))] := by decide +kernel

/-- `EngineEvents`: a restored buffer returns to a free one; the next movement of a core begins; the word of a region with no unfenced store. -/
theorem test_engine_turns :
    let b : BBuf := ⟨5, 0, 2, true, [], 0, false⟩
    let moves : State := { simt [] with moves := [⟨0, 1, 0, 3, 0xE00, 7, false, 0, none⟩], time := 3 * Config.ticksPerCoreClock }
    seen (.bReadStart 0) (engine (some 0) 0 { spare := [b] }) (fun t => ((t.quad 0).bufs.length, (t.quad 0).spare.length)) (1, 0)
    ∧ moves.mayMove 0 = true ∧ seen (.mloadMovementEnd 0) moves (fun t => t.moves.map (·.began)) [some (3 * Config.ticksPerCoreClock)]
    ∧ (engine (some 0) 0 {}).overdue 0 = false ∧ (engine (some 0) 0 {}).portTaken 0 = false
    ∧ (engine (some 0) (16 * 240) { bufs := [⟨5, 0, 2, false, [], 0, false⟩] }).clock = 16
    ∧ seen (.bReadEnd 0) (engine (some 0) (16 * 240) { bufs := [⟨5, 0, 2, false, [], 0, false⟩] }) (fun t => (t.quad 0).bufs.map (·.ready)) [false] := by
  decide +kernel

/-- `TransferEvents`: a drain with ADD that has moved takes the lowest of its banks that is left, and with the last one is done; a bank that
another drain holds keeps it waiting. -/
theorem test_banks :
    let x : DrainCtl := { f32Drain with glb := false, add := true }
    let s := drainTo x 0xF0000E00 false []
    let d (n : Nat) (taken : List Nat) : Drain := ⟨n, 1, 0, x, 0xF0000E00, 256, [0x3F800000, 0x3F800000] ++ List.replicate 126 0, ⟨1, 1, 0⟩, 0, 0, false, [], some 0, taken,
      some [], false⟩
    let at_ (l : List Drain) : State := { s with time := 9 * Config.ticksPerCoreClock, drains := l }
    let all := (s.drainBanks (d 9 [])).dedup
    (leastOf all).isSome = true
    ∧ seen (.drainComplete 9) (at_ [d 9 []]) (fun t => t.drains.map (·.taken)) [[(leastOf all).getD 0]]
    ∧ seen (.drainComplete 9) (at_ [d 9 (all.drop 1)]) (fun t => t.drains.length) 0
    ∧ seen (.drainComplete 9) (at_ [d 9 (all.drop 1), { d 10 (all.take 1) with idx := 1 }]) (fun t => t.drains.length) 2 := by decide +kernel

/-- `ContextEvents`: sealed work whose digest no longer stands ends its enclave; an engine that a write clears serves no channel; a channel bound
under the same owner does not keep a write waiting. -/
theorem test_context_clauses : let s := fed 0 []
    let bound : State := s.modStore (.host 0) fun x => { x with chans := [(3, { queue := [{ plain with started := true }], phys := some 3 })] }
    let img : TeamImage := ⟨1, { launch := 1, core := 0, slot := 0, groups := 1 }, [(0, { w := 9 })], [], [], [], [], [], [], [], ([], [], [])⟩
    let kept_ : State := changed { s with teams := [], launches := [(1, { launch1 with sealedW := [(2, 4, 0)] })] } fun e => { e with
      images := [img], savePas := [0x34000], digest := some 7, halts := 1 }
    ((kept_.encls.find 1).map kept_.digestFails) = some true
    ∧ seen (.contextRestore 1 2) kept_ (fun t => (t.encls.find 1).map (·.failed)) (some true)
    ∧ seen (.ceownWrite 0 0) bound (fun t => ((t.ceown 0).getLsbD 8, t.reg.ceNext)) (false, [])
    ∧ (({ bound with reg := { bound.reg with ceown := [(0, 0)] } } : State).served (.host 0) 3).isNone = true
    ∧ (({ bound with reg := { bound.reg with ceNext := [(0, 1)] } } : State).served (.host 0) 3).isNone = true
    ∧ (bound.served (.host 0) 3).isSome = true
    ∧ ({ s with sweeps := [(524288 + 5, { q := 0, slot := 1 })] } : State).blockHeld 0 = false := by decide +kernel

/-- `ResilienceEvents`: the update asks for the boundaries that are not there, and gives up what it asked for. -/
theorem test_quiescence : let s := imaged
    let v : Dword := .ofNat 64 (2 ^ 48 + 0x24000)
    let t : State := { s with tandem := { s.tandem with update := some v, quiet := [0] }, paused := [0, 3] }
    s.unpaused = [0] ∧ (t.endUpdate 4).paused = [3] ∧ (t.endUpdate 4).tandem.quiet = [] ∧ t.unpaused = [] := by decide +kernel

/-- `StepRunsDecoded`: a core whose thread is overdue comes first, and a bundle whose thread has a word to issue tries it. -/
theorem test_due_core :
    let s := simt []
    let late : State := { s with time := 1024 * Config.ticksPerCoreClock }
    let one : State := { s with agenda := [.bundle 0 [] [.simt 1 0]] }
    s.dueCore s.time = none ∧ late.dueCore late.time = some 0 ∧ late.catchUp.dueCore late.time = some 0
    ∧ (late.reaches [.thread (.host 0) 5]) = some (late.time + 5 * periodOf (.host 0)) ∧ late.reaches [.bundle 0 [] []] = none
    ∧ ((late.pickFirst 0).agenda.length, (late.pickFirst 0).time) = (1, late.time)
    ∧ (tryBundle { one.catchUp with agenda := [] } [.simt 1 0]).2 = true
    ∧ (tryBundle { one.catchUp with agenda := [] } [.simt 9 0]).2 = true := by decide +kernel

/-- The hypotheses that say that nothing stands in the way: of the scratchpad words, of a global access, of a system word, of a page word and of
EDESTROY. -/
theorem test_nothing_in_the_way :
    let s := simt [(5, 0xF0000E00)]
    let o := Owner.team 1
    let sp : Space := ⟨1, 1, 0⟩
    let ac : Access := { sp := sp, va := 0x2000, kind := .read }
    let u := (after (.pageTableWalk sp 0x2000 .read) s).getD s
    s.spadHeld o 0xE00 4 = false ∧ s.bankHeld o 0xE00 4 = false ∧ s.regionHits o 0xE00 4 = [] ∧ s.spadLate = false ∧ s.portBusy o = false
    ∧ s.deviceWaits ac = false ∧ s.lateOut = false ∧ s.portBlocked 0 (0x39000 / 128) = false ∧ s.writeWaits 0 (0x39000 / 128) = false
    ∧ s.keyRevoked sp = false ∧ s.writeFails (0x39000 / 64) = false ∧ s.verifies 0x39000 4 = true ∧ (s.pot 0x39).state.zeros = false
    ∧ (u.tlb.find? (·.covers sp 0x2000)).map (fun t => (t.mt, t.r, t.w, t.at 0x2000)) = some (1, true, true, 0x39000)
    ∧ (s.core 0).bundle.refill = false ∧ s.recallHeld 0x34 = false ∧ s.pageHeld 0x34 0x33008 = false ∧ s.frameBusy 0x34 = false ∧ s.pooled 0x34 = false
    ∧ s.unreturned (.simt 1 0) = false ∧ s.unreturned (.host 0) = false ∧ s.sweeps = [] ∧ s.cpStopped 0 = false ∧ s.unitHolds (0x34000 / 128) = false
    ∧ energyFrames ≤ 512 := by decide +kernel

/-! The machine as a whole -/

/-- Host core 0 right after reset, with bytes at word 0 of code base 0. -/
def booted (ws : List Nat) : State := State.reset.loadWord (ws.flatMap (leBytes 4))

/-- Whether the next step runs the word at word 0 there, and what it decodes to: 0 nothing, 1 an ILLEGAL one, 2 one that issues, with the number
of its words. -/
def runsNext (s : State) : Option (Nat × Nat) :=
  let r := s.catchUp.atTurn
  if !s.agenda.isEmpty || r.irqNow.isSome || r.asleep || r.th.owed.isSome then none
  else match fetchWords r r.th.w 1 with
    | .ok u [x] =>
      if x.getLsbD 31 then none
      else match (if spanOf 0 x = 2 then fetchWords u (r.th.w + 1) 1 else .ok u []) with
        | .ok v more => match decode 0 (x :: more) with
          | .error _ => some (0, 0)
          | .ok (i, k) => if illegalWord i v then some (1, k) else match exec i v with
            | .next _ => some (2, k)
            | _ => none
        | _ => none
    | _ => none

theorem test_step_fetches : runsNext (booted [0x1E004047]) = some (2, 1) ∧ runsNext (booted [0x002080FD, 9]) = some (2, 2)
    ∧ runsNext (booted [0x18E10000]) = some (1, 1) ∧ runsNext (booted [0x7FFFFFFF]) = some (0, 0) := by decide +kernel

/-- A step with the word of SYSRD at word 0 leads to word 1; one with an undecodable word to the vector of H, with its index kept. -/
theorem test_step : (match step (booted [0x1E004047]) with
      | .next t => t.th.w == 1
      | _ => false) = true
    ∧ (match step (booted [0x7FFFFFFF]) with
      | .next t => (t.hostCore 0).bankH.tcause == 1 && (t.hostCore 0).bankH.tval == 0x7FFFFFFF && (t.hostCore 0).bankH.tepc == 0
      | _ => false) = true := by decide +kernel

/-- A SIMT core's step: the picker has the lane to choose, the bundle's turn runs its first thread, and a core with no such thread idles. -/
theorem test_step_of_a_core :
    let s : State := { simt [] with agenda := [.bundle 0 [] [.simt 1 0]] }
    (simt []).catchUp.cands 0 ≠ [] ∧ ({ simt [] with threads := [], th := { (simt []).th with wait := .retired } } : State).catchUp.cands 0 = []
    ∧ ((s.catchUp.switchTo (.simt 1 0)).map fun u => u.cur) = some (.simt 1 0)
    ∧ (match s.catchUp.switchTo (.simt 1 0) with
      | some u => (match runThread { u with agenda := s.catchUp.memberTurns 0 [] ++ [] } with
        | .next t => t.fresh != s.catchUp.fresh && t.th.w == 1
        | _ => false)
      | none => false) = true := by decide +kernel

theorem test_invariant : Inv State.reset ∧ Inv (booted [0x1E004047]) := ⟨⟨rfl, rfl⟩, ⟨by decide +kernel, rfl⟩⟩

theorem test_encodable : (Instr.cdecl h0 2 (.g 7)).Encodable ∧ decode 0 (encode (Instr.cdecl h0 2 (.g 7))) = .ok (.cdecl h0 2 (.g 7), 1)
    ∧ encode (Instr.cdecl h0 2 (.g 7)) = [0x1A008380] := by
  refine ⟨⟨rfl, rfl, rfl⟩, ?_, ?_⟩ <;> decide +kernel

end Sys2Proof.Tests
end

section
/-! SUPPORT. What operand fields read where nothing is outstanding, early or void, and the issue of a word that reads a void register. -/

namespace Sys2Proof.Machine

/-! What a field reads in a thread with nothing outstanding, early or void (R60-R62) -/

/-- A word that waits for no result begins with its thread's registers as they stand. -/
theorem begin_of_results_nil (i : Instr) {s : State} (hr : s.th.results = []) :
    begin_ i s = { s with time := Nat.max s.time s.th.readyAt, th := { s.th with yielded := false } } := by
  simp [begin_, hr]

theorem begin_chain_eq (i : Instr) (s : State) : (begin_ i s).chain = s.chain := by rw [begin_rest]

/-- Outside a chain, with nothing early and no l register void, a register reads what it holds. -/
theorem readCode_eq_reg {s : State} (hc : s.chain = none) (he : s.th.early = []) (hv : s.th.lvoid = 0) (f c : Nat) :
    s.readCode f c = s.th.reg c := by
  have hl : s.conflict c = false := by simp only [State.conflict, hc]
  simp [State.readCode, hl, hc, he, hv, findEarly, Thread.reg]

/-- Outside a chain, with nothing early, a predicate other than p0 reads as its bit. -/
theorem readPred_eq_getLsbD {s : State} (hc : s.chain = none) (he : s.th.early = []) {n : Nat} (hn : n ≠ 0) (f : Nat) :
    s.readPred f n = s.th.preds.getLsbD n := by
  have hl : s.conflict (128 + n) = false := by simp only [State.conflict, hc]
  simp [State.readPred, hl, hc, he, hn, findEarly, predOf]

theorem src_of_isReg (s : State) (h : Hdr) (f : Nat) {o : Opnd} (ho : o.isReg = true) : s.src h f o = s.readCode f o.code := by
  cases o with
  | g _ | o _ | l _ => rfl
  | zr | lit | bad _ => cases ho

theorem src2_of_isReg (s : State) (f : Nat) {o : Opnd} (ho : o.isReg = true) :
    s.src2 f o = pairOf (s.readCode f o.code) (s.readCode f (o.code + 1)) := by
  cases o with
  | g _ | o _ | l _ => rfl
  | zr | lit | bad _ => cases ho

theorem src4_of_isReg (s : State) (f : Nat) {o : Opnd} (ho : o.isReg = true) :
    s.src4 f o = pairOf (s.readCode f (o.code + 2)) (s.readCode f (o.code + 3)) ++ s.src2 f o := by
  cases o with
  | g _ | o _ | l _ => rfl
  | zr | lit | bad _ => cases ho

/-! The issue of a word that reads a void register (R10, R62) -/

theorem anyValue_touched (s : State) (i : Instr) : Touched s (s.anyValue i) := by
  unfold State.anyValue
  generalize i.writeCodes = l
  induction l generalizing s with
  | nil => exact Touched.refl s
  | cons c l ih =>
    refine Touched.trans ?_ (ih _)
    dsimp only
    split_ifs
    · exact post_touched ..
    · exact putFixed_touched ..
    · exact putPred_touched ..

theorem Touched.chain_eq {b u : State} (h : Touched b u) : u.chain = b.chain := by rw [h.rest]

theorem Touched.level_eq {b u : State} (h : Touched b u) : u.th.level = b.th.level := by rw [h.thread]

@[simp] theorem freeTiles_chain (s : State) (team : Nat) (keys : List Nat) : (s.freeTiles team keys).chain = s.chain := modTeam_chain ..

@[simp] theorem freeTiles_th (s : State) (team : Nat) (keys : List Nat) : (s.freeTiles team keys).th = s.th := State.modTeam_th ..

@[simp] theorem anyRows_chain (s : State) (i : Instr) : (s.anyRows i).chain = s.chain := by
  unfold State.anyRows
  split
  · split
    · exact freeTiles_chain ..
    · rfl
  · rfl

@[simp] theorem anyRows_th (s : State) (i : Instr) : (s.anyRows i).th = s.th := by
  unfold State.anyRows
  split
  · split
    · exact freeTiles_th ..
    · rfl
  · rfl

/-- A word that reads a void register otherwise than as its data: whatever its own effect, it leaves any value in its destinations. -/
theorem perform_void {i : Instr} {s : State} (k : State → Res) (hl : loose i s = true)
    (hd : (i.readCodes.filter s.looseCode).all i.dataCodes.contains = false) :
    perform i s k = .ok ((s.anyValue i).anyRows i) := by
  simp only [perform, looseEffect, hl, hd, Bool.false_eq_true, if_true, if_false]

/-- A word whose sources yield any value and whose performance is `s'`: what `issue` answers. -/
theorem issue_runsLoose {i : Instr} {s : State} (k : State → Res) (h : RunsLoose i s) {s' : State}
    (hk : perform i (begin_ i s) k = .ok s') (hl : s'.th.level = (begin_ i s).th.level) :
    issue i s k = .next (retire i ((begin_ i s).space (begin_ i s).cur).eid.toNat (some (nextIndex i (begin_ i s))) s') := by
  obtain ⟨hchain, howed, hheld, hgate, -⟩ := h
  simp only [issue, hchain, issueAlone, howed, hheld, hgate, hk, left_of_level hl, Bool.false_eq_true, if_false]

/-- The any-value effect of a word retires as every effect does. -/
theorem issue_void {i : Instr} {s : State} (k : State → Res) (h : RunsLoose i s)
    (hd : (i.readCodes.filter (begin_ i s).looseCode).all i.dataCodes.contains = false) :
    ∃ t, issue i s k = .next t ∧ Ends i (nextIndex i s) (((begin_ i s).anyValue i).anyRows i) t := by
  have ht : Touched (begin_ i s) ((begin_ i s).anyValue i) := anyValue_touched ..
  have ⟨hchain, _, _, _, hloose⟩ := h
  refine ⟨_, issue_runsLoose k h (perform_void k hloose hd) (by rw [anyRows_th, ht.level_eq]), ?_⟩
  rw [nextIndex_begin]
  exact ends_of i _ _ (by rw [anyRows_chain, ht.chain_eq, begin_chain_eq, hchain])

/-- Settles O13: a void source makes `perform` the any-value effect, which `retire` ends; and where nothing is outstanding, early or void
every field reads the thread as it stands, since the word begins without writing a result. -/
theorem operandReads : Obligations.OperandReads := by
  refine ⟨fun i s k h hd => issue_void k h hd, fun i s h f hc hr he hv => ?_⟩
  have hth : (begin_ i s).th = { s.th with yielded := false } := by rw [begin_of_results_nil i hr]
  have hcb : (begin_ i s).chain = none := (begin_chain_eq i s).trans hc
  have hread (c : Nat) : (begin_ i s).readCode f c = s.th.reg c := by
    rw [readCode_eq_reg hcb (by rw [hth]; exact he) (by rw [hth]; exact hv), hth]
    rfl
  refine ⟨rfl, rfl, rfl, rfl, rfl, fun o ho => ⟨?_, ?_, ?_⟩, fun n hn => ?_⟩
  · exact (src_of_isReg _ h f ho).trans (hread _)
  · rw [operand2, src2_of_isReg _ f ho, hread, hread]
  · rw [operand4, src4_of_isReg _ f ho, hread, hread]
    rfl
  · have hn0 : n.toNat ≠ 0 := fun e => hn (BitVec.eq_of_toNat_eq e)
    rw [operandP, readPred_eq_getLsbD hcb (by rw [hth]; exact he) hn0, hth]

end Sys2Proof.Machine
end

section
/-! SUPPORT. The words on tile rows, MFENCE and MWAIT: when the common checks let a word through, and what a write of a thread's two rows
leaves. -/

namespace Sys2Proof.Machine

/-! What the words' own arms mean -/

theorem exec_mzero (h : Hdr) (tl : BitVec 7) (s : State) : exec (.mzero h tl) s = execMzero h tl s := rfl

theorem exec_mload (h : Hdr) (tl : BitVec 7) (a : Opnd) (s : State) : exec (.mload h tl a) s = execMload h tl a s := rfl

theorem exec_mfence (h : Hdr) (w : BitVec 4) (s : State) : exec (.mfence h w) s = execMfence h w s := rfl

theorem exec_mwait (h : Hdr) (tl : BitVec 7) (s : State) : exec (.mwait h tl) s = execMwait h tl s := rfl

/-! The state that a word begins in, and the updates of tile rows and movements, keep the chain and the thread's level -/

theorem begin_level (i : Instr) (s : State) : (begin_ i s).th.level = s.th.level := by rw [begin_th]

@[simp] theorem setRows_chain (s : State) (team idx tile : Nat) (v : List Word) : (s.setRows team idx tile v).chain = s.chain :=
  State.modTeam_chain ..

@[simp] theorem setRows_th (s : State) (team idx tile : Nat) (v : List Word) : (s.setRows team idx tile v).th = s.th :=
  State.modTeam_th ..

@[simp] theorem startMove_chain (s : State) (core at_ : Nat) : (s.startMove core at_).chain = s.chain := by
  unfold State.startMove
  split
  · rfl
  · split_ifs <;> rfl

@[simp] theorem startMove_th (s : State) (core at_ : Nat) : (s.startMove core at_).th = s.th := by
  unfold State.startMove
  split
  · rfl
  · split_ifs <;> rfl

@[simp] theorem complete_level (t : Thread) : t.complete.level = t.level := by
  unfold Thread.complete
  rw [Thread.settle_eq]

/-! The common checks of R177 and R182 -/

/-- The tile is the launch's, no operation of the thread names it (R181), and no pass and no movement of the thread's rows is still to
update it. -/
def FreeTile (b : State) (tile team idx : Nat) (t : Team) (n : Nat) (l : Launch) : Prop :=
  b.cur = .simt team idx ∧ b.teamOf b.cur = some t ∧ b.launchOf b.cur = some (n, l) ∧ tile < l.tiles ∧ b.tileHits tile = []
  ∧ b.passPending t team tile = false ∧ (b.moves.any fun m => m.team = team && m.tile = tile && m.idx % 32 = idx % 32) = false

/-- A word on a free tile comes to its own effect. -/
theorem FreeTile.onTile_eq {b : State} {tile team idx n : Nat} {t : Team} {l : Launch} (hf : FreeTile b tile team idx t n l) (i : Instr)
    (k : Nat → Nat → Team → Launch → List MxOut → Res) : onTile i b tile k = k team idx t l [] := by
  obtain ⟨hc, ht, hl, htl, hh, hp, hm⟩ := hf
  rw [hc] at ht hl
  simp [onTile, hc, ht, hl, Nat.not_le.2 htl, hh, hp, hm]

/-! What a write of a thread's two rows leaves (R182) -/

theorem modTeam_find (s : State) (n : Nat) (f : Team → Team) : (s.modTeam n f).teams.find n = (s.teams.find n).map f := by
  unfold State.modTeam
  split
  · next t h => simp [h, Tab.find_put]
  · next h => simp [h]

/-- Writes of one value leave it under each of their keys, and every other entry as it was. -/
theorem Tab.getD_foldl_set {α : Type} [DecidableEq α] (z x : α) (l : List (Nat × α)) (hx : ∀ p ∈ l, p.2 = x) (t : Tab α) (k : Nat) :
    Tab.getD (l.foldl (fun m p => Tab.set m z p.1 p.2) t) k z = if k ∈ l.map Prod.fst then x else Tab.getD t k z := by
  induction l generalizing t with
  | nil => rfl
  | cons p l ih =>
    rw [List.foldl_cons, ih fun q hq => hx q (List.mem_cons_of_mem p hq)]
    by_cases hk : k = p.1
    · simp [hk, hx p List.mem_cons_self]
    · simp only [List.map_cons, List.mem_cons, hk, false_or, Tab.getD_set_ne _ _ _ hk]

theorem tileKey_mem_rowKeys (tile idx : Nat) {r c : Nat} (hr : r < 2) (hc : c < 64) :
    tileKey tile (2 * (idx % 32) + r) c ∈ rowKeys tile idx := by
  refine List.mem_map.2 ⟨64 * r + c, List.mem_range.2 (by omega), ?_⟩
  unfold tileKey
  omega

/-- Rows of one value: every element of the thread's two rows holds it. -/
theorem setRows_replicate {s : State} {team idx tile r c : Nat} {x : Word} {t' : Team} (hr : r < 2) (hc : c < 64)
    (ht : (s.setRows team idx tile (List.replicate 128 x)).teams.find team = some t') :
    Tab.getD t'.tiles (tileKey tile (2 * (idx % 32) + r) c) 0 = x := by
  rw [State.setRows, modTeam_find] at ht
  obtain ⟨t, -, rfl⟩ := Option.map_eq_some_iff.1 ht
  have hall : ∀ p ∈ (rowKeys tile idx).zip (List.replicate 128 x), p.2 = x := fun p hp =>
    List.eq_of_mem_replicate (List.of_mem_zip hp).2
  have hkeys : ((rowKeys tile idx).zip (List.replicate 128 x)).map Prod.fst = rowKeys tile idx :=
    List.map_fst_zip (by simp [rowKeys])
  dsimp only
  rw [Tab.getD_foldl_set 0 x _ hall, hkeys, if_pos (tileKey_mem_rowKeys tile idx hr hc)]

/-! What the words come to -/

/-- MZERO on a free tile (R182). -/
theorem mzero_takes {h : Hdr} {tl : BitVec 7} {s : State} {team idx n : Nat} {t : Team} {l : Launch} (hr : Runs (.mzero h tl) s)
    (hf : FreeTile (begin_ (.mzero h tl) s) tl.toNat team idx t n l) :
    Takes (.mzero h tl) s ((begin_ (.mzero h tl) s).setRows team idx tl.toNat (List.replicate 128 0)) := by
  refine takes_of hr (exec_mzero h tl s) (hf.onTile_eq _ _) ?_ ?_
  · rw [setRows_chain, begin_chain hr]
  · rw [setRows_th, begin_level]

/-- The movement that an MLOAD leaves, with the thread's record of it (R27, R180, R182). -/
def State.addLoad (b : State) (core team idx tile off : Nat) : State :=
  { b with
    serial := b.serial + 1
    moves := b.moves ++ [⟨core, team, idx, tile, off, b.serial, false, b.clock, none⟩]
    th := { b.th with readyAt := b.time, mx := b.th.mx ++
      [{ op := b.serial, tiles := [tile], codes := [], region := some (off, 512), signed := false, done := false }] } }

/-- MLOAD on a free tile, from 512 bytes of the team's own scratchpad (R27, R182). -/
theorem mload_takes {h : Hdr} {tl : BitVec 7} {a : Opnd} {s : State} {team idx n : Nat} {t : Team} {l : Launch}
    (hr : Runs (.mload h tl a) s) {b : State} (hb : begin_ (.mload h tl a) s = b) (hf : FreeTile b tl.toNat team idx t n l)
    (h16 : (b.src h 1 a).toNat % 16 = 0) (h15 : (b.src h 1 a).toNat / 2 ^ 28 = 15)
    (hin : (b.src h 1 a).toNat % 2 ^ 28 + 512 * (idx % 32) + 512 ≤ l.scratch) (hlate : b.spadLate = false) :
    Takes (.mload h tl a) s ((b.addLoad t.core team idx tl.toNat ((b.src h 1 a).toNat % 2 ^ 28 + 512 * (idx % 32))).startMove
      t.core b.nextClock) := by
  refine takes_of hr (exec_mload h tl a s) ?_ ?_ ?_
  · rw [hb, hf.onTile_eq]
    have hperm : ((b.src h 1 a).toNat / 2 ^ 28 ≠ 15 || l.scratch < (b.src h 1 a).toNat % 2 ^ 28 + 512 * (idx % 32) + 512) = false := by
      rw [Bool.or_eq_false_iff, decide_eq_false_iff_not, decide_eq_false_iff_not]
      omega
    simp only [h16, ne_eq, not_true_eq_false, if_false, hperm, hlate, Bool.false_eq_true]
    rfl
  · rw [startMove_chain]
    exact hb ▸ begin_chain hr
  · rw [startMove_th]
    exact hb ▸ begin_level _ s

/-- MFENCE in a thread of the set that waits for nothing of its own (R179). -/
theorem mfence_takes {h : Hdr} {w : BitVec 4} {s : State} {team idx : Nat} {t : Team} (hr : Runs (.mfence h w) s)
    {b : State} (hb : begin_ (.mfence h w) s = b) (hc : b.cur = .simt team idx) (ht : b.teamOf b.cur = some t)
    (hs : (t.cv w.toNat).set.getLsbD (idx / 32) = true) (hw : b.waitsOwn (.mfence h w) = false) :
    Takes (.mfence h w) s { b with th := b.th.complete } := by
  refine takes_of hr (exec_mfence h w s) ?_ (hb ▸ begin_chain hr) ?_
  · rw [hc] at ht
    simp [hb, hc, ht, hs, hw]
  · rw [complete_level, ← hb, begin_level]

/-- MWAIT in a thread whose operations on the tile, or on every tile, are done (R180). -/
theorem mwait_takes {h : Hdr} {tl : BitVec 7} {s : State} (hr : Runs (.mwait h tl) s) {b : State} (hb : begin_ (.mwait h tl) s = b)
    (hd : ∀ m ∈ s.th.mx, (tl = 127 ∨ tl.toNat ∈ m.tiles) → m.done = true) :
    Takes (.mwait h tl) s { b with th := { b.th with mx := s.th.mx.filter fun m => !(tl = 127 || m.tiles.contains tl.toNat) } } := by
  have hmx : b.th.mx = s.th.mx := hb ▸ all_codes_begin _ s
  have hnone : (s.th.mx.any fun m => (tl = 127 || m.tiles.contains tl.toNat) && !m.done) = false := by
    simpa using hd
  refine takes_of hr (exec_mwait h tl s) ?_ (hb ▸ begin_chain hr) ?_
  · simp only [hb, hmx, hnone]
    rfl
  · exact hb ▸ begin_level _ s

/-- Settles O34: each word runs to its own effect, with the tile checks passed where it has them. -/
theorem tileWords : Obligations.TileWords := by
  unfold Obligations.TileWords
  refine ⟨fun h tl s team idx t n l hr hf => ⟨mzero_takes hr hf, fun r c hr2 hc t' ht' => setRows_replicate hr2 hc ht'⟩,
    fun h tl a s team idx t n l hr hf h16 h15 hin hlate => mload_takes hr rfl hf h16 h15 hin hlate,
    fun h w s team idx t hr hc ht hs hw => ?_, fun h tl s hr hd => mwait_takes hr rfl hd⟩
  have hcur : (begin_ (.mfence h w) s).cur = .simt team idx := by rw [begin_rest]; exact hc
  exact mfence_takes hr rfl hcur ht hs hw

end Sys2Proof.Machine
end

section
/-! SUPPORT. The events of the matrix engine: the age order of its entries, what counting withheld grants leaves of a quad, the static
energy of a core with one team, and what each event comes to where its condition holds. -/

namespace Sys2Proof.Machine

/-! Steps of an agent -/

/-- An agent whose condition holds takes its effect. -/
theorem occurs_of {i : Instr} {s u : State} {r : Option State} (hx : exec i s = agent s r) (hr : r = some u) : Occurs i s u := by
  rw [Occurs, hx, hr]
  rfl

theorem Occurs.of_eq {i : Instr} {s u v : State} (h : Occurs i s u) (e : u = v) : Occurs i s v := e ▸ h

theorem exec_passPost (core : Nat) (s : State) : exec (.passPost core) s = execPassPost core s := rfl

theorem exec_bReadStart (core : Nat) (s : State) : exec (.bReadStart core) s = execBReadStart core s := rfl

theorem exec_bReadEnd (quad : Nat) (s : State) : exec (.bReadEnd quad) s = execBReadEnd quad s := rfl

theorem exec_passGrant (quad : Nat) (s : State) : exec (.passGrant quad) s = execPassGrant quad s := rfl

theorem exec_governorWindow (quad : Nat) (s : State) : exec (.governorWindow quad) s = execGovernorWindow quad s := rfl

theorem exec_mgovcfgWrite (quad : Nat) (v : BitVec 32) (s : State) : exec (.mgovcfgWrite quad v) s = execMgovcfgWrite quad v s := rfl

theorem exec_mloadMovementEnd (core : Nat) (s : State) : exec (.mloadMovementEnd core) s = execMloadMovementEnd core s := rfl

theorem exec_energyTick (core : Nat) (s : State) : exec (.energyTick core) s = execEnergyTick core s := rfl

/-! The age order of entries (R288): `Pass.before` is a strict weak order, and `oldest` finds a least entry of it -/

theorem Pass.before_irrefl (p : Pass) : p.before p = false := by simp [Pass.before]

theorem Pass.before_asymm {a b : Pass} (h : a.before b = true) : b.before a = false := by
  simp only [Pass.before, Bool.or_eq_true, Bool.or_eq_false_iff, Bool.and_eq_true, Bool.and_eq_false_iff, decide_eq_true_eq,
    decide_eq_false_iff_not] at h ⊢
  omega

theorem Pass.not_before_trans {a b c : Pass} (hab : a.before b = false) (hbc : b.before c = false) : a.before c = false := by
  simp only [Pass.before, Bool.or_eq_false_iff, Bool.and_eq_false_iff, decide_eq_false_iff_not] at hab hbc ⊢
  omega

theorem oldest_eq_none {l : List Pass} (h : oldest l = none) : l = [] := by
  cases l with
  | nil => rfl
  | cons p t =>
    simp only [oldest] at h
    split at h <;> cases h

/-- The entry that `oldest` finds is one of the list, and none of the list is before it. -/
theorem oldest_least {l : List Pass} {p : Pass} (h : oldest l = some p) : p ∈ l ∧ ∀ e ∈ l, e.before p = false := by
  induction l generalizing p with
  | nil => cases h
  | cons x t ih =>
    simp only [oldest] at h
    split at h
    · next q hq =>
      obtain ⟨hmem, hleast⟩ := ih hq
      split_ifs at h with hqx <;> cases h
      · refine ⟨List.mem_cons_of_mem _ hmem, List.forall_mem_cons.2 ⟨Pass.before_asymm hqx, hleast⟩⟩
      · refine ⟨List.mem_cons_self, List.forall_mem_cons.2 ⟨Pass.before_irrefl _, fun e he => ?_⟩⟩
        exact Pass.not_before_trans (hleast e he) (Bool.eq_false_of_not_eq_true hqx)
    · next hn =>
      cases h
      rw [oldest_eq_none hn]
      simp [Pass.before_irrefl]

/-- The arbiter's entry is eligible. Where it is aged it is the oldest of the aged ones; where it is not, none is, and it is the oldest of
the highest PRI. -/
theorem Quad.pick_spec {q : Quad} {now : Nat} {p : Pass} (h : q.pick now = some p) : p ∈ q.eligible
    ∧ (p.stamp.getD now + 512 ≤ now → ∀ e ∈ q.eligible, e.stamp.getD now + 512 ≤ now → e.before p = false)
    ∧ (¬ p.stamp.getD now + 512 ≤ now → ∀ e ∈ q.eligible, ¬ e.stamp.getD now + 512 ≤ now ∧ e.pri ≤ p.pri
      ∧ (e.pri = p.pri → e.before p = false)) := by
  unfold Quad.pick at h
  split at h
  · next x hx =>
    cases h
    obtain ⟨hmem, hleast⟩ := oldest_least hx
    simp only [List.mem_filter, decide_eq_true_eq] at hmem hleast
    exact ⟨hmem.1, fun _ e he ha => hleast e ⟨he, ha⟩, fun hn => absurd hmem.2 hn⟩
  · next hx =>
    have hyoung := List.filter_eq_nil_iff.1 (oldest_eq_none hx)
    obtain ⟨hmem, hleast⟩ := oldest_least h
    simp only [List.mem_filter, List.all_eq_true, decide_eq_true_eq] at hyoung hmem hleast
    obtain ⟨hel, htop⟩ := hmem
    exact ⟨hel, fun ha => absurd ha (hyoung p hel), fun _ e he =>
      ⟨hyoung e he, htop e he, fun hpri => hleast e ⟨he, fun x hx => hpri ▸ htop x hx⟩⟩⟩

/-! Updates of a quad, and the count of withheld grants (R290, R291) -/

@[simp] theorem modQuad_quad (s : State) (n : Nat) (f : Quad → Quad) : (s.modQuad n f).quad n = f (s.quad n) := by
  simp [State.modQuad, State.quad, Tab.getD, Tab.find_put]

/-- Of an update only what it does to the quad that stands there counts. -/
theorem modQuad_congr {s : State} {n : Nat} {f g : Quad → Quad} (h : f (s.quad n) = g (s.quad n)) : s.modQuad n f = s.modQuad n g := by
  rw [State.modQuad, State.modQuad, h]

/-- Updates that leave the table of quads alone leave every quad alone. -/
theorem foldl_quad {α : Type} {f : State → α → State} (hf : ∀ s x, (f s x).quads = s.quads) (l : List α) (s : State) (n : Nat) :
    (l.foldl f s).quad n = s.quad n := by
  induction l generalizing s with
  | nil => rfl
  | cons x l ih => rw [List.foldl_cons, ih, State.quad, hf, State.quad]

/-- Counting withheld grants leaves the quad's window as it is. -/
theorem accrue_window (s : State) (n now : Nat) : ((s.accrue n now).quad n).window = (s.quad n).window := by
  unfold State.accrue
  dsimp only
  split_ifs
  · rfl
  · rw [foldl_quad fun s c => State.count_quads .., modQuad_quad]

theorem Quad.roll_of_lt {q : Quad} {clock : Nat} (h : q.window < clock / 64) :
    q.roll clock = { q with window := clock / 64, budget := q.nextB, granted := 0 } := if_pos h

/-- The write of a budget that MGOVCFG does not take. -/
theorem writeGov_ignored {s : State} {q : Nat} {v : Word} (h : v.toNat % 16 = 0 ∨ 8 < v.toNat % 16) : s.writeGov q v = s :=
  if_pos (by simpa using h)

/-- The write of a budget of 1 to 8 (R290). -/
theorem writeGov_taken {s : State} {q : Nat} {v : Word} (h0 : v.toNat % 16 ≠ 0) (h8 : v.toNat % 16 ≤ 8) :
    s.writeGov q v = (s.accrue q s.clock).modQuad q fun x =>
      { x.roll s.clock with nextB := v.toNat % 16, stall := 0, lastW := some s.clock } :=
  if_neg (by simpa using ⟨h0, h8⟩)

/-! B reads (R178, R286) -/

/-- A word that no unfenced store of the team touches is the scratchpad's. -/
theorem regionWord_nil (s : State) (x : Store) (off : Nat) : s.regionWord x [] off = x.word off := rfl

/-- A pass that waits is posted where the table has room (R284). -/
theorem passPost_occurs {core : Nat} {s : State} (hroom : (s.quad (quadOf core)).table.length < 32)
    (hw : ((s.quad (quadOf core)).waiting.any fun p => p.core == core) = true) :
    Occurs (.passPost core) s ((s.modQuad (quadOf core) (postWaiting core 1)).restamp (quadOf core)) :=
  occurs_of (exec_passPost core s) (if_neg (by simp [hw, hroom]))

/-- The B read of a core begins (R178, R286). -/
theorem bReadStart_occurs {core : Nat} {s : State} {r : Nat × Nat × Nat} {o : MxOp}
    (hspare : (s.quad (quadOf core)).spare.find? (fun b => b.core == core) = none)
    (hread : (s.quad (quadOf core)).reads.find? (fun r => r.2.1 = core) = some r) (hbufs : (s.quad (quadOf core)).bufs.length < 4)
    (hdue : s.overdue core = false) (hport : s.portTaken core = false) (hop : s.ops.find r.1 = some o)
    (hsound : (s.store (.team o.team)).poisoned (o.bAddr.getD 0) 2136 = false) :
    Occurs (.bReadStart core) s (s.modQuad (quadOf core) fun q => { q with
      reads := q.reads.erase r
      bufs := q.bufs ++ [⟨r.1, core, r.2.2, false, (List.range 534).map fun k =>
        s.regionWord (s.store (.team o.team)) (s.teamSts o.team) (o.bAddr.getD 0 + 4 * k), s.clock, false⟩] }) := by
  refine occurs_of (exec_bReadStart core s) ?_
  simp only [hspare, hread, hop, hsound, hdue, hport, Nat.not_le.2 hbufs, decide_false, Bool.or_self, Bool.false_eq_true, if_false]

/-- A restored buffer takes a free one (R287). -/
theorem bReadStart_restored {core : Nat} {s : State} {b : BBuf}
    (hspare : (s.quad (quadOf core)).spare.find? (fun b => b.core == core) = some b) (hbufs : (s.quad (quadOf core)).bufs.length < 4) :
    Occurs (.bReadStart core) s
      ((s.modQuad (quadOf core) fun q => { q with spare := q.spare.erase b, bufs := q.bufs ++ [b] }).restamp (quadOf core)) := by
  refine occurs_of (exec_bReadStart core s) ?_
  simp only [hspare, Nat.not_le.2 hbufs, if_false]

/-- A buffer is whole 17 clocks after the start of its read (R286). -/
theorem bReadEnd_occurs {quad : Nat} {b : BBuf} {s : State}
    (hb : (s.quad quad).bufs.find? (fun b => !b.ready && b.start + 17 ≤ s.clock) = some b) :
    Occurs (.bReadEnd quad) s ((s.modQuad quad fun q => { q with
      bufs := q.bufs.map fun x => if x.op = b.op then { x with ready := true } else x }).restamp quad) := by
  refine occurs_of (exec_bReadEnd quad s) ?_
  simp only [hb]

/-! The arbiter and the governor (R288-R291) -/

/-- A clock of the arbiter outside an operand stage, with an entry to grant: it is granted while the budget lasts, and withheld
otherwise. -/
theorem passGrant_occurs {quad : Nat} {p : Pass} {o : MxOp} {s r : State}
    (hr : (s.accrue quad s.clock).modQuad quad (fun q => q.roll s.clock) = r)
    (hstage : ∀ g, (r.quad quad).lastG = some g → g + 8 ≤ r.clock)
    (hp : Quad.pick { r.quad quad with table := (r.quad quad).table.filter fun p => !r.halting p.team } r.clock = some p)
    (ho : r.ops.find p.op = some o) :
    ((r.quad quad).granted < (r.quad quad).budget → Occurs (.passGrant quad) s (r.grantPass quad p o))
    ∧ ((r.quad quad).budget ≤ (r.quad quad).granted → Occurs (.passGrant quad) s (r.accrue quad (r.clock + 1))) := by
  have hfree : exec (.passGrant quad) s = agent s (if (r.quad quad).budget ≤ (r.quad quad).granted
      then some (r.accrue quad (r.clock + 1)) else (r.ops.find p.op).map (r.grantPass quad p)) := by
    rw [exec_passGrant, execPassGrant]
    simp only [hr]
    congr 1
    rw [if_neg, hp]
    cases hg : (r.quad quad).lastG with
    | none => simp
    | some g => simpa using hstage g hg
  refine ⟨fun hb => occurs_of hfree ?_, fun hb => occurs_of hfree (if_pos hb)⟩
  rw [if_neg (Nat.not_le.2 hb), ho]
  rfl

/-- A new window takes the pending budget (R290). -/
theorem governorWindow_occurs {quad : Nat} {s : State} (h : (s.quad quad).window < s.clock / 64) :
    Occurs (.governorWindow quad) s
      ((s.accrue quad s.clock).modQuad quad fun q => { q with window := s.clock / 64, budget := q.nextB, granted := 0 }) := by
  refine occurs_of (exec_governorWindow quad s) ?_
  rw [if_pos h]
  have hlt : ((s.accrue quad s.clock).quad quad).window < s.clock / 64 := by rwa [accrue_window]
  exact congrArg some (modQuad_congr (Quad.roll_of_lt hlt))

/-- A write of MGOVCFG for a quad in service is the governor's. -/
theorem mgovcfgWrite_occurs {quad : Nat} (v : BitVec 32) {s : State} (h : (s.quad quad).removed = false) :
    Occurs (.mgovcfgWrite quad v) s (s.writeGov quad v) :=
  occurs_of (exec_mgovcfgWrite quad v s) (if_neg (by simp [h]))

/-! Movements (R27) -/

/-- With none on the port, the next movement begins. -/
theorem mloadMovementEnd_begins {core : Nat} {s : State} (hnone : (s.moves.find? fun m => m.core = core && m.began.isSome) = none)
    (hmay : s.mayMove core = true) : Occurs (.mloadMovementEnd core) s (s.startMove core s.time) := by
  refine occurs_of (exec_mloadMovementEnd core s) ?_
  simp only [hnone, hmay, if_true]

/-- A movement whose four pieces have moved ends, and the next begins. -/
theorem mloadMovementEnd_ends {core : Nat} {m : Move} {s : State}
    (hm : (s.moves.find? fun m => m.core = core && m.began.isSome) = some m) (hmoved : s.moved m.began 4 = true) :
    Occurs (.mloadMovementEnd core) s ((s.endLoad m).startMove core s.time) := by
  refine occurs_of (exec_mloadMovementEnd core s) ?_
  simp only [hm, hmoved, if_true]

/-- The end of a movement that nothing has spoilt and that read no poison loads the thread's two rows. -/
theorem endLoad_sound {s : State} {m : Move} (hs : m.spoilt = false) (hp : (s.store (.team m.team)).poisoned m.off 512 = false) :
    s.endLoad m = (State.modThread { s with moves := s.moves.erase m } (.simt m.team m.idx) fun (t : Thread) => { t with
        mx := t.mx.map fun o => if o.op = m.out && !o.signed then { o with done := true } else o }).setRows m.team m.idx m.tile
      ((List.range 128).map fun k => (s.store (.team m.team)).word (m.off + 4 * k)) := by
  have hp' : (State.store { s with moves := s.moves.erase m } (.team m.team)).poisoned m.off 512 = false := hp
  simp only [State.endLoad, hs, hp', Bool.false_eq_true, if_false]
  rfl

/-! Static energy (R395) -/

/-- A core without a team gives its static energy to nobody. -/
theorem giveStatic_idle {s : State} {core : Nat} (h : (s.teams.filter fun t => t.2.core = core) = []) (n clk : Nat) :
    s.giveStatic core n clk = s := by
  simp [State.giveStatic, h]

/-- The one team of a core takes its whole static energy. -/
theorem giveStatic_alone {s : State} {core n : Nat} {t : Team} {l : Launch}
    (h : (s.teams.filter fun t => t.2.core = core) = [(n, t)]) (hl : s.launches.find t.launch = some l) (hpos : 0 < l.lanes) (clk : Nat) :
    s.giveStatic core 1 clk
      = (s.chargeAt core l.eid (staticEnergy (Tab.getD s.power (sliceOf core) {}).eff) clk).count core l.eid 1 1024 := by
  simp [State.giveStatic, h, hl, Nat.mul_div_cancel _ hpos]

theorem energyTick_occurs {core : Nat} {s : State} (h : (s.core core).ticks < s.clock / 1024) :
    Occurs (.energyTick core) s (s.tickCore core) :=
  occurs_of (exec_energyTick core s) (if_pos h)

/-- The ticks that are due on a core without a team. -/
theorem tickCore_idle {s : State} {core : Nat} (hdue : (s.core core).ticks < s.clock / 1024)
    (h : (s.teams.any fun t => t.2.core = core) = false) :
    s.tickCore core = s.modCore core fun c => { c with ticks := s.clock / 1024 } := by
  have hno : ((s.modCore core fun c => { c with ticks := s.clock / 1024 }).teams.filter fun t => t.2.core = core) = [] :=
    List.filter_eq_nil_iff.2 (List.any_eq_false.1 h)
  unfold State.tickCore
  dsimp only
  rw [if_neg (by omega), giveStatic_idle hno, ite_self, giveStatic_idle hno]

/-- The one tick that is due on a core with one team. -/
theorem tickCore_alone {s : State} {core n : Nat} {t : Team} {l : Launch} (hdue : (s.core core).ticks + 1 = s.clock / 1024)
    (h : (s.teams.filter fun t => t.2.core = core) = [(n, t)]) (hl : s.launches.find t.launch = some l) (hpos : 0 < l.lanes) :
    s.tickCore core = ((s.modCore core fun c => { c with ticks := s.clock / 1024 }).chargeAt core l.eid
      (staticEnergy (Tab.getD s.power (sliceOf core) {}).eff) (1024 * (s.clock / 1024))).count core l.eid 1 1024 := by
  have hone : s.clock / 1024 - (s.core core).ticks = 1 := by omega
  unfold State.tickCore
  dsimp only
  rw [hone, if_neg Nat.one_ne_zero, if_pos rfl]
  exact giveStatic_alone (s := s.modCore core fun c => { c with ticks := s.clock / 1024 }) h hl hpos _

/-- Settles O45, event by event; the grant turns on the age order of the entries, and the window on what counting withheld grants keeps. -/
theorem engineEvents : Obligations.EngineEvents := by
  unfold Obligations.EngineEvents
  refine ⟨fun core s hroom hw => passPost_occurs hroom hw,
    fun core s r o hspare hread hbufs hdue hport hop hsound => bReadStart_occurs hspare hread hbufs hdue hport hop hsound,
    fun core b s hspare hbufs => bReadStart_restored hspare hbufs, regionWord_nil, fun quad b s hb => bReadEnd_occurs hb,
    fun quad p o s hstage hp ho => passGrant_occurs rfl hstage hp ho, fun q now p hp => Quad.pick_spec hp,
    fun quad s h => governorWindow_occurs h, fun quad v s hin => ⟨fun hv => ?ignored, fun h0 h8 => ?taken⟩,
    fun core s hnone hmay => mloadMovementEnd_begins hnone hmay, fun core m s hm hmoved hs hp => ?loaded,
    fun core s hdue => ⟨fun hno => ?idle, fun n t l hone hteam hl hpos => ?alone⟩⟩
  case ignored => exact (mgovcfgWrite_occurs v hin).of_eq (writeGov_ignored hv)
  case taken => exact (mgovcfgWrite_occurs v hin).of_eq (writeGov_taken h0 h8)
  case loaded => exact (mloadMovementEnd_ends hm hmoved).of_eq (congrArg (·.startMove core s.time) (endLoad_sound hs hp))
  case idle => exact (energyTick_occurs hdue).of_eq (tickCore_idle hdue hno)
  case alone => exact (energyTick_occurs hdue).of_eq (tickCore_alone hone hteam hl hpos)

end Sys2Proof.Machine
end

section
/-! SUPPORT. The rounding modes, and the rounding of an exact value to an IEEE format. -/

namespace Sys2Proof.Machine

/-! The integer that a rounding mode takes (R42): the floor of the quotient or the integer above it -/

theorem roundQuot_rne_eq (neg : Bool) (n d : Nat) :
    roundQuot .rne neg n d = if d < 2 * (n % d) ∨ d = 2 * (n % d) ∧ n / d % 2 = 1 then n / d + 1 else n / d := by
  simp [roundQuot]

theorem roundQuot_rz_eq (neg : Bool) (n d : Nat) : roundQuot .rz neg n d = n / d := rfl

theorem roundQuot_rd_eq (neg : Bool) (n d : Nat) :
    roundQuot .rd neg n d = if neg = true ∧ n % d ≠ 0 then n / d + 1 else n / d := by
  simp [roundQuot]

theorem roundQuot_ru_eq (neg : Bool) (n d : Nat) :
    roundQuot .ru neg n d = if neg = false ∧ n % d ≠ 0 then n / d + 1 else n / d := by
  simp [roundQuot]

/-- A whole number is its own rounding, in every mode. -/
theorem roundQuot_one (rm : RMode) (neg : Bool) (n : Nat) : roundQuot rm neg n 1 = n := by
  cases rm with
  | rne => simp [roundQuot_rne_eq, Nat.mod_one]
  | rz => simp [roundQuot_rz_eq]
  | rd => simp [roundQuot_rd_eq, Nat.mod_one]
  | ru => simp [roundQuot_ru_eq, Nat.mod_one]

/-- The nearest integer, and at a tie the even one. -/
theorem roundQuot_rne (neg : Bool) {n d : Nat} (hd : 0 < d) :
    let q := roundQuot .rne neg n d
    2 * (max (q * d) n - min (q * d) n) ≤ d ∧ (2 * (max (q * d) n - min (q * d) n) = d → q % 2 = 0) := by
  have hdiv : n / d * d + n % d = n := Nat.div_add_mod' n d
  have hmod : n % d < d := Nat.mod_lt n hd
  simp only [roundQuot_rne_eq]
  split
  · next hup =>
    have habove : (n / d + 1) * d = n / d * d + d := Nat.succ_mul _ _
    have hle : n ≤ (n / d + 1) * d := by omega
    rw [max_eq_left hle, min_eq_right hle]
    omega
  · next hdown =>
    have hle : n / d * d ≤ n := by omega
    rw [max_eq_right hle, min_eq_left hle]
    omega

/-- The integer that a mode rounding away from zero takes is the least at or above n / d. -/
theorem ceilQuot_spec {n d : Nat} (hd : 0 < d) :
    let q := if n % d ≠ 0 then n / d + 1 else n / d
    n ≤ q * d ∧ q * d < n + d := by
  have hdiv : n / d * d + n % d = n := Nat.div_add_mod' n d
  have hmod : n % d < d := Nat.mod_lt n hd
  have habove : (n / d + 1) * d = n / d * d + d := Nat.succ_mul _ _
  dsimp only
  split <;> omega

theorem roundQuot_rz (neg : Bool) {n d : Nat} (hd : 0 < d) :
    roundQuot .rz neg n d * d ≤ n ∧ n < (roundQuot .rz neg n d + 1) * d := by
  exact ⟨Nat.div_mul_le_self n d, (Nat.div_lt_iff_lt_mul hd).1 (Nat.lt_succ_self _)⟩

/-! Rounding to an IEEE format (R43, R44, R47) -/

section
variable {f : Fmt} {rm : RMode} {ftz neg : Bool} {m : Nat} {e : Int} {r : Rounded}

/-- A result past the largest finite magnitude: infinity, or the largest finite number where the mode rounds toward zero (R42). -/
theorem roundIeee_overflow (hm : m ≠ 0) (hr : roundMag f rm neg m 1 e = r) (h : r.overflow = true) :
    roundIeee f rm ftz neg m 1 e = ⟨(if neg then f.signBit else 0) + (if rm = .rz ∨ (rm = .rd ∧ neg = false) ∨ (rm = .ru ∧ neg = true)
      then f.infBits - 1 else f.infBits), OF ||| NX⟩ := by
  simp only [roundIeee, hm, hr, h, if_false, if_true]
  cases rm <;> cases neg <;> rfl

/-- A tiny result under FTZ is a zero of its sign (R43). -/
theorem roundIeee_flushed (hm : m ≠ 0) (hr : roundMag f rm neg m 1 e = r) (h : r.overflow = false) (ht : r.tiny = true) :
    roundIeee f rm true neg m 1 e = ⟨if neg then f.signBit else 0, UF ||| NX⟩ := by
  simp [roundIeee, hm, hr, h, ht]

/-- Any other result is the rounded magnitude under the sign (R44, R47). -/
theorem roundIeee_rounded (hm : m ≠ 0) (hr : roundMag f rm neg m 1 e = r) (h : r.overflow = false) (hf : ftz = false ∨ r.tiny = false) :
    roundIeee f rm ftz neg m 1 e
      = ⟨(if neg then f.signBit else 0) + r.mag, flagIf r.inexact NX ||| flagIf (r.tiny && r.inexact) UF⟩ := by
  have hflush : (ftz && r.tiny) = false := Bool.and_eq_false_iff.2 hf
  simp only [roundIeee, hm, hr, h, hflush, Bool.false_eq_true, if_false]

end

/-- The bits of the two flags of a result that neither overflows nor is flushed. -/
theorem roundedFlags_bits (nx uf : Bool) :
    let t := flagIf nx NX ||| flagIf uf UF
    t.getLsbD 0 = false ∧ t.getLsbD 1 = false ∧ t.getLsbD 2 = false ∧ t.getLsbD 3 = uf ∧ t.getLsbD 4 = nx := by
  cases nx <;> cases uf <;> decide

/-- No rounding of a finite value raises NV or DZ. -/
theorem roundIeee_flags_low (f : Fmt) (rm : RMode) (ftz neg : Bool) {m : Nat} (e : Int) (hm : m ≠ 0) :
    (roundIeee f rm ftz neg m 1 e).flags.getLsbD 0 = false ∧ (roundIeee f rm ftz neg m 1 e).flags.getLsbD 1 = false := by
  obtain ⟨r, hr⟩ : ∃ r, roundMag f rm neg m 1 e = r := ⟨_, rfl⟩
  by_cases ho : r.overflow = true
  · rw [roundIeee_overflow hm hr ho]
    exact (by decide : (OF ||| NX).getLsbD 0 = false ∧ (OF ||| NX).getLsbD 1 = false)
  have ho' := Bool.eq_false_of_not_eq_true ho
  by_cases hf : ftz = false ∨ r.tiny = false
  · rw [roundIeee_rounded hm hr ho' hf]
    obtain ⟨h0, h1, -⟩ := roundedFlags_bits r.inexact (r.tiny && r.inexact)
    exact ⟨h0, h1⟩
  · obtain ⟨hftz, ht⟩ := not_or.1 hf
    rw [Bool.eq_true_of_not_eq_false hftz, roundIeee_flushed hm hr ho' (Bool.eq_true_of_not_eq_false ht)]
    exact (by decide : (UF ||| NX).getLsbD 0 = false ∧ (UF ||| NX).getLsbD 1 = false)

/-- Settles O7: each mode by its equation for the quotient, and each case of the rounding of a finite value by its own lemma. -/
theorem rounding : Obligations.Rounding := by
  unfold Obligations.Rounding
  refine ⟨fun neg n d hd => ⟨roundQuot_rne neg hd, roundQuot_rz neg hd, ?rd, ?ru⟩, fun f rm ftz nv => rfl,
    fun f rm ftz nv neg => rfl, fun f rm ftz nv neg e => rfl, fun f rm ftz nv neg m e hm => ?finite⟩
  case rd =>
    cases neg with
    | false => simp [roundQuot_rd_eq]
    | true => simpa [roundQuot_rd_eq] using ceilQuot_spec hd
  case ru =>
    cases neg with
    | false => simpa [roundQuot_ru_eq] using ceilQuot_spec hd
    | true => simp [roundQuot_ru_eq]
  case finite =>
    intro r t
    obtain ⟨h0, h1⟩ := roundIeee_flags_low f rm ftz neg e hm
    refine ⟨h0, h1, fun ho => ?_, fun ho hftz ht => ?_, fun ho hf => ?_⟩
    · have ht : t = _ := roundIeee_overflow hm rfl ho
      rw [ht]
      exact ⟨rfl, rfl⟩
    · subst hftz
      exact roundIeee_flushed hm rfl ho ht
    · obtain ⟨-, -, h2, h3, h4⟩ := roundedFlags_bits r.inexact (r.tiny && r.inexact)
      have ht : t = _ := roundIeee_rounded hm rfl ho hf
      rw [ht]
      exact ⟨rfl, h4, h3, h2⟩

end Sys2Proof.Machine
end

section
/-! SUPPORT. The conversions of Table 5.7: what an integral value converts to, and the forms that write or read a pair. -/

namespace Sys2Proof.Machine

/-! Conversion to an integer range (R48) -/

/-- An integer is its own nearest integer, exactly. -/
theorem intVal_toInt (rm : RMode) (n : Int) : (intVal n).toInt rm = some (n, false) := by
  have hfrac : shiftFrac n.natAbs 1 0 = (n.natAbs, 1) := by simp [shiftFrac]
  have hsign : (if decide (n < 0) = true then -(n.natAbs : Int) else n.natAbs) = n := by
    simp only [decide_eq_true_eq]
    omega
  simp only [intVal, FVal.toInt, hfrac, roundQuot_one, hsign, Nat.mod_one, bne_self_eq_false]

/-- An integral value converts to itself, clamped, with NV where it is out of range. -/
theorem toRange_intVal (rm : RMode) (lo hi n : Int) :
    toRange rm lo hi (intVal n) = if n < lo then (lo, NV) else if hi < n then (hi, NV) else (n, 0) := by
  have h : toRange rm lo hi (intVal n) = match (intVal n).toInt rm with
    | some (i, inex) => if i < lo then (lo, NV) else if hi < i then (hi, NV) else (i, flagIf inex NX)
    | none => (0, NV) := rfl
  rw [h, intVal_toInt]
  rfl

theorem toS32_intVal_of_range (rm : RMode) {n : Int} (h0 : 0 ≤ n) (h : n < 2 ^ 31) : toS32 rm (intVal n) = ⟨n.toNat, 0⟩ := by
  have hbits : (BitVec.ofInt 32 n).toNat = n.toNat := by
    rw [BitVec.toNat_ofInt]
    omega
  rw [toS32, toRange_intVal, if_neg (by omega), if_neg (by omega), hbits]

theorem toS32_intVal_of_ge (rm : RMode) {n : Int} (h : 2 ^ 31 ≤ n) : toS32 rm (intVal n) = ⟨0x7FFFFFFF, NV⟩ := by
  rw [toS32, toRange_intVal, if_neg (by omega), if_pos (by omega)]
  rfl

theorem toN32_intVal_of_range (rm : RMode) {n : Int} (h0 : 0 ≤ n) (h : n < 2 ^ 31) : toN32 rm (intVal n) = ⟨n.toNat, 0⟩ := by
  rw [toN32, toRange_intVal, if_neg (by omega), if_neg (by omega)]

theorem toN32_intVal_of_neg (rm : RMode) {n : Int} (h : n < 0) : toN32 rm (intVal n) = ⟨0, NV⟩ := by
  rw [toN32, toRange_intVal, if_pos h]
  rfl

/-! The forms that write or read a pair -/

/-- A conversion of a 32-bit source into a pair. -/
theorem cvtToPair_gives {i : Instr} {h : Hdr} {d a : Opnd} {l : List Use} {f : Word → Word → FRes} {s : State} (hr : Runs i s)
    (hx : exec i s = issue i s fun s =>
      .ok ((s.put2 .c4 d (.ofNat 64 (f s.fpcIn (s.src h 1 a)).bits)).raise (f s.fpcIn (s.src h 1 a)).flags))
    (hu : i.info.uses = ⟨.dst2, d⟩ :: l) :
    Gives i s (outs2 d (.ofNat 64 (f (fpcOf i s) (operand i s h 1 a)).bits)) [] (f (fpcOf i s) (operand i s h 1 a)).flags :=
  gives_put2F hr hx rfl (writes_pair hr hu (.inl rfl))

/-- A conversion of a pair into a 32-bit destination. -/
theorem cvtFromPair_gives {i : Instr} {d a : Opnd} {l : List Use} {f : Word → Dword → FRes} {s : State} (hr : Runs i s)
    (hx : exec i s = issue i s fun s => .ok (s.putF d (f s.fpcIn (s.src2 1 a)))) (hu : i.info.uses = ⟨.dst, d⟩ :: l) :
    Gives i s (outs d (.ofNat 32 (f (fpcOf i s) (operand2 i s 1 a)).bits)) [] (f (fpcOf i s) (operand2 i s 1 a)).flags :=
  gives_putF hr hx rfl (writes_one hu rfl Nat.one_pos)

/-- Settles O11: each form by its arm; the clamp by what an integral value converts to. -/
theorem conversions : Obligations.Conversions := by
  unfold Obligations.Conversions
  refine ⟨?f16, ?bf16, ?fromF16, ?fromBf16, ?fromS32, ?fromN32, fun m => ?s32Fixed, ?s32, fun m => ?n32Fixed, ?n32,
    fun h d a s hr => ?f64F32, fun h d a s hr => ?f64S32, fun h d a s hr => ?f64N32, fun h d a s hr => ?f32F64,
    fun h d a m s => ⟨fun hr => ?s32F64Fixed, fun hr => ?s32F64, fun hr => ?n32F64Fixed, fun hr => ?n32F64⟩,
    fun rm => ⟨rfl, rfl⟩, fun rm n h0 h => ⟨toS32_intVal_of_range rm h0 h, toN32_intVal_of_range rm h0 h⟩,
    fun rm n h => toS32_intVal_of_ge rm h, fun rm n h => toN32_intVal_of_neg rm h⟩
  case f64F32 => exact cvtToPair_gives (f := fun c x => (f32In (fpcFtz c) x).round f64 .rne false false) hr rfl rfl
  case f64S32 => exact cvtToPair_gives (f := fun _ x => (intVal x.toInt).round f64 .rne false false) hr rfl rfl
  case f64N32 => exact cvtToPair_gives (f := fun _ x => (intVal x.toNat).round f64 .rne false false) hr rfl rfl
  case f32F64 => exact cvtFromPair_gives (f := fun c x => (f64.value x.toNat).round f32 (fpcRm c) (fpcFtz c) false) hr rfl rfl
  case s32F64Fixed => exact cvtFromPair_gives (f := fun _ x => toS32 (rmOf m.toNat) (f64.value x.toNat)) hr rfl rfl
  case s32F64 => exact cvtFromPair_gives (f := fun c x => toS32 (fpcRm c) (f64.value x.toNat)) hr rfl rfl
  case n32F64Fixed => exact cvtFromPair_gives (f := fun _ x => toN32 (rmOf m.toNat) (f64.value x.toNat)) hr rfl rfl
  case n32F64 => exact cvtFromPair_gives (f := fun c x => toN32 (fpcRm c) (f64.value x.toNat)) hr rfl rfl
  all_goals exact floatUnary_of (fun h d a s => rfl) (fun h d a => rfl)

end Sys2Proof.Machine
end

section
/-! SUPPORT. PKN, UPKN and the integer DOT forms: the width of a narrowed value, the bits of an inserted element, a word that traps in its
effect, and the sum of products as a sum over the elements. -/

namespace Sys2Proof.Machine

/-! The width of a narrowed value (R46) -/

theorem narrowFloat_lt {f : Fmt} {maxBits : Nat} (hmax : maxBits < f.signBit) (hinf : f.infBits < f.signBit) (inf neg : Bool)
    (num den : Nat) (e : Int) : (narrowFloat f maxBits inf neg num den e).bits < 2 * f.signBit := by
  have hsign : (if neg then f.signBit else 0) ≤ f.signBit := by split <;> omega
  unfold narrowFloat
  dsimp only
  split_ifs <;> dsimp only <;> omega

theorem narrowInt_lt (lo hi : Int) (w : Nat) (neg : Bool) (num den : Nat) (e : Int) :
    (narrowInt lo hi w neg num den e).bits < 2 ^ w :=
  BitVec.isLt _

/-- What Narrow gives fits the format's width. -/
theorem narrow_lt (v : FVal) (scale : Option Nat) (fmt : Narrowed) (sat : Bool) : (narrow v scale fmt sat).bits < 2 ^ fmt.width := by
  have hnan : (match fmt with
      | .e4m3 => (⟨0x7F, 0⟩ : FRes)
      | .e5m2 => ⟨0x7E, 0⟩
      | _ => ⟨0, NV⟩).bits < 2 ^ fmt.width := by cases fmt <;> decide
  unfold narrow
  dsimp only
  split
  · exact hnan
  split
  · exact hnan
  split
  · exact hnan
  · next neg _ => cases fmt <;> cases neg <;> decide
  · cases fmt with
    | e4m3 => exact narrowFloat_lt (by decide) (by decide) ..
    | e5m2 => exact narrowFloat_lt (by decide) (by decide) ..
    | e2m1 => exact narrowFloat_lt (by decide) (by decide) ..
    | s8 | n8 | s4 => exact narrowInt_lt ..

/-! The bits of an inserted element (R38, R117) -/

/-- Where the element of a logical slot begins in its word. -/
def slotBit (w k : Nat) : Nat := if w = 8 then 8 * pi8 k else 4 * pi4 k

/-- An element takes its own bits and leaves the others. -/
theorem insertElem_getLsbD {w v : Nat} (hv : v < 2 ^ w) (k : Nat) (d : Word) {j : Nat} (hj : j < 32) :
    (insertElem w k d v).getLsbD j
      = if slotBit w k ≤ j ∧ j < slotBit w k + w then v.testBit (j - slotBit w k) else d.getLsbD j := by
  have hmask : ((2 ^ w - 1) * 2 ^ slotBit w k).testBit j = (decide (slotBit w k ≤ j) && decide (j - slotBit w k < w)) := by
    rw [← Nat.shiftLeft_eq, Nat.testBit_shiftLeft, Nat.testBit_two_pow_sub_one]
  have helem : (v * 2 ^ slotBit w k).testBit j = (decide (slotBit w k ≤ j) && v.testBit (j - slotBit w k)) := by
    rw [← Nat.shiftLeft_eq, Nat.testBit_shiftLeft]
  have hbits : (insertElem w k d v).getLsbD j
      = (d.getLsbD j && !((2 ^ w - 1) * 2 ^ slotBit w k).testBit j || (v * 2 ^ slotBit w k).testBit j) := by
    simp only [insertElem, BitVec.getLsbD_or, BitVec.getLsbD_and, BitVec.getLsbD_not, BitVec.getLsbD_ofNat, hj, decide_true,
      Bool.true_and]
    rfl
  rw [hbits, hmask, helem]
  by_cases hin : slotBit w k ≤ j ∧ j < slotBit w k + w
  · have hlt : j - slotBit w k < w := by omega
    simp [hin.1, hin.2, hlt]
  · rw [if_neg hin]
    by_cases hlow : slotBit w k ≤ j
    · have hge : w ≤ j - slotBit w k := by omega
      have hpast : v.testBit (j - slotBit w k) = false :=
        Nat.testBit_lt_two_pow (lt_of_lt_of_le hv (Nat.pow_le_pow_right (by decide) hge))
      simp [hlow, hpast, Nat.not_lt.2 hge]
    · simp [hlow]

/-! A word that traps in its effect -/

theorem begin_lateOut (i : Instr) (s : State) : (begin_ i s).lateOut = s.lateOut := by
  rw [begin_rest]
  rfl

/-- A word whose own effect is a trap, and that changes nothing before it: what `issue` answers. -/
theorem issue_traps {i : Instr} {s : State} (k : State → Res) (h : Runs i s) (hlate : s.lateOut = false) {t : Trap} {v : Dword}
    (hk : k (begin_ i s) = .trap t v (begin_ i s)) : issue i s k = .next ((begin_ i s).freshen.takeTrap t v s.th.w) := by
  obtain ⟨hchain, howed, hheld, hgate, hloose⟩ := h
  have hw : (begin_ i s).th.w = s.th.w := by rw [begin_th]
  simp only [issue, hchain, issueAlone, howed, hheld, hgate, perform_tight k hloose, hk, State.endInTrap, begin_lateOut, hlate,
    left_of_level, hw, Bool.false_eq_true, if_false]

/-! PKN and UPKN (R117, R118) -/

theorem exec_pkn (h : Hdr) (d a b : Opnd) (s : State) : exec (.pkn h d a b) s = execPkn h d a b s := rfl

theorem exec_upkn (h : Hdr) (d a b : Opnd) (s : State) : exec (.upkn h d a b) s = execUpkn h d a b s := rfl

/-- With a format, and a slot that the format has, the b operand is well-formed. -/
theorem pkOk_of {y : Word} {fmt : Narrowed} (hf : pkFmt y = some fmt) (hs : fmt.width = 4 ∨ pkSlot y < 4) : pkOk y = true := by
  simpa [pkOk, hf] using hs

/-- PKN into a slot that its format has. -/
theorem pkn_gives {h : Hdr} {d a b : Opnd} {s : State} (hr : Runs (.pkn h d a b) s) {fmt : Narrowed}
    (hf : pkFmt (operand (.pkn h d a b) s h 2 b) = some fmt)
    (hs : fmt.width = 4 ∨ pkSlot (operand (.pkn h d a b) s h 2 b) < 4) :
    let y := operand (.pkn h d a b) s h 2 b
    let r := narrow (f32In false (operand (.pkn h d a b) s h 1 a)) (some (pkScale y)) fmt (y.getLsbD 7)
    Gives (.pkn h d a b) s (outs d (insertElem fmt.width (pkSlot y) (operand (.pkn h d a b) s h 0 d) r.bits)) [] r.flags := by
  refine gives_putF hr (exec_pkn h d a b s) ?_ (writes_one rfl rfl Nat.one_pos)
  have hok := pkOk_of hf hs
  rw [operand] at hf hok
  simp only [hf, hok, if_true]
  rfl

/-- UPKN of a slot that its format has. -/
theorem upkn_gives {h : Hdr} {d a b : Opnd} {s : State} (hr : Runs (.upkn h d a b) s) {fmt : Narrowed}
    (hf : pkFmt (operand (.upkn h d a b) s h 2 b) = some fmt)
    (hs : fmt.width = 4 ∨ pkSlot (operand (.upkn h d a b) s h 2 b) < 4) :
    let r := upknOf fmt (operand (.upkn h d a b) s h 1 a) (operand (.upkn h d a b) s h 2 b)
    Gives (.upkn h d a b) s (outs d (.ofNat 32 r.bits)) [] r.flags := by
  refine gives_putF hr (exec_upkn h d a b s) ?_ (writes_one rfl rfl Nat.one_pos)
  have hok := pkOk_of hf hs
  rw [operand] at hf hok
  simp only [hf, hok, if_true]
  rfl

/-- No format, or a slot that an 8-bit format does not have: b is ill-formed. -/
theorem pkOk_eq_false {y : Word} (h : ∀ fmt, pkFmt y = some fmt → fmt.width = 8 ∧ 4 ≤ pkSlot y) : pkOk y = false := by
  unfold pkOk
  split
  · next fmt hf =>
    obtain ⟨hw, hs⟩ := h fmt hf
    simp [hw, hs]
  · rfl

theorem pkn_traps {h : Hdr} {d a b : Opnd} {s : State} (hr : Runs (.pkn h d a b) s) (hlate : s.lateOut = false)
    (hbad : pkOk (operand (.pkn h d a b) s h 2 b) = false) :
    exec (.pkn h d a b) s
      = .next ((begin_ (.pkn h d a b) s).freshen.takeTrap .illegal ((Instr.pkn h d a b).word.setWidth 64) s.th.w) := by
  refine (exec_pkn h d a b s).trans (issue_traps _ hr hlate ?_)
  rw [operand] at hbad
  simp only [hbad, Bool.false_eq_true, if_false]
  split <;> rfl

theorem upkn_traps {h : Hdr} {d a b : Opnd} {s : State} (hr : Runs (.upkn h d a b) s) (hlate : s.lateOut = false)
    (hbad : pkOk (operand (.upkn h d a b) s h 2 b) = false) :
    exec (.upkn h d a b) s
      = .next ((begin_ (.upkn h d a b) s).freshen.takeTrap .illegal ((Instr.upkn h d a b).word.setWidth 64) s.th.w) := by
  refine (exec_upkn h d a b s).trans (issue_traps _ hr hlate ?_)
  rw [operand] at hbad
  simp only [hbad, Bool.false_eq_true, if_false]
  split <;> rfl

/-! The integer DOT forms (R50, R120) -/

/-- Element `k` of width `w` of a word, as a number. -/
def elemInt (w : Nat) (signed : Bool) (k : Nat) (x : Word) : Int :=
  if signed then (BitVec.ofNat w (elemBits w k x)).toInt else elemBits w k x

/-- The model's sum is the sum over the elements. -/
theorem idotSum_eq (w : Nat) (signed : Bool) (a b : Word) (n : Nat) :
    idotSum w signed a b n = ((List.range n).map fun k => elemInt w signed k a * elemInt w signed k b).sum := by
  induction n with
  | zero => rfl
  | succ n ih =>
    rw [List.range_succ, List.map_append, List.sum_append, ← ih, idotSum, Int.add_comm]
    simp [elemInt]

/-- The value of `w` bits in two's complement. -/
theorem toInt_ofNat_of_lt {w n : Nat} (hw : 0 < w) (hn : n < 2 ^ w) :
    (BitVec.ofNat w n).toInt = if n < 2 ^ (w - 1) then (n : Int) else (n : Int) - 2 ^ w := by
  have hpow : 2 ^ w = 2 * 2 ^ (w - 1) := by rw [← Nat.pow_succ']; congr 1; omega
  have hnat : (BitVec.ofNat w n).toNat = n := by rw [BitVec.toNat_ofNat, Nat.mod_eq_of_lt hn]
  have hhalf : 2 * n < 2 ^ w ↔ n < 2 ^ (w - 1) := by omega
  simp only [BitVec.toInt_eq_toNat_cond, hnat, hhalf]
  norm_cast

/-- A signed element is its bits in two's complement. -/
theorem elemInt_signed {w k : Nat} {x : Word} (hw : 0 < w) (h : elemBits w k x < 2 ^ w) :
    elemInt w true k x
      = if elemBits w k x < 2 ^ (w - 1) then (elemBits w k x : Int) else (elemBits w k x : Int) - 2 ^ w :=
  toInt_ofNat_of_lt hw h

theorem elemBits_eight_lt (k : Nat) (x : Word) : elemBits 8 k x < 2 ^ 8 := Nat.mod_lt _ (by decide)

theorem elemBits_four_lt (k : Nat) (x : Word) : elemBits 4 k x < 2 ^ 4 := Nat.mod_lt _ (by decide)

/-- A form of integer elements, by its arm. -/
theorem ternary_of_fop3 {mk : Hdr → Opnd → Opnd → Opnd → Instr} {f g : Word → Word → Word → Word} (hfg : ∀ d a b, f d a b = g d a b)
    (hx : ∀ h d a b s, exec (mk h d a b) s = fop3 (mk h d a b) h d a b (fun _ d a b => ⟨(f d a b).toNat, 0⟩) s)
    (hu : ∀ h d a b, (mk h d a b).info.uses = [⟨.rmw, d⟩, ⟨.src, a⟩, ⟨.src, b⟩]) : Ternary mk g := by
  intro h d a b s hr
  have hg := fop3_gives hr (hx h d a b s) (writes_one (hu h d a b) rfl Nat.one_pos)
  rwa [BitVec.ofNat_toNat, BitVec.setWidth_eq, hfg] at hg

/-- Settles O12: the element of PKN by its bits, the refusals by `pkOk`, and each DOT form by the sum over its elements. -/
theorem narrowAndDotForms : Obligations.NarrowAndDotForms := by
  unfold Obligations.NarrowAndDotForms
  refine ⟨fun h d a b s => ⟨fun hr fmt hf hs => ⟨_, fun j hj => insertElem_getLsbD (narrow_lt ..) _ _ hj, pkn_gives hr hf hs⟩,
    fun hr fmt hf hs => upkn_gives hr hf hs, ?refused⟩, ?s8, ?n8, ?s4⟩
  case refused =>
    refine List.forall_mem_cons.2 ⟨fun hr hlate hbad => pkn_traps hr hlate (pkOk_eq_false hbad),
      List.forall_mem_singleton.2 fun hr hlate hbad => upkn_traps hr hlate (pkOk_eq_false hbad)⟩
  case s8 =>
    refine ternary_of_fop3 (fun d a b => ?_) (fun h d a b s => rfl) (fun h d a b => rfl)
    simp only [idotOf, idotSum_eq, elemInt_signed (by decide : 0 < 8) (elemBits_eight_lt _ _)]
    rfl
  case n8 =>
    refine ternary_of_fop3 (fun d a b => ?_) (fun h d a b s => rfl) (fun h d a b => rfl)
    rw [idotOf, idotSum_eq]
    rfl
  case s4 =>
    refine ternary_of_fop3 (fun d a b => ?_) (fun h d a b s => rfl) (fun h d a b => rfl)
    simp only [idotOf, idotSum_eq, elemInt_signed (by decide : 0 < 4) (elemBits_four_lt _ _)]
    rfl

end Sys2Proof.Machine
end

section
/-! SUPPORT. The system registers: what SYSRD leaves of the thread's registers, what a write of a system register changes, and TLBI. -/

namespace Sys2Proof.Machine

theorem exec_sysrd (h : Hdr) (d : Opnd) (imm : BitVec 14) (s : State) : exec (.sysrd h d imm) s = execSysrd h d imm s := rfl

theorem exec_syswr (h : Hdr) (v : Opnd) (imm : BitVec 14) (s : State) : exec (.syswr h v imm) s = execSyswr h v imm s := rfl

theorem exec_tsrd (h : Hdr) (d : Opnd) (f : Bool) (s : State) : exec (.tsrd h d f) s = execTsrd h d f s := rfl

theorem exec_tlbi (h : Hdr) (a b : Opnd) (s : State) : exec (.tlbi h a b) s = execTlbi h a b s := rfl

/-! What a thread's registers come to once every result is written -/

/-- `u` comes to what `s` does, and `v` to what `u` does but for some registers. -/
theorem Writes.of_nil {s u v : State} {regs : List (Nat × Word)} (h : Writes s u []) (g : Writes u v regs) : Writes s v regs := by
  obtain ⟨-, hkept, hpred, hfpc⟩ := h
  obtain ⟨gwrote, gkept, gpred, gfpc⟩ := g
  exact ⟨gwrote, fun c hc => (gkept c hc).trans (hkept c (by simp)), fun n => (gpred n).trans (hpred n), gfpc.trans hfpc⟩

/-- States whose threads settle to the same registers, predicates and FPC. -/
theorem writes_nil {s u : State} (hr : u.th.settle.regs = s.th.settle.regs) (hp : u.th.settle.preds = s.th.settle.preds)
    (hf : u.th.settle.fpc = s.th.settle.fpc) : Writes s u [] := by
  refine ⟨by simp, fun c _ => ?_, fun n => ?_, hf⟩
  · rw [State.final, State.final, Thread.reg, Thread.reg, hr]
  · rw [State.finalPred, State.finalPred, hp]

theorem begin_writes (i : Instr) (s : State) : Writes s (begin_ i s) [] :=
  let ⟨hr, hp, hf⟩ := begin_settle i s
  writes_nil hr hp hf

theorem settle_writes (s : State) : Writes s { s with th := s.th.settle } [] := by
  refine writes_nil ?_ ?_ ?_ <;> simp only [Thread.settle_settle]

theorem latch_writes (s : State) (l : Option (Nat × Word)) : Writes s { s with th := { s.th with latch := l } } [] := by
  refine writes_nil ?_ ?_ ?_ <;> simp only [Thread.settle_regs, Thread.settle_preds, Thread.settle_fpc]

/-- A result without flags under a register writes that register alone. -/
theorem postTo_writes (s : State) (d : Opnd) (v : Word) : Writes s (s.postTo d v) (outs d v) := by
  unfold State.postTo outs
  by_cases hr : d.isReg = true
  · have hlt := Opnd.code_lt hr
    simp only [hr, if_true, Writes, List.forall_mem_singleton, post_final]
    refine ⟨by simp [hlt], fun c hc => if_neg fun h => hc h.1.symm, fun n => ?_, ?_⟩
    · exact post_finalPred_reg _ _ _ _ (by omega) n
    · rw [post_finalFpc, setFlags_zero]
  · simp only [hr, Bool.false_eq_true, if_false, if_true]
    exact ⟨by simp, fun _ _ => rfl, fun _ => rfl, rfl⟩

/-- What SYSRD leaves before its result: the earlier results written for FPC, and the latch. -/
def State.readsSys (b : State) (imm : BitVec 14) : State :=
  let u := if imm = 0 then { b with th := b.th.settle } else b
  { u with th := { u.th with latch := (b.sysRead imm.toNat).2 } }

theorem readsSys_writes (b : State) (imm : BitVec 14) : Writes b (b.readsSys imm) [] := by
  unfold State.readsSys
  dsimp only
  split_ifs
  · exact (settle_writes b).of_nil (latch_writes _ _)
  · exact latch_writes b _

theorem readsSys_chain (b : State) (imm : BitVec 14) : (b.readsSys imm).chain = b.chain := by
  unfold State.readsSys
  split <;> rfl

theorem readsSys_level (b : State) (imm : BitVec 14) : (b.readsSys imm).th.level = b.th.level := by
  unfold State.readsSys
  split
  · dsimp only
    rw [Thread.settle_eq]
  · rfl

/-- SYSRD (R206). -/
theorem sysrd_takes {h : Hdr} {d : Opnd} {imm : BitVec 14} {s : State} (hr : Runs (.sysrd h d imm) s) {b : State}
    (hb : begin_ (.sysrd h d imm) s = b) :
    Takes (.sysrd h d imm) s ((b.readsSys imm).postTo d (b.sysRead imm.toNat).1) := by
  have ht := postTo_touched (b.readsSys imm) d (b.sysRead imm.toNat).1 0
  refine takes_of hr (exec_sysrd h d imm s) (by rw [hb]; rfl) ?_ ?_
  · rw [ht.chain_eq, readsSys_chain, ← hb, begin_chain hr]
  · rw [ht.level_eq, readsSys_level, ← hb, begin_level]

theorem sysrd_writes (h : Hdr) (d : Opnd) (imm : BitVec 14) (s : State) (v : Word) :
    Writes s (((begin_ (.sysrd h d imm) s).readsSys imm).postTo d v) (outs d v) :=
  (begin_writes _ s).of_nil ((readsSys_writes _ imm).of_nil (postTo_writes _ d v))

/-! What a write of a system register changes (R207, Table 9.4) -/

theorem countAll_eq {α : Type} (f : State → α → State) (hf : ∀ s x, f s x = { s with evcnt := (f s x).evcnt }) (l : List α) (s : State) :
    l.foldl f s = { s with evcnt := (l.foldl f s).evcnt } := by
  induction l generalizing s with
  | nil => rfl
  | cons x l ih => rw [List.foldl_cons, ih, hf]

theorem count_eq (s : State) (core eid code k : Nat) : s.count core eid code k = { s with evcnt := (s.count core eid code k).evcnt } := by
  unfold State.count
  split <;> rfl

/-- Counting withheld grants changes quads and event counters alone. -/
theorem accrue_eq (s : State) (n now : Nat) :
    s.accrue n now = { s with quads := (s.accrue n now).quads, evcnt := (s.accrue n now).evcnt } := by
  unfold State.accrue
  dsimp only
  split
  · rfl
  · rw [countAll_eq _ fun s c => count_eq ..]
    rfl

theorem writeGov_eq (s : State) (q : Nat) (v : Word) :
    s.writeGov q v = { s with quads := (s.writeGov q v).quads, evcnt := (s.writeGov q v).evcnt } := by
  unfold State.writeGov
  dsimp only
  split
  · rfl
  · rw [State.modQuad, accrue_eq]

/-- A write of FPC outside a chain leaves its mode bits and flags. -/
theorem sysWrite_fpc {s : State} (hc : s.chain = none) (v : Word) : (s.sysWrite 0 v).th.fpc = v &&& 0x1F07 := by
  rw [State.sysWrite, if_pos rfl, hc]
  exact BitVec.or_zero

/-- A SIMT thread has no other system register to write. -/
theorem sysWrite_simt {s : State} {team idx : Nat} (hcur : s.cur = .simt team idx) {k : Nat} (h0 : k ≠ 0) (h1 : k ≠ 1) (v : Word) :
    s.sysWrite k v = s := by
  rw [State.sysWrite, if_neg h0, if_neg h1, hcur]

theorem sysWrite_bankS {s : State} {n k : Nat} (hcur : s.cur = .host n) (hk : 0x040 ≤ k ∧ k < 0x050) (v : Word) :
    s.sysWrite k v = s.modHost n fun c => { c with bankS := c.bankS.write s.ns (k - 0x040) v } := by
  rw [State.sysWrite, if_neg (by omega), if_neg (by omega), hcur]
  dsimp only
  rw [if_neg (by simp; omega), if_neg (by simp; omega), if_pos (by simp; omega)]

theorem sysWrite_bankH {s : State} {n k : Nat} (hcur : s.cur = .host n) (hk : 0x050 ≤ k ∧ k < 0x060) (v : Word) :
    s.sysWrite k v = s.modHost n fun c => { c with bankH := c.bankH.write s.ns (k - 0x050) v } := by
  rw [State.sysWrite, if_neg (by omega), if_neg (by omega), hcur]
  dsimp only
  rw [if_neg (by simp; omega), if_neg (by simp; omega), if_neg (by simp; omega), if_pos (by simp; omega)]

theorem sysWrite_guestid {s : State} {n : Nat} (hcur : s.cur = .host n) (v : Word) :
    s.sysWrite 0x062 v = s.modHost n fun c => { c with guestid := v &&& 0xFF } := by
  rw [State.sysWrite, hcur]
  rfl

theorem sysWrite_fltresp {s : State} {n : Nat} (hcur : s.cur = .host n) (v : Word) : s.sysWrite 0x063 v = s.writeFltresp n v := by
  rw [State.sysWrite, hcur]
  rfl

/-- What a write of a system register of host core `n`, other than FLTRESP, can come to: another FPC or CHK of its thread, other registers of
its own, or other event counters, selections of events, and quads. -/
inductive SysWritten (s : State) (n : Nat) : State → Prop
  | thread (fpc chk : Word) : SysWritten s n { s with th := { s.th with fpc := fpc, chk := chk } }
  | host (f : HostCore → HostCore) : SysWritten s n (s.modHost n f)
  | counters (cores : Tab Core) (evcnt : Tab Nat) (quads : Tab Quad) :
      SysWritten s n { s with cores := cores, evcnt := evcnt, quads := quads }

theorem writeGov_written (s : State) (n q : Nat) (v : Word) : SysWritten s n (s.writeGov q v) := by
  rw [writeGov_eq]
  exact .counters s.cores _ _

theorem sysWrite_written {s : State} {k n : Nat} (hcur : s.cur = .host n) (hk : k ≠ 0x063) (v : Word) :
    SysWritten s n (s.sysWrite k v) := by
  by_cases h0 : k = 0
  · rw [State.sysWrite, if_pos h0]
    exact .thread _ _
  by_cases h1 : k = 1
  · rw [State.sysWrite, if_neg h0, if_pos h1]
    exact .thread _ _
  rw [State.sysWrite, if_neg h0, if_neg h1]
  split
  · next h => cases hcur.symm.trans h
  next m h =>
  obtain rfl : n = m := ThreadId.host.inj (hcur.symm.trans h)
  by_cases hsel : (decide (0x010 ≤ k) && decide (k < 0x018)) = true
  · rw [if_pos hsel]
    exact .counters _ s.evcnt s.quads
  by_cases hcnt : (decide (0x018 ≤ k) && decide (k < 0x028)) = true
  · rw [if_neg hsel, if_pos hcnt]
    exact .counters s.cores _ s.quads
  rw [if_neg hsel, if_neg hcnt]
  by_cases hs : (decide (0x040 ≤ k) && decide (k < 0x050)) = true
  · rw [if_pos hs]
    exact .host _
  by_cases hh : (decide (0x050 ≤ k) && decide (k < 0x060)) = true
  · rw [if_neg hs, if_pos hh]
    exact .host _
  rw [if_neg hs, if_neg hh]
  by_cases hroot : (decide (k = 0x060) || decide (k = 0x061)) = true
  · rw [if_pos hroot]
    exact .host _
  by_cases hguest : k = 0x062
  · rw [if_neg hroot, if_pos hguest]
    exact .host _
  rw [if_neg hroot, if_neg hguest, if_neg hk]
  by_cases hquad : k = 0x070
  · rw [if_pos hquad]
    exact .host _
  by_cases hgov : k = 0x071
  · rw [if_neg hquad, if_pos hgov]
    split
    · exact writeGov_written ..
    · exact .counters s.cores s.evcnt s.quads
  · rw [if_neg hquad, if_neg hgov]
    exact .counters s.cores s.evcnt s.quads

/-! The registers of host cores -/

theorem modHost_hostCore (s : State) (n : Nat) (f : HostCore → HostCore) : (s.modHost n f).hostCore n = f (s.hostCore n) := by
  simp [State.modHost, State.hostCore, Tab.getD, Tab.find_put]

theorem modHost_hostCore_ne (s : State) {n m : Nat} (h : m ≠ n) (f : HostCore → HostCore) :
    (s.modHost n f).hostCore m = s.hostCore m := by
  simp [State.modHost, State.hostCore, Tab.getD, Tab.find_put_ne _ _ h]

/-- Such a write leaves the thread's registers, predicates and word index, memory, and every other host core. -/
theorem SysWritten.frame {s t : State} {n : Nat} (h : SysWritten s n t) :
    t.th.regs = s.th.regs ∧ t.th.preds = s.th.preds ∧ t.th.w = s.th.w ∧ t.mem = s.mem
    ∧ ∀ m, m ≠ n → t.hostCore m = s.hostCore m := by
  cases h with
  | thread f c => exact ⟨rfl, rfl, rfl, rfl, fun _ _ => rfl⟩
  | host f => exact ⟨rfl, rfl, rfl, rfl, fun _ hm => modHost_hostCore_ne s hm f⟩
  | counters c e q => exact ⟨rfl, rfl, rfl, rfl, fun _ _ => rfl⟩

theorem SysWritten.level {s t : State} {n : Nat} (h : SysWritten s n t) : t.th.level = s.th.level := by
  cases h <;> rfl

/-! The level of a thread after a write -/

theorem foldl_level {α : Type} {f : State → α → State} (hf : ∀ s x, (f s x).th.level = s.th.level) (l : List α) (s : State) :
    (l.foldl f s).th.level = s.th.level := by
  induction l generalizing s with
  | nil => rfl
  | cons x l ih => rw [List.foldl_cons, ih, hf]

theorem modThread_level (s : State) (i : ThreadId) {f : Thread → Thread} (hf : ∀ t, (f t).level = t.level) :
    (s.modThread i f).th.level = s.th.level := by
  unfold State.modThread State.thread? State.setThread
  split_ifs with hi
  · exact hf s.th
  · split <;> rfl

@[simp] theorem setChan_th (s : State) (o : Owner) (ch : Nat) (c : Chan) : (s.setChan o ch c).th = s.th := by
  cases o with
  | host n => rfl
  | team t => exact State.modTeam_th ..

theorem settleCeown_level (s : State) : s.settleCeown.th.level = s.th.level :=
  foldl_level (fun s p => by unfold State.applyCeown; split <;> rfl) _ s

theorem stopCopy_level (s : State) (o : Owner) (ch : Nat) (t : Trap) : (s.stopCopy o ch t).th.level = s.th.level := by
  have hchan : ∀ c, ((s.setChan o ch c).settleCeown).th.level = s.th.level := fun c => by rw [settleCeown_level, setChan_th]
  unfold State.stopCopy
  cases o with
  | host n => exact (modThread_level _ (.host n) (f := fun x => x.owe t (.ofNat 64 ch)) fun _ => rfl).trans (hchan _)
  | team k =>
    dsimp only
    split
    · rw [State.endLaunch, State.modLaunch_th, hchan]
    · exact hchan _

theorem answerLink_level (s : State) (link : Nat) (fail : Bool) : (s.answerLink link fail).th.level = s.th.level := by
  cases fail with
  | true =>
    have hend : ∀ (s : State) n e, (s.endLaunch n e).th.level = s.th.level := fun s n e => by rw [State.endLaunch, State.modLaunch_th]
    exact (foldl_level (fun s c => stopCopy_level ..) _ _).trans
      ((foldl_level (fun s n => hend ..) _ _).trans (foldl_level (fun s n => hend ..) _ _))
  | false =>
    simp only [State.answerLink, Bool.false_eq_true, if_false]
    split <;> rfl

theorem writeFltresp_level (s : State) (n : Nat) (v : Word) : (s.writeFltresp n v).th.level = s.th.level := by
  unfold State.writeFltresp
  dsimp only
  split
  · exact answerLink_level ..
  · rfl

/-- No write of a system register changes the thread's level. -/
theorem sysWrite_level (s : State) (k : Nat) (v : Word) : (s.sysWrite k v).th.level = s.th.level := by
  by_cases h0 : k = 0
  · rw [h0]
    rfl
  by_cases h1 : k = 1
  · rw [h1]
    rfl
  cases hcur : s.cur with
  | simt team idx => rw [sysWrite_simt hcur h0 h1]
  | host n =>
    by_cases hk : k = 0x063
    · rw [hk, sysWrite_fltresp hcur, writeFltresp_level]
    · exact (sysWrite_written hcur hk v).level

/-- SYSWR (R207). -/
theorem syswr_takes {h : Hdr} {v : Opnd} {imm : BitVec 14} {s : State} (hr : Runs (.syswr h v imm) s) :
    Takes (.syswr h v imm) s ((begin_ (.syswr h v imm) s).sysWrite imm.toNat ((begin_ (.syswr h v imm) s).src h 0 v)) := by
  have hchain := begin_chain hr
  refine takes_of hr (exec_syswr h v imm s) ?_ ?_ ?_
  · simp only [hchain]
  · exact (State.sysWrite_keeps (Keeps.refl _) _ _).chain hchain
  · rw [sysWrite_level, begin_level]

/-- TSRD (R208). -/
theorem tsrd_gives {h : Hdr} {d : Opnd} {f : Bool} {s : State} (hr : Runs (.tsrd h d f) s) :
    let b := begin_ (.tsrd h d f) s
    Gives (.tsrd h d f) s (outs2 d (.ofNat 64 (b.timestamp (b.space b.cur).eid.toNat f))) :=
  gives_postTo2 hr (exec_tsrd h d f s) rfl fun hd => (writes_pair hr rfl (.inl rfl) hd).2.2

/-! TLBI (R227) -/

/-- The end of a word whose thread, not being at E, cannot leave an enclave. -/
theorem takes_outside {i : Instr} {s u : State} {k : State → Res} (h : Runs i s) (hx : exec i s = issue i s k)
    (hk : k (begin_ i s) = .ok u) (hc : u.chain = none) (hl : s.th.level ≠ .e) : Takes i s u := by
  have hleft : (begin_ i s).left u = false := by
    rw [State.left, begin_level, beq_eq_false_iff_ne.2 hl, Bool.and_false, Bool.false_and]
  obtain ⟨hchain, howed, hheld, hgate, hloose⟩ := h
  refine ⟨retire i ((begin_ i s).space (begin_ i s).cur).eid.toNat (some (nextIndex i (begin_ i s))) u, ?_, ?_⟩
  · rw [hx]
    simp only [issue, hchain, issueAlone, howed, hheld, hgate, perform_tight k hloose, hk, hleft, Bool.false_eq_true, if_false]
  · rw [nextIndex_begin]
    exact ends_of i _ _ hc

/-- A word that runs has passed the check of Table 3.7. -/
theorem Runs.priv {i : Instr} {s : State} (h : Runs i s) : privWord i (begin_ i s) = false := by
  obtain ⟨-, -, -, hgate, -⟩ := h
  by_contra hp
  rw [gate, if_pos (Bool.eq_true_of_not_eq_false hp)] at hgate
  split at hgate <;> cases hgate

/-- TLBI is a word of levels S and H. -/
theorem tlbi_level {h : Hdr} {a c : Opnd} {s : State} (hr : Runs (.tlbi h a c) s) : s.th.level ≠ .e := by
  intro he
  have hp := hr.priv
  have hhost : (Instr.tlbi h a c).info.host = .upTo .s := rfl
  have hsimt : (Instr.tlbi h a c).info.simt = .priv := rfl
  rw [privWord, Bool.or_eq_false_iff, hhost, hsimt, begin_level, he] at hp
  obtain ⟨hfirst, -⟩ := hp
  split at hfirst <;> cases hfirst

/-- The translations and lines of the scope of a TLBI. -/
def tlbiTlb (scope va : Nat) (sp : Space) (guest : Byte) (t : Tlb) : Bool := match scope with
  | 0 => t.covers sp va
  | 1 => t.sp = sp
  | 2 => t.sp.guest = guest
  | _ => true

def tlbiLine (scope va : Nat) (sp : Space) (guest : Byte) (l : Line) : Bool := match scope with
  | 0 => l.sp = sp && l.va / 2 ^ 20 = va / 2 ^ 27
  | 1 => l.sp = sp
  | 2 => l.sp.guest = guest
  | _ => true

/-- A TLBI of scope `k` that no check stops and no held line holds up. -/
theorem tlbi_takes {h : Hdr} {a c : Opnd} {s : State} (hr : Runs (.tlbi h a c) s) {b : State} (hb : begin_ (.tlbi h a c) s = b)
    {x : Word} (hx : b.src h 2 c = x) (h16 : x.toNat / 2 ^ 16 = 0) (h4 : x.toNat / 4 % 64 = 0) {k : Nat} (hk : x.toNat % 4 = k)
    (hpriv : k = 3 → b.th.level = .h) (hpage : k = 0 → (b.src2 1 a).toNat % 4096 = 0 ∧ (b.src2 1 a).toNat < 12 * 2 ^ 52)
    (hheld : b.fenceMeetsHold 1 4 false = false) {guest : Byte}
    (hguest : (if b.th.level == .h then x.extractLsb' 8 8 else (b.space b.cur).guest) = guest)
    (hwait : b.waitsForHold (tlbiLine k (b.src2 1 a).toNat (b.space b.cur) guest) = false) :
    Takes (.tlbi h a c) s ((b.release 4).invalidate (tlbiTlb k (b.src2 1 a).toNat (b.space b.cur) guest)
      (tlbiLine k (b.src2 1 a).toNat (b.space b.cur) guest)) := by
  subst hk
  refine takes_outside hr (exec_tlbi h a c s) ?_ ?_ (tlbi_level hr)
  · rw [hb]
    dsimp only
    rw [hx, hguest, if_neg (by simp only [h16, h4]; decide), if_neg (by simpa using hpriv), if_neg (by simpa using fun h0 => (hpage h0).1),
      if_neg (by simpa [wellFormedVa] using fun h0 => (hpage h0).2), if_neg]
    · rfl
    · rw [hheld, Bool.false_or]
      exact ne_true_of_eq_false hwait
  · exact (State.invalidate_keeps (State.release_keeps (Keeps.refl _) _) _ _).chain (hb ▸ begin_chain hr)

theorem invalidate_drops (s : State) (t : Tlb → Bool) (l : Line → Bool) :
    ((s.invalidate t l).tlb.all fun x => !t x) = true ∧ ((s.invalidate t l).clines.all fun x => !l x) = true
    ∧ ((s.invalidate t l).ilines.all fun x => !l x) = true := by
  simp [State.invalidate]

/-- What such a TLBI leaves holds none of the translations and lines of its scope. -/
theorem tlbi_drops {h : Hdr} {a c : Opnd} {s : State} (hr : Runs (.tlbi h a c) s) {b : State} (hb : begin_ (.tlbi h a c) s = b)
    {x : Word} (hx : b.src h 2 c = x) (h16 : x.toNat / 2 ^ 16 = 0) (h4 : x.toNat / 4 % 64 = 0) {k : Nat} (hk : x.toNat % 4 = k)
    (hpriv : k = 3 → b.th.level = .h) (hpage : k = 0 → (b.src2 1 a).toNat % 4096 = 0 ∧ (b.src2 1 a).toNat < 12 * 2 ^ 52)
    (hheld : b.fenceMeetsHold 1 4 false = false) {guest : Byte}
    (hguest : (if b.th.level == .h then x.extractLsb' 8 8 else (b.space b.cur).guest) = guest) {t : Tlb → Bool} {l : Line → Bool}
    (ht : tlbiTlb k (b.src2 1 a).toNat (b.space b.cur) guest = t) (hl : tlbiLine k (b.src2 1 a).toNat (b.space b.cur) guest = l)
    (hwait : b.waitsForHold l = false) :
    ∃ u, Takes (.tlbi h a c) s u ∧ u = (b.release 4).invalidate t l ∧ (u.tlb.all fun x => !t x) = true
      ∧ (u.clines.all fun x => !l x) = true ∧ (u.ilines.all fun x => !l x) = true := by
  subst ht hl
  exact ⟨_, tlbi_takes hr hb hx h16 h4 hk hpriv hpage hheld hguest hwait, rfl, invalidate_drops ..⟩

/-! What a write leaves in a register, and what a read gives (R205-R207, Tables 9.3 and 9.4) -/

theorem sysWrite_bankS_hostCore {s : State} {n k : Nat} (hcur : s.cur = .host n) (hk : 0x040 ≤ k ∧ k < 0x050) (v : Word) :
    ((s.sysWrite k v).hostCore n).bankS = (s.hostCore n).bankS.write s.ns (k - 0x040) v := by
  rw [sysWrite_bankS hcur hk, modHost_hostCore]

theorem sysWrite_bankH_hostCore {s : State} {n k : Nat} (hcur : s.cur = .host n) (hk : 0x050 ≤ k ∧ k < 0x060) (v : Word) :
    ((s.sysWrite k v).hostCore n).bankH = (s.hostCore n).bankH.write s.ns (k - 0x050) v := by
  rw [sysWrite_bankH hcur hk, modHost_hostCore]

/-- TCAUSE as it keeps a written value, as a number. -/
theorem tcauseOf_toNat (v : Word) :
    let kind := if v.toNat / 256 % 8 ≤ 3 then v.toNat / 256 % 8 else 0
    let top := if kind = 1 then 0 else if kind = 2 then 31 else 22
    (tcauseOf v).toNat = kind * 256 + if v.toNat % 256 ≤ top then v.toNat % 256 else 0 := by
  dsimp only
  rw [tcauseOf, BitVec.toNat_ofNat, Nat.mod_eq_of_lt]
  split_ifs <;> omega

/-- A cause that Table 9.3 lists is kept. -/
theorem tcauseOf_listed {v : Word}
    (h : v.toNat ≤ 22 ∨ v = 0x100 ∨ (0x200 ≤ v.toNat ∧ v.toNat ≤ 0x21F) ∨ (0x300 ≤ v.toNat ∧ v.toNat ≤ 0x316)) : tcauseOf v = v := by
  have hn : v.toNat ≤ 22 ∨ v.toNat = 256 ∨ (0x200 ≤ v.toNat ∧ v.toNat ≤ 0x21F) ∨ (0x300 ≤ v.toNat ∧ v.toNat ≤ 0x316) :=
    h.imp_right (Or.imp_left fun e => by rw [e]; rfl)
  refine BitVec.eq_of_toNat_eq ?_
  rw [tcauseOf_toNat]
  split_ifs <;> omega

theorem tcauseOf_lt (v : Word) : (tcauseOf v).toNat < 0x800 := by
  rw [tcauseOf_toNat]
  split_ifs <;> omega

theorem pairOf_lo (lo hi : Word) : (pairOf lo hi).lo = lo := BitVec.extractLsb'_append_eq_right

theorem pairOf_hi (lo hi : Word) : (pairOf lo hi).hi = hi := BitVec.extractLsb'_append_eq_left

/-- A write of the low half of TVEC leaves its [5:0] zero. -/
theorem tvec_lo (x : Dword) (v : Word) : (setHalf x false v &&& ~~~(0x3F : Dword)).lo = v &&& ~~~(0x3F : Word) := by
  rw [Dword.lo, BitVec.extractLsb'_and]
  exact congrArg₂ (· &&& ·) (pairOf_lo v x.hi) (by decide)

/-- A write of its high half is whole. -/
theorem tvec_hi (x : Dword) (v : Word) : (setHalf x true v &&& ~~~(0x3F : Dword)).hi = v := by
  have hmask : (~~~(0x3F : Dword)).extractLsb' 32 32 = BitVec.allOnes 32 := by decide
  rw [Dword.hi, BitVec.extractLsb'_and, hmask, BitVec.and_allOnes]
  exact pairOf_hi x.lo v

/-- A read of a register by its first number. -/
theorem sysRead_first (s : State) {n : Nat} (h : hiOf n = none) :
    s.sysRead n = (.ofNat 32 (s.sysValue n), if isLo n then some (n + 1, .ofNat 32 (s.sysValue n / 2 ^ 32)) else none) := by
  rw [State.sysRead, h]

/-- A read of a high half that a read of its low half has latched (R206). -/
theorem sysRead_latched {s : State} {n m : Nat} (h : hiOf n = some m) {x : Word} (hx : s.th.latch = some (n, x)) :
    s.sysRead n = (x, none) := by
  rw [State.sysRead, h]
  simp only [hx, if_true]

theorem sysValue_tepc {s : State} {n : Nat} (hcur : s.cur = .host n) : s.sysValue 0x044 = (s.hostCore n).bankS.tepc.toNat := by
  rw [State.sysValue, hcur]
  rfl

theorem sysValue_ptroot {s : State} {n : Nat} (hcur : s.cur = .host n) : s.sysValue 0x060 = (s.hostCore n).ptroot.toNat := by
  rw [State.sysValue, hcur]
  rfl

theorem sysValue_guestid {s : State} {n : Nat} (hcur : s.cur = .host n) : s.sysValue 0x062 = (s.hostCore n).guestid.toNat := by
  rw [State.sysValue, hcur]
  rfl

theorem readBack_tepc {s : State} {n : Nat} (hcur : s.cur = .host n) (v : Word) : ((s.sysWrite 0x044 v).sysRead 0x044).1 = v := by
  have hcur' : (s.sysWrite 0x044 v).cur = .host n := by rw [sysWrite_bankS hcur (by decide)]; exact hcur
  rw [sysRead_first _ (by decide), sysValue_tepc hcur', sysWrite_bankS_hostCore hcur (by decide)]
  exact (BitVec.ofNat_toNat ..).trans (BitVec.setWidth_eq _)

theorem readBack_guestid {s : State} {n : Nat} (hcur : s.cur = .host n) (v : Word) :
    ((s.sysWrite 0x062 v).sysRead 0x062).1 = v &&& 0xFF := by
  have hcur' : (s.sysWrite 0x062 v).cur = .host n := by rw [sysWrite_guestid hcur]; exact hcur
  rw [sysRead_first _ (by decide), sysValue_guestid hcur', sysWrite_guestid hcur, modHost_hostCore]
  exact (BitVec.ofNat_toNat ..).trans (BitVec.setWidth_eq _)

/-- Settles O37: the four words by their arms; what a write leaves by the equations of `sysWrite`, and its frame by what a write can come
to. -/
theorem systemRegisters : Obligations.SystemRegisters := by
  unfold Obligations.SystemRegisters
  refine ⟨⟨fun h d imm s hr => ⟨sysrd_takes hr rfl, sysrd_writes h d imm s _⟩, fun h v imm s hr => syswr_takes hr,
    fun h d f s hr => tsrd_gives hr, fun h a c s hr => ?tlbi⟩,
    fun s v hc => ⟨sysWrite_fpc hc v, rfl, fun n hcur => ?registers⟩⟩
  case tlbi =>
    intro i b x va sp guest drops h16 h4 hheld
    have hlevel : b.th.level = s.th.level := begin_level i s
    have hguest : (if b.th.level == .h then x.extractLsb' 8 8 else (b.space b.cur).guest) = guest := by
      simp only [hlevel, beq_iff_eq]
      rfl
    refine ⟨fun h0 hpage hva hwait => ?page, fun h1 hwait => ?context, fun h2 hwait => ?guest, fun h3 hpriv hwait => ?all⟩
    case page => exact tlbi_drops hr rfl rfl h16 h4 h0 nofun (fun _ => ⟨hpage, hva⟩) hheld hguest rfl rfl hwait
    case context => exact tlbi_drops hr rfl rfl h16 h4 h1 nofun nofun hheld hguest rfl rfl hwait
    case guest => exact tlbi_drops hr rfl rfl h16 h4 h2 nofun nofun hheld hguest rfl rfl hwait
    case all => exact tlbi_drops hr rfl rfl h16 h4 h3 (fun _ => hlevel.trans hpriv) nofun hheld hguest rfl rfl hwait
  case registers =>
    have bankS (k : Nat) (hk : 0x040 ≤ k ∧ k < 0x050) := sysWrite_bankS_hostCore hcur hk v
    refine ⟨?vecLo, ?vecHi, fun hlisted => ?cause, ?causeLt, congrArg Bank.tstat (bankS 0x043 (by decide)),
      congrArg Bank.tepc (bankS 0x044 (by decide)), congrArg Bank.tsave0 (bankS 0x049 (by decide)),
      congrArg Bank.tsave1 (bankS 0x04A (by decide)), congrArg Bank.imask (bankS 0x04C (by decide)),
      congrArg Bank.ipend (bankS 0x04B (by decide)), congrArg Bank.tepc (sysWrite_bankH_hostCore hcur (by decide) v), ?guest,
      readBack_tepc hcur v, readBack_guestid hcur v, ?latches, fun x hx => sysRead_latched (m := 0x060) (by decide) hx,
      fun k hk => (sysWrite_written hcur hk v).frame⟩
    case vecLo => rw [bankS 0x040 (by decide)]; exact tvec_lo ..
    case vecHi => rw [bankS 0x041 (by decide)]; exact tvec_hi ..
    case cause => rw [bankS 0x042 (by decide)]; exact tcauseOf_listed hlisted
    case causeLt => rw [bankS 0x042 (by decide)]; exact tcauseOf_lt v
    case guest => rw [sysWrite_guestid hcur, modHost_hostCore]
    case latches => rw [sysRead_first _ (by decide), sysValue_ptroot hcur]; rfl

end Sys2Proof.Machine
end

section
/-! SUPPORT. PASS_COMPLETE: the writes of a tile's elements by their keys, and what the completion of a pass leaves alone. -/

namespace Sys2Proof.Machine

/-! Writes under many keys -/

/-- Writes under other keys leave an entry alone. -/
theorem Tab.getD_foldl_set_of_ne {ι α : Type} [DecidableEq α] (z : α) (key : ι → Nat) (val : ι → α) {l : List ι} {k : Nat}
    (h : ∀ i ∈ l, key i ≠ k) (t : Tab α) : Tab.getD (l.foldl (fun m i => Tab.set m z (key i) (val i)) t) k z = Tab.getD t k z := by
  induction l generalizing t with
  | nil => rfl
  | cons i l ih =>
    rw [List.foldl_cons, ih fun j hj => h j (List.mem_cons_of_mem i hj),
      Tab.getD_set_ne _ _ _ (Ne.symm (h i List.mem_cons_self))]

/-- Of writes under keys that are all different each leaves its value. -/
theorem Tab.getD_foldl_set_of_mem {ι α : Type} [DecidableEq α] (z : α) (key : ι → Nat) (val : ι → α) {l : List ι} {i : ι} (hi : i ∈ l)
    (h : ∀ j ∈ l, key j = key i → j = i) (t : Tab α) :
    Tab.getD (l.foldl (fun m i => Tab.set m z (key i) (val i)) t) (key i) z = val i := by
  induction l generalizing t with
  | nil => cases hi
  | cons j l ih =>
    rw [List.foldl_cons]
    by_cases hl : i ∈ l
    · exact ih hl (fun x hx => h x (List.mem_cons_of_mem j hx)) _
    · have hij : i = j := (List.mem_cons.1 hi).resolve_right hl
      have hne : ∀ x ∈ l, key x ≠ key i := fun x hx hk => hl (h x (List.mem_cons_of_mem j hx) hk ▸ hx)
      rw [Tab.getD_foldl_set_of_ne z key val hne, ← hij, Tab.getD_set]

/-- Writes under the keys of a list leave an entry that is not among them alone. -/
theorem Tab.getD_foldl_set_of_not_mem {α : Type} [DecidableEq α] (z : α) (val : Nat → α) {l : List Nat} {k : Nat} (h : k ∉ l)
    (t : Tab α) : Tab.getD (l.foldl (fun m i => Tab.set m z i (val i)) t) k z = Tab.getD t k z :=
  Tab.getD_foldl_set_of_ne z (fun i => i) val (fun i hi (heq : i = k) => h (heq ▸ hi)) t

/-- The places of a tile's elements. -/
def places : List (Nat × Nat) := (List.range 64).flatMap fun r => (List.range 64).map fun j => (r, j)

theorem mem_places {x : Nat × Nat} : x ∈ places ↔ x.1 < 64 ∧ x.2 < 64 := by
  obtain ⟨r, j⟩ := x
  simp [places]

/-- The tile of an element's key. -/
theorem tileKey_div {tile r j : Nat} (hr : r < 64) (hj : j < 64) : tileKey tile r j / 4096 = tile := by
  unfold tileKey
  omega

theorem tileKey_inj {tile r j r' j' : Nat} (hj : j < 64) (hj' : j' < 64) (h : tileKey tile r j = tileKey tile r' j') :
    r = r' ∧ j = j' := by
  unfold tileKey at h
  omega

/-- The row pairs whose numbers are listed hold an element of a tile exactly where its own pair is listed. -/
theorem row_mem_of_pairKeys {rows : List Nat} {tile r j : Nat} (hj : j < 64) (h : tileKey tile r j ∈ pairKeys rows) :
    32 * tile + r / 2 ∈ rows := by
  obtain ⟨row, hrow, hkey⟩ := List.mem_flatMap.1 h
  obtain ⟨i, hi, heq⟩ := List.mem_map.1 hkey
  have hi128 : i < 128 := List.mem_range.1 hi
  have hnum : row = 32 * tile + r / 2 := by
    unfold tileKey at heq
    omega
  exact hnum ▸ hrow

theorem pairKeys_div {rows : List Nat} {tile k : Nat} (hrows : ∀ r ∈ rows, r / 32 = tile) (h : k ∈ pairKeys rows) : k / 4096 = tile := by
  obtain ⟨row, hrow, hkey⟩ := List.mem_flatMap.1 h
  obtain ⟨i, hi, rfl⟩ := List.mem_map.1 hkey
  have hi128 : i < 128 := List.mem_range.1 hi
  have htile := hrows row hrow
  unfold tileKey
  omega

/-! The tile after a pass (R176) -/

/-- A team's elements with every element of a tile that the pass gives. -/
def passTiles (o : MxOp) (p : Pass) (m : Tab Word) : Tab Word :=
  places.foldl (fun m' x => Tab.set m' 0 (tileKey p.tile x.1 x.2)
    (passElem o.ctl p x.1 x.2 (if o.ctl.z then 0 else Tab.getD m (tileKey p.tile x.1 x.2) 0))) m

theorem passTiles_in (o : MxOp) (p : Pass) (m : Tab Word) {r j : Nat} (hr : r < 64) (hj : j < 64) :
    Tab.getD (passTiles o p m) (tileKey p.tile r j) 0
      = passElem o.ctl p r j (if o.ctl.z then 0 else Tab.getD m (tileKey p.tile r j) 0) := by
  refine Tab.getD_foldl_set_of_mem 0 (fun x : Nat × Nat => tileKey p.tile x.1 x.2)
    (fun x => passElem o.ctl p x.1 x.2 (if o.ctl.z then 0 else Tab.getD m (tileKey p.tile x.1 x.2) 0)) (i := (r, j))
    (mem_places.2 ⟨hr, hj⟩) (fun x hx hkey => ?_) m
  obtain ⟨-, hx2⟩ := mem_places.1 hx
  obtain ⟨h1, h2⟩ := tileKey_inj hx2 hj hkey
  exact Prod.ext h1 h2

theorem passTiles_out (o : MxOp) (p : Pass) (m : Tab Word) {k : Nat} (hk : k / 4096 ≠ p.tile) :
    Tab.getD (passTiles o p m) k 0 = Tab.getD m k 0 := by
  refine Tab.getD_foldl_set_of_ne 0 (fun x : Nat × Nat => tileKey p.tile x.1 x.2) _ (fun x hx hkey => hk ?_) m
  obtain ⟨hx1, hx2⟩ := mem_places.1 hx
  rw [← hkey, tileKey_div hx1 hx2]

/-- An update of one team leaves every other. -/
theorem modTeam_find_ne (s : State) {n m : Nat} (f : Team → Team) (h : m ≠ n) : (s.modTeam n f).teams.find m = s.teams.find m := by
  unfold State.modTeam
  split
  · exact Tab.find_put_ne _ _ h
  · rfl

/-- The row pairs of a tile that Table 8.2 has spoilt for an operation. -/
def spoiltKeys (o : MxOp) (p : Pass) : List Nat := pairKeys (o.rows.filter (· / 32 = p.tile))

/-- The update of a tile by a pass of an operation that is not spoilt as a whole. -/
theorem updateTile_eq {s : State} {p : Pass} {o : MxOp} (hs : o.spoilt = false) :
    s.updateTile p o = (s.modTeam p.team fun t => { t with
      tiles := passTiles o p t.tiles
      tpoison := if o.ctl.z then t.tpoison.filter (· / 4096 ≠ p.tile) else t.tpoison }).freeTiles p.team (spoiltKeys o p) := by
  simp only [State.updateTile, hs, Bool.false_eq_true, if_false, passTiles, places, List.foldl_flatMap, List.foldl_map, spoiltKeys]

/-- The elements of the pass's team after it. -/
theorem updateTile_find {s : State} {p : Pass} {o : MxOp} {t : Team} (hs : o.spoilt = false) (ht : s.teams.find p.team = some t) :
    ∃ t', (s.updateTile p o).teams.find p.team = some t'
      ∧ t'.tiles = (spoiltKeys o p).foldl (fun m k => Tab.set m 0 k (s.free (8192 + k))) (passTiles o p t.tiles) := by
  rw [updateTile_eq hs, State.freeTiles, modTeam_find, modTeam_find, ht]
  refine ⟨_, rfl, ?_⟩
  simp only [State.free, State.modTeam_fresh]

theorem updateTile_find_ne (s : State) (p : Pass) (o : MxOp) {n : Nat} (h : n ≠ p.team) :
    (s.updateTile p o).teams.find n = s.teams.find n := by
  unfold State.updateTile State.freeTiles
  split_ifs <;> simp only [modTeam_find_ne _ _ h]

@[simp] theorem updateTile_mem (s : State) (p : Pass) (o : MxOp) : (s.updateTile p o).mem = s.mem := by
  unfold State.updateTile State.freeTiles
  split_ifs <;> simp only [State.modTeam_mem]

/-! PASS_COMPLETE (R176, R288) -/

theorem exec_passComplete (quad : Nat) (s : State) : exec (.passComplete quad) s = execPassComplete quad s := rfl

/-- An entry whose grant was 16 clocks ago, with no movement of its tile to come before it. -/
def State.passDue (s : State) (p : Pass) : Bool :=
  (match p.grant with
    | some g => decide (g + 16 ≤ s.clock)
    | none => false) && !s.moves.any fun m => m.team = p.team && m.tile = p.tile

/-- The state after a pass has updated its tile: its entry is free, and an operation of which no pass is left is done. -/
def State.afterPass (s : State) (quad : Nat) (p : Pass) (o : MxOp) : State :=
  let r := (s.updateTile p o).modQuad quad fun q => postWaiting p.core 1 { q with table := q.table.erase p }
  (if ((r.quad quad).table ++ (r.quad quad).waiting).any (·.op == p.op) then r else r.finishOp p.op o).restamp quad

/-- A due pass of an operation whose tile holds no poison that it reads. -/
theorem passComplete_occurs {quad : Nat} {p : Pass} {o : MxOp} {t : Team} {s : State}
    (hp : (s.quad quad).table.find? s.passDue = some p) (ho : s.ops.find p.op = some o) (ht : s.teams.find p.team = some t)
    (hsound : o.ctl.z = true ∨ t.tpoison = []) : Occurs (.passComplete quad) s (s.afterPass quad p o) := by
  have hbad : (!o.ctl.z && t.tpoison.any (· / 4096 = p.tile)) = false := by
    rcases hsound with hz | ht <;> simp [*]
  refine occurs_of (exec_passComplete quad s) ?_
  dsimp only
  split
  · next hnone => cases hp.symm.trans hnone
  · next q hq =>
    obtain rfl : p = q := Option.some.inj (hp.symm.trans hq)
    simp only [ho, ht, hbad, Bool.false_eq_true, if_false]
    rfl

/-- What follows the update of the tile leaves teams and memory alone, unless the operation is spoilt as a whole. -/
theorem afterPass_teams_mem {s : State} (quad : Nat) (p : Pass) {o : MxOp} (hs : o.spoilt = false) :
    (s.afterPass quad p o).teams = (s.updateTile p o).teams ∧ (s.afterPass quad p o).mem = (s.updateTile p o).mem := by
  simp only [State.afterPass, State.restamp, State.modQuad, State.finishOp, hs, Bool.false_eq_true, if_false]
  split <;> exact ⟨rfl, rfl⟩

/-- Settles O46: the elements of the tile by their keys, which differ, and the rows that are spoilt by theirs. -/
theorem passResult : Obligations.PassResult := by
  unfold Obligations.PassResult
  intro quad p o t s hp ho ht hs hsound
  obtain ⟨t', ht', htiles⟩ := updateTile_find hs ht
  obtain ⟨hteams, hmem⟩ := afterPass_teams_mem (s := s) quad p hs
  refine ⟨_, t', passComplete_occurs hp ho ht hsound, ?_, fun r j hr hj hrow => ?given, fun k hk => ?other, fun n hn => ?_, ?_⟩
  · rw [State.freshen_teams, hteams, ht']
  case given =>
    have hfree : tileKey p.tile r j ∉ spoiltKeys o p := fun hmem => by
      have hlisted := List.mem_of_mem_filter (row_mem_of_pairKeys hj hmem)
      simp [hlisted] at hrow
    rw [htiles, Tab.getD_foldl_set_of_not_mem 0 _ hfree, passTiles_in o p t.tiles hr hj]
  case other =>
    have hrows : ∀ r ∈ o.rows.filter (· / 32 = p.tile), r / 32 = p.tile := fun r hr => by simpa using (List.mem_filter.1 hr).2
    have hfree : k ∉ spoiltKeys o p := fun hmem => hk (pairKeys_div hrows hmem)
    rw [htiles, Tab.getD_foldl_set_of_not_mem 0 _ hfree, passTiles_out o p t.tiles hk]
  · rw [State.freshen_teams, hteams, updateTile_find_ne s p o hn]
  · rw [State.freshen_mem, hmem, updateTile_mem]

end Sys2Proof.Machine
end

section
/-! SUPPORT. The tables of the state after reset: what a lookup finds in them. -/

namespace Sys2Proof.Machine

/-- What a lookup in a table finds is an entry of the table. -/
theorem Tab.mem_of_find {α : Type} {t : Tab α} {n : Nat} {x : α} (h : t.find n = some x) : (n, x) ∈ t := by
  induction t with
  | nil => cases h
  | cons e t ih =>
    obtain ⟨k, v⟩ := e
    simp only [Tab.find] at h
    split at h
    · next hk =>
      cases h
      rw [hk]
      exact List.mem_cons_self
    · exact List.mem_cons_of_mem _ (ih h)

/-- What holds of every entry of a table and of its default holds of every lookup. -/
theorem Tab.getD_of_forall {α : Type} {P : α → Prop} {t : Tab α} {z : α} (hz : P z) (ht : ∀ e ∈ t, P e.2) (n : Nat) :
    P (Tab.getD t n z) := by
  unfold Tab.getD
  cases h : Tab.find t n with
  | none => exact hz
  | some x => exact ht _ (Tab.mem_of_find h)

/-- Every quad starts with a budget of 8 and no stall counted, those that are fused off too (R290, R457). -/
theorem reset_quad (q : Nat) : (State.reset.quad q).nextB = 8 ∧ (State.reset.quad q).stall = 0 := by
  refine Tab.getD_of_forall (P := fun x : Quad => x.nextB = 8 ∧ x.stall = 0) ⟨rfl, rfl⟩ (fun e he => ?_) q
  obtain ⟨l, hl, hel⟩ := List.mem_flatten.1 he
  obtain ⟨s, -, rfl⟩ := List.mem_map.1 hl
  obtain ⟨k, -, rfl⟩ := List.mem_map.1 hel
  exact ⟨rfl, rfl⟩

/-- Every host core has a thread whose FPC, CHK and EID are 0; all but core 0 are stopped (R457). -/
theorem reset_thread {n : Nat} (hn : n < 96) :
    ∃ t, State.reset.thread? (.host n) = some t ∧ t.fpc = 0 ∧ t.chk = 0 ∧ t.eid = 0 ∧ (n ≠ 0 → t.wait = .stopped) := by
  cases n with
  | zero => exact ⟨{}, rfl, rfl, rfl, rfl, fun h => absurd rfl h⟩
  | succ k =>
    have hfind : ∀ k < 95, State.reset.thread? (.host (k + 1)) = some { wait := .stopped } := by decide +kernel
    exact ⟨_, hfind k (by omega), rfl, rfl, rfl, fun _ => rfl⟩

/-- A frame is FREE below the reserved region of its slice, and the controller's own above (R363). -/
theorem reset_pot (f : Nat) :
    (State.reset.pot f).state = if Config.ctreeBase ≤ f * 4096 % 2 ^ 36 then .ctree else .free := by
  unfold State.pot
  split_ifs <;> rfl

/-- Settles O55: the tables of host cores, meters and frames are empty, so that every read of them is of the default; threads, quads and
frames by their own lemmas, and the registers of the anchor die one by one. -/
theorem resetState : Obligations.ResetState := by
  unfold Obligations.ResetState
  refine ⟨rfl, rfl, rfl, rfl, rfl, rfl, fun n hn => reset_thread hn, fun n high => ?banks, fun n => ⟨rfl, rfl, rfl, rfl⟩,
    fun core eid => ?energy, reset_quad, by decide +kernel, by decide +kernel, by decide +kernel, by decide +kernel, by decide +kernel,
    by decide +kernel, by decide +kernel, by decide +kernel, reset_pot⟩
  case banks => cases high <;> exact ⟨rfl, rfl, rfl, rfl, rfl, rfl, rfl, rfl, rfl, rfl, rfl⟩
  case energy => simp [State.energy, State.reset, Tab.getD, Tab.find, Meter.sum]

end Sys2Proof.Machine
end

section
/-! SUPPORT. Trap entry on a host core (R200, Table 9.1): what an entry leaves in its bank, and where its thread goes on. -/

namespace Sys2Proof.Machine

@[simp] theorem setBank_bank (c : HostCore) (high : Bool) (b : Bank) : (c.setBank high b).bank high = b := by cases high <;> rfl

@[simp] theorem setBank_bank_not (c : HostCore) (high : Bool) (b : Bank) : (c.setBank high b).bank (!high) = c.bank (!high) := by
  cases high <;> rfl

/-- The bank after an entry from thread `t` (R200, R206). -/
def Bank.entered (b : Bank) (t : Thread) (cause : Word) (value : Dword) (restart : Word) : Bank :=
  { b with
    tepc := restart, tecb := t.cb, tcause := cause, tval := value, latch := t.latch
    tstat := Machine.tstat false (b.tstat.getLsbD 2) false t.level.code }

/-- The thread at its handler: at word 0 of the bank's vector, with every result written (R76, R200). -/
def Thread.atHandler (t : Thread) (high : Bool) (b : Bank) : Thread :=
  { t.complete with level := if high then .h else .s, cb := b.vector, w := 0, latch := none }

/-- A thread that holds no kick store gives up its places at an atomic unit and at the enclave controller, and restarts where it is told. -/
theorem withdrawKick_of_none {s : State} {i : ThreadId} (hcur : s.cur = i) (hk : s.th.kick = none) (restart : Word) :
    s.withdrawKick i restart = ({ s with atomQ := s.atomsBut i, ctlQ := s.ctlQ.filter (· ≠ i) }, restart) := by
  subst hcur
  simp only [State.withdrawKick, State.thread?, if_true, hk]

/-- An entry of the current thread into a bank of its core. -/
theorem enterBank_eq {s : State} {n : Nat} (hcur : s.cur = .host n) (hk : s.th.kick = none) (high : Bool) (cause : Word) (value : Dword)
    (restart : Word) :
    s.enterBank n high cause value restart =
      ({ s with
        atomQ := s.atomsBut (.host n), ctlQ := s.ctlQ.filter (· ≠ .host n)
        th := s.th.atHandler high ((s.hostCore n).bank high) } : State).modHost n fun c =>
          c.setBank high (((s.hostCore n).bank high).entered s.th cause value restart) := by
  have hcomplete : s.th.complete.cb = s.th.cb ∧ s.th.complete.latch = s.th.latch ∧ s.th.complete.level = s.th.level := by
    unfold Thread.complete
    rw [Thread.settle_eq]
    exact ⟨rfl, rfl, rfl⟩
  obtain ⟨hcb, hlatch, hlevel⟩ := hcomplete
  simp only [State.enterBank, withdrawKick_of_none hcur hk, State.thread?, State.setThread, hcur, if_true, hcb, hlatch, hlevel]
  rfl

/-- A trap below E enters the bank of its level (Table 9.1). -/
theorem takeTrap_eq_enterBank {s : State} {n : Nat} (hcur : s.cur = .host n) (hl : s.th.level ≠ .e) (t : Trap) (value : Dword)
    (restart : Word) :
    s.takeTrap t value restart = s.enterBank n (s.th.level == .h) (.ofNat 32 t.num) value restart := by
  cases h : s.th.level with
  | e => exact absurd h hl
  | h | s | u =>
    simp only [State.takeTrap, hcur, h]
    rfl

/-- The fields of TSTAT that an entry writes (Table 9.2). -/
theorem tstat_entered (pie : Bool) (l : Level) :
    (tstat false pie false l.code).toNat % 4 = l.code ∧ (tstat false pie false l.code).getLsbD 3 = pie
      ∧ (tstat false pie false l.code).getLsbD 2 = false := by
  cases pie <;> cases l <;> decide

/-- Settles O15: a trap below E is the entry into its bank, and the entry is `enterBank_eq`, whose bank and thread are read off. -/
theorem trapEntry : Obligations.TrapEntry := by
  unfold Obligations.TrapEntry
  intro s n t value restart hcur hk hl
  rw [takeTrap_eq_enterBank hcur hl, enterBank_eq hcur hk]
  generalize (s.th.level == .h) = high
  obtain ⟨hpl, hpie, hie⟩ := tstat_entered (((s.hostCore n).bank high).tstat.getLsbD 2) s.th.level
  simp only [modHost_hostCore, setBank_bank, setBank_bank_not]
  exact ⟨rfl, rfl, rfl, rfl, hpl, hpie, hie, rfl, rfl, rfl, rfl, rfl, rfl, rfl, rfl, rfl, rfl, rfl, rfl,
    fun m hm => modHost_hostCore_ne _ hm _, fun _ => rfl, rfl, rfl, fun _ => rfl⟩

end Sys2Proof.Machine
end

section
/-! SUPPORT. The transfers of control (R58, R62, R77, R78, R153): where they go, what they leave in o7, and the trap at the target. -/

namespace Sys2Proof.Machine

/-! The target test (R77) -/

/-- A transfer whose target may be landed on. -/
theorem transfer_lands {i : Instr} {b u : State} {w : Word} {ws : List Word} (link : State → State)
    (hf : fetchWords b (w - .ofNat 32 (w.toNat % 3)) (w.toNat % 3) = .ok u ws) (ht : badTarget ws = none) :
    transfer i b w link = .goto w (link u) := by
  simp only [transfer, hf, ht]

/-- A transfer whose target may not. -/
theorem transfer_refused {i : Instr} {b u : State} {w : Word} {ws : List Word} {t : Trap} (link : State → State)
    (hf : fetchWords b (w - .ofNat 32 (w.toNat % 3)) (w.toNat % 3) = .ok u ws) (ht : badTarget ws = some t) :
    transfer i b w link = .targetTrap t i.tval u := by
  simp only [transfer, hf, ht]

/-- A fetch opens no chain. -/
theorem fetchWords_chain {b u : State} {w : Word} {n : Nat} {ws : List Word} (hf : fetchWords b w n = .ok u ws) (hc : b.chain = none) :
    u.chain = none :=
  (Fetched.Keeps.ofOk hf (fetchWords_keeps (Keeps.refl b) w n)).chain hc

/-! Going to the target -/

/-- A word that transfers to `w` goes there over what the fetch of its target and its link leave. -/
theorem goes_of_transfer {i : Instr} {s u : State} {w : Word} {ws : List Word} {k : State → Res} {link : State → State} (hr : Runs i s)
    (hx : exec i s = issue i s k) (hk : k (begin_ i s) = transfer i (begin_ i s) w link)
    (hlink : ∀ v : State, (link v).chain = v.chain)
    (hf : fetchWords (begin_ i s) (w - .ofNat 32 (w.toNat % 3)) (w.toNat % 3) = .ok u ws) (ht : badTarget ws = none) :
    Goes i s w (link u) := by
  have hc : (begin_ i s).chain = none := (begin_chain_eq i s).trans hr.1
  exact goes_of hr hx (hk.trans (transfer_lands link hf ht)) ((hlink u).trans (fetchWords_chain hf hc))

/-- The link that CALL and CALLR write (R153): o7 holds the word after the transfer, every other register what it held. -/
theorem link_final {i : Instr} {s u : State} (hw : 0x77 ∈ i.writeCodes) (hu : u.th = (begin_ i s).th) :
    (u.putFixed .c2 0x77 (nextIndex i s)).final 0x77 = nextIndex i s
      ∧ ∀ c, c ≠ 0x77 → (u.putFixed .c2 0x77 (nextIndex i s)).final c = s.final c := by
  have hout : ∀ x ∈ u.th.results, x.code ≠ 0x77 := by
    rw [hu]
    exact begin_results i s 0x77 (.inl hw)
  have hput := putFixed_final u .c2 0x77 (nextIndex i s) (by decide) hout
  refine ⟨by rw [hput, if_pos rfl], fun c hc => ?_⟩
  rw [hput, if_neg hc, ← begin_final i s c]
  simp only [State.final, hu]

/-- A word that calls: it goes to its target with its link written. -/
theorem goes_of_call {i : Instr} {s u : State} {w : Word} {ws : List Word} {k : State → Res} (hr : Runs i s)
    (hx : exec i s = issue i s k) (hk : k (begin_ i s) = transfer i (begin_ i s) w (linkTo i (begin_ i s))) (hw : 0x77 ∈ i.writeCodes)
    (hf : fetchWords (begin_ i s) (w - .ofNat 32 (w.toNat % 3)) (w.toNat % 3) = .ok u ws) (ht : badTarget ws = none) :
    let v := u.putFixed .c2 0x77 (nextIndex i s)
    Goes i s w v ∧ (u.th = (begin_ i s).th → v.final 0x77 = nextIndex i s ∧ ∀ c, c ≠ 0x77 → v.final c = s.final c) := by
  have hg := goes_of_transfer hr hx hk (fun _ => rfl) hf ht
  rw [linkTo, nextIndex_begin] at hg
  exact ⟨hg, link_final hw⟩

/-- A word whose transfer traps at its target (R77), with its thread as it was: the trap restarts at the transfer. -/
theorem issue_targetTraps {i : Instr} {s u : State} (k : State → Res) (h : Runs i s) (hlate : s.lateOut = false) {t : Trap} {v : Dword}
    (hk : k (begin_ i s) = .targetTrap t v u) (hu : u.th = (begin_ i s).th) :
    issue i s k = .next (u.freshen.takeTrap t v s.th.w) := by
  obtain ⟨hchain, howed, hheld, hgate, hloose⟩ := h
  have hw : (begin_ i s).th.w = s.th.w := by rw [begin_th]
  have hleft : (begin_ i s).left u = false := left_of_level (by rw [hu])
  simp only [issue, hchain, issueAlone, howed, hheld, hgate, perform_tight k hloose, hk, State.endInTrap, begin_lateOut, hlate, hleft, hw,
    Bool.false_eq_true, if_false]

/-! The five words -/

theorem exec_br (h : Hdr) (n : Bool) (p : BitVec 3) (k : BitVec 17) (s : State) : exec (.br h n p k) s = execBr h n p k s := rfl
theorem exec_call (h : Hdr) (k : BitVec 21) (s : State) : exec (.call h k) s = execCall h k s := rfl
theorem exec_jmp (h : Hdr) (a : Opnd) (s : State) : exec (.jmp h a) s = execJmp h a s := rfl
theorem exec_ret (h : Hdr) (s : State) : exec (.ret h) s = execRet h s := rfl
theorem exec_callr (h : Hdr) (a : Opnd) (s : State) : exec (.callr h a) s = execCallr h a s := rfl

/-- Settles O27: each word is a transfer with its own target and link, a BR not taken has no effect, and the test of the target is
`badTarget` on the packet words before it. -/
theorem transfers : Obligations.Transfers := by
  unfold Obligations.Transfers
  refine ⟨fun h n p k m a => ⟨fun s hr => ⟨fun htaken u ws hf ht => ?taken, fun hnot => ?not_taken⟩,
    fun s hr => ⟨fun _ u ws hf ht => goes_of_call hr (exec_call h m s) rfl ?call hf ht, fun h => nomatch h⟩,
    fun s hr => ⟨fun _ u ws hf ht => goes_of_transfer hr (exec_jmp h a s) rfl (fun _ => rfl) hf ht, fun h => nomatch h⟩,
    fun s hr => ⟨fun _ u ws hf ht => goes_of_transfer hr (exec_ret h s) rfl (fun _ => rfl) hf ht, fun h => nomatch h⟩,
    fun s hr => ⟨fun _ u ws hf ht => goes_of_call hr (exec_callr h a s) rfl ?callr hf ht, fun h => nomatch h⟩⟩,
    fun s w hw => ?slot0, fun _ => rfl, fun h a s hr hlate u ws t hf ht hu => ?trap⟩
  case taken => exact goes_of_transfer hr (exec_br h n p k s) (if_pos htaken) (fun _ => rfl) hf ht
  case not_taken =>
    exact takes_of hr (exec_br h n p k s) (if_neg (Bool.eq_false_iff.1 hnot)) ((begin_chain_eq _ s).trans hr.1) (begin_level ..)
  case call => exact mem_writeCodes (u := ⟨.dst, .o 7⟩) (k := 0) List.mem_cons_self rfl rfl Nat.one_pos
  case callr => exact mem_writeCodes (u := ⟨.dst, .o 7⟩) (k := 0) (List.mem_cons_of_mem _ List.mem_cons_self) rfl rfl Nat.one_pos
  case slot0 =>
    rw [hw]
    exact ⟨rfl, rfl⟩
  case trap =>
    rw [exec_jmp]
    exact issue_targetTraps _ hr hlate (transfer_refused id hf ht) hu

end Sys2Proof.Machine
end

section
/-! SUPPORT. Results, timers and interrupts (R73, R204, R217), and the bundle that a core's picker puts next (R236, R237). -/

namespace Sys2Proof.Machine

/-! Results and timers -/

theorem exec_interlockedResultWrite (tid : ThreadId) (s : State) :
    exec (.interlockedResultWrite tid) s = execInterlockedResultWrite tid s := rfl

theorem exec_timerAssert (n : Nat) (high : Bool) (s : State) : exec (.timerAssert n high) s = execTimerAssert n high s := rfl

theorem exec_interruptEntry (n : Nat) (s : State) : exec (.interruptEntry n) s = execInterruptEntry n s := rfl

theorem exec_pickerChoice (core : Nat) (order : List Nat) (s : State) :
    exec (.pickerChoice core order) s = execPickerChoice core order s := rfl

/-- The oldest outstanding result of a thread is written. -/
theorem interlockedResultWrite_occurs {tid : ThreadId} {t : Thread} {r : Result} {rest : List Result} {s : State}
    (ht : s.thread? tid = some t) (hr : t.results = r :: rest) :
    Occurs (.interlockedResultWrite tid) s (s.setThread tid { t.settleOne r with results := rest }) :=
  occurs_of (exec_interlockedResultWrite tid s) (by simp only [ht, hr])

/-- A timer that has reached its compare value runs its bank's tick. -/
theorem timerAssert_occurs {n : Nat} {high : Bool} {s : State} (hn : n < Config.hosts)
    (hd : ((s.hostCore n).bank high).tcmp.toNat ≤ s.ns) : Occurs (.timerAssert n high) s (s.tick n high) :=
  occurs_of (exec_timerAssert n high s) (by simp only [hn, hd, decide_true, Bool.and_self, if_true])

/-- The first tick at or past the compare value is an assertion of source 0. -/
theorem tick_asserts {n : Nat} {high : Bool} {s : State} (hd : ((s.hostCore n).bank high).tcmp.toNat ≤ s.ns)
    (ht : ((s.hostCore n).bank high).timer = false) :
    s.tick n high = (s.modHost n fun c => c.setBank high { c.bank high with timer := true }).assertIrq n high 0 := by
  simp only [State.tick, Nat.not_lt.2 hd, ht, if_false, Bool.false_eq_true]

/-- A later tick keeps IPEND[0] set. -/
theorem tick_pends {n : Nat} {high : Bool} {s : State} (hd : ((s.hostCore n).bank high).tcmp.toNat ≤ s.ns)
    (ht : ((s.hostCore n).bank high).timer = true) :
    s.tick n high = s.modHost n fun c => c.setBank high { c.bank high with ipend := (c.bank high).ipend ||| 1 } := by
  simp only [State.tick, Nat.not_lt.2 hd, ht, if_false, if_true]

/-! Interrupts -/

/-- The thread of a host core that takes an interrupt waits no longer. -/
def State.awake (s : State) (n : Nat) : State := s.modThread (.host n) fun t => { t with wait := .none }

theorem interruptEntry_occurs {n : Nat} {s u : State} (hn : n < Config.hosts) (h : s.takeIrq n = some u) :
    Occurs (.interruptEntry n) s u :=
  occurs_of (exec_interruptEntry n s) (by rw [if_pos hn, h])

section Interrupts
variable {n k : Nat} {t : Thread} {s : State} (ht : s.thread? (.host n) = some t) (hw : t.wait ≠ .stopped)
include ht hw

/-- A source of the H bank interrupts every level. -/
theorem takeIrq_high (hk : (s.hostCore n).bankH.source = some k) :
    s.takeIrq n = some (if t.level == .e then
        ((s.awake n).asyncExit n 0 true (t.restartAt t.w)).enterBank n true (.ofNat 32 (0x200 + k)) 0 0
      else (s.awake n).enterBank n true (.ofNat 32 (0x200 + k)) 0 (t.restartAt t.w)) := by
  simp only [State.takeIrq, ht, beq_eq_false_iff_ne.2 hw, hk, State.awake, Bool.false_eq_true, if_false]

/-- A source of the S bank interrupts below H, where the H bank has none. -/
theorem takeIrq_low (hH : (s.hostCore n).bankH.source = none) (hk : (s.hostCore n).bankS.source = some k) (hl : t.level ≠ .h) :
    s.takeIrq n = some (if t.level == .e then (s.awake n).asyncExit n 0 true (t.restartAt t.w)
      else (s.awake n).enterBank n false (.ofNat 32 (0x200 + k)) 0 (t.restartAt t.w)) := by
  simp only [State.takeIrq, ht, beq_eq_false_iff_ne.2 hw, beq_eq_false_iff_ne.2 hl, hH, hk, State.awake, Bool.false_eq_true, if_false]

end Interrupts

/-! The bundle of R237 -/

theorem oldestCand_mem {l : List Cand} {c : Cand} (h : oldestCand l = some c) : c ∈ l := by
  induction l generalizing c with
  | nil => cases h
  | cons a l ih =>
    rw [oldestCand] at h
    cases ho : oldestCand l with
    | none =>
      rw [ho] at h
      cases h
      exact List.mem_cons_self
    | some d =>
      rw [ho] at h
      cases h
      split
      · exact List.mem_cons_of_mem _ (ih ho)
      · exact List.mem_cons_self

theorem oldestCand_eq_none {l : List Cand} (h : oldestCand l = none) : l = [] := by
  cases l with
  | nil => rfl
  | cons a l =>
    rw [oldestCand] at h
    split at h <;> cases h

/-- The thread of home lane `n` that issues beside the lead: the oldest ready one of its launch at its word. -/
def laneMate (l : List Cand) (now : Nat) (lead : Cand) (n : Nat) : Option Cand :=
  oldestCand ((l.filter fun c => c.stamp ≤ now).filter fun c => c.lane = n && c.launch = lead.launch && c.w = lead.w)

theorem laneMate_spec {l : List Cand} {now n : Nat} {lead c : Cand} (h : laneMate l now lead n = some c) :
    c ∈ l ∧ c.stamp ≤ now ∧ c.lane = n ∧ c.launch = lead.launch ∧ c.w = lead.w := by
  have hc := oldestCand_mem h
  simp only [List.mem_filter, decide_eq_true_eq, Bool.and_eq_true, and_assoc] at hc
  exact hc

/-- What the picker may choose: nothing, one thread, or one thread for each home lane beside a lead; never the last beside a thread that is
overdue. -/
theorem pickBundle_cases (k : Core) (l : List Cand) (now : Nat) :
    pickBundle k l now = [] ∨ (∃ lead ∈ l, lead.stamp ≤ now ∧ pickBundle k l now = [lead])
      ∨ ((l.any fun c => c.late now) = false ∧ ∃ lead, pickBundle k l now = (List.range 32).filterMap (laneMate l now lead)) := by
  unfold pickBundle
  dsimp only
  split
  · next lead hlead =>
    have hm := oldestCand_mem hlead
    simp only [List.mem_filter, decide_eq_true_eq] at hm
    split_ifs
    · exact .inl rfl
    · exact .inr (.inl ⟨lead, hm.1.1, hm.1.2, rfl⟩)
  · next hnone =>
    have hlate : (l.any fun c => c.late now) = false := by
      have he := oldestCand_eq_none hnone
      simp only [List.filter_eq_nil_iff, List.mem_filter, decide_eq_true_eq] at he
      rw [List.any_eq_false]
      intro c hc hl
      refine he c ⟨hc, ?_⟩ hl
      simp only [Cand.late, decide_eq_true_eq] at hl
      omega
    split
    · exact .inl rfl
    · next lead _ => exact .inr (.inr ⟨hlate, lead, rfl⟩)

/-- Two threads of the lanes beside one lead are of one launch and at one word, and are the same where their lanes are. -/
theorem laneMates_agree {l : List Cand} {now : Nat} {lead c d : Cand} (hc : c ∈ (List.range 32).filterMap (laneMate l now lead))
    (hd : d ∈ (List.range 32).filterMap (laneMate l now lead)) : c.launch = d.launch ∧ c.w = d.w ∧ (c.lane = d.lane → c = d) := by
  obtain ⟨n, -, hn⟩ := List.mem_filterMap.1 hc
  obtain ⟨m, -, hm⟩ := List.mem_filterMap.1 hd
  obtain ⟨-, -, hclane, hclaunch, hcw⟩ := laneMate_spec hn
  obtain ⟨-, -, hdlane, hdlaunch, hdw⟩ := laneMate_spec hm
  refine ⟨hclaunch.trans hdlaunch.symm, hcw.trans hdw.symm, fun hl => ?_⟩
  rw [← hclane, hl, hdlane, hm] at hn
  exact (Option.some.inj hn).symm

/-- The threads of a bundle are ready, of one launch and word index, and one to a lane. -/
theorem pickBundle_spec {k : Core} {l : List Cand} {now : Nat} {c : Cand} (hc : c ∈ pickBundle k l now) :
    c ∈ l ∧ c.stamp ≤ now ∧ ∀ d ∈ pickBundle k l now, (c.launch = d.launch ∧ c.w = d.w ∧ (c.lane = d.lane → c = d)) ∨ c = d := by
  rcases pickBundle_cases k l now with h | ⟨lead, hmem, hready, h⟩ | ⟨-, lead, h⟩
  · rw [h] at hc
    cases hc
  · rw [h] at hc ⊢
    cases List.mem_singleton.1 hc
    exact ⟨hmem, hready, fun d hd => .inr (List.mem_singleton.1 hd).symm⟩
  · rw [h] at hc ⊢
    obtain ⟨n, -, hn⟩ := List.mem_filterMap.1 hc
    obtain ⟨hmem, hready, -⟩ := laneMate_spec hn
    exact ⟨hmem, hready, fun d hd => .inl (laneMates_agree hc hd)⟩

theorem pickBundle_lane_inj {k : Core} {l : List Cand} {now : Nat} {c d : Cand} (hc : c ∈ pickBundle k l now)
    (hd : d ∈ pickBundle k l now) (h : c.lane = d.lane) : c = d := by
  obtain ⟨-, -, hall⟩ := pickBundle_spec hc
  rcases hall d hd with ⟨-, -, hinj⟩ | heq
  · exact hinj h
  · exact heq

theorem pickBundle_length_of_late {k : Core} {l : List Cand} {now : Nat} (h : (l.any fun c => c.late now) = true) :
    (pickBundle k l now).length ≤ 1 := by
  rcases pickBundle_cases k l now with e | ⟨lead, -, -, e⟩ | ⟨hnone, -⟩
  · simp [e]
  · simp [e]
  · rw [h] at hnone
    cases hnone

/-! The choice of the picker -/

/-- The lanes that the memory order of a bundle names: none where its threads take items (R161). -/
def laneOrder (b : List Cand) (order : List Nat) : List Nat := if b.any (·.refill) then [] else order

/-- The threads of a bundle in the order of their turns: those of the named lanes, then the others. -/
def bundleOrder (b : List Cand) (order : List Nat) : List Cand :=
  order.dedup.filterMap (fun n => b.find? fun c => c.lane = n) ++ b.filter fun c => !order.contains c.lane

/-- The order of a bundle with one thread to a lane loses none and adds none. -/
theorem mem_bundleOrder {b : List Cand} (hb : ∀ c ∈ b, ∀ d ∈ b, c.lane = d.lane → c = d) (order : List Nat) (c : Cand) :
    c ∈ bundleOrder b order ↔ c ∈ b := by
  simp only [bundleOrder, List.mem_append, List.mem_filterMap, List.mem_dedup, List.mem_filter]
  constructor
  · rintro (⟨n, -, hf⟩ | ⟨hc, -⟩)
    · exact List.mem_of_find?_eq_some hf
    · exact hc
  · intro hc
    by_cases hn : c.lane ∈ order
    · refine .inl ⟨c.lane, hn, ?_⟩
      cases hf : b.find? fun d => d.lane = c.lane with
      | none => exact absurd (List.find?_eq_none.1 hf c hc) (by simp)
      | some d =>
        have hlane : d.lane = c.lane := by simpa using List.find?_some hf
        rw [hb d (List.mem_of_find?_eq_some hf) c hc hlane]
    · exact .inr ⟨hc, by simpa using hn⟩

theorem bundleOrder_nil (b : List Cand) : bundleOrder b [] = b := by
  simp [bundleOrder]

/-- A bundle stands next: the core has picked in clock `now`, and its threads take their turns. -/
def State.putBundle (s : State) (core now : Nat) (b : List Cand) (order : List Nat) : State :=
  { s.modCore core fun k => { k with picked := some now, bundle := { refill := b.any (·.refill) } } with
    time := now
    agenda := if b.isEmpty then s.agenda else .bundle core order ((bundleOrder b order).map (·.id)) :: s.agenda }

/-- PICKER_CHOICE with a thread to choose. -/
theorem pickerChoice_eq {s : State} {core : Nat} (h : s.cands core ≠ []) (order : List Nat) :
    let now := s.pickClock core (s.cands core)
    let b := pickBundle (s.core core) (s.cands core) now
    s.pickerChoice core order = s.putBundle core now b (laneOrder b order) := by
  cases hc : s.cands core with
  | nil => exact absurd hc h
  | cons c l =>
    simp only [State.pickerChoice, hc]
    rfl

theorem time_le_pickClock (s : State) (core : Nat) (l : List Cand) : s.time ≤ s.pickClock core l := Nat.le_max_left ..

/-- A picker acts at most once in a clock. -/
theorem picked_lt_pickClock {s : State} {core t : Nat} (l : List Cand) (h : (s.core core).picked = some t) :
    t + Config.ticksPerCoreClock ≤ s.pickClock core l := by
  simp only [State.pickClock, h]
  exact (Nat.le_max_left ..).trans (Nat.le_max_right ..)

theorem modCore_core (s : State) (n : Nat) (f : Core → Core) : (s.modCore n f).core n = f (s.core n) := by
  simp [State.modCore, State.core, Tab.getD, Tab.find_put]

theorem putBundle_core (s : State) (core now : Nat) (b : List Cand) (order : List Nat) :
    (s.putBundle core now b order).core core = { s.core core with picked := some now, bundle := { refill := b.any (·.refill) } } :=
  modCore_core s core fun k => { k with picked := some now, bundle := { refill := b.any (·.refill) } }

/-- Settles O42: the events by the case of their definition that holds, the picker by `pickerChoice_eq`, and its bundle by
`pickBundle_cases`. -/
theorem threadEvents : Obligations.ThreadEvents := by
  unfold Obligations.ThreadEvents
  refine ⟨fun tid t r rest s ht hr => interlockedResultWrite_occurs ht hr, fun n high s hn hd => ⟨fun ht => ?asserts, fun ht => ?pends⟩,
    fun n t s hn ht hw => ⟨fun k hk => ⟨fun hl => ?high, fun hl => ?highLeaves⟩,
      fun k hH hk hl => ⟨fun he => ?low, fun he => ?lowLeaves⟩⟩,
    fun core order s hc => ?picker, fun k l now c hm => pickBundle_spec hm, fun k l now h => pickBundle_length_of_late h⟩
  case asserts => exact (timerAssert_occurs hn hd).of_eq (tick_asserts hd ht)
  case pends => exact (timerAssert_occurs hn hd).of_eq (tick_pends hd ht)
  case high => exact (interruptEntry_occurs hn (takeIrq_high ht hw hk)).of_eq (if_neg (by simpa using hl))
  case highLeaves => exact (interruptEntry_occurs hn (takeIrq_high ht hw hk)).of_eq (if_pos (by simpa using hl))
  case low => exact (interruptEntry_occurs hn (takeIrq_low ht hw hH hk hl)).of_eq (if_neg (by simpa using he))
  case lowLeaves => exact (interruptEntry_occurs hn (takeIrq_low ht hw hH hk hl)).of_eq (if_pos (by simpa using he))
  case picker =>
    intro now b
    have hone : ∀ c ∈ b, ∀ d ∈ b, c.lane = d.lane → c = d := fun c hc d hd => pickBundle_lane_inj hc hd
    have hrun : exec (.pickerChoice core order) s = .next (s.putBundle core now b (laneOrder b order)) :=
      (exec_pickerChoice core order s).trans (congrArg Host.Outcome.next (pickerChoice_eq hc order))
    refine ⟨_, (bundleOrder b (laneOrder b order)).map (·.id), laneOrder b order, hrun, rfl, time_le_pickClock .., ?_,
      fun t ht => picked_lt_pickClock _ ht, rfl, fun x => ?_, fun hr => ?_, rfl, rfl, rfl⟩
    · rw [putBundle_core]
    · simp only [List.mem_map, mem_bundleOrder hone, eq_comm (a := x)]
    · rw [laneOrder, if_pos hr, bundleOrder_nil]

end Sys2Proof.Machine
end

section
/-! SUPPORT. A thread's turn and a step of the module (R54, R57, R237): what is fetched and decoded is what runs. -/

namespace Sys2Proof.Machine

/-! The chain of one word -/

/-- The chain at a word with C = 0: that word alone, with the word behind it where it takes one (R57, R58). -/
theorem chainAt_single {r u v : State} {x : Word} {more : List Word} (hx : fetchWords r r.th.w 1 = .ok u [x])
    (hmore : if spanOf (r.th.w.toNat % 3) x = 2 then fetchWords u (r.th.w + 1) 1 = .ok v more else v = u ∧ more = [])
    (hc : x.getLsbD 31 = false) :
    r.chainAt = .ok v [⟨r.th.w, x, (decode (r.th.w.toNat % 3) (x :: more)).toOption.map (·.1), false⟩] := by
  split_ifs at hmore with hspan
  · simp only [State.chainAt, fetchChain, hx, List.headD_cons, hspan, if_true, hmore, hc, Bool.false_and, Bool.false_eq_true, if_false]
    cases decode (r.th.w.toNat % 3) (x :: more) <;> rfl
  · obtain ⟨rfl, rfl⟩ := hmore
    simp only [State.chainAt, fetchChain, hx, List.headD_cons, hspan, hc, Bool.false_and, Bool.false_eq_true, if_false]
    cases decode (r.th.w.toNat % 3) [x] <;> rfl

/-- A single word that decodes to no instruction, or to an ILLEGAL one, is what the trap names. -/
theorem chainIllegal_single (v : State) (l : ChainWord) : chainIllegal v [l] = if l.illegal true v then some l else none := by
  cases hd : l.dec <;> simp [chainIllegal, pipeClash, illegalAt, hd]

theorem illegal_of_undecoded {v : State} {w x : Word} : ChainWord.illegal ⟨w, x, none, false⟩ true v = true := rfl

theorem illegal_of_decoded {v : State} {w x : Word} {i : Instr} : ChainWord.illegal ⟨w, x, some i, false⟩ true v = illegalWord i v := by
  simp [ChainWord.illegal]

/-- The turn of a thread that takes no interrupt, sleeps not and owes no trap is the issue of its chain. -/
theorem runThread_issues {s : State} (hi : s.atTurn.irqNow = none) (hs : s.atTurn.asleep = false) (ho : s.atTurn.th.owed = none) :
    runThread s = issueChain s.atTurn := by
  simp only [runThread, hi, hs, ho, Bool.false_eq_true, if_false]

/-- The ILLEGAL trap of a chain's word, once the thread's accesses have returned. -/
theorem endInTrap_atReady {v : State} (hl : v.lateOut = false) (t : Trap) (x : Dword) (w : Word) :
    v.endInTrap v.atReady t x w = v.atReady.freshen.takeTrap t x w := by
  have hleft : v.left v.atReady = false := left_of_level rfl
  simp only [State.endInTrap, hl, hleft, Bool.false_eq_true, if_false]

/-- A chain of one ILLEGAL word traps. -/
theorem issueChain_illegal {r v : State} {l : ChainWord} (hc : r.chainAt = .ok v [l]) (hi : l.illegal true v = true)
    (hl : v.lateOut = false) :
    issueChain r = .next (v.atReady.freshen.takeTrap .illegal (l.raw.setWidth 64) v.th.w) := by
  simp only [issueChain, hc, chainIllegal_single, hi, if_true, endInTrap_atReady hl]

/-- A chain of one word that is an instruction runs it. -/
theorem issueChain_runs {r v : State} {w x : Word} {i : Instr} (hc : r.chainAt = .ok v [⟨w, x, some i, false⟩])
    (hi : illegalWord i v = false) :
    (∀ t, exec i v = .next t → issueChain r = .next (afterIssue [i] v t))
      ∧ (∀ f, exec i v = .fault f → issueChain r = .fault f) ∧ ∀ f, exec i v = .refused f → issueChain r = .refused f := by
  have hrun : chainIllegal v [⟨w, x, some i, false⟩] = none := by
    rw [chainIllegal_single, illegal_of_decoded, hi]
    rfl
  refine ⟨fun t ht => ?_, fun f hf => ?_, fun f hf => ?_⟩
  · simp only [issueChain, hc, hrun, ht]
  · simp only [issueChain, hc, hrun, hf]
  · simp only [issueChain, hc, hrun, hf]

/-- What surrounds a word that took effect on a host core: its places at an atomic unit and at the enclave controller go, and a bundle
is counted. -/
theorem afterIssue_host {v t : State} {n : Nat} (is : List Instr) (hf : t.fresh ≠ v.fresh) (hcur : v.cur = .host n) :
    afterIssue is v t
      = State.count { t with atomQ := t.atomsBut v.cur, ctlQ := t.ctlQ.filter (· ≠ v.cur) } (hostIx n) (v.space v.cur).eid.toNat 3 1 := by
  simp only [afterIssue, hf, if_false, hcur]

/-- What surrounds a word that took effect on a SIMT core: the account of its bundle. -/
theorem afterIssue_simt {v t : State} (is : List Instr) (hf : t.fresh ≠ v.fresh) (hcur : v.cur.isHost = false) :
    afterIssue is v t = v.joinBundle t is := by
  cases hc : v.cur with
  | host n => rw [hc] at hcur; cases hcur
  | simt team idx => simp only [afterIssue, hf, if_false, hc]

/-! The step -/

/-- A core with an overdue thread comes first (R238). -/
theorem step_due {s : State} {core : Nat} (h : (s.catchUp.reaches s.catchUp.agenda).bind s.catchUp.dueCore = some core) :
    step s = .next (s.catchUp.pickFirst core) := by
  simp only [step, runNext, h]

/-- With nothing overdue and no turn listed the current thread, or its core's picker, goes on (assumption 3). -/
theorem step_current {s : State} (ha : s.catchUp.agenda = []) (hd : s.catchUp.dueCore s.catchUp.time = none) :
    step s = runCurrent s.catchUp := by
  simp only [step, runNext, ha, State.reaches, Option.bind_some, hd]

/-- The turn of a bundle comes with no overdue thread before it: its clock is the picker's (R237). -/
theorem step_bundle {s : State} {core : Nat} {order : List Nat} {l : List ThreadId} {more : List Turn}
    (ha : s.catchUp.agenda = .bundle core order l :: more) : step s = runBundle core order l { s.catchUp with agenda := more } := by
  simp only [step, runNext, ha, State.reaches, Option.bind_none, takeTurn]

/-- A bundle all of whose threads are ready: its first thread issues, and the others come next. -/
theorem runBundle_ready {c u t : State} {core : Nat} {order : List Nat} {i : ThreadId} {rest : List ThreadId}
    (hr : (tryBundle c (i :: rest)).2 = true) (hu : c.switchTo i = some u)
    (ht : runThread { u with agenda := c.memberTurns core rest ++ c.agenda } = .next t) :
    runBundle core order (i :: rest) c = .next (t.count core (u.space u.cur).eid.toNat 3 1) := by
  cases hb : tryBundle c (i :: rest) with
  | mk c' ok =>
    rw [hb] at hr
    cases hr
    simp only [runBundle, hb, hu, ht]

/-- Settles O57: a turn is the issue of the chain that was fetched, which is one word; the step is the branch of `runNext` that holds. -/
theorem stepRunsDecoded : Obligations.StepRunsDecoded := by
  unfold Obligations.StepRunsDecoded
  refine ⟨fun s x more u v hirq hasleep howed hx hmore hc => ?turn,
    fun s => ⟨fun core h => step_due h, ?host, ?simt, ?bundle⟩⟩
  case turn =>
    have hchain := chainAt_single hx hmore hc
    rw [runThread_issues hirq hasleep howed]
    refine ⟨fun e hl hd => ?_, fun i k hd => ⟨fun hi hl => ?_, fun hi => ?_⟩⟩
    · rw [hd] at hchain
      exact issueChain_illegal hchain illegal_of_undecoded hl
    · rw [hd] at hchain
      exact issueChain_illegal hchain (illegal_of_decoded.trans hi) hl
    · rw [hd] at hchain
      obtain ⟨hnext, hfault, hrefused⟩ := issueChain_runs hchain hi
      exact ⟨hnext, hfault, hrefused, fun t hf => ⟨fun n hcur => afterIssue_host _ hf hcur, fun hcur => afterIssue_simt _ hf hcur⟩⟩
  case host =>
    intro n ha hd hcur
    rw [step_current ha hd, runCurrent, hcur]
  case simt =>
    intro team idx ha hd hcur
    rw [step_current ha hd, runCurrent, hcur]
    refine ⟨fun hn => ?_, fun hn => ?_⟩
    · rw [runPicker, hn]
      rfl
    · rw [runPicker, if_neg (by simpa using hn)]
  case bundle =>
    intro core order i rest more u t ha hr hu ht
    rw [step_bundle ha]
    exact runBundle_ready hr hu ht

end Sys2Proof.Machine
end

section
/-! SUPPORT. The integer words: the forms that write d or a pair at once, and what the model's arithmetic says of integers and of single
bits. -/

namespace Sys2Proof.Machine

/-! The forms that write d or a pair at once -/

/-- A class 2 word that writes d. -/
theorem aluOut_gives {i : Instr} {r : Role} {d : Opnd} {l : List Use} {v : State → Word} {s : State} (hr : Runs i s)
    (hx : exec i s = issue i s fun s => .ok (s.put .c2 d (v s))) (hu : i.info.uses = ⟨r, d⟩ :: l) (hw : r.writes = true)
    (hk : 0 < r.width) : Gives i s (outs d (v (begin_ i s))) :=
  gives_put .c2 hr hx rfl (writes_one hu hw hk)

/-- A class 2 word that writes a pair. -/
theorem aluPair_gives {i : Instr} {d : Opnd} {l : List Use} {v : State → Dword} {s : State} (hr : Runs i s)
    (hx : exec i s = issue i s fun s => .ok (s.put2 .c2 d (v s))) (hu : i.info.uses = ⟨.dst2, d⟩ :: l) :
    Gives i s (outs2 d (v (begin_ i s))) :=
  gives_put2 .c2 hr hx rfl (writes_pair hr hu (.inl rfl))

/-! The values of Table 5.1 -/

theorem smin_eq (a b : Word) : smin a b = if a.toInt < b.toInt then a else b := by
  simp only [smin, BitVec.slt_iff_toInt_lt]

theorem smax_eq (a b : Word) : smax a b = if a.toInt < b.toInt then b else a := by
  simp only [smax, BitVec.slt_iff_toInt_lt]

theorem umin_eq (a b : Word) : umin a b = if a.toNat < b.toNat then a else b := by
  simp only [umin, BitVec.ult_iff_lt, BitVec.lt_def]

theorem umax_eq (a b : Word) : umax a b = if a.toNat < b.toNat then b else a := by
  simp only [umax, BitVec.ult_iff_lt, BitVec.lt_def]

theorem clampTo_eq {lo hi : Int} (h : lo ≤ hi) (x : Int) : clampTo lo hi x = max lo (min hi x) := by
  unfold clampTo
  split_ifs <;> omega

theorem clamp32_eq (x : Int) : clamp32 x = .ofInt 32 (max (-2147483648) (min 2147483647 x)) := by
  rw [clamp32, clampTo_eq (by decide)]

/-- Settles O1: each form by its arm, with the model's value rewritten as the table's. -/
theorem integerForms : Obligations.IntegerForms := by
  unfold Obligations.IntegerForms
  simp only [← smin_eq, ← smax_eq, ← umin_eq, ← umax_eq, ← clamp32_eq]
  refine ⟨⟨?add, ?sub, ?mul, ?mulhi, ?mulhu, ?mad, ?and, ?or, ?xor, ?andn, ?shl, ?shr, ?sra, ?min, ?max, ?minu, ?maxu, ?adds, ?subs,
    fun k => ?lea⟩, fun h d a b s => ⟨fun hr => ?add64, fun hr => ?sub64, fun hr => ?mulw, fun hr => ?mulws⟩⟩
  case mad => exact ternary_of (fun h d a b s => rfl) (fun h d a b => rfl)
  case add64 => exact aluPair_gives hr rfl rfl
  case sub64 => exact aluPair_gives hr rfl rfl
  case mulw =>
    rw [BitVec.ofNat_mul, BitVec.ofNat_toNat, BitVec.ofNat_toNat]
    exact aluPair_gives hr rfl rfl
  case mulws =>
    rw [BitVec.ofInt_mul]
    exact aluPair_gives hr rfl rfl
  all_goals exact binary_of (fun h d a b s => rfl) (fun h d a b => rfl)

/-! Bit fields (R99) -/

theorem fieldLen_le (b : Word) : fieldLen b ≤ 32 - fieldPos b := Nat.min_le_right ..

theorem ofNat_getLsbD (n : Nat) {i : Nat} (hi : i < 32) : (BitVec.ofNat 32 n).getLsbD i = n.testBit i := by
  rw [BitVec.getLsbD_ofNat, decide_eq_true hi, Bool.true_and]

/-- The bits of a field in place. -/
theorem fieldMask_testBit (n pos i : Nat) : ((2 ^ n - 1) * 2 ^ pos).testBit i = (decide (pos ≤ i) && decide (i - pos < n)) := by
  rw [Nat.mul_comm, Nat.testBit_two_pow_mul, Nat.testBit_two_pow_sub_one]

/-- The top bit of a number of `n` bits. -/
theorem div_two_pow_pred_eq_one {f n : Nat} (hn : n ≠ 0) (hf : f < 2 ^ n) : f / 2 ^ (n - 1) = 1 ↔ f.testBit (n - 1) = true := by
  have hlt : f / 2 ^ (n - 1) < 2 := by
    rw [Nat.div_lt_iff_lt_mul (Nat.two_pow_pos _), ← Nat.pow_succ', Nat.succ_eq_add_one, Nat.sub_add_cancel (Nat.pos_of_ne_zero hn)]
    exact hf
  rw [Nat.testBit_eq_decide_div_mod_eq, Nat.mod_eq_of_lt hlt, decide_eq_true_eq]

/-- A field of `n` bits under ones up to bit 31. -/
theorem signFill_testBit {f n i : Nat} (hn : n ≤ 32) (hf : f < 2 ^ n) (hi : i < 32) :
    (2 ^ 32 - 2 ^ n + f).testBit i = if i < n then f.testBit i else true := by
  have hpow : 2 ^ n * 2 ^ (32 - n) = 2 ^ 32 := by rw [← Nat.pow_add, Nat.add_sub_cancel' hn]
  have hsplit : 2 ^ 32 - 2 ^ n = 2 ^ n * (2 ^ (32 - n) - 1) := by rw [Nat.mul_sub, hpow, Nat.mul_one]
  rw [hsplit, Nat.testBit_two_pow_mul_add _ hf, Nat.testBit_two_pow_sub_one]
  split_ifs
  · rfl
  · exact decide_eq_true (by omega)

/-- The extracted field, bit by bit. -/
theorem field_testBit (a : Word) (pos n i : Nat) : (a.toNat / 2 ^ pos % 2 ^ n).testBit i = (decide (i < n) && a.getLsbD (pos + i)) := by
  rw [Nat.testBit_mod_two_pow, Nat.testBit_div_two_pow, BitVec.testBit_toNat, Nat.add_comm]

theorem bfeOf_getLsbD (a b : Word) {i : Nat} (hi : i < 32) : (bfeOf a b).getLsbD i =
    if i < fieldLen b then a.getLsbD (fieldPos b + i)
    else (0 < fieldLen b && b.getLsbD 11 && a.getLsbD (fieldPos b + fieldLen b - 1)) := by
  have hlen : fieldLen b ≤ 32 := (fieldLen_le b).trans (Nat.sub_le ..)
  have hf : a.toNat / 2 ^ fieldPos b % 2 ^ fieldLen b < 2 ^ fieldLen b := Nat.mod_lt _ (Nat.two_pow_pos _)
  by_cases hn : fieldLen b = 0
  · simp [bfeOf, hn]
  · have hpos : 0 < fieldLen b := Nat.pos_of_ne_zero hn
    have htop : a.toNat / 2 ^ fieldPos b % 2 ^ fieldLen b / 2 ^ (fieldLen b - 1) = 1
        ↔ a.getLsbD (fieldPos b + fieldLen b - 1) = true := by
      rw [div_two_pow_pred_eq_one hn hf, field_testBit, Nat.add_sub_assoc hpos]
      simp [hpos]
    unfold bfeOf
    simp only [hn, if_false, Bool.and_eq_true, decide_eq_true_eq, htop, hpos, decide_true, Bool.true_and]
    split_ifs with hsign hin hin
    · rw [ofNat_getLsbD _ hi, signFill_testBit hlen hf hi, if_pos hin, field_testBit, decide_eq_true hin, Bool.true_and]
    · rw [ofNat_getLsbD _ hi, signFill_testBit hlen hf hi, if_neg hin, hsign.1, hsign.2, Bool.true_and]
    · rw [ofNat_getLsbD _ hi, field_testBit, decide_eq_true hin, Bool.true_and]
    · rw [ofNat_getLsbD _ hi, field_testBit, decide_eq_false hin, Bool.false_and]
      exact (Bool.eq_false_iff.2 (by simpa using hsign)).symm

theorem bfiOf_getLsbD (d a b : Word) {i : Nat} (hi : i < 32) : (bfiOf d a b).getLsbD i =
    if fieldPos b ≤ i ∧ i < fieldPos b + fieldLen b then a.getLsbD (i - fieldPos b) else d.getLsbD i := by
  have hmask : ((2 ^ fieldLen b - 1) * 2 ^ fieldPos b).testBit i = decide (fieldPos b ≤ i ∧ i < fieldPos b + fieldLen b) := by
    rw [fieldMask_testBit, ← Bool.decide_and]
    exact decide_eq_decide.2 (by omega)
  simp only [bfiOf, BitVec.getLsbD_or, BitVec.getLsbD_and, BitVec.getLsbD_not, BitVec.getLsbD_shiftLeft, ofNat_getLsbD _ hi, hi,
    hmask, decide_true, Bool.true_and]
  split_ifs with hin
  · simp [hin, Nat.not_lt.2 hin.1]
  · simp [hin]

/-! PRMB (R99) -/

theorem prmbByte_lt (a : Word) (c : Nat) : prmbByte a c < 2 ^ 8 := by
  have hy : a.toNat / 2 ^ (8 * (c % 4)) % 256 < 256 := Nat.mod_lt _ (by decide)
  unfold prmbByte
  dsimp only
  split_ifs <;> omega

/-- One byte of PRMB, bit by bit: zero, eight copies of the byte's top bit, or the byte. -/
theorem prmbByte_testBit (a : Word) {c j : Nat} (hc : c < 16) (hj : j < 8) : (prmbByte a c).testBit j =
    if 8 ≤ c then false else if 4 ≤ c then a.getLsbD (8 * (c % 4) + 7) else a.getLsbD (8 * c + j) := by
  have hbit (k : Nat) (hk : k < 8) : (a.toNat / 2 ^ (8 * (c % 4)) % 256).testBit k = a.getLsbD (8 * (c % 4) + k) := by
    rw [show 256 = 2 ^ 8 from rfl, field_testBit, decide_eq_true hk, Bool.true_and]
  have hlt : a.toNat / 2 ^ (8 * (c % 4)) % 256 < 2 ^ 8 := Nat.mod_lt _ (by decide)
  have htop : 128 ≤ a.toNat / 2 ^ (8 * (c % 4)) % 256 ↔ a.getLsbD (8 * (c % 4) + 7) = true := by
    rw [← hbit 7 (by decide), ← div_two_pow_pred_eq_one (by decide : 8 ≠ 0) hlt]
    omega
  have hones : (255).testBit j = true := by
    rw [show 255 = 2 ^ 8 - 1 from rfl, Nat.testBit_two_pow_sub_one]
    exact decide_eq_true hj
  by_cases h8 : 8 ≤ c
  · have h : c / 8 % 2 = 1 := by omega
    simp [prmbByte, h, h8]
  · have h : ¬ c / 8 % 2 = 1 := by omega
    by_cases h4 : 4 ≤ c
    · have h' : c / 4 % 2 = 1 := by omega
      simp only [prmbByte, h, h', h8, h4, htop, if_true, if_false]
      cases a.getLsbD (8 * (c % 4) + 7) <;> simp [hones]
    · have h' : ¬ c / 4 % 2 = 1 := by omega
      have hmod : c % 4 = c := by omega
      simp only [prmbByte, h, h', h8, h4, if_false, hbit j hj]
      rw [hmod]

/-- The lowest byte of a number built byte by byte. -/
theorem testBit_byte_low {y j : Nat} (hy : y < 2 ^ 8) (r : Nat) (hj : j < 8) : (y + 2 ^ 8 * r).testBit j = y.testBit j := by
  rw [Nat.add_comm, Nat.testBit_two_pow_mul_add r hy, if_pos hj]

/-- The bytes above the lowest. -/
theorem testBit_byte_high {y : Nat} (hy : y < 2 ^ 8) (r i j : Nat) :
    (y + 2 ^ 8 * r).testBit (8 * (i + 1) + j) = r.testBit (8 * i + j) := by
  rw [Nat.add_comm, Nat.testBit_two_pow_mul_add r hy, if_neg (by omega)]
  congr 1
  omega

theorem prmbOf_getLsbD (a b : Word) {i j : Nat} (hi : i < 4) (hj : j < 8) :
    (prmbOf a b).getLsbD (8 * i + j) = (prmbByte a (b.toNat / 16 ^ i % 16)).testBit j := by
  have hlt (k : Nat) := prmbByte_lt a (b.toNat / 16 ^ k % 16)
  have hnest : prmbOf a b = .ofNat 32 (prmbByte a (b.toNat / 16 ^ 0 % 16) + 2 ^ 8 * (prmbByte a (b.toNat / 16 ^ 1 % 16)
      + 2 ^ 8 * (prmbByte a (b.toNat / 16 ^ 2 % 16) + 2 ^ 8 * prmbByte a (b.toNat / 16 ^ 3 % 16)))) := by
    simp only [prmbOf]
    congr 1
    ring
  rw [hnest, ofNat_getLsbD _ (by omega)]
  rcases i with _ | _ | _ | _ | i
  · rw [Nat.mul_zero, Nat.zero_add, testBit_byte_low (hlt 0) _ hj]
  · rw [testBit_byte_high (hlt 0), Nat.mul_zero, Nat.zero_add, testBit_byte_low (hlt 1) _ hj]
  · rw [testBit_byte_high (hlt 0), testBit_byte_high (hlt 1), Nat.mul_zero, Nat.zero_add, testBit_byte_low (hlt 2) _ hj]
  · rw [testBit_byte_high (hlt 0), testBit_byte_high (hlt 1), testBit_byte_high (hlt 2), Nat.mul_zero, Nat.zero_add]
  · omega

/-- Settles O2: each value by its bits. -/
theorem bitFields : Obligations.BitFields := by
  unfold Obligations.BitFields
  refine ⟨fun h d a b s hr => ?bfe, fun h d a b s hr => ?bfi, fun h d a b s hr => ?prmb⟩
  case bfe => exact ⟨_, fun i hi => bfeOf_getLsbD _ _ hi, alu2_gives hr rfl (writes_one rfl rfl Nat.one_pos)⟩
  case bfi => exact ⟨_, fun i hi => bfiOf_getLsbD _ _ _ hi, alu3_gives hr rfl (writes_one rfl rfl Nat.one_pos)⟩
  case prmb =>
    exact ⟨_, fun i hi j hj => (prmbOf_getLsbD _ _ hi hj).trans (prmbByte_testBit _ (Nat.mod_lt _ (by decide)) hj),
      alu2_gives hr rfl (writes_one rfl rfl Nat.one_pos)⟩

end Sys2Proof.Machine
end

section
/-! SUPPORT. The immediate forms and the integer unary group: what a count counts, and the bits of a reversed word. -/

namespace Sys2Proof.Machine

/-! Counts (R101) -/

/-- The leading zeros of the low `n` bits. -/
theorem clzNat_spec (n : Nat) (x : Word) : clzNat n x ≤ n ∧ (∀ i < clzNat n x, x.getLsbD (n - 1 - i) = false)
    ∧ (clzNat n x < n → x.getLsbD (n - 1 - clzNat n x) = true) := by
  induction n with
  | zero => exact ⟨Nat.le_refl 0, fun i hi => absurd hi (Nat.not_lt_zero i), fun h => absurd h (Nat.lt_irrefl 0)⟩
  | succ n ih =>
    obtain ⟨hle, hzeros, hone⟩ := ih
    rw [clzNat]
    split_ifs with htop
    · exact ⟨Nat.zero_le _, fun i hi => absurd hi (Nat.not_lt_zero i), fun _ => htop⟩
    · have hsub (k : Nat) : n + 1 - 1 - (1 + k) = n - 1 - k := by omega
      refine ⟨by omega, fun i hi => ?_, fun h => ?_⟩
      · cases i with
        | zero => exact Bool.eq_false_iff.2 htop
        | succ i => exact Nat.add_comm i 1 ▸ hsub i ▸ hzeros i (by omega)
      · rw [hsub]
        exact hone (by omega)

/-- The trailing zeros of the `n` bits from bit `k` on. -/
theorem ctzNat_spec (x : Word) (n k : Nat) : ctzNat x n k ≤ n ∧ (∀ i < ctzNat x n k, x.getLsbD (k + i) = false)
    ∧ (ctzNat x n k < n → x.getLsbD (k + ctzNat x n k) = true) := by
  induction n generalizing k with
  | zero => exact ⟨Nat.le_refl 0, fun i hi => absurd hi (Nat.not_lt_zero i), fun h => absurd h (Nat.lt_irrefl 0)⟩
  | succ n ih =>
    obtain ⟨hle, hzeros, hone⟩ := ih (k + 1)
    rw [ctzNat]
    split_ifs with hlow
    · exact ⟨Nat.zero_le _, fun i hi => absurd hi (Nat.not_lt_zero i), fun _ => hlow⟩
    · refine ⟨by omega, fun i hi => ?_, fun h => ?_⟩
      · cases i with
        | zero => exact Bool.eq_false_iff.2 hlow
        | succ i =>
          rw [Nat.add_comm i 1, ← Nat.add_assoc]
          exact hzeros i (by omega)
      · rw [← Nat.add_assoc]
        exact hone (by omega)

theorem popcNat_eq (x : Word) (n : Nat) : popcNat x n = ((List.range n).filter fun i => x.getLsbD i).length := by
  induction n with
  | zero => rfl
  | succ n ih =>
    rw [popcNat, ih, List.range_succ, List.filter_append, List.length_append, Nat.add_comm]
    cases h : x.getLsbD n <;> simp [bit, h]

theorem popc_eq (x : Word) : BitVec.ofNat 32 (popcNat x 32) = .ofNat 32 ((List.range 32).filter fun i => x.getLsbD i).length := by
  rw [popcNat_eq]

/-! BREV (R101) -/

theorem bit_testBit_zero (b : Bool) : (bit b).testBit 0 = b := by cases b <;> rfl

/-- The low `n` bits of a word, reversed. -/
def revBits (x : Word) : Nat → Nat
  | 0 => 0
  | n + 1 => bit (x.getLsbD n) + 2 * revBits x n

/-- BREV is the reversal of bits 31 to 0, built from its top bit down. -/
theorem brevNat_eq (x : Word) {n : Nat} (hn : n ≤ 32) : brevNat x n = 2 ^ (32 - n) * revBits x n := by
  induction n with
  | zero => rfl
  | succ n ih =>
    have hpow : 2 ^ (32 - n) = 2 ^ (31 - n) * 2 := by
      rw [← Nat.pow_succ]
      congr 1
      omega
    have hexp : 32 - (n + 1) = 31 - n := by omega
    rw [brevNat, ih (by omega), revBits, hpow, hexp, Nat.mul_add, Nat.mul_assoc, Nat.mul_comm (bit _)]

theorem revBits_testBit (x : Word) {n i : Nat} (hi : i < n) : (revBits x n).testBit i = x.getLsbD (n - 1 - i) := by
  induction n generalizing i with
  | zero => exact absurd hi (Nat.not_lt_zero i)
  | succ n ih =>
    have hlt : bit (x.getLsbD n) < 2 ^ 1 := by cases x.getLsbD n <;> decide
    rw [revBits, Nat.add_comm (bit _), show 2 = 2 ^ 1 from rfl, Nat.testBit_two_pow_mul_add _ hlt]
    cases i with
    | zero => rw [if_pos Nat.one_pos, bit_testBit_zero, Nat.add_sub_cancel, Nat.sub_zero]
    | succ i =>
      rw [if_neg (by omega), Nat.add_sub_cancel, ih (by omega)]
      congr 1
      omega

theorem brev_getLsbD (x : Word) {i : Nat} (hi : i < 32) : (BitVec.ofNat 32 (brevNat x 32)).getLsbD i = x.getLsbD (31 - i) := by
  rw [ofNat_getLsbD _ hi, brevNat_eq x (Nat.le_refl 32), Nat.sub_self, Nat.pow_zero, Nat.one_mul, revBits_testBit x hi]

/-! The other forms of Tables 5.2 and 5.3 -/

theorem abs_eq_ofInt (a : Word) : (if a.msb then -a else a) = BitVec.ofInt 32 |a.toInt| := by
  rw [BitVec.msb_eq_toInt]
  by_cases h : a.toInt < 0
  · rw [abs_of_neg h, BitVec.ofInt_neg, BitVec.ofInt_toInt, if_pos (decide_eq_true h)]
  · rw [abs_of_nonneg (not_lt.1 h), BitVec.ofInt_toInt, if_neg (by simpa using h)]

theorem sext_eq {w : Nat} (hw : w ≤ 32) (a : Word) : (a.setWidth w).signExtend 32 = (a.extractLsb' 0 w).signExtend 32 := by
  rw [BitVec.setWidth_eq_extractLsb' hw]

/-- The low bits of a word under zeros. -/
theorem zext_eq_and {w : Nat} {mask : Word} (hm : BitVec.ofNat 32 (2 ^ w - 1) = mask) (a : Word) :
    (a.setWidth w).setWidth 32 = a &&& mask := by
  subst hm
  refine BitVec.eq_of_getLsbD_eq fun i hi => ?_
  rw [BitVec.getLsbD_and, ofNat_getLsbD _ hi, Nat.testBit_two_pow_sub_one, BitVec.getLsbD_setWidth, BitVec.getLsbD_setWidth,
    decide_eq_true hi, Bool.true_and, Bool.and_comm]

/-- A unary form whose arm computes the table's value in its own way. -/
theorem unary_of_eq {mk : Hdr → Opnd → Opnd → Instr} {f g : Word → Word} (hfg : ∀ a, f a = g a)
    (hx : ∀ h d a s, exec (mk h d a) s = alu1 (mk h d a) h d a f s)
    (hu : ∀ h d a, (mk h d a).info.uses = [⟨.dst, d⟩, ⟨.src, a⟩]) : Unary mk g :=
  funext hfg ▸ unary_of hx hu

/-- Settles O3: the counts by what the model's count stops at, BREV by its bits, and every other form by its arm. -/
theorem immediateAndUnaryForms : Obligations.ImmediateAndUnaryForms := by
  unfold Obligations.ImmediateAndUnaryForms
  refine ⟨⟨fun imm => ?addi, fun imm => ?andi, fun imm => ?ori, fun imm => ?xori, fun imm => ?shli, fun imm => ?shri, fun imm => ?srai,
    fun imm => ?muli, fun h d imm s hr => ?movi, ?mov⟩, fun h d a s hr => ?clz, fun h d a s hr => ?ctz, ?popc, fun h d a s hr => ?brev,
    ?abs, ?neg, ?not, ?sext8, ?sext16, ?zext8, ?zext16⟩
  case movi => exact aluOut_gives hr rfl rfl rfl Nat.one_pos
  case clz =>
    obtain ⟨hle, hzeros, hone⟩ := clzNat_spec 32 (operand (.clz h d a) s h 1 a)
    exact ⟨_, hle, hzeros, hone, alu1_gives (f := fun x => .ofNat 32 (clzNat 32 x)) hr rfl (writes_one rfl rfl Nat.one_pos)⟩
  case ctz =>
    obtain ⟨hle, hzeros, hone⟩ := ctzNat_spec (operand (.ctz h d a) s h 1 a) 32 0
    simp only [Nat.zero_add] at hzeros hone
    exact ⟨_, hle, hzeros, hone, alu1_gives (f := fun x => .ofNat 32 (ctzNat x 32 0)) hr rfl (writes_one rfl rfl Nat.one_pos)⟩
  case brev =>
    exact ⟨_, fun i hi => brev_getLsbD _ hi, alu1_gives (f := fun x => .ofNat 32 (brevNat x 32)) hr rfl (writes_one rfl rfl Nat.one_pos)⟩
  case popc => exact unary_of_eq popc_eq (fun h d a s => rfl) (fun h d a => rfl)
  case abs => exact unary_of_eq abs_eq_ofInt (fun h d a s => rfl) (fun h d a => rfl)
  case neg => exact unary_of_eq (fun a => (BitVec.zero_sub a).symm) (fun h d a s => rfl) (fun h d a => rfl)
  case sext8 => exact unary_of_eq (sext_eq (w := 8) (by decide)) (fun h d a s => rfl) (fun h d a => rfl)
  case sext16 => exact unary_of_eq (sext_eq (w := 16) (by decide)) (fun h d a s => rfl) (fun h d a => rfl)
  case zext8 => exact unary_of_eq (zext_eq_and (w := 8) (mask := 0xFF) (by decide)) (fun h d a s => rfl) (fun h d a => rfl)
  case zext16 =>
    exact unary_of_eq (zext_eq_and (w := 16) (mask := 0xFFFF) (by decide)) (fun h d a s => rfl) (fun h d a => rfl)
  all_goals exact unary_of (fun h d a s => rfl) (fun h d a => rfl)

end Sys2Proof.Machine
end

section
/-! SUPPORT. Compares, predicates and SEL: the trap of a word that the issue checks refuse, the bits of PGET, and the predicates that PPUT
writes. -/

namespace Sys2Proof.Machine

/-! A word that a check before the execute stage refuses -/

/-- A word that an issue check refuses, with no access of its thread out, takes the check's trap; INTEG, which may first end an
enclave, is left out. -/
theorem issue_refused {i : Instr} {s : State} (k : State → Res) {t : Trap} (hchain : s.chain = none) (howed : s.th.owed = none)
    (hheld : held i s = false) (hlate : s.lateOut = false) (hgate : gate i (begin_ i s) = some t) (ht : t ≠ .integ) :
    issue i s k = .next ((begin_ i s).freshen.takeTrap t i.tval s.th.w) := by
  have hw : (begin_ i s).th.w = s.th.w := by rw [begin_th]
  have heffect : (begin_ i s).gateEffect t = begin_ i s := by
    rw [State.gateEffect, beq_eq_false_iff_ne.2 ht]
    rfl
  simp only [issue, hchain, issueAlone, howed, hheld, hgate, heffect, State.endInTrap, begin_lateOut, hlate, left_of_level, hw,
    Bool.false_eq_true, if_false]

/-- A field value that the word's own rule refuses is ILLEGAL. -/
theorem gate_illegal_of_info {i : Instr} (h : i.info.ok = false) (s : State) : gate i s = some .illegal := by
  have hill : illegalWord i s = true := by simp only [illegalWord, h, Bool.not_false, Bool.true_or]
  simp only [gate, hill, if_true]

/-- A predicate that the word's entry writes. -/
theorem writes_pred {i : Instr} {p : BitVec 3} (hw : i.info.pwrites = [p.toNat]) (hp : p ≠ 0) : 128 + p.toNat ∈ i.writeCodes :=
  mem_writeCodes_pred (hw ▸ List.mem_singleton_self _) fun h => hp (BitVec.eq_of_toNat_eq h)

/-! Compares (R102) -/

/-- The D field of a word (Table 3.3). -/
theorem word3_dField {op d a b : Nat} (h : Hdr) (hD : d < 2 ^ 7) (hA : a < 2 ^ 7) (hB : b < 2 ^ 7) :
    (BitVec.ofNat 32 (word3 h op d a b)).extractLsb' 14 7 = BitVec.ofNat 7 d := by
  refine BitVec.eq_of_toNat_eq ?_
  have hdiv : (word3 h op d a b) % 2 ^ 32 / 2 ^ 14 % 2 ^ 7 = d := by
    norm_num only [word3, hd]
    omega
  rw [BitVec.extractLsb'_toNat, BitVec.toNat_ofNat, BitVec.toNat_ofNat, Nat.shiftRight_eq_div_pow, hdiv, Nat.mod_eq_of_lt hD]

theorem Opnd.code_lt_field (o : Opnd) : o.code < 2 ^ 7 := by
  cases o with
  | g n | o n | l n =>
    have hn := n.isLt
    simp only [Opnd.code]
    omega
  | zr | lit => decide
  | bad high => cases high <;> decide

/-- The condition code over the predicate in one field. -/
theorem cond_append_pred (k : BitVec 4) (p : BitVec 3) : BitVec.ofNat 7 (k.toNat * 8 + p.toNat) = k ++ p := by
  refine BitVec.eq_of_toNat_eq ?_
  rw [BitVec.toNat_append, ← Nat.shiftLeft_add_eq_or_of_lt p.isLt, Nat.shiftLeft_eq, BitVec.toNat_ofNat]
  omega

/-- Settles O4: the predicate by the arm, the D field by its place in the word, and a reserved condition by the first issue check. -/
theorem integerCompares : Obligations.IntegerCompares := by
  unfold Obligations.IntegerCompares
  intro holds
  have hholds (k : BitVec 4) (x y : Word) : holds k x y = cond k.toNat x y := by
    simp only [holds]
    generalize k.toNat = n
    match n with
    | 1 => exact decide_not
    | 0 | 2 | 3 | 4 | 5 | 6 | 7 | 8 | _ + 9 => rfl
  simp only [hholds]
  refine ⟨fun h k p a b s hr => ?cmp, fun h k p a imm s hr => ?cmpi, fun h k p a b imm => ⟨?cmpWord, ?cmpiWord⟩,
    fun h k p a b imm s hk => List.forall_mem_cons.2 ⟨?cmpIllegal, List.forall_mem_singleton.2 ?cmpiIllegal⟩⟩
  case cmp => exact setPredBy_gives hr rfl (writes_pred rfl)
  case cmpi => exact setPredBy_gives hr rfl (writes_pred rfl)
  case cmpWord => exact (word3_dField h (by omega) (Opnd.code_lt_field a) (Opnd.code_lt_field b)).trans (cond_append_pred k p)
  case cmpiWord => exact (word3_dField h (by omega) (Opnd.code_lt_field a) imm.isLt).trans (cond_append_pred k p)
  case cmpIllegal =>
    have hinfo : (Instr.cmp h k p a b).info.ok = false := decide_eq_false (Nat.not_lt.2 hk)
    exact fun hchain howed hheld hlate => issue_refused _ hchain howed hheld hlate (gate_illegal_of_info hinfo _) (by decide)
  case cmpiIllegal =>
    have hinfo : (Instr.cmpi h k p a imm).info.ok = false := decide_eq_false (Nat.not_lt.2 hk)
    exact fun hchain howed hheld hlate => issue_refused _ hchain howed hheld hlate (gate_illegal_of_info hinfo _) (by decide)

/-! Predicate words (R103-R105) -/

theorem predByte_lt (s : State) (n : Nat) : predByte s n < 2 ^ n := by
  induction n with
  | zero => exact Nat.one_pos
  | succ n ih =>
    have hb : bit (s.readPred 1 n) ≤ 1 := by cases s.readPred 1 n <;> decide
    have hmul : bit (s.readPred 1 n) * 2 ^ n ≤ 1 * 2 ^ n := Nat.mul_le_mul_right _ hb
    rw [predByte, Nat.pow_succ]
    omega

theorem predByte_testBit (s : State) {n i : Nat} (hi : i < n) : (predByte s n).testBit i = s.readPred 1 i := by
  induction n with
  | zero => exact absurd hi (Nat.not_lt_zero i)
  | succ n ih =>
    rw [predByte, Nat.mul_comm, Nat.testBit_two_pow_mul_add _ (predByte_lt s n)]
    split_ifs with h
    · exact ih h
    · rw [Nat.le_antisymm (Nat.le_of_lt_succ hi) (not_lt.1 h), Nat.sub_self, bit_testBit_zero]

theorem putPreds_touched (v : Word) (n : Nat) (s : State) : Touched s (putPreds v n s) := by
  induction n with
  | zero => exact Touched.refl s
  | succ n ih => exact ih.trans (putPred_touched ..)

theorem putPreds_final (v : Word) (n : Nat) (s : State) (c : Nat) : (putPreds v n s).final c = s.final c := by
  induction n with
  | zero => rfl
  | succ n ih => rw [putPreds, putPred_final, ih]

theorem putPreds_finalFpc (v : Word) (n : Nat) (s : State) : (putPreds v n s).finalFpc = s.finalFpc := by
  induction n with
  | zero => rfl
  | succ n ih => rw [putPreds, putPred_finalFpc, ih]

theorem putPred_results (s : State) (l : Lat) (n : Nat) (v : Bool) : (s.putPred l n v).th.results = s.th.results := by
  unfold State.putPred
  split
  · rfl
  · exact Thread.setPred_results ..

theorem putPreds_results (v : Word) (n : Nat) (s : State) : (putPreds v n s).th.results = s.th.results := by
  induction n with
  | zero => rfl
  | succ n ih => rw [putPreds, putPred_results, ih]

/-- PPUT's predicates, where no outstanding result is a predicate. -/
theorem putPreds_finalPred (v : Word) {n : Nat} (hn : n ≤ 7) {s : State}
    (hr : ∀ x ∈ s.th.results, ∀ k ∈ List.range' 1 7, x.code ≠ 128 + k) (m : Nat) :
    (putPreds v n s).finalPred m = if 1 ≤ m ∧ m ≤ n then v.getLsbD m else s.finalPred m := by
  induction n with
  | zero => rw [if_neg (by omega)]; rfl
  | succ n ih =>
    have hp : (BitVec.ofNat 3 (n + 1)).toNat = n + 1 := by
      rw [BitVec.toNat_ofNat]
      omega
    have h0 : BitVec.ofNat 3 (n + 1) ≠ 0 := fun h => by
      rw [h] at hp
      exact absurd hp (Nat.succ_ne_zero n).symm
    have hput := putPred_finalPred (putPreds v n s) .c2 (BitVec.ofNat 3 (n + 1)) (v.getLsbD (n + 1)) (fun x hx _ => by
      rw [putPreds_results] at hx
      rw [hp]
      exact hr x hx (n + 1) (by simp; omega)) m
    rw [hp] at hput
    rw [putPreds, hput, ih (by omega)]
    by_cases hm : m = n + 1
    · rw [if_pos ⟨h0, hm⟩, if_pos (by omega), hm]
    · have hle : m ≤ n + 1 ↔ m ≤ n := by omega
      simp only [hm, hle, and_false, if_false]

theorem pput_gives {h : Hdr} {a : Opnd} {s : State} (hr : Runs (.pput h a) s) :
    Gives (.pput h a) s [] ((List.range 7).map fun i => (i + 1, (operand (.pput h a) s h 1 a).getLsbD (i + 1))) := by
  have hfinal (m : Nat) := putPreds_finalPred (operand (.pput h a) s h 1 a) (Nat.le_refl 7) (s := begin_ (.pput h a) s)
    (fun x hx k hk => begin_results _ s _ (.inl (mem_writeCodes_pred hk (by simp at hk; omega))) x hx) m
  refine gives_of hr rfl rfl (putPreds_touched ..) (List.forall_mem_nil _) (fun c _ => ?_) (fun p hp _ => ?_) (fun n hn => ?_) ?_
  · exact (putPreds_final ..).trans (begin_final ..)
  · obtain ⟨k, hk, rfl⟩ := List.mem_map.1 hp
    exact (hfinal _).trans (if_pos (by simp at hk; omega))
  · have hout : ¬(1 ≤ n ∧ n ≤ 7) := fun hin => hn (n - 1 + 1, _) (List.mem_map_of_mem (List.mem_range.2 (by omega))) (by omega)
    exact (hfinal n).trans ((if_neg hout).trans (begin_finalPred ..))
  · rw [setFlags_zero]
    exact (putPreds_finalFpc ..).trans (begin_finalFpc ..)

/-- Settles O5: each logical word by its arm, PGET by the bits of `predByte`, PPUT by the predicates of `putPreds`. -/
theorem predicates : Obligations.Predicates := by
  unfold Obligations.Predicates
  refine ⟨fun h p q r s hr => ?pand, fun h p q r s hr => ?por, fun h p q r s hr => ?pxor, fun h p q r s hr => ?pandn,
    fun h p q s hr => ?pnot, fun h d s hr => ?pget, fun h a s hr => pput_gives hr, fun h n d a b s hr => ?sel⟩
  case pget =>
    refine ⟨.ofNat 32 (predByte (begin_ (.pget h d) s) 8), fun i => ?_, ?_, aluOut_gives hr rfl rfl rfl Nat.one_pos⟩
    · rw [ofNat_getLsbD _ (by omega), predByte_testBit _ (by omega), operandP]
    · have hlt := predByte_lt (begin_ (.pget h d) s) 8
      rw [BitVec.toNat_ofNat]
      omega
  case sel => exact aluOut_gives hr rfl rfl rfl Nat.one_pos
  all_goals exact setPredBy_gives hr rfl (writes_pred rfl)

end Sys2Proof.Machine
end

section
/-! SUPPORT. The floating words: the forms that write a predicate or a pair, and what the sign operations, the class mask, the integral
forms and the conditions come to. -/

namespace Sys2Proof.Machine

/-! FMIN and FMAX (R107) -/

/-- FMIN and FMAX on operands that FTZ does not change. -/
theorem fminmaxOf_eq (up : Bool) {c : Word} (hc : fpcFtz c = false) (a b : Word) :
    fminmaxOf up c a b = ⟨fminmax up a.toNat b.toNat, 0⟩ := by
  simp only [fminmaxOf, hc, flushIn, Bool.false_and, Bool.false_eq_true, if_false]

theorem fLess_eq (x y : FVal) :
    fLess x y = ((x.isZero && y.isZero && x.sign && !y.sign) || ((!(x.isZero && y.isZero)) && x.cmp y == .lt)) := by
  unfold fLess
  cases x.isZero && y.isZero <;> simp

/-- Settles O6: each form by its arm; FMIN and FMAX by the NaNs among their operands. -/
theorem floatForms : Obligations.FloatForms := by
  unfold Obligations.FloatForms
  refine ⟨⟨?fadd, ?fsub, ?fmul, ?ffma, ?ffnma, ?fmin, ?fmax, ?hadd2, ?hmul2, ?hfma2, ?badd2, ?bmul2, ?bfma2, ?pkF16, ?pkB16, ?fscl,
    ?dot4E43, ?dot4E52, ?dot8E21, ?dot2B16, ?dot2F16⟩, fun up c a b hc => ?minmax⟩
  case minmax =>
    simp only [fminmaxOf_eq up hc, ← fLess_eq]
    refine ⟨trivial, fun hx hy => ?_, fun hx hy => ?_, fun hx hy => ?_, fun hx hy => ?_⟩
    all_goals simp only [fminmax, hx, hy, Bool.false_eq_true, if_true, if_false]
  case ffma | ffnma | hfma2 | bfma2 | dot4E43 | dot4E52 | dot8E21 | dot2B16 | dot2F16 =>
    exact floatTernary_of (fun h d a b s => rfl) (fun h d a b => rfl)
  all_goals exact floatBinary_of (fun h d a b s => rfl) (fun h d a b => rfl)

/-! The float unary group (R113, R114) -/

theorem signOp_false (f : Nat → Nat) (a : Word) :
    signOp f false a = if (f32.value a.toNat).isNan then ⟨0x7FC00000, 0⟩ else ⟨f a.toNat, 0⟩ := by
  simp only [signOp, flushIn, Bool.false_and, Bool.false_eq_true, if_false]

theorem and_toNat_abs (a : Word) : (a &&& 0x7FFFFFFF).toNat = a.toNat % 2 ^ 31 := by
  rw [BitVec.toNat_and]
  exact Nat.and_two_pow_sub_one_eq_mod a.toNat 31

/-- Adding 2^31 modulo 2^32 inverts the sign bit. -/
theorem xor_toNat_neg (a : Word) : (a ^^^ 0x80000000).toNat = (a.toNat + 2 ^ 31) % 2 ^ 32 := by
  refine Nat.eq_of_testBit_eq fun i => ?_
  rw [BitVec.toNat_xor, Nat.testBit_xor, show (0x80000000 : Word).toNat = 2 ^ 31 from rfl, Nat.testBit_two_pow, Nat.testBit_mod_two_pow,
    Nat.add_comm]
  rcases Nat.lt_trichotomy i 31 with h | rfl | h
  · rw [Nat.testBit_two_pow_add_gt h, decide_eq_false (by omega), decide_eq_true (by omega), Bool.xor_false, Bool.true_and]
  · rw [Nat.testBit_two_pow_add_eq, decide_eq_true rfl, decide_eq_true (by decide), Bool.xor_true, Bool.true_and]
  · rw [BitVec.testBit_toNat, BitVec.getLsbD_of_ge _ _ (by omega), decide_eq_false (by omega), decide_eq_false (by omega)]
    rfl

theorem fclassOf_eq (a : Word) : fclassOf a =
    let e := a.extractLsb' 23 8
    let m := a.extractLsb' 0 23
    if e = 255 then (if m = 0 then (if a.getLsbD 31 then 1 else 128) else if a.getLsbD 22 then 512 else 256)
    else if e = 0 then (if m = 0 then (if a.getLsbD 31 then 8 else 16) else if a.getLsbD 31 then 4 else 32)
    else if a.getLsbD 31 then 2 else 64 := by
  have he (n : Nat) (hn : n < 256) : a.toNat / 2 ^ 23 % 256 = n ↔ a.extractLsb' 23 8 = BitVec.ofNat 8 n := by
    rw [← BitVec.toNat_inj, BitVec.extractLsb'_toNat, BitVec.toNat_ofNat, Nat.shiftRight_eq_div_pow, Nat.mod_eq_of_lt hn]
  have hm : a.toNat % 2 ^ 23 = 0 ↔ a.extractLsb' 0 23 = 0 := by
    rw [← BitVec.toNat_inj, BitVec.extractLsb'_toNat, Nat.shiftRight_zero]
    rfl
  simp only [fclassOf, he 255 (by decide), he 0 (by decide), hm, BitVec.msb_eq_getLsbD_last]
  rfl

/-- An integral form sets no flag but FRINT's NX. -/
theorem integral_flags (rm : RMode) (nx ftz : Bool) (a : Word) :
    (integral rm nx ftz a).flags = 0 ∨ (nx = true ∧ (integral rm nx ftz a).flags = NX) := by
  unfold integral
  dsimp only
  split
  · exact .inl rfl
  · exact .inl rfl
  · split
    · cases nx
      · exact .inl rfl
      · exact .inr ⟨rfl, rfl⟩
    · exact .inl rfl

/-- Settles O8: each form by its arm; the sign forms without FTZ, the class mask by its fields, the flags of an integral form by its
cases. -/
theorem floatUnaryGroup : Obligations.FloatUnaryGroup := by
  unfold Obligations.FloatUnaryGroup
  refine ⟨?fabs, ?fneg, ?ffloor, ?fceil, ?ftrunc, ?frint, ?fclass, fun a => ?absValue, fun a => ?negValue, fclassOf_eq, integral_flags⟩
  case absValue => rw [signOp_false, and_toNat_abs]
  case negValue => rw [signOp_false, xor_toNat_neg]
  all_goals exact floatUnary_of (fun h d a s => rfl) (fun h d a => rfl)

/-! Compares (R108, R111) -/

/-- With a NaN the unordered conditions hold and no other does. -/
theorem fCond_nan {x y : FVal} (h : (x.isNan || y.isNan) = true) {k : Nat} (hk : k < 12) :
    fCond k x y = (k == 1 || (6 ≤ k && k < 10) || k == 11) := by
  unfold fCond
  simp only [h, if_true]
  interval_cases k <;> rfl

/-- Zeros of any sign and exponent compare equal. -/
theorem fCond_zeros (n m : Bool) (e e' : Int) : fCond 0 (.fin n 0 e) (.fin m 0 e') = true := by
  have hsum (d : Int) (s : Bool) (x : Int) : sumAt d [.fin s 0 x] = 0 := by cases s <;> simp [sumAt]
  have hcmp : (FVal.fin n 0 e).cmp (.fin m 0 e') = .eq := by
    simp only [FVal.cmp, hsum]
    rfl
  simp [fCond, FVal.isNan, hcmp]

/-- Settles O9: each word by the predicate that it writes. -/
theorem floatCompares : Obligations.FloatCompares := by
  unfold Obligations.FloatCompares
  refine ⟨fun h k p a b s hr => ?fcmp, fun h k p a b s hr => ?dcmp, fun k x y hnan hk => fCond_nan hnan hk, fCond_zeros⟩
  case fcmp => exact gives_putPred .c4 hr rfl rfl (writes_pred rfl)
  case dcmp => exact gives_postPred hr rfl rfl

/-! F64 words and the SFU group (R110, R112) -/

/-- An F64 word writes its pair. -/
theorem dop_gives {i : Instr} {r : Role} {d : Opnd} {f : RMode → State → FRes} {l : List Use} {s : State} (hr : Runs i s)
    (hx : exec i s = dop i d f s) (hu : i.info.uses = ⟨r, d⟩ :: l) (hw : r = .dst2 ∨ r = .rmw2) :
    Gives i s (outs2 d (.ofNat 64 (f (fpcRm (fpcOf i s)) (begin_ i s)).bits)) [] (f (fpcRm (fpcOf i s)) (begin_ i s)).flags :=
  gives_postTo2 hr hx rfl fun hd => (writes_pair hr hu hw hd).2.2

theorem pairBinary_of {mk : Hdr → Opnd → Opnd → Opnd → Instr} {f : RMode → FVal → FVal → FRes}
    (hx : ∀ h d a b s, exec (mk h d a b) s = dop (mk h d a b) d (fun rm s => f rm (f64Of (s.src2 1 a)) (f64Of (s.src2 2 b))) s)
    (hu : ∀ h d a b, (mk h d a b).info.uses = [⟨.dst2, d⟩, ⟨.src2, a⟩, ⟨.src2, b⟩]) :
    PairBinary mk fun c a b => f (fpcRm c) (f64.value a.toNat) (f64.value b.toNat) :=
  fun h d a b s hr => dop_gives hr (hx h d a b s) (hu h d a b) (.inl rfl)

theorem floatUnary_of_sfuOp {mk : Hdr → Opnd → Opnd → Instr} {f : Bool → Word → FRes}
    (hx : ∀ h d a s, exec (mk h d a) s = sfuOp (mk h d a) h d a f s) : FloatUnary mk fun c a => f (fpcFtz c) a :=
  fun h d a s hr => sfuOp_gives hr (hx h d a s)

/-- Settles O10: each word by its arm. -/
theorem doubleAndSfuForms : Obligations.DoubleAndSfuForms := by
  unfold Obligations.DoubleAndSfuForms
  refine ⟨⟨?dadd, ?dmul, fun h d a b s hr => ?dfma⟩, ?frcp, ?frsq, ?fsqrt, ?fex2, ?flg2, ?fsinp, ?fcosp, ?ftanh, ?fsigm⟩
  case dadd => exact pairBinary_of (f := fun rm => fAdd f64 rm false) (fun h d a b s => rfl) (fun h d a b => rfl)
  case dmul => exact pairBinary_of (f := fun rm => fMul f64 rm false) (fun h d a b s => rfl) (fun h d a b => rfl)
  case dfma =>
    exact dop_gives hr
      (f := fun rm s => fFma f64 rm false false (f64Of (s.src2 1 a)) (f64Of (s.src2 2 b)) (f64Of (s.src2 0 d))) rfl rfl (.inr rfl)
  all_goals exact floatUnary_of_sfuOp fun h d a s => rfl

end Sys2Proof.Machine
end

section
/-! SUPPORT. NOP, PRIO, YIELD, ID, REFILL and FETCHW: what voiding the l registers and giving an item leave alone, and what each word comes
to. -/

namespace Sys2Proof.Machine

/-! What YIELD and REFILL leave alone -/

@[simp] theorem unbind_cur (s : State) (codes : List Nat) : (s.unbind codes).cur = s.cur := by
  unfold State.unbind
  dsimp only
  split
  · rfl
  · exact State.modTeam_cur ..

@[simp] theorem unbind_th (s : State) (codes : List Nat) : (s.unbind codes).th = s.th := by
  unfold State.unbind
  dsimp only
  split
  · rfl
  · exact State.modTeam_th ..

@[simp] theorem voidL_cur (s : State) : s.voidL.cur = s.cur := unbind_cur s lCodes

@[simp] theorem voidL_th (s : State) : s.voidL.th = s.th.voidL := congrArg Thread.voidL (unbind_th s lCodes)

theorem begin_cur (i : Instr) (s : State) : (begin_ i s).cur = s.cur := by rw [begin_rest]

theorem modThread_chain (s : State) (i : ThreadId) (f : Thread → Thread) : (s.modThread i f).chain = s.chain := by
  unfold State.modThread State.setThread
  split
  · split <;> rfl
  · rfl

/-- An item given to a thread changes neither the chain nor a level. -/
theorem giveItem_frame {s u : State} {i : ThreadId} {launch dst : Nat} (h : s.giveItem i launch dst = some u) :
    u.chain = s.chain ∧ u.th.level = s.th.level := by
  unfold State.giveItem at h
  split at h
  · cases h
  · cases h
    exact ⟨modThread_chain .., modThread_level _ i fun t => rfl⟩

/-! The words -/

theorem exec_yield (h : Hdr) (s : State) : exec (.yield h) s = execYield h s := rfl

theorem exec_refill (h : Hdr) (d : Opnd) (s : State) : exec (.refill h d) s = execRefill h d s := rfl

theorem exec_fetchw (h : Hdr) (a c : Opnd) (s : State) : exec (.fetchw h a c) s = execFetchw h a c s := rfl

theorem prio_takes {h : Hdr} {a : Opnd} {s : State} (hr : Runs (.prio h a) s) {b : State} (hb : begin_ (.prio h a) s = b) :
    Takes (.prio h a) s { b with th := { b.th with prio := (b.src h 1 a).setWidth 3 } } := by
  subst hb
  exact takes_of hr rfl rfl (begin_chain hr) (begin_level ..)

theorem yield_takes {h : Hdr} {s : State} (hr : Runs (.yield h) s) {b : State} (hb : begin_ (.yield h) s = b) :
    Takes (.yield h) s { b.voidL with th := { b.voidL.th with yielded := !s.cur.isHost } } := by
  subst hb
  refine takes_of hr (exec_yield h s) ?_ ((voidL_chain _).trans (begin_chain hr)) ?_
  · simp only [State.onHost, voidL_cur, begin_cur]
  · simp only [voidL_th, Thread.voidL_level, begin_level]

section Refill
variable {h : Hdr} {d : Opnd} {s b : State} {n : Nat} {l : Launch} (hr : Runs (.refill h d) s) (hb : begin_ (.refill h d) s = b)
  (hl : b.launchOf b.cur = some (n, l)) (hitem : l.item = true) (hw : s.th.w.toNat = l.refillHead)
include hr hb hl hitem hw

/-- REFILL with an item in the queue takes it. -/
theorem refill_takes_item {u : State} (herror : l.error = none) (hask : b.oldestAsk (b.coreIx b.cur) n = none)
    (hgive : b.giveItem b.cur n d.code = some u) : Takes (.refill h d) s u := by
  subst hb
  obtain ⟨hchain, hlevel⟩ := giveItem_frame hgive
  have hw' : (begin_ (.refill h d) s).th.w.toNat = l.refillHead := by rw [begin_th]; exact hw
  refine takes_of hr (exec_refill h d s) ?_ (hchain.trans (begin_chain hr)) (hlevel.trans (begin_level ..))
  simp [hl, hitem, hw', herror, hask, hgive]

/-- REFILL behind others, in an ended launch, or with an empty queue waits. -/
theorem refill_takes_place (hwait : l.error.isSome = true ∨ (b.oldestAsk (b.coreIx b.cur) n).isSome = true
      ∨ b.giveItem b.cur n d.code = none) :
    Takes (.refill h d) s (b.modCore (b.coreIx b.cur) fun x => { x with asks := x.asks ++ [⟨b.cur, n, d.code⟩] }) := by
  subst hb
  have hw' : (begin_ (.refill h d) s).th.w.toNat = l.refillHead := by rw [begin_th]; exact hw
  refine takes_of hr (exec_refill h d s) ?_ (begin_chain hr) (begin_level ..)
  rcases hwait with herror | hask | hgive
  · simp [hl, hitem, hw', herror]
  · simp [hl, hitem, hw', hask]
  · simp [hl, hitem, hw', hgive]

end Refill

theorem fetchw_takes {h : Hdr} {a c : Opnd} {s : State} {team idx : Nat} {t : Team} {n : Nat} {l : Launch} (hr : Runs (.fetchw h a c) s)
    (hcur : s.cur = .simt team idx) {b : State} (hb : begin_ (.fetchw h a c) s = b) (ht : b.teamOf b.cur = some t)
    (hl : b.launchOf b.cur = some (n, l)) (hpers : l.pers = true) (hbox : mailboxTrap b t l (b.src h 1 a) (b.src h 2 c) = none)
    (hroom : t.fetches.length < 8) :
    Takes (.fetchw h a c) s (b.modTeam team fun t => { t with
      fetches := t.fetches ++ [⟨idx, (b.src h 1 a).toNat % 2 ^ 28, (b.src h 2 c).toNat % 4096⟩] }) := by
  subst hb
  have hcur' : (begin_ (.fetchw h a c) s).cur = .simt team idx := (begin_cur ..).trans hcur
  rw [hcur'] at ht hl
  refine takes_of hr (exec_fetchw h a c s) ?_ ((modTeam_chain ..).trans (begin_chain hr))
    ((congrArg Thread.level (State.modTeam_th ..)).trans (begin_level ..))
  simp [hcur', ht, hl, hpers, hbox, Nat.not_le.2 hroom]

/-- Settles O31: each word by its arm, and ID's values by the case of the thread. -/
theorem threadWords : Obligations.ThreadWords := by
  unfold Obligations.ThreadWords
  refine ⟨fun h s hr => gives_nothing hr rfl rfl, fun h a s hr => prio_takes hr rfl, fun h s hr => yield_takes hr rfl,
    fun h d f s hr => ⟨gives_postTo hr rfl rfl, fun n hcur => ?host, fun t x tm n l hcur ht hl => ?simt⟩,
    fun h d s n l hr => ?refill, fun h a c s team idx t n l hr hcur => ?fetchw⟩
  case host => simp only [idValue, hcur, implies_true, and_self]
  case simt =>
    have hteam : s.teamOf (.simt t x) = some tm := ht
    rw [hcur] at hl
    simp only [idValue, hcur, hteam, hl, and_self]
  case refill =>
    exact fun hl hitem hw => ⟨fun u herror hask hgive => refill_takes_item hr rfl hl hitem hw herror hask hgive,
      fun hwait => refill_takes_place hr rfl hl hitem hw hwait⟩
  case fetchw => exact fun ht hl hpers hbox hroom => fetchw_takes hr hcur rfl ht hl hpers hbox hroom

end Sys2Proof.Machine
end

section
/-! SUPPORT. Global accesses (R123-R131, R134, R264): the answer of each check of an access, what the delivery of loaded words leaves of the
registers, and what a word that has retired leaves in them. -/

namespace Sys2Proof.Machine

/-! The registers of a destination (R61) -/

/-- A quad destination of a word that runs names four registers of the file. -/
theorem Use.quad_lt {a : Nat} {d : Opnd} (h : Use.ok a ⟨.dst4, d⟩ = true) (hr : d.isReg = true) : d.code + 3 < 0x7C := by
  cases d with
  | g n =>
    have hn := n.isLt
    simp only [Use.ok, Bool.and_eq_true, beq_iff_eq] at h
    simp only [Opnd.code]; omega
  | o n =>
    have hn := n.isLt
    simp only [Use.ok, beq_iff_eq] at h
    simp only [Opnd.code]; omega
  | l n => simp [Use.ok] at h
  | zr => cases hr
  | lit => cases hr
  | bad _ => cases hr

/-- The role of a destination of `n` registers. -/
def dstRole (n : Nat) : Role := if n = 4 then .dst4 else if n = 2 then .dst2 else .dst

theorem mem_dstCodes {d : Opnd} {n c : Nat} (h : c ∈ dstCodes d n) : d.isReg = true ∧ ∃ k < n, c = d.code + k := by
  unfold dstCodes at h
  split at h
  · next hr =>
    obtain ⟨k, hk, rfl⟩ := List.mem_map.1 h
    exact ⟨hr, k, List.mem_range.1 hk, rfl⟩
  · cases h

theorem dstCodes_nodup (d : Opnd) (n : Nat) : (dstCodes d n).Nodup := by
  unfold dstCodes
  split
  · exact List.Nodup.map (fun a b hab => by simpa using hab) List.nodup_range
  · exact List.nodup_nil

theorem dstCodes_lt {i : Instr} {s : State} {n : Nat} {d : Opnd} {l : List Use} (h : Runs i s)
    (hn : n = 1 ∨ n = 2 ∨ n = 4) (hu : i.info.uses = ⟨dstRole n, d⟩ :: l) : ∀ c ∈ dstCodes d n, c < 0x7C := by
  intro c hc
  obtain ⟨hr, k, hk, rfl⟩ := mem_dstCodes hc
  have hok := h.legal _ (hu ▸ List.mem_cons_self)
  rcases hn with rfl | rfl | rfl
  · have := Opnd.code_lt hr
    omega
  · have := Use.pair_lt hok (.inl rfl) hr
    dsimp only at this
    omega
  · have := Use.quad_lt hok hr
    omega

theorem dstCodes_one_zip (d : Opnd) (v : Word) : (dstCodes d 1).zip [v] = outs d v := by
  unfold dstCodes outs
  split <;> rfl

/-! The delivery of results -/

theorem deliver_touched (s : State) (codes : List Nat) (ws : List Word) : Touched s (s.deliver codes ws) := by
  induction codes generalizing s ws with
  | nil => exact Touched.refl s
  | cons c codes ih =>
    cases ws with
    | nil => exact Touched.refl s
    | cons w ws => exact (post_touched s c w 0).trans (ih (s.post c w) ws)

theorem post_writes (s : State) {c : Nat} (v : Word) (hc : c < 0x7C) : Writes s (s.post c v) [(c, v)] := by
  simp only [Writes, List.forall_mem_singleton, post_final]
  refine ⟨by simp [hc], fun c' hne => if_neg fun h => hne h.1.symm, fun n => ?_, ?_⟩
  · exact post_finalPred_reg _ _ _ _ (by omega) n
  · rw [post_finalFpc, setFlags_zero]

/-- A register is written, and then others. -/
theorem Writes.cons {s u v : State} {c : Nat} {w : Word} {regs : List (Nat × Word)} (h : Writes s u [(c, w)]) (g : Writes u v regs)
    (hc : ∀ p ∈ regs, p.1 ≠ c) : Writes s v ((c, w) :: regs) := by
  obtain ⟨hwrote, hkept, hpred, hfpc⟩ := h
  obtain ⟨gwrote, gkept, gpred, gfpc⟩ := g
  refine ⟨fun p hp => ?_, fun c' hne => ?_, fun n => (gpred n).trans (hpred n), gfpc.trans hfpc⟩
  · rcases List.mem_cons.1 hp with rfl | hp
    · exact (gkept _ hc).trans (hwrote _ List.mem_cons_self)
    · exact gwrote p hp
  · exact (gkept c' fun p hp => hne p (List.mem_cons_of_mem _ hp)).trans
      (hkept c' fun p hp => hne p (List.mem_singleton.1 hp ▸ List.mem_cons_self))

theorem Writes.refl (s : State) : Writes s s [] := writes_nil rfl rfl rfl

/-- Words delivered to different registers of the file stand in them, and nothing else of the thread's registers changes. -/
theorem deliver_writes {codes : List Nat} (hd : codes.Nodup) (hlt : ∀ c ∈ codes, c < 0x7C) (s : State) (ws : List Word) :
    Writes s (s.deliver codes ws) (codes.zip ws) := by
  induction codes generalizing s ws with
  | nil => exact Writes.refl s
  | cons c codes ih =>
    cases ws with
    | nil => exact Writes.refl s
    | cons w ws =>
      obtain ⟨hc, hd⟩ := List.nodup_cons.1 hd
      refine (post_writes s w (hlt c List.mem_cons_self)).cons (ih hd (fun x hx => hlt x (List.mem_cons_of_mem c hx)) _ ws) ?_
      intro p hp hpc
      exact hc (hpc ▸ (List.of_mem_zip hp).1)

theorem deliver_level (s : State) (codes : List Nat) (ws : List Word) : (s.deliver codes ws).th.level = s.th.level :=
  (deliver_touched s codes ws).level_eq

theorem deliver_mem (s : State) (codes : List Nat) (ws : List Word) : (s.deliver codes ws).mem = s.mem := by
  rw [(deliver_touched s codes ws).rest]

/-! The end of a word -/

/-- A word whose effect keeps what every effect keeps: what it leads to is all that has to be shown. -/
theorem takes_of_keeps {i : Instr} {s u : State} {k : State → Res} (h : Runs i s) (hx : exec i s = issue i s k)
    (hkeep : Res.Keeps (begin_ i s) (k (begin_ i s))) (hk : k (begin_ i s) = .ok u) (hl : u.th.level = s.th.level) : Takes i s u :=
  takes_of h hx hk ((hkeep.ofOk hk).chain (begin_chain h)) hl

theorem Ends.final_eq {i : Instr} {w : Word} {u t : State} (h : Ends i w u t) (c : Nat) : t.final c = u.final c := by
  rw [h.rest]
  unfold State.final Thread.reg
  rw [Thread.settle_regs, Thread.settle_regs]

theorem Ends.byte_eq {i : Instr} {w : Word} {u t : State} (h : Ends i w u t) (p : Nat) : t.byte p = u.byte p := by
  rw [h.rest]
  rfl

theorem Ends.word_eq {i : Instr} {w : Word} {u t : State} (h : Ends i w u t) : t.th.w = w := by rw [h.rest]

theorem begin_mem (i : Instr) (s : State) : (begin_ i s).mem = s.mem := by rw [begin_rest]

theorem begin_byte (i : Instr) (s : State) (p : Nat) : (begin_ i s).byte p = s.byte p := by
  rw [State.byte, begin_mem, State.byte]

/-! An access that reaches memory late (R264) -/

theorem goLate_level (s : State) (e : LogEntry) : (s.goLate e).th.level = s.th.level := by
  have hfold : ∀ (l : List LogEntry) (sig : Option Sig) (t : State),
      (l.foldl (fun t p => ({ t with serial := t.serial + 1 }).putLog t.serial { p with sig := sig }) t).th.level = t.th.level := by
    intro l sig
    induction l with
    | nil => exact fun t => rfl
    | cons p l ih => exact fun t => ih _
  exact hfold _ _ _

/-! The checks of an access (Table 6.2) -/

theorem wellFormedVa_of_lt {va : Nat} (h : va < 12 * 2 ^ 52) : wellFormedVa va = true := decide_eq_true h

/-- An access whose address is sound, whose line no earlier access of the thread holds, and that stands behind no device access. -/
structure State.Clear (b : State) (a : Access) (size : Nat) : Prop where
  aligned : a.va % size = 0
  inRange : a.va < 12 * 2 ^ 52
  line    : b.lineHeld a.va size = false
  device  : b.deviceWaits a = false

section Checks
variable {α : Type} {b : State} {a : Access} {size : Nat} (e : LogEntry) (run : State → MemRes α) (done : State → α → Res)
  (dev : State → Nat → Res)

theorem globalAccess_misaligned (h : a.va % size ≠ 0) : globalAccess b a size e run done dev = .trap .misalign (.ofNat 64 a.va) b :=
  if_pos h

theorem globalAccess_beyond (h : a.va % size = 0) (hva : 12 * 2 ^ 52 ≤ a.va) :
    globalAccess b a size e run done dev = .trap .perm (.ofNat 64 a.va) b := by
  have hwf : wellFormedVa a.va = false := decide_eq_false (Nat.not_lt.2 hva)
  simp only [globalAccess, h, hwf, ne_eq, not_true_eq_false, if_false, Bool.not_false, if_true]

theorem globalAccess_late (h : b.Clear a size) (hlate : b.mayGoLate a e = true) :
    globalAccess b a size e run done dev = .ok (b.goLate e) := by
  simp only [globalAccess, h.aligned, wellFormedVa_of_lt h.inRange, h.line, h.device, hlate, ne_eq, not_true_eq_false, if_false, if_true,
    Bool.not_true, Bool.false_eq_true, Bool.or_self]

theorem globalAccess_ok (h : b.Clear a size) (hlate : b.mayGoLate a e = false) {u : State} {x : α} (hrun : run b = .ok u x) :
    globalAccess b a size e run done dev = done u x := by
  simp only [globalAccess, h.aligned, wellFormedVa_of_lt h.inRange, h.line, h.device, hlate, hrun, ne_eq, not_true_eq_false, if_false,
    Bool.not_true, Bool.false_eq_true, Bool.or_self]

theorem globalAccess_device (h : b.Clear a size) (hlate : b.mayGoLate a e = false) {u : State} {pa : Nat} (hrun : run b = .device u pa) :
    globalAccess b a size e run done dev = dev u pa := by
  simp only [globalAccess, h.aligned, wellFormedVa_of_lt h.inRange, h.line, h.device, hlate, hrun, ne_eq, not_true_eq_false, if_false,
    Bool.not_true, Bool.false_eq_true, Bool.or_self]

end Checks
end Sys2Proof.Machine
end

section
/-! SUPPORT. The traps of misaligned and out-of-range accesses (R124), and the global and constant loads (R123, R127, R131, R134, R264). -/

namespace Sys2Proof.Machine

/-! Address checks (Table 6.2 orders 1 and 2) -/

/-- An effect that checks an address before anything else: a misaligned one traps with MISALIGN, one beyond slice 11 with PERM. -/
def ChecksAddress (k : State → Res) (at_ : State → Nat) (size : Nat) : Prop :=
  ∀ b, (at_ b % size ≠ 0 → k b = .trap .misalign (.ofNat 64 (at_ b)) b)
    ∧ (at_ b % size = 0 → 12 * 2 ^ 52 ≤ at_ b → k b = .trap .perm (.ofNat 64 (at_ b)) b)

theorem loadGlobal_checksAddress (at_ : State → Nat) (size : Nat) (signed : Bool) (form : Form) (codes : List Nat) (scope : Nat) :
    ChecksAddress (fun b => loadGlobal b (at_ b) size signed form codes scope) at_ size := by
  intro b
  dsimp only [loadGlobal]
  exact ⟨fun h => globalAccess_misaligned _ _ _ _ h, fun h hva => globalAccess_beyond _ _ _ _ h hva⟩

theorem storeGlobal_checksAddress (at_ val : State → Nat) (size : Nat) (form : Form) (any : State → Bool) :
    ChecksAddress (fun b => storeGlobal b (at_ b) size form (val b) (any b)) at_ size := by
  intro b
  dsimp only [storeGlobal]
  exact ⟨fun h => globalAccess_misaligned _ _ _ _ h, fun h hva => globalAccess_beyond _ _ _ _ h hva⟩

theorem loadConst_checksAddress (at_ : State → Nat) (size : Nat) (codes : List Nat) :
    ChecksAddress (fun b => loadConst b (at_ b) size codes) at_ size := by
  intro b
  dsimp only [loadConst]
  exact ⟨fun h => globalAccess_misaligned _ _ _ _ h, fun h hva => globalAccess_beyond _ _ _ _ h hva⟩

theorem atomGlobal_checksAddress (d a : Opnd) (op : Nat) (x y : State → Word) :
    ChecksAddress (fun b => atomGlobal b d a op (x b) (y b)) (fun b => b.va a 0) 4 := by
  intro b
  dsimp only [atomGlobal]
  exact ⟨fun h => globalAccess_misaligned _ _ _ _ h, fun h hva => globalAccess_beyond _ _ _ _ h hva⟩

/-- Settles O19: every access checks its address first, so each word traps before its caches are looked at. -/
theorem accessTraps : Obligations.AccessTraps := by
  unfold Obligations.AccessTraps
  intro traps h d a o imm e
  have of_arm : ∀ {i : Instr} {at_ : State → Nat} {size : Nat} {k : State → Res}, (∀ s, exec i s = issue i s k) →
      ChecksAddress k at_ size → traps i at_ size := by
    intro i at_ size k hx hk s hr hlate
    rw [hx s]
    exact ⟨fun h => issue_traps k hr hlate ((hk _).1 h), fun h hva => issue_traps k hr hlate ((hk _).2 h hva)⟩
  have atom : ∀ {i : Instr} (op : Nat) (x y : State → Word), (∀ s, exec i s = issue i s fun b => atomGlobal b d a op (x b) (y b)) →
      traps i (fun b => b.va a 0) 4 := fun op x y hx => of_arm hx (atomGlobal_checksAddress d a op x y)
  have load : ∀ {i : Instr} (at_ : State → Nat) (size : Nat) (signed : Bool) (form : Form) (n scope : Nat),
      (∀ s, exec i s = issue i s fun b => loadGlobal b (at_ b) size signed form (dstCodes d n) scope) → traps i at_ size :=
    fun at_ size signed form n scope hx => of_arm hx (loadGlobal_checksAddress at_ size signed form _ scope)
  have const : ∀ {i : Instr} (at_ : State → Nat) (size n : Nat),
      (∀ s, exec i s = issue i s fun b => loadConst b (at_ b) size (dstCodes d n)) → traps i at_ size :=
    fun at_ size n hx => of_arm hx (loadConst_checksAddress at_ size _)
  have store : ∀ {i : Instr} (at_ val : State → Nat) (size : Nat) (form : Form) (any : State → Bool),
      (∀ s, exec i s = issue i s fun b => storeGlobal b (at_ b) size form (val b) (any b)) → traps i at_ size :=
    fun at_ val size form any hx => of_arm hx (storeGlobal_checksAddress at_ val size form any)
  clear_value traps
  refine ⟨load _ 1 false .other 1 0 fun _ => rfl, load _ 1 true .other 1 0 fun _ => rfl,
    store _ (fun b => (b.src h 0 d).toNat) 1 .other (fun _ => false) fun _ => rfl, load _ 2 true .other 1 0 fun _ => rfl,
    load _ 4 false .other 1 e.toNat fun _ => rfl, load _ 8 false .other 2 e.toNat fun _ => rfl, load _ 2 false .other 1 0 fun _ => rfl,
    load _ 4 false .ldW 1 0 fun _ => rfl, load _ 8 false .ldD 2 0 fun _ => rfl, load _ 16 false .other 4 0 fun _ => rfl,
    load _ 4 false .other 1 0 fun _ => rfl, store _ (fun b => (b.src h 0 d).toNat) 2 .other (fun _ => false) fun _ => rfl,
    store _ (fun b => (b.src h 0 d).toNat) 4 .stW (fun _ => false) fun _ => rfl,
    store _ (fun b => (b.src2 0 d).toNat) 8 .stD (fun b => (Use.codes ⟨.src2, d⟩).any b.looseCode) fun _ => rfl,
    store _ (fun b => (b.src4 0 d).toNat) 16 .other (fun _ => false) fun _ => rfl,
    store _ (fun b => (b.src h 0 d).toNat) 4 .other (fun _ => false) fun _ => rfl, const _ 4 1 fun _ => rfl, const _ 16 4 fun _ => rfl,
    atom 1 (·.src h 2 o) (fun _ => 0) fun _ => rfl, atom 10 (fun b => (b.src2 2 o).lo) (fun b => (b.src2 2 o).hi) fun _ => rfl, ?atoms⟩
  simp only [List.forall_mem_cons, List.not_mem_nil, false_implies, implies_true, and_true]
  exact ⟨atom 2 (·.src h 2 o) (fun _ => 0) fun _ => rfl, atom 3 (·.src h 2 o) (fun _ => 0) fun _ => rfl,
    atom 4 (·.src h 2 o) (fun _ => 0) fun _ => rfl, atom 5 (·.src h 2 o) (fun _ => 0) fun _ => rfl,
    atom 6 (·.src h 2 o) (fun _ => 0) fun _ => rfl, atom 7 (·.src h 2 o) (fun _ => 0) fun _ => rfl,
    atom 8 (·.src h 2 o) (fun _ => 0) fun _ => rfl, atom 9 (·.src h 2 o) (fun _ => 0) fun _ => rfl,
    atom 11 (·.src h 2 o) (fun _ => 0) fun _ => rfl⟩

end Sys2Proof.Machine
end

section
/-! SUPPORT. The global and constant loads (R123, R127, R131, R134, R264): what a load comes to when it goes late, when the L1 answers, and
when a device does; and the lines that the constant path answers from. -/

namespace Sys2Proof.Machine

/-! Loads through the L1 (R124, R127) -/

section Load
variable {b : State} {va size scope : Nat} {signed : Bool} {form : Form} {codes : List Nat} {a : Access}
  (ha : a = { sp := b.space b.cur, va := va, kind := .read, form := form }) (hclear : b.Clear a size)
include ha hclear

theorem loadGlobal_late (hlate : b.mayGoLate a (entryOf b a size scope signed 0 codes) = true) :
    loadGlobal b va size signed form codes scope = .ok (b.goLate (entryOf b a size scope signed 0 codes)) := by
  subst ha
  dsimp only [loadGlobal]
  exact globalAccess_late _ _ _ _ hclear hlate

theorem loadGlobal_ok (hlate : b.mayGoLate a (entryOf b a size scope signed 0 codes) = false) {u : State} {bs : List Byte}
    (hload : b.l1Load (b.coreIx b.cur) a size = .ok u bs) : loadGlobal b va size signed form codes scope =
      .ok ((if scope = 0 then u.gather (u.physLine (b.coreIx b.cur) a.sp va)
        else (u.gather (u.physLine (b.coreIx b.cur) a.sp va)).orderBy ⟨0, scope, false⟩).deliver codes (loadWords size signed bs)) := by
  subst ha
  dsimp only [loadGlobal]
  exact globalAccess_ok _ _ _ _ hclear hlate hload

theorem loadGlobal_device (hlate : b.mayGoLate a (entryOf b a size scope signed 0 codes) = false) {u : State} {pa : Nat}
    (hload : b.l1Load (b.coreIx b.cur) a size = .device u pa) : loadGlobal b va size signed form codes scope =
      .ok (u.deliver codes (loadWords size signed (leBytes size (u.deviceRead pa).toNat))) := by
  subst ha
  dsimp only [loadGlobal]
  exact globalAccess_device _ _ _ _ hclear hlate hload

end Load

/-! Loads through the constant path (R131) -/

section Const
variable {b : State} {va size : Nat} {codes : List Nat} {a : Access} (ha : a = { sp := b.space b.cur, va := va, kind := .ldc })
  (hclear : b.Clear a size)
include ha hclear

theorem loadConst_late (hlate : b.mayGoLate a (entryOf b a size 0 false 0 codes) = true) :
    loadConst b va size codes = .ok (b.goLate (entryOf b a size 0 false 0 codes)) := by
  subst ha
  dsimp only [loadConst]
  exact globalAccess_late _ _ _ _ hclear hlate

theorem loadConst_ok (hlate : b.mayGoLate a (entryOf b a size 0 false 0 codes) = false) {u : State} {bs : List Byte}
    (hload : b.ldc (b.coreIx b.cur) a size = .ok u bs) :
    loadConst b va size codes = .ok ((u.gather (u.physLine (b.coreIx b.cur) a.sp va)).deliver codes (loadWords size false bs)) := by
  subst ha
  dsimp only [loadConst]
  exact globalAccess_ok _ _ _ _ hclear hlate hload

end Const

/-! Lines that answer -/

/-- No line is written back while no lease has run out (R129). -/
theorem expireLeases_of_none {s : State} (h : (s.lines.any fun l => l.expired s.ns) = false) : s.expireLeases = s := by
  have hdue : (s.lines.any fun l => l.expired s.ns && (l.dirty.isEmpty || !s.writeWaits l.core l.pa)) = false := by
    rw [List.any_eq_false] at h ⊢
    intro l hl
    simp [h l hl]
  simp only [State.expireLeases, hdue, Bool.false_eq_true, if_false]

theorem expired_of_findLine {s : State} (h : (s.lines.any fun l => l.expired s.ns) = false) {core va : Nat} {sp : Space} {l : Line}
    (hl : s.findLine core sp va = some l) : l.expired s.ns = false := by
  rw [List.any_eq_false] at h
  simpa using h l (List.mem_of_find?_eq_some hl)

/-- A hit: a line that a translation with R serves, without poison, answers with its bytes and stays as it is (R127). -/
theorem l1Load_hit {s : State} (hexp : (s.lines.any fun l => l.expired s.ns) = false) {core n : Nat} {a : Access} {l : Line} {bs : List Byte}
    (hl : s.findLine core a.sp a.va = some l) (hbs : l.read (a.va % 128) n = some bs) (hr : l.rOk = true) (hp : l.poison = []) :
    s.l1Load core a n = .ok (s.count core a.sp.eid.toNat 0x10 1) bs := by
  simp [State.l1Load, expireLeases_of_none hexp, hl, hr, hp, hbs, expired_of_findLine hexp hl]

/-- The constant cache of a quad answers for a line that it holds (R131). -/
theorem ldc_quad_hit {s : State} {core n : Nat} {a : Access} {l : Line} {bs : List Byte} (hcore : core < 4608)
    (hl : s.clines.find? (fun l => l.core = core / 4 && l.sp = a.sp && l.va = a.va / 128) = some l)
    (hbs : l.read (a.va % 128) n = some bs) : s.ldc core a n = .ok s bs := by
  have hany : (s.clines.any fun l => l.core = core / 4 && l.sp = a.sp && l.va = a.va / 128) = true :=
    List.any_eq_true.2 ⟨l, List.mem_of_find?_eq_some hl, by simpa using List.find?_some hl⟩
  simp only [State.ldc, Nat.not_le.2 hcore, if_false, cacheQuad, hcore, if_true, hany, readThrough, hl, Option.bind_some, hbs]

/-- The data L1 of a host core answers for a line of an earlier constant read (R131). -/
theorem ldc_host_hit {s : State} {core n : Nat} {a : Access} {l : Line} {bs : List Byte} (hcore : 4608 ≤ core)
    (hexp : (s.lines.any fun l => l.expired s.ns) = false) (hl : s.findLine core a.sp a.va = some l) (hldc : l.ldc = true)
    (hr : l.rOk = true) (hp : l.poison = []) (hbs : l.read (a.va % 128) n = some bs) :
    s.ldc core a n = .ok ((s.count core a.sp.eid.toNat 0x10 1).markLdc core a.sp a.va) bs := by
  simp only [State.ldc, hcore, if_true, hl, Option.any_some, hldc, l1Load_hit hexp hl hbs hr hp]

/-! What a signature leaves of its thread (R143) -/

/-- The thread keeps its level and comes to the same registers, and no byte of memory changes. -/
structure Unmoved (s u : State) : Prop where
  level : u.th.level = s.th.level
  regs  : Writes s u []
  mem   : u.mem = s.mem

theorem Unmoved.refl (s : State) : Unmoved s s := ⟨rfl, Writes.refl s, rfl⟩

theorem Unmoved.trans {a b c : State} (h : Unmoved a b) (g : Unmoved b c) : Unmoved a c :=
  ⟨g.level.trans h.level, h.regs.of_nil g.regs, g.mem.trans h.mem⟩

/-- A state whose thread is the same in what `Unmoved` speaks of. -/
theorem unmoved_of {s u : State} (hth : u.th = s.th) (hmem : u.mem = s.mem) : Unmoved s u :=
  ⟨congrArg Thread.level hth, by refine writes_nil ?_ ?_ ?_ <;> rw [hth], hmem⟩

/-- The signatures of a thread are no part of its registers. -/
theorem unmoved_signs {s : State} (g : Sig) (p : Option Sig) : Unmoved s { s with th := { s.th with gathered := g, pending := p } } :=
  ⟨rfl, by refine writes_nil ?_ ?_ ?_ <;> simp only [Thread.settle_regs, Thread.settle_preds, Thread.settle_fpc], rfl⟩

theorem begin_unmoved (i : Instr) (s : State) : Unmoved s (begin_ i s) := ⟨begin_level i s, begin_writes i s, begin_mem i s⟩

theorem count_unmoved (s : State) (core eid code k : Nat) : Unmoved s (s.count core eid code k) :=
  unmoved_of (State.count_th ..) (State.count_mem ..)

theorem gather_unmoved (s : State) (line : Option Nat) : Unmoved s (s.gather line) := by
  unfold State.gather
  cases line with
  | none => exact Unmoved.refl s
  | some l =>
    dsimp only
    split
    · exact Unmoved.refl s
    · exact (unmoved_signs (s.th.gathered ||| s.lineSig l) s.th.pending).trans (unmoved_of rfl rfl)

/-- A word whose effect moves nothing of its thread, and then delivers words to its destination. -/
theorem Takes.of_deliver {i : Instr} {s u : State} {codes : List Nat} {ws : List Word} (hd : codes.Nodup) (hlt : ∀ c ∈ codes, c < 0x7C)
    (hu : Unmoved s u) (h : Takes i s (u.deliver codes ws)) :
    ∃ t, exec i s = .next t ∧ t.th.w = nextIndex i s ∧ (∀ p ∈ codes.zip ws, t.final p.1 = p.2)
      ∧ (∀ c, c ∉ codes → t.final c = s.final c) ∧ ∀ p, t.byte p = s.byte p := by
  obtain ⟨t, hexec, hends⟩ := h
  obtain ⟨hwrote, hkept, -, -⟩ := hu.regs.of_nil (deliver_writes hd hlt u ws)
  refine ⟨t, hexec, hends.word_eq, fun p hp => (hends.final_eq p.1).trans (hwrote p hp), fun c hc => ?_, fun p => ?_⟩
  · exact (hends.final_eq c).trans (hkept c fun p hp hpc => hc (hpc ▸ (List.of_mem_zip hp).1))
  · rw [hends.byte_eq, State.byte, State.byte, deliver_mem, hu.mem]

/-- Settles O17: each load is an access that reads, with its own address, size and destination, and the constant path answers from a
line that it holds. -/
theorem globalLoads : Obligations.GlobalLoads := by
  unfold Obligations.GlobalLoads
  refine ⟨?plain, ?const⟩
  case plain =>
    intro loads h d a o imm e
    have of_arm : ∀ {i : Instr} {l : List Use} (at_ : State → Nat) (size : Nat) (signed : Bool) (form : Form) (n scope : Nat),
        (∀ s, exec i s = issue i s fun b => loadGlobal b (at_ b) size signed form (dstCodes d n) scope) →
        i.info.uses = ⟨dstRole n, d⟩ :: l → (n = 1 ∨ n = 2 ∨ n = 4) → loads i at_ size signed form (dstCodes d n) scope := by
      intro i l at_ size signed form n scope hx hu hn s hr b core va a e haligned hrange hline hdevice
      have hclear : b.Clear a size := ⟨haligned, hrange, hline, hdevice⟩
      have hkeep := loadGlobal_keeps (Keeps.refl b) va size signed form (dstCodes d n) scope
      refine ⟨fun hlate => ?late, fun hnow => ⟨fun b' bs hload hlevel => ⟨?takes, ?writes⟩, fun b' pa hload hlevel => ?device⟩⟩
      case late => exact takes_of_keeps hr (hx s) hkeep (loadGlobal_late rfl hclear hlate) ((goLate_level b e).trans (begin_level i s))
      case takes => exact takes_of_keeps hr (hx s) hkeep (loadGlobal_ok rfl hclear hnow hload) ((deliver_level ..).trans hlevel)
      case writes => exact deliver_writes (dstCodes_nodup d n) (dstCodes_lt hr hn hu) _ _
      case device => exact takes_of_keeps hr (hx s) hkeep (loadGlobal_device rfl hclear hnow hload) ((deliver_level ..).trans hlevel)
    clear_value loads
    exact ⟨of_arm _ 1 false .other 1 0 (fun _ => rfl) rfl (.inl rfl), of_arm _ 1 true .other 1 0 (fun _ => rfl) rfl (.inl rfl),
      of_arm _ 2 false .other 1 0 (fun _ => rfl) rfl (.inl rfl), of_arm _ 2 true .other 1 0 (fun _ => rfl) rfl (.inl rfl),
      of_arm _ 4 false .ldW 1 0 (fun _ => rfl) rfl (.inl rfl), of_arm _ 8 false .ldD 2 0 (fun _ => rfl) rfl (.inr (.inl rfl)),
      of_arm _ 16 false .other 4 0 (fun _ => rfl) rfl (.inr (.inr rfl)), of_arm _ 4 false .other 1 0 (fun _ => rfl) rfl (.inl rfl),
      of_arm _ 4 false .other 1 e.toNat (fun _ => rfl) rfl (.inl rfl), of_arm _ 8 false .other 2 e.toNat (fun _ => rfl) rfl (.inr (.inl rfl))⟩
  case const =>
    intro loads h d a imm
    have of_arm : ∀ {i : Instr} {l : List Use} (at_ : State → Nat) (size n : Nat),
        (∀ s, exec i s = issue i s fun b => loadConst b (at_ b) size (dstCodes d n)) →
        i.info.uses = ⟨dstRole n, d⟩ :: l → (n = 1 ∨ n = 2 ∨ n = 4) → loads i at_ size (dstCodes d n) := by
      intro i l at_ size n hx hu hn s hr b core va a e haligned hrange hline hdevice
      have hclear : b.Clear a size := ⟨haligned, hrange, hline, hdevice⟩
      have hkeep := loadConst_keeps (Keeps.refl b) va size (dstCodes d n)
      have hnodup := dstCodes_nodup d n
      have hlt := dstCodes_lt hr hn hu
      refine ⟨fun hlate => ?late, fun b' bs hnow hload hlevel => ⟨?takes, ?writes⟩, fun l bs hnow hline hbs => ?held⟩
      case late => exact takes_of_keeps hr (hx s) hkeep (loadConst_late rfl hclear hlate) ((goLate_level b e).trans (begin_level i s))
      case takes => exact takes_of_keeps hr (hx s) hkeep (loadConst_ok rfl hclear hnow hload) ((deliver_level ..).trans hlevel)
      case writes => exact deliver_writes hnodup hlt _ _
      case held =>
        obtain ⟨b', hload, hb'⟩ : ∃ b', b.ldc core a size = .ok b' bs ∧ Unmoved b b' := by
          rcases hline with ⟨hcore, hl⟩ | ⟨hcore, hexp, hl, hldc, hrok, hpoison⟩
          · exact ⟨b, ldc_quad_hit hcore hl hbs, Unmoved.refl b⟩
          · exact ⟨_, ldc_host_hit hcore hexp hl hldc hrok hpoison hbs, (count_unmoved ..).trans (unmoved_of rfl rfl)⟩
        have hu := ((begin_unmoved i s).trans hb').trans (gather_unmoved b' (b'.physLine core a.sp va))
        exact (takes_of_keeps hr (hx s) hkeep (loadConst_ok rfl hclear hnow hload) ((deliver_level ..).trans hu.level)).of_deliver
          hnodup hlt hu
    clear_value loads
    exact ⟨of_arm _ 4 1 (fun _ => rfl) rfl (.inl rfl), of_arm _ 16 4 (fun _ => rfl) rfl (.inr (.inr rfl))⟩

end Sys2Proof.Machine
end

section
/-! SUPPORT. The phase rule of the barrier objects (R150). -/

namespace Sys2Proof.Machine

/-- A number is 1 to 2^31 ahead of another, modulo 2^32, where the difference says so. -/
theorem ahead_iff (x p : Word) :
    (1 ≤ (x - p).toNat ∧ (x - p).toNat ≤ 2 ^ 31) ↔ ∃ k : Nat, 1 ≤ k ∧ k ≤ 2 ^ 31 ∧ x = p + .ofNat 32 k := by
  constructor
  · rintro ⟨hlow, hhigh⟩
    refine ⟨(x - p).toNat, hlow, hhigh, ?_⟩
    rw [BitVec.ofNat_toNat, BitVec.setWidth_eq, BitVec.add_comm, BitVec.sub_add_cancel]
  · rintro ⟨k, hlow, hhigh, rfl⟩
    have hk : (p + .ofNat 32 k - p).toNat = k := by
      rw [BitVec.add_comm, BitVec.add_sub_cancel, BitVec.toNat_ofNat]
      omega
    exact hk.symm ▸ ⟨hlow, hhigh⟩

/-- Settles O26: the check completes a phase exactly where nothing is pending on a valid object, and a phase is complete by its distance. -/
theorem phaseRule : Obligations.PhaseRule := by
  unfold Obligations.PhaseRule
  refine ⟨fun b hv ha hb => by simp [BarObj.check, hv, ha, hb], fun b h => ?_, fun b p => ?_⟩
  · have hnot : (b.valid && b.arrivePend = 0 && b.bytesPend = 0) = false := by
      rcases h with h | h | h <;> simp [h]
    simp only [BarObj.check, hnot, Bool.false_eq_true, if_false]
  · rw [← ahead_iff]
    simp [BarObj.complete]

end Sys2Proof.Machine
end

section
/-! SUPPORT. The events of the memory system (R129, R139, R143, R298, R310, R316, R322, R369-R371): the condition and the effect of each. -/

namespace Sys2Proof.Machine

/-! What an agent's arm runs -/

theorem exec_lineLeaseExpiry (core line : Nat) (s : State) : exec (.lineLeaseExpiry core line) s = execLineLeaseExpiry core line s := rfl

theorem exec_epochRollover (core : Nat) (s : State) : exec (.epochRollover core) s = execEpochRollover core s := rfl

theorem exec_writeBack (core line : Nat) (s : State) : exec (.writeBack core line) s = execWriteBack core line s := rfl

theorem exec_l1Fill (core : Nat) (sp : Space) (va : BitVec 64) (s : State) : exec (.l1Fill core sp va) s = execL1Fill core sp va s := rfl

theorem exec_counterGrant (pa : Nat) (s : State) : exec (.counterGrant pa) s = execCounterGrant pa s := rfl

theorem exec_pageTableWalk (sp : Space) (va : BitVec 64) (kind : AccessKind) (s : State) :
    exec (.pageTableWalk sp va kind) s = execPageTableWalk sp va kind s := rfl

theorem exec_faultRecordWrite (ring : Nat) (s : State) : exec (.faultRecordWrite ring) s = execFaultRecordWrite ring s := rfl

theorem exec_operandLogReplay (n : Nat) (s : State) : exec (.operandLogReplay n) s = execOperandLogReplay n s := rfl

theorem exec_atomicUnitServe (slice bank : Nat) (s : State) : exec (.atomicUnitServe slice bank) s = execAtomicUnitServe slice bank s := rfl

/-! Acting for the thread that is current -/

theorem thread?_cur (s : State) : s.thread? s.cur = some s.th := by
  simp [State.thread?]

theorem onThread_cur (s : State) (f : State → State) : s.onThread s.cur f = f s := if_pos rfl

/-! Lines -/

/-- A fill takes place for a line that is not whole, in a space that a thread of the core uses, where its translation and its port let it (R32). -/
theorem l1Fill_occurs {core : Nat} {sp : Space} {va : BitVec 64} {s r s₁ s₂ : State} {t : Tlb} {x : Line} (hr : s.expireLeases = r)
    (hpart : ∀ l, r.findLine core sp va.toNat = some l → l.bytes.length ≠ 128 ∧ l.expired r.ns = false) (hva : va.toNat < 12 * 2 ^ 52)
    (huses : (r.allThreads.any fun p => r.coreIx p.1 = core && r.space p.1 = sp) = true)
    (htr : translate r { sp := sp, va := va.toNat, kind := .read } = .ok (s₁, t)) (hmt : t.mt = 0)
    (hport : s₁.portBlocked core (t.at va.toNat / 128) = false)
    (hfill : s₁.fillWhole core { sp := sp, va := va.toNat, kind := .read } t = .ok (s₂, x)) : Occurs (.l1Fill core sp va) s s₂ := by
  subst hr
  refine occurs_of (exec_l1Fill core sp va s) ?_
  have hwf := wellFormedVa_of_lt hva
  cases hl : s.expireLeases.findLine core sp va.toNat with
  | none => simp only [hl, hwf, huses, htr, hmt, hport, hfill, Bool.not_true, Bool.or_self, Bool.false_eq_true, ne_eq, not_true_eq_false,
      decide_false, if_false]
  | some l =>
    obtain ⟨hlen, hexp⟩ := hpart l hl
    simp only [hl, hlen, hexp, hwf, huses, htr, hmt, hport, hfill, Bool.not_true, Bool.or_self, Bool.false_eq_true, ne_eq,
      not_true_eq_false, decide_false, if_false]

/-- A write under a fresh grant, where no scrub comes before it (R362). -/
theorem landLine_of_not_discarded {s : State} {line : Nat} (h : (s.pot (line / 64)).state ≠ .discarded) (bytes : List (Nat × Byte)) :
    s.landLine line bytes = (bytes.foldl (fun s p => s.poke p.1 p.2) (s.grant line)).inject (· = line) := by
  rw [State.landLine, State.firstWrite, if_neg h]

/-! Records, replays and the atomic units -/

/-- The oldest record of the ring whose turn it is enters it, while it has room and its two writes can be made (R322). -/
theorem faultRecordWrite_occurs {ring left : Nat} {s : State} {q : Queued} {x : Rcb} (hq : s.records.find? (fun r => r.ring == ring) = some q)
    (hx : s.ring ring = some x) (hturn : s.nextRing = some (ring, left))
    (hslot : s.lineHeldAt ((x.base + 32 * (x.tail % 2 ^ x.log2n)) / 128) = false) (htail : s.lineHeldAt (x.addr / 128) = false)
    (hslotok : s.writeFails ((x.base + 32 * (x.tail % 2 ^ x.log2n)) / 64) = false) (htailok : s.writeFails (x.addr / 64) = false) :
    Occurs (.faultRecordWrite ring) s (State.writeRecord { s with ringNow := some (ring, left) } x q) := by
  refine occurs_of (exec_faultRecordWrite ring s) ?_
  simp only [hq, hx, hturn, hslot, htail, hslotok, htailok, ne_eq, not_true_eq_false, decide_false, Bool.or_self, Bool.false_eq_true, if_false]

/-- An answered entry of the current thread, the oldest of the thread that has a record, replays and is no longer outstanding (R316). -/
theorem operandLogReplay_occurs {n : Nat} {e : LogEntry} {s s₁ : State} (he : s.log.find? (fun x => x.num == n) = some e) (hready : e.ready = true)
    (hfirst : e.link = 0 ∨ (s.log.any fun x => x.tid = e.tid && x.link ≠ 0 && x.num < n) = false) (hcur : e.tid = s.cur)
    (hdone : replay s e = .done s₁) : Occurs (.operandLogReplay n) s (s₁.unlog n) := by
  refine occurs_of (exec_operandLogReplay n s) ?_
  have hnum : e.num = n := by simpa using List.find?_some he
  have hwaits : (e.link ≠ 0 && s.log.any fun x => x.tid = e.tid && x.link ≠ 0 && x.num < n) = false := by
    rcases hfirst with h | h
    · simp [h]
    · rw [h, Bool.and_false]
  have hentry : s.onThread e.tid (fun s => s.replayEntry e) = s₁.unlog n := by
    rw [hcur, onThread_cur, State.replayEntry, hdone, hnum]
  have hthread : (s.thread? e.tid).isNone = false := by rw [hcur, thread?_cur]; rfl
  simp only [he, hready, hwaits, hthread, hentry, Bool.not_true, Bool.or_self, Bool.false_eq_true, if_false]

/-- An atomic unit serves a request of the current thread that is alone in its hold: the atomic is made, and its result delivered (R139, R298). -/
theorem atomicUnitServe_occurs {slice bank : Nat} {r : AtomReq} {s s₁ : State} {old : Word} (hr : s.nextAtomic slice bank = some r)
    (halone : s.sameHold r = [r]) (hcur : r.tid = s.cur)
    (hnow : atomicNow { s with atomQ := s.atomQ.filter (·.num ≠ r.num) } r.core { sp := r.sp, va := r.va, kind := .atomic } r.op r.b r.c
      = .ok s₁ old) : Occurs (.atomicUnitServe slice bank) s
      ((((s₁.gather (s₁.physLine r.core r.sp r.va)).carryWith r.sig r.core r.sp r.va).deliver r.dst [old]).unlog r.num).freshen := by
  refine occurs_of (exec_atomicUnitServe slice bank s) ?_
  have hthread : (s.thread? r.tid).isNone = false := by rw [hcur, thread?_cur]; rfl
  simp only [hr, hthread, Bool.false_eq_true, if_false, halone, State.holdOrder, List.foldl_cons, List.foldl_nil]
  rw [hcur, onThread_cur]
  simp only [State.serve, hnow]

/-- Settles O43: each event by the condition and the effect of its arm. -/
theorem memoryEvents : Obligations.MemoryEvents := by
  unfold Obligations.MemoryEvents
  refine ⟨fun core line s h => occurs_of (exec_lineLeaseExpiry core line s) (if_pos h),
    fun core s h => occurs_of (exec_epochRollover core s) (if_pos h),
    fun core line s h => occurs_of (exec_writeBack core line s) (if_pos h),
    fun core sp va s s₁ t s₂ x hpart hva huses htr hmt hport hfill => l1Fill_occurs rfl hpart hva huses htr hmt hport hfill,
    fun pa s => ⟨fun l hl => occurs_of (exec_counterGrant pa s) ?grant, fun hnone => ?nogrant⟩,
    fun s line bytes h => landLine_of_not_discarded h bytes,
    fun sp va kind s s₁ t hva hwalk => occurs_of (exec_pageTableWalk sp va kind s) ?walk,
    fun ring left q x s hq hx hturn hroom hslot htail hslotok htailok => faultRecordWrite_occurs hq hx hturn hslot htail hslotok htailok,
    fun n e s s₁ he hready hfirst hcur hdone => operandLogReplay_occurs he hready hfirst hcur hdone,
    fun slice bank r s s₁ old hr halone hcur hnow => atomicUnitServe_occurs hr halone hcur hnow⟩
  case grant =>
    simp only [hl]
  case nogrant =>
    simp only [exec_counterGrant, execCounterGrant, hnone, agent]
  case walk => simp only [wellFormedVa_of_lt hva, hwalk, Bool.not_true, Bool.false_eq_true, if_false]

end Sys2Proof.Machine
end

section
/-! SUPPORT. The barrier words and WPTR (R145, R151, R152, R421): what each check of a handle leaves, and what each word comes to. -/

namespace Sys2Proof.Machine

/-- A word whose effect leads to a state that keeps what every effect keeps. -/
theorem takes_of_kept {i : Instr} {s u : State} {k : State → Res} (h : Runs i s) (hx : exec i s = issue i s k)
    (hk : k (begin_ i s) = .ok u) (hkeep : Keeps (begin_ i s) u) (hl : u.th.level = s.th.level) : Takes i s u :=
  takes_of h hx hk (hkeep.chain (begin_chain h)) hl

/-! What the operations on an object leave of the thread -/

@[simp] theorem modStore_th (s : State) (o : Owner) (f : Store → Store) : (s.modStore o f).th = s.th := by
  cases o with
  | host n => exact State.modHost_th ..
  | team t => exact State.modTeam_th ..

@[simp] theorem modStore_mem (s : State) (o : Owner) (f : Store → Store) : (s.modStore o f).mem = s.mem := by
  cases o with
  | host n => exact State.modHost_mem ..
  | team t => exact State.modTeam_mem ..

@[simp] theorem setBar_th (s : State) (r : BarRef) (b : BarObj) : (s.setBar r b).th = s.th := by
  cases r with
  | own o n => exact modStore_th ..
  | ctx e n => exact State.modEncl_th ..

theorem postTo_level (s : State) (d : Opnd) (v : Word) : (s.postTo d v).th.level = s.th.level := (postTo_touched s d v 0).level_eq

theorem postPred_level (s : State) (n : Nat) (v : Bool) : (s.postPred n v).th.level = s.th.level := by
  unfold State.postPred
  split
  · rfl
  · exact (post_touched ..).level_eq

theorem postPred_mem (s : State) (n : Nat) (v : Bool) : (s.postPred n v).mem = s.mem := by
  unfold State.postPred
  split <;> rfl

theorem postPred_gathered (s : State) (n : Nat) (v : Bool) : (s.postPred n v).th.gathered = s.th.gathered := by
  unfold State.postPred
  split <;> rfl

theorem postPred_final (s : State) (p : BitVec 3) (v : Bool) (c : Nat) : (s.postPred p.toNat v).final c = s.final c := by
  unfold State.postPred
  split
  · rfl
  · rw [post_final, if_neg (by omega)]

theorem postPred_finalPred (s : State) (p : BitVec 3) (v : Bool) (n : Nat) :
    (s.postPred p.toNat v).finalPred n = if p ≠ 0 ∧ n = p.toNat then v else s.finalPred n := by
  unfold State.postPred
  by_cases hp : p = 0
  · simp [hp]
  · have h0 : p.toNat ≠ 0 := by simpa [← BitVec.toNat_inj] using hp
    rw [if_neg h0, post_finalPred]
    cases v <;> rfl

/-! Signatures (R143, R145) -/

theorem barGather_unmoved (s : State) (r : BarRef) : Unmoved s (s.barGather r) :=
  (unmoved_signs (s.th.gathered ||| s.barSig (s.bar r)) s.th.pending).trans (unmoved_of rfl rfl)

theorem barGather_gathered (s : State) (r : BarRef) : (s.barGather r).th.gathered = s.th.gathered ||| s.barSig (s.bar r) := rfl

theorem begin_gathered (i : Instr) (s : State) : (begin_ i s).th.gathered = s.th.gathered := by rw [begin_th]

/-! What an object's check answers (R149, R151) -/

theorem arrivable_of_own {s : State} {x : Word} {r : BarRef} (h : s.handle (ownerOf s.cur) (s.space s.cur).eid.toNat x = some (r, true)) :
    s.arrivable x = some r := by simp [State.arrivable, h]

theorem waitable_of_own {s : State} {x : Word} {r : BarRef} (h : s.handle (ownerOf s.cur) (s.space s.cur).eid.toNat x = some (r, true)) :
    s.waitable x = some r := by simp [State.waitable, h]

/-! The words -/

/-- The CV bit of the object that BARINIT starts: an enclave's object has none (R149). -/
def startCv (y : Word) : BarRef → Bool
  | .own _ _ => y.getLsbD 16
  | .ctx _ _ => false

/-- The dependence check of an object of a context (R346); a thread's own object has none. -/
def State.depCheckOf (s : State) : BarRef → State
  | .ctx e k => s.depCheck e k
  | .own _ _ => s

theorem depCheckOf_level (s : State) (r : BarRef) : (s.depCheckOf r).th.level = s.th.level := by
  cases r with
  | own o n => rfl
  | ctx e n =>
    dsimp only [State.depCheckOf]
    unfold State.depCheck
    split <;> rfl

theorem depCheckOf_keeps {z s : State} (h : Keeps z s) (r : BarRef) : Keeps z (s.depCheckOf r) := by
  cases r with
  | own o n => exact h
  | ctx e n => exact State.depCheck_keeps h e n

section Words
variable {hd : Hdr} {d a c : Opnd} {p : BitVec 3} {s b : State} {r : BarRef}

theorem exec_barinit : exec (.barinit hd a c) s = execBarinit hd a c s := rfl
theorem exec_barxb : exec (.barxb hd a c) s = execBarxb hd a c s := rfl
theorem exec_bararv : exec (.bararv hd d a) s = execBararv hd d a s := rfl
theorem exec_bararvx : exec (.bararvx hd d a c) s = execBararvx hd d a c s := rfl
theorem exec_barwait : exec (.barwait hd a c) s = execBarwait hd a c s := rfl
theorem exec_bartst : exec (.bartst hd p a c) s = execBartst hd p a c s := rfl
theorem exec_barinv : exec (.barinv hd a) s = execBarinv hd a s := rfl
theorem exec_wptr : exec (.wptr hd d a) s = execWptr hd d a s := rfl

/-- BARINIT starts an absent object, or one that holds poison. -/
theorem barinit_takes (hr : Runs (.barinit hd a c) s) (hb : begin_ (.barinit hd a c) s = b) {m : Bool}
    (hname : b.handle (ownerOf b.cur) (b.space b.cur).eid.toNat (b.src hd 1 a) = some (r, m))
    (habsent : (b.bar r).valid = false ∨ (b.bar r).poison = true) (hn : (b.src hd 2 c).toNat % 65536 ≠ 0) :
    Takes (.barinit hd a c) s (b.setBar r { b.bar r with
      cv := startCv (b.src hd 2 c) r, valid := true, arriveExp := (b.src hd 2 c).toNat % 65536
      arrivePend := (b.src hd 2 c).toNat % 65536, bytesPend := 0, phase := 0, poison := false }) := by
  subst hb
  refine takes_of_kept hr exec_barinit ?_ (State.setBar_keeps (Keeps.refl _) ..) ?_
  · have hfree : (((begin_ (.barinit hd a c) s).bar r).valid && !((begin_ (.barinit hd a c) s).bar r).poison) = false := by
      rcases habsent with h | h <;> simp [h]
    simp only [hname, hfree, Nat.reducePow, hn, decide_false, Bool.or_self, Bool.false_eq_true, if_false]
    cases r <;> rfl
  · rw [setBar_th, begin_level]

theorem barxb_takes (hr : Runs (.barxb hd a c) s) (hb : begin_ (.barxb hd a c) s = b) {m : Bool}
    (hname : b.handle (ownerOf b.cur) (b.space b.cur).eid.toNat (b.src hd 1 a) = some (r, m)) (hpoison : (b.bar r).poison = false)
    (hvalid : (b.bar r).valid = true) (hmax : (b.bar r).bytesPend + (b.src hd 2 c).toNat ≤ 2 ^ 31 - 1)
    (hl : (b.barDone r { b.bar r with bytesPend := (b.bar r).bytesPend + (b.src hd 2 c).toNat }).th.level = s.th.level) :
    Takes (.barxb hd a c) s (b.barDone r { b.bar r with bytesPend := (b.bar r).bytesPend + (b.src hd 2 c).toNat }) := by
  subst hb
  refine takes_of_kept hr exec_barxb ?_ (State.barDone_keeps (Keeps.refl _) ..) hl
  simp only [hname, hpoison, hvalid, Int.not_lt.2 hmax, decide_false, Bool.not_true, Bool.or_self, Bool.false_eq_true, if_false]

theorem bararv_takes (hr : Runs (.bararv hd d a) s) (hb : begin_ (.bararv hd d a) s = b) (hat : b.arrivable (b.src hd 1 a) = some r)
    (hpoison : (b.bar r).poison = false) (hvalid : (b.bar r).valid = true) (hpend : (b.bar r).arrivePend ≠ 0) (hnow : b.storesWait = false)
    (hl : (b.arrive r (b.bar r)).th.level = s.th.level) :
    Takes (.bararv hd d a) s ((b.arrive r (b.bar r)).postTo d (b.bar r).phase) := by
  subst hb
  refine takes_of_kept hr exec_bararv ?_ (State.postTo_keeps (State.arrive_keeps (Keeps.refl _) ..) ..) ((postTo_level ..).trans hl)
  simp only [hat, hpoison, hvalid, hpend, hnow, decide_false, Bool.not_true, Bool.or_self, Bool.false_eq_true, if_false]

theorem bararvx_takes (hr : Runs (.bararvx hd d a c) s) (hb : begin_ (.bararvx hd d a c) s = b) (hat : b.arrivable (b.src hd 1 a) = some r)
    (hpoison : (b.bar r).poison = false) (hvalid : (b.bar r).valid = true) (hpend : (b.bar r).arrivePend ≠ 0)
    (hmax : (b.bar r).bytesPend + (b.src hd 2 c).toNat ≤ 2 ^ 31 - 1) (hnow : b.storesWait = false)
    (hl : (b.arrive r { b.bar r with bytesPend := (b.bar r).bytesPend + (b.src hd 2 c).toNat }).th.level = s.th.level) :
    Takes (.bararvx hd d a c) s
      ((b.arrive r { b.bar r with bytesPend := (b.bar r).bytesPend + (b.src hd 2 c).toNat }).postTo d (b.bar r).phase) := by
  subst hb
  refine takes_of_kept hr exec_bararvx ?_ (State.postTo_keeps (State.arrive_keeps (Keeps.refl _) ..) ..) ((postTo_level ..).trans hl)
  simp only [hat, hpoison, hvalid, hpend, hnow, Int.not_lt.2 hmax, decide_false, Bool.not_true, Bool.or_self, Bool.false_eq_true, if_false]

/-- BARWAIT goes on where the phase is complete. -/
theorem barwait_takes_complete (hr : Runs (.barwait hd a c) s) (hb : begin_ (.barwait hd a c) s = b)
    (hat : b.waitable (b.src hd 1 a) = some r) (hpoison : (b.bar r).poison = false) (hvalid : (b.bar r).valid = true)
    (hdone : (b.bar r).complete (b.src hd 2 c) = true) (hl : (b.barAcquire r).th.level = s.th.level) :
    Takes (.barwait hd a c) s (b.barAcquire r) := by
  subst hb
  refine takes_of_kept hr exec_barwait ?_ (State.barAcquire_keeps (Keeps.refl _) ..) hl
  simp only [hat, hpoison, hvalid, hdone, Bool.not_true, Bool.false_eq_true, if_false, if_true]

/-- BARWAIT waits where the phase is not complete, with the l registers void. -/
theorem barwait_takes_waiting (hr : Runs (.barwait hd a c) s) (hb : begin_ (.barwait hd a c) s = b)
    (hat : b.waitable (b.src hd 1 a) = some r) (hpoison : (b.bar r).poison = false) (hvalid : (b.bar r).valid = true)
    (hdone : (b.bar r).complete (b.src hd 2 c) = false) :
    Takes (.barwait hd a c) s { b.voidL with th := { b.voidL.th with
      wait := .barrier r (b.src hd 2 c) s.th.w ((b.src hd 1 a).setWidth 64) } } := by
  subst hb
  have hw : (begin_ (.barwait hd a c) s).voidL.th.w = s.th.w := by rw [voidL_th, begin_th]; rfl
  refine takes_of hr exec_barwait ?_ ((voidL_chain _).trans (begin_chain hr)) ?_
  · simp only [hat, hpoison, hvalid, hdone, hw, barTval, Bool.not_true, Bool.false_eq_true, if_false]
  · simp only [voidL_th, Thread.voidL_level, begin_level]

theorem bartst_takes_complete (hr : Runs (.bartst hd p a c) s) (hb : begin_ (.bartst hd p a c) s = b)
    (hat : b.waitable (b.src hd 1 a) = some r) (hpoison : (b.bar r).poison = false) (hvalid : (b.bar r).valid = true)
    (hdone : (b.bar r).complete (b.src hd 2 c) = true) (hl : (b.barAcquire r).th.level = s.th.level) :
    Takes (.bartst hd p a c) s ((b.barAcquire r).postPred p.toNat true) := by
  subst hb
  refine takes_of_kept hr exec_bartst ?_ (State.postPred_keeps (State.barAcquire_keeps (Keeps.refl _) ..) ..) ((postPred_level ..).trans hl)
  simp only [hat, hpoison, hvalid, hdone, Bool.not_true, Bool.false_eq_true, if_false, if_true]

theorem bartst_takes_incomplete (hr : Runs (.bartst hd p a c) s) (hb : begin_ (.bartst hd p a c) s = b)
    (hat : b.waitable (b.src hd 1 a) = some r) (hpoison : (b.bar r).poison = false) (hvalid : (b.bar r).valid = true)
    (hdone : (b.bar r).complete (b.src hd 2 c) = false) :
    Takes (.bartst hd p a c) s ((b.barGather r).postPred p.toNat false) := by
  subst hb
  refine takes_of_kept hr exec_bartst ?_ (State.postPred_keeps (State.barGather_keeps (Keeps.refl _) ..) ..) ?_
  · simp only [hat, hpoison, hvalid, hdone, Bool.not_true, Bool.false_eq_true, if_false]
  · rw [postPred_level, (barGather_unmoved _ r).level, begin_level]

/-- What a BARTST of a phase that is not complete leaves: a false predicate and the object's signature gathered, and nothing else. -/
theorem bartst_incomplete_leaves (hb : begin_ (.bartst hd p a c) s = b) {u : State} (hu : u = (b.barGather r).postPred p.toNat false) :
    u.th.gathered = s.th.gathered ||| b.barSig (b.bar r) ∧ (p ≠ 0 → u.finalPred p.toNat = false)
      ∧ (∀ n, n ≠ p.toNat → u.finalPred n = s.finalPred n) ∧ (∀ x, u.final x = s.final x) ∧ ∀ x, u.byte x = s.byte x := by
  subst hb hu
  obtain ⟨-, ⟨-, hregs, hpreds, -⟩, hmem⟩ := (begin_unmoved (.bartst hd p a c) s).trans (barGather_unmoved _ r)
  refine ⟨?_, fun hp => ?_, fun n hn => ?_, fun x => ?_, fun x => ?_⟩
  · rw [postPred_gathered, barGather_gathered, begin_gathered]
  · rw [postPred_finalPred, if_pos ⟨hp, rfl⟩]
  · rw [postPred_finalPred, if_neg fun h => hn h.2, hpreds]
  · rw [postPred_final]
    exact hregs x (by simp)
  · rw [State.byte, postPred_mem, hmem, State.byte]

theorem barinv_takes (hr : Runs (.barinv hd a) s) (hb : begin_ (.barinv hd a) s = b) {m : Bool}
    (hname : b.handle (ownerOf b.cur) (b.space b.cur).eid.toNat (b.src hd 1 a) = some (r, m)) (hpoison : (b.bar r).poison = false)
    (hvalid : (b.bar r).valid = true) {u : State} (hu : (b.setBar r { b.bar r with valid := false }).faultWaiters r = u)
    (hl : u.th.level = s.th.level) : Takes (.barinv hd a) s (u.depCheckOf r) := by
  subst hb hu
  refine takes_of_kept hr exec_barinv ?_ (depCheckOf_keeps (State.faultWaiters_keeps (State.setBar_keeps (Keeps.refl _) ..) r) r)
    ((depCheckOf_level ..).trans hl)
  simp only [hname, hpoison, hvalid, Bool.not_true, Bool.false_eq_true, if_false]
  cases r <;> rfl

end Words

/-- A word that finds poison in the object that it names traps with INTEG (R421). -/
theorem barrier_poison_traps {i : Instr} {s b : State} {k : State → Res} {x : Word} (hr : Runs i s) (hlate : s.lateOut = false)
    (hx : exec i s = issue i s k) (hb : begin_ i s = b) (hk : k b = .trap .integ (barTval x) b) :
    exec i s = .next (b.freshen.takeTrap .integ (x.setWidth 64) s.th.w) := by
  subst hb
  rw [hx, issue_traps k hr hlate hk]
  rfl

/-- Settles O25: each word by the checks that its object passes. -/
theorem barriers : Obligations.Barriers := by
  unfold Obligations.Barriers
  intro named
  refine ⟨fun h a c s hr r m hname habsent hn => ?start,
    fun h a c s hr r m hname hpoison hvalid hmax hl => barxb_takes hr rfl hname hpoison hvalid hmax hl,
    fun h d a s hr r hat hpoison hvalid hpend hnow hl =>
      ⟨bararv_takes hr rfl hat hpoison hvalid hpend hnow hl, postTo_writes ..⟩,
    fun h d a c s hr r hat hpoison hvalid hpend hmax hnow hl => bararvx_takes hr rfl hat hpoison hvalid hpend hmax hnow hl,
    fun h a c s hr r hat hpoison hvalid => ⟨barwait_takes_complete hr rfl hat hpoison hvalid, barwait_takes_waiting hr rfl hat hpoison hvalid⟩,
    fun h p a c s hr r hat hpoison hvalid => ⟨bartst_takes_complete hr rfl hat hpoison hvalid,
      fun hdone => ⟨bartst_takes_incomplete hr rfl hat hpoison hvalid hdone, bartst_incomplete_leaves rfl rfl⟩⟩,
    fun h a s hr r m hname hpoison hvalid hl => ?done, ?poison, ?wptr⟩
  case start =>
    have h := barinit_takes hr rfl hname habsent hn
    cases r <;> exact h
  case done =>
    have h := barinv_takes hr rfl hname hpoison hvalid rfl hl
    cases r <;> exact h
  case poison =>
    intro h p d a c s
    simp only [List.forall_mem_cons, List.not_mem_nil, false_implies, implies_true, and_true]
    refine ⟨fun hr hlate r hname hpoison => barrier_poison_traps hr hlate exec_barxb rfl ?_,
      fun hr hlate r hname hpoison => barrier_poison_traps hr hlate exec_bararv rfl ?_,
      fun hr hlate r hname hpoison => barrier_poison_traps hr hlate exec_bararvx rfl ?_,
      fun hr hlate r hname hpoison => barrier_poison_traps hr hlate exec_barwait rfl ?_,
      fun hr hlate r hname hpoison => barrier_poison_traps hr hlate exec_bartst rfl ?_,
      fun hr hlate r hname hpoison => barrier_poison_traps hr hlate exec_barinv rfl ?_⟩
    · simp only [named] at hname
      simp only [hname, hpoison, if_true]
    · simp only [arrivable_of_own hname, hpoison, if_true]
    · simp only [arrivable_of_own hname, hpoison, if_true]
    · simp only [waitable_of_own hname, hpoison, if_true]
    · simp only [waitable_of_own hname, hpoison, if_true]
    · simp only [named] at hname
      simp only [hname, hpoison, if_true]
  case wptr => exact fun h d a s hr => gives_postTo hr exec_wptr rfl

end Sys2Proof.Machine
end

section
/-! SUPPORT. Prefetch, cache maintenance and fences (R135, R136, R141-R147). -/

namespace Sys2Proof.Machine

/-! Lines without dirty bytes -/

/-- A line without dirty bytes leaves nothing to write back. -/
theorem writeBackLine_of_clean (s : State) {l : Line} (h : l.dirty = []) : s.writeBackLine l = s := by
  simp [State.writeBackLine, State.landDirty, h]

theorem foldl_writeBackLine_of_clean {ls : List Line} (h : ∀ l ∈ ls, l.dirty = []) (s : State) :
    ls.foldl (fun s l => s.writeBackLine l) s = s := by
  induction ls with
  | nil => rfl
  | cons l ls ih =>
    rw [List.foldl_cons, writeBackLine_of_clean s (h l List.mem_cons_self)]
    exact ih fun x hx => h x (List.mem_cons_of_mem l hx)

/-- Lines without dirty bytes are dropped, and nothing else changes. -/
theorem evictLines_of_clean {s : State} {p : Line → Bool} (h : ∀ l ∈ s.lines, p l = true → l.dirty = []) :
    s.evictLines p = { s with lines := s.lines.filter fun l => !p l } := by
  refine foldl_writeBackLine_of_clean (fun l hl => ?_) _
  obtain ⟨hl, hp⟩ := List.mem_filter.1 hl
  exact h l hl hp

/-! Fences (R141, R143, R145) -/

/-- The state with other fences outstanding. -/
def State.withFences (s : State) (l : List Fencing) : State := { s with th := { s.th with fences := l } }

theorem withFences_space (s : State) (l : List Fencing) : (s.withFences l).space s.cur = s.space s.cur := by
  have hthread : (s.withFences l).thread? s.cur = some (s.withFences l).th := thread?_cur (s.withFences l)
  have hthread' := thread?_cur s
  cases hcur : s.cur with
  | simt t k => rfl
  | host n =>
    rw [hcur] at hthread hthread'
    simp only [State.space, hthread, hthread']
    rfl

theorem withFences_meetsHold (s : State) (l : List Fencing) (kind scope : Nat) (cp : Bool) :
    (s.withFences l).fenceMeetsHold kind scope cp = s.fenceMeetsHold kind scope cp := by
  have hspace := withFences_space s l
  unfold State.fenceMeetsHold
  rw [show (s.withFences l).space (s.withFences l).cur = s.space s.cur from hspace]
  rfl

/-- A fence of a thread with no fence outstanding completes at once where nothing holds it. -/
theorem orderBy_now {s : State} {f : Fencing} (hnone : s.th.fences = []) (hheld : s.fenceHeld = false)
    (hmeets : s.fenceMeetsHold f.kind f.scope f.cp = false) : s.orderBy f = s.fence f.kind f.scope f.cp := by
  have hback : (s.withFences [f]).withFences [] = s := by
    change s.withFences [] = s
    rw [← hnone]
    rfl
  have horder : s.orderBy f = completeList [f] (s.withFences [f]) := by
    simp only [State.orderBy, State.completeFences, hnone, List.nil_append]
    rfl
  have hheld' : (s.withFences [f]).fenceHeld = false := hheld
  rw [horder, completeList, hheld', withFences_meetsHold, hmeets]
  exact congrArg (fun t : State => t.fence f.kind f.scope f.cp) hback

/-- No fence completes while an earlier access of the thread has not returned. -/
theorem completeList_held {s : State} (h : s.fenceHeld = true) (l : List Fencing) : completeList l s = s := by
  cases l with
  | nil => rfl
  | cons f l => simp only [completeList, h, Bool.true_or, if_true]

theorem orderBy_held {s : State} {f : Fencing} (h : s.fenceHeld = true) :
    s.orderBy f = { s with th := { s.th with fences := s.th.fences ++ [f] } } :=
  completeList_held (s := s.withFences (s.th.fences ++ [f])) h _

theorem release_pending (s : State) {e : Nat} (h : 1 < e) : (s.release e).th.pending.isSome = true := by
  simp only [State.release, Nat.not_le.2 h, if_false, Option.isSome_some]

/-! The words -/

section Words
variable {hd : Hdr} {a : Opnd} {imm : BitVec 7} {s b : State}

theorem exec_cwb : exec (.cwb hd a) s = execCwb hd a s := rfl
theorem exec_cinv : exec (.cinv hd a) s = execCinv hd a s := rfl
theorem exec_cwbiAll : exec (.cwbiAll hd) s = execCwbiAll hd s := rfl
theorem exec_fence (x : Bool) (e : BitVec 3) (k : BitVec 2) : exec (.fence hd x e k) s = execFence hd x e k s := rfl
theorem exec_prf : exec (.prf hd a imm) s = execPrf hd a imm s := rfl

variable {ac : Access} (hr : Runs (.prf hd a imm) s) (hb : begin_ (.prf hd a imm) s = b)
  (hac : ac = { sp := b.space b.cur, va := b.va a (imm.toInt * 128), kind := .read }) (hexp : (b.lines.any fun l => l.expired b.ns) = false)
include hr hb hac hexp

/-- A prefetch of an address beyond slice 11 does nothing. -/
theorem prf_takes_beyond (hva : 12 * 2 ^ 52 ≤ ac.va) : Takes (.prf hd a imm) s b := by
  subst hb hac
  have hwf : wellFormedVa ((begin_ (.prf hd a imm) s).va a (imm.toInt * 128)) = false := decide_eq_false (Nat.not_lt.2 hva)
  refine takes_of_kept hr exec_prf ?_ (Keeps.refl _) (begin_level ..)
  simp only [expireLeases_of_none hexp, hwf, Bool.not_false, Bool.true_or, if_true]

/-- A prefetch of a page that does not translate does nothing. -/
theorem prf_takes_untranslated {f : TFault} (htr : translate b ac = .error f) : Takes (.prf hd a imm) s b := by
  subst hb hac
  refine takes_of_kept hr exec_prf ?_ (Keeps.refl _) (begin_level ..)
  simp only [expireLeases_of_none hexp, htr, ite_self]

/-- A prefetch of a cached page fills its line. -/
theorem prf_takes_fill {s₁ s₂ : State} {t : Tlb} {l : Line} (hva : ac.va < 12 * 2 ^ 52) (htr : translate b ac = .ok (s₁, t)) (hmt : t.mt = 0)
    (hfill : s₁.fillWhole (b.coreIx b.cur) ac t = .ok (s₂, l)) (hl : s₂.th.level = s.th.level) : Takes (.prf hd a imm) s s₂ := by
  subst hb hac
  have hlease : ((begin_ (.prf hd a imm) s).findLine ((begin_ (.prf hd a imm) s).coreIx (begin_ (.prf hd a imm) s).cur)
      ((begin_ (.prf hd a imm) s).space (begin_ (.prf hd a imm) s).cur) ((begin_ (.prf hd a imm) s).va a (imm.toInt * 128))).any
        (·.expired (begin_ (.prf hd a imm) s).ns) = false := 
    (Option.any_eq_false _ _).2 fun x hx => expired_of_findLine hexp hx
  refine takes_of_kept hr exec_prf ?_ (ExKeeps.of hfill (State.fillWhole_keeps (ExKeeps.of htr (translate_keeps (Keeps.refl _) _)) ..)) hl
  simp only [expireLeases_of_none hexp, wellFormedVa_of_lt hva, hlease, htr, hmt, hfill, Bool.not_true, Bool.or_self, Bool.false_eq_true,
    ne_eq, not_true_eq_false, if_false]

end Words

/-- Settles O24: each word by the check of the lines that it writes back, and a fence by what it waits for. -/
theorem cacheMaintenance : Obligations.CacheMaintenance := by
  unfold Obligations.CacheMaintenance
  refine ⟨fun h a s hr hfree hl => takes_of_kept hr exec_cwb ?cwb (State.cleanLines_keeps (Keeps.refl _) _) hl,
    fun h a s hr hfree hl => ⟨takes_of_kept hr exec_cinv ?cinv (State.evictLines_keeps (Keeps.refl _) _) hl, fun hclean p => ?frame⟩,
    fun h s hr hfree hl => takes_of_kept hr exec_cwbiAll ?cwbi (State.evictLines_keeps (Keeps.refl _) _) hl,
    fun h x e k s hr => ⟨fun hlog hl => takes_of_kept hr (exec_fence x e k) ?fence (State.orderBy_keeps (Keeps.refl _) _) hl,
      fun hnone hheld hmeets => orderBy_now hnone hheld hmeets, fun hheld => orderBy_held hheld⟩,
    fun h a imm s hr hexp => ⟨prf_takes_beyond hr rfl rfl hexp, fun f htr => prf_takes_untranslated hr rfl rfl hexp htr,
      fun s₁ t s₂ l hva htr hmt hfill hl => prf_takes_fill hr rfl rfl hexp hva htr hmt hfill hl⟩,
    fun s e => ⟨rfl, ?core, fun h => release_pending s h⟩⟩
  case cwb => simp only [hfree, Bool.false_eq_true, if_false]
  case cinv => simp only [hfree, Bool.false_eq_true, if_false]
  case cwbi => simp only [Line.inContext, hfree, Bool.false_eq_true, if_false]
  case fence => simp only [hlog, Bool.false_eq_true, if_false]
  case core => rfl
  case frame =>
    rw [evictLines_of_clean, State.byte]
    · exact begin_byte ..
    · intro l hl hp
      simp only [Bool.and_eq_true, decide_eq_true_eq] at hp
      obtain ⟨⟨hcore, -⟩, -⟩ := hp
      exact hclean l hl hcore

end Sys2Proof.Machine
end

section
/-! SUPPORT. Scratchpad accesses (R123, R132, R133, R140, R263): the bytes of a value, what a write to a scratchpad leaves, and what a load,
a store and an atomic come to. -/

namespace Sys2Proof.Machine

/-! The little-endian bytes of a value -/

@[simp] theorem leBytes_length (n v : Nat) : (leBytes n v).length = n := by
  induction n generalizing v with
  | zero => rfl
  | succ n ih => rw [leBytes, List.length_cons, ih]

theorem leBytes_get {n k : Nat} (v : Nat) (h : k < (leBytes n v).length) : (leBytes n v)[k] = .ofNat 8 (v / 256 ^ k) := by
  induction n generalizing v k with
  | zero => cases h
  | succ n ih =>
    cases k with
    | zero => simp [leBytes]
    | succ k =>
      simp only [leBytes, List.getElem_cons_succ]
      rw [ih, Nat.div_div_eq_div_mul, pow_succ']

/-! Writes to a scratchpad -/

/-- A write leaves its bytes at its place. -/
theorem Store.write_in (x : Store) (off : Nat) {bs : List Byte} {k : Nat} (h : k < bs.length) :
    Tab.getD (x.write off bs).spad (off + k) 0 = bs[k] := by
  have hmem : (k, bs[k]) ∈ (List.range bs.length).zip bs := by
    rw [List.mem_iff_getElem]
    exact ⟨k, by simpa using h, by simp⟩
  refine Tab.getD_foldl_set_of_mem 0 (fun p : Nat × Byte => off + p.1) Prod.snd hmem (fun p hp hkey => ?_) x.spad
  obtain ⟨n, hn, rfl⟩ := List.mem_iff_getElem.1 hp
  have hnk : n = k := by simpa using hkey
  subst hnk
  simp

/-- A write leaves every other place as it was. -/
theorem Store.write_out (x : Store) (off : Nat) (bs : List Byte) {p : Nat} (h : p < off ∨ off + bs.length ≤ p) :
    Tab.getD (x.write off bs).spad p 0 = Tab.getD x.spad p 0 := by
  refine Tab.getD_foldl_set_of_ne 0 (fun q : Nat × Byte => off + q.1) Prod.snd (fun q hq hkey => ?_) x.spad
  have hlt := List.mem_range.1 (List.of_mem_zip hq).1
  omega

/-- An owner whose store the state holds. -/
def State.HasStore (s : State) : Owner → Prop
  | .host _ => True
  | .team t => (s.teams.find t).isSome = true

theorem modStore_store {s : State} {o : Owner} (h : s.HasStore o) (f : Store → Store) : (s.modStore o f).store o = f (s.store o) := by
  cases o with
  | host n => exact congrArg HostCore.store (modHost_hostCore ..)
  | team t =>
    obtain ⟨x, hx⟩ := Option.isSome_iff_exists.1 h
    simp only [State.store, State.modStore, modTeam_find, hx, Option.map_some]

theorem modStore_store_ne (s : State) {o o' : Owner} (h : o' ≠ o) (f : Store → Store) : (s.modStore o f).store o' = s.store o' := by
  cases o with
  | host n =>
    cases o' with
    | host m => exact congrArg HostCore.store (modHost_hostCore_ne s (fun he => h (congrArg Owner.host he)) _)
    | team t => rfl
  | team n =>
    cases o' with
    | host m =>
      simp only [State.store, State.modStore, State.modTeam]
      split <;> rfl
    | team m =>
      have hne : m ≠ n := fun he => h (congrArg Owner.team he)
      simp only [State.store, State.modStore, modTeam_find_ne s _ hne]

/-- What a change of a store keeps of each is kept, whether or not the state holds the store. -/
theorem modStore_store_proj {α : Type} (g : Store → α) (s : State) (o o' : Owner) (f : Store → Store) (h : ∀ x, g (f x) = g x) :
    g ((s.modStore o f).store o') = g (s.store o') := by
  by_cases he : o' = o
  · subst he
    cases o' with
    | host n => rw [modStore_store (o := .host n) trivial, h]
    | team t =>
      simp only [State.store, State.modStore, modTeam_find]
      cases s.teams.find t with
      | none => rfl
      | some x => exact h x.store
  · rw [modStore_store_ne s he]

theorem modStore_hasStore {s : State} {o o' : Owner} (h : s.HasStore o') (f : Store → Store) : (s.modStore o f).HasStore o' := by
  cases o' with
  | host n => trivial
  | team t =>
    cases o with
    | host n => exact h
    | team m =>
      by_cases he : t = m
      · subst he
        simpa only [State.HasStore, State.modStore, modTeam_find, Option.isSome_map] using h
      · simpa only [State.HasStore, State.modStore, modTeam_find_ne s _ he] using h

/-! The place of an access (R133) -/

/-- An access of some bytes within an allocation has an owner that the state holds. -/
theorem hasStore_of_spadAt {s : State} {o m : Owner} {a : Word} {size align off : Nat} (hsize : 0 < size)
    (h : s.spadAt o a size align = .ok (m, off)) : s.HasStore m := by
  have hfits : off + size ≤ s.spadSize m := by
    unfold State.spadAt at h
    dsimp only at h
    split at h
    · cases h
    · split at h
      · cases h
      · split at h
        · cases h
        · next hfit =>
          cases h
          exact Nat.not_lt.1 hfit
  cases m with
  | host n => trivial
  | team t =>
    simp only [State.HasStore, Option.isSome_iff_ne_none]
    intro hnone
    have hzero : s.spadSize (.team t) = 0 := by simp only [State.spadSize, State.launchOfTeam, hnone]
    omega

theorem spadAt_misaligned {s : State} {o : Owner} {a : Word} {size : Nat} (h : a.toNat % 2 ^ 28 % size ≠ 0) :
    s.spadAt o a size size = .error .misalign := if_pos h

theorem spadAt_nobody {s : State} {o : Owner} {a : Word} {size : Nat} (h : a.toNat % 2 ^ 28 % size = 0)
    (hm : s.memberOf o (a.toNat / 2 ^ 28) = none) : s.spadAt o a size size = .error .perm := by
  simp only [State.spadAt, h, hm, ne_eq, not_true_eq_false, if_false]

theorem memberOf_own (s : State) (o : Owner) : s.memberOf o 15 = some o := if_pos rfl

theorem spadAt_own {s : State} {o : Owner} {a : Word} {size : Nat} (h : a.toNat % 2 ^ 28 % size = 0) (hm : a.toNat / 2 ^ 28 = 15) :
    s.spadAt o a size size =
      if s.spadSize o < a.toNat % 2 ^ 28 + size then .error .perm else .ok (o, a.toNat % 2 ^ 28) := by
  simp only [State.spadAt, h, hm, memberOf_own, ne_eq, not_true_eq_false, if_false]

/-! What a write notes for the passes that may read the word (R178, R181) -/

/-- What a thread keeps of its outstanding operations and of scratchpad words is no part of its registers. -/
theorem unmoved_notes (s : State) (mx : List MxOut) (sts : List (Nat × Word)) (seen : List Nat) :
    Unmoved s { s with th := { s.th with mx := mx, sts := sts, seen := seen } } :=
  ⟨rfl, by refine writes_nil ?_ ?_ ?_ <;> simp only [Thread.settle_regs, Thread.settle_preds, Thread.settle_fpc], rfl⟩

theorem modStore_unmoved (s : State) (o : Owner) (f : Store → Store) : Unmoved s (s.modStore o f) :=
  unmoved_of (modStore_th ..) (modStore_mem ..)

theorem noteSts_unmoved (s : State) (o : Owner) (off n : Nat) : Unmoved s (s.noteSts o off n) := by
  unfold State.noteSts
  split
  · exact Unmoved.refl s
  · exact (modStore_unmoved ..).trans (unmoved_notes ..)

theorem noteSts_spad (s : State) (o o' : Owner) (off n : Nat) : ((s.noteSts o off n).store o').spad = (s.store o').spad := by
  unfold State.noteSts
  split
  · rfl
  · exact modStore_store_proj Store.spad s o o' _ fun x => rfl

theorem noteSts_store_ne (s : State) {o o' : Owner} (h : o' ≠ o) (off n : Nat) : (s.noteSts o off n).store o' = s.store o' := by
  unfold State.noteSts
  split
  · rfl
  · exact modStore_store_ne s h _

theorem noteSts_hasStore {s : State} {o o' : Owner} (h : s.HasStore o') (off n : Nat) : (s.noteSts o off n).HasStore o' := by
  unfold State.noteSts
  split
  · exact h
  · exact modStore_hasStore h _

/-- A scratchpad write of the current thread, with what it notes. -/
def State.writeNoted (s : State) (o : Owner) (off : Nat) (bs : List Byte) : State :=
  (s.noteSts o off bs.length).modStore o fun x => x.write off bs

section Written
variable {s : State} {o : Owner} (off : Nat) (bs : List Byte)

theorem writeNoted_unmoved : Unmoved s (s.writeNoted o off bs) := (noteSts_unmoved ..).trans (modStore_unmoved ..)

theorem writeNoted_store_ne {o' : Owner} (h : o' ≠ o) : (s.writeNoted o off bs).store o' = s.store o' :=
  (modStore_store_ne _ h _).trans (noteSts_store_ne s h _ _)

variable (ho : s.HasStore o)
include ho

theorem writeNoted_in {k : Nat} (h : k < bs.length) : Tab.getD ((s.writeNoted o off bs).store o).spad (off + k) 0 = bs[k] := by
  rw [State.writeNoted, modStore_store (noteSts_hasStore ho _ _), Store.write_in _ _ h]

theorem writeNoted_out {p : Nat} (h : p < off ∨ off + bs.length ≤ p) :
    Tab.getD ((s.writeNoted o off bs).store o).spad p 0 = Tab.getD (s.store o).spad p 0 := by
  rw [State.writeNoted, modStore_store (noteSts_hasStore ho _ _), Store.write_out _ _ _ h, noteSts_spad]

end Written

/-! The accesses -/

section Access
variable {b : State} {a : Word} {size off : Nat} {o : Owner} (hat : b.spadAt (ownerOf b.cur) a size size = .ok (o, off))
  (hport : b.portBusy o = false) (hheld : b.spadHeld o off size = false)
include hat hport hheld

theorem loadSpad_ok (hpoison : (b.store o).poisoned off size = false) (codes : List Nat) : loadSpad b a size codes =
    if b.th.late then .ok (b.goLate (spadEntry b o .read off size 0 codes))
    else .ok (b.deliver codes (loadWords size false ((b.store o).read off size))) := by
  simp only [loadSpad, hat, hport, hheld, hpoison, Bool.or_self, Bool.false_eq_true, if_false]

variable (hbank : b.bankHeld o off size = false) (hhits : b.regionHits o off size = [])
include hbank hhits

theorem storeSpad_late (hlate : b.th.late = true) (i : Instr) (v : Nat) : storeSpad i b a size v =
    .ok ((b.noteSts o off size).goLate (spadEntry (b.noteSts o off size) o .write off size (.ofNat 128 v) [])) := by
  simp only [storeSpad, hat, hport, hheld, hbank, hlate, spadHazards, hhits, List.isEmpty_nil, Bool.not_true, Bool.and_false, Bool.or_self,
    Bool.false_eq_true, if_false, if_true, List.foldl_nil]

theorem storeSpad_now (hlate : b.th.late = false) (i : Instr) (v : Nat) :
    storeSpad i b a size v = .ok (b.writeNoted o off (leBytes size v)) := by
  simp only [storeSpad, hat, hport, hheld, hbank, hlate, writeSpad, spadHazards, leBytes_length, hhits, List.isEmpty_nil, Bool.not_true,
    Bool.and_false, Bool.or_self, Bool.false_eq_true, if_false, List.foldl_nil, State.writeNoted]

end Access

theorem atomSpad_ok {b : State} {a : Word} {off : Nat} {o : Owner} (hat : b.spadAt (ownerOf b.cur) a 4 4 = .ok (o, off))
    (hport : b.portBusy o = false) (hheld : b.spadHeld o off 4 = false) (hbank : b.bankHeld o off 4 = false)
    (hpoison : (b.store o).poisoned off 4 = false) (hhits : b.regionHits o off 4 = []) (i : Instr) (d : Opnd) (op : Nat) (x y : Word) :
    atomSpad i b d a op x y = .ok ((b.writeNoted o off (leBytes 4 (atomOp op x y ((b.store o).word off)).toNat)).deliver (dstCodes d 1)
      [(b.store o).word off]) := by
  simp only [atomSpad, hat, hport, hheld, hbank, hpoison, writeSpad, spadHazards, leBytes_length, hhits, List.isEmpty_nil, Bool.not_true,
    Bool.and_false, Bool.or_self, Bool.false_eq_true, if_false, List.foldl_nil, State.writeNoted]

end Sys2Proof.Machine
end

section
/-! SUPPORT. The scratchpad words (R132, R133, R140, R263): each word is an access with its own address, size and destination. -/

namespace Sys2Proof.Machine

/-- One word delivered to a destination stands in it, and nothing else of the thread's registers changes. -/
theorem deliver_one_writes {i : Instr} {s : State} {d : Opnd} {l : List Use} (hr : Runs i s) (hu : i.info.uses = ⟨.dst, d⟩ :: l) (u : State)
    (w : Word) : Writes u (u.deliver (dstCodes d 1) [w]) (outs d w) := by
  rw [← dstCodes_one_zip]
  exact deliver_writes (dstCodes_nodup d 1) (dstCodes_lt hr (.inl rfl) hu) u [w]

/-- Settles O21: each load and store by the checks of its access, and the address by those of R133. -/
theorem scratchpadAccesses : Obligations.ScratchpadAccesses := by
  unfold Obligations.ScratchpadAccesses
  refine ⟨?loads, ?stores, fun s o a size hsize => ⟨spadAt_misaligned, fun h hm hout => ?beyond, fun h hm hin => ?within, spadAt_nobody⟩⟩
  case loads =>
    intro loads h d a imm
    have of_arm : ∀ {i : Instr} {l : List Use} (at_ : State → Word) (size n : Nat),
        (∀ s, exec i s = issue i s fun b => loadSpad b (at_ b) size (dstCodes d n)) →
        i.info.uses = ⟨dstRole n, d⟩ :: l → (n = 1 ∨ n = 2 ∨ n = 4) → loads i at_ size (dstCodes d n) := by
      intro i l at_ size n hx hu hn s hr b o off hat hport hheld hpoison
      have hkeep := loadSpad_keeps (Keeps.refl b) (at_ b) size (dstCodes d n)
      have hload := loadSpad_ok hat hport hheld hpoison (dstCodes d n)
      refine ⟨fun hlate => ?late, fun hnow => ⟨?takes, ?writes⟩⟩
      case late => exact takes_of_keeps hr (hx s) hkeep (hload.trans (if_pos hlate)) ((goLate_level ..).trans (begin_level i s))
      case takes =>
        exact takes_of_keeps hr (hx s) hkeep (hload.trans (if_neg (Bool.eq_false_iff.1 hnow))) ((deliver_level ..).trans (begin_level i s))
      case writes => exact (begin_writes i s).of_nil (deliver_writes (dstCodes_nodup d n) (dstCodes_lt hr hn hu) _ _)
    clear_value loads
    exact ⟨of_arm _ 1 1 (fun _ => rfl) rfl (.inl rfl), of_arm _ 2 1 (fun _ => rfl) rfl (.inl rfl), of_arm _ 4 1 (fun _ => rfl) rfl (.inl rfl),
      of_arm _ 8 2 (fun _ => rfl) rfl (.inr (.inl rfl)), of_arm _ 16 4 (fun _ => rfl) rfl (.inr (.inr rfl))⟩
  case stores =>
    intro stores h v a imm
    have of_arm : ∀ {i : Instr} (at_ : State → Word) (val : State → Nat) (size : Nat), 0 < size →
        (∀ s, exec i s = issue i s fun b => storeSpad i b (at_ b) size (val b)) → stores i at_ val size := by
      intro i at_ val size hsize hx s hr b o off hat hport hheld hbank hhits
      have hkeep := storeSpad_keeps (Keeps.refl b) i (at_ b) size (val b)
      have hown := hasStore_of_spadAt hsize hat
      have hlen := leBytes_length size (val b)
      refine ⟨fun hlate => ?late, fun hnow => ?now⟩
      case late =>
        exact takes_of_keeps hr (hx s) hkeep (storeSpad_late hat hport hheld hbank hhits hlate i _)
          ((goLate_level ..).trans ((noteSts_unmoved ..).level.trans (begin_level i s)))
      case now =>
        have hstore := storeSpad_now hat hport hheld hbank hhits hnow i (val b)
        have hmoved := (begin_unmoved i s).trans (writeNoted_unmoved (o := o) off (leBytes size (val b)))
        have hin := fun k hk => (writeNoted_in off (leBytes size (val b)) hown (k := k) hk).trans (leBytes_get _ hk)
        have hout := fun p => writeNoted_out off (leBytes size (val b)) hown (p := p)
        have hne := fun o' => writeNoted_store_ne (s := b) (o := o) (o' := o') off (leBytes size (val b))
        have hbyte := fun p => congrArg (Memory.get · p) hmoved.mem
        unfold State.writeNoted at hin hout hne hbyte hmoved hstore
        rw [hlen] at hin hout hne hbyte hmoved hstore
        exact ⟨takes_of_keeps hr (hx s) hkeep hstore hmoved.level, hin, hout, hne, hbyte⟩
    clear_value stores
    exact ⟨of_arm _ (fun b => (b.src h 0 v).toNat) 1 (by decide) fun _ => rfl, of_arm _ (fun b => (b.src h 0 v).toNat) 2 (by decide) fun _ => rfl,
      of_arm _ (fun b => (b.src h 0 v).toNat) 4 (by decide) fun _ => rfl, of_arm _ (fun b => (b.src2 0 v).toNat) 8 (by decide) fun _ => rfl,
      of_arm _ (fun b => (b.src4 0 v).toNat) 16 (by decide) fun _ => rfl⟩
  case beyond => rw [spadAt_own h hm, if_pos hout]
  case within => rw [spadAt_own h hm, if_neg (Nat.not_lt.2 hin)]

/-- Settles O22: each atomic is a read and a noted write of one word, with the operation of its code. -/
theorem scratchpadAtomics : Obligations.ScratchpadAtomics := by
  unfold Obligations.ScratchpadAtomics
  intro atom h d a c
  have of_arm : ∀ {i : Instr} {l : List Use} (op : Nat) (x y : State → Word) (f : State → Word → Word),
      (∀ s, exec i s = issue i s fun b => atomSpad i b d (b.src h 1 a) op (x b) (y b)) → i.info.uses = ⟨.dst, d⟩ :: l →
      (∀ b old, atomOp op (x b) (y b) old = f b old) → atom i h d a f := by
    intro i l op x y f hx hu hop s hr b o off hat hport hheld hbank hpoison hhits
    have hkeep := atomSpad_keeps (Keeps.refl b) i d (b.src h 1 a) op (x b) (y b)
    have hown := hasStore_of_spadAt (by decide) hat
    have hatom := atomSpad_ok hat hport hheld hbank hpoison hhits i d op (x b) (y b)
    rw [hop] at hatom
    have hlen := leBytes_length 4 (f b ((b.store o).word off)).toNat
    have hmoved := (begin_unmoved i s).trans (writeNoted_unmoved (o := o) off (leBytes 4 (f b ((b.store o).word off)).toNat))
    have hout := fun p => writeNoted_out off (leBytes 4 (f b ((b.store o).word off)).toNat) hown (p := p)
    have hbyte := fun p => congrArg (Memory.get · p) hmoved.mem
    unfold State.writeNoted at hout hbyte hmoved hatom
    rw [hlen] at hout hbyte hmoved hatom
    exact ⟨takes_of_keeps hr (hx s) hkeep hatom ((deliver_level ..).trans hmoved.level),
      hmoved.regs.of_nil (deliver_one_writes hr hu _ _), hout, hbyte⟩
  clear_value atom
  exact ⟨of_arm 1 (·.src h 2 c) (fun _ => 0) _ (fun _ => rfl) rfl fun _ _ => rfl,
    of_arm 2 (·.src h 2 c) (fun _ => 0) _ (fun _ => rfl) rfl fun _ _ => smin_eq ..,
    of_arm 3 (·.src h 2 c) (fun _ => 0) _ (fun _ => rfl) rfl fun _ _ => smax_eq ..,
    of_arm 10 (fun b => (b.src2 2 c).lo) (fun b => (b.src2 2 c).hi) _ (fun _ => rfl) rfl fun _ _ => rfl⟩

end Sys2Proof.Machine
end

section
/-! SUPPORT. The home of a line (R127, R128, R139, R311, R369): translations that a cached entry gives, writes within one crypto line, and what
counting, the L2 and the signatures leave alone. -/

namespace Sys2Proof.Machine

/-! What counting, the L2 and the signatures leave alone -/

/-- The thread, the L1 lines, memory and the ownership of the frames are the same. -/
structure Beside (s u : State) : Prop where
  th    : u.th = s.th
  lines : u.lines = s.lines
  mem   : u.mem = s.mem
  pots  : u.pots = s.pots

theorem Beside.refl (s : State) : Beside s s := ⟨rfl, rfl, rfl, rfl⟩

theorem Beside.trans {a b c : State} (h : Beside a b) (g : Beside b c) : Beside a c :=
  ⟨g.th.trans h.th, g.lines.trans h.lines, g.mem.trans h.mem, g.pots.trans h.pots⟩

theorem Beside.unmoved {s u : State} (h : Beside s u) : Unmoved s u := unmoved_of h.th h.mem

theorem Beside.byte {s u : State} (h : Beside s u) (p : Nat) : u.byte p = s.byte p := congrArg (Memory.get · p) h.mem

theorem Beside.pot {s u : State} (h : Beside s u) (frame : Nat) : u.pot frame = s.pot frame := by
  unfold State.pot
  rw [h.pots]

theorem Beside.findLine {s u : State} (h : Beside s u) (core : Nat) (sp : Space) (va : Nat) :
    u.findLine core sp va = s.findLine core sp va := by
  unfold State.findLine
  rw [h.lines]

theorem Beside.foldl {α : Type} {f : State → α → State} (h : ∀ s x, Beside s (f s x)) (l : List α) (s : State) : Beside s (l.foldl f s) := by
  induction l generalizing s with
  | nil => exact Beside.refl s
  | cons x l ih => exact (h s x).trans (ih (f s x))

theorem countSlice_beside (s : State) (slice code k : Nat) : Beside s (s.countSlice slice code k) := by
  unfold State.countSlice
  split
  · exact Beside.refl s
  · exact ⟨rfl, rfl, rfl, rfl⟩

theorem l2Fill_beside (s : State) (line : Nat) (ways : List Nat) (dirty : Bool) : Beside s (s.l2Fill line ways dirty) := by
  have hcount := countSlice_beside s (line / 2 ^ 29) 0x202 2
  have hcount' := hcount.trans (countSlice_beside _ (line / 2 ^ 29) 0x202 2)
  unfold State.l2Fill
  dsimp only
  split
  · exact hcount.trans ⟨rfl, rfl, rfl, rfl⟩
  · split
    · split
      · exact hcount'.trans ⟨rfl, rfl, rfl, rfl⟩
      · exact hcount.trans ⟨rfl, rfl, rfl, rfl⟩
    · exact hcount

theorem l2Touch_beside (s : State) (line : Nat) (ways : List Nat) (write : Bool) : Beside s (s.l2Touch line ways write) := by
  unfold State.l2Touch
  dsimp only
  split
  · exact (countSlice_beside ..).trans ⟨rfl, rfl, rfl, rfl⟩
  · exact (countSlice_beside ..).trans (l2Fill_beside ..)

theorem l2Read_beside (s : State) (guest : Byte) (line : Nat) : Beside s (s.l2Read guest line) := l2Touch_beside ..

theorem addEpoch_beside (s : State) (core : Nat) (g : Sig) : Beside s (s.addEpoch core g) := ⟨rfl, rfl, rfl, rfl⟩

theorem keepSig_beside (s : State) (line : Nat) (g : Sig) : Beside s (s.keepSig line g) := by
  unfold State.keepSig
  split
  · exact Beside.refl s
  · exact ⟨rfl, rfl, rfl, rfl⟩

theorem holdLine_beside (s : State) (core line : Nat) : Beside s (s.holdLine core line) := ⟨rfl, rfl, rfl, rfl⟩

theorem inject_beside (s : State) (written : Nat → Bool) : Beside s (s.inject written) := by
  unfold State.inject
  split
  · split
    · exact ⟨rfl, rfl, rfl, rfl⟩
    · exact Beside.refl s
  · exact Beside.refl s

theorem bump_beside (s : State) (frame : Nat) (c : Tab Ctr) : Beside s (({ s with ctrs := c }).bumpTree frame) := ⟨rfl, rfl, rfl, rfl⟩

theorem grant_beside (s : State) (line : Nat) : Beside s (s.grant line) := by
  unfold State.grant
  dsimp only
  split
  · exact (inject_beside ..).trans ((bump_beside ..).trans (countSlice_beside ..))
  · exact (bump_beside ..).trans (countSlice_beside ..)

/-! Writes within one crypto line (R369) -/

/-- The addresses and bytes of a write. -/
def cellsAt (a : Nat) (bs : List Byte) : List (Nat × Byte) := (List.range bs.length).zipWith (fun i b => (a + i, b)) bs

theorem cellsAt_get {a : Nat} {bs : List Byte} {k : Nat} (h : k < bs.length) : (a + k, bs[k]) ∈ cellsAt a bs := by
  rw [cellsAt, List.mem_iff_getElem]
  exact ⟨k, by simpa using h, by simp⟩

theorem mem_cellsAt {a : Nat} {bs : List Byte} {c : Nat × Byte} (h : c ∈ cellsAt a bs) : ∃ k, ∃ hk : k < bs.length, c = (a + k, bs[k]) := by
  rw [cellsAt, List.mem_iff_getElem] at h
  obtain ⟨k, hk, rfl⟩ := h
  exact ⟨k, by simpa using hk, by simp⟩

/-- Bytes stored one by one change nothing but memory. -/
theorem foldl_poke (l : List (Nat × Byte)) (s : State) :
    l.foldl (fun s p => s.poke p.1 p.2) s = { s with mem := l.foldl (fun m p => Tab.set m Memory.blank p.1 p.2) s.mem } := by
  induction l generalizing s with
  | nil => rfl
  | cons p l ih => exact ih (s.poke p.1 p.2)

/-- The write of a frame that needs no scrub first: its bytes stand at their addresses, every other byte is as it was, and so is what the
write has nothing to do with. -/
structure Wrote (s u : State) (a : Nat) (bs : List Byte) : Prop where
  th     : u.th = s.th
  lines  : u.lines = s.lines
  inside : ∀ k (hk : k < bs.length), u.byte (a + k) = bs[k]
  beyond : ∀ p, p < a ∨ a + bs.length ≤ p → u.byte p = s.byte p

theorem Wrote.after {s u v : State} {a : Nat} {bs : List Byte} (h : Beside s u) (g : Wrote u v a bs) : Wrote s v a bs :=
  ⟨g.th.trans h.th, g.lines.trans h.lines, g.inside, fun p hp => (g.beyond p hp).trans (h.byte p)⟩

theorem Wrote.before {s u v : State} {a : Nat} {bs : List Byte} (h : Wrote s u a bs) (g : Beside u v) : Wrote s v a bs :=
  ⟨g.th.trans h.th, g.lines.trans h.lines, fun k hk => (g.byte _).trans (h.inside k hk), fun p hp => (g.byte p).trans (h.beyond p hp)⟩

theorem poke_wrote (s : State) (a : Nat) (bs : List Byte) : Wrote s ((cellsAt a bs).foldl (fun s p => s.poke p.1 p.2) s) a bs := by
  rw [foldl_poke]
  refine ⟨rfl, rfl, fun k hk => ?_, fun p hp => ?_⟩
  · refine Tab.getD_foldl_set_of_mem Memory.blank Prod.fst Prod.snd (cellsAt_get hk) (fun c hc hkey => ?_) s.mem
    obtain ⟨n, hn, rfl⟩ := mem_cellsAt hc
    obtain rfl : n = k := by simpa using hkey
    rfl
  · refine Tab.getD_foldl_set_of_ne Memory.blank Prod.fst Prod.snd (fun c hc hkey => ?_) s.mem
    obtain ⟨n, hn, rfl⟩ := mem_cellsAt hc
    dsimp only at hkey
    omega

theorem landBytes_wrote {s : State} {a : Nat} {bs : List Byte} (hstate : (s.pot (a / 4096)).state ≠ .discarded)
    (hone : a / 64 = (a + bs.length - 1) / 64) : Wrote s (s.landBytes a bs) a bs := by
  have hall : (cellsAt a bs).filter (fun c => c.1 / 64 = a / 64 + 0) = cellsAt a bs := by
    refine List.filter_eq_self.2 fun c hc => ?_
    obtain ⟨n, hn, rfl⟩ := mem_cellsAt hc
    simp only [decide_eq_true_eq]
    omega
  have hland : s.landBytes a bs = s.landLine (a / 64 + 0) ((cellsAt a bs).filter fun c => c.1 / 64 = a / 64 + 0) := by
    simp only [State.landBytes, ← hone, Nat.sub_self, Nat.zero_add, List.range_one, List.foldl_cons, List.foldl_nil]
    rfl
  have hframe : (s.pot ((a / 64 + 0) / 64)).state ≠ .discarded := by rwa [Nat.add_zero, Nat.div_div_eq_div_mul]
  rw [hland, landLine_of_not_discarded hframe, hall]
  exact ((poke_wrote ..).after (grant_beside ..)).before (inject_beside ..)

theorem homeStore_wrote {s : State} (guest : Byte) {a : Nat} {bs : List Byte} (hstate : (s.pot (a / 4096)).state ≠ .discarded)
    (hone : a / 64 = (a + bs.length - 1) / 64) : Wrote s (s.homeStore guest a bs) a bs := by
  have hl2 := Beside.foldl (f := fun s l => s.l2Store guest l) (fun s l => l2Touch_beside s l _ _) (lineRange a bs.length) s
  exact (landBytes_wrote (by rwa [hl2.pot]) hone).after hl2

theorem homeWrite_wrote {s : State} {a : Nat} {bs : List Byte} (hstate : (s.pot (a / 4096)).state ≠ .discarded)
    (hone : a / 64 = (a + bs.length - 1) / 64) : Wrote s (s.homeWrite a bs) a bs := by
  have hl2 := Beside.foldl (f := State.l2Write) (fun s l => l2Touch_beside s l _ _) (lineRange a bs.length) s
  exact (landBytes_wrote (by rwa [hl2.pot]) hone).after hl2

/-- A write of a frame that needs no scrub first meets a failed tag where its grant does. -/
theorem writeFails_of_not_discarded {s : State} {line : Nat} (h : (s.pot (line / 64)).state ≠ .discarded) :
    s.writeFails line = s.grantFails line := by rw [State.writeFails, State.firstWrite, if_neg h]

/-! Cached translations (R311) -/

/-- A cached translation that permits an access to HBM serves it, under a key that stands, but for a write to a RECLAIMING page. -/
theorem translate_hit {s : State} {a : Access} {t : Tlb} {slice : Nat} (hfind : s.tlb.find? (·.covers a.sp a.va) = some t)
    (hperm : permits a.kind a.wr t.r t.w t.x = true) (hmt : t.mt = 1) (hregion : s.region (t.at a.va) = .hbm slice)
    (hstate : (s.pot (t.at a.va / 4096)).state ≠ .reclaiming) (hkey : s.keyRevoked a.sp = false) : translate s a = .ok (s, t) := by
  simp [translate, hfind, hperm, hmt, hregion, hstate, hkey, typeAllows]

/-! Lines that a core does not hold (R139, R143) -/

theorem sectorHome_of_absent {s : State} {core va : Nat} {sp : Space} (h : s.findLine core sp va = none) (keep : Bool) :
    s.sectorHome core sp va keep = s := by
  have habsent : ∀ l ∈ s.lines, ¬ (l.core = core && l.sp = sp && l.va = va / 128) = true := List.find?_eq_none.1 h
  have hnone : s.lines.filter (fun l => l.core = core && l.sp = sp && l.va = va / 128) = [] := List.filter_eq_nil_iff.2 habsent
  have hmap : ∀ f : Line → Line, s.lines.map (fun l => if (l.core = core && l.sp = sp && l.va = va / 128) = true then f l else l) = s.lines := by
    intro f
    conv_rhs => rw [← List.map_id s.lines]
    exact List.map_congr_left fun l hl => if_neg (habsent l hl)
  simp only [State.sectorHome, hnone, List.foldl_nil]
  rw [hmap]

theorem gather_lines (s : State) (line : Option Nat) : (s.gather line).lines = s.lines := by
  unfold State.gather
  cases line with
  | none => rfl
  | some l =>
    dsimp only
    split <;> rfl

/-- A carrier of a line that its core does not hold writes no sector through. -/
theorem carry_unmoved_of_absent {s : State} {core va : Nat} {sp : Space} (h : s.findLine core sp va = none) : Unmoved s (s.carry core sp va) := by
  have hpending := unmoved_signs (s := s) s.th.gathered none
  unfold State.carry
  cases s.th.pending with
  | none => exact hpending
  | some g =>
    dsimp only [State.carryWith]
    rw [sectorHome_of_absent (s := { s with th := { s.th with pending := none } }) h]
    split
    · exact hpending.trans (keepSig_beside ..).unmoved
    · exact hpending

end Sys2Proof.Machine
end

section
/-! SUPPORT. Hits, uncached accesses and atomics at the home (R124, R127, R128, R137-R139). -/

namespace Sys2Proof.Machine

/-! Loads and stores through an L1 (R127, R128) -/

/-- An uncached load that its page permits reads the bytes at the home, where they verify. -/
theorem l1Load_uncached {s : State} (hexp : (s.lines.any fun l => l.expired s.ns) = false) {core n : Nat} {a : Access} {t : Tlb}
    (hmiss : ((s.findLine core a.sp a.va).bind fun l => l.read (a.va % 128) n) = none)
    (hfind : s.tlb.find? (·.covers a.sp a.va) = some t) (hmt : t.mt = 1) (hr : t.r = true) (hkind : a.kind = .read)
    (hregion : s.region (t.at a.va) = .hbm (homeOf a.va)) (hkey : s.keyRevoked a.sp = false) (hver : s.verifies (t.at a.va) n = true)
    (hport : s.portBlocked core (t.at a.va / 128) = false) (hzeros : (s.pot (t.at a.va / 4096)).state.zeros = false) :
    ∃ u, s.l1Load core a n = .ok u (Memory.bytes s.mem (t.at a.va) n) ∧ u.mem = s.mem := by
  obtain ⟨e, he⟩ : ∃ e, s.count core a.sp.eid.toNat 0x11 1 = { s with evcnt := e } := ⟨_, count_eq ..⟩
  have hstate : (s.pot (t.at a.va / 4096)).state ≠ .reclaiming := fun h => by simp [h, PotState.zeros] at hzeros
  have hperm : permits a.kind a.wr t.r t.w t.x = true := by rw [hkind]; exact hr
  have htr : translate { s with evcnt := e } a = .ok ({ s with evcnt := e }, t) := translate_hit hfind hperm hmt hregion hstate hkey
  have hport' : ({ s with evcnt := e } : State).portBlocked core (t.at a.va / 128) = false := hport
  have hver' : ({ s with evcnt := e } : State).verifies (t.at a.va) n = true := hver
  have hbytes : ({ s with evcnt := e } : State).homeBytes (t.at a.va) n = Memory.bytes s.mem (t.at a.va) n :=
    if_neg (Bool.eq_false_iff.1 hzeros)
  refine ⟨({ s with evcnt := e } : State).l2Read a.sp.guest (t.at a.va / 128), ?_, (l2Read_beside ..).mem⟩
  cases hl : s.findLine core a.sp a.va with
  | none => simp [State.l1Load, expireLeases_of_none hexp, hl, he, htr, hmt, hport', State.readHome, hver', hbytes]
  | some l =>
    rw [hl, Option.bind_some] at hmiss
    simp [State.l1Load, expireLeases_of_none hexp, hl, hmiss, he, htr, hmt, hport', State.readHome, hver', hbytes]

theorem Line.write_place (l : Line) (off : Nat) (bs : List Byte) :
    (l.write off bs).core = l.core ∧ (l.write off bs).sp = l.sp ∧ (l.write off bs).va = l.va := by
  induction bs generalizing l off with
  | nil => exact ⟨rfl, rfl, rfl⟩
  | cons b bs ih => exact ih _ _

theorem findLine_putLine {s : State} {core va : Nat} {sp : Space} {l : Line} (hcore : l.core = core) (hsp : l.sp = sp) (hva : l.va = va / 128) :
    (s.putLine l).findLine core sp va = some l := by
  simp [State.findLine, State.putLine, hcore, hsp, hva]

/-- A store that hits a line filled with W leaves its bytes in the line alone. -/
theorem l1Store_hit {s : State} (hexp : (s.lines.any fun l => l.expired s.ns) = false) {core : Nat} {a : Access} {l : Line} (bs : List Byte)
    (hl : s.findLine core a.sp a.va = some l) (hw : l.wOk = true) :
    ∃ u, s.l1Store core a bs = .ok u () ∧ u.findLine core a.sp a.va = some (l.write (a.va % 128) bs) ∧ u.mem = s.mem := by
  have hplace : (l.core = core ∧ l.sp = a.sp) ∧ l.va = a.va / 128 := by simpa using List.find?_some hl
  obtain ⟨⟨hcore, hsp⟩, hva⟩ := hplace
  obtain ⟨hcore', hsp', hva'⟩ := l.write_place (a.va % 128) bs
  refine ⟨(s.putLine (l.write (a.va % 128) bs)).count core a.sp.eid.toNat 0x10 1, ?_, ?_, ?_⟩
  · simp [State.l1Store, expireLeases_of_none hexp, hl, hw, expired_of_findLine hexp hl]
  · have hput := findLine_putLine (s := s) (hcore'.trans hcore) (hsp'.trans hsp) (hva'.trans hva)
    unfold State.findLine at hput ⊢
    rw [State.count_lines]
    exact hput
  · exact State.count_mem ..

/-- An uncached store that its page permits goes to the home under a fresh grant, where no tag fails. -/
theorem l1Store_uncached {s : State} (hexp : (s.lines.any fun l => l.expired s.ns) = false) {core : Nat} {a : Access} {t : Tlb} {bs : List Byte}
    (hmiss : s.findLine core a.sp a.va = none) (hfind : s.tlb.find? (·.covers a.sp a.va) = some t) (hmt : t.mt = 1) (hw : t.w = true)
    (hkind : a.kind = .write) (hregion : s.region (t.at a.va) = .hbm (homeOf a.va)) (hkey : s.keyRevoked a.sp = false)
    (htag : s.writeFails (t.at a.va / 64) = false) (hwait : s.writeWaits core (t.at a.va / 128) = false)
    (hstate : (s.pot (t.at a.va / 4096)).state = .hyp) (hone : t.at a.va / 64 = (t.at a.va + bs.length - 1) / 64) :
    ∃ u, s.l1Store core a bs = .ok u () ∧ Wrote s u (t.at a.va) bs := by
  obtain ⟨e, he⟩ : ∃ e, s.count core a.sp.eid.toNat 0x11 1 = { s with evcnt := e } := ⟨_, count_eq ..⟩
  have hperm : permits a.kind a.wr t.r t.w t.x = true := by rw [hkind]; exact hw
  have hnotReclaiming : (s.pot (t.at a.va / 4096)).state ≠ .reclaiming := by rw [hstate]; decide
  have hnotDiscarded : (s.pot (t.at a.va / 4096)).state ≠ .discarded := by rw [hstate]; decide
  have hkept : (s.pot (t.at a.va / 64 / 64)).state ≠ .discarded := by rwa [Nat.div_div_eq_div_mul]
  have htr : translate { s with evcnt := e } a = .ok ({ s with evcnt := e }, t) :=
    translate_hit hfind hperm hmt hregion hnotReclaiming hkey
  have hwait' : ({ s with evcnt := e } : State).writeWaits core (t.at a.va / 128) = false := hwait
  have htag' : ({ s with evcnt := e } : State).writeFails (t.at a.va / 64) = false :=
    (writeFails_of_not_discarded (s := { s with evcnt := e }) hkept).trans ((writeFails_of_not_discarded hkept).symm.trans htag)
  have hwrote : Wrote s (({ s with evcnt := e } : State).homeStore a.sp.guest (t.at a.va) bs) (t.at a.va) bs :=
    Wrote.after (s := s) (u := { s with evcnt := e }) ⟨rfl, rfl, rfl, rfl⟩ (homeStore_wrote a.sp.guest hnotDiscarded hone)
  refine ⟨_, ?_, hwrote.before (addEpoch_beside _ core (sigOf (a.va / 128)))⟩
  simp [State.l1Store, expireLeases_of_none hexp, hmiss, he, htr, hmt, hwait', htag', State.noteWrite]

/-- Settles O20: a load and a store by what answers them, a line of the L1 or the home. -/
theorem cacheAccess : Obligations.CacheAccess := by
  unfold Obligations.CacheAccess
  intro s core a hexp
  refine ⟨fun l n bs hl hbs hr hp => ?hit, fun n t hmiss hfind hmt hr hkind _ hregion hkey hver hport hzeros => ?load,
    fun l bs hl hw => ?store, fun bs t hmiss hfind hmt hw hkind _ hregion hkey htag hwait hstate hone _ => ?home⟩
  case hit => exact ⟨_, l1Load_hit hexp hl hbs hr hp, State.count_lines .., fun p => congrArg (Memory.get · p) (State.count_mem ..)⟩
  case load =>
    obtain ⟨u, hu, hmem⟩ := l1Load_uncached hexp hmiss hfind hmt hr hkind hregion hkey hver hport hzeros
    exact ⟨u, hu, fun p => congrArg (Memory.get · p) hmem⟩
  case store =>
    obtain ⟨u, hu, hline, hmem⟩ := l1Store_hit hexp bs hl hw
    exact ⟨u, hu, hline, fun p => congrArg (Memory.get · p) hmem⟩
  case home =>
    obtain ⟨u, hu, hwrote⟩ := l1Store_uncached hexp hmiss hfind hmt hw hkind hregion hkey htag hwait hstate hone
    exact ⟨u, hu, hwrote.inside, hwrote.beyond⟩

/-! Atomics (R137-R139) -/

section Atomic
variable {b s₁ s₂ : State} {d a : Opnd} {ac : Access} {t : Tlb} {op : Nat} {x y old : Word}
  (hac : ac = { sp := b.space b.cur, va := b.va a 0, kind := .atomic })
include hac

/-- An atomic is never an access that goes to memory late (R264). -/
theorem mayGoLate_atomic (e : LogEntry) : b.mayGoLate ac e = false := by
  subst hac
  simp [State.mayGoLate]

/-- An atomic whose line is free is made at its home at once. -/
theorem atomGlobal_ok (hclear : b.Clear ac 4) (hrefill : b.cur.isHost = false → (b.core (b.coreIx b.cur)).bundle.refill = false)
    (htr : translate b ac = .ok (s₁, t)) (hbusy : s₁.lineBusy (b.coreIx b.cur) (t.at ac.va / 128) = false)
    (hatom : s₁.homeAtomic (b.coreIx b.cur) ac (atomOp op x y) = .ok s₂ old) {s₃ : State}
    (hs₃ : s₂.holdLine (b.coreIx b.cur) ((s₂.physLine (b.coreIx b.cur) ac.sp ac.va).getD 0) = s₃) :
    atomGlobal b d a op x y = .ok ((({ s₃ with atomQ := s₃.atomsBut s₃.cur }.gather (s₃.physLine (b.coreIx b.cur) ac.sp ac.va)).carry
      (b.coreIx b.cur) ac.sp ac.va).deliver (dstCodes d 1) [old]) := by
  subst hac hs₃
  have hfree : (!b.onHost && (b.core (b.coreIx b.cur)).bundle.refill) = false := by
    cases hhost : b.onHost with
    | true => rfl
    | false => simpa using hrefill hhost
  dsimp only [atomGlobal]
  refine globalAccess_ok _ _ _ _ hclear (mayGoLate_atomic rfl _) (x := some old) ?_
  simp only [htr, hbusy, hfree, atomicNow, hatom, Bool.or_self, Bool.false_eq_true, if_false]

end Atomic

/-- An atomic on an uncached page of a HYP frame, whose line its core does not hold: the word at the home is replaced. -/
theorem homeAtomic_uncached {s : State} {core : Nat} {a : Access} {t : Tlb} {pa : Nat} (f : Word → Word) (hkind : a.kind = .atomic)
    (hmiss : s.findLine core a.sp a.va = none) (hfind : s.tlb.find? (·.covers a.sp a.va) = some t) (hmt : t.mt = 1) (hr : t.r = true)
    (hw : t.w = true) (hpa : t.at a.va = pa) (halign : pa % 4 = 0) (hregion : s.region pa = .hbm (homeOf a.va))
    (hstate : (s.pot (pa / 4096)).state = .hyp) (htag : s.writeFails (pa / 64) = false) (hkey : s.keyRevoked a.sp = false) {old : Word}
    (hold : old = .ofNat 32 (leNat (Memory.bytes s.mem pa 4))) :
    translate s a = .ok (s, t) ∧ ∃ u, s.homeAtomic core a f = .ok u old ∧ Wrote s u pa (leBytes 4 (f old).toNat) := by
  subst hpa hold
  have hperm : permits a.kind a.wr t.r t.w t.x = true := by rw [hkind, hr, hw]; rfl
  have htr : translate s a = .ok (s, t) := translate_hit hfind hperm hmt hregion (by rw [hstate]; decide) hkey
  have hbytes : s.homeBytes (t.at a.va) 4 = Memory.bytes s.mem (t.at a.va) 4 := if_neg (by rw [hstate]; decide)
  have hone : t.at a.va / 64 = (t.at a.va + (leBytes 4 (f (.ofNat 32 (leNat (Memory.bytes s.mem (t.at a.va) 4)))).toNat).length - 1) / 64 := by
    rw [leBytes_length]
    omega
  have hwrote := homeWrite_wrote (s := s) (by rw [hstate]; decide) hone
  refine ⟨htr, _, ?_, (hwrote.before (addEpoch_beside _ core (sigOf (a.va / 128)))).before (countSlice_beside _ (homeOf a.va) 0x203 1)⟩
  simp [State.homeAtomic, sectorHome_of_absent hmiss, htr, hmt, htag, hbytes, State.noteWrite]

/-- A word whose effect writes some bytes at the home, and then delivers one word to its destination. -/
theorem Takes.of_wrote {i : Instr} {s b v w : State} {d : Opnd} {l : List Use} {old : Word} {pa : Nat} {bs : List Byte} (hr : Runs i s)
    (hu : i.info.uses = ⟨.dst, d⟩ :: l) (hb : Unmoved s b) (hv : Wrote b v pa bs) (hw : Unmoved v w)
    (h : Takes i s (w.deliver (dstCodes d 1) [old])) :
    ∃ u, exec i s = .next u ∧ u.th.w = nextIndex i s ∧ (∀ p ∈ outs d old, u.final p.1 = p.2)
      ∧ (∀ c, (∀ p ∈ outs d old, p.1 ≠ c) → u.final c = s.final c) ∧ (∀ k (hk : k < bs.length), u.byte (pa + k) = bs[k])
      ∧ ∀ p, p < pa ∨ pa + bs.length ≤ p → u.byte p = s.byte p := by
  obtain ⟨u, hexec, hends⟩ := h
  have hbv : Writes b v [] := writes_nil (by rw [hv.th]) (by rw [hv.th]) (by rw [hv.th])
  obtain ⟨hwrote, hkept, -, -⟩ := ((hb.regs.of_nil hbv).of_nil hw.regs).of_nil (deliver_one_writes hr hu w old)
  have hbyte : ∀ p, u.byte p = v.byte p := fun p => by rw [hends.byte_eq, State.byte, deliver_mem, hw.mem, State.byte]
  refine ⟨u, hexec, hends.word_eq, fun p hp => (hends.final_eq _).trans (hwrote p hp), fun c hc => (hends.final_eq c).trans (hkept c hc),
    fun k hk => (hbyte _).trans (hv.inside k hk), fun p hp => ?_⟩
  rw [hbyte, hv.beyond p hp, State.byte, hb.mem, State.byte]

theorem Wrote.level {s u : State} {a : Nat} {bs : List Byte} (h : Wrote s u a bs) : u.th.level = s.th.level := congrArg Thread.level h.th

theorem Wrote.findLine {s u : State} {a : Nat} {bs : List Byte} (h : Wrote s u a bs) (core : Nat) (sp : Space) (va : Nat) :
    u.findLine core sp va = s.findLine core sp va := by
  unfold State.findLine
  rw [h.lines]

/-- The signatures that an access gathers and carries, at a line that its core does not hold, move nothing of the thread. -/
theorem gather_carry_unmoved {s : State} {core va : Nat} {sp : Space} (h : s.findLine core sp va = none) (line : Option Nat) :
    Unmoved s ((s.gather line).carry core sp va) := by
  refine (gather_unmoved s line).trans (carry_unmoved_of_absent ?_)
  unfold State.findLine at h ⊢
  rwa [gather_lines]

theorem faddAtom_eq (x y : Word) :
    faddAtom x y = .ofNat 32 (fAdd f32 .rne false (f32.value x.toNat) (f32.value y.toNat)).bits := rfl

/-- Settles O23: each atomic is the update of its word at the home, with the operation of its code. -/
theorem globalAtomics : Obligations.GlobalAtomics := by
  unfold Obligations.GlobalAtomics
  intro atom h d a c
  have of_arm : ∀ {i : Instr} {l : List Use} (op : Nat) (x y : State → Word) (f : State → Word → Word),
      (∀ s, exec i s = issue i s fun b => atomGlobal b d a op (x b) (y b)) → i.info.uses = ⟨.dst, d⟩ :: l →
      (∀ b old, atomOp op (x b) (y b) old = f b old) → atom i d a f := by
    intro i l op x y f hx hu hop s hr b core va ac haligned hrange hline hdevice hrefill
    have hclear : b.Clear ac 4 := ⟨haligned, hrange, hline, hdevice⟩
    have hkeep := atomGlobal_keeps (Keeps.refl b) d a op (x b) (y b)
    have hf : atomOp op (x b) (y b) = f b := funext (hop b)
    refine ⟨fun t hmiss hfind hmt hr' hw halign hregion hstate hbusy htag hkey => ?home,
      fun s₁ t s₂ old htr hbusy hatom hl => ?any⟩
    case any =>
      rw [← hf] at hatom
      have hok := atomGlobal_ok (d := d) (ac := ac) rfl hclear hrefill htr hbusy hatom rfl
      exact ⟨takes_of_keeps hr (hx s) hkeep hok ((deliver_level ..).trans hl), deliver_one_writes hr hu _ _⟩
    case home =>
      obtain ⟨htr, v, hatom, hwrote⟩ := homeAtomic_uncached (core := core) (a := ac) (f b) rfl hmiss hfind hmt hr' hw rfl halign hregion hstate
        htag hkey rfl
      rw [← hf] at hatom
      obtain ⟨v₃, hv₃⟩ : ∃ x, v.holdLine core ((v.physLine core ac.sp va).getD 0) = x := ⟨_, rfl⟩
      have hok := atomGlobal_ok (d := d) (ac := ac) rfl hclear hrefill htr hbusy hatom hv₃
      have hheld : Beside v v₃ := hv₃ ▸ holdLine_beside v core _
      have hv := (hwrote.before hheld).before (v := { v₃ with atomQ := v₃.atomsBut v₃.cur }) ⟨rfl, rfl, rfl, rfl⟩
      have hw := gather_carry_unmoved ((hv.findLine core ac.sp va).trans hmiss) (v₃.physLine core ac.sp va)
      have htakes := takes_of_keeps hr (hx s) hkeep hok ((deliver_level ..).trans (hw.level.trans (hv.level.trans (begin_level i s))))
      obtain ⟨u, hexec, hnext, hout, hkept, hin, hbeyond⟩ := htakes.of_wrote hr hu (begin_unmoved i s) hv hw
      rw [leBytes_length] at hbeyond
      exact ⟨u, hexec, hnext, hout, hkept, fun k hk => (hin k (by rwa [leBytes_length])).trans (leBytes_get _ _), hbeyond⟩
  clear_value atom
  exact ⟨of_arm 1 (·.src h 2 c) (fun _ => 0) _ (fun _ => rfl) rfl fun _ _ => rfl,
    of_arm 2 (·.src h 2 c) (fun _ => 0) _ (fun _ => rfl) rfl fun _ _ => smin_eq ..,
    of_arm 3 (·.src h 2 c) (fun _ => 0) _ (fun _ => rfl) rfl fun _ _ => smax_eq ..,
    of_arm 4 (·.src h 2 c) (fun _ => 0) _ (fun _ => rfl) rfl fun _ _ => umin_eq ..,
    of_arm 5 (·.src h 2 c) (fun _ => 0) _ (fun _ => rfl) rfl fun _ _ => umax_eq ..,
    of_arm 6 (·.src h 2 c) (fun _ => 0) _ (fun _ => rfl) rfl fun _ _ => rfl,
    of_arm 7 (·.src h 2 c) (fun _ => 0) _ (fun _ => rfl) rfl fun _ _ => rfl,
    of_arm 8 (·.src h 2 c) (fun _ => 0) _ (fun _ => rfl) rfl fun _ _ => rfl,
    of_arm 9 (·.src h 2 c) (fun _ => 0) _ (fun _ => rfl) rfl fun _ _ => rfl,
    of_arm 10 (fun b => (b.src2 2 c).lo) (fun b => (b.src2 2 c).hi) _ (fun _ => rfl) rfl fun _ _ => rfl,
    of_arm 11 (·.src h 2 c) (fun _ => 0) _ (fun _ => rfl) rfl fun _ _ => faddAtom_eq ..⟩

end Sys2Proof.Machine
end

section
/-! SUPPORT. The global stores (R128, R134, R374): a releasing store whose release makes its own enclave FAILED. Its write-backs meet a failed
tag, the enclave is FAILED, and its host thread leaves it before the store reaches the log; the word then does not end as one that ran. -/

namespace Sys2Proof.Machine

/-- A word that takes its thread out of its enclave ends with its thread at word 0 of the handler, whatever the word leaves. -/
theorem issue_leaves {i : Instr} {s u : State} {k : State → Res} (h : Runs i s) (hk : k (begin_ i s) = .ok u)
    (hleft : (begin_ i s).left u = true) : issue i s k = .next u.gone := by
  obtain ⟨hchain, howed, hheld, hgate, hloose⟩ := h
  simp only [issue, hchain, issueAlone, howed, hheld, hgate, perform_tight k hloose, hk, hleft, Bool.false_eq_true, if_false, if_true]

/-- Such a word does not take effect and go on. -/
theorem not_takes_of_leaves {i : Instr} {s u v : State} {k : State → Res} (h : Runs i s) (hx : exec i s = issue i s k)
    (hk : k (begin_ i s) = .ok u) (hleft : (begin_ i s).left u = true) (hnext : nextIndex i s ≠ 0) : ¬ Takes i s v := by
  rintro ⟨t, hexec, hends⟩
  have hgone : u.gone = t := by simpa [hx, issue_leaves h hk hleft] using hexec
  exact hnext (hends.word_eq.symm.trans (hgone ▸ rfl))

/-- A releasing store of a sound address that goes late, after its release. -/
theorem storeRel_late {b : State} {va size scope v : Nat} {ac : Access}
    (hac : ac = { sp := (b.release scope).space (b.release scope).cur, va := va, kind := .write })
    (hheld : b.fenceHeld = false) (hmeets : b.fenceMeetsHold 1 scope false = false) (hclear : (b.release scope).Clear ac size)
    (hlate : (b.release scope).mayGoLate ac (entryOf (b.release scope) ac size 0 false (.ofNat 128 v) []) = true) :
    storeRel b va size scope v = .ok ((b.release scope).goLate (entryOf (b.release scope) ac size 0 false (.ofNat 128 v) [])) := by
  subst hac
  obtain ⟨haligned, hrange, -, -⟩ := id hclear
  dsimp only at haligned hrange
  have hsound : (va % size ≠ 0 || !wellFormedVa va) = false := by simp [haligned, wellFormedVa_of_lt hrange]
  simp only [storeRel, hheld, hmeets, hsound, Bool.or_self, Bool.false_eq_true, if_false]
  dsimp only [storeGlobal]
  exact globalAccess_late _ _ _ _ hclear hlate

/-- ST.REL.W of g0 to the address 0 that g0 and g1 hold, at scope 2. -/
def releaseWord : Instr := .stRelW ⟨false, 0, 0⟩ (.g 0) (.g 0) 2

/-- Host core 0 in enclave 1, its next access to reach memory late. Its L1 holds a dirty line of the enclave's frame 0x34, whose first crypto
line fails its tag; the guest's page at 0, of the HYP frame 0x24, is cached in the TLB as writable. -/
def failingRelease : State where
  cur := .host 0
  th := { eid := 1, level := .e, late := true }
  hosts := [(0, { entered := some (1, 0) })]
  encls := [(1, { slot := 1, key := 256 })]
  slots := [(0, { loaded := true }), (1, { loaded := true, eid := 1, key := 256 })]
  pots := [(0x24, { state := .hyp, maxp := 7 }), (0x34, { state := .encl, maxp := 7, owner := 1, slot := 1, key := 256 })]
  badTags := [0x34 * 64]
  lines := [⟨4608, ⟨0, 1, 0⟩, 1, 8, 0x34 * 32, [(0, 7)], [0], true, 0, [], true, false⟩]
  tlb := [⟨⟨0, 0, 0⟩, 0, 0x1000, 0x24000, true, true, false, 0, 0⟩]

/-- The state in which the store issues, and the one that its release leaves. -/
def failingIssue : State := begin_ releaseWord failingRelease
def failingReleased : State := failingIssue.release 2
def failingAccess : Access := { sp := failingReleased.space failingReleased.cur, va := failingIssue.va (.g 0) 0, kind := .write }
def failingEntry : LogEntry := entryOf failingReleased failingAccess 4 0 false (.ofNat 128 (failingIssue.src ⟨false, 0, 0⟩ 0 (.g 0)).toNat) []

theorem failingRelease_runs : Runs releaseWord failingRelease :=
  ⟨rfl, rfl, by decide +kernel, by decide +kernel, by decide +kernel⟩

theorem failingRelease_free : failingIssue.fenceHeld = false ∧ failingIssue.fenceMeetsHold 1 2 false = false := by decide +kernel

theorem failingRelease_clear : failingReleased.Clear failingAccess 4 :=
  ⟨by decide +kernel, by decide +kernel, by decide +kernel, by decide +kernel⟩

theorem failingRelease_late : failingReleased.mayGoLate failingAccess failingEntry = true := by decide +kernel

/-- The release takes the thread out of its enclave, to the S bank. -/
theorem failingRelease_leaves : failingIssue.left failingReleased = true := by decide +kernel

/-- Refutes O18: the clause of the late stores does not ask that the release leave the thread at its level. In `failingRelease` the release
makes the thread's own enclave FAILED, so the word ends with its thread at word 0 of its handler, not at the next word. -/
theorem not_globalStores : ¬ Obligations.GlobalStores := by
  intro h
  obtain ⟨-, -, -, -, -, -, hrel, -⟩ := h ⟨false, 0, 0⟩ (.g 0) (.g 0) .zr 0 2
  obtain ⟨haligned, hrange, hline, hdevice⟩ := id failingRelease_clear
  obtain ⟨htakes, -⟩ := hrel failingRelease failingRelease_runs haligned hrange hline hdevice (fun k hk => by cases hk; exact failingRelease_free)
  obtain ⟨hheld, hmeets⟩ := failingRelease_free
  have hstore := storeRel_late (v := (failingIssue.src ⟨false, 0, 0⟩ 0 (.g 0)).toNat) rfl hheld hmeets failingRelease_clear failingRelease_late
  have hleft : failingIssue.left (failingReleased.goLate failingEntry) = true := by
    rw [State.left, goLate_level]
    exact failingRelease_leaves
  exact not_takes_of_leaves failingRelease_runs rfl hstore hleft (by decide +kernel) (htakes failingRelease_late)

end Sys2Proof.Machine
end

section
/-! SUPPORT. EXIT, TRAP and BKPT (R154-R156): each word says itself where its thread stands. -/

namespace Sys2Proof.Machine

theorem exec_exit (h : Hdr) (s : State) : exec (.exit h) s = execExit h s := rfl
theorem exec_trap (h : Hdr) (imm : BitVec 14) (s : State) : exec (.trap h imm) s = execTrap h imm s := rfl
theorem exec_bkpt (h : Hdr) (s : State) : exec (.bkpt h) s = execBkpt h s := rfl

/-- A word that has set the program counter itself, and whose effect keeps what every effect keeps. -/
theorem lands_of_kept {i : Instr} {s u : State} {k : State → Res} (h : Runs i s) (hx : exec i s = issue i s k)
    (hk : k (begin_ i s) = .moved u) (hkeep : Keeps (begin_ i s) u) : Lands i s u :=
  lands_of h hx hk (hkeep.chain (begin_chain h))

/-- EXIT of a SIMT thread that leaves no signature and waits for nothing (R154, R169). -/
theorem exit_retires {h : Hdr} {s : State} {team idx : Nat} (hr : Runs (.exit h) s) (hcur : s.cur = .simt team idx) {b : State}
    (hb : begin_ (.exit h) s = b) (horphan : orphans b = false) (hheld : b.fenceHeld = false) (hfence : b.fencing = false)
    (hasks : b.myAsks = []) : Lands (.exit h) s { b with th := { b.th.complete with wait := .retired } } := by
  subst hb
  have hcur' : (begin_ (.exit h) s).cur = .simt team idx := (begin_cur ..).trans hcur
  refine lands_of_kept hr (exec_exit h s) ?_ (Keeps.refl _).lit
  simp [hcur', horphan, hheld, hfence, hasks]

/-- EXIT of a host core at H stops it (R155). -/
theorem exit_stops {h : Hdr} {s : State} {n : Nat} (hr : Runs (.exit h) s) (hcur : s.cur = .host n) (hlevel : s.th.level = .h) {b : State}
    (hb : begin_ (.exit h) s = b) : Lands (.exit h) s { b with th := { b.th.complete with wait := .stopped } } := by
  subst hb
  have hcur' : (begin_ (.exit h) s).cur = .host n := (begin_cur ..).trans hcur
  have hlevel' : (begin_ (.exit h) s).th.level = .h := (begin_level ..).trans hlevel
  refine lands_of_kept hr (exec_exit h s) ?_ (Keeps.refl _).lit
  simp only [hcur', hlevel']

/-- EXIT of a host core at S or U is an ECALL of code 0 (R155, R203): it enters the H bank from S and the S bank from U. -/
theorem exit_calls {h : Hdr} {s : State} {n : Nat} (hr : Runs (.exit h) s) (hcur : s.cur = .host n)
    (hlevel : s.th.level = .s ∨ s.th.level = .u) :
    Lands (.exit h) s ((begin_ (.exit h) s).enterBank n (s.th.level == .s) 0x100 0 (nextIndex (.exit h) s)) := by
  have hcur' : (begin_ (.exit h) s).cur = .host n := (begin_cur ..).trans hcur
  refine lands_of_kept hr (exec_exit h s) ?_ (State.enterBank_keeps (Keeps.refl _) ..)
  rcases hlevel with hs | hu
  · have hs' : (begin_ (.exit h) s).th.level = .s := (begin_level ..).trans hs
    simp only [hcur', hs', hs, State.ecall, nextIndex_begin]
    rfl
  · have hu' : (begin_ (.exit h) s).th.level = .u := (begin_level ..).trans hu
    simp only [hcur', hu', hu, State.ecall, nextIndex_begin]
    rfl

/-- TRAP takes its trap with its code in TVAL and goes on after itself (R156). -/
theorem trap_lands {h : Hdr} {imm : BitVec 14} {s : State} (hr : Runs (.trap h imm) s) :
    Lands (.trap h imm) s ((begin_ (.trap h imm) s).takeTrap .trapsw (imm.setWidth 64) (nextIndex (.trap h imm) s)) := by
  refine lands_of_kept hr (exec_trap h imm s) ?_ (State.takeTrap_keeps (Keeps.refl _) ..)
  rw [nextIndex_begin]

/-- BKPT takes its trap and restarts at itself (R156). -/
theorem bkpt_lands {h : Hdr} {s : State} (hr : Runs (.bkpt h) s) :
    Lands (.bkpt h) s ((begin_ (.bkpt h) s).takeTrap .bkpt 0 s.th.w) := by
  have hw : (begin_ (.bkpt h) s).th.w = s.th.w := by rw [begin_th]
  refine lands_of_kept hr (exec_bkpt h s) ?_ (State.takeTrap_keeps (Keeps.refl _) ..)
  rw [hw]

/-- Settles O28: EXIT by the kind of its thread and its level, TRAP and BKPT by their traps. -/
theorem systemWords : Obligations.SystemWords := by
  unfold Obligations.SystemWords
  exact ⟨fun h s hr => ⟨fun t x hcur horphan hheld hfence hasks => exit_retires hr hcur rfl horphan hheld hfence hasks,
      fun n hcur hlevel => exit_stops hr hcur hlevel rfl, fun n hcur hlevel => exit_calls hr hcur hlevel⟩,
    fun h imm s hr => trap_lands hr, fun h s hr => bkpt_lands hr⟩

end Sys2Proof.Machine
end

section
/-! SUPPORT. Convergence registers (R165-R167), the signatures of a collective (R168), and the values of the collectives (R170). -/

namespace Sys2Proof.Machine

/-! The registers (R166, R167) -/

theorem exec_cdecl (h : Hdr) (w : BitVec 4) (a : Opnd) (s : State) : exec (.cdecl h w a) s = execCdecl h w a s := rfl
theorem exec_crst (h : Hdr) (w : BitVec 4) (s : State) : exec (.crst h w) s = execCrst h w s := rfl
theorem exec_shfl (h : Hdr) (d a c : Opnd) (s : State) : exec (.shfl h d a c) s = execShfl h d a c s := rfl
theorem exec_vote (h : Hdr) (d a c : Opnd) (s : State) : exec (.vote h d a c) s = execVote h d a c s := rfl
theorem exec_rdx (h : Hdr) (d a c : Opnd) (s : State) : exec (.rdx h d a c) s = execRdx h d a c s := rfl

theorem modTeam_level (s : State) (n : Nat) (f : Team → Team) : (s.modTeam n f).th.level = s.th.level :=
  congrArg Thread.level (State.modTeam_th ..)

section Registers
variable {s b : State} {team idx : Nat} {t : Team} {h : Hdr} {w : BitVec 4}

section Cdecl
variable {a : Opnd} (hr : Runs (.cdecl h w a) s) (hcur : s.cur = .simt team idx) (hb : begin_ (.cdecl h w a) s = b)
  (ht : b.teamOf b.cur = some t) (hne : b.src h 1 a ≠ 0) (hlt : (b.src h 1 a).toNat < 2 ^ t.groups)
  (hmem : (b.src h 1 a).getLsbD (idx / 32) = true)
include hr hcur hb ht hne hlt hmem

/-- CDECL of the set that its register has already changes nothing (R166). -/
theorem cdecl_repeats (hset : (t.cv w.toNat).set = b.src h 1 a) : Takes (.cdecl h w a) s b := by
  subst hb
  have hcur' := (begin_cur (.cdecl h w a) s).trans hcur
  rw [hcur'] at ht
  refine takes_of hr (exec_cdecl h w a s) ?_ (begin_chain hr) (begin_level ..)
  have hne' : ¬ (begin_ (.cdecl h w a) s).src h 1 a = 0#32 := hne
  simp [hcur', ht, hset, hne', Nat.not_le.2 hlt, hmem]

/-- CDECL of a free register gives it its set (R166). -/
theorem cdecl_declares (hset : (t.cv w.toNat).set = 0) :
    Takes (.cdecl h w a) s (b.modTeam team fun t' => t'.setCv w.toNat { t.cv w.toNat with set := b.src h 1 a }) := by
  subst hb
  have hcur' := (begin_cur (.cdecl h w a) s).trans hcur
  rw [hcur'] at ht
  refine takes_of hr (exec_cdecl h w a s) ?_ ((modTeam_chain ..).trans (begin_chain hr)) ((modTeam_level ..).trans (begin_level ..))
  have hne' : ¬ (begin_ (.cdecl h w a) s).src h 1 a = 0#32 := hne
  simp [hcur', ht, hset, hne', Nat.not_le.2 hlt, hmem]

end Cdecl

/-- CRST of a free register changes nothing (R167). -/
theorem crst_of_free (hr : Runs (.crst h w) s) (hcur : s.cur = .simt team idx) (hb : begin_ (.crst h w) s = b)
    (ht : b.teamOf b.cur = some t) (hset : (t.cv w.toNat).set = 0) : Takes (.crst h w) s b := by
  subst hb
  have hcur' := (begin_cur (.crst h w) s).trans hcur
  rw [hcur'] at ht
  refine takes_of hr (exec_crst h w s) ?_ (begin_chain hr) (begin_level ..)
  simp [hcur', ht, hset]

/-- CRST by a thread of the set, with no operation begun, empties the register (R167). -/
theorem crst_empties (hr : Runs (.crst h w) s) (hcur : s.cur = .simt team idx) (hb : begin_ (.crst h w) s = b)
    (ht : b.teamOf b.cur = some t) (hmem : (t.cv w.toNat).set.getLsbD (idx / 32) = true) (hop : (t.cv w.toNat).op = none) :
    Takes (.crst h w) s (b.modTeam team fun t => t.setCv w.toNat {}) := by
  subst hb
  have hcur' := (begin_cur (.crst h w) s).trans hcur
  rw [hcur'] at ht
  have hne : ¬ (t.cv w.toNat).set = 0#32 := by
    intro hzero
    simp [hzero] at hmem
  refine takes_of hr (exec_crst h w s) ?_ ((modTeam_chain ..).trans (begin_chain hr)) ((modTeam_level ..).trans (begin_level ..))
  simp [hcur', ht, hne, hmem, hop]

end Registers

/-! Signatures (R168) -/

/-- The thread waits at a register with its l registers void. -/
def State.waitsAt (b : State) (cv : Nat) : State := { b.voidL with th := { b.voidL.th with wait := .converge cv } }

@[simp] theorem waitsAt_level (b : State) (cv : Nat) : (b.waitsAt cv).th.level = b.th.level := by
  simp only [State.waitsAt, voidL_th, Thread.voidL_level]

/-- A signature changes no thread. -/
theorem addSign_th (s : State) (team : Nat) (t : Team) (cv opcode : Nat) (fixed : List Nat) (g : Sign) :
    (addSign s team t cv opcode fixed g).1.th = s.th := by
  unfold addSign
  dsimp only
  split_ifs <;> exact State.modTeam_th ..

/-- A collective's results change no level. -/
theorem performCollective_level (s : State) (team : Nat) (set : Word) (o : ConvOp) :
    (performCollective s team set o).th.level = s.th.level := by
  unfold performCollective
  refine foldl_level (fun s g => ?_) o.signs s
  exact modThread_level s _ fun t => rfl

/-- A signature that passes the checks of Table 7.3 waits, and the last one performs the operation. -/
theorem signCollective_passes {i : Instr} {b : State} {team idx : Nat} {t : Team} (hcur : b.cur = .simt team idx)
    (ht : b.teamOf b.cur = some t) {opcode : Nat} {d : Opnd} {x ctl fixed : Word}
    (hpass : signTrap b team t (ctl.toNat % 16) opcode [fixed.toNat] idx = none) {r : State × Option (Word × ConvOp)}
    (hsign : addSign (b.waitsAt (ctl.toNat % 16)) team t (ctl.toNat % 16) opcode [fixed.toNat]
      ⟨idx, x, ctl, if d.isReg then d.code else 0x7C⟩ = r) :
    signCollective i b opcode d x ctl fixed = .ok (match r.2 with
      | some (set, o) => performCollective r.1 team set o
      | none => r.1) := by
  rw [hcur] at ht
  unfold State.waitsAt at hsign
  obtain ⟨u, _ | ⟨set, o⟩⟩ := r
  · simp only [signCollective, hcur, ht, hpass, hsign]
  · simp only [signCollective, hcur, ht, hpass, hsign]

/-- A word that comes to a signature in its thread. -/
theorem takes_of_signs {i : Instr} {s b : State} {k : State → Res} {team idx : Nat} {t : Team} (hr : Runs i s)
    (hcur : s.cur = .simt team idx) (hx : exec i s = issue i s k) (hb : begin_ i s = b) (ht : b.teamOf b.cur = some t) {opcode : Nat}
    {d : Opnd} {x ctl fixed : Word} (hk : k b = signCollective i b opcode d x ctl fixed)
    (hpass : signTrap b team t (ctl.toNat % 16) opcode [fixed.toNat] idx = none) :
    let r := addSign (b.waitsAt (ctl.toNat % 16)) team t (ctl.toNat % 16) opcode [fixed.toNat]
      ⟨idx, x, ctl, if d.isReg then d.code else 0x7C⟩
    (r.2 = none → Takes i s r.1) ∧ ∀ set o, r.2 = some (set, o) → Takes i s (performCollective r.1 team set o) := by
  subst hb
  intro r
  have hkeep : Res.Keeps (begin_ i s) (k (begin_ i s)) := hk ▸ signCollective_keeps (Keeps.refl _) ..
  have hsigned := hk.trans (signCollective_passes ((begin_cur i s).trans hcur) ht hpass (r := r) rfl)
  have hlevel : r.1.th.level = s.th.level := by rw [addSign_th, waitsAt_level, begin_level]
  refine ⟨fun hwaits => ?waits, fun set o hlast => ?last⟩
  case waits =>
    rw [hwaits] at hsigned
    exact takes_of_keeps hr hx hkeep hsigned hlevel
  case last =>
    rw [hlast] at hsigned
    exact takes_of_keeps hr hx hkeep hsigned ((performCollective_level ..).trans hlevel)

/-! The control words of the collectives (Table 7.3) -/

/-- A control word that SHFL takes is not refused. -/
theorem shfl_control {x : Word} (hgood : (x.toNat < 4096 && !x.getLsbD 6) = true) :
    (x.toNat / 2 ^ 12 ≠ 0 || x.getLsbD 6) = false := by
  rw [Bool.and_eq_true, decide_eq_true_eq, Bool.not_eq_true'] at hgood
  obtain ⟨hlt, h6⟩ := hgood
  rw [Nat.div_eq_of_lt (b := 2 ^ 12) hlt, h6]
  rfl

/-- A control word that VOTE takes is not refused: no ballot of more than one group. -/
theorem vote_control {x : Word} (hgood : (x.toNat < 128 && !(x.getLsbD 6 && x.toNat / 16 % 4 == 2)) = true) :
    (x.toNat / 2 ^ 7 ≠ 0 || (x.getLsbD 6 && x.toNat / 16 % 4 = 2)) = false := by
  rw [Bool.and_eq_true, decide_eq_true_eq, Bool.not_eq_true'] at hgood
  obtain ⟨hlt, hballot⟩ := hgood
  rw [Nat.div_eq_of_lt (b := 2 ^ 7) hlt]
  exact hballot

/-- A control word that RDX takes is not refused. -/
theorem rdx_control {x : Word} (hgood : (x.toNat < 1024 && x.toNat / 16 % 16 < 11) = true) :
    (x.toNat / 2 ^ 10 ≠ 0 || 11 ≤ x.toNat / 16 % 16) = false := by
  rw [Bool.and_eq_true, decide_eq_true_eq, decide_eq_true_eq] at hgood
  obtain ⟨hlt, hop⟩ := hgood
  rw [Nat.div_eq_of_lt (b := 2 ^ 10) hlt, decide_eq_false (Nat.not_le.2 hop)]
  rfl

/-! The values of the collectives (R170) -/

/-- The source lane of SHFL by its mode, which is a lane of the group. -/
theorem shflLane_modes (ctl : Word) {l : Nat} (hl : l < 32) :
    let n := ctl.toNat / 128 % 32
    shflLane ctl l < 32
    ∧ (ctl.toNat / 16 % 4 = 0 → shflLane ctl l = n)
    ∧ (ctl.toNat / 16 % 4 = 1 → shflLane ctl l = if n ≤ l then l - n else l)
    ∧ (ctl.toNat / 16 % 4 = 2 → shflLane ctl l = if l + n ≤ 31 then l + n else l)
    ∧ (ctl.toNat / 16 % 4 = 3 → shflLane ctl l = l ^^^ n) := by
  intro n
  have hn : n < 32 := Nat.mod_lt _ (by decide)
  refine ⟨?lane, fun h => ?idx, fun h => ?up, fun h => ?down, fun h => ?bfly⟩
  case lane =>
    have hxor : l ^^^ n < 32 := Nat.xor_lt_two_pow (n := 5) hl hn
    unfold shflLane
    dsimp only
    split
    · exact hn
    · split_ifs <;> omega
    · split_ifs <;> omega
    · exact hxor
  case idx => simp only [shflLane, h, n]
  case up => simp only [shflLane, h, ← Nat.not_le, ite_not, n]
  case down => simp only [shflLane, h, ← Nat.not_le, ite_not, n]
  case bfly => simp only [shflLane, h, n]

theorem voteOf_all (l : List (Nat × Word)) : voteOf 0 l = if ∀ p ∈ l, p.2 ≠ 0 then 1 else 0 := by
  simp only [voteOf, List.all_eq_true, decide_eq_true_eq]

theorem voteOf_any (l : List (Nat × Word)) : voteOf 1 l = if ∃ p ∈ l, p.2 ≠ 0 then 1 else 0 := by
  simp only [voteOf, List.any_eq_true, decide_eq_true_eq]

/-- Every vote is the first one exactly when any two are the same. -/
theorem voteOf_uniform (l : List (Nat × Word)) : voteOf 3 l = if ∀ p ∈ l, ∀ q ∈ l, p.2 = q.2 then 1 else 0 := by
  cases l with
  | nil => simp [voteOf]
  | cons p l =>
    have hsame : (∀ q ∈ l, q.2 = p.2) ↔ ∀ q ∈ p :: l, ∀ r ∈ p :: l, q.2 = r.2 := by
      refine ⟨fun h => ?_, fun h q hq => h q (List.mem_cons_of_mem _ hq) p List.mem_cons_self⟩
      have hp : ∀ q ∈ p :: l, q.2 = p.2 := List.forall_mem_cons.2 ⟨rfl, h⟩
      exact fun q hq r hr => (hp q hq).trans (hp r hr).symm
    simp only [voteOf, List.all_eq_true, decide_eq_true_eq, hsame]

/-- One thread more adds its bit to the ballot. -/
theorem ballot_cons (p : Nat × Word) (l : List (Nat × Word)) (hp : p.1 < 32) :
    voteOf 2 (p :: l) = voteOf 2 l + if p.2 ≠ 0 then BitVec.twoPow 32 p.1 else 0 := by
  have hsum : voteOf 2 (p :: l) = .ofNat 32 (if p.2 ≠ 0 then 2 ^ (p.1 % 32) else 0) + voteOf 2 l := BitVec.ofNat_add ..
  have hbit : BitVec.ofNat 32 (2 ^ p.1) = BitVec.twoPow 32 p.1 :=
    BitVec.eq_of_toNat_eq (by rw [BitVec.toNat_ofNat, BitVec.toNat_twoPow])
  rw [hsum, BitVec.add_comm, Nat.mod_eq_of_lt hp]
  split_ifs
  · rw [hbit]
  · rfl

/-- The ballot of different lanes has the bits of those that vote: bits of different threads do not carry. -/
theorem ballot_getLsbD {l : List (Nat × Word)} (hnodup : (l.map (·.1)).Nodup) (hlanes : ∀ p ∈ l, p.1 < 32) {k : Nat} (hk : k < 32) :
    (voteOf 2 l).getLsbD k = decide (∃ p ∈ l, p.1 = k ∧ p.2 ≠ 0) := by
  induction l generalizing k with
  | nil => simp [voteOf]
  | cons p l ih =>
    obtain ⟨hnew, hrest⟩ := List.nodup_cons.1 (List.map_cons ▸ hnodup)
    obtain ⟨hp, hlanes'⟩ := List.forall_mem_cons.1 hlanes
    have hclear : (voteOf 2 l).getLsbD p.1 = false := by
      rw [ih hrest hlanes' hp, decide_eq_false_iff_not]
      rintro ⟨q, hq, heq, -⟩
      exact hnew (List.mem_map.2 ⟨q, hq, heq⟩)
    rw [ballot_cons p l hp]
    by_cases hzero : p.2 = 0
    · simp [hzero, ih hrest hlanes' hk]
    · have hdisjoint : voteOf 2 l &&& BitVec.twoPow 32 p.1 = 0#32 := by
        rw [BitVec.and_twoPow, hclear]
        rfl
      rw [if_pos hzero, BitVec.add_eq_or_of_and_eq_zero _ _ hdisjoint, BitVec.getLsbD_or, ih hrest hlanes' hk, BitVec.getLsbD_twoPow]
      have hmem : (∃ q ∈ p :: l, q.1 = k ∧ q.2 ≠ 0) ↔ (∃ q ∈ l, q.1 = k ∧ q.2 ≠ 0) ∨ p.1 = k := by
        rw [List.exists_mem_cons_iff, and_iff_left hzero, or_comm]
      simp only [hmem, hp, decide_true, Bool.true_and, Bool.decide_or]

theorem ballot_bit {l : List (Nat × Word)} (hnodup : (l.map (·.1)).Nodup) (hlanes : ∀ p ∈ l, p.1 < 32) {p : Nat × Word}
    (hp : p ∈ l) : (voteOf 2 l).getLsbD p.1 = decide (p.2 ≠ 0) := by
  rw [ballot_getLsbD hnodup hlanes (hlanes p hp)]
  refine decide_eq_decide.2 ⟨?_, fun hvotes => ⟨p, hp, rfl, hvotes⟩⟩
  rintro ⟨q, hq, hlane, hvotes⟩
  rwa [← List.inj_on_of_nodup_map hnodup hq hp hlane]

/-- The signed minimum of a reduction is the minimum of the integers. -/
theorem foldl_smin_toInt (x : Word) (l : List Word) : (l.foldl smin x).toInt = l.foldl (fun m y => min m y.toInt) x.toInt := by
  refine (List.foldl_hom BitVec.toInt fun m y => ?_).symm
  rw [smin_eq]
  split_ifs <;> omega

/-- The unsigned maximum of a reduction is the maximum of the naturals. -/
theorem foldl_umax_toNat (x : Word) (l : List Word) : (l.foldl umax x).toNat = l.foldl (fun m y => max m y.toNat) x.toNat := by
  refine (List.foldl_hom BitVec.toNat fun m y => ?_).symm
  rw [umax_eq]
  split_ifs <;> omega

/-- Settles O32: the registers by what they hold, a signature by whether it is the last, and each value by its own lemma. -/
theorem convergence : Obligations.Convergence := by
  unfold Obligations.Convergence
  refine ⟨⟨fun h w a s team idx t hr hcur => ?cdecl, fun h w s team idx t hr hcur => ?crst, fun h d a c => ⟨?shfl, ?vote, ?rdx⟩⟩,
    fun ctl l hl => shflLane_modes ctl hl, fun l => ⟨voteOf_all l, voteOf_any l, voteOf_uniform l⟩,
    fun l hnodup hlanes p hp => ballot_bit hnodup hlanes hp,
    fun x l => ⟨rfl, rfl, rfl, rfl, foldl_smin_toInt x l, foldl_umax_toNat x l⟩⟩
  case cdecl =>
    exact fun ht hne hlt hmem => ⟨fun hset => cdecl_repeats hr hcur rfl ht hne hlt hmem hset,
      fun hset => cdecl_declares hr hcur rfl ht hne hlt hmem hset⟩
  case crst =>
    exact fun ht => ⟨fun hset => crst_of_free hr hcur rfl ht hset, fun hmem hop => crst_empties hr hcur rfl ht hmem hop⟩
  case shfl =>
    intro s team idx t hr hcur b ctl cv ht hgood hpass
    exact takes_of_signs hr hcur (exec_shfl h d a c s) rfl ht (if_neg (Bool.eq_false_iff.1 (shfl_control hgood))) hpass
  case vote =>
    intro s team idx t hr hcur b ctl cv ht hgood hpass
    exact takes_of_signs hr hcur (exec_vote h d a c s) rfl ht (if_neg (Bool.eq_false_iff.1 (vote_control hgood))) hpass
  case rdx =>
    intro s team idx t hr hcur b ctl cv ht hgood hpass
    exact takes_of_signs hr hcur (exec_rdx h d a c s) rfl ht (if_neg (Bool.eq_false_iff.1 (rdx_control hgood))) hpass

end Sys2Proof.Machine
end

section
/-! SUPPORT. The signatures of MMA and MMAJ (R171-R176): what a signature that meets no trap leaves of its thread, and the operation that the
last one performs. -/

namespace Sys2Proof.Machine

theorem exec_mma (h : Hdr) (tl : BitVec 7) (a c : Opnd) (x : MmaCtl) (s : State) : exec (.mma h tl a c x) s = execMma h tl a c x s := rfl
theorem exec_mmaj (h : Hdr) (tl : BitVec 7) (a c : Opnd) (x : MmaCtl) (s : State) : exec (.mmaj h tl a c x) s = execMmaj h tl a c x s := rfl

/-! The parts of a signature -/

/-- The B region of an operation, where its lead thread has signed (R175). -/
def ConvOp.base (o : ConvOp) (groups : List Nat) : Option Nat := match o.sign? (32 * groups.headD 0) with
  | some g => some (g.a.toNat % 2 ^ 28)
  | none => none

/-- What the thread's record keeps of the B region: none of it while the lead thread has not signed. -/
def ConvOp.region (o : ConvOp) (groups : List Nat) : Nat × Nat := match o.base groups with
  | some r => (r, regionSize)
  | none => (0, 0)

/-- The thread's record of an operation learns where the B region lies. -/
def MxOut.told (m : MxOut) (op : Nat) (region : Option (Nat × Nat)) : MxOut :=
  if m.op = op then { m with region := region, spoilt := m.spoilt || m.stores.any (fun p => { m with region := region }.hitBy p.1 p.2) } else m

/-- The lead thread tells every signer where the B region lies. -/
def State.tellRegion (s : State) (team : Nat) (o : ConvOp) (region : Option (Nat × Nat)) : State :=
  o.signs.foldl (fun s g => s.modThread (.simt team g.idx) fun t => { t with mx := t.mx.map fun m => m.told o.op region }) s

/-- The operation is kept outstanding in the thread (R181). -/
def State.keepOut (s : State) (o : ConvOp) (tiles codes : List Nat) (region : Option (Nat × Nat)) : State :=
  { s with th := { s.th with mx := s.th.mx ++ [{
    op := o.op, tiles := tiles, codes := codes, region := region, signed := true, done := false
    olds := (s.th.early.filter fun e => codes.contains e.code && s.time < e.at_).map fun e => (e.code, e.old) }] } }

/-- The operation that the last signature performs, with what its signers recorded of it. -/
def State.opOf (w : State) (team tile : Nat) (groups : List Nat) (x : MmaCtl) (a c : Opnd) (j : Bool) (o : ConvOp) : MxOp :=
  let outs := o.signs.filterMap fun g => (w.thread? (.simt team g.idx)).bind fun t => t.mx.find? fun m => m.op = o.op
  ⟨team, tile, groups, x, a.code, c.code, if j then o.base groups else none, outs.any (·.spoilt), outs.flatMap (·.rows)⟩

/-- The operation that a signature belongs to: the one it completes, or the one that its register goes on gathering. -/
def signedOp (r : State × Option (Word × ConvOp)) (team : Nat) (t : Team) (cv opcode : Nat) (fixed : List Nat) : ConvOp := match r.2 with
  | some (_, o) => o
  | none => (((r.1.teams.find team).getD t).cv cv).op.getD ⟨opcode, fixed, [], 0⟩

/-- What a signature of the operation `o` leaves, before the operation is performed. -/
def State.signedMx (u : State) (team idx : Nat) (groups : List Nat) (tile : Nat) (codes : List Nat) (j : Bool) (o : ConvOp) : State :=
  let region := if j then some (o.region groups) else none
  let w := u.keepOut o ((List.range groups.length).map (tile + ·)) codes region
  if j && decide (idx = 32 * groups.headD 0) then w.tellRegion team o region else w

/-! What they leave of the thread -/

/-- The thread keeps a record of an outstanding operation with these registers and tiles. -/
def State.Records (s : State) (codes tiles : List Nat) : Prop := ∃ m ∈ s.th.mx, m.codes = codes ∧ m.tiles = tiles

theorem told_codes (m : MxOut) (op : Nat) (region : Option (Nat × Nat)) : (m.told op region).codes = m.codes := by
  unfold MxOut.told
  split <;> rfl

theorem told_tiles (m : MxOut) (op : Nat) (region : Option (Nat × Nat)) : (m.told op region).tiles = m.tiles := by
  unfold MxOut.told
  split <;> rfl

theorem modThread_mx_unmoved (s : State) (i : ThreadId) (f : Thread → List MxOut) :
    Unmoved s (s.modThread i fun t => { t with mx := f t }) := by
  unfold State.modThread State.thread? State.setThread
  split_ifs with hi
  · exact unmoved_notes s (f s.th) s.th.sts s.th.seen
  · split
    · exact unmoved_of rfl rfl
    · exact Unmoved.refl s

theorem modThread_told_records {s : State} {codes tiles : List Nat} (h : s.Records codes tiles) (i : ThreadId) (op : Nat)
    (region : Option (Nat × Nat)) :
    (s.modThread i fun t => { t with mx := t.mx.map fun m => m.told op region }).Records codes tiles := by
  unfold State.modThread State.thread? State.setThread
  split_ifs with hi
  · obtain ⟨m, hm, hcodes, htiles⟩ := h
    exact ⟨m.told op region, List.mem_map_of_mem hm, (told_codes ..).trans hcodes, (told_tiles ..).trans htiles⟩
  · split
    · exact h
    · exact h

theorem tellRegion_unmoved (s : State) (team : Nat) (o : ConvOp) (region : Option (Nat × Nat)) : Unmoved s (s.tellRegion team o region) :=
  List.foldlRecOn o.signs _ (Unmoved.refl s) fun _ hs g _ => hs.trans (modThread_mx_unmoved _ (.simt team g.idx) _)

theorem tellRegion_records {s : State} {codes tiles : List Nat} (h : s.Records codes tiles) (team : Nat) (o : ConvOp)
    (region : Option (Nat × Nat)) : (s.tellRegion team o region).Records codes tiles :=
  List.foldlRecOn (motive := fun w : State => w.Records codes tiles) o.signs _ h fun _ hs g _ =>
    modThread_told_records hs (.simt team g.idx) o.op region

theorem keepOut_unmoved (s : State) (o : ConvOp) (tiles codes : List Nat) (region : Option (Nat × Nat)) :
    Unmoved s (s.keepOut o tiles codes region) :=
  unmoved_notes s _ s.th.sts s.th.seen

theorem keepOut_records (s : State) (o : ConvOp) (tiles codes : List Nat) (region : Option (Nat × Nat)) :
    (s.keepOut o tiles codes region).Records codes tiles :=
  ⟨_, List.mem_append_right _ (List.mem_singleton_self _), rfl, rfl⟩

section Signed
variable (u : State) (team idx : Nat) (groups : List Nat) (tile : Nat) (codes : List Nat) (j : Bool) (o : ConvOp)

theorem signedMx_unmoved : Unmoved u (u.signedMx team idx groups tile codes j o) := by
  unfold State.signedMx
  dsimp only
  split
  · exact (keepOut_unmoved ..).trans (tellRegion_unmoved ..)
  · exact keepOut_unmoved ..

theorem signedMx_records :
    (u.signedMx team idx groups tile codes j o).Records codes ((List.range groups.length).map (tile + ·)) := by
  unfold State.signedMx
  dsimp only
  split
  · exact tellRegion_records (keepOut_records ..) ..
  · exact keepOut_records ..

end Signed

theorem useSeen_unmoved (s : State) (team : Nat) : Unmoved s (s.useSeen team) := by
  unfold State.useSeen
  split
  · exact Unmoved.refl s
  · dsimp only
    split
    · split_ifs
      · exact (unmoved_notes s s.th.mx _ []).trans (unmoved_of rfl rfl)
      · exact (unmoved_notes s s.th.mx s.th.sts []).trans (unmoved_of rfl rfl)
    · exact (unmoved_notes s s.th.mx s.th.sts []).trans (unmoved_of rfl rfl)

theorem addSign_unmoved (s : State) (team : Nat) (t : Team) (cv opcode : Nat) (fixed : List Nat) (g : Sign) :
    Unmoved s (addSign s team t cv opcode fixed g).1 := by
  refine unmoved_of (addSign_th ..) ?_
  unfold addSign
  dsimp only
  split_ifs <;> exact State.modTeam_mem ..

theorem perform_unmoved (s : State) (team : Nat) (t : Team) (pri tile : Nat) (set : Word) (o : ConvOp) (m : MxOp) :
    Unmoved s (s.perform team t pri tile set o m) := unmoved_of rfl rfl

theorem Unmoved.finalPred_eq {s u : State} (h : Unmoved s u) (n : Nat) : u.finalPred n = s.finalPred n := by
  obtain ⟨-, -, hpreds, -⟩ := h.regs
  exact hpreds n

/-! The signature -/

/-- A thread that may sign is of a group of its register's set. -/
theorem member_of_signTrap {s : State} {team cv opcode idx : Nat} {t : Team} {fixed : List Nat}
    (h : signTrap s team t cv opcode fixed idx = none) : idx / 32 ∈ setGroups (t.cv cv).set := by
  have hbit : (t.cv cv).set.getLsbD (idx / 32) = true := by
    by_contra hout
    simp [signTrap, Bool.eq_false_iff.2 hout] at h
  exact List.mem_filter.2 ⟨List.mem_range.2 (BitVec.lt_of_getLsbD hbit), hbit⟩

/-- The lowest of an operation's tiles is the one that its words name. -/
theorem headD_tiles {groups : List Nat} (h : groups ≠ []) (tile d : Nat) : ((List.range groups.length).map (tile + ·)).headD d = tile := by
  obtain ⟨g, rest, rfl⟩ := List.exists_cons_of_ne_nil h
  simp [List.range_succ_eq_map]

theorem regionTrap_none {l : Launch} {x : Word} (h16 : x.toNat % 2 ^ 28 % 16 = 0) (hown : x.toNat / 2 ^ 28 = 15)
    (hin : x.toNat % 2 ^ 28 + 2144 ≤ l.scratch) : regionTrap l x = none := by
  have hfits : ¬ l.scratch < x.toNat % 2 ^ 28 + regionSize := Nat.not_lt.2 hin
  simp only [regionTrap, h16, hown, hfits, ne_eq, not_true_eq_false, decide_false, Bool.or_self, Bool.false_eq_true, if_false]

/-- The signature as the register takes it, with the operation where it is the last. -/
def State.sign (b : State) (team idx : Nat) (t : Team) (opcode tile : Nat) (a c : Opnd) (x : MmaCtl) (addr : Word) :
    State × Option (Word × ConvOp) :=
  addSign (if opcode = 0xE1 then b.useSeen team else b) team t x.cv.toNat opcode [tile, a.code, c.code, mmaExt x] ⟨idx, addr, 0, 0x7C⟩

section Signature
variable {b : State} {team idx n : Nat} {t : Team} {l : Launch} {opcode tile : Nat} {a c : Opnd} {x : MmaCtl} {addr : Word}

theorem sign_unmoved : Unmoved b (b.sign team idx t opcode tile a c x addr).1 := by
  unfold State.sign
  refine Unmoved.trans ?_ (addSign_unmoved ..)
  split
  · exact useSeen_unmoved b team
  · exact Unmoved.refl b

/-- What a signature comes to, and the operation performed where it is the last. -/
def afterSign (r : State × Option (Word × ConvOp)) (team idx : Nat) (t : Team) (l : Launch) (opcode tile : Nat) (a c : Opnd)
    (x : MmaCtl) : State :=
  let groups := setGroups (t.cv x.cv.toNat).set
  let j := decide (opcode = 0xE1)
  let w := r.1.signedMx team idx groups tile (mxCodes a c x j) j (signedOp r team t x.cv.toNat opcode [tile, a.code, c.code, mmaExt x])
  match r.2 with
  | none => w
  | some (set, o) => w.perform team t l.pri tile set o (w.opOf team tile groups x a c j o)

/-- A signature that meets no trap of Table 7.3, of the tile and of the B region (R175, R176). -/
theorem signMatrix_passes {i : Instr} {any : Bool} (hcur : b.cur = .simt team idx) (ht : b.teamOf b.cur = some t)
    (hl : b.launchOf b.cur = some (n, l))
    (hpass : signTrap b team t x.cv.toNat opcode [tile, a.code, c.code, mmaExt x] idx = none)
    (htile : tile + ((setGroups (t.cv x.cv.toNat).set).filter (· < idx / 32)).length < l.tiles)
    (hregion : opcode = 0xE1 → idx = 32 * (setGroups (t.cv x.cv.toNat).set).headD 0 → regionTrap l addr = none) :
    signMatrix i b opcode tile a c x addr any
      = .ok (afterSign (b.sign team idx t opcode tile a c x addr) team idx t l opcode tile a c x) := by
  have hnone : (if (decide (opcode = 0xE1) && decide (idx = 32 * (setGroups (t.cv x.cv.toNat).set).headD 0) && !any) = true
      then regionTrap l addr else none) = none := by
    split_ifs with hlead
    · simp only [Bool.and_eq_true, decide_eq_true_eq] at hlead
      obtain ⟨⟨hj, hidx⟩, -⟩ := hlead
      exact hregion hj hidx
    · rfl
  rw [hcur] at ht hl
  simp only [signMatrix, hcur, ht, hl, hpass, Nat.not_le.2 htile, hnone, if_false]
  unfold State.sign afterSign State.signedMx State.opOf
  simp only [decide_eq_true_eq]
  rcases addSign _ team t x.cv.toNat opcode _ _ with ⟨u, _ | ⟨set, o⟩⟩
  · rfl
  · rfl

theorem afterSign_unmoved {r : State × Option (Word × ConvOp)} (h : Unmoved b r.1) :
    Unmoved b (afterSign r team idx t l opcode tile a c x) := by
  unfold afterSign
  dsimp only
  split
  · exact h.trans (signedMx_unmoved ..)
  · exact (h.trans (signedMx_unmoved ..)).trans (perform_unmoved ..)

theorem afterSign_records (r : State × Option (Word × ConvOp)) :
    (afterSign r team idx t l opcode tile a c x).Records (mxCodes a c x (opcode == 0xE1))
      ((List.range (setGroups (t.cv x.cv.toNat).set).length).map (tile + ·)) := by
  unfold afterSign
  dsimp only
  split
  · exact signedMx_records ..
  · exact signedMx_records ..

/-- The last signature performs the operation. -/
theorem afterSign_last {r : State × Option (Word × ConvOp)} {set : Word} {o : ConvOp} (h : r.2 = some (set, o)) :
    ∃ v m, afterSign r team idx t l opcode tile a c x = State.perform v team t l.pri tile set o m
      ∧ m.team = team ∧ m.tile = tile ∧ m.groups = setGroups (t.cv x.cv.toNat).set := by
  unfold afterSign
  simp only [h]
  exact ⟨_, _, rfl, rfl, rfl, rfl⟩

end Signature

/-- A word that comes to a signature of a matrix operation, in a thread that meets none of its traps. -/
theorem signature_takes {i : Instr} {s b : State} {k : State → Res} {team idx n : Nat} {t : Team} {l : Launch} {opcode tile : Nat}
    {a c : Opnd} {x : MmaCtl} {addr : Word} {any : Bool} (hr : Runs i s) (hcur : s.cur = .simt team idx)
    (hx : exec i s = issue i s k) (hb : begin_ i s = b) (hk : k b = signMatrix i b opcode tile a c x addr any)
    (ht : b.teamOf b.cur = some t) (hl : b.launchOf b.cur = some (n, l))
    (hpass : signTrap b team t x.cv.toNat opcode [tile, a.code, c.code, mmaExt x] idx = none)
    (htile : tile + ((setGroups (t.cv x.cv.toNat).set).filter (· < idx / 32)).length < l.tiles)
    (hregion : opcode = 0xE1 → idx = 32 * (setGroups (t.cv x.cv.toNat).set).headD 0 →
      addr.toNat % 2 ^ 28 % 16 = 0 ∧ addr.toNat / 2 ^ 28 = 15 ∧ addr.toNat % 2 ^ 28 + 2144 ≤ l.scratch) :
    ∃ u, Takes i s u ∧ u.mem = s.mem ∧ (∀ n, u.finalPred n = s.finalPred n)
      ∧ (∃ m, m.codes = mxCodes a c x (opcode == 0xE1) ∧ m.tiles.headD 128 = tile ∧ m ∈ u.th.mx)
      ∧ ∀ o, (b.sign team idx t opcode tile a c x addr).2 = some ((t.cv x.cv.toNat).set, o) →
        ∃ v m, u = State.perform v team t l.pri tile (t.cv x.cv.toNat).set o m ∧ m.team = team ∧ m.tile = tile
          ∧ m.groups = setGroups (t.cv x.cv.toNat).set := by
  subst hb
  have hsound : opcode = 0xE1 → idx = 32 * (setGroups (t.cv x.cv.toNat).set).headD 0 → regionTrap l addr = none := by
    intro hj hlead
    obtain ⟨h16, hown, hin⟩ := hregion hj hlead
    exact regionTrap_none h16 hown hin
  have hsigned := hk.trans (signMatrix_passes ((begin_cur i s).trans hcur) ht hl hpass htile hsound)
  obtain ⟨u, hu⟩ : ∃ u, afterSign ((begin_ i s).sign team idx t opcode tile a c x addr) team idx t l opcode tile a c x = u := ⟨_, rfl⟩
  have hunmoved : Unmoved s u := hu ▸ (begin_unmoved i s).trans (afterSign_unmoved sign_unmoved)
  obtain ⟨m, hm, hcodes, htiles⟩ : u.Records _ _ := hu ▸ afterSign_records _
  refine ⟨u, takes_of_keeps hr hx (hk ▸ signMatrix_keeps (Keeps.refl _) ..) (hsigned.trans (congrArg Res.ok hu)) hunmoved.level,
    hunmoved.mem, hunmoved.finalPred_eq, ⟨m, hcodes, ?_, hm⟩, fun o hlast => hu ▸ afterSign_last hlast⟩
  rw [htiles, headD_tiles (List.ne_nil_of_mem (member_of_signTrap hpass))]

/-- Settles O33: both words come to the signature of their own operation, MMA with no address. -/
theorem matrixSignatures : Obligations.MatrixSignatures := by
  unfold Obligations.MatrixSignatures
  exact fun h tl a c x => ⟨fun s team idx t n l hr hcur ht hl hpass htile hregion =>
      signature_takes hr hcur (exec_mma h tl a c x s) rfl rfl ht hl hpass htile hregion,
    fun s team idx t n l hr hcur ht hl hpass htile hregion =>
      signature_takes hr hcur (exec_mmaj h tl a c x s) rfl rfl ht hl hpass htile hregion⟩

end Sys2Proof.Machine
end

section
/-! SUPPORT. MDRAIN (R183, R186): the release of a REL drain, the signature that it takes, and the sectors of its own L1 that it drops. -/

namespace Sys2Proof.Machine

theorem exec_mdrain (h : Hdr) (tl : BitVec 7) (a c : Opnd) (x : DrainCtl) (s : State) :
    exec (.mdrain h tl a c x) s = execMdrain h tl a c x s := rfl

/-- What a drain leaves of the thread's release: with REL it releases first (R143). -/
def State.drainRelease (b : State) (x : DrainCtl) : State := if x.rel then b.release 4 else b

/-- The thread without the signature that the drain takes with it. -/
def State.unsigned (r : State) : State := { r with th := { r.th with pending := none } }

/-- The sectors that a drain to global memory covers, written back and dropped (R183). -/
def State.dropSectors (r : State) (core : Nat) (x : DrainCtl) (sectors : List Nat) : State :=
  if x.glb then sectors.foldl (fun s k => s.sectorHome core (r.space r.cur) (32 * k) false) r else r

/-- The sectors that the bytes of a drain lie in. -/
def drainSectors (x : DrainCtl) (dst pitch idx : Nat) (elems : List Word) : List Nat :=
  ((drainCells x pitch idx elems).map fun e => (dst + e.1) / 32).dedup

/-- The elements of a thread's two rows of a tile. -/
def Team.rowElems (t : Team) (tile idx : Nat) : List Word := (rowKeys tile idx).map fun k => Tab.getD t.tiles k 0

/-- A drain that is on its way, of a thread that may issue its next word at once. -/
def State.addDrain (u : State) (team idx : Nat) (x : DrainCtl) (dst pitch : Nat) (elems : List Word) (sp : Space) (sig : Sig) : State :=
  { u with
    serial := u.serial + 1, th := { u.th with readyAt := u.time }
    drains := u.drains ++ [⟨u.serial, team, idx, x, dst, pitch, elems, sp, sig, u.clock, false, [], none, [], none, false⟩] }

theorem dropSectors_keeps {z r : State} (h : Keeps z r) (core : Nat) (x : DrainCtl) (sectors : List Nat) :
    Keeps z (r.dropSectors core x sectors) := by
  unfold State.dropSectors
  split
  · exact Keeps.foldl (fun s k hs => State.sectorHome_keeps hs ..) h
  · exact h

theorem drainRelease_keeps (b : State) (x : DrainCtl) : Keeps b (b.drainRelease x) := by
  unfold State.drainRelease
  split
  · exact State.release_keeps (Keeps.refl b) 4
  · exact Keeps.refl b

/-- MDRAIN of a free tile that passes the checks of R183, with no access and no earlier write-back in its way. -/
theorem mdrain_takes {h : Hdr} {tl : BitVec 7} {a c : Opnd} {x : DrainCtl} {s : State} {team idx n : Nat} {t : Team} {l : Launch}
    (hr : Runs (.mdrain h tl a c x) s) {b : State} (hb : begin_ (.mdrain h tl a c x) s = b) (hf : FreeTile b tl.toNat team idx t n l)
    {dst pitch : Nat} (hdst : (if x.glb then (b.src2 1 a).toNat else (b.src h 1 a).toNat) = dst) (hpitch : (b.src h 2 c).toNat = pitch)
    (hpass : drainTrap b l x dst (b.src h 1 a) pitch idx = none) (hlate : b.spadLate = false) (hfix : x.glb = true → b.drainFix t.core < 32)
    (hrel : x.rel = true → b.fenceHeld = false ∧ b.fenceMeetsHold 1 4 false = false)
    (hmeets : b.drainMeetsHold t.core dst x pitch idx = false) (hsound : (rowKeys tl.toNat idx).any t.tpoison.contains = false)
    {r u : State} (hrdef : b.drainRelease x = r)
    (hudef : r.unsigned.dropSectors t.core x (drainSectors x dst pitch idx (t.rowElems tl.toNat idx)) = u) (hlevel : u.th.level = s.th.level) :
    Takes (.mdrain h tl a c x) s ((u.addDrain team idx x dst pitch (t.rowElems tl.toNat idx) (r.unsigned.space r.unsigned.cur)
      (r.th.pending.getD 0)).startMove t.core u.nextClock) := by
  have hkeep : Keeps b u := hudef ▸ dropSectors_keeps (hrdef ▸ drainRelease_keeps b x).lit ..
  have hroom : (x.glb && decide (32 ≤ b.drainFix t.core)) = false := by
    rw [Bool.and_eq_false_imp]
    exact fun hg => decide_eq_false (Nat.not_le.2 (hfix hg))
  have hready : (x.rel && (b.fenceHeld || b.fenceMeetsHold 1 4 false)) = false := by
    rw [Bool.and_eq_false_imp]
    intro hx
    obtain ⟨hheld, hmeet⟩ := hrel hx
    rw [hheld, hmeet]
    rfl
  refine takes_of hr (exec_mdrain h tl a c x s) ?_ ?_ ?_
  · rw [hb, hf.onTile_eq]
    simp only [hdst, hpitch, hpass, hlate, hroom, hready, hmeets, hsound, Bool.or_self, Bool.false_eq_true, if_false]
    subst hudef hrdef
    rfl
  · rw [startMove_chain]
    exact hkeep.chain (hb ▸ begin_chain hr)
  · rw [startMove_th]
    exact hlevel

/-- Settles O35: on a free tile, with the checks of R183 passed, MDRAIN releases, takes its signature and drops its sectors in that order. -/
theorem drains : Obligations.Drains := by
  unfold Obligations.Drains
  intro h tl a c x s team idx t n l hr i b sa dst pitch hcur ht hl htile hhits hpasses hmoves hpass hlate hfix hrel hmeets hsound
    elems sectors r sig r' sp u hlevel
  exact mdrain_takes hr rfl ⟨hcur, ht, hl, htile, hhits, hpasses, hmoves⟩ rfl rfl hpass hlate hfix hrel hmeets hsound rfl rfl hlevel

end Sys2Proof.Machine
end

section
/-! SUPPORT. The issue of a copy (R187-R195, R278, R458): the traps of its checks, and what joins its channel with and without a release. -/

namespace Sys2Proof.Machine

/-! The issue and its checks (R190, R195, R458) -/

theorem exec_cpyGs (h : Hdr) (a : Opnd) (e : Bool) (ch : BitVec 4) (s : State) : exec (.cpyGs h a e ch) s = execCpyGs h a e ch s := rfl
theorem exec_cpySg (h : Hdr) (a : Opnd) (e : Bool) (ch : BitVec 4) (s : State) : exec (.cpySg h a e ch) s = execCpySg h a e ch s := rfl
theorem exec_cpyl (h : Hdr) (d a c : Opnd) (x : CpylCtl) (s : State) : exec (.cpyl h d a c x) s = execCpyl h d a c x s := rfl
theorem exec_cpyg (h : Hdr) (d a c : Opnd) (x : CpygCtl) (s : State) : exec (.cpyg h d a c x) s = execCpyg h d a c x s := rfl

/-- The copy joins its channel's queue as the last of it (R190). -/
def State.enqueue (s : State) (o : Owner) (ch : Nat) (c : Copy) : State :=
  s.setChan o ch { s.chan o ch with queue := (s.chan o ch).queue ++ [c] }

@[simp] theorem enqueue_th (s : State) (o : Owner) (ch : Nat) (c : Copy) : (s.enqueue o ch c).th = s.th := setChan_th ..

/-- The copy with the signature of its issuer's last release (R278). -/
def Copy.signedBy (c : Copy) (t : Thread) : Copy := { c with sig := t.pending.getD 0 ||| t.relSig }

/-- A release at DEV scope by an issuer whose pending signature goes on waiting for a carrier (R143). -/
def State.releaseForCopy (b : State) : State := { b.release 4 with th := { (b.release 4).th with pending := b.th.pending } }

section Issue
variable {i : Instr} {b : State} {c : Copy} {ch : Nat}

theorem issueCopy_traps {t : Trap} (htrap : copyTrap b c = some t) :
    issueCopy i b c ch = .trap t (if t = .tlrfault then i.tval else .ofNat 64 ch) b := by
  simp only [issueCopy, htrap]

variable (hpass : copyTrap b c = none) (hroom : b.chanFull ch = false) (hlate : b.spadLate = false)
include hpass hroom hlate

theorem issueCopy_joins (hrel : c.rel = false) : issueCopy i b c ch = .ok (b.enqueue (ownerOf b.cur) ch (c.signedBy b.th)) := by
  have hplain : ¬ c.rel = true := Bool.eq_false_iff.1 hrel
  have hready : (c.rel && (b.fenceHeld || b.fenceMeetsHold 1 4 false)) = false := by rw [hrel, Bool.false_and]
  simp only [issueCopy, hpass, hroom, hlate, hready, if_neg hplain, Bool.or_self, Bool.false_eq_true, if_false]
  rfl

theorem issueCopy_releases (hrel : c.rel = true) (hheld : b.fenceHeld = false) (hmeets : b.fenceMeetsHold 1 4 false = false) :
    issueCopy i b c ch = .ok (b.releaseForCopy.enqueue (ownerOf b.cur) ch (c.signedBy (b.release 4).th)) := by
  simp only [issueCopy, hpass, hroom, hlate, hheld, hmeets, if_pos hrel, Bool.and_false, Bool.or_self, Bool.false_eq_true, if_false]
  rfl

end Issue

/-! The words -/

/-- A word that comes to the issue of a copy: the trap of the first check that fails, or the copy in its queue. -/
theorem copy_issues {i : Instr} {s b : State} {k : State → Res} {c : Copy} {ch : Nat} (hr : Runs i s) (hx : exec i s = issue i s k)
    (hb : begin_ i s = b) (hk : k b = issueCopy i b c ch) :
    (∀ t, copyTrap b c = some t → s.lateOut = false →
      exec i s = .next (b.freshen.takeTrap t (if t = .tlrfault then i.tval else .ofNat 64 ch) s.th.w))
    ∧ (copyTrap b c = none → b.chanFull ch = false → b.spadLate = false → c.rel = false →
      Takes i s (b.enqueue (ownerOf b.cur) ch (c.signedBy b.th)))
    ∧ (copyTrap b c = none → b.chanFull ch = false → b.spadLate = false → c.rel = true → b.fenceHeld = false →
      b.fenceMeetsHold 1 4 false = false → (b.release 4).th.level = s.th.level →
      Takes i s (b.releaseForCopy.enqueue (ownerOf b.cur) ch (c.signedBy (b.release 4).th))) := by
  subst hb
  have hkeep : Res.Keeps (begin_ i s) (k (begin_ i s)) := hk ▸ issueCopy_keeps (Keeps.refl _) ..
  refine ⟨fun t htrap hlate => ?traps, fun hpass hroom hlate hrel => ?joins,
    fun hpass hroom hlate hrel hheld hmeets hlevel => ?releases⟩
  case traps => exact hx.trans (issue_traps k hr hlate (hk.trans (issueCopy_traps htrap)))
  case joins =>
    refine takes_of_keeps hr hx hkeep (hk.trans (issueCopy_joins hpass hroom hlate hrel)) ?_
    rw [enqueue_th, begin_level]
  case releases =>
    refine takes_of_keeps hr hx hkeep (hk.trans (issueCopy_releases hpass hroom hlate hrel hheld hmeets)) ?_
    rw [enqueue_th]
    exact hlevel

/-- Settles O36: the four words come to the issue of their own copy, and the issue by its checks, its room and its release. -/
theorem copyIssue : Obligations.CopyIssue := by
  unfold Obligations.CopyIssue
  exact fun h d a c e ch x y => ⟨fun s hr => copy_issues hr (exec_cpyGs h a e ch s) rfl rfl,
    fun s hr => copy_issues hr (exec_cpySg h a e ch s) rfl rfl, fun s hr => copy_issues hr (exec_cpyl h d a c x s) rfl rfl,
    fun s hr => copy_issues hr (exec_cpyg h d a c y s) rfl rfl⟩

end Sys2Proof.Machine
end

section
/-! SUPPORT. ECALL and ERET (R202, R203): the words that the decoder refuses, the levels at which each traps, the entry and the return. -/

namespace Sys2Proof.Machine

-- Proofs are checked one after the other, which keeps the compile of the whole text within its memory.
set_option Elab.async false

/-! Reserved fields (R67) -/

/-- A word of an assigned opcode, with no extension word, that no instruction has for its decoding. -/
theorem decode_reserved {w : Word} (hformat : formatOf (fld w.toNat 21 8) ≠ none) (hext : takesExt w.toNat = false)
    (hnone : ∀ h, decodeWord w.toNat h = none) (x : Word) : decode 0 [w, x] = .error .reserved := by
  simp only [decode, beq_iff_eq, hformat, hext, hnone, Bool.false_eq_true, if_false]
  split <;> rfl

/-- ECALL's D field is reserved. -/
theorem decode_ecall_reserved {w : Word} (hop : fld w.toNat 21 8 = 0xF3) (hd : fld w.toNat 14 7 ≠ 0) (x : Word) :
    decode 0 [w, x] = .error .reserved := by
  refine decode_reserved ?_ ?_ (fun h => ?_) x
  · rw [hop]
    decide
  · rw [takesExt, hop]
    rfl
  · unfold decodeWord
    rewrite [hop]
    exact if_neg fun h => hd (beq_iff_eq.1 h)

/-- Every field of ERET is reserved. -/
theorem decode_eret_reserved {w : Word} (hop : fld w.toNat 21 8 = 0xF4) (hrest : fld w.toNat 0 21 ≠ 0) (x : Word) :
    decode 0 [w, x] = .error .reserved := by
  refine decode_reserved ?_ ?_ (fun h => ?_) x
  · rw [hop]
    decide
  · rw [takesExt, hop]
    rfl
  · unfold decodeWord
    rewrite [hop]
    exact if_neg fun h => hrest (beq_iff_eq.1 h)

/-! The levels of a word (Table 3.7) -/

theorem gate_priv {i : Instr} {s : State} (hlegal : illegalWord i s = false) (hpriv : privWord i s = true) : gate i s = some .priv := by
  simp only [gate, hlegal, hpriv, Bool.false_eq_true, if_false, if_true]

theorem begin_onHost (i : Instr) (s : State) : (begin_ i s).onHost = s.onHost := by rw [State.onHost, begin_cur, State.onHost]

/-- A word of host cores up to a level, in a SIMT thread or above its level. -/
theorem privWord_of_upTo {i : Instr} {s : State} {l : Least} (hhost : i.info.host = .upTo l) (hsimt : i.info.simt = .priv)
    (h : s.onHost = false ∨ l.code < s.th.level.code) : privWord i s = true := by
  cases hon : s.onHost with
  | false => simp only [privWord, hon, hsimt, beq_self_eq_true, Bool.false_eq_true, if_false, Bool.true_or]
  | true =>
    have hlt : l.code < s.th.level.code := h.resolve_left fun hoff => Bool.noConfusion (hon.symm.trans hoff)
    simp only [privWord, hon, hhost, if_true, decide_eq_true hlt, Bool.true_or]

/-- Such a word there traps with PRIV. -/
theorem traps_above_level {i : Instr} {s : State} {k : State → Res} {l : Least} (hx : exec i s = issue i s k) (hchain : s.chain = none)
    (howed : s.th.owed = none) (hheld : held i s = false) (hlate : s.lateOut = false) (hlegal : ∀ b, illegalWord i b = false)
    (hhost : i.info.host = .upTo l) (hsimt : i.info.simt = .priv) (h : s.onHost = false ∨ l.code < s.th.level.code) :
    exec i s = .next ((begin_ i s).freshen.takeTrap .priv i.tval s.th.w) := by
  have h' : (begin_ i s).onHost = false ∨ l.code < (begin_ i s).th.level.code := by rwa [begin_onHost, begin_level]
  rw [hx]
  exact issue_refused k hchain howed hheld hlate (gate_priv (hlegal _) (privWord_of_upTo hhost hsimt h')) (by decide)

theorem ecall_legal (h : Hdr) (imm : BitVec 14) (s : State) : illegalWord (.ecall h imm) s = false := by
  unfold illegalWord
  cases s.onHost <;> rfl

theorem eret_legal (h : Hdr) (s : State) : illegalWord (.eret h) s = false := by
  unfold illegalWord
  cases s.onHost <;> rfl

/-! The entry of ECALL (R203) -/

theorem exec_ecall (h : Hdr) (imm : BitVec 14) (s : State) : exec (.ecall h imm) s = execEcall h imm s := rfl
theorem exec_eret (h : Hdr) (s : State) : exec (.eret h) s = execEret h s := rfl

theorem begin_hostCore (i : Instr) (s : State) (n : Nat) : (begin_ i s).hostCore n = s.hostCore n := by
  rw [begin_rest]
  rfl

theorem ecall_lands {h : Hdr} {imm : BitVec 14} {s : State} {n : Nat} (hr : Runs (.ecall h imm) s) (hcur : s.cur = .host n) :
    Lands (.ecall h imm) s ((begin_ (.ecall h imm) s).enterBank n (s.th.level != .u) 0x100 (imm.setWidth 64)
      (nextIndex (.ecall h imm) s)) := by
  have hcur' : (begin_ (.ecall h imm) s).cur = .host n := (begin_cur ..).trans hcur
  have hcode : (imm.setWidth 32).setWidth 64 = imm.setWidth 64 := by
    refine BitVec.eq_of_toNat_eq ?_
    simp only [BitVec.toNat_setWidth]
    omega
  refine lands_of_kept hr (exec_ecall h imm s) ?_ (State.enterBank_keeps (Keeps.refl _) ..)
  simp only [hcur', State.ecall, nextIndex_begin, begin_level, hcode]

/-- Every result of a thread that has waited for its results is written. -/
theorem complete_reg (t : Thread) (c : Nat) : t.complete.reg c = t.settle.reg c := rfl

theorem begin_complete (i : Instr) (s : State) : (∀ c, (begin_ i s).th.complete.reg c = s.final c)
    ∧ (begin_ i s).th.complete.preds = s.th.settle.preds ∧ (begin_ i s).th.complete.fpc = s.finalFpc := by
  obtain ⟨-, hpreds, hfpc⟩ := begin_settle i s
  exact ⟨begin_final i s, hpreds, hfpc⟩

/-- What an entry of the current thread into a bank of its core leaves: its thread, its core and the rest of the state. -/
theorem enterBank_frame {b : State} {n : Nat} (hcur : b.cur = .host n) (hk : b.th.kick = none) (high : Bool) (cause : Word)
    (value : Dword) (restart : Word) {u : State} (hu : b.enterBank n high cause value restart = u) :
    u.th = b.th.atHandler high ((b.hostCore n).bank high)
    ∧ u.hostCore n = (b.hostCore n).setBank high (((b.hostCore n).bank high).entered b.th cause value restart)
    ∧ (∀ m, m ≠ n → u.hostCore m = b.hostCore m) ∧ ∀ a, u.byte a = b.byte a := by
  subst hu
  rw [enterBank_eq hcur hk]
  exact ⟨rfl, modHost_hostCore .., fun m hm => modHost_hostCore_ne _ hm _, fun _ => rfl⟩

/-- Settles O29: the bank and the thread of the entry are read off, and the other levels trap by the word's own. -/
theorem systemCall : Obligations.SystemCall := by
  unfold Obligations.SystemCall
  refine ⟨by decide +kernel, fun w x hop hd => decode_ecall_reserved hop hd x, fun h imm s n hr hcur hl => ?enters,
    fun h imm s hchain howed hheld hlate hlevel => ?traps⟩
  case traps =>
    refine traps_above_level (exec_ecall h imm s) hchain howed hheld hlate (ecall_legal h imm) rfl rfl (hlevel.imp_right fun he => ?_)
    rw [he]
    decide
  case enters =>
    intro i high old u new
    refine ⟨ecall_lands hr hcur, fun hkick => ?_⟩
    obtain ⟨hkick', hcb, hlevel⟩ : (begin_ i s).th.kick = none ∧ (begin_ i s).th.cb = s.th.cb ∧ (begin_ i s).th.level = s.th.level := by
      rw [begin_th]
      exact ⟨hkick, rfl, rfl⟩
    obtain ⟨hth, hcore, hothers, hbytes⟩ := enterBank_frame ((begin_cur i s).trans hcur) hkick' high 0x100 (imm.setWidth 64)
      (nextIndex i s) (u := u) rfl
    have hnew : new = old.entered (begin_ i s).th 0x100 (imm.setWidth 64) (nextIndex i s) := by
      simp only [new, old, hcore, setBank_bank, begin_hostCore]
    obtain ⟨hregs, hpreds, hfpc⟩ := begin_complete i s
    rw [hnew, hth, hcore, setBank_bank_not, begin_hostCore, Bank.entered, hcb, hlevel]
    exact ⟨rfl, rfl, rfl, rfl, rfl, rfl, rfl, rfl, hregs, hpreds, hfpc, rfl, fun m hm => (hothers m hm).trans (begin_hostCore ..),
      fun a => (hbytes a).trans (begin_byte ..)⟩

/-! The return of ERET (R202) -/

@[simp] theorem unbind_hosts (s : State) (codes : List Nat) : (s.unbind codes).hosts = s.hosts := by
  unfold State.unbind
  dsimp only
  split
  · rfl
  · exact State.modTeam_hosts ..

@[simp] theorem unbind_mem (s : State) (codes : List Nat) : (s.unbind codes).mem = s.mem := by
  unfold State.unbind
  dsimp only
  split
  · rfl
  · exact State.modTeam_mem ..

/-- The thread that a return leaves: its results written, its l registers void, and at the place that the bank saved. -/
def Thread.returned (t : Thread) (b : Bank) : Thread :=
  { t.complete.voidL with level := Level.ofCode (b.tstat.toNat % 4), cb := b.tecb, w := b.tepc, latch := b.latch }

/-- The bank after a return: IE is what PIE was, and the latch has gone to the thread. -/
def Bank.returned (b : Bank) : Bank :=
  { b with tstat := (b.tstat &&& ~~~(4 : Word)) ||| (if b.tstat.getLsbD 3 then 4 else 0), latch := none }

theorem returned_ie (b : Bank) : b.returned.tstat.getLsbD 2 = b.tstat.getLsbD 3 := by
  rw [Bank.returned, BitVec.getLsbD_or, BitVec.getLsbD_and]
  cases b.tstat.getLsbD 3 <;> simp

/-- A thread that returns keeps the registers, predicates and FPC that its results have left. -/
theorem returned_regs (t : Thread) (b : Bank) : (∀ c, (t.returned b).reg c = t.complete.reg c)
    ∧ (t.returned b).preds = t.complete.preds ∧ (t.returned b).fpc = t.complete.fpc := ⟨fun _ => rfl, rfl, rfl⟩

/-- It stands at the place that the bank saved, with its l registers void. -/
theorem returned_place (t : Thread) (b : Bank) : (t.returned b).w = b.tepc ∧ (t.returned b).cb = b.tecb
    ∧ (t.returned b).level = Level.ofCode (b.tstat.toNat % 4) ∧ (t.returned b).latch = b.latch ∧ (t.returned b).lvoid = 0xF :=
  ⟨rfl, rfl, rfl, rfl, rfl⟩

theorem ofCode_code {pl : Nat} (h : pl < 4) : (Level.ofCode pl).code = pl := by
  match pl, h with
  | 0, _ | 1, _ | 2, _ | 3, _ => rfl

theorem trapReturn_frame (b : State) (n : Nat) (high : Bool) :
    (b.trapReturn n high).th = b.th.returned ((b.hostCore n).bank high)
    ∧ (b.trapReturn n high).hostCore n = (b.hostCore n).setBank high ((b.hostCore n).bank high).returned
    ∧ (∀ m, m ≠ n → (b.trapReturn n high).hostCore m = b.hostCore m) ∧ ∀ a, (b.trapReturn n high).byte a = b.byte a := by
  have hhost (m : Nat) : (b.unbind lCodes).hostCore m = b.hostCore m := by rw [State.hostCore, unbind_hosts, State.hostCore]
  unfold State.trapReturn
  refine ⟨?thread, ?core, fun m hm => ?others, fun a => ?bytes⟩
  case thread =>
    rw [State.modHost_th, unbind_th]
    rfl
  case core =>
    rw [modHost_hostCore]
    exact congrArg (HostCore.setBank · high ((b.hostCore n).bank high).returned) (hhost n)
  case others =>
    rw [modHost_hostCore_ne _ hm]
    exact hhost m
  case bytes => exact congrArg (Memory.get · a) (unbind_mem b lCodes)

section Eret
variable {h : Hdr} {s : State} {n : Nat} (hr : Runs (.eret h) s) (hcur : s.cur = .host n)
include hr hcur

theorem eret_lands {b : State} (hb : begin_ (.eret h) s = b) {high : Bool} (hhigh : (s.th.level == .h) = high)
    (hle : s.th.level.code ≤ ((s.hostCore n).bank high).tstat.toNat % 4) (hne : ((s.hostCore n).bank high).tstat.toNat % 4 ≠ 3) :
    Lands (.eret h) s (b.trapReturn n high) := by
  subst hb hhigh
  have hcur' : (begin_ (.eret h) s).cur = .host n := (begin_cur ..).trans hcur
  refine lands_of_kept hr (exec_eret h s) ?_ (State.trapReturn_keeps (Keeps.refl _) ..)
  simp only [hcur', begin_level, begin_hostCore, decide_eq_false (Nat.not_lt.2 hle), decide_eq_false hne, Bool.or_self,
    Bool.false_eq_true, if_false]

theorem eret_traps {high : Bool} (hhigh : (s.th.level == .h) = high) (hlate : s.lateOut = false)
    (hpl : ((s.hostCore n).bank high).tstat.toNat % 4 < s.th.level.code ∨ ((s.hostCore n).bank high).tstat.toNat % 4 = 3) :
    exec (.eret h) s = .next ((begin_ (.eret h) s).freshen.takeTrap .priv (Instr.tval (.eret h)) s.th.w) := by
  subst hhigh
  have hcur' : (begin_ (.eret h) s).cur = .host n := (begin_cur ..).trans hcur
  refine (exec_eret h s).trans (issue_traps _ hr hlate ?_)
  simp only [hcur', begin_level, begin_hostCore, Bool.or_eq_true, decide_eq_true_eq, if_pos hpl]

end Eret

/-- Settles O30: the bank and the thread of the return are read off; a saved level that may not be returned to traps in the word's effect,
and a level that may not return by the word's own. -/
theorem exceptionReturn : Obligations.ExceptionReturn := by
  unfold Obligations.ExceptionReturn
  refine ⟨by decide +kernel, fun w x hop hrest => decode_eret_reserved hop ?fields x, fun h s n hr hcur => ?_,
    fun h s hchain howed hheld hlate hlevel => ?traps⟩
  case fields => rwa [fld, pow_zero, Nat.div_one]
  case traps =>
    refine traps_above_level (exec_eret h s) hchain howed hheld hlate (eret_legal h) rfl rfl (hlevel.imp_right fun hl => ?_)
    rcases hl with hl | hl <;> rw [hl] <;> decide
  intro i b high bank pl
  refine ⟨fun hle hne => ⟨eret_lands hr hcur rfl rfl hle hne, ?_⟩, fun hlate hpl => eret_traps hr hcur rfl hlate hpl⟩
  obtain ⟨hth, hcore, hothers, hbytes⟩ := trapReturn_frame b n high
  obtain ⟨hregs, hpreds, hfpc⟩ := begin_complete i s
  obtain ⟨tregs, tpreds, tfpc⟩ := returned_regs b.th bank
  obtain ⟨hw, hcb, hlevel, hlatch, hvoid⟩ := returned_place b.th bank
  rw [begin_hostCore] at hth hcore
  rw [hth, hcore, setBank_bank, setBank_bank_not, hw, hcb, hlevel, hlatch, hvoid, tpreds, tfpc]
  exact ⟨rfl, rfl, ofCode_code (Nat.mod_lt _ (by decide)), rfl, returned_ie bank, rfl, fun c => (tregs c).trans (hregs c), hpreds, hfpc,
    rfl, fun m hm => (hothers m hm).trans (begin_hostCore ..), fun a => (hbytes a).trans (begin_byte ..)⟩

end Sys2Proof.Machine
end

section
/-! SUPPORT. Requests to the enclave controller (R124, R214, R225): words that a thread cannot be at E for, the buffers that they read and store to,
and their answers. -/

namespace Sys2Proof.Machine

-- Proofs are checked one after the other, which keeps the compile of the whole text within its memory.
set_option Elab.async false

/-! Words that take effect (R76) -/

/-- The effect `u` of a word has not taken its thread out of an enclave. -/
def Stays (i : Instr) (s u : State) : Prop := (begin_ i s).left u = false

theorem stays_of_level {i : Instr} {s u : State} (h : u.th.level = s.th.level) : Stays i s u :=
  left_of_level (h.trans (begin_level i s).symm)

theorem Stays.postTo {i : Instr} {s u : State} (h : Stays i s u) (d : Opnd) (v : Word) : Stays i s (u.postTo d v) := by
  rw [Stays, State.left, postTo_level]
  exact h

/-- A word that host cores may run up to a level below E has no thread to take out of an enclave. -/
theorem Runs.stays {i : Instr} {s : State} {l : Least} (hr : Runs i s) (hhost : i.info.host = .upTo l) (hl : l ≠ .e) (u : State) :
    Stays i s u := by
  obtain ⟨-, -, -, hgate, -⟩ := hr
  have hpriv : privWord i (begin_ i s) = false := by
    cases hp : privWord i (begin_ i s) with
    | false => rfl
    | true =>
      simp only [gate, hp, if_true] at hgate
      split at hgate <;> cases hgate
  cases hlevel : (begin_ i s).th.level with
  | h | s | u => simp [Stays, State.left, hlevel]
  | e =>
    cases hon : (begin_ i s).onHost with
    | false => simp [Stays, State.left, hon]
    | true =>
      have habove : l.code < Level.e.code := by cases l with
        | h | s | u => decide
        | e => exact absurd rfl hl
      simp [privWord, hon, hhost, hlevel, habove] at hpriv

/-- A word whose effect leaves its thread where it was. -/
theorem takes_of_stays {i : Instr} {s u : State} {k : State → Res} (hr : Runs i s) (hx : exec i s = issue i s k)
    (hk : k (begin_ i s) = .ok u) (hkeep : Keeps (begin_ i s) u) (hstay : Stays i s u) : Takes i s u := by
  obtain ⟨hchain, howed, hheld, hgate, hloose⟩ := id hr
  refine ⟨retire i ((begin_ i s).space (begin_ i s).cur).eid.toNat (some (nextIndex i s)) u, ?_,
    ends_of i _ _ (hkeep.chain (begin_chain hr))⟩
  have hleft : (begin_ i s).left u = false := hstay
  simp only [hx, issue, hchain, issueAlone, howed, hheld, hgate, perform_tight k hloose, hk, hleft, nextIndex_begin, Bool.false_eq_true,
    if_false]

/-- A word whose effect answers a status. -/
theorem answers_of {i : Instr} {s u : State} {d : Opnd} {c : Status} {k : State → Res} (hr : Runs i s) (hx : exec i s = issue i s k)
    (hk : k (begin_ i s) = answer u d c) (hkeep : Keeps (begin_ i s) u) (hstay : Stays i s u) : Answers i s d c u :=
  ⟨takes_of_stays hr hx hk (State.postTo_keeps hkeep ..) (hstay.postTo ..), postTo_writes u d _⟩

/-! Buffers (R124) -/

theorem Reads.withBuffer_eq {i : Instr} {s u : State} {a : Opnd} {n align : Nat} {bs : List Byte} (h : Reads i s a n align u bs)
    (k : State → List Byte → Res) : withBuffer (begin_ i s) ((begin_ i s).src2 1 a).toNat n align k = k u bs := by
  obtain ⟨halign, hrange, hload⟩ := h
  simp only [withBuffer, halign, wellFormedVa_of_lt hrange, hload, ne_eq, not_true_eq_false, if_false, Bool.not_true, Bool.false_eq_true]

theorem Reads.keeps {i : Instr} {s u : State} {a : Opnd} {n align : Nat} {bs : List Byte} (h : Reads i s a n align u bs) :
    Keeps (begin_ i s) u := by
  obtain ⟨-, -, hload⟩ := h
  exact MemRes.Keeps.ofOk hload (loadBytes_keeps (Keeps.refl _) ..)

theorem Stores.storeBuffer_eq {u v : State} {va : Nat} {bs : List Byte} (h : Stores u va bs v) (k : State → Res) :
    storeBuffer u va bs k = k v := by
  obtain ⟨w, hprobe, hput⟩ := h
  simp only [storeBuffer, hprobe, hput]

theorem Stores.keeps {z u v : State} {va : Nat} {bs : List Byte} (h : Stores u va bs v) (hu : Keeps z u) : Keeps z v := by
  obtain ⟨w, hprobe, hput⟩ := h
  exact MemRes.Keeps.ofOk hput (putBytes_keeps (MemRes.Keeps.ofOk hprobe (probeBytes_keeps hu ..)) ..)

end Sys2Proof.Machine
end

section
/-! SUPPORT. The KEY group (R220-R223): the status of each check, in its order, and what each word leaves where none fails. -/

namespace Sys2Proof.Machine

-- Proofs are checked one after the other, which keeps the compile of the whole text within its memory.
set_option Elab.async false

theorem exec_kwrap (h : Hdr) (d a : Opnd) (s : State) : exec (.kwrap h d a) s = execKwrap h d a s := rfl
theorem exec_kunwrap (h : Hdr) (d a : Opnd) (s : State) : exec (.kunwrap h d a) s = execKunwrap h d a s := rfl
theorem exec_krevoke (h : Hdr) (d a : Opnd) (s : State) : exec (.krevoke h d a) s = execKrevoke h d a s := rfl
theorem exec_kload (h : Hdr) (d a : Opnd) (s : State) : exec (.kload h d a) s = execKload h d a s := rfl

/-! KWRAP and KUNWRAP (R221) -/

section Wrap
variable {h : Hdr} {d a : Opnd} {s u : State} {bs : List Byte} {e : Encl}

section Kwrap
variable (hr : Runs (.kwrap h d a) s) (hread : Reads (.kwrap h d a) s a 128 64 u bs) (hfind : u.encls.find (u.space u.cur).eid.toNat = some e)
include hr hread hfind

theorem kwrap_refuses (hlevel : u.th.level = s.th.level) (h1 : field bs 1 1 ≠ 1) (h2 : field bs 1 1 ≠ 2) :
    Answers (.kwrap h d a) s d .badreq u := by
  refine answers_of hr (exec_kwrap h d a s) (hread.withBuffer_eq _ |>.trans ?_) hread.keeps (stays_of_level hlevel)
  simp [hfind, h1, h2]

/-- The request after KWRAP: its header, its nonce, the key under the wrapping key, and the tag (Table 9.10). -/
theorem kwrap_stores (hkind : field bs 1 1 = 1 ∨ field bs 1 1 = 2) {hdr nonce : List Byte} {r : List Byte × List Byte} {v : State}
    (hhdr : hdr = [1, .ofNat 8 (field bs 1 1), 0, 0]) (hnonce : nonce = beBytes 12 (Config.nonce u.keysMade).toNat)
    (hseal : r = gcmSeal (wrapKey e (field bs 1 1)) nonce hdr (keyBytes (if field bs 1 1 = 1 then e.paging else e.export_)))
    (hstore : Stores { u with keysMade := u.keysMade + 1 } ((begin_ (.kwrap h d a) s).src2 1 a).toNat
      (hdr ++ nonce ++ r.1 ++ r.2 ++ List.replicate 64 0) v) (hlevel : v.th.level = s.th.level) : Answers (.kwrap h d a) s d .ok v := by
  subst hseal hhdr hnonce
  refine answers_of hr (exec_kwrap h d a s) (hread.withBuffer_eq _ |>.trans ?_) (hstore.keeps hread.keeps.lit) (stays_of_level hlevel)
  have hbad : (field bs 1 1 ≠ 1 && field bs 1 1 ≠ 2) = false := by
    rcases hkind with hk | hk <;> simp [hk]
  simp only [hfind, hbad, Bool.false_eq_true, if_false]
  exact hstore.storeBuffer_eq _

end Kwrap

/-- A wrapped key as KUNWRAP takes it (Table 9.10). -/
def goodBlob (bs : List Byte) : Prop :=
  field bs 0 1 = 1 ∧ (field bs 1 1 = 1 ∨ field bs 1 1 = 2) ∧ field bs 2 2 = 0 ∧ allZero (slice bs 64 64) = true

/-- The test of KUNWRAP refuses the other blobs. -/
theorem goodBlob_iff (bs : List Byte) :
    (field bs 0 1 ≠ 1 || (field bs 1 1 ≠ 1 && field bs 1 1 ≠ 2) || field bs 2 2 ≠ 0 || !allZero (slice bs 64 64)) = false ↔
      goodBlob bs := by
  simp only [goodBlob, Bool.or_eq_false_iff, Bool.and_eq_false_iff, decide_eq_false_iff_not, ne_eq, Decidable.not_not, Bool.not_eq_false',
    and_assoc]

section Kunwrap
variable (hr : Runs (.kunwrap h d a) s) (hread : Reads (.kunwrap h d a) s a 128 64 u bs) (hlevel : u.th.level = s.th.level)
  (hfind : u.encls.find (u.space u.cur).eid.toNat = some e)
include hr hread hlevel hfind

theorem kunwrap_refuses (hbad : ¬ goodBlob bs) : Answers (.kunwrap h d a) s d .badreq u := by
  refine answers_of hr (exec_kunwrap h d a s) (hread.withBuffer_eq _ |>.trans ?_) hread.keeps (stays_of_level hlevel)
  have htest := Bool.eq_true_of_not_eq_false (mt (goodBlob_iff bs).1 hbad)
  simp only [hfind]
  exact if_pos htest

theorem kunwrap_fails (hgood : goodBlob bs)
    (hkey : gcmOpen (wrapKey e (field bs 1 1)) (slice bs 4 12) (slice bs 0 4) (slice bs 16 32) (slice bs 48 16) = none) :
    Answers (.kunwrap h d a) s d .authfail u := by
  refine answers_of hr (exec_kunwrap h d a s) (hread.withBuffer_eq _ |>.trans ?_) hread.keeps (stays_of_level hlevel)
  simp only [hfind]
  refine (if_neg (Bool.eq_false_iff.1 ((goodBlob_iff bs).2 hgood))).trans ?_
  rw [hkey]

theorem kunwrap_takes (hgood : goodBlob bs) {k : List Byte}
    (hkey : gcmOpen (wrapKey e (field bs 1 1)) (slice bs 4 12) (slice bs 0 4) (slice bs 16 32) (slice bs 48 16) = some k) :
    Answers (.kunwrap h d a) s d .ok (u.modEncl (u.space u.cur).eid.toNat fun e =>
      if field bs 1 1 = 1 then { e with paging := keyOf k } else { e with export_ := keyOf k }) := by
  refine answers_of hr (exec_kunwrap h d a s) (hread.withBuffer_eq _ |>.trans ?_) (State.modEncl_keeps hread.keeps ..)
    (stays_of_level ((congrArg Thread.level (State.modEncl_th ..)).trans hlevel))
  simp only [hfind]
  refine (if_neg (Bool.eq_false_iff.1 ((goodBlob_iff bs).2 hgood))).trans ?_
  rw [hkey]

end Kunwrap
end Wrap

/-! KREVOKE (R222) -/

/-- A slot that has been revoked is not loaded. -/
theorem revoke_unloads (s : State) {k : Nat} (hk : k < 256) : (Tab.getD (s.revoke (.ofNat 8 k)).slots k {}).loaded = false := by
  have hnat : (BitVec.ofNat 8 k).toNat = k := by rw [BitVec.toNat_ofNat, Nat.mod_eq_of_lt hk]
  simp only [State.revoke, hnat, Tab.getD, Tab.find_put, Option.getD_some]

section Krevoke
variable {h : Hdr} {d a : Opnd} {s b : State} {k : Nat} {x : KeySlot} (hr : Runs (.krevoke h d a) s) (hb : begin_ (.krevoke h d a) s = b)
  (hk : (b.src h 1 a).toNat % 256 = k)
include hr hb hk

theorem krevoke_zero (h0 : k = 0) : Answers (.krevoke h d a) s d .notowner b := by
  subst hb
  exact answers_of hr (exec_krevoke h d a s) (if_pos (hk.trans h0)) (Keeps.refl _) (hr.stays rfl (by decide) _)

variable (h0 : k ≠ 0) (hx : Tab.getD b.slots k {} = x)
include h0 hx

theorem krevoke_unloaded (hload : x.loaded = false) : Answers (.krevoke h d a) s d .badstate b := by
  subst hb
  refine answers_of hr (exec_krevoke h d a s) ?_ (Keeps.refl _) (hr.stays rfl (by decide) _)
  simp only [hk, hx, h0, hload, Bool.not_false, if_false, if_true]

theorem krevoke_foreign (hload : x.loaded = true) (hguest : x.guest ≠ b.callerGuest) :
    Answers (.krevoke h d a) s d .notowner b := by
  subst hb
  refine answers_of hr (exec_krevoke h d a s) ?_ (Keeps.refl _) (hr.stays rfl (by decide) _)
  simp only [hk, hx, h0, hload, hguest, ne_eq, not_false_eq_true, Bool.not_true, Bool.false_eq_true, if_false, if_true]

theorem krevoke_drops (hload : x.loaded = true) (hguest : x.guest = b.callerGuest) (hnew : ∀ e ∈ b.encls, e.2.newSlot = none)
    (hheld : (b.waitsForHold fun l => l.slot.toNat = k) = false) : Answers (.krevoke h d a) s d .ok (b.revoke (.ofNat 8 k)) := by
  subst hb
  refine answers_of hr (exec_krevoke h d a s) ?_ (State.revoke_keeps (Keeps.refl _) _) (hr.stays rfl (by decide) _)
  have hmove : ((begin_ (.krevoke h d a) s).encls.any fun e =>
      e.2.newSlot.isSome && (e.2.slot.toNat = k || e.2.newSlot.map (·.toNat) = some k)) = false :=
    List.any_eq_false.2 fun e he => by simp [hnew e he]
  simp only [hk, hx, h0, hload, hguest, hmove, hheld, ne_eq, not_true_eq_false, Bool.not_true, Bool.false_eq_true, if_false]

end Krevoke

/-! KLOAD (R223) -/

/-- The state after a guest's key has been loaded; a guest's first key is a new one (assumption 10). -/
def State.loadGuest (b : State) (k : Nat) (guest : Byte) : State := { b with
  slots := b.slots.put k { loaded := true, guest := guest, key := guest.toNat }
  keysMade := if b.gkeys.contains guest.toNat then b.keysMade else b.keysMade + 1
  gkeys := if b.gkeys.contains guest.toNat then b.gkeys else guest.toNat :: b.gkeys }

section Kload
variable {h : Hdr} {d a : Opnd} {s b : State} {k eid : Nat} {x : Word} {guest : Byte} (hr : Runs (.kload h d a) s)
  (hb : begin_ (.kload h d a) s = b) (hx : b.src h 1 a = x) (hk : x.toNat % 256 = k)
include hr hb hx hk

theorem kload_zero (h0 : k = 0) : Answers (.kload h d a) s d .badreq b := by
  subst hb hx
  exact answers_of hr (exec_kload h d a s) (if_pos (hk.trans h0)) (Keeps.refl _) (hr.stays rfl (by decide) _)

variable (h0 : k ≠ 0)
include h0

theorem kload_loaded (hload : b.slotLoaded (.ofNat 8 k) = true) : Answers (.kload h d a) s d .badstate b := by
  subst hb hx
  refine answers_of hr (exec_kload h d a s) ?_ (Keeps.refl _) (hr.stays rfl (by decide) _)
  simp only [hk, h0, hload, if_false, if_true]

variable (hload : b.slotLoaded (.ofNat 8 k) = false) (heid : x.toNat / 65536 = eid)
include hload heid

theorem kload_taken (hguest : eid = 0) (hfree : b.slotFree k = false) : Answers (.kload h d a) s d .badstate b := by
  subst hb hx
  refine answers_of hr (exec_kload h d a s) ?_ (Keeps.refl _) (hr.stays rfl (by decide) _)
  simp only [hk, h0, hload, heid, hguest, hfree, Bool.not_false, Bool.false_eq_true, if_false, if_true]

theorem kload_guest (hg : x.extractLsb' 8 8 = guest) (hguest : eid = 0) (hfree : b.slotFree k = true) :
    Answers (.kload h d a) s d .ok (b.loadGuest k guest) := by
  subst hb hx hg
  refine answers_of hr (exec_kload h d a s) ?_ (Keeps.refl _).lit (hr.stays rfl (by decide) _)
  simp only [hk, h0, hload, heid, hguest, hfree, Bool.not_true, Bool.false_eq_true, if_false, if_true]
  rfl

variable (hencl : eid ≠ 0)
include hencl

theorem kload_absent (hlive : b.liveEncl eid = none) : Answers (.kload h d a) s d .notowner b := by
  subst hb hx
  refine answers_of hr (exec_kload h d a s) ?_ (Keeps.refl _) (hr.stays rfl (by decide) _)
  simp only [hk, h0, hload, heid, hencl, hlive, Bool.false_eq_true, if_false]

variable {e : Encl} (hlive : b.liveEncl eid = some e) (hg : x.extractLsb' 8 8 = guest)
include hlive hg

theorem kload_foreign (hguest : e.guest ≠ guest) : Answers (.kload h d a) s d .notowner b := by
  subst hb hx hg
  refine answers_of hr (exec_kload h d a s) ?_ (Keeps.refl _) (hr.stays rfl (by decide) _)
  simp only [hk, h0, hload, heid, hencl, hlive, hguest, ne_eq, not_false_eq_true, Bool.false_eq_true, if_false, if_true]

theorem kload_misplaced (hguest : e.guest = guest) (hslot : e.slot.toNat ≠ k) : Answers (.kload h d a) s d .badreq b := by
  subst hb hx hg
  refine answers_of hr (exec_kload h d a s) ?_ (Keeps.refl _) (hr.stays rfl (by decide) _)
  simp only [hk, h0, hload, heid, hencl, hlive, hguest, hslot, ne_eq, not_true_eq_false, not_false_eq_true, Bool.false_eq_true, if_false,
    if_true]

theorem kload_enclave (hguest : e.guest = guest) (hslot : e.slot.toNat = k) : Answers (.kload h d a) s d .ok
    { b with slots := b.slots.put k { loaded := true, guest := guest, eid := .ofNat 16 eid, key := e.key } } := by
  subst hb hx hg
  refine answers_of hr (exec_kload h d a s) ?_ (Keeps.refl _).lit (hr.stays rfl (by decide) _)
  simp only [hk, h0, hload, heid, hencl, hlive, hguest, hslot, ne_eq, not_true_eq_false, Bool.false_eq_true, if_false]

end Kload

/-- Settles O39: each clause by the checks that come before it, and the effect of the word where none fails. -/
theorem keyWords : Obligations.KeyWords := by
  unfold Obligations.KeyWords
  refine ⟨fun h d a s u bs e hr hread hfind => ⟨kwrap_refuses hr hread hfind, fun hkind v hstore hlevel =>
      kwrap_stores hr hread hfind hkind rfl rfl rfl hstore hlevel⟩,
    fun h d a s u bs e hr hread hlevel hfind => ⟨kunwrap_refuses hr hread hlevel hfind, kunwrap_fails hr hread hlevel hfind,
      fun hgood k hkey => kunwrap_takes hr hread hlevel hfind hgood hkey⟩,
    fun h d a s hr => ⟨krevoke_zero hr rfl rfl, fun h0 => krevoke_unloaded hr rfl rfl h0 rfl, fun h0 => krevoke_foreign hr rfl rfl h0 rfl,
      fun h0 hload hguest hnew hheld => ⟨krevoke_drops hr rfl rfl h0 rfl hload hguest hnew hheld,
        revoke_unloads _ (Nat.mod_lt _ (by decide))⟩⟩,
    fun h d a s hr => ⟨kload_zero hr rfl rfl rfl, kload_loaded hr rfl rfl rfl, fun h0 hload =>
      ⟨kload_taken hr rfl rfl rfl h0 hload rfl, fun hguest hfree =>
        ⟨_, kload_guest hr rfl rfl rfl h0 hload rfl rfl hguest hfree, rfl, rfl, rfl⟩,
        kload_absent hr rfl rfl rfl h0 hload rfl, fun e hencl hlive => kload_foreign hr rfl rfl rfl h0 hload rfl hencl hlive rfl,
        fun e hencl hlive => kload_misplaced hr rfl rfl rfl h0 hload rfl hencl hlive rfl,
        fun e hencl hlive => kload_enclave hr rfl rfl rfl h0 hload rfl hencl hlive rfl⟩⟩⟩

end Sys2Proof.Machine
end

section
/-! SUPPORT. POTSET, POTRD and PACCEPT (R225, R226, Tables 9.12 and 19.5): what POTSET's request comes to by the checks that it fails, and the
answers of the three words. -/

namespace Sys2Proof.Machine

-- Proofs are checked one after the other, which keeps the compile of the whole text within its memory.
set_option Elab.async false

theorem exec_potset (h : Hdr) (d a : Opnd) (s : State) : exec (.potset h d a) s = execPotset h d a s := rfl
theorem exec_potrd (h : Hdr) (d a : Opnd) (s : State) : exec (.potrd h d a) s = execPotrd h d a s := rfl
theorem exec_paccept (h : Hdr) (d a : Opnd) (s : State) : exec (.paccept h d a) s = execPaccept h d a s := rfl

/-! Requests that POTSET refuses (R225) -/

/-- A request of POTSET that names no frame, or sets a bit that is reserved. -/
def PotBad (u : State) (pa va v : Nat) : Prop := goodFrame u pa = false ∨ va ≠ 0 ∨ potReserved v = true

theorem potBad_iff (u : State) (pa va v : Nat) : (!goodFrame u pa || va ≠ 0 || potReserved v) = true ↔ PotBad u pa va v := by
  simp only [PotBad, Bool.or_eq_true, Bool.not_eq_true', decide_eq_true_eq, or_assoc]

/-- The states that a frame may leave for a new one: a POISONED frame may be retired, and one that no enclave holds may have any other
state (Table 19.5). -/
def PotMay (p : Pot) (st : PotState) : Prop := (p.state = .poisoned ∧ st = .retired) ∨ (st ≠ .retired ∧
  (p.state = .free ∨ p.state = .hyp ∨ p.state = .guest ∨ p.state = .kick ∨ p.state = .shared))

theorem potMay_iff (p : Pot) (st : PotState) :
    (if p.state = .poisoned then st = .retired else (st ≠ .retired &&
      (p.state = .free || p.state = .hyp || p.state = .guest || p.state = .kick || p.state = .shared)) = true) ↔ PotMay p st := by
  unfold PotMay
  by_cases hp : p.state = .poisoned <;> simp [hp, or_assoc]

/-- An entry that moves its frame (R225). -/
def PotMoved (p q : Pot) : Prop := q.state = .scrub ∨ q.guest ≠ p.guest ∨ q.owner ≠ p.owner ∨ q.slot ≠ p.slot

theorem potMoves_iff (p q : Pot) : potMoves p q = true ↔ PotMoved p q := by
  simp only [potMoves, PotMoved, Bool.or_eq_true, decide_eq_true_eq, or_assoc]

/-- A retired frame enters the list of its stack, which holds 4,096 (R422). -/
def State.retireFrame (w : State) (f : Nat) : State :=
  if (w.retired.filter (· / 2 ^ 24 = f / 2 ^ 24)).length < 4096 then { w with retired := f :: w.retired } else w

section PotSet
variable {u : State} {pa va v : Nat}

theorem potSet_bad (hbad : PotBad u pa va v ∨ potTarget (v % 16) = none) : potSet u pa va v = (.badreq, u) := by
  by_cases hb : PotBad u pa va v
  · exact if_pos ((potBad_iff ..).2 hb)
  · refine (if_neg (mt (potBad_iff ..).1 hb)).trans ?_
    rw [hbad.resolve_left hb]

variable {st : PotState} (hgood : ¬ PotBad u pa va v) (hst : potTarget (v % 16) = some st)
include hgood hst

theorem potSet_busy (hbusy : u.frameBusy (pa / 4096) = true ∨ u.pooled (pa / 4096) = true) : potSet u pa va v = (.busy, u) := by
  unfold potSet
  simp only [if_neg (mt (potBad_iff ..).1 hgood), hst]
  exact if_pos (Bool.or_eq_true_iff.2 hbusy)

variable (hbusy : u.frameBusy (pa / 4096) = false) (hpool : u.pooled (pa / 4096) = false)
include hbusy hpool

theorem potSet_badstate (hmay : ¬ PotMay (u.pot (pa / 4096)) st) : potSet u pa va v = (.badstate, u) := by
  unfold potSet
  simp only [if_neg (mt (potBad_iff ..).1 hgood), hst, hbusy, hpool, Bool.or_self, Bool.false_eq_true, if_false]
  exact if_pos (by rw [decide_eq_false (mt (potMay_iff ..).1 hmay), Bool.not_false])

variable (hmay : PotMay (u.pot (pa / 4096)) st) {q : Pot} (hq : potOf v st (u.pot (pa / 4096)) = q)
include hmay hq

theorem potSet_pinned (hmoved : PotMoved (u.pot (pa / 4096)) q) (hpin : u.pinned (pa / 4096) = true) :
    potSet u pa va v = (.pinned, u) := by
  unfold potSet
  simp only [if_neg (mt (potBad_iff ..).1 hgood), hst, hbusy, hpool, decide_eq_true ((potMay_iff ..).2 hmay), hq,
    (potMoves_iff ..).2 hmoved, hpin, Bool.or_self, Bool.not_true, Bool.false_eq_true, if_false, Bool.and_self, if_true]

/-- A frame that moves is recalled first, and one that goes to SCRUB is queued for it. -/
theorem potSet_moves (hmoved : PotMoved (u.pot (pa / 4096)) q) (hpin : u.pinned (pa / 4096) = false)
    (hp : (u.pot (pa / 4096)).state ≠ .poisoned) (hw : ((u.moveFrame (pa / 4096) q).pot (pa / 4096)).state ≠ .poisoned)
    (hst' : st ≠ .retired) : potSet u pa va v = (.ok, if st = .scrub then
      { u.moveFrame (pa / 4096) q with scrubs := (u.moveFrame (pa / 4096) q).scrubs ++ [(pa / 4096, 0)] } else u.moveFrame (pa / 4096) q) := by
  unfold potSet
  simp only [if_neg (mt (potBad_iff ..).1 hgood), hst, hbusy, hpool, decide_eq_true ((potMay_iff ..).2 hmay), hq,
    (potMoves_iff ..).2 hmoved, hpin, Bool.or_self, Bool.not_true, Bool.false_eq_true, if_false, Bool.and_false, Bool.true_and,
    decide_eq_true hp, decide_eq_false hw, if_true, decide_eq_false hst', Bool.false_and]

/-- Any other frame takes its new entry as it is. -/
theorem potSet_stays (hstay : ¬ PotMoved (u.pot (pa / 4096)) q) (hst' : st ≠ .retired) :
    potSet u pa va v = (.ok, u.setPot (pa / 4096) q) := by
  have hscrub : st ≠ .scrub := fun h => hstay (.inl (by rw [← hq]; exact h))
  unfold potSet
  simp only [if_neg (mt (potBad_iff ..).1 hgood), hst, hbusy, hpool, decide_eq_true ((potMay_iff ..).2 hmay), hq,
    Bool.eq_false_iff.2 (mt (potMoves_iff ..).1 hstay), Bool.or_self, Bool.not_true, Bool.false_eq_true, if_false, Bool.false_and,
    hscrub, decide_eq_false hst']

/-- A POISONED frame is retired without a recall. -/
theorem potSet_retires (hpin : ¬ PotMoved (u.pot (pa / 4096)) q ∨ u.pinned (pa / 4096) = false) (hst' : st = .retired) :
    potSet u pa va v = (.ok, (u.setPot (pa / 4096) q).retireFrame (pa / 4096)) := by
  have hp : (u.pot (pa / 4096)).state = .poisoned := hmay.elim And.left fun h => absurd hst' h.1
  have hpin' : (potMoves (u.pot (pa / 4096)) q && u.pinned (pa / 4096)) = false := by
    rw [Bool.and_eq_false_iff]
    exact hpin.imp_left fun h => Bool.eq_false_iff.2 (mt (potMoves_iff ..).1 h)
  unfold potSet
  simp only [if_neg (mt (potBad_iff ..).1 hgood), hst, hbusy, hpool, decide_eq_true ((potMay_iff ..).2 hmay), hq, hpin',
    Bool.or_self, Bool.not_true, Bool.false_eq_true, if_false]
  subst hst'
  simp [hp, State.retireFrame]

end PotSet

theorem PotMay.state_ne_ctree {p : Pot} {st : PotState} (h : PotMay p st) : p.state ≠ .ctree := by
  rcases h with ⟨h, -⟩ | ⟨-, h | h | h | h | h⟩ <;> exact fun hc => nomatch h.symm.trans hc

/-- An entry that was written is read back, except where the reserved region of the stack begins. -/
theorem setPot_pot {s : State} {frame : Nat} (h : (s.pot frame).state ≠ .ctree) (p : Pot) : (s.setPot frame p).pot frame = p := by
  have hbelow : ¬ Config.ctreeBase ≤ frame * 4096 % 2 ^ 36 := fun hc => h (by rw [State.pot, if_pos hc])
  rw [State.pot, if_neg hbelow]
  exact Tab.getD_set ..

/-! POTSET (R225) -/

section Potset
variable {h : Hdr} {d a : Opnd} {s u : State} {bs : List Byte} (hr : Runs (.potset h d a) s) (hread : Reads (.potset h d a) s a 32 32 u bs)
include hr hread

/-- POTSET answers what its request comes to, unless that recalls a frame whose recall has to wait. -/
theorem potset_answers {c : Status} {v : State} (hset : potSet u (field bs 0 8) (field bs 8 8) (field bs 16 16) = (c, v))
    (hheld : u.recallHeld (field bs 0 8 / 4096) = true →
      ¬ (c = .ok ∧ PotMoved (u.pot (field bs 0 8 / 4096)) (v.pot (field bs 0 8 / 4096))) ∧ (c = .badstate → v = u)) :
    Answers (.potset h d a) s d c v := by
  have hkeep : Keeps (begin_ (.potset h d a) s) v := SndKeeps.of hset (potSet_keeps hread.keeps ..)
  refine answers_of hr (exec_potset h d a s) (hread.withBuffer_eq _ |>.trans ?_) hkeep (hr.stays rfl (by decide) v)
  simp only [hset]
  refine if_neg fun hwait => ?_
  obtain ⟨hrecalls, hheld'⟩ := Bool.and_eq_true_iff.1 hwait
  obtain ⟨hok, hbad⟩ := hheld hheld'
  rcases Bool.or_eq_true_iff.1 hrecalls with hmoves | hpoisons
  · obtain ⟨hc, hm⟩ := Bool.and_eq_true_iff.1 hmoves
    exact hok ⟨of_decide_eq_true hc, (potMoves_iff ..).1 hm⟩
  · obtain ⟨hc, hpoison⟩ := Bool.and_eq_true_iff.1 hpoisons
    obtain ⟨hc, hsound⟩ := Bool.and_eq_true_iff.1 hc
    rw [hbad (of_decide_eq_true hc)] at hpoison
    exact of_decide_eq_true hsound (of_decide_eq_true hpoison)

/-- A request that is refused changes nothing. -/
theorem potset_refuses {c : Status} (hset : potSet u (field bs 0 8) (field bs 8 8) (field bs 16 16) = (c, u)) (hc : c ≠ .ok) :
    Answers (.potset h d a) s d c u :=
  potset_answers hr hread hset fun _ => ⟨fun h => hc h.1, fun _ => rfl⟩

/-- A request whose recall does not have to wait. -/
theorem potset_takes {v : State} (hset : potSet u (field bs 0 8) (field bs 8 8) (field bs 16 16) = (.ok, v))
    (hfree : u.recallHeld (field bs 0 8 / 4096) = false) : Answers (.potset h d a) s d .ok v :=
  potset_answers hr hread hset fun hheld => Bool.noConfusion (hfree.symm.trans hheld)

end Potset

/-! POTRD (R225) -/

section Potrd
variable {h : Hdr} {d a : Opnd} {s u : State} {bs : List Byte} (hr : Runs (.potrd h d a) s) (hread : Reads (.potrd h d a) s a 32 32 u bs)
include hr hread

theorem potrd_refuses (hbad : goodFrame u (field bs 0 8) = false ∨ field bs 8 8 ≠ 0) : Answers (.potrd h d a) s d .badreq u := by
  refine answers_of hr (exec_potrd h d a s) (hread.withBuffer_eq _ |>.trans ?_) hread.keeps (hr.stays rfl (by decide) u)
  exact if_pos (by simpa using hbad)

variable (hframe : goodFrame u (field bs 0 8) = true) (hzero : field bs 8 8 = 0)
include hframe hzero

theorem potrd_busy (hbusy : u.frameBusy (field bs 0 8 / 4096) = true) : Answers (.potrd h d a) s d .busy u := by
  refine answers_of hr (exec_potrd h d a s) (hread.withBuffer_eq _ |>.trans ?_) hread.keeps (hr.stays rfl (by decide) u)
  simp [hframe, hzero, hbusy]

theorem potrd_stores (hbusy : u.frameBusy (field bs 0 8 / 4096) = false) {v : State}
    (hstore : Stores u (((begin_ (.potrd h d a) s).src2 1 a).toNat + 16) (leBytes 16 (u.pot (field bs 0 8 / 4096)).image) v) :
    Answers (.potrd h d a) s d .ok v := by
  refine answers_of hr (exec_potrd h d a s) (hread.withBuffer_eq _ |>.trans ?_) (hstore.keeps hread.keeps) (hr.stays rfl (by decide) v)
  have hgood : (!goodFrame u (field bs 0 8) || field bs 8 8 ≠ 0) = false := by simp [hframe, hzero]
  simp only [hgood, hbusy, Bool.false_eq_true, if_false]
  exact hstore.storeBuffer_eq _

end Potrd

/-! PACCEPT (Table 9.12) -/

/-- A pending frame of an enclave, in some state, for the page at an address. -/
def pendsAt (eid : BitVec 16) (va : Nat) (st : PotState) (p : Nat × Pot) : Bool :=
  p.2.state = st && p.2.owner = eid && p.2.pend && p.2.eva.toNat = va / 4096 % 2 ^ 40 && p.2.ehome.toNat = homeOf va

/-- The frame that PACCEPT finds: a pending page, or else a pending node, of an address that a page may have. -/
def State.pendingAt (b : State) (eid : BitVec 16) (va : Nat) : Option (Nat × Pot) :=
  if wellFormedVa va then b.pots.find? (pendsAt eid va .encl) <|> b.pots.find? (pendsAt eid va .enclPt) else none

section Paccept
variable {h : Hdr} {d a : Opnd} {s b : State} {va : Nat} {eid : BitVec 16} (hr : Runs (.paccept h d a) s)
  (hb : begin_ (.paccept h d a) s = b) (hva : (b.src2 1 a).toNat = va) (heid : (b.space b.cur).eid = eid)
include hr hb hva heid

theorem paccept_misaligned (halign : va % 4096 ≠ 0) (hlate : s.lateOut = false) :
    exec (.paccept h d a) s = .next (b.freshen.takeTrap .misalign (.ofNat 64 va) s.th.w) := by
  subst hb hva
  exact (exec_paccept h d a s).trans (issue_traps _ hr hlate (if_pos halign))

variable (halign : va % 4096 = 0)
include halign

theorem paccept_absent (hnone : b.pendingAt eid va = none) : Answers (.paccept h d a) s d .badstate b := by
  subst hb hva heid
  refine answers_of hr (exec_paccept h d a s) ((if_neg (not_not.2 halign)).trans ?_) (Keeps.refl _) (stays_of_level (begin_level ..))
  unfold State.pendingAt pendsAt at hnone
  simp only [hnone]

variable {f : Nat} {p : Pot} (hfind : b.pendingAt eid va = some (f, p))
include hfind

theorem paccept_busy (hbusy : b.frameBusy f = true) : Answers (.paccept h d a) s d .busy b := by
  subst hb hva heid
  refine answers_of hr (exec_paccept h d a s) ((if_neg (not_not.2 halign)).trans ?_) (Keeps.refl _) (stays_of_level (begin_level ..))
  unfold State.pendingAt pendsAt at hfind
  simp only [hfind, hbusy, if_true]

theorem paccept_accepts (hbusy : b.frameBusy f = false) : Answers (.paccept h d a) s d .ok (b.setPot f { p with pend := false }) := by
  subst hb hva heid
  refine answers_of hr (exec_paccept h d a s) ((if_neg (not_not.2 halign)).trans ?_) (State.setPot_keeps (Keeps.refl _) ..)
    (stays_of_level (begin_level ..))
  unfold State.pendingAt pendsAt at hfind
  simp only [hfind, hbusy, Bool.false_eq_true, if_false]

end Paccept

/-- Settles O40: POTSET by what its request comes to, POTRD and PACCEPT by their checks. -/
theorem frameWords : Obligations.FrameWords := by
  unfold Obligations.FrameWords
  refine ⟨fun h d a s u bs hr hread => ?potset, fun h d a s u bs hr hread => ⟨potrd_refuses hr hread, potrd_busy hr hread,
    fun hframe hzero hbusy v hstore => potrd_stores hr hread hframe hzero hbusy hstore⟩, fun h d a s hr => ?paccept⟩
  case potset =>
    intro i f v p bad
    refine ⟨fun hbad => potset_refuses hr hread (potSet_bad hbad) (by decide), fun st hgood hst => ?_⟩
    intro q moved may
    refine ⟨fun hbusy => potset_refuses hr hread (potSet_busy hgood hst hbusy) (by decide), fun hbusy hpool => ⟨fun hmay => ?badstate,
      fun hmay hmoved hpin => ?pinned, fun hmay hmoved hpin hheld hp hw => ?moves, fun hmay hpin hheld hst' => ?retires,
      fun hmay hstay hst' => ?stays⟩⟩
    case badstate => exact potset_refuses hr hread (potSet_badstate hgood hst hbusy hpool hmay) (by decide)
    case pinned => exact potset_refuses hr hread (potSet_pinned hgood hst hbusy hpool hmay rfl hmoved hpin) (by decide)
    case moves =>
      have hset (hst' : st ≠ .retired) := potSet_moves hgood hst hbusy hpool hmay rfl hmoved hpin hp hw hst'
      refine ⟨fun hscrub => ?scrub, fun hscrub hst' => ?other⟩
      case scrub => exact potset_takes hr hread ((hset (hscrub ▸ by decide)).trans (congrArg _ (if_pos hscrub))) hheld
      case other => exact potset_takes hr hread ((hset hst').trans (congrArg _ (if_neg hscrub))) hheld
    case retires => exact potset_takes hr hread (potSet_retires hgood hst hbusy hpool hmay rfl hpin hst') hheld
    case stays =>
      refine potset_answers hr hread (potSet_stays hgood hst hbusy hpool hmay rfl hstay hst') fun _ => ⟨fun ⟨_, hmoved⟩ => hstay ?_, nofun⟩
      rw [setPot_pot (PotMay.state_ne_ctree hmay)] at hmoved
      exact hmoved
  case paccept =>
    intro i b va mine
    refine ⟨paccept_misaligned hr rfl rfl rfl, fun halign hva => ?beyond,
      fun halign hva => ⟨fun hencl hnode => ?none, fun f p hfind => ?found⟩⟩
    case beyond => exact paccept_absent hr rfl rfl rfl halign (if_neg (Bool.eq_false_iff.1 (decide_eq_false (Nat.not_lt.2 hva))))
    case none =>
      refine paccept_absent hr rfl rfl rfl halign ((if_pos (wellFormedVa_of_lt hva)).trans ?_)
      exact (congrArg₂ _ hencl (funext fun _ => hnode)).trans rfl
    case found =>
      have hpending : b.pendingAt (b.space b.cur).eid va = some (f, p) := by
        refine (if_pos (wellFormedVa_of_lt hva)).trans ?_
        rcases hfind with hencl | ⟨hencl, hnode⟩
        · exact (congrArg₂ _ hencl rfl).trans rfl
        · exact (congrArg₂ _ hencl (funext fun _ => hnode)).trans rfl
      exact ⟨paccept_busy hr rfl rfl rfl halign hpending, paccept_accepts hr rfl rfl rfl halign hpending⟩

end Sys2Proof.Machine
end

section
/-! SUPPORT. The words on an enclave's pages (R225, R360-R362): a request that names a page and a frame, the status of each check, and what each word
leaves where none fails. -/

namespace Sys2Proof.Machine

-- Proofs are checked one after the other, which keeps the compile of the whole text within its memory.
set_option Elab.async false

theorem exec_pmap (h : Hdr) (d a : Opnd) (s : State) : exec (.pmap h d a) s = execPmap h d a s := rfl
theorem exec_pdiscard (h : Hdr) (d a : Opnd) (s : State) : exec (.pdiscard h d a) s = execPdiscard h d a s := rfl
theorem exec_pevict (h : Hdr) (d a : Opnd) (s : State) : exec (.pevict h d a) s = execPevict h d a s := rfl
theorem exec_pload (h : Hdr) (d a : Opnd) (s : State) : exec (.pload h d a) s = execPload h d a s := rfl
theorem exec_punmap (h : Hdr) (d a : Opnd) (s : State) : exec (.punmap h d a) s = execPunmap h d a s := rfl

/-! Requests (Table 9.11) -/

section Request
variable {i : Instr} {s u v : State} {d a : Opnd} {bs : List Byte} {e : Encl} {lev at_ ent : Nat}
  {k : State → PageReq → Encl → Nat → Nat → Nat → Res} (hr : Runs i s) (hx : exec i s = issue i s fun s => onPage s d a k)
  (hhost : i.info.host = .upTo .s) (hread : Reads i s a 32 32 u bs)
include hr hx hhost hread

/-- A request block of another form is refused. -/
theorem page_refuses (hbad : (pageReq u bs).ok = false) : Answers i s d .badreq u := by
  refine answers_of hr hx ((hread.withBuffer_eq _).trans ?_) hread.keeps (hr.stays hhost (by decide) u)
  simp only [hbad, Bool.not_false, if_true]

/-- A word on a page goes on with the page's table entry. -/
theorem page_answers (hnames : Names u bs e lev at_ ent) {c : Status} (hk : k u (pageReq u bs) e lev at_ ent = answer v d c)
    (hkeep : Keeps u v) : Answers i s d c v := by
  obtain ⟨hok, hlive, hguest, hframe, hbusy, root, hroot, hdescend⟩ := hnames
  refine answers_of hr hx ((hread.withBuffer_eq _).trans (Eq.trans ?_ hk)) (hread.keeps.trans hkeep) (hr.stays hhost (by decide) v)
  simp only [hok, hlive, hguest, hframe, hbusy, hroot, hdescend, ne_eq, not_true_eq_false, decide_false, Bool.or_self, Bool.not_true,
    Bool.false_eq_true, if_false]

end Request

/-- A frame that is free to move goes on with the operation. -/
theorem withFrame_eq {u : State} {d : Opnd} {f at_ : Nat} {p : Pot} (hheld : u.pageHeld f at_ = false)
    (hsound : ((u.moveFrame f p).pot f).state ≠ .poisoned) (k : State → Res) : withFrame u d f at_ p k = k (u.moveFrame f p) := by
  simp only [withFrame, hheld, hsound, Bool.false_eq_true, if_false]

/-- The slice of a page that is named has a table. -/
theorem Names.root_isNone {u : State} {bs : List Byte} {e : Encl} {lev at_ ent : Nat} (h : Names u bs e lev at_ ent) :
    (e.roots.find (homeOf (pageReq u bs).va)).isNone = false := by
  obtain ⟨-, -, -, -, -, root, hroot, -⟩ := h
  rw [hroot, Option.isNone_some]

/-! PMAP (R225) -/

section Pmap
variable {h : Hdr} {d a : Opnd} {s u : State} {bs : List Byte} {e : Encl} {lev at_ ent : Nat} {r : PageReq} (hr : Runs (.pmap h d a) s)
  (hread : Reads (.pmap h d a) s a 32 32 u bs) (hnames : Names u bs e lev at_ ent) (hreq : pageReq u bs = r)
include hr hread hnames hreq

theorem pmap_taken (hstate : (u.pot (r.pa / 4096)).state ≠ .guest) : Answers (.pmap h d a) s d .badstate u := by
  subst hreq
  exact page_answers hr (exec_pmap h d a s) rfl hread hnames (if_pos hstate) (Keeps.refl u)

variable (hstate : (u.pot (r.pa / 4096)).state = .guest)
include hstate

theorem pmap_pinned (hpin : u.pinned (r.pa / 4096) = true) : Answers (.pmap h d a) s d .pinned u := by
  subst hreq
  refine page_answers hr (exec_pmap h d a s) rfl hread hnames ?_ (Keeps.refl u)
  simp only [hstate, hpin, ne_eq, not_true_eq_false, if_false, if_true]

variable (hpin : u.pinned (r.pa / 4096) = false) (hhome : r.pa / 2 ^ 36 = homeOf r.va)
include hpin hhome

theorem pmap_notable (hty : r.ty = 0) (hlev : lev < 3) : Answers (.pmap h d a) s d .notable u := by
  subst hreq
  refine page_answers hr (exec_pmap h d a s) rfl hread hnames ?_ (Keeps.refl u)
  simp only [hstate, hpin, hnames.root_isNone, hty, hhome, hlev, ne_eq, not_true_eq_false, Bool.false_eq_true, if_false, if_true]

variable (hv : pteV ent = false) (hp : pteR ent = false)
include hv hp

theorem pmap_page (hty : r.ty = 0) (hlev : 3 ≤ lev) (hheld : u.pageHeld (r.pa / 4096) at_ = false)
    (hsound : ((u.moveFrame (r.pa / 4096) (enclPot .encl r e r.perm true)).pot (r.pa / 4096)).state ≠ .poisoned) :
    Answers (.pmap h d a) s d .ok (((u.moveFrame (r.pa / 4096) (enclPot .encl r e r.perm true)).scrubFrame (r.pa / 4096)).putEntry at_
      (pteLeaf r.pa r.perm 0 true)) := by
  subst hreq
  refine page_answers hr (exec_pmap h d a s) rfl hread hnames ?_
    (State.putEntry_keeps (State.scrubFrame_keeps (State.moveFrame_keeps (Keeps.refl u) ..) ..) ..)
  simp only [hstate, hpin, hnames.root_isNone, hty, hhome, Nat.not_lt.2 hlev, hv, hp, ne_eq, not_true_eq_false, Bool.or_self,
    Bool.false_eq_true, if_false, if_true]
  exact withFrame_eq hheld hsound _

theorem pmap_node (hty : r.ty ≠ 0) (hlev : lev < 3) (hheld : u.pageHeld (r.pa / 4096) at_ = false)
    (hsound : ((u.moveFrame (r.pa / 4096) (enclPot .enclPt r e 0 true)).pot (r.pa / 4096)).state ≠ .poisoned) :
    Answers (.pmap h d a) s d .ok (((u.moveFrame (r.pa / 4096) (enclPot .enclPt r e 0 true)).scrubFrame (r.pa / 4096)).putEntry at_
      (pteLink r.pa)) := by
  subst hreq
  refine page_answers hr (exec_pmap h d a s) rfl hread hnames ?_
    (State.putEntry_keeps (State.scrubFrame_keeps (State.moveFrame_keeps (Keeps.refl u) ..) ..) ..)
  simp only [hstate, hpin, hnames.root_isNone, hty, hhome, decide_eq_false (Nat.not_le.2 hlev), hv, hp, ne_eq, not_true_eq_false,
    Bool.or_self, Bool.false_eq_true, if_false]
  exact withFrame_eq hheld hsound _

end Pmap

/-! PDISCARD (R225) -/

/-- The pages that PDISCARD and PEVICT accept: present, and no longer pending. -/
def presentPage (p : Pot) : Bool := p.state = .encl && !p.pend

section Pdiscard
variable {h : Hdr} {d a : Opnd} {s u : State} {bs : List Byte} {e : Encl} {lev at_ ent : Nat} (hr : Runs (.pdiscard h d a) s)
  (hread : Reads (.pdiscard h d a) s a 32 32 u bs) (hnames : Names u bs e lev at_ ent)
include hr hread hnames

theorem pdiscard_refuses {x : Status} (hx : pageStatus u (pageReq u bs) lev ent presentPage = some x) :
    Answers (.pdiscard h d a) s d x u := by
  refine page_answers hr (exec_pdiscard h d a s) rfl hread hnames ?_ (Keeps.refl u)
  unfold presentPage at hx
  simp only [hx]

theorem pdiscard_discards (hx : pageStatus u (pageReq u bs) lev ent presentPage = none) {f : Nat} (hf : (pageReq u bs).pa / 4096 = f)
    (hheld : u.recallHeld f = false) (hsound : ((u.recall f).pot f).state ≠ .poisoned) :
    Answers (.pdiscard h d a) s d .ok ((u.recall f).setPot f { (u.recall f).pot f with state := .discarded }) := by
  subst hf
  refine page_answers hr (exec_pdiscard h d a s) rfl hread hnames ?_ (State.setPot_keeps (State.recall_keeps (Keeps.refl u) _) ..)
  unfold presentPage at hx
  simp only [hx, hheld, hsound, Bool.false_eq_true, if_false]

end Pdiscard

/-! PEVICT (R360) -/

/-- The state in which PEVICT has marked the page's entry with its new version, and recalled its frame. -/
def State.evicting (w : State) (r : PageReq) (at_ version : Nat) : State :=
  let m := w.modEncl r.eid fun x => { x with evicts := version }
  ((m.setPot (r.pa / 4096) { m.pot (r.pa / 4096) with state := .migrating }).putEntry at_ (version * 8 + 4)).recall (r.pa / 4096)

/-- The state after it has sealed the page, with the frame on its way back to the guest. -/
def State.evicted (g : State) (r : PageReq) (ent : Nat) : State :=
  let k := ({ g with keysMade := g.keysMade + 1 } : State).modEncl r.eid fun e => { e with evPerms := e.evPerms.put (r.va / 4096) (ent / 4 % 8) }
  k.scrubFor (r.pa / 4096) k.callerGuest (k.guestSlot k.callerGuest) 0

theorem State.evicting_keeps {z w : State} (hw : Keeps z w) (r : PageReq) (at_ version : Nat) : Keeps z (w.evicting r at_ version) :=
  State.recall_keeps (State.putEntry_keeps (State.setPot_keeps (State.modEncl_keeps hw ..) ..) ..) _

theorem State.evicted_keeps {z g : State} (hg : Keeps z g) (r : PageReq) (ent : Nat) : Keeps z (g.evicted r ent) :=
  State.scrubFor_keeps (State.modEncl_keeps hg.lit ..) ..

section Pevict
variable {h : Hdr} {d a : Opnd} {s u : State} {bs : List Byte} {e : Encl} {lev at_ ent : Nat} {r : PageReq} (hr : Runs (.pevict h d a) s)
  (hread : Reads (.pevict h d a) s a 32 32 u bs) (hnames : Names u bs e lev at_ ent) (hreq : pageReq u bs = r)
include hr hread hnames hreq

theorem pevict_refuses {x : Status} (hx : pageStatus u r lev ent presentPage = some x) : Answers (.pevict h d a) s d x u := by
  subst hreq
  refine page_answers hr (exec_pevict h d a s) rfl hread hnames ?_ (Keeps.refl u)
  unfold presentPage at hx
  simp only [hx]

variable (hx : pageStatus u r lev ent presentPage = none)
include hx

theorem pevict_misplaced (hblob : r.blob % 64 ≠ 0 ∨ 12 * 2 ^ 52 ≤ r.blob) : Answers (.pevict h d a) s d .badreq u := by
  subst hreq
  refine page_answers hr (exec_pevict h d a s) rfl hread hnames ?_ (Keeps.refl u)
  unfold presentPage at hx
  simp only [hx]
  refine if_pos (Bool.or_eq_true_iff.2 (hblob.imp (decide_eq_true ·) fun hva => ?_))
  rw [Bool.not_eq_true']
  exact decide_eq_false (Nat.not_lt.2 hva)

theorem pevict_stores (halign : r.blob % 64 = 0) (hrange : r.blob < 12 * 2 ^ 52) (hevicts : e.evicts ≠ 2 ^ 61 - 1)
    (hheld : u.pageHeld (r.pa / 4096) at_ = false) {w g : State} (hprobe : probeBytes u (u.space u.cur) 64 r.blob 4160 = .ok w ())
    (hg : w.evicting r at_ (e.evicts + 1) = g) {nonce hdr : List Byte} {x : List Byte × List Byte}
    (hnonce : beBytes 12 (Config.nonce g.keysMade).toNat = nonce)
    (hhdr : blobHeader r.eid (bit (pteR ent) + 2 * bit (pteW ent) + 4 * bit (pteX ent)) r.va (e.evicts + 1) nonce = hdr)
    (hseal : gcmSeal (keyBytes e.paging) nonce hdr (Memory.bytes g.mem r.pa 4096) = x) (hsound : (g.pot (r.pa / 4096)).state ≠ .poisoned)
    (hverify : g.verifies r.pa 4096 = true) {v : State} (hstore : Stores (g.evicted r ent) r.blob (hdr ++ x.2 ++ x.1) v) :
    Answers (.pevict h d a) s d .ok v := by
  subst hreq hseal hhdr hnonce hg
  refine page_answers hr (exec_pevict h d a s) rfl hread hnames ?_ (hstore.keeps (State.evicted_keeps (State.evicting_keeps
    (MemRes.Keeps.ofOk hprobe (probeBytes_keeps (Keeps.refl u) ..)) ..) ..))
  unfold presentPage at hx
  have hblob : (decide ((pageReq u bs).blob % 64 ≠ 0) || !wellFormedVa (pageReq u bs).blob) = false := by
    simp [halign, wellFormedVa_of_lt hrange]
  simp only [hx, hblob, hevicts, hheld, hprobe, Bool.false_eq_true, if_false]
  refine (if_neg hsound).trans ((if_neg (by rw [Bool.not_eq_true', Bool.not_eq_false]; exact hverify)).trans ?_)
  exact hstore.storeBuffer_eq _

end Pevict

/-! PLOAD (R361) -/

/-- The blob of a page as PLOAD takes it, before its tag is checked (Table 19.6). -/
structure BlobOf (blob : List Byte) (r : PageReq) : Prop where
  zeros   : allZero (slice blob 36 12) = true
  format  : field blob 0 4 = 1
  enclave : field blob 4 2 = r.eid
  perm    : field blob 6 2 < 8
  place   : field blob 8 8 = r.va

/-- What opens a blob: the page's bytes, where its tag verifies under the enclave's paging key. -/
def openBlob (e : Encl) (blob : List Byte) : Option (List Byte) :=
  gcmOpen (keyBytes e.paging) (slice blob 24 12) (slice blob 0 48) (slice blob 64 4096) (slice blob 48 16)

/-- What a page that may be loaded comes to by what opens its blob: a tag that fails, another version than its entry names, or the page in its
frame. -/
def openPage (v : State) (d : Opnd) (r : PageReq) (e : Encl) (at_ ent : Nat) (blob : List Byte) : Res :=
  match openBlob e blob with
  | none => answer v d .authfail
  | some plain =>
    if field blob 16 8 ≠ ent / 8 then answer v d .stale
    else withFrame v d (r.pa / 4096) at_ (enclPot .encl r e (field blob 6 2) false) fun m =>
      let k := m.modEncl r.eid fun e => { e with evPerms := e.evPerms.del (r.va / 4096) }
      answer (((k.scrubFrame (r.pa / 4096)).homeWrite r.pa plain).putEntry at_ (pteLeaf r.pa (field blob 6 2) 0 true)) d .ok

section Pload
variable {h : Hdr} {d a : Opnd} {s u : State} {bs : List Byte} {e : Encl} {lev at_ ent : Nat} {r : PageReq} (hr : Runs (.pload h d a) s)
  (hread : Reads (.pload h d a) s a 32 32 u bs) (hnames : Names u bs e lev at_ ent) (hreq : pageReq u bs = r)
include hr hread hnames hreq

theorem pload_taken (hstate : (u.pot (r.pa / 4096)).state ≠ .guest) : Answers (.pload h d a) s d .badstate u := by
  subst hreq
  exact page_answers hr (exec_pload h d a s) rfl hread hnames (if_pos hstate) (Keeps.refl u)

variable (hstate : (u.pot (r.pa / 4096)).state = .guest) (hpin : u.pinned (r.pa / 4096) = false) (hhome : r.pa / 2 ^ 36 = homeOf r.va)
  (halign : r.blob % 64 = 0) (hrange : r.blob < 12 * 2 ^ 52) (hlev : 3 ≤ lev) (hv : pteV ent = false) (hp : pteR ent = true)
  {v : State} {blob : List Byte} (hload : loadBytes u (u.coreIx u.cur) (u.space u.cur) 64 r.blob 4160 = .ok v blob) (hblob : BlobOf blob r)
include hstate hpin hhome halign hrange hlev hv hp hload hblob

theorem pload_opens {c : Status} {t : State} (hopen : openPage v d r e at_ ent blob = answer t d c) (hkeep : Keeps v t) :
    Answers (.pload h d a) s d c t := by
  subst hreq
  have hkept : Keeps u v := MemRes.Keeps.ofOk hload (loadBytes_keeps (Keeps.refl u) ..)
  refine page_answers hr (exec_pload h d a s) rfl hread hnames (Eq.trans ?_ hopen) (hkept.trans hkeep)
  obtain ⟨hzeros, hformat, hencl, hperm, hplace⟩ := hblob
  cases hopened : openBlob e blob with
  | none | some plain =>
    simp only [openPage, hopened]
    unfold openBlob at hopened
    simp only [hstate, hpin, hhome, halign, wellFormedVa_of_lt hrange, Nat.not_lt.2 hlev, hv, hp, withBuffer, hload, hzeros, hformat, hencl,
      decide_eq_false (Nat.not_le.2 hperm), hplace, hopened, ne_eq, not_true_eq_false, decide_false, Bool.or_self, Bool.not_true,
      Bool.false_eq_true, if_false]

theorem pload_fails (hkey : openBlob e blob = none) : Answers (.pload h d a) s d .authfail v := by
  refine pload_opens hr hread hnames hreq hstate hpin hhome halign hrange hlev hv hp hload hblob ?_ (Keeps.refl v)
  simp only [openPage, hkey]

variable {plain : List Byte} (hkey : openBlob e blob = some plain)
include hkey

theorem pload_stale (hversion : field blob 16 8 ≠ ent / 8) : Answers (.pload h d a) s d .stale v := by
  refine pload_opens hr hread hnames hreq hstate hpin hhome halign hrange hlev hv hp hload hblob ?_ (Keeps.refl v)
  simp only [openPage, hkey, hversion, ne_eq, not_false_eq_true, if_true]

theorem pload_page (hversion : field blob 16 8 = ent / 8) (hheld : v.pageHeld (r.pa / 4096) at_ = false) {m k : State}
    (hm : v.moveFrame (r.pa / 4096) (enclPot .encl r e (field blob 6 2) false) = m) (hsound : (m.pot (r.pa / 4096)).state ≠ .poisoned)
    (hk : (m.modEncl r.eid fun e => { e with evPerms := e.evPerms.del (r.va / 4096) }) = k) :
    Answers (.pload h d a) s d .ok (((k.scrubFrame (r.pa / 4096)).homeWrite r.pa plain).putEntry at_
      (pteLeaf r.pa (field blob 6 2) 0 true)) := by
  subst hk hm
  refine pload_opens hr hread hnames hreq hstate hpin hhome halign hrange hlev hv hp hload hblob ?_
    (State.putEntry_keeps (State.homeWrite_keeps (State.scrubFrame_keeps (State.modEncl_keeps (State.moveFrame_keeps (Keeps.refl v)
      ..) ..) _) ..) ..)
  simp only [openPage, hkey, hversion, ne_eq, not_true_eq_false, if_false]
  exact withFrame_eq hheld hsound _

end Pload

/-! PUNMAP (R225, R362) -/

/-- The pages that PUNMAP accepts: discarded, or still pending. -/
def sparePage (p : Pot) : Bool := p.state = .discarded || p.pend

section Punmap
variable {h : Hdr} {d a : Opnd} {s u : State} {bs : List Byte} {e : Encl} {lev at_ ent : Nat} {r : PageReq} (hr : Runs (.punmap h d a) s)
  (hread : Reads (.punmap h d a) s a 32 32 u bs) (hnames : Names u bs e lev at_ ent) (hreq : pageReq u bs = r)
include hr hread hnames hreq

theorem punmap_refuses {x : Status} (hx : pageStatus u r lev ent sparePage = some x) : Answers (.punmap h d a) s d x u := by
  subst hreq
  refine page_answers hr (exec_punmap h d a s) rfl hread hnames ?_ (Keeps.refl u)
  unfold sparePage at hx
  simp only [hx, Option.isNone_some, Bool.false_and, Bool.false_eq_true, if_false]
  rfl

variable (hx : pageStatus u r lev ent sparePage = none) (hheld : u.pageHeld (r.pa / 4096) at_ = false) {w : State}
  (hw : u.recall (r.pa / 4096) = w)
include hx hheld hw

/-- The recall may bring a first write home, after which the page is no longer one that PUNMAP accepts (R226). -/
theorem punmap_refuses_written {x : Status} (hx' : pageStatus w r lev ent sparePage = some x) : Answers (.punmap h d a) s d x w := by
  subst hreq hw
  refine page_answers hr (exec_punmap h d a s) rfl hread hnames ?_ (State.recall_keeps (Keeps.refl u) _)
  unfold sparePage at hx hx'
  simp only [hx, hheld, hx', Option.isNone_none, Bool.and_false, Bool.false_eq_true, if_false, if_true]
  rfl

/-- The state in which PUNMAP has cleared the page's entry. -/
theorem punmap_reclaims (hx' : pageStatus w r lev ent sparePage = none) {v : State}
    (hv : (w.setPot (r.pa / 4096) { w.pot (r.pa / 4096) with state := .reclaiming }).putEntry at_ 0 = v) :
    Answers (.punmap h d a) s d .ok (v.scrubFor (r.pa / 4096) v.callerGuest (v.guestSlot v.callerGuest) 0) := by
  subst hreq hv hw
  refine page_answers hr (exec_punmap h d a s) rfl hread hnames ?_
    (State.scrubFor_keeps (State.putEntry_keeps (State.setPot_keeps (State.recall_keeps (Keeps.refl u) _) ..) ..) ..)
  unfold sparePage at hx hx'
  simp only [hx, hheld, hx', Option.isNone_none, Bool.and_false, Bool.false_eq_true, if_false, if_true]
  rfl

end Punmap

/-- Settles O41: each clause by the checks that come before it, and the effect of the word where none fails. -/
theorem pageWords : Obligations.PageWords := by
  unfold Obligations.PageWords
  refine ⟨fun h d a s u bs hbad => ?refuses,
    fun h d a s u bs e lev at_ ent hr hread hn => ⟨pmap_taken hr hread hn rfl, pmap_pinned hr hread hn rfl,
      fun hstate hpin hhome hv hp => ⟨pmap_page hr hread hn rfl hstate hpin hhome hv hp, pmap_notable hr hread hn rfl hstate hpin hhome,
        pmap_node hr hread hn rfl hstate hpin hhome hv hp⟩⟩,
    fun h d a s u bs e lev at_ ent hr hread hn => ⟨fun x => pdiscard_refuses hr hread hn, fun hx => pdiscard_discards hr hread hn hx rfl⟩,
    fun h d a s u bs e lev at_ ent hr hread hn => ⟨fun x => pevict_refuses hr hread hn rfl, pevict_misplaced hr hread hn rfl,
      fun hx halign hrange hevicts hheld w hprobe => fun hsound hverify v hstore =>
        pevict_stores hr hread hn rfl hx halign hrange hevicts hheld hprobe rfl rfl rfl rfl hsound hverify hstore⟩,
    fun h d a s u bs e lev at_ ent hr hread hn => ⟨pload_taken hr hread hn rfl, fun hstate hpin hhome halign hrange hlev hv hp v blob hload
      hzeros hformat hencl hperm hplace => ?load⟩,
    fun h d a s u bs e lev at_ ent hr hread hn => ⟨fun x => punmap_refuses hr hread hn rfl, fun hx hheld =>
      ⟨fun x => punmap_refuses_written hr hread hn rfl hx hheld rfl, fun hx' => punmap_reclaims hr hread hn rfl hx hheld rfl hx' rfl⟩⟩⟩
  case refuses =>
    simp only [List.forall_mem_cons, List.not_mem_nil, false_imp_iff, implies_true, and_true]
    exact ⟨fun hr hread => page_refuses hr (exec_pmap h d a s) rfl hread hbad,
      fun hr hread => page_refuses hr (exec_pdiscard h d a s) rfl hread hbad,
      fun hr hread => page_refuses hr (exec_pevict h d a s) rfl hread hbad, fun hr hread => page_refuses hr (exec_pload h d a s) rfl hread hbad,
      fun hr hread => page_refuses hr (exec_punmap h d a s) rfl hread hbad⟩
  case load =>
    have hblob : BlobOf blob (pageReq u bs) := ⟨hzeros, hformat, hencl, hperm, hplace⟩
    exact ⟨pload_fails hr hread hn rfl hstate hpin hhome halign hrange hlev hv hp hload hblob, fun plain hkey =>
      ⟨pload_stale hr hread hn rfl hstate hpin hhome halign hrange hlev hv hp hload hblob hkey, fun hversion hheld hsound =>
        pload_page hr hread hn rfl hstate hpin hhome halign hrange hlev hv hp hload hblob hkey hversion hheld rfl hsound rfl⟩⟩

end Sys2Proof.Machine
end

section
/-! SUPPORT. The guest whose hypervisor or system runs on a host core, which no recall of a frame changes (R211, R373): a recall writes back lines,
and where one meets an integrity failure it records the failure and takes threads out of enclaves. -/

namespace Sys2Proof.Machine

-- Proofs are checked one after the other, which keeps the compile of the whole text within its memory.
set_option Elab.async false

/-- The same thread runs in two states, and what a thread's guest is read from is the same: the GUESTID of every host core, the teams and the
guest of every launch. -/
structure SameGuests (s u : State) : Prop where
  cur : u.cur = s.cur
  guestid : ∀ n, (u.hostCore n).guestid = (s.hostCore n).guestid
  teams : u.teams = s.teams
  launch : ∀ n, (u.launches.find n).map Launch.guest = (s.launches.find n).map Launch.guest

namespace SameGuests

theorem refl (s : State) : SameGuests s s := ⟨rfl, fun _ => rfl, rfl, fun _ => rfl⟩

theorem trans {s u v : State} (h : SameGuests s u) (g : SameGuests u v) : SameGuests s v :=
  ⟨g.cur.trans h.cur, fun n => (g.guestid n).trans (h.guestid n), g.teams.trans h.teams, fun n => (g.launch n).trans (h.launch n)⟩

theorem after {s u v : State} (g : SameGuests u v) (h : SameGuests s u) : SameGuests s v := h.trans g

theorem of_eq {s u : State} (hcur : u.cur = s.cur) (hhosts : u.hosts = s.hosts) (hteams : u.teams = s.teams)
    (hlaunches : u.launches = s.launches) : SameGuests s u :=
  ⟨hcur, fun n => by rw [State.hostCore, hhosts, State.hostCore], hteams, fun n => by rw [hlaunches]⟩

theorem foldl {α : Type} {f : State → α → State} (hf : ∀ s x, SameGuests s (f s x)) (l : List α) (s : State) :
    SameGuests s (l.foldl f s) := by
  induction l generalizing s with
  | nil => exact refl s
  | cons x l ih => exact (hf s x).trans (ih _)

theorem callerGuest {s u : State} (h : SameGuests s u) : u.callerGuest = s.callerGuest := by
  obtain ⟨hcur, hguestid, hteams, hlaunch⟩ := h
  rw [State.callerGuest, State.callerGuest, hcur]
  cases s.cur with
  | host n => exact congrArg (BitVec.setWidth 8) (hguestid n)
  | simt team idx =>
    simp only [State.space, State.launchOf, State.teamOf, hteams]
    cases s.teams.find team with
    | none => rfl
    | some x =>
      have hguest := hlaunch x.launch
      cases hs : s.launches.find x.launch <;> cases hu : u.launches.find x.launch <;> simp_all

end SameGuests

theorem modHost_guests (s : State) (n : Nat) {f : HostCore → HostCore} (hf : ∀ c, (f c).guestid = c.guestid) :
    SameGuests s (s.modHost n f) := by
  refine ⟨rfl, fun m => ?_, rfl, fun _ => rfl⟩
  by_cases hm : m = n
  · rw [hm, modHost_hostCore, hf]
  · rw [modHost_hostCore_ne _ hm]

/-! The home -/

theorem count_guests (s : State) (core eid code k : Nat) : SameGuests s (s.count core eid code k) :=
  .of_eq (State.count_cur ..) (State.count_hosts ..) (State.count_teams ..) (State.count_launches ..)

theorem countSlice_guests (s : State) (slice code k : Nat) : SameGuests s (s.countSlice slice code k) := by
  unfold State.countSlice
  split <;> exact .of_eq rfl rfl rfl rfl

theorem inject_guests (s : State) (p : Nat → Bool) : SameGuests s (s.inject p) := by
  unfold State.inject
  split
  · split <;> exact .of_eq rfl rfl rfl rfl
  · exact .refl s

theorem setPot_guests (s : State) (frame : Nat) (p : Pot) : SameGuests s (s.setPot frame p) := .of_eq rfl rfl rfl rfl

theorem poke_guests (s : State) (a : Nat) (b : Byte) : SameGuests s (s.poke a b) := .of_eq rfl rfl rfl rfl

theorem bumpTree_guests (s : State) (frame : Nat) : SameGuests s (s.bumpTree frame) := .of_eq rfl rfl rfl rfl

theorem l2Fill_guests (s : State) (line : Nat) (ways : List Nat) (dirty : Bool) : SameGuests s (s.l2Fill line ways dirty) := by
  unfold State.l2Fill
  dsimp only
  split
  · exact (countSlice_guests ..).trans (.of_eq rfl rfl rfl rfl)
  · split
    · split
      · exact (countSlice_guests ..).trans <| (countSlice_guests ..).trans (.of_eq rfl rfl rfl rfl)
      · exact (countSlice_guests ..).trans (.of_eq rfl rfl rfl rfl)
    · exact countSlice_guests ..

theorem l2Write_guests (s : State) (line : Nat) : SameGuests s (s.l2Write line) := by
  unfold State.l2Write State.l2Touch
  dsimp only
  split
  · exact (countSlice_guests ..).trans (.of_eq rfl rfl rfl rfl)
  · exact (countSlice_guests ..).trans (l2Fill_guests ..)

theorem scrubFrame_guests (s : State) (frame : Nat) : SameGuests s (s.scrubFrame frame) := by
  unfold State.scrubFrame
  exact .after (inject_guests ..) (.of_eq rfl rfl rfl rfl)

theorem firstWrite_guests (s : State) (frame : Nat) : SameGuests s (s.firstWrite frame) := by
  unfold State.firstWrite
  split
  · exact (scrubFrame_guests s frame).trans (setPot_guests ..)
  · exact .refl s

theorem grant_guests (s : State) (line : Nat) : SameGuests s (s.grant line) := by
  unfold State.grant
  dsimp only
  split
  · exact .after (countSlice_guests ..) <| .after (bumpTree_guests ..) <| (inject_guests ..).trans (.of_eq rfl rfl rfl rfl)
  · exact .after (countSlice_guests ..) <| .after (bumpTree_guests ..) (.of_eq rfl rfl rfl rfl)

/-! Write-backs (R33, R128) -/

theorem landLine_guests (s : State) (line : Nat) (bytes : List (Nat × Byte)) : SameGuests s (s.landLine line bytes) := by
  unfold State.landLine
  exact .after (inject_guests ..) <| .after (.foldl (fun s (p : Nat × Byte) => poke_guests s p.1 p.2) ..) <|
    (firstWrite_guests ..).trans (grant_guests ..)

theorem landHalf_guests (s : State) (l : Line) (j : Nat) : SameGuests s (s.landHalf l j).1 := by
  unfold State.landHalf
  dsimp only
  split
  · exact .refl s
  · split
    · exact .refl s
    · exact landLine_guests ..

theorem addEpoch_guests (s : State) (core : Nat) (g : Sig) : SameGuests s (s.addEpoch core g) := .of_eq rfl rfl rfl rfl

theorem landDirty_guests (s : State) (l : Line) : SameGuests s (s.landDirty l).1 := by
  unfold State.landDirty
  split
  · exact .refl s
  · exact .after (count_guests ..) <| .after (addEpoch_guests ..) <|
      (l2Write_guests ..).trans <| (landHalf_guests ..).trans (landHalf_guests ..)

theorem flushLines_guests (s : State) (p : Line → Bool) : SameGuests s (s.flushLines p) := by
  unfold State.flushLines
  exact .after (.foldl landDirty_guests ..) (.of_eq rfl rfl rfl rfl)

/-! Integrity failures (R373, R374) -/

theorem terminalRecord_guests (s : State) (slice : Nat) (r : FRec) : SameGuests s (s.terminalRecord slice r) := by
  unfold State.terminalRecord
  split
  · exact .of_eq rfl rfl rfl rfl
  · split <;> exact .of_eq rfl rfl rfl rfl

theorem setThread_guests (s : State) (i : ThreadId) (t : Thread) : SameGuests s (s.setThread i t) :=
  .of_eq (State.setThread_cur ..) (State.setThread_hosts ..) (State.setThread_teams ..) (State.setThread_launches ..)

theorem modThread_guests (s : State) (i : ThreadId) (f : Thread → Thread) : SameGuests s (s.modThread i f) := by
  unfold State.modThread
  split
  · exact setThread_guests ..
  · exact .refl s

theorem modEncl_guests (s : State) (n : Nat) (f : Encl → Encl) : SameGuests s (s.modEncl n f) :=
  .of_eq (State.modEncl_cur ..) (State.modEncl_hosts ..) (State.modEncl_teams ..) (State.modEncl_launches ..)

theorem withdrawKick_guests (s : State) (i : ThreadId) (restart : Word) : SameGuests s (s.withdrawKick i restart).1 := by
  unfold State.withdrawKick
  dsimp only
  split
  · split
    · exact .trans (.after (modThread_guests { s with atomQ := s.atomsBut i, ctlQ := s.ctlQ.filter (· ≠ i) } ..) (.of_eq rfl rfl rfl rfl))
        (.of_eq rfl rfl rfl rfl)
    · exact .of_eq rfl rfl rfl rfl
  · exact .of_eq rfl rfl rfl rfl

theorem asyncExit_guests (s : State) (n num : Nat) (sealIt : Bool) (restart : Word) : SameGuests s (s.asyncExit n num sealIt restart) := by
  obtain ⟨w, r, hw⟩ : ∃ w r, s.withdrawKick (.host n) restart = (w, r) := ⟨_, _, rfl⟩
  have hkick : SameGuests s w := by simpa only [hw] using withdrawKick_guests s (.host n) restart
  unfold State.asyncExit
  simp only [hw]
  split
  · exact .refl s
  · refine .after (modHost_guests _ _ fun _ => rfl) <| .after (setThread_guests ..) <| hkick.trans ?_
    split
    · split
      · exact .of_eq (by simp only [State.modEncl_cur]) (by simp only [State.modEncl_hosts]) (by simp only [State.modEncl_teams])
          (by simp only [State.modEncl_launches])
      · exact .of_eq rfl rfl rfl rfl
    · exact .of_eq rfl rfl rfl rfl

/-- A table whose entries change, but neither their numbers nor what is read from their values. -/
theorem Tab.find_map {α β : Type} {f : Nat × α → Nat × α} {g : α → β} (hkey : ∀ p, (f p).1 = p.1) (hval : ∀ p, g (f p).2 = g p.2)
    (t : Tab α) (n : Nat) : (Tab.find (t.map f) n).map g = (t.find n).map g := by
  have hcons (p : Nat × α) (t : Tab α) : Tab.find (p :: t) n = if p.1 = n then some p.2 else Tab.find t n := rfl
  induction t with
  | nil => rfl
  | cons p t ih =>
    rw [List.map_cons, hcons, hcons, hkey]
    split
    · exact congrArg some (hval p)
    · exact ih

theorem failEnclave_guests (s : State) (eid : Nat) : SameGuests s (s.failEnclave eid) := by
  unfold State.failEnclave
  split
  · exact .refl s
  · split
    · exact .refl s
    · refine .after (.foldl (fun s n => ?_) ..) <|
        (modEncl_guests ..).trans ⟨rfl, fun _ => rfl, rfl, fun _ => Tab.find_map (fun p => ?key) (fun p => ?guest) ..⟩
      case key => split <;> rfl
      case guest => split <;> rfl
      split
      · split
        · split
          · exact asyncExit_guests ..
          · exact .refl _
        · exact .refl _
      · exact .refl _

theorem unmapFrame_guests (s : State) (frame : Nat) : SameGuests s (s.unmapFrame frame) := .of_eq rfl rfl rfl rfl

theorem poisonOne_guests (s : State) (frame : Nat) {record : State → State} (hrecord : ∀ s, SameGuests s (record s)) :
    SameGuests s (s.poisonOne frame record) := by
  have hpoison (p : Pot) : SameGuests s (record (((s.setPot frame p).unmapFrame frame).flushLines fun l => l.pa / 32 = frame)) :=
    (setPot_guests ..).trans <| (unmapFrame_guests ..).trans <| (flushLines_guests ..).trans (hrecord _)
  unfold State.poisonOne
  dsimp only
  split
  · exact .refl s
  · split
    · exact (hpoison _).trans (failEnclave_guests ..)
    · exact hpoison _

theorem poisonFrame_guests (s : State) (frame : Nat) (sp : Space) (kind : AccessKind) (va slice : Nat) (agent : Nat × Nat) :
    SameGuests s (s.poisonFrame frame sp kind va slice agent) := by
  unfold State.poisonFrame
  dsimp only
  split
  · exact .trans (.foldl (fun s f => poisonOne_guests s f .refl) ..) (terminalRecord_guests ..)
  · exact poisonOne_guests _ _ fun s => terminalRecord_guests ..

/-! Recalls (R211) -/

theorem writeBackLine_guests (s : State) (l : Line) : SameGuests s (s.writeBackLine l) := by
  unfold State.writeBackLine
  dsimp only
  split
  · exact landDirty_guests s l
  · exact (landDirty_guests s l).trans (poisonFrame_guests ..)

theorem recall_guests (s : State) (frame : Nat) : SameGuests s (s.recall frame) := by
  unfold State.recall State.evictLines
  exact .after (.foldl writeBackLine_guests ..) (.of_eq rfl rfl rfl rfl)

end Sys2Proof.Machine
end

section
/-! SUPPORT. The enclave words (R212-R219): what ECREATE has built, the places that EENTER and EEXIT go to, what an EREPORT stores and when an
EDESTROY can be done. -/

namespace Sys2Proof.Machine

-- Proofs are checked one after the other, which keeps the compile of the whole text within its memory.
set_option Elab.async false

theorem exec_ecreate (h : Hdr) (d a : Opnd) (s : State) : exec (.ecreate h d a) s = execEcreate h d a s := rfl
theorem exec_eenter (h : Hdr) (a b : Opnd) (s : State) : exec (.eenter h a b) s = execEenter h a b s := rfl
theorem exec_eexit (h : Hdr) (s : State) : exec (.eexit h) s = execEexit h s := rfl
theorem exec_ereport (h : Hdr) (d a : Opnd) (s : State) : exec (.ereport h d a) s = execEreport h d a s := rfl
theorem exec_edestroy (h : Hdr) (a : Opnd) (s : State) : exec (.edestroy h a) s = execEdestroy h a s := rfl

/-! ECREATE (R212) -/

/-- The enclave that a creation enters in the table. -/
theorem create_find (s : State) (bs : List Byte) (x : Ecd) (eid slot att lead : Nat) (queues : List Nat) :
    ∃ e, (s.create bs x eid slot att lead queues).encls.find eid = some e ∧ e.guest = s.callerGuest ∧ e.slot = .ofNat 8 slot
      ∧ e.threads = x.threads ∧ e.entry = .ofNat 64 x.entry ∧ e.att = att ∧ e.queues = queues ∧ e.failed = false :=
  ⟨_, Tab.find_put .., rfl, rfl, rfl, rfl, rfl, rfl, rfl⟩

section Ecreate
variable {h : Hdr} {d a : Opnd} {s u : State} {bs : List Byte} (hr : Runs (.ecreate h d a) s)
  (hread : Reads (.ecreate h d a) s a 4096 4096 u bs)
include hr hread

theorem ecreate_refuses {c : Status} (hc : ecdStatus u bs (ecdOf bs) = some c) :
    Takes (.ecreate h d a) s (u.postTo d (.ofNat 32 (c.code * 65536))) := by
  refine takes_of_stays hr (exec_ecreate h d a s) ((hread.withBuffer_eq _).trans ?_) (State.postTo_keeps hread.keeps ..)
    (.postTo (hr.stays rfl (by decide) u) ..)
  simp only [hc]

theorem ecreate_creates {eid slot att lead free : Nat} {qs : List Nat} (hstatus : ecdStatus u bs (ecdOf bs) = none)
    (heid : u.freeEid = some eid) (hslot : u.freeSlot = some slot) (hatt : u.freeAtt = some att)
    (hlead : u.guestLead u.callerGuest.toNat = some lead) (hqs : u.freeQueues lead (ecdOf bs).queues = some qs)
    (hfree : u.poolFree lead = some free) (hroom : energyFrames ≤ free)
    (hheld : ((ecdOf bs).pages.any fun p => u.recallHeld (p.pa / 4096)) = false) {w : State}
    (hw : (ecdOf bs).pages.foldl (fun s p => s.recall (p.pa / 4096)) u = w)
    (hsound : ((ecdOf bs).pages.any fun p => (w.pot (p.pa / 4096)).state = .poisoned) = false)
    (htags : ((ecdOf bs).pages.find? fun p => p.ty = 0 && !w.verifies p.pa 4096) = none) :
    Takes (.ecreate h d a) s ((w.create bs (ecdOf bs) eid slot att lead qs).postTo d (.ofNat 32 eid)) := by
  have hkeep : Keeps (begin_ (.ecreate h d a) s) w := hw ▸ Keeps.foldl (fun _ _ hk => State.recall_keeps hk _) hread.keeps
  refine takes_of_stays hr (exec_ecreate h d a s) ((hread.withBuffer_eq _).trans ?_)
    (State.postTo_keeps (State.create_keeps hkeep ..) ..) (.postTo (hr.stays rfl (by decide) _) ..)
  simp only [hstatus, hheld, heid, hslot, hatt, hlead, hqs, hfree, hw, hsound, htags, if_neg (Nat.not_lt.2 hroom), Bool.false_eq_true,
    if_false]

end Ecreate

/-! Threads that complete their results (R76) -/

@[simp] theorem complete_cb (t : Thread) : t.complete.cb = t.cb := by
  unfold Thread.complete
  rw [Thread.settle_eq]

@[simp] theorem complete_w (t : Thread) : t.complete.w = t.w := by
  unfold Thread.complete
  rw [Thread.settle_eq]

theorem begin_w (i : Instr) (s : State) : (begin_ i s).th.w = s.th.w := by rw [begin_th]
theorem begin_cb (i : Instr) (s : State) : (begin_ i s).th.cb = s.th.cb := by rw [begin_th]

/-! The sealed copies of an enclave thread (R297) -/

/-- A change of the engines' owners is one of the registers alone. -/
theorem settleCeown_eq (s : State) : ∃ r, s.settleCeown = { s with reg := r } := by
  have hfold (l : Tab Dword) (s : State) : ∃ r, l.foldl (fun s p => s.applyCeown p.1 p.2) s = { s with reg := r } := by
    induction l generalizing s with
    | nil => exact ⟨s.reg, rfl⟩
    | cons p l ih =>
      obtain ⟨r, hr⟩ : ∃ r, s.applyCeown p.1 p.2 = { s with reg := r } := by
        unfold State.applyCeown
        split <;> exact ⟨_, rfl⟩
      rw [List.foldl_cons, hr]
      exact ih { s with reg := r }
  exact hfold ..

/-- They leave the thread that is to return, what the core returns to, every other core and memory. -/
structure Unsealed (s u : State) (n : Nat) : Prop where
  retW : (u.hostCore n).retW = (s.hostCore n).retW
  retCb : (u.hostCore n).retCb = (s.hostCore n).retCb
  entered : (u.hostCore n).entered = (s.hostCore n).entered
  others : ∀ m, m ≠ n → u.hostCore m = s.hostCore m
  mem : u.mem = s.mem

theorem modHost_unsealed {s u : State} {n : Nat} {f : HostCore → HostCore} (hhosts : u.hosts = (s.modHost n f).hosts) (hmem : u.mem = s.mem)
    (hf : ∀ c, (f c).retW = c.retW ∧ (f c).retCb = c.retCb ∧ (f c).entered = c.entered) : Unsealed s u n := by
  have hcore (m : Nat) : u.hostCore m = (s.modHost n f).hostCore m := by rw [State.hostCore, hhosts, State.hostCore]
  obtain ⟨hw, hcb, hentered⟩ := hf (s.hostCore n)
  refine ⟨?_, ?_, ?_, fun m hm => (hcore m).trans (modHost_hostCore_ne s hm f), hmem⟩ <;> rw [hcore, modHost_hostCore] <;> assumption

theorem unsealHostChans_unsealed (s : State) (n eid idx : Nat) : Unsealed s (s.unsealHostChans n eid idx) n := by
  unfold State.unsealHostChans
  dsimp only
  split
  · exact ⟨rfl, rfl, rfl, fun _ _ => rfl, rfl⟩
  · split
    · exact ⟨rfl, rfl, rfl, fun _ _ => rfl, rfl⟩
    · obtain ⟨r, hr⟩ := settleCeown_eq (((s.modHost n _).modEncl eid _))
      rw [hr]
      exact modHost_unsealed (State.modEncl_hosts ..) (State.modEncl_mem ..) fun _ => ⟨rfl, rfl, rfl⟩

/-! EENTER and EEXIT (R215, R216) -/

/-- The state that an EENTER leaves, `w` being the word after it. -/
def State.entering (b : State) (n eid idx : Nat) (e : Encl) (w : Word) : State :=
  let s : State := { b with th := b.th.complete }
  let s := s.modHost n fun c => { c with retW := w, retCb := s.th.cb }
  { ((s.freshCode (hostIx n)).modHost n fun c => { c with entered := some (eid, idx) }).unsealHostChans n eid idx with
    th := e.resume eid idx s.th, evcnt := moveCounters s.evcnt eid (saveIx eid idx) (hostIx n) }

theorem entering_th (b : State) (n eid idx : Nat) (e : Encl) (w : Word) : (b.entering n eid idx e w).th = e.resume eid idx b.th.complete := rfl

theorem entering_keeps {z b : State} (hk : Keeps z b) (n eid idx : Nat) (e : Encl) (w : Word) : Keeps z (b.entering n eid idx e w) :=
  Keeps.lit (State.unsealHostChans_keeps (State.modHost_keeps (State.freshCode_keeps (State.modHost_keeps (Keeps.lit hk) ..) ..) ..) ..)

/-- The core records where it returns and which enclave thread has entered it; nothing else of a core and no byte changes. -/
theorem entering_frame (b : State) (n eid idx : Nat) (e : Encl) (w : Word) {u : State} (hu : b.entering n eid idx e w = u) :
    (u.hostCore n).retW = w ∧ (u.hostCore n).retCb = b.th.cb ∧ (u.hostCore n).entered = some (eid, idx)
    ∧ (∀ m, m ≠ n → u.hostCore m = b.hostCore m) ∧ ∀ p, u.byte p = b.byte p := by
  subst hu
  let c : State := { b with th := b.th.complete }
  let r := c.modHost n fun k => { k with retW := w, retCb := b.th.complete.cb }
  let v := (r.freshCode (hostIx n)).modHost n fun k => { k with entered := some (eid, idx) }
  obtain ⟨hw, hcb, hentered, hothers, hmem⟩ := unsealHostChans_unsealed v n eid idx
  have hreturn : v.hostCore n = { r.hostCore n with entered := some (eid, idx) } := modHost_hostCore ..
  have hcore : r.hostCore n = { b.hostCore n with retW := w, retCb := b.th.complete.cb } := modHost_hostCore ..
  rw [hreturn, hcore] at hw hcb hentered
  have hother {m : Nat} (hm : m ≠ n) : r.hostCore m = b.hostCore m := modHost_hostCore_ne c hm _
  exact ⟨hw, hcb.trans (complete_cb _), hentered,
    fun m hm => (hothers m hm).trans <| (modHost_hostCore_ne (r.freshCode (hostIx n)) hm _).trans (hother hm),
    fun p => congrArg (Memory.get · p) hmem⟩

theorem eenter_lands {h : Hdr} {a c : Opnd} {s b : State} {n : Nat} (hr : Runs (.eenter h a c) s) (hcur : s.cur = .host n)
    (hb : begin_ (.eenter h a c) s = b) {eid idx : Nat} (heid : (b.src h 1 a).toNat % 65536 = eid) (hidx : (b.src h 2 c).toNat % 64 = idx)
    {e : Encl} (hfind : b.encls.find eid = some e) (hguest : e.guest = b.callerGuest) (hlt : idx < e.threads)
    (hfree : (b.hosts.any fun p => p.2.entered = some (eid, idx)) = false) (hslot : b.slotLoaded e.slot = true) (hfailed : e.failed = false)
    (hhalted : e.halted = false) : Lands (.eenter h a c) s (b.entering n eid idx e (nextIndex (.eenter h a c) s)) := by
  subst hb
  have hcur' : (begin_ (.eenter h a c) s).cur = .host n := (begin_cur ..).trans hcur
  refine lands_of_kept hr (exec_eenter h a c s) ?_ (entering_keeps (Keeps.refl _) ..)
  simp only [heid, hidx, hcur', hfind, hguest, hfree, hslot, hfailed, hhalted, decide_eq_false (Nat.not_le.2 hlt), ne_eq, not_true_eq_false,
    Bool.or_self, Bool.not_true, Bool.false_and, Bool.false_eq_true, if_false, nextIndex, complete_w, begin_w, State.entering]

/-- The state that an EEXIT leaves, `w` being the word after it. -/
def State.exiting (b : State) (n eid idx : Nat) (w : Word) : State :=
  let t := b.th.complete
  let c := b.hostCore n
  let s := b.modEncl eid fun e => { e with saves := e.saves.put idx (.exited w t.cb) }
  let s := s.modHost n fun c => { c with entered := none }
  { s with th := { t.fresh 0 c.retCb c.retW with level := .s }, evcnt := moveCounters s.evcnt eid (hostIx n) (saveIx eid idx) }

theorem eexit_lands {h : Hdr} {s b : State} {n eid idx : Nat} (hr : Runs (.eexit h) s) (hcur : s.cur = .host n)
    (hb : begin_ (.eexit h) s = b) (hentered : (b.hostCore n).entered = some (eid, idx)) :
    Lands (.eexit h) s (b.exiting n eid idx (nextIndex (.eexit h) s)) := by
  subst hb
  have hcur' : (begin_ (.eexit h) s).cur = .host n := (begin_cur ..).trans hcur
  refine lands_of_kept hr (exec_eexit h s) ?_ (Keeps.lit (State.modHost_keeps (State.modEncl_keeps (Keeps.refl _) ..) ..))
  simp only [hcur', hentered, nextIndex_begin, State.exiting]

/-- A table without the entries that a condition on the number fails for. -/
theorem Tab.getD_filter_out {α : Type} (t : Tab α) (p : Nat × α → Bool) (n : Nat) (z : α) (h : ∀ v, p (n, v) = false) :
    Tab.getD (t.filter p) n z = z := by
  have hnone : Tab.find (t.filter p) n = none := by
    induction t with
    | nil => rfl
    | cons e t ih =>
      obtain ⟨k, v⟩ := e
      rw [List.filter_cons]
      split
      · next hp =>
        have hk : k ≠ n := by
          rintro rfl
          exact Bool.noConfusion (hp.symm.trans (h v))
        exact (if_neg hk).trans ih
      · exact ih
  rw [Tab.getD, hnone, Option.getD_none]

/-- The thread after an EEXIT has the caller's g0-g15, and zero in every other register. -/
theorem fresh_reg (t : Thread) (eid : Nat) (cb : Dword) (w : Word) (c : Nat) : (t.fresh eid cb w).reg c = if c < 16 then t.reg c else 0 := by
  split
  · next hc => exact Tab.getD_filter t.regs _ c 0 fun _ => decide_eq_true hc
  · next hc => exact Tab.getD_filter_out t.regs _ c 0 fun _ => decide_eq_false hc

theorem begin_encls (i : Instr) (s : State) : (begin_ i s).encls = s.encls := by rw [begin_rest]

/-- What EEXIT leaves: the thread at the return point, the enclave thread's place in the table, and the rest. -/
theorem exiting_frame (b : State) (n eid idx : Nat) (w : Word) {u : State} (hu : b.exiting n eid idx w = u) :
    (u.th.w = (b.hostCore n).retW ∧ u.th.cb = (b.hostCore n).retCb ∧ u.th.level = .s ∧ u.th.eid = 0 ∧ u.th.fpc = 0 ∧ u.th.chk = 0)
    ∧ (∀ c, u.th.reg c = if c < 16 then b.th.complete.reg c else 0) ∧ (u.hostCore n).entered = none
    ∧ (∀ e, b.encls.find eid = some e → u.encls.find eid = some { e with saves := e.saves.put idx (.exited w b.th.cb) })
    ∧ ∀ p, u.byte p = b.byte p := by
  subst hu
  let v := b.modEncl eid fun e => { e with saves := e.saves.put idx (.exited w b.th.complete.cb) }
  refine ⟨⟨rfl, rfl, rfl, rfl, rfl, rfl⟩, fun c => fresh_reg b.th.complete 0 (b.hostCore n).retCb (b.hostCore n).retW c, ?entered,
    fun e he => ?place, fun p => ?bytes⟩
  case entered => exact congrArg HostCore.entered (modHost_hostCore v n fun c => { c with entered := none })
  case place =>
    have hv : v.encls = b.encls.put eid { e with saves := e.saves.put idx (.exited w b.th.cb) } := by
      simp only [v, State.modEncl, he, complete_cb]
    exact (congrArg (Tab.find · eid) hv).trans (Tab.find_put ..)
  case bytes => exact congrArg (Memory.get · p) (State.modEncl_mem ..)

/-! EREPORT (R218) -/

theorem ereport_takes {h : Hdr} {d a : Opnd} {s b u : State} {bs : List Byte} (hr : Runs (.ereport h d a) s)
    (hread : Reads (.ereport h d a) s a 256 64 u bs) (hb : begin_ (.ereport h d a) s = b) {eid seq : Nat}
    (heid : (b.space b.cur).eid.toNat = eid) {e₀ e : Encl} (hbefore : b.encls.find eid = some e₀) (hfind : u.encls.find eid = some e)
    (hseq : (e.seq + 1) % 2 ^ 64 = seq) {w : State}
    (hstore : Stores u (b.src2 1 a).toNat (slice bs 0 64 ++ reportTail e eid seq) w) {v : State}
    (hv : (w.modEncl eid fun e => { e with seq := seq, data := slice bs 0 64 }).noteRequest eid (w.coreIx w.cur - hostIx 0) (slice bs 0 64)
      = v) (hlevel : v.th.level = s.th.level) : Takes (.ereport h d a) s (v.postTo d (.ofNat 32 seq)) := by
  have hkeep : Keeps (begin_ (.ereport h d a) s) v :=
    hv ▸ State.noteRequest_keeps (State.modEncl_keeps (hstore.keeps hread.keeps) ..) ..
  subst hb heid hseq
  refine takes_of_stays hr (exec_ereport h d a s) ?_ (State.postTo_keeps hkeep ..) (.postTo (stays_of_level hlevel) ..)
  simp only [hbefore, hread.withBuffer_eq, hfind, hstore.storeBuffer_eq, hv]

/-! EDESTROY (R219) -/

theorem edestroy_takes {h : Hdr} {a : Opnd} {s b u : State} (hr : Runs (.edestroy h a) s) (hb : begin_ (.edestroy h a) s = b) {eid : Nat}
    (heid : (b.src h 1 a).toNat % 65536 = eid) {e : Encl} (hfind : b.encls.find eid = some e) (hguest : e.guest = b.callerGuest)
    (hdestroy : b.destroy eid e = some u) : Takes (.edestroy h a) s u := by
  subst hb heid
  refine takes_of_stays hr (exec_edestroy h a s) ?_ (OptKeeps.of hdestroy (State.destroy_keeps (Keeps.refl _) ..))
    (hr.stays rfl (by decide) u)
  simp only [hfind, hguest, hdestroy, if_true]

theorem destroyed_find (s : State) (eid : Nat) (e : Encl) : (s.destroyed eid e).encls.find eid = none := Tab.find_del ..

theorem destroy_find {s u : State} {eid : Nat} {e : Encl} (h : s.destroy eid e = some u) : u.encls.find eid = none := by
  unfold State.destroy at h
  dsimp only at h
  split at h
  · cases h
  · obtain ⟨w, -, rfl⟩ := Option.map_eq_some_iff.1 h
    exact destroyed_find w eid e

/-- A context has no launch. -/
def Idle (s : State) (eid : Nat) : Prop := ∀ n l, s.launches.find n = some l → l.eid ≠ eid

section Idle
variable {s : State} {eid : Nat}

theorem Idle.standing (h : Idle s eid) (onCore : Nat → Bool) : s.standing eid onCore = false := by
  unfold State.standing
  refine List.any_eq_false.2 fun t _ hmine => ?_
  obtain ⟨-, hlaunch⟩ := Bool.and_eq_true_iff.1 hmine
  split at hlaunch
  · next l hl => exact h _ l hl (of_decide_eq_true hlaunch)
  · cases hlaunch

/-- None of its teams stands to be killed. -/
theorem Idle.killTeams (h : Idle s eid) (onCore : Nat → Bool) : s.killTeams eid onCore = s :=
  congrArg (fun mine => mine.foldl (fun s t => s.endTeam t.1) (mine.foldl (fun s t => s.endLaunch t.2.launch 0x203) s))
    (List.filter_eq_nil_iff.2 (List.any_eq_false.1 (h.standing onCore)))

/-- Such an enclave has no launch to end. -/
theorem endLaunches_idle (h : (s.launches.all fun l => l.2.eid ≠ eid) = true) : ∃ u, s.endLaunches eid = some u := by
  have hne : ∀ l ∈ s.launches, l.2.eid ≠ eid := fun l hl => of_decide_eq_true (List.all_eq_true.1 h l hl)
  have hmine : (s.launches.filter fun l => l.2.eid = eid) = [] := List.filter_eq_nil_iff.2 fun l hl => by simpa using hne l hl
  have hidle (u : State) (hu : u.launches = s.launches) : Idle u eid := fun n l hl => hne (n, l) (Tab.mem_of_find (hu ▸ hl))
  have hkill (u : State) (hu : u.launches = s.launches) : u.killTeams eid (fun _ => true) = u := (hidle u hu).killTeams _
  have hstand (u : State) (hu : u.launches = s.launches) : u.standing eid (fun _ => true) = false := (hidle u hu).standing _
  simp only [State.endLaunches, hmine, List.foldl_nil, hkill, hstand, Bool.false_eq_true, if_false]
  exact ⟨_, rfl⟩

end Idle

theorem destroy_idle {s : State} {eid : Nat} {e : Encl}
    (hheld : (s.waitsForHold fun l => l.sp.eid.toNat = eid || l.slot = e.slot || some l.slot = e.newSlot) = false) (hsweeps : s.sweeps = [])
    (hhosts : (s.hosts.any fun h => h.2.entered.any (·.1 = eid) && s.unreturned (.host h.1)) = false)
    (hlaunches : (s.launches.all fun l => l.2.eid ≠ eid) = true) : ∃ u, s.destroy eid e = some u := by
  obtain ⟨u, hu⟩ := endLaunches_idle (s := { s with queues := s.queues.filter fun q => q.2.owner ≠ eid }) hlaunches
  refine ⟨u.destroyed eid e, ?_⟩
  unfold State.destroy
  refine (if_neg ?_).trans (congrArg (Option.map fun s => s.destroyed eid e) hu)
  simp only [hheld, hsweeps, hhosts, List.any_nil, Bool.or_self, Bool.false_eq_true, not_false_eq_true]

/-- Settles O38: each word's effect is the state that the model's own functions name; what a creation recalls changes nobody's guest, and an
enclave without launches, with nothing held or swept and no accesses outstanding, can be destroyed. -/
theorem enclaveWords : Obligations.EnclaveWords := by
  unfold Obligations.EnclaveWords
  refine ⟨fun h d a s u bs hr hread => ⟨fun c hc => ecreate_refuses hr hread hc, ?creates⟩, fun h a c s n hr hcur => ?enters,
    fun h s n eid idx hr hcur hentered => ?exits, fun h d a s u bs e hr hread => ?reports, fun h a s e hr => ?destroys⟩
  case creates =>
    intro eid slot att lead qs free hstatus heid hslot hatt hlead hqs hfree hroom hheld w hsound htags v
    refine ⟨ecreate_creates hr hread hstatus heid hslot hatt hlead hqs hfree hroom hheld rfl hsound htags, ?_⟩
    obtain ⟨e, hfind, hguest, hrest⟩ := create_find w bs (ecdOf bs) eid slot att lead qs
    exact ⟨e, hfind, hguest.trans (SameGuests.foldl (fun s p => recall_guests s _) ..).callerGuest, hrest⟩
  case enters =>
    intro i b eid idx e hfind hguest hlt hfree hslot hfailed hhalted
    obtain ⟨hw, hcb, hentered, hothers, hbytes⟩ := entering_frame b n eid idx e (nextIndex i s) rfl
    exact ⟨_, eenter_lands hr hcur rfl rfl rfl hfind hguest hlt hfree hslot hfailed hhalted, entering_th .., hw, hcb.trans (begin_cb ..),
      hentered, fun m hm => (hothers m hm).trans (begin_hostCore ..), fun p => (hbytes p).trans (begin_byte ..)⟩
  case exits =>
    intro i
    obtain ⟨⟨hw, hcb, hlevel, heid, hfpc, hchk⟩, hregs, hout, hplace, hbytes⟩ := exiting_frame (begin_ i s) n eid idx (nextIndex i s) rfl
    obtain ⟨hfinal, -, -⟩ := begin_complete i s
    simp only [begin_hostCore, begin_encls, begin_cb, begin_byte, hfinal] at hw hcb hregs hplace hbytes
    exact ⟨_, eexit_lands hr hcur rfl ((congrArg HostCore.entered (begin_hostCore ..)).trans hentered), hw, hcb, hlevel, heid, hfpc, hchk,
      hregs, hout, hplace, hbytes⟩
  case reports =>
    rintro i b eid ⟨e₀, hbefore⟩ hfind seq w hstore v hlevel
    exact ereport_takes hr hread rfl rfl hbefore hfind rfl hstore rfl hlevel
  case destroys =>
    intro i b eid hfind hguest
    have hdone {u : State} (hu : b.destroy eid e = some u) : Takes i s u ∧ u.encls.find eid = none :=
      ⟨edestroy_takes hr rfl rfl hfind hguest hu, destroy_find hu⟩
    refine ⟨fun u hu => hdone hu, fun hheld hsweeps hhosts hlaunches => ?_⟩
    obtain ⟨u, hu⟩ := destroy_idle hheld hsweeps hhosts hlaunches
    exact ⟨u, hdone hu⟩

end Sys2Proof.Machine
end

section
/-! SUPPORT. The end of a launch (R244, R245): the launch of a SIMT thread, and the entry of the launch table that an end writes. -/

namespace Sys2Proof.Machine

-- Proofs are checked one after the other, which keeps the compile of the whole text within its memory.
set_option Elab.async false

/-- The launch of a thread is the table's entry under its number. -/
theorem launches_find_of_launchOf {s : State} {i : ThreadId} {n : Nat} {l : Launch} (h : s.launchOf i = some (n, l)) :
    s.launches.find n = some l := by
  unfold State.launchOf at h
  cases hteam : s.teamOf i with
  | none => simp only [hteam, reduceCtorEq] at h
  | some t =>
    simp only [hteam, Option.map_eq_some_iff, Prod.mk.injEq] at h
    obtain ⟨_, hfind, rfl, rfl⟩ := h
    exact hfind

theorem modLaunch_of_find {s : State} {n : Nat} {l : Launch} (h : s.launches.find n = some l) (f : Launch → Launch) :
    s.modLaunch n f = { s with launches := s.launches.put n (f l) } := by
  simp only [State.modLaunch, h]

/-- A launch ends with the first error that it meets, at that clock; a later one leaves it as it is (R245). -/
theorem endLaunch_of_find {s : State} {n : Nat} {l : Launch} (h : s.launches.find n = some l) (error : Word) :
    s.endLaunch n error = { s with
      launches := s.launches.put n (if l.error.isSome then l else { l with error := some error, ended := some s.time }) } := by
  rw [State.endLaunch, modLaunch_of_find h]
  cases herror : l.error with
  | some e => rfl
  | none => rfl

theorem takeTrap_eq_endLaunch {s : State} {team idx n : Nat} {l : Launch} (hcur : s.cur = .simt team idx)
    (hl : s.launchOf s.cur = some (n, l)) (t : Trap) (value : Dword) (restart : Word) :
    s.takeTrap t value restart = { s with th := { s.th with wait := .stopped } }.endLaunch n (trapError t) := by
  rw [hcur] at hl
  simp only [State.takeTrap, hcur, hl]

/-- Settles O16: the trap stops the thread and ends its launch, and the end writes one entry of the launch table. -/
theorem simtTrap : Obligations.SimtTrap := by
  unfold Obligations.SimtTrap
  intro s team idx t value restart n l hcur hl
  have hfind : ({ s with th := { s.th with wait := .stopped } } : State).launches.find n = some l := launches_find_of_launchOf hl
  rw [takeTrap_eq_endLaunch hcur hl, endLaunch_of_find hfind, trapError]

end Sys2Proof.Machine
end

section
/-! SUPPORT. The events of the SIMT queues (R246, R247, R342-R350): the reads that a kick can still make, the heads that start or complete,
the marks, and the quiescent boundary. -/

namespace Sys2Proof.Machine

-- Proofs are checked one after the other, which keeps the compile of the whole text within its memory.
set_option Elab.async false

/-! What an agent's arm runs -/

theorem exec_kickTake (slice queue : Nat) (s : State) : exec (.kickTake slice queue) s = execKickTake slice queue s := rfl

theorem exec_entryStart (slice queue : Nat) (s : State) : exec (.entryStart slice queue) s = execEntryStart slice queue s := rfl

theorem exec_markComplete (slice queue seq : Nat) (s : State) :
    exec (.markComplete slice queue seq) s = execMarkComplete slice queue seq s := rfl

theorem exec_quiesceRequest (slice : Nat) (s : State) : exec (.quiesceRequest slice) s = execQuiesceRequest slice s := rfl

theorem exec_quiesceRelease (slice : Nat) (s : State) : exec (.quiesceRelease slice) s = execQuiesceRelease slice s := rfl

/-! Reading entries (R344) -/

theorem readsOn_of_eq {s : State} {q : SimtQ} {qn : Nat} {e : Entry} (h : (readEntryOf s q qn e).2 = e) : readsOn s q qn e = none := if_pos h

theorem readsOn_of_ne {s : State} {q : SimtQ} {qn : Nat} {e : Entry} (h : (readEntryOf s q qn e).2 ≠ e) :
    readsOn s q qn e = some ((readEntryOf s q qn e).1.setEntry qn (readEntryOf s q qn e).2) := if_neg h

/-- No entry is read while each that has something to be read stays as it is. -/
theorem readsNext_eq_none {s : State} {q : SimtQ} {qn : Nat} (h : ∀ e ∈ q.entries, e.unread = true → (readEntryOf s q qn e).2 = e) :
    readsNext s q qn = none := by
  refine List.findSome?_eq_none_iff.mpr fun e he => ?_
  split
  next hunread => exact readsOn_of_eq (h e he hunread)
  next => rfl

/-- The first entry of a queue that has something to be read is read first, if anything of it can be read now. -/
theorem readsNext_cons {s : State} {q : SimtQ} {qn : Nat} {e : Entry} {es : List Entry} (hentries : q.entries = e :: es)
    (hunread : e.unread = true) (hread : (readEntryOf s q qn e).2 ≠ e) :
    readsNext s q qn = some ((readEntryOf s q qn e).1.setEntry qn (readEntryOf s q qn e).2) := by
  simp only [readsNext, hentries, List.findSome?_cons, hunread, if_true, readsOn_of_ne hread]

/-! The head of a queue (R345, R348) -/

/-- What a queue does with a head that nothing holds and that has been read: a mark starts, or goes where its block could not be read; an
entry with an error completes; a launch that can start does. A mark or a launch waits for its turn. -/
def headStep (slice queue : Nat) (s : State) (q : SimtQ) (e : Entry) : Option State :=
  let qn := 256 * slice + queue
  if e.mark then
    if s.queueBefore qn q 7 then none
    else
      let r := s.takeTurn (16 * slice + 7) q.owner
      if e.blind then some (r.dropEntry qn e.seq 0) else some (r.setEntry qn { e with begun := true })
  else if e.error.isSome then s.failEntry q qn e
  else (startable s q qn e).bind fun ws =>
    let pri := (recordOf q qn e.seq e.words).pri
    if s.queueBefore qn q pri then none else some ((s.startLaunch q qn e ws).takeTurn (16 * slice + pri) q.owner)

section Head

variable {slice queue : Nat} {s : State} {q : SimtQ} {e : Entry} {ws : List Walker}

/-- ENTRY_START takes the head of a queue that the command processor serves, while no entry waits to complete with an error. -/
theorem exec_entryStart_head (hqueue : queue < 256) (hpaused : s.paused.contains slice = false) (hpart : partEn (s.part slice) = true)
    (hq : s.queues.find (256 * slice + queue) = some q) (hstopped : q.stopped = false) (hcp : s.cpStopped slice = false)
    (hfailing : q.failing = none) (hhead : q.head = some e) (hheld : e.heldOn = none) (hunread : e.unread = false) :
    exec (.entryStart slice queue) s = agent s (headStep slice queue s q e) := by
  rw [exec_entryStart, execEntryStart, headStep]
  simp only [hpaused, hpart, hq, hstopped, hcp, hfailing, hhead, hheld, hunread, Nat.not_le.mpr hqueue, Option.isSome_none, decide_false,
    Bool.not_true, Bool.or_self, Bool.false_eq_true, if_false]
  cases startable s q (256 * slice + queue) e with
  | none => rfl
  | some ws => rfl

theorem headStep_mark (hmark : e.mark = true) (hturn : s.queueBefore (256 * slice + queue) q 7 = false) :
    headStep slice queue s q e = some (if e.blind then (s.takeTurn (16 * slice + 7) q.owner).dropEntry (256 * slice + queue) e.seq 0
      else (s.takeTurn (16 * slice + 7) q.owner).setEntry (256 * slice + queue) { e with begun := true }) := by
  simp only [headStep, hmark, hturn, Bool.false_eq_true, if_true, if_false]
  split
  · rfl
  · rfl

theorem headStep_error (hmark : e.mark = false) (herror : e.error.isSome = true) :
    headStep slice queue s q e = s.failEntry q (256 * slice + queue) e := by
  simp only [headStep, hmark, herror, Bool.false_eq_true, if_true, if_false]

theorem headStep_launch (hmark : e.mark = false) (herror : e.error = none) (hws : startable s q (256 * slice + queue) e = some ws)
    (hturn : s.queueBefore (256 * slice + queue) q (recordOf q (256 * slice + queue) e.seq e.words).pri = false) :
    headStep slice queue s q e = some ((s.startLaunch q (256 * slice + queue) e ws).takeTurn
      (16 * slice + (recordOf q (256 * slice + queue) e.seq e.words).pri) q.owner) := by
  simp only [headStep, hmark, herror, hws, hturn, Option.isSome_none, Option.bind_some, Bool.false_eq_true, if_false]

theorem failEntry_blind {qn : Nat} (hblind : e.blind = true) : s.failEntry q qn e = some (s.dropEntry qn e.seq 0) := if_pos hblind

end Head

/-! Marks (R347) -/

section Mark

variable {slice queue seq : Nat} {s r : State} {q : SimtQ} {e : Entry} {bs : List Byte}

/-- The completion of a mark: it makes its count, if its block names a handle for one, and leaves its queue with the signatures that it adds. -/
def markDone (slice queue seq : Nat) (q : SimtQ) (e : Entry) (s : State) (sig : Sig) : State :=
  State.dropEntry (if 192 ≤ markBar e.words && markBar e.words ≤ 254 then s.countHandle slice q.space (markBar e.words) sig else s)
    (256 * slice + queue) seq 0

/-- A mark whose turn to complete has come: it has started, is behind no earlier entry, waits on no record, and its queue is served. -/
structure MarkTurn (slice queue seq : Nat) (s : State) (q : SimtQ) (e : Entry) : Prop where
  queue : s.queues.find (256 * slice + queue) = some q
  entry : q.entries.find? (fun e => e.seq == seq) = some e
  mark : e.mark = true
  begun : e.begun = true
  free : e.heldOn = none
  unpaused : s.paused.contains slice = false
  runs : q.stopped = false
  served : s.cpStopped slice = false
  first : (q.entries.any fun x => x.seq < seq) = false

theorem MarkTurn.occurs_mute (h : MarkTurn slice queue seq s q e) (hmute : e.mute = true) :
    Occurs (.markComplete slice queue seq) s (markDone slice queue seq q e s q.sig) := by
  refine occurs_of (exec_markComplete slice queue seq s) ?_
  simp only [h.queue, h.entry, h.mark, h.begun, h.free, h.unpaused, h.runs, h.served, h.first, hmute, Option.isSome_none, Bool.not_true,
    Bool.or_self, Bool.false_eq_true, if_true, if_false]
  rfl

theorem MarkTurn.occurs_signal (h : MarkTurn slice queue seq s q e) (hmute : e.mute = false)
    (hsignal : writeSignal s slice q.space e.va.toNat
      (signalBytes seq (s.timestamp q.owner false) (s.timestamp q.owner false) (e.error.getD 0) 0) q.sig = .ok r bs) :
    Occurs (.markComplete slice queue seq) s (markDone slice queue seq q e r (q.sig ||| sigOf (e.va.toNat / 128))) := by
  refine occurs_of (exec_markComplete slice queue seq s) ?_
  simp only [h.queue, h.entry, h.mark, h.begun, h.free, h.unpaused, h.runs, h.served, h.first, hmute, hsignal, Option.isSome_none,
    Bool.not_true, Bool.or_self, Bool.false_eq_true, if_false]
  rfl

end Mark

/-! Kicks (R342, R344) -/

/-- A kick that a queue has room for is taken while no entry before it can be read on. -/
theorem kickTake_occurs_held {slice queue : Nat} {q : SimtQ} {i : ThreadId} {v : Dword} {rest : List (ThreadId × Dword)} {e : Entry}
    {s r : State} (hqueue : queue < 256) (hpaused : s.paused.contains slice = false) (hq : s.queues.find (256 * slice + queue) = some q)
    (hreads : readsNext s q (256 * slice + queue) = none) (hheld : q.held = (i, v) :: rest) (hroom : q.occ < 256)
    (he : e = ⟨q.seq + 1, v.getLsbD 0, v &&& ~~~(0x7F : Dword), [], none, none, false, false, none, false⟩)
    (hr : r = State.onThread { s with
        queues := s.queues.put (256 * slice + queue) { q with seq := q.seq + 1, held := rest, entries := q.entries ++ [e] } } i
      fun s => s.wakeFrom { s with th := { s.th with kick := none } }) :
    Occurs (.kickTake slice queue) s ((readEntryOf r q (256 * slice + queue) e).1.setEntry (256 * slice + queue)
      (readEntryOf r q (256 * slice + queue) e).2) := by
  subst hr he
  refine occurs_of (exec_kickTake slice queue s) ?_
  simp only [hpaused, hq, hreads, hheld, Nat.not_le.mpr hqueue, Nat.not_le.mpr hroom, decide_false, Bool.or_self, Bool.false_eq_true,
    if_false]

/-- An entry whose record is answered is read before a kick is taken. -/
theorem kickTake_occurs_read {slice queue : Nat} {q : SimtQ} {s u : State} (hqueue : queue < 256) (hpaused : s.paused.contains slice = false)
    (hq : s.queues.find (256 * slice + queue) = some q) (hreads : readsNext s q (256 * slice + queue) = some u) :
    Occurs (.kickTake slice queue) s u := by
  refine occurs_of (exec_kickTake slice queue s) ?_
  simp only [hpaused, hq, hreads, Nat.not_le.mpr hqueue, decide_false, Bool.or_self, Bool.false_eq_true, if_false]

/-- Settles O48: a kick and a read by what can be read on, a head by its kind, a mark by whether it is mute, and the boundary by its slice. -/
theorem queueEvents : Obligations.QueueEvents := by
  unfold Obligations.QueueEvents
  refine ⟨fun slice queue q i v rest s hqueue hpaused hq hreads hheld hroom =>
      kickTake_occurs_held hqueue hpaused hq hreads hheld hroom rfl rfl,
    fun slice queue q e es s hqueue hpaused hq hentries hunread hread =>
      kickTake_occurs_read hqueue hpaused hq (readsNext_cons hentries hunread hread),
    fun q qn s h => readsNext_eq_none h,
    fun slice queue q e s hqueue hpaused hpart hq hstopped hcp hfailing hhead hheld hunread => ?head,
    fun slice queue seq q e s hq hentry hmark hbegun hheld hpaused hstopped hcp hfirst =>
      have h : MarkTurn slice queue seq s q e := ⟨hq, hentry, hmark, hbegun, hheld, hpaused, hstopped, hcp, hfirst⟩
      ⟨fun hmute => h.occurs_mute hmute, fun hmute r bs hsignal => h.occurs_signal hmute hsignal⟩,
    fun slice s hpaused hpart => occurs_of (exec_quiesceRequest slice s) ?request,
    fun slice s hpaused => ⟨occurs_of (exec_quiesceRelease slice s) (if_pos hpaused), by simp⟩⟩
  case head =>
    have hx := exec_entryStart_head hqueue hpaused hpart hq hstopped hcp hfailing hhead hheld hunread
    exact ⟨fun hmark hturn hblind => occurs_of hx ((headStep_mark hmark hturn).trans (congrArg some (if_neg (Bool.eq_false_iff.mp hblind)))),
      fun hmark hturn hblind => occurs_of hx ((headStep_mark hmark hturn).trans (congrArg some (if_pos hblind))),
      fun hmark herror u hu => occurs_of hx ((headStep_error hmark herror).trans hu),
      fun hmark herror hblind => occurs_of hx ((headStep_error hmark herror).trans (failEntry_blind hblind)),
      fun hmark herror ws hws hturn => occurs_of hx (headStep_launch hmark herror hws hturn)⟩
  case request => simp only [hpaused, hpart, Bool.not_true, Bool.or_self, Bool.false_eq_true, if_false]

end Sys2Proof.Machine
end

section
/-! SUPPORT. The fields of an instruction word, and the words of each format (Tables 3.1-3.3, 3.7-3.13): what is left to each word is its arm of
the decoder. -/

namespace Sys2Proof

-- Proofs are checked one after the other, which keeps the compile of the whole text within its memory.
set_option Elab.async false

/-! The fields of a word (Tables 3.1-3.3) -/

theorem bit_lt_two (b : Bool) : bit b < 2 := by cases b <;> decide

theorem bit_eq_one (b : Bool) : (bit b == 1) = b := by cases b <;> rfl

theorem Opnd.code_lt (o : Opnd) : o.code < 128 := by
  cases o with
  | bad hi => have := bit_lt_two hi; simp only [Opnd.code]; omega
  | _ => simp only [Opnd.code]; omega

@[simp] theorem Opnd.ofCode_code (o : Opnd) : Opnd.ofCode o.code = o := by
  cases o with
  | g n => simp [Opnd.code, Opnd.ofCode]
  | o n => simp [Opnd.code, Opnd.ofCode, show ¬ 0x70 + n.val < 0x70 by omega, show 0x70 + n.val < 0x78 by omega]
  | l n => simp [Opnd.code, Opnd.ofCode, show ¬ 0x78 + n.val < 0x78 by omega, show ¬ 0x78 + n.val < 0x70 by omega,
      show 0x78 + n.val < 0x7C by omega]
  | zr => rfl
  | lit => rfl
  | bad hi => cases hi <;> rfl

/-- A word of header `h` and opcode `op` whose other 21 bits are `low`. -/
structure Laid (n : Nat) (h : Hdr) (op low : Nat) : Prop where
  eq : n = hd h + op * 0x200000 + low
  op_lt : op < 256
  low_lt : low < 0x200000

variable {n op low : Nat} {h : Hdr}

theorem hd_eq (h : Hdr) : ∃ c s, bit h.c = c ∧ h.s.toNat = s ∧ c < 2 ∧ s < 4 ∧ hd h = c * 0x80000000 + s * 0x20000000 :=
  ⟨_, _, rfl, rfl, bit_lt_two h.c, h.s.isLt, rfl⟩

theorem Laid.lt (l : Laid n h op low) : n < 2 ^ 32 := by
  obtain ⟨c, s, -, -, hc, hs, e⟩ := hd_eq h
  have := l.eq; have := l.op_lt; have := l.low_lt
  omega

theorem Laid.opcode (l : Laid n h op low) : fld n 21 8 = op := by
  obtain ⟨c, s, -, -, hc, hs, e⟩ := hd_eq h
  have := l.eq; have := l.op_lt; have := l.low_lt
  unfold fld
  omega

theorem Laid.chain (l : Laid n h op low) : fld n 31 1 = bit h.c := by
  obtain ⟨c, s, ec, -, hc, hs, e⟩ := hd_eq h
  have := l.eq; have := l.op_lt; have := l.low_lt
  unfold fld
  omega

theorem Laid.stall (l : Laid n h op low) : fld n 29 2 = h.s.toNat := by
  obtain ⟨c, s, -, es, hc, hs, e⟩ := hd_eq h
  have := l.eq; have := l.op_lt; have := l.low_lt
  unfold fld
  omega

theorem Laid.field (l : Laid n h op low) {lo w : Nat} (hw : lo + w ≤ 21) : fld n lo w = fld low lo w := by
  obtain ⟨c, s, -, -, -, -, e⟩ := hd_eq h
  have hn : n = low + 2 ^ (lo + w) * (2 ^ (21 - (lo + w)) * (c * 1024 + s * 256 + op)) := by
    rw [← Nat.mul_assoc, ← Nat.pow_add, Nat.add_sub_cancel' hw, l.eq, e]
    ring
  simp only [fld, hn, Nat.pow_add, Nat.mul_assoc, Nat.add_mul_div_left _ _ (Nat.two_pow_pos lo), Nat.add_mul_mod_self_left]

/-- The header that the decoder reads from a word, with the literal that stands after it. -/
theorem Laid.header (l : Laid n h op low) {x : Word} (hx : x = h.lit) :
    (⟨fld n 31 1 == 1, .ofNat _ (fld n 29 2), x⟩ : Hdr) = h := by
  rw [l.chain, l.stall, bit_eq_one, BitVec.ofNat_toNat, BitVec.setWidth_eq, hx]

theorem word3_laid {d a b : Nat} (hop : op < 256) (hlow : d * 0x4000 + a * 0x80 + b < 0x200000) :
    Laid (word3 h op d a b) h op (d * 0x4000 + a * 0x80 + b) :=
  ⟨by simp only [word3]; omega, hop, hlow⟩

/-- Whether an opcode is assigned to words without an extension word. -/
def plainOp (op : Nat) : Bool := match formatOf op with
  | none | some .ext => false
  | _ => true

/-- A word that the tables encode: its bits are laid out by an opcode of one word, and they decode to it. -/
structure Legible (i : Instr) (h : Hdr) : Prop where
  laid : ∃ op low, Laid i.wordNat h op low ∧ plainOp op = true
  reads : decodeWord i.wordNat h = some i

/-- What an arm of the decoder has to read for a word to be legible: the fields of its low bits. -/
theorem legible_of_arm {i : Instr} {h : Hdr} (op d a b : Nat) (hi : i.wordNat = word3 h op d a b) (hop : op < 256 ∧ plainOp op = true)
    (hlow : d * 0x4000 + a * 0x80 + b < 0x200000)
    (arm : ∀ n, fld n 21 8 = op → (∀ lo w, lo + w ≤ 21 → fld n lo w = fld (d * 0x4000 + a * 0x80 + b) lo w) → decodeWord n h = some i) :
    Legible i h := by
  have l := word3_laid (h := h) hop.1 hlow
  rw [← hi] at l
  exact ⟨⟨op, _, l, hop.2⟩, arm _ l.opcode fun _ _ hw => l.field hw⟩

/-! The words of each format (Tables 3.3, 3.7-3.13). What is left to each word is its arm of the decoder. -/


theorem fld_triple {d a b : Nat} (hd : d < 128) (ha : a < 128) (hb : b < 128) :
    fld (d * 0x4000 + a * 0x80 + b) 14 7 = d ∧ fld (d * 0x4000 + a * 0x80 + b) 7 7 = a ∧ fld (d * 0x4000 + a * 0x80 + b) 0 7 = b := by
  unfold fld
  omega

theorem ofNat_toNat_self {w : Nat} (v : BitVec w) : BitVec.ofNat w v.toNat = v := by rw [BitVec.ofNat_toNat, BitVec.setWidth_eq]

theorem fld_narrow {n lo v w : Nat} (hv : v ≤ w) : fld n lo v = fld n lo w % 2 ^ v := by
  rw [fld, fld, Nat.mod_mod_of_dvd _ (Nat.pow_dvd_pow 2 hv)]

/-- Three operands. -/
theorem legible_rrr {mk : Opnd → Opnd → Opnd → Instr} {d a b : Opnd}
    (hi : (mk d a b).wordNat = word3 h op d.code a.code b.code) (hop : op < 256 ∧ plainOp op = true)
    (arm : ∀ n, fld n 21 8 = op →
      decodeWord n h = some (mk (.ofCode (fld n 14 7)) (.ofCode (fld n 7 7)) (.ofCode (fld n 0 7)))) : Legible (mk d a b) h := by
  have hd := d.code_lt; have ha := a.code_lt; have hb := b.code_lt
  refine legible_of_arm _ _ _ _ hi hop (by omega) fun n e f => ?_
  obtain ⟨fd, fa, fb⟩ := fld_triple hd ha hb
  rw [arm n e, f _ _ (by omega), f _ _ (by omega), f _ _ (by omega), fd, fa, fb]
  simp only [Opnd.ofCode_code]

/-- Two operands and an immediate of up to 7 bits. -/
theorem legible_ri {w : Nat} (hw : w ≤ 7) {mk : Opnd → Opnd → BitVec w → Instr} {d a : Opnd} {imm : BitVec w}
    (hi : (mk d a imm).wordNat = word3 h op d.code a.code imm.toNat) (hop : op < 256 ∧ plainOp op = true)
    (arm : ∀ n, fld n 21 8 = op → fld n w (7 - w) = 0 →
      decodeWord n h = some (mk (.ofCode (fld n 14 7)) (.ofCode (fld n 7 7)) (.ofNat _ (fld n 0 w)))) : Legible (mk d a imm) h := by
  have hd := d.code_lt; have ha := a.code_lt
  have hv := imm.isLt
  have hb : imm.toNat < 128 := lt_of_lt_of_le hv (Nat.pow_le_pow_right (by decide) hw)
  refine legible_of_arm _ _ _ _ hi hop (by omega) fun n e f => ?_
  obtain ⟨fd, fa, fb⟩ := fld_triple hd ha hb
  have low : fld n 0 7 = imm.toNat := by rw [f _ _ (by omega), fb]
  have high : fld n w (7 - w) = 0 := by
    have e : fld n w (7 - w) = fld n 0 7 / 2 ^ w := by
      simp only [fld, pow_zero, Nat.div_one]
      rw [← Nat.mod_mul_right_div_self, ← Nat.pow_add, Nat.add_sub_cancel' hw]
    rw [e, low, Nat.div_eq_of_lt hv]
  rw [arm n e high, f _ _ (by omega), f _ _ (by omega), fd, fa, fld_narrow hw, low, Nat.mod_eq_of_lt hv]
  simp only [Opnd.ofCode_code, ofNat_toNat_self]

/-- Two operands and a function code, whose two low bits are a field of their own in some forms. -/
theorem legible_rr {f : Nat} {mk : Opnd → Opnd → Instr} {d a : Opnd}
    (hi : (mk d a).wordNat = word3 h op d.code a.code f) (hop : (op < 256 ∧ plainOp op = true) ∧ f < 128)
    (arm : ∀ n, fld n 21 8 = op → fld n 0 7 = f → fld n 2 5 = f / 4 → fld n 0 2 = f % 4 →
      decodeWord n h = some (mk (.ofCode (fld n 14 7)) (.ofCode (fld n 7 7)))) : Legible (mk d a) h := by
  have hd := d.code_lt; have ha := a.code_lt
  refine legible_of_arm _ _ _ _ hi hop.1 (by omega) fun n e g => ?_
  obtain ⟨fd, fa, fb⟩ := fld_triple hd ha hop.2
  have low : fld n 0 7 = f := by rw [g _ _ (by omega), fb]
  rw [arm n e low (by rw [← low]; unfold fld; omega) (by rw [← low]; unfold fld; omega), g _ _ (by omega), g _ _ (by omega), fd, fa]
  simp only [Opnd.ofCode_code]

/-- One operand in field D and an immediate of 14 bits. -/
theorem legible_i14 {mk : Opnd → BitVec 14 → Instr} {d : Opnd} {imm : BitVec 14}
    (hi : (mk d imm).wordNat = word3 h op d.code 0 imm.toNat) (hop : op < 256 ∧ plainOp op = true)
    (arm : ∀ n, fld n 21 8 = op → decodeWord n h = some (mk (.ofCode (fld n 14 7)) (.ofNat _ (fld n 0 14)))) :
    Legible (mk d imm) h := by
  have hd := d.code_lt; have hv := imm.isLt
  refine legible_of_arm _ _ _ _ hi hop (by omega) fun n e f => ?_
  have fd : fld n 14 7 = d.code := by rw [f _ _ (by omega)]; unfold fld; omega
  have fi : fld n 0 14 = imm.toNat := by rw [f _ _ (by omega)]; unfold fld; omega
  rw [arm n e, fd, fi]
  simp only [Opnd.ofCode_code, ofNat_toNat_self]

/-- One operand in field A and a function code. -/
theorem legible_a {f : Nat} {mk : Opnd → Instr} {a : Opnd} (hi : (mk a).wordNat = word3 h op 0 a.code f)
    (hop : (op < 256 ∧ plainOp op = true) ∧ f < 128)
    (arm : ∀ n, fld n 21 8 = op → fld n 0 7 = f → fld n 14 7 = 0 → fld n 0 14 = a.code * 0x80 + f → fld n 0 21 = a.code * 0x80 + f →
      decodeWord n h = some (mk (.ofCode (fld n 7 7)))) : Legible (mk a) h := by
  have ha := a.code_lt
  refine legible_of_arm _ _ _ _ hi hop.1 (by omega) fun n e g => ?_
  obtain ⟨fd, fa, fb⟩ := fld_triple (d := 0) (by decide) ha hop.2
  rw [arm n e (by rw [g _ _ (by omega), fb]) (by rw [g _ _ (by omega), fd]) (by rw [g _ _ (by omega)]; unfold fld; omega)
    (by rw [g _ _ (by omega)]; unfold fld; omega), g _ _ (by omega), fa]
  simp only [Opnd.ofCode_code]

/-- Two operands in fields A and B. -/
theorem legible_ab {mk : Opnd → Opnd → Instr} {a b : Opnd} (hi : (mk a b).wordNat = word3 h op 0 a.code b.code)
    (hop : op < 256 ∧ plainOp op = true)
    (arm : ∀ n, fld n 21 8 = op → fld n 14 7 = 0 → decodeWord n h = some (mk (.ofCode (fld n 7 7)) (.ofCode (fld n 0 7)))) :
    Legible (mk a b) h := by
  have ha := a.code_lt; have hb := b.code_lt
  refine legible_of_arm _ _ _ _ hi hop (by omega) fun n e g => ?_
  obtain ⟨fd, fa, fb⟩ := fld_triple (d := 0) (by decide) ha hb
  rw [arm n e (by rw [g _ _ (by omega), fd]), g _ _ (by omega), g _ _ (by omega), fa, fb]
  simp only [Opnd.ofCode_code]

/-- No operand. -/
theorem legible_fixed {i : Instr} {a b : Nat} (hi : i.wordNat = word3 h op 0 a b)
    (hop : (op < 256 ∧ plainOp op = true) ∧ a < 128 ∧ b < 128)
    (arm : ∀ n, fld n 21 8 = op → fld n 0 21 = a * 0x80 + b → fld n 0 7 = b → decodeWord n h = some i) : Legible i h := by
  obtain ⟨hop, ha, hb⟩ := hop
  refine legible_of_arm _ _ _ _ hi hop (by omega) fun n e g => ?_
  exact arm n e (by rw [g _ _ (by omega)]; unfold fld; omega) (by rw [g _ _ (by omega)]; unfold fld; omega)

/-- A condition, a predicate and two sources, of which the second is an operand or an immediate. -/
theorem legible_cmp {β : Type} {mk : BitVec 4 → BitVec 3 → Opnd → β → Instr} {k : BitVec 4} {p : BitVec 3} {a : Opnd} {b : β} {m : Nat}
    (hm : m < 128) {of : Nat → β} (hof : of m = b) (hi : (mk k p a b).wordNat = word3 h op (k.toNat * 8 + p.toNat) a.code m)
    (hop : op < 256 ∧ plainOp op = true)
    (arm : ∀ n, fld n 21 8 = op →
      decodeWord n h = some (mk (.ofNat _ (fld n 17 4)) (.ofNat _ (fld n 14 3)) (.ofCode (fld n 7 7)) (of (fld n 0 7)))) :
    Legible (mk k p a b) h := by
  have ha := a.code_lt; have hk := k.isLt; have hp := p.isLt
  refine legible_of_arm _ _ _ _ hi hop (by omega) fun n e g => ?_
  have fk : fld n 17 4 = k.toNat := by rw [g _ _ (by omega)]; unfold fld; omega
  have fp : fld n 14 3 = p.toNat := by rw [g _ _ (by omega)]; unfold fld; omega
  obtain ⟨-, fa, fb⟩ := fld_triple (d := k.toNat * 8 + p.toNat) (by omega) ha hm
  rw [arm n e, fk, fp, g _ _ (by omega), g _ _ (by omega), fa, fb, hof]
  simp only [Opnd.ofCode_code, ofNat_toNat_self]

/-- Three predicates and a function code above the first. -/
theorem legible_preds {c : Nat} {mk : BitVec 3 → BitVec 3 → BitVec 3 → Instr} {p q r : BitVec 3}
    (hi : (mk p q r).wordNat = word3 h op (p.toNat + c) q.toNat r.toNat) (hop : (op < 256 ∧ plainOp op = true) ∧ c % 8 = 0 ∧ c < 128)
    (arm : ∀ n, fld n 21 8 = op → fld n 17 4 = c / 8 → fld n 10 4 = 0 → fld n 3 4 = 0 → fld n 0 7 = r.toNat →
      decodeWord n h = some (mk (.ofNat _ (fld n 14 3)) (.ofNat _ (fld n 7 3)) (.ofNat _ (fld n 0 3)))) : Legible (mk p q r) h := by
  have hp := p.isLt; have hq := q.isLt; have hr := r.isLt
  refine legible_of_arm _ _ _ _ hi hop.1 (by omega) fun n e g => ?_
  have fp : fld n 14 3 = p.toNat := by rw [g _ _ (by omega)]; unfold fld; omega
  have fq : fld n 7 3 = q.toNat := by rw [g _ _ (by omega)]; unfold fld; omega
  have fr : fld n 0 3 = r.toNat := by rw [g _ _ (by omega)]; unfold fld; omega
  rw [arm n e (by rw [g _ _ (by omega)]; unfold fld; omega) (by rw [g _ _ (by omega)]; unfold fld; omega)
    (by rw [g _ _ (by omega)]; unfold fld; omega) (by rw [g _ _ (by omega)]; unfold fld; omega), fp, fq, fr]
  simp only [ofNat_toNat_self]

/-- A tile in field D. -/
theorem legible_tile {β : Type} {mk : BitVec 7 → β → Instr} {t : BitVec 7} {a : β} {m : Nat} (hm : m < 128) {of : Nat → β} (hof : of m = a)
    (hi : (mk t a).wordNat = word3 h op t.toNat m 0) (hop : op < 256 ∧ plainOp op = true)
    (arm : ∀ n, fld n 21 8 = op → fld n 0 7 = 0 → fld n 0 14 = m * 0x80 →
      decodeWord n h = some (mk (.ofNat _ (fld n 14 7)) (of (fld n 7 7)))) : Legible (mk t a) h := by
  have ht := t.isLt
  refine legible_of_arm _ _ _ _ hi hop (by omega) fun n e g => ?_
  obtain ⟨fd, fa, fb⟩ := fld_triple ht hm (b := 0) (by decide)
  rw [arm n e (by rw [g _ _ (by omega), fb]) (by rw [g _ _ (by omega)]; unfold fld; omega), g _ _ (by omega), g _ _ (by omega), fd, fa, hof]
  simp only [ofNat_toNat_self]

end Sys2Proof
end

section
/-! SUPPORT. Encoding and decoding: the arms of the decoder, the words with an extension word, and the round trip. -/

namespace Sys2Proof

-- Proofs are checked one after the other, which keeps the compile of the whole text within its memory.
set_option Elab.async false

variable {h : Hdr} {op : Nat}

/-! The arms of the decoder (Tables 3.7-3.13) -/

set_option maxRecDepth 4000 in
/-- The decoder's arms, by the opcode in place of the word's field. -/
def decoderArms : { arm : Nat → Nat → Hdr → Option Instr // ∀ n h op, fld n 21 8 = op → decodeWord n h = arm op n h } := by
  refine ⟨?arm, ?eq⟩
  case' eq =>
    intro n h op e
    unfold decodeWord
    rw [e]

theorem decodeWord_arm {n : Nat} (e : fld n 21 8 = op) : decodeWord n h = decoderArms.1 op n h := decoderArms.2 n h op e

theorem selOp_plain : ∀ k : BitVec 3, 0x30 + k.toNat < 256 ∧ plainOp (0x30 + k.toNat) = true := by decide

theorem leaOp_plain : ∀ k : BitVec 2, 0x14 + k.toNat < 256 ∧ plainOp (0x14 + k.toNat) = true := by decide

theorem twoBit_cases : ∀ k : BitVec 2, k = 0 ∨ k = 1 ∨ k = 2 ∨ k = 3 := by decide

theorem threeBit_cases : ∀ k : BitVec 3, k = 0 ∨ k = 1 ∨ k = 2 ∨ k = 3 ∨ k = 4 ∨ k = 5 ∨ k = 6 ∨ k = 7 := by decide

/-- SEL has a predicate in its opcode. -/
theorem legible_sel (k : BitVec 3) (d a b : Opnd) : Legible (.sel h k d a b) h := by
  refine legible_rrr rfl (selOp_plain k) fun n e => ?_
  have hk : fld n 21 3 = k.toNat := by rw [fld_narrow (w := 8) (by decide), e]; omega
  rw [decodeWord_arm e]
  rcases threeBit_cases k with rfl | rfl | rfl | rfl | rfl | rfl | rfl | rfl <;>
    exact congrArg (fun v => some (Instr.sel h (.ofNat 3 v) _ _ _)) hk

/-- LEA has its shift in its opcode. -/
theorem legible_lea (k : BitVec 2) (d a b : Opnd) : Legible (.lea h k d a b) h := by
  refine legible_rrr rfl (leaOp_plain k) fun n e => ?_
  have hk : fld n 21 2 = k.toNat := by rw [fld_narrow (w := 8) (by decide), e]; omega
  rw [decodeWord_arm e]
  rcases twoBit_cases k with rfl | rfl | rfl | rfl <;> exact congrArg (fun v => some (Instr.lea h (.ofNat 2 v) _ _ _)) hk

/-- The conversions with a rounding mode of their own (Table 5.7). -/
theorem legible_fixedRounding {f : Nat} {mk : Opnd → Opnd → BitVec 2 → Instr} {d a : Opnd} {m : BitVec 2}
    (hi : (mk d a m).wordNat = word3 h 0x55 d.code a.code (m.toNat + f)) (hf : f < 124)
    (arm : ∀ n, fld n 21 8 = 0x55 → fld n 0 7 = m.toNat + f → fld n 2 5 = (m.toNat + f) / 4 → fld n 0 2 = (m.toNat + f) % 4 →
      decodeWord n h = some (mk (.ofCode (fld n 14 7)) (.ofCode (fld n 7 7)) m)) : Legible (mk d a m) h :=
  legible_rr (mk := fun d a => mk d a m) hi ⟨by decide, by have := m.isLt; omega⟩ arm

theorem legible_prf (a : Opnd) (imm : BitVec 7) : Legible (.prf h a imm) h := by
  have ha := a.code_lt; have hv := imm.isLt
  refine legible_of_arm _ _ _ _ rfl (by decide) (by omega) fun n e g => ?_
  obtain ⟨fd, fa, fb⟩ := fld_triple (d := 0) (by decide) ha hv
  rw [decodeWord_arm e]
  show ite _ _ _ = _
  rw [g 14 7 (by decide), g 7 7 (by decide), g 0 7 (by decide), fd, fa, fb, Opnd.ofCode_code, ofNat_toNat_self]
  rfl

theorem legible_fence (x : Bool) (e : BitVec 3) (k : BitVec 2) : Legible (.fence h x e k) h := by
  have hx := bit_lt_two x; have he := e.isLt; have hk := k.isLt
  refine legible_of_arm _ _ _ _ rfl (by decide) (by omega) fun n o g => ?_
  have f0 : fld n 6 15 = 0 := by rw [g _ _ (by omega)]; unfold fld; omega
  have f1 : fld n 5 1 = bit x := by rw [g _ _ (by omega)]; unfold fld; omega
  have f2 : fld n 2 3 = e.toNat := by rw [g _ _ (by omega)]; unfold fld; omega
  have f3 : fld n 0 2 = k.toNat := by rw [g _ _ (by omega)]; unfold fld; omega
  rw [decodeWord_arm o]
  show ite _ _ _ = _
  rw [f0, f1, f2, f3, bit_eq_one, ofNat_toNat_self, ofNat_toNat_self]
  rfl


theorem legible_bartst (p : BitVec 3) (a b : Opnd) : Legible (.bartst h p a b) h := by
  have hp := p.isLt; have ha := a.code_lt; have hb := b.code_lt
  refine legible_of_arm _ _ _ _ rfl (by decide) (by omega) fun n o g => ?_
  obtain ⟨-, fa, fb⟩ := fld_triple (d := p.toNat) (by omega) ha hb
  have f0 : fld n 17 4 = 0 := by rw [g _ _ (by omega)]; unfold fld; omega
  have f1 : fld n 14 3 = p.toNat := by rw [g _ _ (by omega)]; unfold fld; omega
  rw [decodeWord_arm o]
  show ite _ _ _ = _
  rw [f0, f1, g 7 7 (by decide), g 0 7 (by decide), fa, fb, Opnd.ofCode_code, Opnd.ofCode_code, ofNat_toNat_self]
  rfl

theorem legible_br (x : Bool) (p : BitVec 3) (k : BitVec 17) : Legible (.br h x p k) h := by
  have hx := bit_lt_two x; have hp := p.isLt; have hk := k.isLt
  refine legible_of_arm _ _ _ _ rfl (by decide) (by omega) fun n o g => ?_
  have f1 : fld n 20 1 = bit x := by rw [g _ _ (by omega)]; unfold fld; omega
  have f2 : fld n 17 3 = p.toNat := by rw [g _ _ (by omega)]; unfold fld; omega
  have f3 : fld n 0 17 = k.toNat := by rw [g _ _ (by omega)]; unfold fld; omega
  rw [decodeWord_arm o]
  show some (Instr.br h (fld n 20 1 == 1) (.ofNat 3 (fld n 17 3)) (.ofNat 17 (fld n 0 17))) = _
  rw [f1, f2, f3, bit_eq_one, ofNat_toNat_self, ofNat_toNat_self]

theorem legible_call (k : BitVec 21) : Legible (.call h k) h := by
  have hk := k.isLt
  refine legible_of_arm _ _ _ _ rfl (by decide) (by omega) fun n o g => ?_
  have f1 : fld n 0 21 = k.toNat := by rw [g _ _ (by omega)]; unfold fld; omega
  rw [decodeWord_arm o]
  show some (Instr.call h (.ofNat 21 (fld n 0 21))) = _
  rw [f1, ofNat_toNat_self]

theorem legible_id (d : Opnd) (f : BitVec 7) : Legible (.id h d f) h := by
  have hd := d.code_lt; have hf := f.isLt
  refine legible_of_arm _ _ _ _ rfl (by decide) (by omega) fun n o g => ?_
  obtain ⟨fd, fa, fb⟩ := fld_triple (a := 0) hd (by decide) hf
  rw [decodeWord_arm o]
  show ite _ _ _ = _
  rw [g 14 7 (by decide), g 7 7 (by decide), g 0 7 (by decide), fd, fa, fb, Opnd.ofCode_code, ofNat_toNat_self]
  rfl

theorem legible_tsrd (d : Opnd) (f : Bool) : Legible (.tsrd h d f) h := by
  have hd := d.code_lt; have hf := bit_lt_two f
  refine legible_of_arm _ _ _ _ rfl (by decide) (by omega) fun n o g => ?_
  have f0 : fld n 1 13 = 0 := by rw [g _ _ (by omega)]; unfold fld; omega
  have f1 : fld n 14 7 = d.code := by rw [g _ _ (by omega)]; unfold fld; omega
  have f2 : fld n 0 1 = bit f := by rw [g _ _ (by omega)]; unfold fld; omega
  rw [decodeWord_arm o]
  show ite _ _ _ = _
  rw [f0, f1, f2, Opnd.ofCode_code, bit_eq_one]
  rfl

/-- A convergence register or a wait count in field D. -/
theorem legible_small {β : Type} {mk : BitVec 4 → β → Instr} {w : BitVec 4} {a : β} {m : Nat} (hm : m < 128) {of : Nat → β} (hof : of m = a)
    (hi : (mk w a).wordNat = word3 h op w.toNat m 0) (hop : op < 256 ∧ plainOp op = true)
    (arm : ∀ n, fld n 21 8 = op → fld n 0 7 = 0 → fld n 0 14 = m * 0x80 → fld n 18 3 = 0 →
      decodeWord n h = some (mk (.ofNat _ (fld n 14 4)) (of (fld n 7 7)))) : Legible (mk w a) h := by
  have hw := w.isLt
  refine legible_of_arm _ _ _ _ hi hop (by omega) fun n e g => ?_
  obtain ⟨-, fa, fb⟩ := fld_triple (d := w.toNat) (by omega) hm (b := 0) (by decide)
  have f4 : fld n 14 4 = w.toNat := by rw [g _ _ (by omega)]; unfold fld; omega
  rw [arm n e (by rw [g _ _ (by omega), fb]) (by rw [g _ _ (by omega)]; unfold fld; omega)
    (by rw [g _ _ (by omega)]; unfold fld; omega), f4, g _ _ (by omega), fa, hof]
  simp only [ofNat_toNat_self]

/-- A copy word of one record, with its direction in bit 0. -/
theorem legible_cpy {f : Nat} {mk : Opnd → Bool → BitVec 4 → Instr} {a : Opnd} {e : Bool} {c : BitVec 4}
    (hi : (mk a e c).wordNat = word3 h 0xE7 0 a.code (bit e * 32 + c.toNat * 2 + f)) (hf : f < 2)
    (arm : ∀ n, fld n 21 8 = 0xE7 → fld n 0 1 = f → fld n 6 1 = 0 → fld n 14 7 = 0 →
      decodeWord n h = some (mk (.ofCode (fld n 7 7)) (fld n 5 1 == 1) (.ofNat _ (fld n 1 4)))) : Legible (mk a e c) h := by
  have ha := a.code_lt; have he := bit_lt_two e; have hc := c.isLt
  refine legible_of_arm _ _ _ _ hi (by decide) (by omega) fun n o g => ?_
  have f1 : fld n 5 1 = bit e := by rw [g _ _ (by omega)]; unfold fld; omega
  have f2 : fld n 1 4 = c.toNat := by rw [g _ _ (by omega)]; unfold fld; omega
  have f3 : fld n 7 7 = a.code := by rw [g _ _ (by omega)]; unfold fld; omega
  rw [arm n o (by rw [g _ _ (by omega)]; unfold fld; omega) (by rw [g _ _ (by omega)]; unfold fld; omega)
    (by rw [g _ _ (by omega)]; unfold fld; omega), f1, f2, f3]
  simp only [Opnd.ofCode_code, ofNat_toNat_self, bit_eq_one]

/-- No operand but an immediate of 14 bits. -/
theorem legible_code14 {mk : BitVec 14 → Instr} {imm : BitVec 14} (hi : (mk imm).wordNat = word3 h op 0 0 imm.toNat)
    (hop : op < 256 ∧ plainOp op = true)
    (arm : ∀ n, fld n 21 8 = op → fld n 14 7 = 0 → decodeWord n h = some (mk (.ofNat _ (fld n 0 14)))) : Legible (mk imm) h := by
  have hv := imm.isLt
  refine legible_of_arm _ _ _ _ hi hop (by omega) fun n e g => ?_
  have fi : fld n 0 14 = imm.toNat := by rw [g _ _ (by omega)]; unfold fld; omega
  rw [arm n e (by rw [g _ _ (by omega)]; unfold fld; omega), fi, ofNat_toNat_self]

/-- One operand in field D. -/
theorem legible_d {mk : Opnd → Instr} {d : Opnd} (hi : (mk d).wordNat = word3 h op d.code 0 0) (hop : op < 256 ∧ plainOp op = true)
    (arm : ∀ n, fld n 21 8 = op → fld n 0 14 = 0 → decodeWord n h = some (mk (.ofCode (fld n 14 7)))) : Legible (mk d) h := by
  have hd := d.code_lt
  refine legible_of_arm _ _ _ _ hi hop (by omega) fun n e g => ?_
  have fd : fld n 14 7 = d.code := by rw [g _ _ (by omega)]; unfold fld; omega
  rw [arm n e (by rw [g _ _ (by omega)]; unfold fld; omega), fd, Opnd.ofCode_code]

/-- PPUT shares its opcode with PGET, which has an empty field A and function code 0. -/
theorem legible_pput (a : Opnd) : Legible (.pput h a) h := by
  refine legible_a (op := 0x2E) (f := 1) (mk := .pput h) rfl (by decide) fun n e f fd fl _ => ?_
  have hne : (fld n 0 14 == 0) = false := by rw [fl]; simp
  rw [decodeWord_arm e]
  show ite _ _ _ = _
  rw [f, fd, hne]
  rfl

/-- JMP shares its opcode with RET, which is a JMP of o7 (R153). -/
theorem legible_jmp {a : Opnd} (ha : (a != .o 7) = true) : Legible (.jmp h a) h := by
  refine legible_a (op := 0xC2) (f := 0) (mk := .jmp h) rfl (by decide) fun n e f fd _ fl => ?_
  have hc : a.code ≠ 0x77 := fun hc => by
    rw [← Opnd.ofCode_code a, hc] at ha
    exact absurd ha (by decide)
  have hne : (fld n 0 21 == 0x3B80) = false := by rw [fl, beq_eq_false_iff_ne]; omega
  rw [decodeWord_arm e]
  show ite _ _ _ = _
  rw [f, fd, hne]
  rfl

/-- Every word without an extension word is laid out by its format, and decodes to itself; only a JMP of o7 is RET's word. -/
theorem legible (i : Instr) (hx : i.extNat = none) (hr : i.retOk = true) (hh : i.hdr? = some h) : Legible i h := by
  cases i
  case add | sub | mul | mulhi | mulhu | mad | and | or | xor | andn | shl | shr | sra | min | max | minu | maxu | adds | subs | add64 | sub64
      | mulw | mulws | bfe | bfi | prmb | fadd | fsub | fmul | ffma | ffnma | fmin | fmax | hadd2 | hmul2 | hfma2 | badd2 | bmul2 | bfma2
      | dadd | dmul | dfma | pkF16 | pkB16 | pkn | upkn | dot4E43 | dot4E52 | dot4S8 | dot4N8 | dot8E21 | dot8S4 | dot2B16 | dot2F16
      | fscl | ldxW | stxW | atomAdd | atomMin | atomMax | atomMinu | atomMaxu | atomAnd | atomOr | atomXor | atomXchg | atomCas | atomFadd
      | atomsAdd | atomsMin | atomsMax | atomsCas | bararvx | shfl | vote | rdx =>
    cases hh
    exact legible_rrr rfl (by decide) fun n e => decodeWord_arm e
  case lea => cases hh; exact legible_lea ..
  case sel => cases hh; exact legible_sel ..
  case addi | andi | ori | xori | muli | ldB | ldBs | ldH | ldHs | ldW | ldD | ldQ | ldcW | ldcQ | stB | stH | stW | stD | stQ | ldsW | ldsD
      | ldsQ | ldsH | ldsB | stsW | stsD | stsQ | stsH | stsB =>
    cases hh
    exact legible_ri (by decide) rfl (by decide) fun n e _ => decodeWord_arm e
  case shli | shri | srai | ldAcqW | ldAcqD | stRelW | stRelD =>
    cases hh
    exact legible_ri (by decide) rfl (by decide) fun n e e₁ => by
      rw [decodeWord_arm e]; show ite _ _ _ = _; dsimp only [Nat.reduceSub] at e₁; rw [e₁]; rfl
  case mov | clz | popc | brev | abs | neg | not | sext8 | sext16 | zext8 | zext16 | ctz | frcp | frsq | fsqrt | fex2 | flg2 | fsinp | fcosp
      | ftanh | fsigm | fabs | fneg | ffloor | fceil | ftrunc | frint | fclass | bararv | wptr | ecreate | ereport
      | kwrap | kunwrap | krevoke | kload | potset | potrd | pmap | paccept | pdiscard | pevict | pload | punmap =>
    cases hh
    exact legible_rr rfl (by decide) fun n e e₁ _ _ => by rw [decodeWord_arm e]; show ite _ _ _ = _; rw [e₁]; rfl
  case fcvtF16F32 | fcvtBf16F32 | fcvtF32F16 | fcvtF32Bf16 | fcvtF64F32 | fcvtF32F64 | fcvtF32S32 | fcvtF32N32 | fcvtF64S32 | fcvtF64N32
      | fcvtS32F32 | fcvtN32F32 | fcvtS32F64 | fcvtN32F64 =>
    cases hh
    exact legible_rr rfl (by decide) fun n e e₁ e₂ _ => by rw [decodeWord_arm e]; show ite _ _ _ = _; rw [e₁, e₂]; rfl
  case fcvtS32F32Fixed d a m | fcvtN32F32Fixed d a m | fcvtS32F64Fixed d a m | fcvtN32F64Fixed d a m =>
    cases hh
    refine legible_fixedRounding rfl (by decide) fun n e e₁ e₂ e₃ => ?_
    rw [decodeWord_arm e]
    show ite _ _ _ = _
    rw [e₁, e₂, e₃]
    rcases twoBit_cases m with rfl | rfl | rfl | rfl <;> rfl
  case movi | sysrd | syswr =>
    cases hh
    exact legible_i14 rfl (by decide) fun n e => decodeWord_arm e
  case trap | ecall =>
    cases hh
    exact legible_code14 (by unfold Instr.wordNat; rfl) (by decide) fun n e e₁ => by rw [decodeWord_arm e]; show ite _ _ _ = _; rw [e₁]; rfl
  case cwb | cinv | barinv | prio | callr | edestroy =>
    cases hh
    exact legible_a (by unfold Instr.wordNat; rfl) (by decide) fun n e e₁ e₂ _ _ => by
      rw [decodeWord_arm e]; show ite _ _ _ = _; rw [e₁, e₂]; rfl
  case jmp => cases hh; exact legible_jmp hr
  case pput => cases hh; exact legible_pput ..
  case prf => cases hh; exact legible_prf ..
  case barinit | barxb | barwait | fetchw | eenter | tlbi =>
    cases hh
    exact legible_ab (by unfold Instr.wordNat; rfl) (by decide) fun n e e₁ => by rw [decodeWord_arm e]; show ite _ _ _ = _; rw [e₁]; rfl
  case cwbiAll =>
    cases hh
    exact legible_fixed (by unfold Instr.wordNat; rfl) (by decide) fun n e e₁ e₂ => by
      rw [decodeWord_arm e]; show ite _ _ _ = _; rw [e₁, e₂]; rfl
  case nop | yield | exit | bkpt | ret | eret | eexit =>
    cases hh
    exact legible_fixed (by unfold Instr.wordNat; rfl) (by decide) fun n e e₁ _ => by
      rw [decodeWord_arm e]; show ite _ _ _ = _; rw [e₁]; rfl
  case pget | refill =>
    cases hh
    exact legible_d (by unfold Instr.wordNat; rfl) (by decide) fun n e e₁ => by rw [decodeWord_arm e]; show ite _ _ _ = _; rw [e₁]; rfl
  case cmp | fcmp | dcmp =>
    cases hh
    exact legible_cmp (Opnd.code_lt _) (Opnd.ofCode_code _) rfl (by decide) fun n e => decodeWord_arm e
  case cmpi =>
    cases hh
    exact legible_cmp (BitVec.isLt _) (ofNat_toNat_self _) rfl (by decide) fun n e => decodeWord_arm e
  case pand =>
    cases hh
    exact legible_preds (c := 0) rfl (by decide) fun n e e₁ e₂ e₃ _ => by rw [decodeWord_arm e]; show ite _ _ _ = _; rw [e₁, e₂, e₃]; rfl
  case por | pxor | pandn =>
    cases hh
    exact legible_preds rfl (by decide) fun n e e₁ e₂ e₃ _ => by rw [decodeWord_arm e]; show ite _ _ _ = _; rw [e₁, e₂, e₃]; rfl
  case pnot p q =>
    cases hh
    exact legible_preds (mk := fun p q _ => .pnot h p q) (r := 0) (c := 0x20) rfl (by decide) fun n e e₁ e₂ e₃ e₄ => by
      rw [decodeWord_arm e]; show ite _ _ _ = _; rw [e₁, e₂, e₃, e₄]; rfl
  case fence => cases hh; exact legible_fence ..
  case bartst => cases hh; exact legible_bartst ..
  case br => cases hh; exact legible_br ..
  case call => cases hh; exact legible_call ..
  case id => cases hh; exact legible_id ..
  case tsrd => cases hh; exact legible_tsrd ..
  case cpyGs =>
    cases hh
    exact legible_cpy (f := 0) rfl (by decide) fun n e e₁ e₂ e₃ => by
      rw [decodeWord_arm e]; show ite _ _ _ = _; rw [e₁, e₂, e₃]; rfl
  case cpySg =>
    cases hh
    exact legible_cpy rfl (by decide) fun n e e₁ e₂ e₃ => by rw [decodeWord_arm e]; show ite _ _ _ = _; rw [e₁, e₂, e₃]; rfl
  case cdecl =>
    cases hh
    exact legible_small (Opnd.code_lt _) (Opnd.ofCode_code _) rfl (by decide) fun n e e₁ _ e₂ => by
      rw [decodeWord_arm e]; show ite _ _ _ = _; rw [e₁, e₂]; rfl
  case crst w =>
    cases hh
    exact legible_small (mk := fun w _ => .crst h w) (a := ()) (of := fun _ => ()) (m := 0) (by decide) rfl rfl (by decide)
      fun n e _ e₁ e₂ => by
        rw [decodeWord_arm e]; show ite _ _ _ = _; rw [e₁, e₂]; rfl
  case mfence w =>
    cases hh
    exact legible_small (mk := fun w _ => .mfence h w) (a := ()) (of := fun _ => ()) (m := 0) (by decide) rfl rfl (by decide)
      fun n e _ e₁ e₂ => by
        rw [decodeWord_arm e]; show ite _ _ _ = _; rw [e₁, e₂]; rfl
  case mload =>
    cases hh
    exact legible_tile (Opnd.code_lt _) (Opnd.ofCode_code _) rfl (by decide) fun n e e₁ _ => by
      rw [decodeWord_arm e]; show ite _ _ _ = _; rw [e₁]; rfl
  case mzero t =>
    cases hh
    exact legible_tile (mk := fun t _ => .mzero h t) (a := ()) (of := fun _ => ()) (m := 0) (by decide) rfl rfl (by decide) fun n e _ e₁ => by
      rw [decodeWord_arm e]; show ite _ _ _ = _; rw [e₁]; rfl
  case mwait t =>
    cases hh
    exact legible_tile (mk := fun t _ => .mwait h t) (a := ()) (of := fun _ => ()) (m := 0) (by decide) rfl rfl (by decide) fun n e _ e₁ => by
      rw [decodeWord_arm e]; show ite _ _ _ = _; rw [e₁]; rfl
  case mma | mmaj | mdrain | cpyl | cpyg => cases hx
  all_goals cases hh

/-! The words with an extension word (Tables 8.1, 8.3, 8.8, 8.9) -/

theorem Laid.word_toNat {i : Instr} {low : Nat} (l : Laid i.wordNat h op low) : i.word.toNat = i.wordNat := by
  rw [Instr.word, BitVec.toNat_ofNat, Nat.mod_eq_of_lt l.lt]

/-- A word of which the encoding keeps the literal: the header read from the word and its literal is the term's own. -/
theorem decode_of_legible {i : Instr} (hl : Legible i h) (hx : i.extNat = none) (hh : i.hdr? = some h) (hlit : i.litOk = true) :
    decode 0 (encode i) = .ok (i, i.length) := by
  obtain ⟨⟨op, low, l, hop⟩, hr⟩ := hl
  have hf : (formatOf (fld i.wordNat 21 8) == none) = false := by
    rw [l.opcode]
    cases hf : formatOf op with
    | none => rw [plainOp, hf] at hop; cases hop
    | some f => rfl
  have hext : takesExt i.wordNat = false := by
    rw [takesExt, l.opcode]
    cases hf : formatOf op with
    | none => rfl
    | some f => cases f with
      | ext => rw [plainOp, hf] at hop; cases hop
      | _ => rfl
  simp only [Instr.litOk, hh, hext, Bool.not_false, Bool.and_true, Bool.or_eq_true, beq_iff_eq] at hlit
  simp only [encode, hx, hh, Instr.length, hext, Bool.false_or]
  split
  · next ht => simp only [decode, l.word_toNat, hf, hext, ht, l.header rfl, hr, Bool.false_eq_true, if_false, if_true]; rfl
  · next ht =>
    have h0 : 0 = h.lit := (hlit.resolve_right ht).symm
    simp only [decode, l.word_toNat, hf, hext, Bool.eq_false_iff.mpr ht, l.header h0, hr, Bool.false_eq_true, if_false]

/-- A word with an extension word carries no literal. -/
theorem decode_of_ext {i : Instr} {low x : Nat} (l : Laid i.wordNat h op low) (hop : formatOf op = some .ext) (hx : i.extNat = some x)
    (hlt : x < 2 ^ 32) (hh : i.hdr? = some h) (hlit : i.litOk = true) (hr : decodeExt i.wordNat x h = some i) :
    decode 0 (encode i) = .ok (i, i.length) := by
  have hf : (formatOf (fld i.wordNat 21 8) == none) = false := by rw [l.opcode, hop]; rfl
  have hext : takesExt i.wordNat = true := by rw [takesExt, l.opcode, hop]; rfl
  simp only [Instr.litOk, hh, hext, Bool.not_true, Bool.and_false, Bool.or_false, beq_iff_eq] at hlit
  have hn : (BitVec.ofNat 32 x).toNat = x := by rw [BitVec.toNat_ofNat, Nat.mod_eq_of_lt hlt]
  simp only [encode, hx, hh, Instr.length, hext, Bool.true_or, decode, l.word_toNat, hf, hn, l.header hlit.symm, hr, Bool.false_eq_true, if_false,
    if_true]
  rfl

theorem mmaExt_fields (x : MmaCtl) : fld (mmaExt x) 28 4 = 0 ∧ fld (mmaExt x) 27 1 = bit x.na ∧ fld (mmaExt x) 26 1 = bit x.z
    ∧ fld (mmaExt x) 19 7 = x.sb.code ∧ fld (mmaExt x) 12 7 = x.sa.code ∧ fld (mmaExt x) 8 4 = x.cv.toNat ∧ fld (mmaExt x) 4 4 = x.fb.toNat
    ∧ fld (mmaExt x) 0 4 = x.fa.toNat ∧ mmaExt x < 2 ^ 32 := by
  have h1 := bit_lt_two x.na; have h2 := bit_lt_two x.z; have h3 := x.sb.code_lt; have h4 := x.sa.code_lt
  have h5 := x.cv.isLt; have h6 := x.fb.isLt; have h7 := x.fa.isLt
  unfold fld mmaExt
  omega

theorem drainExt_fields (x : DrainCtl) : fld (drainExt x) 25 7 = 0 ∧ fld (drainExt x) 24 1 = bit x.col ∧ fld (drainExt x) 15 9 = x.div.toNat
    ∧ fld (drainExt x) 7 8 = x.bar.toNat ∧ fld (drainExt x) 6 1 = bit x.rel ∧ fld (drainExt x) 5 1 = bit x.add
    ∧ fld (drainExt x) 4 1 = bit x.glb ∧ fld (drainExt x) 0 4 = x.fmt.toNat ∧ drainExt x < 2 ^ 32 := by
  have h1 := bit_lt_two x.col; have h2 := x.div.isLt; have h3 := x.bar.isLt; have h4 := bit_lt_two x.rel
  have h5 := bit_lt_two x.add; have h6 := bit_lt_two x.glb; have h7 := x.fmt.isLt
  unfold fld drainExt
  omega

theorem cpylExt_fields (x : CpylCtl) : fld (cpylExt x) 15 17 = 0 ∧ fld (cpylExt x) 7 8 = x.bar.toNat ∧ fld (cpylExt x) 6 1 = bit x.rel
    ∧ fld (cpylExt x) 2 4 = x.ch.toNat ∧ fld (cpylExt x) 0 2 = x.dir.toNat ∧ cpylExt x < 2 ^ 32 := by
  have h1 := x.bar.isLt; have h2 := bit_lt_two x.rel; have h3 := x.ch.isLt; have h4 := x.dir.isLt
  unfold fld cpylExt
  omega

theorem cpygExt_fields (x : CpygCtl) : fld (cpygExt x) 31 1 = 0 ∧ fld (cpygExt x) 23 8 = x.rowb.toNat ∧ fld (cpygExt x) 13 10 = x.cnt.toNat
    ∧ fld (cpygExt x) 5 8 = x.bar.toNat ∧ fld (cpygExt x) 4 1 = bit x.rel ∧ fld (cpygExt x) 0 4 = x.ch.toNat ∧ cpygExt x < 2 ^ 32 := by
  have h1 := x.rowb.isLt; have h2 := x.cnt.isLt; have h3 := x.bar.isLt; have h4 := bit_lt_two x.rel; have h5 := x.ch.isLt
  unfold fld cpygExt
  omega

/-- The fields of the first word of a form with an extension word, which is a word of three fields. -/
theorem ext_fields {d : Nat} (hop : op < 256) (hd : d < 128) (a b : Opnd) :
    ∃ low, Laid (word3 h op d a.code b.code) h op low ∧ fld (word3 h op d a.code b.code) 14 7 = d
      ∧ Opnd.ofCode (fld (word3 h op d a.code b.code) 7 7) = a ∧ Opnd.ofCode (fld (word3 h op d a.code b.code) 0 7) = b := by
  have ha := a.code_lt; have hb := b.code_lt
  have l := word3_laid (h := h) (d := d) (a := a.code) (b := b.code) hop (by omega)
  obtain ⟨fd, fa, fb⟩ := fld_triple hd ha hb
  refine ⟨_, l, by rw [l.field (by decide), fd], ?_, ?_⟩
  · rw [l.field (by decide), fa, Opnd.ofCode_code]
  · rw [l.field (by decide), fb, Opnd.ofCode_code]

theorem decode_mma (t : BitVec 7) (a b : Opnd) (x : MmaCtl) (hlit : (Instr.mma h t a b x).litOk = true) :
    decode 0 (encode (.mma h t a b x)) = .ok (.mma h t a b x, (Instr.mma h t a b x).length) := by
  obtain ⟨low, l, ft, fa, fb⟩ := ext_fields (h := h) (op := 0xE0) (by decide) t.isLt a b
  obtain ⟨f0, f1, f2, f3, f4, f5, f6, f7, hx⟩ := mmaExt_fields x
  refine decode_of_ext (i := .mma h t a b x) l rfl rfl hx rfl hlit ?_
  change decodeExt (word3 h 0xE0 t.toNat a.code b.code) (mmaExt x) h = _
  simp only [decodeExt, l.opcode, ft, fa, fb, f0, f1, f2, f3, f4, f5, f6, f7, bit_eq_one, Opnd.ofCode_code, ofNat_toNat_self]
  rfl

theorem decode_mmaj (t : BitVec 7) (a b : Opnd) (x : MmaCtl) (hlit : (Instr.mmaj h t a b x).litOk = true) :
    decode 0 (encode (.mmaj h t a b x)) = .ok (.mmaj h t a b x, (Instr.mmaj h t a b x).length) := by
  obtain ⟨low, l, ft, fa, fb⟩ := ext_fields (h := h) (op := 0xE1) (by decide) t.isLt a b
  obtain ⟨f0, f1, f2, f3, f4, f5, f6, f7, hx⟩ := mmaExt_fields x
  refine decode_of_ext (i := .mmaj h t a b x) l rfl rfl hx rfl hlit ?_
  change decodeExt (word3 h 0xE1 t.toNat a.code b.code) (mmaExt x) h = _
  simp only [decodeExt, l.opcode, ft, fa, fb, f0, f1, f2, f3, f4, f5, f6, f7, bit_eq_one, Opnd.ofCode_code, ofNat_toNat_self]
  rfl

theorem decode_mdrain (t : BitVec 7) (a b : Opnd) (x : DrainCtl) (hlit : (Instr.mdrain h t a b x).litOk = true) :
    decode 0 (encode (.mdrain h t a b x)) = .ok (.mdrain h t a b x, (Instr.mdrain h t a b x).length) := by
  obtain ⟨low, l, ft, fa, fb⟩ := ext_fields (h := h) (op := 0xE4) (by decide) t.isLt a b
  obtain ⟨f0, f1, f2, f3, f4, f5, f6, f7, hx⟩ := drainExt_fields x
  refine decode_of_ext (i := .mdrain h t a b x) l rfl rfl hx rfl hlit ?_
  change decodeExt (word3 h 0xE4 t.toNat a.code b.code) (drainExt x) h = _
  simp only [decodeExt, l.opcode, ft, fa, fb, f0, f1, f2, f3, f4, f5, f6, f7, bit_eq_one, ofNat_toNat_self]
  rfl

theorem decode_cpyl (d a b : Opnd) (x : CpylCtl) (hlit : (Instr.cpyl h d a b x).litOk = true) :
    decode 0 (encode (.cpyl h d a b x)) = .ok (.cpyl h d a b x, (Instr.cpyl h d a b x).length) := by
  obtain ⟨low, l, fd, fa, fb⟩ := ext_fields (h := h) (op := 0xE8) (by decide) d.code_lt a b
  obtain ⟨f0, f1, f2, f3, f4, hx⟩ := cpylExt_fields x
  refine decode_of_ext (i := .cpyl h d a b x) l rfl rfl hx rfl hlit ?_
  change decodeExt (word3 h 0xE8 d.code a.code b.code) (cpylExt x) h = _
  simp only [decodeExt, l.opcode, fd, fa, fb, f0, f1, f2, f3, f4, bit_eq_one, Opnd.ofCode_code, ofNat_toNat_self]
  rfl

theorem decode_cpyg (d a b : Opnd) (x : CpygCtl) (hlit : (Instr.cpyg h d a b x).litOk = true) :
    decode 0 (encode (.cpyg h d a b x)) = .ok (.cpyg h d a b x, (Instr.cpyg h d a b x).length) := by
  obtain ⟨low, l, fd, fa, fb⟩ := ext_fields (h := h) (op := 0xE9) (by decide) d.code_lt a b
  obtain ⟨f0, f1, f2, f3, f4, f5, hx⟩ := cpygExt_fields x
  refine decode_of_ext (i := .cpyg h d a b x) l rfl rfl hx rfl hlit ?_
  change decodeExt (word3 h 0xE9 d.code a.code b.code) (cpygExt x) h = _
  simp only [decodeExt, l.opcode, fd, fa, fb, f0, f1, f2, f3, f4, f5, bit_eq_one, Opnd.ofCode_code, ofNat_toNat_self]
  rfl

/-- Settles O59, by the format of the word: each format's fields stand in the word as they stood in the term, so that the decoder's arm for
the opcode reads the term back; the forms with an extension word read their second word's fields besides. -/
theorem roundTrip : Obligations.RoundTrip := by
  rintro i ⟨hword, hlit, hret⟩
  cases hh : i.hdr? with
  | none => rw [Instr.isEvent, hh] at hword; cases hword
  | some h =>
    cases hx : i.extNat with
    | none => exact decode_of_legible (legible i hx hret hh) hx hh hlit
    | some x =>
      cases i
      case mma => exact decode_mma _ _ _ _ hlit
      case mmaj => exact decode_mmaj _ _ _ _ hlit
      case mdrain => exact decode_mdrain _ _ _ _ hlit
      case cpyl => exact decode_cpyl _ _ _ _ hlit
      case cpyg => exact decode_cpyg _ _ _ _ hlit
      all_goals cases hx

/-- A single word that encodes an instruction decodes to it. -/
theorem decode_of_encode {i : Instr} {w : Word} (hi : i.Encodable) (he : encode i = [w]) (hl : i.length = 1) : decode 0 [w] = .ok (i, 1) := by
  rw [← he, roundTrip i hi, hl]

/-- Settles O58: each word is what the encoding gives its instruction, so the round trip reads it back. -/
theorem decodeWords : Obligations.DecodeWords := by
  unfold Obligations.DecodeWords
  repeat' apply And.intro
  all_goals exact decode_of_encode ⟨rfl, rfl, rfl⟩ (by decide) (by decide)

end Sys2Proof

namespace Sys2Proof.Machine

/-- Settles O56: memory lists nothing after reset, and no chain is open (R457). -/
theorem resetInv : Obligations.ResetInv := ⟨rfl, rfl⟩

end Sys2Proof.Machine
end

section
/-! SUPPORT. What the shape of an instruction keeps: the canonical form of memory, and that no chain is open. -/

namespace Sys2Proof.Machine

-- Declarations of this section are elaborated in turn, which bounds the memory the text takes.
set_option Elab.async false

/-- What a step keeps: the canonical form of memory, and that no chain is open. -/
structure NextKeeps (z : State) (r : Host.Outcome State Fault Refusal) : Prop where
  keeps : ∀ t, r = .next t → Keeps z t

theorem NextKeeps.next {z s : State} (h : Keeps z s) : NextKeeps z (.next s) :=
  ⟨fun t e => by cases e; exact h⟩

/-- Outside a chain, a word that has taken effect opens none. -/
theorem retire_keeps_chain {z s : State} (h : Keeps z s) (i : Instr) (e : Nat) (w : Option Word) : Keeps z (retire i e w s) := by
  refine ⟨retire_keeps h i e w, fun hc => ?_⟩
  have g := State.freshen_keeps (spoilMx_keeps (spoilDouble_keeps (account_keeps h i e) i) i)
  unfold retire
  cases w with
  | none => exact g.chain hc
  | some w => simp only [g.chain hc, Option.map_none]

theorem issueAlone_keeps_chain {z s : State} (h : Keeps z s) (i : Instr) {k : State → Res} (hk : ∀ x, Keeps z x → Res.Keeps z (k x)) :
    Keeps z (issueAlone i s k) := by
  have hb := begin__keeps h i
  unfold issueAlone
  split
  · exact State.takeTrap_keeps (Keeps.lit h) _ _ _
  · split
    · exact h
    · dsimp only
      split
      · exact State.endInTrap_keeps hb (State.gateEffect_keeps hb _) _ _ _
      · have g := perform_keeps hb i k hk
        split
        · next e =>
          split
          · exact State.gone_keeps (Res.Keeps.ofOk e g)
          · exact retire_keeps_chain (Res.Keeps.ofOk e g) _ _ _
        · next e => exact retire_keeps_chain (State.voidL_keeps (Res.Keeps.ofGoto e g)) _ _ _
        · next e => exact retire_keeps_chain (Res.Keeps.ofMoved e g) _ _ _
        · next e => exact State.endInTrap_keeps hb (Res.Keeps.ofTrap e g) _ _ _
        · next e => exact State.endInTrap_keeps hb (Res.Keeps.ofTargetTrap e g) _ _ _
        · exact h
        · next e => exact Res.Keeps.ofStall e g
        · next e => exact Res.Keeps.ofTargetStall e g

theorem issue_next {z s : State} (h : Keeps z s) (i : Instr) (k : State → Res) (hk : ∀ x, Keeps z x → Res.Keeps z (k x)) :
    NextKeeps z (issue i s k) := by
  refine ⟨fun t e => ?_⟩
  refine ⟨issue_keeps h i k hk t e, fun hc => ?_⟩
  simp only [issue, h.chain hc] at e
  cases e
  exact (issueAlone_keeps_chain h i hk).chain hc

theorem agent_next {z s : State} (h : Keeps z s) {r : Option State} (hr : OptKeeps z r) : NextKeeps z (agent s r) := by
  refine ⟨fun t e => ?_⟩
  cases e
  cases r with
  | none => exact h
  | some s' => exact State.freshen_keeps hr

end Sys2Proof.Machine
end

section
/-! SUPPORT. Every instruction, outside a chain, keeps the canonical form of memory and opens no chain: the words by what their continuation
runs, the agents by the state they leave. -/

namespace Sys2Proof.Machine

-- Declarations of this section are elaborated in turn, which bounds the memory the text takes.
set_option Elab.async false

variable {z s : State}

theorem pkn_next (self : Keeps z s) (h : Hdr) (d a b : Opnd) :
    NextKeeps z (exec (.pkn h d a b) s) := by
  refine issue_next self _ _ fun s self => ?_
  with_reducible repeat' first
      | assumption | apply Res.Keeps.ok | apply Res.Keeps.trap | apply State.put_keeps | apply State.raise_keeps | split | dsimp only

theorem upkn_next (self : Keeps z s) (h : Hdr) (d a b : Opnd) :
    NextKeeps z (exec (.upkn h d a b) s) := by
  refine issue_next self _ _ fun s self => ?_
  with_reducible repeat' first | assumption | apply Res.Keeps.ok | apply Res.Keeps.trap | apply State.putF_keeps | split | dsimp only

theorem barinit_next (self : Keeps z s) (h : Hdr) (a b : Opnd) :
    NextKeeps z (exec (.barinit h a b) s) := by
  refine issue_next self _ _ fun s self => ?_
  with_reducible repeat' first | assumption | apply Res.Keeps.ok | apply Res.Keeps.trap | apply State.setBar_keeps | split | dsimp only

theorem barxb_next (self : Keeps z s) (h : Hdr) (a b : Opnd) :
    NextKeeps z (exec (.barxb h a b) s) := by
  refine issue_next self _ _ fun s self => ?_
  with_reducible repeat' first | assumption | apply Res.Keeps.ok | apply Res.Keeps.trap | apply State.barDone_keeps | split | dsimp only

theorem barwait_next (self : Keeps z s) (h : Hdr) (a b : Opnd) :
    NextKeeps z (exec (.barwait h a b) s) := by
  refine issue_next self _ _ fun s self => ?_
  with_reducible repeat' first
      | assumption | apply Res.Keeps.ok | apply Res.Keeps.trap | apply State.voidL_keeps | apply State.barAcquire_keeps | split
      | apply Keeps.lit | dsimp only

theorem bartst_next (self : Keeps z s) (h : Hdr) (p : BitVec 3) (a b : Opnd) :
    NextKeeps z (exec (.bartst h p a b) s) := by
  refine issue_next self _ _ fun s self => ?_
  with_reducible repeat' first
      | assumption | apply Res.Keeps.ok | apply Res.Keeps.trap | apply State.postPred_keeps | apply State.barGather_keeps
      | apply State.barAcquire_keeps | split | dsimp only

theorem barinv_next (self : Keeps z s) (h : Hdr) (a : Opnd) :
    NextKeeps z (exec (.barinv h a) s) := by
  refine issue_next self _ _ fun s self => ?_
  with_reducible repeat' first
      | assumption | apply Res.Keeps.ok | apply Res.Keeps.trap | apply State.setBar_keeps | apply State.depCheck_keeps
      | apply State.faultWaiters_keeps | split | dsimp only

theorem prf_next (self : Keeps z s) (h : Hdr) (a : Opnd) (imm : BitVec 7) :
    NextKeeps z (exec (.prf h a imm) s) := by
  refine issue_next self _ _ fun s self => ?_
  with_reducible repeat' first
      | assumption | apply Res.Keeps.ok | refine ExKeeps.of (by assumption) (translate_keeps ?_ _) | apply State.expireLeases_keeps
      | refine ExKeeps.of (by assumption) (State.fillWhole_keeps ?_ _ _ _) | split | dsimp only

theorem cwb_next (self : Keeps z s) (h : Hdr) (a : Opnd) :
    NextKeeps z (exec (.cwb h a) s) := by
  refine issue_next self _ _ fun s self => ?_
  with_reducible repeat' first | assumption | apply Res.Keeps.ok | apply Res.Keeps.hold | apply State.cleanLines_keeps | split | dsimp only

theorem fence_next (self : Keeps z s) (h : Hdr) (x : Bool) (e : BitVec 3) (k : BitVec 2) :
    NextKeeps z (exec (.fence h x e k) s) := by
  refine issue_next self _ _ fun s self => ?_
  with_reducible repeat' first | assumption | apply Res.Keeps.ok | apply Res.Keeps.hold | apply State.orderBy_keeps | split

theorem br_next (self : Keeps z s) (h : Hdr) (n : Bool) (p : BitVec 3) (k : BitVec 17) :
    NextKeeps z (exec (.br h n p k) s) := by
  refine issue_next self _ _ fun s self => ?_
  with_reducible repeat' first | assumption | apply id_keeps | apply Res.Keeps.ok | apply transfer_keeps | split

theorem exit_next (self : Keeps z s) (h : Hdr) :
    NextKeeps z (exec (.exit h) s) := by
  refine issue_next self _ _ fun s self => ?_
  with_reducible repeat' first
      | assumption | apply Res.Keeps.trap | apply Res.Keeps.hold | apply Res.Keeps.moved | apply State.asyncExit_keeps
      | apply State.ecall_keeps | split | apply Keeps.lit

theorem prio_next (self : Keeps z s) (h : Hdr) (a : Opnd) :
    NextKeeps z (exec (.prio h a) s) := by
  refine issue_next self _ _ fun s self => ?_
  with_reducible repeat' first | assumption | apply Res.Keeps.ok | apply Keeps.lit

theorem yield_next (self : Keeps z s) (h : Hdr) :
    NextKeeps z (exec (.yield h) s) := by
  refine issue_next self _ _ fun s self => ?_
  with_reducible repeat' first | assumption | apply Res.Keeps.ok | apply State.voidL_keeps | apply Keeps.lit

theorem interruptEntry_next (self : Keeps z s) (host : Nat) :
    NextKeeps z (exec (.interruptEntry host) s) := by
  refine agent_next self ?_
  with_reducible repeat' first | assumption | apply OptKeeps.none | apply State.takeIrq_keeps | split

theorem fetchw_next (self : Keeps z s) (h : Hdr) (a b : Opnd) :
    NextKeeps z (exec (.fetchw h a b) s) := by
  refine issue_next self _ _ fun s self => ?_
  with_reducible repeat' first
      | assumption | apply Res.Keeps.ok | apply Res.Keeps.trap | apply Res.Keeps.hold | apply State.modTeam_keeps | split | dsimp only

theorem mzero_next (self : Keeps z s) (h : Hdr) (t : BitVec 7) :
    NextKeeps z (exec (.mzero h t) s) := by
  refine issue_next self _ _ fun s self => ?_
  with_reducible repeat' first
      | assumption | apply Res.Keeps.ok | apply onTile_keeps | apply State.touchRows_keeps | apply State.setRows_keeps | split | intro _

theorem mload_next (self : Keeps z s) (h : Hdr) (t : BitVec 7) (a : Opnd) :
    NextKeeps z (exec (.mload h t a) s) := by
  refine issue_next self _ _ fun s self => ?_
  with_reducible repeat' first
      | assumption | apply Res.Keeps.ok | apply Res.Keeps.trap | apply Res.Keeps.hold | apply onTile_keeps | apply State.touchRows_keeps
      | apply State.startMove_keeps | split | apply Keeps.lit | dsimp only | intro _

theorem mdrain_next (self : Keeps z s) (h : Hdr) (t : BitVec 7) (a b : Opnd) (x : DrainCtl) :
    NextKeeps z (exec (.mdrain h t a b x) s) := by
  refine issue_next self _ _ fun s self => ?_
  with_reducible repeat' first
      | assumption | apply Res.Keeps.ok | apply Res.Keeps.trap | apply Res.Keeps.hold | apply State.sectorHome_keeps
      | apply State.release_keeps | apply onTile_keeps | apply State.startMove_keeps | refine Keeps.foldl (fun s x h => ?_) ?_ | split
      | apply Keeps.lit | dsimp only | intro _

theorem mfence_next (self : Keeps z s) (h : Hdr) (w : BitVec 4) :
    NextKeeps z (exec (.mfence h w) s) := by
  refine issue_next self _ _ fun s self => ?_
  with_reducible repeat' first | assumption | apply Res.Keeps.ok | apply Res.Keeps.trap | apply Res.Keeps.hold | split | apply Keeps.lit

theorem mwait_next (self : Keeps z s) (h : Hdr) (t : BitVec 7) :
    NextKeeps z (exec (.mwait h t) s) := by
  refine issue_next self _ _ fun s self => ?_
  with_reducible repeat' first | assumption | apply Res.Keeps.ok | apply Res.Keeps.hold | split | apply Keeps.lit | dsimp only

theorem channelBind_next (self : Keeps z s) (owner : Owner) (ch : Nat) :
    NextKeeps z (exec (.channelBind owner ch) s) := by
  refine agent_next self ?_
  with_reducible repeat' first
      | assumption | apply OptKeeps.none | apply OptKeeps.map | apply State.setChan_keeps | split | dsimp only | intro _

theorem copyStart_next (self : Keeps z s) (owner : Owner) (ch : Nat) :
    NextKeeps z (exec (.copyStart owner ch) s) := by
  refine agent_next self ?_
  with_reducible repeat' first | assumption | apply OptKeeps.some | apply OptKeeps.none | apply State.setChan_keeps | split

theorem copyFixupReplay_next (self : Keeps z s) (owner : Owner) (ch : Nat) :
    NextKeeps z (exec (.copyFixupReplay owner ch) s) := by
  refine agent_next self ?_
  with_reducible repeat' first
      | assumption | apply OptKeeps.some | apply OptKeeps.none | refine OptKeeps.getD (State.replayFix_keeps ?_ _ _ _ _) ?_ | split
      | apply Keeps.lit

theorem timerAssert_next (self : Keeps z s) (host : Nat) (hyp : Bool) :
    NextKeeps z (exec (.timerAssert host hyp) s) := by
  refine agent_next self ?_
  with_reducible repeat' first | assumption | apply OptKeeps.some | apply OptKeeps.none | apply State.tick_keeps | split

theorem sysrd_next (self : Keeps z s) (h : Hdr) (d : Opnd) (imm : BitVec 14) :
    NextKeeps z (exec (.sysrd h d imm) s) := by
  refine issue_next self _ _ fun s self => ?_
  with_reducible repeat' first | assumption | apply Res.Keeps.ok | apply State.postTo_keeps | split | apply Keeps.lit

theorem ecall_next (self : Keeps z s) (h : Hdr) (imm : BitVec 14) :
    NextKeeps z (exec (.ecall h imm) s) := by
  refine issue_next self _ _ fun s self => ?_
  with_reducible repeat' first | assumption | apply Res.Keeps.trap | apply Res.Keeps.moved | apply State.ecall_keeps | split

theorem eret_next (self : Keeps z s) (h : Hdr) :
    NextKeeps z (exec (.eret h) s) := by
  refine issue_next self _ _ fun s self => ?_
  with_reducible repeat' first
      | assumption | apply Res.Keeps.trap | apply Res.Keeps.moved | apply State.trapReturn_keeps | split | dsimp only

theorem tlbi_next (self : Keeps z s) (h : Hdr) (a b : Opnd) :
    NextKeeps z (exec (.tlbi h a b) s) := by
  refine issue_next self _ _ fun s self => ?_
  with_reducible repeat' first
      | assumption | apply Res.Keeps.ok | apply Res.Keeps.trap | apply Res.Keeps.hold | apply State.release_keeps
      | apply State.invalidate_keeps | split | dsimp only

theorem bReadStart_next (self : Keeps z s) (core : Nat) :
    NextKeeps z (exec (.bReadStart core) s) := by
  refine agent_next self ?_
  with_reducible repeat' first
      | assumption | apply OptKeeps.some | apply OptKeeps.none | apply State.endLaunch_keeps | apply State.modQuad_keeps
      | apply State.restamp_keeps | split | dsimp only

theorem passGrant_next (self : Keeps z s) (quad : Nat) :
    NextKeeps z (exec (.passGrant quad) s) := by
  refine agent_next self ?_
  with_reducible repeat' first
      | assumption | apply OptKeeps.some | apply OptKeeps.none | apply OptKeeps.map | apply State.modQuad_keeps | apply State.accrue_keeps
      | apply State.grantPass_keeps | split | dsimp only

theorem passComplete_next (self : Keeps z s) (quad : Nat) :
    NextKeeps z (exec (.passComplete quad) s) := by
  refine agent_next self ?_
  with_reducible repeat' first
      | assumption | apply OptKeeps.some | apply OptKeeps.none | apply State.endLaunch_keeps | apply State.modQuad_keeps
      | apply State.restamp_keeps | apply State.updateTile_keeps | apply State.finishOp_keeps | split | dsimp only

theorem governorWindow_next (self : Keeps z s) (quad : Nat) :
    NextKeeps z (exec (.governorWindow quad) s) := by
  refine agent_next self ?_
  with_reducible repeat' first
      | assumption | apply OptKeeps.some | apply OptKeeps.none | apply State.modQuad_keeps | apply State.accrue_keeps | split

theorem mgovcfgWrite_next (self : Keeps z s) (quad : Nat) (value : BitVec 32) :
    NextKeeps z (exec (.mgovcfgWrite quad value) s) := by
  refine agent_next self ?_
  with_reducible repeat' first | assumption | apply OptKeeps.some | apply OptKeeps.none | apply State.writeGov_keeps | split

theorem mloadMovementEnd_next (self : Keeps z s) (core : Nat) :
    NextKeeps z (exec (.mloadMovementEnd core) s) := by
  refine agent_next self ?_
  with_reducible repeat' first
      | assumption | apply OptKeeps.some | apply OptKeeps.none | apply State.startMove_keeps | apply State.endLoad_keeps | split

theorem energyTick_next (self : Keeps z s) (core : Nat) :
    NextKeeps z (exec (.energyTick core) s) := by
  refine agent_next self ?_
  with_reducible repeat' first | assumption | apply OptKeeps.some | apply OptKeeps.none | apply State.tickCore_keeps | split

theorem interlockedResultWrite_next (self : Keeps z s) (tid : ThreadId) :
    NextKeeps z (exec (.interlockedResultWrite tid) s) := by
  refine agent_next self ?_
  with_reducible repeat' first | assumption | apply OptKeeps.some | apply OptKeeps.none | apply State.setThread_keeps | split

theorem lineLeaseExpiry_next (self : Keeps z s) (core line : Nat) :
    NextKeeps z (exec (.lineLeaseExpiry core line) s) := by
  refine agent_next self ?_
  with_reducible repeat' first | assumption | apply OptKeeps.some | apply OptKeeps.none | apply State.evictLines_keeps | split | dsimp only

theorem epochRollover_next (self : Keeps z s) (core : Nat) :
    NextKeeps z (exec (.epochRollover core) s) := by
  refine agent_next self ?_
  with_reducible repeat' first | assumption | apply OptKeeps.some | apply OptKeeps.none | apply State.modCore_keeps | split

theorem writeBack_next (self : Keeps z s) (core line : Nat) :
    NextKeeps z (exec (.writeBack core line) s) := by
  refine agent_next self ?_
  with_reducible repeat' first | assumption | apply OptKeeps.some | apply OptKeeps.none | apply State.cleanLines_keeps | split | dsimp only

theorem l1Fill_next (self : Keeps z s) (core : Nat) (sp : Space) (va : BitVec 64) :
    NextKeeps z (exec (.l1Fill core sp va) s) := by
  refine agent_next self ?_
  with_reducible repeat' first
      | assumption | apply OptKeeps.some | apply OptKeeps.none | refine ExKeeps.of (by assumption) (translate_keeps ?_ _)
      | apply State.expireLeases_keeps | refine ExKeeps.of (by assumption) (State.fillWhole_keeps ?_ _ _ _)
      | apply State.terminalFault_keeps | split | dsimp only

theorem counterGrant_next (self : Keeps z s) (pa : Nat) :
    NextKeeps z (exec (.counterGrant pa) s) := by
  refine agent_next self ?_
  with_reducible repeat' first | assumption | apply OptKeeps.some | apply OptKeeps.none | apply State.cleanLines_keeps | split

theorem pageTableWalk_next (self : Keeps z s) (sp : Space) (va : BitVec 64) (kind : AccessKind) :
    NextKeeps z (exec (.pageTableWalk sp va kind) s) := by
  refine agent_next self ?_
  with_reducible repeat' first
      | assumption | apply OptKeeps.some | apply OptKeeps.none | refine ExKeeps.of (by assumption) (walk_keeps ?_ _)
      | apply State.terminalFault_keeps | split | dsimp only

theorem faultRecordWrite_next (self : Keeps z s) (ring : Nat) :
    NextKeeps z (exec (.faultRecordWrite ring) s) := by
  refine agent_next self ?_
  with_reducible repeat' first
      | assumption | apply OptKeeps.some | apply OptKeeps.none | apply State.poisonFrame_keeps | apply State.writeRecord_keeps | split
      | apply Keeps.lit | dsimp only

theorem operandLogReplay_next (self : Keeps z s) (entry : Nat) :
    NextKeeps z (exec (.operandLogReplay entry) s) := by
  refine agent_next self ?_
  with_reducible repeat' first
      | assumption | apply OptKeeps.some | apply OptKeeps.none | apply State.onThread_keeps | apply State.replayEntry_keeps | split
      | intro _

theorem atomicUnitServe_next (self : Keeps z s) (slice bank : Nat) :
    NextKeeps z (exec (.atomicUnitServe slice bank) s) := by
  refine agent_next self ?_
  with_reducible repeat' first
      | assumption | apply OptKeeps.some | apply OptKeeps.none | apply State.freshen_keeps | apply State.onThread_keeps
      | apply State.serve_keeps | refine Keeps.foldl (fun s x h => ?_) ?_ | split | intro _

theorem drainComplete_next (self : Keeps z s) (drain : Nat) :
    NextKeeps z (exec (.drainComplete drain) s) := by
  refine agent_next self ?_
  with_reducible repeat' first
      | assumption | apply OptKeeps.none | apply State.moveDrain_keeps | apply State.addOnStore_keeps | apply State.landDrain_keeps | split

theorem drainFixupReplay_next (self : Keeps z s) (entry : Nat) :
    NextKeeps z (exec (.drainFixupReplay entry) s) := by
  refine agent_next self ?_
  with_reducible repeat' first
      | assumption | apply OptKeeps.some | apply OptKeeps.none | apply State.noteFix_keeps | apply State.setDrain_keeps
      | refine Landed.Keeps.ofOk (by assumption) (landDrainLine_keeps ?_ _ _)
      | refine Landed.Keeps.ofSkip (by assumption) (landDrainLine_keeps ?_ _ _)
      | refine Landed.Keeps.ofStop (by assumption) (landDrainLine_keeps ?_ _ _) | apply State.creditDrain_keeps
      | apply State.addOnStore_keeps | split | dsimp only

theorem ecreate_next (self : Keeps z s) (h : Hdr) (d a : Opnd) :
    NextKeeps z (exec (.ecreate h d a) s) := by
  refine issue_next self _ _ fun s self => ?_
  with_reducible repeat' first
      | assumption | apply Res.Keeps.ok | apply Res.Keeps.hold | apply State.postTo_keeps | apply State.poisonFrame_keeps
      | apply State.recall_keeps | apply withBuffer_keeps | apply State.create_keeps | refine Keeps.foldl (fun s x h => ?_) ?_ | split
      | dsimp only | intro _

theorem eenter_next (self : Keeps z s) (h : Hdr) (a b : Opnd) :
    NextKeeps z (exec (.eenter h a b) s) := by
  refine issue_next self _ _ fun s self => ?_
  with_reducible repeat' first
      | assumption | apply Res.Keeps.trap | apply Res.Keeps.hold | apply Res.Keeps.moved | apply State.modHost_keeps
      | apply State.asyncExit_keeps | apply State.freshCode_keeps | apply State.unsealHostChans_keeps | split | apply Keeps.lit
      | dsimp only

theorem eexit_next (self : Keeps z s) (h : Hdr) :
    NextKeeps z (exec (.eexit h) s) := by
  refine issue_next self _ _ fun s self => ?_
  with_reducible repeat' first
      | assumption | apply Res.Keeps.trap | apply Res.Keeps.moved | apply State.modHost_keeps | apply State.modEncl_keeps | split
      | apply Keeps.lit | dsimp only

theorem ereport_next (self : Keeps z s) (h : Hdr) (d a : Opnd) :
    NextKeeps z (exec (.ereport h d a) s) := by
  refine issue_next self _ _ fun s self => ?_
  with_reducible repeat' first
      | assumption | apply Res.Keeps.ok | apply Res.Keeps.trap | apply State.modEncl_keeps | apply State.postTo_keeps
      | apply withBuffer_keeps | apply storeBuffer_keeps | apply State.noteRequest_keeps | split | dsimp only | intro _

theorem edestroy_next (self : Keeps z s) (h : Hdr) (a : Opnd) :
    NextKeeps z (exec (.edestroy h a) s) := by
  refine issue_next self _ _ fun s self => ?_
  with_reducible repeat' first
      | assumption | apply Res.Keeps.ok | apply Res.Keeps.trap | apply Res.Keeps.hold
      | refine OptKeeps.of (by assumption) (State.destroy_keeps ?_ _ _) | split | dsimp only

theorem kwrap_next (self : Keeps z s) (h : Hdr) (d a : Opnd) :
    NextKeeps z (exec (.kwrap h d a) s) := by
  refine issue_next self _ _ fun s self => ?_
  with_reducible repeat' first
      | assumption | apply Res.Keeps.trap | apply withBuffer_keeps | apply storeBuffer_keeps | apply answer_keeps | split | apply Keeps.lit
      | dsimp only | intro _

theorem krevoke_next (self : Keeps z s) (h : Hdr) (d a : Opnd) :
    NextKeeps z (exec (.krevoke h d a) s) := by
  refine issue_next self _ _ fun s self => ?_
  with_reducible repeat' first | assumption | apply Res.Keeps.hold | apply answer_keeps | apply State.revoke_keeps | split | dsimp only

theorem kload_next (self : Keeps z s) (h : Hdr) (d a : Opnd) :
    NextKeeps z (exec (.kload h d a) s) := by
  refine issue_next self _ _ fun s self => ?_
  with_reducible repeat' first | assumption | apply answer_keeps | split | apply Keeps.lit | dsimp only

theorem potset_next (self : Keeps z s) (h : Hdr) (d a : Opnd) :
    NextKeeps z (exec (.potset h d a) s) := by
  refine issue_next self _ _ fun s self => ?_
  with_reducible repeat' first
      | assumption | apply Res.Keeps.hold | apply answer_keeps | refine SndKeeps.snd (potSet_keeps ?_ _ _ _) | apply withBlock_keeps
      | split | dsimp only | intro _

theorem potrd_next (self : Keeps z s) (h : Hdr) (d a : Opnd) :
    NextKeeps z (exec (.potrd h d a) s) := by
  refine issue_next self _ _ fun s self => ?_
  with_reducible repeat' first
      | assumption | apply storeBuffer_keeps | apply answer_keeps | apply withBlock_keeps | split | dsimp only | intro _

theorem pmap_next (self : Keeps z s) (h : Hdr) (d a : Opnd) :
    NextKeeps z (exec (.pmap h d a) s) := by
  refine issue_next self _ _ fun s self => ?_
  with_reducible repeat' first
      | assumption | apply State.scrubFrame_keeps | apply answer_keeps | apply State.putEntry_keeps | apply onPage_keeps
      | apply withFrame_keeps | split | dsimp only | intro _

theorem paccept_next (self : Keeps z s) (h : Hdr) (d a : Opnd) :
    NextKeeps z (exec (.paccept h d a) s) := by
  refine issue_next self _ _ fun s self => ?_
  with_reducible repeat' first | assumption | apply Res.Keeps.trap | apply State.setPot_keeps | apply answer_keeps | split | dsimp only

theorem pdiscard_next (self : Keeps z s) (h : Hdr) (d a : Opnd) :
    NextKeeps z (exec (.pdiscard h d a) s) := by
  refine issue_next self _ _ fun s self => ?_
  with_reducible repeat' first
      | assumption | apply Res.Keeps.hold | apply State.setPot_keeps | apply State.recall_keeps | apply answer_keeps | apply onPage_keeps
      | split | dsimp only | intro _

theorem punmap_next (self : Keeps z s) (h : Hdr) (d a : Opnd) :
    NextKeeps z (exec (.punmap h d a) s) := by
  refine issue_next self _ _ fun s self => ?_
  with_reducible repeat' first
      | assumption | apply Res.Keeps.hold | apply State.setPot_keeps | apply State.recall_keeps | apply answer_keeps
      | apply State.putEntry_keeps | apply State.scrubFor_keeps | apply onPage_keeps | split | dsimp only | intro _

theorem teamPlace_next (self : Keeps z s) (launch core : Nat) :
    NextKeeps z (exec (.teamPlace launch core) s) := by
  refine agent_next self ?_
  with_reducible repeat' first
      | assumption | apply OptKeeps.none | apply State.releaseP_keeps | apply withConstants_keeps | split | dsimp only | intro _

theorem clusterPlace_next (self : Keeps z s) (launch slice row col : Nat) :
    NextKeeps z (exec (.clusterPlace launch slice row col) s) := by
  refine agent_next self ?_
  with_reducible repeat' first
      | assumption | apply OptKeeps.none | apply State.releaseP_keeps | apply withConstants_keeps | split | apply Keeps.lit | dsimp only
      | intro _

theorem teamDone_next (self : Keeps z s) (team : Nat) :
    NextKeeps z (exec (.teamDone team) s) := by
  refine agent_next self ?_
  with_reducible repeat' first
      | assumption | apply OptKeeps.some | apply OptKeeps.none | apply State.modTeam_keeps | apply State.dropTeam_keeps
      | refine Keeps.foldl (fun s x h => ?_) ?_ | split

theorem splitRequest_next (self : Keeps z s) (launch core : Nat) :
    NextKeeps z (exec (.splitRequest launch core) s) := by
  refine agent_next self ?_
  with_reducible repeat' first | assumption | apply OptKeeps.none | apply State.askSplit_keeps | split

theorem splitRetry_next (self : Keeps z s) (launch core : Nat) :
    NextKeeps z (exec (.splitRetry launch core) s) := by
  refine agent_next self ?_
  with_reducible repeat' first
      | assumption | apply OptKeeps.some | apply OptKeeps.none | apply State.modLaunch_keeps | apply State.askSplit_keeps | split
      | dsimp only

theorem walkerDispense_next (self : Keeps z s) (slice walker : Nat) :
    NextKeeps z (exec (.walkerDispense slice walker) s) := by
  refine agent_next self ?_
  with_reducible repeat' first
      | assumption | apply OptKeeps.some | apply OptKeeps.none | apply State.modCore_keeps
      | refine PairKeeps.fst (State.dispense_keeps ?_ _ _) | apply State.takeTurn_keeps | apply State.addTeam_keeps
      | apply withConstants_keeps | split | dsimp only | intro _

theorem fetchwServe_next (self : Keeps z s) (team : Nat) :
    NextKeeps z (exec (.fetchwServe team) s) := by
  refine agent_next self ?_
  with_reducible repeat' first
      | assumption | apply OptKeeps.some | apply OptKeeps.none | apply State.modTeam_keeps
      | refine PairKeeps.of (by assumption) (State.dispense_keeps ?_ _ _) | apply State.askSplit_keeps | apply State.mailbox_keeps | split
      | dsimp only

theorem launchComplete_next (self : Keeps z s) (launch : Nat) :
    NextKeeps z (exec (.launchComplete launch) s) := by
  refine agent_next self ?_
  with_reducible repeat' first | assumption | apply OptKeeps.none | apply State.finishLaunch_keeps | split

theorem terminalTrapEnd_next (self : Keeps z s) (launch : Nat) :
    NextKeeps z (exec (.terminalTrapEnd launch) s) := by
  refine agent_next self ?_
  with_reducible repeat' first
      | assumption | apply OptKeeps.some | apply OptKeeps.none | refine OptKeeps.getD (State.finishLaunch_keeps ?_ _ _) ?_
      | apply State.settleBusy_keeps | apply State.dropLaunch_keeps | split | dsimp only

theorem kickTake_next (self : Keeps z s) (slice queue : Nat) :
    NextKeeps z (exec (.kickTake slice queue) s) := by
  refine agent_next self ?_
  with_reducible repeat' first
      | assumption | apply OptKeeps.some | apply OptKeeps.none | apply State.onThread_keeps | apply State.wakeFrom_keeps
      | refine PairKeeps.fst (readEntryOf_keeps ?_ _ _ _) | apply State.setEntry_keeps
      | refine OptKeeps.of (by assumption) (readsNext_keeps ?_ _ _) | split | apply Keeps.lit | dsimp only | intro _

theorem entryStart_next (self : Keeps z s) (slice queue : Nat) :
    NextKeeps z (exec (.entryStart slice queue) s) := by
  refine agent_next self ?_
  with_reducible repeat' first
      | assumption | apply OptKeeps.some | apply OptKeeps.none | apply State.takeTurn_keeps
      | refine PairKeeps.fst (readEntryOf_keeps ?_ _ _ _) | apply State.setEntry_keeps | apply State.dropEntry_keeps
      | apply State.failEntry_keeps | apply State.startLaunch_keeps | split | dsimp only

theorem markComplete_next (self : Keeps z s) (slice queue seq : Nat) :
    NextKeeps z (exec (.markComplete slice queue seq) s) := by
  refine agent_next self ?_
  with_reducible repeat' first
      | assumption | apply OptKeeps.some | apply OptKeeps.none | refine CpRead.Keeps.ofOk (by assumption) (writeSignal_keeps ?_ _ _ _ _ _)
      | refine CpRead.Keeps.ofWait (by assumption) (writeSignal_keeps ?_ _ _ _ _ _)
      | refine CpRead.Keeps.ofBad (by assumption) (writeSignal_keeps ?_ _ _ _ _ _) | apply State.countHandle_keeps
      | apply State.setEntry_keeps | apply State.dropEntry_keeps | split | dsimp only

theorem preemptResume_next (self : Keeps z s) (eid : BitVec 16) :
    NextKeeps z (exec (.preemptResume eid) s) := by
  refine agent_next self ?_
  with_reducible repeat' first
      | assumption | apply OptKeeps.some | apply OptKeeps.none | apply State.modEncl_keeps | apply State.notePreempt_keeps
      | apply State.resumeContext_keeps | split

theorem preemptSoft_next (self : Keeps z s) (eid : BitVec 16) :
    NextKeeps z (exec (.preemptSoft eid) s) := by
  refine agent_next self ?_
  with_reducible repeat' first | assumption | apply OptKeeps.map | apply State.softRequest_keeps | apply State.notePreempt_keeps | intro _

theorem preemptHalt_next (self : Keeps z s) (eid : BitVec 16) :
    NextKeeps z (exec (.preemptHalt eid) s) := by
  refine agent_next self ?_
  with_reducible repeat' first | assumption | apply OptKeeps.map | apply State.orderHalt_keeps | apply State.notePreempt_keeps | intro _

theorem preemptKill_next (self : Keeps z s) (eid : BitVec 16) :
    NextKeeps z (exec (.preemptKill eid) s) := by
  refine agent_next self ?_
  with_reducible repeat' first
      | assumption | apply OptKeeps.map | apply State.settleBusy_keeps | apply State.killTeams_keeps | apply State.endSoft_keeps
      | apply State.exitHosts_keeps | apply State.notePreempt_keeps | intro _

theorem softRequestEnd_next (self : Keeps z s) (eid : Nat) :
    NextKeeps z (exec (.softRequestEnd eid) s) := by
  refine agent_next self ?_
  with_reducible repeat' first | assumption | apply OptKeeps.some | apply OptKeeps.none | apply State.endSoft_keeps | split

theorem g1Deadline_next (self : Keeps z s) (eid : Nat) :
    NextKeeps z (exec (.g1Deadline eid) s) := by
  refine agent_next self ?_
  with_reducible repeat' first | assumption | apply OptKeeps.some | apply OptKeeps.none | apply State.forceHalt_keeps | split

theorem g2Deadline_next (self : Keeps z s) (eid : Nat) :
    NextKeeps z (exec (.g2Deadline eid) s) := by
  refine agent_next self ?_
  with_reducible repeat' first | assumption | apply OptKeeps.some | apply OptKeeps.none | apply State.killNamed_keeps | split

theorem timeSliceExpiry_next (self : Keeps z s) (eid core : Nat) :
    NextKeeps z (exec (.timeSliceExpiry eid core) s) := by
  refine agent_next self ?_
  with_reducible repeat' first | assumption | apply OptKeeps.some | apply OptKeeps.none | apply State.softRequest_keeps | split | dsimp only

theorem contextRestore_next (self : Keeps z s) (eid core : Nat) :
    NextKeeps z (exec (.contextRestore eid core) s) := by
  refine agent_next self ?_
  with_reducible repeat' first
      | assumption | apply OptKeeps.some | apply OptKeeps.none | apply State.failEnclave_keeps | apply State.restoreClock_keeps
      | refine OptKeeps.getD (State.restoreAt_keeps ?_ _ _ _) ?_ | apply State.restoreWalkers_keeps
      | refine Keeps.foldl (fun s x h => ?_) ?_ | split | dsimp only

theorem partitionResize_next (self : Keeps z s) (slice : Nat) :
    NextKeeps z (exec (.partitionResize slice) s) := by
  refine agent_next self ?_
  with_reducible repeat' first
      | assumption | apply OptKeeps.some | apply OptKeeps.none | apply State.softOn_keeps | apply State.moveWalkers_keeps | split
      | apply Keeps.lit | dsimp only

theorem quadsvcOut_next (self : Keeps z s) (slice quad : Nat) :
    NextKeeps z (exec (.quadsvcOut slice quad) s) := by
  refine agent_next self ?_
  with_reducible repeat' first
      | assumption | apply OptKeeps.some | apply OptKeeps.none | apply State.quadOut_keeps | split | apply Keeps.lit

theorem quadsvcIn_next (self : Keeps z s) (slice quad : Nat) :
    NextKeeps z (exec (.quadsvcIn slice quad) s) := by
  refine agent_next self ?_
  with_reducible repeat' first
      | assumption | apply OptKeeps.some | apply OptKeeps.none | apply State.modQuad_keeps | split | apply Keeps.lit

theorem ceownWrite_next (self : Keeps z s) (engine : Nat) (value : BitVec 64) :
    NextKeeps z (exec (.ceownWrite engine value) s) := by
  refine agent_next self ?_
  with_reducible repeat' first | assumption | apply OptKeeps.some | apply OptKeeps.none | apply State.applyCeown_keeps | split

theorem blkmove_next (self : Keeps z s) (value : BitVec 64) :
    NextKeeps z (exec (.blkmove value) s) := by
  refine agent_next self ?_
  with_reducible repeat' first
      | assumption | apply OptKeeps.some | apply OptKeeps.none | apply State.moveBlock_keeps | split | apply Keeps.lit | dsimp only

theorem scrubEnd_next (self : Keeps z s) (frame : Nat) :
    NextKeeps z (exec (.scrubEnd frame) s) := by
  refine agent_next self ?_
  with_reducible repeat' first
      | assumption | apply OptKeeps.some | apply OptKeeps.none | apply State.setPot_keeps | apply State.scrubFrame_keeps
      | apply State.blockScrubbed_keeps | split | apply Keeps.lit

theorem keyRotation_next (self : Keeps z s) (eid : Nat) :
    NextKeeps z (exec (.keyRotation eid) s) := by
  refine agent_next self ?_
  with_reducible repeat' first
      | assumption | apply OptKeeps.some | apply OptKeeps.none | apply State.modEncl_keeps | apply State.revoke_keeps | split
      | apply Keeps.lit | dsimp only

theorem sweep_next (self : Keeps z s) (x : Swept) :
    NextKeeps z (exec (.sweep x) s) := by
  refine agent_next self ?_
  with_reducible repeat' first
      | assumption | apply OptKeeps.some | apply OptKeeps.none | apply State.inject_keeps | apply State.grant_keeps
      | apply State.poisonFrame_keeps | apply State.startSweep_keeps | apply State.endSweep_keeps | split | apply Keeps.lit | dsimp only

theorem tdispDmaRequest_next (self : Keeps z s) (tdi : Nat) (tbit : Bool) (va : BitVec 64) (write : Bool) (data : List (BitVec 8)) :
    NextKeeps z (exec (.tdispDmaRequest tdi tbit va write data) s) := by
  refine agent_next self ?_
  with_reducible repeat' first
      | assumption | apply OptKeeps.some | apply State.terminalRecord_keeps | apply State.dmaTurn_keeps | split | dsimp only

theorem linkFlitReceive_next (self : Keeps z s) (link stream : Nat) (good : Bool) (va : BitVec 64) (data : List (BitVec 8)) :
    NextKeeps z (exec (.linkFlitReceive link stream good va data) s) := by
  refine agent_next self ?_
  with_reducible repeat' first
      | assumption | refine OptKeeps.mapOf (State.submit_keeps ?_ _ _) ?_ | apply OptKeeps.some | apply OptKeeps.none
      | apply State.terminalRecord_keeps | apply State.dmaTurn_keeps | split | apply Keeps.lit | dsimp only | intro _

theorem tripletDissent_next (self : Keeps z s) (trip : Triplet) (copy : Nat) :
    NextKeeps z (exec (.tripletDissent trip copy) s) := by
  refine agent_next self ?_
  with_reducible repeat' first | assumption | apply OptKeeps.some | apply OptKeeps.none | apply State.resyncStart_keeps | split | dsimp only

theorem resyncEnd_next (self : Keeps z s) (trip : Triplet) :
    NextKeeps z (exec (.resyncEnd trip) s) := by
  refine agent_next self ?_
  with_reducible repeat' first | assumption | apply OptKeeps.some | apply OptKeeps.none | apply State.modTrip_keeps | split | dsimp only

theorem tripletStop_next (self : Keeps z s) (trip : Triplet) :
    NextKeeps z (exec (.tripletStop trip) s) := by
  refine agent_next self ?_
  with_reducible repeat' first | assumption | apply OptKeeps.some | apply OptKeeps.none | apply State.stopTriplet_keeps | split

theorem tripletRestart_next (self : Keeps z s) (trip : Triplet) :
    NextKeeps z (exec (.tripletRestart trip) s) := by
  refine agent_next self ?_
  with_reducible repeat' first
      | assumption | apply OptKeeps.some | apply OptKeeps.none | apply State.modTrip_keeps | apply State.releaseQueues_keeps | split

theorem uncorrectableError_next (self : Keeps z s) (site : ErrorSite) :
    NextKeeps z (exec (.uncorrectableError site) s) := by
  refine agent_next self ?_
  with_reducible repeat' first
      | assumption | apply OptKeeps.some | apply OptKeeps.none | apply State.modThread_keeps | apply State.modTeam_keeps
      | apply State.poisonMany_keeps | apply State.poisonFrame_keeps | apply State.modStore_keeps | apply State.modQuad_keeps
      | apply State.copyError_keeps | apply State.eccError_keeps | apply State.noteQuad_keeps | apply State.coreError_keeps
      | apply State.tandemDown_keeps | split | apply Keeps.lit | dsimp only

theorem quadAutoRemove_next (self : Keeps z s) (slice quad : Nat) :
    NextKeeps z (exec (.quadAutoRemove slice quad) s) := by
  refine agent_next self ?_
  with_reducible repeat' first
      | assumption | apply OptKeeps.some | apply OptKeeps.none | apply State.rasEvent_keeps | apply State.modQuad_keeps
      | apply State.quadOut_keeps | split | dsimp only

theorem tandemRejoin_next (self : Keeps z s) (ok : Bool) :
    NextKeeps z (exec (.tandemRejoin ok) s) := by
  refine agent_next self ?_
  with_reducible repeat' first
      | assumption | apply OptKeeps.some | apply OptKeeps.none | apply State.rasEvent_keeps | split | apply Keeps.lit

theorem fwupd_next (self : Keeps z s) (value : BitVec 64) :
    NextKeeps z (exec (.fwupd value) s) := by
  refine agent_next self ?_
  with_reducible repeat' first
      | assumption | apply OptKeeps.some | apply OptKeeps.none | apply State.endUpdate_keeps | apply State.startUpdate_keeps | split
      | apply Keeps.lit

theorem notice_next (self : Keeps z s) (eid : BitVec 16) (deadline : BitVec 64) :
    NextKeeps z (exec (.notice eid deadline) s) := by
  refine agent_next self ?_
  with_reducible repeat' first
      | assumption | apply OptKeeps.some | apply OptKeeps.none | apply State.notify_keeps | apply State.respond_keeps
      | refine Keeps.foldl (fun s x h => ?_) ?_ | split

theorem noticeDeadline_next (self : Keeps z s) (eid : Nat) :
    NextKeeps z (exec (.noticeDeadline eid) s) := by
  refine agent_next self ?_
  with_reducible repeat' first
      | assumption | apply OptKeeps.some | apply OptKeeps.none | apply State.modEncl_keeps | apply State.orderHalt_keeps
      | apply State.ckNote_keeps | split

theorem checkpoint_next (self : Keeps z s) (eid : Nat) :
    NextKeeps z (exec (.checkpoint eid) s) := by
  refine agent_next self ?_
  with_reducible repeat' first
      | assumption | apply OptKeeps.some | apply OptKeeps.none | apply State.forceHalt_keeps | apply State.haltContext_keeps
      | apply State.finishJob_keeps | apply State.endJob_keeps | apply State.refuseBusy_keeps | apply State.formCheckpoint_keeps | split
      | apply Keeps.lit

theorem restore_next (self : Keeps z s) (eid : Nat) :
    NextKeeps z (exec (.restore eid) s) := by
  refine agent_next self ?_
  with_reducible repeat' first
      | assumption | apply OptKeeps.some | apply OptKeeps.none | apply State.finishJob_keeps | apply State.endJob_keeps
      | apply State.refuseBusy_keeps | apply State.loadImage_keeps
      | refine Checked.Keeps.ofFail (by assumption) (checkRestore_keeps ?_ _ _)
      | refine Checked.Keeps.ofWait (by assumption) (checkRestore_keeps ?_ _ _)
      | refine Checked.Keeps.ofGood (by assumption) (checkRestore_keeps ?_ _ _) | apply State.leaveHost_keeps | split | apply Keeps.lit

theorem migrationReady_next (self : Keeps z s) (eid : Nat) :
    NextKeeps z (exec (.migrationReady eid) s) := by
  refine agent_next self ?_
  with_reducible repeat' first
      | assumption | refine OptKeeps.mapOf (State.destroy_keeps ?_ _ _) ?_ | apply OptKeeps.some | apply OptKeeps.none
      | apply State.forceHalt_keeps | apply State.ckNote_keeps | apply State.receive_keeps | split | intro _

theorem migrationGo_next (self : Keeps z s) (eid : Nat) :
    NextKeeps z (exec (.migrationGo eid) s) := by
  refine agent_next self ?_
  with_reducible repeat' first | assumption | apply OptKeeps.none | apply OptKeeps.map | apply State.start_keeps | split

theorem migrationStreamFail_next (self : Keeps z s) (eid : Nat) :
    NextKeeps z (exec (.migrationStreamFail eid) s) := by
  refine agent_next self ?_
  with_reducible repeat' first
      | assumption | apply OptKeeps.some | apply OptKeeps.none | apply State.modEncl_keeps | apply State.destroy_keeps
      | apply State.endHalt_keeps | split

theorem getCertificate_next (self : Keeps z s) (req : SpdmReq) :
    NextKeeps z (exec (.getCertificate req) s) := by
  refine agent_next self ?_
  with_reducible repeat' first | assumption | apply State.answerSpdm_keeps | apply serve_keeps | split | dsimp only | intro _

theorem keyExchange_next (self : Keeps z s) (req : SpdmReq) :
    NextKeeps z (exec (.keyExchange req) s) := by
  refine agent_next self ?_
  with_reducible repeat' first
      | assumption | apply State.answerSpdm_keeps | apply serve_keeps | split | apply Keeps.lit | dsimp only | intro _

theorem finish_next (self : Keeps z s) (req : SpdmReq) :
    NextKeeps z (exec (.finish req) s) := by
  refine agent_next self ?_
  with_reducible repeat' first
      | assumption | apply State.answerSpdm_keeps | apply serve_keeps | apply inSession_keeps | apply Keeps.lit | intro _

theorem heartbeat_next (self : Keeps z s) (req : SpdmReq) :
    NextKeeps z (exec (.heartbeat req) s) := by
  refine agent_next self ?_
  with_reducible repeat' first | assumption | apply State.answerSpdm_keeps | apply serve_keeps | apply inSession_keeps | intro _

theorem endSession_next (self : Keeps z s) (req : SpdmReq) :
    NextKeeps z (exec (.endSession req) s) := by
  refine agent_next self ?_
  with_reducible repeat' first
      | assumption | apply State.answerSpdm_keeps | apply serve_keeps | apply inSession_keeps | apply State.endSession_keeps | intro _

theorem unsupportedRequest_next (self : Keeps z s) (req : SpdmReq) :
    NextKeeps z (exec (.unsupportedRequest req) s) := by
  refine agent_next self ?_
  with_reducible repeat' first | assumption | apply OptKeeps.none | apply State.answerSpdm_keeps | apply serve_keeps | split | intro _

theorem sessionTimeout_next (self : Keeps z s) (session : Nat) :
    NextKeeps z (exec (.sessionTimeout session) s) := by
  refine agent_next self ?_
  with_reducible repeat' first | assumption | apply OptKeeps.some | apply OptKeeps.none | apply State.endSession_keeps | split

theorem spdmrly_next (self : Keeps z s) (value : BitVec 64) :
    NextKeeps z (exec (.spdmrly value) s) := by
  refine agent_next self ?_
  with_reducible repeat' first
      | assumption | apply OptKeeps.some | apply OptKeeps.none | apply State.homeWrite_keeps | split | apply Keeps.lit | dsimp only

theorem pstateWrite_next (self : Keeps z s) (slice : Nat) (value : BitVec 64) :
    NextKeeps z (exec (.pstateWrite slice value) s) := by
  refine agent_next self ?_
  with_reducible repeat' first | assumption | apply OptKeeps.some | apply OptKeeps.none | apply State.writePstate_keeps | split

theorem pstateChangeEnd_next (self : Keeps z s) (slice : Nat) :
    NextKeeps z (exec (.pstateChangeEnd slice) s) := by
  refine agent_next self ?_
  with_reducible repeat' first
      | assumption | apply OptKeeps.some | apply OptKeeps.none | apply State.modPower_keeps | apply State.writePstate_keeps
      | apply State.scrubStack_keeps | refine Keeps.foldl (fun s x h => ?_) ?_ | split

theorem throttleStep_next (self : Keeps z s) (slice : Nat) (temp : Int) :
    NextKeeps z (exec (.throttleStep slice temp) s) := by
  refine agent_next self ?_
  with_reducible repeat' first
      | assumption | apply OptKeeps.some | apply OptKeeps.none | apply State.countSlice_keeps | apply State.assertIrq_keeps
      | apply State.modPower_keeps | split | dsimp only

theorem power_next (self : Keeps z s) (slice : Nat) (state point : BitVec 2) :
    NextKeeps z (exec (.power slice state point) s) := by
  refine agent_next self ?_
  with_reducible repeat' first
      | assumption | apply OptKeeps.some | apply OptKeeps.none | apply State.respond_keeps | apply State.writePstate_keeps | split

theorem package_next (self : Keeps z s) (number : BitVec 16) :
    NextKeeps z (exec (.package number) s) := by
  refine agent_next self ?_
  with_reducible repeat' first
      | assumption | apply OptKeeps.some | apply OptKeeps.none | apply State.respond_keeps | split | apply Keeps.lit

theorem hcstart_next (self : Keeps z s) (value : BitVec 64) :
    NextKeeps z (exec (.hcstart value) s) := by
  refine agent_next self ?_
  with_reducible repeat' first
      | assumption | apply OptKeeps.some | apply OptKeeps.none | apply State.setThread_keeps | apply State.modHost_keeps
      | apply State.freshCode_keeps | split | dsimp only

theorem msiWrite_next (self : Keeps z s) (port : Nat) :
    NextKeeps z (exec (.msiWrite port) s) := by
  refine agent_next self ?_
  with_reducible repeat' first | assumption | apply OptKeeps.some | apply OptKeeps.none | apply State.assertIrq_keeps | split | dsimp only

theorem linkDown_next (self : Keeps z s) (link : Nat) :
    NextKeeps z (exec (.linkDown link) s) := by
  refine agent_next self ?_
  with_reducible repeat' first
      | assumption | apply OptKeeps.some | apply OptKeeps.none | apply State.terminalRecord_keeps | apply State.loseWrites_keeps
      | refine Keeps.foldl (fun s x h => ?_) ?_ | split | apply Keeps.lit | dsimp only

theorem pput_next (self : Keeps z s) (h : Hdr) (a : Opnd) : NextKeeps z (exec (.pput h a) s) :=
  issue_next self _ _ fun _ g => putPreds_keeps g _ _

theorem pickerChoice_next (self : Keeps z s) (core : Nat) (order : List Nat) : NextKeeps z (exec (.pickerChoice core order) s) :=
  NextKeeps.next (State.pickerChoice_keeps self _ _)

theorem moduleReset_next (self : Keeps z s) : NextKeeps z (exec .moduleReset s) := by
  show NextKeeps z (execModuleReset s)
  unfold execModuleReset
  refine agent_next self (OptKeeps.some ?_)
  split
  · exact State.rebooting_keeps self
  · exact State.modThread_keeps (Keeps.lit self) _ _

theorem refill_next (self : Keeps z s) (h : Hdr) (d : Opnd) : NextKeeps z (exec (.refill h d) s) := by
  refine issue_next self _ _ fun x hx => ?_
  split
  · exact hx
  · split
    · exact hx
    · dsimp only
      split
      · next e =>
        split at e
        · cases e
        · exact OptKeeps.of e (State.giveItem_keeps hx _ _ _)
      · exact State.modCore_keeps hx _ _

theorem copyEngineTurn_next (self : Keeps z s) (o : Owner) (ch : Nat) : NextKeeps z (exec (.copyEngineTurn o ch) s) := by
  refine agent_next self ?_
  split
  · next c p _ _ =>
    split
    · have g : Keeps z { s with ceLast := s.ceLast.put (p / 16) p } := Keeps.lit self
      exact OptKeeps.getD (State.deliverCopy_keeps g _ _ _ _) g
    · trivial
  · trivial

theorem syswr_next (self : Keeps z s) (h : Hdr) (v : Opnd) (imm : BitVec 14) : NextKeeps z (exec (.syswr h v imm) s) := by
  refine issue_next self _ _ fun x g => ?_
  dsimp only
  split
  · next e => exact ⟨g.mem, fun y => absurd (g.chain y) (by simp [e])⟩
  · exact State.sysWrite_keeps g _ _

theorem kunwrap_next (self : Keeps z s) (h : Hdr) (d a : Opnd) : NextKeeps z (exec (.kunwrap h d a) s) := by
  refine issue_next self _ _ fun x g => withBuffer_keeps g _ _ _ _ fun y bs g => ?_
  extract_lets eid kind
  clear_value kind eid
  split
  · exact g
  · split
    · exact answer_keeps g _ _
    · generalize gcmOpen _ _ _ _ _ = r
      cases r with
      | none => exact answer_keeps g _ _
      | some k => exact answer_keeps (State.modEncl_keeps g _ _) _ _

theorem pevict_next (self : Keeps z s) (h : Hdr) (d a : Opnd) : NextKeeps z (exec (.pevict h d a) s) := by
  refine issue_next self _ _ fun x g => onPage_keeps g _ _ _ fun s r e lev at_ ent g => ?_
  extract_lets f sp version
  split
  · exact answer_keeps g _ _
  · split
    · exact answer_keeps g _ _
    · split
      · exact answer_keeps g _ _
      · refine Res.Keeps.cond trivial ?_
        split
        · next e => exact bufferFault_keeps (MemRes.Keeps.ofFault e (probeBytes_keeps g _ _ _ _)) _ _
        · next e => exact MemRes.Keeps.ofDevice e (probeBytes_keeps g _ _ _ _)
        · next y _ e =>
          have hy := MemRes.Keeps.ofOk e (probeBytes_keeps g _ _ _ _)
          have hout := fun v f p at_ w => State.recall_keeps
            (State.putEntry_keeps (State.setPot_keeps (State.modEncl_keeps hy r.eid v) f p) at_ w) f
          dsimp only
          refine Res.Keeps.cond (answer_keeps (hout _ _ _ _ _) _ _) ?_
          split
          · exact answer_keeps (State.poisonFrame_keeps (hout _ _ _ _ _) _ _ _ _ _ _) _ _
          · generalize gcmSeal _ _ _ _ = c
            exact storeBuffer_keeps (State.scrubFor_keeps (State.modEncl_keeps (Keeps.lit (hout _ _ _ _ _)) _ _) _ _ _ _)
              _ _ _ fun _ g => answer_keeps g _ _

theorem pload_next (self : Keeps z s) (h : Hdr) (d a : Opnd) : NextKeeps z (exec (.pload h d a) s) := by
  refine issue_next self _ _ fun x g => onPage_keeps g _ _ _ fun s r e lev at_ ent g => ?_
  extract_lets f
  split
  · exact answer_keeps g _ _
  · split
    · exact answer_keeps g _ _
    · split
      · exact answer_keeps g _ _
      · split
        · exact answer_keeps g _ _
        · refine withBuffer_keeps g _ _ _ _ fun y bs g => ?_
          split
          · exact answer_keeps g _ _
          · generalize gcmOpen _ _ _ _ _ = p
            cases p with
            | none => exact answer_keeps g _ _
            | some plain =>
              dsimp only
              split
              · exact answer_keeps g _ _
              · exact withFrame_keeps g _ _ _ _ _ fun x gx => answer_keeps (State.putEntry_keeps (State.homeWrite_keeps
                  (State.scrubFrame_keeps (State.modEncl_keeps gx _ _) _) _ _) _ _) _ _

theorem refillItem_next (self : Keeps z s) (team thread : Nat) : NextKeeps z (exec (.refillItem team thread) s) := by
  refine agent_next self ?_
  split
  · split
    · trivial
    · extract_lets answer
      have ha : ∀ f, answer = some f → ∀ x, Keeps z x → Keeps z (f x) := by
        intro f e x hx
        dsimp only [answer] at e
        split at e
        · cases e
        · split at e
          · cases e
            exact OptKeeps.getD (State.giveItem_keeps hx _ _ _) hx
          · split at e
            · cases e
              exact Keeps.lit hx
            · cases e
      clear_value answer
      cases answer with
      | none => trivial
      | some f => exact State.onThread_keeps self _ _ fun x hx => State.wakeFrom_keeps (State.dropAsk_keeps (ha f rfl x hx) _ _) _
  · trivial


theorem exec_next (self : Keeps z s) (i : Instr) : NextKeeps z (exec i s) := by
  cases i with
  | nop =>
    exact issue_next self _ _ fun _ g => g
  | add64 | sub64 | mulw | mulws =>
    exact issue_next self _ _ fun _ g => State.put2_keeps g ..
  | movi | pget | sel | add | sub | mul | mulhi | mulhu | and | or | xor | andn | shl | shr | sra | min | max
  | minu | maxu | adds | subs | lea | bfe | prmb | addi | andi | ori | xori | shli | shri | srai | muli | mov
  | clz | popc | brev | abs | neg | not | sext8 | sext16 | zext8 | zext16 | ctz | mad | bfi =>
    exact issue_next self _ _ fun _ g => State.put_keeps g ..
  | fcmp | cmp | cmpi | pand | por | pxor | pandn | pnot =>
    exact issue_next self _ _ fun _ g => State.putPred_keeps g ..
  | dcmp =>
    exact issue_next self _ _ fun _ g => State.postPred_keeps g ..
  | fcvtF64F32 | fcvtF64S32 | fcvtF64N32 =>
    exact issue_next self _ _ fun _ g => State.raise_keeps (State.put2_keeps g _ _ _) _
  | fcvtF32F64 | fcvtS32F64Fixed | fcvtS32F64 | fcvtN32F64Fixed | fcvtN32F64 | fabs | fneg | ffloor | fceil
  | ftrunc | frint | fclass | fcvtF16F32 | fcvtBf16F32 | fcvtF32F16 | fcvtF32Bf16 | fcvtF32S32 | fcvtF32N32
  | fcvtS32F32Fixed | fcvtS32F32 | fcvtN32F32Fixed | fcvtN32F32 | fadd | fsub | fmul | fmin | fmax | hadd2
  | hmul2 | badd2 | bmul2 | pkF16 | pkB16 | fscl | ffma | ffnma | hfma2 | bfma2 | dot4E43 | dot4E52 | dot8E21
  | dot2B16 | dot2F16 | dot4S8 | dot4N8 | dot8S4 =>
    exact issue_next self _ _ fun _ g => State.putF_keeps g ..
  | pkn =>
    exact pkn_next self ..
  | upkn =>
    exact upkn_next self ..
  | barinit =>
    exact barinit_next self ..
  | bararv | bararvx =>
    refine issue_next self _ _ fun s self => ?_
    with_reducible repeat' first
        | assumption | apply Res.Keeps.ok | apply Res.Keeps.trap | apply Res.Keeps.hold | apply State.postTo_keeps
        | apply State.arrive_keeps | split | dsimp only
  | barxb =>
    exact barxb_next self ..
  | barwait =>
    exact barwait_next self ..
  | bartst =>
    exact bartst_next self ..
  | barinv =>
    exact barinv_next self ..
  | wptr | id | frcp | frsq | fsqrt | fex2 | flg2 | fsinp | fcosp | ftanh | fsigm =>
    exact issue_next self _ _ fun _ g => State.postTo_keeps g ..
  | ldB | ldBs | ldH | ldHs | ldW | ldD | ldQ | ldxW | ldAcqW | ldAcqD =>
    exact issue_next self _ _ fun _ g => loadGlobal_keeps g ..
  | stB | stH | stW | stD | stQ | stxW =>
    exact issue_next self _ _ fun _ g => storeGlobal_keeps g ..
  | ldcW | ldcQ =>
    exact issue_next self _ _ fun _ g => loadConst_keeps g ..
  | ldsW | ldsD | ldsQ | ldsH | ldsB =>
    exact issue_next self _ _ fun _ g => loadSpad_keeps g ..
  | stsW | stsD | stsQ | stsH | stsB =>
    exact issue_next self _ _ fun _ g => storeSpad_keeps g ..
  | stRelW | stRelD =>
    exact issue_next self _ _ fun _ g => storeRel_keeps g ..
  | prf =>
    exact prf_next self ..
  | cwb =>
    exact cwb_next self ..
  | cinv | cwbiAll =>
    refine issue_next self _ _ fun s self => ?_
    with_reducible repeat' first
        | assumption | apply Res.Keeps.ok | apply Res.Keeps.hold | apply State.evictLines_keeps | split | dsimp only
  | fence =>
    exact fence_next self ..
  | atomAdd | atomMin | atomMax | atomMinu | atomMaxu | atomAnd | atomOr | atomXor | atomXchg | atomCas
  | atomFadd =>
    exact issue_next self _ _ fun _ g => atomGlobal_keeps g ..
  | atomsAdd | atomsMin | atomsMax | atomsCas =>
    exact issue_next self _ _ fun _ g => atomSpad_keeps g ..
  | br =>
    exact br_next self ..
  | call | callr =>
    refine issue_next self _ _ fun s self => ?_
    with_reducible repeat' first | assumption | apply transfer_keeps | apply linkTo_keeps | intro _
  | jmp | ret =>
    exact issue_next self _ _ fun _ g => transfer_keeps g _ _ id fun _ g => g
  | exit =>
    exact exit_next self ..
  | trap | bkpt =>
    refine issue_next self _ _ fun s self => ?_
    with_reducible repeat' first | assumption | apply Res.Keeps.moved | apply State.takeTrap_keeps
  | prio =>
    exact prio_next self ..
  | yield =>
    exact yield_next self ..
  | interruptEntry =>
    exact interruptEntry_next self ..
  | fetchw =>
    exact fetchw_next self ..
  | cdecl | crst =>
    refine issue_next self _ _ fun s self => ?_
    with_reducible repeat' first | assumption | apply Res.Keeps.ok | apply Res.Keeps.trap | apply State.modTeam_keeps | split | dsimp only
  | shfl | vote | rdx =>
    refine issue_next self _ _ fun s self => ?_
    with_reducible repeat' first | assumption | apply Res.Keeps.trap | apply signCollective_keeps | split | dsimp only
  | mma | mmaj =>
    exact issue_next self _ _ fun _ g => signMatrix_keeps g ..
  | mzero =>
    exact mzero_next self ..
  | mload =>
    exact mload_next self ..
  | mdrain =>
    exact mdrain_next self ..
  | mfence =>
    exact mfence_next self ..
  | mwait =>
    exact mwait_next self ..
  | cpyGs | cpySg | cpyl | cpyg =>
    exact issue_next self _ _ fun _ g => issueCopy_keeps g ..
  | channelBind =>
    exact channelBind_next self ..
  | copyStart =>
    exact copyStart_next self ..
  | copyFixupReplay =>
    exact copyFixupReplay_next self ..
  | timerAssert =>
    exact timerAssert_next self ..
  | sysrd =>
    exact sysrd_next self ..
  | tsrd | dadd | dmul | dfma =>
    exact issue_next self _ _ fun _ g => State.postTo2_keeps g ..
  | ecall =>
    exact ecall_next self ..
  | eret =>
    exact eret_next self ..
  | tlbi =>
    exact tlbi_next self ..
  | passPost | bReadEnd =>
    refine agent_next self ?_
    with_reducible repeat' first
        | assumption | apply OptKeeps.some | apply OptKeeps.none | apply State.modQuad_keeps | apply State.restamp_keeps | split
        | dsimp only
  | bReadStart =>
    exact bReadStart_next self ..
  | passGrant =>
    exact passGrant_next self ..
  | passComplete =>
    exact passComplete_next self ..
  | governorWindow =>
    exact governorWindow_next self ..
  | mgovcfgWrite =>
    exact mgovcfgWrite_next self ..
  | mloadMovementEnd =>
    exact mloadMovementEnd_next self ..
  | energyTick =>
    exact energyTick_next self ..
  | interlockedResultWrite =>
    exact interlockedResultWrite_next self ..
  | lineLeaseExpiry =>
    exact lineLeaseExpiry_next self ..
  | epochRollover =>
    exact epochRollover_next self ..
  | writeBack =>
    exact writeBack_next self ..
  | l1Fill =>
    exact l1Fill_next self ..
  | counterGrant =>
    exact counterGrant_next self ..
  | pageTableWalk =>
    exact pageTableWalk_next self ..
  | faultRecordWrite =>
    exact faultRecordWrite_next self ..
  | operandLogReplay =>
    exact operandLogReplay_next self ..
  | atomicUnitServe =>
    exact atomicUnitServe_next self ..
  | drainComplete =>
    exact drainComplete_next self ..
  | drainFixupReplay =>
    exact drainFixupReplay_next self ..
  | ecreate =>
    exact ecreate_next self ..
  | eenter =>
    exact eenter_next self ..
  | eexit =>
    exact eexit_next self ..
  | ereport =>
    exact ereport_next self ..
  | edestroy =>
    exact edestroy_next self ..
  | kwrap =>
    exact kwrap_next self ..
  | krevoke =>
    exact krevoke_next self ..
  | kload =>
    exact kload_next self ..
  | potset =>
    exact potset_next self ..
  | potrd =>
    exact potrd_next self ..
  | pmap =>
    exact pmap_next self ..
  | paccept =>
    exact paccept_next self ..
  | pdiscard =>
    exact pdiscard_next self ..
  | punmap =>
    exact punmap_next self ..
  | teamPlace =>
    exact teamPlace_next self ..
  | clusterPlace =>
    exact clusterPlace_next self ..
  | teamDone =>
    exact teamDone_next self ..
  | splitRequest =>
    exact splitRequest_next self ..
  | splitRetry =>
    exact splitRetry_next self ..
  | walkerDispense =>
    exact walkerDispense_next self ..
  | fetchwServe =>
    exact fetchwServe_next self ..
  | launchComplete =>
    exact launchComplete_next self ..
  | terminalTrapEnd =>
    exact terminalTrapEnd_next self ..
  | kickTake =>
    exact kickTake_next self ..
  | entryStart =>
    exact entryStart_next self ..
  | markComplete =>
    exact markComplete_next self ..
  | quiesceRequest | quiesceRelease | rasstatClear | linkTrain | lmsTreeRenew =>
    refine agent_next self ?_
    with_reducible repeat' first | assumption | apply OptKeeps.some | apply OptKeeps.none | split | apply Keeps.lit
  | preemptResume =>
    exact preemptResume_next self ..
  | preemptSoft =>
    exact preemptSoft_next self ..
  | preemptHalt =>
    exact preemptHalt_next self ..
  | preemptKill =>
    exact preemptKill_next self ..
  | softRequestEnd =>
    exact softRequestEnd_next self ..
  | g1Deadline =>
    exact g1Deadline_next self ..
  | g2Deadline =>
    exact g2Deadline_next self ..
  | timeSliceExpiry =>
    exact timeSliceExpiry_next self ..
  | contextRestore =>
    exact contextRestore_next self ..
  | partitionResize =>
    exact partitionResize_next self ..
  | quadsvcOut =>
    exact quadsvcOut_next self ..
  | quadsvcIn =>
    exact quadsvcIn_next self ..
  | ceownWrite =>
    exact ceownWrite_next self ..
  | blkmove =>
    exact blkmove_next self ..
  | scrubEnd =>
    exact scrubEnd_next self ..
  | keyRotation =>
    exact keyRotation_next self ..
  | sweep =>
    exact sweep_next self ..
  | injtagArm | startInterfaceRequest =>
    refine agent_next self ?_
    with_reducible repeat' first | assumption | apply OptKeeps.some | apply OptKeeps.none | split | apply Keeps.lit | dsimp only
  | tdispDmaRequest =>
    exact tdispDmaRequest_next self ..
  | linkFlitReceive =>
    exact linkFlitReceive_next self ..
  | tripletDissent =>
    exact tripletDissent_next self ..
  | resyncEnd =>
    exact resyncEnd_next self ..
  | tripletStop =>
    exact tripletStop_next self ..
  | tripletRestart =>
    exact tripletRestart_next self ..
  | uncorrectableError =>
    exact uncorrectableError_next self ..
  | quadAutoRemove =>
    exact quadAutoRemove_next self ..
  | tandemFailover | tandemSimplexFailure =>
    refine agent_next self ?_
    with_reducible repeat' first | assumption | apply OptKeeps.some | apply OptKeeps.none | apply State.tandemDown_keeps | split
  | tandemRejoin =>
    exact tandemRejoin_next self ..
  | fwupd =>
    exact fwupd_next self ..
  | notice =>
    exact notice_next self ..
  | noticeDeadline =>
    exact noticeDeadline_next self ..
  | checkpoint =>
    exact checkpoint_next self ..
  | restore =>
    exact restore_next self ..
  | migrateOut | migrateIn =>
    refine agent_next self ?_
    with_reducible repeat' first | assumption | apply OptKeeps.none | apply State.moveCommand_keeps | split
  | migrationReady =>
    exact migrationReady_next self ..
  | migrationGo =>
    exact migrationGo_next self ..
  | migrationStreamFail =>
    exact migrationStreamFail_next self ..
  | getVersion | getCapabilities | getDigests =>
    refine agent_next self ?_
    with_reducible repeat' first | assumption | apply State.answerSpdm_keeps | apply serve_keeps | intro _
  | negotiateAlgorithms | challenge | getMeasurements =>
    refine agent_next self ?_
    with_reducible repeat' first | assumption | apply State.answerSpdm_keeps | apply serve_keeps | split | intro _
  | getCertificate =>
    exact getCertificate_next self ..
  | keyExchange =>
    exact keyExchange_next self ..
  | finish =>
    exact finish_next self ..
  | heartbeat =>
    exact heartbeat_next self ..
  | endSession =>
    exact endSession_next self ..
  | unsupportedRequest =>
    exact unsupportedRequest_next self ..
  | sessionTimeout =>
    exact sessionTimeout_next self ..
  | spdmrly =>
    exact spdmrly_next self ..
  | pstateWrite =>
    exact pstateWrite_next self ..
  | pstateChangeEnd =>
    exact pstateChangeEnd_next self ..
  | throttleStep =>
    exact throttleStep_next self ..
  | power =>
    exact power_next self ..
  | package =>
    exact package_next self ..
  | hcstart =>
    exact hcstart_next self ..
  | msiWrite =>
    exact msiWrite_next self ..
  | linkDown =>
    exact linkDown_next self ..
  | partWrite =>
    exact agent_next self (OptKeeps.some (State.writePart_keeps self _ _))
  | injtagDisarm | frlostClear | ecccntClear | sevcntClear =>
    exact agent_next self (OptKeeps.some (Keeps.lit self))
  | trstatClear =>
    exact agent_next self (OptKeeps.some (State.modTrip_keeps self _ _))
  | registerWrite =>
    exact agent_next self (OptKeeps.some (State.writeRegister_keeps self _ _))
  | pput => exact pput_next self ..
  | pickerChoice => exact pickerChoice_next self ..
  | refill => exact refill_next self ..
  | copyEngineTurn => exact copyEngineTurn_next self ..
  | syswr => exact syswr_next self ..
  | kunwrap => exact kunwrap_next self ..
  | pevict => exact pevict_next self ..
  | pload => exact pload_next self ..
  | refillItem => exact refillItem_next self ..
  | moduleReset => exact moduleReset_next self ..

end Sys2Proof.Machine
end

section
/-! SUPPORT. Every turn keeps the canonical form of memory and leaves no chain open, a chain of several words among them; the step does
therefore (assumption 5). -/

namespace Sys2Proof.Machine

-- Declarations of this section are elaborated in turn, which bounds the memory the text takes.
set_option Elab.async false

variable {z s : State}

/-! Chains of several words: while their words issue a chain is open, so only the memory is followed; each ends it. -/

theorem stateOr_exec_mem (hs : Memory.wf z.mem = true → Memory.wf s.mem = true) (i : Instr) {t : State}
    (ht : Memory.wf z.mem = true → Memory.wf t.mem = true) : Memory.wf z.mem = true → Memory.wf (stateOr (exec i s) t).mem = true := by
  intro hz
  cases e : exec i s with
  | next u => exact exec_keeps (Keeps.refl s) i u e (hs hz)
  | fault => exact ht hz
  | refused => exact ht hz

theorem wordsInTurn_mem (s₀ : State) (l : List ChainWord) {t : State} (ht : Memory.wf z.mem = true → Memory.wf t.mem = true) :
    Memory.wf z.mem = true → Memory.wf (wordsInTurn s₀ t l).mem = true := by
  unfold wordsInTurn
  induction l generalizing t with
  | nil => exact ht
  | cons x l ih =>
    refine ih ?_
    dsimp only
    split
    · split
      · exact ht
      · exact stateOr_exec_mem (s := { t with th := { t.th with w := x.at_, readyAt := t.time } }) ht _ ht
    · exact ht

theorem chainWords_mem (hs : Memory.wf z.mem = true → Memory.wf s.mem = true) (l : List ChainWord) :
    Memory.wf z.mem = true → Memory.wf (chainWords s l).mem = true := by
  unfold chainWords
  have hFirst := wordsInTurn_mem s (l.filter fun x => !x.last) hs
  have hLast := wordsInTurn_mem s (l.filter (·.last)) hFirst
  dsimp only
  split
  · exact hFirst
  · split
    · exact hLast
    · exact hLast

theorem Keeps.unchained (h : Memory.wf z.mem = true → Memory.wf s.mem = true) : Keeps z { s with chain := none } := ⟨h, fun _ => rfl⟩

theorem sysWrites_mem (l : List (Nat × Word)) (hs : Memory.wf z.mem = true → Memory.wf s.mem = true) :
    Memory.wf z.mem = true → Memory.wf (l.foldl (fun s p => s.sysWrite p.1 p.2) s).mem = true := fun hz =>
  (Keeps.foldl (fun _ p h => State.sysWrite_keeps h p.1 p.2) (Keeps.refl s)).mem (hs hz)

theorem State.uncharge_keeps (h : Keeps z s) (s₀ : State) : Keeps z (s₀.uncharge s) := Keeps.lit h

theorem unissued_keeps {s₀ : State} (h : Keeps z s₀) (s : State) : Keeps z (unissued s₀ s) := Keeps.lit h

theorem startChain_mem (h : Keeps z s) (is : List Instr) : Memory.wf z.mem = true → Memory.wf (startChain s is).mem = true :=
  (Keeps.foldl (fun _ i g => begin__keeps g i) h).mem

theorem chainTrap_keeps {s₀ : State} (h : Keeps z s₀) (hs : Memory.wf z.mem = true → Memory.wf s.mem = true)
    (l : List ChainWord) (c : ChainCtx) (t : Trap) (v : Dword) (w : Word) (target : Bool) : Keeps z (chainTrap s₀ s l c t v w target) := by
  unfold chainTrap
  extract_lets before base original alone taken stood written
  have hBefore := chainWords_mem hs (l.takeWhile fun x => x.at_ ≠ w)
  have hBase : Memory.wf z.mem = true → Memory.wf base.mem = true := by
    dsimp only [base]
    split
    · exact hBefore
    · exact hs
  have hStood : Memory.wf z.mem = true → Memory.wf stood.mem = true := by
    dsimp only [stood]
    split
    · exact chainWords_mem (s := { base with chain := some alone }) hBase _
    · exact hBase
  refine State.endInTrap_keeps h (State.uncharge_keeps (Keeps.unchained ?_) _) _ _ _
  dsimp only [written]
  split
  · exact sysWrites_mem _ hStood
  · exact hStood

theorem runChain_keeps (h : Keeps z s) (l : List ChainWord) : Keeps z (runChain s l) := by
  unfold runChain
  extract_lets is started first s'
  have hStart := startChain_mem h is
  have hWords : Memory.wf z.mem = true → Memory.wf s'.mem = true := chainWords_mem hStart l
  split
  · exact h
  · split
    · exact State.endInTrap_keeps h (Keeps.unchained hStart) _ _ _
    · split
      · next e => exact ⟨hWords, fun _ => e⟩
      · next c e =>
        split
        · exact unissued_keeps h _
        · split
          · exact chainTrap_keeps h hStart _ _ _ _ _ _
          · split
            · exact Keeps.unchained hWords
            · have hEnd : Keeps z { c.sys.foldl (fun s p => s.sysWrite p.1 p.2) s' with chain := none } :=
                Keeps.unchained (sysWrites_mem _ hWords)
              dsimp only
              split
              · exact State.uncharge_keeps hEnd _
              · exact hEnd

/-! The turn of a thread -/

theorem State.idle_keeps (h : Keeps z s) : Keeps z s.idle := by
  unfold State.idle
  split
  · exact Keeps.lit h
  · exact h

theorem State.joinController_keeps (h : Keeps z s) (is : List Instr) : Keeps z (s.joinController is) := by
  unfold State.joinController
  split
  · exact Keeps.lit h
  · exact h

theorem afterIssue_keeps (h : Keeps z s) (is : List Instr) (s₀ : State) : Keeps z (afterIssue is s₀ s) := by
  unfold afterIssue
  split
  · exact State.idle_keeps (State.joinController_keeps h is)
  · split
    · exact State.count_keeps (Keeps.lit h) _ _ _ _
    · exact State.joinBundle_keeps h _ _

theorem fetchTrap_keeps (h : Keeps z s) (f : TFault) (w : Word) : Keeps z (fetchTrap s f w) := by
  unfold fetchTrap
  dsimp only
  split
  · next e => exact State.endInTrap_keeps h (OptKeeps.of e (fetchFault_keeps (Keeps.lit h) _ _ _)) _ _ _
  · exact State.idle_keeps (fetchRecord_keeps h _ _ _)

theorem issueChain_next (h : Keeps z s) : NextKeeps z (issueChain s) := by
  have hc := State.chainAt_keeps h
  unfold issueChain
  split
  · next e => exact NextKeeps.next (fetchTrap_keeps (Chained.Keeps.ofFault e hc) _ _)
  · next s' _ e =>
    have g : Keeps z s' := Chained.Keeps.ofOk e hc
    split
    · exact NextKeeps.next (State.endInTrap_keeps g (Keeps.lit g) _ _ _)
    · next i _ _ =>
      split
      · next e => exact NextKeeps.next (afterIssue_keeps ((exec_next g i).keeps _ e) _ _)
      · exact exec_next g i
    · exact NextKeeps.next (afterIssue_keeps (runChain_keeps g _) _ _)

theorem State.timers_keeps (h : Keeps z s) : Keeps z s.timers := by
  unfold State.timers
  split
  · exact State.tick_keeps (State.tick_keeps h _ _) _ _
  · exact h

theorem State.irqNow_keeps (h : Keeps z s) : OptKeeps z s.irqNow := by
  unfold State.irqNow
  split
  · exact State.takeIrq_keeps h _
  · trivial

theorem State.catchUp_keeps (h : Keeps z s) : Keeps z s.catchUp :=
  State.noteReady_keeps (State.completeAll_keeps (State.tickAll_keeps (State.accrueAll_keeps (State.expireLeases_keeps h))))

theorem State.passTo_keeps (h : Keeps z s) (t : Nat) : Keeps z (s.passTo t) := by
  unfold State.passTo
  split
  · exact State.catchUp_keeps (Keeps.lit h)
  · exact h

theorem State.atTurn_keeps (h : Keeps z s) : Keeps z s.atTurn := by
  unfold State.atTurn
  refine State.timers_keeps ?_
  split
  · exact h
  · exact State.passTo_keeps h _

theorem runThread_next (h : Keeps z s) : NextKeeps z (runThread s) := by
  have g := State.atTurn_keeps h
  unfold runThread
  extract_lets u
  split
  · next e =>
    refine NextKeeps.next ?_
    split
    · exact State.idle_keeps g
    · exact State.freshen_keeps (OptKeeps.of e (State.irqNow_keeps g))
  · split
    · exact NextKeeps.next (State.idle_keeps g)
    · split
      · refine NextKeeps.next ?_
        split
        · exact State.idle_keeps g
        · exact State.freshen_keeps (State.takeTrap_keeps (Keeps.lit g) _ _ _)
      · exact issueChain_next g

theorem runPicker_next (h : Keeps z s) (core : Nat) : NextKeeps z (runPicker core s) := by
  refine NextKeeps.next ?_
  split
  · exact State.idle_keeps h
  · exact State.pickerChoice_keeps h _ _

theorem runCurrent_next (h : Keeps z s) : NextKeeps z (runCurrent s) := by
  unfold runCurrent
  split
  · exact runThread_next h
  · exact runPicker_next h _

/-! Stores to the anchor die, each a form of an agent's -/

theorem State.writePreempt_next (h : Keeps z s) (v : Nat) : NextKeeps z (s.writePreempt v) := by
  unfold State.writePreempt
  dsimp only
  split
  · exact NextKeeps.next h
  · split
    · exact exec_next h (.preemptResume _)
    · exact exec_next h (.preemptSoft _)
    · exact exec_next h (.preemptHalt _)
    · exact exec_next h (.preemptKill _)

theorem State.writeQuadsvc_next (h : Keeps z s) (v : Nat) : NextKeeps z (s.writeQuadsvc v) := by
  unfold State.writeQuadsvc
  split
  · exact NextKeeps.next h
  · split
    · exact exec_next h (.quadsvcOut _ _)
    · exact exec_next h (.quadsvcIn _ _)

theorem State.writeInjtag_next (h : Keeps z s) (v : Nat) : NextKeeps z (s.writeInjtag v) := by
  unfold State.writeInjtag
  split
  · exact NextKeeps.next h
  · split
    · exact exec_next h (.injtagArm (.ofNat 42 (v / 64)))
    · exact exec_next h (.injtagDisarm (.ofNat 42 (v / 64)))

theorem NextKeeps.ite {c : Prop} [Decidable c] {a b : Host.Outcome State Fault Refusal} (ha : NextKeeps z a) (hb : NextKeeps z b) :
    NextKeeps z (if c then a else b) := by
  split
  · exact ha
  · exact hb

theorem State.writeAnchor_next (h : Keeps z s) (off : Nat) (x : Dword) : NextKeeps z (s.writeAnchor off x) := by
  have hReg := exec_next h (.registerWrite off x)
  unfold State.writeAnchor
  extract_lets o v clear
  have hClear : ∀ f : State → Host.Outcome State Fault Refusal, NextKeeps z (f s) → NextKeeps z (clear f) :=
    fun f hf => hf.ite (NextKeeps.next h)
  split
  · exact (hClear _ (exec_next h .frlostClear)).ite hReg
  · exact State.writeInjtag_next h _
  · exact (exec_next h (.partWrite _ _)).ite <| (State.writePreempt_next h _).ite <| (State.writeQuadsvc_next h _).ite <|
      (exec_next h (.ceownWrite _ _)).ite <| (exec_next h (.blkmove _)).ite hReg
  · exact (hClear _ (exec_next h .trstatClear)).ite <| (hClear _ (exec_next h .ecccntClear)).ite <|
      (exec_next h (.rasstatClear _)).ite <| (NextKeeps.next (State.startUpdate_keeps h _)).ite hReg
  · exact (exec_next h (.pstateWrite _ _)).ite <| (exec_next h (.hcstart _)).ite <| (hClear _ (exec_next h .sevcntClear)).ite <|
      (exec_next h (.spdmrly _)).ite hReg
  · exact hReg

theorem State.landStore_next (h : Keeps z s) (pa : Nat) (v : Dword) : NextKeeps z (s.landStore pa v) := by
  unfold State.landStore
  split
  · exact exec_next h (.kickTake _ _)
  · exact State.writeAnchor_next h _ _
  · exact NextKeeps.next h

/-! Turns -/

theorem State.notReady_keeps (h : Keeps z s) : Keeps z s.notReady := Keeps.lit h

theorem stateOr_keeps {r : Host.Outcome State Fault Refusal} (hr : NextKeeps z r) (h : Keeps z s) : Keeps z (stateOr r s) := by
  cases r with
  | next t => exact hr.keeps t rfl
  | fault => exact h
  | refused => exact h

theorem tryBundle_keeps (h : Keeps z s) (l : List ThreadId) : Keeps z (tryBundle s l).1 := by
  induction l generalizing s with
  | nil => exact h
  | cons i rest ih =>
    unfold tryBundle
    dsimp only
    split
    · exact ih h
    · next e =>
      have g := OptKeeps.of e (State.switchTo_keeps h i)
      split
      · exact ih (State.notReady_keeps (Keeps.lit (stateOr_keeps (runThread_next g) g)))
      · exact ih h

theorem runBundle_next (h : Keeps z s) (core : Nat) (order : List Nat) (l : List ThreadId) : NextKeeps z (runBundle core order l s) := by
  have ht := tryBundle_keeps h l
  unfold runBundle
  split
  · exact NextKeeps.next h
  · next e =>
    rw [e] at ht
    exact NextKeeps.next (State.modCore_keeps (Keeps.lit ht) _ _)
  · next rest _ _ =>
    split
    · exact ⟨fun t e => by cases e⟩
    · next s' e =>
      have g : Keeps z s' := OptKeeps.of e (State.switchTo_keeps h _)
      have hr := runThread_next (s := { s' with agenda := s.memberTurns core rest ++ s.agenda }) (Keeps.lit g)
      split
      · next e => exact NextKeeps.next (State.count_keeps (hr.keeps _ e) _ _ _ _)
      · exact hr

theorem runMember_next (h : Keeps z s) (core lane launch : Nat) (w : Word) (i : ThreadId) :
    NextKeeps z (runMember core lane launch w i s) := by
  unfold runMember
  split
  · exact NextKeeps.next h
  · next s' e =>
    have hr := runThread_next (OptKeeps.of e (State.switchTo_keeps h i))
    split
    · next t e =>
      have ht : Keeps z t := hr.keeps t e
      have hWaits : Keeps z (State.notReady { t with time := s.time }) := State.notReady_keeps (Keeps.lit ht)
      refine (NextKeeps.next ht).ite ?_
      dsimp only
      split
      · exact NextKeeps.next (Keeps.lit hWaits)
      · exact NextKeeps.next hWaits
    · exact hr

theorem State.postpone_keeps (h : Keeps z s) (t : Turn) : Keeps z (s.postpone t) := by
  unfold State.postpone
  split
  · exact Keeps.lit h
  · exact Keeps.lit h

theorem State.awaitWord_keeps (h : Keeps z s) (i : ThreadId) : Keeps z (s.awaitWord i) := by
  unfold State.awaitWord
  split
  · exact h
  · exact State.modThread_keeps h _ _

theorem takeTurn_next (h : Keeps z s) (t : Turn) : NextKeeps z (takeTurn t s) := by
  cases t with
  | event e => exact (exec_next h e).ite (NextKeeps.next h)
  | thread i d =>
    unfold takeTurn
    dsimp only
    split
    · next e => exact runCurrent_next (State.passTo_keeps (OptKeeps.of e (State.switchTo_keeps h i)) _)
    · exact ⟨fun t e => by cases e⟩
  | bundle core order l => exact runBundle_next h core order l
  | member core lane launch w i => exact runMember_next h core lane launch w i
  | late i => exact NextKeeps.next (State.modThread_keeps h _ _)
  | store pa v => exact (NextKeeps.next (State.postpone_keeps h _)).ite (State.landStore_next h pa v)
  | unfetched i => exact NextKeeps.next (State.awaitWord_keeps h i)
  | fetched i => exact NextKeeps.next (State.modThread_keeps h _ _)

theorem State.pickFirst_keeps (h : Keeps z s) (core : Nat) : Keeps z (s.pickFirst core) := State.pickerChoice_keeps (Keeps.lit h) _ _

theorem runNext_next (h : Keeps z s) : NextKeeps z (runNext s) := by
  unfold runNext
  split
  · exact NextKeeps.next (State.pickFirst_keeps h _)
  · split
    · exact runCurrent_next h
    · exact takeTurn_next (Keeps.lit h) _

/-- What a step keeps, whatever state it starts from. -/
theorem step_keeps {s t : State} (e : step s = .next t) : Keeps s t := (runNext_next (State.catchUp_keeps (Keeps.refl s))).keeps t e

/-- Settles O60: a step keeps the canonical form of memory and leaves no chain open, which is the invariant. -/
theorem invariantKept : Obligations.InvariantKept := by
  intro s t hInv e
  obtain ⟨hMem, hChain⟩ := hInv
  have h := step_keeps e
  exact ⟨h.mem hMem, h.chain hChain⟩

end Sys2Proof.Machine
end

section
/-! SUPPORT. Completions of the events of translation and protection: scrubs, rotations, sweeps, device requests and flits (R318, R359-R377). -/

namespace Sys2Proof.Machine

-- Declarations of this section are elaborated in turn, which bounds the memory the text takes.
set_option Elab.async false

/-! Scrubs, key rotation and sweeps (R359, R365, R372) -/

theorem scrubEnd_occurs {f : Nat} {s : State} (hstate : (s.pot f).state = .scrub) (hscrub : (s.scrubs.any fun x => x.1 = f) = true)
    {r u : State} {p : Pot} (hr : r = s.scrubFrame f) (hp : p = r.pot f)
    (hu : u = r.setPot f { p with state := if p.guest = 0 then .free else .guest }) :
    Occurs (.scrubEnd f) s (State.blockScrubbed { u with scrubs := u.scrubs.filter (·.1 ≠ f) } f) := by
  subst hu hp hr
  refine occurs_of rfl (if_pos ?_)
  simp only [hstate, hscrub, decide_true, Bool.and_self]

theorem keyRotation_start {eid k : Nat} {e : Encl} {s : State} (he : s.liveEncl eid = some e) (hnew : e.newSlot = none)
    (hk : s.freeSlot = some k) : Occurs (.keyRotation eid) s { s.modEncl eid (fun e => { e with newSlot := some (.ofNat 8 k) }) with
      slots := s.slots.put k { loaded := true, guest := e.guest, eid := .ofNat 16 eid, key := 256 + s.keysMade }
      keysMade := s.keysMade + 1 } := by
  refine occurs_of rfl ?_
  simp only [he, hnew, hk]

theorem keyRotation_end {eid : Nat} {e : Encl} {k : Byte} {s r : State} (he : s.liveEncl eid = some e) (hnew : e.newSlot = some k)
    (hswept : (s.pots.any fun p => p.2.owner.toNat = eid && (p.2.state.isEncl || p.2.state = .migrating) && p.2.slot ≠ k) = false)
    (hheld : (s.waitsForHold fun l => l.slot = e.slot) = false) (hr : r = s.revoke e.slot) :
    Occurs (.keyRotation eid) s (State.modEncl { r with slots := r.slots.put e.slot.toNat {} } eid
      fun e => { e with slot := k, newSlot := none, key := r.slotKey k }) := by
  subst hr
  refine occurs_of rfl ?_
  simp only [he, hnew, hswept, hheld, Bool.or_self, Bool.false_eq_true, if_false]

section Sweep

variable {f d k q : Nat} {e : Encl} {w : Sweep} {s : State}

theorem execSweep_start (dst : Option Nat) (hnone : s.sweeps.find f = none) : exec (.sweep ⟨f, dst⟩) s = agent s (s.startSweep f dst) := by
  change agent s _ = _
  simp only [hnone]

theorem startSweep_rotation {k : Byte} (hpin : s.pinned f = false) (hbusy : s.frameBusy f = false)
    (he : s.encls.find (s.pot f).owner.toNat = some e) (hnew : e.newSlot = some k) (hencl : (s.pot f).state.isEncl = true)
    (hslot : (s.pot f).slot ≠ k) : s.startSweep f none = some { s with sweeps := s.sweeps.put f { q := 0, slot := k } } := by
  unfold State.startSweep
  simp only [hpin, hbusy, he, hnew, hencl, hslot, Bool.or_self, Bool.false_eq_true, ne_eq, not_false_eq_true, decide_true, Bool.and_self,
    if_true, if_false]

theorem startSweep_move (hpin : s.pinned f = false) (hbusy : s.frameBusy f = false)
    (he : s.encls.find (s.pot f).owner.toNat = some e) (hencl : (s.pot f).state = .encl) (hfree : (s.pot d).state = .free)
    (hstack : d / 2 ^ 24 = f / 2 ^ 24) (hdst : s.frameBusy d = false) (hleaf : (s.leafOf f).isSome = true) :
    s.startSweep f (some d) = some (
      State.setPot { s with sweeps := s.sweeps.put f { q := 0, slot := (s.pot f).slot, dst := some d, former := .encl } } f
        { s.pot f with state := .migrating }) := by
  unfold State.startSweep
  simp only [hpin, hbusy, he, hencl, hfree, hstack, hdst, hleaf, Bool.or_self, Bool.not_false, Bool.false_eq_true, decide_true, Bool.and_self,
    if_true, if_false]

theorem sweep_line {dst : Option Nat} {x : Nat} {r : State} (hw : s.sweeps.find f = some w) (hq : w.q < 64)
    (hunit : s.unitHolds ((f * 64 + w.q) / 2) = false) (htag : s.verifies ((f * 64 + w.q) * 64) 64 = true) (hx : x = w.dst.getD f)
    (hr : r = s.grant (x * 64 + w.q)) : Occurs (.sweep ⟨f, dst⟩) s
      (State.inject { r with sweeps := s.sweeps.put f { w with q := w.q + 1 } } (· = f * 64 + w.q)) := by
  subst hr hx
  refine occurs_of rfl ?_
  simp only [hw, hunit, htag, Nat.not_le.mpr hq, Bool.not_true, Bool.false_eq_true, if_false]
  cases w.dst with
  | none => rfl
  | some d => rfl

theorem sweep_end {dst : Option Nat} (hw : s.sweeps.find f = some w) (hq : 64 ≤ w.q) (hdst : w.dst = none) :
    Occurs (.sweep ⟨f, dst⟩) s (State.setPot { s with sweeps := s.sweeps.del f } f
      { s.pot f with slot := w.slot, key := s.slotKey w.slot }) := by
  refine occurs_of rfl ?_
  simp only [hw, hq, if_true, State.endSweep, hdst]

end Sweep

/-! Tag injection and device interfaces (R375, R376) -/

theorem injtagArm_occurs {line : BitVec 42} {e : Encl} {s : State} (he : s.liveEncl (s.pot (line.toNat / 64)).owner.toNat = some e)
    (hstate : (s.pot (line.toNat / 64)).state = .encl ∨ (s.pot (line.toNat / 64)).state = .discarded) (hdebug : e.ctl.getLsbD 8 = true) :
    Occurs (.injtagArm line) s { s with reg := { s.reg with injtag := some line } } := by
  refine occurs_of rfl ?_
  simp only [he, hdebug, Bool.and_true, Bool.or_eq_true, decide_eq_true_eq, hstate, if_true]

section Interface

variable {tdi eid : Nat} {e : Encl} {s : State} {t : Tdi} (ht : Tab.getD s.tdis tdi {} = t) (he : s.liveEncl eid = some e)
include ht he

theorem startInterface_lock (hstate : t.state = .unlocked) (htdi : tdi < 4 * 65536)
    (hroom : (s.tdis.filter fun p => p.1 / 65536 = tdi / 65536 && p.2.bound).length < 16) :
    Occurs (.startInterfaceRequest tdi eid) s { s with
      keysMade := s.keysMade + 1
      tdis := s.tdis.put tdi { state := .locked, eid := eid, guest := e.guest, meas := Config.deviceMeasurement s.fresh tdi
                               ide := some s.keysMade } } := by
  refine occurs_of rfl ?_
  simp only [ht, he, hstate, Nat.not_le.mpr htdi, Nat.not_le.mpr hroom, decide_false, Bool.or_self, Bool.false_eq_true, if_false]

theorem startInterface_run (hstate : t.state = .locked) (heid : t.eid = eid) (hmeas : t.meas ∈ e.devices) :
    Occurs (.startInterfaceRequest tdi eid) s { s with tdis := s.tdis.put tdi { t with state := .run } } := by
  refine occurs_of rfl ?_
  have hlisted : e.devices.contains t.meas = true := List.contains_iff_mem.mpr hmeas
  simp only [ht, he, hstate, heid, hlisted, ne_eq, not_true_eq_false, decide_false, Bool.not_true, Bool.or_self, Bool.false_eq_true, if_false]

theorem startInterface_refused (hstate : t.state = .locked) (hmeas : t.meas ∉ e.devices) :
    exec (.startInterfaceRequest tdi eid) s = .next s := by
  change agent s _ = _
  have hlisted : e.devices.contains t.meas = false := Bool.eq_false_iff.mpr fun h => hmeas (List.contains_iff_mem.mp h)
  simp only [ht, he, hstate, hlisted, Bool.not_false, Bool.or_true, if_true]
  rfl

end Interface

/-! Transfers that are translated whole (R318, R319, R377) -/

section Transfer

variable {s r : State} {by_ : Nat × Nat} {d x : Dma} {at_ : List (Nat × Nat)}

theorem submit_pins (hplan : plan s by_ d.sp d.write (d.data.length + 1) d.va d.data.length = .ok r at_)
    (hroom : r.canPin (planFrames at_) = true) : s.submit by_ d = some ((r.putDma { d with at_ := at_ }).pin (planFrames at_)) := by
  simp only [State.submit, hplan, hroom, if_true]

theorem submit_waits {link : Nat} (hplan : plan s by_ d.sp d.write (d.data.length + 1) d.va d.data.length = .wait r (some link)) :
    s.submit by_ d = some (r.putDma { d with waits := some link }) := by
  simp only [State.submit, hplan]

theorem submit_ends (hplan : plan s by_ d.sp d.write (d.data.length + 1) d.va d.data.length = .bad r) :
    s.submit by_ d = some (r.dropDma d) := by
  simp only [State.submit, hplan]

theorem dmaTurn_first (moves : Bool) (hnew : s.dmas.find? d.same = none) : s.dmaTurn by_ d moves = s.submit by_ d := by
  simp only [State.dmaTurn, hnew]

/-- A transfer that has been translated moves its data and is no longer pinned. -/
theorem dmaTurn_moves (hx : s.dmas.find? d.same = some x) (hready : x.waits = none) (hpieces : x.at_ ≠ [] ∨ x.data = [])
    (hfree : (x.write && x.at_.any fun p => s.lineHeldAt (p.1 / 128)) = false) :
    s.dmaTurn by_ d true = some (transferAt ((s.dropDma x).unpin (planFrames x.at_)) by_ x.sp x.write x.at_ x.va x.data) := by
  have hdone : (x.at_.isEmpty && !x.data.isEmpty) = false := by
    rcases hpieces with h | h
    · simp [h]
    · simp [h]
  simp only [State.dmaTurn, hx, hready, hdone, hfree, Option.isSome_none, Bool.true_and, Bool.false_eq_true, if_false, if_true]

end Transfer

section Request

variable {tdi : Nat} {tbit write : Bool} {va : BitVec 64} {data : List (BitVec 8)} {s : State} {t : Tdi} {by_ : Nat × Nat} {d : Dma}
  (ht : Tab.getD s.tdis tdi {} = t) (hby : (7, tdi % 65536) = by_)
  (hd : ({ tdi := tdi, tbit := tbit, va := BitVec.toNat va, write := write, data := data, at_ := []
           sp := if tbit && t.state = .run then ⟨t.guest, .ofNat 16 t.eid, 0⟩ else ⟨t.guest, 0, s.guestRoot t.guest⟩ } : Dma) = d)
include ht hby hd

/-- A request of an interface that is not in ERROR is a turn of its transfer. -/
theorem exec_tdispDmaRequest_turn (hstate : t.state ≠ .error) :
    exec (.tdispDmaRequest tdi tbit va write data) s = Machine.agent s (s.dmaTurn by_ d true) := by
  subst ht hby hd
  change Machine.agent s _ = _
  simp only [hstate, ne_eq, not_false_eq_true, decide_true, decide_false, Bool.false_and, Bool.false_eq_true, if_false]

theorem tdispDmaRequest_error (hstate : t.state = .error) (hnew : s.dmas.any d.same = false) :
    Occurs (.tdispDmaRequest tdi tbit va write data) s
      (s.terminalRecord (homeOf va.toNat) (faultRec ⟨t.guest, .ofNat 16 t.eid, 0⟩ .dma by_ va.toNat 11 0)) := by
  subst ht hby hd
  refine occurs_of rfl (if_pos ?_)
  rw [hnew, decide_eq_true hstate]
  rfl

end Request

section Flit

variable {link stream eid : Nat} {va : BitVec 64} {data : List (BitVec 8)} {e : Encl} {s : State} {l : Link} {x : Nat × Bool}
  {by_ : Nat × Nat} {d : Dma}
  (hl : Tab.getD s.links link {} = l) (hx : Tab.getD l.streams stream (0, true) = x) (heid : l.localEid stream = eid)
  (hby : (6, link * 4096 + stream % 4096) = by_)
  (hd : ({ tdi := by_.2, tbit := true, va := BitVec.toNat va, write := true, data := data, sp := ⟨e.guest, .ofNat 16 eid, 0⟩, at_ := []
           link := true } : Dma) = d) (he : s.liveEncl eid = some e)

theorem streamKey_isNone (l : Link) (n : Nat) : (l.streamKey n).isNone = l.secret.isNone := Option.isNone_map

include hl hx heid hby he in
theorem linkFlit_bad (hlink : link < 16) (hup : l.up = true) (hkey : l.secret.isSome = true) (hstream : stream < 8192) (hlive : x.2 = true) :
    Occurs (.linkFlitReceive link stream false va data) s
      (State.terminalRecord { s with links := s.links.put link { l with streams := l.streams.put stream (x.1, false) } } (4 + link / 2)
        (faultRec ⟨e.guest, .ofNat 16 eid, 0⟩ .dma by_ va.toNat 16 0)) := by
  subst hl hx heid hby
  refine occurs_of rfl ?_
  have hopen := Option.isNone_eq_false_iff.mpr hkey
  simp only [he, hup, streamKey_isNone, hopen, hlive, Nat.not_le.mpr hlink, Nat.not_le.mpr hstream, decide_false, Bool.not_true, Bool.not_false,
    Bool.false_and, Bool.or_self, Bool.false_eq_true, if_false, if_true]

include hl hx heid hby hd he in
theorem linkFlit_submit (hlink : link < 16) (hup : l.up = true) (hkey : l.secret.isSome = true) (hin : stream < 4096) (hlive : x.2 = true)
    (hnew : s.dmas.any d.same = false) {u : State} (hu : s.submit by_ d = some u) :
    Occurs (.linkFlitReceive link stream true va data) s
      { u with links := u.links.put link { l with streams := l.streams.put stream (x.1 + 1, true) } } := by
  subst hl hx heid hby hd
  refine occurs_of rfl ?_
  have hopen := Option.isNone_eq_false_iff.mpr hkey
  simp only [he, hup, streamKey_isNone, hopen, hlive, hnew, hu, Nat.not_le.mpr hlink, Nat.not_le.mpr hin,
    Nat.not_le.mpr (show stream < 8192 by omega), decide_false, Bool.not_true, Bool.and_false, Bool.or_self, Bool.false_eq_true, if_false,
    Option.map_some]

include hl heid hby hd he in
theorem exec_linkFlit_turn (hin : stream < 4096) {y : Dma} (hy : s.dmas.find? d.same = some y) :
    exec (.linkFlitReceive link stream true va data) s = Machine.agent s (s.dmaTurn by_ d true) := by
  subst hl heid hby hd
  change Machine.agent s _ = _
  have hany := List.any_eq_true.mpr ⟨y, List.mem_of_find?_eq_some hy, List.find?_some hy⟩
  simp only [he, hin, hany, decide_true, Bool.and_self, if_true]

end Flit

/-- Settles O50: each event by the condition and the effect of its arm; requests and flits are turns of one kind of transfer. -/
theorem protectEvents : Obligations.ProtectEvents := by
  unfold Obligations.ProtectEvents
  refine ⟨fun f s hstate hscrub => scrubEnd_occurs hstate hscrub rfl rfl rfl,
    fun eid e s he => ⟨fun hnew k hk => keyRotation_start he hnew hk,
      fun k hnew hswept hheld => keyRotation_end he hnew hswept hheld rfl⟩,
    fun f e s hnone hpin hbusy he =>
      ⟨fun k hnew hencl hslot => occurs_of (execSweep_start none hnone) (startSweep_rotation hpin hbusy he hnew hencl hslot),
        fun d hencl hfree hstack hdst hleaf =>
          occurs_of (execSweep_start (some d) hnone) (startSweep_move hpin hbusy he hencl hfree hstack hdst hleaf)⟩,
    fun f dst w s hw => ⟨fun hq hunit htag x hx => sweep_line hw hq hunit htag hx rfl, fun hq hdst => sweep_end hw hq hdst⟩,
    fun line s => ⟨occurs_of rfl rfl, fun e he hstate hdebug => injtagArm_occurs he hstate hdebug⟩,
    fun tdi eid e s he => ⟨fun hstate htdi hroom => startInterface_lock rfl he hstate htdi hroom,
      fun hstate heid => ⟨startInterface_run rfl he hstate heid, startInterface_refused rfl he hstate⟩⟩,
    fun tdi tbit va write data s => ?request, fun link stream va data e s => ?flit⟩
  case request =>
    intro t agent sp d i
    have hturn := exec_tdispDmaRequest_turn (s := s) (t := t) (d := d) rfl rfl rfl
    refine ⟨fun hnew hstate => ⟨fun r at_ hplan hroom => ?_, fun r link hplan => ?_, fun r hplan => ?_⟩,
      fun x hx hstate hready hpieces hfree => occurs_of (hturn hstate) (dmaTurn_moves hx hready hpieces hfree),
      fun hnew hstate => tdispDmaRequest_error rfl rfl rfl hstate hnew⟩
    · exact occurs_of (hturn hstate) ((dmaTurn_first true hnew).trans (submit_pins hplan hroom))
    · exact occurs_of (hturn hstate) ((dmaTurn_first true hnew).trans (submit_waits hplan))
    · exact occurs_of (hturn hstate) ((dmaTurn_first true hnew).trans (submit_ends hplan))
  case flit =>
    intro l x eid sp agent d put he
    refine ⟨fun hlink hup hkey hstream hlive => ⟨linkFlit_bad rfl rfl rfl rfl he hlink hup hkey hstream hlive,
      fun hin hnew r at_ hplan hroom => ?_⟩, fun y hin hy hready hpieces hfree => ?_⟩
    · exact linkFlit_submit (d := d) rfl rfl rfl rfl rfl he hlink hup hkey hin hlive hnew (submit_pins hplan hroom)
    · exact occurs_of (exec_linkFlit_turn (d := d) rfl rfl rfl rfl he hin hy) (dmaTurn_moves hy hready hpieces hfree)

end Sys2Proof.Machine
end

section
/-! SUPPORT. Completions of the SPDM requests to the root of trust (R402, R444, R446-R449). -/

namespace Sys2Proof.Machine

-- Declarations of this section are elaborated in turn, which bounds the memory the text takes.
set_option Elab.async false

/-! Serving a request (R444, R447, R457) -/

section Serve

variable {s : State} {r x : SpdmReq} {code : Nat} (hcode : r.code.toNat = code) (harrived : s.arrived r = true)
include hcode harrived

theorem serve_unbooted (hboot : s.booted = false) (signs : Bool) (f : State → State) :
    serve s r code signs f = some (s.answerSpdm r [0x13, 0x7F, 0x42, 0]) := by
  simp only [serve, hcode, harrived, hboot, ne_eq, not_true_eq_false, decide_false, Bool.not_true, Bool.not_false, Bool.or_self,
    Bool.false_eq_true, if_false, if_true]
  rfl

variable (hboot : s.booted = true)
include hboot

theorem serve_plain (hheld : s.reg.spdmHeld = none) (f : State → State) : serve s r code false f = some (f s) := by
  simp only [serve, hcode, harrived, hboot, hheld, State.spdmDone, ne_eq, not_true_eq_false, decide_false, Bool.not_true, Bool.not_false,
    Bool.or_self, Bool.false_eq_true, Option.any_none, reduceCtorEq, if_false, if_true]

theorem serve_signs (hheld : s.reg.spdmHeld = none) (hleaf : s.lmsLeft ≠ 0) (f : State → State) :
    serve s r code true f = some (f { s with lmsLeft := s.lmsLeft - 1 }) := by
  simp only [serve, hcode, harrived, hboot, hheld, hleaf, State.spdmDone, ne_eq, not_true_eq_false, decide_false, Bool.not_true,
    Bool.or_self, Bool.false_eq_true, Option.any_none, reduceCtorEq, if_false]

theorem serve_waits (hheld : s.reg.spdmHeld = none) (hleaf : s.lmsLeft = 0) (f : State → State) :
    serve s r code true f = some { s with reg := { s.reg with spdmHeld := some r } } := by
  simp only [serve, hcode, harrived, hboot, hheld, hleaf, State.spdmWait, ne_eq, not_true_eq_false, decide_false, Bool.not_true,
    Bool.or_self, Bool.false_eq_true, Option.any_none, Option.isSome_none, if_false, if_true]

/-- The request that has waited is served when there is a leaf for it. -/
theorem serve_held (hheld : s.reg.spdmHeld = some r) (hleaf : s.lmsLeft ≠ 0) (f : State → State) :
    serve s r code true f = some (f { s with reg := { s.reg with spdmHeld := none }, lmsLeft := s.lmsLeft - 1 }) := by
  simp only [serve, hcode, harrived, hboot, hheld, hleaf, State.spdmDone, ne_eq, not_true_eq_false, decide_false, Bool.not_true,
    Bool.false_and, Bool.or_self, Bool.false_eq_true, Option.any_some, if_false, if_true]

theorem serve_busy (hheld : s.reg.spdmHeld = some x) (hne : x ≠ r) (hx : x.relay = false) (hr : r.relay = false) (signs : Bool)
    (f : State → State) : serve s r code signs f = some (s.answerSpdm r [0x13, 0x7F, 3, 0]) := by
  simp only [serve, hcode, harrived, hboot, hheld, hne, hx, hr, ne_eq, not_true_eq_false, not_false_eq_true, decide_false, decide_true,
    Bool.not_true, Bool.and_false, Bool.or_self, Bool.false_eq_true, Option.any_some, if_false, if_true]
  rfl

theorem serve_other (hheld : s.reg.spdmHeld = some x) (hne : x ≠ r) (hrelay : x.relay ≠ r.relay) (signs : Bool) (f : State → State) :
    serve s r code signs f = none := by
  have heither : (x.relay || r.relay) = true := by
    revert hrelay
    cases x.relay <;> cases r.relay <;> decide
  simp only [serve, hcode, harrived, hboot, hheld, hne, heither, ne_eq, not_true_eq_false, not_false_eq_true, decide_false, decide_true,
    Bool.not_true, Bool.and_true, Bool.or_self, Bool.false_eq_true, Option.any_some, if_false, if_true]

end Serve

/-- A request that stands before a root of trust that has booted, while no other waits for a leaf. -/
structure Asked (r : SpdmReq) (code : Nat) (s : State) : Prop where
  code : r.code.toNat = code
  arrived : s.arrived r = true
  booted : s.booted = true
  free : s.reg.spdmHeld = none

section Requests

variable {s : State} {r : SpdmReq}

theorem Asked.plain {code : Nat} (h : Asked r code s) (f : State → State) : serve s r code false f = some (f s) :=
  serve_plain h.code h.arrived h.booted h.free f

theorem getCapabilities_occurs (h : Asked r 0xE1 s) :
    ∃ bs, Occurs (.getCapabilities r) s (s.answerSpdm r bs) ∧ slice bs 0 4 = [0x13, 0x61, 0, 0] ∧ field bs 8 4 = 0x22F6 := by
  refine ⟨_, occurs_of rfl (h.plain _), rfl, ?_⟩
  show leNat [0xF6, 0x22, 0, 0] = 0x22F6
  decide

theorem negotiateAlgorithms_refused (h : Asked r 0xE3 s) (hoffer : offersAlgorithms r = false) :
    Occurs (.negotiateAlgorithms r) s (s.answerSpdm r [0x13, 0x7F, 1, 0]) := by
  refine occurs_of rfl ((h.plain _).trans ?_)
  simp only [hoffer, Bool.not_false, if_true]
  rfl

theorem negotiateAlgorithms_occurs (h : Asked r 0xE3 s) (hoffer : offersAlgorithms r = true) :
    ∃ bs, Occurs (.negotiateAlgorithms r) s (s.answerSpdm r bs) ∧ slice bs 0 4 = [0x13, 0x63, 2, 0] ∧ bs.length = 48 := by
  refine ⟨_, occurs_of rfl (h.plain _), ?_⟩
  rw [hoffer]
  exact ⟨rfl, rfl⟩

theorem getCertificate_occurs (h : Asked r 0x82 s) (hslot : r.param1.toNat % 16 = 0) :
    ∃ bs, Occurs (.getCertificate r) s (s.answerSpdm r bs) ∧ slice bs 0 4 = [0x13, 0x02, 0, 0]
      ∧ bs.drop 8 = slice s.certChain (field r.payload 0 2) (field r.payload 2 2) := by
  refine ⟨_, occurs_of rfl (h.plain _), ?_⟩
  rw [if_neg (not_not_intro hslot)]
  exact ⟨rfl, rfl⟩

/-! Signed responses (R444, R447) -/

/-- A leaf of the bottom tree is taken. -/
theorem Asked.signs {code : Nat} (h : Asked r code s) (hleaf : s.lmsLeft ≠ 0) (f : State → State) :
    serve s r code true f = some (f { s with lmsLeft := s.lmsLeft - 1 }) := serve_signs h.code h.arrived h.booted h.free hleaf f

theorem exec_challenge (hslot : r.param1 = 0) : exec (.challenge r) s = agent s (serve s r 0x83 true fun s => s.answerSpdm r
    (spdm 0x03 0 1 (sha256 s.certChain ++ s.spdmNonce ++ Config.standardBytes s.fresh 3 ++ [0, 0] ++ slice r.payload 32 8 ++ s.signature))) := by
  change agent s (serve s r 0x83 (r.param1 = 0) _) = _
  simp only [hslot, decide_true, ne_eq, not_true_eq_false, if_false]

theorem challenge_occurs (h : Asked r 0x83 s) (hslot : r.param1 = 0) (hleaf : s.lmsLeft ≠ 0) : ∃ bs,
    Occurs (.challenge r) s (State.answerSpdm { s with lmsLeft := s.lmsLeft - 1 } r bs) ∧ slice bs 0 4 = [0x13, 0x03, 0, 1] :=
  ⟨_, occurs_of (exec_challenge hslot) (h.signs hleaf _), rfl⟩

theorem challenge_waits (h : Asked r 0x83 s) (hslot : r.param1 = 0) (hleaf : s.lmsLeft = 0) :
    Occurs (.challenge r) s { s with reg := { s.reg with spdmHeld := some r } } :=
  occurs_of (exec_challenge hslot) (serve_waits h.code h.arrived h.booted h.free hleaf _)

/-! Measurements (Table 26.4) -/

section Unsigned

variable (h : Asked r 0xE0 s) (hsig : r.param1.getLsbD 0 = false)
include h hsig

theorem getMeasurements_count (hop : r.param2 = 0) : ∃ bs, Occurs (.getMeasurements r) s (s.answerSpdm r bs)
    ∧ slice bs 0 4 = [0x13, 0x60, .ofNat 8 (14 + s.encls.length), 0] := by
  have hop' : r.param2.toNat = 0 := by rw [hop]; rfl
  refine ⟨spdm 0x60 (14 + s.encls.length) 0 ([0, 0, 0, 0] ++ s.measTail r), occurs_of rfl ?_, rfl⟩
  simp only [hsig, hop', Bool.false_and, Bool.false_eq_true, ne_eq, not_true_eq_false, decide_false, Bool.or_self, if_false, if_true]
  exact h.plain _

theorem getMeasurements_record {n : Nat} {bs : List Byte} (hop : r.param2 ≠ 0) (hrec : s.measRecord r.param2.toNat = some (n, bs)) :
    ∃ out, Occurs (.getMeasurements r) s (s.answerSpdm r out)
      ∧ slice out 0 8 = [0x13, 0x60, 0, 0] ++ leBytes 1 n ++ leBytes 3 bs.length ∧ slice out 8 bs.length = bs := by
  have hop' : r.param2.toNat ≠ 0 := fun e => hop (BitVec.eq_of_toNat_eq e)
  refine ⟨spdm 0x60 0 0 (leBytes 1 n ++ leBytes 3 bs.length ++ bs ++ s.measTail r), occurs_of rfl ?_, rfl, ?_⟩
  · simp only [hsig, Bool.false_and, Bool.false_eq_true, hop', hrec, Option.isNone_some, ne_eq, not_true_eq_false, decide_false,
      Bool.and_false, Bool.or_self, if_false]
    refine (h.plain _).trans ?_
    simp only [hrec]
  · exact List.take_left

theorem getMeasurements_none (hop : r.param2 ≠ 0) (hrec : s.measRecord r.param2.toNat = none) :
    Occurs (.getMeasurements r) s (s.answerSpdm r [0x13, 0x7F, 1, 0]) := by
  have hop' : r.param2.toNat ≠ 0 := fun e => hop (BitVec.eq_of_toNat_eq e)
  refine occurs_of rfl ?_
  simp only [hsig, Bool.false_and, Bool.false_eq_true, hop', hrec, Option.isNone_none, ne_eq, not_true_eq_false, not_false_eq_true,
    decide_false, decide_true, Bool.and_self, Bool.or_true, if_false, if_true]
  exact h.plain _

end Unsigned

/-! Sessions (R448) -/

theorem keyExchange_full (h : Asked r 0xE4 s) (hfull : 8 ≤ s.sessions.length) :
    Occurs (.keyExchange r) s (s.answerSpdm r [0x13, 0x7F, 3, 0]) := by
  refine occurs_of rfl ?_
  simp only [hfull, decide_true, Bool.not_true, Bool.false_and, if_true]
  exact h.plain _

/-- The session that KEY_EXCHANGE opens, and its answer. -/
theorem exec_keyExchange (hroom : s.sessions.length < 8) (hslot : r.param2 = 0) :
    exec (.keyExchange r) s = agent s (serve s r 0xE4 true fun u => State.answerSpdm
      { u with serial := u.serial + 1, sessions := u.sessions ++ [⟨u.serial, r.relay, false, u.ns⟩] } r
        (spdm 0x64 60 0 (leBytes 2 u.serial ++ [0, 0] ++ u.spdmNonce ++ Config.standardBytes u.fresh 4 ++ u.signature))) := by
  change agent s _ = _
  simp only [Nat.not_le.mpr hroom, hslot, decide_false, decide_true, Bool.not_false, Bool.and_self, Bool.false_eq_true, ne_eq,
    not_true_eq_false, if_false]

theorem keyExchange_occurs (h : Asked r 0xE4 s) (hroom : s.sessions.length < 8) (hslot : r.param2 = 0) (hleaf : s.lmsLeft ≠ 0) :
    ∃ bs, Occurs (.keyExchange r) s (State.answerSpdm
        { s with lmsLeft := s.lmsLeft - 1, serial := s.serial + 1, sessions := s.sessions ++ [⟨s.serial, r.relay, false, s.ns⟩] } r bs)
      ∧ slice bs 0 4 = [0x13, 0x64, 60, 0] :=
  ⟨_, occurs_of (exec_keyExchange hroom hslot) (h.signs hleaf _), rfl⟩

section InSession

variable {n : Nat} (hn : r.session = some n)
include hn

theorem finish_occurs (h : Asked r 0xE5 s) : Occurs (.finish r) s (State.answerSpdm { s with
    sessions := s.sessions.map fun (x : Session) => if x.num = n then { x with done := true } else x } r [0x13, 0x65, 0, 0]) := by
  refine occurs_of rfl ((h.plain _).trans ?_)
  rw [inSession, hn]
  rfl

theorem heartbeat_occurs (h : Asked r 0xE8 s) : Occurs (.heartbeat r) s (s.answerSpdm r [0x13, 0x68, 0, 0]) := by
  refine occurs_of rfl ((h.plain _).trans ?_)
  rw [inSession, hn]
  rfl

theorem endSession_occurs (h : Asked r 0xEC s) : Occurs (.endSession r) s ((s.answerSpdm r [0x13, 0x6C, 0, 0]).endSession n) := by
  refine occurs_of rfl ((h.plain _).trans ?_)
  rw [inSession, hn]
  rfl

end InSession

theorem endSession_sessions (s : State) (n : Nat) : (s.endSession n).sessions.all (fun x => x.num ≠ n) = true :=
  List.all_eq_true.mpr fun _ hx => (List.mem_filter.mp hx).2

theorem unsupportedRequest_occurs (h : Asked r r.code.toNat s) (hcode : spdmCodes.contains r.code.toNat = false) :
    Occurs (.unsupportedRequest r) s (s.answerSpdm r [0x13, 0x7F, 7, r.code]) := by
  refine occurs_of rfl ?_
  rw [if_neg (Bool.eq_false_iff.mp hcode), h.plain]
  simp only [spdmError, spdm, BitVec.ofNat_toNat, BitVec.setWidth_eq]
  rfl

theorem sessionTimeout_occurs {n : Nat} {x : Session} (hx : s.sessions.find? (fun x => x.num == n) = some x)
    (hlast : x.last + 120000000000 ≤ s.ns) : Occurs (.sessionTimeout n) s (s.endSession n) := by
  refine occurs_of rfl ?_
  simp only [hx, hlast, if_true]

theorem spdmrly_occurs {v : BitVec 64} (hv : v.toNat / 2 ^ 48 = 0) (halign : v.toNat % 4096 = 0) (hpage : s.hypPage v.toNat = true) :
    Occurs (.spdmrly v) s (if s.reg.spdmBuf.isSome then s.homeWrite v.toNat [0x13, 0x7F, 3, 0]
      else { s with reg := { s.reg with spdmBuf := some v.toNat } }) := by
  refine occurs_of rfl ?_
  simp only [hv, halign, hpage, ne_eq, not_true_eq_false, decide_false, Bool.not_true, Bool.or_self, Bool.false_eq_true, if_false]
  split
  · rfl
  · rfl

end Requests

/-- Settles O53: what `serve` comes to by whether a request is answered, signed, held or refused, and each request's answer. -/
theorem spdmEvents : Obligations.SpdmEvents := by
  unfold Obligations.SpdmEvents
  intro asked signed r s
  have hAsked : ∀ {code}, asked r code s → Asked r code s := fun ⟨hcode, harrived, hboot, hheld⟩ => ⟨hcode, harrived, hboot, hheld⟩
  refine ⟨fun h => occurs_of rfl ((hAsked h).plain _), fun hcode harrived hboot => occurs_of rfl (serve_unbooted hcode harrived hboot _ _),
    fun h => getCapabilities_occurs (hAsked h), fun h hoffer => negotiateAlgorithms_refused (hAsked h) hoffer,
    fun h hoffer => negotiateAlgorithms_occurs (hAsked h) hoffer, fun h => occurs_of rfl ((hAsked h).plain _),
    fun h hslot => getCertificate_occurs (hAsked h) hslot, fun h hslot hleaf => challenge_occurs (hAsked h) hslot hleaf,
    fun h hslot hleaf => challenge_waits (hAsked h) hslot hleaf, fun x hcode harrived hboot hheld hne =>
      ⟨fun hx hr => occurs_of rfl (serve_busy hcode harrived hboot hheld hne hx hr _ _), fun hrelay => ?other⟩,
    fun hcode harrived hboot hheld hslot hleaf =>
      ⟨_, occurs_of (exec_challenge hslot) (serve_held hcode harrived hboot hheld hleaf _)⟩,
    fun h hsig => ⟨fun hop => getMeasurements_count (hAsked h) hsig hop,
      fun n bs hop hrec => getMeasurements_record (hAsked h) hsig hop hrec, fun hop hrec => getMeasurements_none (hAsked h) hsig hop hrec⟩,
    fun h => ⟨fun hfull => keyExchange_full (hAsked h) hfull,
      fun hroom hslot hleaf => keyExchange_occurs (hAsked h) hroom hslot hleaf⟩,
    fun n hn => ⟨fun h => finish_occurs hn (hAsked h), fun h => heartbeat_occurs hn (hAsked h),
      fun h => ⟨endSession_occurs hn (hAsked h), endSession_sessions _ _⟩⟩,
    fun hcode h => unsupportedRequest_occurs (hAsked h) hcode, fun n x hx hlast => sessionTimeout_occurs hx hlast,
    fun v hv halign hpage => ⟨fun hbuf => ?free, fun hbuf => ?taken⟩⟩
  case other =>
    change agent s (serve s r 0x83 _ _) = _
    rw [serve_other hcode harrived hboot hheld hne hrelay]
    rfl
  case free => exact (spdmrly_occurs hv halign hpage).of_eq (by rw [hbuf]; rfl)
  case taken => exact (spdmrly_occurs hv halign hpage).of_eq (if_pos (Option.isSome_iff_ne_none.mpr hbuf))

end Sys2Proof.Machine
end

section
/-! SUPPORT. Completions of the management events: power, host cores, links and module reset (R444, R449, R451-R457). -/

namespace Sys2Proof.Machine

-- Declarations of this section are elaborated in turn, which bounds the memory the text takes.
set_option Elab.async false

/-! Power (R452, R453) -/

section Power

variable {k : Nat} {s : State}

theorem power_refused {st pt : BitVec 2} (hman : s.managed = true) (hk : Config.slices ≤ k) : Occurs (.power k st pt) s (s.respond 1) := by
  refine occurs_of rfl ?_
  simp only [hman, hk, Bool.not_true, Bool.false_eq_true, if_false, if_true]
  rfl

theorem power_occurs {st pt : BitVec 2} (hman : s.managed = true) (hk : k < Config.slices) :
    Occurs (.power k st pt) s ((s.writePstate k (st.toNat * 16 + pt.toNat)).respond 0) := by
  refine occurs_of rfl ?_
  simp only [hman, Nat.not_le.mpr hk, Bool.not_true, Bool.false_eq_true, if_false]
  rfl

theorem pstateWrite_occurs {v : BitVec 64} (hk : k < Config.slices) : Occurs (.pstateWrite k v) s (s.writePstate k v.toNat) :=
  occurs_of rfl (if_neg (Nat.not_le.mpr hk))

theorem writePstate_queued {v : Nat} (hchange : (s.slicePower k).change ≠ none) :
    s.writePstate k v = s.modPower k fun p => { p with queue := p.queue ++ [v] } := if_pos (Option.isSome_iff_ne_none.mpr hchange)

theorem writePstate_idle {v : Nat} (hchange : (s.slicePower k).change = none) : s.writePstate k v = s.applyPstate k v :=
  if_neg (by rw [hchange]; exact Bool.false_ne_true)

theorem pstateChangeEnd_occurs {st : Nat} {r : State} (hchange : (s.slicePower k).change = some st) (hqueue : (s.slicePower k).queue = [])
    (hr : r = if (s.slicePower k).state = 3 && st ≠ 3 then s.scrubStack k else s) : Occurs (.pstateChangeEnd k) s
      (r.modPower k fun p => { p with state := st, eff := Nat.min 3 (p.point + p.thr), change := none, queue := [] }) := by
  subst hr
  refine occurs_of rfl ?_
  simp only [hchange, hqueue, List.foldl_nil]

theorem modPower_reg (s : State) (k : Nat) (f : Power → Power) : (s.modPower k f).reg = s.reg := rfl

/-- A step of a slice that is not throttled, with no source to interrupt. -/
theorem throttleStep_occurs {temp lim : Int} (hk : k < Config.slices) (hnext : (s.slicePower k).next ≤ s.ns) (hthr : (s.slicePower k).thr = 0)
    (hsrc : s.reg.thrcfg.toNat / 256 % 32 = 0) (hlim : lim = (s.reg.thrcfg.toNat / 2 ^ 16 % 256 : Nat)) :
    Occurs (.throttleStep k temp) s (s.modPower k fun p => Power.start
      { p with thr := if lim ≤ temp then 1 else 0, next := s.ns + 1000000 } (p.change.getD p.state)) := by
  subst hlim
  refine occurs_of rfl ?_
  simp only [hthr, hsrc, Nat.not_le.mpr hk, Nat.not_lt.mpr hnext, decide_false, decide_true, Bool.or_self, Bool.or_true, Bool.false_eq_true,
    if_false, if_true, ite_self, modPower_reg, Nat.zero_add, Nat.zero_sub, show Nat.min 3 1 = 1 from rfl]

end Power

/-! The package number, host cores, ports and links (R449, R451, R454, R455) -/

section Module

variable {s : State}

theorem package_refused {n : BitVec 16} (hman : s.managed = true) (hup : (s.links.any fun l => l.2.up) = true) :
    Occurs (.package n) s (s.respond 2) := by
  refine occurs_of rfl ?_
  simp only [hman, hup, Bool.not_true, Bool.false_eq_true, if_false, if_true]
  rfl

theorem package_occurs {n : BitVec 16} (hman : s.managed = true) (hup : (s.links.any fun l => l.2.up) = false) (hn : n.toNat ≤ 32767) :
    Occurs (.package n) s (State.respond { s with reg := { s.reg with pkgnum := n.setWidth 15 } } 0) := by
  refine occurs_of rfl ?_
  simp only [hman, hup, Nat.not_lt.mpr hn, Bool.not_true, Bool.false_eq_true, if_false]
  rfl

theorem hcstart_occurs {v : BitVec 64} {w n : Nat} {t : Thread} (hcur : s.cur = .host w) (hn : n = v.toNat / 256 % 128)
    (ht : s.thread? (.host n) = some t) (hop : v.toNat % 256 = 1) (hzero : v.toNat / 2 ^ 15 % 2 ^ 17 = 0) (hhost : n < Config.hosts)
    (hwait : t.wait = .stopped) : Occurs (.hcstart v) s (((s.freshCode (hostIx n)).setThread (.host n) { t with
      wait := .none, level := .h, cb := s.th.cb, w := .ofNat 32 (v.toNat / 2 ^ 32), readyAt := s.time }).modHost n
        fun x => { x with ptroot := (s.hostCore w).ptroot, guestid := 0, bankH := (s.hostCore w).bankH }) := by
  subst hn
  refine occurs_of rfl ?_
  simp only [hcur, ht, hop, hzero, hwait, Nat.not_le.mpr hhost, ne_eq, not_true_eq_false, decide_false, bne_self_eq_false, Bool.or_self,
    Bool.false_eq_true, if_false]

theorem msiWrite_occurs {port : Nat} (hport : port < 4) (hsrc : (Tab.getD s.reg.pciecfg port 0).toNat / 256 % 32 ≠ 0) :
    Occurs (.msiWrite port) s (s.assertIrq ((Tab.getD s.reg.pciecfg port 0).toNat % 128) true
      ((Tab.getD s.reg.pciecfg port 0).toNat / 256 % 32)) := by
  refine occurs_of rfl ?_
  simp only [hsrc, Nat.not_le.mpr hport, decide_false, Bool.or_self, Bool.false_eq_true, if_false]

theorem linkTrain_occurs {link : Nat} {peer : BitVec 15} (hlink : link < 16) (hup : (Tab.getD s.links link {} : Link).up = false) :
    Occurs (.linkTrain link peer) s { s with
      keysMade := s.keysMade + 1
      links := s.links.put link { up := true, peer := peer.toNat, streams := [], secret := some (Config.keyMaterial s.keysMade) } } := by
  refine occurs_of rfl ?_
  simp only [hup, Nat.not_le.mpr hlink, decide_false, Bool.or_self, Bool.false_eq_true, if_false]

theorem loseWrites_nil (s : State) : s.loseWrites [] = s := by
  simp only [State.loseWrites, List.contains_nil, List.filter_false, List.foldl_nil]

theorem linkDown_occurs {link : Nat} {l : Link} (hl : Tab.getD s.links link {} = l) (hup : l.up = true) (hstreams : l.streams = []) :
    Occurs (.linkDown link) s { s with links := s.links.put link { l with up := false, streams := [], secret := none } } := by
  subst hl
  refine occurs_of rfl ?_
  simp only [hup, hstreams, Bool.not_true, Bool.false_eq_true, if_false, List.filter_nil, List.map_nil, List.foldl_nil, loseWrites_nil]

/-- The one launch there is ends when it is one of those named and has a write that the link loses. -/
theorem loseWrites_single {n : Nat} {l : Launch} (hl : s.launches = [(n, l)]) (eids : List Nat) :
    s.loseWrites eids = s ∨ (l.eid ∈ eids ∧ s.loseWrites eids = s.endLaunch n 0x110) := by
  unfold State.loseWrites
  rw [hl]
  by_cases hmem : l.eid ∈ eids
  · have hnamed : eids.contains l.eid = true := List.contains_iff_mem.mpr hmem
    simp only [List.filter_cons, hnamed, if_true, List.filter_nil, List.foldl_cons, List.foldl_nil]
    split
    · exact .inr ⟨hmem, rfl⟩
    · exact .inl rfl
  · have hnot : eids.contains l.eid = false := Bool.eq_false_iff.mpr fun h => hmem (List.contains_iff_mem.mp h)
    simp only [List.filter_cons, hnot, Bool.false_eq_true, if_false, List.filter_nil, List.foldl_nil]
    exact .inl trivial

/-! Boot (R444, R457) -/

theorem lmsTreeRenew_occurs (hleft : s.lmsLeft = 0) (htop : s.lmsTop < 2 ^ 20) :
    Occurs .lmsTreeRenew s { s with lmsTop := s.lmsTop + 1, lmsLeft := 1024 } := by
  refine occurs_of rfl (if_pos ?_)
  simp only [hleft, htop, decide_true, Bool.and_self]

theorem moduleReset_begins (hboot : s.booted = true) : Occurs .moduleReset s s.rebooting :=
  occurs_of (r := some _) rfl (congrArg some (if_pos hboot))

theorem moduleReset_ends (hboot : s.booted = false) :
    Occurs .moduleReset s (State.modThread { s with booted := true } (.host 0) fun t => { t with wait := .none }) :=
  occurs_of (r := some _) rfl (congrArg some (if_neg (Bool.eq_false_iff.mp hboot)))

end Module

/-- Settles O54: each event by the condition and the effect of its arm. -/
theorem managementEvents : Obligations.ManagementEvents := by
  unfold Obligations.ManagementEvents
  exact ⟨fun k st pt s hman => ⟨fun hk => power_refused hman hk, fun hk => power_occurs hman hk⟩,
    fun n s hman => ⟨fun hup => package_refused hman hup, fun hup hn => package_occurs hman hup hn⟩,
    fun k v s hk => ⟨fun hchange => (pstateWrite_occurs hk).of_eq (writePstate_queued hchange),
      fun hchange hok => (pstateWrite_occurs hk).of_eq ((writePstate_idle hchange).trans (if_pos hok)),
      fun hchange hok => (pstateWrite_occurs hk).of_eq ((writePstate_idle hchange).trans (if_neg (Bool.eq_false_iff.mp hok)))⟩,
    fun k st s hchange hqueue => pstateChangeEnd_occurs hchange hqueue rfl,
    fun k temp s hk hnext hthr hsrc => throttleStep_occurs hk hnext hthr hsrc rfl,
    fun v s w t hcur ht hop hzero hhost hwait => hcstart_occurs hcur rfl ht hop hzero hhost hwait,
    fun port s hport hsrc => msiWrite_occurs hport hsrc,
    fun link peer s hlink hup => linkTrain_occurs hlink hup,
    fun link s hup hstreams => linkDown_occurs rfl hup hstreams,
    fun s eids n l hl => loseWrites_single hl eids,
    fun s hleft htop => lmsTreeRenew_occurs hleft htop,
    fun s hboot => ⟨s.rebooting, moduleReset_begins hboot, rfl, rfl, rfl, rfl, rfl, rfl, rfl, rfl, rfl⟩,
    fun s hboot => moduleReset_ends hboot⟩

end Sys2Proof.Machine
end

section
/-! SUPPORT. Completions of the copy and drain events (R185-R196, R294-R301, R317). -/

namespace Sys2Proof.Machine

-- Declarations of this section are elaborated in turn, which bounds the memory the text takes.
set_option Elab.async false

/-! Channels and copies (R191-R196, R294-R296) -/

section Channel

variable {o : Owner} {ch p : Nat} {c : Copy} {rest : List Copy} {s : State}

theorem channelBind_occurs (hqueue : (s.chan o ch).queue = c :: rest) (hphys : (s.chan o ch).phys = none)
    (hbind : s.bindChan c.sp.guest (s.ownerSlice o) = some p) :
    Occurs (.channelBind o ch) s (s.setChan o ch { s.chan o ch with phys := some p }) := by
  refine occurs_of rfl ?_
  simp only [hqueue, hphys, hbind, Option.map_some]

theorem copyStart_occurs (hqueue : (s.chan o ch).queue = c :: rest) (hphys : (s.chan o ch).phys = some p) (hstarted : c.started = false) :
    Occurs (.copyStart o ch) s (s.setChan o ch { s.chan o ch with queue := { c with started := true } :: rest, wptr := c.pointer }) := by
  refine occurs_of rfl ?_
  simp only [hqueue, hphys, hstarted, Bool.false_eq_true, if_false]

/-- The channel whose turn it is delivers, unless its copy stands at a fault or has nothing left to deliver. -/
theorem copyEngineTurn_occurs (hserved : s.served o ch = some c) (hphys : (s.chan o ch).phys = some p) (hstop : c.stop = none)
    (hleft : c.cursor ≠ c.total ∨ c.total = 0) (hturn : s.nextChan (p / 16) = some p) {r : State}
    (hr : r = { s with ceLast := s.ceLast.put (p / 16) p }) :
    Occurs (.copyEngineTurn o ch) s ((r.deliverCopy o ch c 128).getD r) := by
  subst hr
  refine occurs_of rfl ?_
  have hdelivers : s.delivers o ch = true := by
    simp only [State.delivers, hserved, Option.any_some, hstop, Option.isNone_none, Bool.true_and, Bool.or_eq_true, decide_eq_true_eq]
    exact hleft
  simp only [hserved, hphys, hdelivers, hturn, decide_true, Bool.and_self, if_true]

theorem deliverCopy_empty (htotal : c.total = 0) (n : Nat) : s.deliverCopy o ch c n = some (s.creditCopy o ch c) := if_pos htotal

/-- What the delivery of a copy with bytes left comes to, by what the move of its next bytes does. -/
theorem deliverCopy_moves {row : Word} (htotal : c.total ≠ 0)
    (hrow : (if c.form = 2 && c.cursor % c.rb = 0 then rowWord s o c c.cursor else some c.row) = some row) {c' : Copy}
    (hc : c' = { c with row := row }) {n : Nat} (hn : n = c'.run row c.cursor 128) :
    s.deliverCopy o ch c 128 = match moveCells s o c' ((List.range n).map fun k => c'.cell row (c.cursor + k)) with
      | .ok s g => some (s.creditCopy o ch { c' with cursor := c.cursor + n, sig := c.sig ||| g })
      | .wait => none
      | .trap t => some (s.stopCopy o ch t)
      | .fault s a f => s.copyFault o ch c' c.cursor n a f := by
  rw [hc] at hn ⊢
  unfold State.deliverCopy
  rw [if_neg htotal]
  dsimp only
  rw [hrow]
  dsimp only
  rw [← hn] <;> rfl

/-- The bytes that move do not depend on the list of segments to be replayed. -/
theorem moveCells_fix (s : State) (o : Owner) (c : Copy) (fix : List Segment) (xs : List Cell) :
    moveCells s o { c with fix := fix } xs = moveCells s o c xs := rfl

theorem copyFixupReplay_occurs {g : Segment} {x : Sig} {r s₁ : State} (hserved : s.served o ch = some c)
    (hphys : (s.chan o ch).phys = some p) (hfix : c.nextFix = some g) (hturn : s.nextChan (p / 16) = some p)
    (hr : r = { s with ceLast := s.ceLast.put (p / 16) p })
    (hmove : moveCells r o { c with fix := c.fix.erase g } ((List.range g.len).map fun k => c.cell g.row (g.off + k)) = .ok s₁ x) :
    Occurs (.copyFixupReplay o ch) s
      ((s₁.noteFix o).creditCopy o ch (Copy.resume { c with fix := c.fix.erase g, sig := c.sig ||| x })) := by
  subst hr
  rw [moveCells_fix] at hmove
  refine occurs_of rfl ?_
  simp only [hserved, hphys, hfix, hturn, if_true, State.replayFix, hmove, Option.getD_some]

end Channel

/-! Drains (R27, R183-R186, R300, R301, R317) -/

/-- A drain that has not landed takes a step of its kind. -/
theorem exec_drainComplete {n : Nat} {d : Drain} {s : State} (hd : s.drains.find? (fun x => x.num == n) = some d) (hlanded : d.landed = false) :
    exec (.drainComplete n) s =
      agent s (if !d.ctl.glb then s.moveDrain d else if d.ctl.add then s.addOnStore d else s.landDrain d) := by
  change agent s _ = _
  simp only [hd, hlanded, Bool.false_eq_true, if_false]

section Scratchpad

variable {d : Drain} {s : State}

theorem moveDrain_begins (hbegan : d.began = none) (hturn : (s.nextMove (s.drainCore d)).any (·.1 = d.num) = true)
    (hmay : s.mayMove (s.drainCore d) = true) : s.moveDrain d = some (s.startMove (s.drainCore d) s.time) := by
  simp only [State.moveDrain, hbegan, Option.isNone_none, hturn, hmay, Bool.and_self, if_true]

theorem isNone_of_moved {n : Nat} {began : Option Nat} (h : s.moved began n = true) : began.isNone = false := by
  cases began with
  | none => exact absurd h (by simp [State.moved])
  | some t => rfl

/-- A drain whose movement has ended settles, or stands with its bytes moved. -/
theorem moveDrain_settles (hplan : d.plan = none) (hmoved : s.moved d.began (drainSize d.ctl.fmt.toNat) = true) {e : Drain} {r : State}
    (he : e = { d with plan := some [] }) (hr : r = s.setDrain e) :
    s.moveDrain d = some (((r.settleSpad e).getD r).startMove (s.drainCore d) s.time) := by
  subst hr he
  simp only [State.moveDrain, isNone_of_moved hmoved, hplan, hmoved, Option.isNone_none, Bool.not_true, Bool.false_eq_true, if_false, if_true]
  rfl

theorem settleSpad_lands (hadd : d.ctl.add = false) (hfree : (s.drainBanks d).any (s.bankTaken d) = false) :
    s.settleSpad d = some (landSpad s d) := by
  simp only [State.settleSpad, hadd, hfree, Bool.not_false, Bool.false_eq_true, if_true, if_false]

theorem settleSpad_waits (hadd : d.ctl.add = true) (hleft : (s.drainGroup d).any (·.plan.isNone) = true) : s.settleSpad d = none := by
  simp only [State.settleSpad, hadd, hleft, Bool.not_true, Bool.false_eq_true, if_false, if_true]
  split
  · rfl
  · rfl

theorem settleSpad_takes {x : Drain} {g : List Drain} (hadd : d.ctl.add = true) (hg : s.drainGroup d = x :: g)
    (hmoved : (x :: g).any (·.plan.isNone) = false) : s.settleSpad d = s.takeBank x (x :: g) := by
  simp only [State.settleSpad, hadd, hg, hmoved, Bool.not_true, Bool.false_eq_true, if_false, List.head?_cons]

/-- An add-on-store takes the least of its banks that it has not taken. -/
theorem takeBank_next {g : List Drain} {b : Nat} {left : List Nat} {w : State} (hcells : (g.any fun x => (s.spadCells x).isNone) = false)
    (hpoison : g.any s.drainPoisoned = false) (hleft : left = (g.flatMap s.drainBanks).dedup.filter fun b => !d.taken.contains b)
    (hb : leastOf left = some b) (hfree : s.bankTaken d b = false) (hw : w = g.foldl (fun s x => s.spadWrite x (· = b)) s) :
    s.takeBank d g = some (if left.length = 1 then g.foldl State.creditDrain w else w.setDrain { d with taken := b :: d.taken }) := by
  subst hw hleft
  simp only [State.takeBank, hcells, hpoison, hb, hfree, Bool.and_false, Bool.false_eq_true, if_false]

end Scratchpad

section Global

variable {d : Drain} {s s₁ : State}

/-- The lines of a drain that have not landed. -/
def Drain.todo (d : Drain) : List Nat := match d.plan with
  | some p => p.map (·.1)
  | none => d.vlines

theorem landDrain_eq (s : State) (d : Drain) : s.landDrain d = match landLines s d (s.drainRoom d) d.todo with
    | (s, none) => some s
    | (s, some (f, left)) =>
      let e := { d with fix := d.fix ++ f, plan := some (left.map fun l => (l, 0)), landed := left.isEmpty }
      if left.length = d.todo.length then none else some (if e.landed && e.fix.isEmpty then s.creditDrain e else s.setDrain e) := rfl

theorem landDrain_ends (hlines : landLines s d (s.drainRoom d) d.todo = (s₁, none)) : s.landDrain d = some s₁ := by
  rw [landDrain_eq, hlines]

/-- A drain some of whose lines have landed stands with those that have not, or is counted when none is left and none is to be replayed. -/
theorem landDrain_lands {f : List (Nat × Nat × Bool)} {left : List Nat} (hlines : landLines s d (s.drainRoom d) d.todo = (s₁, some (f, left)))
    (hsome : left.length ≠ d.todo.length) {d' : Drain}
    (hd : d' = { d with fix := d.fix ++ f, plan := some (left.map fun l => (l, 0)), landed := left.isEmpty }) :
    s.landDrain d = some (if left.isEmpty && (d.fix ++ f).isEmpty then s₁.creditDrain d' else s₁.setDrain d') := by
  subst hd
  rw [landDrain_eq, hlines]
  exact if_neg hsome

theorem takeLine_next {g : List Drain} {plan rest : List (Nat × Nat)} {line phys : Nat} {e : Drain} {r : State}
    (hplan : plan.filter (fun p : Nat × Nat => !d.taken.contains p.2) = (line, phys) :: rest)
    (hwaits : s.writeWaits (s.drainCore d) phys = false) (hroom : s.noRoomFor d phys = false)
    (he : e = { d with taken := phys :: d.taken, plan := some plan, fix := [] }) (hr : r = s.setDrain e) :
    s.takeLine d g plan = if rest.all (fun p => p.2 = phys) then r.applyLine e (r.drainGroup e) plan else some r := by
  subst hr he
  simp only [State.takeLine, hplan, hwaits, hroom, Bool.or_self, Bool.false_eq_true, if_false]

theorem applyLine_next {g : List Drain} {line phys : Nat} {rest : List (Nat × Nat)}
    (hgood : (((line, phys) :: rest).any fun p => g.any fun x => s.drainMeetsBad x p.1 p.2) = false) {r : State}
    (hr : r = (s.drainWrite g line phys).countSlice (homeOf (line * 128)) 0x203 1) :
    s.applyLine d g ((line, phys) :: rest) = some (if rest.isEmpty then g.foldl State.creditDrain r
      else r.setDrain { d with plan := some rest }) := by
  subst hr
  have hnone : ((line, phys) :: rest).find? (fun p => g.any fun x => s.drainMeetsBad x p.1 p.2) = none :=
    List.find?_eq_none.mpr fun p hp => List.any_eq_false.mp hgood p hp
  simp only [State.applyLine, hnone]

end Global

section Replay

variable {n : Nat} {d : Drain} {f : Nat × Nat × Bool} {s s₀ : State} (hd : s.drains.find? (fun x => x.num == n) = some d)
  (hf : d.fix.find? (fun x => x.2.2) = some f) (hs : s₀ = s.noteFix (.team d.team))
include hd hf hs

theorem drainFixupReplay_add {u : State} (hadd : d.ctl.add = true) (hu : s₀.addOnStore d = some u) : Occurs (.drainFixupReplay n) s u := by
  subst hs
  refine occurs_of rfl ?_
  simp only [hd, hf, hadd, if_true, hu]

theorem drainFixupReplay_lands {s₁ : State} (hadd : d.ctl.add = false) (hline : landDrainLine s₀ d f.1 = .ok s₁) :
    Occurs (.drainFixupReplay n) s
      (if d.landed && (d.fix.erase f).isEmpty then s₁.creditDrain d else s₁.setDrain { d with fix := d.fix.erase f }) := by
  subst hs
  refine occurs_of rfl ?_
  simp only [hd, hf, hadd, Bool.false_eq_true, if_false, hline]

end Replay

/-- Settles O44: each turn of a channel, of a drain and of a replay by what the move of its bytes comes to. -/
theorem transferEvents : Obligations.TransferEvents := by
  unfold Obligations.TransferEvents
  refine ⟨fun o ch c rest p s hqueue hphys hbind => channelBind_occurs hqueue hphys hbind,
    fun o ch c rest p s hqueue hphys hstarted => copyStart_occurs hqueue hphys hstarted,
    fun o ch c p s hserved hphys hstop hturn => ?turn,
    fun o ch c g p s s₁ x hserved hphys hfix hturn => copyFixupReplay_occurs hserved hphys hfix hturn rfl,
    fun n d s hd hlanded hglb => ?spad,
    fun d g b s hcells hpoison hb hfree => takeBank_next hcells hpoison rfl hb hfree rfl,
    fun n d s hd hlanded hglb => ?global,
    fun d g plan line phys rest s hplan hwaits hroom => takeLine_next hplan hwaits hroom rfl rfl,
    fun d g line phys rest s hgood => applyLine_next hgood rfl,
    fun n d f s hd hf => ⟨fun hadd u hu => drainFixupReplay_add hd hf rfl hadd hu, fun hadd s₁ hline => ?replay⟩⟩
  case turn =>
    intro r
    refine ⟨fun htotal => ?_, fun row htotal hcursor hrow => ?_⟩
    · have hoccurs := copyEngineTurn_occurs hserved hphys hstop (.inr htotal) hturn (r := r) rfl
      rwa [deliverCopy_empty htotal, Option.getD_some] at hoccurs
    · intro c' n cells
      have hoccurs := copyEngineTurn_occurs hserved hphys hstop (.inl hcursor) hturn (r := r) rfl
      have hn : n = c'.run row c.cursor 128 := by unfold n; rfl
      rw [deliverCopy_moves htotal hrow (c' := c') rfl hn] at hoccurs
      exact ⟨fun s₁ g hmove => hoccurs.of_eq (by rw [hmove]; rfl), fun t hmove => hoccurs.of_eq (by rw [hmove]; rfl),
        fun hmove => hoccurs.of_eq (by rw [hmove]; rfl)⟩
  case spad =>
    intro core e r
    have hx := exec_drainComplete hd hlanded
    simp only [hglb, Bool.not_false, if_true] at hx
    refine ⟨fun hbegan hturn hmay => occurs_of hx (moveDrain_begins hbegan hturn hmay), fun hplan hmoved => ?_⟩
    have hsettles := moveDrain_settles hplan hmoved (e := e) (r := r) rfl rfl
    exact ⟨fun hadd hfree => occurs_of hx (hsettles.trans (by rw [settleSpad_lands (d := e) hadd hfree]; rfl)),
      fun hadd hleft => occurs_of hx (hsettles.trans (by rw [settleSpad_waits (d := e) hadd hleft]; rfl)),
      fun hadd x g u hg hall hu => occurs_of hx (hsettles.trans (by rw [settleSpad_takes (d := e) hadd hg hall, hu]; rfl))⟩
  case global =>
    have hx := exec_drainComplete hd hlanded
    simp only [hglb, Bool.not_true, Bool.false_eq_true, if_false] at hx
    refine ⟨fun hadd => ?_, fun hadd u hu => occurs_of hx ((if_pos hadd).trans hu)⟩
    rw [hadd, if_neg Bool.false_ne_true] at hx
    refine ⟨fun s₁ hlines => occurs_of hx (landDrain_ends hlines), fun s₁ f left hlines hsome => ⟨fun hleft hfix => ?_, fun hor => ?_⟩⟩
    · exact (occurs_of hx (landDrain_lands hlines hsome rfl)).of_eq (if_pos (by rw [hleft, hfix]; rfl))
    · refine (occurs_of hx (landDrain_lands hlines hsome rfl)).of_eq (if_neg ?_)
      rw [Bool.and_eq_true, List.isEmpty_iff, List.isEmpty_iff]
      exact fun ⟨hleft, hfix⟩ => hor.elim (· hleft) (· hfix)
  case replay =>
    have hlands := drainFixupReplay_lands hd hf rfl hadd hline
    refine ⟨fun hlanded hfix => hlands.of_eq (if_pos (by rw [hlanded, hfix]; rfl)), fun hor => hlands.of_eq (if_neg ?_)⟩
    rw [Bool.and_eq_true, List.isEmpty_iff]
    exact fun ⟨hlanded, hfix⟩ => hor.elim (fun h => Bool.false_ne_true (h.symm.trans hlanded)) (· hfix)

end Sys2Proof.Machine
end

section
/-! SUPPORT. Completions of the dispatch events: teams, walkers, items and launches (R160-R164, R231-R256, R348). -/

namespace Sys2Proof.Machine

-- Declarations of this section are elaborated in turn, which bounds the memory the text takes.
set_option Elab.async false

/-! The weighted cycle of enclaves (R348) -/

theorem foldl_min_spec (l : List Nat) (a : Nat) :
    (l.foldl min a = a ∨ l.foldl min a ∈ l) ∧ l.foldl min a ≤ a ∧ ∀ y ∈ l, l.foldl min a ≤ y := by
  induction l generalizing a with
  | nil => simp
  | cons b l ih =>
    obtain ⟨hmem, hle, hall⟩ := ih (min a b)
    simp only [List.foldl_cons, List.mem_cons, forall_eq_or_imp]
    refine ⟨?_, hle.trans (Nat.min_le_left a b), hle.trans (Nat.min_le_right a b), hall⟩
    rcases hmem with h | h
    · rw [h]
      omega
    · exact .inr (.inr h)

theorem lowest_spec {l : List Nat} {x : Nat} (h : lowest l = some x) : x ∈ l ∧ ∀ y ∈ l, x ≤ y := by
  cases l with
  | nil => cases h
  | cons a l =>
    obtain ⟨hmem, hle, hall⟩ := foldl_min_spec l a
    obtain rfl := Option.some.inj h
    exact ⟨List.mem_cons.mpr hmem, fun y hy => (List.mem_cons.mp hy).elim (fun e => e ▸ hle) (hall y)⟩

theorem lowest_eq_none {l : List Nat} (h : lowest l = none) : l = [] := by
  cases l with
  | nil => rfl
  | cons a l => cases h

/-- The enclave that has the turn keeps it while it has entries left. -/
theorem turnOf_keeps {now : Nat × Nat} {eids : List Nat} (hleft : 0 < now.2) (hmem : now.1 ∈ eids) : turnOf now eids = some now.1 := by
  have hnow : eids.contains now.1 = true := List.contains_iff_mem.mpr hmem
  simp only [turnOf, hleft, hnow, decide_true, Bool.and_self, if_true]

/-- The turn passes on to the next enclave by number, and after the last to the first. -/
theorem turnOf_passes {now : Nat × Nat} {eids : List Nat} (hout : now.2 = 0 ∨ now.1 ∉ eids) :
    turnOf now eids = match lowest (eids.filter (now.1 < ·)) with
      | some x => some x
      | none => lowest eids := by
  have hnot : (decide (0 < now.2) && eids.contains now.1) = false := by
    rcases hout with h | h
    · rw [h]
      rfl
    · rw [Bool.and_eq_false_iff]
      exact .inr (Bool.eq_false_iff.mpr fun hc => h (List.contains_iff_mem.mp hc))
  unfold turnOf
  rw [hnot] <;> rfl

/-- Where the turn goes that passes on. -/
theorem turnOf_passes_spec {now : Nat × Nat} {eids : List Nat} {x : Nat} (hout : now.2 = 0 ∨ now.1 ∉ eids) (hx : turnOf now eids = some x) :
    x ∈ eids ∧ (∀ y ∈ eids, now.1 < y → now.1 < x ∧ x ≤ y) ∧ ((∀ y ∈ eids, y ≤ now.1) → ∀ y ∈ eids, x ≤ y) := by
  rw [turnOf_passes hout] at hx
  cases hlow : lowest (eids.filter (now.1 < ·)) with
  | some z =>
    rw [hlow] at hx
    obtain rfl : z = x := Option.some.inj hx
    obtain ⟨hmem, hleast⟩ := lowest_spec hlow
    obtain ⟨hz, hlt⟩ := List.mem_filter.mp hmem
    have hlt' : now.1 < z := of_decide_eq_true hlt
    exact ⟨hz, fun y hy hny => ⟨hlt', hleast y (List.mem_filter.mpr ⟨hy, decide_eq_true hny⟩)⟩,
      fun hall => absurd (hall z hz) (Nat.not_le.mpr hlt')⟩
  | none =>
    rw [hlow] at hx
    obtain ⟨hmem, hleast⟩ := lowest_spec hx
    have hnone := lowest_eq_none hlow
    exact ⟨hmem, fun y hy hny => absurd (List.mem_filter.mpr ⟨hy, decide_eq_true hny⟩) (by rw [hnone]; exact List.not_mem_nil),
      fun _ => hleast⟩

theorem turnOf_spec {now : Nat × Nat} {eids : List Nat} {x : Nat} (hx : turnOf now eids = some x) : x ∈ eids
    ∧ (0 < now.2 → now.1 ∈ eids → x = now.1)
    ∧ ((now.2 = 0 ∨ now.1 ∉ eids) → (∀ y ∈ eids, now.1 < y → now.1 < x ∧ x ≤ y) ∧ ((∀ y ∈ eids, y ≤ now.1) → ∀ y ∈ eids, x ≤ y)) := by
  refine ⟨?_, fun hleft hmem => (Option.some.inj ((turnOf_keeps hleft hmem).symm.trans hx)).symm,
    fun hout => (turnOf_passes_spec hout hx).2⟩
  by_cases hout : now.2 = 0 ∨ now.1 ∉ eids
  · exact (turnOf_passes_spec hout hx).1
  · obtain ⟨hleft, hmem⟩ := not_or.mp hout
    obtain rfl := Option.some.inj ((turnOf_keeps (Nat.pos_of_ne_zero hleft) (not_not.mp hmem)).symm.trans hx)
    exact not_not.mp hmem

theorem takeTurn_turns {key eid : Nat} {e : Encl} {s : State} (he : s.encls.find eid = some e) {now : Nat × Nat}
    (hnow : now = Tab.getD s.turns key (0, 0)) :
    (s.takeTurn key eid).turns.find key = some (eid, (if now.1 = eid ∧ 0 < now.2 then now.2 else e.weight) - 1) := by
  subst hnow
  refine (Tab.find_put _ _ _).trans ?_
  simp only [he, Bool.and_eq_true, decide_eq_true_eq]

/-! Placing teams (R232-R235, R248, R256) -/

theorem withConstants_loaded {s : State} {n : Nat} {l : Launch} {q : Nat} (h : l.cbytes = 0 ∨ l.quads.contains q = true)
    (k : State → Option State) : withConstants s n l [q] k = k s := by
  refine if_pos ?_
  simpa only [Bool.or_eq_true, decide_eq_true_eq] using h

theorem withConstants_empty {s : State} {n : Nat} {l : Launch} (h : l.cbytes = 0) (qs : List Nat) (k : State → Option State) :
    withConstants s n l qs k = k s := by
  induction qs with
  | nil => rfl
  | cons q qs ih => exact (if_pos (by rw [h]; rfl)).trans ih

theorem teamPlace_occurs {n core slot : Nat} {l : Launch} {s u : State} (hl : s.launches.find n = some l) (hplacing : s.placing l = true)
    (hshape : l.cshape = 0) (hroom : s.room l core = some slot) (hwalkers : s.walkersOn n (core / 384) ≠ [])
    (hpool : s.poolTakes (core / 384) l 1 = true) (hfirst : s.outranked l core = false)
    (hlower : ∀ k, k < core - core / 384 * 384 → s.room l (core / 384 * 384 + k) = none)
    (hconst : l.cbytes = 0 ∨ l.quads.contains (core / 4) = true) (hu : s.release' n l (core / 384) [core] none = some u) :
    Occurs (.teamPlace n core) s u := by
  refine occurs_of rfl ?_
  have hlower' : ((List.range (core - core / 384 * 384)).any fun k => (s.room l (core / 384 * 384 + k)).isSome) = false :=
    List.any_eq_false.mpr fun k hk => by rw [hlower k (List.mem_range.mp hk)]; exact Bool.false_ne_true
  have hindex : (s.walkersOn n (core / 384)).isEmpty = false := List.isEmpty_eq_false_iff.mpr hwalkers
  simp only [hl, hplacing, hshape, hroom, hindex, hpool, hfirst, hlower', Option.isNone_some, ne_eq, not_true_eq_false, decide_false,
    Bool.not_true, Bool.or_self, Bool.false_eq_true, if_false]
  exact (withConstants_loaded hconst _).trans hu

theorem clusterPlace_occurs {n slice row col : Nat} {l : Launch} {s u : State} {cores : List Nat} (hl : s.launches.find n = some l)
    (hplacing : s.placing l = true) (hshape : l.cshape ≠ 0) (hfits : s.rectFits l slice row col = true) (hwalkers : s.walkersOn n slice ≠ [])
    (hcores : cores = rectCores l.cshape slice row col) (hpool : s.poolTakes slice l cores.length = true)
    (hfirst : cores.any (s.outranked l) = false) (hlower : s.lowerRect l slice row col = false) (hconst : l.cbytes = 0)
    (hu : { s with serial := s.serial + 1 }.release' n l slice cores (some s.serial) = some u) :
    Occurs (.clusterPlace n slice row col) s u := by
  subst hcores
  refine occurs_of rfl ?_
  have hindex : (s.walkersOn n slice).isEmpty = false := List.isEmpty_eq_false_iff.mpr hwalkers
  simp only [hl, hplacing, hshape, hfits, hindex, hpool, hfirst, hlower, decide_false, Bool.not_true, Bool.or_self, Bool.false_eq_true,
    if_false]
  exact (withConstants_empty hconst _ _).trans hu

section AddTeam

variable (s : State) (n : Nat) (l : Launch) (core slot : Nat) (cluster : Option Nat) (m : Nat) (x : Option (List Word))
  (w : Option (Nat × Nat))

theorem addTeam_cur : (s.addTeam n l core slot cluster m x w).cur = s.cur := rfl

theorem addTeam_threads : (s.addTeam n l core slot cluster m x w).threads =
    s.threads ++ (List.range (32 * l.groups)).map fun i => (.simt s.serial i, l.newThread s.time i) := rfl

theorem addTeam_find : (s.addTeam n l core slot cluster m x w).teams.find s.serial = some {
    launch := n, core := core, slot := slot, cluster := cluster, member := m, groups := l.groups, coords := x
    serving := w, placed := s.ns } := Tab.find_put _ _ _

end AddTeam

theorem findThread_append {a b : List (ThreadId × Thread)} {i : ThreadId} (h : findThread a i = none) :
    findThread (a ++ b) i = findThread b i := by
  induction a with
  | nil => rfl
  | cons p a ih =>
    simp only [findThread, List.cons_append] at h ⊢
    split at h
    · cases h
    · next hne => rw [if_neg hne, ih h]

/-- Among threads that are listed one for each number, each is found by its number. -/
theorem findThread_map {f : Nat → Thread} {n i : Nat} {l : List Nat} (h : i ∈ l) :
    findThread (l.map fun k => (ThreadId.simt n k, f k)) (.simt n i) = some (f i) := by
  induction l with
  | nil => cases h
  | cons k l ih =>
    simp only [List.map_cons, findThread, ThreadId.simt.injEq, true_and]
    split
    · next e => rw [e]
    · next hne => exact ih ((List.mem_cons.mp h).resolve_left fun e => hne e.symm)

theorem addTeam_thread {s : State} {n : Nat} {l : Launch} {core slot : Nat} {cluster : Option Nat} {m : Nat} {x : Option (List Word)}
    {w : Option (Nat × Nat)} {i : Nat} (hi : i < 32 * l.groups) (hnew : findThread s.threads (.simt s.serial i) = none)
    (hcur : s.cur ≠ .simt s.serial i) :
    (s.addTeam n l core slot cluster m x w).thread? (.simt s.serial i) = some (l.newThread s.time i) := by
  rw [State.thread?, addTeam_cur, if_neg (Ne.symm hcur), addTeam_threads, findThread_append hnew]
  exact findThread_map (List.mem_range.mpr hi)

/-! Walkers that dispense (R250-R252, R256) -/

section Dispense

variable {slice num c : Nat} {w : Walker} {l : Launch} {s : State} (hw : s.walkers.find? (fun x => x.is slice num) = some w)
  (hl : s.launches.find w.launch = some l) (hplacing : s.placing l = true)
include hw hl hplacing

theorem walkerDispense_item (hitem : l.item = true) (hc : s.hungryCore w.launch slice = some c) : Occurs (.walkerDispense slice num) s
    ((s.dispense w l).1.modCore c fun k =>
      { k with items := k.items ++ (List.range l.nitems).map fun i => (w.launch, (s.dispense w l).2, i) }) := by
  refine occurs_of rfl ?_
  simp only [hw, hl, hplacing, hitem, hc, Bool.not_true, Bool.false_eq_true, if_false, if_true]

theorem walkerDispense_team {slot : Nat} (hitem : l.item = false) (hpers : l.pers = false) (hshape : l.cshape = 0)
    (hc : ((List.range Config.coresPerSlice).map (slice * 384 + ·)).find? (fun c => (s.room l c).isSome) = some c)
    (hfirst : s.outranked l c = false) (hpool : s.poolTakes slice l 1 = true) (hconst : l.cbytes = 0 ∨ l.quads.contains (c / 4) = true)
    (hslot : s.room l c = some slot) : Occurs (.walkerDispense slice num) s
      (((s.dispense w l).1.addTeam w.launch l c slot none 0 (some (s.dispense w l).2) none).takeTurn l.cycle l.eid) := by
  refine occurs_of rfl ?_
  simp only [hw, hl, hplacing, hitem, hpers, hshape, hc, hfirst, hpool, ne_eq, not_true_eq_false, decide_false, Bool.not_true, Bool.or_self,
    Bool.false_eq_true, if_false]
  refine (withConstants_loaded hconst _).trans ?_
  simp only [hslot, hw]

end Dispense

/-! The end of teams (R241, R242) -/

theorem applyCeown_teams (s : State) (engine : Nat) (v : Dword) : (s.applyCeown engine v).teams = s.teams := by
  unfold State.applyCeown
  split
  · rfl
  · rfl

theorem settleCeown_teams (s : State) : s.settleCeown.teams = s.teams := by
  suffices h : ∀ (l : List (Nat × Dword)) (u : State), (l.foldl (fun s p => s.applyCeown p.1 p.2) u).teams = u.teams from h _ s
  intro l
  induction l with
  | nil => intro u; rfl
  | cons p l ih => intro u; exact (ih _).trans (applyCeown_teams u p.1 p.2)

theorem dropTeam_teams (s : State) (n : Nat) : (s.dropTeam n).teams = s.teams.del n := by
  unfold State.dropTeam
  extract_lets mine core eid th dropped u
  have hu : u.teams = s.teams.del n := settleCeown_teams _
  clear_value u core eid
  split
  · exact hu
  · split
    · exact hu
    · exact hu

section Done

variable {n : Nat} {t : Team} {s : State} (ht : s.teams.find n = some t) (hopen : t.done = false) (hdone : s.teamDone n t = true)
include ht hopen hdone

theorem teamDone_alone (hcluster : t.cluster = none) : Occurs (.teamDone n) s (s.dropTeam n) := by
  refine occurs_of rfl ?_
  simp only [ht, hopen, hdone, hcluster, Bool.not_true, Bool.or_self, Bool.false_eq_true, if_false]

theorem teamDone_member {c : Nat} {r : State} {members : List (Nat × Team)} (hcluster : t.cluster = some c)
    (hr : r = s.modTeam n fun t => { t with done := true }) (hm : members = r.teams.filter fun p => p.2.cluster = some c) :
    Occurs (.teamDone n) s (if members.all fun p => p.2.done then members.foldl (fun s p => s.dropTeam p.1) r else r) := by
  subst hm hr
  refine occurs_of rfl ?_
  simp only [ht, hopen, hdone, hcluster, Bool.not_true, Bool.or_self, Bool.false_eq_true, if_false]

end Done

/-! Splitting (R253-R255) -/

section Split

variable {n core : Nat} {l : Launch} {s : State}

theorem askSplit_next {wants : Bool} (hsplits : l.splits = []) (hwants : wants = true) :
    s.askSplit n l core wants = some (if s.placing l && !s.paused.contains l.lead then s.split n l core
      else s.modLaunch n fun l => { l with splits := l.splits ++ [core] }) := by
  subst hwants
  simp only [State.askSplit, hsplits, Bool.true_and, if_true]
  split
  · rfl
  · rfl

theorem askSplit_turn {wants : Bool} {rest : List Nat} (hsplits : l.splits = core :: rest) (hpart : s.inPart l.lead (core / 384) = true)
    (hserves : (s.placing l && !s.paused.contains l.lead) = true) : s.askSplit n l core wants = some (s.split n l core) := by
  simp only [State.askSplit, hsplits, hpart, hserves, Bool.not_true, Bool.false_eq_true, if_false, if_true]

variable (hl : s.launches.find n = some l) (herror : l.error = none)
include hl herror

theorem exec_splitRequest : exec (.splitRequest n core) s = agent s (s.askSplit n l core
    (!l.retry.any (·.1 = core) && s.inPart l.lead (core / 384) && s.wantsSplit n l core)) := by
  change agent s _ = _
  simp only [hl, herror, Option.isSome_none, Bool.false_eq_true, if_false]

theorem splitRetry_occurs {l' : Launch} {r : State} (hdue : (l.retry.any fun r => r.1 = core && r.2 ≤ s.time) = true)
    (hsplits : l.splits = []) (hl' : l' = { l with retry := l.retry.filter (·.1 ≠ core) }) (hr : r = s.modLaunch n fun _ => l')
    (hpart : r.inPart l.lead (core / 384) = true) (hwants : r.wantsSplit n l core = true)
    (hserves : (r.placing l' && !r.paused.contains l'.lead) = true) : Occurs (.splitRetry n core) s (r.split n l' core) := by
  have hask : r.askSplit n l' core true = some (r.split n l' core) := by
    rw [askSplit_next (by rw [hl']; exact hsplits) rfl, if_pos hserves]
  subst hr hl'
  refine occurs_of rfl ?_
  simp only [hl]
  refine (if_neg ?_).trans ((if_pos ?_).trans hask)
  · simp only [herror, hdue, Option.isSome_none, Bool.not_true, Bool.or_self, Bool.false_eq_true, not_false_eq_true]
  · rw [hpart, hwants, hsplits]
    rfl

end Split

theorem split_divides {u s : State} {n core mid f : Nat} {l : Launch} {v : Walker}
    (hs : s = u.modLaunch n fun l => { l with splits := l.splits.filter (· ≠ core) })
    (hv : splitVictim (s.walkers.filter fun w => w.launch = n && 2 * l.minSplit ≤ w.fin - w.cur) = some v)
    (hf : freeWalker s s.busyWalkers (core / 384) = some f) (hmid : mid = v.cur + (v.fin - v.cur + 1) / 2) :
    u.split n l core = ((s.putWalker (Walker.pass { v with fin := mid } l)).putWalker
      (Walker.pass ⟨core / 384, f, n, mid, v.fin, 0⟩ l)).modLaunch n fun l =>
        { l with spl := true, retry := l.retry.filter (·.1 ≠ core) } := by
  subst hs hmid
  simp only [State.split, hv, hf]

/-! Items and mailboxes (R160-R164, R256) -/

section Refill

variable {team idx : Nat} {tm : Team} {l : Launch} {a : Ask} {s : State} (htm : s.teams.find team = some tm)
  (hl : s.launchOfTeam team = some l) (herror : l.error = none) (ha : s.oldestAsk tm.core tm.launch = some a)
  (htid : a.tid = .simt team idx)
include htm hl herror ha htid

theorem refillItem_tile (hitem : (takeItem tm.launch (s.core tm.core).items).isSome = true) : Occurs (.refillItem team idx) s
    (s.onThread a.tid fun s => s.wakeFrom (((s.giveItem a.tid tm.launch a.dst).getD s).dropAsk tm.core a)) := by
  refine occurs_of rfl ?_
  simp only [htm, hl, ha, htid, herror, hitem, Option.isSome_none, ne_eq, not_true_eq_false, decide_false, Bool.or_self, Bool.false_eq_true,
    if_false, if_true, Option.map_some]

theorem refillItem_end (hitem : takeItem tm.launch (s.core tm.core).items = none) (hover : s.itemsOver tm.launch l tm.core = true) :
    Occurs (.refillItem team idx) s (s.onThread a.tid fun s => s.wakeFrom (State.dropAsk { s with th := { s.th with
      results := s.th.results ++ (if a.dst < 0x7C then [⟨a.dst, 0xFFFFFFFF, 0⟩] else []) } } tm.core a)) := by
  refine occurs_of rfl ?_
  simp only [htm, hl, ha, htid, herror, hitem, hover, Option.isSome_none, ne_eq, not_true_eq_false, decide_false, Bool.or_self,
    Bool.false_eq_true, if_false, if_true, Option.map_some]

end Refill

theorem itemsOver_of {s : State} {n core : Nat} {l : Launch} (hwalkers : s.walkersOn n (core / 384) = []) (hsealed : l.sealedW = [])
    (hsplit : l.split = true) (hrange : l.noRange.contains core = true) : s.itemsOver n l core = true := by
  simp only [State.itemsOver, hwalkers, hsealed, hsplit, hrange, List.isEmpty_nil, Bool.and_self]

section Fetchw

variable {team : Nat} {t : Team} {l : Launch} {r : FetchReq} {rest : List FetchReq} {s : State} (ht : s.teams.find team = some t)
  (hl : s.launchOfTeam team = some l) (hfetches : t.fetches = r :: rest) (herror : l.error = none)
include ht hl hfetches herror

theorem fetchwServe_stopped (hstopped : t.stopped = true) : Occurs (.fetchwServe team) s
    ((s.modTeam team fun t => { t with stopped := true }).mailbox team t l.eid r [0xFFFFFFFE, 0, 0, 0]) := by
  refine occurs_of rfl ?_
  simp only [ht, hl, hfetches, herror, hstopped, Option.isSome_none, Bool.true_or, Bool.false_eq_true, if_false, if_true]

/-- The step of a team's oldest request while nothing has stopped the team. -/
def fetchwStep (s : State) (team : Nat) (t : Team) (l : Launch) (r : FetchReq) : Option State :=
  let exhausted : State := (s.modTeam team fun t => { t with spent := true }).mailbox team t l.eid r [0xFFFFFFFF, 0, 0, 0]
  if t.spent then some exhausted
  else match s.servingWalker t with
    | some w => if s.stoppedDispensing l then none else
      let x := s.dispense w l
      some ((x.1.modTeam team fun t => { t with serving := some (w.slice, w.num) }).mailbox team t l.eid r
        ((List.range 4).map fun d => if l.rank ≤ d then 0 else x.2.getD d 0))
    | none =>
      if !s.stoppedDispensing l && (!l.split || l.noRange.contains t.core) then some exhausted
      else s.askSplit t.launch l t.core (l.split && !l.noRange.contains t.core && !l.retry.any (·.1 = t.core))

theorem exec_fetchwServe (hrun : t.stopped = false) (hsoft : ∀ e, s.encls.find l.eid = some e → e.soft = none) :
    exec (.fetchwServe team) s = agent s (fetchwStep s team t l r) := by
  change agent s _ = _
  cases he : s.encls.find l.eid with
  | none => simp only [ht, hl, hfetches, herror, hrun, he, Option.isSome_none, Option.any_none, Bool.or_self, Bool.false_eq_true, if_false] <;> rfl
  | some e => simp only [ht, hl, hfetches, herror, hrun, he, hsoft e he, Option.isSome_none, Option.any_none, Bool.or_self,
      Bool.false_eq_true, if_false] <;> rfl

end Fetchw

/-! The end of launches (R244, R259-R261) -/

theorem launchComplete_occurs {n : Nat} {l : Launch} {s u : State} (hl : s.launches.find n = some l) (herror : l.error = none)
    (hwaits : l.waits = none) (hsplits : l.splits = []) (hwalkers : (s.walkers.any fun w => w.launch = n) = false) (hsealed : l.sealedW = [])
    (hdone : l.doneT + l.credit = l.total) (hteams : (s.teams.any fun t => t.2.launch = n) = false)
    (himages : ∀ e, s.encls.find l.eid = some e → (e.images.any fun i => i.team.launch = n) = false)
    (hu : s.finishLaunch n l = some u) : Occurs (.launchComplete n) s u := by
  refine occurs_of rfl ?_
  cases he : s.encls.find l.eid with
  | none => simp only [hl, herror, hwaits, hsplits, hwalkers, hsealed, hdone, hteams, he, hu, Option.isSome_none, List.isEmpty_nil, ne_eq,
      not_true_eq_false, decide_false, Bool.not_true, Bool.or_self, Bool.false_eq_true, if_false]
  | some e => simp only [hl, herror, hwaits, hsplits, hwalkers, hsealed, hdone, hteams, he, himages e he, hu, Option.isSome_none,
      List.isEmpty_nil, ne_eq, not_true_eq_false, decide_false, Bool.not_true, Bool.or_self, Bool.false_eq_true, if_false]

theorem finishLaunch_silent {n : Nat} {l : Launch} {s : State} (hsignal : l.signal = 0) (hcount : l.cbar = 255)
    (hfree : s.waitsForHold (fun x => x.ofContext l.space) = false) :
    s.finishLaunch n l = some ((s.releaseContext l.space).1.closeLaunch n l (s.releaseContext l.space).2) := by
  simp only [State.finishLaunch, hfree, hsignal, hcount, decide_true, Bool.true_or, Bool.false_eq_true, if_false, if_true]

theorem terminalTrapEnd_occurs {n : Nat} {l : Launch} {e : Word} {s u : State} (hl : s.launches.find n = some l) (herror : l.error = some e)
    (hwaits : l.waits = none) (hu : u = (s.dropLaunch n l).settleBusy) :
    Occurs (.terminalTrapEnd n) s (if u.teams.any fun t => t.2.launch = n then u else (u.finishLaunch n l).getD u) := by
  subst hu
  refine occurs_of rfl ?_
  simp only [hl, herror, hwaits, Option.isNone_some, Option.isSome_none, Bool.false_and, Bool.or_self, Bool.false_eq_true, if_false]

/-- Settles O47: each turn of the dispatcher by the condition and the effect of its arm, and the weighted cycle by where the turn goes. -/
theorem dispatchEvents : Obligations.DispatchEvents := by
  unfold Obligations.DispatchEvents
  refine ⟨fun n l core slot s u hl hplacing hshape hroom hwalkers hpool hfirst hlower hconst hu =>
      teamPlace_occurs hl hplacing hshape hroom hwalkers hpool hfirst hlower hconst hu,
    fun now eids x hx => turnOf_spec hx,
    fun key eid e s he => takeTurn_turns he rfl,
    fun n l slice row col s u hl hplacing hshape hfits hwalkers hpool hfirst hlower hconst hu =>
      clusterPlace_occurs hl hplacing hshape hfits hwalkers rfl hpool hfirst hlower hconst hu,
    fun s n l core slot cluster m x w i hi hnew hcur => ⟨addTeam_thread hi hnew hcur,
      _, addTeam_find s n l core slot cluster m x w, rfl, rfl, rfl, rfl, rfl, rfl, rfl, rfl⟩,
    fun slice num w l c s hw hl hplacing => ⟨fun hitem hc => walkerDispense_item hw hl hplacing hitem hc,
      fun hitem hpers hshape hc hfirst hpool hconst slot hslot =>
        walkerDispense_team hw hl hplacing hitem hpers hshape hc hfirst hpool hconst hslot⟩,
    fun n t s ht hopen hdone hcluster => ⟨teamDone_alone ht hopen hdone hcluster,
      (congrArg (Tab.find · n) (dropTeam_teams s n)).trans (Tab.find_del _ _)⟩,
    fun n t c s ht hopen hdone hcluster =>
      have h := teamDone_member ht hopen hdone hcluster rfl rfl
      ⟨fun hall => h.of_eq (if_pos hall), fun hall => h.of_eq (if_neg (Bool.eq_false_iff.mp hall))⟩,
    fun n l core s hl herror hpart => ?split,
    fun u n l core v f hv hf => split_divides rfl hv hf rfl,
    fun team idx tm l a s htm hl herror ha htid => ⟨fun hitem => refillItem_tile htm hl herror ha htid hitem,
      fun hitem hwalkers hsealed hsplit hrange =>
        refillItem_end htm hl herror ha htid hitem (itemsOver_of hwalkers hsealed hsplit hrange)⟩,
    fun team t l r rest s ht hl hfetches herror => ?fetchw,
    fun n l s u hl herror hwaits hsplits hwalkers hsealed hdone hteams himages =>
      have h := fun {u} => launchComplete_occurs (u := u) hl herror hwaits hsplits hwalkers hsealed hdone hteams himages
      ⟨fun hu => h hu, fun hsignal hcount hfree => h (finishLaunch_silent hsignal hcount hfree)⟩,
    fun n l e s hl herror hwaits =>
      have h := terminalTrapEnd_occurs hl herror hwaits rfl
      ⟨fun hteams => h.of_eq (if_pos hteams), fun hteams => h.of_eq (if_neg (Bool.eq_false_iff.mp hteams))⟩⟩
  case split =>
    have hx := exec_splitRequest (core := core) hl herror
    refine ⟨fun hwants hretry hsplits => ?_, fun rest hsplits hserves => occurs_of hx (askSplit_turn hsplits hpart hserves),
      fun hdue hsplits hpart hwants hserves => splitRetry_occurs hl herror hdue hsplits rfl rfl hpart hwants hserves⟩
    have hask := askSplit_next (s := s) (n := n) (core := core) hsplits
      (show (!l.retry.any (·.1 = core) && s.inPart l.lead (core / 384) && s.wantsSplit n l core) = true by rw [hretry, hpart, hwants]; rfl)
    exact ⟨fun hserves => (occurs_of hx hask).of_eq (if_pos hserves),
      fun hserves => (occurs_of hx hask).of_eq (if_neg (Bool.eq_false_iff.mp hserves))⟩
  case fetchw =>
    refine ⟨fun hstopped => fetchwServe_stopped ht hl hfetches herror hstopped, fun hrun hsoft hspent => ?_,
      fun hrun hsoft hspent hgoes => ⟨fun w hw => ?_, fun hnone hrange => ?_⟩⟩
    · exact occurs_of (exec_fetchwServe ht hl hfetches herror hrun hsoft) (if_pos hspent)
    · refine occurs_of (exec_fetchwServe ht hl hfetches herror hrun hsoft) ?_
      simp only [fetchwStep, hspent, hw, hgoes, Bool.false_eq_true, if_false]
    · refine occurs_of (exec_fetchwServe ht hl hfetches herror hrun hsoft) ?_
      have hover : (!l.split || l.noRange.contains t.core) = true := by
        rcases hrange with h | h
        · rw [h]
          rfl
        · rw [h, Bool.or_true]
      simp only [fetchwStep, hspent, hnone, hgoes, hover, Bool.not_false, Bool.and_self, Bool.false_eq_true, if_false, if_true]

end Sys2Proof.Machine
end

section
/-! SUPPORT. Completions of the events of contexts, partitions and exclusive cores (R257, R258, R379-R397, R460). -/

namespace Sys2Proof.Machine

-- Declarations of this section are elaborated in turn, which bounds the memory the text takes.
set_option Elab.async false

/-! PREEMPT and soft requests (R383-R385, R460) -/

section Preempt

variable {eid : BitVec 16} {e : Encl} {s : State}

/-- A write of PREEMPT that is not ignored names a live enclave. -/
theorem preemptee_of_idle (hbusy : s.reg.preBusy = false) : s.preemptee eid = s.liveEncl eid.toNat :=
  if_neg (Bool.eq_false_iff.mp hbusy)

variable (hp : s.preemptee eid = some e)
include hp

theorem preemptResume_occurs (hordered : e.ordered = true) {t : State}
    (ht : t = (s.notePreempt 0 eid false).modEncl eid.toNat fun e => { e with ordered := false }) :
    Occurs (.preemptResume eid) s (if s.ckHolds eid.toNat e then t else
      (t.modEncl eid.toNat fun e => { e with halted := false, tsvAt := if e.failed then none else some s.ns }).restoreClock eid.toNat) := by
  have hns : t.ns = s.ns := by rw [ht, State.ns, State.modEncl_time, State.ns]; rfl
  rw [← hns]
  subst ht
  refine occurs_of rfl ?_
  simp only [hp, hordered, Bool.not_true, Bool.false_eq_true, if_false]
  rfl

theorem preemptResume_ignored (hordered : e.ordered = false) : exec (.preemptResume eid) s = .next s := by
  change agent s _ = _
  simp only [hp, hordered, Bool.not_false, if_true]
  rfl

theorem preemptSoft_occurs : Occurs (.preemptSoft eid) s ((s.notePreempt 1 eid true).softRequest eid.toNat (s.partCores e.lead)) :=
  occurs_of rfl (by rw [hp]; rfl)

theorem preemptHalt_occurs : Occurs (.preemptHalt eid) s ((s.notePreempt 2 eid true).orderHalt eid.toNat) :=
  occurs_of rfl (by rw [hp]; rfl)

theorem preemptKill_occurs : Occurs (.preemptKill eid) s
    ((((s.notePreempt 3 eid true).killTeams eid.toNat fun _ => true).exitHosts eid.toNat false).endSoft eid.toNat).settleBusy :=
  occurs_of rfl (by rw [hp]; rfl)

end Preempt

section Soft

variable {eid : Nat} {e : Encl} {x : Soft} {s : State} (he : s.encls.find eid = some e) (hx : e.soft = some x)
include he hx

theorem softRequestEnd_occurs (hmet : s.softMet eid e x = true) : Occurs (.softRequestEnd eid) s (s.endSoft eid) := by
  refine occurs_of rfl ?_
  simp only [he, hx, hmet, if_true]

theorem softRequestEnd_waits (hmet : s.softMet eid e x = false) : exec (.softRequestEnd eid) s = .next s := by
  change agent s _ = _
  simp only [he, hx, hmet, Bool.false_eq_true, if_false]
  rfl

theorem g1Deadline_occurs (hthere : ((s.contextTeams eid).any fun p => x.cores.contains p.2.core) = true) (hdue : x.g1 ≤ s.ns) :
    Occurs (.g1Deadline eid) s (s.forceHalt eid) := by
  refine occurs_of rfl ?_
  simp only [he, hx, hthere, hdue, decide_true, Bool.or_true, Bool.and_self, if_true]

theorem g2Deadline_occurs {g : Nat} (hthere : ((s.contextTeams eid).any fun p => x.cores.contains p.2.core) = true) (hg : x.g2 = some g)
    (hdue : g ≤ s.ns) : Occurs (.g2Deadline eid) s (s.killNamed eid) := by
  refine occurs_of rfl ?_
  simp only [he, hx, hg, hthere, hdue, decide_true, Bool.and_self, if_true]

theorem endSoft_met (hmet : s.softMet eid e x = true) (hpre : s.reg.preempt.toNat % 65536 = eid) :
    s.endSoft eid = { s.modEncl eid (fun e => { e with soft := none }) with reg := { s.reg with preBusy := false } } := by
  simp only [State.endSoft, he, hx, hmet, Bool.not_true, Bool.false_eq_true, if_false, State.modEncl_reg, hpre, if_true]

end Soft

theorem softMet_of_gone {eid : Nat} {e : Encl} {x : Soft} {s : State}
    (hgone : ((s.contextTeams eid).any fun p => x.cores.contains p.2.core) = false)
    (hout : e.halted = false ∨ ((s.lines.any fun l => l.sp.eid.toNat = eid) = false ∧
      (s.hosts.any fun h => h.2.entered.any (·.1 = eid)) = false)) : s.softMet eid e x = true := by
  have hleft : (e.halted && (s.lines.any (·.sp.eid.toNat = eid) || s.hosts.any fun h => h.2.entered.any (·.1 = eid))) = false := by
    rcases hout with h | ⟨hlines, hhosts⟩
    · rw [h, Bool.false_and]
    · rw [hlines, hhosts, Bool.or_self, Bool.and_false]
  rw [State.softMet, hgone, hleft]
  rfl

/-! Time slices and the return of sealed work (R258, R382, R387) -/

theorem timeSliceExpiry_occurs {eid core slice : Nat} {e : Encl} {s : State} (he : s.encls.find eid = some e)
    (hslice : slice = (s.part e.lead).toNat / 2 ^ 16 % 65536) (hset : slice ≠ 0)
    (hthere : ((s.contextTeams eid).any fun p => p.2.core = core) = true) (hdue : slice * 1000 ≤ s.residence eid core)
    (holdest : ((s.teams.filter fun p => p.2.core = core).any fun p => s.residence eid core < s.residence (s.eidOfTeam p.1) core) = false)
    (hwants : (s.launches.any fun p => s.displacer eid core p.1 p.2) = true) :
    Occurs (.timeSliceExpiry eid core) s (s.softRequest eid [core]) := by
  subst hslice
  refine occurs_of rfl ?_
  simp only [he]
  refine if_neg ?_
  simp only [List.any_map, Function.comp_def, hset, hthere, holdest, hwants, Nat.not_lt.mpr hdue, decide_false, Bool.not_true, Bool.or_self,
    Bool.false_eq_true, not_false_eq_true]

/-- The launches of a context whose walkers, or whose image, are to return. -/
def sealedLaunches (s : State) (eid : Nat) : List (Nat × Launch) :=
  s.launches.filter fun p => p.2.eid = eid && p.2.error.isNone && (!p.2.sealedW.isEmpty || p.2.image.isSome)

/-- Sealed work returns, unless an image of it fails its check. -/
theorem contextRestore_occurs {eid core : Nat} {e : Encl} {s : State} (he : s.encls.find eid = some e) (hopen : e.restorable = true)
    {ls : List (Nat × Launch)} (hls : ls = sealedLaunches s eid) (hwork : ls ≠ [] ∨ e.images ≠ []) :
    Occurs (.contextRestore eid core) s
      (if !ls.isEmpty && (s.digestFails e || ls.any fun p => p.2.image.any s.frameImageFails) then s.failEnclave eid
        else ((ls.foldl (fun s p => s.restoreWalkers p.1 p.2) (s.restoreClock eid)).restoreAt eid e core).getD
          (ls.foldl (fun s p => s.restoreWalkers p.1 p.2) (s.restoreClock eid))) := by
  subst hls
  refine occurs_of rfl ?_
  have hsome : ((sealedLaunches s eid).isEmpty && e.images.isEmpty) = false := by
    rcases hwork with h | h
    · rw [List.isEmpty_eq_false_iff.mpr h, Bool.false_and]
    · rw [List.isEmpty_eq_false_iff.mpr h, Bool.and_false]
  simp only [he]
  refine (if_neg ?_).trans ?_
  · rw [hopen]
    exact Bool.eq_false_iff.mp hsome
  · exact (apply_ite some _ _ _).symm

/-! Partitions (R380, R381) -/

theorem writePart_reserved {slice : Nat} {v : BitVec 64} {s : State} (h : v.toNat / 2 ^ 12 % 16 ≠ 0 ∨ v.toNat / 2 % 128 ≠ 0) :
    s.writePart slice v = s := by
  refine if_pos ?_
  rcases h with h | h
  · simp only [h, ne_eq, not_false_eq_true, decide_true, Bool.true_or]
  · simp only [h, ne_eq, not_false_eq_true, decide_true, Bool.true_or, Bool.or_true]

theorem writePart_enables {slice : Nat} {v : BitVec 64} {s : State} (hhigh : v.toNat / 2 ^ 12 % 16 = 0) (hlow : v.toNat / 2 % 128 = 0)
    (hslice : slice < Config.slices) (hresize : s.reg.resize.find slice = none) (hen : v.toNat % 2 = 1)
    (hfields : partFields slice v.toNat = true) (hfree : s.overlaps' slice (slice + partSize v) = false) (hold : partEn (s.part slice) = false) :
    s.writePart slice v = { s with reg := { s.reg with part := s.reg.part.put slice v } } := by
  simp only [State.writePart, hhigh, hlow, hresize, hen, hfields, hfree, hold, Nat.not_le.mpr hslice, ne_eq, not_true_eq_false, decide_false,
    Option.isSome_none, Bool.not_true, Bool.or_self, Bool.false_and, Bool.false_eq_true, if_false, one_ne_zero]

section Resize

variable {slice : Nat} {v : BitVec 64} {s : State} {cores : List Nat} (hv : s.reg.resize.find slice = some v)
  (hcores : cores = leavingCores slice (s.part slice) v)
include hv hcores

theorem partitionResize_ends (hgone : s.teams.filter (fun p => cores.contains p.2.core) = []) (hpaused : s.paused.contains slice = true) :
    Occurs (.partitionResize slice) s
      (State.moveWalkers { s with reg := { s.reg with part := s.reg.part.put slice v, resize := s.reg.resize.del slice } }
        (cores.map (· / 384)).dedup) := by
  subst hcores
  refine occurs_of rfl ?_
  simp only [hv, hgone, hpaused, List.isEmpty_nil, Bool.not_true, Bool.false_eq_true, if_false]

/-- A team on a leaving core whose enclave has no soft request makes the resize ask. -/
theorem partitionResize_asks {n : Nat} {t : Team} {e : Encl} (hmem : (n, t) ∈ s.teams) (hcore : cores.contains t.core = true)
    (he : s.encls.find (s.eidOfTeam n) = some e) (hsoft : e.soft = none) : Occurs (.partitionResize slice) s (s.softOn cores) := by
  subst hcores
  refine occurs_of rfl ?_
  simp only [hv]
  have hthere : (n, t) ∈ s.teams.filter fun p => (leavingCores slice (s.part slice) v).contains p.2.core := List.mem_filter.mpr ⟨hmem, hcore⟩
  refine (if_pos ?_).trans (if_neg fun hall => ?_)
  · rw [List.isEmpty_eq_false_iff.mpr (List.ne_nil_of_mem hthere)]
    rfl
  · have hasked := List.all_eq_true.mp hall _ hthere
    simp only [he, hsoft, Bool.false_eq_true] at hasked

end Resize

/-! Quads, engines and blocks (R293, R388, R389, R392) -/

theorem quadOk_of {slice quad : Nat} (hslice : slice < Config.slices) (hquad : quad < Config.quadsPerSlice) : quadOk slice quad = true := by
  rw [quadOk, decide_eq_true hslice, decide_eq_true hquad]
  rfl

section Engine

variable {engine : Nat} {v : Dword} {s : State}

theorem ceownWrite_occurs (hengine : engine < Config.engines) (hv : v.toNat < 512) : Occurs (.ceownWrite engine v) s (s.applyCeown engine v) := by
  refine occurs_of rfl (if_pos ?_)
  rw [decide_eq_true hengine, decide_eq_true hv]
  rfl

theorem applyCeown_now (h : v.setWidth 8 = (s.ceown engine).setWidth 8 ∨ (s.boundChans.any fun c => c / 16 = engine) = false) :
    s.applyCeown engine v = { s with reg := { s.reg with ceown := Tab.set s.reg.ceown 0x100 engine v, ceNext := s.reg.ceNext.del engine } } := by
  refine if_neg ?_
  rcases h with h | h
  · simp only [h, ne_eq, not_true_eq_false, decide_false, Bool.false_and, Bool.false_eq_true, not_false_eq_true]
  · simp only [h, Bool.and_false, Bool.false_eq_true, not_false_eq_true]

theorem applyCeown_later (hother : ¬ v.setWidth 8 = (s.ceown engine).setWidth 8) (hbound : (s.boundChans.any fun c => c / 16 = engine) = true) :
    s.applyCeown engine v = { s with reg := { s.reg with ceNext := s.reg.ceNext.put engine v } } := by
  refine if_pos ?_
  simp only [hother, hbound, ne_eq, not_false_eq_true, decide_true, Bool.and_self]

/-- An engine whose owner takes no bindings, or is to take none, serves no channel. -/
theorem served_eq_none {o : Owner} {ch p : Nat} (hphys : (s.chan o ch).phys = some p)
    (hoff : (s.ceown (p / 16)).getLsbD 8 = false ∨ ∃ x, s.reg.ceNext.find (p / 16) = some x ∧ x.getLsbD 8 = false) : s.served o ch = none := by
  unfold State.served
  dsimp only
  rw [hphys]
  split
  · next p' _ hp =>
    obtain rfl : p = p' := Option.some.inj hp
    refine if_neg ?_
    rcases hoff with h | ⟨x, hx, hbit⟩
    · rw [h, Bool.and_false, Bool.false_and]
      exact Bool.false_ne_true
    · rw [hx, Option.all_some, hbit, Bool.and_false]
      exact Bool.false_ne_true
  · rfl

end Engine

section Block

variable {v : BitVec 64} {s : State} (hv : v.toNat < 2 ^ 48) (hzero : v.toNat / 2 ^ 16 % 2 ^ 15 = 0)
include hv hzero

/-- What a write of BLKMOVE with its fields in range comes to. -/
theorem exec_blkmove : exec (.blkmove v) s = agent s (match blkStatus s v.toNat with
    | some c => some { s with reg := { s.reg with blkStat := c.code } }
    | none => if s.blockHeld (blockFrame v.toNat) then none else
        let m := s.moveBlock (blockFrame v.toNat) (.ofNat 8 (v.toNat / 256))
        some { m with reg := { m.reg with blkmove := v, blkBusy := true, blkStat := 0 } }) := by
  refine congrArg (agent s) (if_neg ?_)
  simp only [hzero, Nat.not_le.mpr hv, ne_eq, not_true_eq_false, decide_false, Bool.or_self, Bool.false_eq_true, not_false_eq_true]

theorem blkmove_refused {c : Status} (hc : blkStatus s v.toNat = some c) :
    Occurs (.blkmove v) s { s with reg := { s.reg with blkStat := c.code } } :=
  occurs_of (exec_blkmove hv hzero) (by rw [hc])

theorem blkmove_begins (hc : blkStatus s v.toNat = none) (hheld : s.blockHeld (blockFrame v.toNat) = false) {m : State}
    (hm : m = s.moveBlock (blockFrame v.toNat) (.ofNat 8 (v.toNat / 256))) :
    Occurs (.blkmove v) s { m with reg := { m.reg with blkmove := v, blkBusy := true, blkStat := 0 } } := by
  subst hm
  refine occurs_of (exec_blkmove hv hzero) ?_
  rw [hc]
  exact if_neg (Bool.eq_false_iff.mp hheld)

theorem blkmove_waits (hc : blkStatus s v.toNat = none) (hheld : s.blockHeld (blockFrame v.toNat) = true) : exec (.blkmove v) s = .next s := by
  rw [exec_blkmove hv hzero, hc]
  exact congrArg (agent s) (if_pos hheld)

end Block

/-- Settles O49: each write, request and deadline by the condition and the effect of its arm. -/
theorem contextEvents : Obligations.ContextEvents := by
  unfold Obligations.ContextEvents
  refine ⟨fun eid e s hbusy he => ?preempt, fun eid e x s he hx => ⟨fun hmet => softRequestEnd_occurs he hx hmet,
      fun hmet => softRequestEnd_waits he hx hmet, fun hthere => ⟨fun hdue => g1Deadline_occurs he hx hthere hdue,
        fun g hg hdue => g2Deadline_occurs he hx hthere hg hdue⟩,
      fun hgone hout hpre => endSoft_met he hx (softMet_of_gone hgone hout) hpre⟩,
    fun eid core e s he hset hthere hdue holdest hwants => timeSliceExpiry_occurs he rfl hset hthere hdue holdest hwants,
    fun eid core e s he hopen hwork => ?restore,
    fun slice v s => ⟨occurs_of rfl rfl, fun h => writePart_reserved h, fun hhigh hlow hslice hresize hen hfields hfree hold =>
      writePart_enables hhigh hlow hslice hresize hen hfields hfree hold⟩,
    fun slice v s hv => ⟨fun hgone hpaused => partitionResize_ends hv rfl hgone hpaused,
      fun n t e hmem hcore he hsoft => partitionResize_asks hv rfl hmem hcore he hsoft⟩,
    fun slice quad s hslice hquad => ⟨occurs_of rfl (if_pos (quadOk_of hslice hquad)), occurs_of rfl (if_pos (quadOk_of hslice hquad))⟩,
    fun engine v s hengine hv => ⟨fun hnow => (ceownWrite_occurs hengine hv).of_eq (applyCeown_now hnow),
      fun hother hbound => (ceownWrite_occurs hengine hv).of_eq (applyCeown_later hother hbound),
      fun o ch p hphys hoff => served_eq_none hphys hoff⟩,
    fun v s hv hzero => ⟨fun c hc => blkmove_refused hv hzero hc, fun hc hheld => blkmove_begins hv hzero hc hheld rfl,
      fun hc hheld => blkmove_waits hv hzero hc hheld⟩⟩
  case preempt =>
    have hp := (preemptee_of_idle (eid := eid) hbusy).trans he
    exact ⟨fun hordered => preemptResume_occurs hp hordered rfl, fun hordered => preemptResume_ignored hp hordered,
      preemptSoft_occurs hp, preemptHalt_occurs hp, preemptKill_occurs hp⟩
  case restore =>
    have h := contextRestore_occurs (core := core) he hopen rfl hwork
    refine ⟨fun hgood => h.of_eq (if_neg ?_), fun hls hbad => h.of_eq (if_pos ?_)⟩
    · rcases hgood with hnone | hgood
      · rw [sealedLaunches, hnone]
        exact Bool.false_ne_true
      · rw [sealedLaunches, hgood, Bool.and_false]
        exact Bool.false_ne_true
    · rw [sealedLaunches, hbad, List.isEmpty_eq_false_iff.mpr hls]
      rfl

end Sys2Proof.Machine
end

section
/-! SUPPORT. Completions of the events of errors, tandem and the error registers (R415-R427, R445, R450). -/

namespace Sys2Proof.Machine

-- Declarations of this section are elaborated in turn, which bounds the memory the text takes.
set_option Elab.async false

/-! What no count, write-back or interrupt touches: the tandem, and the partitions that stand at a command boundary (R423, R424) -/

/-- The tandem, and the lead slices of the partitions asked to stand at a command boundary. -/
def State.tandemView (s : State) : Tandem × List Nat := (s.tandem, s.paused)

theorem tandemView_of_eq {s u : State} (htandem : u.tandem = s.tandem) (hpaused : u.paused = s.paused) : u.tandemView = s.tandemView :=
  Prod.ext htandem hpaused

theorem foldl_tandemView {α : Type} {f : State → α → State} (hf : ∀ s x, (f s x).tandemView = s.tandemView) (l : List α) (s : State) :
    (l.foldl f s).tandemView = s.tandemView := by
  induction l generalizing s with
  | nil => rfl
  | cons x l ih => exact (ih _).trans (hf s x)

/-! The parts of the state -/

@[simp] theorem setThread_tandemView (s : State) (i : ThreadId) (t : Thread) : (s.setThread i t).tandemView = s.tandemView :=
  tandemView_of_eq (State.setThread_tandem ..) (State.setThread_paused ..)

@[simp] theorem modThread_tandemView (s : State) (i : ThreadId) (f : Thread → Thread) : (s.modThread i f).tandemView = s.tandemView := by
  unfold State.modThread
  split
  · exact setThread_tandemView ..
  · rfl

@[simp] theorem modHost_tandemView (s : State) (n : Nat) (f : HostCore → HostCore) : (s.modHost n f).tandemView = s.tandemView := rfl

@[simp] theorem modEncl_tandemView (s : State) (n : Nat) (f : Encl → Encl) : (s.modEncl n f).tandemView = s.tandemView :=
  tandemView_of_eq (State.modEncl_tandem ..) (State.modEncl_paused ..)

@[simp] theorem modStore_tandemView (s : State) (o : Owner) (f : Store → Store) : (s.modStore o f).tandemView = s.tandemView := by
  cases o with
  | host n => rfl
  | team t => exact tandemView_of_eq (State.modTeam_tandem ..) (State.modTeam_paused ..)

@[simp] theorem setBar_tandemView (s : State) (r : BarRef) (b : BarObj) : (s.setBar r b).tandemView = s.tandemView := by
  cases r with
  | own o h => exact modStore_tandemView ..
  | ctx e h => exact modEncl_tandemView ..

@[simp] theorem count_tandemView (s : State) (core eid code k : Nat) : (s.count core eid code k).tandemView = s.tandemView :=
  tandemView_of_eq (State.count_tandem ..) (State.count_paused ..)

@[simp] theorem countSlice_tandemView (s : State) (slice code k : Nat) : (s.countSlice slice code k).tandemView = s.tandemView := by
  unfold State.countSlice
  split <;> rfl

@[simp] theorem addEpoch_tandemView (s : State) (core : Nat) (g : Sig) : (s.addEpoch core g).tandemView = s.tandemView := rfl

/-! The home (R33, R128) -/

@[simp] theorem inject_tandemView (s : State) (p : Nat → Bool) : (s.inject p).tandemView = s.tandemView := by
  unfold State.inject
  split
  · split <;> rfl
  · rfl

@[simp] theorem l2Fill_tandemView (s : State) (line : Nat) (ways : List Nat) (dirty : Bool) :
    (s.l2Fill line ways dirty).tandemView = s.tandemView := by
  unfold State.l2Fill
  dsimp only
  split
  · exact countSlice_tandemView ..
  · split
    · split
      · exact (countSlice_tandemView ..).trans (countSlice_tandemView ..)
      · exact countSlice_tandemView ..
    · exact countSlice_tandemView ..

@[simp] theorem l2Write_tandemView (s : State) (line : Nat) : (s.l2Write line).tandemView = s.tandemView := by
  unfold State.l2Write State.l2Touch
  dsimp only
  split
  · exact countSlice_tandemView ..
  · exact (l2Fill_tandemView ..).trans (countSlice_tandemView ..)

@[simp] theorem firstWrite_tandemView (s : State) (frame : Nat) : (s.firstWrite frame).tandemView = s.tandemView := by
  unfold State.firstWrite State.scrubFrame
  split
  · exact inject_tandemView ..
  · rfl

@[simp] theorem grant_tandemView (s : State) (line : Nat) : (s.grant line).tandemView = s.tandemView := by
  unfold State.grant
  dsimp only
  refine (countSlice_tandemView ..).trans ?_
  split
  · exact inject_tandemView ..
  · rfl

@[simp] theorem landHalf_tandemView (s : State) (l : Line) (j : Nat) : (s.landHalf l j).1.tandemView = s.tandemView := by
  unfold State.landHalf State.landLine
  dsimp only
  split
  · rfl
  · split
    · rfl
    · have hpokes (s : State) (bytes : List (Nat × Byte)) : (bytes.foldl (fun s p => s.poke p.1 p.2) s).tandemView = s.tandemView :=
        foldl_tandemView (f := fun s p => s.poke p.1 p.2) (fun _ _ => rfl) bytes s
      simp only [inject_tandemView, hpokes, grant_tandemView, firstWrite_tandemView]

@[simp] theorem landDirty_tandemView (s : State) (l : Line) : (s.landDirty l).1.tandemView = s.tandemView := by
  unfold State.landDirty
  split
  · rfl
  · simp only [count_tandemView, addEpoch_tandemView, landHalf_tandemView, l2Write_tandemView]

@[simp] theorem flushLines_tandemView (s : State) (p : Line → Bool) : (s.flushLines p).tandemView = s.tandemView :=
  foldl_tandemView (fun s l => landDirty_tandemView s l) ..

/-! Integrity failures (R373, R374) -/

@[simp] theorem terminalRecord_tandemView (s : State) (slice : Nat) (r : FRec) : (s.terminalRecord slice r).tandemView = s.tandemView := by
  unfold State.terminalRecord
  split
  · rfl
  · split <;> rfl

theorem withdrawKick_tandemView (s : State) (i : ThreadId) (restart : Word) : (s.withdrawKick i restart).1.tandemView = s.tandemView := by
  unfold State.withdrawKick
  dsimp only
  split
  · split
    · exact modThread_tandemView ..
    · rfl
  · rfl

@[simp] theorem asyncExit_tandemView (s : State) (n num : Nat) (sealIt : Bool) (restart : Word) :
    (s.asyncExit n num sealIt restart).tandemView = s.tandemView := by
  obtain ⟨w, r, hw⟩ : ∃ w r, s.withdrawKick (.host n) restart = (w, r) := ⟨_, _, rfl⟩
  have hkick : w.tandemView = s.tandemView := by simpa only [hw] using withdrawKick_tandemView s (.host n) restart
  unfold State.asyncExit
  simp only [hw]
  split
  · rfl
  · rw [modHost_tandemView, setThread_tandemView]
    refine Eq.trans ?_ hkick
    split
    · split
      · exact tandemView_of_eq (by simp only [State.modEncl_tandem]) (by simp only [State.modEncl_paused])
      · rfl
    · rfl

@[simp] theorem failEnclave_tandemView (s : State) (eid : Nat) : (s.failEnclave eid).tandemView = s.tandemView := by
  unfold State.failEnclave
  split
  · rfl
  · split
    · rfl
    · refine (foldl_tandemView (fun s n => ?_) ..).trans (modEncl_tandemView ..)
      split
      · split
        · split
          · exact asyncExit_tandemView ..
          · rfl
        · rfl
      · rfl

theorem poisonOne_tandemView (s : State) (frame : Nat) {record : State → State} (hrecord : ∀ s, (record s).tandemView = s.tandemView) :
    (s.poisonOne frame record).tandemView = s.tandemView := by
  unfold State.poisonOne
  dsimp only
  split
  · rfl
  · split
    · exact (failEnclave_tandemView ..).trans ((hrecord _).trans (flushLines_tandemView ..))
    · exact (hrecord _).trans (flushLines_tandemView ..)

@[simp] theorem poisonFrame_tandemView (s : State) (frame : Nat) (sp : Space) (kind : AccessKind) (va slice : Nat) (agent : Nat × Nat) :
    (s.poisonFrame frame sp kind va slice agent).tandemView = s.tandemView := by
  unfold State.poisonFrame
  dsimp only
  split
  · exact (terminalRecord_tandemView ..).trans (foldl_tandemView (fun s f => poisonOne_tandemView s f fun _ => rfl) ..)
  · exact poisonOne_tandemView _ _ fun s => terminalRecord_tandemView ..

@[simp] theorem writeBackLine_tandemView (s : State) (l : Line) : (s.writeBackLine l).tandemView = s.tandemView := by
  unfold State.writeBackLine
  dsimp only
  split
  · exact landDirty_tandemView ..
  · exact (poisonFrame_tandemView ..).trans (landDirty_tandemView ..)

/-! Barriers and interrupts (R150, R151, R204, R415) -/

@[simp] theorem acquireFor_tandemView (s : State) (i : ThreadId) (scope : Nat) : (s.acquireFor i scope).tandemView = s.tandemView := by
  unfold State.acquireFor State.evictLines
  split
  · rfl
  · split
    · exact (modThread_tandemView ..).trans (foldl_tandemView writeBackLine_tandemView ..)
    · rfl

@[simp] theorem orderFor_tandemView (s : State) (i : ThreadId) (scope : Nat) : (s.orderFor i scope).tandemView = s.tandemView := by
  unfold State.orderFor
  extract_lets waits
  split
  · exact modThread_tandemView ..
  · exact acquireFor_tandemView ..

@[simp] theorem seeLanded_tandemView (s : State) (i : ThreadId) (r : BarRef) : (s.seeLanded i r).tandemView = s.tandemView := by
  unfold State.seeLanded
  split
  · rfl
  · exact modThread_tandemView ..

@[simp] theorem wakeAll_tandemView (s : State) (r : BarRef) (b : BarObj) : (s.wakeAll r b).tandemView = s.tandemView := by
  refine foldl_tandemView (fun s p => ?_) ..
  split
  · split
    · simp only [State.wake, orderFor_tandemView, seeLanded_tandemView, addEpoch_tandemView, modThread_tandemView]
    · rfl
  · rfl

@[simp] theorem barDone_tandemView (s : State) (r : BarRef) (b : BarObj) : (s.barDone r b).tandemView = s.tandemView := by
  unfold State.barDone
  dsimp only
  split
  · split
    · exact Eq.trans (by unfold State.depCheck; split <;> rfl) ((wakeAll_tandemView ..).trans (setBar_tandemView ..))
    · exact (wakeAll_tandemView ..).trans (setBar_tandemView ..)
  · exact setBar_tandemView ..

theorem looseCount_tandemView (s : State) (r : BarRef) (n : Nat) : (s.looseCount r n).tandemView = s.tandemView := by
  unfold State.looseCount State.engineCount
  dsimp only
  split
  · exact barDone_tandemView ..
  · rfl

@[simp] theorem rasEvent_tandemView (s : State) (b : Nat) : (s.rasEvent b).tandemView = s.tandemView := by
  unfold State.rasEvent State.assertIrq
  dsimp only
  split
  · rfl
  · exact looseCount_tandemView ..

theorem rasEvent_tandem (s : State) (b : Nat) : (s.rasEvent b).tandem = s.tandem := congrArg Prod.fst (rasEvent_tandemView s b)

theorem rasEvent_paused (s : State) (b : Nat) : (s.rasEvent b).paused = s.paused := congrArg Prod.snd (rasEvent_tandemView s b)

theorem eccError_tandem (s : State) (cls slice : Nat) (uncorr : Bool) : (s.eccError cls slice uncorr).tandem = s.tandem := by
  unfold State.eccError
  dsimp only
  split
  · exact rasEvent_tandem ..
  · rfl

/-! Triplets (R415-R418) -/

section Triplets

variable {trip : Triplet} {copy : Nat} {s : State}

theorem tripletDissent_occurs (hexists : tripExists trip = true) (hcopy : copy < 3) (hduplex : (s.trip (tripKey trip)).duplex = false)
    (hstop : (s.trip (tripKey trip)).stop = false) : Occurs (.tripletDissent trip copy) s (s.resyncStart (tripKey trip) copy) := by
  refine occurs_of rfl ?_
  simp only [hexists, Nat.not_le.mpr hcopy, hduplex, hstop, Bool.not_true, decide_false, Bool.or_self, Bool.false_eq_true, if_false]

/-- A resync is over after 2,048 clocks (R416). -/
theorem trip_duplex_of_passed {n : Nat} {t : Trip} (ht : s.trips.find n = some t) (hpassed : t.since + 2048 ≤ s.clock) (hstop : t.stop = false) :
    (s.trip n).duplex = false := by
  have hget : Tab.getD s.trips n {} = t := by rw [Tab.getD, ht]; rfl
  unfold State.trip
  simp only [hget, hstop, Bool.not_false, Bool.and_true]
  split
  · rfl
  next h =>
    have hpassed' : t.since + 2048 ≤ s.time / Config.ticksPerCoreClock := hpassed
    simpa only [hpassed', decide_true, Bool.and_true, Bool.not_eq_true] using h

theorem resyncEnd_occurs (hduplex : (s.trip (tripKey trip)).duplex = true) (hstop : (s.trip (tripKey trip)).stop = false) :
    Occurs (.resyncEnd trip) s (s.modTrip (tripKey trip) fun t => { t with duplex := false }) :=
  occurs_of rfl (if_pos (by rw [hduplex, hstop]; rfl))

theorem tripletStop_occurs (hexists : tripExists trip = true) (hstop : (s.trip (tripKey trip)).stop = false) :
    Occurs (.tripletStop trip) s (s.stopTriplet trip) :=
  occurs_of rfl (if_neg (by rw [hexists, hstop]; decide))

theorem endLaunch_mem (s : State) (n : Nat) (e : Word) : (s.endLaunch n e).mem = s.mem := State.modLaunch_mem ..

theorem endLaunch_queues (s : State) (n : Nat) (e : Word) : (s.endLaunch n e).queues = s.queues := State.modLaunch_queues ..

theorem foldl_endLaunch (l : List (Nat × Launch)) (e : Word) (s : State) :
    (l.foldl (fun s p => s.endLaunch p.1 e) s).mem = s.mem ∧ (l.foldl (fun s p => s.endLaunch p.1 e) s).queues = s.queues := by
  induction l generalizing s with
  | nil => exact ⟨rfl, rfl⟩
  | cons p l ih =>
    obtain ⟨hmem, hqueues⟩ := ih (s.endLaunch p.1 e)
    exact ⟨hmem.trans (endLaunch_mem ..), hqueues.trans (endLaunch_queues ..)⟩

/-- The stop of a command processor stops the queues of its slice. -/
theorem stopCp_queues (s : State) (lead : Nat) : (s.stopCp lead).mem = s.mem ∧ (s.stopCp lead).queues = s.queues.map fun p =>
    if p.1 / 256 = lead then (p.1, { p.2 with stopped := true }) else p := by
  obtain ⟨hmem, hqueues⟩ := foldl_endLaunch (s.launches.filter fun p => p.2.lead = lead) 0x202 s
  refine ⟨hmem, ?_⟩
  unfold State.stopCp
  simp only [hqueues]

theorem stopWork_cp (hkind : trip.kind = 0) : s.stopWork trip = s.stopCp trip.slice.toNat := by
  unfold State.stopWork
  simp only [hkind]
  rfl

theorem stopWork_walker {w : Walker} (hkind : trip.kind = 1)
    (hw : s.walkers.find? (fun w => w.is trip.slice.toNat trip.index.toNat) = some w) : s.stopWork trip = s.endLaunch w.launch 0x202 := by
  unfold State.stopWork
  simp only [hkind]
  change (match s.walkers.find? (fun w => w.is trip.slice.toNat trip.index.toNat) with
    | some w => s.endLaunch w.launch 0x202
    | none => s) = _
  rw [hw]

theorem stopWork_journal (hkind : trip.kind = 3) : s.stopWork trip = s := by
  unfold State.stopWork
  simp only [hkind]
  rfl

theorem tripletRestart_occurs (hstop : (s.trip (tripKey trip)).stop = true) (hup : s.tandem.failed = false) {r : State}
    (hr : r = s.modTrip (tripKey trip) fun t => { t with stop := false, duplex := false }) :
    Occurs (.tripletRestart trip) s (if trip.kind = 0 then r.releaseQueues trip.slice.toNat else r) := by
  subst hr
  exact occurs_of rfl (if_neg (by rw [hstop, hup]; decide))

/-- An error in the state of a copy (R416, R419). -/
theorem copyError_idle (hstop : (s.trip (tripKey trip)).stop = false) (hduplex : (s.trip (tripKey trip)).duplex = false) :
    s.copyError trip copy = s.resyncStart (tripKey trip) copy :=
  (if_neg (by rw [hstop]; decide)).trans (if_pos (by rw [hduplex]; rfl))

theorem copyError_second (hstop : (s.trip (tripKey trip)).stop = false) (hduplex : (s.trip (tripKey trip)).duplex = true)
    (hlast : (s.trip (tripKey trip)).last ≠ copy) : s.copyError trip copy = s.stopTriplet trip :=
  (if_neg (by rw [hstop]; decide)).trans ((if_neg (by rw [hduplex]; decide)).trans (if_neg hlast))

end Triplets

/-! Uncorrectable errors in the arrays of a core (R420, R421) -/

section Arrays

variable {s : State}

theorem registerError_occurs {t : ThreadId} {x : Thread} {code : Nat} (ht : s.thread? t = some x) (hcode : code < 0x7C) :
    Occurs (.uncorrectableError (.register t code)) s
      ((s.modThread t fun x => { x with poison := code :: x.poison.filter (· ≠ code) }).coreError 0 (s.coreIx t) true) :=
  occurs_of rfl (if_neg (by simp only [ht, Option.isNone_some, Nat.not_le.mpr hcode, decide_false, Bool.or_self, Bool.false_eq_true, not_false_eq_true]))

theorem operandLogError_occurs {n : Nat} {e : LogEntry} (he : s.log.find? (fun e => e.num == n) = some e) :
    Occurs (.uncorrectableError (.operandLog n)) s
      (State.coreError { s with log := s.log.map fun x => if x.num = n then { x with poison := true } else x } 0 e.core true) := by
  refine occurs_of rfl ?_
  simp only [he]

theorem scratchError_occurs {o : Owner} {w : Nat} (hw : 4 * w < s.spadSize o) : Occurs (.uncorrectableError (.scratch o w)) s
    ((s.modStore o fun x => { x with poison := w :: x.poison.filter (· ≠ w) }).coreError 1 (s.ownerCore o) true) :=
  occurs_of rfl (if_neg (Nat.not_le.mpr hw))

theorem barrierError_occurs {o : Owner} {h : Nat} (hbar : ((s.store o).bars.find h).isSome = true) :
    Occurs (.uncorrectableError (.barrier o h)) s
      ((s.modStore o fun x => { x with bars := x.bars.map fun b => if b.1 = h then (h, { b.2 with poison := true }) else b }).coreError 1
        (s.ownerCore o) true) :=
  occurs_of rfl (if_neg (by simp only [Option.isNone_eq_false_iff.mpr hbar, Bool.false_eq_true, not_false_eq_true]))

theorem tileError_occurs {team key : Nat} {t : Team} (ht : s.teams.find team = some t) : Occurs (.uncorrectableError (.tile team key)) s
    ((s.modTeam team fun x => { x with tpoison := key :: x.tpoison.filter (· ≠ key) }).coreError 3 t.core true) := by
  refine occurs_of rfl ?_
  simp only [ht]

theorem bBufferError_occurs {op q : Nat} {x : Quad} {b : BBuf} (hq : s.quads.find? (fun q => q.2.bufs.any (·.op = op)) = some (q, x))
    (hb : x.bufs.find? (·.op = op) = some b) : Occurs (.uncorrectableError (.bBuffer op)) s ((s.modQuad q fun x => { x with
      bufs := x.bufs.map fun y => if y.op = op then { y with poison := true } else y }).coreError 3 b.core true) := by
  refine occurs_of rfl ?_
  simp only [hq, hb]

/-- A line of a cache at a core's address. -/
def Line.isAt (core line : Nat) (l : Line) : Bool := l.core = core && l.va = line

/-- What an error in the L1 lines at an address leaves of them: its clean ones go, and all dirty bytes of the others hold poison (R420, R421). -/
def State.l1Lines (s : State) (core line : Nat) : List Line :=
  (s.lines.filter fun l => !(l.isAt core line && l.dirty.isEmpty)).map fun l => if l.isAt core line then l.dirtyAll else l

theorem mem_l1Lines {core line : Nat} {x : Line} (hx : x ∈ s.l1Lines core line) :
    ∃ l ∈ s.lines, (l.isAt core line = true → l.dirty.isEmpty = false) ∧ x = if l.isAt core line then l.dirtyAll else l := by
  obtain ⟨l, hl, rfl⟩ := List.mem_map.mp hx
  obtain ⟨hmem, hkept⟩ := List.mem_filter.mp hl
  refine ⟨l, hmem, fun hat => ?_, rfl⟩
  simpa only [hat, Bool.true_and, Bool.not_eq_true'] using hkept

theorem l1Error_occurs {core line : Nat} (hhit : s.lines.any (Line.isAt core line) = true) {dirty : Bool}
    (hdirty : (s.lines.any fun l => l.isAt core line && !l.dirty.isEmpty) = dirty) :
    Occurs (.uncorrectableError (.l1 core line)) s (State.coreError { s with lines := s.l1Lines core line } 2 core dirty) := by
  subst hdirty
  exact occurs_of rfl (if_neg (by rw [Bool.not_eq_true, Bool.not_eq_false']; exact hhit))

theorem l1_hit_of_dirty {core line : Nat} (hdirty : (s.lines.any fun l => l.isAt core line && !l.dirty.isEmpty) = true) :
    s.lines.any (Line.isAt core line) = true := by
  obtain ⟨l, hl, hat⟩ := List.any_eq_true.mp hdirty
  exact List.any_eq_true.mpr ⟨l, hl, (Bool.and_eq_true_iff.mp hat).1⟩

/-- Where the lines at the address were clean, none is left. -/
theorem l1Lines_of_clean {core line : Nat} (hclean : (s.lines.any fun l => l.isAt core line && !l.dirty.isEmpty) = false) :
    (s.l1Lines core line).any (Line.isAt core line) = false := by
  refine List.any_eq_false.mpr fun x hx => ?_
  obtain ⟨l, hl, hkept, rfl⟩ := mem_l1Lines hx
  have hno : ¬ l.isAt core line = true := fun hat =>
    List.any_eq_false.mp hclean l hl (by rw [hat, hkept hat]; rfl)
  rwa [if_neg hno]

theorem l1Lines_dirty {core line : Nat} {x : Line} (hx : x ∈ s.l1Lines core line) (hat : x.isAt core line = true) :
    x.dirty.all x.poison.contains = true := by
  obtain ⟨l, -, -, rfl⟩ := mem_l1Lines hx
  split at hat
  · next h =>
    simp only [if_pos h, Line.dirtyAll, List.all_eq_true, List.contains_iff_mem, List.mem_dedup, List.mem_append]
    exact fun b hb => .inr hb
  · contradiction

theorem iLineError_occurs {core line : Nat} (hhit : s.ilines.any (Line.isAt core line) = true) :
    Occurs (.uncorrectableError (.roLine true core line)) s
      (State.coreError { s with ilines := s.ilines.filter (!Line.isAt core line ·) } 2 core false) :=
  occurs_of rfl (if_pos hhit)

theorem cLineError_occurs {core line : Nat} (hhit : s.clines.any (Line.isAt core line) = true) :
    Occurs (.uncorrectableError (.roLine false core line)) s
      (State.coreError { s with clines := s.clines.filter (!Line.isAt core line ·) } 2 (4 * core) false) :=
  occurs_of rfl (if_pos hhit)

end Arrays

/-! Errors in the arrays of a slice (R416, R420, R422, R423) -/

section Slices

variable {s : State} {slice copy : Nat}

theorem counterCacheError_occurs (hslice : slice < Config.slices) : Occurs (.uncorrectableError (.counterCache slice)) s (s.eccError 5 slice false) :=
  occurs_of rfl (if_pos hslice)

theorem queueEntryError_occurs (hslice : slice < Config.slices) (hcopy : copy < 3) : Occurs (.uncorrectableError (.queueEntry slice copy)) s
    ((s.eccError 5 slice false).copyError ⟨0, .ofNat 4 slice, 0⟩ copy) :=
  occurs_of rfl (if_pos (by rw [decide_eq_true hslice, decide_eq_true hcopy]; rfl))

theorem tripletStateError_occurs {trip : Triplet} (hexists : tripExists trip = true) (hcopy : copy < 3) :
    Occurs (.uncorrectableError (.tripletState trip copy)) s (s.copyError trip copy) :=
  occurs_of rfl (if_pos (by rw [hexists, decide_eq_true hcopy]; rfl))

theorem hbmError_occurs {pa : Nat} (hslice : pa / 2 ^ 36 < Config.slices) (hl2 : (s.l2.any fun l => l.line = pa / 128) = false)
    (hdata : pa % 2 ^ 36 < Config.ctreeBase) : Occurs (.uncorrectableError (.hbm pa)) s
      { s with badTags := pa / 64 :: s.badTags.filter (· ≠ pa / 64) } :=
  occurs_of rfl <| (if_neg (by rw [hl2, decide_eq_false (Nat.not_le.mpr hslice)]; decide)).trans (if_neg (Nat.not_le.mpr hdata))

theorem rootStoreError_occurs {m : Nat} (hslice : slice < Config.slices) (hm : m < 4096) : Occurs (.uncorrectableError (.rootStore slice m)) s
    ((s.eccError 6 slice true).poisonMany ((List.range 4096).map (slice * 2 ^ 24 + m * 4096 + ·)) slice) :=
  occurs_of rfl (if_pos (by rw [decide_eq_true hslice, decide_eq_true hm]; rfl))

theorem tandemError_failed (b : Bool) (hfailed : s.tandem.failed = true) :
    Occurs (.uncorrectableError (.tandem b)) s (s.eccError 7 0 true) :=
  occurs_of rfl (congrArg some (if_pos (by rw [eccError_tandem, hfailed])))

theorem tandemError_active {b : Bool} (hup : s.tandem.failed = false) (hb : b = s.tandem.activeB) :
    Occurs (.uncorrectableError (.tandem b)) s (s.eccError 7 0 true).tandemDown :=
  occurs_of rfl (congrArg some ((if_neg (by rw [eccError_tandem, hup]; decide)).trans (if_pos (by rw [eccError_tandem, hb]))))

theorem tandemError_standby {b : Bool} (hup : s.tandem.failed = false) (hb : b ≠ s.tandem.activeB) {r : State} (hr : r = s.eccError 7 0 true) :
    Occurs (.uncorrectableError (.tandem b)) s { r with tandem := { r.tandem with standby := false } } := by
  subst hr
  exact occurs_of rfl (congrArg some ((if_neg (by rw [eccError_tandem, hup]; decide)).trans (if_neg (by rwa [eccError_tandem]))))

theorem cleanError_occurs {cls : Nat} (hcls : cls < 8) (hslice : slice < Config.slices) :
    Occurs (.uncorrectableError (.clean cls slice none)) s (s.eccError cls slice false) :=
  occurs_of rfl (if_pos (by rw [decide_eq_true hslice, decide_eq_true hcls]; rfl))

theorem cleanError_quad {cls q : Nat} (hcls : cls < 8) (hslice : slice < Config.slices) (hq : q < Config.quadsPerSlice) :
    Occurs (.uncorrectableError (.clean cls slice (some q))) s
      ((s.eccError cls slice false).modQuad (96 * slice + q) fun x => { x with corr := s.ns :: x.corr }) :=
  occurs_of rfl (if_pos (by rw [decide_eq_true hslice, decide_eq_true hcls, Option.all_some, decide_eq_true hq]; rfl))

theorem quadAutoRemove_occurs {quad : Nat} (hslice : slice < Config.slices) (hquad : quad < Config.quadsPerSlice)
    (hin : (s.quad (96 * slice + quad)).out = false) (hfails : s.quadFails (96 * slice + quad) = true) : Occurs (.quadAutoRemove slice quad) s
      (((s.modQuad (96 * slice + quad) fun x => { x with uncorr := false, corr := [] }).quadOut (96 * slice + quad)).rasEvent 3) := by
  have hok : quadOk slice quad = true := by rw [quadOk, decide_eq_true hslice, decide_eq_true hquad]; rfl
  exact occurs_of rfl (if_pos (by rw [hok, hin, hfails]; rfl))

theorem quadFails_of {q : Nat} (h : (s.quad q).uncorr = true ∨ 64 < ((s.quad q).corr.filter fun t => s.ns < t + 3600000000000).length) :
    s.quadFails q = true := by
  rw [State.quadFails, Bool.or_eq_true, decide_eq_true_iff]
  exact h

end Slices

/-! The firmware tandem (R423, R424, R445) -/

section Firmware

variable {s : State}

theorem tandemFailover_occurs (hstandby : s.tandem.standby = true) (hup : s.tandem.failed = false) : Occurs .tandemFailover s
    (State.rasEvent { s with tandem := { s.tandem with activeB := !s.tandem.activeB, standby := false } } 4) :=
  occurs_of rfl ((if_pos (by rw [hstandby, hup]; rfl)).trans (congrArg some (if_pos hstandby)))

theorem tandemRejoin_occurs (hstandby : s.tandem.standby = false) (hup : s.tandem.failed = false) :
    Occurs (.tandemRejoin true) s { s with tandem := { s.tandem with standby := true, simplex := false } } :=
  occurs_of rfl ((if_neg (by rw [hstandby, hup]; decide)).trans (if_pos rfl))

theorem tandemRejoin_simplex (hstandby : s.tandem.standby = false) (hup : s.tandem.failed = false) :
    Occurs (.tandemRejoin false) s (State.rasEvent { s with tandem := { s.tandem with simplex := true } } 5) :=
  occurs_of rfl ((if_neg (by rw [hstandby, hup]; decide)).trans (if_neg (by decide)))

theorem tandemSimplexFailure_occurs (hsimplex : s.tandem.simplex = true) (hup : s.tandem.failed = false) :
    Occurs .tandemSimplexFailure s s.tandemDown :=
  occurs_of rfl (if_pos (by rw [hsimplex, hup]; rfl))

variable {v : BitVec 64}

theorem fwupd_starts (hidle : s.tandem.update = none) (hlen : v.toNat / 2 ^ 48 ≠ 0) (hpage : v.toNat % 4096 = 0) :
    Occurs (.fwupd v) s { s with tandem := { s.tandem with update := some v } } :=
  occurs_of rfl <| (if_pos (by rw [hidle]; rfl)).trans <| congrArg some <| if_neg (by
    simp only [hidle, hlen, hpage, Option.isSome_none, ne_eq, not_true_eq_false, decide_false, Bool.or_self, Bool.false_eq_true,
      not_false_eq_true])

section Running

variable (hrun : s.tandem.update = some v)
include hrun

theorem fwupd_simplex (hstandby : s.tandem.standby = false) : Occurs (.fwupd v) s (s.endUpdate 5) := by
  refine occurs_of rfl ?_
  simp only [hrun, hstandby, Option.isNone_some, ne_eq, not_true_eq_false, Bool.not_false, Bool.false_eq_true, if_false, if_true]

theorem fwupd_malformed (hstandby : s.tandem.standby = true) (himage : fwImage s v.toNat = none) : Occurs (.fwupd v) s (s.endUpdate 2) := by
  refine occurs_of rfl ?_
  simp only [hrun, hstandby, himage, Option.isNone_some, ne_eq, not_true_eq_false, Bool.not_true, Bool.false_eq_true, if_false]

end Running

theorem endUpdate_tandem (s : State) (n : Nat) : (s.endUpdate n).tandem.update = none := by rw [State.endUpdate, rasEvent_tandem]

theorem endUpdate_paused (s : State) (n : Nat) : (s.endUpdate n).paused = s.paused.filter fun k => !s.tandem.quiet.contains k := by
  rw [State.endUpdate, rasEvent_paused]

end Firmware

/-! A live update whose image is found (R424, R445) -/

section Update

variable {s : State} {v : BitVec 64} {f : FwImage} (hrun : s.tandem.update = some v) (hstandby : s.tandem.standby = true)
  (himage : fwImage s v.toNat = some f)
include hrun hstandby himage

theorem fwupd_ends (hboundary : s.unpaused = []) : Occurs (.fwupd v) s (
    if Config.firmwareSigned f.message f.sig = false then s.endUpdate 2
    else if f.rollback < s.tandem.minRoll then s.endUpdate 3
    else match Config.conversion f.bytes s.tandem.version with
      | none => s.endUpdate 4
      | some ver => State.endUpdate { s with tandem := { s.tandem with
          activeB := !s.tandem.activeB, version := ver % 65536, commit := if f.commit then some f.rollback else none
          digest := some (keyOf (sha256 f.message)) } } 1) := by
  refine occurs_of rfl ?_
  simp only [hrun, hstandby, himage, hboundary, Option.isNone_some, ne_eq, not_true_eq_false, Bool.not_true, Bool.false_eq_true, if_false,
    List.isEmpty_nil, Bool.not_eq_true']
  split
  · rfl
  · split
    · rfl
    · cases Config.conversion f.bytes s.tandem.version <;> rfl

theorem fwupd_asks {ver : Nat} (hsigned : Config.firmwareSigned f.message f.sig = true) (hroll : s.tandem.minRoll ≤ f.rollback)
    (hver : Config.conversion f.bytes s.tandem.version = some ver) (hbusy : s.unpaused ≠ []) : Occurs (.fwupd v) s
      { s with paused := s.unpaused ++ s.paused, tandem := { s.tandem with quiet := s.tandem.quiet ++ s.unpaused } } := by
  have hask : (!s.unpaused.isEmpty) = true := by rw [List.isEmpty_eq_false_iff.mpr hbusy]; rfl
  refine occurs_of rfl ?_
  simp only [hrun, hstandby, himage, hsigned, hver, hask, Nat.not_lt.mpr hroll, Option.isNone_some, ne_eq, not_true_eq_false, Bool.not_true,
    Bool.false_eq_true, if_false, if_true]

end Update

theorem unpaused_eq_nil {s : State} (h : ∀ k, k < Config.slices → partEn (s.part k) = true → s.paused.contains k = true) : s.unpaused = [] := by
  refine List.filter_eq_nil_iff.mpr fun k hk => ?_
  rw [Bool.and_eq_true, not_and, Bool.not_eq_true']
  exact fun hen => by rw [h k (List.mem_range.mp hk) hen]; decide

/-! Writes that clear or store (R321, R322, R348, R379, R415, R427, R450) -/

section Writes

variable {s : State} {v : BitVec 64}

theorem rasstatClear_occurs (hv : v.toNat < 128) :
    Occurs (.rasstatClear v) s { s with reg := { s.reg with rasstat := s.reg.rasstat &&& ~~~(v.setWidth 7) } } :=
  occurs_of rfl (if_pos hv)

theorem registerWrite_occurs (o : Nat) {u : State} (h : s.writeRegister o v.toNat = u) : Occurs (.registerWrite o v) s u :=
  occurs_of rfl (congrArg some h)

theorem ofNat_toNat_eq (v : BitVec 64) : BitVec.ofNat 64 v.toNat = v := by rw [BitVec.ofNat_toNat, BitVec.setWidth_eq]

/-- No field of a register reaches bit 48, so such a value sets a reserved bit. -/
theorem div_two_pow_ne_zero {n k : Nat} (hn : 2 ^ 48 ≤ n) (hk : k ≤ 48) : n / 2 ^ k ≠ 0 :=
  Nat.div_ne_zero_iff.mpr ⟨by positivity, (Nat.pow_le_pow_right (by decide) hk).trans hn⟩

/-! The blocks of the anchor die's registers -/

section Blocks

variable {off o : Nat} {r : Anchor} (ho : o < 0x1000)
include ho

theorem poolWrite_occurs (hoff : off = 0x3000 + o) (hweight : o ≠ 0x68) (hr : s.writePool o v.toNat = r) :
    Occurs (.registerWrite off v) s { s with reg := r } := by
  have hdiv : off / 0x1000 = 3 := by omega
  have hmod : off % 0x1000 = o := by omega
  refine registerWrite_occurs off ?_
  unfold State.writeRegister
  simp only [hdiv, hmod, if_neg hweight, hr]

theorem rasWrite_occurs (hoff : off = 0x4000 + o) (hr : s.reg.writeRas o v.toNat = r) :
    Occurs (.registerWrite off v) s { s with reg := r } := by
  have hdiv : off / 0x1000 = 4 := by omega
  have hmod : off % 0x1000 = o := by omega
  refine registerWrite_occurs off ?_
  unfold State.writeRegister
  simp only [hdiv, hmod, hr]

theorem ckWrite_occurs (hoff : off = 0x5000 + o) (hr : s.reg.writeCk o v.toNat = r) :
    Occurs (.registerWrite off v) s { s with reg := r } := by
  have hdiv : off / 0x1000 = 5 := by omega
  have hmod : off % 0x1000 = o := by omega
  refine registerWrite_occurs off ?_
  unfold State.writeRegister
  simp only [hdiv, hmod, hr]

theorem powerWrite_occurs (hoff : off = 0x6000 + o) (hr : s.reg.writePower o v.toNat = r) :
    Occurs (.registerWrite off v) s { s with reg := r } := by
  have hdiv : off / 0x1000 = 6 := by omega
  have hmod : off % 0x1000 = o := by omega
  refine registerWrite_occurs off ?_
  unfold State.writeRegister
  simp only [hdiv, hmod, hr]

end Blocks

/-! Fault rings and weights (R321, R348) -/

theorem frtabWrite_occurs (hhigh : v.toNat / 2 ^ 48 = 0) (hpage : v.toNat % 4096 = 0) :
    Occurs (.registerWrite 0x1000 v) s { s with reg := { s.reg with frtab := v } } :=
  registerWrite_occurs 0x1000 <| (if_pos (by rw [hhigh, hpage]; rfl)).trans (by rw [ofNat_toNat_eq])

theorem frwtWrite_occurs (hv : v.toNat < 4096) (hweight : v.toNat % 256 ≠ 0) : Occurs (.registerWrite 0x1008 v) s
    { s with reg := { s.reg with frwt := Tab.set s.reg.frwt 0 (v.toNat % 256) (v.toNat / 256) } } :=
  registerWrite_occurs 0x1008 <| if_pos (by rw [Nat.div_eq_of_lt (b := 2 ^ 12) hv, decide_eq_true hweight]; rfl)

theorem priwtWrite_occurs (hv : v.toNat < 2 ^ 20) (hweight : 2 ^ 16 ≤ v.toNat) : Occurs (.registerWrite 0x3068 v) s
    (s.modEncl (v.toNat % 65536) fun e => { e with weight := v.toNat / 2 ^ 16 }) :=
  registerWrite_occurs 0x3068 <| if_pos (by
    rw [Nat.div_eq_of_lt hv, decide_eq_true ((Nat.one_le_div_iff (by decide)).mpr hweight)]; rfl)

/-! Partitions and pools (R379) -/

theorem gptabWrite_occurs (hhigh : v.toNat / 2 ^ 48 = 0) (halign : v.toNat % 256 = 0) :
    Occurs (.registerWrite 0x3060 v) s { s with reg := { s.reg with gptab := v } } :=
  poolWrite_occurs (o := 0x60) (by decide) rfl (by decide) <|
    (if_pos (by rw [hhigh, halign]; rfl)).trans (by rw [ofNat_toNat_eq])

theorem slselWrite_occurs (hv : v.toNat < 2 ^ 16) (hzero : v.toNat / 16 % 16 = 0) (hslice : v.toNat % 16 < Config.slices) :
    Occurs (.registerWrite 0x3200 v) s { s with reg := { s.reg with slsel := v } } :=
  poolWrite_occurs (o := 0x200) (by decide) rfl (by decide) <|
    (if_pos (by rw [Nat.div_eq_of_lt hv, hzero, decide_eq_true hslice]; rfl)).trans (by rw [ofNat_toNat_eq])

theorem waymaskWrite_occurs (hv : v.toNat < 65536) (hsome : v.toNat ≠ 0) : Occurs (.registerWrite 0x3208 v) s
    { s with reg := { s.reg with waymask := Tab.set s.reg.waymask 0xFFFF s.reg.slsel.toNat (v.setWidth 16) } } :=
  poolWrite_occurs (o := 0x208) (by decide) rfl (by decide) <|
    (if_pos (by rw [Nat.div_eq_of_lt (b := 2 ^ 16) hv, decide_eq_true hsome]; rfl)).trans (by rw [BitVec.ofNat_toNat])

theorem shareWrite_occurs (hv : v.toNat < 64) : Occurs (.registerWrite 0x3210 v) s
    { s with reg := { s.reg with share := Tab.set s.reg.share 0 (s.reg.slsel.toNat % 16) (v.setWidth 6) } } :=
  poolWrite_occurs (o := 0x210) (by decide) rfl (by decide) <| (if_pos (Nat.div_eq_of_lt hv)).trans (by rw [BitVec.ofNat_toNat])

theorem enqselWrite_occurs {e : Nat × Bool} (hv : v.toNat < 2 ^ 29) (hcore : v.toNat / 65536 ≤ 4703)
    (he : s.energy (enqCore (v.toNat / 65536)) (v.toNat % 65536) = e) : Occurs (.registerWrite 0x3300 v) s
    { s with reg := { s.reg with enqsel := v, enqval := .ofNat 64 (bit e.2 * 2 ^ 63 + e.1) } } := by
  subst he
  exact poolWrite_occurs (o := 0x300) (by decide) rfl (by decide) <|
    (if_pos (by rw [Nat.div_eq_of_lt hv, decide_eq_true hcore]; rfl)).trans (by rw [ofNat_toNat_eq])

theorem svpoolWrite_occurs {k : Nat} (hk : k < 12) (hfields : areaFields k v.toNat = true) : Occurs (.registerWrite (0x3240 + 8 * k) v) s
    { s with reg := { s.reg with svpool := Tab.set s.reg.svpool 0 k v } } := by
  have hindex : (0x240 + 8 * k - 0x240) / 8 = k := by omega
  refine poolWrite_occurs (o := 0x240 + 8 * k) (by omega) (by omega) (by omega) ?_
  unfold State.writePool
  simp only [show 0x240 + 8 * k ≠ 0x60 by omega, show 0x240 + 8 * k ≠ 0x200 by omega, show 0x240 + 8 * k ≠ 0x208 by omega,
    show 0x240 + 8 * k ≠ 0x210 by omega, show 0x240 ≤ 0x240 + 8 * k by omega, show 0x240 + 8 * k < 0x2A0 by omega, if_false, if_true,
    decide_true, Bool.and_self, hindex, hfields, ofNat_toNat_eq]

/-! Resilience (R415) -/

theorem trselWrite_occurs (hfields : trselFields v.toNat = true) :
    Occurs (.registerWrite 0x4000 v) s { s with reg := { s.reg with trsel := v } } :=
  rasWrite_occurs (o := 0) (by decide) rfl <| (if_pos hfields).trans (by rw [ofNat_toNat_eq])

theorem eccselWrite_occurs (hv : v.toNat < 2 ^ 11) (hzero : v.toNat / 16 % 16 = 0) (hslice : v.toNat / 256 = 7 ∨ v.toNat % 16 < Config.slices) :
    Occurs (.registerWrite 0x4010 v) s { s with reg := { s.reg with eccsel := if v.toNat / 256 = 7 then 0x700 else v } } :=
  rasWrite_occurs (o := 0x10) (by decide) rfl <|
    (if_pos (by simp only [Nat.div_eq_of_lt hv, hzero, decide_true, Bool.true_and, Bool.or_eq_true, decide_eq_true_iff, hslice])).trans
      (by rw [ofNat_toNat_eq])

theorem rascfgWrite_occurs (hfields : irqFields v.toNat = true) :
    Occurs (.registerWrite 0x4020 v) s { s with reg := { s.reg with rascfg := v } } :=
  rasWrite_occurs (o := 0x20) (by decide) rfl <| (if_pos hfields).trans (by rw [ofNat_toNat_eq])

/-! Checkpoints (R427) -/

theorem ckselWrite_occurs (hv : v.toNat < 65536) : Occurs (.registerWrite 0x5000 v) s { s with reg := { s.reg with cksel := v } } :=
  ckWrite_occurs (o := 0) (by decide) rfl <| (if_pos (Nat.div_eq_of_lt hv)).trans (by rw [ofNat_toNat_eq])

theorem ckirqWrite_occurs (hfields : irqFields v.toNat = true) :
    Occurs (.registerWrite 0x5010 v) s { s with reg := { s.reg with ckirq := v } } :=
  ckWrite_occurs (o := 0x10) (by decide) rfl <| (if_pos hfields).trans (by rw [ofNat_toNat_eq])

theorem ckareaWrite_occurs {k : Nat} (hk : k < 12) (hfields : areaFields k v.toNat = true) : Occurs (.registerWrite (0x5040 + 8 * k) v) s
    { s with reg := { s.reg with ckarea := Tab.set s.reg.ckarea 0 k v } } := by
  have hindex : (0x40 + 8 * k - 0x40) / 8 = k := by omega
  refine ckWrite_occurs (o := 0x40 + 8 * k) (by omega) (by omega) ?_
  unfold Anchor.writeCk
  simp only [show 0x40 + 8 * k ≠ 0 by omega, show 0x40 + 8 * k ≠ 0x10 by omega, show 0x40 ≤ 0x40 + 8 * k by omega,
    show 0x40 + 8 * k < 0xA0 by omega, if_false, if_true, decide_true, Bool.and_self, hindex, hfields, ofNat_toNat_eq]

theorem ckpoolWrite_occurs {k : Nat} (hk : k < 12) (hfields : areaFields k v.toNat = true) : Occurs (.registerWrite (0x50A0 + 8 * k) v) s
    { s with reg := { s.reg with ckpool := Tab.set s.reg.ckpool 0 k v } } := by
  have hindex : (0xA0 + 8 * k - 0xA0) / 8 = k := by omega
  refine ckWrite_occurs (o := 0xA0 + 8 * k) (by omega) (by omega) ?_
  unfold Anchor.writeCk
  simp only [show 0xA0 + 8 * k ≠ 0 by omega, show 0xA0 + 8 * k ≠ 0x10 by omega, show ¬ 0xA0 + 8 * k < 0xA0 by omega,
    show 0xA0 ≤ 0xA0 + 8 * k by omega, show 0xA0 + 8 * k < 0x100 by omega, if_false, if_true, decide_true, decide_false, Bool.and_self,
    Bool.and_false, Bool.false_eq_true, hindex, hfields, ofNat_toNat_eq]

/-! Power, event counters and ports (R450) -/

theorem thrcfgWrite_occurs (hv : v.toNat < 2 ^ 24) (hfields : irqFields (v.toNat % 2 ^ 16) = true) (hlow : 85 ≤ v.toNat / 2 ^ 16 % 256)
    (hhigh : v.toNat / 2 ^ 16 % 256 ≤ 110) : Occurs (.registerWrite 0x6060 v) s { s with reg := { s.reg with thrcfg := v } } :=
  powerWrite_occurs (o := 0x60) (by decide) rfl <|
    (if_pos (by rw [Nat.div_eq_of_lt hv, hfields, decide_eq_true hlow, decide_eq_true hhigh]; rfl)).trans (by rw [ofNat_toNat_eq])

theorem sevselWrite_occurs (hv : v.toNat < 2 ^ 24) (hzero : v.toNat / 1024 % 64 = 0) (hslice : v.toNat / 2 ^ 20 % 16 < Config.slices) :
    Occurs (.registerWrite 0x6070 v) s
      { s with reg := { s.reg with sevsel := v, sevsrc := s.reg.sevsrc.put (v.toNat / 2 ^ 16) (v.toNat % 1024) } } :=
  powerWrite_occurs (o := 0x70) (by decide) rfl <|
    (if_pos (by rw [Nat.div_eq_of_lt hv, hzero, decide_eq_true hslice]; rfl)).trans (by rw [ofNat_toNat_eq])

theorem pciecfgWrite_occurs {k : Nat} (hk : k < 4) (hfields : irqFields v.toNat = true) : Occurs (.registerWrite (0x6080 + 8 * k) v) s
    { s with reg := { s.reg with pciecfg := Tab.set s.reg.pciecfg 0 k v } } := by
  have hindex : (0x80 + 8 * k - 0x80) / 8 = k := by omega
  refine powerWrite_occurs (o := 0x80 + 8 * k) (by omega) (by omega) ?_
  unfold Anchor.writePower
  simp only [show 0x80 + 8 * k ≠ 0x60 by omega, show 0x80 + 8 * k ≠ 0x70 by omega, show 0x80 ≤ 0x80 + 8 * k by omega,
    show 0x80 + 8 * k < 0xA0 by omega, if_false, if_true, decide_true, Bool.and_self, hindex, hfields, ofNat_toNat_eq]

/-! Values with a reserved bit -/

section Ignored

variable {n o : Nat} (hn : 2 ^ 48 ≤ n)
include hn

/-- The guards of the registers begin with the zero bits above their fields. -/
theorem high_guard {k : Nat} (hk : k ≤ 48) : decide (n / 2 ^ k = 0) = false := decide_eq_false (div_two_pow_ne_zero hn hk)

theorem irqFields_of_high : irqFields n = false := by
  rw [irqFields, high_guard hn (by decide)]
  rfl

theorem trselFields_of_high : trselFields n = false := by
  rw [trselFields, decide_eq_false (by omega)]
  rfl

theorem writePool_ignored (ho : o ∈ [0x60, 0x200, 0x208, 0x210, 0x300]) : s.writePool o n = s.reg := by
  simp only [List.mem_cons, List.not_mem_nil, or_false] at ho
  rcases ho with rfl | rfl | rfl | rfl | rfl
  · exact if_neg (by rw [high_guard hn (by decide), Bool.false_and]; decide)
  · exact if_neg (by rw [high_guard hn (by decide), Bool.false_and, Bool.false_and]; decide)
  · exact if_neg (by rw [high_guard hn (by decide), Bool.false_and]; decide)
  · exact if_neg (div_two_pow_ne_zero (k := 6) hn (by decide))
  · exact if_neg (by rw [high_guard hn (by decide), Bool.false_and]; decide)

theorem writeRas_ignored (r : Anchor) (ho : o ∈ [0, 0x10, 0x20]) : r.writeRas o n = r := by
  simp only [List.mem_cons, List.not_mem_nil, or_false] at ho
  rcases ho with rfl | rfl | rfl
  · exact if_neg (by rw [trselFields_of_high hn]; decide)
  · exact if_neg (by rw [high_guard hn (by decide), Bool.false_and, Bool.false_and]; decide)
  · exact if_neg (by rw [irqFields_of_high hn]; decide)

theorem writeCk_ignored (r : Anchor) (ho : o ∈ [0, 0x10]) : r.writeCk o n = r := by
  simp only [List.mem_cons, List.not_mem_nil, or_false] at ho
  rcases ho with rfl | rfl
  · exact if_neg (div_two_pow_ne_zero (k := 16) hn (by decide))
  · exact if_neg (by rw [irqFields_of_high hn]; decide)

theorem writePower_ignored (r : Anchor) (ho : o ∈ [0x60, 0x70]) : r.writePower o n = r := by
  simp only [List.mem_cons, List.not_mem_nil, or_false] at ho
  rcases ho with rfl | rfl
  · exact if_neg (by rw [high_guard hn (by decide), Bool.false_and, Bool.false_and, Bool.false_and]; decide)
  · exact if_neg (by rw [high_guard hn (by decide), Bool.false_and, Bool.false_and]; decide)

end Ignored

theorem registerWrite_ignored {o : Nat}
    (ho : o ∈ [0x1000, 0x3060, 0x3068, 0x3200, 0x3208, 0x3210, 0x3300, 0x4000, 0x4010, 0x4020, 0x5000, 0x5010, 0x6060, 0x6070])
    (hv : 2 ^ 48 ≤ v.toNat) : Occurs (.registerWrite o v) s s := by
  simp only [List.mem_cons, List.not_mem_nil, or_false] at ho
  rcases ho with rfl | rfl | rfl | rfl | rfl | rfl | rfl | rfl | rfl | rfl | rfl | rfl | rfl | rfl
  · exact registerWrite_occurs 0x1000 (if_neg (by rw [high_guard hv (by decide), Bool.false_and]; decide))
  · exact poolWrite_occurs (by decide) rfl (by decide) (writePool_ignored (o := 0x60) hv (by decide))
  · exact registerWrite_occurs 0x3068 (if_neg (by rw [high_guard hv (by decide), Bool.false_and]; decide))
  · exact poolWrite_occurs (by decide) rfl (by decide) (writePool_ignored (o := 0x200) hv (by decide))
  · exact poolWrite_occurs (by decide) rfl (by decide) (writePool_ignored (o := 0x208) hv (by decide))
  · exact poolWrite_occurs (by decide) rfl (by decide) (writePool_ignored (o := 0x210) hv (by decide))
  · exact poolWrite_occurs (by decide) rfl (by decide) (writePool_ignored (o := 0x300) hv (by decide))
  · exact rasWrite_occurs (by decide) rfl (writeRas_ignored (o := 0) hv _ (by decide))
  · exact rasWrite_occurs (by decide) rfl (writeRas_ignored (o := 0x10) hv _ (by decide))
  · exact rasWrite_occurs (by decide) rfl (writeRas_ignored (o := 0x20) hv _ (by decide))
  · exact ckWrite_occurs (by decide) rfl (writeCk_ignored (o := 0) hv _ (by decide))
  · exact ckWrite_occurs (by decide) rfl (writeCk_ignored (o := 0x10) hv _ (by decide))
  · exact powerWrite_occurs (by decide) rfl (writePower_ignored (o := 0x60) hv _ (by decide))
  · exact powerWrite_occurs (by decide) rfl (writePower_ignored (o := 0x70) hv _ (by decide))

end Writes

/-- Settles O51: each event by the conditions under which its agent answers; the tandem's errors and the end of an update by what an interrupt
leaves unchanged; a line of a cache by what the filter keeps. -/
theorem resilienceEvents : Obligations.ResilienceEvents := by
  unfold Obligations.ResilienceEvents
  refine ⟨fun trip copy s hexists hcopy hduplex hstop => tripletDissent_occurs hexists hcopy hduplex hstop,
    fun n t s ht hstop hpassed => trip_duplex_of_passed ht hpassed hstop,
    fun trip s hduplex hstop => resyncEnd_occurs hduplex hstop,
    fun trip s hexists hstop => tripletStop_occurs hexists hstop,
    fun trip s => ⟨fun hkind => ⟨_, stopWork_cp hkind, (stopCp_queues s _).1, (stopCp_queues s _).2⟩,
      fun w hkind hw => stopWork_walker hkind hw, fun hkind => stopWork_journal hkind⟩,
    fun trip s hstop hup => tripletRestart_occurs hstop hup rfl,
    fun t x code s ht hcode => registerError_occurs ht hcode,
    fun n e s he => operandLogError_occurs he,
    fun o w s hw => scratchError_occurs hw,
    fun o h s hbar => barrierError_occurs hbar,
    fun team key t s ht => tileError_occurs ht,
    fun op q x b s hq hb => bBufferError_occurs hq hb,
    fun core line s => ⟨fun hhit hclean => ⟨_, l1Error_occurs hhit hclean, l1Lines_of_clean hclean, rfl⟩,
      fun hdirty => ⟨_, l1Error_occurs (l1_hit_of_dirty hdirty) hdirty, rfl, fun l hl hat => l1Lines_dirty hl hat⟩,
      fun hhit => iLineError_occurs hhit, fun hhit => cLineError_occurs hhit⟩,
    fun sp page s hhit => occurs_of rfl (if_pos hhit),
    fun slice copy trip s hcopy => ⟨fun hslice => ⟨counterCacheError_occurs hslice, queueEntryError_occurs hslice hcopy⟩,
      occurs_of rfl (if_pos hcopy),
      fun hexists => ⟨tripletStateError_occurs hexists hcopy, copyError_idle, copyError_second⟩⟩,
    fun pa s hslice => ⟨hbmError_occurs hslice, occurs_of rfl (if_pos hslice)⟩,
    fun slice m s hslice hm => rootStoreError_occurs hslice hm,
    fun b s => ⟨tandemError_failed b, tandemError_active, fun hup hb => tandemError_standby hup hb rfl⟩,
    fun cls slice s hcls hslice => ⟨cleanError_occurs hcls hslice, fun q hq => cleanError_quad hcls hslice hq⟩,
    fun slice quad s hslice hquad hin hfails => quadAutoRemove_occurs hslice hquad hin (quadFails_of hfails),
    fun s hstandby hup => tandemFailover_occurs hstandby hup,
    fun s hstandby hup => ⟨tandemRejoin_occurs hstandby hup, tandemRejoin_simplex hstandby hup⟩,
    fun s hsimplex hup => tandemSimplexFailure_occurs hsimplex hup,
    fun v s hidle hlen hpage => fwupd_starts hidle hlen hpage,
    fun v s hrun => ⟨fwupd_simplex hrun, fwupd_malformed hrun, fun f hstandby himage hall => ?ends,
      fun f ver hstandby himage => fwupd_asks hrun hstandby himage,
      fun n => ⟨endUpdate_tandem s n, endUpdate_paused s n⟩⟩,
    fun s => ⟨occurs_of rfl rfl, occurs_of rfl rfl, occurs_of rfl rfl, occurs_of rfl rfl, fun v hv => rasstatClear_occurs hv⟩,
    fun v s => ⟨frtabWrite_occurs, gptabWrite_occurs, frwtWrite_occurs, priwtWrite_occurs, slselWrite_occurs,
      fun hv hcore => enqselWrite_occurs hv hcore rfl, trselWrite_occurs, ckselWrite_occurs, thrcfgWrite_occurs, sevselWrite_occurs,
      fun k hk hfields => pciecfgWrite_occurs hk hfields, fun o ho hv => registerWrite_ignored ho hv, shareWrite_occurs, eccselWrite_occurs,
      waymaskWrite_occurs, fun hfields => ⟨rascfgWrite_occurs hfields, ckirqWrite_occurs hfields⟩,
      fun k hk hfields => ⟨svpoolWrite_occurs hk hfields, ckareaWrite_occurs hk hfields, ckpoolWrite_occurs hk hfields⟩⟩⟩
  case ends =>
    refine (fwupd_ends hrun hstandby himage (unpaused_eq_nil hall)).of_eq ?_
    split
    · rfl
    · split
      · rfl
      · cases Config.conversion f.bytes s.tandem.version <;> rfl

end Sys2Proof.Machine
end

section
/-! SUPPORT. Completions of the events of checkpoints, restores and migration (R428-R443). -/

namespace Sys2Proof.Machine

-- Declarations of this section are elaborated in turn, which bounds the memory the text takes.
set_option Elab.async false

/-! Notices (R428, R429) -/

section Notices

variable {s : State}

theorem notify_checkpointable {eid d : Nat} {e : Encl} (he : s.liveEncl eid = some e) (hctl : e.checkpointable = true) :
    s.notify eid d = (((s.modEncl eid fun e => { e with notice := earlier e.notice (some d) }).looseCount (.ctx eid 255) 32).ckNote eid 1
      .ok).softRequest eid (s.partCores e.lead) := by
  unfold State.notify
  simp only [he, hctl, Bool.not_true, Bool.false_eq_true, if_false]

theorem notice_occurs {eid : BitVec 16} {d : BitVec 64} {e : Encl} (hman : s.managed = true) (hall : eid ≠ 0xFFFF)
    (he : s.liveEncl eid.toNat = some e) : Occurs (.notice eid d) s ((s.notify eid.toNat d.toNat).respond 0) := by
  have hone : eid.toNat ≠ 0xFFFF := fun h => hall (BitVec.eq_of_toNat_eq h)
  refine occurs_of rfl ?_
  simp only [hman, hone, he, Bool.not_true, Bool.false_eq_true, if_false]
  rfl

theorem notice_all {d : BitVec 64} (hman : s.managed = true) :
    Occurs (.notice 0xFFFF d) s ((s.encls.foldl (fun s e => s.notify e.1 d.toNat) s).respond 0) :=
  occurs_of rfl <| (if_neg (by rw [hman]; decide)).trans (if_pos rfl)

theorem noticeDeadline_occurs {eid d : Nat} {e : Encl} (he : s.liveEncl eid = some e) (hd : e.notice = some d) (hpast : d ≤ s.ns)
    (hidle : (s.ckJobs.any fun j => j.eid = eid && !j.restore && j.move.isNone) = false) : Occurs (.noticeDeadline eid) s
      (((s.modEncl eid fun e => { e with notice := none }).orderHalt eid).ckNote eid 4 .ok) := by
  refine occurs_of rfl ?_
  simp only [he, hd, hidle, Nat.not_lt.mpr hpast, decide_false, Bool.or_self, Bool.false_eq_true, if_false]

end Notices

/-! Checkpoints (R430-R433, R436) -/

section Checkpoints

variable {eid : Nat} {e : Encl} {j : CkJob} {s : State}

/-- The write of a result record, where it succeeds, ends the request. -/
theorem finishJob_of_written {r : CkResult} {t u : State} (hwrote : (s.ckResult j.eid e r.rva r.step r.status r.kind).2 = true)
    (ht : t = (s.ckResult j.eid e r.rva r.step r.status r.kind).1)
    (hu : u = State.ckNote { t with ckJobs := t.ckJobs.erase j } j.eid (ckEvent r.kind) r.status) :
    s.finishJob j e r = if j.began then u.endHalt j.eid (j.mode = 1) else u := by
  subst hu ht
  unfold State.finishJob
  generalize s.ckResult j.eid e r.rva r.step r.status r.kind = w at hwrote ⊢
  obtain ⟨t, done⟩ := w
  obtain rfl : done = true := hwrote
  rfl

section Turn

variable (hone : s.secondJob eid false = none) (hj : s.ckJobs.find? (fun j => j.eid == eid) = some j) (he : s.encls.find eid = some e)
  (hkind : j.restore = false) (hmove : j.move = none) (hturn : s.ckTurn j = true)
include hone hj he hkind hmove hturn

/-- A turn of the oldest checkpoint request. -/
theorem checkpoint_turn {u : State} (h : (match j.result with
    | some r => s.finishJob j e r
    | none =>
      if j.began = false then if ckStatus s j e = .ok then
          State.haltContext { s with ckJobs := s.ckJobs.map fun (x : CkJob) => if x = j then { x with began := true } else x } eid
        else s.endJob j e (j.ends (ckStatus s j e))
      else if e.failed then s.endJob j e (j.ends .badstate)
      else if s.haltDone eid then s.formCheckpoint j e else s.forceHalt eid) = u) : Occurs (.checkpoint eid) s u := by
  subst h
  refine occurs_of rfl ?_
  simp only [hone, hj, he, hkind, hmove, hturn, Option.isSome_none, Bool.not_true, Bool.or_self, Bool.false_eq_true, if_false]
  cases j.result with
  | some r => rfl
  | none =>
    cases j.began with
    | false => cases hstatus : ckStatus s j e <;> rfl
    | true =>
      simp only [Bool.not_true, Bool.false_eq_true, if_false, Bool.true_eq_false]
      cases e.failed with
      | true => rfl
      | false => cases s.haltDone eid <;> rfl

theorem checkpoint_writes {r : CkResult} (hr : j.result = some r) : Occurs (.checkpoint eid) s (s.finishJob j e r) :=
  checkpoint_turn hone hj he hkind hmove hturn (by simp only [hr])

variable (hr : j.result = none)
include hr

theorem checkpoint_halts (hnew : j.began = false) (hok : ckStatus s j e = .ok) : Occurs (.checkpoint eid) s
    (State.haltContext { s with ckJobs := s.ckJobs.map fun (x : CkJob) => if x = j then { x with began := true } else x } eid) :=
  checkpoint_turn hone hj he hkind hmove hturn (by simp only [hr, hnew, hok, if_true])

theorem checkpoint_fails {x : CkStatus} (hnew : j.began = false) (hx : ckStatus s j e = x) (hbad : x ≠ .ok) :
    Occurs (.checkpoint eid) s (s.endJob j e ⟨j.rva, j.step, x, 1⟩) :=
  checkpoint_turn hone hj he hkind hmove hturn (by
    simp only [hr, hnew, hx, hbad, CkJob.ends, hkind, if_true, if_false, Bool.false_eq_true])

variable (hbegan : j.began = true) (hlive : e.failed = false)
include hbegan hlive

theorem checkpoint_forms (hdone : s.haltDone eid = true) : Occurs (.checkpoint eid) s (s.formCheckpoint j e) :=
  checkpoint_turn hone hj he hkind hmove hturn (by
    simp only [hr, hbegan, hlive, hdone, Bool.true_eq_false, Bool.false_eq_true, if_false, if_true])

theorem checkpoint_forces (hdone : s.haltDone eid = false) : Occurs (.checkpoint eid) s (s.forceHalt eid) :=
  checkpoint_turn hone hj he hkind hmove hturn (by
    simp only [hr, hbegan, hlive, hdone, Bool.true_eq_false, Bool.false_eq_true, if_false])

end Turn

end Checkpoints

/-! Restores (R437, R438) -/

section Restores

variable {eid : Nat} {e : Encl} {j : CkJob} {s : State} (hone : s.secondJob eid true = none)
  (hj : s.ckJobs.find? (fun j => j.eid == eid) = some j) (he : s.encls.find eid = some e) (hkind : j.restore = true) (hmove : j.move = none)
  (hturn : s.ckTurn j = true)
include hone hj he hkind hmove hturn

theorem restore_writes {r : CkResult} (hr : j.result = some r) : Occurs (.restore eid) s (s.finishJob j e r) := by
  refine occurs_of rfl ?_
  simp only [hone, hj, he, hkind, hmove, hturn, hr, Option.isSome_none, Bool.not_true, Bool.or_self, Bool.false_eq_true, if_false]

variable (hr : j.result = none) (hret : s.unreturned (.host j.host) = false)
include hr hret

theorem restore_fails {r : State} {x : CkStatus} (hcheck : checkRestore s j e = .fail r x) :
    Occurs (.restore eid) s (r.endJob j e ⟨j.rva, j.step, x, 2⟩) := by
  refine occurs_of rfl ?_
  simp only [hone, hj, he, hkind, hmove, hturn, hr, hret, hcheck, CkJob.ends, Option.isSome_none, Bool.not_true, Bool.or_self,
    Bool.false_eq_true, if_false, if_true]

theorem restore_loads {r : State} {img : CkImage} {frames : List EcdPage} (hcheck : checkRestore s j e = .good r img frames) :
    Occurs (.restore eid) s (((r.leaveHost j.host eid).loadImage eid e frames img).endJob j e ⟨img.rva, img.step, .ok, 2⟩) := by
  refine occurs_of rfl ?_
  simp only [hone, hj, he, hkind, hmove, hturn, hr, hret, hcheck, Option.isSome_none, Bool.not_true, Bool.or_self, Bool.false_eq_true,
    if_false]

end Restores

/-! Migration commands (R432, R441) -/

section Commands

variable {n p : Nat} {s : State}

/-- What the status of a migration command makes of it. -/
def State.runMove (s : State) (n : Nat) (out : Bool) (p : Nat) (x : CkStatus) : State :=
  if x = .ok then (s.beginMove n out p).respond 0 else s.respond x.code

/-- The status of a migration command. -/
def State.moveStatus (s : State) (n : Nat) (out : Bool) (p : Nat) : CkStatus := if out then migrateStatus s n p else arrivalStatus s n p

theorem match_status (s : State) (n : Nat) (out : Bool) (p : Nat) (x : CkStatus) : (match x with
    | .ok => (s.beginMove n out p).respond 0
    | x => s.respond x.code) = s.runMove n out p x := by
  cases x <;> rfl

theorem moveCommand_held {out : Bool} {j : CkJob} (hheld : s.heldMove n out p = some j) (hturn : s.ckTurn j = true) {r : State}
    (hr : r = { s with ckJobs := s.ckJobs.erase j }) : s.moveCommand n out p = some (r.runMove n out p (r.moveStatus n out p)) := by
  subst hr
  unfold State.moveCommand
  simp only [hheld, hturn, if_true]
  exact congrArg some (match_status ..)

theorem moveCommand_new {out : Bool} (hnew : s.heldMove n out p = none) : s.moveCommand n out p = some (
    if s.moveStatus n out p = .ok ∧ s.ckOthers n = true then { s with ckJobs := s.ckJobs ++ [⟨n, false, 0, [], false, some (out, p), none⟩] }
    else s.runMove n out p (s.moveStatus n out p)) := by
  unfold State.moveCommand
  simp only [hnew]
  change (if (decide (s.moveStatus n out p = .ok) && s.ckOthers n) = true then _ else some _) = _
  simp only [Bool.and_eq_true, decide_eq_true_iff]
  split
  · rfl
  · exact congrArg some (match_status ..)

variable {eid : BitVec 16} {pkg : BitVec 15}

theorem migrateOut_occurs {u : State} (hman : s.managed = true) (h : s.moveCommand eid.toNat true pkg.toNat = some u) :
    Occurs (.migrateOut eid pkg) s u := occurs_of rfl ((if_neg (by rw [hman]; decide)).trans h)

theorem migrateIn_occurs {u : State} (hman : s.managed = true) (h : s.moveCommand eid.toNat false pkg.toNat = some u) :
    Occurs (.migrateIn eid pkg) s u := occurs_of rfl ((if_neg (by rw [hman]; decide)).trans h)

theorem moveCommand_out (hnew : s.heldMove n true p = none) : s.moveCommand n true p = some (
    if migrateStatus s n p = .ok then
      if s.ckOthers n then { s with ckJobs := s.ckJobs ++ [⟨n, false, 0, [], false, some (true, p), none⟩] }
      else ((s.modEncl n fun e => { e with migr := some ⟨true, p, 0, none⟩ }).haltContext n).respond 0
    else s.respond (migrateStatus s n p).code) := by
  have hstatus : s.moveStatus n true p = migrateStatus s n p := rfl
  rw [moveCommand_new hnew, hstatus, State.runMove, State.beginMove]
  by_cases hok : migrateStatus s n p = .ok
  · simp only [hok, true_and, if_true]
  · simp only [hok, false_and, if_false]

section Arrival

variable (hnew : s.heldMove n false p = none)
include hnew

theorem moveCommand_in_held (hok : arrivalStatus s n p = .ok) (hothers : s.ckOthers n = true) : s.moveCommand n false p =
    some { s with ckJobs := s.ckJobs ++ [⟨n, false, 0, [], false, some (false, p), none⟩] } := by
  rw [moveCommand_new hnew, if_pos ⟨hok, hothers⟩]

theorem moveCommand_in_begins (hok : arrivalStatus s n p = .ok) (hothers : s.ckOthers n = false) : s.moveCommand n false p =
    some ((s.modEncl n fun e => { e with migr := some ⟨false, p, 0, none⟩ }).respond 0) := by
  rw [moveCommand_new hnew, if_neg (fun h => Bool.eq_false_iff.mp hothers h.2)]
  exact congrArg some (if_pos hok)

theorem moveCommand_in_refused {x : CkStatus} (hx : arrivalStatus s n p = x) (hbad : x ≠ .ok) :
    s.moveCommand n false p = some (s.respond x.code) := by
  subst hx
  rw [moveCommand_new hnew, if_neg (fun h => hbad h.1)]
  exact congrArg some (if_neg hbad)

end Arrival

end Commands

/-! A migration's events (R441-R443) -/

section Migrations

variable {eid : Nat} {e : Encl} {m : Migr} {s : State} (he : s.encls.find eid = some e) (hm : e.migr = some m)
include he hm

section Source

variable (hstage : m.stage = 0) (hout : m.out = true)
include hstage hout

theorem migrationReady_goes (hdone : s.haltDone eid = true) {u : State} (hu : s.destroy eid e = some u) :
    Occurs (.migrationReady eid) s (u.ckNote eid 5 .ok) := by
  refine occurs_of rfl ?_
  simp only [he, hm, hstage, hout, hdone, hu, ne_eq, not_true_eq_false, if_false, if_true, Option.map_some]

theorem migrationReady_halts (hdone : s.haltDone eid = false) : Occurs (.migrationReady eid) s (s.forceHalt eid) := by
  refine occurs_of rfl ?_
  simp only [he, hm, hstage, hout, hdone, ne_eq, not_true_eq_false, Bool.false_eq_true, if_false, if_true]

end Source

theorem migrationReady_receives (hstage : m.stage = 0) (hin : m.out = false) :
    Occurs (.migrationReady eid) s (s.receive eid e m (streamedImage s.fresh)) := by
  refine occurs_of rfl ?_
  simp only [he, hm, hstage, hin, ne_eq, not_true_eq_false, Bool.false_eq_true, if_false]

theorem migrationGo_occurs {img : CkImage} (himage : m.image = some img) : Occurs (.migrationGo eid) s (s.start eid e img) := by
  refine occurs_of rfl ?_
  simp only [he, hm, himage, Option.map_some]

theorem streamFail_source (hout : m.out = true) :
    Occurs (.migrationStreamFail eid) s ((s.modEncl eid fun e => { e with migr := none }).endHalt eid false) := by
  refine occurs_of rfl ?_
  simp only [he, hm, hout, if_true]

variable (hin : m.out = false)
include hin

theorem streamFail_before (hstage : m.stage = 0) : Occurs (.migrationStreamFail eid) s (s.modEncl eid fun e => { e with migr := none }) := by
  refine occurs_of rfl ?_
  simp only [he, hm, hin, hstage, Bool.false_eq_true, if_false, if_true]

theorem streamFail_ready (hstage : m.stage = 1) :
    Occurs (.migrationStreamFail eid) s (s.modEncl eid fun e => { e with migr := some { m with stage := 2 } }) := by
  refine occurs_of rfl ?_
  simp only [he, hm]
  exact (if_neg (by rw [hin]; decide)).trans ((if_neg (by rw [hstage]; decide)).trans (if_pos hstage))

theorem streamFail_after (hstage : 1 < m.stage) {u : State} (hu : s.destroy eid e = some u) : Occurs (.migrationStreamFail eid) s u := by
  have h0 : m.stage ≠ 0 := by omega
  have h1 : m.stage ≠ 1 := by omega
  refine occurs_of rfl ?_
  simp only [he, hm, hin, h0, h1, hu, Bool.false_eq_true, if_false]

end Migrations

theorem receive_of_placed {eid : Nat} {e : Encl} {m : Migr} {s : State} {img : CkImage} {frames : List EcdPage}
    (h : placePages s e img.pages (List.range Config.slices) = some frames) : s.receive eid e m img =
      (s.loadImage eid e frames img).modEncl eid fun e => { e with
        halted := true, tsvAt := none, migr := some { m with stage := 1, image := some img } } := by
  unfold State.receive
  simp only [h]

/-- Settles O52: a request's turn by what it has come to, a migration command by whether it is held and its status, and each event of a
migration by the side and stage at which it stands. -/
theorem checkpointEvents : Obligations.CheckpointEvents := by
  unfold Obligations.CheckpointEvents
  refine ⟨fun eid d e s hman hall he => ⟨notice_occurs hman hall he, fun hctl => notify_checkpointable he hctl⟩,
    fun d s hman => notice_all hman,
    fun eid e d s he hd hpast hidle => noticeDeadline_occurs he hd hpast hidle,
    fun eid e j s hone hj he hkind hmove hturn =>
      ⟨fun r => checkpoint_writes hone hj he hkind hmove hturn,
        checkpoint_halts hone hj he hkind hmove hturn,
        fun x hr hnew hx hbad => checkpoint_fails hone hj he hkind hmove hturn hr hnew hx hbad,
        checkpoint_forms hone hj he hkind hmove hturn,
        checkpoint_forces hone hj he hkind hmove hturn⟩,
    fun e j r s hwrote => finishJob_of_written hwrote rfl rfl,
    fun eid e j s hone hj he hkind hmove hturn =>
      ⟨fun r => restore_writes hone hj he hkind hmove hturn,
        fun r x hr hret hcheck => restore_fails hone hj he hkind hmove hturn hr hret hcheck,
        fun r img frames hr hret hcheck => restore_loads hone hj he hkind hmove hturn hr hret hcheck⟩,
    fun eid pkg s hman =>
      ⟨fun hnew => migrateOut_occurs hman (moveCommand_out hnew),
        fun j hheld hturn => migrateOut_occurs hman (moveCommand_held hheld hturn rfl),
        fun hnew hok hothers => migrateIn_occurs hman (moveCommand_in_held hnew hok hothers),
        fun hnew hok hothers => migrateIn_occurs hman (moveCommand_in_begins hnew hok hothers),
        fun x hnew hx hbad => migrateIn_occurs hman (moveCommand_in_refused hnew hx hbad)⟩,
    fun eid e m s he hm =>
      ⟨fun hstage hout hdone u hu => migrationReady_goes he hm hstage hout hdone hu,
        fun hstage hout hdone => migrationReady_halts he hm hstage hout hdone,
        fun hstage hin => ⟨_, migrationReady_receives he hm hstage hin⟩,
        fun img frames h => receive_of_placed h,
        fun img himage => migrationGo_occurs he hm himage,
        streamFail_source he hm, streamFail_before he hm, streamFail_ready he hm,
        fun hin hstage u hu => streamFail_after he hm hin hstage hu⟩⟩

end Sys2Proof.Machine
end
